-- ==== Sys2Proof/Word.lean ====
section
/-! DEFINITION. The word types of the device (R7: registers are 32 bits, little-endian) and their plainest arithmetic. -/

namespace Sys2Proof

/-- One byte. -/
abbrev Byte := BitVec 8
/-- One 32-bit register word. -/
abbrev Word := BitVec 32
/-- A byte offset in the 512 MiB of BAR0 (R25). -/
abbrev Offset := BitVec 29
/-- A master ID; 10 to 15 never appear on an access (R28). -/
abbrev Master := Fin 10
/-- A line port. -/
abbrev Port := Fin 128
/-- A pier. -/
abbrev Pier := Fin 17

end Sys2Proof
end

