-- ==== Sys2Proof/Syntax.lean ====
section
/-! DEFINITION. The commands the block takes: one constructor of Instr for each row of the spec's table of operations and
events, with the row's operands. -/

namespace Sys2Proof

/-- The event classes of R393: alarm 0, fault 1, notice 2, log 3, trace 4, summary 5. -/
inductive EvClass where
  | alarm | fault | notice | log | trace | summary
  deriving DecidableEq, Repr

/-- A posted event record before admission (R393): code, class, source instance (bytes 16 to 23), time stamp (bytes 8
to 15) and payload (bytes 24 to 63, byte 24 lowest). -/
structure EventRec where
  code : Nat
  cls : EvClass
  inst : BitVec 64
  time : BitVec 64
  payload : BitVec 320
  deriving DecidableEq, Repr

/-- The staging register a timed-action staging write goes to (R490). -/
inductive TaStage where
  | index | span | type | operand
  deriving DecidableEq, Repr

/-- A received MAC control frame (R115, R116): PAUSE with its time in quanta of 512 bit times, PFC with its class
enable vector and the eight times (class 0 lowest), or another opcode. -/
inductive MacControl where
  | pause (time : BitVec 16)
  | pfc (enables : BitVec 8) (times : BitVec 128)
  | other (opcode : BitVec 16)
  deriving DecidableEq, Repr

/-- What one regulator reports to the poll of R408: its slot, whether it answered, its STATUS_WORD, READ_VOUT in mV and READ_IOUT in mA, and
whether the status read of its AVSBus rail shows a fault. -/
structure RegReport where
  slot : Fin 8
  answered : Bool
  status : BitVec 16
  vout : Nat
  iout : Nat
  avsFault : Bool
  deriving DecidableEq, Repr

/-- What became of a cell on its lane (R290): received, or destroyed by an uncorrectable codeword, as the first of the cells that the
codeword destroyed or as a later one. -/
inductive CellFate where
  | received | destroyedFirst | destroyedLater
  deriving DecidableEq, Repr

/-- The cell was destroyed. -/
def CellFate.destroyed (f : CellFate) : Bool := f != .received
/-- The cell was the first that its codeword destroyed. -/
def CellFate.first (f : CellFate) : Bool := f == .destroyedFirst

/-- Which memory a patrol read finds an error in (R444): a table entry by kind and index, a TCAM row of a pier and
pipe, a pier memory, or another memory of a domain. -/
inductive PatrolPlace where
  | table (kind : Nat) (index : Nat)
  | tcam (pier : Pier) (egress : Bool) (row : Nat)
  | pierMem (pier : Pier)
  | other (memory : Nat) (word : Nat)
  deriving DecidableEq, Repr

/-- What finds an error of a table memory (R188): a lookup, the memory patrol or the table access engine. -/
inductive ErrorFinder where
  | lookup | patrol | engine
  deriving DecidableEq, Repr

/-- An error that a read of a memory finds: where, whether it was corrected, and what reads the word. -/
structure PatrolError where
  place : PatrolPlace
  corrected : Bool
  finder : ErrorFinder := .patrol
  deriving DecidableEq, Repr

/-- A causeway transfer error (R449): corrected; uncorrectable, so that the transfer unit is sent again; or uncorrectable in a unit that was sent
again, a failed replay. -/
inductive CausewayKind where
  | corrected | replayed | failed
  deriving DecidableEq, Repr


/-- The commands: one constructor for each row of opcode_table.json: in the table's order the rows with operands, then the rows
without. -/
inductive Instr where
  /-- PORST_N_ASSERT (R419): Power-on reset resets everything, including the always-on domain, and the device
  enters M0. -/
  | porstNAssert (lowNs : Nat)
  /-- SYSRST_N_ASSERT (R419): System reset resets every switched domain and most GLB and SEC registers, and the
  device enters M0. -/
  | sysrstNAssert (lowNs : Nat)
  /-- PERST_N_ASSERT (R387): PCIe reset resets both PFs, disables their rings and queues, and aborts their DMA.
  -/
  | perstNAssert (lowNs : Nat)
  /-- FUNCTION_LEVEL_RESET (R387): An FLR of one PF disables that PF's rings and queues and aborts their DMA. -/
  | functionLevelReset (pf : Fin 2)
  /-- RESET_RELEASE (R22): Release of reset moves the device from M0 to M1, samples straps after PORST_N and
  starts the boot ROM. -/
  | resetRelease (straps : BitVec 13) (testEn : Bool) (mvs : List Nat)
  /-- TEST_EN_RELEASE (R471): TEST_EN falling lets the device leave M0 as at a PORST_N release. -/
  | testEnRelease (straps : BitVec 13) (mvs : List Nat)
  /-- REGISTER_WRITE (R10): A write to a register with no row of its own acts on its fields under their access
  codes. -/
  | registerWrite (m : Master) (off : Offset) (data : Word)
  /-- REG64_LOW_READ (R8): A low-half read of a 64-bit register returns the low half, latches the high half for
  that master and has the register's side effects. -/
  | reg64LowRead (m : Master) (off : Offset)
  /-- REG64_LOW_WRITE (R8): A low-half write of a 64-bit register is staged for the writing master. -/
  | reg64LowWrite (m : Master) (off : Offset) (data : Word)
  /-- REG64_HIGH_WRITE (R8): A high-half write commits both halves of a 64-bit register using the master's
  staged low half. -/
  | reg64HighWrite (m : Master) (off : Offset) (data : Word)
  /-- RC_READ (R10): A read of an RC field returns the field and then clears it. -/
  | rcRead (m : Master) (off : Offset)
  /-- UNMAPPED_ACCESS (R27): An access outside every window, or to an unassigned offset, completes without error
  and changes no state. -/
  | unmappedAccess (m : Master) (off : Offset) (isWrite : Bool)
  /-- BROADCAST_WRITE (R26): A write in the PIR broadcast window is applied in the same cycle to every powered
  pier. -/
  | broadcastWrite (m : Master) (off : BitVec 20) (data : Word)
  /-- GLB_LOCK_SET (R10): Writing 1 to GLB_LOCK freezes every RWL field until SYSRST_N or PORST_N. -/
  | glbLockSet (m : Master)
  /-- MAINT_REQ (R23): A write of 1 to GLB_CTRL.MAINT_REQ requests M10 and is accepted only in M2 or M3 outside
  M7. -/
  | maintReq (m : Master) (alsoFwd : Bool)
  /-- FWD_EN (R23): A write of 1 to GLB_CTRL.FWD_EN in M2 with a valid live bank starts forwarding in M3, M4 or
  M6. -/
  | fwdEn (m : Master)
  /-- SRC_SELECT (R34): A write of TIM_CTRL.SRC in M2 changes the STC source and the STC holds until that source
  locks. -/
  | srcSelect (m : Master) (src : BitVec 2)
  /-- SPAN_DISAGREE (R35): A fabric link whose span number disagrees for 2 consecutive spans is excluded as a
  time source and reported faulty. -/
  | spanDisagree (link : Fin 40)
  /-- FABRIC_RELOCK (R37): After 4 spans of valid control slots, the device loads the STC, sets LOCKED and marks
  near or past timed actions MISSED. -/
  | fabricRelock
  /-- PPS_EDGE (R38): A TIME_PPS_IN edge is measured against the PHC second and steers the PLL. -/
  | ppsEdge (errNs : BitVec 32)
  /-- SPAN_SYNC_MARKER (R39): A SPAN_SYNC_IN marker loads the STC when armed, and otherwise is checked for its
  position. -/
  | spanSyncMarker (slot : Fin 100)
  /-- SYNC_LOAD_ARM (R39): A write of TIM_SYNC_CFG.LOAD_ARM arms the next marker to load TIM_SYNC_LOAD. -/
  | syncLoadArm (m : Master)
  /-- TOD_MESSAGE_RX (R42): A received ToD message is checked and, if accepted, sets the PHC at the next PPS
  edge. -/
  | todMessageRx (afterPpsMs : Nat) (bytes : List Byte)
  /-- TA_STAGE_WRITE (R490): A write of TIM_TA_SPAN, TIM_TA_TYPE or TIM_TA_OPERAND goes to the writing master's
  staging set. -/
  | taStageWrite (m : Master) (which : TaStage) (value : BitVec 64)
  /-- TA_ARM (R50): TIM_TA_CMD = 1 arms the selected entry with the staged values, after the ordered refusal
  checks. -/
  | taArm (m : Master)
  /-- TA_CANCEL (R51): TIM_TA_CMD = 2 returns an ARMED entry to FREE when its span is at least 2 spans ahead. -/
  | taCancel (m : Master)
  /-- IMG_LOAD_START (R81): IMG_LOAD_CMD with CMD = 1 starts an image load to the selected target, unless R82
  refuses it. -/
  | imgLoadStart (m : Master) (target : BitVec 2)
  /-- IMG_LOAD_ABORT (R87): IMG_LOAD_CMD with CMD = 2 aborts a running load with cause ABORTED. -/
  | imgLoadAbort (m : Master)
  /-- IMG_LOAD_END (R83): A load finishes its checks and either fails with a cause or passes and updates the
  bank states. -/
  | imgLoadEnd (dma : Option (List Byte)) (tamper : Bool)
  /-- WALK_START (R91): IMG_WALK_CMD = 1 starts a pier walk unless one of the refusal cases applies. -/
  | walkStart (m : Master)
  /-- WALK_ABANDON (R98): IMG_WALK_CMD = 2 abandons the walk after the step in progress has reloaded. -/
  | walkAbandon (m : Master)
  /-- WALK_RESUME (R98): IMG_WALK_CMD = 3 resumes an abandoned walk from its next step. -/
  | walkResume (m : Master)
  /-- WALK_STEP_TIMEOUT (R95): A copy not finished by slot 0 of S + 8 fails the step, retires the new pier and
  abandons the walk. -/
  | walkStepTimeout (newPierFailed : Bool)
  /-- PIER_RELOAD_DONE (R93): The vacated pier finishes reloading its pier-local sections and becomes SPARE, or
  is retired on a CRC failure. -/
  | pierReloadDone (pier : Pier) (crcOk : Bool)
  /-- PIER_FAULT (R100): A serving pier that fails its checks is retired onto the spare, or halted if there is
  no spare. -/
  | pierFault (pier : Pier) (kind : BitVec 4) (pipe : BitVec 2) (stage : BitVec 5) (badSs badMeters : List Nat)
  /-- STROKE_TIMEOUT (R132): A stroke still in the pipeline 4,096 clocks after issue is a pier fault of type
  timeout. -/
  | strokeTimeout (pier : Pier) (pipe : BitVec 2) (stage : BitVec 5)
  /-- PIER_RETIRE_CMD (R102): IMG_PIER_CMD with CMD = 1 retires a spare pier, or moves a serving pier onto the
  spare. -/
  | pierRetireCmd (m : Master) (pier : BitVec 5)
  /-- PIER_RESTORE_CMD (R102): IMG_PIER_CMD with CMD = 2 powers a RETIRED pier and starts its BIST, TCAM copy
  and reload. -/
  | pierRestoreCmd (m : Master) (pier : BitVec 5)
  /-- LANE_MAP_WRITE (R106): A write of LPT_OCT_RX_MAP or LPT_OCT_TX_MAP is accepted only while the octet is
  down and the map is a permutation. -/
  | laneMapWrite (m : Master) (port : Port) (tx : Bool) (data : Word)
  /-- FRAME_RECEIVE (R108): A whole frame is received, FEC-decoded and FCS-checked, then dropped at the MAC or
  placed in the octet's receive buffer. -/
  | frameReceive (port : Port) (bytes : List Byte) (tick : Fin 3200)
  /-- MAC_CONTROL_FRAME_RX (R116): A received PAUSE or PFC frame is consumed at the MAC and pauses the named
  classes. -/
  | macControlFrameRx (port : Port) (ctl : MacControl)
  /-- PAUSE_EXPIRY (R116): A class's pause time runs out and the class may transmit again. -/
  | pauseExpiry (port : Port) (cls : Fin 8)
  /-- PFC_REFRESH (R117): While above XON, the port repeats the pause frame every QUANTA ÷ 2 quanta. -/
  | pfcRefresh (port : Port) (cls : Fin 8)
  /-- PFC_WATCHDOG (R118): A class paused for WD spans has PFC ignored, and it is honoured again after WD spans
  with no pause request. -/
  | pfcWatchdog (port : Port) (cls : Fin 8)
  /-- MSEC_SA_INSTALL (R112): LPT_MSEC_SA_CMD = 1 installs the selected SA from the staged values atomically,
  unless the SA is in use. -/
  | msecSaInstall (m : Master) (port : Port)
  /-- MSEC_SA_RETIRE (R112): LPT_MSEC_SA_CMD = 2 makes the SA invalid and clears its staged keys. -/
  | msecSaRetire (m : Master) (port : Port)
  /-- TXTS_POP (R114): Writing LPT_CTRL.TXTS_POP removes the head of the transmit timestamp FIFO. -/
  | txtsPop (m : Master) (port : Port)
  /-- LPT_CNT_CLR (R127): Writing LPT_CTRL.CNT_CLR zeroes every port counter in one cycle. -/
  | lptCntClr (m : Master) (port : Port)
  /-- GCL_COMMIT (R120): LPT_GCL_CTRL.COMMIT takes the staged entries, base and cycle as the pending gate list,
  unless R120 refuses it. -/
  | gclCommit (m : Master) (port : Port)
  /-- GCL_START (R47): At its chosen start, the pending gate list replaces the running one. -/
  | gclStart (port : Port)
  /-- GATE_ENTRY_ADVANCE (R119): A gate-list entry's interval ends and the next entry's gate states apply, or
  the cycle restarts. -/
  | gateEntryAdvance (port : Port)
  /-- PREEMPT_VERIFY_EXCHANGE (R123): The 802.3br verify exchange completes, and preemption starts on success.
  -/
  | preemptVerifyExchange (port : Port) (ok : Bool)
  /-- ADMIN_UP_WRITE (R125): A write of LPT_CTRL.ADMIN_UP = 0 takes the port down at once, and 1 allows it up.
  -/
  | adminUpWrite (m : Master) (port : Port) (up : Bool)
  /-- PORT_LINK_DOWN (R126): A fault cause that lasts HOLD_DOWN spans takes the port down, ending frames,
  flushing queues and reporting the system port down. -/
  | portLinkDown (port : Port)
  /-- PORT_LINK_UP (R125): After HOLD_UP clean spans with ADMIN_UP = 1, the port comes up. -/
  | portLinkUp (port : Port)
  /-- FEC_INTERVAL (R125): At the end of each 1,024-span interval, the uncorrectable codeword count is compared
  with FEC_THR. -/
  | fecInterval (port : Port) (corrected uncorrectable : Nat)
  /-- INGRESS_STROKE (R133): An issued frame or injected packet is parsed, classified, looked up and decided,
  then dropped, recirculated or sent to the TM. -/
  | ingressStroke (pier : Pier)
  /-- SECOND_STROKE (R134): The head of the second-stroke queue issues and runs another ingress stroke in its
  tag's bank. -/
  | secondStroke (pier : Pier)
  /-- EGRESS_STROKE (R132): A packet from the TM is rewritten, encapsulated, egress-classified and MACsec-
  protected. -/
  | egressStroke (pier : Pier)
  /-- TCAM_COMMIT_REQUEST (R154): A write of PIR_TCAM_CTRL queues a commit of the shadow rows of an entry. -/
  | tcamCommitRequest (m : Master) (data : Word)
  /-- TCAM_COMMIT (R155): A pending commit takes an issue slot and copies the entry's shadow rows into the live
  rows in one clock. -/
  | tcamCommit (pier : Pier)
  /-- PIR_CNT_CLR (R10): Writing PIR_CTRL.CNT_CLR zeroes the pier counters. -/
  | pirCntClr (m : Master) (pier : Pier)
  /-- TAE_SUBMIT (R196): A write of slot bytes 0–3 copies the slot's request into the engine queue with a
  sequence number. -/
  | taeSubmit (m : Master) (slot : Fin 512) (request : BitVec 2048)
  /-- BULK (R203): The engine fetches and executes a list of request records by DMA until one fails. -/
  | bulk (dma : Option (List Byte))
  /-- ENTRY_WINDOW_READ (R201): A BAR2 entry-window read issues or reuses a latched READ_INDEX for that master.
  -/
  | entryWindowRead (m : Master) (off : BitVec 30)
  /-- ENTRY_WINDOW_WRITE (R201): A BAR2 entry-window write stages bytes and submits a WRITE_INDEX once the entry
  is complete. -/
  | entryWindowWrite (m : Master) (off : BitVec 30) (data : Word)
  /-- SNAPSHOT_COPY_DONE (R186): A counter snapshot finishes its DMA and the set's STATE becomes done or failed.
  -/
  | snapshotCopyDone (ok : Bool) (copied : Nat)
  /-- REHASH_OPEN (R207): TBL_REHASH_CTRL with CMD = 1 opens a rehash of a table into a shadow region, unless
  refused. -/
  | rehashOpen (m : Master) (table : BitVec 8)
  /-- REHASH_COMMIT (R209): CMD = 2 on a READY rehash replaces the table's placement and seeds in one clock. -/
  | rehashCommit (m : Master) (table : BitVec 8)
  /-- REHASH_ABORT (R209): CMD = 3 aborts an open rehash before commit. -/
  | rehashAbort (m : Master) (table : BitVec 8)
  /-- OPEN_PAGE_TIMEOUT (R221): An open page unused by its requester for 64 spans stops being open and is freed
  if it holds no record. -/
  | openPageTimeout (req : Fin 24) (pool : Fin 3)
  /-- BUF_ALLOC_READ (R8): A low-half read of BUF_ALLOCn allocates one buffer for the master's requester and
  returns its address, or FAIL. -/
  | bufAllocRead (m : Master) (pool : Fin 3)
  /-- BUF_FREE_ADDR (R228): The high-half write of BUF_FREE_ADDR submits a checked free of a buffer address. -/
  | bufFreeAddr (m : Master) (high : Word)
  /-- BUF_FREE_HANDLE (R228): A write of BUF_FREE_HANDLE submits a checked free of a handle. -/
  | bufFreeHandle (m : Master) (handle : Word)
  /-- PREFETCH (R232): The prefetcher copies the oldest far record of a spilled queue into near pages of the
  reserve. -/
  | prefetch (farErr : Fin 3)
  /-- CXL_LINK_TRAINED (R236): A CXL link trains, its expander is enumerated and its port reads READY or
  UNSUPPORTED. -/
  | cxlLinkTrained (port : Fin 4) (width : BitVec 5) (rate : BitVec 7) (pages : Word) (supported : Bool)
  /-- CXL_TRAIN_TIMEOUT (R236): A CXL link not trained within 100 ms returns to ABSENT. -/
  | cxlTrainTimeout (port : Fin 4)
  /-- CXL_TRAIN_RETRY (R236): Firmware retries training of an ABSENT port every 976,563 spans. -/
  | cxlTrainRetry (port : Fin 4)
  /-- CXL_ENABLE (R237): BUF_CXL_CTRL CMD 1 adds a READY port's pages to the far pool, or starts training an
  ABSENT port. -/
  | cxlEnable (m : Master) (port : Fin 4)
  /-- CXL_DRAIN (R237): CMD 2 stops new far pages being taken from an UP port. -/
  | cxlDrain (m : Master) (port : Fin 4)
  /-- CXL_DRAIN_COMPLETE (R237): A DRAINING port that holds no page returns to READY. -/
  | cxlDrainComplete (port : Fin 4)
  /-- CXL_DISABLE (R237): CMD 3 takes the link down and powers the port off. -/
  | cxlDisable (m : Master) (port : Fin 4)
  /-- CXL_LINK_FAIL (R239): An UP or DRAINING port's link fails, so it goes DOWN and its free pages leave the
  far pool. -/
  | cxlLinkFail (port : Fin 4) (surprise : Bool)
  /-- CXL_LINK_RETRAINED (R239): A DOWN port that holds no page and has retrained returns to READY. -/
  | cxlLinkRetrained (port : Fin 4)
  /-- QUE_PORT_CFG_WRITE (R244): A write of QUE_PORT_CFG sets a port's egress queue range unless R244 refuses
  it. -/
  | quePortCfgWrite (m : Master) (port : Port) (data : Word)
  /-- NODE_PORT_WRITE (R257): A write of QUE_NODE_PORT is accepted only for a detached node with no children. -/
  | nodePortWrite (m : Master) (data : Word)
  /-- QUE_ATTACH (R255): QUE_MOVE_CMD = 1 attaches SRC and its descendants under node DST. -/
  | queAttach (m : Master)
  /-- QUE_SWAP (R255): QUE_MOVE_CMD = 2 puts detached DST in place of attached SRC. -/
  | queSwap (m : Master)
  /-- QUE_DETACH (R255): QUE_MOVE_CMD = 3 detaches SRC with its descendants. -/
  | queDetach (m : Master)
  /-- SCHEDULER_SELECTION (R254): Each pier clock, an octet's scheduler selects a packet down a port's tree by
  state, priority and tag. -/
  | schedulerSelection (octet : Option (Fin 16)) (descriptor : BitVec 256) (farErr : Fin 3) (disabled : Bool)
  /-- FLUSH_QUEUE (R265): QUE_FLUSH_CMD with SCOPE 1 requests a flush of the selected queue. -/
  | flushQueue (m : Master)
  /-- FLUSH_PORT (R265): QUE_FLUSH_CMD with SCOPE 2 requests a flush of a port's egress queues. -/
  | flushPort (m : Master) (port : Port)
  /-- FLUSH_ALL_VOQS (R265): QUE_FLUSH_CMD with SCOPE 3 requests a flush of every VOQ. -/
  | flushAllVoqs (m : Master)
  /-- HIST_REBIND (R261): Writing a new QUEUE to QUE_HIST_CFG rebinds a histogram slot and zeroes its bins. -/
  | histRebind (m : Master) (data : Word)
  /-- HIST_CLEAR (R261): Writing QUE_HIST_CFG.CLR zeroes the slot's bins. -/
  | histClear (m : Master) (data : Word)
  /-- ELEM_BIND (R283): A write of SHP_ELEM_PROFILE binds an element to a profile and adjusts its levels. -/
  | elemBind (m : Master) (data : Word)
  /-- SET_SWITCH_WRITE (R284): A write of SHP_SET_SWITCH requests a switch of a set at the next span. -/
  | setSwitchWrite (m : Master) (data : Word)
  /-- FAB_LANE_LOCK (R290): A fabric lane locks once alignment holds and one span of markers is correct. -/
  | fabLaneLock (lane : Fin 160)
  /-- FAB_LANE_LOCK_LOSS (R290): A fabric lane loses lock after 4 consecutive incorrect markers. -/
  | fabLaneLockLoss (lane : Fin 160)
  /-- FABRIC_LINK_UP (R296): A link whose four lanes are locked and have delivered valid control-down cells for
  4 spans comes up. -/
  | fabricLinkUp (link : Fin 40)
  /-- FABRIC_LINK_DOWN (R296): A link goes down on any of its six causes and starts bring-up again. -/
  | fabricLinkDown (link : Fin 40) (cause : BitVec 4)
  /-- FAB_ENABLE_WRITE (R297): A write of FAB_CTRL.EN enables the interface into BRINGUP, or disables it. -/
  | fabEnableWrite (m : Master) (en : Bool)
  /-- FAB_RESTART (R297): Writing FAB_CTRL.RESTART takes every link down and returns the interface to BRINGUP.
  -/
  | fabRestart (m : Master)
  /-- CONTROL_DOWN_RX (R305): A received control-down cell is validated and its time, node, owner, grants and
  port reports are taken. -/
  | controlDownRx (lane : Fin 160) (fate : CellFate) (cell : BitVec 2048)
  /-- CELL_SEND (R308): Each granted slot sends its staged data cell, or a filler counted as wasted. -/
  | cellSend (slot : Fin 100)
  /-- DATA_CELL_RX (R310): A received data cell is checked and placed in its reassembly context, which passes
  complete packets to the deck. -/
  | dataCellRx (lane : Fin 160) (slot : Fin 100) (fate : CellFate) (cell : BitVec 2048)
  /-- REASM_TIMEOUT (R311): At slot 0 of the ninth span after waiting began, a missing cell is declared lost and
  its packets are dropped. -/
  | reasmTimeout (node : BitVec 10) (tc : Fin 8)
  /-- REASM_STALE (R311): A context holding a partial packet with no cell for 1,024 spans drops it. -/
  | reasmStale (node : BitVec 10) (tc : Fin 8)
  /-- TAKEOVER_REQUEST (R315): A write of FAB_PAIR_CTRL.TAKEOVER in M5 requests pair ownership in control-up
  cells. -/
  | takeoverRequest (m : Master)
  /-- MC_GROUP_WRITE (R331): A write of DCK_MC_GROUP sets a group entry unless R331 refuses it. -/
  | mcGroupWrite (m : Master) (data : Word)
  /-- CL_ENTRY_WRITE (R326): The high-half write of DCK_CL_ENTRY commits a copy-list entry. -/
  | clEntryWrite (m : Master) (high : Word)
  /-- MC_COUNTER_CLR (R10): Writing DCK_MC_SEL.CLR zeroes the selected group's counters. -/
  | mcCounterClr (m : Master)
  /-- TWIN_ENABLE (R333): A write of TWN_CTRL.EN enables twin operation, in M2 with fabric timing and the fabric
  enabled. -/
  | twinEnable (m : Master) (en : Bool)
  /-- RALIN_LANE_LOCK (R336): A Ralin lane locks after one span of correct markers. -/
  | ralinLaneLock (lane : Fin 8) (markers : List (BitVec 16))
  /-- RALIN_LANE_LOCK_LOSS (R336): A Ralin lane loses lock after 4 incorrect markers. -/
  | ralinLaneLockLoss (lane : Fin 8) (first : Fin 25) (markers : List (BitVec 16))
  /-- HEARTBEAT_RX (R339): A valid heartbeat updates the peer state, flags and ACK and ends heartbeat loss. -/
  | heartbeatRx (frame : BitVec 4096)
  /-- MIRROR_FRAME_RX (R340): A received MIRROR frame is applied in SEQ order and its records are scheduled at
  their spans. -/
  | mirrorFrameRx (frame : BitVec 4096)
  /-- MIRROR_FAILURE (R344): A late record, a refused mirrored arm or a mirror-buffer loss sends the standby to
  M6. -/
  | mirrorFailure (cause : Fin 8)
  /-- DIGEST_WINDOW_CLOSE (R347): A twin closes a 4,096-record window on an aligned port and sends its digest
  entry. -/
  | digestWindowClose (port : Port)
  /-- DIGEST_RX (R347): The active compares the standby's digest entry with its own and counts a match, mismatch
  or void. -/
  | digestRx (frame : BitVec 4096)
  /-- DIGEST_COMPARE_TIMEOUT (R347): A window the standby has not sent within 1,024 spans is dropped from
  comparison. -/
  | digestCompareTimeout (port : Port)
  /-- REALIGN_RX (R346): The standby searches its records for the REALIGN fingerprint and aligns the port or
  reads it unaligned. -/
  | realignRx (frame : BitVec 4096)
  /-- VERDICT_RX (R350): The active decides on the standby's evidence, or the standby acts on the active's
  verdict. -/
  | verdictRx (frame : BitVec 4096)
  /-- EVIDENCE_EXPIRY (R349): An evidence bit clears 65,536 spans after its source last fired. -/
  | evidenceExpiry (bit : Fin 32)
  /-- TWN_DEMOTE (R352): TWN_CMD DEMOTE demotes the active to M6 WAIT if the peer shows M5. -/
  | twnDemote (m : Master)
  /-- TWN_RESYNC (R351): TWN_CMD RESYNC sends a standby in M5 to M6 WAIT. -/
  | twnResync (m : Master)
  /-- TWN_FORCE_PROMOTE (R360): TWN_CMD FORCE_PROMOTE in M6 WAIT keeps verified segments, clears the rest and
  claims ownership. -/
  | twnForcePromote (m : Master)
  /-- TWN_RELEASE (R351): TWN_CMD RELEASE moves the device from M9 to M6 WAIT. -/
  | twnRelease (m : Master)
  /-- TWN_REACTIVATE (R351): TWN_CMD REACTIVATE moves the device from M9 to M4 when it is the fabric's owner. -/
  | twnReactivate (m : Master)
  /-- RESYNC_CTRL_RX (R356): A RESYNC_CTRL frame is acted on: request, accept, refuse, segment done, resend,
  manifest end, abort or in-step. -/
  | resyncCtrlRx (frame : BitVec 4096)
  /-- MANIFEST_RX (R355): The standby records the segment entries of a MANIFEST frame. -/
  | manifestRx (frame : BitVec 4096)
  /-- SEGMENT_RX (R357): The standby writes received segment data and checks the segment CRC at SEG_DONE. -/
  | segmentRx (frame : BitVec 4096)
  /-- COPY_ABORT (R359): A copy is aborted on its causes and the standby returns to M6 WAIT. -/
  | copyAbort (cause : Fin 8)
  /-- LOCKSTEP_MISMATCH (R364): A comparator mismatch halts a control pair and starts its restart from
  checkpoint, or fails it on the third. -/
  | lockstepMismatch (pair : Fin 4)
  /-- PAIR_RESTART (R364): The pair reloads its checkpoint and resumes, releasing its locks and counting as a
  master reset. -/
  | pairRestart (pair : Fin 4)
  /-- PAIR_CHECKPOINT (R364): Firmware completes a checkpoint of the pair's state at least every 1,024 spans. -/
  | pairCheckpoint (pair : Fin 4)
  /-- SERVICE_REQUEST (R371): A firmware service handles a posted request message and replies on the return
  channel. -/
  | serviceRequest (server : Fin 6) (channel : Fin 64)
  /-- MBX_BIND_WRITE (R372): A write of CTL_MBX_BIND by master 0 before LOCK sets a channel binding, unless
  refused. -/
  | mbxBindWrite (m : Master) (ch : Fin 64) (data : Word)
  /-- BIND_LOCK_SET (R372): Writing CTL_BIND_LOCK.LOCK freezes the binding table until PORST_N. -/
  | bindLockSet (m : Master)
  /-- MBX_DATA_WRITE (R374): The sender's write of CTL_MBX_DATA goes to the channel's staging buffer. -/
  | mbxDataWrite (m : Master) (ch : Fin 64) (w : Fin 16) (data : Word)
  /-- MBX_POST (R374): A write of CTL_MBX_POST copies the staging buffer to the posted message, increments SEQ
  and rings the doorbell. -/
  | mbxPost (m : Master) (ch : Fin 64) (data : Word)
  /-- MBX_RXSTAT_READ (R375): The receiver's read of CTL_MBX_RXSTAT latches a copy of the posted message. -/
  | mbxRxstatRead (m : Master) (ch : Fin 64)
  /-- MBX_ACK (R375): A write of CTL_MBX_ACK with the current SEQ clears FULL. -/
  | mbxAck (m : Master) (ch : Fin 64) (data : Word)
  /-- BELL_CLEAR (R377): Master m clears doorbell bits in CTL_BELLm by writing 1. -/
  | bellClear (m : Master) (target : Fin 10) (data : Word)
  /-- BELL_MASK_WRITE (R377): A write of CTL_BELL_MASKm, which interrupts if it unmasks a set doorbell. -/
  | bellMaskWrite (m : Master) (target : Fin 10) (data : Word)
  /-- LOCK_READ (R382): A read of a free lock acquires it, and a read of an owned lock returns the owner ID plus
  1. -/
  | lockRead (readers : List Master) (lock : Fin 64)
  /-- LOCK_WRITE (R382): A write of 0 by the owner releases the lock, and any other write changes nothing. -/
  | lockWrite (m : Master) (lock : Fin 64) (data : Word)
  /-- PCIE_LINK_UP (R491): PCIe training completes and HST_STATUS takes DL_UP, width and rate. -/
  | pcieLinkUp (width : BitVec 4) (rate : BitVec 7)
  /-- PQ_TAIL_WRITE (R389): A write of a punt queue's TAIL hands descriptors to the device. -/
  | pqTailWrite (m : Master) (queue : Fin 64) (tail : BitVec 16)
  /-- IQ_TAIL_WRITE (R391): A write of an inject queue's TAIL hands descriptors to the device, and is refused
  for queue 15 while telemetry runs. -/
  | iqTailWrite (m : Master) (queue : Fin 16) (tail : BitVec 16)
  /-- INJECT_FETCH (R391): The device fetches an inject descriptor and its packet, then injects it or refuses
  it. -/
  | injectFetch (queue : Fin 16) (descriptor : BitVec 256) (packet : Option (List Byte))
  /-- QUEUE_ENABLE_WRITE (R387): A write of HST_PQ_CFG or HST_IQ_CFG EN enables a queue and sets HEAD to TAIL,
  or disables it. -/
  | queueEnableWrite (m : Master) (inject : Bool) (queue : Fin 64) (data : Word)
  /-- EVR_ENABLE_WRITE (R392): A write of HST_EVR_CFG.EN enables a ring with PROD and the accept index set to
  CONS, or disables it and discards unwritten records. -/
  | evrEnableWrite (m : Master) (ring : Fin 16) (data : Word)
  /-- EVENT_POST (R396): A posted record is accepted with a SEQ, or suppressed and counted, by the class rules.
  -/
  | eventPost (traced : Option EventRec)
  /-- EVR_DMA_ERROR (R392): A DMA error on a ring sets ERR, clears EN and discards unwritten records. -/
  | evrDmaError (ring : Fin 16)
  /-- EVR_INTERRUPT (R394): A ring raises its vector at once for an alarm, or after MOD_CNT records or MOD_SPANS
  spans. -/
  | evrInterrupt (ring : Fin 16)
  /-- ENTDAA (R400): The I3C target takes a dynamic address through ENTDAA. -/
  | entdaa (address : BitVec 7)
  /-- I3C_PRIVATE_WRITE (R401): A one-byte private write sets the status-page read offset. -/
  | i3cPrivateWrite (bytes : List Byte)
  /-- I3C_PRIVATE_READ (R401): A private read returns the status page from the offset, wrapping at 64. -/
  | i3cPrivateRead (count : Nat)
  /-- DOMAIN_SWITCH (R404): The power manager switches a domain on or off within 256 spans of its condition
  changing. -/
  | domainSwitch (domain : Fin 146)
  /-- RAIL_OOR (R406): A non-core monitor outside ±5 % for 1 ms, or back inside, posts PWR_RAIL_OOR. -/
  | railOor (monitor : Fin 16)
  /-- REGULATOR_POLL (R408): Every 1,024 spans the power manager polls each regulator and clears reported
  faults. -/
  | regulatorPoll (reports : List RegReport)
  /-- PIER_CLOCK_CHANGE (R409): A pier clock moves to the lowest of its target, shed cap and thermal cap within
  4 spans. -/
  | pierClockChange (pier : Pier)
  /-- TEMP_READING (R416): Every 1,024 spans the sensors read, and the thermal cap falls or rises by 100 MHz. -/
  | tempReading (eighths : List Int)
  /-- BOOT_COMPLETE (R426): The security core finishes fuse, flash and bundle checks and starts the other cores,
  reaching WAIT_IMAGE, M11 or HALTED. -/
  | bootComplete (tamperLow : Bool) (readError : BitVec 3)
  /-- FUSE_ADVANCE (R430): SEC_FUSE_CMD OP 1 raises FW_ARB to the running bundle's SVN. -/
  | fuseAdvance (m : Master)
  /-- FUSE_REVOKE (R430): SEC_FUSE_CMD OP 2 blows the KEY_REVOKE bit of a slot. -/
  | fuseRevoke (m : Master) (slot : BitVec 4)
  /-- FUSE_JTAG_LOCK (R430): SEC_FUSE_CMD OP 3 blows JTAG_LOCK. -/
  | fuseJtagLock (m : Master)
  /-- ATTEST_START (R433): Writing SEC_ATT.START snapshots the reported values and starts building a signed
  report. -/
  | attestStart (m : Master)
  /-- FLASH_READ (R438): SEC_FLASH_CMD 1 reads flash into host memory. -/
  | flashRead (m : Master)
  /-- FLASH_ERASE (R438): SEC_FLASH_CMD 2 erases 4 KiB sectors outside the booted slot. -/
  | flashErase (m : Master)
  /-- FLASH_PROGRAM (R438): SEC_FLASH_CMD 3 programs flash from host memory and verifies it by read-back. -/
  | flashProgram (m : Master)
  /-- FLASH_OP_DONE (R438): A flash operation ends as done, error or aborted. -/
  | flashOpDone (dma : Option (List Byte))
  /-- SEC_SYS_RESET (R437): SEC_CTRL.SYS_RESET written by master 6 outside M10 and M11 causes a system reset. -/
  | secSysReset (m : Master)
  /-- CU_ARM (R442): A write of DGN_CU_CTRL with ARM = 1 arms a check unit for the next stream at its snoop
  point. -/
  | cuArm (m : Master) (unit : Fin 8) (data : Word)
  /-- CU_STREAM_END (R443): At the end of its stream, a unit compares its CRC with EXPECT and may abort the
  stream. -/
  | cuStreamEnd (unit : Fin 8) (bytes : List Byte) (complete : Bool)
  /-- PATROL_READ (R444): The memory patrol reads the next word of a powered memory and handles any error it
  finds. -/
  | patrolRead (error : Option PatrolError)
  /-- BIST_START (R446): DGN_BIST_CMD START runs logic BIST on a spare or unloaded pier, or on any pier in M10.
  -/
  | bistStart (m : Master) (data : Word)
  /-- BIST_DONE (R447): After 4,096 spans, a pass reloads the pier to SPARE and a failure retires it. -/
  | bistDone (pass : Bool)
  /-- RECAL_START (R448): DGN_RECAL_CMD forces full recalibration of an idle lane. -/
  | recalStart (m : Master) (data : Word)
  /-- CAUSEWAY_ERROR (R449): A causeway transfer error is corrected, or replayed, and 16 failed replays stop
  that direction. -/
  | causewayError (fromFe : Bool) (kind : CausewayKind)
  /-- CW_TEST_ENABLE (R450): A write of DGN_CW_TEST.EN in M10 runs PRBS on every causeway wire. -/
  | cwTestEnable (m : Master) (data : Word)
  /-- MAINT_TEST_START (R451): DGN_MAINT_CMD START in M10 runs the tests set in SCOPE in bit order. -/
  | maintTestStart (m : Master) (data : Word)
  /-- MAINT_TEST_DONE (R451): The maintenance tests end with a pass bitmap. -/
  | maintTestDone (pass : BitVec 8)
  /-- FRAME_TRANSMIT (R121): The MAC starts a frame whose class is open, unpaused and fits, or preempts it, or
  drops it as oversize. -/
  | frameTransmit (port : Port) (tick : Fin 3200)
  /-- RAIL_READING (R407): Every 10 µs each supply monitor reads its rail to 1 mV and updates PWR_RAIL MV and
  MIN_MV. -/
  | railReading (millivolts : List Nat)
  /-- LINE_FAULT_CHANGE (R125): A line port's PCS block or alignment lock, local fault or remote fault condition
  begins or ends, updating LPT_STATUS and starting or stopping the HOLD_DOWN or HOLD_UP count. -/
  | lineFaultChange (port : Port) (cause : BitVec 3) (present : Bool)
  /-- M10_ENTRY_COMPLETE (R23): Once reception and transmission have stopped, every queue is flushed and fabric
  demand has stopped, GLB_MODE reads M10 and all buffers are returned. -/
  | m10EntryComplete
  /-- SPAN_START (R32): The slot index wraps to 0 and the span number increments. -/
  | spanStart
  /-- FABRIC_TIME_LOSS (R36): After 4 spans with no valid control slot, the device clears LOCKED and holds the
  STC and PHC. -/
  | fabricTimeLoss
  /-- PLL_LOCK (R488): The span PLL locks, LOCKED sets and a self-timed STC starts counting. -/
  | pllLock
  /-- PLL_LOCK_LOSS (R489): Loss of span-PLL lock clears LOCKED and holds the STC and PHC. -/
  | pllLockLoss
  /-- PPS_EDGES_MISSING (R38): After 3 consecutive missing PPS edges, PPS_LOCK clears. -/
  | ppsEdgesMissing
  /-- SPAN_SYNC_MARKERS_MISSING (R39): 2 consecutive missing span-sync markers clear LOCKED. -/
  | spanSyncMarkersMissing
  /-- SPAN_SYNC_OUT_MARKER (R40): When enabled, SPAN_SYNC_OUT drives a marker at each multiple of 1,024 spans.
  -/
  | spanSyncOutMarker
  /-- PHC_SECOND (R42): At each PHC second, TIME_PPS_OUT rises and stays high for OUT_WIDTH spans. -/
  | phcSecond
  /-- TOD_MESSAGE_TX (R42): 500 ms after each PHC second, the device sends the ToD message on TIME_TOD_TX. -/
  | todMessageTx
  /-- TOD_BASE_UPDATE (R44): A new ToD base or correction applies from slot 0 of the next span. -/
  | todBaseUpdate
  /-- KEYSTONE_FIRE (R56): At slot 0 of span K, every pier and the TM flip to the staged bank and the epoch
  increments. -/
  | keystoneFire
  /-- TIMED_ACTION_FIRE (R52): At slot 0 of its span, a non-keystone entry performs its action, in ascending
  index, and goes to DONE with its result. -/
  | timedActionFire
  /-- DRAIN_LIMIT_REACHED (R58): At slot 0 of K + L, the old bank is released at once if no old-tagged packet
  remains, and otherwise an expiry sweep starts. -/
  | drainLimitReached
  /-- EXPIRY_SWEEP_COMPLETE (R58): The sweep has dropped every old-tagged packet, so the old bank is released
  and OLD_HELD clears. -/
  | expirySweepComplete
  /-- WALK_STEP_COMMIT (R93): Once the copy is done, the lane switch binds the octet to the new pier, which
  serves copied entries and then held frames. -/
  | walkStepCommit
  /-- READ_KEY (R198): The engine returns the entry that holds KEY. -/
  | readKey
  /-- INSERT (R204): The engine inserts KEY or updates it in place, relocating entries if needed, or ends with
  NO_ROOM. -/
  | insert
  /-- DELETE (R198): The engine sets VALID = 0 on the entry that holds KEY. -/
  | delete
  /-- READ_INDEX (R198): The engine returns entry INDEX of KIND. -/
  | readIndex
  /-- WRITE_INDEX (R202): The engine writes an indexed entry, clears its POISON and applies the meter or counter
  rules. -/
  | writeIndex
  /-- LPM_INSERT (R170): The engine inserts a prefix, or replaces its result, unless units are short. -/
  | lpmInsert
  /-- LPM_DELETE (R198): The engine removes a prefix and returns its units. -/
  | lpmDelete
  /-- LPM_READ (R198): The engine returns the route of exactly that VRF, address and length. -/
  | lpmRead
  /-- RETIRE (R214): The engine places a range of adjacency or encapsulation entries on the retire list with a
  release span. -/
  | retire
  /-- LEARN_APPLY (R191): The learn engine applies the next submission from its FIFO through the insertion path.
  -/
  | learnApply
  /-- REHASH_COPY (R208): Each span, the open rehash copies live entries into the shadow with its share of
  insertion operations. -/
  | rehashCopy
  /-- AGEING_SWEEP (R212): Each span, the sweep evaluates up to 2,048 entries and removes those older than their
  limit. -/
  | ageingSweep
  /-- RETIRE_RELEASE (R215): At its release span, a retired range is made invalid, leaves the list and becomes
  writable. -/
  | retireRelease
  /-- ENQUEUE (R247): A packet arriving at a queue is checked for down state, tail limit, WRED and buffer
  allocation, then enqueued or dropped. -/
  | enqueue (more : Fin 16)
  /-- FLUSH_PROGRESS (R265): Each span, the flush engine detaches up to 128 queues and frees their records. -/
  | flushProgress
  /-- TOKEN_REFRESH (R273): At slot 0 of each span, every shaper bucket gains its rate, capped at its burst. -/
  | tokenRefresh
  /-- SET_SWITCH (R284): A shaper-profile switch toggles ACTIVE on every profile of its set and caps bound
  levels. -/
  | setSwitch
  /-- CONTROL_UP_SEND (R300): In slot 0 of each span, the device sends control-up cells with links, demand
  stripes and port reports. -/
  | controlUpSend
  /-- CELL_STAGING (R307): During span m + 1, the stager builds every cell for span m + 2 from the grants of
  span m. -/
  | cellStaging
  /-- DECK_SLOT (R323): In each deck slot, the matched pairs send one deck cell each and outputs check and
  enqueue completed packets. -/
  | deckSlot
  /-- REPLICATION_COPY (R325): The replication engine makes the next group or mirror copy of a backlogged packet
  and enqueues it. -/
  | replicationCopy
  /-- HEARTBEAT_SEND (R338): Frame 0 of every lane in every span carries a heartbeat. -/
  | heartbeatSend
  /-- HEARTBEAT_LOSS (R339): After 8 spans with no valid heartbeat, heartbeat loss is declared. -/
  | heartbeatLoss
  /-- MIRROR_RETRANSMIT (R340): Mirror-stream frames not acknowledged within 4 spans are resent from the oldest.
  -/
  | mirrorRetransmit
  /-- MIRROR_RECORD_APPLY (R342): The standby applies a mirror record as master 8 at its apply span, or on
  receipt for timed actions and walk commands. -/
  | mirrorRecordApply
  /-- VERDICT_EVIDENCE_TIMEOUT (R350): 64 spans after acting, the active decides with the standby's word taken
  as 0. -/
  | verdictEvidenceTimeout
  /-- VERDICT_WAIT_TIMEOUT (R350): A standby with no verdict 128 spans after sending its word goes to M6. -/
  | verdictWaitTimeout
  /-- TAKEOVER_TIMEOUT (R351): A claim whose OWNER is unchanged 64 spans after TAKEOVER returns to M6 WAIT. -/
  | takeoverTimeout
  /-- TWIN_ISOLATION (R351): A fabric interface not UP for 4 spans puts a twin into M9. -/
  | twinIsolation
  /-- RESYNC_REQUEST_SEND (R356): A device in M6 WAIT sends REQUEST every 64 spans. -/
  | resyncRequestSend
  /-- SEGMENT_SEND (R354): The active sends segment data in the frames left after other traffic. -/
  | segmentSend
  /-- SETTLE_COMPLETE (R358): After TIM_DRAIN_LIMIT spans with no mirror failure, the standby enters M5 and
  sends IN_STEP. -/
  | settleComplete
  /-- PCIE_LINK_DOWN (R491): The PCIe data link goes down and HST_STATUS reads 0. -/
  | pcieLinkDown
  /-- EVENT_WRITE (R394): The event engine writes an accepted record into its ring, then advances PROD. -/
  | eventWrite
  /-- BLOTTER_INTERVAL (R397): At each blotter interval, the blotter posts a summary for each source with
  suppression counts. -/
  | blotterInterval
  /-- TELEMETRY_EXPORT (R398): Firmware packs accepted records into telemetry frames and injects them through
  inject queue 15 under its token bucket. -/
  | telemetryExport
  /-- RSTDAA (R400): The I3C target drops its dynamic address. -/
  | rstdaa
  /-- RAIL_BELOW_WARNING (R407): A core monitor falls below 0.690 V and the shed-step count starts. -/
  | railBelowWarning
  /-- RAIL_CLEAR (R407): All core monitors reach 0.700 V or more and the 10 ms hold starts. -/
  | railClear
  /-- RAIL_RESET_LEVEL (R407): A core monitor below 0.650 V resets the device as SYSRST_N and records VRAIL. -/
  | railResetLevel
  /-- SHED_STEP_ENTER (R411): After a step's dwell below warning, the next shed step comes into force with its
  effects. -/
  | shedStepEnter
  /-- SHED_STEP_LIFT (R413): After the 10 ms hold, and then every 2 ms, the deepest step in force is lifted. -/
  | shedStepLift
  /-- THERMAL_TRIP (R417): Two readings of 125 °C or more reset the device as SYSRST_N and record THERMAL. -/
  | thermalTrip
  /-- FUSE_OP_DONE (R430): An accepted fuse operation finishes within 20 ms. -/
  | fuseOpDone
  /-- ATTEST_DONE (R433): The signed report is written to SEC_ATT_REPORT and STATE becomes DONE. -/
  | attestDone
  /-- TAMPER_ASSERT (R435): A low TAMPER_IN_N sends the device to M11 with cause TAMPER. -/
  | tamperAssert
  /-- RECAL_DONE (R448): A recalibration completes within 50 ms. -/
  | recalDone
  /-- RAIL_NEITHER_WARNING_NOR_CLEAR (R411): The core rails move into the band between 0.690 V and 0.700 V,
  which stops the count toward the next shed step when rising from below warning, and breaks the 10 ms clear
  hold when falling from clear. -/
  | railNeitherWarningNorClear
  /-- SUPPLY_MONITORS_IN_RANGE (R483): Once every supply monitor has read inside ±5 % of nominal for 1 ms after
  PORST_N release, the device leaves M0 as at a release of PORST_N. -/
  | supplyMonitorsInRange
  deriving DecidableEq, Repr

end Sys2Proof
end

