-- ==== Sys2Proof/Decode.lean ====
section
/-! DEFINITION. The commands that a word of the table spells. The table gives no row any bits: a command reaches the block on
its pins, its links and its register windows, never as an encoded word. -/

namespace Sys2Proof

/-- The command spelled by a word of `nbits` bits: none, since no row of the table has an encoding. -/
def decodeTableWord (_nbits _w : Nat) : Option Instr := none

end Sys2Proof
end

