-- ==== Sys2Proof/Config.lean ====
section
/-! DEFINITION. What an implementation fixes and the spec does not, and the free values: opaque constants without a
body, so that nothing can be proved of any one value. -/

namespace Sys2Proof.Config

/-- A free value of 64 bits, a fresh one for each argument. -/
opaque freeWord : Nat → BitVec 64
/-- A free choice between two behaviours that the spec allows both, a fresh one for each argument. -/
opaque freeBool : Nat → Bool
/-- A free natural number, a fresh one for each argument. -/
opaque freeNat : Nat → Nat
/-- GLB_DIE_ID: the package identity fused in the FE die. -/
opaque dieId : BitVec 64
/-- The MIPI manufacturer ID of HST_I3C_PID bits 47 to 33. -/
opaque mipiVendor : BitVec 15
/-- The bytes a port's transmit buffer holds: stated nowhere, so free. -/
opaque txBufBytes : Nat
/-- The fused target in mV of a core rail (0 VDD_FE, 1 VDD_TM) for a pier clock in MHz: fused for each part, so free. -/
opaque railTarget : Nat → Nat → Nat
/-- The words that the patrol reads in one round, with the power domains on that the words of PWR_DOM_STATUS give: the sizes of the memories
are not given, so free. -/
opaque patrolWords : List Nat → Nat
/-- The ROM of the security core, 0, and of the power manager core, 1, by byte (R368): stated nowhere, so free. -/
opaque coreRom : Nat → Nat → BitVec 8
/-- The size in bytes of the SRAM of those two cores: stated nowhere, so free. -/
opaque soloSram : Nat → Nat
/-- Where in its core's SRAM a firmware component is loaded, by component (R426): stated nowhere, so free. -/
opaque fwLoadAt : Nat → Nat
/-- Whether a packet's bytes are corrupted on their way through the deck: free, for each packet that crosses. -/
opaque transferError : Nat → Bool

end Sys2Proof.Config
end

