-- ==== Sys2Proof/Machine/Fields.lean ====
section
/-! DEFINITION. Names for the register fields, the counters and the event records of the spec: where a field
lies in BAR0, and the code and class of each event. -/

namespace Sys2Proof.Machine

/-- A field of a register: the BAR0 offset of its register (copy 0), the stride of the register's array, its lowest
bit and its width. A whole register is the field that starts at bit 0. -/
structure Fld where
  off : Nat
  st : Nat
  lo : Nat
  w : Nat

/-- The same field of copy `i` of an array register. -/
def Fld.ix (f : Fld) (i : Nat) : Fld := { f with off := f.off + f.st * i }
/-- The same field in the window of line port `p` (R25). -/
def Fld.port (f : Fld) (p : Nat) : Fld := { f with off := f.off + 0x10000 * p }
/-- The same field in the window of pier `p` (R25). -/
def Fld.pier (f : Fld) (p : Nat) : Fld := { f with off := f.off + 0x100000 * p }
/-- The same field of item `i` of a register that a selector shows: items lie above the 2^29 offsets of BAR0. -/
def Fld.item (f : Fld) (i : Nat) : Fld := { f with off := f.off + 0x20000000 * i }

/-- An event of the spec: its code and its class. -/
structure EvDesc where
  code : Nat
  cls : EvClass
  deriving DecidableEq, Repr

namespace F
def GLB_ID : Fld := ⟨0, 0, 0, 32⟩
def GLB_DIE_ID : Fld := ⟨0x8, 0, 0, 64⟩
def GLB_FEATURE : Fld := ⟨0x10, 0, 0, 32⟩
def GLB_MODE : Fld := ⟨0x20, 0, 0, 32⟩
def GLB_MODE_FLAGS : Fld := ⟨0x24, 0, 0, 32⟩
def GLB_CTRL : Fld := ⟨0x30, 0, 0, 32⟩
def GLB_CTRL_MAINT_REQ : Fld := ⟨0x30, 0, 1, 1⟩
def GLB_CTRL_FWD_EN : Fld := ⟨0x30, 0, 0, 1⟩
def GLB_LOCK : Fld := ⟨0x34, 0, 0, 32⟩
def GLB_LOCK_LOCK : Fld := ⟨0x34, 0, 0, 1⟩
def GLB_STRAP : Fld := ⟨0x40, 0, 0, 32⟩
def GLB_STRAP_FLASH_MODE : Fld := ⟨0x40, 0, 11, 2⟩
def GLB_STRAP_SELF_TIMED : Fld := ⟨0x40, 0, 10, 1⟩
def GLB_STRAP_NODE_ID : Fld := ⟨0x40, 0, 0, 10⟩
def GLB_RESET_CAUSE : Fld := ⟨0x44, 0, 0, 32⟩
def GLB_RESET_CAUSE_SEC : Fld := ⟨0x44, 0, 7, 1⟩
def GLB_RESET_CAUSE_THERMAL : Fld := ⟨0x44, 0, 6, 1⟩
def GLB_RESET_CAUSE_VRAIL : Fld := ⟨0x44, 0, 5, 1⟩
def GLB_RESET_CAUSE_FLR_PF1 : Fld := ⟨0x44, 0, 4, 1⟩
def GLB_RESET_CAUSE_FLR_PF0 : Fld := ⟨0x44, 0, 3, 1⟩
def GLB_RESET_CAUSE_PERST : Fld := ⟨0x44, 0, 2, 1⟩
def GLB_RESET_CAUSE_SYSRST : Fld := ⟨0x44, 0, 1, 1⟩
def GLB_ALARM_SUMMARY : Fld := ⟨0x50, 0, 0, 32⟩
def GLB_SCRATCH : Fld := ⟨0x60, 0x4, 0, 32⟩
def TIM_STATUS : Fld := ⟨0x1000000, 0, 0, 32⟩
def TIM_STATUS_PPS_LOCK : Fld := ⟨0x1000000, 0, 3, 1⟩
def TIM_STATUS_TOD_VALID : Fld := ⟨0x1000000, 0, 2, 1⟩
def TIM_STATUS_BACKWARD : Fld := ⟨0x1000000, 0, 1, 1⟩
def TIM_STATUS_LOCKED : Fld := ⟨0x1000000, 0, 0, 1⟩
def TIM_CTRL : Fld := ⟨0x1000004, 0, 0, 32⟩
def TIM_CTRL_SRC : Fld := ⟨0x1000004, 0, 0, 2⟩
def TIM_STC : Fld := ⟨0x1000008, 0, 0, 64⟩
def TIM_PHC_SEC : Fld := ⟨0x1000010, 0, 0, 64⟩
def TIM_PHC_NS : Fld := ⟨0x1000018, 0, 0, 32⟩
def TIM_PHC_SUBNS : Fld := ⟨0x100001C, 0, 0, 32⟩
def TIM_TOD_BASE : Fld := ⟨0x1000020, 0, 0, 64⟩
def TIM_TOD_BASE_NS : Fld := ⟨0x1000028, 0, 0, 32⟩
def TIM_CORR : Fld := ⟨0x100002C, 0, 0, 32⟩
def TIM_TOD_STEP_THR_THR : Fld := ⟨0x1000030, 0, 0, 16⟩
def TIM_EPOCH : Fld := ⟨0x1000040, 0, 0, 32⟩
def TIM_EPOCH_LIVE_TAG : Fld := ⟨0x1000040, 0, 16, 1⟩
def TIM_EPOCH_EPOCH : Fld := ⟨0x1000040, 0, 0, 16⟩
def TIM_BANK_STATUS : Fld := ⟨0x1000044, 0, 0, 32⟩
def TIM_BANK_STATUS_SWEEP : Fld := ⟨0x1000044, 0, 1, 1⟩
def TIM_BANK_STATUS_OLD_HELD : Fld := ⟨0x1000044, 0, 0, 1⟩
def TIM_DRAIN_LIMIT : Fld := ⟨0x1000048, 0, 0, 32⟩
def TIM_DRAIN_LIMIT_LIMIT : Fld := ⟨0x1000048, 0, 0, 21⟩
def TIM_OLD_RESIDENT : Fld := ⟨0x100004C, 0, 0, 32⟩
def TIM_EXPIRED_CNT : Fld := ⟨0x1000050, 0, 0, 64⟩
def TIM_LAST_KEYSTONE : Fld := ⟨0x1000058, 0, 0, 64⟩
def TIM_TA_INDEX : Fld := ⟨0x1000100, 0, 0, 32⟩
def TIM_TA_SPAN : Fld := ⟨0x1000108, 0, 0, 64⟩
def TIM_TA_OPERAND : Fld := ⟨0x1000110, 0, 0, 64⟩
def TIM_TA_TYPE : Fld := ⟨0x1000118, 0, 0, 32⟩
def TIM_TA_CMD : Fld := ⟨0x100011C, 0, 0, 32⟩
def TIM_TA_STATUS : Fld := ⟨0x1000120, 0, 0, 32⟩
def TIM_PPS_CFG_OUT_WIDTH : Fld := ⟨0x1000200, 0, 8, 8⟩
def TIM_PPS_CFG_OUT_EN : Fld := ⟨0x1000200, 0, 2, 1⟩
def TIM_PPS_CFG_IN_EN : Fld := ⟨0x1000200, 0, 0, 1⟩
def TIM_PPS_PHASE : Fld := ⟨0x1000204, 0, 0, 32⟩
def TIM_SYNC_CFG : Fld := ⟨0x1000210, 0, 0, 32⟩
def TIM_SYNC_CFG_OUT_EN : Fld := ⟨0x1000210, 0, 1, 1⟩
def TIM_SYNC_CFG_LOAD_ARM : Fld := ⟨0x1000210, 0, 0, 1⟩
def TIM_SYNC_LOAD : Fld := ⟨0x1000218, 0, 0, 64⟩
def IMG_STATUS : Fld := ⟨0x2000000, 0, 0, 32⟩
def IMG_STATUS_LOAD_BUSY : Fld := ⟨0x2000000, 0, 9, 1⟩
def IMG_STATUS_LIVE_VALID : Fld := ⟨0x2000000, 0, 8, 1⟩
def IMG_STATUS_STAGED_STATE : Fld := ⟨0x2000000, 0, 4, 3⟩
def IMG_STATUS_LIVE_SLOT : Fld := ⟨0x2000000, 0, 0, 1⟩
def IMG_LOAD_ADDR_ADDR : Fld := ⟨0x2000008, 0, 6, 58⟩
def IMG_LOAD_LEN : Fld := ⟨0x2000010, 0, 0, 32⟩
def IMG_LOAD_CMD : Fld := ⟨0x2000014, 0, 0, 32⟩
def IMG_LOAD_STATUS : Fld := ⟨0x2000018, 0, 0, 32⟩
def IMG_LOAD_STATUS_SECTION : Fld := ⟨0x2000018, 0, 16, 8⟩
def IMG_LOAD_STATUS_CAUSE : Fld := ⟨0x2000018, 0, 0, 8⟩
def IMG_LOAD_PROGRESS : Fld := ⟨0x200001C, 0, 0, 32⟩
def IMG_LOAD_PROGRESS_BYTES : Fld := ⟨0x200001C, 0, 0, 32⟩
def IMG_MIN_SVN_SVN : Fld := ⟨0x2000020, 0, 0, 16⟩
def IMG_LIVE_COMPAT : Fld := ⟨0x2000030, 0, 0, 32⟩
def IMG_STAGED_COMPAT : Fld := ⟨0x2000034, 0, 0, 32⟩
def IMG_LIVE_DIGEST : Fld := ⟨0x2000100, 0x4, 0, 32⟩
def IMG_STAGED_DIGEST : Fld := ⟨0x2000140, 0x4, 0, 32⟩
def IMG_WALK_CFG_TA_ENTRY : Fld := ⟨0x2000200, 0, 0, 8⟩
def IMG_WALK_START : Fld := ⟨0x2000208, 0, 0, 64⟩
def IMG_WALK_START_SPAN : Fld := ⟨0x2000208, 0, 0, 48⟩
def IMG_WALK_INTERVAL : Fld := ⟨0x2000210, 0, 0, 32⟩
def IMG_WALK_INTERVAL_SPANS : Fld := ⟨0x2000210, 0, 0, 17⟩
def IMG_WALK_CMD : Fld := ⟨0x2000214, 0, 0, 32⟩
def IMG_WALK_STATUS : Fld := ⟨0x2000218, 0, 0, 32⟩
def IMG_WALK_STATUS_CAUSE : Fld := ⟨0x2000218, 0, 24, 8⟩
def IMG_WALK_STATUS_NEXT_OCTET : Fld := ⟨0x2000218, 0, 16, 4⟩
def IMG_WALK_STATUS_STEPS_DONE : Fld := ⟨0x2000218, 0, 8, 5⟩
def IMG_WALK_STATUS_STATE : Fld := ⟨0x2000218, 0, 0, 2⟩
def IMG_PIER_CMD : Fld := ⟨0x2000220, 0, 0, 32⟩
def IMG_PIER_STATUS_SLOT : Fld := ⟨0x2000400, 0x4, 12, 1⟩
def IMG_PIER_STATUS_STATE : Fld := ⟨0x2000400, 0x4, 8, 3⟩
def IMG_PIER_STATUS_SERVING : Fld := ⟨0x2000400, 0x4, 4, 1⟩
def IMG_PIER_STATUS_OCTET : Fld := ⟨0x2000400, 0x4, 0, 4⟩
def LPT_CTRL : Fld := ⟨0x4000000, 0, 0, 32⟩
def LPT_CTRL_ADMIN_UP : Fld := ⟨0x4000000, 0, 5, 1⟩
def LPT_CTRL_AN_EN : Fld := ⟨0x4000000, 0, 4, 1⟩
def LPT_CTRL_FLOW : Fld := ⟨0x4000000, 0, 0, 2⟩
def LPT_STATUS : Fld := ⟨0x4000004, 0, 0, 32⟩
def LPT_STATUS_MODE : Fld := ⟨0x4000004, 0, 8, 3⟩
def LPT_STATUS_FEC_DEGRADE : Fld := ⟨0x4000004, 0, 3, 1⟩
def LPT_STATUS_REMOTE_FAULT : Fld := ⟨0x4000004, 0, 2, 1⟩
def LPT_STATUS_LOCAL_FAULT : Fld := ⟨0x4000004, 0, 1, 1⟩
def LPT_STATUS_LINK : Fld := ⟨0x4000004, 0, 0, 1⟩
def LPT_MAX_FRAME : Fld := ⟨0x4000008, 0, 0, 32⟩
def LPT_MAX_FRAME_BYTES : Fld := ⟨0x4000008, 0, 0, 14⟩
def LPT_LINK_CFG_FEC_THR : Fld := ⟨0x400000C, 0, 24, 8⟩
def LPT_LINK_CFG_HOLD_UP : Fld := ⟨0x400000C, 0, 12, 12⟩
def LPT_LINK_CFG_HOLD_DOWN : Fld := ⟨0x400000C, 0, 0, 12⟩
def LPT_PTP_DELAY_TX : Fld := ⟨0x4000010, 0, 16, 16⟩
def LPT_PTP_DELAY_RX : Fld := ⟨0x4000010, 0, 0, 16⟩
def LPT_TXTS_SEC : Fld := ⟨0x4000018, 0, 0, 64⟩
def LPT_TXTS_NS : Fld := ⟨0x4000020, 0, 0, 32⟩
def LPT_TXTS_NS_TXTS_OVF : Fld := ⟨0x4000020, 0, 30, 1⟩
def LPT_PFC_QUANTA : Fld := ⟨0x4000030, 0, 16, 16⟩
def LPT_PFC_WD : Fld := ⟨0x4000030, 0, 0, 16⟩
def LPT_PFC_THR_XOFF : Fld := ⟨0x4000034, 0, 16, 16⟩
def LPT_PFC_THR_XON : Fld := ⟨0x4000034, 0, 0, 16⟩
def LPT_GCL_CTRL : Fld := ⟨0x4000100, 0, 0, 32⟩
def LPT_GCL_CTRL_PENDING : Fld := ⟨0x4000100, 0, 17, 1⟩
def LPT_GCL_CTRL_LEN : Fld := ⟨0x4000100, 0, 0, 9⟩
def LPT_GCL_BASE : Fld := ⟨0x4000108, 0, 0, 64⟩
def LPT_GCL_BASE_SEC : Fld := ⟨0x4000108, 0, 0, 48⟩
def LPT_GCL_BASE_NS : Fld := ⟨0x4000110, 0, 0, 32⟩
def LPT_GCL_BASE_NS_NS : Fld := ⟨0x4000110, 0, 0, 30⟩
def LPT_GCL_CYCLE_ENABLE : Fld := ⟨0x4000114, 0, 31, 1⟩
def LPT_GCL_CYCLE_NS : Fld := ⟨0x4000114, 0, 0, 31⟩
def LPT_PREEMPT : Fld := ⟨0x4000140, 0, 0, 32⟩
def LPT_PREEMPT_VERIFY_STATE : Fld := ⟨0x4000140, 0, 24, 2⟩
def LPT_PREEMPT_ADD_FRAG : Fld := ⟨0x4000140, 0, 16, 2⟩
def LPT_PREEMPT_PMAC_MASK : Fld := ⟨0x4000140, 0, 8, 8⟩
def LPT_PREEMPT_VERIFY_EN : Fld := ⟨0x4000140, 0, 1, 1⟩
def LPT_PREEMPT_EN : Fld := ⟨0x4000140, 0, 0, 1⟩
def LPT_MSEC_CTRL : Fld := ⟨0x4000200, 0, 0, 32⟩
def LPT_MSEC_CTRL_TX_AN : Fld := ⟨0x4000200, 0, 16, 2⟩
def LPT_MSEC_CTRL_REPLAY_WIN : Fld := ⟨0x4000200, 0, 8, 8⟩
def LPT_MSEC_CTRL_VALIDATE : Fld := ⟨0x4000200, 0, 4, 2⟩
def LPT_MSEC_CTRL_XPN : Fld := ⟨0x4000200, 0, 3, 1⟩
def LPT_MSEC_CTRL_TX_EN : Fld := ⟨0x4000200, 0, 1, 1⟩
def LPT_MSEC_CTRL_RX_EN : Fld := ⟨0x4000200, 0, 0, 1⟩
def LPT_MSEC_SA_SEL_DIR : Fld := ⟨0x4000204, 0, 8, 1⟩
def LPT_MSEC_SA_SEL_SC : Fld := ⟨0x4000204, 0, 3, 5⟩
def LPT_MSEC_SA_SEL_AN : Fld := ⟨0x4000204, 0, 0, 2⟩
def LPT_MSEC_SA_CMD : Fld := ⟨0x4000208, 0, 0, 32⟩
def LPT_MSEC_SCI : Fld := ⟨0x4000210, 0, 0, 64⟩
def LPT_MSEC_PN : Fld := ⟨0x4000218, 0, 0, 64⟩
def LPT_MSEC_PN_THR : Fld := ⟨0x4000220, 0, 0, 64⟩
def LPT_GCL_ENTRY : Fld := ⟨0x4000400, 0x4, 0, 32⟩
def LPT_MSEC_KEY : Fld := ⟨0x4000240, 0x4, 0, 32⟩
def LPT_MSEC_XPN : Fld := ⟨0x4000260, 0x4, 0, 32⟩
def LPT_OCT_RX_MAP : Fld := ⟨0x4008000, 0, 0, 32⟩
def LPT_OCT_TX_MAP : Fld := ⟨0x4008004, 0, 0, 32⟩
def PIR_STATUS : Fld := ⟨0x8000000, 0, 0, 32⟩
def PIR_FAULT_PIPE : Fld := ⟨0x8000004, 0, 16, 1⟩
def PIR_FAULT_STAGE : Fld := ⟨0x8000004, 0, 8, 8⟩
def PIR_FAULT_TIMEOUT : Fld := ⟨0x8000004, 0, 2, 1⟩
def PIR_FAULT_MEMORY : Fld := ⟨0x8000004, 0, 1, 1⟩
def PIR_FAULT_PARITY : Fld := ⟨0x8000004, 0, 0, 1⟩
def PIR_CTRL : Fld := ⟨0x8000008, 0, 0, 32⟩
def PIR_PARSE_CFG : Fld := ⟨0x8000010, 0, 0, 32⟩
def PIR_PARSE_CFG_ERR_DROP : Fld := ⟨0x8000010, 0, 31, 1⟩
def PIR_PARSE_CFG_EGR_START : Fld := ⟨0x8000010, 0, 18, 9⟩
def PIR_PARSE_CFG_INJ_START : Fld := ⟨0x8000010, 0, 9, 9⟩
def PIR_PARSE_CFG_ING_START : Fld := ⟨0x8000010, 0, 0, 9⟩
def PIR_SS_STATUS : Fld := ⟨0x8000018, 0, 0, 32⟩
def PIR_TCAM_ADDR : Fld := ⟨0x8000100, 0, 0, 32⟩
def PIR_TCAM_ADDR_PIPE : Fld := ⟨0x8000100, 0, 16, 1⟩
def PIR_TCAM_ADDR_ROW : Fld := ⟨0x8000100, 0, 0, 14⟩
def PIR_TCAM_CTRL : Fld := ⟨0x8000104, 0, 0, 32⟩
def PIR_TCAM_RES : Fld := ⟨0x8000108, 0, 0, 64⟩
def PIR_TCAM_PEND : Fld := ⟨0x8000150, 0, 0, 32⟩
def PIR_HASH_SEED : Fld := ⟨0x8000020, 0x4, 0, 32⟩
def PIR_HASH_SEED_SEED : Fld := ⟨0x8000020, 0x4, 0, 32⟩
def PIR_TCAM_KEY : Fld := ⟨0x8000110, 0x4, 0, 32⟩
def PIR_TCAM_MASK : Fld := ⟨0x8000130, 0x4, 0, 32⟩
def PIR_TCAM_BLKTAG : Fld := ⟨0x8000200, 0x4, 0, 32⟩
def PIR_TCAM_BLKTAG_MASK : Fld := ⟨0x8000200, 0x4, 8, 6⟩
def PIR_TCAM_BLKTAG_VALUE : Fld := ⟨0x8000200, 0x4, 0, 6⟩
def TBL_STATUS : Fld := ⟨0xA000000, 0, 0, 32⟩
def TBL_LEARN_CFG_EV_MAX : Fld := ⟨0xA000004, 0, 8, 8⟩
def TBL_LEARN_CFG_EN : Fld := ⟨0xA000004, 0, 0, 1⟩
def TBL_LEARN_DEPTH : Fld := ⟨0xA000008, 0, 0, 32⟩
def TBL_POISON_LOG_VALID : Fld := ⟨0xA000010, 0, 63, 1⟩
def TBL_POISON_LOG_KIND : Fld := ⟨0xA000010, 0, 32, 8⟩
def TBL_POISON_LOG_INDEX : Fld := ⟨0xA000010, 0, 0, 32⟩
def TBL_LPM_USED : Fld := ⟨0xA000020, 0, 0, 32⟩
def TBL_SNAP_INDEX_SET : Fld := ⟨0xA000100, 0, 0, 6⟩
def TBL_TAE_CFG_MAX_MOVES : Fld := ⟨0xA001000, 0, 0, 4⟩
def TBL_TAE_STATUS : Fld := ⟨0xA001004, 0, 0, 32⟩
def TBL_TAE_SEQ_SEQ : Fld := ⟨0xA001008, 0, 0, 32⟩
def TBL_TAE_WIN_KIND : Fld := ⟨0xA001010, 0, 28, 4⟩
def TBL_TAE_WIN_BASE : Fld := ⟨0xA001010, 0, 0, 26⟩
def TBL_REHASH_CTRL : Fld := ⟨0xA001100, 0, 0, 32⟩
def TBL_REHASH_CTRL_TABLE : Fld := ⟨0xA001100, 0, 0, 8⟩
def TBL_REHASH_BASE_BASE : Fld := ⟨0xA001104, 0, 0, 26⟩
def TBL_REHASH_CAP_CAPACITY : Fld := ⟨0xA001108, 0, 0, 27⟩
def TBL_REHASH_STATUS : Fld := ⟨0xA001114, 0, 0, 32⟩
def TBL_REHASH_STATUS_CAUSE : Fld := ⟨0xA001114, 0, 4, 4⟩
def TBL_REHASH_STATUS_STATE : Fld := ⟨0xA001114, 0, 0, 2⟩
def TBL_REHASH_COPIED : Fld := ⟨0xA001118, 0, 0, 32⟩
def TBL_REHASH_COPIED_ENTRIES : Fld := ⟨0xA001118, 0, 0, 27⟩
def TBL_AGE_CFG_EV_MAX : Fld := ⟨0xA001200, 0, 8, 8⟩
def TBL_AGE_CFG_EN : Fld := ⟨0xA001200, 0, 0, 1⟩
def TBL_AGE_STATUS : Fld := ⟨0xA001204, 0, 0, 32⟩
def TBL_RETIRE_USED : Fld := ⟨0xA001300, 0, 0, 32⟩
def TBL_EXACT_USED : Fld := ⟨0xA000024, 0x4, 0, 32⟩
def TBL_SNAP_ADDR_ADDR : Fld := ⟨0xA000108, 0, 6, 58⟩
def TBL_SNAP_FIRST_FIRST : Fld := ⟨0xA000110, 0, 0, 26⟩
def TBL_SNAP_COUNT_COUNT : Fld := ⟨0xA000114, 0, 0, 25⟩
def TBL_SNAP_STATUS : Fld := ⟨0xA000118, 0, 0, 32⟩
def TBL_SNAP_STATUS_STATE : Fld := ⟨0xA000118, 0, 0, 2⟩
def TBL_SNAP_SPAN_SPAN : Fld := ⟨0xA000120, 0, 0, 48⟩
def TBL_REHASH_PEND_PEND : Fld := ⟨0xA001020, 0x4, 0, 32⟩
def TBL_REHASH_SEED : Fld := ⟨0xA00110C, 0x4, 0, 32⟩
def BUF_STATUS : Fld := ⟨0xC000000, 0, 0, 32⟩
def BUF_POOL_SIZE : Fld := ⟨0xC000010, 0x4, 0, 32⟩
def BUF_POOL_FREE : Fld := ⟨0xC000020, 0x4, 0, 32⟩
def BUF_POOL_LOW : Fld := ⟨0xC000030, 0x4, 0, 32⟩
def BUF_POOL_LOW_THR : Fld := ⟨0xC000030, 0x4, 0, 30⟩
def BUF_QUOTA_SEL_POOL : Fld := ⟨0xC000100, 0, 8, 2⟩
def BUF_QUOTA_SEL_REQ : Fld := ⟨0xC000100, 0, 0, 5⟩
def BUF_QUOTA : Fld := ⟨0xC000104, 0, 0, 32⟩
def BUF_QUOTA_LIMIT : Fld := ⟨0xC000104, 0, 0, 30⟩
def BUF_USAGE : Fld := ⟨0xC000108, 0, 0, 32⟩
def BUF_PRIO_POOL2 : Fld := ⟨0xC00010C, 0, 16, 5⟩
def BUF_PRIO_POOL1 : Fld := ⟨0xC00010C, 0, 8, 5⟩
def BUF_PRIO_POOL0 : Fld := ⟨0xC00010C, 0, 0, 5⟩
def BUF_MC_TMASK : Fld := ⟨0xC000110, 0, 0, 32⟩
def BUF_MC_TMASK_MASK : Fld := ⟨0xC000110, 0, 0, 3⟩
def BUF_ALLOC : Fld := ⟨0xC000200, 0x8, 0, 64⟩
def BUF_FREE_ADDR : Fld := ⟨0xC000220, 0, 0, 64⟩
def BUF_FREE_HANDLE : Fld := ⟨0xC000228, 0, 0, 32⟩
def BUF_FREE_RESULT : Fld := ⟨0xC00022C, 0, 0, 32⟩
def BUF_PF_CFG_EN : Fld := ⟨0xC000300, 0, 31, 1⟩
def BUF_PF_CFG_DEPTH : Fld := ⟨0xC000300, 0, 0, 16⟩
def BUF_PF_RESERVE : Fld := ⟨0xC000304, 0, 0, 32⟩
def BUF_PF_RESERVE_PAGES : Fld := ⟨0xC000304, 0, 0, 28⟩
def BUF_Q_SEL : Fld := ⟨0xC000310, 0, 0, 32⟩
def BUF_Q_SEL_QUEUE : Fld := ⟨0xC000310, 0, 0, 19⟩
def BUF_Q_STATUS : Fld := ⟨0xC000314, 0, 0, 32⟩
def BUF_CXL_CTRL : Fld := ⟨0xC000400, 0x20, 0, 32⟩
def BUF_CXL_LIMIT : Fld := ⟨0xC000404, 0x20, 0, 32⟩
def BUF_CXL_LIMIT_PAGES : Fld := ⟨0xC000404, 0x20, 0, 27⟩
def BUF_CXL_STATUS : Fld := ⟨0xC000408, 0x20, 0, 32⟩
def BUF_CXL_STATUS_RATE : Fld := ⟨0xC000408, 0x20, 24, 8⟩
def BUF_CXL_STATUS_WIDTH : Fld := ⟨0xC000408, 0x20, 16, 5⟩
def BUF_CXL_STATUS_STATE : Fld := ⟨0xC000408, 0x20, 0, 3⟩
def BUF_CXL_PAGES : Fld := ⟨0xC00040C, 0x20, 0, 32⟩
def QUE_STATUS : Fld := ⟨0xD000000, 0, 0, 32⟩
def QUE_Q_SEL_QUEUE : Fld := ⟨0xD000010, 0, 0, 19⟩
def QUE_Q_CFG : Fld := ⟨0xD000014, 0, 0, 32⟩
def QUE_Q_CFG_CLASS : Fld := ⟨0xD000014, 0, 24, 3⟩
def QUE_Q_CFG_MAX_KIB : Fld := ⟨0xD000014, 0, 0, 24⟩
def QUE_Q_SCHED : Fld := ⟨0xD000018, 0, 0, 32⟩
def QUE_Q_SCHED_WEIGHT : Fld := ⟨0xD000018, 0, 16, 16⟩
def QUE_Q_SCHED_PRIO : Fld := ⟨0xD000018, 0, 0, 3⟩
def QUE_Q_STATE : Fld := ⟨0xD00001C, 0, 0, 32⟩
def QUE_Q_DEPTH : Fld := ⟨0xD000020, 0, 0, 64⟩
def QUE_Q_DROPS : Fld := ⟨0xD000028, 0, 0, 64⟩
def QUE_SJ_MAX : Fld := ⟨0xD000030, 0, 0, 32⟩
def QUE_SJ_SUM : Fld := ⟨0xD000038, 0, 0, 64⟩
def QUE_SJ_CNT : Fld := ⟨0xD000040, 0, 0, 32⟩
def QUE_PORT_CFG : Fld := ⟨0xD000400, 0x4, 0, 32⟩
def QUE_PORT_CFG_SRC : Fld := ⟨0xD000400, 0x4, 30, 2⟩
def QUE_PORT_CFG_SHIFT : Fld := ⟨0xD000400, 0x4, 24, 2⟩
def QUE_PORT_CFG_COUNT : Fld := ⟨0xD000400, 0x4, 0, 19⟩
def QUE_PORT_SBASE_SBASE : Fld := ⟨0xD000600, 0x4, 0, 22⟩
def QUE_SP_DOWN : Fld := ⟨0xD000800, 0x4, 0, 32⟩
def QUE_NODE_SEL : Fld := ⟨0xD001000, 0, 0, 32⟩
def QUE_NODE_SEL_NODE : Fld := ⟨0xD001000, 0, 0, 16⟩
def QUE_NODE_CFG : Fld := ⟨0xD001004, 0, 0, 32⟩
def QUE_NODE_CFG_WEIGHT : Fld := ⟨0xD001004, 0, 16, 16⟩
def QUE_NODE_CFG_PRIO : Fld := ⟨0xD001004, 0, 0, 3⟩
def QUE_NODE_PORT : Fld := ⟨0xD001008, 0, 0, 32⟩
def QUE_NODE_PORT_PORT : Fld := ⟨0xD001008, 0, 0, 8⟩
def QUE_NODE_STATUS : Fld := ⟨0xD00100C, 0, 0, 32⟩
def QUE_NODE_CHILDREN : Fld := ⟨0xD001010, 0, 0, 32⟩
def QUE_MOVE_SRC_ELEM : Fld := ⟨0xD001100, 0, 0, 20⟩
def QUE_MOVE_DST_ELEM : Fld := ⟨0xD001104, 0, 0, 20⟩
def QUE_MOVE_CMD : Fld := ⟨0xD001108, 0, 0, 32⟩
def QUE_MOVE_STATUS : Fld := ⟨0xD00110C, 0, 0, 32⟩
def QUE_WRED_SEL : Fld := ⟨0xD001200, 0, 0, 32⟩
def QUE_WRED_SEL_PROFILE : Fld := ⟨0xD001200, 0, 0, 8⟩
def QUE_WRED_CFG_ECN_EN : Fld := ⟨0xD001204, 0, 8, 1⟩
def QUE_WRED_CFG_AVG_W : Fld := ⟨0xD001204, 0, 0, 4⟩
def QUE_WRED_MIN_KIB : Fld := ⟨0xD001210, 0x4, 0, 24⟩
def QUE_WRED_MAX_KIB : Fld := ⟨0xD001220, 0x4, 0, 24⟩
def QUE_WRED_PROB_PROB : Fld := ⟨0xD001230, 0x4, 0, 17⟩
def QUE_WRED_SJ_ECN : Fld := ⟨0xD001240, 0, 0, 32⟩
def QUE_WRED_SJ_DROP : Fld := ⟨0xD001244, 0, 0, 32⟩
def QUE_LFSR_SEL : Fld := ⟨0xD001300, 0, 0, 32⟩
def QUE_LFSR_SEL_GROUP : Fld := ⟨0xD001300, 0, 0, 12⟩
def QUE_LFSR : Fld := ⟨0xD001304, 0, 0, 32⟩
def QUE_ECN_CFG_EN : Fld := ⟨0xD001310, 0x4, 31, 1⟩
def QUE_ECN_CFG_MARK_OFS : Fld := ⟨0xD001310, 0x4, 16, 10⟩
def QUE_ECN_CFG_ECT_OFS : Fld := ⟨0xD001310, 0x4, 0, 10⟩
def QUE_HIST_SEL : Fld := ⟨0xD001400, 0, 0, 32⟩
def QUE_HIST_SEL_SLOT : Fld := ⟨0xD001400, 0, 0, 12⟩
def QUE_HIST_CFG : Fld := ⟨0xD001404, 0, 0, 32⟩
def QUE_HIST_CFG_EN : Fld := ⟨0xD001404, 0, 31, 1⟩
def QUE_HIST_CFG_SHIFT : Fld := ⟨0xD001404, 0, 24, 4⟩
def QUE_HIST_CFG_QUEUE : Fld := ⟨0xD001404, 0, 0, 19⟩
def QUE_HIST_BIN : Fld := ⟨0xD001440, 0x4, 0, 32⟩
def QUE_FLUSH_CMD : Fld := ⟨0xD001500, 0, 0, 32⟩
def SHP_STATUS : Fld := ⟨0xE000000, 0, 0, 32⟩
def SHP_STATUS_SWITCH_PEND : Fld := ⟨0xE000000, 0, 8, 1⟩
def SHP_PROF_SEL_COPY : Fld := ⟨0xE000010, 0, 16, 1⟩
def SHP_PROF_SEL_PROFILE : Fld := ⟨0xE000010, 0, 0, 14⟩
def SHP_PROF_CFG : Fld := ⟨0xE000014, 0, 0, 32⟩
def SHP_PROF_CFG_ACTIVE : Fld := ⟨0xE000014, 0, 16, 1⟩
def SHP_PROF_CFG_SET : Fld := ⟨0xE000014, 0, 8, 8⟩
def SHP_PROF_CFG_AWARE : Fld := ⟨0xE000014, 0, 5, 1⟩
def SHP_PROF_CFG_PKT : Fld := ⟨0xE000014, 0, 4, 1⟩
def SHP_PROF_CFG_MODE : Fld := ⟨0xE000014, 0, 0, 2⟩
def SHP_PROF_RATE1 : Fld := ⟨0xE000018, 0, 0, 32⟩
def SHP_PROF_RATE2 : Fld := ⟨0xE000020, 0, 0, 32⟩
def SHP_PROF_BURST1 : Fld := ⟨0xE00001C, 0, 0, 32⟩
def SHP_PROF_BURST2 : Fld := ⟨0xE000024, 0, 0, 32⟩
def SHP_PROF_USERS : Fld := ⟨0xE000028, 0, 0, 32⟩
def SHP_ELEM_SEL : Fld := ⟨0xE000100, 0, 0, 32⟩
def SHP_ELEM_SEL_ELEM : Fld := ⟨0xE000100, 0, 0, 20⟩
def SHP_ELEM_PROFILE : Fld := ⟨0xE000104, 0, 0, 32⟩
def SHP_ELEM_PROFILE_PROFILE : Fld := ⟨0xE000104, 0, 0, 14⟩
def SHP_ELEM_LEVEL1 : Fld := ⟨0xE000108, 0, 0, 64⟩
def SHP_ELEM_LEVEL2 : Fld := ⟨0xE000110, 0, 0, 64⟩
def SHP_ELEM_STATE_STATE : Fld := ⟨0xE000118, 0, 0, 2⟩
def SHP_SET_SWITCH : Fld := ⟨0xE000200, 0, 0, 32⟩
def SHP_LAST_SWITCH_SET : Fld := ⟨0xE000208, 0, 48, 8⟩
def SHP_LAST_SWITCH_SPAN : Fld := ⟨0xE000208, 0, 0, 48⟩
def SHP_PORT_ADJ_ADJ : Fld := ⟨0xE000400, 0x4, 0, 7⟩
def FAB_CTRL : Fld := ⟨0x10000000, 0, 0, 32⟩
def FAB_CTRL_EN : Fld := ⟨0x10000000, 0, 0, 1⟩
def FAB_STATUS : Fld := ⟨0x10000004, 0, 0, 32⟩
def FAB_STATUS_NODE_VALID : Fld := ⟨0x10000004, 0, 31, 1⟩
def FAB_STATUS_NODE_ID : Fld := ⟨0x10000004, 0, 16, 10⟩
def FAB_STATUS_BELOW_LINE : Fld := ⟨0x10000004, 0, 9, 1⟩
def FAB_STATUS_PAIR : Fld := ⟨0x10000004, 0, 8, 1⟩
def FAB_STATUS_STATE : Fld := ⟨0x10000004, 0, 0, 3⟩
def FAB_PAIR_STATUS_IS_OWNER : Fld := ⟨0x10000008, 0, 20, 1⟩
def FAB_PAIR_STATUS_PEER_SILENT : Fld := ⟨0x10000008, 0, 16, 4⟩
def FAB_PAIR_STATUS_OWNER_VALID : Fld := ⟨0x10000008, 0, 15, 1⟩
def FAB_PAIR_STATUS_OWNER : Fld := ⟨0x10000008, 0, 0, 10⟩
def FAB_PAIR_CTRL : Fld := ⟨0x1000000C, 0, 0, 32⟩
def FAB_PAIR_CTRL_TAKEOVER : Fld := ⟨0x1000000C, 0, 0, 1⟩
def FAB_LINK_CFG_UNCORR_THR : Fld := ⟨0x10000018, 0, 0, 8⟩
def FAB_REASM_USED : Fld := ⟨0x10000020, 0, 0, 32⟩
def FAB_LINKS_UP : Fld := ⟨0x10000010, 0, 0, 64⟩
def FAB_LINKS_UP_UP : Fld := ⟨0x10000010, 0, 0, 40⟩
def FAB_LANE_INV : Fld := ⟨0x10000040, 0x4, 0, 32⟩
def FAB_LINK_STAT : Fld := ⟨0x10000100, 0x4, 0, 32⟩
def FAB_LINK_STAT_NODE_VALID : Fld := ⟨0x10000100, 0x4, 31, 1⟩
def FAB_LINK_STAT_NODE_ID : Fld := ⟨0x10000100, 0x4, 16, 10⟩
def FAB_LINK_STAT_CAUSE : Fld := ⟨0x10000100, 0x4, 4, 4⟩
def FAB_LINK_STAT_STATE : Fld := ⟨0x10000100, 0x4, 0, 2⟩
def FAB_SP_MAP : Fld := ⟨0x10010000, 0x4, 0, 32⟩
def FAB_SP_MAP_NODE : Fld := ⟨0x10010000, 0x4, 0, 10⟩
def DCK_STATUS : Fld := ⟨0x11000000, 0, 0, 32⟩
def DCK_PTR_SEL_N : Fld := ⟨0x11000010, 0, 0, 5⟩
def DCK_PTR : Fld := ⟨0x11000014, 0, 0, 32⟩
def DCK_MC_SEL : Fld := ⟨0x11000100, 0, 0, 32⟩
def DCK_MC_SEL_GROUP : Fld := ⟨0x11000100, 0, 0, 16⟩
def DCK_MC_GROUP : Fld := ⟨0x11000104, 0, 0, 32⟩
def DCK_MC_COPIES : Fld := ⟨0x11000108, 0, 0, 64⟩
def DCK_MC_DROP : Fld := ⟨0x11000110, 0x8, 0, 64⟩
def DCK_CL_SEL : Fld := ⟨0x11000200, 0, 0, 32⟩
def DCK_CL_SEL_INDEX : Fld := ⟨0x11000200, 0, 0, 20⟩
def DCK_CL_ENTRY : Fld := ⟨0x11000208, 0, 0, 64⟩
def DCK_MIR_SEL : Fld := ⟨0x11000300, 0, 0, 32⟩
def DCK_MIR_SEL_SESSION : Fld := ⟨0x11000300, 0, 0, 6⟩
def DCK_MIR_CFG : Fld := ⟨0x11000304, 0, 0, 32⟩
def DCK_MIR_CFG_EN : Fld := ⟨0x11000304, 0, 31, 1⟩
def DCK_MIR_CFG_DEST_TYPE : Fld := ⟨0x11000304, 0, 29, 2⟩
def DCK_MIR_CFG_TC : Fld := ⟨0x11000304, 0, 24, 3⟩
def DCK_MIR_CFG_DEST : Fld := ⟨0x11000304, 0, 0, 14⟩
def DCK_MIR_MADE : Fld := ⟨0x11000308, 0, 0, 64⟩
def DCK_MIR_LOST : Fld := ⟨0x11000310, 0, 0, 64⟩
def TWN_CTRL : Fld := ⟨0x12000000, 0, 0, 32⟩
def TWN_CTRL_EN : Fld := ⟨0x12000000, 0, 0, 1⟩
def TWN_STATUS : Fld := ⟨0x12000004, 0, 0, 32⟩
def TWN_STATUS_LANES : Fld := ⟨0x12000004, 0, 24, 8⟩
def TWN_STATUS_PARTIAL : Fld := ⟨0x12000004, 0, 12, 1⟩
def TWN_STATUS_HB_OK : Fld := ⟨0x12000004, 0, 10, 1⟩
def TWN_STATUS_SUB : Fld := ⟨0x12000004, 0, 8, 2⟩
def TWN_CMD : Fld := ⟨0x12000008, 0, 0, 32⟩
def TWN_CFG : Fld := ⟨0x1200000C, 0, 0, 32⟩
def TWN_CFG_DIGEST_EN : Fld := ⟨0x1200000C, 0, 31, 1⟩
def TWN_CFG_THR : Fld := ⟨0x1200000C, 0, 16, 4⟩
def TWN_CFG_LEAD : Fld := ⟨0x1200000C, 0, 0, 11⟩
def TWN_EVIDENCE : Fld := ⟨0x12000010, 0, 0, 32⟩
def TWN_EVIDENCE_BITS : Fld := ⟨0x12000010, 0, 0, 6⟩
def TWN_PEER : Fld := ⟨0x12000014, 0, 0, 32⟩
def TWN_PEER_FLAGS : Fld := ⟨0x12000014, 0, 8, 8⟩
def TWN_PEER_STATE : Fld := ⟨0x12000014, 0, 0, 8⟩
def TWN_RESYNC : Fld := ⟨0x12000018, 0, 0, 32⟩
def TWN_RESYNC_DONE : Fld := ⟨0x12000018, 0, 16, 16⟩
def TWN_RESYNC_TOTAL : Fld := ⟨0x12000018, 0, 0, 16⟩
def TWN_PORT_SEL_PORT : Fld := ⟨0x12000100, 0, 0, 7⟩
def TWN_PORT_STATUS : Fld := ⟨0x12000104, 0, 0, 32⟩
def CTL_STATUS : Fld := ⟨0x13000000, 0, 0, 32⟩
def CTL_FW_VERSION : Fld := ⟨0x13000004, 0, 0, 32⟩
def CTL_FW_VERSION_VERSION : Fld := ⟨0x13000004, 0, 0, 16⟩
def CTL_PAIR_STATUS_RESTARTS : Fld := ⟨0x13000010, 0x4, 16, 8⟩
def CTL_PAIR_STATUS_STATE : Fld := ⟨0x13000010, 0x4, 8, 3⟩
def CTL_PAIR_CKPT : Fld := ⟨0x13000020, 0x8, 0, 64⟩
def CTL_PAIR_CKPT_SPAN : Fld := ⟨0x13000020, 0x8, 0, 48⟩
def CTL_SVC_MAP : Fld := ⟨0x13000040, 0, 0, 32⟩
def CTL_SVC_MAP_TELEMETRY : Fld := ⟨0x13000040, 0, 10, 2⟩
def CTL_SVC_MAP_BLOTTER : Fld := ⟨0x13000040, 0, 8, 2⟩
def CTL_SVC_MAP_WALK : Fld := ⟨0x13000040, 0, 6, 2⟩
def CTL_SVC_MAP_TWIN : Fld := ⟨0x13000040, 0, 4, 2⟩
def CTL_SVC_MAP_REHASH : Fld := ⟨0x13000040, 0, 2, 2⟩
def CTL_SVC_MAP_LEARN : Fld := ⟨0x13000040, 0, 0, 2⟩
def CTL_BIND_LOCK : Fld := ⟨0x13000080, 0, 0, 32⟩
def CTL_BIND_LOCK_LOCK : Fld := ⟨0x13000080, 0, 0, 1⟩
def CTL_MBX_BIND : Fld := ⟨0x13001000, 0x4, 0, 32⟩
def CTL_MBX_BIND_VALID : Fld := ⟨0x13001000, 0x4, 31, 1⟩
def CTL_MBX_BIND_BELL : Fld := ⟨0x13001000, 0x4, 8, 5⟩
def CTL_MBX_BIND_RECEIVER : Fld := ⟨0x13001000, 0x4, 4, 4⟩
def CTL_MBX_BIND_SENDER : Fld := ⟨0x13001000, 0x4, 0, 4⟩
def CTL_MBX_DATA : Fld := ⟨0x13002000, 0x4, 0, 32⟩
def CTL_MBX_POST : Fld := ⟨0x13002040, 0x80, 0, 32⟩
def CTL_MBX_TXSTAT : Fld := ⟨0x13002044, 0x80, 0, 32⟩
def CTL_MBX_RXSTAT : Fld := ⟨0x13002048, 0x80, 0, 32⟩
def CTL_MBX_ACK : Fld := ⟨0x1300204C, 0x80, 0, 32⟩
def CTL_BELL : Fld := ⟨0x13004000, 0x8, 0, 32⟩
def CTL_BELL_BITS : Fld := ⟨0x13004000, 0x8, 0, 32⟩
def CTL_BELL_MASK : Fld := ⟨0x13004004, 0x8, 0, 32⟩
def CTL_BELL_MASK_BITS : Fld := ⟨0x13004004, 0x8, 0, 32⟩
def CTL_LOCK : Fld := ⟨0x13005000, 0x4, 0, 32⟩
def CTL_LOCK_PEEK : Fld := ⟨0x13005100, 0x4, 0, 32⟩
def HST_STATUS : Fld := ⟨0x14000000, 0, 0, 32⟩
def HST_STATUS_WIDTH : Fld := ⟨0x14000000, 0, 8, 4⟩
def HST_STATUS_RATE : Fld := ⟨0x14000000, 0, 1, 7⟩
def HST_STATUS_DL_UP : Fld := ⟨0x14000000, 0, 0, 1⟩
def HST_EVR_BASE : Fld := ⟨0x14000100, 0x20, 0, 64⟩
def HST_EVR_CFG : Fld := ⟨0x14000108, 0x20, 0, 32⟩
def HST_EVR_CFG_EN : Fld := ⟨0x14000108, 0x20, 31, 1⟩
def HST_EVR_CFG_ERR : Fld := ⟨0x14000108, 0x20, 30, 1⟩
def HST_EVR_CFG_PF : Fld := ⟨0x14000108, 0x20, 29, 1⟩
def HST_EVR_CFG_IRQ_EN : Fld := ⟨0x14000108, 0x20, 28, 1⟩
def HST_EVR_CFG_VECTOR : Fld := ⟨0x14000108, 0x20, 22, 6⟩
def HST_EVR_CFG_SIZE : Fld := ⟨0x14000108, 0x20, 0, 5⟩
def HST_EVR_PROD : Fld := ⟨0x1400010C, 0x20, 0, 32⟩
def HST_EVR_CONS : Fld := ⟨0x14000110, 0x20, 0, 32⟩
def HST_EVR_MOD : Fld := ⟨0x14000114, 0x20, 0, 32⟩
def HST_EVR_MOD_MOD_SPANS : Fld := ⟨0x14000114, 0x20, 16, 16⟩
def HST_EVR_MOD_MOD_CNT : Fld := ⟨0x14000114, 0x20, 0, 16⟩
def HST_EV_ROUTE_ROUTINE : Fld := ⟨0x14000400, 0x4, 8, 4⟩
def HST_EV_ROUTE_URGENT : Fld := ⟨0x14000400, 0x4, 0, 4⟩
def HST_LOG_LIMIT_LOGS : Fld := ⟨0x14000480, 0, 0, 16⟩
def HST_SUPP_SEL : Fld := ⟨0x14000490, 0, 0, 32⟩
def HST_SUPP_CNT : Fld := ⟨0x14000494, 0x4, 0, 32⟩
def HST_ALM_SAT : Fld := ⟨0x14000500, 0x4, 0, 32⟩
def HST_TELEM_CFG_EN : Fld := ⟨0x14000600, 0, 31, 1⟩
def HST_TELEM_CFG_CLASS_MASK : Fld := ⟨0x14000600, 0, 21, 8⟩
def HST_TELEM_CFG_ENCAP : Fld := ⟨0x14000600, 0, 0, 21⟩
def HST_TELEM_RATE_MBPS : Fld := ⟨0x14000604, 0, 0, 18⟩
def HST_I3C_PID : Fld := ⟨0x14000700, 0, 0, 64⟩
def HST_I3C_STATUS : Fld := ⟨0x14000708, 0, 0, 32⟩
def HST_I3C_STATUS_ASSIGNED : Fld := ⟨0x14000708, 0, 7, 1⟩
def HST_I3C_STATUS_DA : Fld := ⟨0x14000708, 0, 0, 7⟩
def HST_DROP_CNT : Fld := ⟨0x14004000, 0x8, 0, 64⟩
def HST_PQ_BASE : Fld := ⟨0x14001000, 0x20, 0, 64⟩
def HST_PQ_CFG : Fld := ⟨0x14001008, 0x20, 0, 32⟩
def HST_PQ_CFG_EN : Fld := ⟨0x14001008, 0x20, 31, 1⟩
def HST_PQ_CFG_META : Fld := ⟨0x14001008, 0x20, 30, 1⟩
def HST_PQ_CFG_IRQ_EN : Fld := ⟨0x14001008, 0x20, 29, 1⟩
def HST_PQ_CFG_VECTOR : Fld := ⟨0x14001008, 0x20, 23, 6⟩
def HST_PQ_CFG_SIZE : Fld := ⟨0x14001008, 0x20, 0, 4⟩
def HST_PQ_TAIL : Fld := ⟨0x1400100C, 0x20, 0, 32⟩
def HST_PQ_TAIL_INDEX : Fld := ⟨0x1400100C, 0x20, 0, 16⟩
def HST_PQ_HEAD : Fld := ⟨0x14001010, 0x20, 0, 32⟩
def HST_PQ_HEAD_INDEX : Fld := ⟨0x14001010, 0x20, 0, 16⟩
def HST_IQ_BASE : Fld := ⟨0x14002000, 0x20, 0, 64⟩
def HST_IQ_CFG : Fld := ⟨0x14002008, 0x20, 0, 32⟩
def HST_IQ_CFG_EN : Fld := ⟨0x14002008, 0x20, 31, 1⟩
def HST_IQ_CFG_IRQ_EN : Fld := ⟨0x14002008, 0x20, 29, 1⟩
def HST_IQ_CFG_VECTOR : Fld := ⟨0x14002008, 0x20, 23, 6⟩
def HST_IQ_CFG_OCTET : Fld := ⟨0x14002008, 0x20, 4, 4⟩
def HST_IQ_CFG_SIZE : Fld := ⟨0x14002008, 0x20, 0, 4⟩
def HST_IQ_TAIL : Fld := ⟨0x1400200C, 0x20, 0, 32⟩
def HST_IQ_TAIL_INDEX : Fld := ⟨0x1400200C, 0x20, 0, 16⟩
def HST_IQ_HEAD : Fld := ⟨0x14002010, 0x20, 0, 32⟩
def HST_IQ_HEAD_INDEX : Fld := ⟨0x14002010, 0x20, 0, 16⟩
def PWR_STATUS : Fld := ⟨0x15000000, 0, 0, 32⟩
def PWR_STATUS_THROTTLE : Fld := ⟨0x15000000, 0, 8, 1⟩
def PWR_STATUS_RESTORING : Fld := ⟨0x15000000, 0, 5, 1⟩
def PWR_STATUS_HOLDING : Fld := ⟨0x15000000, 0, 4, 1⟩
def PWR_STATUS_BELOW_WARN : Fld := ⟨0x15000000, 0, 3, 1⟩
def PWR_STATUS_SHED_STEP : Fld := ⟨0x15000000, 0, 0, 3⟩
def PWR_SHED_LOG : Fld := ⟨0x15000008, 0, 0, 64⟩
def PWR_SHED_LOG_MAX_STEP : Fld := ⟨0x15000008, 0, 52, 4⟩
def PWR_SHED_LOG_STEP : Fld := ⟨0x15000008, 0, 48, 4⟩
def PWR_SHED_LOG_SPAN : Fld := ⟨0x15000008, 0, 0, 48⟩
def PWR_SHED_GRP_A_OCTETS : Fld := ⟨0x15000010, 0, 0, 16⟩
def PWR_SHED_GRP_B : Fld := ⟨0x15000020, 0x4, 0, 32⟩
def PWR_RAIL : Fld := ⟨0x15000100, 0x4, 0, 32⟩
def PWR_RAIL_MIN_MV : Fld := ⟨0x15000100, 0x4, 16, 16⟩
def PWR_RAIL_MV : Fld := ⟨0x15000100, 0x4, 0, 16⟩
def PWR_DOM_STATUS : Fld := ⟨0x15000200, 0x4, 0, 32⟩
def PWR_FAB_OFF_OCTETS : Fld := ⟨0x15000220, 0, 0, 20⟩
def PWR_PIER_FREQ : Fld := ⟨0x15000300, 0x4, 0, 32⟩
def PWR_PIER_FREQ_TARGET : Fld := ⟨0x15000300, 0x4, 16, 11⟩
def PWR_PIER_FREQ_ACTUAL : Fld := ⟨0x15000300, 0x4, 0, 11⟩
def PWR_THERM_CFG : Fld := ⟨0x15000400, 0, 0, 32⟩
def PWR_THERM_CFG_THROTTLE : Fld := ⟨0x15000400, 0, 0, 8⟩
def PWR_TEMP : Fld := ⟨0x15000480, 0x4, 0, 32⟩
def PWR_TEMP_TEMP : Fld := ⟨0x15000480, 0x4, 0, 16⟩
def PWR_PMB_ADDR_PKG : Fld := ⟨0x15000600, 0x4, 8, 1⟩
def PWR_PMB_ADDR_VALID : Fld := ⟨0x15000600, 0x4, 7, 1⟩
def PWR_PKG_POWER : Fld := ⟨0x15000700, 0, 0, 32⟩
def PWR_PKG_POWER_WATTS : Fld := ⟨0x15000700, 0, 0, 16⟩
def SEC_BOOT_STATUS_CAUSE : Fld := ⟨0x16000000, 0, 24, 8⟩
def SEC_BOOT_STATUS_FALLBACK : Fld := ⟨0x16000000, 0, 19, 1⟩
def SEC_BOOT_STATUS_SLOT : Fld := ⟨0x16000000, 0, 18, 1⟩
def SEC_BOOT_STATUS_KEY_SLOT : Fld := ⟨0x16000000, 0, 16, 1⟩
def SEC_BOOT_STATUS_FW_SVN : Fld := ⟨0x16000000, 0, 8, 7⟩
def SEC_BOOT_STATUS_PHASE : Fld := ⟨0x16000000, 0, 0, 4⟩
def SEC_Q_CAUSE_CAUSE : Fld := ⟨0x16000004, 0, 0, 8⟩
def SEC_Q_CAUSE_DETAIL : Fld := ⟨0x16000004, 0, 8, 8⟩
def SEC_CTRL : Fld := ⟨0x16000008, 0, 0, 32⟩
def SEC_FUSE_STATE : Fld := ⟨0x16000010, 0, 0, 32⟩
def SEC_FUSE_CMD : Fld := ⟨0x16000014, 0, 0, 32⟩
def SEC_FUSE_CMD_RESULT : Fld := ⟨0x16000014, 0, 16, 2⟩
def SEC_ID_PUB : Fld := ⟨0x16000040, 0x4, 0, 32⟩
def SEC_ATT_NONCE : Fld := ⟨0x16000100, 0x4, 0, 32⟩
def SEC_ATT_NONCE_NONCE : Fld := ⟨0x16000100, 0x4, 0, 32⟩
def SEC_ATT : Fld := ⟨0x16000120, 0, 0, 32⟩
def SEC_ATT_LEN : Fld := ⟨0x16000120, 0, 16, 12⟩
def SEC_ATT_STATE : Fld := ⟨0x16000120, 0, 8, 2⟩
def SEC_ATT_REPORT : Fld := ⟨0x16001000, 0x4, 0, 32⟩
def SEC_FLASH_HOST_ADDR : Fld := ⟨0x16000200, 0, 6, 58⟩
def SEC_FLASH_OFS_OFS : Fld := ⟨0x16000208, 0, 0, 28⟩
def SEC_FLASH_LEN_LEN : Fld := ⟨0x1600020C, 0, 0, 25⟩
def SEC_FLASH_CMD : Fld := ⟨0x16000210, 0, 0, 32⟩
def SEC_FLASH_CMD_STATE : Fld := ⟨0x16000210, 0, 8, 3⟩
def DGN_STATUS : Fld := ⟨0x17000000, 0, 0, 32⟩
def DGN_STATUS_CW_FAIL : Fld := ⟨0x17000000, 0, 2, 1⟩
def DGN_STATUS_MAINT_BUSY : Fld := ⟨0x17000000, 0, 1, 1⟩
def DGN_STATUS_BIST_BUSY : Fld := ⟨0x17000000, 0, 0, 1⟩
def DGN_CU_CTRL : Fld := ⟨0x17000100, 0x20, 0, 32⟩
def DGN_CU_EXPECT : Fld := ⟨0x17000108, 0x20, 0, 64⟩
def DGN_CU_EXPECT_VALUE : Fld := ⟨0x17000108, 0x20, 0, 64⟩
def DGN_CU_RESULT_VALUE : Fld := ⟨0x17000110, 0x20, 0, 64⟩
def DGN_CU_STATUS : Fld := ⟨0x17000118, 0x20, 0, 32⟩
def DGN_CU_STATUS_STATE : Fld := ⟨0x17000118, 0x20, 0, 3⟩
def DGN_CU_COUNT_BYTES : Fld := ⟨0x1700011C, 0x20, 0, 32⟩
def DGN_PATROL_CFG_EN : Fld := ⟨0x17000400, 0, 0, 1⟩
def DGN_PATROL_STATUS : Fld := ⟨0x17000404, 0, 0, 32⟩
def DGN_PATROL_STATUS_ROUNDS : Fld := ⟨0x17000404, 0, 0, 16⟩
def DGN_BIST_CMD : Fld := ⟨0x17000500, 0, 0, 32⟩
def DGN_BIST_CMD_PIER : Fld := ⟨0x17000500, 0, 0, 5⟩
def DGN_BIST_STATUS_RESULT : Fld := ⟨0x17000504, 0, 8, 2⟩
def DGN_BIST_STATUS_PIER : Fld := ⟨0x17000504, 0, 0, 5⟩
def DGN_RECAL_CMD : Fld := ⟨0x17000600, 0, 0, 32⟩
def DGN_RECAL_CMD_FABRIC : Fld := ⟨0x17000600, 0, 8, 1⟩
def DGN_RECAL_CMD_LANE : Fld := ⟨0x17000600, 0, 0, 8⟩
def DGN_CW_TEST : Fld := ⟨0x17000700, 0, 0, 32⟩
def DGN_CW_TEST_EN : Fld := ⟨0x17000700, 0, 31, 1⟩
def DGN_CW_TEST_PRBS : Fld := ⟨0x17000700, 0, 0, 1⟩
def DGN_MAINT_CMD : Fld := ⟨0x17000900, 0, 0, 32⟩
def DGN_MAINT_CMD_SCOPE : Fld := ⟨0x17000900, 0, 0, 5⟩
def PIR_ING_STROKES : Fld := ⟨0x8000800, 0, 0, 64⟩
def PIR_SS_STROKES : Fld := ⟨0x8000808, 0, 0, 64⟩
def PIR_INJ_STROKES : Fld := ⟨0x8000810, 0, 0, 64⟩
def PIR_EGR_STROKES : Fld := ⟨0x8000818, 0, 0, 64⟩
def PIR_RX_OVERRUN_DROP : Fld := ⟨0x8000820, 0, 0, 64⟩
def PIR_PARSE_ERR_CNT : Fld := ⟨0x8000828, 0, 0, 64⟩
def PIR_SS_FULL_DROP : Fld := ⟨0x8000830, 0, 0, 64⟩
def PIR_SS_LIMIT_DROP : Fld := ⟨0x8000838, 0, 0, 64⟩
def PIR_PRG_FAULT_CNT : Fld := ⟨0x8000840, 0, 0, 64⟩
def PIR_TCAM_COMMITS : Fld := ⟨0x8000848, 0, 0, 64⟩
def PIR_TCAM_STEALS : Fld := ⟨0x8000850, 0, 0, 64⟩
def TBL_ECC_CORR : Fld := ⟨0xA000800, 0, 0, 64⟩
def TBL_ECC_UNCORR : Fld := ⟨0xA000808, 0, 0, 64⟩
def TBL_POISON_DROP : Fld := ⟨0xA000810, 0, 0, 64⟩
def TBL_CNT_LOST : Fld := ⟨0xA000818, 0, 0, 64⟩
def TBL_OP_IGNORED : Fld := ⟨0xA000820, 0, 0, 64⟩
def TBL_METER_FOREIGN : Fld := ⟨0xA000828, 0, 0, 64⟩
def TBL_LEARN_NEW : Fld := ⟨0xA000830, 0, 0, 64⟩
def TBL_LEARN_MOVE : Fld := ⟨0xA000838, 0, 0, 64⟩
def TBL_LEARN_STATIC : Fld := ⟨0xA000840, 0, 0, 64⟩
def TBL_LEARN_FAIL : Fld := ⟨0xA000848, 0, 0, 64⟩
def TBL_LEARN_DROP : Fld := ⟨0xA000850, 0, 0, 64⟩
def TBL_LEARN_BAD : Fld := ⟨0xA000858, 0, 0, 64⟩
def TBL_LEARN_EV_SUPPRESSED : Fld := ⟨0xA000860, 0, 0, 64⟩
def TBL_TAE_OPS : Fld := ⟨0xA001800, 0, 0, 64⟩
def TBL_TAE_FAIL : Fld := ⟨0xA001808, 0, 0, 64⟩
def TBL_RELOC_MOVES : Fld := ⟨0xA001810, 0, 0, 64⟩
def TBL_INSERT_NO_ROOM : Fld := ⟨0xA001818, 0, 0, 64⟩
def TBL_AGE_REMOVED : Fld := ⟨0xA001820, 0, 0, 64⟩
def TBL_AGE_EV_SUPPRESSED : Fld := ⟨0xA001828, 0, 0, 64⟩
def TBL_RETIRE_RELEASED : Fld := ⟨0xA001830, 0, 0, 64⟩
def BUF_EXHAUSTED_DROP : Fld := ⟨0xC000800, 0, 0, 64⟩
def BUF_FALLBACK : Fld := ⟨0xC000808, 0, 0, 64⟩
def BUF_SPILL_ENTER : Fld := ⟨0xC000810, 0, 0, 64⟩
def BUF_FAR_ERROR_DROP : Fld := ⟨0xC000818, 0, 0, 64⟩
def BUF_PF_RECORDS : Fld := ⟨0xC000820, 0, 0, 64⟩
def BUF_PF_MISS : Fld := ⟨0xC000828, 0, 0, 64⟩
def BUF_FREE_REJ_RANGE : Fld := ⟨0xC000830, 0, 0, 64⟩
def BUF_FREE_REJ_ALIGN : Fld := ⟨0xC000838, 0, 0, 64⟩
def BUF_FREE_REJ_DOUBLE : Fld := ⟨0xC000840, 0, 0, 64⟩
def BUF_FREE_REJ_FOREIGN : Fld := ⟨0xC000848, 0, 0, 64⟩
def BUF_CONTESTS : Fld := ⟨0xC000850, 0, 0, 64⟩
def QUE_TAIL_DROP : Fld := ⟨0xD001800, 0, 0, 64⟩
def QUE_WRED_DROP : Fld := ⟨0xD001808, 0, 0, 64⟩
def QUE_WRED_MARK : Fld := ⟨0xD001810, 0, 0, 64⟩
def QUE_SJ_DROP : Fld := ⟨0xD001818, 0, 0, 64⟩
def QUE_SJ_MARK : Fld := ⟨0xD001820, 0, 0, 64⟩
def QUE_EQ_RANGE_DROP : Fld := ⟨0xD001828, 0, 0, 64⟩
def QUE_PORT_DOWN_DROP : Fld := ⟨0xD001830, 0, 0, 64⟩
def QUE_FLUSH_DROP : Fld := ⟨0xD001838, 0, 0, 64⟩
def SHP_SWITCHES : Fld := ⟨0xE000800, 0, 0, 64⟩
def SHP_LEVEL_CAPS : Fld := ⟨0xE000808, 0, 0, 64⟩
def FAB_GRANTS : Fld := ⟨0x10000800, 0, 0, 64⟩
def FAB_GRANT_WASTED : Fld := ⟨0x10000808, 0, 0, 64⟩
def FAB_CELLS_TX : Fld := ⟨0x10000810, 0, 0, 64⟩
def FAB_CELLS_RX : Fld := ⟨0x10000818, 0, 0, 64⟩
def FAB_FEC_UNCORR : Fld := ⟨0x10000820, 0, 0, 64⟩
def FAB_CELL_ERR : Fld := ⟨0x10000828, 0, 0, 64⟩
def FAB_CTRL_ERR : Fld := ⟨0x10000830, 0, 0, 64⟩
def FAB_MISDELIVERED : Fld := ⟨0x10000838, 0, 0, 64⟩
def FAB_LATE_CELL : Fld := ⟨0x10000840, 0, 0, 64⟩
def FAB_STAGED_LOST : Fld := ⟨0x10000848, 0, 0, 64⟩
def FAB_REASM_DROPS : Fld := ⟨0x10000850, 0, 0, 64⟩
def FAB_CRC_DROP : Fld := ⟨0x10000858, 0, 0, 64⟩
def DCK_OUT_CELLS : Fld := ⟨0x11000800, 0x8, 0, 64⟩
def DCK_CRC_DROP : Fld := ⟨0x11000880, 0, 0, 64⟩
def DCK_MC_NO_GROUP : Fld := ⟨0x11000888, 0, 0, 64⟩
def DCK_MC_BACKLOG_DROP : Fld := ⟨0x11000890, 0, 0, 64⟩
def DCK_MIRROR_SHED : Fld := ⟨0x11000898, 0, 0, 64⟩
def DCK_MC_COPIES_TOTAL : Fld := ⟨0x110008A0, 0, 0, 64⟩
def TWN_WIN_MATCH : Fld := ⟨0x12000800, 0, 0, 64⟩
def TWN_WIN_MISMATCH : Fld := ⟨0x12000808, 0, 0, 64⟩
def TWN_WIN_VOID : Fld := ⟨0x12000810, 0, 0, 64⟩
def TWN_HB_MISSED : Fld := ⟨0x12000818, 0, 0, 64⟩
def TWN_MIRROR_RETX : Fld := ⟨0x12000820, 0, 0, 64⟩
def TWN_MIRROR_LATE : Fld := ⟨0x12000828, 0, 0, 64⟩
def TWN_RALIN_CRC_ERR : Fld := ⟨0x12000830, 0, 0, 64⟩
def CTL_MBX_POSTS : Fld := ⟨0x13000800, 0, 0, 64⟩
def CTL_MBX_COLLIDES : Fld := ⟨0x13000808, 0, 0, 64⟩
def CTL_MBX_DISCARDS : Fld := ⟨0x13000810, 0, 0, 64⟩
def CTL_LOCK_ACQUIRES : Fld := ⟨0x13000818, 0, 0, 64⟩
def CTL_LOCK_CONTESTS : Fld := ⟨0x13000820, 0, 0, 64⟩
def CTL_LOCKSTEP_MISMATCH : Fld := ⟨0x13000828, 0, 0, 64⟩
def HST_EV_ACCEPTED : Fld := ⟨0x14000800, 0, 0, 64⟩
def HST_EV_SUPPRESSED : Fld := ⟨0x14000808, 0, 0, 64⟩
def HST_TELEM_DROPPED : Fld := ⟨0x14000810, 0, 0, 64⟩
def HST_INJECT_ERR : Fld := ⟨0x14000818, 0, 0, 64⟩
def DGN_PATROL_CORR : Fld := ⟨0x17000800, 0, 0, 64⟩
def DGN_CW_CORR : Fld := ⟨0x17000808, 0, 0, 64⟩
def DGN_CW_UNCORR : Fld := ⟨0x17000810, 0, 0, 64⟩
def DGN_CW_REPLAY : Fld := ⟨0x17000818, 0, 0, 64⟩
def DGN_CW_BER_FE_TM : Fld := ⟨0x17000820, 0, 0, 64⟩
def DGN_CW_BER_TM_FE : Fld := ⟨0x17000828, 0, 0, 64⟩
def DGN_CU_MISMATCH : Fld := ⟨0x17000830, 0, 0, 64⟩
def LPT_RX_OK_FRAMES : Fld := ⟨0x4000800, 0, 0, 64⟩
def LPT_RX_OK_BYTES : Fld := ⟨0x4000808, 0, 0, 64⟩
def LPT_RX_FCS_ERR : Fld := ⟨0x4000810, 0, 0, 64⟩
def LPT_RX_RUNT : Fld := ⟨0x4000818, 0, 0, 64⟩
def LPT_RX_OVERSIZE : Fld := ⟨0x4000820, 0, 0, 64⟩
def LPT_RX_PAUSE : Fld := ⟨0x4000828, 0, 0, 64⟩
def LPT_RX_PFC : Fld := ⟨0x4000830, 0, 0, 64⟩
def LPT_RX_MSEC_DROP : Fld := ⟨0x4000838, 0, 0, 64⟩
def LPT_TX_OK_FRAMES : Fld := ⟨0x4000840, 0, 0, 64⟩
def LPT_TX_OK_BYTES : Fld := ⟨0x4000848, 0, 0, 64⟩
def LPT_TX_FLOW_CTRL : Fld := ⟨0x4000850, 0, 0, 64⟩
def LPT_TX_GATE_OVERSIZE : Fld := ⟨0x4000858, 0, 0, 64⟩
def LPT_TX_PREEMPT_FRAGS : Fld := ⟨0x4000860, 0, 0, 64⟩
def LPT_FEC_CORR_CW : Fld := ⟨0x4000868, 0, 0, 64⟩
def LPT_FEC_UNCORR_CW : Fld := ⟨0x4000870, 0, 0, 64⟩
def LPT_TX_MSEC_PN_DROP : Fld := ⟨0x4000878, 0, 0, 64⟩
end F

namespace Ev
def GLB_MODE_CHANGE : EvDesc := ⟨0x0101, .notice⟩
def GLB_UNMAPPED_ACCESS : EvDesc := ⟨0x0102, .log⟩
def GLB_CTRL_REFUSED : EvDesc := ⟨0x0103, .notice⟩
def TIM_LATE : EvDesc := ⟨0x0201, .notice⟩
def TIM_KEYSTONE : EvDesc := ⟨0x0202, .notice⟩
def TIM_KEYSTONE_BUSY : EvDesc := ⟨0x0203, .notice⟩
def TIM_RELEASE : EvDesc := ⟨0x0204, .notice⟩
def TIM_EXPIRED : EvDesc := ⟨0x0205, .notice⟩
def TIM_LOCK_LOST : EvDesc := ⟨0x0206, .alarm⟩
def TIM_LOCK_GAINED : EvDesc := ⟨0x0207, .notice⟩
def TIM_MISSED : EvDesc := ⟨0x0208, .fault⟩
def TIM_SPAN_DISAGREE : EvDesc := ⟨0x0209, .fault⟩
def TIM_TOD_STEP : EvDesc := ⟨0x020A, .notice⟩
def TIM_TA_RESULT : EvDesc := ⟨0x020B, .log⟩
def TIM_MARK : EvDesc := ⟨0x020C, .notice⟩
def TIM_TOD_RX_ERR : EvDesc := ⟨0x020D, .log⟩
def TIM_PPS_LOST : EvDesc := ⟨0x020E, .fault⟩
def TIM_TA_BUSY : EvDesc := ⟨0x020F, .notice⟩
def TIM_TA_BAD : EvDesc := ⟨0x0210, .notice⟩
def TIM_UNLOCKED : EvDesc := ⟨0x0211, .notice⟩
def IMG_LOAD_DONE : EvDesc := ⟨0x0301, .notice⟩
def IMG_LOAD_FAIL : EvDesc := ⟨0x0302, .fault⟩
def IMG_LOAD_REFUSED : EvDesc := ⟨0x0303, .notice⟩
def IMG_SIG_FAIL : EvDesc := ⟨0x0304, .alarm⟩
def IMG_WALK_STEP : EvDesc := ⟨0x0305, .notice⟩
def IMG_WALK_DONE : EvDesc := ⟨0x0306, .notice⟩
def IMG_WALK_REFUSED : EvDesc := ⟨0x0307, .notice⟩
def IMG_WALK_SUSPEND : EvDesc := ⟨0x0308, .notice⟩
def IMG_WALK_ABANDONED : EvDesc := ⟨0x0309, .fault⟩
def IMG_PIER_FAIL : EvDesc := ⟨0x030A, .alarm⟩
def IMG_PIER_RETIRED : EvDesc := ⟨0x030B, .notice⟩
def IMG_NO_SPARE : EvDesc := ⟨0x030C, .alarm⟩
def LPT_LINK_UP : EvDesc := ⟨0x0401, .notice⟩
def LPT_LINK_DOWN : EvDesc := ⟨0x0402, .fault⟩
def LPT_GCL_START : EvDesc := ⟨0x0403, .notice⟩
def LPT_CFG_REFUSED : EvDesc := ⟨0x0404, .notice⟩
def LPT_GATE_OVERSIZE : EvDesc := ⟨0x0405, .log⟩
def LPT_PFC_STORM : EvDesc := ⟨0x0406, .fault⟩
def LPT_MSEC_PN_THR : EvDesc := ⟨0x0407, .notice⟩
def LPT_TXTS_OVERFLOW : EvDesc := ⟨0x0408, .log⟩
def LPT_PREEMPT_VERIFY : EvDesc := ⟨0x0409, .notice⟩
def PIR_PARSE_ERR : EvDesc := ⟨0x0501, .log⟩
def PIR_PRG_FAULT : EvDesc := ⟨0x0502, .fault⟩
def PIR_SS_DROP : EvDesc := ⟨0x0503, .log⟩
def PIR_TCAM_PARITY : EvDesc := ⟨0x0504, .fault⟩
def PIR_PIER_FAULT : EvDesc := ⟨0x0505, .alarm⟩
def PIR_TCAM_REFUSED : EvDesc := ⟨0x0506, .notice⟩
def TBL_POISONED : EvDesc := ⟨0x0601, .fault⟩
def TBL_POISON_HIT : EvDesc := ⟨0x0602, .log⟩
def TBL_ECC_CORR : EvDesc := ⟨0x0603, .log⟩
def TBL_LEARN : EvDesc := ⟨0x0604, .notice⟩
def TBL_SNAP_DONE : EvDesc := ⟨0x0605, .notice⟩
def TBL_SNAP_REFUSED : EvDesc := ⟨0x0606, .notice⟩
def TBL_METER_FOREIGN : EvDesc := ⟨0x0607, .log⟩
def TBL_CNT_LOST : EvDesc := ⟨0x0608, .log⟩
def TBL_REHASH_REQ : EvDesc := ⟨0x0609, .notice⟩
def TBL_REHASH_READY : EvDesc := ⟨0x060A, .notice⟩
def TBL_REHASH_FAIL : EvDesc := ⟨0x060B, .fault⟩
def TBL_REHASH_COMMIT : EvDesc := ⟨0x060C, .notice⟩
def TBL_AGED : EvDesc := ⟨0x060D, .log⟩
def TBL_AGE_LAG : EvDesc := ⟨0x060E, .fault⟩
def TBL_TAE_REFUSED : EvDesc := ⟨0x060F, .notice⟩
def TBL_RETIRE_RELEASED : EvDesc := ⟨0x0610, .notice⟩
def BUF_FREE_REJECT : EvDesc := ⟨0x0701, .fault⟩
def BUF_POOL_LOW : EvDesc := ⟨0x0702, .notice⟩
def BUF_CXL_UP : EvDesc := ⟨0x0703, .notice⟩
def BUF_CXL_DOWN : EvDesc := ⟨0x0704, .alarm⟩
def BUF_CXL_DEGRADED : EvDesc := ⟨0x0705, .fault⟩
def BUF_FAR_ERROR : EvDesc := ⟨0x0706, .log⟩
def BUF_CFG_REFUSED : EvDesc := ⟨0x0707, .notice⟩
def QUE_FLUSH_DONE : EvDesc := ⟨0x0801, .notice⟩
def QUE_SP_STATE : EvDesc := ⟨0x0802, .notice⟩
def QUE_MOVE_REFUSED : EvDesc := ⟨0x0803, .notice⟩
def QUE_CFG_REFUSED : EvDesc := ⟨0x0804, .notice⟩
def QUE_ROOT_CHANGED : EvDesc := ⟨0x0805, .notice⟩
def SHP_SWITCH : EvDesc := ⟨0x0901, .notice⟩
def SHP_SWITCH_REFUSED : EvDesc := ⟨0x0902, .notice⟩
def SHP_CFG_REFUSED : EvDesc := ⟨0x0903, .notice⟩
def FAB_LINK_UP : EvDesc := ⟨0x0A01, .notice⟩
def FAB_LINK_DOWN : EvDesc := ⟨0x0A02, .fault⟩
def FAB_NODE_MISMATCH : EvDesc := ⟨0x0A03, .alarm⟩
def FAB_UP : EvDesc := ⟨0x0A04, .notice⟩
def FAB_DOWN : EvDesc := ⟨0x0A05, .alarm⟩
def FAB_CAPACITY : EvDesc := ⟨0x0A06, .fault⟩
def FAB_OWNER_CHANGE : EvDesc := ⟨0x0A07, .notice⟩
def FAB_REASM_DROP : EvDesc := ⟨0x0A08, .log⟩
def FAB_STAGED_LOST : EvDesc := ⟨0x0A09, .log⟩
def DCK_CRC_ERR : EvDesc := ⟨0x0B01, .fault⟩
def DCK_MC_BACKLOG : EvDesc := ⟨0x0B02, .log⟩
def DCK_CFG_REFUSED : EvDesc := ⟨0x0B03, .notice⟩
def DCK_MC_NO_GROUP : EvDesc := ⟨0x0B04, .log⟩
def TWN_ROLE_CHANGE : EvDesc := ⟨0x0C01, .notice⟩
def TWN_HB_LOST : EvDesc := ⟨0x0C02, .alarm⟩
def TWN_PEER_LOST : EvDesc := ⟨0x0C03, .alarm⟩
def TWN_MISMATCH : EvDesc := ⟨0x0C04, .fault⟩
def TWN_COPY_ABORT : EvDesc := ⟨0x0C06, .alarm⟩
def TWN_IN_STEP : EvDesc := ⟨0x0C07, .notice⟩
def TWN_TAKEOVER_FAIL : EvDesc := ⟨0x0C08, .fault⟩
def TWN_ISOLATED : EvDesc := ⟨0x0C09, .alarm⟩
def TWN_MIRROR_LATE : EvDesc := ⟨0x0C0A, .fault⟩
def TWN_PORT_UNALIGNED : EvDesc := ⟨0x0C0B, .log⟩
def TWN_LOCAL_WRITE : EvDesc := ⟨0x0C0C, .notice⟩
def TWN_CMD_REFUSED : EvDesc := ⟨0x0C0D, .notice⟩
def CTL_LOCKSTEP : EvDesc := ⟨0x0D01, .alarm⟩
def CTL_PAIR_RESTARTED : EvDesc := ⟨0x0D02, .notice⟩
def CTL_PAIR_FAILED : EvDesc := ⟨0x0D03, .alarm⟩
def CTL_SVC_MOVED : EvDesc := ⟨0x0D04, .notice⟩
def CTL_MBX_DENIED : EvDesc := ⟨0x0D05, .notice⟩
def CTL_MBX_PWR_OFF : EvDesc := ⟨0x0D06, .fault⟩
def CTL_MBX_DISCARD : EvDesc := ⟨0x0D07, .notice⟩
def CTL_LOCK_BAD_RELEASE : EvDesc := ⟨0x0D08, .notice⟩
def CTL_LOCK_FREED : EvDesc := ⟨0x0D09, .notice⟩
def CTL_BIND_REFUSED : EvDesc := ⟨0x0D0A, .notice⟩
def HST_SUMMARY : EvDesc := ⟨0x0E01, .summary⟩
def HST_INJECT_ERR : EvDesc := ⟨0x0E02, .log⟩
def HST_CFG_REFUSED : EvDesc := ⟨0x0E03, .notice⟩
def HST_LINK_CHANGE : EvDesc := ⟨0x0E04, .notice⟩
def PWR_SHED_ENTER : EvDesc := ⟨0x0F01, .alarm⟩
def PWR_SHED_RESTORE : EvDesc := ⟨0x0F02, .notice⟩
def PWR_RAIL_OOR : EvDesc := ⟨0x0F03, .fault⟩
def PWR_THROTTLE : EvDesc := ⟨0x0F04, .notice⟩
def PWR_THERM_TRIP : EvDesc := ⟨0x0F05, .alarm⟩
def PWR_REG_FAULT : EvDesc := ⟨0x0F06, .fault⟩
def SEC_BOOT_DONE : EvDesc := ⟨0x1001, .notice⟩
def SEC_BOOT_FALLBACK : EvDesc := ⟨0x1002, .fault⟩
def SEC_BOOT_FAIL : EvDesc := ⟨0x1003, .fault⟩
def SEC_QUARANTINE : EvDesc := ⟨0x1004, .alarm⟩
def SEC_TAMPER : EvDesc := ⟨0x1005, .alarm⟩
def SEC_ATT_DONE : EvDesc := ⟨0x1006, .notice⟩
def SEC_FLASH_DONE : EvDesc := ⟨0x1007, .notice⟩
def SEC_FUSE_DONE : EvDesc := ⟨0x1008, .notice⟩
def SEC_CMD_REFUSED : EvDesc := ⟨0x1009, .notice⟩
def DGN_CU_DONE : EvDesc := ⟨0x1101, .notice⟩
def DGN_CU_MISMATCH : EvDesc := ⟨0x1102, .fault⟩
def DGN_CMD_REFUSED : EvDesc := ⟨0x1103, .notice⟩
def DGN_BIST_DONE : EvDesc := ⟨0x1104, .notice⟩
def DGN_RECAL_DONE : EvDesc := ⟨0x1105, .notice⟩
def DGN_CW_ERR : EvDesc := ⟨0x1106, .log⟩
def DGN_CW_FAIL : EvDesc := ⟨0x1107, .alarm⟩
def DGN_MAINT_DONE : EvDesc := ⟨0x1108, .notice⟩
end Ev

end Sys2Proof.Machine
end

