-- ==== Sys2Proof/Machine/RegMap.lean ====
section
/-! DEFINITION. The register map of BAR0 (R25, R26): one row for each register heading and counter of the
spec, with its offset in the block window, its array stride, its width, its reset value and its access masks. -/

namespace Sys2Proof.Machine

/-- One row of a block's register map. `off` is the offset in the block's window; the row stands for `n` copies `st`
apart, each made of `n2` copies `st2` apart (1 and 0 where the register is single). `wide`: a 64-bit register (R8).
`sel`: the register shows the item that the block's selector names. `rw`, `rwl` and `w1c` are the masks of the
bits with those access codes. -/
structure RegDesc where
  name : String
  off : Nat
  n : Nat
  st : Nat
  n2 : Nat
  st2 : Nat
  wide : Bool
  sel : Bool
  reset : Nat → Nat
  rw : Nat
  rwl : Nat
  w1c : Nat

/-- Rows of the GLB register map (GLB registers and counters). -/
def regsGlb0 : List RegDesc :=
  [ ⟨"GLB_ID", 0, 1, 0, 1, 0, false, false, fun _ => 0x964000a1, 0, 0, 0⟩,
    ⟨"GLB_DIE_ID", 0x8, 1, 0, 1, 0, true, false, fun _ => 0x0, 0, 0, 0⟩,
    ⟨"GLB_FEATURE", 0x10, 1, 0, 1, 0, false, false, fun _ => 0x3, 0, 0, 0⟩,
    ⟨"GLB_MODE", 0x20, 1, 0, 1, 0, false, false, fun _ => 0x1, 0, 0, 0⟩,
    ⟨"GLB_MODE_FLAGS", 0x24, 1, 0, 1, 0, false, false, fun _ => 0x10000002, 0, 0, 0⟩,
    ⟨"GLB_CTRL", 0x30, 1, 0, 1, 0, false, false, fun _ => 0x0, 0, 0, 0⟩,
    ⟨"GLB_LOCK", 0x34, 1, 0, 1, 0, false, false, fun _ => 0x0, 0, 0, 0⟩,
    ⟨"GLB_STRAP", 0x40, 1, 0, 1, 0, false, false, fun _ => 0x0, 0, 0, 0⟩,
    ⟨"GLB_RESET_CAUSE", 0x44, 1, 0, 1, 0, false, false, fun _ => 0x1, 0, 0, 0xFF⟩,
    ⟨"GLB_ALARM_SUMMARY", 0x50, 1, 0, 1, 0, false, false, fun _ => 0x0, 0, 0, 0x3FFFE⟩,
    ⟨"GLB_SCRATCH", 0x60, 4, 0x4, 1, 0, false, false, fun _ => 0x0, 0xFFFFFFFF, 0, 0⟩ ]

/-- The GLB register map. -/
def regsGlb : List RegDesc := regsGlb0

/-- Rows of the TIM register map (TIM registers and counters). -/
def regsTim0 : List RegDesc :=
  [ ⟨"TIM_STATUS", 0, 1, 0, 1, 0, false, false, fun _ => 0x0, 0, 0, 0x2⟩,
    ⟨"TIM_CTRL", 0x4, 1, 0, 1, 0, false, false, fun _ => 0x0, 0x3, 0, 0⟩,
    ⟨"TIM_STC", 0x8, 1, 0, 1, 0, true, false, fun _ => 0x0, 0, 0, 0⟩,
    ⟨"TIM_PHC_SEC", 0x10, 1, 0, 1, 0, true, false, fun _ => 0x0, 0, 0, 0⟩,
    ⟨"TIM_PHC_NS", 0x18, 1, 0, 1, 0, false, false, fun _ => 0x0, 0, 0, 0⟩,
    ⟨"TIM_PHC_SUBNS", 0x1C, 1, 0, 1, 0, false, false, fun _ => 0x0, 0, 0, 0⟩,
    ⟨"TIM_TOD_BASE", 0x20, 1, 0, 1, 0, true, false, fun _ => 0x0, 0, 0, 0⟩,
    ⟨"TIM_TOD_BASE_NS", 0x28, 1, 0, 1, 0, false, false, fun _ => 0x0, 0, 0, 0⟩,
    ⟨"TIM_CORR", 0x2C, 1, 0, 1, 0, false, false, fun _ => 0x0, 0xFFFFFFFF, 0, 0⟩,
    ⟨"TIM_TOD_STEP_THR", 0x30, 1, 0, 1, 0, false, false, fun _ => 0x64, 0xFFFF, 0, 0⟩,
    ⟨"TIM_EPOCH", 0x40, 1, 0, 1, 0, false, false, fun _ => 0x0, 0, 0, 0⟩,
    ⟨"TIM_BANK_STATUS", 0x44, 1, 0, 1, 0, false, false, fun _ => 0x0, 0, 0, 0⟩,
    ⟨"TIM_DRAIN_LIMIT", 0x48, 1, 0, 1, 0, false, false, fun _ => 0x1000, 0x1FFFFF, 0, 0⟩,
    ⟨"TIM_OLD_RESIDENT", 0x4C, 1, 0, 1, 0, false, false, fun _ => 0x0, 0, 0, 0⟩,
    ⟨"TIM_EXPIRED_CNT", 0x50, 1, 0, 1, 0, true, false, fun _ => 0x0, 0, 0, 0⟩,
    ⟨"TIM_LAST_KEYSTONE", 0x58, 1, 0, 1, 0, true, false, fun _ => 0x0, 0, 0, 0⟩,
    ⟨"TIM_TA_INDEX", 0x100, 1, 0, 1, 0, false, true, fun _ => 0x0, 0xFF, 0, 0⟩,
    ⟨"TIM_TA_SPAN", 0x108, 1, 0, 1, 0, true, true, fun _ => 0x0, 0xFFFFFFFFFFFF, 0, 0⟩,
    ⟨"TIM_TA_OPERAND", 0x110, 1, 0, 1, 0, true, true, fun _ => 0x0, 0xFFFFFFFFFFFFFFFF, 0, 0⟩,
    ⟨"TIM_TA_TYPE", 0x118, 1, 0, 1, 0, false, true, fun _ => 0x0, 0xF, 0, 0⟩,
    ⟨"TIM_TA_CMD", 0x11C, 1, 0, 1, 0, false, false, fun _ => 0x0, 0, 0, 0⟩,
    ⟨"TIM_TA_STATUS", 0x120, 1, 0, 1, 0, false, true, fun _ => 0x0, 0, 0, 0⟩,
    ⟨"TIM_PPS_CFG", 0x200, 1, 0, 1, 0, false, false, fun _ => 0x6200, 0xFF07, 0, 0⟩,
    ⟨"TIM_PPS_PHASE", 0x204, 1, 0, 1, 0, false, false, fun _ => 0x0, 0, 0, 0⟩ ]

/-- Rows of the TIM register map (TIM registers and counters). -/
def regsTim1 : List RegDesc :=
  [ ⟨"TIM_SYNC_CFG", 0x210, 1, 0, 1, 0, false, false, fun _ => 0x0, 0x2, 0, 0⟩,
    ⟨"TIM_SYNC_LOAD", 0x218, 1, 0, 1, 0, true, false, fun _ => 0x0, 0xFFFFFFFFFFFF, 0, 0⟩ ]

/-- The TIM register map. -/
def regsTim : List RegDesc := regsTim0 ++ regsTim1

/-- Rows of the IMG register map (IMG registers and counters). -/
def regsImg0 : List RegDesc :=
  [ ⟨"IMG_STATUS", 0, 1, 0, 1, 0, false, false, fun _ => 0x0, 0, 0, 0⟩,
    ⟨"IMG_LOAD_ADDR", 0x8, 1, 0, 1, 0, true, false, fun _ => 0x0, 0xFFFFFFFFFFFFFFC0, 0, 0⟩,
    ⟨"IMG_LOAD_LEN", 0x10, 1, 0, 1, 0, false, false, fun _ => 0x0, 0xFFFFFFFF, 0, 0⟩,
    ⟨"IMG_LOAD_CMD", 0x14, 1, 0, 1, 0, false, false, fun _ => 0x0, 0, 0, 0⟩,
    ⟨"IMG_LOAD_STATUS", 0x18, 1, 0, 1, 0, false, false, fun _ => 0x0, 0, 0, 0⟩,
    ⟨"IMG_LOAD_PROGRESS", 0x1C, 1, 0, 1, 0, false, false, fun _ => 0x0, 0, 0, 0⟩,
    ⟨"IMG_MIN_SVN", 0x20, 1, 0, 1, 0, false, false, fun _ => 0x0, 0, 0xFFFF, 0⟩,
    ⟨"IMG_LIVE_COMPAT", 0x30, 1, 0, 1, 0, false, false, fun _ => 0x0, 0, 0, 0⟩,
    ⟨"IMG_STAGED_COMPAT", 0x34, 1, 0, 1, 0, false, false, fun _ => 0x0, 0, 0, 0⟩,
    ⟨"IMG_LIVE_DIGEST", 0x100, 16, 0x4, 1, 0, false, false, fun _ => 0x0, 0, 0, 0⟩,
    ⟨"IMG_STAGED_DIGEST", 0x140, 16, 0x4, 1, 0, false, false, fun _ => 0x0, 0, 0, 0⟩,
    ⟨"IMG_WALK_CFG", 0x200, 1, 0, 1, 0, false, false, fun _ => 0xff, 0xFF, 0, 0⟩,
    ⟨"IMG_WALK_START", 0x208, 1, 0, 1, 0, true, false, fun _ => 0x0, 0xFFFFFFFFFFFF, 0, 0⟩,
    ⟨"IMG_WALK_INTERVAL", 0x210, 1, 0, 1, 0, false, false, fun _ => 0x1000, 0x1FFFF, 0, 0⟩,
    ⟨"IMG_WALK_CMD", 0x214, 1, 0, 1, 0, false, false, fun _ => 0x0, 0, 0, 0⟩,
    ⟨"IMG_WALK_STATUS", 0x218, 1, 0, 1, 0, false, false, fun _ => 0x0, 0, 0, 0⟩,
    ⟨"IMG_PIER_CMD", 0x220, 1, 0, 1, 0, false, false, fun _ => 0x0, 0, 0, 0⟩,
    ⟨"IMG_PIER_STATUS", 0x400, 17, 0x4, 1, 0, false, false, fun i => if i < 16 then 0x410 + i else 0x400, 0, 0, 0⟩ ]

/-- The IMG register map. -/
def regsImg : List RegDesc := regsImg0

/-- Rows of the LPT register map (LPT registers and counters). -/
def regsLpt0 : List RegDesc :=
  [ ⟨"LPT_CTRL", 0, 1, 0, 1, 0, false, false, fun _ => 0x0, 0x33, 0, 0⟩,
    ⟨"LPT_STATUS", 0x4, 1, 0, 1, 0, false, false, fun _ => 0x0, 0, 0, 0⟩,
    ⟨"LPT_MAX_FRAME", 0x8, 1, 0, 1, 0, false, false, fun _ => 0x2400, 0x3FFF, 0, 0⟩,
    ⟨"LPT_LINK_CFG", 0xC, 1, 0, 1, 0, false, false, fun _ => 0x0, 0xFFFFFFFF, 0, 0⟩,
    ⟨"LPT_PTP_DELAY", 0x10, 1, 0, 1, 0, false, false, fun _ => 0x0, 0xFFFFFFFF, 0, 0⟩,
    ⟨"LPT_TXTS_SEC", 0x18, 1, 0, 1, 0, true, false, fun _ => 0x0, 0, 0, 0⟩,
    ⟨"LPT_TXTS_NS", 0x20, 1, 0, 1, 0, false, false, fun _ => 0x0, 0, 0, 0x40000000⟩,
    ⟨"LPT_PFC", 0x30, 1, 0, 1, 0, false, false, fun _ => 0xffff0000, 0xFFFFFFFF, 0, 0⟩,
    ⟨"LPT_PFC_THR", 0x34, 1, 0, 1, 0, false, false, fun _ => 0x0, 0xFFFFFFFF, 0, 0⟩,
    ⟨"LPT_GCL_CTRL", 0x100, 1, 0, 1, 0, false, false, fun _ => 0x0, 0x1FF, 0, 0⟩,
    ⟨"LPT_GCL_BASE", 0x108, 1, 0, 1, 0, true, false, fun _ => 0x0, 0xFFFFFFFFFFFF, 0, 0⟩,
    ⟨"LPT_GCL_BASE_NS", 0x110, 1, 0, 1, 0, false, false, fun _ => 0x0, 0x3FFFFFFF, 0, 0⟩,
    ⟨"LPT_GCL_CYCLE", 0x114, 1, 0, 1, 0, false, false, fun _ => 0x0, 0xFFFFFFFF, 0, 0⟩,
    ⟨"LPT_PREEMPT", 0x140, 1, 0, 1, 0, false, false, fun _ => 0x0, 0x3FF03, 0, 0⟩,
    ⟨"LPT_MSEC_CTRL", 0x200, 1, 0, 1, 0, false, false, fun _ => 0x0, 0x3FF3B, 0, 0⟩,
    ⟨"LPT_MSEC_SA_SEL", 0x204, 1, 0, 1, 0, false, false, fun _ => 0x0, 0x1FB, 0, 0⟩,
    ⟨"LPT_MSEC_SA_CMD", 0x208, 1, 0, 1, 0, false, false, fun _ => 0x0, 0, 0, 0⟩,
    ⟨"LPT_MSEC_SCI", 0x210, 1, 0, 1, 0, true, false, fun _ => 0x0, 0xFFFFFFFFFFFFFFFF, 0, 0⟩,
    ⟨"LPT_MSEC_PN", 0x218, 1, 0, 1, 0, true, false, fun _ => 0x0, 0xFFFFFFFFFFFFFFFF, 0, 0⟩,
    ⟨"LPT_MSEC_PN_THR", 0x220, 1, 0, 1, 0, true, false, fun _ => 0x0, 0xFFFFFFFFFFFFFFFF, 0, 0⟩,
    ⟨"LPT_GCL_ENTRY", 0x400, 256, 0x4, 1, 0, false, false, fun _ => 0x0, 0xFFFFFFFF, 0, 0⟩,
    ⟨"LPT_MSEC_KEY", 0x240, 8, 0x4, 1, 0, false, false, fun _ => 0x0, 0, 0, 0⟩,
    ⟨"LPT_MSEC_XPN", 0x260, 4, 0x4, 1, 0, false, false, fun _ => 0x0, 0, 0, 0⟩,
    ⟨"LPT_OCT_RX_MAP", 0x8000, 1, 0, 1, 0, false, false, fun _ => 0xfac688, 0xFFFFFFFF, 0, 0⟩ ]

/-- Rows of the LPT register map (LPT registers and counters). -/
def regsLpt1 : List RegDesc :=
  [ ⟨"LPT_OCT_TX_MAP", 0x8004, 1, 0, 1, 0, false, false, fun _ => 0xfac688, 0xFFFFFFFF, 0, 0⟩,
    ⟨"LPT_RX_OK_FRAMES", 0x800, 1, 0, 1, 0, true, false, fun _ => 0, 0, 0, 0⟩,
    ⟨"LPT_RX_OK_BYTES", 0x808, 1, 0, 1, 0, true, false, fun _ => 0, 0, 0, 0⟩,
    ⟨"LPT_RX_FCS_ERR", 0x810, 1, 0, 1, 0, true, false, fun _ => 0, 0, 0, 0⟩,
    ⟨"LPT_RX_RUNT", 0x818, 1, 0, 1, 0, true, false, fun _ => 0, 0, 0, 0⟩,
    ⟨"LPT_RX_OVERSIZE", 0x820, 1, 0, 1, 0, true, false, fun _ => 0, 0, 0, 0⟩,
    ⟨"LPT_RX_PAUSE", 0x828, 1, 0, 1, 0, true, false, fun _ => 0, 0, 0, 0⟩,
    ⟨"LPT_RX_PFC", 0x830, 1, 0, 1, 0, true, false, fun _ => 0, 0, 0, 0⟩,
    ⟨"LPT_RX_MSEC_DROP", 0x838, 1, 0, 1, 0, true, false, fun _ => 0, 0, 0, 0⟩,
    ⟨"LPT_TX_OK_FRAMES", 0x840, 1, 0, 1, 0, true, false, fun _ => 0, 0, 0, 0⟩,
    ⟨"LPT_TX_OK_BYTES", 0x848, 1, 0, 1, 0, true, false, fun _ => 0, 0, 0, 0⟩,
    ⟨"LPT_TX_FLOW_CTRL", 0x850, 1, 0, 1, 0, true, false, fun _ => 0, 0, 0, 0⟩,
    ⟨"LPT_TX_GATE_OVERSIZE", 0x858, 1, 0, 1, 0, true, false, fun _ => 0, 0, 0, 0⟩,
    ⟨"LPT_TX_PREEMPT_FRAGS", 0x860, 1, 0, 1, 0, true, false, fun _ => 0, 0, 0, 0⟩,
    ⟨"LPT_FEC_CORR_CW", 0x868, 1, 0, 1, 0, true, false, fun _ => 0, 0, 0, 0⟩,
    ⟨"LPT_FEC_UNCORR_CW", 0x870, 1, 0, 1, 0, true, false, fun _ => 0, 0, 0, 0⟩,
    ⟨"LPT_TX_MSEC_PN_DROP", 0x878, 1, 0, 1, 0, true, false, fun _ => 0, 0, 0, 0⟩ ]

/-- The LPT register map. -/
def regsLpt : List RegDesc := regsLpt0 ++ regsLpt1

/-- Rows of the PIR register map (PIR registers and counters). -/
def regsPir0 : List RegDesc :=
  [ ⟨"PIR_STATUS", 0, 1, 0, 1, 0, false, false, fun _ => 0x6400001, 0, 0, 0⟩,
    ⟨"PIR_FAULT", 0x4, 1, 0, 1, 0, false, false, fun _ => 0x0, 0, 0, 0x7⟩,
    ⟨"PIR_CTRL", 0x8, 1, 0, 1, 0, false, false, fun _ => 0x0, 0, 0, 0⟩,
    ⟨"PIR_PARSE_CFG", 0x10, 1, 0, 1, 0, false, false, fun _ => 0x80000000, 0x87FFFFFF, 0, 0⟩,
    ⟨"PIR_SS_STATUS", 0x18, 1, 0, 1, 0, false, false, fun _ => 0x0, 0, 0, 0⟩,
    ⟨"PIR_TCAM_ADDR", 0x100, 1, 0, 1, 0, false, false, fun _ => 0x0, 0x13FFF, 0, 0⟩,
    ⟨"PIR_TCAM_CTRL", 0x104, 1, 0, 1, 0, false, false, fun _ => 0x0, 0xF301, 0, 0⟩,
    ⟨"PIR_TCAM_RES", 0x108, 1, 0, 1, 0, true, false, fun _ => 0x0, 0xFFFFFFFFFFFFFFFF, 0, 0⟩,
    ⟨"PIR_TCAM_PEND", 0x150, 1, 0, 1, 0, false, false, fun _ => 0x0, 0, 0, 0⟩,
    ⟨"PIR_HASH_SEED", 0x20, 4, 0x4, 1, 0, false, false, fun _ => 0xffffffff, 0xFFFFFFFF, 0, 0⟩,
    ⟨"PIR_TCAM_KEY", 0x110, 5, 0x4, 1, 0, false, false, fun _ => 0x0, 0xFFFFFFFF, 0, 0⟩,
    ⟨"PIR_TCAM_MASK", 0x130, 5, 0x4, 1, 0, false, false, fun _ => 0x0, 0xFFFFFFFF, 0, 0⟩,
    ⟨"PIR_TCAM_BLKTAG", 0x200, 20, 0x4, 1, 0, false, false, fun _ => 0x0, 0x3F3F, 0, 0⟩,
    ⟨"PIR_ING_STROKES", 0x800, 1, 0, 1, 0, true, false, fun _ => 0, 0, 0, 0⟩,
    ⟨"PIR_SS_STROKES", 0x808, 1, 0, 1, 0, true, false, fun _ => 0, 0, 0, 0⟩,
    ⟨"PIR_INJ_STROKES", 0x810, 1, 0, 1, 0, true, false, fun _ => 0, 0, 0, 0⟩,
    ⟨"PIR_EGR_STROKES", 0x818, 1, 0, 1, 0, true, false, fun _ => 0, 0, 0, 0⟩,
    ⟨"PIR_RX_OVERRUN_DROP", 0x820, 1, 0, 1, 0, true, false, fun _ => 0, 0, 0, 0⟩,
    ⟨"PIR_PARSE_ERR_CNT", 0x828, 1, 0, 1, 0, true, false, fun _ => 0, 0, 0, 0⟩,
    ⟨"PIR_SS_FULL_DROP", 0x830, 1, 0, 1, 0, true, false, fun _ => 0, 0, 0, 0⟩,
    ⟨"PIR_SS_LIMIT_DROP", 0x838, 1, 0, 1, 0, true, false, fun _ => 0, 0, 0, 0⟩,
    ⟨"PIR_PRG_FAULT_CNT", 0x840, 1, 0, 1, 0, true, false, fun _ => 0, 0, 0, 0⟩,
    ⟨"PIR_TCAM_COMMITS", 0x848, 1, 0, 1, 0, true, false, fun _ => 0, 0, 0, 0⟩,
    ⟨"PIR_TCAM_STEALS", 0x850, 1, 0, 1, 0, true, false, fun _ => 0, 0, 0, 0⟩ ]

/-- The PIR register map. -/
def regsPir : List RegDesc := regsPir0

/-- Rows of the TBL register map (TBL registers and counters). -/
def regsTbl0 : List RegDesc :=
  [ ⟨"TBL_STATUS", 0, 1, 0, 1, 0, false, false, fun _ => 0x0, 0, 0, 0⟩,
    ⟨"TBL_LEARN_CFG", 0x4, 1, 0, 1, 0, false, false, fun _ => 0x1000, 0xFF01, 0, 0⟩,
    ⟨"TBL_LEARN_DEPTH", 0x8, 1, 0, 1, 0, false, false, fun _ => 0x0, 0, 0, 0⟩,
    ⟨"TBL_POISON_LOG", 0x10, 1, 0, 1, 0, true, false, fun _ => 0x0, 0, 0, 0x8000000000000000⟩,
    ⟨"TBL_LPM_USED", 0x20, 1, 0, 1, 0, false, false, fun _ => 0x0, 0, 0, 0⟩,
    ⟨"TBL_SNAP_INDEX", 0x100, 1, 0, 1, 0, false, false, fun _ => 0x0, 0x3F, 0, 0⟩,
    ⟨"TBL_TAE_CFG", 0x1000, 1, 0, 1, 0, false, false, fun _ => 0x8, 0xF, 0, 0⟩,
    ⟨"TBL_TAE_STATUS", 0x1004, 1, 0, 1, 0, false, false, fun _ => 0x0, 0, 0, 0⟩,
    ⟨"TBL_TAE_SEQ", 0x1008, 1, 0, 1, 0, false, false, fun _ => 0x0, 0, 0, 0⟩,
    ⟨"TBL_TAE_WIN", 0x1010, 1, 0, 1, 0, false, false, fun _ => 0x0, 0xF3FFFFFF, 0, 0⟩,
    ⟨"TBL_REHASH_CTRL", 0x1100, 1, 0, 1, 0, false, false, fun _ => 0x0, 0xFF, 0, 0⟩,
    ⟨"TBL_REHASH_BASE", 0x1104, 1, 0, 1, 0, false, false, fun _ => 0x0, 0x3FFFFFF, 0, 0⟩,
    ⟨"TBL_REHASH_CAP", 0x1108, 1, 0, 1, 0, false, false, fun _ => 0x0, 0x7FFFFFF, 0, 0⟩,
    ⟨"TBL_REHASH_STATUS", 0x1114, 1, 0, 1, 0, false, false, fun _ => 0x0, 0, 0, 0⟩,
    ⟨"TBL_REHASH_COPIED", 0x1118, 1, 0, 1, 0, false, false, fun _ => 0x0, 0, 0, 0⟩,
    ⟨"TBL_AGE_CFG", 0x1200, 1, 0, 1, 0, false, false, fun _ => 0x1001, 0xFF01, 0, 0⟩,
    ⟨"TBL_AGE_STATUS", 0x1204, 1, 0, 1, 0, false, false, fun _ => 0x0, 0, 0, 0⟩,
    ⟨"TBL_RETIRE_USED", 0x1300, 1, 0, 1, 0, false, false, fun _ => 0x0, 0, 0, 0⟩,
    ⟨"TBL_EXACT_USED", 0x24, 5, 0x4, 1, 0, false, false, fun _ => 0x0, 0, 0, 0⟩,
    ⟨"TBL_SNAP_ADDR", 0x108, 1, 0, 1, 0, true, true, fun _ => 0x0, 0xFFFFFFFFFFFFFFC0, 0, 0⟩,
    ⟨"TBL_SNAP_FIRST", 0x110, 1, 0, 1, 0, false, true, fun _ => 0x0, 0x3FFFFFF, 0, 0⟩,
    ⟨"TBL_SNAP_COUNT", 0x114, 1, 0, 1, 0, false, true, fun _ => 0x0, 0x1FFFFFF, 0, 0⟩,
    ⟨"TBL_SNAP_STATUS", 0x118, 1, 0, 1, 0, false, true, fun _ => 0x0, 0, 0, 0⟩,
    ⟨"TBL_SNAP_SPAN", 0x120, 1, 0, 1, 0, true, true, fun _ => 0x0, 0, 0, 0⟩ ]

/-- Rows of the TBL register map (TBL registers and counters). -/
def regsTbl1 : List RegDesc :=
  [ ⟨"TBL_REHASH_PEND", 0x1020, 8, 0x4, 1, 0, false, false, fun _ => 0x0, 0, 0, 0xFFFFFFFF⟩,
    ⟨"TBL_REHASH_SEED", 0x110C, 2, 0x4, 1, 0, false, false, fun _ => 0x0, 0xFFFFFFFF, 0, 0⟩,
    ⟨"TBL_ECC_CORR", 0x800, 1, 0, 1, 0, true, false, fun _ => 0, 0, 0, 0⟩,
    ⟨"TBL_ECC_UNCORR", 0x808, 1, 0, 1, 0, true, false, fun _ => 0, 0, 0, 0⟩,
    ⟨"TBL_POISON_DROP", 0x810, 1, 0, 1, 0, true, false, fun _ => 0, 0, 0, 0⟩,
    ⟨"TBL_CNT_LOST", 0x818, 1, 0, 1, 0, true, false, fun _ => 0, 0, 0, 0⟩,
    ⟨"TBL_OP_IGNORED", 0x820, 1, 0, 1, 0, true, false, fun _ => 0, 0, 0, 0⟩,
    ⟨"TBL_METER_FOREIGN", 0x828, 1, 0, 1, 0, true, false, fun _ => 0, 0, 0, 0⟩,
    ⟨"TBL_LEARN_NEW", 0x830, 1, 0, 1, 0, true, false, fun _ => 0, 0, 0, 0⟩,
    ⟨"TBL_LEARN_MOVE", 0x838, 1, 0, 1, 0, true, false, fun _ => 0, 0, 0, 0⟩,
    ⟨"TBL_LEARN_STATIC", 0x840, 1, 0, 1, 0, true, false, fun _ => 0, 0, 0, 0⟩,
    ⟨"TBL_LEARN_FAIL", 0x848, 1, 0, 1, 0, true, false, fun _ => 0, 0, 0, 0⟩,
    ⟨"TBL_LEARN_DROP", 0x850, 1, 0, 1, 0, true, false, fun _ => 0, 0, 0, 0⟩,
    ⟨"TBL_LEARN_BAD", 0x858, 1, 0, 1, 0, true, false, fun _ => 0, 0, 0, 0⟩,
    ⟨"TBL_LEARN_EV_SUPPRESSED", 0x860, 1, 0, 1, 0, true, false, fun _ => 0, 0, 0, 0⟩,
    ⟨"TBL_TAE_OPS", 0x1800, 1, 0, 1, 0, true, false, fun _ => 0, 0, 0, 0⟩,
    ⟨"TBL_TAE_FAIL", 0x1808, 1, 0, 1, 0, true, false, fun _ => 0, 0, 0, 0⟩,
    ⟨"TBL_RELOC_MOVES", 0x1810, 1, 0, 1, 0, true, false, fun _ => 0, 0, 0, 0⟩,
    ⟨"TBL_INSERT_NO_ROOM", 0x1818, 1, 0, 1, 0, true, false, fun _ => 0, 0, 0, 0⟩,
    ⟨"TBL_AGE_REMOVED", 0x1820, 1, 0, 1, 0, true, false, fun _ => 0, 0, 0, 0⟩,
    ⟨"TBL_AGE_EV_SUPPRESSED", 0x1828, 1, 0, 1, 0, true, false, fun _ => 0, 0, 0, 0⟩,
    ⟨"TBL_RETIRE_RELEASED", 0x1830, 1, 0, 1, 0, true, false, fun _ => 0, 0, 0, 0⟩ ]

/-- The TBL register map. -/
def regsTbl : List RegDesc := regsTbl0 ++ regsTbl1

/-- Rows of the BUF register map (BUF registers and counters). -/
def regsBuf0 : List RegDesc :=
  [ ⟨"BUF_STATUS", 0, 1, 0, 1, 0, false, false, fun _ => 0x0, 0, 0, 0⟩,
    ⟨"BUF_POOL_SIZE", 0x10, 3, 0x4, 1, 0, false, false, fun i => if i = 0 then 0x100000 else if i = 1 then 0x8000000 else 0, 0, 0, 0⟩,
    ⟨"BUF_POOL_FREE", 0x20, 3, 0x4, 1, 0, false, false, fun i => if i = 0 then 0x100000 else if i = 1 then 0x7F00000 else 0, 0, 0, 0⟩,
    ⟨"BUF_POOL_LOW", 0x30, 3, 0x4, 1, 0, false, false, fun _ => 0x0, 0x3FFFFFFF, 0, 0⟩,
    ⟨"BUF_QUOTA_SEL", 0x100, 1, 0, 1, 0, false, false, fun _ => 0x0, 0x31F, 0, 0⟩,
    ⟨"BUF_QUOTA", 0x104, 1, 0, 1, 0, false, true, fun _ => 0x3fffffff, 0x3FFFFFFF, 0, 0⟩,
    ⟨"BUF_USAGE", 0x108, 1, 0, 1, 0, false, true, fun _ => 0x0, 0, 0, 0⟩,
    ⟨"BUF_PRIO", 0x10C, 1, 0, 1, 0, false, false, fun _ => 0x0, 0, 0, 0⟩,
    ⟨"BUF_MC_TMASK", 0x110, 1, 0, 1, 0, false, false, fun _ => 0x3, 0x107, 0, 0⟩,
    ⟨"BUF_ALLOC", 0x200, 3, 0x8, 1, 0, true, false, fun _ => 0x0, 0, 0, 0⟩,
    ⟨"BUF_FREE_ADDR", 0x220, 1, 0, 1, 0, true, false, fun _ => 0x0, 0, 0, 0⟩,
    ⟨"BUF_FREE_HANDLE", 0x228, 1, 0, 1, 0, false, false, fun _ => 0x0, 0, 0, 0⟩,
    ⟨"BUF_FREE_RESULT", 0x22C, 1, 0, 1, 0, false, false, fun _ => 0x0, 0, 0, 0⟩,
    ⟨"BUF_PF_CFG", 0x300, 1, 0, 1, 0, false, false, fun _ => 0x80000100, 0x8000FFFF, 0, 0⟩,
    ⟨"BUF_PF_RESERVE", 0x304, 1, 0, 1, 0, false, false, fun _ => 0x100000, 0xFFFFFFF, 0, 0⟩,
    ⟨"BUF_Q_SEL", 0x310, 1, 0, 1, 0, false, false, fun _ => 0x0, 0x7FFFF, 0, 0⟩,
    ⟨"BUF_Q_STATUS", 0x314, 1, 0, 1, 0, false, true, fun _ => 0x0, 0, 0, 0⟩,
    ⟨"BUF_CXL_CTRL", 0x400, 4, 0x20, 1, 0, false, false, fun _ => 0x0, 0, 0, 0⟩,
    ⟨"BUF_CXL_LIMIT", 0x404, 4, 0x20, 1, 0, false, false, fun _ => 0x6000000, 0x7FFFFFF, 0, 0⟩,
    ⟨"BUF_CXL_STATUS", 0x408, 4, 0x20, 1, 0, false, false, fun _ => 0x0, 0, 0, 0⟩,
    ⟨"BUF_CXL_PAGES", 0x40C, 4, 0x20, 1, 0, false, false, fun _ => 0x0, 0, 0, 0⟩,
    ⟨"BUF_EXHAUSTED_DROP", 0x800, 1, 0, 1, 0, true, false, fun _ => 0, 0, 0, 0⟩,
    ⟨"BUF_FALLBACK", 0x808, 1, 0, 1, 0, true, false, fun _ => 0, 0, 0, 0⟩,
    ⟨"BUF_SPILL_ENTER", 0x810, 1, 0, 1, 0, true, false, fun _ => 0, 0, 0, 0⟩ ]

/-- Rows of the BUF register map (BUF registers and counters). -/
def regsBuf1 : List RegDesc :=
  [ ⟨"BUF_FAR_ERROR_DROP", 0x818, 1, 0, 1, 0, true, false, fun _ => 0, 0, 0, 0⟩,
    ⟨"BUF_PF_RECORDS", 0x820, 1, 0, 1, 0, true, false, fun _ => 0, 0, 0, 0⟩,
    ⟨"BUF_PF_MISS", 0x828, 1, 0, 1, 0, true, false, fun _ => 0, 0, 0, 0⟩,
    ⟨"BUF_FREE_REJ_RANGE", 0x830, 1, 0, 1, 0, true, false, fun _ => 0, 0, 0, 0⟩,
    ⟨"BUF_FREE_REJ_ALIGN", 0x838, 1, 0, 1, 0, true, false, fun _ => 0, 0, 0, 0⟩,
    ⟨"BUF_FREE_REJ_DOUBLE", 0x840, 1, 0, 1, 0, true, false, fun _ => 0, 0, 0, 0⟩,
    ⟨"BUF_FREE_REJ_FOREIGN", 0x848, 1, 0, 1, 0, true, false, fun _ => 0, 0, 0, 0⟩,
    ⟨"BUF_CONTESTS", 0x850, 1, 0, 1, 0, true, false, fun _ => 0, 0, 0, 0⟩ ]

/-- The BUF register map. -/
def regsBuf : List RegDesc := regsBuf0 ++ regsBuf1

/-- Rows of the QUE register map (QUE registers and counters). -/
def regsQue0 : List RegDesc :=
  [ ⟨"QUE_STATUS", 0, 1, 0, 1, 0, false, false, fun _ => 0x0, 0, 0, 0⟩,
    ⟨"QUE_Q_SEL", 0x10, 1, 0, 1, 0, false, false, fun _ => 0x0, 0x7FFFF, 0, 0⟩,
    ⟨"QUE_Q_CFG", 0x14, 1, 0, 1, 0, false, true, fun i => (i % 8) * 0x1000000, 0x7FFFFFF, 0, 0⟩,
    ⟨"QUE_Q_SCHED", 0x18, 1, 0, 1, 0, false, true, fun _ => 0x10000, 0xFFFF0007, 0, 0⟩,
    ⟨"QUE_Q_STATE", 0x1C, 1, 0, 1, 0, false, true, fun i => if i < 524032 then 0xFFFFF else 0x18FFFF, 0, 0, 0⟩,
    ⟨"QUE_Q_DEPTH", 0x20, 1, 0, 1, 0, true, true, fun _ => 0x0, 0, 0, 0⟩,
    ⟨"QUE_Q_DROPS", 0x28, 1, 0, 1, 0, true, true, fun _ => 0x0, 0, 0, 0⟩,
    ⟨"QUE_SJ_MAX", 0x30, 1, 0, 1, 0, false, true, fun _ => 0x0, 0, 0, 0⟩,
    ⟨"QUE_SJ_SUM", 0x38, 1, 0, 1, 0, true, true, fun _ => 0x0, 0, 0, 0⟩,
    ⟨"QUE_SJ_CNT", 0x40, 1, 0, 1, 0, false, true, fun _ => 0x0, 0, 0, 0⟩,
    ⟨"QUE_PORT_CFG", 0x400, 128, 0x4, 1, 0, false, false, fun _ => 0x0, 0xC307FFFF, 0, 0⟩,
    ⟨"QUE_PORT_SBASE", 0x600, 128, 0x4, 1, 0, false, false, fun _ => 0x0, 0x3FFFFF, 0, 0⟩,
    ⟨"QUE_SP_DOWN", 0x800, 512, 0x4, 1, 0, false, false, fun _ => 0x0, 0, 0, 0⟩,
    ⟨"QUE_NODE_SEL", 0x1000, 1, 0, 1, 0, false, false, fun _ => 0x0, 0xFFFF, 0, 0⟩,
    ⟨"QUE_NODE_CFG", 0x1004, 1, 0, 1, 0, false, true, fun _ => 0x10000, 0xFFFF0007, 0, 0⟩,
    ⟨"QUE_NODE_PORT", 0x1008, 1, 0, 1, 0, false, true, fun i => if i = 65535 then 128 else 255, 0xFF, 0, 0⟩,
    ⟨"QUE_NODE_STATUS", 0x100C, 1, 0, 1, 0, false, true, fun i => if i = 65535 then 0xC00FFFFF else 0xFFFFF, 0, 0, 0⟩,
    ⟨"QUE_NODE_CHILDREN", 0x1010, 1, 0, 1, 0, false, true, fun _ => 0x0, 0, 0, 0⟩,
    ⟨"QUE_MOVE_SRC", 0x1100, 1, 0, 1, 0, false, false, fun _ => 0x0, 0xFFFFF, 0, 0⟩,
    ⟨"QUE_MOVE_DST", 0x1104, 1, 0, 1, 0, false, false, fun _ => 0x0, 0xFFFFF, 0, 0⟩,
    ⟨"QUE_MOVE_CMD", 0x1108, 1, 0, 1, 0, false, false, fun _ => 0x0, 0, 0, 0⟩,
    ⟨"QUE_MOVE_STATUS", 0x110C, 1, 0, 1, 0, false, false, fun _ => 0x0, 0, 0, 0⟩,
    ⟨"QUE_WRED_SEL", 0x1200, 1, 0, 1, 0, false, false, fun _ => 0x0, 0xFF, 0, 0⟩,
    ⟨"QUE_WRED_CFG", 0x1204, 1, 0, 1, 0, false, true, fun _ => 0x0, 0x10F, 0, 0⟩ ]

/-- Rows of the QUE register map (QUE registers and counters). -/
def regsQue1 : List RegDesc :=
  [ ⟨"QUE_WRED_MIN", 0x1210, 3, 0x4, 1, 0, false, true, fun _ => 0x0, 0xFFFFFF, 0, 0⟩,
    ⟨"QUE_WRED_MAX", 0x1220, 3, 0x4, 1, 0, false, true, fun _ => 0x0, 0xFFFFFF, 0, 0⟩,
    ⟨"QUE_WRED_PROB", 0x1230, 3, 0x4, 1, 0, false, true, fun _ => 0x0, 0x1FFFF, 0, 0⟩,
    ⟨"QUE_WRED_SJ_ECN", 0x1240, 1, 0, 1, 0, false, true, fun _ => 0x0, 0xFFFFFFFF, 0, 0⟩,
    ⟨"QUE_WRED_SJ_DROP", 0x1244, 1, 0, 1, 0, false, true, fun _ => 0x0, 0xFFFFFFFF, 0, 0⟩,
    ⟨"QUE_LFSR_SEL", 0x1300, 1, 0, 1, 0, false, false, fun _ => 0x0, 0xFFF, 0, 0⟩,
    ⟨"QUE_LFSR", 0x1304, 1, 0, 1, 0, false, true, fun _ => 0x1, 0xFFFFFFFF, 0, 0⟩,
    ⟨"QUE_ECN_CFG", 0x1310, 2, 0x4, 1, 0, false, false, fun _ => 0x0, 0x83FF03FF, 0, 0⟩,
    ⟨"QUE_HIST_SEL", 0x1400, 1, 0, 1, 0, false, false, fun _ => 0x0, 0xFFF, 0, 0⟩,
    ⟨"QUE_HIST_CFG", 0x1404, 1, 0, 1, 0, false, true, fun _ => 0x0, 0x8F07FFFF, 0, 0⟩,
    ⟨"QUE_HIST_BIN", 0x1440, 16, 0x4, 1, 0, false, true, fun _ => 0x0, 0, 0, 0⟩,
    ⟨"QUE_FLUSH_CMD", 0x1500, 1, 0, 1, 0, false, false, fun _ => 0x0, 0, 0, 0⟩,
    ⟨"QUE_TAIL_DROP", 0x1800, 1, 0, 1, 0, true, false, fun _ => 0, 0, 0, 0⟩,
    ⟨"QUE_WRED_DROP", 0x1808, 1, 0, 1, 0, true, false, fun _ => 0, 0, 0, 0⟩,
    ⟨"QUE_WRED_MARK", 0x1810, 1, 0, 1, 0, true, false, fun _ => 0, 0, 0, 0⟩,
    ⟨"QUE_SJ_DROP", 0x1818, 1, 0, 1, 0, true, false, fun _ => 0, 0, 0, 0⟩,
    ⟨"QUE_SJ_MARK", 0x1820, 1, 0, 1, 0, true, false, fun _ => 0, 0, 0, 0⟩,
    ⟨"QUE_EQ_RANGE_DROP", 0x1828, 1, 0, 1, 0, true, false, fun _ => 0, 0, 0, 0⟩,
    ⟨"QUE_PORT_DOWN_DROP", 0x1830, 1, 0, 1, 0, true, false, fun _ => 0, 0, 0, 0⟩,
    ⟨"QUE_FLUSH_DROP", 0x1838, 1, 0, 1, 0, true, false, fun _ => 0, 0, 0, 0⟩ ]

/-- The QUE register map. -/
def regsQue : List RegDesc := regsQue0 ++ regsQue1

/-- Rows of the SHP register map (SHP registers and counters). -/
def regsShp0 : List RegDesc :=
  [ ⟨"SHP_STATUS", 0, 1, 0, 1, 0, false, false, fun _ => 0x0, 0, 0, 0⟩,
    ⟨"SHP_PROF_SEL", 0x10, 1, 0, 1, 0, false, false, fun _ => 0x0, 0x13FFF, 0, 0⟩,
    ⟨"SHP_PROF_CFG", 0x14, 1, 0, 1, 0, false, true, fun _ => 0x0, 0xFF33, 0, 0⟩,
    ⟨"SHP_PROF_RATE1", 0x18, 1, 0, 1, 0, false, true, fun _ => 0x0, 0xFFFFFFFF, 0, 0⟩,
    ⟨"SHP_PROF_RATE2", 0x20, 1, 0, 1, 0, false, true, fun _ => 0x0, 0xFFFFFFFF, 0, 0⟩,
    ⟨"SHP_PROF_BURST1", 0x1C, 1, 0, 1, 0, false, true, fun _ => 0x0, 0xFFFFFFFF, 0, 0⟩,
    ⟨"SHP_PROF_BURST2", 0x24, 1, 0, 1, 0, false, true, fun _ => 0x0, 0xFFFFFFFF, 0, 0⟩,
    ⟨"SHP_PROF_USERS", 0x28, 1, 0, 1, 0, false, true, fun _ => 0x0, 0, 0, 0⟩,
    ⟨"SHP_ELEM_SEL", 0x100, 1, 0, 1, 0, false, false, fun _ => 0x0, 0xFFFFF, 0, 0⟩,
    ⟨"SHP_ELEM_PROFILE", 0x104, 1, 0, 1, 0, false, true, fun _ => 0x0, 0x3FFF, 0, 0⟩,
    ⟨"SHP_ELEM_LEVEL1", 0x108, 1, 0, 1, 0, true, true, fun _ => 0x0, 0, 0, 0⟩,
    ⟨"SHP_ELEM_LEVEL2", 0x110, 1, 0, 1, 0, true, true, fun _ => 0x0, 0, 0, 0⟩,
    ⟨"SHP_ELEM_STATE", 0x118, 1, 0, 1, 0, false, true, fun _ => 0x0, 0, 0, 0⟩,
    ⟨"SHP_SET_SWITCH", 0x200, 1, 0, 1, 0, false, false, fun _ => 0x0, 0, 0, 0⟩,
    ⟨"SHP_LAST_SWITCH", 0x208, 1, 0, 1, 0, true, false, fun _ => 0x0, 0, 0, 0⟩,
    ⟨"SHP_PORT_ADJ", 0x400, 128, 0x4, 1, 0, false, false, fun _ => 0x0, 0x7F, 0, 0⟩,
    ⟨"SHP_SWITCHES", 0x800, 1, 0, 1, 0, true, false, fun _ => 0, 0, 0, 0⟩,
    ⟨"SHP_LEVEL_CAPS", 0x808, 1, 0, 1, 0, true, false, fun _ => 0, 0, 0, 0⟩ ]

/-- The SHP register map. -/
def regsShp : List RegDesc := regsShp0

/-- Rows of the FAB register map (FAB registers and counters). -/
def regsFab0 : List RegDesc :=
  [ ⟨"FAB_CTRL", 0, 1, 0, 1, 0, false, false, fun _ => 0x0, 0x1, 0, 0⟩,
    ⟨"FAB_STATUS", 0x4, 1, 0, 1, 0, false, false, fun _ => 0x0, 0, 0, 0⟩,
    ⟨"FAB_PAIR_STATUS", 0x8, 1, 0, 1, 0, false, false, fun _ => 0x0, 0, 0, 0⟩,
    ⟨"FAB_PAIR_CTRL", 0xC, 1, 0, 1, 0, false, false, fun _ => 0x0, 0x1, 0, 0⟩,
    ⟨"FAB_LINK_CFG", 0x18, 1, 0, 1, 0, false, false, fun _ => 0x0, 0xFF, 0, 0⟩,
    ⟨"FAB_REASM_USED", 0x20, 1, 0, 1, 0, false, false, fun _ => 0x0, 0, 0, 0⟩,
    ⟨"FAB_LINKS_UP", 0x10, 1, 0, 1, 0, true, false, fun _ => 0x0, 0, 0, 0⟩,
    ⟨"FAB_LANE_INV", 0x40, 5, 0x4, 1, 0, false, false, fun _ => 0x0, 0xFFFFFFFF, 0, 0⟩,
    ⟨"FAB_LINK_STAT", 0x100, 40, 0x4, 1, 0, false, false, fun _ => 0x0, 0, 0, 0⟩,
    ⟨"FAB_SP_MAP", 0x10000, 16384, 0x4, 1, 0, false, false, fun _ => 0x0, 0x3FF, 0, 0⟩,
    ⟨"FAB_GRANTS", 0x800, 1, 0, 1, 0, true, false, fun _ => 0, 0, 0, 0⟩,
    ⟨"FAB_GRANT_WASTED", 0x808, 1, 0, 1, 0, true, false, fun _ => 0, 0, 0, 0⟩,
    ⟨"FAB_CELLS_TX", 0x810, 1, 0, 1, 0, true, false, fun _ => 0, 0, 0, 0⟩,
    ⟨"FAB_CELLS_RX", 0x818, 1, 0, 1, 0, true, false, fun _ => 0, 0, 0, 0⟩,
    ⟨"FAB_FEC_UNCORR", 0x820, 1, 0, 1, 0, true, false, fun _ => 0, 0, 0, 0⟩,
    ⟨"FAB_CELL_ERR", 0x828, 1, 0, 1, 0, true, false, fun _ => 0, 0, 0, 0⟩,
    ⟨"FAB_CTRL_ERR", 0x830, 1, 0, 1, 0, true, false, fun _ => 0, 0, 0, 0⟩,
    ⟨"FAB_MISDELIVERED", 0x838, 1, 0, 1, 0, true, false, fun _ => 0, 0, 0, 0⟩,
    ⟨"FAB_LATE_CELL", 0x840, 1, 0, 1, 0, true, false, fun _ => 0, 0, 0, 0⟩,
    ⟨"FAB_STAGED_LOST", 0x848, 1, 0, 1, 0, true, false, fun _ => 0, 0, 0, 0⟩,
    ⟨"FAB_REASM_DROPS", 0x850, 1, 0, 1, 0, true, false, fun _ => 0, 0, 0, 0⟩,
    ⟨"FAB_CRC_DROP", 0x858, 1, 0, 1, 0, true, false, fun _ => 0, 0, 0, 0⟩ ]

/-- The FAB register map. -/
def regsFab : List RegDesc := regsFab0

/-- Rows of the DCK register map (DCK registers and counters). -/
def regsDck0 : List RegDesc :=
  [ ⟨"DCK_STATUS", 0, 1, 0, 1, 0, false, false, fun _ => 0x0, 0, 0, 0⟩,
    ⟨"DCK_PTR_SEL", 0x10, 1, 0, 1, 0, false, false, fun _ => 0x0, 0x1F, 0, 0⟩,
    ⟨"DCK_PTR", 0x14, 1, 0, 1, 0, false, true, fun _ => 0x0, 0, 0, 0⟩,
    ⟨"DCK_MC_SEL", 0x100, 1, 0, 1, 0, false, false, fun _ => 0x0, 0xFFFF, 0, 0⟩,
    ⟨"DCK_MC_GROUP", 0x104, 1, 0, 1, 0, false, true, fun _ => 0x0, 0xFFFFFFFF, 0, 0⟩,
    ⟨"DCK_MC_COPIES", 0x108, 1, 0, 1, 0, true, true, fun _ => 0x0, 0, 0, 0⟩,
    ⟨"DCK_MC_DROP", 0x110, 5, 0x8, 1, 0, true, true, fun _ => 0x0, 0, 0, 0⟩,
    ⟨"DCK_CL_SEL", 0x200, 1, 0, 1, 0, false, false, fun _ => 0x0, 0xFFFFF, 0, 0⟩,
    ⟨"DCK_CL_ENTRY", 0x208, 1, 0, 1, 0, true, true, fun _ => 0x0, 0xFFFFFFFFFFFFFFFF, 0, 0⟩,
    ⟨"DCK_MIR_SEL", 0x300, 1, 0, 1, 0, false, false, fun _ => 0x1, 0x3F, 0, 0⟩,
    ⟨"DCK_MIR_CFG", 0x304, 1, 0, 1, 0, false, true, fun _ => 0x0, 0xE7003FFF, 0, 0⟩,
    ⟨"DCK_MIR_MADE", 0x308, 1, 0, 1, 0, true, true, fun _ => 0x0, 0, 0, 0⟩,
    ⟨"DCK_MIR_LOST", 0x310, 1, 0, 1, 0, true, true, fun _ => 0x0, 0, 0, 0⟩,
    ⟨"DCK_OUT_CELLS", 0x800, 16, 0x8, 1, 0, true, false, fun _ => 0, 0, 0, 0⟩,
    ⟨"DCK_CRC_DROP", 0x880, 1, 0, 1, 0, true, false, fun _ => 0, 0, 0, 0⟩,
    ⟨"DCK_MC_NO_GROUP", 0x888, 1, 0, 1, 0, true, false, fun _ => 0, 0, 0, 0⟩,
    ⟨"DCK_MC_BACKLOG_DROP", 0x890, 1, 0, 1, 0, true, false, fun _ => 0, 0, 0, 0⟩,
    ⟨"DCK_MIRROR_SHED", 0x898, 1, 0, 1, 0, true, false, fun _ => 0, 0, 0, 0⟩,
    ⟨"DCK_MC_COPIES_TOTAL", 0x8A0, 1, 0, 1, 0, true, false, fun _ => 0, 0, 0, 0⟩ ]

/-- The DCK register map. -/
def regsDck : List RegDesc := regsDck0

/-- Rows of the TWN register map (TWN registers and counters). -/
def regsTwn0 : List RegDesc :=
  [ ⟨"TWN_CTRL", 0, 1, 0, 1, 0, false, false, fun _ => 0x0, 0x1, 0, 0⟩,
    ⟨"TWN_STATUS", 0x4, 1, 0, 1, 0, false, false, fun _ => 0x0, 0, 0, 0⟩,
    ⟨"TWN_CMD", 0x8, 1, 0, 1, 0, false, false, fun _ => 0x0, 0, 0, 0⟩,
    ⟨"TWN_CFG", 0xC, 1, 0, 1, 0, false, false, fun _ => 0x80020010, 0x800F07FF, 0, 0⟩,
    ⟨"TWN_EVIDENCE", 0x10, 1, 0, 1, 0, false, false, fun _ => 0x0, 0, 0, 0⟩,
    ⟨"TWN_PEER", 0x14, 1, 0, 1, 0, false, false, fun _ => 0x0, 0, 0, 0⟩,
    ⟨"TWN_RESYNC", 0x18, 1, 0, 1, 0, false, false, fun _ => 0x0, 0, 0, 0⟩,
    ⟨"TWN_PORT_SEL", 0x100, 1, 0, 1, 0, false, false, fun _ => 0x0, 0x7F, 0, 0⟩,
    ⟨"TWN_PORT_STATUS", 0x104, 1, 0, 1, 0, false, true, fun _ => 0x0, 0, 0, 0⟩,
    ⟨"TWN_WIN_MATCH", 0x800, 1, 0, 1, 0, true, false, fun _ => 0, 0, 0, 0⟩,
    ⟨"TWN_WIN_MISMATCH", 0x808, 1, 0, 1, 0, true, false, fun _ => 0, 0, 0, 0⟩,
    ⟨"TWN_WIN_VOID", 0x810, 1, 0, 1, 0, true, false, fun _ => 0, 0, 0, 0⟩,
    ⟨"TWN_HB_MISSED", 0x818, 1, 0, 1, 0, true, false, fun _ => 0, 0, 0, 0⟩,
    ⟨"TWN_MIRROR_RETX", 0x820, 1, 0, 1, 0, true, false, fun _ => 0, 0, 0, 0⟩,
    ⟨"TWN_MIRROR_LATE", 0x828, 1, 0, 1, 0, true, false, fun _ => 0, 0, 0, 0⟩,
    ⟨"TWN_RALIN_CRC_ERR", 0x830, 1, 0, 1, 0, true, false, fun _ => 0, 0, 0, 0⟩ ]

/-- The TWN register map. -/
def regsTwn : List RegDesc := regsTwn0

/-- Rows of the CTL register map (CTL registers and counters). -/
def regsCtl0 : List RegDesc :=
  [ ⟨"CTL_STATUS", 0, 1, 0, 1, 0, false, false, fun _ => 0x0, 0, 0, 0⟩,
    ⟨"CTL_FW_VERSION", 0x4, 1, 0, 1, 0, false, false, fun _ => 0x0, 0, 0, 0⟩,
    ⟨"CTL_PAIR_STATUS", 0x10, 4, 0x4, 1, 0, false, false, fun _ => 0x0, 0, 0, 0⟩,
    ⟨"CTL_PAIR_CKPT", 0x20, 4, 0x8, 1, 0, true, false, fun _ => 0x0, 0, 0, 0⟩,
    ⟨"CTL_SVC_MAP", 0x40, 1, 0, 1, 0, false, false, fun _ => 0xf90, 0, 0, 0⟩,
    ⟨"CTL_BIND_LOCK", 0x80, 1, 0, 1, 0, false, false, fun _ => 0x0, 0, 0, 0⟩,
    ⟨"CTL_MBX_BIND", 0x1000, 64, 0x4, 1, 0, false, false, fun _ => 0x0, 0x80001FFF, 0, 0⟩,
    ⟨"CTL_MBX_DATA", 0x2000, 64, 0x80, 16, 0x4, false, false, fun _ => 0x0, 0xFFFFFFFF, 0, 0⟩,
    ⟨"CTL_MBX_POST", 0x2040, 64, 0x80, 1, 0, false, false, fun _ => 0x0, 0, 0, 0⟩,
    ⟨"CTL_MBX_TXSTAT", 0x2044, 64, 0x80, 1, 0, false, false, fun _ => 0x0, 0, 0, 0x6⟩,
    ⟨"CTL_MBX_RXSTAT", 0x2048, 64, 0x80, 1, 0, false, false, fun _ => 0x0, 0, 0, 0⟩,
    ⟨"CTL_MBX_ACK", 0x204C, 64, 0x80, 1, 0, false, false, fun _ => 0x0, 0, 0, 0⟩,
    ⟨"CTL_BELL", 0x4000, 10, 0x8, 1, 0, false, false, fun _ => 0x0, 0, 0, 0xFFFFFFFF⟩,
    ⟨"CTL_BELL_MASK", 0x4004, 10, 0x8, 1, 0, false, false, fun _ => 0xffffffff, 0xFFFFFFFF, 0, 0⟩,
    ⟨"CTL_LOCK", 0x5000, 64, 0x4, 1, 0, false, false, fun _ => 0x0, 0xF, 0, 0⟩,
    ⟨"CTL_LOCK_PEEK", 0x5100, 64, 0x4, 1, 0, false, false, fun _ => 0x0, 0, 0, 0⟩,
    ⟨"CTL_MBX_POSTS", 0x800, 1, 0, 1, 0, true, false, fun _ => 0, 0, 0, 0⟩,
    ⟨"CTL_MBX_COLLIDES", 0x808, 1, 0, 1, 0, true, false, fun _ => 0, 0, 0, 0⟩,
    ⟨"CTL_MBX_DISCARDS", 0x810, 1, 0, 1, 0, true, false, fun _ => 0, 0, 0, 0⟩,
    ⟨"CTL_LOCK_ACQUIRES", 0x818, 1, 0, 1, 0, true, false, fun _ => 0, 0, 0, 0⟩,
    ⟨"CTL_LOCK_CONTESTS", 0x820, 1, 0, 1, 0, true, false, fun _ => 0, 0, 0, 0⟩,
    ⟨"CTL_LOCKSTEP_MISMATCH", 0x828, 1, 0, 1, 0, true, false, fun _ => 0, 0, 0, 0⟩ ]

/-- The CTL register map. -/
def regsCtl : List RegDesc := regsCtl0

/-- Rows of the HST register map (HST registers and counters). -/
def regsHst0 : List RegDesc :=
  [ ⟨"HST_STATUS", 0, 1, 0, 1, 0, false, false, fun _ => 0x0, 0, 0, 0⟩,
    ⟨"HST_EVR_BASE", 0x100, 16, 0x20, 1, 0, true, false, fun _ => 0x0, 0xFFFFFFFFFFFFF000, 0, 0⟩,
    ⟨"HST_EVR_CFG", 0x108, 16, 0x20, 1, 0, false, false, fun _ => 0x6, 0xBFC0001F, 0, 0x40000000⟩,
    ⟨"HST_EVR_PROD", 0x10C, 16, 0x20, 1, 0, false, false, fun _ => 0x0, 0, 0, 0⟩,
    ⟨"HST_EVR_CONS", 0x110, 16, 0x20, 1, 0, false, false, fun _ => 0x0, 0xFFFFFFFF, 0, 0⟩,
    ⟨"HST_EVR_MOD", 0x114, 16, 0x20, 1, 0, false, false, fun _ => 0x100001, 0xFFFFFFFF, 0, 0⟩,
    ⟨"HST_EV_ROUTE", 0x400, 17, 0x4, 1, 0, false, false, fun _ => 0x100, 0xF0F, 0, 0⟩,
    ⟨"HST_LOG_LIMIT", 0x480, 1, 0, 1, 0, false, false, fun _ => 0x40, 0xFFFF, 0, 0⟩,
    ⟨"HST_SUPP_SEL", 0x490, 1, 0, 1, 0, false, false, fun _ => 0x0, 0x1FF, 0, 0⟩,
    ⟨"HST_SUPP_CNT", 0x494, 5, 0x4, 1, 0, false, true, fun _ => 0x0, 0, 0, 0⟩,
    ⟨"HST_ALM_SAT", 0x500, 16, 0x4, 1, 0, false, false, fun _ => 0x0, 0, 0, 0xFFFFFFFF⟩,
    ⟨"HST_TELEM_CFG", 0x600, 1, 0, 1, 0, false, false, fun _ => 0x0, 0x9FFFFFFF, 0, 0⟩,
    ⟨"HST_TELEM_RATE", 0x604, 1, 0, 1, 0, false, false, fun _ => 0x0, 0x3FFFF, 0, 0⟩,
    ⟨"HST_I3C_PID", 0x700, 1, 0, 1, 0, true, false, fun _ => 0x0, 0, 0, 0⟩,
    ⟨"HST_I3C_STATUS", 0x708, 1, 0, 1, 0, false, false, fun _ => 0x0, 0, 0, 0⟩,
    ⟨"HST_DROP_CNT", 0x4000, 256, 0x8, 1, 0, true, false, fun _ => 0x0, 0, 0, 0⟩,
    ⟨"HST_PQ_BASE", 0x1000, 64, 0x20, 1, 0, true, false, fun _ => 0x0, 0xFFFFFFFFFFFFFFC0, 0, 0⟩,
    ⟨"HST_PQ_CFG", 0x1008, 64, 0x20, 1, 0, false, false, fun _ => 0x0, 0xFF8000FF, 0, 0⟩,
    ⟨"HST_PQ_TAIL", 0x100C, 64, 0x20, 1, 0, false, false, fun _ => 0x0, 0xFFFF, 0, 0⟩,
    ⟨"HST_PQ_HEAD", 0x1010, 64, 0x20, 1, 0, false, false, fun _ => 0x0, 0, 0, 0⟩,
    ⟨"HST_IQ_BASE", 0x2000, 16, 0x20, 1, 0, true, false, fun _ => 0x0, 0xFFFFFFFFFFFFFFC0, 0, 0⟩,
    ⟨"HST_IQ_CFG", 0x2008, 16, 0x20, 1, 0, false, false, fun _ => 0x0, 0xFF8000FF, 0, 0⟩,
    ⟨"HST_IQ_TAIL", 0x200C, 16, 0x20, 1, 0, false, false, fun _ => 0x0, 0xFFFF, 0, 0⟩,
    ⟨"HST_IQ_HEAD", 0x2010, 16, 0x20, 1, 0, false, false, fun _ => 0x0, 0, 0, 0⟩ ]

/-- Rows of the HST register map (HST registers and counters). -/
def regsHst1 : List RegDesc :=
  [ ⟨"HST_EV_ACCEPTED", 0x800, 1, 0, 1, 0, true, false, fun _ => 0, 0, 0, 0⟩,
    ⟨"HST_EV_SUPPRESSED", 0x808, 1, 0, 1, 0, true, false, fun _ => 0, 0, 0, 0⟩,
    ⟨"HST_TELEM_DROPPED", 0x810, 1, 0, 1, 0, true, false, fun _ => 0, 0, 0, 0⟩,
    ⟨"HST_INJECT_ERR", 0x818, 1, 0, 1, 0, true, false, fun _ => 0, 0, 0, 0⟩ ]

/-- The HST register map. -/
def regsHst : List RegDesc := regsHst0 ++ regsHst1

/-- Rows of the PWR register map (PWR registers and counters). -/
def regsPwr0 : List RegDesc :=
  [ ⟨"PWR_STATUS", 0, 1, 0, 1, 0, false, false, fun _ => 0x0, 0, 0, 0⟩,
    ⟨"PWR_SHED_LOG", 0x8, 1, 0, 1, 0, true, false, fun _ => 0x0, 0, 0, 0xF0000000000000⟩,
    ⟨"PWR_SHED_GRP_A", 0x10, 1, 0, 1, 0, false, false, fun _ => 0xffff, 0, 0xFFFF, 0⟩,
    ⟨"PWR_SHED_GRP_B", 0x20, 4, 0x4, 1, 0, false, false, fun _ => 0x0, 0, 0xFFFFFFFF, 0⟩,
    ⟨"PWR_RAIL", 0x100, 16, 0x4, 1, 0, false, false, fun _ => 0x0, 0, 0, 0⟩,
    ⟨"PWR_DOM_STATUS", 0x200, 5, 0x4, 1, 0, false, false, fun _ => 0x0, 0, 0, 0⟩,
    ⟨"PWR_FAB_OFF", 0x220, 1, 0, 1, 0, false, false, fun _ => 0x0, 0xFFFFF, 0, 0⟩,
    ⟨"PWR_PIER_FREQ", 0x300, 17, 0x4, 1, 0, false, false, fun _ => 0x6400640, 0x7FF0000, 0, 0⟩,
    ⟨"PWR_THERM_CFG", 0x400, 1, 0, 1, 0, false, false, fun _ => 0x69, 0, 0xFF, 0⟩,
    ⟨"PWR_TEMP", 0x480, 32, 0x4, 1, 0, false, false, fun _ => 0x0, 0, 0, 0⟩,
    ⟨"PWR_PMB_ADDR", 0x600, 8, 0x4, 1, 0, false, false, fun _ => 0x0, 0, 0x1FF, 0⟩,
    ⟨"PWR_PKG_POWER", 0x700, 1, 0, 1, 0, false, false, fun _ => 0x0, 0, 0, 0⟩ ]

/-- The PWR register map. -/
def regsPwr : List RegDesc := regsPwr0

/-- Rows of the SEC register map (SEC registers and counters). -/
def regsSec0 : List RegDesc :=
  [ ⟨"SEC_BOOT_STATUS", 0, 1, 0, 1, 0, false, false, fun _ => 0x0, 0, 0, 0⟩,
    ⟨"SEC_Q_CAUSE", 0x4, 1, 0, 1, 0, false, false, fun _ => 0x0, 0, 0, 0⟩,
    ⟨"SEC_CTRL", 0x8, 1, 0, 1, 0, false, false, fun _ => 0x0, 0, 0, 0⟩,
    ⟨"SEC_FUSE_STATE", 0x10, 1, 0, 1, 0, false, false, fun _ => 0x0, 0, 0, 0⟩,
    ⟨"SEC_FUSE_CMD", 0x14, 1, 0, 1, 0, false, false, fun _ => 0x0, 0, 0, 0⟩,
    ⟨"SEC_ID_PUB", 0x40, 15, 0x4, 1, 0, false, false, fun _ => 0x0, 0, 0, 0⟩,
    ⟨"SEC_ATT_NONCE", 0x100, 8, 0x4, 1, 0, false, false, fun _ => 0x0, 0xFFFFFFFF, 0, 0⟩,
    ⟨"SEC_ATT", 0x120, 1, 0, 1, 0, false, false, fun _ => 0x0, 0, 0, 0⟩,
    ⟨"SEC_ATT_REPORT", 0x1000, 192, 0x4, 1, 0, false, false, fun _ => 0x0, 0, 0, 0⟩,
    ⟨"SEC_FLASH_HOST", 0x200, 1, 0, 1, 0, true, false, fun _ => 0x0, 0xFFFFFFFFFFFFFFC0, 0, 0⟩,
    ⟨"SEC_FLASH_OFS", 0x208, 1, 0, 1, 0, false, false, fun _ => 0x0, 0xFFFFFFF, 0, 0⟩,
    ⟨"SEC_FLASH_LEN", 0x20C, 1, 0, 1, 0, false, false, fun _ => 0x0, 0x1FFFFFF, 0, 0⟩,
    ⟨"SEC_FLASH_CMD", 0x210, 1, 0, 1, 0, false, false, fun _ => 0x0, 0, 0, 0⟩ ]

/-- The SEC register map. -/
def regsSec : List RegDesc := regsSec0

/-- Rows of the DGN register map (DGN registers and counters). -/
def regsDgn0 : List RegDesc :=
  [ ⟨"DGN_STATUS", 0, 1, 0, 1, 0, false, false, fun _ => 0x0, 0, 0, 0⟩,
    ⟨"DGN_CU_CTRL", 0x100, 8, 0x20, 1, 0, false, false, fun _ => 0x0, 0x47C00000, 0, 0⟩,
    ⟨"DGN_CU_EXPECT", 0x108, 8, 0x20, 1, 0, true, false, fun _ => 0x0, 0xFFFFFFFFFFFFFFFF, 0, 0⟩,
    ⟨"DGN_CU_RESULT", 0x110, 8, 0x20, 1, 0, true, false, fun _ => 0x0, 0, 0, 0⟩,
    ⟨"DGN_CU_STATUS", 0x118, 8, 0x20, 1, 0, false, false, fun _ => 0x0, 0, 0, 0⟩,
    ⟨"DGN_CU_COUNT", 0x11C, 8, 0x20, 1, 0, false, false, fun _ => 0x0, 0xFFFFFFFF, 0, 0⟩,
    ⟨"DGN_PATROL_CFG", 0x400, 1, 0, 1, 0, false, false, fun _ => 0x1, 0x1, 0, 0⟩,
    ⟨"DGN_PATROL_STATUS", 0x404, 1, 0, 1, 0, false, false, fun _ => 0x0, 0, 0, 0⟩,
    ⟨"DGN_BIST_CMD", 0x500, 1, 0, 1, 0, false, false, fun _ => 0x0, 0x1F, 0, 0⟩,
    ⟨"DGN_BIST_STATUS", 0x504, 1, 0, 1, 0, false, false, fun _ => 0x0, 0, 0, 0⟩,
    ⟨"DGN_RECAL_CMD", 0x600, 1, 0, 1, 0, false, false, fun _ => 0x0, 0x1FF, 0, 0⟩,
    ⟨"DGN_CW_TEST", 0x700, 1, 0, 1, 0, false, false, fun _ => 0x0, 0x80000001, 0, 0⟩,
    ⟨"DGN_MAINT_CMD", 0x900, 1, 0, 1, 0, false, false, fun _ => 0x0, 0x1F, 0, 0⟩,
    ⟨"DGN_PATROL_CORR", 0x800, 1, 0, 1, 0, true, false, fun _ => 0, 0, 0, 0⟩,
    ⟨"DGN_CW_CORR", 0x808, 1, 0, 1, 0, true, false, fun _ => 0, 0, 0, 0⟩,
    ⟨"DGN_CW_UNCORR", 0x810, 1, 0, 1, 0, true, false, fun _ => 0, 0, 0, 0⟩,
    ⟨"DGN_CW_REPLAY", 0x818, 1, 0, 1, 0, true, false, fun _ => 0, 0, 0, 0⟩,
    ⟨"DGN_CW_BER_FE_TM", 0x820, 1, 0, 1, 0, true, false, fun _ => 0, 0, 0, 0⟩,
    ⟨"DGN_CW_BER_TM_FE", 0x828, 1, 0, 1, 0, true, false, fun _ => 0, 0, 0, 0⟩,
    ⟨"DGN_CU_MISMATCH", 0x830, 1, 0, 1, 0, true, false, fun _ => 0, 0, 0, 0⟩ ]

/-- The DGN register map. -/
def regsDgn : List RegDesc := regsDgn0

/-- Where an offset of a block's window lies: the row, the copy's index, and whether it is the high half of a 64-bit
register. -/
structure RegHit where
  desc : RegDesc
  idx : Nat
  high : Bool

/-- Does offset `o` of the window belong to the row? -/
def RegDesc.hit (r : RegDesc) (o : Nat) : Option RegHit :=
  if o < r.off then none else
  let k := o - r.off
  let i := if r.st = 0 then 0 else k / r.st
  let k1 := k - i * r.st
  let j := if r.st2 = 0 then 0 else k1 / r.st2
  let k2 := k1 - j * r.st2
  if i < r.n ∧ j < r.n2 then
    if k2 = 0 then some ⟨r, i, false⟩
    else if k2 = 4 ∧ r.wide = true then some ⟨r, i, true⟩
    else none
  else none

/-- The first row of a map that holds the offset. -/
def findRow : List RegDesc → Nat → Option RegHit
  | [], _ => none
  | r :: t, o => match r.hit o with
    | some h => some h
    | none => findRow t o

/-- The register at a BAR0 offset: its window (R25), its row, and the port or pier of the window. The LPT_OCT
registers exist only in the window of port 8o. An unassigned offset has none (R27). -/
def findReg (off : Nat) : Option RegHit :=
  if off < 0x1000000 then findRow regsGlb off
  else if off < 0x2000000 then findRow regsTim (off - 0x1000000)
  else if off < 0x4000000 then findRow regsImg (off - 0x2000000)
  else if off < 0x4800000 then
    let p := (off - 0x4000000) / 0x10000
    let o := (off - 0x4000000) % 0x10000
    if o ≥ 0x8000 ∧ p % 8 ≠ 0 then none else findRow regsLpt o
  else if off < 0x8000000 then none
  else if off < 0x9100000 then findRow regsPir ((off - 0x8000000) % 0x100000)
  else if off < 0xA000000 then none
  else if off < 0xC000000 then findRow regsTbl (off - 0xA000000)
  else if off < 0xD000000 then findRow regsBuf (off - 0xC000000)
  else if off < 0xE000000 then findRow regsQue (off - 0xD000000)
  else if off < 0x10000000 then findRow regsShp (off - 0xE000000)
  else if off < 0x11000000 then findRow regsFab (off - 0x10000000)
  else if off < 0x12000000 then findRow regsDck (off - 0x11000000)
  else if off < 0x13000000 then findRow regsTwn (off - 0x12000000)
  else if off < 0x14000000 then findRow regsCtl (off - 0x13000000)
  else if off < 0x15000000 then findRow regsHst (off - 0x14000000)
  else if off < 0x16000000 then findRow regsPwr (off - 0x15000000)
  else if off < 0x17000000 then findRow regsSec (off - 0x16000000)
  else if off < 0x18000000 then findRow regsDgn (off - 0x17000000)
  else none

/-- The reset value of the register that a key of the register store names: the BAR0 offset in bits 28 to 0, the
selected item above them. -/
def regReset (key : Nat) : BitVec 64 :=
  match findReg (key % 0x20000000) with
  | some h => BitVec.ofNat 64 (h.desc.reset (if h.desc.sel then key / 0x20000000 else h.idx))
  | none => 0

end Sys2Proof.Machine
end

