-- ==== Sys2Proof/Machine/SMap.lean ====
section
/-! DEFINITION. Sparse data by key: a list of key and value pairs in one canonical form, read through a default that
says what an unlisted key holds. -/

namespace Sys2Proof.Machine

/-- A sparse table: pairs of key and value, keys strictly rising, no value equal to its key's default. -/
abbrev SMap (α : Type) := List (Nat × α)

/-- The value at key `k`; an unlisted key holds its default. -/
def SMap.get {α : Type} (dflt : Nat → α) : SMap α → Nat → α
  | [], k => dflt k
  | (j, v) :: t, k => if j = k then v else SMap.get dflt t k

/-- The table with the pair for `k` put in its place, in rising order of the keys. -/
def SMap.put {α : Type} : SMap α → Nat → α → SMap α
  | [], k, v => [(k, v)]
  | (j, w) :: t, k, v =>
    if k < j then (k, v) :: (j, w) :: t
    else if k = j then (k, v) :: t
    else (j, w) :: SMap.put t k v

/-- The table with key `k` unlisted. -/
def SMap.del {α : Type} (m : SMap α) (k : Nat) : SMap α := m.filter (fun p => p.1 != k)

/-- The table after writing `v` at `k`: writing the default unlists the key. -/
def SMap.set {α : Type} [DecidableEq α] (dflt : Nat → α) (m : SMap α) (k : Nat) (v : α) : SMap α :=
  if v = dflt k then SMap.del m k else SMap.put m k v

/-- The table after changing the value at `k` by `f`. -/
def SMap.upd {α : Type} [DecidableEq α] (dflt : Nat → α) (m : SMap α) (k : Nat) (f : α → α) : SMap α :=
  SMap.set dflt m k (f (SMap.get dflt m k))

/-- Every key of the list lies above `lo`, and each above the one before it. -/
def SMap.risingFrom {α : Type} : Nat → SMap α → Bool
  | _, [] => true
  | lo, (j, _) :: t => lo ≤ j && SMap.risingFrom (j + 1) t

/-- The canonical form: keys strictly rising, no value equal to its key's default. -/
def SMap.wf {α : Type} [DecidableEq α] (dflt : Nat → α) (m : SMap α) : Bool :=
  SMap.risingFrom 0 m && m.all (fun p => decide (p.2 ≠ dflt p.1))

end Sys2Proof.Machine
end

