-- ==== Sys2Proof/Machine/State.lean ====
section
/-! DEFINITION. The state of the block as plain data: every register, queue, table, mode and pin that the spec names, and the
queue of the commands that wait. -/

namespace Sys2Proof.Machine

/-- Why a command could stop the machine with a fault. No command of this model does: every row has its effect. -/
inductive Fault where
  deriving DecidableEq, Repr

/-- Why a command is refused by the model. -/
inductive Refusal where
  /-- The row has no meaning yet (safe: the machine stops); raised by an arm of `exec` alone. -/
  | notModelled (mnemonic : String)
  deriving DecidableEq, Repr

/-- The life-cycle and role modes (R19); the overlays M7 and M8 follow from the walk and the shed step. -/
inductive Mode where
  | m0 | m1 | m2 | m3 | m4 | m5 | m6 | m9 | m10 | m11
  deriving DecidableEq, Repr

/-- The mode's code (R21). -/
def Mode.code : Mode → Nat
  | .m0 => 0 | .m1 => 1 | .m2 => 2 | .m3 => 3 | .m4 => 4 | .m5 => 5 | .m6 => 6 | .m9 => 9 | .m10 => 10 | .m11 => 11

/-- A packet in the device: its bytes and its 128 bytes of metadata (R72), byte k at bits 8k. Beside them go whether the STC was held when
RX_TS was taken (R36, R388), the class of the egress queue it was selected from (R119), and the inject queue whose descriptor is completed
when the packet issues (R387). -/
structure Packet where
  bytes : List Byte
  md : BitVec 1024
  tsHeld : Bool := false
  cls : Nat := 0
  back : Option Nat := none
  deriving DecidableEq, Repr

/-! ### TIM -/

/-- The state of a timed-action entry (TIM_TA_STATUS.STATE). -/
inductive TaState where
  | free | armed | done | missed
  deriving DecidableEq, Repr

/-- One of the 256 timed-action entries (R48, R52): `cmdResult` 0 none, 1 accepted, 2 refused; `result` 1 refused by
the target. -/
structure TaEntry where
  span : Nat
  type : Nat
  operand : BitVec 64
  state : TaState
  cmdResult : Nat
  result : Nat
  deriving DecidableEq, Repr

/-- A free entry, as at reset. -/
def TaEntry.reset : TaEntry := ⟨0, 0, 0, .free, 0, 0⟩

/-- A master's index and staging set (R490). -/
structure TaStaging where
  index : Nat
  span : Nat
  type : Nat
  operand : BitVec 64
  deriving DecidableEq, Repr

/-- The staging set at reset. -/
def TaStaging.reset : TaStaging := ⟨0, 0, 0, 0⟩

/-- Time-keeping state that no register shows whole: the STC (R32), the free-running internal span tick (R36), the PLL,
the PHC base as an exact offset, pending ToD values, timed actions, and the running drain (R55 to R59). -/
structure Tim where
  /-- STC span number. -/
  span : Nat
  /-- STC slot index. -/
  slot : Nat
  /-- The internal span tick, counted from reset release. -/
  tick : Nat
  /-- The slot of the internal span tick, and the tick in which the STC last counted or was loaded (R36, R46). -/
  tickSlot : Nat
  stcTick : Nat
  /-- The PLL that produces or holds the span clock is locked (R488, R489). -/
  pllLocked : Bool
  /-- Tick of the last span in which an up link gave a valid control slot (R36). -/
  lastCtl : Nat
  /-- Fabric links excluded as a time source (R35). -/
  excluded : BitVec 40
  /-- Consecutive good PPS edges (R38). -/
  ppsGood : Nat
  /-- A second that an accepted ToD message named, waiting for the next PPS edge (R42). -/
  todPending : Option (BitVec 48)
  /-- A ToD base (seconds, nanoseconds) that waits for slot 0 of the next span, and the tick in which it arrived (R44). -/
  basePending : Option (Nat × Nat)
  basePendingTick : Nat
  /-- A correction that waits so, and the tick in which it arrived (R44). -/
  corrPending : Option (BitVec 32)
  corrPendingTick : Nat
  /-- The PHC second that PHC_SECOND last acted on. -/
  phcSecond : Nat
  /-- The last ToD message sent (R41), and whether the second's message is still to be sent. -/
  todTx : List Byte
  todTxDue : Bool
  /-- Slot of the internal span tick, 100 × tick + slot, until which TIME_PPS_OUT is high. -/
  ppsOutUntil : Nat
  /-- The span of the last SPAN_SYNC_OUT marker driven (R40; output). -/
  syncOut : Option Nat
  /-- The timed-action entries, by index. -/
  entries : SMap TaEntry
  /-- The staging sets, by master. -/
  staging : SMap TaStaging
  /-- Has a keystone fired since reset (R57)? -/
  ksFired : Bool
  /-- The drain limit in force at the last keystone, L (R58). -/
  limitInForce : Nat
  /-- Has K + L arrived since the last keystone (R59)? -/
  limitPassed : Bool
  /-- The tick of the last load of the STC (R37, R58). -/
  relockAt : Option Nat
  /-- Packets dropped with EPOCH_EXPIRED since slot 0 of K + L, up to the release (R59). -/
  expiredSince : Nat
  deriving DecidableEq, Repr

/-- TIM at reset. -/
def Tim.reset : Tim :=
  { span := 0, slot := 0, tick := 0, tickSlot := 0, stcTick := 0, pllLocked := false, lastCtl := 0, excluded := 0,
    ppsGood := 0, todPending := none, basePending := none, basePendingTick := 0, corrPending := none, corrPendingTick := 0,
    phcSecond := 0, todTx := [], todTxDue := false, ppsOutUntil := 0, syncOut := none, entries := [], staging := [],
    ksFired := false, limitInForce := 4096, limitPassed := false, relockAt := none, expiredSince := 0 }

/-! ### IMG -/

/-- A PIER_LAYOUT record (R67). -/
structure StageRec where
  pipe : Nat
  stage : Nat
  pred : Bool
  builder : Nat
  table : Nat
  blocks : Nat
  hitBase : Nat
  missAction : Nat
  deriving DecidableEq, Repr

/-- A TABLE_SCHEMAS record (R69). -/
structure Schema where
  kind : Nat
  ageing : Bool
  learn : Bool
  keyBits : Nat
  resultBits : Nat
  ageK : Nat
  capacity : Nat
  base : Nat
  seed0 : Nat
  seed1 : Nat
  ageLimit : Nat
  deriving DecidableEq, Repr

/-- A METADATA_LAYOUT record (R72). -/
structure FieldRec where
  id : Nat
  ofs : Nat
  width : Nat
  reach : Nat
  deriving DecidableEq, Repr

/-- A TM_PROFILE record (R74). -/
structure TmRec where
  kind : Nat
  first : Nat
  count : Nat
  value : Nat
  deriving DecidableEq, Repr

/-- A PORT_MAP record (R76). -/
structure PortRec where
  present : Bool
  sysPort : Nat
  octet : Nat
  mode : Nat
  firstLane : Nat
  lanes : Nat
  eqBase : Nat
  root : Nat
  deriving DecidableEq, Repr

/-- A verified image as the device uses it (R62 to R80): header values, sections in the form of their records, digest. -/
structure Image where
  len : Nat
  svn : Nat
  compatId : Nat
  tcamKeyId : Nat
  sharedDigest : BitVec 256
  digest : BitVec 512
  keySlot : Nat
  stages : List StageRec
  states : List (BitVec 512)
  builders : List (BitVec 1024)
  schemas : List Schema
  fields : List FieldRec
  ingress : List (BitVec 128)
  egress : List (BitVec 128)
  tm : List TmRec
  ports : List PortRec
  deriving DecidableEq, Repr

/-- A load in progress (R81): its target, source and length, the master that started it, and the image's bytes where a check unit has ended
its stream of them (R441). -/
structure LoadOp where
  target : Nat
  addr : Nat
  len : Nat
  master : Nat
  streamed : Option (List Byte) := none
  deriving DecidableEq, Repr

/-- A step of a walk, or a retirement by its mechanics (R93, R100), that has fired and not committed: octet, old and new pier, the
internal tick of its span S, whether it is a retirement, and whether the old pier's second-stroke entries do not read. -/
structure PierMove where
  octet : Nat
  old : Nat
  new : Nat
  start : Nat
  retirement : Bool
  deriving DecidableEq, Repr

/-- Image and walk state that no register shows. -/
structure Img where
  /-- The images of the two store slots (R81). -/
  slots : SMap (Option Image)
  /-- The stored bytes of the two slots. -/
  raw : SMap (List Byte)
  /-- The load in progress (R81). -/
  load : Option LoadOp
  /-- The overlay mode M7 applies: a walk has been started and has neither completed nor been abandoned (R20, R24). -/
  walkOn : Bool
  /-- The span of the next step of the walk (R92). -/
  walkDue : Nat
  /-- A step was refused during suspension and waits to be armed again (R97). -/
  walkRefused : Bool
  /-- The span at which an arm refused for another cause than lateness is made again. -/
  walkRetry : Option Nat
  /-- An abandonment that waits for the step in progress to finish its reload, with its cause (R95, R98). -/
  abandonDue : Option Nat
  /-- The step of the walk, or the retirement, that has fired and not committed (R93, R100). -/
  move : Option PierMove
  /-- The vacated pier of the step in progress while it reloads (R93). -/
  reload : Option Nat
  /-- Serving piers to be retired once the step in progress has finished (R100). -/
  failDue : List Nat
  /-- A step of the walk waits to be armed until the pair that runs the sequencer runs again (R364, R366). -/
  walkWaits : Bool
  /-- Images that a pier's banks still hold although their slot has been loaded anew, by 2 × pier + tag (R85). -/
  own : SMap (Option Image)
  /-- Hash seeds in force, by table ID: (SEED0, SEED1) (R71). -/
  seeds : SMap (Option (Nat × Nat))
  deriving DecidableEq, Repr

/-- IMG at reset. -/
def Img.reset : Img :=
  { slots := [], raw := [], load := none, walkOn := false, walkDue := 0, walkRefused := false, walkRetry := none,
    abandonDue := none, move := none, reload := none, failDue := [], walkWaits := false, own := [], seeds := [] }
/-! ### LPT -/

/-- A frame that the MAC holds to send: the packet as the egress stroke left it, its class, its bytes on the wire side of the MAC
without FCS, and the two-step timestamp tag if it wants one (R114). -/
structure TxFrame where
  bytes : List Byte
  cls : Nat
  tsTag : Option Nat
  deriving DecidableEq, Repr

/-- A frame on its way to the line (R121 to R124): the frame, whether it goes as an express frame, the bytes of it that earlier fragments
carried, the instant it started, in 0.01 ns of the internal span tick, and the bytes that this fragment is to carry. -/
structure Flight where
  frame : TxFrame
  express : Bool
  before : Nat
  start : Nat
  plan : Nat
  deriving DecidableEq, Repr

/-- What the lane transmitters of a port send (R126): idle and frames, nothing, or the remote-fault ordered set. -/
inductive LaneOut where
  | running | squelched | remoteFault
  deriving DecidableEq, Repr

/-- A gate list (R119, R120): the entry words, the base time as committed, the cycle and the enable. -/
structure GateList where
  entries : List Word
  baseSec : Nat
  baseNs : Nat
  cycle : Nat
  enable : Bool
  deriving DecidableEq, Repr

/-- A MACsec secure association (R110, R112): valid, its key, salt and SSCI, the next or lowest acceptable packet number, the
highest packet number accepted, the replay window's record below it, the tick of the last frame accepted, and whether
LPT_MSEC_PN_THR has been posted for it. -/
structure Sa where
  valid : Bool
  key : BitVec 256
  salt : BitVec 96
  ssci : BitVec 32
  pn : Nat
  lastRx : Option Nat
  thrPosted : Bool
  deriving DecidableEq, Repr

/-- An SA that is not installed. -/
def Sa.reset : Sa := ⟨false, 0, 0, 0, 0, none, false⟩

/-- A line port's state that no register shows. -/
structure LptPort where
  /-- Classes stopped by received PAUSE or PFC (R116); for each the instant its pause time ends, in 0.01 ns of the internal span tick, the
  tick its pause began (R118), and of its last request. -/
  paused : BitVec 8
  pausedUntil : SMap Nat
  pausedAt : SMap Nat
  lastReq : SMap Nat
  /-- Classes for which received PFC is ignored (R118). -/
  ignored : BitVec 8
  /-- Bytes the TM holds from this port, by class (R117). -/
  held : SMap Nat
  /-- Classes whose count has risen above XOFF and not fallen below XON since; in PAUSE mode, bit 0 for the sum. -/
  xoff : BitVec 8
  /-- Control frames generated, oldest first: per frame its class (8: PAUSE) and its pause time (output), and by class the instant of the last
  one, in 0.01 ns of the internal span tick (R117). -/
  ctlOut : List (Nat × Nat)
  ctlAt : SMap Nat
  /-- The transmit buffer: frames the egress strokes have handed over, oldest first. -/
  tx : List TxFrame
  /-- A preempted frame of which so many bytes on the wire have been sent (R124). -/
  frag : Option (TxFrame × Nat)
  /-- The frame that is being sent. -/
  flight : Option Flight
  /-- Packets selected for the port that have not reached its transmit buffer: their bytes (R254). -/
  pendingBytes : Nat
  /-- The last frame sent whole, FCS excluded (output). -/
  lastTx : List Byte
  /-- The frame that a port down last ended with an invalid FCS, and what the lane transmitters send (output; R126). -/
  cutTx : List Byte
  lanesOut : LaneOut
  /-- Line fault conditions present: bit 0 PCS lock loss, 1 local fault, 2 remote fault, and the tick each began (R125). -/
  faults : BitVec 3
  faultAt : SMap Nat
  /-- More uncorrectable codewords than FEC_THR in the last interval, and the tick the condition began. -/
  fecBad : Option Nat
  /-- The tick since which the link has been clean. -/
  cleanAt : Nat
  /-- The committed list that waits, with its start (seconds, nanoseconds) (R47). -/
  gclPending : Option GateList
  gclStart : Nat × Nat
  /-- The running list, the entry in force and the PHC nanosecond at which it began. -/
  gclRun : Option GateList
  gclIdx : Nat
  gclAt : Nat
  /-- HOLD is asserted (R119). -/
  hold : Bool
  /-- The timestamp FIFO: tag, seconds, nanoseconds and whether the timestamp is valid, oldest first (R36, R114). -/
  txts : List (Nat × Nat × Nat × Bool)
  /-- The secure associations, by 128 × DIR + 4 × SC + AN. -/
  sas : SMap Sa
  deriving DecidableEq, Repr

/-- A line port at reset. -/
def LptPort.reset : LptPort :=
  { paused := 0, pausedUntil := [], pausedAt := [], lastReq := [], ignored := 0, held := [], xoff := 0, ctlOut := [], ctlAt := [], tx := [],
    frag := none, flight := none, pendingBytes := 0, lastTx := [], cutTx := [], lanesOut := .squelched, faults := 0, faultAt := [],
    fecBad := none, cleanAt := 0, gclPending := none, gclStart := (0, 0), gclRun := none, gclIdx := 0, gclAt := 0,
    hold := false, txts := [], sas := [] }

/-- A received frame in an octet's receive buffer: its port, its bytes without FCS, the FCS it came with (R345), and its receive
timestamp (R45): span × 4,096 + tick of 0.32 ns, with whether the STC was held when it was taken (R36). -/
structure RxFrame where
  port : Nat
  bytes : List Byte
  fcs : Nat
  ts : Nat
  tsHeld : Bool
  deriving DecidableEq, Repr

/-- Line-port state. -/
structure Lpt where
  /-- The line ports, 0 to 127. -/
  ports : SMap LptPort
  /-- Each octet's receive buffer, oldest frame first (R108). -/
  rx : SMap (List RxFrame)
  /-- Each octet's step buffer: the frames held during a move of its pier, and after it until they are served (R93). -/
  step : SMap (List RxFrame)
  deriving DecidableEq, Repr

/-- LPT at reset. -/
def Lpt.reset : Lpt := { ports := [], rx := [], step := [] }

/-! ### PIR -/

/-- A TCAM row (R149, R150): key and mask bits, the control word (VALID, CHAIN, RANGE_EN) and the result of an entry's first row. -/
structure TcamRow where
  key : BitVec 160
  mask : BitVec 160
  valid : Bool
  chain : Nat
  ranges : Nat
  res : BitVec 64
  deriving DecidableEq, Repr

/-- A row at reset: invalid, all bits 0. -/
def TcamRow.reset : TcamRow := ⟨0, 0, false, 0, 0, 0⟩

/-- A commit that waits for its issue slot (R154, R155): pipe, first row, control word, and the shadows of its rows as they stood. -/
structure TcamCommit where
  pipe : Nat
  row : Nat
  chain : Nat
  valid : Bool
  ranges : Nat
  rows : List TcamRow
  deriving DecidableEq, Repr

/-- A packet in a second-stroke queue, with the FCS it was received with (none: injected, R345). -/
structure SsEntry where
  pkt : Packet
  fcs : Option Nat
  /-- The entry was copied from another pier and goes before the frames that wait (R93). -/
  first : Bool := false
  /-- The entry does not read without error (R100). -/
  bad : Bool := false
  deriving DecidableEq, Repr

/-- Pier state that no register shows. TCAM rows are keyed by 32,768 × pier + 16,384 × pipe + row. -/
structure Pir where
  /-- Second-stroke queues, by pier, oldest first (R134). -/
  ss : SMap (List SsEntry)
  /-- Injected packets that wait for an issue slot, by octet, oldest first (R130, R391). -/
  inject : SMap (List Packet)
  /-- The claimant that last had the slot both share, by pier: 0 none, 1 inject queues, 2 second strokes (R130). -/
  turn : SMap Nat
  /-- A pier's last second stroke, by 100 × internal tick + slot, and the issue slots given since then in that slot (R135). -/
  lastSs : SMap (Option (Nat × Nat))
  /-- Packets from the TM that wait for their egress stroke, by octet, oldest first. -/
  egress : SMap (List Packet)
  /-- Live rows and shadows (R154). -/
  live : SMap TcamRow
  shadow : SMap TcamRow
  /-- Commits that wait, by pier, oldest first; those past the 64th are held on the bus (R155). -/
  commits : SMap (List TcamCommit)
  deriving DecidableEq, Repr

/-- PIR at reset. -/
def Pir.reset : Pir := { ss := [], inject := [], turn := [], lastSs := [], egress := [], live := [], shadow := [], commits := [] }


/-! ### TBL -/

/-- A route (R169, R170): table, VRF, the address left-aligned in 128 bits, prefix length, result, and the units it took. -/
structure Route where
  table : Nat
  vrf : Nat
  addr : Nat
  len : Nat
  result : Nat
  cost : Nat
  deriving DecidableEq, Repr

/-- A poisoned LPM node (R188): its number, the VRF and address range it covers, and the prefixes in it still to be rewritten. -/
structure PoisonRange where
  node : Nat
  vrf : Nat
  addr : Nat
  len : Nat
  todo : List (Nat × Nat × Nat)
  deriving DecidableEq, Repr

/-- A request of the table access engine (R196, R197): its bytes, sequence number, master and slot (none: the entry window); for a
mirrored change the span it takes effect at, and for a BULK whose list has been read the records not yet executed. -/
structure TaeReq where
  req : BitVec 2048
  seq : Nat
  master : Nat
  slot : Option Nat
  apply : Option Nat
  recs : Option (List (BitVec 2048))
  /-- The status that ends a BULK after those records, if one does (R203, R216). -/
  stop : Option Nat := none
  /-- The records of a BULK that have been executed, and how many of those left wait for the span `apply` on a mirroring active (R203, R216). -/
  done : Nat := 0
  ready : Nat := 0
  /-- An entry window read that waits for this READ_INDEX: the byte of the entry whose word answers it (R201). -/
  win : Option Nat := none
  deriving DecidableEq, Repr

/-- A slot's response (R199). -/
structure TaeResp where
  status : Nat
  moves : Nat
  seq : Nat
  index : Nat
  data : BitVec 1024
  deriving DecidableEq, Repr

/-- An idle slot. -/
def TaeResp.reset : TaeResp := ⟨0, 0, 0, 0, 0⟩

/-- A submission to the learn engine (R190). -/
structure LearnSub where
  table : Nat
  key : Nat
  result : Nat
  pier : Nat
  deriving DecidableEq, Repr

/-- A snapshot that is copying (R186): its set, the firing span, and the counters as they stood at slot 0 of it. -/
structure Snapshot where
  set : Nat
  first : Nat
  count : Nat
  addr : Nat
  span : Nat
  image : SMap (BitVec 128)
  deriving DecidableEq, Repr

/-- An open rehash (R207, R208): the table, its placement at the open, the shadow's placement and seeds, the offset of the next live
entry to copy, and the poisoned entries met. -/
structure Rehash where
  table : Nat
  kind : Nat
  base : Nat
  cap : Nat
  newBase : Nat
  newCap : Nat
  seed0 : Nat
  seed1 : Nat
  pos : Nat
  poisoned : Nat
  deriving DecidableEq, Repr

/-- A committed placement (R209, R210): for a bank whose image gives the table this kind, base and capacity, the base and capacity
in force. -/
structure Placed where
  kind : Nat
  base : Nat
  cap : Nat
  newBase : Nat
  newCap : Nat
  /-- Seeds that a held old bank keeps where a commit changes the table's seeds but not that bank's placement (R209). -/
  pin : Option (Nat × Nat) := none
  deriving DecidableEq, Repr

/-- A range on the retire list (R214). -/
structure Retired where
  kind : Nat
  first : Nat
  count : Nat
  release : Nat
  deriving DecidableEq, Repr

/-- A meter in a pier's cache: its index, its entry, and whether HBM still holds an older one (R183). -/
structure MeterLine where
  idx : Nat
  entry : BitVec 1024
  dirty : Bool
  deriving DecidableEq, Repr

/-- Table state that no register shows. Entries are keyed by 2^27 × kind + index, byte k of an entry at bits 8k. -/
structure Tbl where
  /-- The entries of the table memories (R160, R171). -/
  mem : SMap (BitVec 1024)
  /-- The poisoned entries (R188). -/
  poison : SMap Bool
  /-- The routes of the LPM memory (R169). -/
  lpm : List Route
  /-- The poisoned nodes of the LPM memory (R188). -/
  lpmPoison : List PoisonRange
  /-- The engine's queue, oldest first, the last sequence number given, and the slots' responses. -/
  queue : List TaeReq
  seq : Nat
  resp : SMap TaeResp
  /-- The request bytes of the slots (R195). -/
  slots : SMap (BitVec 2048)
  /-- Entry window, by master: the latched entry, and the entry being staged with the bytes written (R201). -/
  winLatch : SMap (Option (Nat × BitVec 1024))
  winStage : SMap (Option (Nat × Nat × BitVec 1024))
  /-- The learn submissions that wait, oldest first (R190). -/
  learnQ : List LearnSub
  /-- TBL_LEARN events and TBL_AGED events posted in the span of the given tick. -/
  learnEv : Nat × Nat
  agedEv : Nat × Nat
  /-- The counter snapshot that is copying (R186). -/
  snap : Option Snapshot
  /-- The open rehash (R207). -/
  rehash : Option Rehash
  /-- The placements that rehashes have put in force, by table ID (R209, R210). -/
  places : SMap (List Placed)
  /-- Insertion, indexed and LPM operations, and learn submissions applied, in the span of the given tick (R190, R200); and the tick of the last
  copy (R208). -/
  ops : Nat × Nat
  idxOps : Nat × Nat
  lpmOps : Nat × Nat
  learnOps : Nat × Nat
  copyTick : Option Nat
  /-- The ageing sweep: table and offset next visited, the tick of its last work, and per table the span it last started it. -/
  sweepAt : Nat × Nat
  sweepTick : Option Nat
  sweepStart : SMap (Option Nat)
  /-- The retire list (R214). -/
  retire : List Retired
  /-- The meter caches of the piers, the most recently used meter first (R183). -/
  meters : SMap (List MeterLine)
  deriving DecidableEq, Repr

/-- TBL at reset: every entry invalid. -/
def Tbl.reset : Tbl :=
  { mem := [], poison := [], lpm := [], lpmPoison := [], queue := [], seq := 0, resp := [], slots := [], winLatch := [], winStage := [],
    learnQ := [], learnEv := (0, 0), agedEv := (0, 0), snap := none, rehash := none, places := [], ops := (0, 0),
    idxOps := (0, 0), lpmOps := (0, 0), learnOps := (0, 0), copyTick := none, sweepAt := (0, 0), sweepTick := none, sweepStart := [], retire := [], meters := [] }


/-! ### BUF -/

/-- An allocated buffer: its owner tag (R222) and the count of records with sectors in it (R220). -/
structure BufInfo where
  owner : Nat
  recs : Nat
  deriving DecidableEq, Repr

/-- A requester's open page in a pool: its handle, the sectors free in it, and the tick of its last placement (R220,
R221). -/
structure OpenPage where
  handle : Nat
  free : Nat
  last : Nat
  deriving DecidableEq, Repr

/-- One CXL port's part in the far pool (R235 to R239). -/
structure CxlPort where
  /-- Pages of the attached expander. -/
  capacity : Nat
  /-- Pages joined to the far pool at the last Enable. -/
  joined : Nat
  /-- An Enable in ABSENT: the pages join when the port reaches READY, with the BUF_CXL_LIMIT read at the command. -/
  enableDue : Option Nat
  /-- Disabled: firmware does not retry training until the next Enable. -/
  disabled : Bool
  /-- The link of a DOWN port has retrained. -/
  retrained : Bool
  /-- Tick at which the last training attempt began, if there was one. -/
  triedAt : Option Nat
  deriving DecidableEq, Repr

/-- A CXL port at reset. -/
def CxlPort.reset : CxlPort := ⟨0, 0, none, false, false, none⟩

/-- Buffer-manager state that no register shows. -/
structure Buf where
  /-- The allocated buffers, by handle (R219). -/
  held : SMap (Option BufInfo)
  /-- Usage counts, by 32 × pool + requester (R224). -/
  usage : SMap Nat
  /-- Open pages, by 32 × pool + requester. -/
  openPages : SMap (Option OpenPage)
  /-- Pools whose low threshold has been crossed and not re-armed (BUF_POOL_LOW). -/
  low : SMap Bool
  /-- Result of each master's last free (BUF_FREE_RESULT). -/
  freeResult : SMap Nat
  /-- The CXL ports, 0 to 3 (R235). -/
  cxl : SMap CxlPort
  /-- The port the next far page is taken from, in rotation (R237). -/
  cxlTurn : Nat
  /-- The queue served last by the prefetcher, in rotation (R232). -/
  pfTurn : Nat
  /-- The near pages that the prefetch reserve holds now: BUF_PF_RESERVE once its last change has applied (R233). -/
  reserve : Nat
  deriving DecidableEq, Repr

/-- BUF at reset: every buffer free. -/
def Buf.reset : Buf :=
  { held := [], usage := [], openPages := [], low := [], freeResult := [], cxl := [], cxlTurn := 0, pfTurn := 0,
    reserve := 1048576 }

/-! ### QUE -/

/-- A queued packet: its descriptor (R245), the buffers of its record in order, their pool and owner tag, and the packet
itself. The NEXT link is the order of the queue's list. -/
structure Desc where
  pkt : Packet
  handles : List Nat
  owner : Nat
  pktLen : Nat
  color : Nat
  sectors : Nat
  tag : Nat
  tc : Nat
  ect : Bool
  arrSpan : Nat
  arrSlot : Nat
  /-- The deck input it came through (R318). -/
  input : Nat
  /-- The line port and class its bytes count for in flow control (R117), if any. -/
  flow : Option (Nat × Nat)
  /-- The replication job that still makes copies from this record, if any (R325). -/
  job : Option Nat
  /-- What a read of its far record that did not let it depart has found: 0 nothing, 1 poison, 2 an uncorrectable error (R238). -/
  bad : Nat := 0
  deriving DecidableEq, Repr

/-- A flush request (R265): its cause, the port it names, the ranges of queues (first, count) still to be detached, the
queues flushed and records dropped so far, and the span of the request with its internal tick. -/
structure FlushReq where
  cause : Nat
  port : Nat
  todo : List (Nat × Nat)
  queues : Nat
  records : Nat
  span : Nat
  tick : Nat
  deriving DecidableEq, Repr

/-- A packet that has arrived at the TM: the deck input of its ingress stream, and the packet (R242, R247). -/
structure Arrival where
  input : Nat
  pkt : Packet
  deriving DecidableEq, Repr

/-- Queue-manager state that no register shows. -/
structure Que where
  /-- The queues' descriptors, oldest first. -/
  q : SMap (List Desc)
  /-- The spilled queues (R231). -/
  spilled : SMap Bool
  /-- Packets that wait for their ENQUEUE, in arrival order. -/
  arrivals : List Arrival
  /-- WRED average depth of each queue in KiB (R248). -/
  avg : SMap Nat
  /-- Parent element of each element; 0xF_FFFF: detached or a root (R250). -/
  parent : SMap Nat
  /-- The root of each port, 128 the host (R251). -/
  roots : SMap (Option Nat)
  /-- Service tag F of each element, virtual time V of each node, and the eligibility last seen (R253). -/
  tagF : SMap Nat
  virt : SMap Nat
  elig : SMap Bool
  /-- Egress queues and VOQs marked down with a local port, by port (R264). -/
  portDown : SMap Bool
  /-- Flush requests in the order made, the first in progress (R265). -/
  flushes : List FlushReq
  /-- The internal tick of the flush engine's last span of work. -/
  flushTick : Nat
  /-- Sojourn sums and counts since the last read, by queue: (SJ_SUM, SJ_CNT) (R260). -/
  sojourn : SMap (Nat × Nat)
  /-- Result of each master's last move command (QUE_MOVE_STATUS). -/
  moveResult : SMap Nat
  deriving DecidableEq, Repr

/-- The parent of an element at reset: the 64 punt egress queues are attached to node 65,535 (R251). -/
def parentReset (e : Nat) : Nat := if 393152 ≤ e ∧ e < 393216 then 0x8FFFF else 0xFFFFF

/-- The roots at reset: node 65,535 is the host root (R251). -/
def rootReset (p : Nat) : Option Nat := if p = 128 then some 65535 else none

/-- QUE at reset. -/
def Que.reset : Que :=
  { q := [], spilled := [], arrivals := [], avg := [], parent := [], roots := [], tagF := [], virt := [], elig := [],
    portDown := [], flushes := [], flushTick := 0, sojourn := [], moveResult := [] }

/-! ### SHP -/

/-- The bucket levels of an element: L1 and L2 in units of 2^-16, signed, and the residues below 2^-16 in units of 2^-32
(R273, R275). -/
structure Levels where
  l1 : Int
  l2 : Int
  r1 : Nat
  r2 : Nat
  deriving DecidableEq, Repr

/-- Shaper state that no register shows. -/
structure Shp where
  /-- Levels by element ID. -/
  levels : SMap Levels
  /-- Direct switches written in this span, for slot 0 of the next: (set, master, tick of the write) (R284). -/
  pending : List (Nat × Nat × Nat)
  /-- Tick of the last refresh, and of the last time slot 0's switches were made. -/
  refreshTick : Nat
  deriving DecidableEq, Repr

/-- SHP at reset. -/
def Shp.reset : Shp := { levels := [], pending := [], refreshTick := 0 }
/-! ### FAB -/

/-- A grant in force: the span, lane and slot it gives, and the node and class it names (R306). -/
structure Grant where
  span : Nat
  lane : Nat
  slot : Nat
  node : Nat
  cls : Nat
  deriving DecidableEq, Repr

/-- A cell built for a slot of a span (R307). `filler`: its grant found no byte. -/
structure StagedCell where
  span : Nat
  lane : Nat
  slot : Nat
  cell : BitVec 2048
  filler : Bool
  deriving DecidableEq, Repr

/-- The sending side of a stream (R292, R295): the next SEQ, the span in which its cells carry RESTART, if it is starting, the
stream bytes of a packet not yet staged with their bank tag, and the system port last served. -/
structure TxStream where
  seq : Nat
  restart : Bool
  restartSpan : Option Nat
  left : List Byte
  tag : Nat
  lastPort : Nat
  deriving DecidableEq, Repr

/-- A stream that has not sent. -/
def TxStream.reset : TxStream := ⟨0, true, none, [], 0, 0⟩

/-- A reassembly context (R310 to R313): the expected SEQ, cells held out of order (SEQ, the tick each came, and the cell, none for one
declared lost or expired), the bytes of a packet in progress with their tag, whether bytes are being skipped up to a head, the tick of
the last RESTART reset, and the tick of the last cell. -/
structure RxContext where
  expected : Nat
  held : List (Nat × Nat × Option (BitVec 2048))
  part : List Byte
  tag : Nat
  skip : Bool
  restartAt : Option Nat
  lastAt : Nat
  deriving DecidableEq, Repr

/-- A context that nothing has reached. -/
def RxContext.reset : RxContext := ⟨0, [], [], 0, false, none, 0⟩

/-- A cell as a fabric lane carries it: the lane, the slot marker before it, and the cell (R289). -/
structure FabOut where
  lane : Nat
  marker : BitVec 8
  cell : BitVec 2048
  deriving DecidableEq, Repr

/-- Fabric-interface state that no register shows. -/
structure Fab where
  /-- Lanes that are locked (R290). -/
  locked : BitVec 160
  /-- Per lane: consecutive spans with a valid control-down cell with a valid NODE_ID, those of them with the last one's, and the tick of the last
  one. -/
  ctlRun : SMap Nat
  idRun : SMap Nat
  ctlAt : SMap Nat
  /-- Per link: consecutive spans up to the last one in which a valid control slot came, and of the last two spans in which one came
  the tick, the SPAN it carried and the STC's span, newest first (R35, R37, R296). -/
  linkRun : SMap Nat
  linkSpans : SMap (List (Nat × Nat × Nat))
  /-- Per link: the interval of 1,024 spans and the uncorrectable codewords counted in it (R296). -/
  uncorr : SMap (Nat × Nat)
  /-- The tick in which a link came up: the control-up cells report it from the next span (R296). -/
  upTick : SMap (Option Nat)
  /-- NODE_ID last taken from a lane: valid bit × 1,024 + ID. -/
  laneNode : SMap Nat
  /-- Grants taken and not yet staged, and the span that staging was last done for. -/
  grants : List Grant
  stagedSpan : Option Nat
  /-- The up links have fallen below 35 and have not been restored (FAB_CAPACITY). -/
  fell : Bool
  /-- The cells built for the next span (R307). -/
  staged : List StagedCell
  /-- The streams sent, by destination node and class (R292). -/
  tx : SMap TxStream
  /-- The reassembly contexts (R310). -/
  rx : SMap RxContext
  /-- Port reports that ride, with the spans left, and those that wait (R303): system port, up. -/
  reports : List (Nat × Bool × Nat)
  reportsWait : List (Nat × Bool)
  /-- The node a system port had before a map write, and the tick of that write (R299). -/
  spMapOld : SMap (Option (Nat × Nat))
  /-- The cells last sent in slot 0, and those last sent in a data slot, by lane (output). -/
  ctlUp : List FabOut
  cellsOut : List FabOut
  /-- The tick at which OWNER and time were last taken from a link, and that link (R305). -/
  takenTick : Nat
  takenLink : Option Nat
  deriving DecidableEq, Repr

/-- FAB at reset. -/
def Fab.reset : Fab :=
  { locked := 0, ctlRun := [], idRun := [], ctlAt := [], linkRun := [], linkSpans := [], uncorr := [], upTick := [], laneNode := [], grants := [],
    stagedSpan := none, fell := false, staged := [], tx := [], rx := [], reports := [], reportsWait := [], spMapOld := [], ctlUp := [],
    cellsOut := [], takenTick := 0, takenLink := none }

/-! ### DCK -/

/-- A packet in the replication engine's backlog (R325 to R330): its source record, the group and its snapshot, the next copy
to make, and the mirror session still to be served (0: none). `released`: its own queue has released the record. -/
structure ReplJob where
  id : Nat
  pkt : Packet
  input : Nat
  handles : List Nat
  owner : Nat
  released : Bool
  group : Option Nat
  base : Nat
  count : Nat
  nextCopy : Nat
  mirror : Nat
  deriving DecidableEq, Repr

/-- A packet that a deck stream carries: the packet, its VOQ record while it is held, the stream bytes still to be sent, and the
requester that writes its egress record. -/
structure DeckPkt where
  pkt : Packet
  voq : Option Desc
  left : Nat
  req : Nat
  /-- A fabric packet keeps the stream's head bytes; the system port it is for. -/
  sysPort : Nat
  deriving DecidableEq, Repr

/-- Deck state that no register shows. -/
structure Dck where
  /-- Packets in progress, by 16 × input + output (R322). -/
  inProg : SMap (Option DeckPkt)
  /-- The fabric inputs' class queues, by 128 × (input − 16) + 8 × output + class, oldest first (R322). -/
  fabQ : SMap (List DeckPkt)
  /-- The system port last served by a local stream, by 16 × input + output. -/
  lastPort : SMap Nat
  /-- Grant and accept pointers (R323). -/
  grant : SMap Nat
  accept : SMap Nat
  /-- The matching made for the next slot: (input, output). -/
  matching : List (Nat × Nat)
  /-- The replication backlog, oldest first, and the number of the next job. -/
  backlog : List ReplJob
  nextJob : Nat
  deriving DecidableEq, Repr

/-- DCK at reset. -/
def Dck.reset : Dck :=
  { inProg := [], fabQ := [], lastPort := [], grant := [], accept := [], matching := [], backlog := [], nextJob := 0 }

/-! ### TWN -/

/-- A mirror record (R341): its kind, the originating master, its apply span and its body. -/
structure MirrorRec where
  kind : Nat
  master : Nat
  apply : Nat
  body : List Byte
  /-- The SEQ of the frame that carried it, 2^32 for a record that the active keeps for itself. -/
  seq : Nat
  deriving DecidableEq, Repr

/-- A Ralin message that waits for a frame position, or that the sender keeps (R338, R340): its priority, 0 for a retransmission, its type,
its SEQ and its payload. -/
structure RalinMsg where
  prio : Nat
  type : Nat
  seq : Nat
  payload : List Byte
  deriving DecidableEq, Repr

/-- A frame sent on a Ralin lane, with the marker before it (R336). -/
structure RalinOut where
  lane : Nat
  marker : BitVec 16
  frame : BitVec 4096
  deriving DecidableEq, Repr

/-- A digest entry (R347): VOID, MAC_DROPS, window, the first record's FP and PKT_LEN, the digest, and the tick it was made. -/
structure DigestEntry where
  void : Bool
  drops : Nat
  window : Nat
  firstFp : Nat
  firstLen : Nat
  digest : Nat
  tick : Nat
  deriving DecidableEq, Repr

/-- A port's part in digest comparison (R345 to R348). -/
structure TwnPort where
  /-- The port is aligned (TWN_PORT_STATUS.ALIGNED). -/
  aligned : Bool
  /-- The records of the windows not yet closed, oldest first, and the frames dropped at the MAC in the running window's time. -/
  cur : List (BitVec 128)
  drops : Nat
  /-- The number of the running window. -/
  window : Nat
  /-- Frames dropped at the MAC since reset, and the last 4,096 records, newest first, each with that number when it came (R346). -/
  dropSum : Nat
  recent : List (BitVec 128 × Nat)
  /-- The active is to name the first record of its next window in a REALIGN. -/
  realignDue : Bool
  /-- The record a received REALIGN names, and the records still to be searched. -/
  seek : Option (Nat × Nat × Nat)
  /-- Records until the active sends REALIGN again. -/
  retry : Nat
  /-- The active's closed windows that wait for the standby's entry, and entries of the standby that wait for a close. -/
  mine : List DigestEntry
  peer : List DigestEntry
  /-- Compared windows, newest first: did they mismatch? -/
  history : List Bool
  deriving DecidableEq, Repr

/-- A port that nothing has crossed. -/
def TwnPort.reset : TwnPort :=
  { aligned := false, cur := [], drops := 0, window := 0, dropSum := 0, recent := [], realignDue := false,
    seek := none, retry := 0, mine := [], peer := [], history := [] }

/-- A segment of a copy (R354, R355): its manifest entry, the bytes received, whether it is verified, and its failures. -/
structure Segment where
  seg : Nat
  kind : Nat
  memKind : Nat
  first : Nat
  len : Nat
  crc : Nat
  data : List Byte
  /-- On the standby: verified. On the active: sent whole, its SEG_DONE included. -/
  verified : Bool
  failures : Nat
  /-- A check unit has failed the segment (R441). -/
  failed : Bool
  /-- On the active, for a segment made of records: the records it carries, as they were named at ACCEPT. -/
  keys : List Nat
  deriving DecidableEq, Repr

/-- Twin state that no register shows. -/
structure Twn where
  /-- The tick at which each evidence bit's source last fired (R349). -/
  evidenceAt : SMap Nat
  /-- Mirror stream, sending side: next SEQ, and the frames kept: SEQ, the tick each was made or last sent, the message. -/
  txSeq : Nat
  txKept : List (Nat × Nat × RalinMsg)
  /-- Receiving side: the SEQ expected next, and frames held out of order. -/
  rxSeq : Nat
  rxHeld : SMap (Option (BitVec 4096))
  /-- Records that wait for their apply span, oldest first. -/
  records : List MirrorRec
  /-- A cause of R344 that has occurred: 1 late record, 2 arm refused, 3 mirror failure; SEQ and span A. -/
  mirrorDue : Option (Nat × Nat × Nat)
  /-- Mirroring runs: from ACCEPT of a resync, until the copy ends or the peer leaves (R342, R356). -/
  mirroring : Bool
  /-- A firing action's write is under way: it is not mirrored (R49). -/
  quiet : Bool
  /-- Messages that wait for a frame position of the link, oldest first (R338). -/
  waiting : List RalinMsg
  /-- Frames sent with their markers, oldest first (output). -/
  out : List RalinOut
  /-- Tick and span of the last valid heartbeat, and the peer's mode flags. -/
  hbAt : Nat
  hbSpan : Nat
  peerFlags : Nat
  /-- The line ports' parts in digest comparison. -/
  ports : SMap TwnPort
  /-- A mismatch acted on: port, window, tick (R350). -/
  acted : Option (Nat × Nat × Nat)
  /-- The standby's word for a mismatch that the active has not yet acted on: port, window, word. -/
  earlyWord : Option (Nat × Nat × Nat)
  /-- The tick at which the standby sent its evidence word. -/
  wordAt : Option Nat
  /-- Tick and span at which TAKEOVER was set (R351). -/
  claimAt : Option (Nat × Nat)
  /-- DEMOTE is shown in heartbeats. -/
  demoting : Bool
  /-- Tick since which the fabric interface has not been UP: from reset, since it has never been. -/
  notUpAt : Option Nat
  /-- The last REQUEST's tick, the tick SETTLE was entered and the drain limit read then. -/
  requestAt : Option Nat
  settleAt : Nat
  settleLimit : Nat
  /-- A copy runs, on the active or the standby; its segments; on the active the segment and byte sent next. -/
  copying : Bool
  segments : List Segment
  sendSeg : Nat
  sendOfs : Nat
  /-- A cause of R359 that has occurred: 3 mirror, 4 segment CRC, 5 ABORT received. -/
  abortDue : Option Nat
  /-- The manifest check: entry count and CRC-64 of MANIFEST_END, once received. -/
  manifestEnd : Option (Nat × Nat)
  /-- The output pins: TWIN_ACTIVE_OUT, TWIN_STATE1_OUT and TWIN_STATE0_OUT, and whether they are held (R335). -/
  activeOut : Bool
  stateOut : Nat
  pinsHeld : Bool
  deriving DecidableEq, Repr

/-- TWN at reset. -/
def Twn.reset : Twn :=
  { evidenceAt := [], txSeq := 1, txKept := [], rxSeq := 1, rxHeld := [], records := [], mirrorDue := none, mirroring := false, quiet := false,
    waiting := [], out := [], hbAt := 0, hbSpan := 0, peerFlags := 0, ports := [], acted := none, earlyWord := none, wordAt := none,
    claimAt := none, demoting := false, notUpAt := some 0, requestAt := none, settleAt := 0, settleLimit := 0,
    copying := false, segments := [], sendSeg := 0, sendOfs := 0, abortDue := none, manifestEnd := none, activeOut := false, stateOut := 0,
    pinsHeld := false }


/-! ### CTL -/

/-- One mailbox channel (R374, R375): the sender's staging buffer, the posted message with its length, sequence and
sender generation, the flags of TXSTAT, and the receiver's latched copy. Byte k of a message lies at bits 8k. -/
structure Channel where
  staging : BitVec 512
  msg : BitVec 512
  len : Nat
  seq : BitVec 16
  full : Bool
  collide : Bool
  rxReset : Bool
  gen : Nat
  latched : BitVec 512
  deriving DecidableEq, Repr

/-- An empty channel. -/
def Channel.reset : Channel := ⟨0, 0, 0, 0, false, false, false, 0, 0⟩

/-- What the two RV64IMAC cores of a control pair hold, both the same (R363): program counter, general registers, control and status
registers by number, whether they run in machine mode, and the pair's local SRAM of 4 MiB by byte. -/
structure PairCore where
  pc : BitVec 64
  x : SMap (BitVec 64)
  csr : SMap (BitVec 64)
  machine : Bool
  sram : SMap Byte
  deriving DecidableEq, Repr

/-- A pair as it starts. -/
def PairCore.reset : PairCore := ⟨0, [], [], true, []⟩

/-- What the security core and the power manager core hold, each a single RV32IMC core (R368): program counter, general registers, control
and status registers by number, and its SRAM by byte. Its ROM is `Config.coreRom`. -/
structure SoloCore where
  pc : BitVec 32
  x : SMap (BitVec 32)
  csr : SMap (BitVec 32)
  sram : SMap Byte
  deriving DecidableEq, Repr

/-- A single core as it starts. -/
def SoloCore.reset : SoloCore := ⟨0, [], [], []⟩

/-- Control-complex state that no register shows. -/
structure Ctl where
  /-- The cores of the pairs, by pair (R363). -/
  cores : SMap PairCore
  /-- The security core, 0, and the power manager core, 1 (R368). -/
  solo : SMap SoloCore
  /-- The last complete checkpoint of each pair (R364). -/
  ckpts : SMap PairCore
  /-- The mailbox channels, 0 to 63. -/
  chans : SMap Channel
  /-- Sender generation of each master (R380). -/
  gens : SMap Nat
  /-- The lock registers: 0 free, otherwise the owner's master ID plus 1 (R382). -/
  locks : SMap Nat
  /-- Internal ticks of each pair's recent mismatches, newest first (R366). -/
  mismatches : SMap (List Nat)
  /-- Doorbell interrupts raised, by master, oldest first (output; R377). -/
  bellIrqs : List Nat
  /-- Completer Aborts logged in the advanced error reporting status of a PF, by master 6 or 7 (R376). -/
  aerAborts : SMap Nat
  deriving DecidableEq, Repr

/-- CTL at power-on reset. -/
def Ctl.reset : Ctl :=
  { cores := [], solo := [], ckpts := [], chans := [], gens := [], locks := [], mismatches := [], bellIrqs := [], aerAborts := [] }

/-! ### HST -/

/-- An accepted record that waits in the engine queue (R392, R396): its ring, its accept index, its 64 bytes, and
what a later discard counts. -/
structure QueuedRec where
  ring : Nat
  seq : BitVec 32
  bytes : BitVec 512
  source : Nat
  cls : EvClass
  deriving DecidableEq, Repr

/-- An entry of the MSI-X table (R385, R386): the message's address and data, and the mask bit. The layout is PCI Express's: PRESUMED
(45). -/
structure MsixEntry where
  addr : BitVec 64
  data : BitVec 32
  masked : Bool
  deriving DecidableEq, Repr

/-- A vector that nothing has programmed is masked. -/
def MsixEntry.reset : MsixEntry := { addr := 0, data := 0, masked := true }

/-- Host-interface state that no register shows. -/
structure Hst where
  /-- Accept index A of each ring (R392). -/
  accept : SMap (BitVec 32)
  /-- The engine queue, oldest first. -/
  engineQ : List QueuedRec
  /-- Log records accepted per source in the running blotter interval (R396). -/
  logCount : SMap Nat
  /-- First and last code suppressed per source since its last accepted summary (R402). -/
  suppCodes : SMap (Nat × Nat)
  /-- First and last code suppressed per source since its last summary was made (R402). -/
  suppLater : SMap (Nat × Nat)
  /-- Number of the last blotter interval (R397). -/
  interval : Option Nat
  /-- Per ring: records written since the last interrupt, the tick of the first of them, and whether one is an alarm
  (R394). -/
  unsignalled : SMap (Nat × Nat × Bool)
  /-- Records written in the span of the given internal tick (at most 16 a span). -/
  writesTick : Nat
  writes : Nat
  /-- Interrupts raised: (PF, vector), oldest first (output). -/
  irqs : List (Nat × Nat)
  /-- Telemetry: records copied for export, token bucket in 1/125 bit, frame sequence (R398). -/
  telemQ : List QueuedRec
  telemBucket : Nat
  telemSeq : BitVec 32
  /-- The inject queue served last, by octet (R391). -/
  injectTurn : SMap Nat
  /-- Per inject queue: byte 10 to be written back when the packet that has been fetched is injected (R387). -/
  fetched : SMap (Option Nat)
  /-- BAR4 (R386): the MSI-X table, by 64 × PF + vector, and the pending-bit array; the messages sent, address and data (output). -/
  msix : SMap MsixEntry
  msixPend : SMap Bool
  msgs : List (BitVec 64 × BitVec 32)
  /-- The PFs that are in D3hot; the others are in D0 (R385). -/
  d3hot : SMap Bool
  /-- I3C: dynamic address, read offset, bytes of the last private read, IBI payloads raised (R400, R401). -/
  i3cDa : Option (BitVec 7)
  i3cOff : Nat
  i3cOut : List Byte
  ibi : List Byte
  deriving DecidableEq, Repr

/-- HST at reset. PRESUMED (45): the MSI-X table starts with every vector masked, in power state D0, as PCI Express has it. -/
def Hst.reset : Hst :=
  { accept := [], engineQ := [], logCount := [], suppCodes := [], suppLater := [], interval := none,
    unsignalled := [], writesTick := 0, writes := 0, irqs := [], telemQ := [], telemBucket := 0,
    telemSeq := 0, injectTurn := [], fetched := [], msix := [], msixPend := [], msgs := [], d3hot := [],
    i3cDa := none, i3cOff := 0, i3cOut := [], ibi := [] }

/-! ### PWR -/

/-- Power-manager state that no register shows. -/
structure Pwr where
  /-- Every core monitor reads 0.700 V or more (R407). -/
  clear : Bool
  /-- Non-core monitors that have been reported outside ±5 % (R406). -/
  outside : SMap Bool
  /-- Thermal cap of the pier clocks in MHz (R416). -/
  thermCap : Nat
  /-- The highest reading of each sensor since its register was last read (R416). -/
  tempMax : SMap (Option Int)
  /-- Sensors that read 125 °C or more at the last reading (R417). -/
  hot : List Nat
  /-- After a thermal trip: in M0 until every sensor reads below THROTTLE − 5 °C (R417). -/
  tripHold : Bool
  /-- A thermal trip that has been detected and not yet carried out: the sensor and its reading. -/
  tripDue : Option (Nat × Int)
  /-- CLEAR_FAULTS commands sent, by PWR_PMB_ADDR index (output; R408). -/
  clearFaults : List Nat
  /-- Monitors that have been read since MIN_MV was last read (R407). -/
  railSeen : SMap Bool
  /-- Set points of the AVSBus rails in mV, by rail selector: 0 VDD_FE, 1 VDD_TM, 2 VDD_SRAM (R408, R479). -/
  setPoint : SMap Nat
  deriving DecidableEq, Repr

/-- PWR at reset: the supplies are clear. -/
def Pwr.reset : Pwr :=
  { clear := true, outside := [], thermCap := 1600, tempMax := [], hot := [], tripHold := false, tripDue := none, clearFaults := [],
    railSeen := [], setPoint := [] }

/-! ### SEC -/

/-- The fuse fields that are stored three times (R429). `variantS` is the part variant (R3 to R5): GLB_ID shows it. -/
structure FuseFields where
  /-- The part is an -S part (R3). -/
  variantS : Bool
  /-- The part has a twin interface and a far tier (GLB_FEATURE, R4). -/
  twinAvail : Bool
  farAvail : Bool
  /-- The KEY_REVOKE bits (R429, R430). -/
  revoke : BitVec 6
  /-- The lowest bundle SVN that boots (R429, R430). -/
  fwArb : Nat
  /-- JTAG_LOCK (R431). -/
  jtagLock : Bool
  /-- SHAKE256 digests of the firmware and image public keys. -/
  fwKeys : List (BitVec 512)
  imgKeys : List (BitVec 512)
  deriving DecidableEq, Repr

/-- The fuses as they were sensed last (R429): the majority of each field, the unique device secret, and whether the check is good (R426). -/
structure Fuses extends FuseFields where
  ok : Bool
  uds : BitVec 512
  deriving DecidableEq, Repr

/-- The fuse array (R429): three copies of every field but UDS, and UDS as its error-correcting code reads; none: uncorrectable. -/
structure FuseArray where
  a : FuseFields
  b : FuseFields
  c : FuseFields
  uds : Option (BitVec 512)
  deriving DecidableEq, Repr

/-- A firmware bundle slot that was tried at boot (R426): slot, whether it passed, its SVN, VERSION, key slot, the
cause of its failure (0: none) and the digests of its three components. -/
structure BundleInfo where
  slot : Nat
  passed : Bool
  svn : Nat
  version : BitVec 32
  keySlot : Nat
  cause : Nat
  digests : List (BitVec 512)
  /-- The slot's flash range. -/
  ofs : Nat
  len : Nat
  deriving DecidableEq, Repr

/-- A flash operation in progress (R438). -/
structure FlashOp where
  cmd : Nat
  host : Nat
  ofs : Nat
  len : Nat
  deriving DecidableEq, Repr

/-- An image that failed its signature check (R434): its target, SVN, COMPAT_ID and computed digest. -/
structure FailedImage where
  target : Nat
  svn : Nat
  compat : Nat
  digest : BitVec 512
  deriving DecidableEq, Repr

/-- Reset, boot and security state that no register shows. -/
structure Sec where
  /-- The fuse array, and what its last sensing gave (R429). -/
  array : FuseArray
  fuses : Fuses
  /-- The boot flash, by byte offset; an unlisted byte is erased (0xFF). -/
  flash : SMap Byte
  /-- The bundle that booted, or the last slot tried (R434). -/
  bundle : Option BundleInfo
  /-- A fuse operation in progress: OP and SLOT (R430). -/
  fuseOp : Option (Nat × Nat)
  /-- A flash operation in progress (R438). -/
  flashOp : Option FlashOp
  /-- An attestation in progress: the starting master and bytes 0 to 543 of the report (R433). -/
  attest : Option (Nat × List Byte)
  /-- The reset in force is a power-on reset (straps are sampled at its release, R421). -/
  porReset : Bool
  /-- Held in M0 until every supply monitor has read inside its range (R483). -/
  supplyHold : Bool
  /-- Held in M0 while TEST_EN is high (R471). -/
  testHold : Bool
  /-- The last image that failed its signature check in this boot (R434). -/
  imgFailed : Option FailedImage
  deriving DecidableEq, Repr

/-- The fuse fields of an -F part with nothing revoked. -/
def FuseFields.reset : FuseFields :=
  { variantS := false, twinAvail := true, farAvail := true, revoke := 0, fwArb := 0, jtagLock := false,
    fwKeys := [0, 0], imgKeys := [0, 0, 0, 0] }

/-- Those fuses as sensed. -/
def Fuses.reset : Fuses := { FuseFields.reset with ok := true, uds := 0 }

/-- The array of those fuses: every copy alike. -/
def FuseArray.reset : FuseArray := ⟨FuseFields.reset, FuseFields.reset, FuseFields.reset, some 0⟩

/-- SEC right after reset release. -/
def Sec.reset : Sec :=
  { array := FuseArray.reset, fuses := Fuses.reset, flash := [], bundle := none, fuseOp := none, flashOp := none, attest := none,
    porReset := true, supplyHold := false, testHold := false,
    imgFailed := none }

/-! ### DGN -/

/-- A check unit as its last arm set it (R442): point, polynomial, abort, the expected value and the count as they stood, and at point 3
the segment it measures. -/
structure CheckUnit where
  point : Nat
  poly : Nat
  abort : Bool
  expect : BitVec 64
  count : Nat
  seg : Nat
  /-- The bytes measured so far at points 2, 3, 4 and 6, where the device itself has them. -/
  seen : List Byte
  deriving DecidableEq, Repr

/-- A unit that was never armed. -/
def CheckUnit.reset : CheckUnit := ⟨0, 0, false, 0, 0, 0, []⟩

/-- A logic BIST run in progress (R446, R447): its pier, and whether a pier restore (R102) or a maintenance test (R451) started it. -/
structure BistRun where
  pier : Nat
  restore : Bool
  maint : Bool := false
  deriving DecidableEq, Repr

/-- Diagnostics state that no register shows. -/
structure Dgn where
  /-- The check units, 0 to 7 (R442). -/
  units : SMap CheckUnit
  /-- BIST runs in progress, oldest first. -/
  runs : List BistRun
  /-- A pier whose run was stopped because a serving pier failed, reloading, and the failed pier. -/
  stopped : Option (Nat × Nat)
  /-- Recalibrations in progress, oldest first: fabric lane?, lane (R448). -/
  recal : List (Bool × Nat)
  /-- Causeway directions that have stopped (R449): bit 0 FE to TM, bit 1 TM to FE. -/
  cwStop : BitVec 2
  /-- Consecutive failed replays in each direction (R449). -/
  cwFails : SMap Nat
  /-- Where the patrol stands: words read in this round (R444, R445). -/
  patrolAt : Nat
  /-- The address of the last error that the patrol found in this round, in its order (R444). -/
  patrolKey : Nat
  /-- The maintenance tests in progress (R451): has a pier failed, and have the tests after the logic BIST not begun? -/
  maintBad : Bool
  maintWaits : Bool
  deriving DecidableEq, Repr

/-- DGN at reset. -/
def Dgn.reset : Dgn :=
  { units := [], runs := [], stopped := none, recal := [], cwStop := 0, cwFails := [], patrolAt := 0, patrolKey := 0,
    maintBad := false, maintWaits := false }


/-! ### The whole block -/

/-- The device: every part's state. -/
structure Dev where
  /-- The life-cycle or role mode in force (R19). -/
  mode : Mode
  /-- The registers, by BAR0 offset (a 64-bit register at its low offset); an item shown through a selector lies at
  offset + 2^29 × item. An unlisted register holds its reset value. -/
  regs : SMap (BitVec 64)
  /-- Read latches of R8, by (master × 2^29 + low offset); none: nothing latched. -/
  latches : SMap (Option Word)
  /-- Staged low halves of R8, by (master × 2^29 + low offset). -/
  stages : SMap (Option Word)
  /-- What the last read command returned (model's own record of the answer). -/
  lastRead : Word
  /-- The last access ended in a Completer Abort or a bus error (R376). -/
  lastAbort : Bool
  /-- Event records posted and not yet admitted, oldest first. -/
  posted : List EventRec
  /-- The bytes the device has written to host memory, by address; an unlisted byte was never written by it. -/
  hostMem : SMap (Option Byte)
  /-- The counter the free values are drawn with (the model's own field). -/
  fresh : Nat
  tim : Tim
  img : Img
  lpt : Lpt
  pir : Pir
  tbl : Tbl
  buf : Buf
  que : Que
  shp : Shp
  fab : Fab
  dck : Dck
  twn : Twn
  ctl : Ctl
  hst : Hst
  pwr : Pwr
  sec : Sec
  dgn : Dgn
  deriving DecidableEq, Repr

/-- The device right after reset release (M1, R22). -/
def Dev.reset : Dev :=
  { mode := .m1, regs := [], latches := [], stages := [], lastRead := 0, lastAbort := false, posted := [], hostMem := [], fresh := 0,
    tim := Tim.reset, img := Img.reset, lpt := Lpt.reset, pir := Pir.reset, tbl := Tbl.reset, buf := Buf.reset, que := Que.reset,
    shp := Shp.reset, fab := Fab.reset, dck := Dck.reset, twn := Twn.reset, ctl := Ctl.reset, hst := Hst.reset, pwr := Pwr.reset,
    sec := Sec.reset, dgn := Dgn.reset }

/-- The whole state: the device and the commands that wait, first in, first out. -/
structure State where
  dev : Dev
  pending : List Instr
  deriving DecidableEq, Repr

/-- The machine right after reset: no command waits. -/
def State.reset : State := { dev := Dev.reset, pending := [] }

end Sys2Proof.Machine
end

