-- ==== Sys2Proof/Machine/Ops.lean ====
section
/-! DEFINITION. The named operations every block shares: register fields, counters, event records, the mode, host
memory, byte strings and the arithmetic of spans. -/

namespace Sys2Proof.Machine

/-! ### Register fields -/

/-- The register that a field lies in. -/
def Dev.reg (d : Dev) (key : Nat) : BitVec 64 := d.regs.get regReset key

/-- The device with a whole register replaced. -/
def Dev.setReg (d : Dev) (key : Nat) (v : BitVec 64) : Dev := { d with regs := d.regs.set regReset key v }

/-- The value of a field within its register's value. -/
def Fld.read (f : Fld) (v : BitVec 64) : Nat := (v.toNat >>> f.lo) % 2 ^ f.w

/-- The register's value with a field replaced by `x`, cut to the field's width. -/
def Fld.write (f : Fld) (v : BitVec 64) (x : Nat) : BitVec 64 :=
  let mask := BitVec.ofNat 64 ((2 ^ f.w - 1) <<< f.lo)
  (v &&& ~~~mask) ||| BitVec.ofNat 64 ((x % 2 ^ f.w) <<< f.lo)

/-- The value of a register field. -/
def Dev.rd (d : Dev) (f : Fld) : Nat := f.read (d.reg f.off)

/-- The device with a register field replaced. -/
def Dev.wr (d : Dev) (f : Fld) (x : Nat) : Dev := d.setReg f.off (f.write (d.reg f.off) x)

/-- A field of copy `i` of a register with `n` copies takes a value; there is no copy past the last one. -/
def Dev.wrIx (d : Dev) (f : Fld) (n i x : Nat) : Dev := if i < n then d.wr (f.ix i) x else d

/-- Is the field not 0? -/
def Dev.on (d : Dev) (f : Fld) : Bool := d.rd f != 0

/-- A saturating addition to a counter register. -/
def Dev.bumpN (d : Dev) (f : Fld) (n : Nat) : Dev := d.wr f (min (d.rd f + n) (2 ^ f.w - 1))

/-- One more in a counter register, saturating. -/
def Dev.bump (d : Dev) (f : Fld) : Dev := d.bumpN f 1

/-! ### Free values -/

/-- A free natural number, and the device with the next one still to come. -/
def Dev.takeFree (d : Dev) : Nat × Dev := (Config.freeNat d.fresh, { d with fresh := d.fresh + 1 })

/-- A free choice between two behaviours. -/
def Dev.takeFlip (d : Dev) : Bool × Dev := (Config.freeBool d.fresh, { d with fresh := d.fresh + 1 })

/-! ### Bytes -/

/-- The little-endian bytes of a number, `n` of them. -/
def leBytes : Nat → Nat → List Byte
  | 0, _ => []
  | n + 1, v => BitVec.ofNat 8 v :: leBytes n (v / 256)

/-- The number that little-endian bytes spell. -/
def leNat : List Byte → Nat
  | [] => 0
  | b :: t => b.toNat + 256 * leNat t

/-- The number that big-endian bytes spell. -/
def beNat (l : List Byte) : Nat := l.foldl (fun a b => a * 256 + b.toNat) 0

/-- `n` little-endian bytes from byte `k` of a wide word. -/
def byteField {w : Nat} (x : BitVec w) (k n : Nat) : Nat := (x.toNat >>> (8 * k)) % 2 ^ (8 * n)

/-- The bits [hi:lo] of a wide word, as a number. -/
def bits {w : Nat} (x : BitVec w) (hi lo : Nat) : Nat := (x.toNat >>> lo) % 2 ^ (hi + 1 - lo)

/-- The wide word with bits [hi:lo] replaced by `v`. -/
def setBits {w : Nat} (x : BitVec w) (hi lo v : Nat) : BitVec w :=
  let mask := BitVec.ofNat w ((2 ^ (hi + 1 - lo) - 1) <<< lo)
  (x &&& ~~~mask) ||| BitVec.ofNat w ((v % 2 ^ (hi + 1 - lo)) <<< lo)

/-- Is bit `i` of the word set? -/
def bitOn {w : Nat} (x : BitVec w) (i : Nat) : Bool := x.getLsbD i

/-- The word with bit `i` set or cleared. -/
def putBit {w : Nat} (x : BitVec w) (i : Nat) (b : Bool) : BitVec w := setBits x i i (if b then 1 else 0)

/-- `n` bytes of a list from byte `k`, zeros past its end. -/
def bytesAt (l : List Byte) (k n : Nat) : List Byte :=
  let t := (l.drop k).take n
  t ++ List.replicate (n - t.length) 0

/-- A number from fields (byte offset, byte count, value). -/
def packBytes (fs : List (Nat × Nat × Nat)) : Nat :=
  fs.foldl (fun a f => a + ((f.2.2 % 2 ^ (8 * f.2.1)) <<< (8 * f.1))) 0

/-! ### Spans -/

/-- How many spans `t` lies ahead of `now`, modulo 2^48 (R32). -/
def spanAhead (t now : Nat) : Nat := (t + 2 ^ 48 - now % 2 ^ 48) % 2 ^ 48

/-- The span `t` is not in the past: it lies less than 2^47 spans ahead (R32). -/
def spanFuture (t now : Nat) : Bool := spanAhead t now < 2 ^ 47

/-- The span `t` lies at least `k` spans ahead of `now`. -/
def spanAtLeast (t now k : Nat) : Bool := spanFuture t now && k ≤ spanAhead t now

/-- The span `t` has come (it is `now` or in the past). -/
def spanReached (t now : Nat) : Bool := t % 2 ^ 48 == now % 2 ^ 48 || !spanFuture t now

/-- `n` spans after `t`. -/
def spanAdd (t n : Nat) : Nat := (t + n) % 2 ^ 48

/-! ### Time -/

/-- TIM_STATUS.LOCKED. -/
def Dev.locked (d : Dev) : Bool := d.on F.TIM_STATUS_LOCKED

/-- Is the STC held (R36, R488, R489)? Fabric-timed while not locked; self-timed while the PLL is not locked. -/
def Dev.stcHeld (d : Dev) : Bool := !d.tim.pllLocked || (d.rd F.TIM_CTRL_SRC == 0 && !d.locked)

/-- The span that periodic work counts in: the STC's, and while it is held the STC's last span continued by the internal span tick
(R36, R46). -/
def Dev.runSpan (d : Dev) : Nat := spanAdd d.tim.span (d.tim.tick - d.tim.stcTick)

/-- The slot that periodic work counts in: the internal span tick's while the STC is held (R36). -/
def Dev.runSlot (d : Dev) : Nat := if d.stcHeld then d.tim.tickSlot else d.tim.slot

/-- The TIME field of a record (R393): span, slot, and bit 63 clear while the STC is held. -/
def Dev.timeField (d : Dev) : BitVec 64 :=
  BitVec.ofNat 64 (d.tim.span + (d.tim.slot <<< 48) + (if d.stcHeld then 0 else 1 <<< 63))

/-! ### Events -/

/-- Post an event record: code and class from its descriptor, the source instance, the payload as fields (byte
offset in the record, bytes, value); unlisted bytes are 0 (R393). It waits in `posted` for its admission. -/
def Dev.postInst (d : Dev) (e : EvDesc) (inst : Nat) (pl : List (Nat × Nat × Nat)) : Dev :=
  { d with posted := d.posted ++
    [{ code := e.code, cls := e.cls, inst := BitVec.ofNat 64 inst, time := d.timeField,
       payload := BitVec.ofNat 320 (packBytes (pl.map (fun f => (f.1 - 24, f.2.1, f.2.2)))) }] }

/-- Post an event. The source instance of a port's or pier's event (blocks 4 and 5) is its number, which byte 24 gives; another block
has one instance, 0 (R395). -/
def Dev.post (d : Dev) (e : EvDesc) (pl : List (Nat × Nat × Nat)) : Dev :=
  d.postInst e (if e.code / 256 = 4 ∨ e.code / 256 = 5 then ((pl.find? fun f => f.1 == 24).map (·.2.2)).getD 0 else 0) pl

/-! ### Conditions -/

/-- A step that acts only when its condition holds; otherwise nothing changes. -/
def Dev.when (d : Dev) (c : Bool) (f : Dev → Dev) : Dev := if c then f d else d

/-- Run a step for each item of a list, in order. -/
def Dev.each {α : Type} (d : Dev) (l : List α) (f : α → Dev → Dev) : Dev := l.foldl (fun a x => f x a) d

/-! ### Check units (R442) -/

/-- A check unit as its last arm set it. -/
def Dev.unit (d : Dev) (u : Nat) : CheckUnit := d.dgn.units.get (fun _ => CheckUnit.reset) u

/-- A check unit changes. -/
def Dev.setUnit (d : Dev) (u : Nat) (x : CheckUnit) : Dev :=
  { d with dgn := { d.dgn with units := d.dgn.units.set (fun _ => CheckUnit.reset) u x } }

/-- The state of a unit: 0 IDLE, 1 ARMED, 2 RUNNING, 3 MATCH, 4 MISMATCH, 5 INCOMPLETE. -/
def Dev.unitState (d : Dev) (u : Nat) : Nat := d.rd (F.DGN_CU_STATUS_STATE.ix u)

/-- A stream begins at a snoop point: the units armed there measure it. `seg` is the segment at point 3; at points 3, 4 and 6 `len` is the
stream's length. -/
def Dev.streamBegins (d : Dev) (point seg len : Nat) : Dev :=
  d.each (List.range 8) fun u d =>
    let x := d.unit u
    if d.unitState u = 1 ∧ x.point = point then
      (d.setUnit u { x with seg := seg, count := if point = 3 ∨ point = 4 ∨ point = 6 then len else x.count }).wr (F.DGN_CU_STATUS_STATE.ix u) 2
    else d

/-- Bytes placed in a stream at an offset; a stream holds `n`. -/
def placeBytes (was : List Byte) (ofs n : Nat) (l : List Byte) : List Byte :=
  ((was.take ofs ++ List.replicate (ofs - was.length) 0 ++ l) ++ was.drop (ofs + l.length)).take n

/-- Bytes of a stream pass a snoop point, at an offset or after those before: the units that measure it see them. -/
def Dev.streamFeed (d : Dev) (point seg : Nat) (ofs : Option Nat) (l : List Byte) : Dev :=
  d.each (List.range 8) fun u d =>
    let x := d.unit u
    if d.unitState u = 2 ∧ x.point = point ∧ x.seg = seg then
      d.setUnit u { x with seen := placeBytes x.seen (ofs.getD x.seen.length) x.count l }
    else d

/-- Has a direction of the causeway stopped (R449): 0 FE to TM, 1 TM to FE? -/
def Dev.cwStopped (d : Dev) (dir : Nat) : Bool := bitOn d.dgn.cwStop dir

/-! ### Host memory -/

/-- One byte written to host memory. -/
def hostPut (m : SMap (Option Byte)) (a : Nat) (b : Byte) : SMap (Option Byte) :=
  m.set (fun _ => none) (a % 2 ^ 64) (some b)

/-- Bytes written to host memory from address `a` up. -/
def hostPutAll : SMap (Option Byte) → Nat → List Byte → SMap (Option Byte)
  | m, _, [] => m
  | m, a, b :: t => hostPutAll (hostPut m a b) (a + 1) t

/-- A DMA write of bytes to host memory. -/
def Dev.dma (d : Dev) (addr : Nat) (l : List Byte) : Dev := { d with hostMem := hostPutAll d.hostMem addr l }

/-! ### Interrupts of the host (R385, R386) -/

/-- The entry of a vector in the MSI-X table of a PF. -/
def Dev.msixEntry (d : Dev) (pf v : Nat) : MsixEntry := d.hst.msix.get (fun _ => MsixEntry.reset) (64 * pf + v)

/-- A vector of a PF is raised: its message is sent, or its pending bit is set while it is masked or the PF is in D3hot. That a masked
vector pends is PCI Express's rule: PRESUMED (45). -/
def Dev.raiseVector (d : Dev) (pf v : Nat) : Dev :=
  let e := d.msixEntry pf v
  let quiet := e.masked || d.hst.d3hot.get (fun _ => false) pf
  { d with hst := { d.hst with
    irqs := d.hst.irqs ++ [(pf, v)],
    msgs := if quiet then d.hst.msgs else d.hst.msgs ++ [(e.addr, e.data)],
    msixPend := if quiet then d.hst.msixPend.set (fun _ => false) (64 * pf + v) true else d.hst.msixPend } }

end Sys2Proof.Machine
end

