-- ==== Sys2Proof/Machine/Modes.lean ====
section
/-! DEFINITION. The modes (R19 to R24): which apply, what GLB_MODE and GLB_MODE_FLAGS show, and the one operation that
changes the life-cycle or role mode. -/

namespace Sys2Proof.Machine

/-- The deepest shed step in force (R413). -/
def Dev.shed (d : Dev) : Nat := d.rd F.PWR_STATUS_SHED_STEP

/-- M7 applies: a walk is in progress, with M3, M4 or M5 (R20). -/
def Dev.m7 (d : Dev) : Bool := d.img.walkOn && (d.mode == .m3 || d.mode == .m4 || d.mode == .m5)

/-- M8 applies: a shed step is in force (R413), in M1 to M11. -/
def Dev.m8 (d : Dev) : Bool := d.shed != 0 && d.mode != .m0

/-- GLB_MODE: the highest code among the modes that apply (R21). -/
def Dev.glbMode (d : Dev) : Nat :=
  max d.mode.code (max (if d.m7 then 7 else 0) (if d.m8 then 8 else 0))

/-- The mode bits of GLB_MODE_FLAGS: bit n set when mode Mn applies; M0 is never readable (R21). -/
def Dev.modeBits (d : Dev) : Nat :=
  (if d.mode == .m0 then 0 else 1 <<< d.mode.code) + (if d.m7 then 1 <<< 7 else 0) + (if d.m8 then 1 <<< 8 else 0)

/-- The walk is suspended by shedding: M7 applies at step S2 or deeper (R24, R97). -/
def Dev.walkSusp (d : Dev) : Bool := d.m7 && d.rd F.IMG_WALK_STATUS_STATE == 2

/-- GLB_MODE_FLAGS (R21). -/
def Dev.modeFlags (d : Dev) : Nat :=
  d.modeBits + (if d.walkSusp then 1 <<< 16 else 0) + (d.shed <<< 17) + (d.glbMode <<< 28)

/-- Change the life-cycle or role mode. M11 is left only by a reset (R437), and M10 only by a reset or to M11 (R22); no
mode but a reset's own follows M0. Leaving M3, M4 and M5 ends M7 (R20). -/
def Dev.setMode (d : Dev) (m : Mode) : Dev :=
  if d.mode = .m0 ∨ d.mode = .m11 ∨ m = .m0 then d
  else if d.mode = .m10 ∧ m ≠ .m11 then d
  else { d with mode := m }

/-- Is traffic forwarded: M3, M4 or M5, and no entry to M10 has begun (the data path column of the mode table, R23)? -/
def Dev.forwarding (d : Dev) : Bool := (d.mode == .m3 || d.mode == .m4 || d.mode == .m5) && !d.on F.GLB_CTRL_MAINT_REQ

/-- The modes whose data path is off (the data path column of the mode table). -/
def Dev.pathOff (d : Dev) : Bool := d.mode == .m0 || d.mode == .m1 || d.mode == .m2 || d.mode == .m10 || d.mode == .m11

/-- Line reception and transmission are stopped: entry to M10, M10 and M11 (R23, R436). -/
def Dev.lineStopped (d : Dev) : Bool := d.on F.GLB_CTRL_MAINT_REQ || d.mode == .m10 || d.mode == .m11 || d.mode == .m0

/-- The device is silent to the outside: it sends its cells with an inverted HCRC and idle on its lines, in M6 and M9 (R352). -/
def Dev.silent (d : Dev) : Bool := d.mode == .m6 || d.mode == .m9

/-- Post GLB_MODE_CHANGE when the set of modes that apply differs from the one before: one event, with the final mode
and flags (R31, "When events coincide"). -/
def Dev.noteMode (before after : Dev) : Dev :=
  if before.modeBits = after.modeBits then after
  else after.post Ev.GLB_MODE_CHANGE [(24, 1, before.glbMode), (25, 1, after.glbMode), (28, 4, after.modeFlags)]

/-- Run a step and post the change of mode it makes, if it makes one. -/
def Dev.withMode (d : Dev) (f : Dev → Dev) : Dev := Dev.noteMode d (f d)

end Sys2Proof.Machine
end

