-- ==== Sys2Proof/Machine/Access.lean ====
section
/-! DEFINITION. Which accesses reach the device: the master's own path (R28, R29, R431), the windows that answer (R421)
and the writes that Quarantine lets through (R436). -/

namespace Sys2Proof.Machine

/-- Is power domain `n` on (R403)? -/
def Dev.domainOn (d : Dev) (n : Nat) : Bool := (d.rd (F.PWR_DOM_STATUS.ix (n / 32)) >>> (n % 32)) % 2 == 1

/-- The state of control pair `p`: 0 OFF, 1 RUNNING, 2 HALTED, 3 RESTARTING, 4 FAILED. -/
def Dev.pairState (d : Dev) (p : Nat) : Nat := d.rd (F.CTL_PAIR_STATUS_STATE.ix p)

/-- Does a pair run the service: its pair is RUNNING? -/
def Dev.serviceRuns (d : Dev) (f : Fld) : Bool := d.pairState (d.rd f) == 1

/-- Can the master issue an access at all? A control pair only while RUNNING (R29), the host functions only while the
PCIe data link is up (R491), JTAG only while JTAG_LOCK = 0 (R431). In reset nothing is accessed, but for the security core and the power
manager core, which SYSRST_N leaves running (R368). -/
def Dev.issues (d : Dev) (m : Nat) : Bool :=
  (d.mode != .m0 || (m ≤ 1 && !d.sec.porReset)) &&
  (if m ≥ 2 ∧ m ≤ 5 then d.pairState (m - 2) == 1
   else if m = 6 ∨ m = 7 then d.on F.HST_STATUS_DL_UP
   else if m = 9 then !d.sec.fuses.jtagLock
   else true)

/-! ### Halves of 64-bit registers (R8) -/

/-- A master's key of a 64-bit register, for its read latch and its write staging. -/
def halfKey (m off : Nat) : Nat := m * 0x20000000 + off

/-- The low half that a master stages. -/
def Dev.stageLow (d : Dev) (m off : Nat) (data : Word) : Dev :=
  { d with stages := d.stages.set (fun _ => none) (halfKey m off) (some data) }

/-- The staged low half, or `now` where the master has staged none. -/
def Dev.stagedLow (d : Dev) (m off now : Nat) : Nat :=
  match d.stages.get (fun _ => none) (halfKey m off) with
  | some w => w.toNat
  | none => now % 2 ^ 32

/-- The master's staging of a register is used up by a commit. -/
def Dev.unstage (d : Dev) (m off : Nat) : Dev := { d with stages := d.stages.set (fun _ => none) (halfKey m off) none }

/-- Before the boot phase START only the GLB, SEC, PWR and HST windows answer (R421). -/
def Dev.windowAnswers (d : Dev) (off : Nat) : Bool :=
  (4 ≤ d.rd F.SEC_BOOT_STATUS_PHASE && d.rd F.SEC_BOOT_STATUS_PHASE ≤ 6) || d.mode == .m11 ||
  off < 0x1000000 || (0x14000000 ≤ off && off < 0x17000000)

/-- The host writes that M11 does not ignore: SEC_ATT, SEC_FLASH and SEC_CTRL registers, the HST ring registers and
GLB_SCRATCH0 to 3 (R436). -/
def quarantineWrite (off : Nat) : Bool :=
  (0x16000100 ≤ off && off < 0x16000124) || (0x16000200 ≤ off && off < 0x16000214) || off == 0x16000008 ||
  (0x14000100 ≤ off && off < 0x14000300) || (0x60 ≤ off && off < 0x70)

/-- Does an access of master `m` get as far as the offset: master 8 never reaches the CTL window (R372)? -/
def Dev.reaches (d : Dev) (m off : Nat) : Bool := d.issues m && !(m == 8 && 0x13000000 ≤ off && off < 0x14000000)

/-- Does a write by master `m` at BAR0 offset `off` reach its register? -/
def Dev.writes (d : Dev) (m off : Nat) : Bool :=
  d.reaches m off && d.windowAnswers off && (d.mode != .m11 || !(m == 6 || m == 7) || quarantineWrite off)

/-- Does a read by master `m` at BAR0 offset `off` reach its register? -/
def Dev.reads (d : Dev) (m off : Nat) : Bool := d.reaches m off && d.windowAnswers off

/-- A new access has not ended in an abort (R11, R376). -/
def Dev.noAbort (d : Dev) : Dev := { d with lastAbort := false }

/-- A write command's effect, if the write reaches its register; a write that does not reach it completes without an error response
(R11). -/
def Dev.onWrite (d : Dev) (m off : Nat) (f : Dev → Dev) : Dev := if d.writes m off then f d.noAbort else d.noAbort

/-- The answer of a read, recorded. -/
def Dev.answer (d : Dev) (v : Nat) : Dev := { d with lastRead := BitVec.ofNat 32 v, lastAbort := false }

/-- A read command's effect, if the read reaches its register; otherwise it returns 0. -/
def Dev.onRead (d : Dev) (m off : Nat) (f : Dev → Dev) : Dev := if d.reads m off then f d else d.answer 0

/-- A write command by master `m` on the register at BAR0 offset `off`, with the effect `f`. -/
def onReg (s : State) (m off : Nat) (f : Dev → Dev) : Host.Outcome State Fault Refusal :=
  .next { s with dev := s.dev.onWrite m off f }

end Sys2Proof.Machine
end

