-- ==== Sys2Proof/Machine/Ctl.lean ====
section
/-! DEFINITION. The control complex: lockstep pairs, firmware services, mailboxes, doorbells and locks (R363 to R384). -/

namespace Sys2Proof.Machine

/-! ### Accessors -/

/-- Mailbox channel `n`. -/
def Dev.chan (d : Dev) (n : Nat) : Channel := d.ctl.chans.get (fun _ => Channel.reset) n

/-- The device with channel `n` replaced. -/
def Dev.setChan (d : Dev) (n : Nat) (c : Channel) : Dev :=
  { d with ctl := { d.ctl with chans := d.ctl.chans.set (fun _ => Channel.reset) n c } }

/-- The sender generation of master `m` (R380). -/
def Dev.gen (d : Dev) (m : Nat) : Nat := d.ctl.gens.get (fun _ => 0) m

/-- Lock `n`: 0 free, otherwise its owner's master ID plus 1. -/
def Dev.lock (d : Dev) (n : Nat) : Nat := d.ctl.locks.get (fun _ => 0) n

/-- The device with lock `n` set. -/
def Dev.setLock (d : Dev) (n v : Nat) : Dev :=
  { d with ctl := { d.ctl with locks := d.ctl.locks.set (fun _ => 0) n v } }

/-- CTL_BIND_LOCK.LOCK. -/
def Dev.bindLocked (d : Dev) : Bool := d.on F.CTL_BIND_LOCK_LOCK

/-- The sender that channel `n` is bound to. -/
def Dev.mbxSender (d : Dev) (n : Nat) : Nat := d.rd (F.CTL_MBX_BIND_SENDER.ix n)
/-- The receiver that channel `n` is bound to. -/
def Dev.mbxReceiver (d : Dev) (n : Nat) : Nat := d.rd (F.CTL_MBX_BIND_RECEIVER.ix n)
/-- Is channel `n` bound? -/
def Dev.mbxValid (d : Dev) (n : Nat) : Bool := d.on (F.CTL_MBX_BIND_VALID.ix n)

/-! ### Doorbells (R377) -/

/-- Record an interrupt of master `m`: MSI-X vector 1 for the PFs, the machine external interrupt for a core. -/
def Dev.bellIrq (d : Dev) (m : Nat) : Dev :=
  let d1 := { d with ctl := { d.ctl with bellIrqs := d.ctl.bellIrqs ++ [m] } }
  if m = 6 ∨ m = 7 then d1.raiseVector (m - 6) 1 else d1

/-- Set doorbell bit `b` of master `m`: it interrupts when the bit becomes set while unmasked. The bits of master 8 are
never set. -/
def Dev.ring (d : Dev) (m b : Nat) : Dev :=
  if m = 8 then d else
  let bells := BitVec.ofNat 32 (d.rd (F.CTL_BELL_BITS.ix m))
  let was := bitOn bells b
  let d1 := d.wr (F.CTL_BELL_BITS.ix m) (putBit bells b true).toNat
  if !was && !bitOn (BitVec.ofNat 32 (d.rd (F.CTL_BELL_MASK_BITS.ix m))) b then d1.bellIrq m else d1

/-- BELL_CLEAR: master m clears its own doorbell bits; other masters' writes are ignored (R11). -/
def bellClear (m target : Nat) (data : Word) (d : Dev) : Dev :=
  if m = target then d.wr (F.CTL_BELL_BITS.ix target) ((BitVec.ofNat 32 (d.rd (F.CTL_BELL_BITS.ix target))) &&& ~~~data).toNat
  else d

/-- BELL_MASK_WRITE: master m sets its own mask; clearing the mask bit of a set doorbell interrupts it. -/
def bellMaskWrite (m target : Nat) (data : Word) (d : Dev) : Dev :=
  if m = target then
    let old := BitVec.ofNat 32 (d.rd (F.CTL_BELL_MASK_BITS.ix target))
    let bells := BitVec.ofNat 32 (d.rd (F.CTL_BELL_BITS.ix target))
    let d1 := d.wr (F.CTL_BELL_MASK_BITS.ix target) data.toNat
    if old &&& ~~~data &&& bells != 0 then d1.bellIrq target else d1
  else d

/-! ### Mailboxes (R372 to R376) -/

/-- The domain of a receiving master is on (R376): a pair's own domain, the PCIe domain for the PFs, always-on for the
others. -/
def Dev.masterPowered (d : Dev) (m : Nat) : Bool :=
  if m ≥ 2 ∧ m ≤ 5 then d.domainOn (135 + (m - 2))
  else if m = 6 ∨ m = 7 then d.domainOn 143
  else true

/-- How an access to a channel ends (R376). -/
inductive MbxCheck where
  | ok | denied | pwrOff
  deriving DecidableEq, Repr

/-- The checks of R376 for an access by master `m`, allowed to the bound sender when `toSender`, to the bound receiver when
`toReceiver`; master 9 may read every register. -/
def Dev.mbxCheck (d : Dev) (n m : Nat) (toSender toReceiver isRead : Bool) : MbxCheck :=
  let bound := d.mbxValid n &&
    ((toSender && m == d.mbxSender n) || (toReceiver && m == d.mbxReceiver n))
  if !bound && !(m == 9 && isRead) then .denied
  else if !d.masterPowered (d.mbxReceiver n) then .pwrOff
  else .ok

/-- A failed channel access: no state changes but the record of the abort, and an event is posted (R376). -/
def Dev.mbxFail (d : Dev) (c : MbxCheck) (n m ofs : Nat) (isWrite : Bool) : Dev :=
  let d1 := { d with lastAbort := true, lastRead := if isWrite then d.lastRead else 0 }
  let d2 := if isWrite && (m == 6 || m == 7) then
      { d1 with ctl := { d1.ctl with aerAborts := d1.ctl.aerAborts.upd (fun _ => 0) m (· + 1) } } else d1
  match c with
  | .denied => d2.post Ev.CTL_MBX_DENIED [(24, 1, n), (25, 1, m), (26, 1, if isWrite then 1 else 0), (28, 2, ofs)]
  | .pwrOff => d2.post Ev.CTL_MBX_PWR_OFF
      [(24, 1, n), (25, 1, m), (26, 1, if isWrite then 1 else 0), (27, 1, d.mbxReceiver n)]
  | .ok => d

/-- A checked access to a channel's registers: the effect if the checks pass, the failure otherwise. -/
def Dev.mbxAccess (d : Dev) (n m ofs : Nat) (toSender toReceiver isWrite : Bool) (f : Dev → Dev) : Dev :=
  match d.mbxCheck n m toSender toReceiver (!isWrite) with
  | .ok => f d
  | c => d.mbxFail c n m ofs isWrite

/-- MBX_DATA_WRITE: the sender's word goes to the staging buffer (R374). -/
def mbxDataWrite (m n w : Nat) (data : Word) (d : Dev) : Dev :=
  d.mbxAccess n m (4 * w) true false true fun d =>
    let c := d.chan n
    d.setChan n { c with staging := setBits c.staging (32 * w + 31) (32 * w) data.toNat }

/-- A post on channel `n` with LEN `len` (R374): the message is copied from the staging buffer, SEQ rises, FULL is set,
the doorbell rings; a FULL channel is overwritten and COLLIDE set. -/
def Dev.mbxPostCore (d : Dev) (n len : Nat) : Dev :=
  let c := d.chan n
  let c1 := { c with msg := c.staging, len := min len 64, seq := c.seq + 1, full := true,
                     collide := c.collide || c.full, gen := d.gen (d.mbxSender n) }
  let d1 := ((d.setChan n c1).bump F.CTL_MBX_POSTS).when c.full (·.bump F.CTL_MBX_COLLIDES)
  d1.ring (d.mbxReceiver n) (d.rd (F.CTL_MBX_BIND_BELL.ix n))

/-- MBX_POST: a write of CTL_MBX_POST by the sender; LEN 0 is ignored. -/
def mbxPost (m n : Nat) (data : Word) (d : Dev) : Dev :=
  d.mbxAccess n m 0x40 true false true fun d =>
    let len := data.toNat % 128
    if len = 0 then d else d.mbxPostCore n len

/-- CTL_MBX_RXSTAT of a channel: SEQ, FULL, ORPHAN (R380), LEN. -/
def Dev.rxStat (d : Dev) (n : Nat) : Nat :=
  let c := d.chan n
  c.len + (if c.full && c.gen != d.gen (d.mbxSender n) then 1 <<< 14 else 0) + (if c.full then 1 <<< 15 else 0) +
    (c.seq.toNat <<< 16)

/-- CTL_MBX_TXSTAT of a channel. -/
def Dev.txStat (d : Dev) (n : Nat) : Nat :=
  let c := d.chan n
  (if c.full then 1 else 0) + (if c.collide then 2 else 0) + (if c.rxReset then 4 else 0) + (c.seq.toNat <<< 16)

/-- MBX_RXSTAT_READ: the receiver's read latches a copy of the message; master 9 latches nothing (R375, R376). -/
def mbxRxstatRead (m n : Nat) (d : Dev) : Dev :=
  d.mbxAccess n m 0x48 false true false fun d =>
    let c := d.chan n
    let d1 := if m = 9 then d else d.setChan n { c with latched := c.msg }
    d1.answer (d.rxStat n)

/-- A read of CTL_MBX_DATA word `w`: the latched copy (R375). -/
def mbxDataRead (m n w : Nat) (d : Dev) : Dev :=
  d.mbxAccess n m (4 * w) false true false fun d => d.answer (bits (d.chan n).latched (32 * w + 31) (32 * w))

/-- A read of CTL_MBX_TXSTAT, by the sender or the receiver. -/
def mbxTxstatRead (m n : Nat) (d : Dev) : Dev :=
  d.mbxAccess n m 0x44 true true false fun d => d.answer (d.txStat n)

/-- A write of CTL_MBX_TXSTAT: the sender clears COLLIDE and RXRESET by writing 1. -/
def mbxTxstatWrite (m n : Nat) (data : Word) (d : Dev) : Dev :=
  d.mbxAccess n m 0x44 true false true fun d =>
    let c := d.chan n
    d.setChan n { c with collide := c.collide && !bitOn data 1, rxReset := c.rxReset && !bitOn data 2 }

/-- MBX_ACK: FULL clears when the SEQ written is the channel's current SEQ (R375). -/
def mbxAck (m n : Nat) (data : Word) (d : Dev) : Dev :=
  d.mbxAccess n m 0x4C false true true fun d =>
    let c := d.chan n
    if data.toNat % 65536 = c.seq.toNat then d.setChan n { c with full := false } else d

/-- Is a binding refused (R372): it names master 8 or 10 to 15, or one master twice? -/
def bindRefused (data : Word) : Bool :=
  let s := bits data 3 0
  let r := bits data 7 4
  s == 8 || s ≥ 10 || r == 8 || r ≥ 10 || s == r

/-- MBX_BIND_WRITE: master 0 sets a binding while LOCK = 0; other masters' writes and writes after LOCK are ignored. -/
def mbxBindWrite (m n : Nat) (data : Word) (d : Dev) : Dev :=
  if m ≠ 0 ∨ d.bindLocked = true then d
  else if bindRefused data then
    d.post Ev.CTL_BIND_REFUSED [(24, 1, n), (25, 1, bits data 3 0), (26, 1, bits data 7 4)]
  else d.setReg (F.CTL_MBX_BIND.ix n).off (BitVec.ofNat 64 (data.toNat &&& 0x80001FFF))

/-- BIND_LOCK_SET: master 0 freezes the binding table. -/
def bindLockSet (m : Nat) (d : Dev) : Dev := if m = 0 then d.wr F.CTL_BIND_LOCK_LOCK 1 else d

/-- The default binding of channel `n` that the boot firmware writes (R373): (sender, receiver, doorbell bit). -/
def defaultBinding (n : Nat) : Option (Nat × Nat × Nat) :=
  if n < 4 then some (6, 2 + n, 0)
  else if n < 8 then some (n - 4 + 2, 6, n - 4)
  else if n < 12 then some (7, 2 + (n - 8), 1)
  else if n < 16 then some (2 + (n - 12), 7, n - 12)
  else if n = 16 then some (6, 0, 0)
  else if n = 17 then some (0, 6, 4)
  else if n = 18 then some (6, 1, 0)
  else if n = 19 then some (1, 6, 5)
  else if n < 32 then
    let k := n - 20
    let s := k / 3
    let r := if k % 3 < s then k % 3 else k % 3 + 1
    some (2 + s, 2 + r, 2)
  else if n < 36 then some (2 + (n - 32), 0, n - 31)
  else if n < 40 then some (0, 2 + (n - 36), 3)
  else if n < 44 then some (2 + (n - 40), 1, n - 39)
  else if n < 48 then some (1, 2 + (n - 44), 4)
  else none

/-- The boot firmware's binding of every channel (R373), written while LOCK = 0. -/
def Dev.bindDefaults (d : Dev) : Dev :=
  if d.bindLocked then d else
  d.each (List.range 64) fun n d =>
    match defaultBinding n with
    | some (s, r, b) => d.setReg (F.CTL_MBX_BIND.ix n).off (BitVec.ofNat 64 (s + (r <<< 4) + (b <<< 8) + (1 <<< 31)))
    | none => d

/-! ### Locks (R382, R383) -/

/-- LOCK_READ: the reads of one lock in one cycle. A free lock goes to the lowest reading master; more than one reader
counts a contest. The answer recorded is the one of the first listed reader. -/
def lockRead (readers : List Nat) (n : Nat) (d : Dev) : Dev :=
  match readers.filter (fun m => d.reads m (F.CTL_LOCK.ix n).off) with
  | [] => { d with lastRead := 0 }
  | r :: rs =>
    if d.lock n = 0 then
      let w := (r :: rs).foldl min r
      let d1 := ((d.setLock n (w + 1)).bump F.CTL_LOCK_ACQUIRES).when (rs.any (· != r)) (·.bump F.CTL_LOCK_CONTESTS)
      d1.answer (if r = w then 0 else w + 1)
    else d.answer (d.lock n)

/-- LOCK_WRITE: a write of 0 by the owner releases the lock; any other write posts CTL_LOCK_BAD_RELEASE. -/
def lockWrite (m n : Nat) (data : Word) (d : Dev) : Dev :=
  if data = 0 ∧ d.lock n = m + 1 then d.setLock n 0
  else d.post Ev.CTL_LOCK_BAD_RELEASE [(24, 1, n), (25, 1, m), (26, 1, d.lock n), (28, 4, data.toNat)]

/-! ### Resets seen by mailboxes and locks (R378 to R381) -/

/-- The receiver side of master `m`'s reset (R379): its FULL channels are emptied, its doorbell bits clear. -/
def Dev.receiverReset (d : Dev) (m : Nat) : Dev :=
  let hit := (List.range 64).filter fun n => d.mbxValid n && d.mbxReceiver n == m && (d.chan n).full
  let d1 := d.each hit fun n d => d.setChan n { d.chan n with full := false, rxReset := true }
  let d2 := (d1.wr (F.CTL_BELL_BITS.ix m) 0).bumpN F.CTL_MBX_DISCARDS hit.length
  if hit.isEmpty then d2 else d2.post Ev.CTL_MBX_DISCARD [(24, 1, m), (25, 1, hit.length)]

/-- The sender side of master `m`'s reset (R380): its generation rises and its staging buffers clear. -/
def Dev.senderReset (d : Dev) (m : Nat) : Dev :=
  let mine := (List.range 64).filter fun n => d.mbxValid n && d.mbxSender n == m
  let d1 := d.each mine fun n d => d.setChan n { d.chan n with staging := 0 }
  { d1 with ctl := { d1.ctl with gens := d1.ctl.gens.upd (fun _ => 0) m (· + 1) } }

/-- The locks of master `m` are released, and CTL_LOCK_FREED is posted with their count, 0 included (R381). -/
def Dev.releaseLocks (d : Dev) (m : Nat) : Dev :=
  let mine := (List.range 64).filter fun n => d.lock n == m + 1
  let d1 := d.each mine fun n d => d.setLock n 0
  d1.post Ev.CTL_LOCK_FREED [(24, 1, m), (25, 1, mine.length)]

/-- A reset of master `m` (R378). -/
def Dev.masterReset (d : Dev) (m : Nat) : Dev := ((d.receiverReset m).senderReset m).releaseLocks m

/-! ### Lockstep pairs (R364 to R367) -/

/-- The local SRAM of a pair: 4 MiB (R363). -/
def pairSramSize : Nat := 0x400000

/-- Bytes laid into an SRAM of a size from a place up; what lies outside it is lost. -/
def sramLoad (size : Nat) (m : SMap Byte) (ofs : Nat) (l : List Byte) : SMap Byte :=
  (l.zipIdx ofs).foldl (fun m x => if x.2 < size then m.set (fun _ => 0) x.2 x.1 else m) m

/-- What the cores of pair `p` hold. -/
def Dev.core (d : Dev) (p : Nat) : PairCore := d.ctl.cores.get (fun _ => PairCore.reset) p
/-- The device with the cores of a pair in a state. -/
def Dev.setCore (d : Dev) (p : Nat) (c : PairCore) : Dev :=
  { d with ctl := { d.ctl with cores := d.ctl.cores.set (fun _ => PairCore.reset) p c } }
/-- The last complete checkpoint of pair `p`. -/
def Dev.ckpt (d : Dev) (p : Nat) : PairCore := d.ctl.ckpts.get (fun _ => PairCore.reset) p

/-- Pair `p` starts with a firmware component in its SRAM (R426). -/
def Dev.startPair (d : Dev) (fw : List Byte) (p : Nat) : Dev :=
  d.setCore p { PairCore.reset with sram := sramLoad pairSramSize [] (Config.fwLoadAt 2) fw }

/-- The security core, 0, or the power manager core, 1, goes on with its firmware component in its SRAM (R426). -/
def Dev.startSolo (d : Dev) (fw : List Byte) (m : Nat) : Dev :=
  let c := d.ctl.solo.get (fun _ => SoloCore.reset) m
  { d with ctl := { d.ctl with solo := d.ctl.solo.set (fun _ => SoloCore.reset) m
                                 { c with sram := sramLoad (Config.soloSram m) c.sram (Config.fwLoadAt m) fw } } }

/-- The services of CTL_SVC_MAP with their SERVICE numbers (R367, R370). -/
def services : List (Nat × Fld) :=
  [(1, F.CTL_SVC_MAP_LEARN), (2, F.CTL_SVC_MAP_REHASH), (3, F.CTL_SVC_MAP_TWIN), (4, F.CTL_SVC_MAP_WALK),
   (5, F.CTL_SVC_MAP_BLOTTER), (6, F.CTL_SVC_MAP_TELEMETRY)]

/-- The lowest-numbered RUNNING pair. -/
def Dev.lowestRunning (d : Dev) : Option Nat := (List.range 4).find? fun p => d.pairState p == 1

/-- The services of failed pair `p` move to the lowest-numbered RUNNING pair (R366). -/
def Dev.moveServices (d : Dev) (p : Nat) : Dev :=
  match d.lowestRunning with
  | none => d
  | some q => d.each services fun sf d =>
      if d.rd sf.2 = p then (d.wr sf.2 q).post Ev.CTL_SVC_MOVED [(24, 1, sf.1), (25, 1, p), (26, 1, q)] else d

/-- Mismatches of pair `p` within the last 65,536 spans. -/
def Dev.recentMismatches (d : Dev) (p : Nat) : List Nat :=
  (d.ctl.mismatches.get (fun _ => []) p).filter fun t => d.tim.tick < t + 65536

/-- LOCKSTEP_MISMATCH (R364, R366) for a RUNNING pair: it halts; the third mismatch within 65,536 spans makes it FAILED, its
domain is switched off and its services move. Evidence bit 3 is set by the twin engine (R349). -/
def lockstepMismatch (p : Nat) (d : Dev) : Dev :=
  if d.pairState p ≠ 1 then d else
  let recent := d.tim.tick :: d.recentMismatches p
  let d0 := { d with ctl := { d.ctl with mismatches := d.ctl.mismatches.set (fun _ => []) p recent } }
  let d1 := (d0.wr (F.CTL_PAIR_STATUS_STATE.ix p) 2).bump F.CTL_LOCKSTEP_MISMATCH
  let d2 := d1.post Ev.CTL_LOCKSTEP [(24, 1, p), (25, 1, recent.length), (32, 6, d.rd (F.CTL_PAIR_CKPT_SPAN.ix p))]
  if recent.length ≥ 3 then
    let d3 := (d2.wr (F.CTL_PAIR_STATUS_STATE.ix p) 4).post Ev.CTL_PAIR_FAILED [(24, 1, p)]
    ((d3.moveServices p).masterReset (2 + p)).setCore p PairCore.reset
  else d2

/-- PAIR_RESTART: a HALTED or RESTARTING pair reloads its checkpoint and resumes; it counts as a reset of its master (R364,
R365). -/
def pairRestart (p : Nat) (d : Dev) : Dev :=
  if d.pairState p ≠ 2 ∧ d.pairState p ≠ 3 then d else
  let since := d.tim.tick - ((d.ctl.mismatches.get (fun _ => []) p).headD d.tim.tick)
  let n := d.rd (F.CTL_PAIR_STATUS_RESTARTS.ix p)
  let d1 := ((d.setCore p (d.ckpt p)).wr (F.CTL_PAIR_STATUS_STATE.ix p) 1).wr (F.CTL_PAIR_STATUS_RESTARTS.ix p) (min (n + 1) 255)
  (d1.masterReset (2 + p)).post Ev.CTL_PAIR_RESTARTED [(24, 1, p), (28, 2, since)]

/-- PAIR_CHECKPOINT: a RUNNING pair completes a checkpoint of its state; its span reads in CTL_PAIR_CKPT. -/
def pairCheckpoint (p : Nat) (d : Dev) : Dev :=
  if d.pairState p = 1 then
    { d with ctl := { d.ctl with ckpts := d.ctl.ckpts.set (fun _ => PairCore.reset) p (d.core p) } }.wr
      (F.CTL_PAIR_CKPT_SPAN.ix p) d.tim.span
  else d

/-! ### Services (R370, R371) -/

/-- The channel bound back from `from_` to `to_`: the lowest valid one. -/
def Dev.backChannel (d : Dev) (from_ to_ : Nat) : Option Nat :=
  (List.range 64).find? fun n => d.mbxValid n && d.mbxSender n == from_ && d.mbxReceiver n == to_

/-- Is SERVICE number `s` known to master `srv`: service 0 to every pair, 1 to 6 to the pairs, 0x80 to the security core,
0x81 to the power manager? -/
def serviceKnown (srv s : Nat) : Bool :=
  if srv = 0 then s == 0x80 else if srv = 1 then s == 0x81 else s ≤ 6

/-- The pair that runs service `s` of the map. -/
def Dev.servicePair (d : Dev) (s : Nat) : Nat :=
  match services.find? (fun sf => sf.1 == s) with
  | some sf => d.rd sf.2
  | none => 0

/-- The STATUS and the body of the reply of server `srv` to a request (R370): moved and unknown services as listed; opcode 0
returns the version in body bytes 8 to 11 (CTL_FW_VERSION for a pair's firmware information, otherwise the service's own, which
the spec leaves open); every other opcode is service-defined, its status and body free values. -/
def Dev.serviceReply (d : Dev) (srv s op : Nat) : Nat × Nat × Dev :=
  if !serviceKnown srv s then (1, 0, d)
  else if s ≠ 0 ∧ s ≤ 6 ∧ d.servicePair s ≠ srv - 2 then (5, d.servicePair s, d)
  else if op = 0 then
    if s = 0 then (0, d.rd F.CTL_FW_VERSION, d)
    else let (v, d1) := d.takeFree; (0, v % 2 ^ 32, d1)
  else
    let (st, d1) := d.takeFree
    let (b, d2) := d1.takeFree
    (match st % 4 with | 0 => 0 | 1 => 2 | 2 => 3 | _ => 4, b % 2 ^ 448, d2)

/-- SERVICE_REQUEST: server master `srv` reads the message of channel `n`, discards an ORPHAN, and otherwise posts its reply
on the channel bound back; then it acknowledges the request (R371, R375, R380). Where the check of the reply's first write fails, it fails as
any access does (R376), and no reply is made: DESIGN CHOICE (35). -/
def serviceRequest (srv n : Nat) (d : Dev) : Dev :=
  let c := d.chan n
  if !(d.mbxValid n && d.mbxReceiver n == srv && c.full && d.issues srv && d.masterPowered srv) then d else
  let d0 := d.setChan n { c with latched := c.msg }
  let d1 :=
    if c.gen ≠ d.gen (d.mbxSender n) then d0 else
    match d.backChannel srv (d.mbxSender n) with
    | none => d0
    | some r =>
      let s := byteField c.msg 0 1
      let op := byteField c.msg 1 1
      let (st, body, d1) := d0.serviceReply srv s op
      let reply := packBytes [(0, 1, s), (1, 1, op), (2, 2, byteField c.msg 2 2), (4, 1, st), (5, 1, 1), (8, 56, body)]
      d1.mbxAccess r srv 0 true false true fun d =>
        (d.setChan r { d.chan r with staging := BitVec.ofNat 512 reply }).mbxPostCore r 64
  let c1 := d1.chan n
  if c1.seq = c.seq then d1.setChan n { c1 with full := false } else d1

/-! ### The commands -/

/-- PAIR_CHECKPOINT. -/
def execPairCheckpoint (p : Fin 4) (s : State) : Host.Outcome State Fault Refusal :=
  .next { s with dev := pairCheckpoint p.val s.dev }
/-- PAIR_RESTART. -/
def execPairRestart (p : Fin 4) (s : State) : Host.Outcome State Fault Refusal :=
  .next { s with dev := pairRestart p.val s.dev }
/-- SERVICE_REQUEST. -/
def execServiceRequest (srv : Fin 6) (n : Fin 64) (s : State) : Host.Outcome State Fault Refusal :=
  .next { s with dev := serviceRequest srv.val n.val s.dev }
/-- MBX_BIND_WRITE. -/
def execMbxBindWrite (m : Master) (n : Fin 64) (data : Word) (s : State) : Host.Outcome State Fault Refusal :=
  onReg s m.val (F.CTL_MBX_BIND.ix n.val).off (mbxBindWrite m.val n.val data)
/-- BIND_LOCK_SET. -/
def execBindLockSet (m : Master) (s : State) : Host.Outcome State Fault Refusal :=
  onReg s m.val F.CTL_BIND_LOCK.off (bindLockSet m.val)
/-- MBX_DATA_WRITE. -/
def execMbxDataWrite (m : Master) (n : Fin 64) (w : Fin 16) (data : Word) (s : State) :
    Host.Outcome State Fault Refusal :=
  onReg s m.val (0x13002000 + 0x80 * n.val + 4 * w.val) (mbxDataWrite m.val n.val w.val data)
/-- MBX_POST. -/
def execMbxPost (m : Master) (n : Fin 64) (data : Word) (s : State) : Host.Outcome State Fault Refusal :=
  onReg s m.val (0x13002040 + 0x80 * n.val) (mbxPost m.val n.val data)
/-- MBX_RXSTAT_READ. -/
def execMbxRxstatRead (m : Master) (n : Fin 64) (s : State) : Host.Outcome State Fault Refusal :=
  .next { s with dev := s.dev.onRead m.val (0x13002048 + 0x80 * n.val) (mbxRxstatRead m.val n.val) }
/-- MBX_ACK. -/
def execMbxAck (m : Master) (n : Fin 64) (data : Word) (s : State) : Host.Outcome State Fault Refusal :=
  onReg s m.val (0x1300204C + 0x80 * n.val) (mbxAck m.val n.val data)
/-- BELL_CLEAR. -/
def execBellClear (m : Master) (t : Fin 10) (data : Word) (s : State) : Host.Outcome State Fault Refusal :=
  onReg s m.val (F.CTL_BELL.ix t.val).off (bellClear m.val t.val data)
/-- BELL_MASK_WRITE. -/
def execBellMaskWrite (m : Master) (t : Fin 10) (data : Word) (s : State) : Host.Outcome State Fault Refusal :=
  onReg s m.val (F.CTL_BELL_MASK.ix t.val).off (bellMaskWrite m.val t.val data)
/-- LOCK_READ. -/
def execLockRead (readers : List Master) (n : Fin 64) (s : State) : Host.Outcome State Fault Refusal :=
  .next { s with dev := lockRead (readers.map (·.val)) n.val s.dev }
/-- LOCK_WRITE. -/
def execLockWrite (m : Master) (n : Fin 64) (data : Word) (s : State) : Host.Outcome State Fault Refusal :=
  onReg s m.val (F.CTL_LOCK.ix n.val).off (lockWrite m.val n.val data)

end Sys2Proof.Machine
end

