-- ==== Sys2Proof/Machine/Events.lean ====
section
/-! DEFINITION. Event records: sources, admission, the engine queue, the rings in host memory, interrupts and the blotter
(R392 to R397), and the I3C target (R400, R401). -/

namespace Sys2Proof.Machine

/-! ### Records (R393, R395) -/

/-- The CLASS byte. -/
def classCode : EvClass → Nat
  | .alarm => 0 | .fault => 1 | .notice => 2 | .log => 3 | .trace => 4 | .summary => 5

/-- The SEVERITY of a class; a summary takes that of the highest class it counts. -/
def classSeverity : EvClass → Nat
  | .alarm => 7 | .fault => 5 | .notice => 3 | .log => 2 | .trace => 1 | .summary => 0

/-- The block number: the high byte of the code. -/
def recBlock (r : EventRec) : Nat := r.code / 256

/-- A summary's counted source (R402). -/
def recSummarySource (r : EventRec) : Nat := r.inst.toNat % 512

/-- The source number of a record (R395): port n, pier 128 + n, or 256 + 16j + i for the other blocks in their order. A
summary belongs to the source it counts. -/
def recSource (r : EventRec) : Nat :=
  let b := r.inst.toNat % 256
  if r.cls = .summary then recSummarySource r
  else if (recBlock r) = 4 then b % 128
  else if (recBlock r) = 5 then 128 + b % 17
  else
    let j := if (recBlock r) < 4 then (recBlock r) - 1 else (recBlock r) - 3
    256 + 16 * j + (if b = 255 then 15 else b % 16)

/-- The block number of a source (R395). -/
def sourceBlock (src : Nat) : Nat :=
  if src < 128 then 4
  else if src < 256 then 5
  else if src < 304 then (src - 256) / 16 + 1
  else (src - 256) / 16 + 3

/-- The count of class `c` in a summary. -/
def recSummaryCount (r : EventRec) (c : Nat) : Nat := byteField r.payload (4 * c) 4

/-- The severity of a record (R393). -/
def recSeverity (r : EventRec) : Nat :=
  if r.cls = .summary then
    match (List.range 5).find? (fun c => recSummaryCount r c != 0) with
    | some 0 => 7 | some 1 => 5 | some 2 => 3 | some 3 => 2 | some _ => 1
    | none => 0
  else classSeverity r.cls

/-- The suppression count of a source and class. -/
def suppFld (src c : Nat) : Fld := (F.HST_SUPP_CNT.ix c).item src

/-- Have records of the source been suppressed since its last summary? -/
def Dev.sourceSuppressed (d : Dev) (src : Nat) : Bool := (List.range 5).any fun c => d.rd (suppFld src c) != 0

/-- The source's bit of HST_ALM_SAT. -/
def almSatFld (src : Nat) : Fld := { F.HST_ALM_SAT.ix (src / 32 % 16) with lo := src % 32, w := 1 }

/-- Is a bit of HST_ALM_SAT set? -/
def Dev.anySat (d : Dev) : Bool := (List.range 16).any fun n => d.on (F.HST_ALM_SAT.ix n)

/-! ### Rings (R392) -/

/-- The ring of a record: URGENT for alarms and faults, ROUTINE for all others; a summary goes to the ROUTINE ring of its
source's block (R397). -/
def Dev.routeOf (d : Dev) (r : EventRec) : Nat :=
  if r.cls = .summary then d.rd (F.HST_EV_ROUTE_ROUTINE.ix (sourceBlock (recSource r) - 1))
  else if r.cls = .alarm ∨ r.cls = .fault then d.rd (F.HST_EV_ROUTE_URGENT.ix ((recBlock r) - 1))
  else d.rd (F.HST_EV_ROUTE_ROUTINE.ix ((recBlock r) - 1))

/-- The ring's accept index A. -/
def Dev.acceptIdx (d : Dev) (n : Nat) : BitVec 32 := d.hst.accept.get (fun _ => 0) n

/-- The device with the ring's accept index set. -/
def Dev.setAccept (d : Dev) (n : Nat) (v : BitVec 32) : Dev :=
  { d with hst := { d.hst with accept := d.hst.accept.set (fun _ => 0) n v } }

/-- log2 of the ring's size. -/
def Dev.ringK (d : Dev) (n : Nat) : Nat := d.rd (F.HST_EVR_CFG_SIZE.ix n)

/-- What the ring holds for admission: A − C. -/
def Dev.ringHeld (d : Dev) (n : Nat) : Nat := (d.acceptIdx n - BitVec.ofNat 32 (d.rd (F.HST_EVR_CONS.ix n))).toNat

/-- The owner PF of the ring. -/
def Dev.ringPf (d : Dev) (n : Nat) : Nat := d.rd (F.HST_EVR_CFG_PF.ix n)

/-- A ring is available while it is enabled (R392); PERST_N low disables it (R387). -/
def Dev.ringAvail (d : Dev) (n : Nat) : Bool := d.on (F.HST_EVR_CFG_EN.ix n)

/-! ### Admission (R396) -/

/-- Is the record suppressed? The rules of R396 by class. -/
def Dev.suppresses (d : Dev) (r : EventRec) : Bool :=
  let n := d.routeOf r
  let size := 2 ^ d.ringK n
  let held := d.ringHeld n
  let q := d.hst.engineQ.length
  let rule3 := q ≥ 3584 || 8 * held ≥ 7 * size || !d.ringAvail n
  match r.cls with
  | .trace => d.shed ≥ 1 || q ≥ 2048 || 2 * held ≥ size || !d.ringAvail n
  | .log => d.hst.logCount.get (fun _ => 0) (recSource r) ≥ d.rd F.HST_LOG_LIMIT_LOGS || rule3
  | .notice => rule3
  | .fault => rule3
  | .summary => rule3
  | .alarm => q ≥ 4096 || held ≥ size || !d.ringAvail n

/-- The first and last code of those suppressed, with one more. -/
def codesWith (code : Nat) (c : Nat × Nat) : Nat × Nat := (if c.1 = 0 then code else c.1, code)

/-- The suppression count of a source and class rises; it saturates at 2^32 − 1. The codes are kept for the source's next summary (R402). -/
def Dev.noteSuppressed (d : Dev) (src : Nat) (cls : EvClass) (code : Nat) : Dev :=
  ({ d with hst := { d.hst with
    suppCodes := d.hst.suppCodes.upd (fun _ => (0, 0)) src (codesWith code),
    suppLater := d.hst.suppLater.upd (fun _ => (0, 0)) src (codesWith code) } }).bump (suppFld src (classCode cls))

/-- One more suppressed record: of a source and class, but for a summary (R396). -/
def Dev.countSuppressed (d : Dev) (src : Nat) (cls : EvClass) (code : Nat) : Dev :=
  let d1 := d.bump F.HST_EV_SUPPRESSED
  if cls = .summary then d1 else
  let d2 := d1.noteSuppressed src cls code
  if cls = .alarm then d2.wr (almSatFld src) 1 else d2

/-- The 64 bytes of a record accepted with accept index `seq` in ring `n` (R393). -/
def Dev.recordBytes (d : Dev) (r : EventRec) (n : Nat) (seq : BitVec 32) : BitVec 512 :=
  let reserve := 8 * d.ringHeld n ≥ 7 * 2 ^ d.ringK n
  let b3 := (recSeverity r) + (if d.sourceSuppressed (recSource r) then 8 else 0) + (if reserve then 16 else 0) +
    (if d.anySat then 32 else 0) + (if bitOn seq (d.ringK n) then 128 else 0)
  BitVec.ofNat 512 (packBytes [(0, 2, r.code), (2, 1, classCode r.cls), (3, 1, b3), (4, 4, seq.toNat),
    (8, 8, r.time.toNat), (16, 8, r.inst.toNat), (24, 40, r.payload.toNat)])

/-- Is the class exported to telemetry now (R398): export enabled, no shed step, the service running? -/
def Dev.exports (d : Dev) (cls : EvClass) : Bool :=
  d.on F.HST_TELEM_CFG_EN && d.shed == 0 && (d.rd F.HST_TELEM_CFG_CLASS_MASK >>> classCode cls) % 2 == 1 &&
  d.serviceRuns F.CTL_SVC_MAP_TELEMETRY

/-- A record is accepted: it takes the SEQ and waits in the engine queue (R392). -/
def Dev.acceptRec (d : Dev) (r : EventRec) : Dev :=
  let n := d.routeOf r
  let seq := d.acceptIdx n
  let q : QueuedRec := ⟨n, seq, d.recordBytes r n seq, (recSource r), r.cls⟩
  let d1 := (d.setAccept n (seq + 1)).bump F.HST_EV_ACCEPTED
  let d2 := { d1 with hst := { d1.hst with
    engineQ := d1.hst.engineQ ++ [q],
    logCount := if r.cls = .log then d1.hst.logCount.upd (fun _ => 0) (recSource r) (· + 1) else d1.hst.logCount,
    telemQ := if d.exports r.cls then d1.hst.telemQ ++ [q] else d1.hst.telemQ } }
  if r.cls = .summary then
    let src := (recSummarySource r)
    let d3 := d2.each (List.range 5) fun c d => d.wr (suppFld src c) (d.rd (suppFld src c) - recSummaryCount r c)
    { d3 with hst := { d3.hst with
      suppCodes := d3.hst.suppCodes.set (fun _ => (0, 0)) src (d3.hst.suppLater.get (fun _ => (0, 0)) src) } }
  else d2

/-- An alarm sets its block's bit in GLB_ALARM_SUMMARY whatever becomes of its record (R30); a bit gained raises an IBI whose
payload is GLB_MODE (R401). -/
def Dev.alarmSummary (d : Dev) (r : EventRec) : Dev :=
  if r.cls = .alarm then
    let f : Fld := { F.GLB_ALARM_SUMMARY with lo := (recBlock r), w := 1 }
    let d1 := d.wr f 1
    if d.on f then d1
    else if d.hst.i3cDa.isSome then { d1 with hst := { d1.hst with ibi := d1.hst.ibi ++ [BitVec.ofNat 8 d1.glbMode] } }
    else d1
  else d

/-- EVENT_POST of a record: the alarm summary, then acceptance or suppression (R396). -/
def Dev.admitRecord (d : Dev) (r : EventRec) : Dev :=
  let d1 := d.alarmSummary r
  if d1.suppresses r then d1.countSuppressed (recSource r) r.cls r.code else d1.acceptRec r

/-- EVENT_POST: a record given with the command (a trace), or the oldest record that waits. -/
def eventPost (traced : Option EventRec) (d : Dev) : Dev :=
  match traced with
  | some r => d.admitRecord r
  | none =>
    match d.posted with
    | [] => d
    | r :: rest => { d with posted := rest }.admitRecord r

/-! ### Writing (R394) -/

/-- The host address of the ring place with producer index `idx`. -/
def Dev.ringPlace (d : Dev) (n : Nat) (idx : Nat) : Nat :=
  d.rd (F.HST_EVR_BASE.ix n) + 64 * (idx % 2 ^ d.ringK n)

/-- EVENT_WRITE: the oldest accepted record is written into its ring, then PROD passes it; at most 16 records a span
(R394). The index the record takes is its SEQ. -/
def eventWrite (d : Dev) : Dev :=
  let done := if d.hst.writesTick = d.tim.tick then d.hst.writes else 0
  match d.hst.engineQ with
  | [] => d
  | q :: rest =>
    if done ≥ 16 then d else
    let d1 := (d.dma (d.ringPlace q.ring q.seq.toNat) (leBytes 64 q.bytes.toNat)).wrIx F.HST_EVR_PROD 16 q.ring
      (q.seq + 1).toNat
    let u := d.hst.unsignalled.get (fun _ => (0, 0, false)) q.ring
    { d1 with hst := { d1.hst with
      engineQ := rest, writesTick := d.tim.tick, writes := done + 1,
      unsignalled := d1.hst.unsignalled.set (fun _ => (0, 0, false)) q.ring
        (u.1 + 1, if u.1 = 0 then d.tim.tick else u.2.1, u.2.2 || q.cls == .alarm) } }

/-- EVR_INTERRUPT: a ring with IRQ_EN raises its vector for an alarm written, after MOD_CNT records, or MOD_SPANS spans after
the first unsignalled record (R394). -/
def evrInterrupt (n : Nat) (d : Dev) : Dev :=
  let u := d.hst.unsignalled.get (fun _ => (0, 0, false)) n
  let dueNow := u.1 > 0 && (u.2.2 || u.1 ≥ d.rd (F.HST_EVR_MOD_MOD_CNT.ix n) ||
    d.tim.tick ≥ u.2.1 + d.rd (F.HST_EVR_MOD_MOD_SPANS.ix n))
  if dueNow && d.on (F.HST_EVR_CFG_IRQ_EN.ix n) then
    ({ d with hst := { d.hst with unsignalled := d.hst.unsignalled.set (fun _ => (0, 0, false)) n (0, 0, false) } }).raiseVector
      (d.ringPf n) (d.rd (F.HST_EVR_CFG_VECTOR.ix n))
  else d

/-! ### Enable, disable, errors (R392) -/

/-- The records accepted for ring `n` and not yet written are discarded: each adds to its suppression count and to
EV_SUPPRESSED; a discarded alarm sets its saturation bit. -/
def Dev.discardRing (d : Dev) (n : Nat) : Dev :=
  let gone := d.hst.engineQ.filter (fun q => q.ring == n)
  let d1 := { d with hst := { d.hst with engineQ := d.hst.engineQ.filter (fun q => q.ring != n),
                                         unsignalled := d.hst.unsignalled.set (fun _ => (0, 0, false)) n (0, 0, false) } }
  d1.each gone fun q d => d.countSuppressed q.source q.cls (q.bytes.toNat % 65536)

/-- A ring becomes unavailable: EN clears and its unwritten records are discarded. -/
def Dev.disableRing (d : Dev) (n : Nat) : Dev :=
  if d.on (F.HST_EVR_CFG_EN.ix n) then (d.wr (F.HST_EVR_CFG_EN.ix n) 0).discardRing n else d

/-- EVR_DMA_ERROR: ERR sets, EN clears, nothing is posted. -/
def evrDmaError (n : Nat) (d : Dev) : Dev :=
  if d.on (F.HST_EVR_CFG_EN.ix n) then (d.wr (F.HST_EVR_CFG_ERR.ix n) 1).disableRing n else d

/-- EVR_ENABLE_WRITE: a write of HST_EVR_CFG. SIZE is stored within 6 to 20; ERR clears by 1; an enable sets PROD and A to
CONS, a disable discards unwritten records. -/
def evrEnableWrite (n : Nat) (data : Word) (d : Dev) : Dev :=
  let was := d.on (F.HST_EVR_CFG_EN.ix n)
  let size := max 6 (min 20 (bits data 4 0))
  let d1 := ((d.wr (F.HST_EVR_CFG_PF.ix n) (bits data 29 29)).wr (F.HST_EVR_CFG_IRQ_EN.ix n) (bits data 28 28)).wr
    (F.HST_EVR_CFG_VECTOR.ix n) (bits data 27 22)
  let d2 := (d1.wr (F.HST_EVR_CFG_SIZE.ix n) size).when (bitOn data 30) (·.wr (F.HST_EVR_CFG_ERR.ix n) 0)
  if bitOn data 31 then
    if was then d2 else
    let cons := d2.rd (F.HST_EVR_CONS.ix n)
    ((d2.wr (F.HST_EVR_CFG_EN.ix n) 1).wr (F.HST_EVR_PROD.ix n) cons).setAccept n (BitVec.ofNat 32 cons)
  else d2.disableRing n

/-! ### The blotter (R397) -/

/-- The span count that periodic work and ageing run from: the STC, while it is held its last span carried on by the internal tick (R36, R46,
R175). -/
def Dev.periodic (d : Dev) : Nat := d.runSpan

/-- The summary record of a source: its counts of classes 0 to 4 and the first and last code suppressed (R402). -/
def Dev.postSummary (d : Dev) (src : Nat) : Dev :=
  let codes := d.hst.suppCodes.get (fun _ => (0, 0)) src
  ({ d with hst := { d.hst with suppLater := d.hst.suppLater.set (fun _ => (0, 0)) src (0, 0) } }).postInst Ev.HST_SUMMARY src
    ((List.range 5).map (fun c => (24 + 4 * c, 4, d.rd (suppFld src c))) ++ [(44, 2, codes.1), (46, 2, codes.2)])

/-- BLOTTER_INTERVAL, once at slot 0 of a span that is a multiple of 1,024: the log counts of the interval start afresh, and
the blotter service posts a summary for each source with suppression counts. -/
def blotterInterval (d : Dev) : Dev :=
  let p := d.periodic
  if p % 1024 ≠ 0 ∨ d.hst.interval = some p then d else
  let d1 := { d with hst := { d.hst with interval := some p, logCount := [] } }
  if d1.serviceRuns F.CTL_SVC_MAP_BLOTTER then
    d1.each ((List.range 512).filter d1.sourceSuppressed) fun src d => d.postSummary src
  else d1

/-! ### Link and queues -/

/-- HST_STATUS takes new values; each change posts HST_LINK_CHANGE (R491). -/
def Dev.setLink (d : Dev) (up width rate : Nat) : Dev :=
  let v := BitVec.ofNat 64 (up + (rate <<< 1) + (width <<< 8))
  if d.reg F.HST_STATUS.off = v then d
  else (d.setReg F.HST_STATUS.off v).post Ev.HST_LINK_CHANGE [(24, 1, width), (25, 1, rate), (26, 1, up)]

/-- PCIE_LINK_UP: in M0 the PCIe controller is held in reset with the other switched domains, and no link trains (R419, R483). -/
def pcieLinkUp (width rate : Nat) (d : Dev) : Dev := if d.mode = .m0 then d else d.setLink 1 width rate

/-- PCIE_LINK_DOWN. -/
def pcieLinkDown (d : Dev) : Dev := d.setLink 0 0 0

/-- PQ_TAIL_WRITE: TAIL of a punt queue, by master 7 only; kept also while the queue is disabled. -/
def pqTailWrite (m q : Nat) (tail : Nat) (d : Dev) : Dev := if m = 7 then d.wr (F.HST_PQ_TAIL.ix q) tail else d

/-- IQ_TAIL_WRITE: TAIL of an inject queue, by master 7 only; refused for queue 15 while telemetry export runs (R398). -/
def iqTailWrite (m q : Nat) (tail : Nat) (d : Dev) : Dev :=
  if m ≠ 7 then d
  else if q = 15 ∧ d.on F.HST_TELEM_CFG_EN = true then d.post Ev.HST_CFG_REFUSED [(24, 1, 1), (26, 1, m)]
  else d.wr (F.HST_IQ_TAIL.ix q) tail

/-- The packet that inject queue `q` has fetched and not yet injected is discarded, its descriptor not written back (R387). -/
def Dev.dropFetched (d : Dev) (q : Nat) : Dev :=
  { d with hst := { d.hst with fetched := d.hst.fetched.set (fun _ => none) q none },
           pir := { d.pir with inject := d.pir.inject.map fun e =>
             (e.1, e.2.filter fun p => p.back != some q) } }

/-- QUEUE_ENABLE_WRITE: a write of HST_PQ_CFG or HST_IQ_CFG by master 7; SIZE is stored up to 10; an enable sets HEAD to
TAIL. Each queue keeps the fields of its kind (META for punt, OCTET for inject). DESIGN CHOICE (44): an inject queue disabled by a write
discards the packet it has fetched, as R387 has it of a reset. -/
def queueEnableWrite (m : Nat) (inject : Bool) (q : Nat) (data : Word) (d : Dev) : Dev :=
  if m ≠ 7 ∨ (inject = true ∧ q ≥ 16) then d else
  let size := min 10 (bits data 3 0)
  let keep := if inject then 0xBF8000F0 else 0xFF800000
  let v := BitVec.ofNat 64 ((data.toNat &&& keep) + size)
  if inject then
    let was := d.on (F.HST_IQ_CFG_EN.ix q)
    let d1 := d.setReg (F.HST_IQ_CFG.ix q).off v
    if bitOn data 31 then (if was then d1 else d1.wr (F.HST_IQ_HEAD.ix q) (d1.rd (F.HST_IQ_TAIL.ix q))) else d1.dropFetched q
  else
    let was := d.on (F.HST_PQ_CFG_EN.ix q)
    let d1 := d.setReg (F.HST_PQ_CFG.ix q).off v
    if bitOn data 31 && !was then d1.wr (F.HST_PQ_HEAD.ix q) (d1.rd (F.HST_PQ_TAIL.ix q)) else d1

/-- A PF's own PCI Express state at its reset: MSI-X table, pending bits, power state D0. PRESUMED (45): PCI Express. -/
def Dev.resetPf (d : Dev) (pf : Nat) : Dev :=
  { d with hst := { d.hst with msix := d.hst.msix.filter fun e => e.1 / 64 != pf,
                               msixPend := d.hst.msixPend.filter fun e => e.1 / 64 != pf,
                               d3hot := d.hst.d3hot.set (fun _ => false) pf false } }

/-- The rings, and for PF1 the punt and inject queues, of a PF are disabled (R387); queues belong to PF1. -/
def Dev.disablePf (d0 : Dev) (pf : Nat) : Dev :=
  let d := d0.resetPf pf
  let d1 := d.each (List.range 16) fun n d => if d.ringPf n = pf then d.disableRing n else d
  if pf = 1 then
    let d2 := d1.each (List.range 64) fun q d => d.wr (F.HST_PQ_CFG_EN.ix q) 0
    d2.each (List.range 16) fun q d => (d.wr (F.HST_IQ_CFG_EN.ix q) 0).dropFetched q
  else d1

/-! ### I3C (R400, R401) -/

/-- HST_I3C_PID: the provisioned ID (R400). -/
def i3cPid : Nat := Config.dieId.toNat % 2 ^ 32 + 2 ^ 32 + (Config.mipiVendor.toNat <<< 33)

/-- The bus and device characteristics registers, BCR and DCR (R400). -/
def i3cBcr : Byte := 0x06
/-- DCR. -/
def i3cDcr : Byte := 0x00

/-- What the target sends in ENTDAA: the provisioned ID, most significant byte first, BCR and DCR. The order is MIPI I3C's: PRESUMED (36). -/
def i3cIdentity : List Byte := (leBytes 6 i3cPid).reverse ++ [i3cBcr, i3cDcr]

/-- ENTDAA: the target sends its identity and takes a dynamic address when it has none. -/
def entdaa (a : BitVec 7) (d : Dev) : Dev :=
  if d.hst.i3cDa.isSome then d
  else { d with hst := { d.hst with i3cDa := some a, i3cOut := i3cIdentity } }.wr F.HST_I3C_STATUS (128 + a.toNat)

/-- RSTDAA: the target drops its dynamic address. -/
def rstdaa (d : Dev) : Dev := { d with hst := { d.hst with i3cDa := none } }.wr F.HST_I3C_STATUS 0

/-- A private write of one byte sets the read offset; other writes are ignored. -/
def i3cPrivateWrite (l : List Byte) (d : Dev) : Dev :=
  match d.hst.i3cDa, l with
  | some _, [b] => { d with hst := { d.hst with i3cOff := b.toNat % 64 } }
  | _, _ => d

/-- GLB_ID (R3 to R5): the part and its variant. -/
def Dev.glbId (d : Dev) : Nat := if d.sec.fuses.variantS then 0x964001A1 else 0x964000A1

/-- A 16-bit field as a signed number. -/
def signed16 (x : Nat) : Int := if x ≥ 32768 then (x : Int) - 65536 else x

/-- The hottest sensor's number and reading. -/
def Dev.hottest (d : Dev) : Nat × Int :=
  (List.range 32).foldl (fun a n =>
    let t := signed16 (d.rd (F.PWR_TEMP_TEMP.ix n))
    if t > a.2 then (n, t) else a) (0, signed16 (d.rd (F.PWR_TEMP_TEMP.ix 0)))

/-- A signed number as a 16-bit field. -/
def toU16 (x : Int) : Nat := (x % 65536).toNat

/-- The 64-byte status page (R401). -/
def Dev.statusPage (d : Dev) : List Byte :=
  leBytes 4 d.glbId ++ leBytes 4 d.modeFlags ++ leBytes 4 (d.rd F.GLB_ALARM_SUMMARY) ++
  leBytes 2 (toU16 d.hottest.2) ++ leBytes 2 (d.rd F.PWR_PKG_POWER_WATTS) ++ leBytes 8 Config.dieId.toNat ++
  List.replicate 40 0

/-- I3C_PRIVATE_READ: `n` bytes of the status page from the offset, wrapping at 64. -/
def i3cPrivateRead (n : Nat) (d : Dev) : Dev :=
  if d.hst.i3cDa.isSome then
    let page := d.statusPage
    { d with hst := { d.hst with i3cOut := (List.range n).map fun k => page.getD ((d.hst.i3cOff + k) % 64) 0 } }
  else d

/-! ### The commands -/

/-- EVENT_POST. -/
def execEventPost (t : Option EventRec) (s : State) : Host.Outcome State Fault Refusal :=
  .next { s with dev := eventPost t s.dev }
/-- EVENT_WRITE. -/
def execEventWrite (s : State) : Host.Outcome State Fault Refusal := .next { s with dev := eventWrite s.dev }
/-- EVR_DMA_ERROR. -/
def execEvrDmaError (n : Fin 16) (s : State) : Host.Outcome State Fault Refusal :=
  .next { s with dev := evrDmaError n.val s.dev }
/-- EVR_INTERRUPT. -/
def execEvrInterrupt (n : Fin 16) (s : State) : Host.Outcome State Fault Refusal :=
  .next { s with dev := evrInterrupt n.val s.dev }
/-- EVR_ENABLE_WRITE. -/
def execEvrEnableWrite (m : Master) (n : Fin 16) (data : Word) (s : State) : Host.Outcome State Fault Refusal :=
  onReg s m.val (F.HST_EVR_CFG.ix n.val).off (evrEnableWrite n.val data)
/-- BLOTTER_INTERVAL. -/
def execBlotterInterval (s : State) : Host.Outcome State Fault Refusal := .next { s with dev := blotterInterval s.dev }
/-- PCIE_LINK_UP. -/
def execPcieLinkUp (w : BitVec 4) (r : BitVec 7) (s : State) : Host.Outcome State Fault Refusal :=
  .next { s with dev := pcieLinkUp w.toNat r.toNat s.dev }
/-- PCIE_LINK_DOWN. -/
def execPcieLinkDown (s : State) : Host.Outcome State Fault Refusal := .next { s with dev := pcieLinkDown s.dev }
/-- IQ_TAIL_WRITE. -/
def execIqTailWrite (m : Master) (q : Fin 16) (t : BitVec 16) (s : State) : Host.Outcome State Fault Refusal :=
  onReg s m.val (F.HST_IQ_TAIL.ix q.val).off (iqTailWrite m.val q.val t.toNat)
/-- ENTDAA. -/
def execEntdaa (a : BitVec 7) (s : State) : Host.Outcome State Fault Refusal := .next { s with dev := entdaa a s.dev }
/-- RSTDAA. -/
def execRstdaa (s : State) : Host.Outcome State Fault Refusal := .next { s with dev := rstdaa s.dev }
/-- I3C_PRIVATE_WRITE. -/
def execI3cPrivateWrite (l : List Byte) (s : State) : Host.Outcome State Fault Refusal :=
  .next { s with dev := i3cPrivateWrite l s.dev }
/-- I3C_PRIVATE_READ. -/
def execI3cPrivateRead (n : Nat) (s : State) : Host.Outcome State Fault Refusal :=
  .next { s with dev := i3cPrivateRead n s.dev }

end Sys2Proof.Machine
end

