-- ==== Sys2Proof/Machine/Operands.lean ====
section
/-! DEFINITION. The operand forms of packet handling: metadata fields (R72, R140), header bits, and the records of the live and
staged images (R66 to R77). -/

namespace Sys2Proof.Machine

/-! ### Metadata fields (R140) -/

/-- A metadata field: position and width. -/
structure MdFld where
  ofs : Nat
  w : Nat

namespace Md
def bankTag : MdFld := ⟨0, 1⟩
def strokeCount : MdFld := ⟨1, 2⟩
def drop : MdFld := ⟨3, 1⟩
def parseErr : MdFld := ⟨4, 4⟩
def srcPort : MdFld := ⟨8, 8⟩
def dropReason : MdFld := ⟨16, 8⟩
def tc : MdFld := ⟨24, 3⟩
def color : MdFld := ⟨27, 2⟩
def destType : MdFld := ⟨29, 2⟩
def dest : MdFld := ⟨32, 16⟩
def eqSel : MdFld := ⟨48, 8⟩
def adjIndex : MdFld := ⟨64, 22⟩
def encapIndex : MdFld := ⟨96, 21⟩
def pktLen : MdFld := ⟨128, 14⟩
def flowHash : MdFld := ⟨160, 32⟩
def rxTs : MdFld := ⟨192, 60⟩
def tsTag : MdFld := ⟨256, 16⟩
def ptpCtrl : MdFld := ⟨272, 2⟩
def mirror : MdFld := ⟨280, 6⟩
def ssStart : MdFld := ⟨288, 9⟩
def vrf : MdFld := ⟨304, 16⟩
def egrPort : MdFld := ⟨320, 8⟩
def runBits : MdFld := ⟨336, 24⟩
end Md

/-- The value of a metadata field. -/
def mdGet (md : BitVec 1024) (f : MdFld) : Nat := (md.toNat >>> f.ofs) % 2 ^ f.w

/-- The metadata with a field set. -/
def mdSet (md : BitVec 1024) (f : MdFld) (v : Nat) : BitVec 1024 := setBits md (f.ofs + f.w - 1) f.ofs v

/-- A field of a packet's metadata. -/
def Packet.get (p : Packet) (f : MdFld) : Nat := mdGet p.md f

/-- The packet with a metadata field set. -/
def Packet.setMd (p : Packet) (f : MdFld) (v : Nat) : Packet := { p with md := mdSet p.md f v }

/-- The packet's bank tag. -/
def Packet.tag (p : Packet) : Nat := p.get Md.bankTag

/-- PKT_LEN is the packet's length in bytes, FCS excluded. -/
def Packet.len (p : Packet) : Nat := p.bytes.length

/-! ### Banks and images (R55, R56, R89) -/

/-- The current bank tag (R55). -/
def Dev.liveTag (d : Dev) : Nat := d.rd F.TIM_EPOCH_EPOCH % 2

/-- The image of a store slot. -/
def Dev.slotImage (d : Dev) (s : Nat) : Option Image := d.img.slots.get (fun _ => none) s

/-- The image-store slot of the bank with tag `t` in the TM and the TBL schema store: the live slot for the live tag, the other
slot for the other tag. -/
def Dev.bankSlot (d : Dev) (t : Nat) : Nat :=
  if t % 2 = d.liveTag then d.rd F.IMG_STATUS_LIVE_SLOT else 1 - d.rd F.IMG_STATUS_LIVE_SLOT

/-- The image of the bank with tag `t` (TM and TBL). -/
def Dev.bankImage (d : Dev) (t : Nat) : Option Image := d.slotImage (d.bankSlot t)

/-- The live image. -/
def Dev.liveImage (d : Dev) : Option Image := d.bankImage d.liveTag

/-- The image that pier `p` uses for packets with tag `t`: its live bank may hold the walk image (IMG_PIER_STATUS.SLOT), and a bank keeps
its image while its slot is loaded anew (R85). -/
def Dev.pierImage (d : Dev) (p t : Nat) : Option Image :=
  match d.img.own.get (fun _ => none) (2 * p + t % 2) with
  | some im => some im
  | none => if t % 2 = d.liveTag then d.slotImage (d.rd (F.IMG_PIER_STATUS_SLOT.ix p)) else d.bankImage t

/-- Pier `p`'s live bank holds the image of a slot. -/
def Dev.setPierSlot (d : Dev) (p s : Nat) : Dev :=
  { d with img := { d.img with own := d.img.own.set (fun _ => none) (2 * p + d.liveTag) none } }.wrIx F.IMG_PIER_STATUS_SLOT 17 p s

/-- The piers whose live bank holds the image of slot `s` keep it while the slot is loaded anew; but not pier `but`. -/
def Dev.keepImages (d : Dev) (s : Nat) (but : Option Nat) : Dev :=
  d.each ((List.range 17).filter fun p => d.rd (F.IMG_PIER_STATUS_SLOT.ix p) == s && some p != but) fun p d =>
    { d with img := { d.img with own := d.img.own.set (fun _ => none) (2 * p + d.liveTag) (d.pierImage p d.liveTag) } }

/-! ### TM_PROFILE and PORT_MAP (R74 to R76) -/

/-- The value of a TM property of a kind for an item in the bank with tag `t`: the last record that covers it. DESIGN CHOICE (19):
the spec names no source of an internal priority, so kind 3, the map to a traffic class, is held with the image and read by nothing. -/
def Dev.tmValue (d : Dev) (t kind item : Nat) : Option Nat :=
  match d.bankImage t with
  | none => none
  | some im => im.tm.foldl (fun a r =>
      if r.kind = kind ∧ r.first ≤ item ∧ item < r.first + r.count then some r.value else a) none

/-- The port's PORT_MAP record in the bank with tag `t`. -/
def Dev.portRec (d : Dev) (t p : Nat) : Option PortRec :=
  match d.bankImage t with
  | none => none
  | some im => im.ports[p]?

/-- Is port `p` PRESENT in the live PORT_MAP? -/
def Dev.present (d : Dev) (p : Nat) : Bool :=
  match d.portRec d.liveTag p with
  | some r => r.present
  | none => false

/-- The octet of a port: of its live PORT_MAP record, and p ÷ 8 without one. -/
def Dev.portOctet (d : Dev) (p : Nat) : Nat :=
  match d.portRec d.liveTag p with
  | some r => if r.present then r.octet else p / 8
  | none => p / 8

/-- The system port of a local port in the live PORT_MAP. -/
def Dev.sysPort (d : Dev) (p : Nat) : Option Nat :=
  match d.portRec d.liveTag p with
  | some r => if r.present then some r.sysPort else none
  | none => none

/-- The present ports of an octet. -/
def Dev.octetPorts (d : Dev) (o : Nat) : List Nat :=
  (List.range 128).filter fun p => d.present p && d.portOctet p == o

/-- The line rate of a PORT_MAP MODE in Gb/s (R76). -/
def modeGbps (m : Nat) : Nat :=
  if m = 1 then 1600 else if m = 2 then 800 else if m = 3 then 400 else if m = 4 then 200 else if m = 5 then 100 else 0

/-- A type-1 timed action is armed (TIM_BANK_STATUS.KS_ARMED). -/
def Dev.ksArmed (d : Dev) : Bool := d.tim.entries.any fun e => e.2.state == .armed && e.2.type == 1

/-- Entries fire at slot 0 of their span, outside reset and Quarantine (R52, R436). -/
def Dev.taFires (d : Dev) : Bool := !d.stcHeld && d.tim.slot == 0 && d.mode != .m0 && d.mode != .m11

/-- A keystone or another timed action is still to take effect in this slot 0, ahead of switches and the refresh (R285). -/
def Dev.actionDue (d : Dev) : Bool := d.taFires && d.tim.entries.any fun e => e.2.state == .armed && e.2.span == d.tim.span

/-! ### Piers and octets (R14) -/

/-- The pier bound to octet `o` by the lane switch. -/
def Dev.pierOf (d : Dev) (o : Nat) : Option Nat :=
  (List.range 17).find? fun p => d.on (F.IMG_PIER_STATUS_SERVING.ix p) && d.rd (F.IMG_PIER_STATUS_OCTET.ix p) == o

/-- The octet that pier `p` serves. -/
def Dev.octetOf (d : Dev) (p : Nat) : Option Nat :=
  if d.on (F.IMG_PIER_STATUS_SERVING.ix p) then some (d.rd (F.IMG_PIER_STATUS_OCTET.ix p)) else none

/-- The state of pier `p`: 0 ACTIVE, 1 SPARE, 2 RELOADING, 3 RETIRED, 4 UNLOADED. -/
def Dev.pierState (d : Dev) (p : Nat) : Nat := d.rd (F.IMG_PIER_STATUS_STATE.ix p)

/-- The lowest-numbered SPARE pier. -/
def Dev.sparePier (d : Dev) : Option Nat := (List.range 17).find? fun p => d.pierState p == 1

/-! ### Shedding (R410, R412) -/

/-- Port `p` is down by step S5. -/
def Dev.portShed (d : Dev) (p : Nat) : Bool := 5 ≤ d.shed && (d.rd (F.PWR_SHED_GRP_B.ix (p / 32)) >>> (p % 32)) % 2 == 1

/-- Pier `p` is halted: by step S6, where it serves no octet of group A, or failed while the spare reloads after a stopped BIST run. -/
def Dev.pierHalted (d : Dev) (p : Nat) : Bool :=
  (d.shed == 6 && match d.octetOf p with
    | some o => (d.rd F.PWR_SHED_GRP_A_OCTETS >>> o) % 2 == 0
    | none => true) ||
  match d.dgn.stopped with
  | some (_, q) => q == p
  | none => false

/-- The octet's move to another pier is under way: a step or retirement has begun and not ended. Its ports hold their frames in the step
buffer, its pier starts no stroke for it, and the TM passes it no packet (R93, R100). -/
def Dev.octetStopped (d : Dev) (o : Nat) : Bool :=
  match d.img.move with
  | some x => x.octet == o && decide (x.start ≤ d.tim.tick)
  | none => false

/-- The frames held for an octet, oldest first, go before those that come (R93, R95). -/
def Dev.holdFrames (d : Dev) (o : Nat) (l : List RxFrame) : Dev :=
  let held := d.lpt.step.get (fun _ => []) o ++ d.lpt.rx.get (fun _ => []) o ++ l
  { d with lpt := { d.lpt with step := d.lpt.step.set (fun _ => []) o held, rx := d.lpt.rx.set (fun _ => []) o [] } }

/-- Octet `o` has a pier that runs. -/
def Dev.octetRuns (d : Dev) (o : Nat) : Bool :=
  match d.pierOf o with
  | some p => !d.pierHalted p
  | none => false

/-! ### Drops (R399) -/

/-- A packet dropped with a reason counts in HST_DROP_CNT of that code. -/
def Dev.dropCount (d : Dev) (reason : Nat) : Dev := d.bump (F.HST_DROP_CNT.ix (reason % 256))

namespace Drop
def rxOverrun : Nat := 0x01
def prsError : Nat := 0x02
def prgFault : Nat := 0x03
def ssLimit : Nat := 0x04
def ssQueueFull : Nat := 0x05
def ttlExpired : Nat := 0x06
def pierRetired : Nat := 0x07
def tblPoison : Nat := 0x10
def tblInvalid : Nat := 0x11
def epochExpired : Nat := 0x18
def bufExhausted : Nat := 0x20
def bufFarError : Nat := 0x21
def quePortDown : Nat := 0x28
def queTail : Nat := 0x29
def queWred : Nat := 0x2A
def queSojourn : Nat := 0x2B
def queEqRange : Nat := 0x2C
def queFlush : Nat := 0x2D
def fabTimeout : Nat := 0x30
def fabFull : Nat := 0x31
def fabCrc : Nat := 0x32
def fabFormat : Nat := 0x33
def fabStale : Nat := 0x34
def dckCrc : Nat := 0x38
def dckNoGroup : Nat := 0x39
def dckBacklog : Nat := 0x3A
def lptGate : Nat := 0x40
def lptPn : Nat := 0x41
def puntDisabled : Nat := 0x48
def injectBad : Nat := 0x49
end Drop

/-! ### Expired epochs (R58, R59) -/

/-- Is a packet with tag `t` of an expired epoch: it carries the old tag and K + L has arrived? -/
def Dev.expired (d : Dev) (t : Nat) : Bool := d.tim.ksFired && d.tim.limitPassed && t % 2 != d.liveTag

/-- A packet dropped with EPOCH_EXPIRED: in HST_DROP_CNT, in TIM_EXPIRED_CNT, and until the release in the count of
TIM_EXPIRED. -/
def Dev.dropExpired (d : Dev) : Dev :=
  let d1 := (d.dropCount Drop.epochExpired).bump F.TIM_EXPIRED_CNT
  if d.on F.TIM_BANK_STATUS_OLD_HELD then
    { d1 with tim := { d1.tim with expiredSince := d1.tim.expiredSince + 1 } }
  else d1

/-! ### Evidence (R349) -/

/-- A source of evidence bit `b` fires: the bit sets, and its 65,536 spans start again. -/
def Dev.evidence (d : Dev) (b : Nat) : Dev :=
  let d1 := d.wr F.TWN_EVIDENCE (d.rd F.TWN_EVIDENCE ||| (1 <<< b))
  { d1 with twn := { d1.twn with evidenceAt := d1.twn.evidenceAt.set (fun _ => 0) b d.tim.tick } }

end Sys2Proof.Machine
end

