-- ==== Sys2Proof/Machine/Buffer.lean ====
section
/-! DEFINITION. The buffer manager: pools, allocation with fallback, checked frees, and the CXL ports (R218 to R240). The
operations work on `Buf` where they need no more of the device. -/

namespace Sys2Proof.Machine

/-! ### Handles and pools (R218, R219) -/

/-- Pages of the far pool that belong to one CXL port: the port's place in the far index space. -/
def pagesPerPort : Nat := 100663296

/-- The most buffers a pool can hold: the index bound of R228's range check. -/
def poolMax (p : Nat) : Nat := if p = 0 then 1048576 else if p = 1 then 134217728 else 402653184

/-- The buffer size of a pool in bytes. -/
def bufBytes (p : Nat) : Nat := if p = 0 then 256 else 4096

/-- The handle of buffer `i` of pool `p`. -/
def mkHandle (p i : Nat) : Nat := (p <<< 30) + i % 2 ^ 30
/-- The pool of a handle. -/
def handlePool (h : Nat) : Nat := (h >>> 30) % 4
/-- The index of a handle. -/
def handleIdx (h : Nat) : Nat := h % 2 ^ 30
/-- The 44-bit buffer address of a handle. -/
def handleAddr (h : Nat) : Nat := (handlePool h <<< 42) + handleIdx h * bufBytes (handlePool h)
/-- The CXL port of a far handle. -/
def handlePort (h : Nat) : Nat := handleIdx h / pagesPerPort

/-! ### Accessors of `Buf` -/

/-- The holder of a buffer, if it is allocated. -/
def Buf.info (b : Buf) (h : Nat) : Option BufInfo := b.held.get (fun _ => none) h
/-- The usage count of requester `r` in pool `p`. -/
def Buf.used (b : Buf) (p r : Nat) : Nat := b.usage.get (fun _ => 0) (32 * p + r)
/-- The open page of requester `r` in pool `p`. -/
def Buf.openPage (b : Buf) (p r : Nat) : Option OpenPage := b.openPages.get (fun _ => none) (32 * p + r)
/-- CXL port `n`. -/
def Buf.port (b : Buf) (n : Nat) : CxlPort := b.cxl.get (fun _ => CxlPort.reset) n
/-- `Buf` with a buffer's holder set. -/
def Buf.setInfo (b : Buf) (h : Nat) (i : Option BufInfo) : Buf := { b with held := b.held.set (fun _ => none) h i }
/-- `Buf` with a usage count changed. -/
def Buf.updUsed (b : Buf) (p r : Nat) (f : Nat → Nat) : Buf := { b with usage := b.usage.upd (fun _ => 0) (32 * p + r) f }
/-- `Buf` with an open page set. -/
def Buf.setOpen (b : Buf) (p r : Nat) (o : Option OpenPage) : Buf :=
  { b with openPages := b.openPages.set (fun _ => none) (32 * p + r) o }
/-- `Buf` with CXL port `n` set. -/
def Buf.setPort (b : Buf) (n : Nat) (c : CxlPort) : Buf := { b with cxl := b.cxl.set (fun _ => CxlPort.reset) n c }

/-- Buffers of pool `p` held by requesters 0 to 22. -/
def Buf.usedPool (b : Buf) (p : Nat) : Nat := ((List.range 23).map (b.used p)).sum

/-- Pages of CXL port `n` allocated or not yet cleared (BUF_CXL_PAGES). -/
def Buf.heldOn (b : Buf) (n : Nat) : Nat :=
  (b.held.filter fun e => handlePool e.1 == 2 && handlePort e.1 == n && e.2.isSome).length

/-- Pages of CXL port `n` that records hold: not an open page without a record, nor one that a master has allocated (R239, R240). -/
def Buf.recordsOn (b : Buf) (n : Nat) : Nat :=
  (b.held.filter fun e => handlePool e.1 == 2 && handlePort e.1 == n && match e.2 with
    | some i => i.recs != 0 && i.owner != 21 && i.owner != 22
    | none => false).length

/-! ### Pool counts -/

/-- BUF_CXL_STATUS.STATE of port `n`: 0 ABSENT, 1 TRAINING, 2 READY, 3 UP, 4 DRAINING, 5 DOWN, 6 UNSUPPORTED. -/
def Dev.cxlState (d : Dev) (n : Nat) : Nat := d.rd (F.BUF_CXL_STATUS_STATE.ix n)

/-- BUF_POOL_SIZE: the far pool holds the joined pages of the UP ports (R218). -/
def Dev.poolSize (d : Dev) (p : Nat) : Nat :=
  if p = 0 then 1048576 else if p = 1 then 134217728
  else (((List.range 4).filter fun n => d.cxlState n == 3).map fun n => (d.buf.port n).joined).sum

/-- BUF_POOL_FREE: free buffers; the near pool without the prefetch reserve (R233), the far pool those of UP ports. -/
def Dev.poolFree (d : Dev) (p : Nat) : Nat :=
  if p = 0 then 1048576 - d.buf.usedPool 0
  else if p = 1 then 134217728 - d.buf.reserve - d.buf.usedPool 1
  else (((List.range 4).filter fun n => d.cxlState n == 3).map fun n => (d.buf.port n).joined - d.buf.heldOn n).sum

/-- The quota of requester `r` in pool `p` (BUF_QUOTA, by the selector's fields). -/
def Dev.quota (d : Dev) (p r : Nat) : Nat := d.rd (F.BUF_QUOTA_LIMIT.item (256 * p + r))

/-- The prefetch reserve's free pages (R233). -/
def Dev.reserveFree (d : Dev) : Nat := d.buf.reserve - d.buf.used 1 23

/-- A change of BUF_PF_RESERVE applies as pages become free (R233): a reserve that is too large gives up the pages it does not use, one that
is too small takes free near pages. -/
def Dev.fitReserve (d : Dev) : Dev :=
  let want := d.rd F.BUF_PF_RESERVE_PAGES
  let now := if want ≤ d.buf.reserve then max want (d.buf.used 1 23) else min want (d.buf.reserve + d.poolFree 1)
  { d with buf := { d.buf with reserve := now } }

/-- A port that went DOWN and has retrained reads READY once it holds no page (R239). -/
def Dev.settlePort (d : Dev) (n : Nat) : Dev :=
  if d.cxlState n = 5 ∧ (d.buf.port n).retrained = true ∧ d.buf.heldOn n = 0 then
    ({ d with buf := d.buf.setPort n { d.buf.port n with retrained := false } }).wr (F.BUF_CXL_STATUS_STATE.ix n) 2
  else d

/-- Whether pool `p` has fired its low notice after this change: its free count below the threshold fires it, above the re-arm level re-arms
it. A threshold of 0 disables and re-arms. -/
def Dev.lowFired (d : Dev) (p : Nat) : Bool :=
  let thr := d.rd (F.BUF_POOL_LOW_THR.ix p)
  let free := d.poolFree p
  thr != 0 && (free < thr || (d.buf.low.get (fun _ => false) p && free ≤ thr + d.poolSize p / 16))

/-- BUF_POOL_LOW: the pools whose threshold the change has crossed one way or the other. Several crossings in one clock post one event;
DESIGN CHOICE (26): which of them it names is free. -/
def Dev.lowNotice (d : Dev) : Dev :=
  let crossed := (List.range 3).filter fun p =>
    d.rd (F.BUF_POOL_LOW_THR.ix p) != 0 && d.lowFired p != d.buf.low.get (fun _ => false) p
  let (x, d1) := if crossed.length ≤ 1 then (0, d) else d.takeFree
  let d2 := d1.each (List.range 3) fun p d1 =>
    { d1 with buf := { d1.buf with low := d1.buf.low.set (fun _ => false) p (d.lowFired p) } }
  match crossed[x % max 1 crossed.length]? with
  | none => d2
  | some p => d2.post Ev.BUF_POOL_LOW [(24, 1, p), (25, 1, if d.lowFired p then 0 else 1), (28, 4, d.poolFree p)]

/-- What follows a change of the pools at the end of a command: DOWN ports that can leave that state do, the prefetch reserve follows its
register, and the low notices are posted (R233, R239, R240). -/
def Dev.lowCheck (d : Dev) : Dev := ((d.each (List.range 4) fun n d => d.settlePort n).fitReserve).lowNotice

/-! ### Choosing free buffers -/

/-- The first free index at or after `i` in a pool region of `size` buffers from `base`, wrapping; the fuel is the number of
allocated buffers and one more. -/
def Buf.findFree (b : Buf) (p base size : Nat) : Nat → Nat → Nat
  | 0, i => i % size
  | n + 1, i => if (b.info (mkHandle p (base + i % size))).isSome then b.findFree p base size n (i + 1) else i % size

/-- Take one free buffer of a region for owner `r`, with one record in it: which free buffer it is, is a free value. -/
def Dev.takeBuf (d : Dev) (p base size r : Nat) : Nat × Dev :=
  let (x, d1) := d.takeFree
  let i := base + d1.buf.findFree p base size (d1.buf.held.length + 1) x
  let h := mkHandle p i
  (h, { d1 with buf := (d1.buf.setInfo h (some ⟨r, 1⟩)).updUsed p r (· + 1) })

/-- The next UP port with a free page, from the rotation pointer (R237). -/
def Dev.farPort (d : Dev) : Option Nat :=
  ((List.range 4).map fun k => (d.buf.cxlTurn + k) % 4).find? fun n =>
    d.cxlState n == 3 && d.buf.heldOn n < (d.buf.port n).joined

/-- Take one new buffer of pool `p` for requester `r`; the caller has checked that one is free. -/
def Dev.takeOne (d : Dev) (p r : Nat) : Nat × Dev :=
  if p = 2 then
    match d.farPort with
    | some n =>
      let (h, d1) := d.takeBuf 2 (n * pagesPerPort) (max 1 (d.buf.port n).joined) r
      (h, { d1 with buf := { d1.buf with cxlTurn := (n + 1) % 4 } })
    | none => d.takeBuf 2 0 1 r
  else d.takeBuf p 0 (poolMax p) r

/-- Take `k` new buffers, in the order of their chain. -/
def Dev.takeMany (d : Dev) (p r : Nat) : Nat → List Nat × Dev
  | 0 => ([], d)
  | k + 1 =>
    let (h, d1) := d.takeOne p r
    let (t, d2) := d1.takeMany p r k
    (h :: t, d2)

/-! ### Returning buffers (R221, R228) -/

/-- The checks of a free that presents owner `o` (R228): 0 accepted, 1 RANGE, 2 ALIGN, 3 double, 4 foreign. Alignment is checked
for addresses by the caller. -/
def Dev.freeCheck (d : Dev) (h o : Nat) : Nat :=
  let p := handlePool h
  if p = 3 ∨ handleIdx h ≥ poolMax p then 1
  else if p = 2 ∧ ((d.cxlState (handlePort h) ≠ 3 ∧ d.cxlState (handlePort h) ≠ 4) ∨
      (d.buf.port (handlePort h)).joined ≤ handleIdx h % pagesPerPort) then 1
  else match d.buf.info h with
    | none => 3
    | some i => if i.recs = 0 then 3 else if i.owner ≠ o then 4 else 0

/-- Is the page some requester's open page? -/
def Buf.isOpen (b : Buf) (h : Nat) : Bool :=
  b.openPages.any fun e => match e.2 with | some o => o.handle == h | none => false

/-- A buffer goes back to its pool: it is free, and its owner's usage falls. -/
def Buf.giveBack (b : Buf) (h : Nat) : Buf :=
  match b.info h with
  | none => b
  | some i => (b.setInfo h none).updUsed (handlePool h) i.owner (· - 1)

/-- One record less in the buffer; with none left and the page not open, it goes back to its pool (R221). -/
def Buf.dropRec (b : Buf) (h : Nat) : Buf :=
  match b.info h with
  | none => b
  | some i =>
    if i.recs ≤ 1 ∧ b.isOpen h = false then b.giveBack h
    else b.setInfo h (some { i with recs := i.recs - 1 })

/-- The counter of a rejection cause (R229). -/
def rejectCounter (c : Nat) : Fld :=
  if c = 1 then F.BUF_FREE_REJ_RANGE else if c = 2 then F.BUF_FREE_REJ_ALIGN
  else if c = 3 then F.BUF_FREE_REJ_DOUBLE else F.BUF_FREE_REJ_FOREIGN

/-- A rejected free (R229): counted and posted; no buffer state changes. -/
def Dev.rejectFree (d : Dev) (c o h addr m left : Nat) : Dev :=
  let tag := match d.buf.info h with | some i => i.owner | none => 0xFF
  (d.bump (rejectCounter c)).post Ev.BUF_FREE_REJECT
    [(24, 1, c), (25, 1, o), (26, 1, tag), (27, 1, m), (28, 4, h), (32, 8, addr), (40, 4, left)]

/-- The free of a record's buffers in order (an internal free): pages on a DOWN port are removed without a check (R239); the
first rejection stops it (R229). -/
def Dev.freeRecord (d : Dev) (o : Nat) : List Nat → Dev
  | [] => d
  | h :: rest =>
    if handlePool h = 2 ∧ d.cxlState (handlePort h) = 5 then
      { d with buf := d.buf.dropRec h }.freeRecord o rest
    else
      match d.freeCheck h o with
      | 0 => { d with buf := d.buf.dropRec h }.freeRecord o rest
      | c => d.rejectFree c o h 0 0xFF rest.length

/-! ### Allocation (R220, R224 to R227) -/

/-- Sectors of a record that holds `len` packet bytes (R220). -/
def sectorsOf (len : Nat) : Nat := (128 + len + 255) / 256

/-- How an attempt in one pool ends: placed with its handles, refused by the quota, or refused for lack of free buffers. -/
inductive PoolTry where
  | placed (handles : List Nat) (d : Dev)
  | quota
  | noFree

/-- Place a record of `n` sectors in an open-page pool: the open page's free sectors first, then `k` new pages; the last new page
becomes the open page if sectors are left in it. -/
def Dev.placePaged (d : Dev) (p r n k : Nat) : List Nat × Dev :=
  let rem := match d.buf.openPage p r with | some o => o.free | none => 0
  let old := match d.buf.openPage p r with | some o => if o.free = 0 then [] else [o.handle] | none => []
  let b0 := old.foldl (fun b h => match b.info h with
    | some i => b.setInfo h (some { i with recs := i.recs + 1 })
    | none => b) d.buf
  let (new, d1) := { d with buf := b0 }.takeMany p r k
  let left := rem + 16 * k - n
  let b1 :=
    if left = 0 then d1.buf.setOpen p r none
    else match new.getLast?, old with
      | some h, _ => d1.buf.setOpen p r (some ⟨h, left, d.tim.tick⟩)
      | none, h :: _ => d1.buf.setOpen p r (some ⟨h, left, d.tim.tick⟩)
      | none, [] => d1.buf
  (old ++ new, { d1 with buf := b1 })

/-- Try to place a record of `n` sectors for requester `r` in pool `p` (R225 step 3, R224). -/
def Dev.tryPool (d : Dev) (p r n : Nat) : PoolTry :=
  let rem := match d.buf.openPage p r with | some o => o.free | none => 0
  let k := if p = 0 then n else (n - rem + 15) / 16
  let within := d.buf.used p r + k ≤ d.quota p r
  if k ≠ 0 ∧ ¬ within then .quota
  else if k ≠ 0 ∧ d.poolFree p < k then .noFree
  else if p = 0 then
    let (hs, d1) := d.takeMany 0 r k
    .placed hs d1
  else
    let (hs, d1) := d.placePaged p r n k
    .placed hs d1

/-- The priority pointer of a pool (BUF_PRIO). -/
def prioFld (p : Nat) : Fld :=
  if p = 0 then F.BUF_PRIO_POOL0 else if p = 1 then F.BUF_PRIO_POOL1 else F.BUF_PRIO_POOL2

/-- A pool refused requester `r`, the first it refused in a clock, for lack of free buffers: its pointer moves to the ID after it (R226). -/
def Dev.refusePool (d : Dev) (p r : Nat) : Dev := d.wr (prioFld p) ((r + 1) % 24)

/-- The pools a tier mask permits, in order: the far pool only with both the far and the deep-eligible bit (R225). -/
def permitted (mask : Nat) : List Nat :=
  (if mask % 2 = 1 then [0] else []) ++ (if (mask >>> 1) % 2 = 1 then [1] else []) ++
  (if (mask >>> 2) % 2 = 1 ∧ (mask >>> 8) % 2 = 1 then [2] else [])

/-- An allocation that a requester asks for in a clock: the record's sectors, the pools it may take and the first pool its mask permits. -/
structure AllocReq where
  req : Nat
  sectors : Nat
  pools : List Nat
  first : Option Nat
  deriving DecidableEq, Repr

/-- A record that a clock has placed: its requester, its pool and its buffers. -/
abbrev PlacedRec := Nat × Nat × List Nat

/-- The request for a record of `n` sectors for requester `r` under a tier mask: `spilled` queues only in the far pool (R225, R231); from
shed step S3 on the far pool counts as exhausted (R234). -/
def Dev.allocReq (d : Dev) (r n mask : Nat) (spilled : Bool) : AllocReq :=
  let all := permitted mask
  ⟨r, n, (if spilled then [2] else all).filter fun p => !(p == 2 && d.shed ≥ 3), all.head?⟩

/-- Requests in rotating priority from a pool's pointer: ascending IDs, wrapping from 23 to 0 (R226). -/
def inPriority (ptr : Nat) (rs : List AllocReq) : List AllocReq :=
  ((List.range 24).map fun k => (ptr + k) % 24).filterMap fun id => rs.find? fun r => r.req == id

/-- Pool `p` serves requests in their order, granting each that still fits: the records placed and the first requester it refused for lack
of free buffers. A quota failure is no such refusal. -/
def Dev.serveInOrder (d : Dev) (p : Nat) : List AllocReq → List PlacedRec × Option Nat × Dev
  | [] => ([], none, d)
  | r :: t =>
    match d.tryPool p r.req r.sectors with
    | .placed hs d1 =>
      let (l, x, d2) := d1.serveInOrder p t
      ((r.req, p, hs) :: l, x, d2)
    | .quota => d.serveInOrder p t
    | .noFree =>
      let (l, _, d1) := d.serveInOrder p t
      (l, some r.req, d1)

/-- Pool `p` serves the requests of a clock that may take it and that no pool before it has placed: its own and those that fell back to it
compete on equal terms (R226). Has it refused one? -/
def Dev.servePool (d : Dev) (p : Nat) (placed : List PlacedRec) (rs : List AllocReq) : List PlacedRec × Bool × Dev :=
  let want := rs.filter fun r => r.pools.contains p && !placed.any fun x => x.1 == r.req
  let (l, x, d1) := d.serveInOrder p (inPriority (d.rd (prioFld p)) want)
  match x with
  | none => (placed ++ l, false, d1)
  | some r => (placed ++ l, true, d1.refusePool p r)

/-- One clock's allocations, at most one of each requester (R225, R226): the records placed. DESIGN CHOICE (26): the arrivals of one ENQUEUE
share a clock, and so do the deliveries of one DECK_SLOT; a copy of the replication engine and a read of BUF_ALLOC, commands of their own, have a
clock each. A record outside the first pool permitted counts in FALLBACK, one that no pool takes in EXHAUSTED_DROP, and a clock in which a pool refused one in CONTESTS. -/
def Dev.allocClock (d : Dev) (rs : List AllocReq) : List PlacedRec × Dev :=
  let (l0, c0, d0) := d.servePool 0 [] rs
  let (l1, c1, d1) := d0.servePool 1 l0 rs
  let (l2, c2, d2) := d1.servePool 2 l1 rs
  (l2, (d2.when (c0 || c1 || c2) (·.bump F.BUF_CONTESTS)).each rs fun r d =>
    match l2.find? fun x => x.1 == r.req with
    | some x => d.when (r.first != some x.2.1) (·.bump F.BUF_FALLBACK)
    | none => d.bump F.BUF_EXHAUSTED_DROP)

/-- A record of `n` sectors for requester `r`, alone in its clock. -/
def Dev.alloc (d : Dev) (r n mask : Nat) (spilled : Bool) : Option (Nat × List Nat) × Dev :=
  let (l, d1) := d.allocClock [d.allocReq r n mask spilled]
  ((l.head?).map (·.2), d1)

/-! ### Register commands -/

/-- The requester of a master's BUF_ALLOC and its presenting owner: 21 for masters 6 and 7, 22 for 0 to 5 (R222, R228). -/
def masterReq (m : Nat) : Option Nat := if m = 6 ∨ m = 7 then some 21 else if m ≤ 5 then some 22 else none

/-- BUF_ALLOC_READ: the low-half read allocates one whole buffer and returns its address; the high half is latched. FAIL when the
quota or the pool refuses, or for another master; a pool without a free buffer moves its pointer (R226). -/
def bufAllocRead (m p : Nat) (d : Dev) : Dev :=
  let latch := fun (v : Nat) (d : Dev) =>
    let key := halfKey m (F.BUF_ALLOC.ix p).off
    let d1 := { d with latches := d.latches.set (fun _ => none) key (some (BitVec.ofNat 32 (v >>> 32))) }
    d1.answer v
  match masterReq m with
  | none => latch (1 <<< 63) d
  | some r =>
    if d.buf.used p r + 1 ≤ d.quota p r ∧ 1 ≤ d.poolFree p ∧ ¬ (p = 2 ∧ d.shed ≥ 3) then
      let (h, d1) := d.takeOne p r
      (latch (handleAddr h) d1).lowCheck
    else if d.buf.used p r + 1 ≤ d.quota p r ∧ ¬ (p = 2 ∧ d.shed ≥ 3) then latch (1 <<< 63) ((d.refusePool p r).bump F.BUF_CONTESTS)
    else latch (1 <<< 63) d

/-- Record the result of a master's free. -/
def Dev.setFreeResult (d : Dev) (m c : Nat) : Dev :=
  { d with buf := { d.buf with freeResult := d.buf.freeResult.set (fun _ => 0) m c } }

/-- A checked free by a master of a handle, given its buffer address for the event and the alignment verdict. -/
def Dev.masterFree (d : Dev) (m h addr : Nat) (badRange badAlign : Bool) : Dev :=
  match masterReq m with
  | none => d
  | some o =>
    let c0 := if badRange then 1 else d.freeCheck h o
    let c := if c0 = 1 then 1 else if badAlign then 2 else c0
    if c = 0 then ({ d with buf := d.buf.dropRec h }.setFreeResult m 0).lowCheck
    else (d.rejectFree c o h addr m 0).setFreeResult m c

/-- BUF_FREE_HANDLE: a checked free of a handle (R228). -/
def bufFreeHandle (m : Nat) (w : Word) (d : Dev) : Dev := d.masterFree m w.toNat (handleAddr w.toNat) false false

/-- A buffer address as a free: bits 63 to 44 must be 0; the handle is the one its tier and offset give. -/
def Dev.freeAddr (d : Dev) (m addr : Nat) : Dev :=
  let p := (addr >>> 42) % 4
  let ofs := addr % 2 ^ 42
  let h := mkHandle p (ofs / bufBytes p)
  d.masterFree m h addr (addr ≥ 2 ^ 44 || ofs / bufBytes p ≥ poolMax p) (ofs % bufBytes p != 0)

/-- BUF_FREE_ADDR: the write of the high half submits the address with the low half that the master has staged (R8). -/
def bufFreeAddr (m : Nat) (high : Word) (d : Dev) : Dev :=
  let addr := d.stagedLow m F.BUF_FREE_ADDR.off (d.rd F.BUF_FREE_ADDR) + (high.toNat <<< 32)
  ((d.unstage m F.BUF_FREE_ADDR.off).wr F.BUF_FREE_ADDR addr).freeAddr m addr

/-- OPEN_PAGE_TIMEOUT: a page in which its requester has placed nothing for 64 spans stops being open; it goes back to its pool
if it holds no record (R221). -/
def openPageTimeout (r p : Nat) (d : Dev) : Dev :=
  match d.buf.openPage p r with
  | none => d
  | some o =>
    if d.tim.tick < o.last + 64 then d else
    let b := d.buf.setOpen p r none
    let empty := match b.info o.handle with | some i => i.recs == 0 | none => false
    ({ d with buf := if empty then b.giveBack o.handle else b }).lowCheck

/-- R230: every buffer of every pool is returned, every open page closed, every usage count 0. -/
def Dev.returnAllBuffers (d : Dev) : Dev :=
  { d with buf := { d.buf with held := [], usage := [], openPages := [] } }

/-! ### CXL ports (R235 to R239) -/

/-- The device has a far tier (R4). -/
def Dev.farAvail (d : Dev) : Bool := d.sec.fuses.farAvail

/-- CXL_DEGRADED for a port. -/
def Dev.postDegraded (d : Dev) (n width rate bad : Nat) : Dev :=
  d.post Ev.BUF_CXL_DEGRADED [(24, 1, n), (25, 1, width), (26, 1, rate), (27, 1, bad)]

/-- A READY port's pages join the far pool, at most the limit read at its Enable: state UP (R237). -/
def Dev.cxlJoin (d : Dev) (n limit : Nat) : Dev :=
  let c := d.buf.port n
  let pages := min limit c.capacity
  let d1 := { d with buf := d.buf.setPort n { c with joined := pages, enableDue := none, disabled := false } }
  (d1.wr (F.BUF_CXL_STATUS_STATE.ix n) 3).post Ev.BUF_CXL_UP
    [(24, 1, n), (25, 1, d.rd (F.BUF_CXL_STATUS_WIDTH.ix n)), (26, 1, 0), (28, 4, pages)]

/-- CXL_LINK_TRAINED: a TRAINING port's link trains with a width, a rate and an expander of some pages (R236). A link outside R235
reads UNSUPPORTED; a ×8 link is usable and reported. -/
def cxlLinkTrained (n width rate pages : Nat) (supported : Bool) (d : Dev) : Dev :=
  if d.cxlState n ≠ 1 then d else
  let d1 := (d.wr (F.BUF_CXL_STATUS_WIDTH.ix n) width).wr (F.BUF_CXL_STATUS_RATE.ix n) rate
  if supported ∧ (width = 16 ∨ width = 8) ∧ rate = 64 then
    let c := d1.buf.port n
    let d2 := ({ d1 with buf := d1.buf.setPort n { c with capacity := pages } }).wr (F.BUF_CXL_STATUS_STATE.ix n) 2
    let d3 := if width = 8 then d2.postDegraded n width rate 0 else d2
    match c.enableDue with
    | some limit => (d3.cxlJoin n limit).lowCheck
    | none => d3
  else (d1.wr (F.BUF_CXL_STATUS_STATE.ix n) 6).postDegraded n width rate 1

/-- CXL_TRAIN_TIMEOUT: a TRAINING port returns to ABSENT, its domain still on (R236). -/
def cxlTrainTimeout (n : Nat) (d : Dev) : Dev :=
  if d.cxlState n ≠ 1 then d else d.wr (F.BUF_CXL_STATUS_STATE.ix n) 0

/-- Firmware starts training a port's link, in a part with a far tier and with the port's domain on (R236). -/
def Dev.cxlStartTraining (d : Dev) (n : Nat) : Dev :=
  if d.farAvail && d.cxlState n == 0 && d.domainOn (131 + n) then
    ({ d with buf := d.buf.setPort n { d.buf.port n with triedAt := some d.tim.tick } }).wr (F.BUF_CXL_STATUS_STATE.ix n) 1
  else d

/-- May firmware try to train a port again: 976,563 spans after its last attempt began, or at once where none has (R236)? -/
def Dev.cxlMayTry (d : Dev) (n : Nat) : Bool :=
  match (d.buf.port n).triedAt with
  | some t => t + 976563 ≤ d.tim.tick
  | none => true

/-- CXL_TRAIN_RETRY: an ABSENT port that is not disabled trains again (R236). -/
def cxlTrainRetry (n : Nat) (d : Dev) : Dev :=
  if (d.buf.port n).disabled || !d.cxlMayTry n then d else d.cxlStartTraining n

/-- A refused CXL command (R237). -/
def Dev.cxlRefuse (d : Dev) (m n cmd : Nat) : Dev :=
  d.post Ev.BUF_CFG_REFUSED [(24, 1, n), (25, 1, cmd), (26, 1, d.cxlState n), (27, 1, m)]

/-- CXL_ENABLE: a READY port's pages join; an ABSENT port's domain goes on, training starts and its pages join at READY. Accepted in
M2 to M5 (R237), on a part with a far tier (R4). -/
def cxlEnable (m n : Nat) (d : Dev) : Dev :=
  let modeOk := d.mode == .m2 || d.mode == .m3 || d.mode == .m4 || d.mode == .m5
  let limit := d.rd (F.BUF_CXL_LIMIT_PAGES.ix n)
  if modeOk && d.cxlState n == 2 then (d.cxlJoin n limit).lowCheck
  else if modeOk && d.cxlState n == 0 && d.farAvail then
    let c := d.buf.port n
    let d1 := { d with buf := d.buf.setPort n { c with enableDue := some limit, disabled := false } }
    let f : Fld := { F.PWR_DOM_STATUS.ix ((131 + n) / 32) with lo := (131 + n) % 32, w := 1 }
    (d1.wr f 1).cxlStartTraining n
  else d.cxlRefuse m n 1

/-- CXL_DRAIN: no new far page from an UP port; state DRAINING (R237). -/
def cxlDrain (m n : Nat) (d : Dev) : Dev :=
  if d.cxlState n = 3 then (d.wr (F.BUF_CXL_STATUS_STATE.ix n) 4).lowCheck else d.cxlRefuse m n 2

/-- CXL_DRAIN_COMPLETE: a DRAINING port that holds no page reads READY (R237). -/
def cxlDrainComplete (n : Nat) (d : Dev) : Dev :=
  if d.cxlState n = 4 ∧ d.buf.heldOn n = 0 then
    (d.wr (F.BUF_CXL_STATUS_STATE.ix n) 2).post Ev.BUF_CXL_UP
      [(24, 1, n), (25, 1, d.rd (F.BUF_CXL_STATUS_WIDTH.ix n)), (26, 1, 1), (28, 4, (d.buf.port n).joined)]
  else d

/-- CXL_DISABLE: accepted in READY, or in DRAINING with no page held; the link goes down, the domain off, state ABSENT (R237). -/
def cxlDisable (m n : Nat) (d : Dev) : Dev :=
  if d.cxlState n = 2 ∨ (d.cxlState n = 4 ∧ d.buf.heldOn n = 0) then
    let c := d.buf.port n
    let d1 := { d with buf := d.buf.setPort n { c with joined := 0, disabled := true, enableDue := none } }
    let f : Fld := { F.PWR_DOM_STATUS.ix ((131 + n) / 32) with lo := (131 + n) % 32, w := 1 }
    (d1.setReg (F.BUF_CXL_STATUS.ix n).off 0).wr f 0
  else d.cxlRefuse m n 3

/-- CXL_LINK_FAIL: an UP or DRAINING port goes DOWN, its free pages leave the far pool (R239). -/
def cxlLinkFail (n : Nat) (surprise : Bool) (d : Dev) : Dev :=
  if d.cxlState n ≠ 3 ∧ d.cxlState n ≠ 4 then d else
  let c := d.buf.port n
  let held := d.buf.heldOn n
  let d1 := ({ d with buf := d.buf.setPort n { c with retrained := false } }).wr (F.BUF_CXL_STATUS_STATE.ix n) 5
  (d1.post Ev.BUF_CXL_DOWN
    [(24, 1, n), (25, 1, if surprise then 2 else 1), (28, 4, if d.cxlState n = 3 then c.joined - held else 0),
     (32, 4, d.buf.recordsOn n)]).lowCheck

/-- CXL_LINK_RETRAINED: a DOWN port's link has retrained; it reads READY once it holds no page (R239). -/
def cxlLinkRetrained (n : Nat) (d : Dev) : Dev :=
  if d.cxlState n = 5 then
    { d with buf := d.buf.setPort n { d.buf.port n with retrained := true } }.settlePort n
  else d

/-! ### The commands -/

/-- OPEN_PAGE_TIMEOUT. -/
def execOpenPageTimeout (r : Fin 24) (p : Fin 3) (s : State) : Host.Outcome State Fault Refusal :=
  .next { s with dev := openPageTimeout r.val p.val s.dev }
/-- BUF_ALLOC_READ. -/
def execBufAllocRead (m : Master) (p : Fin 3) (s : State) : Host.Outcome State Fault Refusal :=
  .next { s with dev := s.dev.onRead m.val (F.BUF_ALLOC.ix p.val).off (bufAllocRead m.val p.val) }
/-- BUF_FREE_ADDR. -/
def execBufFreeAddr (m : Master) (high : Word) (s : State) : Host.Outcome State Fault Refusal :=
  onReg s m.val F.BUF_FREE_ADDR.off (bufFreeAddr m.val high)
/-- BUF_FREE_HANDLE. -/
def execBufFreeHandle (m : Master) (w : Word) (s : State) : Host.Outcome State Fault Refusal :=
  onReg s m.val F.BUF_FREE_HANDLE.off (bufFreeHandle m.val w)
/-- CXL_LINK_TRAINED. -/
def execCxlLinkTrained (n : Fin 4) (w : BitVec 5) (r : BitVec 7) (pages : Word) (ok : Bool) (s : State) :
    Host.Outcome State Fault Refusal :=
  .next { s with dev := cxlLinkTrained n.val w.toNat r.toNat pages.toNat ok s.dev }
/-- CXL_TRAIN_TIMEOUT. -/
def execCxlTrainTimeout (n : Fin 4) (s : State) : Host.Outcome State Fault Refusal :=
  .next { s with dev := cxlTrainTimeout n.val s.dev }
/-- CXL_TRAIN_RETRY. -/
def execCxlTrainRetry (n : Fin 4) (s : State) : Host.Outcome State Fault Refusal :=
  .next { s with dev := cxlTrainRetry n.val s.dev }
/-- CXL_ENABLE. -/
def execCxlEnable (m : Master) (n : Fin 4) (s : State) : Host.Outcome State Fault Refusal :=
  onReg s m.val (F.BUF_CXL_CTRL.ix n.val).off (cxlEnable m.val n.val)
/-- CXL_DRAIN. -/
def execCxlDrain (m : Master) (n : Fin 4) (s : State) : Host.Outcome State Fault Refusal :=
  onReg s m.val (F.BUF_CXL_CTRL.ix n.val).off (cxlDrain m.val n.val)
/-- CXL_DRAIN_COMPLETE. -/
def execCxlDrainComplete (n : Fin 4) (s : State) : Host.Outcome State Fault Refusal :=
  .next { s with dev := cxlDrainComplete n.val s.dev }
/-- CXL_DISABLE. -/
def execCxlDisable (m : Master) (n : Fin 4) (s : State) : Host.Outcome State Fault Refusal :=
  onReg s m.val (F.BUF_CXL_CTRL.ix n.val).off (cxlDisable m.val n.val)
/-- CXL_LINK_FAIL. -/
def execCxlLinkFail (n : Fin 4) (surprise : Bool) (s : State) : Host.Outcome State Fault Refusal :=
  .next { s with dev := cxlLinkFail n.val surprise s.dev }
/-- CXL_LINK_RETRAINED. -/
def execCxlLinkRetrained (n : Fin 4) (s : State) : Host.Outcome State Fault Refusal :=
  .next { s with dev := cxlLinkRetrained n.val s.dev }

end Sys2Proof.Machine
end

