-- ==== Sys2Proof/Machine/Crc.lean ====
section
/-! DEFINITION. The cyclic redundancy checks the spec names: CRC-32 of Ethernet (R108), CRC-32C (R157, R293), CRC-16/CCITT (R291) and
CRC-64/ECMA-182 (R337). -/

namespace Sys2Proof.Machine

/-- One bit of a reflected CRC. -/
def crcBitR (poly c : Nat) : Nat := if c % 2 = 1 then (c >>> 1) ^^^ poly else c >>> 1

/-- Eight bits of a reflected CRC. -/
def crcByteR (poly c : Nat) (b : Byte) : Nat :=
  let f := crcBitR poly
  f (f (f (f (f (f (f (f (c ^^^ b.toNat))))))))

/-- One bit of a CRC of width `w`, most significant bit first. -/
def crcBitL (w poly c : Nat) : Nat := ((c <<< 1) ^^^ (if c >>> (w - 1) = 1 then poly else 0)) % 2 ^ w

/-- Eight bits of such a CRC. -/
def crcByteL (w poly c : Nat) (b : Byte) : Nat :=
  let f := crcBitL w poly
  f (f (f (f (f (f (f (f (c ^^^ (b.toNat <<< (w - 8))))))))))

/-- The FCS of Ethernet over bytes: initial value and final inversion of all ones, reflected (R440). -/
def crc32 (l : List Byte) : Nat := (l.foldl (crcByteR 0xEDB88320) 0xFFFFFFFF) ^^^ 0xFFFFFFFF

/-- CRC-32C of bytes from an initial value, final inversion, reflected (R157 gives its parameters). -/
def crc32cFrom (init : Nat) (l : List Byte) : Nat := (l.foldl (crcByteR 0x82F63B78) init) ^^^ 0xFFFFFFFF

/-- CRC-32C with the initial value 0xFFFF_FFFF (R293). -/
def crc32c (l : List Byte) : Nat := crc32cFrom 0xFFFFFFFF l

/-- CRC-16/CCITT, initial value 0xFFFF, most significant bit first (R291, R441). -/
def crc16 (l : List Byte) : Nat := l.foldl (crcByteL 16 0x1021) 0xFFFF

/-- CRC-64/ECMA-182 going on from a value: polynomial 0x42F0E1EBA9EA3693, most significant bit first. -/
def crc64From (c : Nat) (l : List Byte) : Nat := l.foldl (crcByteL 64 0x42F0E1EBA9EA3693) c

/-- CRC-64/ECMA-182: initial value 0, no final inversion (R441). -/
def crc64 (l : List Byte) : Nat := crc64From 0 l

/-- The bytes of a wide word, byte 0 the least significant. -/
def bytesOf {w : Nat} (x : BitVec w) : List Byte := leBytes (w / 8) x.toNat

end Sys2Proof.Machine
end

