-- ==== Sys2Proof/Machine/Mirror.lean ====
section
/-! DEFINITION. Ralin frames, the mirror stream and its records, and register writes that the twin mirrors (R333 to R343). -/

namespace Sys2Proof.Machine

/-! ### Frames (R336 to R338) -/

/-- TWN_CTRL.EN. -/
def Dev.twinOn (d : Dev) : Bool := d.on F.TWN_CTRL_EN

/-- Ralin lanes that are locked. -/
def Dev.ralinLanes (d : Dev) : Nat := d.rd F.TWN_STATUS_LANES

/-- The Ralin link is up while at least one lane is locked (R336). -/
def Dev.ralinUp (d : Dev) : Bool := d.ralinLanes != 0

/-- The locked lanes change. DESIGN CHOICE (32): messages that wait when the last lane goes are dropped; those of the mirror stream stay among
the kept ones. -/
def Dev.setLanes (d : Dev) (v : Nat) : Dev :=
  let d1 := d.wr F.TWN_STATUS_LANES v
  if d1.ralinUp then d1 else { d1 with twn := { d1.twn with waiting := [] } }

/-- The locked lanes, in ascending order. -/
def Dev.lockedLanes (d : Dev) : List Nat := (List.range 8).filter fun n => (d.ralinLanes >>> n) % 2 == 1

/-- The marker before frame `f` of a span: the frame index in bits [4:0], even parity in bit 15 (R336). -/
def ralinMarker (f : Nat) : BitVec 16 :=
  let i := f % 32
  BitVec.ofNat 16 (i + 32768 * ((i + i / 2 + i / 4 + i / 8 + i / 16) % 2))

/-- A frame of R337 over its 488 payload bytes. -/
def ralinFrame (type flags len seq span lane : Nat) (payload : List Byte) : BitVec 4096 :=
  let body := leBytes 1 type ++ leBytes 1 flags ++ leBytes 2 len ++ leBytes 4 seq ++ leBytes 6 span ++ leBytes 1 lane ++
    leBytes 1 0 ++ bytesAt payload 0 488
  BitVec.ofNat 4096 (leNat (body ++ leBytes 8 (crc64 body)))

/-- The Priority column of R338. -/
def ralinPrio (type : Nat) : Nat :=
  if type = 2 then 1 else if type = 4 ∨ type = 5 then 2 else if type = 3 ∨ type = 8 then 3 else if type = 6 then 4 else 5

/-- A message waits for a frame position, if the link is up. DESIGN CHOICE (32): with the link down it is not sent at all. -/
def Dev.ralinPut (d : Dev) (x : RalinMsg) : Dev :=
  if d.ralinUp then { d with twn := { d.twn with waiting := d.twn.waiting ++ [x] } } else d

/-- A message of a type outside the mirror stream, or with the SEQ given. -/
def Dev.ralinSend (d : Dev) (type seq : Nat) (payload : List Byte) : Dev :=
  d.ralinPut { prio := ralinPrio type, type := type, seq := seq, payload := payload }

/-- A MIRROR or VERDICT frame: the next SEQ of the mirror stream; the last 16,384 frames are kept, and one that leaves them unacknowledged
is a mirror failure (R340). -/
def Dev.mirrorSend (d : Dev) (type : Nat) (payload : List Byte) : Dev :=
  let seq := d.twn.txSeq
  let x : RalinMsg := { prio := ralinPrio type, type := type, seq := seq, payload := payload }
  let kept := d.twn.txKept ++ [(seq, d.tim.tick, x)]
  let due := if kept.length ≤ 16384 then d.twn.mirrorDue else some (3, (kept.map (·.1)).headD 0, 0)
  ({ d with twn := { d.twn with
    txSeq := (seq + 1) % 2 ^ 32, txKept := kept.drop (kept.length - 16384), mirrorDue := due } }).ralinPut x

/-- The place of the message that the next frame position carries: the oldest of the first priority that any waits with (R338). -/
def nextMsg (l : List RalinMsg) : Option Nat :=
  (List.range 6).findSome? fun p => l.findIdx? fun x => x.prio == p

/-- A message leaves on lane `n` in frame `f` of the span: a frame of the mirror stream notes when it was sent (R340). -/
def Dev.emitMsg (d : Dev) (n f : Nat) (x : RalinMsg) : Dev :=
  let o : RalinOut := { lane := n, marker := ralinMarker f,
                        frame := ralinFrame x.type 0 (min x.payload.length 488) x.seq d.tim.span n x.payload }
  { d with twn := { d.twn with
    out := d.twn.out ++ [o],
    txKept := d.twn.txKept.map fun k => if (x.type = 2 ∨ x.type = 4) ∧ k.1 = x.seq then (k.1, d.tim.tick, k.2.2) else k } }

/-- Frame position `f` of lane `n`: the waiting message whose turn it is, or IDLE (R338). -/
def Dev.fillPosition (d : Dev) (f n : Nat) : Dev :=
  match nextMsg d.twn.waiting with
  | some i =>
    match d.twn.waiting[i]? with
    | some x => ({ d with twn := { d.twn with waiting := d.twn.waiting.eraseIdx i } }).emitMsg n f x
    | none => d
  | none => d.emitMsg n f { prio := 0, type := 0, seq := 0, payload := [] }

/-- The frame position that starts in this slot: frame f of a span starts at slot 4f, on each locked lane in order; frame 0 carries the
heartbeat, which HEARTBEAT_SEND sends (R336, R338). -/
def Dev.ralinSlot (d : Dev) : Dev :=
  if d.twinOn = true ∧ d.runSlot % 4 = 0 ∧ d.runSlot ≠ 0 then d.each d.lockedLanes fun n d => d.fillPosition (d.runSlot / 4) n else d

/-! ### Mirror records (R341, R342) -/

/-- The peer's role, as its last valid heartbeat shows it (TWN_PEER.STATE). -/
def Dev.peerState (d : Dev) : Nat := d.rd F.TWN_PEER_STATE

/-- The device mirrors, but for the write of a firing action (R49): in M4, to a peer in M5, or in M6 from the start of a copy (R342). A heartbeat
loss alone does not end it: the peer last seen in M5 may still be there. -/
def Dev.mirrorOn (d : Dev) : Bool := d.twinOn && !d.twn.quiet && d.mode == .m4 && (d.peerState == 5 || d.twn.mirroring)

/-- The span A at which a mirrored change applies (R341). -/
def Dev.mirrorSpan (d : Dev) : Nat := spanAdd d.tim.span (d.rd F.TWN_CFG_LEAD)

/-- The bytes of a mirror record, padded to a multiple of 8. -/
def mirrorBytes (kind master apply : Nat) (body : List Byte) : List Byte :=
  let n := (16 + body.length + 7) / 8 * 8
  bytesAt (leBytes 1 kind ++ leBytes 1 master ++ leBytes 2 n ++ leBytes 6 apply ++ leBytes 6 0 ++ body) 0 n

/-- Mirror a change to the peer: kinds 1, 2, 5 and 6 carry their span A. -/
def Dev.mirror (d : Dev) (kind master : Nat) (body : List Byte) : Dev :=
  if d.mirrorOn then
    d.mirrorSend 2 (mirrorBytes kind master (if kind = 3 ∨ kind = 4 then 0 else d.mirrorSpan) body)
  else d

/-- The mark of a record that the active keeps for itself, in place of the SEQ of a frame. -/
def ownSeq : Nat := 2 ^ 32

/-- A change that takes effect at A on the active too: it waits for A here, and is mirrored. -/
def Dev.mirrorDefer (d : Dev) (kind master : Nat) (body : List Byte) : Dev :=
  let r : MirrorRec := { kind := kind, master := master, apply := d.mirrorSpan, body := body, seq := ownSeq }
  ({ d with twn := { d.twn with records := d.twn.records ++ [r] } }).mirror kind master body

/-- A change that R342 mirrors at A: at once while the device does not mirror, at A while it does. -/
def Dev.atMirror (d : Dev) (kind master : Nat) (body : List Byte) (now : Dev → Dev) : Dev :=
  if d.mirrorOn then d.mirrorDefer kind master body else now d

/-- A standby ignores the write of a master other than 8 into a mirrored window (R343). -/
def Dev.localBarred (d : Dev) (m : Nat) : Bool := (d.mode == .m5 || d.mode == .m6) && m != 8

/-- A write into a mirrored window whose register is not mirrored (R342, R343): QUE's histogram registers, the selectors and snapshot registers
of TBL and DCK, and PIR_CTRL and PIR_FAULT in the broadcast window. A standby ignores a local one as well. -/
def Dev.localWrite (d : Dev) (m off : Nat) (f : Dev → Dev) : Dev :=
  if d.localBarred m then d.post Ev.TWN_LOCAL_WRITE [(24, 1, m), (28, 4, off)] else f d

/-- A register write into a mirrored window (R342, R343): on the standby a local write is ignored and posted; otherwise it takes effect and,
on a device that mirrors, goes to the peer. -/
def Dev.mirroredWrite (d : Dev) (m off data : Nat) (f : Dev → Dev) : Dev :=
  if d.localBarred m then d.post Ev.TWN_LOCAL_WRITE [(24, 1, m), (28, 4, off)]
  else (f d).mirror 2 m (leBytes 4 off ++ leBytes 4 data)

/-- A configuration register of the TBL window: learning, the engine, ageing and the rehash parameters. DEDUCED (32): as part of a mirrored
window (R342, R343) and of its configuration (R354) their writes are mirrored and they are copied; TBL_TAE_WIN, the snapshot registers and
TBL_POISON_LOG are neither, but a standby ignores local writes of them as of the whole window (R343). -/
def tblConfig (off : Nat) : Bool :=
  off == F.TBL_LEARN_CFG_EN.off || off == F.TBL_TAE_CFG_MAX_MOVES.off || off == F.TBL_AGE_CFG_EN.off ||
  off == F.TBL_REHASH_BASE_BASE.off || off == F.TBL_REHASH_CAP_CAPACITY.off ||
  (F.TBL_REHASH_SEED.off ≤ off && off < F.TBL_REHASH_SEED.off + 8) ||
  (F.TBL_REHASH_PEND_PEND.off ≤ off && off < F.TBL_REHASH_PEND_PEND.off + 32)

/-- A write command into a mirrored window. -/
def onMirrored (s : State) (m off data : Nat) (f : Dev → Dev) : Host.Outcome State Fault Refusal :=
  onReg s m off fun d => d.mirroredWrite m off data f

end Sys2Proof.Machine
end

