-- ==== Sys2Proof/Machine/Flow.lean ====
section
/-! DEFINITION. The precision clock as the ports read it, and flow control: received pauses, generated PFC and PAUSE frames, gates
and the room of a transmit buffer (R43, R115 to R122, R254). -/

namespace Sys2Proof.Machine

/-! ### The PHC (R43) -/

/-- A 32-bit word as a signed number. -/
def signed32 (n : Nat) : Int := (BitVec.ofNat 32 n).toInt

/-- The PHC at a span and a tick of 0.32 ns, in units of 2^-16 ns: ToD base, span and tick terms, correction (R43). The fraction
of a tick below 2^-16 ns is cut off. -/
def Dev.phcUnits (d : Dev) (span tick : Nat) : Nat :=
  let base : Int := ((d.rd F.TIM_TOD_BASE * 1000000000 + d.rd F.TIM_TOD_BASE_NS + span * 1024000) * 65536 +
    (tick * 2097152) / 100 : Nat)
  (base + signed32 (d.rd F.TIM_CORR)).toNat

/-- The PHC now in ns, at the present slot. -/
def Dev.phcNs (d : Dev) : Nat := d.phcUnits d.tim.span (32 * d.tim.slot) / 65536

/-- The instant at a tick of 0.32 ns of the present span, in 0.01 ns of the internal span tick. -/
def Dev.instant (d : Dev) (tick : Nat) : Nat := d.tim.tick * 102400 + 32 * tick

/-- The present slot of the internal span tick, counted from its start. -/
def Dev.slotTick (d : Dev) : Nat := 100 * d.tim.tick + d.tim.tickSlot

/-- The end of the present slot, likewise: an instant below it lies in this slot or before it. -/
def Dev.slotEnd (d : Dev) : Nat := d.instant (32 * d.tim.tickSlot + 32)

/-- A timestamp as metadata RX_TS and the punt descriptor hold it is built from seconds and ns; this is the pair. -/
def nsPair (ns : Nat) : Nat × Nat := (ns / 1000000000, ns % 1000000000)

/-! ### Line ports -/

/-- Line port `p`. -/
def Dev.lp (d : Dev) (p : Nat) : LptPort := d.lpt.ports.get (fun _ => LptPort.reset) p

/-- The device with line port `p` replaced. -/
def Dev.setLp (d : Dev) (p : Nat) (x : LptPort) : Dev :=
  { d with lpt := { d.lpt with ports := d.lpt.ports.set (fun _ => LptPort.reset) p x } }

/-- The device with line port `p` changed. -/
def Dev.updLp (d : Dev) (p : Nat) (f : LptPort → LptPort) : Dev := d.setLp p (f (d.lp p))

/-- LPT_CTRL.FLOW: 0 none, 1 PAUSE, 2 PFC. -/
def Dev.flowMode (d : Dev) (p : Nat) : Nat := d.rd (F.LPT_CTRL_FLOW.port p)

/-- LPT_STATUS.LINK: the port is up. -/
def Dev.linkUp (d : Dev) (p : Nat) : Bool := d.on (F.LPT_STATUS_LINK.port p)

/-! ### Generated flow control (R117) -/

/-- Does port `p` send at all: it is up, and its transmitter is neither stopped nor idle (R23, R352, R436)? -/
def Dev.lineSends (d : Dev) (p : Nat) : Bool := d.linkUp p && !d.lineStopped && !d.silent

/-- The port sends a control frame: PFC for a class, or PAUSE (class 8), with its pause time; it counts in TX_FLOW_CTRL. -/
def Dev.sendPause (d : Dev) (p cls time : Nat) : Dev :=
  (d.updLp p fun x => { x with ctlOut := x.ctlOut ++ [(cls, time)],
                               ctlAt := x.ctlAt.set (fun _ => 0) cls (d.instant (32 * d.tim.tickSlot)) }).when (p < 128) (·.bump (F.LPT_TX_FLOW_CTRL.port p))

/-- The bytes that R117 compares for a class: its own count in PFC mode, the sum over all classes in PAUSE mode. -/
def Dev.flowBytes (d : Dev) (p cls : Nat) : Nat :=
  if d.flowMode p = 1 then ((List.range 8).map fun c => (d.lp p).held.get (fun _ => 0) c).sum
  else (d.lp p).held.get (fun _ => 0) cls

/-- The class that flow control works on: the class itself in PFC mode, bit 0 for the sum in PAUSE mode. -/
def Dev.flowBit (d : Dev) (p cls : Nat) : Nat := if d.flowMode p = 1 then 0 else cls

/-- The control frame's class: the class in PFC mode, 8 in PAUSE mode. -/
def Dev.flowFrame (d : Dev) (p cls : Nat) : Nat := if d.flowMode p = 1 then 8 else cls

/-- XOFF and XON crossings after a change of a class's count (R117): above XOFF the port sends the pause time QUANTA, below XON a
pause time of 0. XOFF = 0 generates nothing. -/
def Dev.flowCheck (d : Dev) (p cls : Nat) : Dev :=
  let xoff := d.rd (F.LPT_PFC_THR_XOFF.port p) * 4096
  let xon := d.rd (F.LPT_PFC_THR_XON.port p) * 4096
  let n := d.flowBytes p cls
  let b := d.flowBit p cls
  if (d.flowMode p = 1 ∨ d.flowMode p = 2) ∧ d.lineSends p = true then
    if xoff ≠ 0 ∧ n > xoff ∧ bitOn (d.lp p).xoff b = false then
      (d.updLp p fun x => { x with xoff := putBit x.xoff b true }).sendPause p (d.flowFrame p cls)
        (d.rd (F.LPT_PFC_QUANTA.port p))
    else if n < xon ∧ bitOn (d.lp p).xoff b = true then
      (d.updLp p fun x => { x with xoff := putBit x.xoff b false }).sendPause p (d.flowFrame p cls) 0
    else d
  else d

/-- The class counts of a port change by a record of `n` bytes placed. -/
def Dev.flowAdd (d : Dev) (fl : Option (Nat × Nat)) (n : Nat) : Dev :=
  match fl with
  | none => d
  | some (p, c) => (d.updLp p fun x => { x with held := x.held.upd (fun _ => 0) c (· + n) }).flowCheck p c

/-- The class counts of a port change by a record of `n` bytes that leaves. -/
def Dev.flowSub (d : Dev) (fl : Option (Nat × Nat)) (n : Nat) : Dev :=
  match fl with
  | none => d
  | some (p, c) => (d.updLp p fun x => { x with held := x.held.upd (fun _ => 0) c (· - n) }).flowCheck p c

/-! ### Gates and pauses (R116, R119) -/

/-- Operation, gate states and interval of a gate-list entry word. -/
def gateOp (w : Word) : Nat := bits w 31 30
/-- The gate states of an entry: bit n open. -/
def gateStates (w : Word) : Nat := bits w 29 22
/-- The interval of an entry in ns. -/
def gateNs (w : Word) : Nat := bits w 21 0

/-- The running list, where gates follow one. -/
def LptPort.gates (x : LptPort) : Option GateList :=
  match x.gclRun with
  | some g => if g.enable then some g else none
  | none => none

/-- Is gate `c` open in the entry in force? Every gate is open while no enabled list runs (R120). -/
def LptPort.gateOpen (x : LptPort) (c : Nat) : Bool :=
  match x.gates with
  | none => true
  | some g => match g.entries[x.gclIdx]? with
    | some w => (gateStates w >>> c) % 2 == 1
    | none => true

/-- May class `c` of port `p` transmit: not paused, gate open? Port 128 has neither. -/
def Dev.classOpen (d : Dev) (p c : Nat) : Bool :=
  p ≥ 128 || (!bitOn (d.lp p).paused c && (d.lp p).gateOpen c)

/-! ### Transmit buffer (R254) -/

/-- Bytes in the port's transmit buffer or on their way to it. -/
def Dev.txBytes (d : Dev) (p : Nat) : Nat :=
  ((d.lp p).tx.map fun f => f.bytes.length).sum + (d.lp p).pendingBytes

/-- Room for two frames of LPT_MAX_FRAME bytes: an empty buffer has it; the buffer's size is not stated. -/
def Dev.txRoom (d : Dev) (p : Nat) : Bool :=
  d.txBytes p == 0 || d.txBytes p + 2 * d.rd (F.LPT_MAX_FRAME_BYTES.port p) ≤ Config.txBufBytes

end Sys2Proof.Machine
end

