-- ==== Sys2Proof/Machine/Shaper.lean ====
section
/-! DEFINITION. Shapers: profiles, bindings, refresh, states and charges of the elements, and the timed profile switches (R268 to
R287). Meters use the same rates and are in the table file. -/

namespace Sys2Proof.Machine

/-! ### Elements (R250) -/

/-- The element ID of node `n`. -/
def nodeElem (n : Nat) : Nat := 0x80000 + n % 65536
/-- Is the element a node? -/
def isNode (e : Nat) : Bool := (e >>> 19) % 2 == 1
/-- Does the element exist: egress index 0 to 393,215, or node 0 to 65,535? -/
def elemExists (e : Nat) : Bool := e < 393216 || (0x80000 ≤ e && e < 0x90000)

/-! ### Rates (R270, R271) -/

/-- V of a rate word, limited to its mode's range, in units of 2^-32 per span. -/
def rateV (word : Nat) (pkt : Bool) : Nat :=
  let v := (word % 2 ^ 27) <<< (word >>> 27)
  if pkt then min (max v 4398) 7036874417766 else min (max v 4398047) 879609302220800

/-! ### Profiles (R281) -/

/-- Profile `p`'s MODE; profile 0 is mode 0. -/
def Dev.profMode (d : Dev) (p : Nat) : Nat := if p = 0 then 0 else d.rd (F.SHP_PROF_CFG_MODE.item p)
/-- Profile `p` is in packet mode. -/
def Dev.profPkt (d : Dev) (p : Nat) : Bool := d.on (F.SHP_PROF_CFG_PKT.item p)
/-- The item of the parameter registers for profile `p`'s copy in force. -/
def Dev.profItem (d : Dev) (p : Nat) : Nat := p + 65536 * d.rd (F.SHP_PROF_CFG_ACTIVE.item p)
/-- RATE1 or RATE2 in force, as V. -/
def Dev.profV (d : Dev) (p b : Nat) : Nat :=
  rateV (d.rd ((if b = 1 then F.SHP_PROF_RATE1 else F.SHP_PROF_RATE2).item (d.profItem p))) (d.profPkt p)
/-- BURST1 or BURST2 in force. -/
def Dev.profBurst (d : Dev) (p b : Nat) : Nat :=
  d.rd ((if b = 1 then F.SHP_PROF_BURST1 else F.SHP_PROF_BURST2).item (d.profItem p))

/-- The profile an element is bound to. -/
def Dev.elemProf (d : Dev) (e : Nat) : Nat := d.rd (F.SHP_ELEM_PROFILE_PROFILE.item e)

/-- The elements with a binding other than profile 0. -/
def Dev.boundElems (d : Dev) : List Nat :=
  (d.regs.filter fun r => r.1 % 0x20000000 == F.SHP_ELEM_PROFILE.off).map fun r => r.1 / 0x20000000

/-- The profiles whose configuration has been written. -/
def Dev.knownProfs (d : Dev) : List Nat :=
  (d.regs.filter fun r => r.1 % 0x20000000 == F.SHP_PROF_CFG.off).map fun r => r.1 / 0x20000000

/-- SHP_PROF_USERS of profile `p`. -/
def Dev.profUsers (d : Dev) (p : Nat) : Nat :=
  if p = 0 then 458752 - d.boundElems.length else (d.boundElems.filter fun e => d.elemProf e == p).length

/-! ### Levels (R273, R275) -/

/-- No credit and no residue. -/
def Levels.zero : Levels := ⟨0, 0, 0, 0⟩
/-- The bucket levels of an element. -/
def Dev.levels (d : Dev) (e : Nat) : Levels := d.shp.levels.get (fun _ => Levels.zero) e
/-- The device with an element's levels set. -/
def Dev.setLevels (d : Dev) (e : Nat) (l : Levels) : Dev :=
  { d with shp := { d.shp with levels := d.shp.levels.set (fun _ => Levels.zero) e l } }

/-- A level capped at a burst in whole units. -/
def capLevel (l : Int) (burst : Nat) : Int := min l ((burst * 65536 : Nat) : Int)

/-- The refresh of one bucket: the residue takes the part below 2^-16, its carry goes to the level, which is capped (R273). -/
def refreshBucket (l : Int) (r v burst : Nat) : Int × Nat :=
  let t := r + v
  (capLevel (l + (t / 65536 : Nat)) burst, t % 65536)

/-- The refresh of one element's buckets. -/
def Dev.refreshElem (d : Dev) (e : Nat) : Dev :=
  let p := d.elemProf e
  let m := d.profMode p
  if m = 0 then d else
  let l := d.levels e
  let (a, ra) := refreshBucket l.l1 l.r1 (d.profV p 1) (d.profBurst p 1)
  if m = 1 then d.setLevels e ⟨a, l.l2, ra, l.r2⟩ else
  let (b, rb) := refreshBucket l.l2 l.r2 (d.profV p 2) (d.profBurst p 2)
  d.setLevels e ⟨a, b, ra, rb⟩

/-- Set new levels, counting each bucket whose level falls in LEVEL_CAPS. -/
def Dev.lowerLevels (d : Dev) (e : Nat) (l : Levels) : Dev :=
  let o := d.levels e
  (d.setLevels e l).bumpN F.SHP_LEVEL_CAPS ((if l.l1 < o.l1 then 1 else 0) + (if l.l2 < o.l2 then 1 else 0))

/-- Cap an element's levels at the bursts in force. -/
def Dev.capElem (d : Dev) (e : Nat) : Dev :=
  let p := d.elemProf e
  let l := d.levels e
  if d.profMode p = 0 then d
  else d.lowerLevels e { l with
    l1 := capLevel l.l1 (d.profBurst p 1),
    l2 := if d.profMode p = 1 then l.l2 else capLevel l.l2 (d.profBurst p 2) }

/-! ### States and charges (R269, R277) -/

/-- A shaped element's state: 0 unshaped, 1 committed, 2 excess, 3 blocked. -/
def Dev.shapeState (d : Dev) (e color : Nat) : Nat :=
  let p := d.elemProf e
  let l := d.levels e
  let green := color == 0 || !d.on (F.SHP_PROF_CFG_AWARE.item p)
  match d.profMode p with
  | 0 => 0
  | 1 => if 0 ≤ l.l1 then 1 else 3
  | 2 => if 0 ≤ l.l1 ∧ 0 ≤ l.l2 ∧ green = true then 1 else if 0 ≤ l.l2 then 2 else 3
  | _ => if 0 ≤ l.l1 ∧ green = true then 1 else if 0 ≤ l.l2 then 2 else 3

/-- A 7-bit signed number. -/
def signed7 (n : Nat) : Int := (BitVec.ofNat 7 n).toInt

/-- The length charged to a shaper of port `port` (R269), in whole units. -/
def Dev.shapeLen (d : Dev) (p port len : Nat) : Nat :=
  if d.profPkt p then 1
  else
    let adj : Int := if port < 128 then signed7 (d.rd (F.SHP_PORT_ADJ_ADJ.ix port)) else 0
    (max 1 ((len : Int) + 4 + adj)).toNat

/-- The charge of a departure of length `len` to element `e`, in the state it held (R277). -/
def Dev.charge (d : Dev) (e state port len : Nat) : Dev :=
  let p := d.elemProf e
  let l := d.levels e
  let c : Int := ((d.shapeLen p port len * 65536 : Nat) : Int)
  match d.profMode p, state with
  | 0, _ => d
  | 1, _ => d.setLevels e { l with l1 := l.l1 - c }
  | 2, 1 => d.setLevels e { l with l1 := l.l1 - c, l2 := l.l2 - c }
  | 2, _ => d.setLevels e { l with l2 := l.l2 - c }
  | _, 1 => d.setLevels e { l with l1 := l.l1 - c }
  | _, _ => d.setLevels e { l with l2 := l.l2 - c }

/-! ### Bindings (R282, R283) -/

/-- Bind an element to a profile and adjust its levels. -/
def Dev.bindElem (d : Dev) (e p : Nat) : Dev :=
  let o := d.elemProf e
  if o = p then d else
  let same := d.profMode o == d.profMode p && d.profPkt o == d.profPkt p && p != 0
  let d1 := d.wr (F.SHP_ELEM_PROFILE_PROFILE.item e) p
  if same then d1.capElem e else d1.lowerLevels e Levels.zero

/-- ELEM_BIND: a write of SHP_ELEM_PROFILE for the selected element. -/
def elemBind (m : Nat) (data : Word) (d : Dev) : Dev :=
  let e := d.rd F.SHP_ELEM_SEL_ELEM
  if elemExists e then d.bindElem e (bits data 13 0)
  else d.post Ev.SHP_CFG_REFUSED [(24, 1, 1), (26, 1, m), (28, 4, e)]

/-! ### Switches (R284, R285) -/

/-- Perform a switch of set `s`: toggle ACTIVE on its profiles, cap the levels bound to them, and report it. -/
def Dev.switchSet (d : Dev) (s direct : Nat) : Dev :=
  let ps := d.knownProfs.filter fun p => p != 0 && d.rd (F.SHP_PROF_CFG_SET.item p) == s
  let d1 := d.each ps fun p d =>
    let f := F.SHP_PROF_CFG_ACTIVE.item p
    d.wr f (1 - d.rd f)
  let d2 := d1.each (d.boundElems.filter fun e => ps.contains (d.elemProf e)) fun e d => d.capElem e
  let d3 := (d2.wr F.SHP_LAST_SWITCH_SET s).wr F.SHP_LAST_SWITCH_SPAN d.tim.span
  (d3.bump F.SHP_SWITCHES).post Ev.SHP_SWITCH [(24, 1, s), (25, 1, direct), (28, 4, ps.length), (32, 6, d.tim.span)]

/-- A switch that a timed action asks for (R48 type 3): set 0 or above 255 is refused. The answer says whether it was done. -/
def Dev.timedSwitch (d : Dev) (s m : Nat) : Bool × Dev :=
  if 1 ≤ s ∧ s ≤ 255 then (true, d.switchSet s 0)
  else (false, d.post Ev.SHP_SWITCH_REFUSED [(24, 2, s), (26, 1, 0), (27, 1, m)])

/-- SET_SWITCH_WRITE: the switch waits for slot 0 of the next span; set 0 is refused. -/
def setSwitchWrite (m : Nat) (data : Word) (d : Dev) : Dev :=
  let s := data.toNat % 256
  if s = 0 then d.post Ev.SHP_SWITCH_REFUSED [(24, 2, s), (26, 1, 1), (27, 1, m)]
  else
    let d1 := { d with shp := { d.shp with pending := d.shp.pending ++ [(s, m, d.tim.tick)] } }
    d1.wr F.SHP_STATUS_SWITCH_PEND 1

/-- SET_SWITCH: at slot 0, after the keystone and the timed actions of the span, the oldest direct switch written in an earlier span is made
(R285). -/
def setSwitch (d : Dev) : Dev :=
  match d.shp.pending with
  | [] => d
  | (s, _, t) :: rest =>
    if d.tim.tick ≤ t ∨ d.actionDue = true then d else
    let d1 := { d with shp := { d.shp with pending := rest } }
    (d1.switchSet s 1).wr F.SHP_STATUS_SWITCH_PEND (if rest.isEmpty then 0 else 1)

/-- A direct switch written in an earlier span is still to be made. -/
def Dev.switchDue (d : Dev) : Bool := d.shp.pending.any fun x => x.2.2 < d.tim.tick

/-- The refresh of slot 0 (R273): every bound element, once a span. -/
def Dev.refreshAll (d : Dev) : Dev :=
  let d1 := { d with shp := { d.shp with refreshTick := d.tim.tick } }
  d1.each d.boundElems fun e d => d.refreshElem e

end Sys2Proof.Machine
end

