-- ==== Sys2Proof/Machine/Queue.lean ====
section
/-! DEFINITION. The queue manager and the scheduling hierarchy: admission, departures, the tree and its choice, moves, sojourns,
histograms and flushes (R241 to R267), and the prefetcher (R231 to R233). -/

namespace Sys2Proof.Machine

/-! ### Queue numbers (R241 to R244) -/

/-- The queue of an egress index. -/
def egrQueue (e : Nat) : Nat := 131072 + e
/-- Is the queue a VOQ? -/
def isVoq (q : Nat) : Bool := q < 131072

/-- The number of egress queues of port `p` (QUE_PORT_CFG.COUNT). -/
def Dev.portCount (d : Dev) (p : Nat) : Nat := d.rd (F.QUE_PORT_CFG_COUNT.ix p)

/-- Does port `p`'s range under the bank with tag `t` hold egress index `e`? -/
def Dev.portHolds (d : Dev) (t p e : Nat) : Bool :=
  match d.portRec t p with
  | some r => r.present && r.eqBase ≤ e && e < r.eqBase + d.portCount p
  | none => false

/-- The port of an egress queue: the live range that holds it, 128 for a punt egress queue, otherwise 255 (R250). -/
def Dev.queuePort (d : Dev) (e : Nat) : Nat :=
  if 393152 ≤ e then 128
  else ((List.range 128).find? fun p => d.portHolds d.liveTag p e).getD 255

/-- The egress index of a packet at its local port `p` in the bank of its tag, or none: QUE_EQ_RANGE (R243). -/
def Dev.egressIndex (d : Dev) (p : Nat) (pkt : Packet) : Option Nat :=
  let src := d.rd (F.QUE_PORT_CFG_SRC.ix p)
  let v := if src = 0 then pkt.get Md.eqSel else if src = 1 then pkt.get Md.encapIndex else pkt.get Md.adjIndex
  let shift := d.rd (F.QUE_PORT_CFG_SHIFT.ix p)
  let sbase := d.rd (F.QUE_PORT_SBASE_SBASE.ix p)
  let ofs := (((v + 2 ^ 22 - sbase) % 2 ^ 22) <<< shift) + pkt.get Md.tc % 2 ^ shift
  match d.portRec pkt.tag p with
  | some r => if src = 3 ∨ ofs ≥ d.portCount p then none else some (r.eqBase + ofs)
  | none => none

/-! ### Accessors -/

/-- The descriptors of queue `q`, oldest first. -/
def Dev.queue (d : Dev) (q : Nat) : List Desc := d.que.q.get (fun _ => []) q
/-- The device with queue `q` set. -/
def Dev.setQueue (d : Dev) (q : Nat) (l : List Desc) : Dev :=
  { d with que := { d.que with q := d.que.q.set (fun _ => []) q l } }
/-- The depth of a queue in sectors (R246). -/
def Dev.depth (d : Dev) (q : Nat) : Nat := ((d.queue q).map (·.sectors)).sum
/-- Is the queue spilled? -/
def Dev.spilled (d : Dev) (q : Nat) : Bool := d.que.spilled.get (fun _ => false) q
/-- The device with a queue's spill state set. -/
def Dev.setSpilled (d : Dev) (q : Nat) (b : Bool) : Dev :=
  { d with que := { d.que with spilled := d.que.spilled.set (fun _ => false) q b } }
/-- The class of a queue (QUE_Q_CFG.CLASS). -/
def Dev.queueClass (d : Dev) (q : Nat) : Nat := d.rd (F.QUE_Q_CFG_CLASS.item q)
/-- Is the record in the far pool? -/
def Desc.far (x : Desc) : Bool := match x.handles with | h :: _ => handlePool h == 2 | [] => false

/-- The span that stamps enqueues and ends sojourns: the STC's, the internal tick's while it is held (R246). -/
def Dev.stampSpan (d : Dev) : Nat := (if d.stcHeld then d.tim.tick else d.tim.span) % 2 ^ 24

/-- A local port's queues are marked down: from the port's going down until it comes up; so are those of a port that never came up
(R247, R264). -/
def Dev.portIsDown (d : Dev) (p : Nat) : Bool := d.que.portDown.get (fun _ => false) p || !d.linkUp p

/-- Is the queue marked down (R264)? -/
def Dev.queueDown (d : Dev) (q : Nat) : Bool :=
  if isVoq q then
    (d.rd (F.QUE_SP_DOWN.ix (q / 8 / 32)) >>> (q / 8 % 32)) % 2 == 1 ||
    (List.range 128).any fun p => d.portIsDown p && d.sysPort p == some (q / 8)
  else
    let p := d.queuePort (q - 131072)
    p < 128 && d.portIsDown p

/-! ### WRED (R248, R249) -/

/-- One step of a queue group's LFSR (R249). -/
def lfsrStep (s : Nat) : Nat := if s % 2 = 1 then (s >>> 1) ^^^ 0x80200003 else s >>> 1

/-- The WRED profile of a queue in the bank of a tag; none is profile 0. -/
def Dev.wredProfile (d : Dev) (t q : Nat) : Nat := ((d.tmValue t 4 q).getD 0) % 256

/-- QUE_ECN_CFG of a bank tag has EN = 1. -/
def Dev.ecnOn (d : Dev) (t : Nat) : Bool := d.on (F.QUE_ECN_CFG_EN.ix t)

/-- The ECT bit of a packet; 0 with EN = 0 (R262). -/
def Dev.ectOf (d : Dev) (pkt : Packet) : Bool := d.ecnOn pkt.tag && bitOn pkt.md (d.rd (F.QUE_ECN_CFG_ECT_OFS.ix pkt.tag))

/-- The packet with its MARK bit set; with EN = 0 no mark is written (R262). -/
def Dev.markPkt (d : Dev) (pkt : Packet) : Packet :=
  if d.ecnOn pkt.tag then { pkt with md := putBit pkt.md (d.rd (F.QUE_ECN_CFG_MARK_OFS.ix pkt.tag)) true } else pkt

/-- The new average depth: A + ((D − A) >> W), the shift rounding down. -/
def wredAvg (a dk w : Nat) : Nat := ((a : Int) + ((dk : Int) - a) / 2 ^ w).toNat

/-- The WRED decision for an arrival: drop or admit, and the packet with its MARK bit set if it was marked. -/
def Dev.wred (d : Dev) (q : Nat) (pkt : Packet) : Bool × Packet × Dev :=
  let wp := d.wredProfile pkt.tag q
  if wp = 0 then (false, pkt, d) else
  let a := wredAvg (d.que.avg.get (fun _ => 0) q) (d.depth q / 4) (d.rd (F.QUE_WRED_CFG_AVG_W.item wp))
  let d1 := { d with que := { d.que with avg := d.que.avg.set (fun _ => 0) q a } }
  let c := min (pkt.get Md.color) 2
  let lo := d.rd ((F.QUE_WRED_MIN_KIB.ix c).item wp)
  let hi := d.rd ((F.QUE_WRED_MAX_KIB.ix c).item wp)
  if a < lo then (false, pkt, d1)
  else if a ≥ hi then (true, pkt, d1)
  else
    let p := d.rd ((F.QUE_WRED_PROB_PROB.ix c).item wp) * (a - lo) / (hi - lo)
    let g := F.QUE_LFSR.item (q / 128)
    let s := lfsrStep (d.rd g)
    let d2 := d1.wr g s
    if s >>> 16 < p then
      if d.on (F.QUE_WRED_CFG_ECN_EN.item wp) && d.ectOf pkt then (false, d.markPkt pkt, d2.bump F.QUE_WRED_MARK)
      else (true, pkt, d2)
    else (false, pkt, d2)

/-! ### Admission (R247) -/

/-- The tier mask of a queue in the bank of a tag; no record permits SRAM and near (R75). -/
def Dev.tierMask (d : Dev) (t q : Nat) : Nat := (d.tmValue t 1 q).getD 3

/-- A drop at a queue: its drops, the device counter for its reason, and HST_DROP_CNT. -/
def Dev.queueDrop (d : Dev) (q reason : Nat) : Dev :=
  let d1 := (d.bump (F.QUE_Q_DROPS.item q)).dropCount reason
  if reason = Drop.quePortDown then d1.bump F.QUE_PORT_DOWN_DROP
  else if reason = Drop.queTail then d1.bump F.QUE_TAIL_DROP
  else if reason = Drop.queWred then d1.bump F.QUE_WRED_DROP
  else if reason = Drop.queSojourn then d1.bump F.QUE_SJ_DROP
  else d1

/-- Where a packet's bytes count for flow control (R117): the line port it came in through, for records of ingress streams and of
the replication engine. -/
def flowOf (req : Nat) (pkt : Packet) : Option (Nat × Nat) :=
  if (req < 16 ∨ req = 20) ∧ pkt.get Md.srcPort < 128 then some (pkt.get Md.srcPort, pkt.get Md.tc) else none

/-- Checks 1 to 3 of R247 at queue `q`: the drop reason if one fails, the packet as WRED may have marked it. -/
def Dev.admitChecks (d : Dev) (q : Nat) (pkt : Packet) : Option Nat × Packet × Dev :=
  let n := sectorsOf pkt.len
  let max := d.rd (F.QUE_Q_CFG_MAX_KIB.item q)
  if d.queueDown q then (some Drop.quePortDown, pkt, d)
  else if max ≠ 0 ∧ d.depth q + n > max * 4 then (some Drop.queTail, pkt, d)
  else
    let (drop, pkt1, d1) := d.wred q pkt
    (if drop then some Drop.queWred else none, pkt1, d1)

/-- A queue whose record went to the far pool becomes spilled (R231). -/
def Dev.spillEnter (d : Dev) (q pool : Nat) : Dev :=
  if pool = 2 ∧ d.spilled q = false then (d.setSpilled q true).bump F.BUF_SPILL_ENTER else d

/-- A descriptor put at the tail of queue `q` for a record that has been placed (R245, R246). -/
def Dev.append (d : Dev) (q req input : Nat) (pkt : Packet) (pool : Nat) (hs : List Nat) (job : Option Nat) : Dev :=
  let x : Desc :=
    { pkt := pkt, handles := hs, owner := req, pktLen := pkt.len, color := pkt.get Md.color, sectors := sectorsOf pkt.len,
      tag := pkt.tag, tc := pkt.get Md.tc, ect := d.ectOf pkt, arrSpan := d.stampSpan, arrSlot := d.runSlot,
      input := input, flow := flowOf req pkt, job := job }
  ((d.setQueue q (d.queue q ++ [x])).spillEnter q pool).flowAdd x.flow pkt.len

/-- A packet arrives at queue `q` for requester `req` (R247): the drop reason, or none when it is queued. -/
def Dev.admitTo (d : Dev) (q req input : Nat) (pkt : Packet) : Option Nat × Dev :=
  match d.admitChecks q pkt with
  | (some r, _, d1) => (some r, d1.queueDrop q r)
  | (none, pkt1, d1) =>
    match d1.alloc req (sectorsOf pkt.len) (d1.tierMask pkt.tag q) (d1.spilled q) with
    | (none, d2) => (some Drop.bufExhausted, d2.queueDrop q Drop.bufExhausted)
    | (some (p, hs), d2) => (none, d2.append q req input pkt1 p hs none)

/-! ### The tree (R250 to R253) -/

/-- The parent of an element; 0xF_FFFF: none. -/
def Dev.parent (d : Dev) (e : Nat) : Nat := d.que.parent.get parentReset e
/-- The root node of port `p`, 128 for the host. -/
def Dev.root (d : Dev) (p : Nat) : Option Nat := d.que.roots.get rootReset p
/-- The port whose root node `n` is. -/
def Dev.rootPort (d : Dev) (n : Nat) : Option Nat := (List.range 129).find? fun p => d.root p == some n

/-- The PORT of a node: a root reads its port (R250, R257). -/
def Dev.nodePort (d : Dev) (n : Nat) : Nat := (d.rootPort n).getD (d.rd (F.QUE_NODE_PORT_PORT.item n))

/-- The port of an element (R250). -/
def Dev.elemPort (d : Dev) (e : Nat) : Nat := if isNode e then d.nodePort (e % 65536) else d.queuePort e

/-- Is the element attached: has it a parent, or is it a root? -/
def Dev.attached (d : Dev) (e : Nat) : Bool :=
  d.parent e != 0xFFFFF || (isNode e && (d.rootPort (e % 65536)).isSome)

/-- The children of node `n`. The 64 punt queues that no move has listed are node 65,535's. -/
def Dev.children (d : Dev) (n : Nat) : List Nat :=
  let listed := (d.que.parent.filter fun x => x.2 == nodeElem n).map (·.1)
  if n = 65535 then
    listed ++ ((List.range 64).map (393152 + ·)).filter fun e => d.parent e == 0x8FFFF && !listed.contains e
  else listed

/-- The level of an element's parent chain: the number of nodes above it, by fuel. -/
def Dev.levelOf (d : Dev) : Nat → Nat → Nat
  | 0, _ => 0
  | k + 1, e => if d.parent e = 0xFFFFF then 0 else 1 + d.levelOf k (d.parent e)

/-- The number of node levels beneath a node, by fuel. -/
def Dev.heightOf (d : Dev) : Nat → Nat → Nat
  | 0, _ => 0
  | k + 1, e =>
    (((d.children (e % 65536)).filter isNode).map fun c => 1 + d.heightOf k c).foldl max 0

/-- Is `a` the element `e` or one of its ancestors? -/
def Dev.isAncestor (d : Dev) : Nat → Nat → Nat → Bool
  | 0, _, _ => false
  | k + 1, a, e => a == e || (d.parent e != 0xFFFFF && d.isAncestor k a (d.parent e))

/-- The priority and weight of an element. -/
def Dev.elemPrio (d : Dev) (e : Nat) : Nat :=
  if isNode e then d.rd (F.QUE_NODE_CFG_PRIO.item (e % 65536)) else d.rd (F.QUE_Q_SCHED_PRIO.item (egrQueue e))
/-- The weight of an element; never 0. -/
def Dev.elemWeight (d : Dev) (e : Nat) : Nat :=
  max 1 (if isNode e then d.rd (F.QUE_NODE_CFG_WEIGHT.item (e % 65536)) else d.rd (F.QUE_Q_SCHED_WEIGHT.item (egrQueue e)))

/-- Service tag F of an element. -/
def Dev.tagF (d : Dev) (e : Nat) : Nat := d.que.tagF.get (fun _ => 0) e
/-- Virtual time V of a node. -/
def Dev.virt (d : Dev) (n : Nat) : Nat := d.que.virt.get (fun _ => 0) n
/-- The device with a service tag set. -/
def Dev.setTag (d : Dev) (e v : Nat) : Dev := { d with que := { d.que with tagF := d.que.tagF.set (fun _ => 0) e v } }

/-- A punt egress queue is served only while its punt queue is enabled and holds a descriptor (R389). -/
def Dev.puntReady (d : Dev) (k : Nat) : Bool :=
  d.on (F.HST_PQ_CFG_EN.ix k) && d.rd (F.HST_PQ_TAIL_INDEX.ix k) != d.rd (F.HST_PQ_HEAD_INDEX.ix k)

/-- The head of an egress queue that may be served, its shaper apart (R252). -/
def Dev.queueHead (d : Dev) (e : Nat) : Option Desc :=
  let q := egrQueue e
  match d.queue q with
  | [] => none
  | x :: _ =>
    let open' := if 393152 ≤ e then d.puntReady (e - 393152) else d.classOpen (d.queuePort e) (d.queueClass q)
    if open' then some x else none

/-- What a node would choose through a child: the child, its state toward the node, and the path down to the queue. -/
structure Pick where
  elem : Nat
  state : Nat
  path : List (Nat × Nat)
  head : Desc

/-- Does one candidate go before another (R253, R278): committed before excess, then the higher priority, the lower tag, the lower
element ID? -/
def Dev.before (d : Dev) (a b : Pick) : Bool :=
  let xa := if a.state = 2 then 1 else 0
  let xb := if b.state = 2 then 1 else 0
  xa < xb || (xa == xb && (d.elemPrio b.elem < d.elemPrio a.elem || (d.elemPrio a.elem == d.elemPrio b.elem &&
    (d.tagF a.elem < d.tagF b.elem || (d.tagF a.elem == d.tagF b.elem && a.elem < b.elem)))))

/-- The first of a list of candidates in the order of R253. -/
def Dev.best (d : Dev) : List Pick → Option Pick
  | [] => none
  | a :: t => match d.best t with
    | none => some a
    | some b => if d.before a b then some a else some b

/-- The head packet of element `e` with the path below it: a queue's own, or of the child that a node would choose, where `f` tells which
candidate each child is (R252). -/
def Dev.innerHead (d : Dev) (f : Nat → Option Pick) (e : Nat) : Option (List (Nat × Nat) × Desc) :=
  if isNode e then (d.best ((d.children (e % 65536)).filterMap f)).map fun p => (p.path, p.head)
  else (d.queueHead e).map fun x => ([], x)

/-- Element `e` as a candidate with a head packet: in the state of its own shaper, none where that blocks (R277). -/
def Dev.candidate (d : Dev) (e : Nat) (path : List (Nat × Nat)) (x : Desc) : Option Pick :=
  let st := d.shapeState e x.color
  if st = 3 then none else some ⟨e, st, (e, st) :: path, x⟩

/-- The eligible candidate that element `e` is, by fuel: its head, its shaper's state, and its own choice if it is a node (R252,
R277). -/
def Dev.pick (d : Dev) : Nat → Nat → Option Pick
  | 0, _ => none
  | k + 1, e => (d.innerHead (d.pick k) e).bind fun h => d.candidate e h.1 h.2

/-- Fuel for the tree: eight levels of nodes and the queue. -/
def treeFuel : Nat := 9

/-- The choice that goes on at the last of a run of nodes, each a child of the one before: a node that has no eligible child left, or is blocked
for its new head, leaves the choice to the node above it (R263). -/
def Dev.pickVia (d : Dev) : List Nat → Option Pick
  | [] => none
  | n :: rest =>
    match (d.pickVia rest).bind fun p => d.candidate n p.path p.head with
    | some p => some p
    | none => d.pick treeFuel n

/-- Is the element eligible (R252)? -/
def Dev.eligible (d : Dev) (e : Nat) : Bool := (d.pick treeFuel e).isSome

/-- The elements that have a parent. -/
def Dev.parented (d : Dev) : List Nat :=
  let listed := (d.que.parent.filter fun x => x.2 != 0xFFFFF).map (·.1)
  listed ++ ((List.range 64).map (393152 + ·)).filter fun e => d.parent e == 0x8FFFF && !listed.contains e

/-- Note which elements are eligible now: one that has become eligible takes the tag max(F, V) (R253). -/
def Dev.settle (d : Dev) : Dev :=
  let now := d.parented.map fun e => (e, d.eligible e)
  d.each now fun x d =>
    let was := d.que.elig.get (fun _ => false) x.1
    let d1 := if x.2 && !was then d.setTag x.1 (max (d.tagF x.1) (d.virt (d.parent x.1 % 65536))) else d
    { d1 with que := { d1.que with elig := d1.que.elig.set (fun _ => false) x.1 x.2 } }

/-! ### Sojourns and histograms (R259 to R261) -/

/-- The sojourn of a descriptor that leaves now, in slots (R259). -/
def Dev.sojournOf (d : Dev) (x : Desc) : Nat :=
  ((d.stampSpan + 2 ^ 24 - x.arrSpan) % 2 ^ 24) * 100 + d.runSlot - x.arrSlot

/-- The bin of a shifted sojourn (R261). -/
def histBin (v : Nat) : Nat := if v = 0 then 0 else min 15 (Nat.log2 v + 1)

/-- The slots that follow queue `q` and count. -/
def Dev.histSlots (d : Dev) (q : Nat) : List Nat :=
  ((d.regs.filter fun r => r.1 % 0x20000000 == F.QUE_HIST_CFG.off).map fun r => r.1 / 0x20000000).filter fun k =>
    d.on (F.QUE_HIST_CFG_EN.item k) && d.rd (F.QUE_HIST_CFG_QUEUE.item k) == q

/-- A departure from queue `q` with sojourn `s` in its statistics and histograms. -/
def Dev.noteSojourn (d : Dev) (q s : Nat) : Dev :=
  let (sum, cnt) := d.que.sojourn.get (fun _ => (0, 0)) q
  let v := (min (sum + s) (2 ^ 48 - 1), min (cnt + 1) (2 ^ 32 - 1))
  let d1 := { d with que := { d.que with sojourn := d.que.sojourn.set (fun _ => (0, 0)) q v } }
  let mx := F.QUE_SJ_MAX.item q
  let d2 := d1.wr mx (max (d1.rd mx) (min s (2 ^ 32 - 1)))
  d2.each (d2.histSlots q) fun k d =>
    d.bump ((F.QUE_HIST_BIN.ix (histBin (s >>> d.rd (F.QUE_HIST_CFG_SHIFT.item k)))).item k)

/-- The bins of a histogram slot zeroed. -/
def Dev.zeroBins (d : Dev) (k : Nat) : Dev := d.each (List.range 16) fun b d => d.wr ((F.QUE_HIST_BIN.ix b).item k) 0

/-- A write of QUE_HIST_CFG for the selected slot: a new QUEUE, or CLR, zeroes the bins (R261). -/
def histWrite (data : Word) (d : Dev) : Dev :=
  let k := d.rd F.QUE_HIST_SEL_SLOT
  let d1 := if bitOn data 30 || d.rd (F.QUE_HIST_CFG_QUEUE.item k) != bits data 18 0 then d.zeroBins k else d
  d1.setReg (F.QUE_HIST_CFG.item k).off (BitVec.ofNat 64 (data.toNat &&& 0x8F07FFFF))

/-! ### Departures (R231, R253, R263) -/

/-- A record leaves its queue: its buffers are freed, or kept for the replication job that still copies from it (R325). -/
def Dev.releaseRecord (d : Dev) (x : Desc) : Dev :=
  let live := match x.job with
    | some id => d.dck.backlog.any fun j => j.id == id
    | none => false
  if live then
    let jobs := d.dck.backlog.map fun j => if some j.id = x.job then { j with released := true } else j
    { d with dck := { d.dck with backlog := jobs } }
  else d.freeRecord x.owner x.handles

/-- A queue stops being spilled when none of its records is in far (R231). -/
def Dev.spillCheck (d : Dev) (q : Nat) : Dev :=
  if d.spilled q && !(d.queue q).any Desc.far then d.setSpilled q false else d

/-- The head of queue `q` leaves it: its sojourn is noted, its bytes leave the port's count, the spill is checked. Its buffers are
still held. -/
def Dev.popHead (d : Dev) (q : Nat) (x : Desc) : Dev :=
  let d1 := (d.setQueue q (d.queue q).tail).noteSojourn q (d.sojournOf x)
  (d1.flowSub x.flow x.pktLen).spillCheck q

/-- The charge of a departure down a path: at each node V takes F of the child served, whose F rises, and each shaper on the path is
charged in the state it held, with the length of its own port. `elems` lists the path from the root to the queue. -/
def Dev.chargePath (d : Dev) (len : Nat) (elems : List (Nat × Nat)) : Dev :=
  d.each elems fun x d =>
    let d1 := d.charge x.1 x.2 (d.elemPort x.1) len
    if d1.parent x.1 = 0xFFFFF then d1
    else
      let n := d1.parent x.1 % 65536
      let f := d1.tagF x.1
      let d2 := { d1 with que := { d1.que with virt := d1.que.virt.set (fun _ => 0) n f } }
      d2.setTag x.1 (f + len * 65536 / d2.elemWeight x.1)

/-- The elements whose shaper state a selection evaluates: those with a profile, and those that read another state from before. -/
def Dev.statedElems (d : Dev) : List Nat :=
  let shown := (d.regs.filter fun r => r.1 % 0x20000000 == F.SHP_ELEM_STATE_STATE.off).map fun r => r.1 / 0x20000000
  (d.boundElems ++ shown).dedup

/-- SHP_ELEM_STATE at a selection at the root of `port`: every shaper under the root is evaluated (R277). DESIGN CHOICE (28): an element with
no head packet is evaluated as for a green one. -/
def Dev.noteStates (d : Dev) (port : Nat) : Dev :=
  match d.root port with
  | none => d
  | some n =>
    let now := (d.statedElems.filter fun e => d.isAncestor 17 (nodeElem n) e).map fun e =>
      (e, d.shapeState e (((d.innerHead (d.pick 8) e).map fun h => h.2.color).getD 0))
    d.each now fun x d => d.wr (F.SHP_ELEM_STATE_STATE.item x.1) x.2

/-- The sojourn checks of a departure from queue `q` (R263), by the WRED profile of the head packet's own bank: is the packet dropped? -/
def Dev.sojournDrops (d : Dev) (q : Nat) (x : Desc) : Bool :=
  let t := d.rd (F.QUE_WRED_SJ_DROP.item (d.wredProfile x.tag q))
  t != 0 && t < d.sojournOf x

/-- Is it marked? With QUE_ECN_CFG.EN = 0 ECT reads as 0 (R262). -/
def Dev.sojournMarks (d : Dev) (q : Nat) (x : Desc) : Bool :=
  let t := d.rd (F.QUE_WRED_SJ_ECN.item (d.wredProfile x.tag q))
  t != 0 && t < d.sojournOf x && x.ect && d.ecnOn x.tag

/-- The packet of a departure, with its MARK bit set if it is marked. -/
def Dev.departing (d : Dev) (q : Nat) (x : Desc) : Packet := if d.sojournMarks q x then d.markPkt x.pkt else x.pkt

/-- The marks counted (QUE_SJ_MARK). -/
def Dev.countMark (d : Dev) (q : Nat) (x : Desc) : Dev := d.when (d.sojournMarks q x) (·.bump F.QUE_SJ_MARK)

/-- Is a buffer on a CXL port that is DOWN? -/
def Dev.onDownPort (d : Dev) (h : Nat) : Bool := handlePool h == 2 && d.cxlState (handlePort h) == 5

/-- What reading a far record gives: 0 good, 1 poison, 2 an uncorrectable error, 3 its port is down (R238, R239). -/
def Dev.farRead (d : Dev) (x : Desc) (err : Nat) : Nat :=
  if !x.far then 0
  else if x.handles.any d.onDownPort then 3
  else if x.bad ≠ 0 then x.bad
  else err % 3

/-- What reading a record gives where no operand of the command says so: free for a far one. -/
def Dev.farFate (d : Dev) (x : Desc) : Nat × Dev :=
  if x.far then
    let (n, d1) := d.takeFree
    (d.farRead x n, d1)
  else (0, d)

/-- A far record dropped for what reading it gave, or for its port (R238, R239). The event names the buffer that is at fault; DESIGN CHOICE
(26): which of a record's pages a failed read hit is free. -/
def Dev.farDrop (d : Dev) (x : Desc) (q cause : Nat) : Dev :=
  let (k, d1) := if cause = 3 ∨ x.handles.length ≤ 1 then (0, d) else d.takeFree
  let h := if cause = 3 then (x.handles.find? d.onDownPort).getD 0 else x.handles.getD (k % max 1 x.handles.length) 0
  ((d1.dropCount Drop.bufFarError).bump F.BUF_FAR_ERROR_DROP).post Ev.BUF_FAR_ERROR
    [(24, 1, handlePort h), (25, 1, cause), (28, 4, h), (32, 3, q)]

/-- The head of queue `q`, a packet of an expired epoch, is dropped as it would leave, without being handed on and without a charge: R58's drop at
egress. -/
def Dev.expireHead (d : Dev) (q : Nat) (x : Desc) : Dev :=
  (((d.setQueue q (d.queue q).tail).flowSub x.flow x.pktLen).spillCheck q).releaseRecord x |>.dropExpired

/-- The result of a selection at a port: nothing was selected, or a packet departed, or its far record was dropped. -/
inductive Departed where
  | nothing
  | packet (e : Nat) (pkt : Packet)
  | dropped
  deriving DecidableEq, Repr

/-- The nodes of a path from the root to a queue. -/
def pathNodes (path : List (Nat × Nat)) : List Nat := (path.map (·.1)).filter isNode

/-- One selection that goes on at the last of a run of nodes from a root (R253, R263), by fuel for packets dropped on their sojourn: after such
a drop, which charges nothing, the node that chose the queue selects again. -/
def Dev.select (d : Dev) (farErr : Nat) : Nat → List Nat → Departed × Dev
  | 0, _ => (.nothing, d)
  | k + 1, via =>
    match d.pickVia via with
    | none => (.nothing, d)
    | some p =>
      let e := (p.path.getLastD (0, 0)).1
      let q := egrQueue e
      let x := p.head
      if d.expired x.tag then (.dropped, (d.expireHead q x).lowCheck.settle)
      else if d.sojournDrops q x then
        (((d.popHead q x).releaseRecord x).queueDrop q Drop.queSojourn).settle.select farErr k (pathNodes p.path)
      else
        let pkt := d.departing q x
        let d1 := ((d.countMark q x).chargePath x.pktLen p.path).when (d.spilled q && x.far) (·.bump F.BUF_PF_MISS)
        let bad := d1.farRead x farErr
        let d2 := (d1.popHead q x).releaseRecord x
        if bad ≠ 0 then (.dropped, (d2.farDrop x q bad).lowCheck.settle)
        else (.packet e { pkt with cls := d.queueClass q }, d2.lowCheck.settle)

/-- One selection at the root of `port`. -/
def Dev.selectAt (d : Dev) (port farErr fuel : Nat) : Departed × Dev :=
  match d.root port with
  | none => (.nothing, d)
  | some n => d.select farErr fuel [nodeElem n]

/-! ### Moves (R255, R256) -/

/-- A punt egress queue, as an element. -/
def isPunt (e : Nat) : Bool := 393152 ≤ e && e < 393216

/-- The refusal cause of a move command, 0 if it is done (R256). -/
def Dev.moveCause (d : Dev) (cmd m src dst : Nat) : Nat :=
  if !elemExists src || (cmd != 3 && !elemExists dst) ||
     (cmd != 1 && (isPunt src || (cmd == 2 && isPunt dst))) then 1
  else if cmd = 1 ∧ isNode dst = false then 2
  else if (cmd = 1 ∧ d.isAncestor 17 src dst = true) ∨
     (cmd = 2 ∧ src ≠ dst ∧ d.isAncestor 17 dst (d.parent src) = true) then 3
  else if (cmd = 1 ∧ isNode src = true ∧ d.levelOf 17 dst + 1 + d.heightOf 8 src > 7) ∨
     (cmd = 2 ∧ isNode dst = true ∧ d.levelOf 17 src + d.heightOf 8 dst > 7) then 4
  else if cmd ≠ 3 ∧ (d.elemPort src ≠ d.elemPort dst ∨ d.elemPort src = 255) then 5
  else if (isNode src && (d.rootPort (src % 65536)).isSome) ||
     (cmd == 2 && (d.attached dst || !d.attached src)) then 6
  else if (d.mode = .m5 ∨ d.mode = .m6) ∧ m ≠ 8 then 7
  else 0

/-- The device with an element's parent set. -/
def Dev.setParent (d : Dev) (e p : Nat) : Dev := { d with que := { d.que with parent := d.que.parent.set parentReset e p } }
/-- The device with the eligibility last seen of an element set. -/
def Dev.setElig (d : Dev) (e : Nat) (b : Bool) : Dev :=
  { d with que := { d.que with elig := d.que.elig.set (fun _ => false) e b } }
/-- The result of a master's last move command. -/
def Dev.setMoveResult (d : Dev) (m c : Nat) : Dev :=
  { d with que := { d.que with moveResult := d.que.moveResult.set (fun _ => 0) m c } }

/-- A move command on the elements in QUE_MOVE_SRC and QUE_MOVE_DST: done with `f`, or refused. -/
def Dev.move (d : Dev) (cmd m : Nat) (f : Nat → Nat → Dev → Dev) : Dev :=
  let src := d.rd F.QUE_MOVE_SRC_ELEM
  let dst := d.rd F.QUE_MOVE_DST_ELEM
  let c := d.moveCause cmd m src dst
  if c = 0 then ((f src dst d).setMoveResult m 0).settle
  else (d.setMoveResult m c).post Ev.QUE_MOVE_REFUSED [(24, 1, c), (25, 1, cmd), (26, 1, m), (28, 4, src), (32, 4, dst)]

/-- CMD 1: SRC becomes a child of node DST, its tag DST's V. -/
def queAttach (m : Nat) (d : Dev) : Dev :=
  d.move 1 m fun src dst d => ((d.setParent src dst).setTag src (d.virt (dst % 65536))).setElig src false

/-- CMD 2: detached DST takes the place of SRC, with SRC's tag; SRC becomes detached. -/
def queSwap (m : Nat) (d : Dev) : Dev :=
  d.move 2 m fun src dst d =>
    let d1 := ((d.setParent dst (d.parent src)).setTag dst (d.tagF src)).setElig dst (d.que.elig.get (fun _ => false) src)
    (d1.setParent src 0xFFFFF).setElig src false

/-- CMD 3: SRC becomes detached. -/
def queDetach (m : Nat) (d : Dev) : Dev :=
  d.move 3 m fun src _ d => (d.setParent src 0xFFFFF).setElig src false

/-- A move that was done goes to the peer; a refused one changed nothing (R256, R342). -/
def Dev.mirrorMove (d : Dev) (m cmd : Nat) : Dev :=
  if d.que.moveResult.get (fun _ => 0) m = 0 then d.mirror 2 m (leBytes 4 F.QUE_MOVE_CMD.off ++ leBytes 4 cmd) else d

/-- NODE_PORT_WRITE: PORT of the selected node, only while it is detached and has no children (R257). -/
def nodePortWrite (m : Nat) (data : Word) (d : Dev) : Dev :=
  let n := d.rd F.QUE_NODE_SEL_NODE
  if d.attached (nodeElem n) = false ∧ d.children n = [] then d.wr (F.QUE_NODE_PORT_PORT.item n) (data.toNat % 256)
  else d.post Ev.QUE_CFG_REFUSED [(24, 1, data.toNat % 256), (25, 1, 4), (26, 1, m)]

/-- The roots of R251 and R258: each present port's ROOT_NODE in the live bank becomes its root, with PORT set to the port; `posted`
reports the changes. The old root becomes detached. -/
def Dev.setRoots (d : Dev) (posted : Bool) : Dev :=
  d.each (List.range 128) fun p d =>
    match d.portRec d.liveTag p with
    | none => d
    | some r =>
      if r.present = false ∨ d.root p = some r.root then d else
      let old := d.root p
      let d1 := { d with que := { d.que with roots := d.que.roots.set rootReset p (some r.root) } }
      let d2 := (d1.setParent (nodeElem r.root) 0xFFFFF).wr (F.QUE_NODE_PORT_PORT.item r.root) p
      match posted, old with
      | true, some o => d2.post Ev.QUE_ROOT_CHANGED [(24, 1, p), (26, 2, o), (28, 2, r.root), (32, 6, d.tim.span)]
      | _, _ => d2

/-- Kind-5 records of the new live bank overwrite the priority and weight of the nodes they cover (R258), and kind-2 records bind
the egress queues they cover (R282). -/
def Dev.applyTmProfile (d : Dev) : Dev :=
  match d.liveImage with
  | none => d
  | some im =>
    d.each im.tm fun r d =>
      if r.kind = 5 then
        d.each (List.range r.count) fun k d =>
          d.setReg (F.QUE_NODE_CFG.item (r.first + k)).off (BitVec.ofNat 64 (r.value &&& 0xFFFF0007))
      else if r.kind = 2 then
        d.each (List.range r.count) fun k d =>
          if r.first + k < 131072 ∨ d.tmValue d.liveTag 2 (r.first + k) ≠ some r.value then d
          else d.bindElem (r.first + k - 131072) (if r.value > 16383 then 0 else r.value)
      else d

/-! ### QUE_PORT_CFG (R244) -/

/-- Does port `p` with `n` queues reach past the end in the bank with tag `t`? -/
def Dev.rangeBad (d : Dev) (t p n : Nat) : Bool :=
  match d.portRec t p with
  | some r => r.present && n != 0 && r.eqBase + n > 393152
  | none => false

/-- Does port `p` with `n` queues overlap another present port's range in the bank with tag `t`? -/
def Dev.rangeOverlap (d : Dev) (t p n : Nat) : Bool :=
  match d.portRec t p with
  | some r => r.present && n != 0 && (List.range 128).any fun o =>
      o != p && match d.portRec t o with
        | some x => x.present && d.portCount o != 0 && x.eqBase < r.eqBase + n && r.eqBase < x.eqBase + d.portCount o
        | none => false
  | none => false

/-- Would the write add an attached queue to the live range or remove one from it? -/
def Dev.rangeAttached (d : Dev) (p n : Nat) : Bool :=
  match d.portRec d.liveTag p with
  | some r => r.present && d.parented.any fun e =>
      !isNode e && ((r.eqBase ≤ e && e < r.eqBase + n) != (r.eqBase ≤ e && e < r.eqBase + d.portCount p))
  | none => false

/-- QUE_PORT_CFG_WRITE: a port's range, unless R244 refuses it. -/
def quePortCfgWrite (m p : Nat) (data : Word) (d : Dev) : Dev :=
  let n := bits data 18 0
  let c := if d.rangeBad 0 p n || d.rangeBad 1 p n then 1
    else if d.rangeOverlap 0 p n || d.rangeOverlap 1 p n then 2
    else if d.rangeAttached p n then 3 else 0
  if c = 0 then d.setReg (F.QUE_PORT_CFG.ix p).off (BitVec.ofNat 64 (data.toNat &&& 0xC307FFFF))
  else d.post Ev.QUE_CFG_REFUSED [(24, 1, p), (25, 1, c), (26, 1, m)]

/-! ### Flushes (R264 to R266) -/

/-- A range of queues less another: what is left of [a, a + n) outside [b, b + m). -/
def rangeLess (r x : Nat × Nat) : List (Nat × Nat) :=
  let a := r.1
  let e := r.1 + r.2
  let b := x.1
  let f := x.1 + x.2
  if f ≤ a ∨ e ≤ b then [r]
  else (if a < b then [(a, b - a)] else []) ++ (if f < e then [(f, e - f)] else [])

/-- Ranges less every range already waiting. -/
def rangesLess (rs waiting : List (Nat × Nat)) : List (Nat × Nat) :=
  waiting.foldl (fun acc x => acc.flatMap fun r => rangeLess r x) (rs.filter fun r => r.2 != 0)

/-- The number of queues in ranges. -/
def rangesSize (rs : List (Nat × Nat)) : Nat := (rs.map (·.2)).sum

/-- Queues waiting to be detached (QUE_STATUS.PENDING). -/
def Dev.flushWaiting (d : Dev) : List (Nat × Nat) := d.que.flushes.flatMap (·.todo)

/-- A flush request: queues already waiting are not queued twice, and count for both requests (R265). -/
def Dev.requestFlush (d : Dev) (cause port : Nat) (rs : List (Nat × Nat)) : Dev :=
  let todo := rangesLess rs d.flushWaiting
  let r : FlushReq :=
    { cause := cause, port := port, todo := todo, queues := rangesSize rs - rangesSize todo, records := 0,
      span := d.tim.span, tick := d.tim.tick }
  { d with que := { d.que with flushes := d.que.flushes ++ [r] } }

/-- The queues of a port-down request: the 8 VOQs of its system port, then its egress queues. -/
def Dev.portRanges (d : Dev) (p : Nat) : List (Nat × Nat) :=
  (match d.sysPort p with | some x => [(8 * x, 8)] | none => []) ++
  (match d.portRec d.liveTag p with
    | some r => if r.present then [(egrQueue r.eqBase, d.portCount p)] else []
    | none => [])

/-- Local port `p` goes down: its queues are marked down and flushed (R264). -/
def Dev.flushPortDown (d : Dev) (p : Nat) : Dev :=
  let d1 := { d with que := { d.que with portDown := d.que.portDown.set (fun _ => false) p true } }
  d1.requestFlush 1 p (d.portRanges p)

/-- The detach of one queue: its records are freed and counted. One with sectors on a DOWN port is dropped with BUF_FAR_ERROR (R239). -/
def Dev.flushOne (d : Dev) (q : Nat) : Nat × Dev :=
  let l := d.queue q
  let d1 := d.each l fun x d =>
    let d1 := (d.flowSub x.flow x.pktLen).releaseRecord x
    if x.handles.any d.onDownPort then d1.farDrop x q 3 else (d1.dropCount Drop.queFlush).bump F.QUE_FLUSH_DROP
  (l.length, (d1.setQueue q []).spillCheck q)

/-- Detach up to `n` queues of a request. -/
def Dev.flushSome (d : Dev) : Nat → FlushReq → FlushReq × Nat × Dev
  | 0, r => (r, 0, d)
  | n + 1, r =>
    match r.todo with
    | [] => (r, n + 1, d)
    | (a, c) :: t =>
      let (k, d1) := d.flushOne a
      d1.flushSome n { r with todo := if c ≤ 1 then t else (a + 1, c - 1) :: t, queues := r.queues + 1,
                              records := r.records + k }

/-- Serve the requests in the order made, up to `n` queues. A request with no queue left completes. -/
def Dev.flushRun (d : Dev) (n : Nat) : List FlushReq → List FlushReq × Dev
  | [] => ([], d)
  | r :: t =>
    if d.tim.tick ≤ r.tick then (r :: t, d) else
    let (r1, left, d1) := d.flushSome n r
    if r1.todo.isEmpty then
      let d2 := d1.post Ev.QUE_FLUSH_DONE [(24, 1, r1.cause), (26, 2, r1.port), (28, 4, r1.queues), (32, 8, r1.records),
        (40, 6, r1.span), (48, 6, d1.tim.span)]
      d2.flushRun left t
    else (r1 :: t, d1)

/-- A mirror copy that is not made or not admitted (R330). -/
def Dev.mirrorLost (d : Dev) (s : Nat) : Dev := d.bump (F.DCK_MIR_LOST.item s)

/-- The mirror copies of packets that are discarded before they are made: the packets' sessions, 0 for none (R330). -/
def Dev.mirrorsLost (d : Dev) (sessions : List Nat) : Dev := d.each (sessions.filter (· != 0)) fun s d => d.mirrorLost s

/-- Every record left in a queue is flushed, what crosses the deck and waits for the replication engine is gone, its mirror copies counted lost, and
every buffer is returned (R230, R330). -/
def Dev.emptyBuffers (d : Dev) : Dev :=
  let d1 := (d.each (d.que.q.map (·.1)) fun q d => (d.flushOne q).2).mirrorsLost (d.dck.backlog.map (·.mirror))
  ({ d1 with dck := { d1.dck with backlog := [], inProg := [], fabQ := [], matching := [] } }).returnAllBuffers

/-- FLUSH_PROGRESS: one span's work of the flush engine, from the span after a request. In M11 the buffers are returned once the last
request is complete (R436). -/
def flushProgress (d : Dev) : Dev :=
  if d.que.flushTick = d.tim.tick then d else
  let d0 := { d with que := { d.que with flushTick := d.tim.tick } }
  let (l, d1) := d0.flushRun 128 d0.que.flushes
  let d2 := { d1 with que := { d1.que with flushes := l } }
  (if d0.mode = .m11 ∧ l.isEmpty = true ∧ d0.que.flushes.isEmpty = false then d2.emptyBuffers else d2).lowCheck.settle

/-! ### The prefetcher (R232, R233) -/

/-- The KiB of a queue's head segment: the records before its far segment. -/
def Dev.headKib (d : Dev) (q : Nat) : Nat := (((d.queue q).takeWhile fun x => !x.far).map (·.sectors)).sum / 4

/-- The next spilled queue to serve, in rotation, whose head segment holds less than DEPTH KiB. -/
def Dev.prefetchQueue (d : Dev) : Option Nat :=
  let qs := ((d.que.spilled.filter (·.2)).map (·.1)).filter fun q =>
    d.headKib q < d.rd F.BUF_PF_CFG_DEPTH && (d.queue q).any Desc.far
  match qs.find? fun q => d.buf.pfTurn < q with
  | some q => some q
  | none => qs.head?

/-- Replace the first far record of a list. -/
def replaceFar (y : Desc) : List Desc → List Desc
  | [] => []
  | x :: t => if x.far then y :: t else x :: replaceFar y t

/-- PREFETCH: the oldest far record of the queue in turn is copied into near pages of the reserve and its far sectors are freed. A
read that fails leaves it in far, to meet the same fate at its departure (R238). -/
def prefetch (err : Nat) (d : Dev) : Dev :=
  if d.on F.BUF_PF_CFG_EN = false ∨ d.shed ≥ 2 then d else
  match d.prefetchQueue with
  | none => d
  | some q =>
    let d0 := { d with buf := { d.buf with pfTurn := q } }
    match (d0.queue q).find? Desc.far with
    | none => d0
    | some x =>
      let rem := match d0.buf.openPage 1 23 with | some o => o.free | none => 0
      let k := (x.sectors - rem + 15) / 16
      if d0.reserveFree < k then d0
      else if d0.farRead x err ≠ 0 then
        d0.setQueue q (replaceFar { x with bad := if d0.farRead x err = 3 then x.bad else d0.farRead x err } (d0.queue q))
      else
        let (hs, d1) := d0.placePaged 1 23 x.sectors k
        let d2 := d1.setQueue q (replaceFar { x with handles := hs, owner := 23, job := none } (d1.queue q))
        (((d2.releaseRecord x).bump F.BUF_PF_RECORDS).spillCheck q).lowCheck

/-! ### Punt writes (R388, R389) -/

/-- The host address of the descriptor at HEAD of punt queue `k`. -/
def Dev.pqPlace (d : Dev) (k : Nat) : Nat :=
  d.rd (F.HST_PQ_BASE.ix k) + 32 * (d.rd (F.HST_PQ_HEAD_INDEX.ix k) % 2 ^ (6 + d.rd (F.HST_PQ_CFG_SIZE.ix k)))

/-- A packet selected from punt egress queue `k` is written into the buffer of the descriptor at HEAD, the descriptor's device bytes
after it, and HEAD moves on. -/
def Dev.puntWrite (d : Dev) (k : Nat) (desc : BitVec 256) (pkt : Packet) : Dev :=
  let addr := byteField desc 0 8
  let max := byteField desc 8 2
  let meta' := d.on (F.HST_PQ_CFG_META.ix k)
  let whole := (if meta' then leBytes 128 pkt.md.toNat else []) ++ pkt.bytes
  let data := whole.take max
  let trunc := whole.length > max
  let flags := 1 + (if trunc then 2 else 0) + (if meta' then 4 else 0)
  let ts := pkt.get Md.rxTs + (if pkt.tsHeld then 0 else 1 <<< 63)
  let rest := leBytes 2 data.length ++ leBytes 1 flags ++ leBytes 1 (pkt.get Md.tc) ++ leBytes 1 (pkt.get Md.srcPort) ++
    leBytes 1 0 ++ leBytes 8 ts ++ leBytes 4 (pkt.get Md.flowHash) ++ leBytes 4 0
  let head := d.rd (F.HST_PQ_HEAD_INDEX.ix k)
  let d1 := ((d.dma addr data).dma (d.pqPlace k + 10) rest).wrIx F.HST_PQ_HEAD_INDEX 64 k (head + 1)
  d1.when (d.on (F.HST_PQ_CFG_IRQ_EN.ix k)) (·.raiseVector 1 (d.rd (F.HST_PQ_CFG_VECTOR.ix k)))

/-! ### Selections (R254) -/

/-- The ports of octet `o` at which a selection can be made: up, with a root that is eligible, and room in the transmit buffer. -/
def Dev.readyPorts (d : Dev) (o : Nat) : List Nat :=
  (d.octetPorts o).filter fun p => d.linkUp p && d.txRoom p && match d.root p with
    | some n => d.eligible (nodeElem n)
    | none => false

/-- The packets in all queues: fuel for a selection. -/
def Dev.queuedPackets (d : Dev) : Nat := (d.que.q.map fun x => x.2.length).sum

/-- A selection of octet `o`'s scheduler: which of its ready ports is served is a free choice. The packet goes to the octet's egress
strokes. -/
def selectOctet (o farErr : Nat) (d : Dev) : Dev :=
  if d.forwarding = false ∨ d.octetStopped o = true ∨ d.cwStopped 1 = true then d else
  let d0 := d.each ((d.octetPorts o).filter fun p => d.linkUp p && d.txRoom p) fun p d => d.noteStates p
  match d0.readyPorts o with
  | [] => d0
  | ports =>
    let (x, d1) := d0.takeFree
    let p := ports.getD (x % ports.length) 0
    match d1.selectAt p farErr (d1.queuedPackets + 1) with
    | (.packet _ pkt, d2) =>
      let d3 := d2.updLp p fun l => { l with pendingBytes := l.pendingBytes + pkt.len }
      { d3 with pir := { d3.pir with egress := d3.pir.egress.upd (fun _ => []) o (· ++ [pkt.setMd Md.egrPort p]) } }
    | (_, d2) => d2

/-- A selection at the host root: the packet is written to its punt queue, or dropped with HST_PUNT_DISABLED where its punt queue is disabled
in the clock of the selection (R389). None is made while the data path is off. -/
def selectHost (desc : BitVec 256) (farErr : Nat) (disabled : Bool) (d : Dev) : Dev :=
  if d.pathOff then d else
  let d0 := d.noteStates 128
  match d0.selectAt 128 farErr (d0.queuedPackets + 1) with
  | (.packet e pkt, d1) => if disabled then d1.dropCount Drop.puntDisabled else d1.puntWrite (e - 393152) desc pkt
  | (_, d1) => d1

/-- SCHEDULER_SELECTION: one selection of an octet's scheduler, or at the host root. -/
def schedulerSelection (o : Option (Fin 16)) (desc : BitVec 256) (farErr : Nat) (disabled : Bool) (d : Dev) : Dev :=
  match o with
  | some o => selectOctet o.val farErr d
  | none => selectHost desc farErr disabled d

/-- TOKEN_REFRESH: the refresh of slot 0, once a span, after the span's timed actions and direct switches (R273, R285). -/
def tokenRefresh (d : Dev) : Dev :=
  if d.shp.refreshTick = d.tim.tick ∨ d.actionDue = true ∨ d.switchDue = true then d else d.refreshAll.settle

/-! ### The commands -/

/-- PREFETCH. -/
def execPrefetch (err : Fin 3) (s : State) : Host.Outcome State Fault Refusal :=
  .next { s with dev := prefetch err.val s.dev }
/-- QUE_PORT_CFG_WRITE. -/
def execQuePortCfgWrite (m : Master) (p : Port) (data : Word) (s : State) : Host.Outcome State Fault Refusal :=
  onMirrored s m.val (F.QUE_PORT_CFG.ix p.val).off data.toNat (quePortCfgWrite m.val p.val data)
/-- NODE_PORT_WRITE. -/
def execNodePortWrite (m : Master) (data : Word) (s : State) : Host.Outcome State Fault Refusal :=
  onMirrored s m.val F.QUE_NODE_PORT.off data.toNat (nodePortWrite m.val data)
/-- QUE_ATTACH. -/
def execQueAttach (m : Master) (s : State) : Host.Outcome State Fault Refusal :=
  onReg s m.val F.QUE_MOVE_CMD.off fun d => (queAttach m.val d).mirrorMove m.val 1
/-- QUE_SWAP. -/
def execQueSwap (m : Master) (s : State) : Host.Outcome State Fault Refusal :=
  onReg s m.val F.QUE_MOVE_CMD.off fun d => (queSwap m.val d).mirrorMove m.val 2
/-- QUE_DETACH. -/
def execQueDetach (m : Master) (s : State) : Host.Outcome State Fault Refusal :=
  onReg s m.val F.QUE_MOVE_CMD.off fun d => (queDetach m.val d).mirrorMove m.val 3
/-- SCHEDULER_SELECTION. -/
def execSchedulerSelection (o : Option (Fin 16)) (desc : BitVec 256) (farErr : Fin 3) (disabled : Bool) (s : State) :
    Host.Outcome State Fault Refusal :=
  .next { s with dev := schedulerSelection o desc farErr.val disabled s.dev }
/-- FLUSH_QUEUE: SCOPE 1, the queue in QUE_Q_SEL. -/
def execFlushQueue (m : Master) (s : State) : Host.Outcome State Fault Refusal :=
  onMirrored s m.val F.QUE_FLUSH_CMD.off 0x40000000 fun d => d.requestFlush 3 0xFFFF [(d.rd F.QUE_Q_SEL_QUEUE, 1)]
/-- FLUSH_PORT: SCOPE 2, the egress queues of a port. -/
def execFlushPort (m : Master) (p : Port) (s : State) : Host.Outcome State Fault Refusal :=
  onMirrored s m.val F.QUE_FLUSH_CMD.off (0x80000000 + p.val) fun d =>
    d.requestFlush 3 p.val ((d.portRanges p.val).filter fun r => 131072 ≤ r.1)
/-- FLUSH_ALL_VOQS: SCOPE 3. -/
def execFlushAllVoqs (m : Master) (s : State) : Host.Outcome State Fault Refusal :=
  onMirrored s m.val F.QUE_FLUSH_CMD.off 0xC0000000 (·.requestFlush 3 0xFFFF [(0, 131072)])
/-- FLUSH_PROGRESS. -/
def execFlushProgress (s : State) : Host.Outcome State Fault Refusal := .next { s with dev := flushProgress s.dev }
/-- HIST_REBIND. -/
def execHistRebind (m : Master) (data : Word) (s : State) : Host.Outcome State Fault Refusal :=
  onReg s m.val F.QUE_HIST_CFG.off fun d => d.localWrite m.val F.QUE_HIST_CFG.off (histWrite data)
/-- HIST_CLEAR. -/
def execHistClear (m : Master) (data : Word) (s : State) : Host.Outcome State Fault Refusal :=
  onReg s m.val F.QUE_HIST_CFG.off fun d => d.localWrite m.val F.QUE_HIST_CFG.off (histWrite (data ||| 0x40000000))
/-- TOKEN_REFRESH. -/
def execTokenRefresh (s : State) : Host.Outcome State Fault Refusal := .next { s with dev := tokenRefresh s.dev }
/-- ELEM_BIND. -/
def execElemBind (m : Master) (data : Word) (s : State) : Host.Outcome State Fault Refusal :=
  onReg s m.val F.SHP_ELEM_PROFILE.off (fun d => (elemBind m.val data d).settle)
/-- SET_SWITCH_WRITE. -/
def execSetSwitchWrite (m : Master) (data : Word) (s : State) : Host.Outcome State Fault Refusal :=
  onReg s m.val F.SHP_SET_SWITCH.off (setSwitchWrite m.val data)
/-- SET_SWITCH. -/
def execSetSwitch (s : State) : Host.Outcome State Fault Refusal := .next { s with dev := (setSwitch s.dev).settle }

end Sys2Proof.Machine
end

