-- ==== Sys2Proof/Machine/Deck.lean ====
section
/-! DEFINITION. The deck, the replication engine and mirror sessions, and the arrival of packets at the TM (R242, R318 to R331). -/

namespace Sys2Proof.Machine

/-! ### Metadata reach (R72, R140, R141) -/

/-- The device-defined metadata fields: ID, offset, width, reach (R140). -/
def deviceFields : List FieldRec :=
  [⟨0, 0, 1, 3⟩, ⟨1, 1, 2, 0⟩, ⟨2, 3, 1, 0⟩, ⟨3, 4, 4, 0⟩, ⟨4, 8, 8, 3⟩, ⟨5, 16, 8, 0⟩, ⟨6, 24, 3, 3⟩, ⟨7, 27, 2, 3⟩,
   ⟨8, 29, 2, 2⟩, ⟨9, 32, 16, 2⟩, ⟨10, 48, 8, 2⟩, ⟨11, 64, 22, 3⟩, ⟨12, 96, 21, 3⟩, ⟨13, 128, 14, 3⟩,
   ⟨14, 160, 32, 3⟩, ⟨15, 192, 60, 3⟩, ⟨16, 256, 16, 3⟩, ⟨17, 272, 2, 3⟩, ⟨18, 280, 6, 1⟩, ⟨19, 288, 9, 0⟩,
   ⟨20, 304, 16, 0⟩, ⟨21, 320, 8, 3⟩, ⟨22, 336, 24, 0⟩]

/-- The metadata fields of an image: the device's own, then its program fields. -/
def imageFields (im : Option Image) : List FieldRec :=
  deviceFields ++ match im with
    | some i => i.fields.filter fun f => 0x40 ≤ f.id
    | none => []

/-- The metadata with every bit cleared that no field of reach `k` or more covers. -/
def keepReach (fs : List FieldRec) (k : Nat) (md : BitVec 1024) : BitVec 1024 :=
  fs.foldl (fun a f =>
    if k ≤ f.reach then setBits a (f.ofs + f.width - 1) f.ofs (bits md (f.ofs + f.width - 1) f.ofs) else a) 0

/-- The packet as it stands beyond a boundary that only fields of reach `k` or more pass. -/
def Dev.reachPkt (d : Dev) (k : Nat) (p : Packet) : Packet :=
  { p with md := keepReach (imageFields (d.bankImage p.tag)) k p.md }

/-- The fields of the fabric metadata block, in ascending BIT_OFS (R294): reach 2 or 3, without BANK_TAG and PKT_LEN. -/
def fmdFields (im : Option Image) : List FieldRec :=
  ((imageFields im).filter fun f => 2 ≤ f.reach && f.id != 0 && f.id != 13).insertionSort fun a b => a.ofs ≤ b.ofs

/-- F: the words of the fabric metadata block. -/
def fmdWords (im : Option Image) : Nat := (((fmdFields im).map (·.width)).sum + 31) / 32

/-- The stream bytes of a packet (R293). -/
def streamBytes (f len : Nat) : Nat := 8 + 4 * f + 4 * ((len + 3) / 4)

/-! ### Local system ports (R298, R299, R314) -/

/-- The node ID that the device shows: the strap's while FAB_CTRL.EN = 0, FAB_STATUS.NODE_ID otherwise. -/
def Dev.nodeId (d : Dev) : Nat := if d.on F.FAB_CTRL_EN then d.rd F.FAB_STATUS_NODE_ID else d.rd F.GLB_STRAP_NODE_ID

/-- A node ID is in force: the strap's while FAB_CTRL.EN = 0, otherwise from the first entry to UP (FAB_STATUS.NODE_VALID). -/
def Dev.nodeInForce (d : Dev) : Bool := !d.on F.FAB_CTRL_EN || d.on F.FAB_STATUS_NODE_VALID

/-- Does a node number name this device: its node ID in force, or with PAIR = 1 that ID with bit 0 cleared? -/
def Dev.isOwnNode (d : Dev) (n : Nat) : Bool :=
  d.nodeInForce && (n == d.nodeId || (d.on F.FAB_STATUS_PAIR && n == d.nodeId - d.nodeId % 2))

/-- The node of a system port: a map write takes effect from the next span (R299). -/
def Dev.spNode (d : Dev) (x : Nat) : Nat :=
  match d.fab.spMapOld.get (fun _ => none) x with
  | some (n, t) => if t = d.tim.tick then n else d.rd (F.FAB_SP_MAP_NODE.ix x)
  | none => d.rd (F.FAB_SP_MAP_NODE.ix x)

/-- Is the system port local (R299)? -/
def Dev.localSp (d : Dev) (x : Nat) : Bool := d.isOwnNode (d.spNode x)

/-- The present local port of a system port in the live PORT_MAP. -/
def Dev.spPort (d : Dev) (x : Nat) : Option Nat := (List.range 128).find? fun p => d.sysPort p == some x

/-! ### Groups and copy lists (R326) -/

/-- A group entry. -/
def Dev.groupEntry (d : Dev) (g : Nat) : BitVec 64 := d.reg (F.DCK_MC_GROUP.item g).off
/-- VALID, COUNT and BASE of a group entry. -/
def groupValid (e : BitVec 64) : Bool := bitOn e 31
/-- COUNT of a group entry. -/
def groupCount (e : BitVec 64) : Nat := bits e 30 20
/-- BASE of a group entry. -/
def groupBase (e : BitVec 64) : Nat := bits e 19 0
/-- A copy-list entry. -/
def Dev.clEntry (d : Dev) (i : Nat) : BitVec 64 := d.reg (F.DCK_CL_ENTRY.item i).off
/-- VALID of a copy-list entry. -/
def clValid (e : BitVec 64) : Bool := bitOn e 63

/-- The packet of a copy under its copy-list entry: system port, class and the selected field (R328). The copy is a unicast packet
to its system port and has no mirror session of its own. -/
def copyPacket (e : BitVec 64) (p : Packet) : Packet :=
  let wv := bits e 45 24
  let ws := bits e 21 20
  let p1 := ((p.setMd Md.destType 0).setMd Md.dest (bits e 13 0)).setMd Md.mirror 0
  let p2 := if bitOn e 19 then p1.setMd Md.tc (bits e 18 16) else p1
  if ws = 1 then p2.setMd Md.eqSel wv
  else if ws = 2 then p2.setMd Md.encapIndex wv
  else if ws = 3 then p2.setMd Md.adjIndex wv
  else p2

/-- The VOQ of a unicast packet (R242). -/
def voqOf (p : Packet) : Nat := (p.get Md.dest % 16384) * 8 + p.get Md.tc

/-- The punt egress queue of a packet with DEST_TYPE 2 (R242). -/
def puntQueueOf (p : Packet) : Nat := 524224 + p.get Md.dest % 64

/-- The counter of a group. -/
def groupDrop (r g : Nat) : Fld := (F.DCK_MC_DROP.ix r).item g

/-- The outcome of a copy counted for its group (R328). -/
def Dev.countCopy (d : Dev) (g : Nat) (res : Option Nat) (n : Nat) : Dev :=
  match res with
  | none => d.bumpN (F.DCK_MC_COPIES.item g) n
  | some r =>
    if r = Drop.quePortDown then d.bumpN (groupDrop 0 g) n
    else if r = Drop.bufExhausted then d.bumpN (groupDrop 2 g) n
    else d.bumpN (groupDrop 1 g) n

/-! ### Mirror sessions (R330) -/

/-- The queue of a session's copy and the copy, if the session makes one. -/
def Dev.mirrorTarget (d : Dev) (s : Nat) (p : Packet) : Option (Nat × Packet) :=
  let ty := d.rd (F.DCK_MIR_CFG_DEST_TYPE.item s)
  if d.on (F.DCK_MIR_CFG_EN.item s) = false then none else
  let p1 := (((p.setMd Md.tc (d.rd (F.DCK_MIR_CFG_TC.item s))).setMd Md.destType ty).setMd Md.dest
    (d.rd (F.DCK_MIR_CFG_DEST.item s))).setMd Md.mirror 0
  if ty = 0 then some (voqOf p1, p1) else if ty = 2 then some (puntQueueOf p1, p1) else none

/-- The engine makes a mirror copy, or counts it lost. -/
def Dev.mirrorCopy (d : Dev) (s input : Nat) (p : Packet) : Dev :=
  if d.shed ≥ 1 then (d.bump F.DCK_MIRROR_SHED).mirrorLost s
  else match d.mirrorTarget s p with
    | none => d.mirrorLost s
    | some (q, c) =>
      match d.admitTo q 20 input c with
      | (none, d1) => (d1.bump (F.DCK_MIR_MADE.item s)).bump F.DCK_MC_COPIES_TOTAL
      | (some _, d1) => d1.mirrorLost s

/-! ### The backlog (R325, R329) -/

/-- The backlog holds 65,536 packets. -/
def Dev.backlogFull (d : Dev) : Bool := d.dck.backlog.length ≥ 65536

/-- A job at the end of the backlog; the descriptor of the source record, if it is queued, names it. -/
def Dev.pushJob (d : Dev) (j : ReplJob) : Dev :=
  { d with dck := { d.dck with backlog := d.dck.backlog ++ [j], nextJob := d.dck.nextJob + 1 } }

/-- The queue that holds the record of a job, while one does. -/
def Dev.jobQueue (d : Dev) (j : ReplJob) : Option Nat := (d.que.q.find? fun e => e.2.any fun x => x.job == some j.id).map (·.1)

/-- What the engine's read of a job's source record gives (R238), free for a far record. -/
def Dev.sourceFate (d : Dev) (j : ReplJob) : Nat × Dev :=
  d.farFate { pkt := j.pkt, handles := j.handles, owner := j.owner, pktLen := j.pkt.len, color := 0, sectors := 0, tag := 0, tc := 0,
              ect := false, arrSpan := 0, arrSlot := 0, input := j.input, flow := none, job := some j.id }

/-- The job at the front is done: its source record is freed if its own queue has released it (R325). -/
def Dev.finishJob (d : Dev) (j : ReplJob) : Dev :=
  let d1 := { d with dck := { d.dck with backlog := d.dck.backlog.tail } }
  if j.released then d1.freeRecord j.owner j.handles else d1

/-- The engine's read of a far source record has failed (R238, R239). DESIGN CHOICE (30): the copies still to be made from it are not made, and
where its own queue still holds the record, it meets the same fate at its departure; the event names that queue, a free one where none does. -/
def Dev.sourceLost (d : Dev) (j : ReplJob) (bad : Nat) : Dev :=
  let (n, d1) := match d.jobQueue j with
    | some q => (q, d)
    | none => let (n, d1) := d.takeFree; (n % 524288, d1)
  let x : Desc := { pkt := j.pkt, handles := j.handles, owner := j.owner, pktLen := j.pkt.len, color := 0, sectors := 0, tag := 0, tc := 0,
                    ect := false, arrSpan := 0, arrSlot := 0, input := j.input, flow := none, job := some j.id }
  let d2 := (d1.farDrop x n bad).when (j.mirror != 0) (·.mirrorLost j.mirror)
  let mark (y : Desc) : Desc := if y.job = some j.id ∧ bad ≠ 3 then { y with bad := bad } else y
  ({ d2 with que := { d2.que with q := d2.que.q.map fun (e : Nat × List Desc) => (e.1, e.2.map mark) } }).finishJob j

/-- REPLICATION_COPY: the engine makes the next copy of the packet at the front of the backlog: group copies in ascending copy-list
order, then the mirror copy (R325, R328, R330). -/
def replicationCopy (d : Dev) : Dev :=
  match d.dck.backlog with
  | [] => d
  | j :: _ =>
    let (bad, d) := d.sourceFate j
    if bad ≠ 0 then (d.sourceLost j bad).lowCheck.settle
    else if j.nextCopy < j.count then
      let e := d.clEntry ((j.base + j.nextCopy) % 1048576)
      let g := j.group.getD 0
      let d1 :=
        if clValid e then
          let c := copyPacket e j.pkt
          match d.admitTo (voqOf c) 20 j.input c with
          | (none, d1) => (d1.countCopy g none 1).bump F.DCK_MC_COPIES_TOTAL
          | (some r, d1) => d1.countCopy g (some r) 1
        else d.bump (groupDrop 4 g)
      let j1 := { j with nextCopy := j.nextCopy + 1 }
      let jobs := d1.dck.backlog.map fun (x : ReplJob) => if x.id = j.id then { x with nextCopy := j1.nextCopy } else x
      let d2 := { d1 with dck := { d1.dck with backlog := jobs } }
      (if j1.nextCopy = j.count ∧ j.mirror = 0 then
        match d2.dck.backlog with
        | x :: _ => d2.finishJob x
        | [] => d2
      else d2).lowCheck.settle
    else
      let d1 := if j.mirror = 0 then d else d.mirrorCopy j.mirror j.input j.pkt
      (match d1.dck.backlog with
        | x :: _ => d1.finishJob x
        | [] => d1).lowCheck.settle

/-! ### Arrivals (R242, R247, R327, R329) -/

/-- What becomes of an arrival whose record finds its buffers: the packet of queue `q`; the first copy of a group's packet, in its VOQ `q`; or
the source record of a group's packet whose first copy is in no queue. -/
inductive EnqKind where
  | one (q : Nat)
  | first (q group base count : Nat)
  | source (group base count : Nat)
  deriving DecidableEq, Repr

/-- An arrival that has passed its checks: the packet as WRED may have marked it, and the buffers it asks for. -/
structure EnqPlan where
  arr : Arrival
  pkt : Packet
  kind : EnqKind
  ask : AllocReq
  deriving DecidableEq, Repr

/-- The packet's mirror session makes no copy (R330). -/
def Dev.noMirror (d : Dev) (p : Packet) : Dev := d.when (p.get Md.mirror != 0) (·.mirrorLost (p.get Md.mirror))

/-- A unicast or punted packet at its queue: the checks of R247 before the buffers. -/
def Dev.planOne (d : Dev) (q : Nat) (a : Arrival) : Option EnqPlan × Dev :=
  match d.admitChecks q a.pkt with
  | (some r, _, d1) => (none, (d1.queueDrop q r).noMirror a.pkt)
  | (none, p, d1) => (some ⟨a, p, .one q, d1.allocReq a.input (sectorsOf p.len) (d1.tierMask p.tag q) (d1.spilled q)⟩, d1)

/-- A multicast packet whose group entry is good (R327): the first copy is the record the ingress stream writes, under the tier mask of that
copy's queue, or BUF_MC_TMASK where there is none; the rest is the engine's. -/
def Dev.planGroup (d : Dev) (a : Arrival) (g base count : Nat) : Option EnqPlan × Dev :=
  let source (d : Dev) (mask : Nat) : Option EnqPlan × Dev :=
    (some ⟨a, a.pkt, .source g base count, d.allocReq a.input (sectorsOf a.pkt.len) mask false⟩, d)
  if (count > 1 || a.pkt.get Md.mirror != 0) = true ∧ d.backlogFull = true then
    (none, ((((d.dropCount Drop.dckBacklog).bump F.DCK_MC_BACKLOG_DROP).bumpN (groupDrop 3 g) count).noMirror a.pkt).post
      Ev.DCK_MC_BACKLOG [(24, 2, g), (26, 1, a.input)])
  else
    let e := d.clEntry (base % 1048576)
    if clValid e then
      let c := copyPacket e a.pkt
      let q := voqOf c
      match d.admitChecks q c with
      | (some r, _, d1) => source ((d1.queueDrop q r).countCopy g (some r) 1) (d1.tierMask c.tag q)
      | (none, p, d1) =>
        (some ⟨a, p, .first q g base count, d1.allocReq a.input (sectorsOf p.len) (d1.tierMask p.tag q) (d1.spilled q)⟩, d1)
    else source (d.bump (groupDrop 4 g)) (d.rd F.BUF_MC_TMASK)

/-- A packet that has arrived at the TM is checked for its queue or for its group (R242, R327). DESIGN CHOICE (30): DEST_TYPE 3 names nothing,
and the packet goes nowhere. -/
def Dev.planArrival (d : Dev) (a : Arrival) : Option EnqPlan × Dev :=
  match a.pkt.get Md.destType with
  | 0 => d.planOne (voqOf a.pkt) a
  | 1 =>
    let g := a.pkt.get Md.dest
    let e := d.groupEntry g
    if groupValid e = false ∨ groupCount e = 0 then
      (none, (((d.dropCount Drop.dckNoGroup).bump F.DCK_MC_NO_GROUP).noMirror a.pkt).post Ev.DCK_MC_NO_GROUP [(24, 2, g), (26, 1, a.input)])
    else d.planGroup a g (groupBase e) (groupCount e)
  | 2 => d.planOne (puntQueueOf a.pkt) a
  | _ => (none, d.noMirror a.pkt)

/-- The replication job of a planned packet, its record in `hs`. -/
def EnqPlan.job (w : EnqPlan) (id : Nat) (hs : List Nat) : ReplJob :=
  let (rel, g, base, count, next) := match w.kind with
    | .one _ => (false, none, 0, 0, 0)
    | .first _ g base count => (false, some g, base, count, 1)
    | .source g base count => (true, some g, base, count, 1)
  { id := id, pkt := w.arr.pkt, input := w.arr.input, handles := hs, owner := w.arr.input, released := rel, group := g, base := base,
    count := count, nextCopy := next, mirror := w.arr.pkt.get Md.mirror }

/-- A planned packet whose record found no buffers (R225, R328). -/
def Dev.unplaced (d : Dev) (w : EnqPlan) : Dev :=
  (match w.kind with
    | .one q => d.queueDrop q Drop.bufExhausted
    | .first q g _ count => (d.queueDrop q Drop.bufExhausted).countCopy g (some Drop.bufExhausted) count
    | .source g _ count => (d.dropCount Drop.bufExhausted).countCopy g (some Drop.bufExhausted) (count - 1)).noMirror w.arr.pkt

/-- A planned packet whose record is placed in `pool`: queued, with a job for the copies still to be made; a source record with none is freed
at once (R227, R325, R329). -/
def Dev.place (d : Dev) (w : EnqPlan) (pool : Nat) (hs : List Nat) : Dev :=
  let id := d.dck.nextJob
  let mirrored := w.arr.pkt.get Md.mirror != 0
  let queued (q : Nat) (job : Bool) : Dev := d.append q w.arr.input w.arr.input w.pkt pool hs (if job then some id else none)
  match w.kind with
  | .one q =>
    if mirrored && d.backlogFull then
      ((queued q false).noMirror w.arr.pkt).post Ev.DCK_MC_BACKLOG [(24, 2, 0xFFFF), (26, 1, w.arr.input)]
    else (queued q mirrored).when mirrored (·.pushJob (w.job id hs))
  | .first q g _ count => ((queued q (count > 1 || mirrored)).countCopy g none 1).when (count > 1 || mirrored) (·.pushJob (w.job id hs))
  | .source _ _ count => if count > 1 || mirrored then d.pushJob (w.job id hs) else d.freeRecord w.arr.input hs

/-- The queue that an arrival asks for: its own, or that of its group's first copy. -/
def Dev.arrivalQueue (d : Dev) (a : Arrival) : Option Nat :=
  match a.pkt.get Md.destType with
  | 0 => some (voqOf a.pkt)
  | 1 =>
    let g := d.groupEntry (a.pkt.get Md.dest)
    let e := d.clEntry (groupBase g % 1048576)
    if groupValid g && groupCount g != 0 && clValid e then some (voqOf (copyPacket e a.pkt)) else none
  | 2 => some (puntQueueOf a.pkt)
  | _ => none

/-- The oldest arrivals of one clock, up to `n`: a requester has one in it (R226). DESIGN CHOICE (26): so has a queue, which then finds whether it is
spilled as the record before left it (R231). -/
def Dev.oneClock (d : Dev) : Nat → List Nat → List Nat → List Arrival → List Arrival
  | n + 1, seen, qs, a :: t =>
    if seen.contains a.input || (d.arrivalQueue a).any qs.contains then []
    else a :: d.oneClock n (a.input :: seen) ((d.arrivalQueue a).toList ++ qs) t
  | _, _, _, _ => []

/-- Check arrivals in order. -/
def Dev.planAll (d : Dev) : List Arrival → List EnqPlan × Dev
  | [] => ([], d)
  | a :: t =>
    let (w, d1) := d.planArrival a
    let (l, d2) := d1.planAll t
    (w.toList ++ l, d2)

/-- ENQUEUE: the oldest arrival is checked and enqueued or dropped, and so are up to `more` arrivals after it that come in the same clock. DESIGN
CHOICE (26): the checks of a clock find the queues as they are before it; arrivals that could fill the backlog come one to a clock. -/
def enqueue (more : Nat) (d : Dev) : Dev :=
  if d.que.arrivals = [] then d else
  let now := d.oneClock (min (more + 1) (max 1 (65536 - d.dck.backlog.length))) [] [] d.que.arrivals
  let (ws, d1) := { d with que := { d.que with arrivals := d.que.arrivals.drop now.length } }.planAll now
  let (placed, d2) := d1.allocClock (ws.map (·.ask))
  (d2.each ws fun w d =>
    match placed.find? fun x => x.1 == w.ask.req with
    | some x => d.place w x.2.1 x.2.2
    | none => d.unplaced w).lowCheck.settle

/-! ### Deck streams (R318 to R322) -/

/-- The packet a stream has in progress. -/
def Dev.inProg (d : Dev) (i o : Nat) : Option DeckPkt := d.dck.inProg.get (fun _ => none) (16 * i + o)
/-- The device with a stream's packet in progress set. -/
def Dev.setProg (d : Dev) (i o : Nat) (x : Option DeckPkt) : Dev :=
  { d with dck := { d.dck with inProg := d.dck.inProg.set (fun _ => none) (16 * i + o) x } }
/-- A class queue of a fabric input. -/
def Dev.fabQ (d : Dev) (i o c : Nat) : List DeckPkt := d.dck.fabQ.get (fun _ => []) (128 * (i - 16) + 8 * o + c)
/-- The device with a class queue of a fabric input set. -/
def Dev.setFabQ (d : Dev) (i o c : Nat) (l : List DeckPkt) : Dev :=
  { d with dck := { d.dck with fabQ := d.dck.fabQ.set (fun _ => []) (128 * (i - 16) + 8 * o + c) l } }

/-- Is the head packet of a VOQ part-sent through the deck? It holds back the packets behind it (R322). -/
def Dev.partSent (d : Dev) (q : Nat) : Bool :=
  d.dck.inProg.any fun e => match e.2 with
    | some x => x.voq.isSome && 8 * x.sysPort + x.pkt.get Md.tc == q
    | none => false

/-- The stream that serves a VOQ: no packet of it is part-sent, the queue is not down, its system port is local and maps to a present
port of output `o`'s octet, and its head packet's input is `i` (R322). -/
def Dev.voqStream (d : Dev) (q : Nat) : Option (Nat × Nat) :=
  match d.queue q with
  | [] => none
  | h :: _ =>
    if isVoq q && d.localSp (q / 8) && !d.queueDown q && !d.partSent q then (d.spPort (q / 8)).map fun p => (h.input, d.portOctet p) else none

/-- The VOQs that a stream may serve, each with its stream. -/
def Dev.voqStreams (d : Dev) : List (Nat × (Nat × Nat)) :=
  d.que.q.filterMap fun x => (d.voqStream x.1).map fun s => (x.1, s)

/-- The first of a list in rotation from above `last`: the least above it, otherwise the least. -/
def rotate (last : Nat) (l : List Nat) : Option Nat :=
  match (l.filter (last < ·)).min? with
  | some x => some x
  | none => l.min?

/-- The VOQ that a local stream serves next: the highest class, then the system ports in rotation (R322). -/
def Dev.nextVoq (d : Dev) (i o : Nat) : Option (Nat × Nat) :=
  let qs := (d.voqStreams.filter fun x => x.2 == (i, o)).map (·.1)
  [7, 6, 5, 4, 3, 2, 1, 0].findSome? fun c =>
    (rotate (d.dck.lastPort.get (fun _ => 0) (16 * i + o)) ((qs.filter fun q => q % 8 == c).map (· / 8))).map fun x => (x, c)

/-- The fabric class queue served next: the highest class that is not empty. -/
def Dev.nextFab (d : Dev) (i o : Nat) : Option Nat := [7, 6, 5, 4, 3, 2, 1, 0].find? fun c => !(d.fabQ i o c).isEmpty

/-- The streams with a packet in progress, or one they may start. -/
def Dev.readyStreams (d : Dev) : List (Nat × Nat) :=
  (d.dck.inProg.map fun x => (x.1 / 16, x.1 % 16)) ++ (d.dck.fabQ.map fun x => (16 + x.1 / 128, x.1 % 128 / 8)) ++ d.voqStreams.map (·.2)

/-- A packet that has crossed the deck and asks for buffers in its egress queue: for which requester, and its deck input. -/
structure Delivery where
  queue : Nat
  req : Nat
  input : Nat
  pkt : Packet

/-- A packet's arrival at deck output `o` (R321): its CRC is checked and its VOQ record is freed; it then enters its egress queue, if it has one. -/
def Dev.deliver (d : Dev) (i o : Nat) (x : DeckPkt) : Option Delivery × Dev :=
  let d1 := match x.voq with
    | some r => d.releaseRecord r
    | none => d
  let bad := Config.transferError d1.fresh
  let d2 := { d1 with fresh := d1.fresh + 1 }
  if bad then
    (none, (((d2.dropCount Drop.dckCrc).bump F.DCK_CRC_DROP).evidence 4).post Ev.DCK_CRC_ERR [(24, 1, i), (25, 1, o), (26, 2, x.sysPort)])
  else
    match (d2.spPort x.sysPort).bind fun p => d2.egressIndex p x.pkt with
    | none => (none, (d2.dropCount Drop.queEqRange).bump F.QUE_EQ_RANGE_DROP)
    | some e => (some ⟨egrQueue e, x.req, i, d2.reachPkt 2 x.pkt⟩, d2)

/-- The deliveries of one clock and those that come after: a requester and a queue have one in it, and each in its order (R226, R231). -/
def oneClockOf : List Nat → List Nat → List Delivery → List Delivery × List Delivery
  | _, _, [] => ([], [])
  | rs, qs, x :: t =>
    let r := oneClockOf (x.req :: rs) (x.queue :: qs) t
    if rs.contains x.req || qs.contains x.queue then (r.1, x :: r.2) else (x :: r.1, r.2)

/-- Deliveries that pass the checks of their queues, each with the packet as WRED may have marked it and the buffers it asks for (R247). -/
def Dev.askAll (d : Dev) : List Delivery → List (Delivery × Packet × AllocReq) × Dev
  | [] => ([], d)
  | x :: t =>
    match d.admitChecks x.queue x.pkt with
    | (some r, _, d1) => (d1.queueDrop x.queue r).askAll t
    | (none, p, d1) =>
      let (l, d2) := d1.askAll t
      ((x, p, d1.allocReq x.req (sectorsOf p.len) (d1.tierMask p.tag x.queue) (d1.spilled x.queue)) :: l, d2)

/-- Packets enter their egress queues, clock by clock (R226, R247); by fuel. -/
def Dev.deliverAll (d : Dev) : Nat → List Delivery → Dev
  | 0, _ => d
  | k + 1, l =>
    let (now, later) := oneClockOf [] [] l
    let (ws, d1) := d.askAll now
    let (placed, d2) := d1.allocClock (ws.map (·.2.2))
    (d2.each ws fun w d =>
      match placed.find? fun x => x.1 == w.1.req with
      | some x => d.append w.1.queue w.1.req w.1.input w.2.1 x.2.1 x.2.2 none
      | none => d.queueDrop w.1.queue Drop.bufExhausted).deliverAll k later

/-- The next packet that a local stream starts leaves its VOQ; its sojourn ends. One whose sojourn drops it, or whose far record cannot be read,
gives way to the next (R238, R263); by fuel. -/
def Dev.startLocal (d : Dev) (i o : Nat) : Nat → Option DeckPkt × Dev
  | 0 => (none, d)
  | k + 1 =>
    match d.nextVoq i o with
    | none => (none, d)
    | some (x, c) =>
      let q := 8 * x + c
      match d.queue q with
      | [] => (none, d)
      | h :: _ =>
        let d0 := { d with dck := { d.dck with lastPort := d.dck.lastPort.set (fun _ => 0) (16 * i + o) x } }
        if d0.sojournDrops q h then (((d0.popHead q h).releaseRecord h).queueDrop q Drop.queSojourn).startLocal i o k
        else
          let (bad, d1) := ((d0.countMark q h).when (d.spilled q && h.far) (·.bump F.BUF_PF_MISS)).farFate h
          let d2 := d1.popHead q h
          if bad ≠ 0 then ((d2.releaseRecord h).farDrop h q bad).startLocal i o k
          else (some ⟨d0.departing q h, some h, streamBytes (fmdWords (d2.bankImage h.tag)) h.pktLen, i, x⟩, d2)

/-- Start the next packet of a stream. -/
def Dev.startStream (d : Dev) (i o : Nat) : Option DeckPkt × Dev :=
  if i < 16 then d.startLocal i o (d.queuedPackets + 1)
  else
    match d.nextFab i o with
    | none => (none, d)
    | some c =>
      match d.fabQ i o c with
      | [] => (none, d)
      | h :: t => (some h, d.setFabQ i o c t)

/-- One deck cell of stream (i, o): bytes of the packet in progress, then of the packets that follow it; by fuel (a packet takes at
least 8 bytes). The answer begins with the room that is left in the cell and the packets that are across. -/
def Dev.sendCell (d : Dev) (i o : Nat) : Nat → Nat → Nat × List Delivery × Dev
  | 0, room => (room, [], d)
  | k + 1, room =>
    if room = 0 then (0, [], d) else
    let (cur, d1) := match d.inProg i o with
      | some x => (some x, d)
      | none => d.startStream i o
    match cur with
    | none => (room, [], d1)
    | some x =>
      if x.left ≤ room then
        let (y, d2) := (d1.setProg i o none).deliver i o x
        let (left, l, d3) := d2.sendCell i o k (room - x.left)
        (left, y.toList ++ l, d3)
      else (0, [], d1.setProg i o (some { x with left := x.left - room }))

/-! ### The central scheduler (R323, R324) -/

/-- Grant pointer of output `o`. -/
def Dev.grantPtr (d : Dev) (o : Nat) : Nat := d.dck.grant.get (fun _ => 0) o
/-- Accept pointer of input `i`. -/
def Dev.acceptPtr (d : Dev) (i : Nat) : Nat := d.dck.accept.get (fun _ => 0) i

/-- The items of a list in ascending order from `start`, wrapping. -/
def fromPtr (start : Nat) (l : List Nat) : List Nat := l.filter (start ≤ ·) ++ l.filter (· < start)

/-- The sends an input may still make in the slot: 1 for a local input, 4 for a fabric input, less its matches. -/
def freeCapacity (i : Nat) (ms : List (Nat × Nat)) : Nat := (if i < 16 then 1 else 4) - (ms.filter fun m => m.1 == i).length

/-- The grants of an iteration: each unmatched output grants the first requesting input from its pointer. -/
def Dev.grants (d : Dev) (ready ms : List (Nat × Nat)) : List (Nat × Nat) :=
  (List.range 16).filterMap fun o =>
    if ms.any fun m => m.2 == o then none
    else
      let req := (List.range 20).filter fun i => freeCapacity i ms != 0 && ready.contains (i, o)
      ((fromPtr (d.grantPtr o) req).head?).map fun i => (i, o)

/-- The accepts of an iteration: each input accepts its granted outputs from its pointer up to its free capacity. -/
def Dev.accepts (d : Dev) (ms gs : List (Nat × Nat)) : List (Nat × Nat) :=
  (List.range 20).flatMap fun i =>
    let outs := (gs.filter fun g => g.1 == i).map (·.2)
    ((fromPtr (d.acceptPtr i) outs).take (freeCapacity i ms)).map fun o => (i, o)

/-- The pointers after the accepted grants of iteration 1. -/
def Dev.movePointers (d : Dev) (acc : List (Nat × Nat)) : Dev :=
  d.each acc fun m d =>
    { d with dck := { d.dck with
        grant := d.dck.grant.set (fun _ => 0) m.2 ((m.1 + 1) % 20),
        accept := d.dck.accept.set (fun _ => 0) m.1 ((m.2 + 1) % 16) } }

/-- The matching for the next slot, in two iterations (R323). -/
def Dev.matchSlot (d : Dev) : Dev :=
  let ready := d.readyStreams
  let a1 := d.accepts [] (d.grants ready [])
  let d1 := d.movePointers a1
  let a2 := d1.accepts a1 (d1.grants ready a1)
  { d1 with dck := { d1.dck with matching := a1 ++ a2 } }

/-- The cells of the matched pairs, and the packets that are across. -/
def Dev.sendCells (d : Dev) : List (Nat × Nat) → List Delivery × Dev
  | [] => ([], d)
  | m :: t =>
    let (room, l, d1) := d.sendCell m.1 m.2 50 384
    let (l2, d2) := (d1.when (room < 384 && m.2 < 16) (·.bump (F.DCK_OUT_CELLS.ix m.2))).sendCells t
    (l ++ l2, d2)

/-- DECK_SLOT: the matched pairs send one cell each, and the packets that are across enter their queues; the matching of the next slot is made. -/
def deckSlot (d : Dev) : Dev :=
  let (l, d1) := d.sendCells d.dck.matching
  (d1.deliverAll l.length l).matchSlot.lowCheck.settle

/-! ### Configuration (R331) -/

/-- A refused multicast or mirror configuration write. -/
def Dev.dckRefuse (d : Dev) (cause m idx : Nat) : Dev :=
  d.post Ev.DCK_CFG_REFUSED [(24, 1, cause), (26, 1, m), (28, 4, idx)]

/-- In M5 and M6 only master 8 writes groups, copy lists and mirror sessions. -/
def Dev.dckWritable (d : Dev) (m : Nat) : Bool := !(d.mode == .m5 || d.mode == .m6) || m == 8

/-- An entry of the DCK window takes a value: at once, or on both twins at span A (R331, R342). The mirror stream carries the selector and
the words written. -/
def Dev.dckChange (d : Dev) (m off idx v : Nat) (recs : List (Nat × Nat)) : Dev :=
  if d.mirrorOn then
    let r : MirrorRec := { kind := 2, master := m, apply := d.mirrorSpan, body := leBytes 4 off ++ leBytes 4 idx ++ leBytes 8 v, seq := ownSeq }
    ({ d with twn := { d.twn with records := d.twn.records ++ [r] } }).each recs fun x d =>
      d.mirror 2 m (leBytes 4 x.1 ++ leBytes 4 x.2)
  else d.setReg (off + 0x20000000 * idx) (BitVec.ofNat 64 v)

/-- A change of the DCK window that waited for its span on the active takes effect. -/
def Dev.dckApply (d : Dev) (body : List Byte) : Dev :=
  let off := leNat (bytesAt body 0 4)
  d.when (0x11000000 ≤ off && off < 0x12000000)
    (·.setReg (off + 0x20000000 * leNat (bytesAt body 4 4)) (BitVec.ofNat 64 (leNat (bytesAt body 8 8))))

/-- MC_GROUP_WRITE: the selected group's entry. -/
def mcGroupWrite (m : Nat) (data : Word) (d : Dev) : Dev :=
  let g := d.rd F.DCK_MC_SEL_GROUP
  if bits data 19 0 + bits data 30 20 > 1048576 ∨ bits data 30 20 > 1024 then d.dckRefuse 1 m g
  else if d.dckWritable m = false then d.dckRefuse 2 m g
  else d.dckChange m F.DCK_MC_GROUP.off g data.toNat [(F.DCK_MC_SEL.off, g), (F.DCK_MC_GROUP.off, data.toNat)]

/-- CL_ENTRY_WRITE: the high half of the selected copy-list entry commits it with the master's staged low half (R8). The reserved
bits stay 0. -/
def clEntryWrite (m : Nat) (high : Word) (d : Dev) : Dev :=
  let i := d.rd F.DCK_CL_SEL_INDEX
  if d.dckWritable m = false then d.dckRefuse 2 m i
  else
    let v := (d.stagedLow m F.DCK_CL_ENTRY.off (d.rd (F.DCK_CL_ENTRY.item i)) + (high.toNat <<< 32)) &&& 0x80003FFFFF3F3FFF
    (d.unstage m F.DCK_CL_ENTRY.off).dckChange m F.DCK_CL_ENTRY.off i v
      [(F.DCK_CL_SEL.off, i), (F.DCK_CL_ENTRY.off, v % 2 ^ 32), (F.DCK_CL_ENTRY.off + 4, v / 2 ^ 32)]

/-- A write of the selected mirror session (R330, R331). -/
def mirCfgWrite (m : Nat) (data : Word) (d : Dev) : Dev :=
  let s := d.rd F.DCK_MIR_SEL_SESSION
  if d.dckWritable m = false then d.dckRefuse 2 m s
  else d.dckChange m F.DCK_MIR_CFG.off s (data.toNat &&& 0xE7003FFF)
    [(F.DCK_MIR_SEL.off, s), (F.DCK_MIR_CFG.off, data.toNat &&& 0xE7003FFF)]

/-- MC_COUNTER_CLR: DCK_MC_SEL.CLR zeroes the selected group's counters. -/
def mcCounterClr (d : Dev) : Dev :=
  let g := d.rd F.DCK_MC_SEL_GROUP
  (d.wr (F.DCK_MC_COPIES.item g) 0).each (List.range 5) fun r d => d.wr (groupDrop r g) 0

/-- ENQUEUE. -/
def execEnqueue (more : Fin 16) (s : State) : Host.Outcome State Fault Refusal := .next { s with dev := enqueue more.val s.dev }
/-- REPLICATION_COPY. -/
def execReplicationCopy (s : State) : Host.Outcome State Fault Refusal := .next { s with dev := replicationCopy s.dev }
/-- DECK_SLOT. -/
def execDeckSlot (s : State) : Host.Outcome State Fault Refusal := .next { s with dev := deckSlot s.dev }
/-- MC_GROUP_WRITE. -/
def execMcGroupWrite (m : Master) (data : Word) (s : State) : Host.Outcome State Fault Refusal :=
  onReg s m.val F.DCK_MC_GROUP.off (mcGroupWrite m.val data)
/-- CL_ENTRY_WRITE. -/
def execClEntryWrite (m : Master) (high : Word) (s : State) : Host.Outcome State Fault Refusal :=
  onReg s m.val (F.DCK_CL_ENTRY.off + 4) (clEntryWrite m.val high)
/-- MC_COUNTER_CLR: a write into a mirrored window (R343). -/
def execMcCounterClr (m : Master) (s : State) : Host.Outcome State Fault Refusal :=
  onReg s m.val F.DCK_MC_SEL.off fun d => d.localWrite m.val F.DCK_MC_SEL.off mcCounterClr

end Sys2Proof.Machine
end

