-- ==== Sys2Proof/Machine/TwinBase.lean ====
section
/-! DEFINITION. The decision records of the ports, which other blocks make (R345, R346). -/

namespace Sys2Proof.Machine

/-! ### Decision records (R345, R346) -/

/-- A port's part in digests. -/
def Dev.tp (d : Dev) (p : Nat) : TwnPort := d.twn.ports.get (fun _ => TwnPort.reset) p
/-- The device with a port's part changed. -/
def Dev.updTp (d : Dev) (p : Nat) (f : TwnPort → TwnPort) : Dev :=
  { d with twn := { d.twn with ports := d.twn.ports.upd (fun _ => TwnPort.reset) p f } }

/-- The 16 bytes of a decision record. -/
def decisionRecord (fp len : Nat) (md : BitVec 1024) : BitVec 128 :=
  BitVec.ofNat 128 (packBytes [(0, 4, fp), (4, 2, len % 16384),
    (6, 1, mdGet md Md.destType + 4 * mdGet md Md.drop + 8 * mdGet md Md.tc), (8, 2, mdGet md Md.dest),
    (10, 3, mdGet md Md.adjIndex), (13, 3, mdGet md Md.encapIndex)])

/-- The records searched for the one a REALIGN names: the last 4,096 and the next 65,536 (R346). -/
def realignSearch : Nat := 65536

/-- A REALIGN of the active for port `p`: the record named starts window 0. -/
def Dev.sendRealign (d : Dev) (p fp len : Nat) (r16 : BitVec 128) : Dev :=
  (d.updTp p fun x => { x with aligned := true, cur := [r16], drops := 0, window := 0, realignDue := false,
                               retry := realignSearch + 4096, mine := [], peer := [] }).ralinSend 8 0
    (leBytes 1 p ++ leBytes 3 0 ++ leBytes 4 fp ++ leBytes 2 len)

/-- A record joins its port's windows: on the active it may start window 0 under a REALIGN, on the standby it may be the record
sought. -/
def Dev.decision (d : Dev) (p fp len : Nat) (md : BitVec 1024) : Dev :=
  if d.twinOn = false then d else
  let r16 := decisionRecord fp len md
  let d1 := d.updTp p fun x => { x with recent := ((r16, x.dropSum) :: x.recent).take 4096 }
  let x := d1.tp p
  if d.mode = .m4 ∧ x.realignDue = true ∧ (x.aligned = false ∨ x.cur = []) then d1.sendRealign p fp len r16
  else match x.seek with
    | some (f, l, left) =>
      if f = fp ∧ l = len then
        d1.updTp p fun x => { x with aligned := true, seek := none, cur := [r16], drops := 0, window := 0 }
      else if left ≤ 1 then
        (d1.updTp p fun x => { x with seek := none, aligned := false }).post Ev.TWN_PORT_UNALIGNED [(24, 1, p)]
      else d1.updTp p fun x => { x with seek := some (f, l, left - 1) }
    | none =>
      let d2 := if x.aligned then d1.updTp p fun x => { x with cur := x.cur ++ [r16] } else d1
      if d.mode = .m4 ∧ x.retry = 1 then d2.updTp p fun x => { x with retry := 0, realignDue := true }
      else d2.updTp p fun x => { x with retry := x.retry - 1 }

/-- A frame dropped at the MAC or its receive buffer counts in the running window of an aligned port, and for a window that begins at a record
already seen (R346). -/
def Dev.macDrop (d : Dev) (p : Nat) : Dev :=
  if d.twinOn then d.updTp p fun x => { x with dropSum := x.dropSum + 1, drops := if x.aligned then x.drops + 1 else x.drops } else d

/-- A port comes up: its alignment is sought (R346). -/
def Dev.seekAlign (d : Dev) (p : Nat) : Dev :=
  if d.twinOn = false then d
  else if d.mode = .m4 then d.updTp p fun x => { x with realignDue := true, aligned := false, cur := [] }
  else d.updTp p fun x => { x with aligned := false, cur := [], seek := none }

end Sys2Proof.Machine
end

