-- ==== Sys2Proof/Machine/Fabric.lean ====
section
/-! DEFINITION. The fabric interface: lanes, links and the interface state, the control slot, grants, staging, sending and reassembly
(R288 to R317). -/

namespace Sys2Proof.Machine

/-! ### Cells (R291, R292) -/

/-- A cell from its header fields and body. -/
def mkCell (bad : Bool) (type tag tc src dst seq used fh : Nat) (restart : Bool) (body : List Byte) : BitVec 2048 :=
  let h := leBytes 1 (type + 16 * tag + 32 * tc) ++ leBytes 2 src ++ leBytes 2 dst ++ leBytes 2 seq ++ leBytes 1 used ++
    leBytes 1 (fh + if restart then 64 else 0) ++ leBytes 5 0
  let c := crc16 h
  BitVec.ofNat 2048 (leNat (h ++ leBytes 2 (if bad then c ^^^ 0xFFFF else c) ++ bytesAt body 0 240))

/-- A control cell: header bytes 1 to 13 are 0, its body ends in the CRC-32C of bytes 16 to 251. -/
def mkControl (bad : Bool) (type : Nat) (body : List Byte) : BitVec 2048 :=
  let b := bytesAt body 0 236
  mkCell bad type 0 0 0 0 0 0 0 false (b ++ leBytes 4 (crc32c b))

/-- The bytes of a cell from byte `k`. -/
def cellBytes (c : BitVec 2048) (k n : Nat) : List Byte := leBytes n (byteField c k n)

/-- The cell's HCRC is good. -/
def hcrcGood (c : BitVec 2048) : Bool := crc16 (cellBytes c 0 14) == byteField c 14 2

/-- Header fields of a cell. -/
def cellType (c : BitVec 2048) : Nat := bits c 3 0
/-- BANK_TAG. -/
def cellTag (c : BitVec 2048) : Nat := bits c 4 4
/-- TC. -/
def cellTc (c : BitVec 2048) : Nat := bits c 7 5
/-- SRC_NODE. -/
def cellSrc (c : BitVec 2048) : Nat := byteField c 1 2 % 1024
/-- DST_NODE. -/
def cellDst (c : BitVec 2048) : Nat := byteField c 3 2 % 1024
/-- SEQ. -/
def cellSeq (c : BitVec 2048) : Nat := byteField c 5 2
/-- USED, at most 240. -/
def cellUsed (c : BitVec 2048) : Nat := min (byteField c 7 1) 240
/-- FIRST_HEAD. -/
def cellHead (c : BitVec 2048) : Nat := byteField c 8 1 % 64
/-- RESTART. -/
def cellRestart (c : BitVec 2048) : Bool := bitOn c 70

/-! ### Links and the interface (R288, R296 to R298) -/

/-- The interface is UP. -/
def Dev.fabUp (d : Dev) : Bool := d.rd F.FAB_STATUS_STATE == 2
/-- Link `i` is up. -/
def Dev.fabLinkUp (d : Dev) (i : Nat) : Bool := (d.rd F.FAB_LINKS_UP_UP >>> i) % 2 == 1
/-- The links that are up. -/
def Dev.linksUp (d : Dev) : List Nat := (List.range 40).filter d.fabLinkUp
/-- The lanes of a link. -/
def linkLanes (i : Nat) : List Nat := [4 * i, 4 * i + 1, 4 * i + 2, 4 * i + 3]
/-- Is a lane's octet powered? -/
def Dev.lanePowered (d : Dev) (l : Nat) : Bool := d.domainOn (101 + l / 8)
/-- Only an UP interface in M3, M4 or M5 sends data cells and demand (R298). -/
def Dev.fabForwards (d : Dev) : Bool := d.fabUp && d.forwarding
/-- Data cells are sent: the interface is UP, in M3, M4 or M5; in every other state a data slot carries a filler (R298). -/
def Dev.dataSlots (d : Dev) : Bool := d.fabUp && (d.mode == .m3 || d.mode == .m4 || d.mode == .m5)
/-- The node ID and valid bit last taken from a lane. -/
def Dev.laneNode (d : Dev) (l : Nat) : Nat := d.fab.laneNode.get (fun _ => 0) l

/-- FAB_LANE_LOCK: codeword alignment has held and one span of markers was correct (R290). -/
def fabLaneLock (l : Nat) (d : Dev) : Dev :=
  if d.lanePowered l then { d with fab := { d.fab with locked := putBit d.fab.locked l true } } else d

/-- FAB_LANE_LOCK_LOSS: 4 consecutive incorrect markers (R290). -/
def fabLaneLockLoss (l : Nat) (d : Dev) : Dev :=
  { d with fab := { d.fab with locked := putBit d.fab.locked l false, ctlRun := d.fab.ctlRun.set (fun _ => 0) l 0,
                               idRun := d.fab.idRun.set (fun _ => 0) l 0 } }

/-- The consecutive spans that count for a lane: while the interface is UP, those that carried the ID it carries now (R296). -/
def Dev.laneRun (d : Dev) (l : Nat) : Nat := (if d.fabUp then d.fab.idRun else d.fab.ctlRun).get (fun _ => 0) l

/-- A link meets the lane and control conditions: its four lanes are locked, each with valid control-down cells that carry a valid
NODE_ID in 4 consecutive spans up to now, all with one ID, while the interface is UP in each of the 4 (R296). -/
def Dev.linkReady (d : Dev) (i : Nat) : Bool :=
  d.mode != .m11 &&
  (linkLanes i).all fun l =>
    bitOn d.fab.locked l && 4 ≤ d.laneRun l && d.tim.tick ≤ d.fab.ctlAt.get (fun _ => 0) l + 1 &&
    1024 ≤ d.laneNode l && d.laneNode l == d.laneNode (4 * i)

/-- The node ID that a link reports. -/
def Dev.linkNode (d : Dev) (i : Nat) : Nat := d.laneNode (4 * i) % 1024

/-- BELOW_LINE and FAB_CAPACITY after a change of the links that are up. -/
def Dev.capacity (d : Dev) (before : Nat) : Dev :=
  let n := d.linksUp.length
  let d1 := d.wr F.FAB_STATUS_BELOW_LINE (if d.on F.FAB_CTRL_EN && n < 35 then 1 else 0)
  if n < 35 ∧ 35 ≤ before then
    { d1 with fab := { d1.fab with fell := true } }.post Ev.FAB_CAPACITY [(24, 1, n), (25, 1, 0)]
  else if 35 ≤ n ∧ before < 35 ∧ d1.fab.fell = true then
    { d1 with fab := { d1.fab with fell := false } }.post Ev.FAB_CAPACITY [(24, 1, n), (25, 1, 1)]
  else d1

/-- Conflicting node IDs: no link is up, and the state is left only by RESTART (R297). -/
def Dev.nodeMismatch (d : Dev) (i other : Nat) : Dev :=
  (d.wr F.FAB_STATUS_STATE 3).post Ev.FAB_NODE_MISMATCH [(24, 1, i), (26, 2, d.linkNode i), (28, 2, other)]

/-- The interface enters UP with the ID that its links report (R297); every stream restarts (R310). -/
def Dev.enterUp (d : Dev) (node : Nat) : Dev :=
  let d1 := ((d.wr F.FAB_STATUS_STATE 2).wr F.FAB_STATUS_NODE_ID node).wr F.FAB_STATUS_NODE_VALID 1
  let d2 := { d1 with fab := { d1.fab with tx := [] } }
  let d3 := { d2 with twn := { d2.twn with notUpAt := none } }
  d3.post Ev.FAB_UP [(26, 2, node), (28, 1, d3.rd F.FAB_STATUS_PAIR), (29, 1, d3.linksUp.length)]

/-- The link comes up and the interface with it. -/
def Dev.linkComesUp (d : Dev) (i : Nat) : Dev :=
  let n := d.linksUp.length
  let d1 := (d.wr F.FAB_LINKS_UP_UP (d.rd F.FAB_LINKS_UP_UP ||| (1 <<< i))).wr (F.FAB_LINK_STAT_STATE.ix i) 2
  let d2 := { d1 with tim := { d1.tim with excluded := putBit d1.tim.excluded i false },
                      fab := { d1.fab with upTick := d1.fab.upTick.set (fun _ => none) i (some d.tim.tick) } }
  let d3 := d2.post Ev.FAB_LINK_UP [(24, 1, i), (26, 2, d.linkNode i)]
  (if d3.fabUp then d3 else d3.enterUp (d.linkNode i)).capacity n

/-- Link `i` goes down: its staged cells are lost (R309), bring-up starts again, and the last up link takes the interface DOWN. -/
def Dev.linkGoesDown (d : Dev) (i cause : Nat) : Dev :=
  let n := d.linksUp.length
  let st := if cause = 6 then (if d.on F.FAB_CTRL_EN then 3 else 0) else 1
  let d1 := (d.wr F.FAB_LINKS_UP_UP (d.rd F.FAB_LINKS_UP_UP - (1 <<< i))).wr (F.FAB_LINK_STAT_STATE.ix i) st
  let d2 := (d1.wr (F.FAB_LINK_STAT_CAUSE.ix i) cause).post Ev.FAB_LINK_DOWN [(24, 1, i), (25, 1, cause)]
  let mine := d2.fab.staged.filter fun c => c.lane / 4 == i
  let lost := (mine.filter fun c => !c.filler).length
  let ended (m : SMap Nat) : SMap Nat := (linkLanes i).foldl (fun m l => SMap.set (fun _ => 0) m l 0) m
  let d3 := { d2 with fab := { d2.fab with staged := d2.fab.staged.filter (fun c => c.lane / 4 != i),
                                           ctlRun := ended d2.fab.ctlRun, idRun := ended d2.fab.idRun } }
  let d4 : Dev := if lost = 0 then d3 else
    (d3.bumpN F.FAB_STAGED_LOST lost).post Ev.FAB_STAGED_LOST [(24, 1, i), (28, 2, lost), (32, 6, d.tim.span)]
  let d5 : Dev := d4.capacity n
  if d5.fabUp = true ∧ d5.linksUp = [] then
    let d6 := { d5 with twn := { d5.twn with notUpAt := some d5.tim.tick } }
    (d6.wr F.FAB_STATUS_STATE 4).post Ev.FAB_DOWN [(32, 6, d.tim.span)]
  else d5

/-- The interval of 1,024 spans that runs, counted on the internal span tick: DESIGN CHOICE (29). -/
def Dev.uncorrInterval (d : Dev) : Nat := d.tim.tick / 1024

/-- The uncorrectable codewords that link `i` has shown in the running interval. -/
def Dev.uncorrCount (d : Dev) (i : Nat) : Nat :=
  let x := d.fab.uncorr.get (fun _ => (0, 0)) i
  if x.1 = d.uncorrInterval then x.2 else 0

/-- The SPAN of link `i` has differed from the STC in its valid control slots of two consecutive spans, the later of them this one or the
one before. -/
def Dev.stcDisagrees (d : Dev) (i : Nat) : Bool :=
  match d.fab.linkSpans.get (fun _ => []) i with
  | [(t, a, s), (u, b, r)] => d.tim.tick ≤ t + 1 && u + 1 == t && a != s && b != r
  | _ => false

/-- Does the cause of R296 hold for link `i`? -/
def Dev.downHolds (d : Dev) (i cause : Nat) : Bool :=
  if cause = 1 then (linkLanes i).any fun l => !bitOn d.fab.locked l
  else if cause = 2 then d.on F.FAB_LINK_CFG_UNCORR_THR && d.rd F.FAB_LINK_CFG_UNCORR_THR < d.uncorrCount i
  else if cause = 3 then (linkLanes i).all fun l => d.fab.ctlAt.get (fun _ => 0) l + 2 ≤ d.tim.tick
  else if cause = 4 then (linkLanes i).any fun l => 1024 ≤ d.laneNode l && d.laneNode l % 1024 != d.rd F.FAB_STATUS_NODE_ID
  else if cause = 5 then (if d.rd F.TIM_CTRL_SRC = 0 then bitOn d.tim.excluded i else d.stcDisagrees i)
  else cause == 6 && (!d.on F.FAB_CTRL_EN || !d.lanePowered (4 * i))

/-- FABRIC_LINK_DOWN: an up link with a cause goes down (R296). -/
def fabricLinkDown (i cause : Nat) (d : Dev) : Dev :=
  if d.fabLinkUp i && d.downHolds i cause then d.linkGoesDown i cause else d

/-- An uncorrectable codeword destroys a cell on lane `l`: it counts in FAB_FEC_UNCORR and is as never received (R290). `first`: the codeword's
first cell, with which the codeword counts for the link (R296). -/
def Dev.cellDestroyed (d : Dev) (l : Nat) (first : Bool) : Dev :=
  let d1 := d.bump F.FAB_FEC_UNCORR
  if first then
    { d1 with fab := { d1.fab with
      uncorr := d1.fab.uncorr.set (fun _ => (0, 0)) (l / 4) (d1.uncorrInterval, d1.uncorrCount (l / 4) + 1) } }
  else d1

/-- Every up link goes down, and the interface takes a state. -/
def Dev.allLinksDown (d : Dev) (cause st : Nat) : Dev :=
  let up := d.fabUp
  let d1 := d.wr F.FAB_STATUS_STATE st
  let d2 := d1.each d1.linksUp fun i d => d.linkGoesDown i cause
  let d3 := (d2.wr F.FAB_STATUS_NODE_VALID 0).wr F.FAB_STATUS_BELOW_LINE (if st = 0 then 0 else 1)
  let d4 := d3.each (List.range 40) fun i d => d.wr (F.FAB_LINK_STAT_STATE.ix i) (if st = 0 then 0 else 1)
  if up then { d4 with twn := { d4.twn with notUpAt := some d4.tim.tick } } else d4

/-- FAB_ENABLE_WRITE: EN = 1 starts bring-up, EN = 0 disables the interface (R297). -/
def fabEnableWrite (en : Bool) (d : Dev) : Dev :=
  if d.on F.FAB_CTRL_EN = en then d
  else if en then ((d.wr F.FAB_CTRL_EN 1).allLinksDown 0 1)
  else ((d.wr F.FAB_CTRL_EN 0).allLinksDown 6 0)

/-- FAB_RESTART: every link goes down and the interface returns to BRINGUP (R297). -/
def fabRestart (d : Dev) : Dev := if d.on F.FAB_CTRL_EN then d.allLinksDown 0 1 else d

/-- TAKEOVER_REQUEST: accepted in M5 only (R315); the claim's time runs from it, and the output pins are held (R335, R351). -/
def takeoverRequest (d : Dev) : Dev :=
  if d.mode = .m5 ∧ d.on F.FAB_PAIR_CTRL_TAKEOVER = false then
    let d1 := d.wr F.FAB_PAIR_CTRL_TAKEOVER 1
    { d1 with twn := { d1.twn with claimAt := some (d.tim.tick, d.tim.span), pinsHeld := d1.twn.pinsHeld || d1.twinOn } }
  else d

/-! ### Control-up (R300 to R303) -/

/-- The stream bytes not yet staged, of packets in VOQs and of a packet partly staged, as pairs of 8 × node + class and bytes. -/
def Dev.unstaged (d : Dev) : List (Nat × Nat) :=
  (d.que.q.filterMap fun e =>
    if e.1 < 131072 then
      some (8 * d.spNode (e.1 / 8) + e.1 % 8,
        (e.2.map fun x => streamBytes (fmdWords (d.bankImage x.tag)) x.pktLen).sum)
    else none) ++ d.fab.tx.map fun e => (e.1, e.2.left.length)

/-- A demand level (R301): the bytes left to stage, in cells, less the grants in hand. -/
def demandLevel (n : Nat) : Nat := if n = 0 then 0 else min 15 (Nat.log2 n + 1)

/-- The demand levels that are not 0, by 8 × node + class. -/
def Dev.demands (d : Dev) : List (Nat × Nat) :=
  if d.fabForwards then
    let u := d.unstaged
    let next := d.fab.grants.filter fun g => g.span == spanAdd d.tim.span 1
    ((u.map (·.1)).dedup.filter fun k => !d.isOwnNode (k / 8)).map fun k =>
      let s := ((u.filter fun e => e.1 == k).map (·.2)).sum
      let g := (next.filter fun g => 8 * g.node + g.cls == k).length
      (k, demandLevel ((s + 239) / 240 - g))
  else []

/-- The 128 bytes of a demand stripe. -/
def stripeBytes (dem : List (Nat × Nat)) (stripe : Nat) : List Byte :=
  let mine := dem.filter fun e => e.1 / 256 == stripe
  leBytes 128 (mine.map fun e => e.2 <<< (4 * (e.1 % 256))).sum

/-- The links that LINKS_UP of a control-up cell reports: those up, but for one that came up in this span (R296). -/
def Dev.linksReported (d : Dev) : List Nat := d.linksUp.filter fun i => d.fab.upTick.get (fun _ => none) i != some d.tim.tick

/-- The stripe that a lane carries: its rank among the lanes of the links reported up, modulo 32; 0 on other links (R302). -/
def Dev.stripeOf (d : Dev) (l : Nat) : Nat :=
  if d.linksReported.contains (l / 4) then ((d.linksReported.filter (· < l / 4)).length * 4 + l % 4) % 32 else 0

/-- The 16 port reports. -/
def reportBytes (rs : List (Nat × Bool × Nat)) : List Byte :=
  bytesAt (rs.flatMap fun r => leBytes 2 (r.1 % 16384 + (if r.2.1 then 16384 else 0) + 32768)) 0 32

/-- The body of the control-up cell for a stripe. -/
def Dev.controlBody (d : Dev) (dem : List (Nat × Nat)) (stripe : Nat) : List Byte :=
  leBytes 5 ((d.linksReported.map fun i => 1 <<< i).sum) ++
  leBytes 1 ((if d.fabForwards then 1 else 0) + 2 * d.rd F.FAB_PAIR_CTRL_TAKEOVER) ++
  leBytes 2 (d.rd F.FAB_STATUS_NODE_ID + 32768 * d.rd F.FAB_STATUS_NODE_VALID) ++ leBytes 2 stripe ++
  stripeBytes dem stripe ++ reportBytes d.fab.reports

/-- Reports ride 4 spans; those that wait take the free entries in order (R303). -/
def Dev.ageReports (d : Dev) : Dev :=
  let kept := (d.fab.reports.map fun r => (r.1, r.2.1, r.2.2 - 1)).filter fun r => r.2.2 != 0
  let n := 16 - kept.length
  let more := (d.fab.reportsWait.take n).map fun r => (r.1, r.2, 4)
  { d with fab := { d.fab with reports := kept ++ more, reportsWait := d.fab.reportsWait.drop n } }

/-- The marker before the cell of a slot: the slot index, and even parity in bit 7 (R289). -/
def slotMarker (slot : Nat) : BitVec 8 :=
  let i := slot % 128
  BitVec.ofNat 8 (i + 128 * ((i + i / 2 + i / 4 + i / 8 + i / 16 + i / 32 + i / 64) % 2))

/-- The lanes that send a cell in every slot (R300, R308): those whose octet is powered, locked or not. -/
def Dev.sendLanes (d : Dev) : List Nat := (List.range 160).filter fun l => bitOn d.fab.locked l || d.lanePowered l

/-- The filler of an ungranted slot (R292). -/
def Dev.idleCell (d : Dev) : BitVec 2048 := mkCell d.silent 0 0 0 (d.rd F.FAB_STATUS_NODE_ID) 0 0 0 63 false []

/-- CONTROL_UP_SEND: in slot 0 a control-up cell on every locked lane, and a filler on a powered one that is not locked (R300, R308). -/
def controlUpSend (d : Dev) : Dev :=
  if d.on F.FAB_CTRL_EN = false then d
  else
    let dem := d.demands
    let cells := d.sendLanes.map fun l => (⟨l, slotMarker 0,
      if bitOn d.fab.locked l then mkControl d.silent 2 (d.controlBody dem (d.stripeOf l)) else d.idleCell⟩ : FabOut)
    { d with fab := { d.fab with ctlUp := cells } }.ageReports

/-! ### Control-down (R304, R305) -/

/-- A control-down cell is valid: HCRC, TYPE and CRC (R305). -/
def controlValid (c : BitVec 2048) : Bool :=
  hcrcGood c && cellType c == 3 && crc32c (cellBytes c 16 236) == byteField c 252 4

/-- A system port reported down or up by the fabric: each valid report posts QUE_SP_STATE (R305), and a change marks the port's VOQs, which
are flushed when they go down (R264). Reports of the device's own system ports are ignored. -/
def Dev.spReport (d : Dev) (x : Nat) (up : Bool) : Dev :=
  let f := F.QUE_SP_DOWN.ix (x / 32)
  let down := (d.rd f >>> (x % 32)) % 2 == 1
  if (d.spPort x).isSome then d
  else
    let d1 := d.post Ev.QUE_SP_STATE [(24, 2, x), (26, 1, if up then 1 else 0)]
    if down != up then d1
    else if up then d1.wr f (d.rd f - (1 <<< (x % 32)))
    else (d1.wr f (d.rd f + (1 <<< (x % 32)))).requestFlush 2 x [(8 * x, 8)]

/-- The grants of a control-down cell on a lane: slots 1 to 99 of span m + 2 (R306). -/
def cellGrants (c : BitVec 2048) (span lane : Nat) : List Grant :=
  (List.range 99).filterMap fun k =>
    let v := byteField c (44 + 2 * k) 2
    if v ≥ 32768 then some { span := span, lane := lane, slot := k + 1, node := v % 1024, cls := v / 1024 % 8 } else none

/-- A ToD base that the fabric sends: one that is new waits for the next span (R44). -/
def Dev.takeBase (d : Dev) (b : Nat × Nat) : Dev :=
  let known := match d.tim.basePending with
    | some p => p == b
    | none => d.on F.TIM_STATUS_TOD_VALID && b == (d.rd F.TIM_TOD_BASE, d.rd F.TIM_TOD_BASE_NS)
  if known then d else { d with tim := { d.tim with basePending := some b, basePendingTick := d.tim.tick } }

/-- A correction that the fabric sends: one that is new waits for the next span (R44). -/
def Dev.takeCorr (d : Dev) (x : BitVec 32) : Dev :=
  let known := match d.tim.corrPending with
    | some p => p == x
    | none => x.toNat == d.rd F.TIM_CORR
  if known then d else { d with tim := { d.tim with corrPending := some x, corrPendingTick := d.tim.tick } }

/-- Time is taken from the link: the span number, the ToD base where TOD_VALID is set, and the correction (R35, R44). -/
def Dev.takeTime (d : Dev) (c : BitVec 2048) : Dev :=
  if d.rd F.TIM_CTRL_SRC ≠ 0 ∨ d.locked = false then d
  else
    let d1 := { d with tim := { d.tim with span := byteField c 16 6, stcTick := d.tim.tick } }
    let d2 := if byteField c 37 1 ≥ 128 then d1.takeBase (byteField c 28 6, byteField c 34 4 % 2 ^ 30) else d1
    d2.takeCorr (BitVec.ofNat 32 (byteField c 38 4))

/-- PAIR, OWNER and PEER_SILENT are taken from the link; a change of OWNER clears TAKEOVER (R305, R315). -/
def Dev.takePair (d : Dev) (c : BitVec 2048) : Dev :=
  let o := byteField c 24 2
  let owner := o % 1024
  let valid := 32768 ≤ o
  let old := if d.on F.FAB_PAIR_STATUS_OWNER_VALID then d.rd F.FAB_PAIR_STATUS_OWNER else 0xFFFF
  let is := valid && owner == d.rd F.FAB_STATUS_NODE_ID
  let d1 := (d.wr F.FAB_STATUS_PAIR (byteField c 22 2 / 16384 % 2)).wr F.FAB_PAIR_STATUS_PEER_SILENT (byteField c 26 1 % 16)
  let d2 := ((d1.wr F.FAB_PAIR_STATUS_OWNER owner).wr F.FAB_PAIR_STATUS_OWNER_VALID (if valid then 1 else 0)).wr
    F.FAB_PAIR_STATUS_IS_OWNER (if is then 1 else 0)
  if valid = true ∧ old ≠ owner then
    (d2.wr F.FAB_PAIR_CTRL_TAKEOVER 0).post Ev.FAB_OWNER_CHANGE [(24, 2, old), (26, 2, owner), (32, 6, d.tim.span)]
  else d2

/-- The SPAN of a link's first valid control slot of a span is noted beside the STC's (R35, R37). -/
def Dev.noteSpan (d : Dev) (i span : Nat) : Dev :=
  let l := d.fab.linkSpans.get (fun _ => []) i
  let last := (l.head?.map (·.1))
  if last = some d.tim.tick then d
  else
    let run := if last.map (· + 1) = some d.tim.tick then d.fab.linkRun.get (fun _ => 0) i + 1 else 1
    { d with fab := { d.fab with linkRun := d.fab.linkRun.set (fun _ => 0) i run,
                                 linkSpans := d.fab.linkSpans.set (fun _ => []) i ((d.tim.tick, span, d.tim.span) :: l.take 1) } }

/-- What every valid control-down cell does: the lane's run, the link's SPAN and node ID, its grants and its port reports. -/
def Dev.controlTaken (d : Dev) (l : Nat) (c : BitVec 2048) : Dev :=
  let n := byteField c 22 2
  let named := 32768 ≤ n
  let i := l / 4
  let last := d.fab.ctlAt.get (fun _ => 0) l
  let run := d.fab.ctlRun.get (fun _ => 0) l
  let run1 := if named then (if last = d.tim.tick then max run 1 else if last + 1 = d.tim.tick then run + 1 else 1) else 0
  let same := d.laneNode l == n % 1024 + 1024
  let id1 := if named then (if last = d.tim.tick then (if same then max (d.fab.idRun.get (fun _ => 0) l) 1 else 1)
    else if last + 1 = d.tim.tick ∧ same = true then d.fab.idRun.get (fun _ => 0) l + 1 else 1) else 0
  let gs := (cellGrants c (spanAdd d.tim.span 2) l).filter fun g => !d.isOwnNode g.node
  let fresh := d.fab.grants.filter fun g => !(g.lane == l && g.span == spanAdd d.tim.span 2)
  let d0 := d.noteSpan i (byteField c 16 6)
  let d1 := { d0 with fab := { d0.fab with
    ctlRun := d.fab.ctlRun.set (fun _ => 0) l run1, idRun := d.fab.idRun.set (fun _ => 0) l id1, ctlAt := d.fab.ctlAt.set (fun _ => 0) l d.tim.tick,
    laneNode := d.fab.laneNode.set (fun _ => 0) l (n % 1024 + if named then 1024 else 0), grants := fresh ++ gs } }
  let d2 := (d1.wr (F.FAB_LINK_STAT_NODE_ID.ix i) (n % 1024)).wr (F.FAB_LINK_STAT_NODE_VALID.ix i) (if named then 1 else 0)
  d2.each (List.range 4) fun k d =>
    let v := byteField c (242 + 2 * k) 2
    if v ≥ 32768 then d.spReport (v % 16384) (v / 16384 % 2 == 1) else d

/-- The time and pair fields are taken from the lowest-numbered up link with a valid cell in the span; as a time source an excluded
link does not count (R35). -/
def Dev.controlSource (d : Dev) (l : Nat) (c : BitVec 2048) : Dev :=
  let i := l / 4
  if d.fabLinkUp i = false then d
  else
    let d0 := { d with tim := { d.tim with lastCtl := d.tim.tick } }
    let first := d.fab.takenTick != d.tim.tick || (match d.fab.takenLink with | some j => i ≤ j | none => true)
    let d1 := if first then
      let d1 := { d0 with fab := { d0.fab with takenTick := d.tim.tick, takenLink := some i } }
      if byteField c 22 2 % 1024 = d.rd F.FAB_STATUS_NODE_ID then d1.takePair c else d1
    else d0
    let lower := (d.linksUp.filter fun j => j < i && !bitOn d.tim.excluded j).any fun j =>
      (linkLanes j).any fun k => d.fab.ctlAt.get (fun _ => 0) k == d.tim.tick
    if bitOn d.tim.excluded i || lower then d1 else d1.takeTime c

/-- CONTROL_DOWN_RX, as far as the fabric interface goes (R305): a cell that a codeword destroyed is as never received (R290). -/
def controlDownRx (l : Nat) (fate : CellFate) (c : BitVec 2048) (d : Dev) : Dev :=
  if d.on F.FAB_CTRL_EN = false ∨ bitOn d.fab.locked l = false then d
  else if fate.destroyed then d.cellDestroyed l fate.first
  else if controlValid c then (d.controlTaken l c).controlSource l c
  else d.bump F.FAB_CTRL_ERR

/-! ### Streams out (R292 to R295, R307, R308) -/

/-- Fields packed one after another, each with its least significant bit first: the value and the bits. -/
def packFields (md : BitVec 1024) (fs : List FieldRec) : Nat × Nat :=
  fs.foldl (fun a f => (a.1 + ((bits md (f.ofs + f.width - 1) f.ofs) <<< a.2), a.2 + f.width)) (0, 0)

/-- The stream bytes of a packet: head, metadata block, data, padding and CRC (R293, R294). -/
def Dev.packetStream (d : Dev) (p : Packet) : List Byte :=
  let im := d.bankImage p.tag
  let f := fmdWords im
  let body := leBytes 4 (p.len % 16384 + 16384 * f) ++ leBytes (4 * f) (packFields p.md (fmdFields im)).1 ++
    bytesAt p.bytes 0 (4 * ((p.len + 3) / 4))
  body ++ leBytes 4 (crc32c body)

/-- A sending stream, by 8 × node + class. -/
def Dev.txStream (d : Dev) (k : Nat) : TxStream := d.fab.tx.get (fun _ => TxStream.reset) k
/-- The device with a sending stream set. -/
def Dev.setTxStream (d : Dev) (k : Nat) (x : TxStream) : Dev :=
  { d with fab := { d.fab with tx := d.fab.tx.set (fun _ => TxStream.reset) k x } }

/-- The system ports of a node with an eligible packet of class `c`: its enqueue completed before slot 0 of this span (R307). -/
def Dev.stagePorts (d : Dev) (node c : Nat) : List Nat :=
  d.que.q.filterMap fun e =>
    if e.1 < 131072 && e.1 % 8 == c && d.spNode (e.1 / 8) == node &&
       (match e.2 with | h :: _ => h.arrSpan != d.stampSpan | [] => false) then some (e.1 / 8) else none

/-- The next packet of a stream is handed to the fabric: its record leaves the buffers (R221, R307). One whose sojourn drops it, or whose far
record cannot be read, gives way to the next (R238, R263). -/
def Dev.stageNext (d : Dev) (k : Nat) (tag : Option Nat) : Option Dev :=
  let x := d.txStream k
  match rotate x.lastPort (d.stagePorts (k / 8) (k % 8)) with
  | none => none
  | some sp =>
    let q := 8 * sp + k % 8
    match d.queue q with
    | [] => none
    | h :: _ =>
      if tag.isSome && tag != some h.tag then none
      else
        let served (d : Dev) : Dev := d.setTxStream k { x with lastPort := sp }
        if d.expired h.tag then some (served (d.expireHead q h))
        else if d.sojournDrops q h then some (served (((d.popHead q h).releaseRecord h).queueDrop q Drop.queSojourn))
        else
          let (bad, d0) := ((d.countMark q h).when (d.spilled q && h.far) (·.bump F.BUF_PF_MISS)).farFate h
          let d1 := (d0.popHead q h).releaseRecord h
          if bad ≠ 0 then some (served (d1.farDrop h q bad))
          else some (d1.setTxStream k { x with lastPort := sp, left := d.packetStream (d.departing q h), tag := h.tag })

/-- Fill a cell body of stream `k` by fuel: bytes so far, the body offset ÷ 4 of the first head, the tag. -/
def Dev.fillCell : Nat → Dev → Nat → List Byte → Nat → Option Nat → List Byte × Nat × Option Nat × Dev
  | 0, d, _, body, fh, tag => (body, fh, tag, d)
  | n + 1, d, k, body, fh, tag =>
    if body.length ≥ 240 then (body, fh, tag, d)
    else
      let x := d.txStream k
      if x.left = [] then
        match d.stageNext k tag with
        | none => (body, fh, tag, d)
        | some d1 =>
          let y := d1.txStream k
          if y.left = [] then Dev.fillCell n d1 k body fh tag
          else Dev.fillCell n d1 k body (if fh = 63 then body.length / 4 else fh) (some y.tag)
      else if tag.isSome && tag != some x.tag then (body, fh, tag, d)
      else if d.expired x.tag then Dev.fillCell n (d.setTxStream k { x with left := [] }).dropExpired k body fh tag
      else
        let room := 240 - body.length
        Dev.fillCell n (d.setTxStream k { x with left := x.left.drop room }) k (body ++ x.left.take room) fh (some x.tag)

/-- Stage one granted slot (R307): a data cell of the grant's stream, or a filler. -/
def Dev.stageGrant (d : Dev) (g : Grant) : Dev :=
  let k := 8 * g.node + g.cls
  let src := d.rd F.FAB_STATUS_NODE_ID
  let put (d : Dev) (c : BitVec 2048) (filler : Bool) : Dev :=
    { d with fab := { d.fab with staged := d.fab.staged ++ [⟨g.span, g.lane, g.slot, c, filler⟩] } }
  let (body, fh, tag, d1) := if d.dataSlots then Dev.fillCell (d.queuedPackets + 130) d k [] 63 none else ([], 63, none, d)
  if body = [] then put d1 (mkCell d1.silent 0 0 g.cls src g.node 0 0 63 false []) true
  else
    let x := d1.txStream k
    let starts := x.restart && (x.restartSpan.isNone || x.restartSpan == some g.span)
    let d2 := d1.setTxStream k { x with seq := (x.seq + 1) % 65536, restart := starts, restartSpan := if starts then some g.span else none }
    put d2 (mkCell d2.silent 1 (tag.getD 0) g.cls src g.node x.seq body.length fh starts body) false

/-- The cells of span `next` go into their slots so that each stream's cells, in the order they were built, take ascending slots, then
lanes (R295). -/
def Dev.orderStaged (d : Dev) (next : Nat) : Dev :=
  let place (a b : StagedCell) : Bool := a.slot * 160 + a.lane ≤ b.slot * 160 + b.lane
  let mine := d.fab.staged.filter fun c => c.span == next
  let keys := (mine.map fun c => 8 * cellDst c.cell + cellTc c.cell).dedup
  let out := keys.flatMap fun k =>
    let cells := mine.filter fun c => 8 * cellDst c.cell + cellTc c.cell == k
    List.zipWith (fun s c => { c with lane := s.lane, slot := s.slot }) (cells.insertionSort fun a b => place a b) cells
  { d with fab := { d.fab with staged := (d.fab.staged.filter fun c => c.span != next) ++ out } }

/-- Cells of the next span are built from the grants for it on links that are up, in ascending slot, then lane (R295, R307). -/
def Dev.stageSpan (d : Dev) : Dev :=
  let next := spanAdd d.tim.span 1
  let gs := (d.fab.grants.filter fun g => g.span == next && d.fabLinkUp (g.lane / 4)).insertionSort fun a b => a.slot * 160 + a.lane ≤ b.slot * 160 + b.lane
  let keep (g : Grant) : Bool := spanFuture g.span d.tim.span && (g.span != next || !d.fabLinkUp (g.lane / 4))
  let d1 := { d with fab := { d.fab with grants := d.fab.grants.filter keep, stagedSpan := some next } }
  (((d1.bumpN F.FAB_GRANTS gs.length).each gs fun g d => d.stageGrant g).orderStaged next).lowCheck.settle

/-- CELL_STAGING: every cell of the next span is built (R307). A grant on a link that is not up at the start of that span is void (R306): it
waits for its link until then. -/
def cellStaging (d : Dev) : Dev := d.stageSpan

/-- A link that comes up after the staging for the next span, before it starts, has its grants staged (R306). -/
def Dev.stageLate (d : Dev) : Dev := if d.fab.stagedSpan = some (spanAdd d.tim.span 1) then d.stageSpan else d


/-- FABRIC_LINK_UP: a link that meets its conditions comes up, or shows a mismatch of node IDs (R296, R297). -/
def fabricLinkUp (i : Nat) (d : Dev) : Dev :=
  let st := d.rd F.FAB_STATUS_STATE
  let id := d.linkNode i
  if d.on F.FAB_CTRL_EN = false ∨ st = 3 ∨ st = 0 ∨ d.fabLinkUp i = true ∨ d.lanePowered (4 * i) = false ∨ d.linkReady i = false then d
  else if st = 2 ∨ st = 4 then (if id = d.rd F.FAB_STATUS_NODE_ID then (d.linkComesUp i).stageLate else d)
  else match (List.range 40).find? fun j => d.linkReady j && d.linkNode j != id with
  | some j => d.nodeMismatch i (d.linkNode j)
  | none =>
    if d.on F.GLB_STRAP_SELF_TIMED = true ∧ id ≠ d.rd F.GLB_STRAP_NODE_ID then d.nodeMismatch i (d.rd F.GLB_STRAP_NODE_ID)
    else (d.linkComesUp i).stageLate

/-- CELL_SEND: in a data slot each lane sends its staged cell or a filler; a granted slot that found no byte counts as wasted
(R308). Where no data cells are sent, a staged data cell's slot carries a filler (R298). -/
def cellSend (slot : Nat) (d : Dev) : Dev :=
  if slot = 0 ∨ d.on F.FAB_CTRL_EN = false then d
  else
    let due := d.fab.staged.filter fun c => c.span == d.tim.span && c.slot == slot
    let late := fun (c : StagedCell) => (c.span == d.tim.span && c.slot ≤ slot) || !spanFuture c.span d.tim.span
    let cells := d.sendLanes.map fun l => (⟨l, slotMarker slot,
      match due.find? fun c => c.lane == l && bitOn d.fab.locked l with
      | some c => if !c.filler && !d.dataSlots then
          mkCell d.silent 0 0 (cellTc c.cell) (d.rd F.FAB_STATUS_NODE_ID) (cellDst c.cell) 0 0 63 false []
        else if d.silent && hcrcGood c.cell then c.cell ^^^ BitVec.ofNat 2048 (0xFFFF <<< 112) else c.cell
      | none => d.idleCell⟩ : FabOut)
    let d1 := { d with fab := { d.fab with cellsOut := cells, staged := d.fab.staged.filter fun c => !late c } }
    (d1.bumpN F.FAB_CELLS_TX (due.filter fun c => !c.filler && d.dataSlots).length).bumpN F.FAB_GRANT_WASTED (due.filter fun c => c.filler).length

/-! ### Reassembly (R310 to R313) -/

/-- A reassembly context, by 8 × node + class. -/
def Dev.rxContext (d : Dev) (k : Nat) : RxContext := d.fab.rx.get (fun _ => RxContext.reset) k
/-- The device with a reassembly context set. -/
def Dev.setRx (d : Dev) (k : Nat) (x : RxContext) : Dev :=
  { d with fab := { d.fab with rx := d.fab.rx.set (fun _ => RxContext.reset) k x } }

/-- The bytes a context holds. -/
def RxContext.bytes (x : RxContext) : Nat :=
  x.part.length + (x.held.map fun h => match h.2.2 with | some c => cellUsed c | none => 0).sum

/-- The reassembly memory in use, in bytes. -/
def Dev.reasmBytes (d : Dev) : Nat := (d.fab.rx.map fun e => e.2.bytes).sum

/-- A reassembly drop: its reason's counters and FAB_REASM_DROP, with the code of R317 and the SEQ. -/
def Dev.reasmDrop (d : Dev) (k reason code seq : Nat) : Dev :=
  ((d.dropCount reason).bump F.FAB_REASM_DROPS).post Ev.FAB_REASM_DROP [(24, 1, code), (26, 2, k / 8), (28, 1, k % 8), (30, 2, seq)]

/-- The metadata that a block spells under a layout, one field after another. -/
def unpackFields (block : Nat) (fs : List FieldRec) : BitVec 1024 :=
  (fs.foldl (fun (a : BitVec 1024 × Nat) f => (setBits a.1 (f.ofs + f.width - 1) f.ofs (block >>> a.2), a.2 + f.width)) (0, 0)).1

/-- A packet in reassembly dropped with EPOCH_EXPIRED (R59, R313). -/
def Dev.reasmExpired (d : Dev) (k seq : Nat) : Dev :=
  (d.dropExpired.bump F.FAB_REASM_DROPS).post Ev.FAB_REASM_DROP [(24, 1, 6), (26, 2, k / 8), (28, 1, k % 8), (30, 2, seq)]

/-- `n` packets so dropped. -/
def Dev.reasmExpiredN (d : Dev) (k seq : Nat) : Nat → Dev
  | 0 => d
  | n + 1 => (d.reasmExpired k seq).reasmExpiredN k seq n

/-- A packet complete in its context: checked and passed to the deck's fabric input, or dropped (R313). -/
def Dev.reasmPacket (d : Dev) (k tag : Nat) (seq : Nat) (b : List Byte) : Dev :=
  let n := b.length - 4
  let head := leNat (b.take 4)
  let len := head % 16384
  let f := head / 16384 % 32
  let im := d.bankImage tag
  if crc32c (b.take n) ≠ leNat (b.drop n) then (d.bump F.FAB_CRC_DROP).reasmDrop k Drop.fabCrc 2 seq
  else if f ≠ fmdWords im ∨ len = 0 then d.reasmDrop k Drop.fabFormat 4 seq
  else
    let md := mdSet (mdSet (unpackFields (leNat ((b.drop 4).take (4 * f))) (fmdFields im)) Md.bankTag tag) Md.pktLen len
    let p : Packet := { bytes := (b.drop (4 + 4 * f)).take len, md := md, tsHeld := d.stcHeld }
    let i := 16 + k / 8 % 4
    let sp := p.get Md.dest % 16384
    match d.spPort sp with
    | none => (d.dropCount Drop.queEqRange).bump F.QUE_EQ_RANGE_DROP
    | some port =>
      let o := d.portOctet port
      d.setFabQ i o (k % 8) (d.fabQ i o (k % 8) ++ [⟨p, none, b.length, i, sp⟩])

/-- The stream bytes that a head calls for. -/
def headBytes (b : List Byte) : Nat := streamBytes (leNat (b.take 4) / 16384 % 32) (leNat (b.take 4) % 16384)

/-- Take every complete packet out of a context, by fuel. -/
def Dev.reasmTake : Nat → Dev → Nat → Nat → Dev
  | 0, d, _, _ => d
  | n + 1, d, k, seq =>
    let x := d.rxContext k
    if x.part.length < 8 ∨ x.part.length < headBytes x.part then d
    else
      let m := headBytes x.part
      let rest := x.part.drop m
      Dev.reasmTake n ((d.setRx k { x with part := rest }).reasmPacket k x.tag seq (x.part.take m)) k seq

/-- The packets that have bytes in a run of stream bytes from a head on, and whether the last of them is incomplete, by fuel. -/
def countPackets : Nat → List Byte → Nat × Bool
  | 0, _ => (0, false)
  | n + 1, b =>
    if b = [] then (0, false)
    else if b.length < 8 ∨ b.length < headBytes b then (1, true)
    else
      let r := countPackets n (b.drop (headBytes b))
      (r.1 + 1, r.2)

/-- The packets whose heads lie in a cell. -/
def cellHeads (c : BitVec 2048) : Nat :=
  if cellHead c = 63 then 0 else (countPackets 31 ((cellBytes c 16 (cellUsed c)).drop (4 * cellHead c))).1

/-- A cell passed on in SEQ order; none: a cell declared lost or expired, which ends the packet in progress and skips to the next head. Every packet with
bytes in a cell of an expired epoch is dropped with EPOCH_EXPIRED, and the rest of one that goes on is skipped (R59, R313). -/
def Dev.reasmCell (d : Dev) (k : Nat) (c : Option (BitVec 2048)) : Dev :=
  let x := d.rxContext k
  let seq := x.expected
  let x1 := { x with expected := (x.expected + 1) % 65536 }
  match c with
  | none =>
    let d1 := d.setRx k { x1 with part := [], skip := true }
    if !x1.part.isEmpty && d.expired x1.tag then d1.reasmExpired k seq else d1
  | some c =>
    let tag := cellTag c
    let b := cellBytes c 16 (cellUsed c)
    if x1.skip = true ∧ cellHead c = 63 then d.setRx k x1
    else
      let b1 := x1.part ++ if x1.skip then b.drop (4 * cellHead c) else b
      if d.expired tag then
        let n := countPackets 31 b1
        (d.setRx k { x1 with part := [], skip := n.2 }).reasmExpiredN k seq n.1
      else (d.setRx k { x1 with part := b1, tag := tag, skip := false }).reasmTake 31 k seq

/-- Pass on the held cells that follow in SEQ order, by fuel. -/
def Dev.reasmDrain : Nat → Dev → Nat → Dev
  | 0, d, _ => d
  | n + 1, d, k =>
    let x := d.rxContext k
    match x.held.find? fun h => h.1 == x.expected with
    | none => d
    | some h => Dev.reasmDrain n ((d.setRx k { x with held := x.held.filter fun g => g.1 != h.1 }).reasmCell k h.2.2) k

/-- Pass on what can be passed on. -/
def Dev.reasmRun (d : Dev) (k : Nat) : Dev := d.reasmDrain ((d.rxContext k).held.length) k

/-- A RESTART cell resets its context, unless one did so in the last 16 spans (R310). -/
def Dev.reasmRestart (d : Dev) (k : Nat) : Dev :=
  let x := d.rxContext k
  let recent := match x.restartAt with
    | some t => decide (d.tim.tick < t + 16)
    | none => false
  if recent then d
  else
    let d1 := if x.part = [] ∧ x.held.all (·.2.2.isNone) = true then d else d.reasmDrop k Drop.fabStale 5 x.expected
    d1.setRx k { RxContext.reset with restartAt := some d.tim.tick, lastAt := x.lastAt }

/-- A data cell of the device, with its SEQ checked (R310 to R312). One of an expired epoch that is out of order is dropped at once, with the
packets that begin in it, and its place counts as a lost cell's (R59). -/
def Dev.reasmAccept (d : Dev) (k : Nat) (c : BitVec 2048) : Dev :=
  let x := d.rxContext k
  let seq := cellSeq c
  let ahead := (seq + 65536 - x.expected) % 65536
  if ahead ≥ 32768 then d.bump F.FAB_LATE_CELL
  else
    let dead := d.expired (cellTag c)
    let full := !dead && d.reasmBytes + cellUsed c > 67108864
    let d0 := if full then d.reasmDrop k Drop.fabFull 3 seq else d.bump F.FAB_CELLS_RX
    let cell := if full || (dead && ahead != 0) then none else some c
    let d1 := d0.setRx k { x with lastAt := d.tim.tick }
    if ahead = 0 then (d1.reasmCell k cell).reasmRun k
    else if x.held.any fun h => h.1 == seq then d1
    else
      let d2 := d1.setRx k { d1.rxContext k with held := x.held ++ [(seq, d.tim.tick, cell)] }
      if dead then d2.reasmExpiredN k seq (cellHeads c) else d2

/-- DATA_CELL_RX (R310); a cell that a codeword destroyed is as never received (R290). In M6 and M9 received data cells are discarded (R352). -/
def dataCellRx (l slot : Nat) (fate : CellFate) (c : BitVec 2048) (d : Dev) : Dev :=
  if d.on F.FAB_CTRL_EN = false ∨ bitOn d.fab.locked l = false ∨ slot = 0 then d
  else if fate.destroyed then d.cellDestroyed l fate.first
  else if hcrcGood c = false ∨ cellType c > 1 then d.bump F.FAB_CELL_ERR
  else if cellType c = 0 ∨ d.silent = true then d
  else if d.isOwnNode (cellDst c) = false then d.bump F.FAB_MISDELIVERED
  else
    let k := 8 * cellSrc c + cellTc c
    (if cellRestart c then d.reasmRestart k else d).reasmAccept k c

/-- REASM_TIMEOUT: nine spans after the first cell beyond it came, a missing cell is declared lost (R311). -/
def reasmTimeout (node tc : Nat) (d : Dev) : Dev :=
  let k := 8 * node + tc
  let x := d.rxContext k
  match (x.held.map fun h => h.2.1).min? with
  | none => d
  | some t =>
    if d.tim.tick < t + 9 then d
    else
      let first := ((x.held.map fun h => (h.1 + 65536 - x.expected) % 65536).min?).getD 1
      let d1 := d.reasmDrop k Drop.fabTimeout 1 x.expected
      let x1 := { x with expected := (x.expected + first) % 65536, part := [], skip := true }
      (d1.setRx k x1).reasmRun k

/-- REASM_STALE: a partial packet without a cell for 1,024 spans is dropped (R311). -/
def reasmStale (node tc : Nat) (d : Dev) : Dev :=
  let k := 8 * node + tc
  let x := d.rxContext k
  if x.part = [] ∨ d.tim.tick < x.lastAt + 1024 then d
  else (d.reasmDrop k Drop.fabStale 5 x.expected).setRx k { x with part := [], skip := true }

/-! ### The commands -/

/-- FAB_LANE_LOCK (R290). -/
def execFabLaneLock (l : Fin 160) (s : State) : Host.Outcome State Fault Refusal := .next { s with dev := fabLaneLock l.val s.dev }
/-- FAB_LANE_LOCK_LOSS (R290). -/
def execFabLaneLockLoss (l : Fin 160) (s : State) : Host.Outcome State Fault Refusal :=
  .next { s with dev := fabLaneLockLoss l.val s.dev }
/-- FABRIC_LINK_UP (R296). -/
def execFabricLinkUp (i : Fin 40) (s : State) : Host.Outcome State Fault Refusal := .next { s with dev := fabricLinkUp i.val s.dev }
/-- FABRIC_LINK_DOWN (R296). -/
def execFabricLinkDown (i : Fin 40) (cause : BitVec 4) (s : State) : Host.Outcome State Fault Refusal :=
  .next { s with dev := fabricLinkDown i.val cause.toNat s.dev }
/-- FAB_ENABLE_WRITE (R297). -/
def execFabEnableWrite (m : Master) (en : Bool) (s : State) : Host.Outcome State Fault Refusal :=
  onReg s m.val F.FAB_CTRL.off (fabEnableWrite en)
/-- FAB_RESTART (R297). -/
def execFabRestart (m : Master) (s : State) : Host.Outcome State Fault Refusal := onReg s m.val F.FAB_CTRL.off fabRestart
/-- CONTROL_UP_SEND (R300). -/
def execControlUpSend (s : State) : Host.Outcome State Fault Refusal := .next { s with dev := controlUpSend s.dev }
/-- CELL_STAGING (R307). -/
def execCellStaging (s : State) : Host.Outcome State Fault Refusal := .next { s with dev := cellStaging s.dev }
/-- CELL_SEND (R308). -/
def execCellSend (slot : Fin 100) (s : State) : Host.Outcome State Fault Refusal := .next { s with dev := cellSend slot.val s.dev }
/-- DATA_CELL_RX (R310). -/
def execDataCellRx (l : Fin 160) (slot : Fin 100) (fate : CellFate) (c : BitVec 2048) (s : State) : Host.Outcome State Fault Refusal :=
  .next { s with dev := dataCellRx l.val slot.val fate c s.dev }
/-- REASM_TIMEOUT (R311). -/
def execReasmTimeout (node : BitVec 10) (tc : Fin 8) (s : State) : Host.Outcome State Fault Refusal :=
  .next { s with dev := reasmTimeout node.toNat tc.val s.dev }
/-- REASM_STALE (R311). -/
def execReasmStale (node : BitVec 10) (tc : Fin 8) (s : State) : Host.Outcome State Fault Refusal :=
  .next { s with dev := reasmStale node.toNat tc.val s.dev }
/-- TAKEOVER_REQUEST (R315). -/
def execTakeoverRequest (m : Master) (s : State) : Host.Outcome State Fault Refusal :=
  onReg s m.val F.FAB_PAIR_CTRL.off takeoverRequest

end Sys2Proof.Machine
end

