-- ==== Sys2Proof/Machine/Crypto.lean ====
section
/-! DEFINITION. The cryptographic functions the spec names and their standards define: SHAKE256 (FIPS 202), Ed448 and Ed448ph (RFC 8032,
with the contexts of R80, R425 and R433), and AES-256 in Galois/Counter Mode (FIPS 197, SP 800-38D) for R110. PRESUMED: the
functions are taken from those standards. -/

namespace Sys2Proof.Machine

/-! ### SHAKE256 -/

/-- Lane `k` of a state: the 25 lanes of 64 bits lie one after another, lane x + 5y. -/
def lane (s k : Nat) : Nat := (s >>> (64 * k)) % 2 ^ 64

/-- The state of `n` lanes. -/
def lanes (n : Nat) (f : Nat → Nat) : Nat := (List.range n).foldl (fun s k => s ||| (f k <<< (64 * k))) 0

/-- A 64-bit rotation to the left. -/
def rotl64 (x n : Nat) : Nat := ((x <<< n) % 2 ^ 64) ||| (x >>> (64 - n))

/-- The next state of the byte-wide shift register that the round constants are read from: x^8 + x^6 + x^5 + x^4 + 1. -/
def lfsrNext (s : Nat) : Nat := if s < 128 then 2 * s else (2 * s - 256) ^^^ 0x71

/-- The low bits of the register, from state `s` on. -/
def lfsrBits : Nat → Nat → List Nat
  | 0, _ => []
  | n + 1, s => s % 2 :: lfsrBits n (lfsrNext s)

/-- Of one round: its seven register bits stand at bits 2^j - 1 of the lane. -/
def roundConst (bits : List Nat) : Nat := (bits.zipIdx.map fun x => x.1 <<< (2 ^ x.2 - 1)).sum

/-- The round constants: 24 rounds of seven register bits each. -/
def keccakRc : List Nat := (List.range 24).map fun i => roundConst (((lfsrBits 168 1).drop (7 * i)).take 7)

/-- The offset of lane `k`, found on the walk (x, y) to (y, 2x + 3y) from (1, 0), whose step t turns its lane by (t + 1)(t + 2) / 2; lane 0
is on no walk and stays. -/
def rhoWalk (k : Nat) : Nat → Nat → Nat → Nat → Nat
  | 0, _, _, _ => 0
  | n + 1, t, x, y => if x + 5 * y = k then (t + 1) * (t + 2) / 2 % 64 else rhoWalk k n (t + 1) y ((2 * x + 3 * y) % 5)

/-- The rotation offsets of the 25 lanes. -/
def keccakRho : List Nat := (List.range 25).map fun k => rhoWalk k 24 0 1 0

/-- One round of Keccak-f[1600]: theta, rho and pi, chi and iota. -/
def keccakRound (a rc : Nat) : Nat :=
  let c := lanes 5 fun x => lane a x ^^^ lane a (x + 5) ^^^ lane a (x + 10) ^^^ lane a (x + 15) ^^^ lane a (x + 20)
  let dd := lanes 5 fun x => lane c ((x + 4) % 5) ^^^ rotl64 (lane c ((x + 1) % 5)) 1
  let t := lanes 25 fun k => lane a k ^^^ lane dd (k % 5)
  let b := lanes 25 fun k =>
    let src := (k % 5 + 3 * (k / 5)) % 5 + 5 * (k % 5)
    rotl64 (lane t src) (keccakRho.getD src 0)
  (lanes 25 fun k =>
    let y := 5 * (k / 5)
    lane b k ^^^ ((2 ^ 64 - 1 - lane b ((k % 5 + 1) % 5 + y)) &&& lane b ((k % 5 + 2) % 5 + y))) ^^^ rc

/-- The permutation. -/
def keccakF (a : Nat) : Nat := keccakRc.foldl keccakRound a

/-- Absorb blocks of 136 bytes, by fuel. -/
def shakeAbsorb : Nat → Nat → List Byte → Nat
  | 0, a, _ => a
  | n + 1, a, l => shakeAbsorb n (keccakF (a ^^^ leNat (l.take 136))) (l.drop 136)

/-- Squeeze blocks, by fuel. -/
def shakeSqueeze : Nat → Nat → List Byte
  | 0, _ => []
  | n + 1, a => leBytes 136 a ++ shakeSqueeze n (keccakF a)

/-- SHAKE256 of bytes, with an output of `n` bytes. -/
def shake256 (l : List Byte) (n : Nat) : List Byte :=
  let k := l.length % 136
  let pad : List Byte :=
    if k = 135 then [0x9F] else [0x1F] ++ List.replicate (134 - k) 0 ++ [0x80]
  let p := l ++ pad
  (shakeSqueeze (n / 136 + 1) (shakeAbsorb (p.length / 136) 0 p)).take n

/-! ### Ed448 -/

/-- The field prime. -/
def edP : Nat := 2 ^ 448 - 2 ^ 224 - 1
/-- The curve constant d = −39081 modulo the prime. -/
def edD : Nat := edP - 39081
/-- The order of the base point. -/
def edL : Nat := 2 ^ 446 - 13818066809895115352007386748515426880336692474882178609894547503885

/-- Modular exponentiation by squaring, by fuel for the bits of the exponent. -/
def powMod (m : Nat) : Nat → Nat → Nat → Nat
  | 0, _, _ => 1
  | n + 1, b, e =>
    let h := powMod m n (b * b % m) (e / 2)
    if e % 2 = 1 then h * b % m else h

/-- A point in projective coordinates. -/
structure EdPoint where
  x : Nat
  y : Nat
  z : Nat

/-- The neutral point. -/
def edZero : EdPoint := ⟨0, 1, 1⟩

/-- The base point. -/
def edBase : EdPoint :=
  ⟨224580040295924300187604334099896036246789641632564134246125461686950415467406032909029192869357953282578032075146446173674602635247710,
   298819210078481492676017930443930673437544040154080242095928241372331506189835876003536878655418784733982303233503462500531545062832660, 1⟩

/-- Addition of points. -/
def edAdd (a b : EdPoint) : EdPoint :=
  let zz := a.z * b.z % edP
  let bb := zz * zz % edP
  let c := a.x * b.x % edP
  let dd := a.y * b.y % edP
  let e := edD * (c * dd % edP) % edP
  let f := (bb + edP - e) % edP
  let g := (bb + e) % edP
  let h := (a.x + a.y) * (b.x + b.y) % edP
  ⟨zz * f % edP * ((h + 2 * edP - c - dd) % edP) % edP, zz * g % edP * ((dd + edP - c) % edP) % edP, f * g % edP⟩

/-- A multiple of a point, by fuel for the bits of the scalar. -/
def edMul : Nat → Nat → EdPoint → EdPoint
  | 0, _, _ => edZero
  | n + 1, k, p =>
    let h := edMul n (k / 2) (edAdd p p)
    if k % 2 = 1 then edAdd h p else h

/-- The 57-byte encoding of a point. -/
def edEncode (p : EdPoint) : List Byte :=
  let zi := powMod edP 448 p.z (edP - 2)
  let x := p.x * zi % edP
  let y := p.y * zi % edP
  leBytes 56 y ++ [BitVec.ofNat 8 ((x % 2) * 128)]

/-- The point that 57 bytes encode, if they encode one. -/
def edDecode (l : List Byte) : Option EdPoint :=
  let last := (l.getD 56 0).toNat
  let y := leNat (l.take 56)
  if l.length ≠ 57 ∨ last % 128 ≠ 0 ∨ y ≥ edP then none else
  let u := (y * y + edP - 1) % edP
  let v := (edD * (y * y % edP) + edP - 1) % edP
  let u2 := u * u % edP
  let u3 := u2 * u % edP
  let u5 := u3 * u2 % edP
  let v3 := v * v % edP * v % edP
  let x := u3 * v % edP * powMod edP 448 (u5 * v3 % edP) ((edP - 3) / 4) % edP
  if v * (x * x % edP) % edP ≠ u then none
  else if x = 0 ∧ last = 128 then none
  else some ⟨if x % 2 = last / 128 then x else edP - x, y, 1⟩

/-- The prefix of an Ed448 hash: "SigEd448", the prehash flag and the context. -/
def edDom (ph : Nat) (ctx : List Byte) : List Byte :=
  [0x53, 0x69, 0x67, 0x45, 0x64, 0x34, 0x34, 0x38, BitVec.ofNat 8 ph, BitVec.ofNat 8 ctx.length] ++ ctx

/-- Verification of an Ed448 signature over a message (`ph` = 1: over a 64-byte prehash). -/
def edVerify (ph : Nat) (ctx key msg sig : List Byte) : Bool :=
  let rb := sig.take 57
  let s := leNat (sig.drop 57)
  match edDecode key, edDecode rb with
  | some a, some r =>
    if sig.length ≠ 114 ∨ s ≥ edL then false else
    let h := leNat (shake256 (edDom ph ctx ++ rb ++ key ++ msg) 114) % edL
    edEncode (edMul 448 s edBase) == edEncode (edAdd r (edMul 448 h a))
  | _, _ => false

/-- The secret scalar and the prefix that a 57-byte seed gives. -/
def edExpand (seed : List Byte) : Nat × List Byte :=
  let h := shake256 seed 114
  let s := leNat (h.take 56)
  ((s - s % 4) % 2 ^ 447 + 2 ^ 447, h.drop 57)

/-- The public key of a seed. -/
def edPublic (seed : List Byte) : List Byte := edEncode (edMul 448 (edExpand seed).1 edBase)

/-- The Ed448 signature of a message with a seed's key. -/
def edSign (ctx seed msg : List Byte) : List Byte :=
  let (s, pre) := edExpand seed
  let a := edPublic seed
  let r := leNat (shake256 (edDom 0 ctx ++ pre ++ msg) 114) % edL
  let rb := edEncode (edMul 448 r edBase)
  let k := leNat (shake256 (edDom 0 ctx ++ rb ++ a ++ msg) 114) % edL
  rb ++ leBytes 57 ((r + k * s) % edL)

/-! ### AES-256 -/

/-- Multiplication by x in GF(2^8). -/
def gfDouble (a : Nat) : Nat := (a * 2 % 256) ^^^ (if a ≥ 128 then 0x1B else 0)

/-- Multiplication in GF(2^8), by fuel for the bits of `b`. -/
def gfMul : Nat → Nat → Nat → Nat
  | 0, _, _ => 0
  | n + 1, a, b => (if b % 2 = 1 then a else 0) ^^^ gfMul n (gfDouble a) (b / 2)

/-- The S-box: the inverse a^254, then the affine map. -/
def aesSub (a : Nat) : Nat :=
  let m := gfMul 8
  let a2 := m a a
  let a3 := m a2 a
  let a12 := m (m a3 a3) (m a3 a3)
  let a15 := m a12 a3
  let a30 := m a15 a15
  let a60 := m a30 a30
  let a120 := m a60 a60
  let a126 := m a120 (m a3 a3)
  let b := m (m a126 a126) a2
  let i := if a = 0 then 0 else b
  let rot := fun n => ((i <<< n) ||| (i >>> (8 - n))) % 256
  i ^^^ rot 1 ^^^ rot 2 ^^^ rot 3 ^^^ rot 4 ^^^ 0x63

/-- The words of the key schedule, newest first: word `i` from the words before it. -/
def aesExpand : Nat → Nat → Nat → List (List Nat) → List (List Nat)
  | 0, _, _, ws => ws
  | n + 1, i, rcon, ws =>
    let prev := ws.headD []
    let t :=
      if i % 8 = 0 then
        match (prev.drop 1 ++ prev.take 1).map aesSub with
        | a :: r => (a ^^^ rcon) :: r
        | [] => []
      else if i % 8 = 4 then prev.map aesSub else prev
    let w := List.zipWith (· ^^^ ·) (ws.getD 7 []) t
    aesExpand n (i + 1) (if i % 8 = 0 then gfDouble rcon else rcon) (w :: ws)

/-- A list cut into fours. -/
def fours : Nat → List Nat → List (List Nat)
  | 0, _ => []
  | n + 1, l => l.take 4 :: fours n (l.drop 4)

/-- The 15 round keys of a 32-byte key, 16 bytes each. -/
def aesKeys (key : List Nat) : List (List Nat) :=
  let ws := (aesExpand 52 8 1 (fours 8 key).reverse).reverse
  (List.range 15).map fun r => ((ws.drop (4 * r)).take 4).flatten

/-- The rows of the state shifted. -/
def aesShift (s : List Nat) : List Nat := (List.range 16).map fun k => s.getD ((k + 4 * (k % 4)) % 16) 0

/-- The columns of the state mixed. -/
def aesMix (s : List Nat) : List Nat :=
  (List.range 16).map fun k =>
    let c := 4 * (k / 4)
    let g := fun j => s.getD (c + (k + j) % 4) 0
    gfDouble (g 0) ^^^ (gfDouble (g 1) ^^^ g 1) ^^^ g 2 ^^^ g 3

/-- AES-256 of one block. -/
def aesBlock (keys : List (List Nat)) (blk : List Nat) : List Nat :=
  let x := fun (a b : List Nat) => List.zipWith (· ^^^ ·) a b
  let s0 := x blk (keys.headD [])
  let s13 := ((keys.drop 1).take 13).foldl (fun s k => x (aesMix (aesShift (s.map aesSub))) k) s0
  x (aesShift (s13.map aesSub)) (keys.getD 14 [])

/-! ### Galois/Counter Mode -/

/-- Multiplication in GF(2^128) with the bits in GCM's order, by fuel for the 128 bits of `x`. -/
def ghashMul : Nat → Nat → Nat → Nat → Nat
  | 0, _, _, z => z
  | n + 1, x, v, z =>
    let z1 := if x.testBit n then z ^^^ v else z
    ghashMul n x ((v >>> 1) ^^^ (if v % 2 = 1 then 0xE1 <<< 120 else 0)) z1

/-- Bytes padded with zeros to whole blocks of 16. -/
def pad16 (l : List Byte) : List Byte := l ++ List.replicate ((16 - l.length % 16) % 16) 0

/-- GHASH over whole blocks, by fuel. -/
def ghash (h : Nat) : Nat → List Byte → Nat → Nat
  | 0, _, y => y
  | n + 1, l, y => ghash h n (l.drop 16) (ghashMul 128 (y ^^^ beNat (l.take 16)) h 0)

/-- `n` big-endian bytes of a number. -/
def beBytes (n v : Nat) : List Byte := (leBytes n v).reverse

/-- The counter mode's key stream over bytes, by fuel for the blocks. -/
def gcmStream (keys : List (List Nat)) (iv : List Byte) : Nat → Nat → List Byte → List Byte
  | 0, _, _ => []
  | n + 1, ctr, l =>
    let ks := aesBlock keys ((iv ++ beBytes 4 ctr).map (·.toNat))
    List.zipWith (fun (a : Byte) (k : Nat) => a ^^^ BitVec.ofNat 8 k) (l.take 16) ks ++
      gcmStream keys iv n (ctr + 1) (l.drop 16)

/-- The 16-byte tag over associated data and ciphertext. -/
def gcmTag (keys : List (List Nat)) (iv aad ct : List Byte) : List Byte :=
  let h := beNat ((aesBlock keys (List.replicate 16 0)).map (BitVec.ofNat 8))
  let l := pad16 aad ++ pad16 ct ++ beBytes 8 (8 * aad.length) ++ beBytes 8 (8 * ct.length)
  let s := beBytes 16 (ghash h (l.length / 16) l 0)
  gcmStream keys iv 1 1 s

/-- AES-256-GCM sealing: the ciphertext and its tag. -/
def gcmSeal (key iv aad pt : List Byte) : List Byte × List Byte :=
  let keys := aesKeys (key.map (·.toNat))
  let ct := gcmStream keys iv (pt.length / 16 + 1) 2 pt
  (ct, gcmTag keys iv aad ct)

/-- AES-256-GCM opening: the plaintext, and whether the tag is right. -/
def gcmOpen (key iv aad ct tag : List Byte) : List Byte × Bool :=
  let keys := aesKeys (key.map (·.toNat))
  (gcmStream keys iv (ct.length / 16 + 1) 2 ct, gcmTag keys iv aad ct == tag)

end Sys2Proof.Machine
end

