-- ==== Sys2Proof/Machine/LinePort.lean ====
section
/-! DEFINITION. The line ports: reception, MACsec, flow control, gate lists, preemption, transmission and link state (R104 to R128). -/

namespace Sys2Proof.Machine

/-! ### MACsec (R110 to R113); the frame format and the nonces are IEEE 802.1AE's -/

/-- The key of an SA's slot: direction (1 transmit), channel, association number. -/
def saKey (dir sc an : Nat) : Nat := 128 * dir + 4 * (if dir = 1 then 0 else sc) + an
/-- A secure association of a port. -/
def LptPort.sa (x : LptPort) (k : Nat) : Sa := x.sas.get (fun _ => Sa.reset) k
/-- The port with a secure association set. -/
def LptPort.setSa (x : LptPort) (k : Nat) (s : Sa) : LptPort := { x with sas := x.sas.set (fun _ => Sa.reset) k s }

/-- The SCI of a channel: one register each (LPT_MSEC_SCI by direction and channel). -/
def Dev.sci (d : Dev) (p dir sc : Nat) : Nat := d.rd ((F.LPT_MSEC_SCI.port p).item (32 * dir + (if dir = 1 then 0 else sc)))

/-- The 96-bit nonce of a packet number: SCI and PN, or for XPN the salt with SSCI and the 64-bit PN added in. -/
def msecIv (xpn : Bool) (s : Sa) (sci pn : Nat) : List Byte :=
  if xpn then beBytes 12 (s.salt.toNat ^^^ ((s.ssci.toNat <<< 64) + pn)) else beBytes 12 ((sci <<< 32) + pn % 2 ^ 32)

/-- The bytes of an SA's key: word n holds bytes 4n to 4n + 3. -/
def Sa.keyBytes (s : Sa) : List Byte := bytesOf s.key

/-- A protected frame: the SecTAG with its SCI after the addresses, the rest encrypted, the ICV after it. -/
def msecSeal (xpn : Bool) (s : Sa) (an sci pn : Nat) (frame : List Byte) : List Byte :=
  let addr := frame.take 12
  let rest := frame.drop 12
  let sl := if rest.length < 48 then rest.length else 0
  let tag := [0x88, 0xE5] ++ leBytes 1 (0x2C + an) ++ leBytes 1 sl ++ beBytes 4 pn ++ beBytes 8 sci
  let (ct, icv) := gcmSeal s.keyBytes (msecIv xpn s sci pn) (addr ++ tag) rest
  addr ++ tag ++ ct ++ icv

/-- The result of validating a received frame: the frame that goes on, or none. -/
structure MsecRx where
  frame : Option (List Byte)
  key : Nat
  sa : Sa

/-- The full packet number of a frame under the lowest acceptable one: for XPN the high half is that of the lowest acceptable number, one more
where bit 31 is clear in the frame's number and set in that one's low half (802.1AE). -/
def msecPn (xpn : Bool) (low next : Nat) : Nat :=
  if xpn then next / 2 ^ 32 * 2 ^ 32 + low + (if low < 2 ^ 31 ∧ 2 ^ 31 ≤ next % 2 ^ 32 then 2 ^ 32 else 0) else low

/-- The secure data and the ICV that follow a SecTAG (802.1AE): with SL = 0 all but the last 16 bytes, at least 48; with SL from 1 to 47 that
many bytes, the ICV after them, and padding. None: the frame is not one that can be verified. -/
def msecParts (sl : Nat) (body : List Byte) : Option (List Byte × List Byte) :=
  let n := if sl = 0 then body.length - 16 else sl
  if (sl = 0 ∧ body.length < 64) ∨ 48 ≤ sl ∨ body.length < n + 16 then none
  else some (body.take n, (body.drop n).take 16)

/-- The TCI of a SecTAG that 802.1AE delivers: the version bit is 0, an SCI is not given beside ES or SCB, and E = 1 with C = 0 is left to
the key agreement entity. -/
def msecTciGood (tci : Nat) : Bool :=
  tci < 128 && !((tci >>> 5) % 2 == 1 && ((tci >>> 6) % 2 == 1 || (tci >>> 4) % 2 == 1)) && !((tci >>> 2) % 4 == 2)

/-- The SCI of a received frame (802.1AE): the one it carries; with ES the source address with port 1, or with SCB too port 0; none: the
frame comes from the one peer of a point-to-point link. -/
def msecSci (tci : Nat) (frame : List Byte) : Option Nat :=
  if (tci >>> 5) % 2 = 1 then some (beNat ((frame.drop 20).take 8))
  else if (tci >>> 6) % 2 = 1 then some (beNat ((frame.drop 6).take 6) * 65536 + (if (tci >>> 4) % 2 = 1 then 0 else 1))
  else none

/-- The receive SC of a frame: the one with its SCI, and 32 where there is none. PRESUMED (23): without an SCI or ES, the first SC, as of a
point-to-point link with one peer. -/
def Dev.msecSc (d : Dev) (p : Nat) (sci : Option Nat) : Nat :=
  match sci with
  | some x => ((List.range 32).find? fun c => d.sci p 0 c == x).getD 32
  | none => 0

/-- Validate a received frame (R110, R111). VALIDATE Disabled removes the tag and checks nothing; otherwise a tagged frame must name
a valid SA, pass its ICV and its replay check; Strict also drops an untagged frame. DESIGN CHOICE (23): the reserved code 3 of VALIDATE acts
as Check, which R111 leaves open. -/
def Dev.msecCheck (d : Dev) (p : Nat) (frame : List Byte) : Option (List Byte) × Dev :=
  let v := d.rd (F.LPT_MSEC_CTRL_VALIDATE.port p)
  let xpn := d.on (F.LPT_MSEC_CTRL_XPN.port p)
  if frame.length < 24 ∨ (frame.drop 12).take 2 ≠ [0x88, 0xE5] then (if v = 2 then none else some frame, d) else
  let tci := (frame.getD 14 0).toNat
  let an := tci % 4
  let hlen := if (tci >>> 5) % 2 = 1 then 28 else 20
  let sc := d.msecSc p (msecSci tci frame)
  let k := saKey 0 sc an
  let s := (d.lp p).sa k
  match msecParts (frame.getD 15 0).toNat (frame.drop hlen) with
  | none => (none, d)
  | some (ct, icv) =>
  if msecTciGood tci = false then (none, d) else
  if sc = 32 ∨ s.valid = false then (if v = 0 then some (frame.take 12 ++ ct) else none, d) else
  let pn := msecPn xpn (beNat ((frame.drop 16).take 4)) s.pn
  let enc := (tci >>> 3) % 2 = 1
  let iv := msecIv xpn s (d.sci p 0 sc) pn
  let (pt, ok) := if enc then gcmOpen s.keyBytes iv (frame.take hlen) ct icv
    else (ct, gcmTag (aesKeys (s.keyBytes.map (·.toNat))) iv (frame.take hlen ++ ct) [] == icv)
  if v = 0 then (some (frame.take 12 ++ pt), d)
  else
    let win := d.rd (F.LPT_MSEC_CTRL_REPLAY_WIN.port p)
    if ok = false ∨ pn < s.pn ∨ (xpn = false ∧ pn = 0) then (none, d)
    else
      let s1 := { s with pn := max s.pn (pn + 1 - win), lastRx := some d.tim.tick }
      (some (frame.take 12 ++ pt), d.updLp p (·.setSa k s1))

/-- Protect a frame of port `p` for transmission (R110, R113): none when the packet number is exhausted. DESIGN CHOICE (23): a TX_AN that
names no valid SA drops the frame in the same way, a case that R113 does not give. -/
def Dev.msecProtect (d : Dev) (p : Nat) (frame : List Byte) : Option (List Byte) × Dev :=
  let an := d.rd (F.LPT_MSEC_CTRL_TX_AN.port p)
  let xpn := d.on (F.LPT_MSEC_CTRL_XPN.port p)
  let k := saKey 1 0 an
  let s := (d.lp p).sa k
  let limit := if xpn then 2 ^ 64 - 1 else 2 ^ 32 - 1
  if s.valid = false ∨ s.pn ≥ limit then
    (none, (d.dropCount Drop.lptPn).bump (F.LPT_TX_MSEC_PN_DROP.port p))
  else
    let out := msecSeal xpn s an (d.sci p 1 0) s.pn frame
    let thr := d.rd (F.LPT_MSEC_PN_THR.port p)
    let hit := thr ≠ 0 ∧ s.thrPosted = false ∧ s.pn + 1 ≥ thr
    let d1 := d.updLp p (·.setSa k { s with pn := s.pn + 1, thrPosted := s.thrPosted || decide hit })
    (some out, if hit then d1.post Ev.LPT_MSEC_PN_THR [(24, 1, p), (25, 1, an), (32, 8, s.pn + 1)] else d1)

/-- MSEC_SA_INSTALL: the selected SA takes the staged key, salt, SSCI and packet number, unless it is in use (R112). -/
def msecSaInstall (m p : Nat) (d : Dev) : Dev :=
  let dir := d.rd (F.LPT_MSEC_SA_SEL_DIR.port p)
  let an := d.rd (F.LPT_MSEC_SA_SEL_AN.port p)
  let k := saKey dir (d.rd (F.LPT_MSEC_SA_SEL_SC.port p)) an
  let s := (d.lp p).sa k
  let busy := s.valid && (if dir = 1 then d.rd (F.LPT_MSEC_CTRL_TX_AN.port p) == an
    else match s.lastRx with | some t => d.tim.tick < t + 1024 | none => false)
  if busy then d.post Ev.LPT_CFG_REFUSED [(24, 1, p), (25, 1, 2), (26, 1, m)]
  else
    let kw := (List.range 8).map fun n => d.rd ((F.LPT_MSEC_KEY.ix n).port p) <<< (32 * n)
    let xw := (List.range 3).map fun n => d.rd ((F.LPT_MSEC_XPN.ix n).port p) <<< (32 * n)
    let s1 : Sa :=
      { valid := true, key := BitVec.ofNat 256 kw.sum, salt := BitVec.ofNat 96 xw.sum,
        ssci := BitVec.ofNat 32 (d.rd ((F.LPT_MSEC_XPN.ix 3).port p)), pn := d.rd (F.LPT_MSEC_PN.port p), lastRx := none,
        thrPosted := false }
    d.updLp p (·.setSa k s1)

/-- MSEC_SA_RETIRE: the selected SA is invalid at once; its staged key words are cleared (R112). -/
def msecSaRetire (p : Nat) (d : Dev) : Dev :=
  let k := saKey (d.rd (F.LPT_MSEC_SA_SEL_DIR.port p)) (d.rd (F.LPT_MSEC_SA_SEL_SC.port p)) (d.rd (F.LPT_MSEC_SA_SEL_AN.port p))
  let d1 := d.updLp p (·.setSa k Sa.reset)
  d1.each (List.range 8) fun n d => d.wr ((F.LPT_MSEC_KEY.ix n).port p) 0

/-! ### Flow control received (R115, R116, R118) -/

/-- The line rate of port `p` in Gb/s. -/
def Dev.portGbps (d : Dev) (p : Nat) : Nat := modeGbps (d.rd (F.LPT_STATUS_MODE.port p))

/-- A quantum of 512 bit times at the port rate, in 0.01 ns: every rate of R104 divides it. -/
def Dev.quantum (d : Dev) (p : Nat) : Nat := 51200 / d.portGbps p

/-- Stop a class for a pause time in quanta, or release it: a pause time of 0 releases it at once. -/
def Dev.pauseClass (d : Dev) (p c time : Nat) : Dev :=
  if time = 0 then d.updLp p fun x => { x with paused := putBit x.paused c false }
  else
    d.updLp p fun x =>
      let ends := d.instant (32 * d.tim.tickSlot) + time * d.quantum p
      let x1 := { x with lastReq := x.lastReq.set (fun _ => 0) c d.tim.tick, pausedUntil := x.pausedUntil.set (fun _ => 0) c ends }
      if bitOn x.paused c then x1
      else { x1 with paused := putBit x1.paused c true, pausedAt := x1.pausedAt.set (fun _ => 0) c d.tim.tick }

/-- A PFC request for a class: ignored while its storm lasts, but noted (R118). -/
def Dev.pfcClass (d : Dev) (p c time : Nat) : Dev :=
  if bitOn (d.lp p).ignored c then
    if time = 0 then d else d.updLp p fun x => { x with lastReq := x.lastReq.set (fun _ => 0) c d.tim.tick }
  else d.pauseClass p c time

/-- MAC_CONTROL_FRAME_RX: a control frame is consumed and counted; it acts in the mode that knows it (R115, R116). In M6 and M9 it is
discarded as every received frame is (R352). -/
def macControl (p : Nat) (ctl : MacControl) (d : Dev) : Dev :=
  if d.linkUp p = false ∨ d.lineStopped = true ∨ d.silent = true then d else
  match ctl with
  | .pause t =>
    let d1 := d.bump (F.LPT_RX_PAUSE.port p)
    if d.flowMode p = 1 then (d1.each (List.range 8) fun c d => d.pauseClass p c t.toNat).settle else d1
  | .pfc en ts =>
    let d1 := d.bump (F.LPT_RX_PFC.port p)
    if d.flowMode p = 2 then
      (d1.each ((List.range 8).filter (bitOn en)) fun c d => d.pfcClass p c (bits ts (16 * c + 15) (16 * c))).settle
    else d1
  | .other _ => d

/-- PAUSE_EXPIRY: a class whose pause time has run out is released (R116). -/
def pauseExpiry (p c : Nat) (d : Dev) : Dev :=
  if bitOn (d.lp p).paused c = false ∨ d.slotEnd ≤ (d.lp p).pausedUntil.get (fun _ => 0) c then d
  else (d.updLp p fun x => { x with paused := putBit x.paused c false }).settle

/-- Half of QUANTA quanta have gone since the last control frame of a class, by the end of the present slot (R117). -/
def Dev.refreshDue (d : Dev) (p c : Nat) : Bool :=
  decide (2 * (d.lp p).ctlAt.get (fun _ => 0) (d.flowFrame p c) + d.rd (F.LPT_PFC_QUANTA.port p) * d.quantum p < 2 * d.slotEnd)

/-- PFC_REFRESH: while the count stays above XON the port repeats the pause frame every QUANTA ÷ 2 quanta (R117). -/
def pfcRefresh (p c : Nat) (d : Dev) : Dev :=
  if d.lineSends p && bitOn (d.lp p).xoff (d.flowBit p c) && (d.flowMode p == 1 || d.flowMode p == 2) &&
     d.flowBytes p c > d.rd (F.LPT_PFC_THR_XON.port p) * 4096 && d.refreshDue p c then
    d.sendPause p (d.flowFrame p c) (d.rd (F.LPT_PFC_QUANTA.port p))
  else d

/-- PFC_WATCHDOG: a class paused without a break for WD spans has received PFC ignored; it is honoured again after WD spans with no
request (R118). DESIGN CHOICE (23): a storm detected also ends the class's present pause, and the watchdog acts on a class that PAUSE
stopped too; R118 speaks of ignoring received PFC only. -/
def pfcWatchdog (p c : Nat) (d : Dev) : Dev :=
  let wd := d.rd (F.LPT_PFC_WD.port p)
  let x := d.lp p
  if wd = 0 then d
  else if bitOn x.ignored c then
    if d.tim.tick < x.lastReq.get (fun _ => 0) c + wd then d
    else (d.updLp p fun x => { x with ignored := putBit x.ignored c false }).post Ev.LPT_PFC_STORM [(24, 1, p), (25, 1, c), (26, 1, 1)]
  else if bitOn x.paused c && x.pausedAt.get (fun _ => 0) c + wd ≤ d.tim.tick then
    ((d.updLp p fun x => { x with ignored := putBit x.ignored c true, paused := putBit x.paused c false }).post
      Ev.LPT_PFC_STORM [(24, 1, p), (25, 1, c), (26, 1, 0)]).settle
  else d

/-! ### Reception (R108, R131) -/

/-- The longest frame the port receives, FCS included. -/
def Dev.maxFrame (d : Dev) (p : Nat) : Nat := d.rd (F.LPT_MAX_FRAME_BYTES.port p)

/-- The FCS that a frame's last four bytes spell. -/
def frameFcs (l : List Byte) : Nat := leNat (l.drop (l.length - 4))

/-- The frame without its FCS. -/
def frameBody (l : List Byte) : List Byte := l.take (l.length - 4)

/-- A received frame's control content, if it is a MAC control frame: EtherType 0x8808, opcode 1 PAUSE, 0x0101 PFC. -/
def controlOf (l : List Byte) : Option MacControl :=
  if beNat ((l.drop 12).take 2) ≠ 0x8808 then none
  else
    let op := beNat ((l.drop 14).take 2)
    if op = 1 then some (.pause (BitVec.ofNat 16 (beNat ((l.drop 16).take 2))))
    else if op = 0x0101 then
      some (.pfc (BitVec.ofNat 8 (beNat ((l.drop 16).take 2)))
        (BitVec.ofNat 128 ((List.range 8).map fun c => beNat ((l.drop (18 + 2 * c)).take 2) <<< (16 * c)).sum))
    else some (.other (BitVec.ofNat 16 op))

/-- A frame dropped at the MAC: its counter, and the count of an aligned port's digests (R346). -/
def Dev.rxDrop (d : Dev) (p : Nat) (f : Fld) : Dev := (d.bump (f.port p)).macDrop p

/-- The bytes in an octet's receive buffer. -/
def Dev.rxBytes (d : Dev) (o : Nat) : Nat := ((d.lpt.rx.get (fun _ => []) o).map fun f => f.bytes.length + 4).sum

/-- The receive timestamp of a frame whose message timestamp point came at `tick` of the present span: referred to the pins by the
receive delay, as a span and a tick of 0.32 ns (R45). -/
def Dev.rxStamp (d : Dev) (p tick : Nat) : Nat :=
  let t := 3200 * (d.tim.span + 2 ^ 48) + tick - d.rd (F.LPT_PTP_DELAY_RX.port p)
  ((t / 3200 % 2 ^ 48) <<< 12) + t % 3200

/-- A good frame goes to the octet's receive buffer, of 1 MiB; without room it is dropped with RX_OVERRUN (R131). While the octet moves to
another pier the frame is held in the step buffer, which no frame overruns (R93, R94). -/
def Dev.rxPlace (d : Dev) (p fcs tick : Nat) (body : List Byte) : Dev :=
  let o := d.portOctet p
  if d.octetStopped o = false ∧ d.rxBytes o + body.length + 4 > 1048576 then
    let d1 := (d.dropCount Drop.rxOverrun).macDrop p
    match d.pierOf o with
    | some n => d1.bump (F.PIR_RX_OVERRUN_DROP.pier n)
    | none => d1
  else
    let f : RxFrame := { port := p, bytes := body, fcs := fcs, ts := d.rxStamp p tick, tsHeld := d.stcHeld }
    let d1 := if d.octetStopped o then d.holdFrames o [f] else { d with lpt := { d.lpt with rx := d.lpt.rx.upd (fun _ => []) o (· ++ [f]) } }
    (d1.bump (F.LPT_RX_OK_FRAMES.port p)).bumpN (F.LPT_RX_OK_BYTES.port p) (body.length + 4)

/-- FRAME_RECEIVE: a whole frame, FCS included, is checked and goes to the octet's receive buffer (R108 to R111, R115). The modes
in which no traffic is forwarded discard it after the check; in M6 and M9 it is discarded after the FCS check (R352). DESIGN CHOICE (23): the
FCS is checked before the length, so that a short or long frame with a bad FCS counts in RX_FCS_ERR alone; R108's table has no order. -/
def frameReceive (p : Nat) (l : List Byte) (tick : Nat) (d : Dev) : Dev :=
  if d.linkUp p = false ∨ d.lineStopped = true then d
  else if crc32 (frameBody l) ≠ frameFcs l then d.rxDrop p F.LPT_RX_FCS_ERR
  else if d.silent then d
  else if l.length < 64 then d.rxDrop p F.LPT_RX_RUNT
  else if l.length > d.maxFrame p then d.rxDrop p F.LPT_RX_OVERSIZE
  else match controlOf l with
  | some ctl => macControl p ctl d
  | none =>
    if d.forwarding = false then d
    else if d.on (F.LPT_MSEC_CTRL_RX_EN.port p) then
      match d.msecCheck p (frameBody l) with
      | (none, d1) => d1.rxDrop p F.LPT_RX_MSEC_DROP
      | (some body, d1) => d1.rxPlace p (frameFcs l) tick body
    else d.rxPlace p (frameFcs l) tick (frameBody l)

/-! ### Configuration (R106, R114, R127) -/

/-- The eight lane fields of a map form a permutation of 0 to 7. -/
def lanePermutation (w : Nat) : Bool := (List.range 8).all fun x => (List.range 8).any fun n => (w >>> (3 * n)) % 8 == x

/-- LANE_MAP_WRITE: a lane map of the octet of port 8o, taken while the octet's ports are administratively down (R106). -/
def laneMapWrite (m p : Nat) (tx : Bool) (data : Word) (d : Dev) : Dev :=
  if p % 8 ≠ 0 then d
  else if ((List.range 8).all fun i => !d.on (F.LPT_CTRL_ADMIN_UP.port (p + i))) && lanePermutation data.toNat then
    d.wr ((if tx then F.LPT_OCT_TX_MAP else F.LPT_OCT_RX_MAP).port p) data.toNat
  else d.post Ev.LPT_CFG_REFUSED [(24, 1, p), (25, 1, 3), (26, 1, m)]

/-- TXTS_POP: the head of the timestamp FIFO is removed (R114). -/
def txtsPop (p : Nat) (d : Dev) : Dev := d.updLp p fun x => { x with txts := x.txts.drop 1 }

/-- The counters of a port (R127). -/
def lptCounters : List Fld :=
  [F.LPT_RX_OK_FRAMES, F.LPT_RX_OK_BYTES, F.LPT_RX_FCS_ERR, F.LPT_RX_RUNT, F.LPT_RX_OVERSIZE, F.LPT_RX_PAUSE, F.LPT_RX_PFC,
   F.LPT_RX_MSEC_DROP, F.LPT_TX_OK_FRAMES, F.LPT_TX_OK_BYTES, F.LPT_TX_FLOW_CTRL, F.LPT_TX_GATE_OVERSIZE,
   F.LPT_TX_PREEMPT_FRAGS, F.LPT_FEC_CORR_CW, F.LPT_FEC_UNCORR_CW, F.LPT_TX_MSEC_PN_DROP]

/-- LPT_CNT_CLR: every counter of the port is zeroed (R127). -/
def lptCntClr (p : Nat) (d : Dev) : Dev := d.each lptCounters fun f d => d.wr (f.port p) 0

/-! ### Gate lists (R47, R119, R120) -/

/-- The first cycle boundary base + N × cycle at or after `t`, all in ns. -/
def nextBoundary (base cycle t : Nat) : Nat := if t ≤ base then base else base + (t - base + cycle - 1) / cycle * cycle

/-- The staged list: the first LEN entries, the base and the cycle. -/
def Dev.stagedGates (d : Dev) (p : Nat) : GateList :=
  { entries := (List.range (d.rd (F.LPT_GCL_CTRL_LEN.port p))).map fun n =>
      BitVec.ofNat 32 (d.rd ((F.LPT_GCL_ENTRY.ix n).port p)),
    baseSec := d.rd (F.LPT_GCL_BASE_SEC.port p), baseNs := d.rd (F.LPT_GCL_BASE_NS_NS.port p),
    cycle := d.rd (F.LPT_GCL_CYCLE_NS.port p), enable := d.on (F.LPT_GCL_CYCLE_ENABLE.port p) }

/-- May the staged list be committed (R120)? -/
def Dev.gatesLegal (d : Dev) (p : Nat) : Bool :=
  let n := d.rd (F.LPT_GCL_CTRL_LEN.port p)
  0 < n && n ≤ 256 && (d.stagedGates p).entries.all (fun w => gateOp w != 3 && 64 ≤ gateNs w) &&
  1024 ≤ (d.stagedGates p).cycle && d.present p

/-- The time that gate lists run by: the PHC, and while the STC is held its continuation by the internal span tick (R36, R46). -/
def Dev.gateNs (d : Dev) : Nat := d.phcUnits d.runSpan (32 * d.runSlot) / 65536

/-- GCL_COMMIT: the staged list becomes the pending one, with the start that R47 chooses (R120). -/
def gclCommit (m p : Nat) (d : Dev) : Dev :=
  if d.gatesLegal p = false then d.post Ev.LPT_CFG_REFUSED [(24, 1, p), (25, 1, 1), (26, 1, m)]
  else
    let g := d.stagedGates p
    let base := g.baseSec * 1000000000 + g.baseNs
    let start := nextBoundary base g.cycle (d.gateNs + 2048)
    let d1 := d.updLp p fun x => { x with gclPending := some g, gclStart := nsPair start }
    d1.wr (F.LPT_GCL_CTRL_PENDING.port p) 1

/-- The gates' time at the end of the present slot, in ns: an instant below it lies in this slot or before it. -/
def Dev.gateEndNs (d : Dev) : Nat := (d.phcUnits d.runSpan (32 * d.runSlot + 32) + 65535) / 65536

/-- The operation of an entry on HOLD: 1 asserts it, 2 releases it. -/
def holdAfter (h : Bool) (w : Option Word) : Bool :=
  match w with
  | some w => if gateOp w = 1 then true else if gateOp w = 2 then false else h
  | none => h

/-- GCL_START: at its start the pending list replaces the running one; the base registers then read the start, which LPT_GCL_START reports:
byte 25 where it is not the base time of the list (R47, R120). -/
def gclStart (p : Nat) (d : Dev) : Dev :=
  let x := d.lp p
  match x.gclPending with
  | none => d
  | some g =>
    let start := x.gclStart.1 * 1000000000 + x.gclStart.2
    if d.gateEndNs ≤ start then d
    else
      let d1 := d.setLp p { x with gclRun := some g, gclPending := none, gclIdx := 0, gclAt := start,
                                   hold := g.enable && holdAfter x.hold (g.entries[0]?) }
      let d2 := (d1.wr (F.LPT_GCL_BASE_SEC.port p) x.gclStart.1).wr (F.LPT_GCL_BASE_NS_NS.port p) x.gclStart.2
      let late := if g.baseSec * 1000000000 + g.baseNs = start then 0 else 1
      ((d2.wr (F.LPT_GCL_CTRL_PENDING.port p) 0).post Ev.LPT_GCL_START
        [(24, 1, p), (25, 1, late), (32, 6, x.gclStart.1), (40, 4, x.gclStart.2)]).settle

/-- The entries of a cycle with the time each lasts: cut at the cycle's end, the last one held to it (R119). -/
def gateSpans : Nat → List Word → List (Word × Nat)
  | _, [] => []
  | left, [w] => if left = 0 then [] else [(w, left)]
  | left, w :: t => if left = 0 then [] else (w, min (gateNs w) left) :: gateSpans (left - min (gateNs w) left) t

/-- GATE_ENTRY_ADVANCE: the interval in force has ended; the next entry applies, or the cycle restarts (R119). -/
def gateEntryAdvance (p : Nat) (d : Dev) : Dev :=
  let x := d.lp p
  match x.gates with
  | none => d
  | some g =>
    let l := gateSpans g.cycle g.entries
    match l[x.gclIdx]? with
    | none => d
    | some (_, n) =>
      if d.gateEndNs ≤ x.gclAt + n then d
      else
        let i := if x.gclIdx + 1 < l.length then x.gclIdx + 1 else 0
        (d.setLp p { x with gclIdx := i, gclAt := x.gclAt + n, hold := holdAfter x.hold (g.entries[i]?) }).settle

/-- The time that gate `c` stays open over a run of entries. -/
def openRun (c : Nat) : List (Word × Nat) → Nat
  | [] => 0
  | (w, n) :: t => if (gateStates w >>> c) % 2 = 1 then n + openRun c t else 0

/-- The instant in ns at which gate `c` next closes in a list whose entry `i` applies from `at_` on; none: it does not close. -/
def GateList.closes (g : GateList) (i at_ c : Nat) : Option Nat :=
  let l := gateSpans g.cycle g.entries
  if g.enable = false ∨ (l.all fun e => (gateStates e.1 >>> c) % 2 == 1) = true then none
  else some (at_ + openRun c (l.drop i ++ l ++ l))

/-- The instant in ns at which gate `c` of port `p` next closes: in the running list, or from its start on in the list that waits (R121); none: it
does not close. -/
def LptPort.gateCloses (x : LptPort) (c : Nat) : Option Nat :=
  let run := x.gates.bind fun g => g.closes x.gclIdx x.gclAt c
  match x.gclPending with
  | none => run
  | some g =>
    let start := x.gclStart.1 * 1000000000 + x.gclStart.2
    match run with
    | some t => if t ≤ start then run else g.closes 0 start c
    | none => g.closes 0 start c

/-- The longest continuous open time of gate `c` in the running list, over the cycle's end too (R122). -/
def LptPort.longestOpen (x : LptPort) (c : Nat) : Option Nat :=
  match x.gates with
  | none => none
  | some g =>
    let l := gateSpans g.cycle g.entries
    if l.all fun e => (gateStates e.1 >>> c) % 2 == 1 then none
    else some (((List.range l.length).map fun i => openRun c (l.drop i ++ l)).foldl max 0)

/-! ### Preemption and transmission (R109, R121 to R124) -/

/-- PREEMPT_VERIFY_EXCHANGE: the verify exchange in progress ends (R123). -/
def preemptVerify (p : Nat) (ok : Bool) (d : Dev) : Dev :=
  if d.rd (F.LPT_PREEMPT_VERIFY_STATE.port p) = 1 ∧ d.linkUp p = true then
    let v := if ok then 2 else 3
    (d.wr (F.LPT_PREEMPT_VERIFY_STATE.port p) v).post Ev.LPT_PREEMPT_VERIFY [(24, 1, p), (25, 1, v)]
  else d

/-- Is class `c` preemptable now? Until a required verify exchange succeeds every class is express (R123). -/
def Dev.preemptable (d : Dev) (p c : Nat) : Bool :=
  d.on (F.LPT_PREEMPT_EN.port p) && (d.rd (F.LPT_PREEMPT_PMAC_MASK.port p) >>> c) % 2 == 1 &&
  (!d.on (F.LPT_PREEMPT_VERIFY_EN.port p) || d.rd (F.LPT_PREEMPT_VERIFY_STATE.port p) == 2)

/-- A frame's bytes from destination address to FCS, padded (R109). -/
def TxFrame.macBytes (f : TxFrame) : Nat := max f.bytes.length 60 + 4

/-- A frame's bytes on the wire: preamble and gap included (R121). -/
def wireBytes (n : Nat) : Nat := 8 + n + 12

/-- The bytes the port can send from a tick of 0.32 ns of the present span until gate `c` closes; none: no limit. -/
def Dev.openBytes (d : Dev) (p tick c : Nat) : Option Nat :=
  ((d.lp p).gateCloses c).map fun t => (t * 65536 - d.phcUnits d.runSpan tick) * d.portGbps p / (8 * 65536)

/-- Do `n` bytes go out before the gate closes? -/
def fits (room : Option Nat) (n : Nat) : Bool :=
  match room with
  | none => true
  | some r => n ≤ r

/-- The data bytes of a non-final fragment: the longest legal one whose mCRC ends at or before the close, leaving at least 64 bytes
(R123, R124). -/
def Dev.fragBytes (d : Dev) (p left : Nat) (room : Option Nat) : Option Nat :=
  match room with
  | none => none
  | some r =>
    let n := min (r - 12) (left - 64)
    if r ≥ 12 ∧ left ≥ 64 ∧ n + 4 ≥ 64 * (1 + d.rd (F.LPT_PREEMPT_ADD_FRAG.port p)) then some n else none

/-- The transmit timestamp of a frame whose message timestamp point passes at `tick` of the present span: the PHC then, referred to the pins
(R45, R114). -/
def Dev.txStamp (d : Dev) (p tick : Nat) : Nat × Nat :=
  nsPair (d.phcUnits d.tim.span (tick + d.rd (F.LPT_PTP_DELAY_TX.port p)) / 65536)

/-- A two-step timestamp goes to the port's 64-entry FIFO, or is discarded (R114); one taken while the STC is held is marked invalid
(R36). -/
def Dev.stampTx (d : Dev) (p tick : Nat) (f : TxFrame) : Dev :=
  match f.tsTag with
  | none => d
  | some tag =>
    if (d.lp p).txts.length ≥ 64 then
      (d.wr (F.LPT_TXTS_NS_TXTS_OVF.port p) 1).post Ev.LPT_TXTS_OVERFLOW [(24, 1, p), (28, 2, tag)]
    else
      let s := d.txStamp p tick
      d.updLp p fun x => { x with txts := x.txts ++ [(tag, s.1, s.2, !d.stcHeld)] }

/-- The last byte of a frame is sent. -/
def Dev.txDone (d : Dev) (p : Nat) (f : TxFrame) : Dev :=
  let d1 := d.updLp p fun x => { x with lastTx := bytesAt f.bytes 0 (max f.bytes.length 60) }
  (d1.bump (F.LPT_TX_OK_FRAMES.port p)).bumpN (F.LPT_TX_OK_BYTES.port p) f.macBytes

/-- The transmit buffer without its frame number `i`. -/
def LptPort.takeTx (x : LptPort) (i : Nat) : LptPort := { x with tx := x.tx.eraseIdx i }

/-- What the MAC does with a frame it looks at. -/
inductive TxMove where
  | wait | whole | frag (n : Nat) | oversize
  deriving DecidableEq, Repr

/-- What the MAC does at a tick with the head of a class, of which `left` bytes are still to be sent: `first`: none has been sent. While a
preempted frame waits, no other preemptable frame starts. DESIGN CHOICE (23): the rest of a preempted frame whose class is paused meanwhile
waits for the release; R116 lets a frame already started complete, and leaves open whether that covers such a rest. -/
def Dev.txMove (d : Dev) (p tick : Nat) (f : TxFrame) (left : Nat) (first busy : Bool) : TxMove :=
  let x := d.lp p
  let pre := d.preemptable p f.cls || !first
  let tooLong := match x.longestOpen f.cls with
    | some n => !pre && wireBytes left * 8 > n * d.portGbps p
    | none => false
  if tooLong then .oversize
  else if d.classOpen p f.cls = false ∨ (pre = true ∧ (x.hold = true ∨ (first = true ∧ busy = true))) then .wait
  else if fits (d.openBytes p tick f.cls) (wireBytes left) then .whole
  else if pre then
    match d.fragBytes p left (d.openBytes p tick f.cls) with
    | some n => .frag n
    | none => .wait
  else .wait

/-- The heads of the classes in the transmit buffer, oldest first: index and frame. -/
def classHeads : Nat → List Nat → List TxFrame → List (Nat × TxFrame)
  | _, _, [] => []
  | i, seen, f :: t =>
    if seen.contains f.cls then classHeads (i + 1) seen t else (i, f) :: classHeads (i + 1) (f.cls :: seen) t

/-- The start of a frame, or of its rest of which `before` bytes are sent: it is on its way until a later instant, for as many bytes as are
planned: an express frame whole (R121, R123, R124). -/
def Dev.txBegin (d : Dev) (p tick : Nat) (f : TxFrame) (before : Nat) (mv : TxMove) : Dev :=
  let send (plan : Nat) : Dev :=
    let y : Flight :=
      { frame := f, express := !d.preemptable p f.cls && before == 0, before := before, start := d.instant tick, plan := plan }
    d.updLp p fun x => { x with frag := none, flight := some y }
  match mv with
  | .whole => send (f.macBytes - before)
  | .frag n => send n
  | _ => d

/-- Carry out what the MAC does with the frame number `i` of the transmit buffer. -/
def Dev.txCarry (d : Dev) (p tick i : Nat) (f : TxFrame) (mv : TxMove) : Dev :=
  match mv with
  | .wait => d
  | .oversize =>
    let d1 := (d.updLp p (·.takeTx i)).dropCount Drop.lptGate
    (d1.bump (F.LPT_TX_GATE_OVERSIZE.port p)).post Ev.LPT_GATE_OVERSIZE
      [(24, 1, p), (25, 1, f.cls), (28, 2, wireBytes f.macBytes)]
  | mv => ((d.updLp p (·.takeTx i)).stampTx p tick f).txBegin p tick f 0 mv

/-- The class heads with which the MAC can do something: express before preemptable, each oldest first. `busy`: a preempted frame waits. -/
def Dev.txChoices (d : Dev) (p tick : Nat) (express busy : Bool) (skip : Option Nat) : List (Nat × TxFrame × TxMove) :=
  (((classHeads 0 skip.toList (d.lp p).tx).filter fun h => d.preemptable p h.2.cls != express).map fun h =>
    (h.1, h.2, d.txMove p tick h.2 h.2.macBytes true busy)).filter fun h => h.2.2 != .wait

/-- Is there cause to preempt the frame on its way: HOLD is asserted, or an express frame can start (R123)? -/
def Dev.preempts (d : Dev) (p tick : Nat) : Bool :=
  (d.lp p).hold || (d.txChoices p tick true false none).any fun h => h.2.2 == .whole

/-- The frame on its way at an instant: it ends with its last planned byte; a preemptable one earlier, at the next legal boundary where there is
cause to preempt it (R123). -/
def Dev.txProgress (d : Dev) (p tick : Nat) (y : Flight) : Dev :=
  let left := y.frame.macBytes - y.before
  let sent := (d.instant tick - y.start) * d.portGbps p / 800 - 8
  let cut (n : Nat) : Dev :=
    (d.updLp p fun x => { x with flight := none, frag := some (y.frame, y.before + n) }).bump (F.LPT_TX_PREEMPT_FRAGS.port p)
  let least := 64 * (1 + d.rd (F.LPT_PREEMPT_ADD_FRAG.port p)) - 4
  if y.plan ≤ sent then
    if y.plan = left then (d.updLp p fun x => { x with flight := none }).txDone p y.frame else cut y.plan
  else if y.express = false ∧ d.preempts p tick = true ∧ max sent least < y.plan ∧ max sent least + 64 ≤ left then cut (max sent least)
  else d

/-- FRAME_TRANSMIT at a tick of 0.32 ns of the present span: the frame on its way ends or is preempted; otherwise the MAC starts or drops the
oldest express class head it can, resumes a preempted frame, or starts the oldest preemptable class head it can (R121 to R124). In M6 and
M9 it sends idle (R352). -/
def frameTransmit (p tick : Nat) (d : Dev) : Dev :=
  if d.lineSends p = false then d else
  let x := d.lp p
  match x.flight with
  | some y => d.txProgress p tick y
  | none =>
    match d.txChoices p tick true false (x.frag.map (·.1.cls)), x.frag with
    | (i, f, mv) :: _, _ => d.txCarry p tick i f mv
    | [], some (f, sent) => d.txBegin p tick f sent (d.txMove p tick f (f.macBytes - sent) false true)
    | [], none => match d.txChoices p tick false false none with
      | (i, f, mv) :: _ => d.txCarry p tick i f mv
      | [] => d

/-! ### Link state (R125, R126) -/

/-- A system port's change rides in PORT_REPORT for 4 spans; at most 16 ride at once (R303). -/
def Dev.portReport (d : Dev) (p : Nat) (up : Bool) : Dev :=
  match d.sysPort p with
  | none => d
  | some x =>
    if d.fab.reports.length < 16 ∧ d.fab.reportsWait = [] then
      { d with fab := { d.fab with reports := d.fab.reports ++ [(x, up, 4)] } }
    else { d with fab := { d.fab with reportsWait := d.fab.reportsWait ++ [(x, up)] } }

/-- A frame on its way, or preempted, ends with an invalid FCS; a lane transmitter is squelched by an administrative down and sends the
remote-fault ordered set on any other cause (R126). -/
def LptPort.lineDown (x : LptPort) (admin : Bool) : LptPort :=
  let cut := match x.flight, x.frag with
    | some y, _ => y.frame.bytes
    | none, some y => y.1.bytes
    | none, none => x.cutTx
  { x with flight := none, frag := none, cutTx := cut, lanesOut := if admin then .squelched else .remoteFault }

/-- Port `p` goes down for a cause (R126): a frame in progress ends, its queues are marked down and flushed, its system port is
reported; SAs, gate lists and counters keep their state. -/
def Dev.portDown (d : Dev) (p cause : Nat) : Dev :=
  let d1 := (d.wr (F.LPT_STATUS_LINK.port p) 0).updLp p (·.lineDown (cause == 1))
  ((d1.flushPortDown p).portReport p false).post Ev.LPT_LINK_DOWN [(24, 1, p), (25, 1, cause)]

/-- ADMIN_UP_WRITE: 0 takes the port down at once and squelches its lanes, 1 lets it come up (R125, R126). -/
def adminUpWrite (p : Nat) (up : Bool) (d : Dev) : Dev :=
  let d1 := d.wr (F.LPT_CTRL_ADMIN_UP.port p) (if up then 1 else 0)
  if d.on (F.LPT_CTRL_ADMIN_UP.port p) = up then d1
  else if up then d1.updLp p fun x => { x with lanesOut := .running }
  else if d.linkUp p then d1.portDown p 1
  else d1.updLp p fun x => { x with lanesOut := .squelched }

/-- The link of port `p` is clean: no fault condition. -/
def LptPort.clean (x : LptPort) : Bool := x.faults == 0 && x.fecBad.isNone

/-- LINE_FAULT_CHANGE: a fault condition (2 lock loss, 3 local fault, 4 remote fault) begins or ends; the HOLD counts start from it
(R125). -/
def lineFaultChange (p cause : Nat) (on : Bool) (d : Dev) : Dev :=
  if cause < 2 ∨ cause > 4 then d else
  let b := cause - 2
  let x := d.lp p
  if bitOn x.faults b = on then d else
  let x1 := { x with faults := putBit x.faults b on, faultAt := x.faultAt.set (fun _ => 0) b d.tim.tick }
  let d1 := d.setLp p (if x1.clean then { x1 with cleanAt := d.tim.tick } else x1)
  if cause = 3 then d1.wr (F.LPT_STATUS_LOCAL_FAULT.port p) (if on then 1 else 0)
  else if cause = 4 then d1.wr (F.LPT_STATUS_REMOTE_FAULT.port p) (if on then 1 else 0)
  else d1

/-- FEC_INTERVAL: the codewords of an interval are counted, and the uncorrectable ones compared with FEC_THR (R125). -/
def fecInterval (p corr uncorr : Nat) (d : Dev) : Dev :=
  let d1 := (d.bumpN (F.LPT_FEC_CORR_CW.port p) corr).bumpN (F.LPT_FEC_UNCORR_CW.port p) uncorr
  let thr := d.rd (F.LPT_LINK_CFG_FEC_THR.port p)
  let x := d1.lp p
  if thr ≠ 0 ∧ uncorr > thr then
    (d1.setLp p { x with fecBad := some (x.fecBad.getD d.tim.tick) }).wr (F.LPT_STATUS_FEC_DEGRADE.port p) 1
  else
    let x1 := { x with fecBad := none }
    (d1.setLp p (if x.fecBad.isSome && x1.clean then { x1 with cleanAt := d.tim.tick } else x1)).wr
      (F.LPT_STATUS_FEC_DEGRADE.port p) 0

/-- The cause that takes port `p` down now, if any: a halted pier at once, a fault that has lasted HOLD_DOWN spans (R125). DESIGN CHOICE (23):
where several have lasted, the one reported is the first of pier halt, lock loss, local fault, remote fault and FEC degrade; R125 has no
order. -/
def Dev.downCause (d : Dev) (p : Nat) : Option Nat :=
  let x := d.lp p
  let hold := d.rd (F.LPT_LINK_CFG_HOLD_DOWN.port p)
  if d.octetRuns (d.portOctet p) = false then some 6
  else match (List.range 3).find? fun b => bitOn x.faults b && x.faultAt.get (fun _ => 0) b + hold ≤ d.tim.tick with
    | some b => some (b + 2)
    | none => match x.fecBad with
      | some t => if t + hold ≤ d.tim.tick then some 5 else none
      | none => none

/-- PORT_LINK_DOWN: an up port with a cause goes down (R125, R126). -/
def portLinkDown (p : Nat) (d : Dev) : Dev :=
  if d.linkUp p = false then d
  else match d.downCause p with
    | some c => d.portDown p c
    | none => d

/-- The present ports that use board lane `l`, by the octet's lane maps (R106, R448). -/
def Dev.lanePorts (d : Dev) (l : Nat) : List Nat :=
  let o := l / 8
  let uses (f : Fld) (n : Nat) : Bool := (d.rd (f.port (8 * o)) >>> (3 * n)) % 8 == l % 8
  (List.range 128).filter fun p => match d.portRec d.liveTag p with
    | some r => r.present && r.octet == o && (List.range r.lanes).any fun i =>
        uses F.LPT_OCT_RX_MAP (r.firstLane + i) || uses F.LPT_OCT_TX_MAP (r.firstLane + i)
    | none => false

/-- PORT_LINK_UP: a present port with ADMIN_UP = 1 whose link has been clean for HOLD_UP spans comes up (R125). -/
def portLinkUp (p : Nat) (d : Dev) : Dev :=
  let x := d.lp p
  if d.linkUp p || (d.dgn.recal.any fun r => !r.1 && (d.lanePorts r.2).contains p) || !d.present p || !d.on (F.LPT_CTRL_ADMIN_UP.port p) || !x.clean ||
     d.tim.tick < x.cleanAt + d.rd (F.LPT_LINK_CFG_HOLD_UP.port p) || !d.octetRuns (d.portOctet p) || d.portShed p || d.lineStopped then d
  else
    let mode := match d.portRec d.liveTag p with
      | some r => r.mode
      | none => 0
    let d1 := (d.wr (F.LPT_STATUS_LINK.port p) 1).wr (F.LPT_STATUS_MODE.port p) mode
    let d2 := ({ d1 with que := { d1.que with portDown := d1.que.portDown.set (fun _ => false) p false } }).updLp p fun x =>
      { x with lanesOut := .running }
    (((d2.portReport p true).seekAlign p).post Ev.LPT_LINK_UP [(24, 1, p), (25, 1, mode)]).settle

/-! ### The commands -/

/-- LANE_MAP_WRITE (R106). -/
def execLaneMapWrite (m : Master) (p : Port) (tx : Bool) (data : Word) (s : State) : Host.Outcome State Fault Refusal :=
  onReg s m.val ((if tx then F.LPT_OCT_TX_MAP else F.LPT_OCT_RX_MAP).port p.val).off (laneMapWrite m.val p.val tx data)
/-- FRAME_RECEIVE (R108). -/
def execFrameReceive (p : Port) (l : List Byte) (tick : Fin 3200) (s : State) : Host.Outcome State Fault Refusal :=
  .next { s with dev := frameReceive p.val l tick.val s.dev }
/-- MAC_CONTROL_FRAME_RX (R116). -/
def execMacControlFrameRx (p : Port) (ctl : MacControl) (s : State) : Host.Outcome State Fault Refusal :=
  .next { s with dev := macControl p.val ctl s.dev }
/-- PAUSE_EXPIRY (R116). -/
def execPauseExpiry (p : Port) (c : Fin 8) (s : State) : Host.Outcome State Fault Refusal :=
  .next { s with dev := pauseExpiry p.val c.val s.dev }
/-- PFC_REFRESH (R117). -/
def execPfcRefresh (p : Port) (c : Fin 8) (s : State) : Host.Outcome State Fault Refusal :=
  .next { s with dev := pfcRefresh p.val c.val s.dev }
/-- PFC_WATCHDOG (R118). -/
def execPfcWatchdog (p : Port) (c : Fin 8) (s : State) : Host.Outcome State Fault Refusal :=
  .next { s with dev := pfcWatchdog p.val c.val s.dev }
/-- MSEC_SA_INSTALL (R112). -/
def execMsecSaInstall (m : Master) (p : Port) (s : State) : Host.Outcome State Fault Refusal :=
  onReg s m.val (F.LPT_MSEC_SA_CMD.port p.val).off (msecSaInstall m.val p.val)
/-- MSEC_SA_RETIRE (R112). -/
def execMsecSaRetire (m : Master) (p : Port) (s : State) : Host.Outcome State Fault Refusal :=
  onReg s m.val (F.LPT_MSEC_SA_CMD.port p.val).off (msecSaRetire p.val)
/-- TXTS_POP (R114). -/
def execTxtsPop (m : Master) (p : Port) (s : State) : Host.Outcome State Fault Refusal :=
  onReg s m.val (F.LPT_CTRL.port p.val).off (txtsPop p.val)
/-- LPT_CNT_CLR (R127). -/
def execLptCntClr (m : Master) (p : Port) (s : State) : Host.Outcome State Fault Refusal :=
  onReg s m.val (F.LPT_CTRL.port p.val).off (lptCntClr p.val)
/-- GCL_COMMIT (R120). -/
def execGclCommit (m : Master) (p : Port) (s : State) : Host.Outcome State Fault Refusal :=
  onReg s m.val (F.LPT_GCL_CTRL.port p.val).off (gclCommit m.val p.val)
/-- GCL_START (R47). -/
def execGclStart (p : Port) (s : State) : Host.Outcome State Fault Refusal := .next { s with dev := gclStart p.val s.dev }
/-- GATE_ENTRY_ADVANCE (R119). -/
def execGateEntryAdvance (p : Port) (s : State) : Host.Outcome State Fault Refusal :=
  .next { s with dev := gateEntryAdvance p.val s.dev }
/-- PREEMPT_VERIFY_EXCHANGE (R123). -/
def execPreemptVerifyExchange (p : Port) (ok : Bool) (s : State) : Host.Outcome State Fault Refusal :=
  .next { s with dev := preemptVerify p.val ok s.dev }
/-- ADMIN_UP_WRITE (R125). -/
def execAdminUpWrite (m : Master) (p : Port) (up : Bool) (s : State) : Host.Outcome State Fault Refusal :=
  onReg s m.val (F.LPT_CTRL.port p.val).off (adminUpWrite p.val up)
/-- PORT_LINK_DOWN (R126). -/
def execPortLinkDown (p : Port) (s : State) : Host.Outcome State Fault Refusal :=
  .next { s with dev := portLinkDown p.val s.dev }
/-- PORT_LINK_UP (R125). -/
def execPortLinkUp (p : Port) (s : State) : Host.Outcome State Fault Refusal := .next { s with dev := portLinkUp p.val s.dev }
/-- FEC_INTERVAL (R125). -/
def execFecInterval (p : Port) (corr uncorr : Nat) (s : State) : Host.Outcome State Fault Refusal :=
  .next { s with dev := fecInterval p.val corr uncorr s.dev }
/-- FRAME_TRANSMIT (R121). -/
def execFrameTransmit (p : Port) (tick : Fin 3200) (s : State) : Host.Outcome State Fault Refusal :=
  .next { s with dev := frameTransmit p.val tick.val s.dev }
/-- LINE_FAULT_CHANGE (R125). -/
def execLineFaultChange (p : Port) (cause : BitVec 3) (on : Bool) (s : State) : Host.Outcome State Fault Refusal :=
  .next { s with dev := lineFaultChange p.val cause.toNat on s.dev }

end Sys2Proof.Machine
end

