-- ==== Sys2Proof/Machine/Halt.lean ====
section
/-! DEFINITION. Entry to Quarantine (R22, R436) and the twin output pins (R335). -/

namespace Sys2Proof.Machine

/-- The twin output pins follow the mode, unless they are held (R335). -/
def Dev.pinsFollow (d : Dev) : Dev :=
  if d.twn.pinsHeld = true ∨ d.mode = .m9 then d
  else
    let (a, st) := if d.twinOn = true ∧ d.mode = .m4 then (true, 2) else if d.twinOn = true ∧ d.mode = .m5 then (false, 1) else (false, 0)
    { d with twn := { d.twn with activeOut := a, stateOut := st } }

/-- Packets between the MACs and the queues, and between the TM and the MACs, are gone: the piers are halted. -/
def Dev.clearPiers (d0 : Dev) : Dev :=
  let d := d0.mirrorsLost (d0.que.arrivals.map fun a => a.pkt.get Md.mirror)
  { d with pir := { d.pir with ss := [], inject := [], egress := [] }, lpt := { d.lpt with rx := [], step := [] },
           que := { d.que with arrivals := [] }, hst := { d.hst with fetched := [] } }

/-- Entry to M11 with a cause of R439, and as DETAIL a second cause of the same cycle, from any mode but M0 and M11 itself (R22, R436):
SEC_QUARANTINE, fabric links down with cause 6, the Ralin link off, every queue flushed, piers and control pairs halted, and the
pins low. DESIGN CHOICE (21): a walk in progress stops without being completed or abandoned: the mode's change ends M7 (R20),
IMG_WALK_STATUS goes on reading "running" and no event of the walk is posted; the same holds on entry to M10. -/
def Dev.quarantine (d : Dev) (cause : Nat) (detail : Nat := 0) : Dev :=
  if d.mode = .m0 ∨ d.mode = .m11 then d
  else d.withMode fun d =>
    let d1 := ((d.post Ev.SEC_QUARANTINE [(24, 1, cause), (25, 1, detail), (26, 1, d.glbMode)]).wr F.SEC_Q_CAUSE_CAUSE cause).wr
      F.SEC_Q_CAUSE_DETAIL detail
    let d2 := ((d1.setMode .m11).allLinksDown 6 0).setLanes 0
    let d3 := (d2.requestFlush 4 0xFFFF [(0, 524288)]).clearPiers
    let d4 := d3.each (List.range 4) fun p d => d.wr (F.CTL_PAIR_STATUS_STATE.ix p) 0
    ({ d4 with twn := { d4.twn with pinsHeld := false } }).pinsFollow

end Sys2Proof.Machine
end

