-- ==== Sys2Proof/Machine/Tables.lean ====
section
/-! DEFINITION. The forwarding tables: memories, placements, lookups, the insertion path, meters, counters, poison, snapshots and
hardware learning (R160 to R194, R204 to R206). -/

namespace Sys2Proof.Machine

/-! ### Memories (R160) -/

/-- The entries of a kind's memory. -/
def kindCap (k : Nat) : Nat :=
  if k = 2 then 4194304 else if 3 ≤ k ∧ k ≤ 6 then 67108864 else if k = 7 then 4194304 else if k = 8 then 2097152
  else if k = 9 then 2097152 else if k = 10 then 67108864 else 0

/-- The bytes of an entry of a kind (R173, R176, R179, R181, R184). -/
def kindBytes (k : Nat) : Nat :=
  if k = 2 then 32 else if 3 ≤ k ∧ k ≤ 6 then 64 else if k = 7 ∨ k = 10 then 16 else if k = 8 then 128 else if k = 9 then 64 else 0

/-- The key of an entry in the store. -/
def memKey (kind i : Nat) : Nat := kind * 134217728 + i

/-- An entry of a kind's memory. -/
def Dev.entry (d : Dev) (kind i : Nat) : BitVec 1024 := d.tbl.mem.get (fun _ => 0) (memKey kind i)

/-- Is the entry poisoned (R188)? -/
def Dev.poisoned (d : Dev) (kind i : Nat) : Bool := d.tbl.poison.get (fun _ => false) (memKey kind i)

/-- Every write of an entry clears its poison (R202). -/
def Dev.putEntry (d : Dev) (kind i : Nat) (e : BitVec 1024) : Dev :=
  { d with tbl := { d.tbl with mem := d.tbl.mem.set (fun _ => 0) (memKey kind i) e,
                               poison := d.tbl.poison.set (fun _ => false) (memKey kind i) false } }

/-! ### The meter caches of the piers (R183) -/

/-- A pier's meter cache, the most recently used meter first. -/
def Dev.meterCache (d : Dev) (pier : Nat) : List MeterLine := d.tbl.meters.get (fun _ => []) pier

/-- The device with a pier's meter cache replaced. -/
def Dev.setMeters (d : Dev) (pier : Nat) (l : List MeterLine) : Dev :=
  { d with tbl := { d.tbl with meters := d.tbl.meters.set (fun _ => []) pier l } }

/-- A dirty meter that leaves a cache is written back to FE HBM. A write-back clears no poison: only software rewrites an entry (R188). -/
def Dev.writeBack (d : Dev) (x : MeterLine) : Dev :=
  if x.dirty then { d with tbl := { d.tbl with mem := d.tbl.mem.set (fun _ => 0) (memKey 9 x.idx) x.entry } } else d

/-- A meter as pier `pier` meets it: from its cache, or read from FE HBM. -/
def Dev.meterOf (d : Dev) (pier i : Nat) : BitVec 1024 :=
  match (d.meterCache pier).find? (·.idx == i) with
  | some x => x.entry
  | none => d.entry 9 i

/-- A meter as it stands: where a cache holds it changed, that value. -/
def Dev.meterNow (d : Dev) (i : Nat) : BitVec 1024 :=
  match (d.tbl.meters.flatMap (·.2)).find? fun x => x.idx == i && x.dirty with
  | some x => x.entry
  | none => d.entry 9 i

/-- A pier has used a meter, which its cache now holds with new buckets; beyond 8,192 meters the least recently used one is evicted. -/
def Dev.useMeter (d : Dev) (pier i : Nat) (e : BitVec 1024) : Dev :=
  let l := (⟨i, e, true⟩ : MeterLine) :: (d.meterCache pier).filter (·.idx != i)
  (d.setMeters pier (l.take 8192)).each (l.drop 8192) fun x d => d.writeBack x

/-- A rewritten meter leaves every cache, without a write-back (R202). -/
def Dev.forgetMeter (d : Dev) (i : Nat) : Dev :=
  { d with tbl := { d.tbl with meters := (d.tbl.meters.map fun (e : Nat × List MeterLine) => (e.1, e.2.filter (·.idx != i))).filter fun e => !e.2.isEmpty } }

/-- The listed meters of a pier's cache do not read and are read afresh from FE HBM (R100). -/
def Dev.loseMeters (d : Dev) (pier : Nat) (is : List Nat) : Dev :=
  d.setMeters pier ((d.meterCache pier).filter fun x => !is.contains x.idx)

/-- A pier that is powered off loses its cache. -/
def Dev.dropMeters (d : Dev) (pier : Nat) : Dev := d.setMeters pier []

/-- The dirty meters of pier `old`'s cache are copied to pier `new` (R93, R100). -/
def Dev.moveMeters (d : Dev) (old new : Nat) : Dev :=
  (d.setMeters new ((d.meterCache old).filter (·.dirty))).setMeters old []

/-- An entry as it stands; a meter with the buckets that a cache holds. -/
def Dev.entryNow (d : Dev) (kind i : Nat) : BitVec 1024 := if kind = 9 then d.meterNow i else d.entry kind i

/-- The entry as a read returns it: with POISON as held (R199). DEDUCED (25): a read of a meter returns its buckets as they stand, those that a
pier's cache holds included. -/
def Dev.shownEntry (d : Dev) (kind i : Nat) : BitVec 1024 :=
  let e := d.entryNow kind i
  let p := d.poisoned kind i
  if kind = 2 then putBit e 211 p else if 3 ≤ kind ∧ kind ≤ 6 then putBit e 403 p else if kind = 10 then putBit e 112 p else e

/-! ### Exact-match entries (R173) -/

/-- The byte at which RESULT lies in an exact-match entry. -/
def exOfs (kind : Nat) : Nat := if kind = 2 then 16 else 40
/-- KEY of an entry. -/
def exKey (kind : Nat) (e : BitVec 1024) : Nat := byteField e 0 (exOfs kind)
/-- RESULT. -/
def exResult (kind : Nat) (e : BitVec 1024) : Nat := byteField e (exOfs kind) 8
/-- AGE. -/
def exAge (kind : Nat) (e : BitVec 1024) : Nat := byteField e (exOfs kind + 8) 2
/-- VALID. -/
def exValid (kind : Nat) (e : BitVec 1024) : Bool := bitOn e (8 * (exOfs kind + 10))
/-- STATIC. -/
def exStatic (kind : Nat) (e : BitVec 1024) : Bool := bitOn e (8 * (exOfs kind + 10) + 1)
/-- An exact-match entry in use. -/
def exEntry (kind key result age : Nat) (static learned : Bool) : BitVec 1024 :=
  BitVec.ofNat 1024 (key + (result <<< (8 * exOfs kind)) + (age <<< (8 * exOfs kind + 64)) +
    ((1 + (if static then 2 else 0) + (if learned then 4 else 0)) <<< (8 * exOfs kind + 80)))
/-- The entry with another AGE. -/
def exSetAge (kind : Nat) (e : BitVec 1024) (age : Nat) : BitVec 1024 :=
  setBits e (8 * exOfs kind + 79) (8 * exOfs kind + 64) age
/-- The entry with VALID changed. -/
def exSetValid (kind : Nat) (e : BitVec 1024) (v : Bool) : BitVec 1024 := putBit e (8 * (exOfs kind + 10)) v

/-! ### Placement (R166, R171, R172, R209, R210) -/

/-- Where a table's entries lie and how its keys hash. -/
structure Place where
  kind : Nat
  keyBits : Nat
  base : Nat
  cap : Nat
  seed0 : Nat
  seed1 : Nat
  deriving DecidableEq, Repr

/-- The schema of a table in a bank. -/
def Dev.schema (d : Dev) (tag tid : Nat) : Option Schema :=
  match d.bankImage tag with
  | some im => im.schemas[tid]?
  | none => none

/-- The placement in force of a table in a bank: its image's, or a committed one that overrides it; seeds are the table's (R71), but those that
a held old bank keeps (R209). -/
def Dev.placeOf (d : Dev) (tid : Nat) (s : Schema) : Place :=
  let o := (d.tbl.places.get (fun _ => []) tid).find? fun p => p.kind == s.kind && p.base == s.base && p.cap == s.capacity
  let (b, c) := match o with
    | some p => (p.newBase, p.newCap)
    | none => (s.base, s.capacity)
  let sd := ((o.bind (·.pin)).or (d.img.seeds.get (fun _ => none) tid)).getD (s.seed0, s.seed1)
  { kind := s.kind, keyBits := s.keyBits, base := b, cap := c, seed0 := sd.1, seed1 := sd.2 }

/-- The exact-match table of a bank: its schema and placement. -/
def Dev.exactPlace (d : Dev) (tag tid : Nat) : Option (Schema × Place) :=
  match d.schema tag tid with
  | some s => if 2 ≤ s.kind ∧ s.kind ≤ 6 then some (s, d.placeOf tid s) else none
  | none => none

/-- The key that an entry of the table holds: its low KEY_BITS bits (R174). -/
def Place.keyOf (p : Place) (e : BitVec 1024) : Nat := exKey p.kind e % 2 ^ p.keyBits

/-- Entries per bucket. -/
def Place.per (p : Place) : Nat := if p.kind = 2 then 8 else 4

/-- The first entry of the key's bucket in a way (R172). -/
def Place.bucket (p : Place) (key way : Nat) : Nat :=
  let h := crc32cFrom (if way = 0 then p.seed0 else p.seed1) (leBytes ((p.keyBits + 7) / 8) key)
  p.base + (h % (p.cap / p.per)) * p.per

/-- The starts of the key's buckets, way 0 first. -/
def Place.starts (p : Place) (key : Nat) : List Nat :=
  if p.kind = 2 then [p.bucket key 0] else [p.bucket key 0, p.bucket key 1]

/-- The entries of a bucket. -/
def Place.slots (p : Place) (start : Nat) : List Nat := (List.range p.per).map (start + ·)

/-- The entries that a lookup of the key compares. -/
def Place.compared (p : Place) (key : Nat) : List Nat := (p.starts key).flatMap p.slots

/-- The table of the live bank that an entry belongs to. -/
def Dev.tableAt (d : Dev) (kind i : Nat) : Option Nat :=
  match d.liveImage with
  | none => none
  | some im => (List.range im.schemas.length).find? fun t => match im.schemas[t]? with
    | some s => let p := d.placeOf t s; s.kind == kind && p.base ≤ i && i < p.base + p.cap
    | none => false

/-- Source-instance bytes 16 to 23 of a TBL event (R194). -/
def tblInst (t : Option Nat) : Nat :=
  match t with
  | some n => n % 256 + 0x1000000
  | none => 0xFF

/-- Post a TBL event. -/
def Dev.postTbl (d : Dev) (e : EvDesc) (t : Option Nat) (pl : List (Nat × Nat × Nat)) : Dev := d.postInst e (tblInst t) pl

/-! ### The engine's searches (R204) -/

/-- The entry that holds a key. -/
def Dev.findKey (d : Dev) (p : Place) (key : Nat) : Option Nat :=
  (p.compared key).find? fun i => exValid p.kind (d.entry p.kind i) && p.keyOf (d.entry p.kind i) == key

/-- A free entry: VALID = 0, and not poisoned. -/
def Dev.freeIn (d : Dev) (p : Place) (start : Nat) : Option Nat :=
  (p.slots start).find? fun i => !exValid p.kind (d.entry p.kind i) && !d.poisoned p.kind i

/-- The other bucket of an entry's key, if it has another. -/
def Dev.otherBucket (d : Dev) (p : Place) (i : Nat) : Option Nat :=
  let k := p.keyOf (d.entry p.kind i)
  let b0 := p.bucket k 0
  let b1 := p.bucket k 1
  if b0 = b1 then none else if b0 ≤ i ∧ i < b0 + p.per then some b1 else some b0

/-- An entry that a chain may move. -/
def Dev.movable (d : Dev) (p : Place) (i : Nat) : Bool := exValid p.kind (d.entry p.kind i) && !d.poisoned p.kind i

/-- The chains one move longer, and the entries met. -/
def Dev.growChains (d : Dev) (p : Place) (fr : List (List Nat)) (seen : List Nat) : List (List Nat) × List Nat :=
  fr.foldl (fun a ch => match ch with
    | [] => a
    | i :: _ => match d.otherBucket p i with
      | none => a
      | some b => (p.slots b).foldl (fun a j =>
          if d.movable p j && !a.2.contains j then (a.1 ++ [j :: ch], j :: a.2) else a) a) ([], seen)

/-- The breadth-first search: a chain (its last moved entry first) and the free place it ends at. -/
def Dev.chainSearch (d : Dev) (p : Place) : Nat → List (List Nat) → List Nat → Option (List Nat × Nat)
  | 0, _, _ => none
  | n + 1, fr, seen =>
    let hit := fr.findSome? fun ch => match ch with
      | [] => none
      | i :: _ => match d.otherBucket p i with
        | none => none
        | some b => (d.freeIn p b).map fun f => (ch, f)
    match hit with
    | some r => some r
    | none =>
      let g := d.growChains p fr seen
      if g.1 = [] then none else Dev.chainSearch d p n g.1 g.2

/-- A chain's moves, from its free end: the writes, and the place freed. -/
def Dev.chainMoves (d : Dev) (p : Place) : List Nat → Nat → List (Nat × BitVec 1024) × Nat
  | [], f => ([], f)
  | i :: t, f =>
    let r := Dev.chainMoves d p t i
    ((f, d.entry p.kind i) :: (i, exSetValid p.kind (d.entry p.kind i) false) :: r.1, r.2)

/-- What the insertion path finds for a key: present at an index, or a place for it with the moves that free it, or no room. -/
inductive InsertPlan where
  | present (i : Nat)
  | room (i : Nat) (moves : Nat) (writes : List (Nat × BitVec 1024))
  | noRoom
  deriving DecidableEq, Repr

/-- The insertion path for a key (R204). -/
def Dev.insertPlan (d : Dev) (p : Place) (key : Nat) : InsertPlan :=
  match d.findKey p key with
  | some i => .present i
  | none => match (p.starts key).findSome? (d.freeIn p) with
    | some i => .room i 0 []
    | none =>
      if p.kind = 2 then .noRoom
      else
        let first := ((p.compared key).filter (d.movable p)).dedup.insertionSort (· ≤ ·)
        match d.chainSearch p (max 1 (d.rd F.TBL_TAE_CFG_MAX_MOVES)) (first.map fun i => [i]) first with
        | none => .noRoom
        | some (ch, f) =>
          let r := d.chainMoves p ch f
          .room r.2 ch.length r.1

/-- Writes to a table's memory, in order. -/
def Dev.putAll (d : Dev) (kind : Nat) (ws : List (Nat × BitVec 1024)) : Dev := d.each ws fun w d => d.putEntry kind w.1 w.2

/-! ### Rehash: the shadow (R207, R208) -/

/-- The open rehash of a table, while its changes apply to both placements: copying or READY. -/
def Dev.rehashOf (d : Dev) (tid : Nat) : Option Rehash :=
  match d.tbl.rehash with
  | some r => if r.table = tid then some r else none
  | none => none

/-- The shadow's placement. -/
def Rehash.shadow (r : Rehash) (keyBits : Nat) : Place :=
  { kind := r.kind, keyBits := keyBits, base := r.newBase, cap := r.newCap, seed0 := r.seed0, seed1 := r.seed1 }

/-- A rehash ends without a commit: STATE FAILED with its cause (R208, R209). -/
def Dev.rehashFail (d : Dev) (cause : Nat) : Dev :=
  match d.tbl.rehash with
  | none => d
  | some r =>
    let d1 := { d with tbl := { d.tbl with rehash := none } }
    ((d1.wr F.TBL_REHASH_STATUS_STATE 3).wr F.TBL_REHASH_STATUS_CAUSE cause).postTbl Ev.TBL_REHASH_FAIL (some r.table) [(24, 1, cause)]

/-! ### The rates of the engine's paths (R190, R200, R208) -/

/-- A count kept with the tick of its span, as it stands in this span. -/
def Dev.spanCount (d : Dev) (c : Nat × Nat) : Nat := if c.1 = d.tim.tick then c.2 else 0

/-- Insertion operations of this span (R208). -/
def Dev.countOps (d : Dev) (n : Nat) : Dev := { d with tbl := { d.tbl with ops := (d.tim.tick, d.spanCount d.tbl.ops + n) } }

/-- An indexed or LPM operation of this span (R200). -/
def Dev.countPath (d : Dev) (op : Nat) : Dev :=
  if op = 4 ∨ op = 5 ∨ op = 10 then { d with tbl := { d.tbl with idxOps := (d.tim.tick, d.spanCount d.tbl.idxOps + 1) } }
  else if 6 ≤ op ∧ op ≤ 8 then { d with tbl := { d.tbl with lpmOps := (d.tim.tick, d.spanCount d.tbl.lpmOps + 1) } }
  else d

/-- A learn submission of this span. -/
def Dev.countLearn (d : Dev) : Dev := { d with tbl := { d.tbl with learnOps := (d.tim.tick, d.spanCount d.tbl.learnOps + 1) } }

/-- The operations of this span that are the copy's before all others: 32, until it has taken them (R208). -/
def Dev.copyClaim (d : Dev) : Nat :=
  if d.tbl.rehash.isSome = true ∧ d.rd F.TBL_REHASH_STATUS_STATE = 1 ∧ d.tbl.copyTick ≠ some d.tim.tick then 32 else 0

/-- The operations of this span that are the waiting learn submissions' before those of requests: up to 204 in the span (R208). -/
def Dev.learnClaim (d : Dev) : Nat :=
  if d.serviceRuns F.CTL_SVC_MAP_LEARN then min (204 - d.spanCount d.tbl.learnOps) d.tbl.learnQ.length else 0

/-- May a learn submission apply in this span? -/
def Dev.mayLearn (d : Dev) : Bool :=
  decide (d.spanCount d.tbl.learnOps < 204) && decide (d.spanCount d.tbl.ops + d.copyClaim < 320)

/-- May a request with the opcode execute in this span, by the rate of its path? -/
def Dev.mayRun (d : Dev) (op : Nat) : Bool :=
  if 1 ≤ op ∧ op ≤ 3 then decide (d.spanCount d.tbl.ops + d.copyClaim + d.learnClaim < 320)
  else if op = 4 ∨ op = 5 ∨ op = 10 then decide (d.spanCount d.tbl.idxOps < 64)
  else if 6 ≤ op ∧ op ≤ 8 then decide (d.spanCount d.tbl.lpmOps < 4)
  else true

/-- Put a copy of an entry into the shadow: its relocation moves count as operations (R204); without room the rehash fails with NO_ROOM. -/
def Dev.shadowPut (d : Dev) (sh : Place) (e : BitVec 1024) : Dev :=
  match d.insertPlan sh (sh.keyOf e) with
  | .present i => d.putEntry sh.kind i e
  | .room i n ws => (((d.countOps n).bumpN F.TBL_RELOC_MOVES n).putAll sh.kind ws).putEntry sh.kind i e
  | .noRoom => d.rehashFail 1

/-- Bring the shadow into line for one key after a change of the live table; `stamp`: only a hit stamp, which moves nothing in. -/
def Dev.shadowSync (d : Dev) (tid : Nat) (p : Place) (key : Nat) (stamp : Bool) : Dev :=
  match d.rehashOf tid with
  | none => d
  | some r =>
    let sh := r.shadow p.keyBits
    match d.findKey p key with
    | some i => if stamp && (d.findKey sh key).isNone then d else d.shadowPut sh (d.entry p.kind i)
    | none => match d.findKey sh key with
      | some j => d.putEntry sh.kind j (exSetValid sh.kind (d.entry sh.kind j) false)
      | none => d

/-- The writes of one insertion, with the keys of the entries it moved and its own brought into line in the shadow (R208). -/
def Dev.putSynced (d : Dev) (tid : Nat) (p : Place) (ws : List (Nat × BitVec 1024)) (key : Nat) : Dev :=
  let keys := (ws.map fun w => p.keyOf w.2).dedup
  ((d.putAll p.kind ws).each keys fun k d => d.shadowSync tid p k false).shadowSync tid p key false

/-! ### Age (R175) -/

/-- The current age tick of a table. -/
def Dev.ageTick (d : Dev) (s : Schema) : Nat := (d.periodic >>> s.ageK) % 65536

/-! ### Lookups (R162, R170, R174, R189) -/

/-- What a lookup finds: nothing, a stage result, or poison at an entry of a kind. -/
inductive Look where
  | miss
  | hit (r : Nat)
  | poison (kind i : Nat)
  deriving DecidableEq, Repr

/-- The prefix (address left-aligned in 128 bits, length) covers the address. -/
def covers (addr len a : Nat) : Bool := addr >>> (128 - len) == a >>> (128 - len)

/-- The longest prefix of a table and VRF that covers an address (R170). -/
def Dev.longest (d : Dev) (tid vrf a : Nat) : Option Route :=
  (d.tbl.lpm.filter fun r => r.table == tid && r.vrf == vrf && covers r.addr r.len a).foldl (fun b r => match b with
    | some x => if x.len < r.len then some r else b
    | none => some r) none

/-- A key of an LPM table: VRF and address, left-aligned in 128 bits (R168). -/
def lpmKey (keyBits key : Nat) : Nat × Nat := (key % 65536, (key / 65536 % 2 ^ (keyBits - 16)) <<< (144 - keyBits))

/-- A lookup in an LPM table. -/
def Dev.lpmLookup (d : Dev) (tid keyBits key : Nat) : Look :=
  let (vrf, a) := lpmKey keyBits key
  match d.tbl.lpmPoison.find? fun p => p.vrf == vrf && covers p.addr p.len a with
  | some p => .poison 1 p.node
  | none => match d.longest tid vrf a with
    | some r => .hit r.result
    | none => .miss

/-- A lookup in an exact-match table: a clean hit wins, otherwise poison among the entries compared (R174, R189); a hit stamps the
entry in an ageing table (R175), and the shadow's where the entry is the live table's (R208). -/
def Dev.exactLookup (d : Dev) (tid : Nat) (s : Schema) (p : Place) (key : Nat) : Look × Dev :=
  let k := key % 2 ^ p.keyBits
  let l := p.compared k
  match l.find? fun i => exValid p.kind (d.entry p.kind i) && !d.poisoned p.kind i && p.keyOf (d.entry p.kind i) == k with
  | some i =>
    let e := d.entry p.kind i
    let t := d.ageTick s
    let live := (d.exactPlace d.liveTag tid).map (·.2) == some p
    let d1 := if s.ageing && exAge p.kind e != t then
        (d.putEntry p.kind i (exSetAge p.kind e t)).when live fun d => d.shadowSync tid p k true
      else d
    (.hit (exResult p.kind e), d1)
  | none => match l.find? fun i => d.poisoned p.kind i with
    | some i => (.poison p.kind i, d)
    | none => (.miss, d)

/-! ### Poison (R188, R189) -/

/-- A lookup that meets poison: the drop is counted and reported; DROP and its reason are the stroke's. -/
def Dev.poisonHit (d : Dev) (t : Option Nat) (kind i pier pipe : Nat) : Dev :=
  (d.bump F.TBL_POISON_DROP).postTbl Ev.TBL_POISON_HIT t
    [(24, 1, kind), (25, 1, pier), (26, 1, pipe), (28, 4, i)]

/-- An uncorrectable error poisons an entry, once (R188); `found`: 1 lookup, 2 patrol, 3 table access engine. For an LPM node the range it
covers is the device's own. -/
def Dev.poisonEntry (d : Dev) (kind i found : Nat) : Dev :=
  let d0 := (d.bump F.TBL_ECC_UNCORR).evidence 0
  let log (d : Dev) : Dev := ((d.wr F.TBL_POISON_LOG_VALID 1).wr F.TBL_POISON_LOG_KIND kind).wr F.TBL_POISON_LOG_INDEX i
  if kind = 1 then
    if d.tbl.lpmPoison.any fun p => p.node == i then d
    else
      let (x, d1) := d0.takeFree
      let (y, d2) := d1.takeFree
      let (z, d3) := d2.takeFree
      let len := z % 129
      let vrf := x % 65536
      let a := (y % 2 ^ 128) >>> (128 - len) <<< (128 - len)
      let todo := (d3.tbl.lpm.filter fun r => r.vrf == vrf && len ≤ r.len && covers a len r.addr).map fun r => (r.table, r.addr, r.len)
      let d4 := { d3 with tbl := { d3.tbl with lpmPoison := d3.tbl.lpmPoison ++ [⟨i, vrf, a, len, todo⟩] } }
      (log d4).postTbl Ev.TBL_POISONED none
        [(24, 1, 1), (25, 1, found), (26, 2, vrf), (28, 4, i), (32, 16, beNat (leBytes 16 a)), (48, 1, len)]
  else if d.poisoned kind i then d
  else
    let d1 := { d0 with tbl := { d0.tbl with poison := d0.tbl.poison.set (fun _ => false) (memKey kind i) true } }
    (log d1).postTbl Ev.TBL_POISONED (d.tableAt kind i) [(24, 1, kind), (25, 1, found), (28, 4, i)]

/-- A correctable error is corrected, counted and reported (R188). -/
def Dev.correctEntry (d : Dev) (kind i : Nat) : Dev :=
  (d.bump F.TBL_ECC_CORR).postTbl Ev.TBL_ECC_CORR (if kind = 1 then none else d.tableAt kind i) [(24, 1, kind), (28, 4, i)]

/-! ### Counters (R184) and meters (R181 to R183, R274, R280) -/

/-- Count a packet of `len` bytes: bytes with the FCS, and packets, both wrapping. A poisoned counter loses the update (R189). -/
def Dev.countPacket (d : Dev) (t : Option Nat) (pier i len : Nat) : Dev :=
  if d.poisoned 10 i then (d.bump F.TBL_CNT_LOST).postTbl Ev.TBL_CNT_LOST t [(24, 1, pier), (28, 4, i)]
  else
    let e := d.entry 10 i
    d.putEntry 10 i (setBits (setBits e 63 0 (byteField e 0 8 + len + 4)) 111 64 (byteField e 8 6 + 1))

/-- The levels after a refresh, in units of 2^-16: what flows over the first bucket goes to the second under srTCM. -/
def meterRefresh (e : BitVec 1024) (elapsed : Nat) : Nat × Nat :=
  let mode := byteField e 0 1
  let pkt := bitOn e 8
  let g1 := rateV (byteField e 4 4) pkt * elapsed / 65536
  let g2 := rateV (byteField e 8 4) pkt * elapsed / 65536
  let b1 := byteField e 12 4 * 65536
  let b2 := byteField e 16 4 * 65536
  let t1 := byteField e 20 6 + g1
  let c := min t1 b1
  if mode = 1 then (c, byteField e 26 6)
  else if mode = 2 then (c, min (byteField e 26 6 + (t1 - c)) b2)
  else (c, min (byteField e 26 6 + g2) b2)

/-- The decision of R280: colour, and what each bucket is charged. -/
def meterDecide (mode color l c x : Nat) : Nat × Nat × Nat :=
  if mode = 1 then (if color = 0 then (if c ≥ l then (0, l, 0) else (2, 0, 0)) else (color, 0, 0))
  else if mode = 3 then
    if color ≥ 2 ∨ x < l then (2, 0, 0) else if color = 1 ∨ c < l then (1, 0, l) else (0, l, l)
  else if color = 0 ∧ c ≥ l then (0, l, 0) else if color ≤ 1 ∧ x ≥ l then (1, 0, l) else (2, 0, 0)

/-- The spans since a meter's last refresh; none when the STC has stepped back. -/
def elapsedSpans (now last : Nat) : Nat := if spanFuture now last then spanAhead now last else 0

/-- Apply a meter to a packet of `len` bytes and a colour; the new colour. Only the pier that serves OWNER applies it, in its cache (R183); the
spans since its last refresh go on by the internal tick while the STC is held (R46, R182). -/
def Dev.applyMeter (d : Dev) (t : Option Nat) (pier i color len : Nat) (aware : Bool) : Nat × Dev :=
  let e := d.meterOf pier i
  let mode := byteField e 0 1
  let owner := byteField e 2 1 % 16
  if d.octetOf pier ≠ some owner then
    (2, (d.bump F.TBL_METER_FOREIGN).postTbl Ev.TBL_METER_FOREIGN t
      [(24, 1, pier), (25, 1, owner), (26, 1, (d.octetOf pier).getD 0xFF), (28, 4, i)])
  else if mode = 0 ∨ mode ≥ 5 then (color, d)
  else
    let now := d.runSpan
    let (c, x) := meterRefresh e (elapsedSpans now (byteField e 32 6))
    let l := (if bitOn e 8 then 1 else len + 4) * 65536
    let (col, c1, x1) := meterDecide mode (if aware then color else 0) l c x
    let e1 := setBits (setBits (setBits e 207 160 (c - c1)) 255 208 (x - x1)) 303 256 now
    (col, d.useMeter pier i e1)

/-! ### Snapshots (R186) -/

/-- The counters of a range as they stand, with POISON. -/
def Dev.counterImage (d : Dev) (first count : Nat) : SMap (BitVec 128) :=
  (((d.tbl.mem.map (·.1) ++ d.tbl.poison.map (·.1)).filter fun k =>
    memKey 10 first ≤ k && k < memKey 10 (first + count)).dedup.insertionSort (· ≤ ·)).map
      fun k => (k - memKey 10 0, (d.shownEntry 10 (k - memKey 10 0)).setWidth 128)

/-- A counter-snapshot timed action with operand `n`: refused (true), or the copy starts with the counters as they stand now (R186). -/
def Dev.snapFire (d : Dev) (n : Nat) : Bool × Dev :=
  let count := d.rd (F.TBL_SNAP_COUNT_COUNT.item n)
  let first := d.rd (F.TBL_SNAP_FIRST_FIRST.item n)
  let cause := if d.tbl.snap.isSome then 1 else if n ≥ 64 then 2 else if count = 0 ∨ first + count > 67108864 then 3 else 0
  if cause ≠ 0 then (true, d.postTbl Ev.TBL_SNAP_REFUSED none [(24, 1, n), (25, 1, cause)])
  else
    let s : Snapshot :=
      { set := n, first := first, count := count, addr := d.rd (F.TBL_SNAP_ADDR_ADDR.item n) * 64, span := d.tim.span,
        image := d.counterImage first count }
    let d1 := { d with tbl := { d.tbl with snap := some s } }
    (false, (d1.wr (F.TBL_SNAP_STATUS_STATE.item n) 1).wr (F.TBL_SNAP_SPAN_SPAN.item n) d.tim.span)

/-- The DMA of the first `n` counters of a copy. -/
def Dev.snapWrite (d : Dev) (s : Snapshot) (n : Nat) : Dev :=
  d.each (List.range n) fun i d =>
    d.dma (s.addr + 16 * i) (bytesOf (SMap.get (fun _ => (0 : BitVec 128)) s.image (s.first + i)))

/-- SNAPSHOT_COPY_DONE: the copy ends, whole or by a DMA failure after `copied` counters (R186). -/
def snapshotCopyDone (ok : Bool) (copied : Nat) (d : Dev) : Dev :=
  match d.tbl.snap with
  | none => d
  | some s =>
    let n := if ok then s.count else min copied s.count
    let d1 := { d.snapWrite s n with tbl := { d.tbl with snap := none } }
    (d1.wr (F.TBL_SNAP_STATUS_STATE.item s.set) (if ok then 2 else 3)).postTbl Ev.TBL_SNAP_DONE none
      [(24, 1, s.set), (25, 1, if ok then 0 else 1), (28, 4, n), (32, 6, s.span), (40, 6, d.tim.span)]

/-! ### No room (R206) -/

/-- The valid entries of a placement. -/
def Dev.validEntries (d : Dev) (p : Place) : Nat :=
  (d.tbl.mem.filter fun e => memKey p.kind p.base ≤ e.1 && e.1 < memKey p.kind (p.base + p.cap) && exValid p.kind e.2).length

/-- An insertion without room: counted, and the table asks for a rehash; `source`: 1 engine request, 2 learn. -/
def Dev.insertNoRoom (d : Dev) (tid : Nat) (p : Place) (source : Nat) : Dev :=
  let f := F.TBL_REHASH_PEND_PEND.ix (tid / 32)
  let d1 := d.bump F.TBL_INSERT_NO_ROOM
  if (d1.rd f >>> (tid % 32)) % 2 = 1 then d1
  else (d1.wrIx F.TBL_REHASH_PEND_PEND 8 (tid / 32) (d1.rd f + (1 <<< (tid % 32)))).postTbl Ev.TBL_REHASH_REQ (some tid)
    [(24, 1, p.kind), (25, 1, source), (28, 4, d1.validEntries p)]

/-! ### Hardware learning (R190 to R193) -/

/-- A LEARN operation of pier `pier` in the bank with tag `tag` (R190, R193). -/
def Dev.learnSubmit (d : Dev) (tag tid key result pier : Nat) : Dev :=
  if d.on F.TBL_LEARN_CFG_EN = false ∨ d.mode = .m5 ∨ d.mode = .m6 then d
  else
    let good := match d.schema tag tid with
      | some s => decide (2 ≤ s.kind ∧ s.kind ≤ 6) && s.learn
      | none => false
    if good = false then d.bump F.TBL_LEARN_BAD
    else if d.tbl.learnQ.length ≥ 65536 then d.bump F.TBL_LEARN_DROP
    else { d with tbl := { d.tbl with learnQ := d.tbl.learnQ ++ [⟨tid, key, result, pier⟩] } }

/-- A learned entry reported, up to EV_MAX in a span (R192). -/
def Dev.learnEvent (d : Dev) (s : LearnSub) (what : Nat) : Dev :=
  let n := if d.tbl.learnEv.1 = d.tim.tick then d.tbl.learnEv.2 else 0
  if n ≥ d.rd F.TBL_LEARN_CFG_EV_MAX then d.bump F.TBL_LEARN_EV_SUPPRESSED
  else
    { d with tbl := { d.tbl with learnEv := (d.tim.tick, n + 1) } }.postInst Ev.TBL_LEARN
      (s.table % 256 + 256 * what + 65536 * s.pier + 0x1000000) [(24, 8, s.result), (32, 32, s.key)]

/-- The body of a mirror record of kinds 5 and 6 (R341). -/
def entryBody (tid i : Nat) (e : BitVec 1024) : List Byte := leBytes 2 tid ++ leBytes 4 i ++ leBytes 64 e.toNat

/-- An entry as a mirror record of kind 5 or 6 carries it, written to its table, with the shadow following. A poisoned entry stays as it is:
only software rewrites it (R188). -/
def Dev.applyEntryRecord (d : Dev) (body : List Byte) : Dev :=
  let tid := leNat (body.take 2)
  let i := leNat ((body.drop 2).take 4)
  let e := BitVec.ofNat 1024 (leNat ((body.drop 6).take 64))
  match d.exactPlace d.liveTag tid with
  | none => d
  | some (_, p) =>
    if d.poisoned p.kind i then d else
    let old := d.entry p.kind i
    let d1 := d.putEntry p.kind i e
    let d2 := if exValid p.kind old && p.keyOf old != p.keyOf e then d1.shadowSync tid p (p.keyOf old) false else d1
    d2.shadowSync tid p (p.keyOf e) false

/-- The device as it stands once the learned entries that wait for their span have applied. -/
def Dev.learnView (d : Dev) : Dev := d.each (d.twn.records.filter fun r => r.kind == 5) fun r d => d.applyEntryRecord r.body

/-- The writes of a learned entry: at once, or on both twins at their span A (R193). -/
def Dev.learnWrites (d : Dev) (tid : Nat) (p : Place) (ws : List (Nat × BitVec 1024)) (key : Nat) : Dev :=
  if d.mirrorOn then d.each ws fun w d => d.mirrorDefer 5 0 (entryBody tid w.1 w.2)
  else d.putSynced tid p ws key

/-- An opcode that changes state (R216). -/
def opChanges (op : Nat) : Bool := op == 2 || op == 3 || (5 ≤ op && op ≤ 7) || op == 9 || op == 10

/-- OPCODE of a request (R197). -/
def reqOp (r : BitVec 2048) : Nat := byteField r 0 1

/-- A learn submission waits: for the next span when its rate is used up, and on a mirroring active for every change that is queued before it,
so that learning and requests stay one insertion path on both twins (R191, R200). -/
def Dev.learnWaits (d : Dev) : Bool := !d.mayLearn || (d.mirrorOn && d.tbl.queue.any fun q => opChanges (reqOp q.req))

/-- LEARN_APPLY: the next submission takes its outcome (R191), while the pair that runs the learning agent runs (R366, R367). DESIGN CHOICE (25): the
table of R191 has no row for a key whose entry is poisoned: the entry stays as it is until software rewrites it (R188), and nothing is counted. -/
def learnApply (d : Dev) : Dev :=
  if d.serviceRuns F.CTL_SVC_MAP_LEARN = false ∨ d.learnWaits = true then d else
  match d.tbl.learnQ with
  | [] => d
  | s :: rest =>
    let d0 := { d with tbl := { d.tbl with learnQ := rest } }.countLearn
    match d0.exactPlace d0.liveTag s.table with
    | none => d0.bump F.TBL_LEARN_BAD
    | some (sc, p) =>
      let key := s.key % 2 ^ p.keyBits
      let t := d0.ageTick sc
      let v := d0.learnView
      let d1 := d0.countOps 1
      match v.insertPlan p key with
      | .present i =>
        let e := v.entry p.kind i
        if v.poisoned p.kind i then d1
        else if exStatic p.kind e then d1.bump F.TBL_LEARN_STATIC
        else if exResult p.kind e = s.result then d1.learnWrites s.table p [(i, exSetAge p.kind e t)] key
        else
          let e1 := exSetAge p.kind (setBits e (8 * exOfs p.kind + 63) (8 * exOfs p.kind) s.result) t
          ((d1.learnWrites s.table p [(i, e1)] key).bump F.TBL_LEARN_MOVE).learnEvent s 2
      | .room i n ws =>
        let d2 := (d1.countOps n).bumpN F.TBL_RELOC_MOVES n
        ((d2.learnWrites s.table p (ws ++ [(i, exEntry p.kind key s.result t false true)]) key).bump F.TBL_LEARN_NEW).learnEvent s 1
      | .noRoom => (d1.bump F.TBL_LEARN_FAIL).insertNoRoom s.table p 2

/-! ### The commands -/

/-- LEARN_APPLY (R191). -/
def execLearnApply (s : State) : Host.Outcome State Fault Refusal := .next { s with dev := learnApply s.dev }
/-- SNAPSHOT_COPY_DONE (R186). -/
def execSnapshotCopyDone (ok : Bool) (copied : Nat) (s : State) : Host.Outcome State Fault Refusal :=
  .next { s with dev := snapshotCopyDone ok copied s.dev }

end Sys2Proof.Machine
end

