-- ==== Sys2Proof/Machine/ImgFmt.lean ====
section
/-! DEFINITION. The Skovirt image format and the loader's checks, in the order of R83 (R62 to R80, R90, R105, R168, R171, R294). -/

namespace Sys2Proof.Machine

/-! ### Load causes (R103) -/

namespace LoadCause
def header : Nat := 1
def part : Nat := 2
def length : Nat := 3
def sectionTable : Nat := 4
def sectionCrc : Nat := 5
def svn : Nat := 6
def fwVersion : Nat := 7
def resource : Nat := 8
def metadata : Nat := 9
def portMode : Nat := 10
def walkCompat : Nat := 11
def walkShared : Nat := 12
def walkTcam : Nat := 13
def dma : Nat := 14
def aborted : Nat := 15
def checkUnit : Nat := 16
end LoadCause

/-- A failed check: its cause, the section-table index and the byte offset reached. -/
structure LoadFail where
  cause : Nat
  section_ : Nat
  ofs : Nat
  deriving DecidableEq, Repr

/-- The number in `n` bytes of the image from byte `k`. -/
def at_ (l : List Byte) (k n : Nat) : Nat := leNat (bytesAt l k n)

/-- Are `n` bytes from byte `k` all 0x00? -/
def zeroAt (l : List Byte) (k n : Nat) : Bool := (bytesAt l k n).all (· == 0)

/-- The first multiple of 64 at or after `n`. -/
def align64 (n : Nat) : Nat := (n + 63) / 64 * 64

/-- The largest image. -/
def imageMax : Nat := 33554432

/-! ### Header, part and versions (R63; R83 steps 1 to 3) -/

/-- Steps 1 to 3: the cause of the first failure, 0 for none. -/
def headerCause (l : List Byte) (len : Nat) (variantS : Bool) (minSvn fw : Nat) : Nat :=
  if at_ l 252 4 ≠ crc32c (bytesAt l 0 252) ∨ bytesAt l 0 8 ≠ [0x53, 0x4B, 0x4F, 0x56, 0x49, 0x52, 0x54, 0x00] ∨ at_ l 8 2 ≠ 1 then
    LoadCause.header
  else if at_ l 16 4 ≠ len ∨ len % 64 ≠ 0 ∨ len > imageMax then LoadCause.length
  else if at_ l 28 4 + 256 ≠ len ∨ at_ l 24 4 ≠ 256 ∨ at_ l 20 2 < 10 ∨ at_ l 20 2 > 64 then LoadCause.header
  else if at_ l 10 2 = 0 ∧ (at_ l 14 1 ≥ 4 ∨ !zeroAt l 22 2 ∨ !zeroAt l 36 4 ∨ !zeroAt l 112 140) then LoadCause.header
  else if at_ l 12 2 ≠ 0x9640 ∨ (at_ l 14 1 >>> (if variantS then 1 else 0)) % 2 = 0 ∨ at_ l 15 1 > 0xA1 then LoadCause.part
  else if at_ l 32 2 < minSvn then LoadCause.svn
  else if at_ l 34 2 > fw then LoadCause.fwVersion
  else 0

/-! ### The section table (R64 to R66; R83 steps 4 and 5) -/

/-- A section-table entry, with its index. -/
structure SecEntry where
  idx : Nat
  type : Nat
  ofs : Nat
  len : Nat
  crc : Nat
  count : Nat
  size : Nat
  deriving DecidableEq, Repr

/-- Entry `i` of the section table. -/
def secEntry (l : List Byte) (i : Nat) : SecEntry :=
  let b := 256 + 32 * i
  ⟨i, at_ l b 2, at_ l (b + 4) 4, at_ l (b + 8) 4, at_ l (b + 12) 4, at_ l (b + 16) 4, at_ l (b + 20) 4⟩

/-- The record size and the least and greatest record count of a section type (R66). -/
def secRule (t : Nat) : Option (Nat × Nat × Nat) :=
  [(1, 32, 1, 40), (2, 64, 1, 512), (3, 128, 1, 64), (4, 64, 1, 256), (5, 16, 1, 256), (6, 16, 1, 65536), (7, 16, 1, 32768),
   (8, 16, 0, 65536), (9, 16, 128, 128), (10, 128, 1, 1)].lookup t

/-- Is the entry itself as R65 asks? -/
def SecEntry.legal (e : SecEntry) : Bool :=
  match secRule e.type with
  | some (size, lo, hi) => e.size == size && e.len == e.count * e.size && lo ≤ e.count && e.count ≤ hi
  | none => 0x8000 ≤ e.type

/-- The index of the first entry that R65 refuses, where `prev` is the end of what lies before it; the last index when only the
signature block is misplaced or a type is missing. -/
def tableBad (l : List Byte) (sig : Nat) : List SecEntry → Nat → List Nat → Option Nat
  | [], prev, seen =>
    if sig = align64 prev ∧ zeroAt l prev (sig - prev) = true ∧ (List.range 10).all (fun t => seen.contains (t + 1)) = true then none
    else some (at_ l 20 2 - 1)
  | e :: rest, prev, seen =>
    if e.legal = false ∨ e.ofs ≠ align64 prev ∨ e.ofs + e.len > sig ∨ zeroAt l prev (e.ofs - prev) = false ∨
       (e.type ≤ 10 ∧ seen.contains e.type = true) then some e.idx
    else tableBad l sig rest (e.ofs + e.len) (e.type :: seen)

/-- The first section whose CRC-32C differs from its entry. -/
def crcBad (l : List Byte) (es : List SecEntry) : Option SecEntry := es.find? fun e => crc32c (bytesAt l e.ofs e.len) != e.crc

/-! ### The sections -/

/-- The section of a type: its bytes, and its table index. -/
def secOf (l : List Byte) (es : List SecEntry) (t : Nat) : List Byte × Nat :=
  match es.find? (fun e => e.type == t) with
  | some e => (bytesAt l e.ofs e.len, e.idx)
  | none => ([], 0)

/-- A section's records of `n` bytes. -/
def recordsOf (n : Nat) (l : List Byte) : List (List Byte) := (List.range (l.length / n)).map fun i => bytesAt l (n * i) n

/-- A PIER_LAYOUT record (R67). -/
def readStage (r : List Byte) : StageRec :=
  { pipe := at_ r 0 1, stage := at_ r 1 1, pred := at_ r 2 1 % 2 == 1, builder := at_ r 3 1, table := at_ r 4 2, blocks := at_ r 6 2,
    hitBase := at_ r 8 4, missAction := at_ r 12 4 }

/-- A TABLE_SCHEMAS record (R69). -/
def readSchema (r : List Byte) : Schema :=
  { kind := at_ r 0 1, ageing := at_ r 1 1 % 2 == 1, learn := at_ r 1 1 / 2 % 2 == 1, keyBits := at_ r 2 2, resultBits := at_ r 4 2,
    ageK := at_ r 6 1, capacity := at_ r 8 4, base := at_ r 12 4, seed0 := at_ r 16 4, seed1 := at_ r 20 4, ageLimit := at_ r 24 2 }

/-- A METADATA_LAYOUT record (R72). -/
def readField (r : List Byte) : FieldRec := { id := at_ r 0 2, ofs := at_ r 2 2, width := at_ r 4 2, reach := at_ r 6 1 % 4 }

/-- A TM_PROFILE record (R74). -/
def readTm (r : List Byte) : TmRec := { kind := at_ r 0 1, first := at_ r 4 4, count := at_ r 8 4, value := at_ r 12 4 }

/-- A PORT_MAP record (R76). -/
def readPort (r : List Byte) : PortRec :=
  { present := at_ r 1 1 % 2 == 1, sysPort := at_ r 2 2 % 16384, octet := at_ r 4 1, mode := at_ r 5 1, firstLane := at_ r 6 1,
    lanes := at_ r 7 1, eqBase := at_ r 8 4, root := at_ r 12 2 }

/-- The values that COMPAT must hold (R78): COMPAT_ID, TCAM_KEY_ID, SHARED_DIGEST, ING_STAGES, EGR_STAGES. -/
structure Compat where
  id : Nat
  tcamKey : Nat
  shared : Nat
  ing : Nat
  egr : Nat
  deriving DecidableEq, Repr

/-- The derived values. -/
def deriveCompat (l : List Byte) (es : List SecEntry) (stages : List StageRec) : Compat :=
  let sec (t : Nat) := (secOf l es t).1
  let named := (stages.filter fun s => s.blocks != 0 && s.builder != 0xFF).insertionSort fun a b => 32 * a.pipe + a.stage ≤ 32 * b.pipe + b.stage
  { id := leNat ((shake256 (sec 5) 64).take 4),
    tcamKey := leNat ((shake256 (named.flatMap fun s => bytesAt (sec 3) (128 * s.builder) 128) 64).take 4),
    shared := leNat ((shake256 (sec 4 ++ sec 5 ++ sec 8 ++ sec 9) 64).take 32),
    ing := (stages.filter fun s => s.pipe == 0).length, egr := (stages.filter fun s => s.pipe == 1).length }

/-- The stored values. -/
def readCompat (r : List Byte) : Compat :=
  { id := at_ r 0 4, tcamKey := at_ r 4 4, shared := at_ r 8 32, ing := at_ r 40 2, egr := at_ r 42 2 }

/-- The image that the bytes hold, once its sections are found. -/
def readImage (l : List Byte) (es : List SecEntry) : Image :=
  let sec (t : Nat) := (secOf l es t).1
  let stages := (recordsOf 32 (sec 1)).map readStage
  let c := deriveCompat l es stages
  let sig := l.length - 256
  { len := l.length, svn := at_ l 32 2, compatId := c.id, tcamKeyId := c.tcamKey, sharedDigest := BitVec.ofNat 256 c.shared,
    digest := BitVec.ofNat 512 (leNat (shake256 (l.take sig) 64)), keySlot := at_ l (sig + 5) 1, stages := stages,
    states := (recordsOf 64 (sec 2)).map fun r => BitVec.ofNat 512 (leNat r),
    builders := (recordsOf 128 (sec 3)).map fun r => BitVec.ofNat 1024 (leNat r),
    schemas := (recordsOf 64 (sec 4)).map readSchema, fields := (recordsOf 16 (sec 5)).map readField,
    ingress := (recordsOf 16 (sec 6)).map fun r => BitVec.ofNat 128 (leNat r),
    egress := (recordsOf 16 (sec 7)).map fun r => BitVec.ofNat 128 (leNat r),
    tm := (recordsOf 16 (sec 8)).map readTm, ports := (recordsOf 16 (sec 9)).map readPort }

/-! ### Cross-checks (R83 step 6) -/

/-- Does `p` hold of two items of the list, each with a later one? -/
def anyPair {α : Type} (p : α → α → Bool) : List α → Bool
  | [] => false
  | a :: t => t.any (p a) || anyPair p t

/-- A KEY_BUILDERS record that R68 refuses, at index `i`. -/
def builderBad (i : Nat) (r : BitVec 1024) : Bool :=
  let n := byteField r 1 1
  let ws := (List.range (min n 28)).map fun e => byteField r (16 + 4 * e) 1
  byteField r 0 1 != (if i < 48 then 0 else 1) || n < 1 || n > 28 || ws.any (fun w => w < 1 || w > 128) ||
    byteField r 2 2 > 640 || byteField r 2 2 != ws.sum

/-- A PARSE_GRAPH record that R68 refuses in a section of `n` records. -/
def stateBad (n : Nat) (r : BitVec 512) : Bool :=
  let unnamed (x : Nat) : Bool := x < 512 && n ≤ x
  byteField r 10 1 > 16 || byteField r 11 1 > 6 || unnamed (byteField r 12 2) ||
    (List.range (min 6 (byteField r 11 1))).any fun t => unnamed (byteField r (20 + 8 * t) 2)

/-- The kinds that an egress stage can read (R68). -/
def egressKind (k : Nat) : Bool := (7 ≤ k && k ≤ 10) || k == 12

/-- A PIER_LAYOUT record that R68 refuses. -/
def stageBad (im : Image) (s : StageRec) : Bool :=
  let prog := if s.pipe = 0 then im.ingress.length else im.egress.length
  s.pipe > 1 || s.stage ≥ (if s.pipe = 0 then 24 else 16) || (s.pipe == 1 && s.blocks ≥ 16) ||
    (s.builder != 0xFF && (im.builders.length ≤ s.builder || (decide (48 ≤ s.builder)) != (s.pipe == 1))) ||
    (s.table != 0xFFFF && match im.schemas[s.table]? with
      | some t => s.pipe == 1 && !egressKind t.kind
      | none => true) ||
    prog ≤ s.missAction || ((s.table != 0xFFFF || s.blocks != 0) && prog ≤ s.hitBase)

/-- Two stages of one pipe that are the same stage, or share a TCAM block. -/
def stagesClash (a b : StageRec) : Bool := a.pipe == b.pipe && (a.stage == b.stage || a.blocks &&& b.blocks != 0)

/-- The capacity of a kind in the units of its schemas (R160, R149). -/
def schemaCap (k : Nat) : Nat :=
  if k = 1 then 25165824 else if k = 11 then 16384 else if k = 12 then 4096 else kindCap k

/-- A TABLE_SCHEMAS record that R70, R168 or R171 refuses. -/
def schemaBad (t : Schema) : Bool :=
  t.kind == 0 || t.kind > 12 || t.ageK > 20 || schemaCap t.kind < t.base + t.capacity ||
    (t.kind == 1 && ((t.keyBits != 48 && t.keyBits != 144) || t.resultBits < 16 || t.resultBits > 48)) ||
    (2 ≤ t.kind && t.kind ≤ 6 &&
      (t.keyBits < 1 || t.keyBits > (if t.kind = 2 then 128 else 320) || t.resultBits < 16 || t.resultBits > 64 ||
       t.capacity < 1024 || t.capacity != 2 ^ Nat.log2 t.capacity || t.base % t.capacity != 0 || (t.learn && t.keyBits > 256)))

/-- Two tables of one kind that overlap. -/
def schemasClash (a b : Schema) : Bool :=
  a.kind == b.kind && a.base < b.base + b.capacity && b.base < a.base + a.capacity && 0 < a.capacity && 0 < b.capacity

/-- A METADATA_LAYOUT record that R72, R73 or R140 refuses. DESIGN CHOICE (19): a WIDTH outside the 1–128 that R72 allows, which R73 does not list,
fails the load with METADATA too. -/
def fieldBad (f : FieldRec) : Bool :=
  f.width < 1 || f.width > 128 || 1024 < f.ofs + f.width ||
    (f.id < 0x40 && !deviceFields.any fun x => x.id == f.id && x.ofs == f.ofs && x.width == f.width)

/-- Two fields that overlap. -/
def fieldsClash (a b : FieldRec) : Bool := a.ofs < b.ofs + b.width && b.ofs < a.ofs + a.width

/-- A TM_PROFILE record that R74 or R75 refuses. -/
def tmBad (r : TmRec) : Bool :=
  let lim := if r.kind = 3 then 64 else if r.kind = 5 then 65536 else 524288
  r.kind < 1 || r.kind > 5 || r.count == 0 || lim < r.first + r.count || (r.kind == 1 && r.value % 8 == 0) ||
    (r.kind == 3 && r.value > 7) || (r.kind == 5 && r.value >>> 16 == 0)

/-- The fields of a port that only a live load sets (R77). -/
def portFixed (a b : PortRec) : Bool := a.octet == b.octet && a.mode == b.mode && a.firstLane == b.firstLane && a.lanes == b.lanes

/-- Ports per octet of a MODE; 0: no such mode (R104). -/
def modePorts (m : Nat) : Nat := if m = 1 then 1 else if m = 2 then 2 else if m = 3 then 4 else if m = 4 ∨ m = 5 then 8 else 0

/-- A present port `p` that R105 refuses. -/
def portBad (p : Nat) (r : PortRec) : Bool :=
  let n := modePorts r.mode
  r.present && (r.octet != p / 8 || n ≤ p % 8 || r.lanes != 8 / n || r.firstLane != (p % 8) * (8 / n))

/-- PORT_MAP breaks R105; `nums` are the PORT bytes of its records. -/
def portMapBad (ports : List PortRec) (nums : List Nat) : Bool :=
  nums != List.range 128 || ports.zipIdx.any (fun x => portBad x.2 x.1) ||
    anyPair (fun (a b : PortRec) => a.present && b.present && a.octet == b.octet && a.mode != b.mode) ports

/-- Step 6: the cause and the section type of the first failure. `live` is the live image that a staged or walk load compares with. -/
def crossCause (l : List Byte) (es : List SecEntry) (im : Image) (target : Nat) (live : Option Image) : Option (Nat × Nat) :=
  if im.builders.zipIdx.any (fun x => builderBad x.2 x.1) then some (LoadCause.resource, 3)
  else if im.states.any (stateBad im.states.length) then some (LoadCause.resource, 2)
  else if im.stages.any (stageBad im) ∨ anyPair stagesClash im.stages = true then some (LoadCause.resource, 1)
  else if im.schemas.any schemaBad ∨ anyPair schemasClash im.schemas = true then some (LoadCause.resource, 4)
  else if im.fields.any fieldBad ∨ anyPair fieldsClash im.fields = true ∨ fmdWords (some im) > 16 ∨
      deviceFields.any (fun x => !im.fields.any fun f => f.id == x.id) = true then some (LoadCause.metadata, 5)
  else if im.tm.any tmBad then some (LoadCause.resource, 8)
  else if target ≠ 0 ∧ (match live with
      | some v => (im.ports.zip v.ports).any fun x => !portFixed x.1 x.2
      | none => false) = true then some (LoadCause.portMode, 9)
  else if readCompat (secOf l es 10).1 ≠ deriveCompat l es im.stages then some (LoadCause.metadata, 10)
  else if portMapBad im.ports ((recordsOf 16 (secOf l es 9).1).map fun r => at_ r 0 1) then some (LoadCause.portMode, 9)
  else if target ≠ 2 then none
  else match live with
    | none => none
    | some v =>
      if im.compatId ≠ v.compatId then some (LoadCause.walkCompat, 10)
      else if im.sharedDigest ≠ v.sharedDigest then some (LoadCause.walkShared, 10)
      else if im.tcamKeyId ≠ v.tcamKeyId then some (LoadCause.walkTcam, 10)
      else none

/-- Steps 1 to 6 of R83: the image, or the failure that stopped the load. -/
def checkImage (l : List Byte) (len : Nat) (variantS : Bool) (minSvn fw target : Nat) (live : Option Image) : LoadFail ⊕ Image :=
  let c := headerCause l len variantS minSvn fw
  if c ≠ 0 then .inl ⟨c, 0, min 256 len⟩ else
  let es := (List.range (at_ l 20 2)).map (secEntry l)
  let tblEnd := 256 + 32 * es.length
  match tableBad l (len - 256) es tblEnd [] with
  | some i => .inl ⟨LoadCause.sectionTable, i, min tblEnd len⟩
  | none =>
    match crcBad l es with
    | some e => .inl ⟨LoadCause.sectionCrc, e.idx, e.ofs + e.len⟩
    | none =>
      let im := readImage l es
      match crossCause l es im target live with
      | some (c, t) => .inl ⟨c, (secOf l es t).2, len - 256⟩
      | none => .inr im

/-! ### The signature (R79, R80, R429) -/

/-- The context string of image signatures, "VY-SKOVIRT". -/
def imageContext : List Byte := [0x56, 0x59, 0x2D, 0x53, 0x4B, 0x4F, 0x56, 0x49, 0x52, 0x54]

/-- The cause of a signature block's failure over a digest (IMG_SIG_FAIL byte 26): 0 none, 1 key digest, 2 signature, 3 ALG or MAGIC.
`keys` are the fused digests and `revoked` the revoked slots. -/
def sigCause (ctx blk digest : List Byte) (keys : List (BitVec 512)) (revoked : Nat) : Nat :=
  let slot := at_ blk 5 1
  let key := bytesAt blk 24 57
  if bytesAt blk 0 4 ≠ [0x53, 0x4B, 0x53, 0x47] ∨ at_ blk 4 1 ≠ 1 then 3
  else if (revoked >>> slot) % 2 = 1 ∨ keys[slot]? ≠ some (BitVec.ofNat 512 (leNat (shake256 key 64))) then 1
  else if edVerify 1 ctx key digest (bytesAt blk 88 114) then 0 else 2

end Sys2Proof.Machine
end

