-- ==== Sys2Proof/Machine/Stroke.lean ====
section
/-! DEFINITION. What a stroke does to one packet: the parse graph, the header vector, key builders, TCAM searches, stages and action words
(R129 to R158, R162 to R165, R179, R180). -/

namespace Sys2Proof.Machine

/-! ### The stroke in progress -/

/-- A header instance: its ID, offset and length, and whether a state with V4_CKSUM recorded it (R139, R146). -/
structure Hdr where
  id : Nat
  ofs : Nat
  len : Nat
  v4 : Bool
  deriving DecidableEq, Repr

/-- A stroke of one packet: the pier and pipe (0 ingress, 1 egress), the image, the header vector, the stage result, what the limits of R165 and
R180 count, and what its end acts on: IPv4 headers changed (offset, and the length that a V4_CKSUM state recorded), encapsulations whose
lengths are set, a recirculation, a punt. -/
structure Stroke where
  pier : Nat
  pipe : Nat
  im : Option Image
  pkt : Packet
  hdrs : List Hdr
  result : Nat
  counts : Nat
  meters : Nat
  pushes : Nat
  v4 : List (Nat × Option Nat)
  fix : List (Nat × BitVec 1024)
  recirc : Bool
  punt : Option Nat
  deriving DecidableEq, Repr

/-- The stroke with its packet's metadata field set. -/
def Stroke.setMd (st : Stroke) (f : MdFld) (v : Nat) : Stroke := { st with pkt := st.pkt.setMd f v }

/-- A drop: DROP = 1, the first reason stays (R146, R148). -/
def dropPkt (p : Packet) (reason : Nat) : Packet :=
  let p1 := p.setMd Md.drop 1
  if p.get Md.dropReason = 0 then p1.setMd Md.dropReason reason else p1

/-- The stroke with its packet dropped. -/
def Stroke.drop (st : Stroke) (reason : Nat) : Stroke := { st with pkt := dropPkt st.pkt reason }

/-! ### Bits of the packet: bit 0 is the most significant of byte 0 -/

/-- `n` bits from bit `k` of a number of `total` bits, whose first bit is its most significant; bits past its end read 0. -/
def bitsFrom (x total k n : Nat) : Nat :=
  if k + n ≤ total then (x >>> (total - k - n)) % 2 ^ n else (x <<< (k + n - total)) % 2 ^ n

/-- The parse window: the first 256 bytes of the packet. -/
def windowOf (l : List Byte) : Nat := beNat (bytesAt l 0 256)

/-- The packet's bytes with `n` bits from bit `k` replaced by `v`; bits beyond the packet are discarded (R146 SET_HDR). -/
def writeBits (l : List Byte) (k n v : Nat) : List Byte :=
  let b0 := k / 8
  let b1 := (k + n + 7) / 8
  let w := b1 - b0
  let sh := 8 * w - k % 8 - n
  let old := beNat (bytesAt l b0 w)
  let new := old - (((old >>> sh) % 2 ^ n) <<< sh) + ((v % 2 ^ n) <<< sh)
  l.take b0 ++ ((beBytes w new).take (l.length - b0)) ++ l.drop b1

/-- The ones'-complement sum of 16-bit words, folded. -/
def onesSum (l : List Byte) : Nat :=
  let l := if l.length % 2 = 1 then l ++ [0] else l
  let s := ((List.range (l.length / 2)).map fun i => beNat ((l.drop (2 * i)).take 2)).sum
  let s1 := s % 65536 + s / 65536
  s1 % 65536 + s1 / 65536

/-- Two bytes written at an offset, if they lie in the packet. -/
def put16 (l : List Byte) (k v : Nat) : List Byte := if k + 2 ≤ l.length then l.take k ++ beBytes 2 v ++ l.drop (k + 2) else l

/-- The IPv4 header checksum at an offset recomputed over `n` bytes. -/
def v4Sum (l : List Byte) (h n : Nat) : List Byte :=
  let z := put16 l (h + 10) 0
  put16 z (h + 10) (65535 - onesSum ((z.drop h).take n))

/-- The checksum of a changed IPv4 header (R146): over the length that a V4_CKSUM state recorded, which its check sums; otherwise over IHL. -/
def v4Checksum (l : List Byte) (x : Nat × Option Nat) : List Byte :=
  let h := x.1
  match x.2 with
  | some n => if n < 12 ∨ h + n > l.length then l else v4Sum l h n
  | none =>
    let b := (l.getD h 0).toNat
    let n := (b % 16) * 4
    if h + 20 > l.length ∨ b / 16 ≠ 4 ∨ n < 20 ∨ h + n > l.length then l else v4Sum l h n

/-! ### The parse graph (R136 to R139) -/

/-- The fields of a PARSE_GRAPH record. -/
def psHdr (r : BitVec 512) : Nat := byteField r 0 1
/-- EXTRACT. -/
def psExtract (r : BitVec 512) : Bool := bitOn r 8
/-- V4_CKSUM. -/
def psV4 (r : BitVec 512) : Bool := bitOn r 9
/-- The transition that a select value takes: the first that matches, otherwise DEFAULT_NEXT. -/
def psNext (r : BitVec 512) (sel : Nat) : Nat :=
  match (List.range (min 6 (byteField r 11 1))).find? fun t =>
      let m := byteField r (18 + 8 * t) 2
      sel &&& m == byteField r (16 + 8 * t) 2 &&& m with
  | some t => byteField r (20 + 8 * t) 2
  | none => byteField r 12 2

/-- How parsing ended: the vector, and the error with its state (error 0: none). -/
structure Parsed where
  hdrs : List Hdr
  err : Nat
  state : Nat

/-- The error of reading a byte (R138): 2 beyond the packet, 1 beyond the window. -/
def beyond (len k : Nat) : Nat := if k ≥ len then 2 else if k ≥ 256 then 1 else 0

/-- The walk of the parse graph: `n` states may still be entered. -/
def parseFrom (sts : List (BitVec 512)) (l : List Byte) (w : Nat) : Nat → Nat → Nat → List Hdr → Parsed
  | 0, state, _, hs => ⟨hs, 3, state⟩
  | n + 1, state, at', hs =>
    match sts[state]? with
    | none => ⟨hs, 4, state⟩
    | some r =>
      let mask := byteField r 5 1
      let lb := at' + byteField r 4 1
      let e1 := if mask = 0 then 0 else beyond l.length lb
      if e1 ≠ 0 then ⟨hs, e1, state⟩ else
      let var := (((l.getD lb 0).toNat &&& mask) >>> (byteField r 6 1 % 8)) * 2 ^ (byteField r 6 1 / 16 % 4)
      let len := byteField r 2 2 + (if mask = 0 then 0 else var)
      let hs1 := if psExtract r && hs.length < 32 then hs ++ [⟨psHdr r, at', len, psV4 r⟩] else hs
      let e2 := if psV4 r && len != 0 then beyond l.length (at' + len - 1) else 0
      if e2 ≠ 0 then ⟨hs1, e2, state⟩
      else if psV4 r && onesSum (bytesAt l at' len) != 65535 then ⟨hs1, 5, state⟩
      else
        let sw := byteField r 10 1
        let first := 8 * at' + byteField r 8 2 % 2048
        let e3 := if sw = 0 then 0 else beyond l.length ((first + sw - 1) / 8)
        if e3 ≠ 0 then ⟨hs1, e3, state⟩
        else
          let nx := if sw = 0 then byteField r 12 2 else psNext r (bitsFrom w 2048 first sw)
          if nx = 0xFFFF then ⟨hs1, 0, state⟩
          else if nx > 511 then ⟨hs1, 4, state⟩
          else parseFrom sts l w n nx (at' + len) hs1

/-- The instances of a header ID, in parse order, with their places in the vector. -/
def Stroke.instances (st : Stroke) (id : Nat) : List (Nat × Hdr) :=
  ((List.range st.hdrs.length).zip st.hdrs).filter fun h => h.2.id == id

/-- A header instance by number; 15 names the last (R139). -/
def Stroke.hdr (st : Stroke) (id inst : Nat) : Option (Nat × Hdr) :=
  if inst = 15 then (st.instances id).getLast? else (st.instances id)[inst]?

/-- Bits of a header, read on into the window past its end; an absent instance reads 0 (R139, R144). -/
def Stroke.hdrBits (st : Stroke) (id inst k n : Nat) : Nat :=
  match st.hdr id inst with
  | some h => bitsFrom (windowOf st.pkt.bytes) 2048 (8 * h.2.ofs + k) n
  | none => 0

/-! ### Key builders (R143, R144, R157) -/

/-- A key-builder record of the image. -/
def Stroke.builder (st : Stroke) (n : Nat) : Option (BitVec 1024) :=
  match st.im with
  | some im => im.builders[n]?
  | none => none

/-- KEY_BITS of a record. -/
def kbBits (r : BitVec 1024) : Nat := byteField r 2 2

/-- The values and widths of a record's extractions. -/
def Stroke.extracts (st : Stroke) (r : BitVec 1024) : List (Nat × Nat) :=
  (List.range (min 28 (byteField r 1 1))).map fun e =>
    let x := byteField r (16 + 4 * e) 4
    let w := x % 256
    if x ≥ 2 ^ 31 then ((st.pkt.md.toNat >>> (x / 2 ^ 21 % 1024)) % 2 ^ w, w)
    else (st.hdrBits (x / 2 ^ 23 % 256) (x / 2 ^ 19 % 16) (x / 256 % 2048) w, w)

/-- Extractions packed, the first at the bottom: the key and its width. -/
def packKey (l : List (Nat × Nat)) : Nat × Nat :=
  l.foldl (fun a x => (a.1 + (x.1 <<< a.2), a.2 + x.2)) (0, 0)

/-- The key a key builder builds. -/
def Stroke.key (st : Stroke) (r : BitVec 1024) : Nat := (packKey (st.extracts r)).1 % 2 ^ kbBits r

/-- Extractions `i` and `i + 1` put in order, each in the width of the wider (R157). -/
def orderPair (on : Bool) (i : Nat) (l : List (Nat × Nat)) : List (Nat × Nat) :=
  match on, l[i]?, l[i + 1]? with
  | true, some a, some b =>
    let w := max a.2 b.2
    l.take i ++ [(min a.1 b.1, w), (max a.1 b.1, w)] ++ l.drop (i + 2)
  | _, _, _ => l

/-- The symmetric hash of a key builder under a seed (R157). -/
def Stroke.symHash (st : Stroke) (r : BitVec 1024) (seed : Nat) : Nat :=
  let ex := orderPair (bitOn r 49) 2 (orderPair (bitOn r 48) 0 (st.extracts r))
  let (k, n) := packKey ex
  crc32cFrom seed (leBytes ((n + 7) / 8) k)

/-! ### TCAM searches (R149 to R152) -/

/-- A row's place in the stores. -/
def tcamKey (pier pipe row : Nat) : Nat := 32768 * pier + 16384 * pipe + row
/-- A live row. -/
def Dev.tcamRow (d : Dev) (pier pipe row : Nat) : TcamRow := d.pir.live.get (fun _ => TcamRow.reset) (tcamKey pier pipe row)

/-- Rows per entry for a CHAIN. -/
def chainRows (c : Nat) : Nat := if c = 0 then 1 else if c = 1 then 2 else 4
/-- The CHAIN of a key width. -/
def chainOf (bits : Nat) : Nat := if bits ≤ 160 then 0 else if bits ≤ 320 then 1 else 2

/-- The range fields enabled in an entry: their key bits, by record place. -/
def rangeOfs (r : BitVec 1024) (en : Nat) : List Nat :=
  ((List.range 4).filter fun i => (en >>> i) % 2 == 1 && byteField r (8 + 2 * i) 2 != 0xFFFF).map fun i =>
    byteField r (8 + 2 * i) 2 / 16 * 16

/-- Does an entry of rows match a key (R150)? -/
def entryMatches (rows : List TcamRow) (rng : List Nat) (key : Nat) : Bool :=
  let kb := ((List.range rows.length).zip rows).map fun r => r.2.key.toNat <<< (160 * r.1)
  let mb := ((List.range rows.length).zip rows).map fun r => r.2.mask.toNat <<< (160 * r.1)
  let k := kb.sum
  let m := mb.sum
  let free := rng.foldl (fun a o => a ||| (65535 <<< o)) 0
  let care := m ^^^ (m &&& free)
  (key &&& care) == (k &&& care) && rng.all fun o =>
    (k >>> o) % 65536 ≤ (key >>> o) % 65536 && (key >>> o) % 65536 ≤ (m >>> o) % 65536

/-- The rows of the entry at a first row, if it may match under a CHAIN: every row valid and of that width. -/
def Dev.tcamEntry (d : Dev) (pier pipe row c : Nat) : Option (List TcamRow) :=
  let rows := (List.range (chainRows c)).map fun i => d.tcamRow pier pipe (row + i)
  if rows.all fun r => r.valid && r.chain == c then some rows else none

/-- The blocks a stage searches: those set, less those whose tag differs (R152). -/
def Dev.searchBlocks (d : Dev) (pier pipe blocks : Nat) (r : Option (BitVec 1024)) (key : Nat) : List Nat :=
  (List.range (if pipe = 0 then 16 else 4)).filter fun b =>
    (blocks >>> b) % 2 == 1 && match r with
      | some r =>
        let t := byteField r 4 2
        if t = 0xFFFF then true
        else
          let n := if pipe = 0 then b else 16 + b
          let v := d.rd ((F.PIR_TCAM_BLKTAG_VALUE.ix n).pier pier)
          let m := d.rd ((F.PIR_TCAM_BLKTAG_MASK.ix n).pier pier)
          ((key >>> t) % 64 ^^^ v) &&& m == 0
      | none => true

/-- The rows of a pier's TCAM that any entry has been written to, in order: an unwritten row never matches. -/
def Dev.writtenRows (d : Dev) (pier pipe : Nat) : List Nat :=
  (d.pir.live.filter fun x => tcamKey pier pipe 0 ≤ x.1 && x.1 < tcamKey pier pipe 0 + 16384).map fun x => x.1 - tcamKey pier pipe 0

/-- A TCAM search: the result of the matching entry with the lowest first row (R151). -/
def Dev.tcamSearch (d : Dev) (pier pipe blocks : Nat) (r : Option (BitVec 1024)) (key : Nat) : Option Nat :=
  let c := chainOf (match r with | some r => kbBits r | none => 0)
  let bs := d.searchBlocks pier pipe blocks r key
  (d.writtenRows pier pipe).findSome? fun row =>
    if row % chainRows c = 0 ∧ bs.contains (row / 1024) = true then
      match d.tcamEntry pier pipe row c with
      | some rows =>
        let first := rows.headD TcamRow.reset
        let rng := match r with | some r => rangeOfs r first.ranges | none => []
        if entryMatches rows rng key then some first.res.toNat else none
      | none => none
    else none

/-! ### Meters, counters, encapsulations in a stroke (R163 to R165, R189) -/

/-- An update or push beyond its limits does nothing and is counted. -/
def Dev.opIgnored (d : Dev) : Dev := d.bump F.TBL_OP_IGNORED

/-- A stroke that meets poison: the packet is dropped with TBL_POISON (R189). -/
def Stroke.poison (st : Stroke) (t : Option Nat) (kind i : Nat) (d : Dev) : Stroke × Dev :=
  (st.drop Drop.tblPoison, d.poisonHit t kind i st.pier st.pipe)

/-- Count the packet in counter `i`; only an update that is made counts toward the limit (R165, R184, R189). -/
def Stroke.count (st : Stroke) (t : Option Nat) (i : Nat) (d : Dev) : Stroke × Dev :=
  if i ≥ kindCap 10 ∨ st.counts ≥ 4 then (st, d.opIgnored)
  else ({ st with counts := st.counts + (if d.poisoned 10 i then 0 else 1) }, d.countPacket t st.pier i (st.pkt.get Md.pktLen))

/-- Apply meter `i` and update COLOR (R165, R181 to R183). -/
def Stroke.meter (st : Stroke) (t : Option Nat) (i : Nat) (aware : Bool) (d : Dev) : Stroke × Dev :=
  if i ≥ kindCap 9 ∨ st.meters ≥ 2 then (st, d.opIgnored)
  else if d.poisoned 9 i then st.poison t 9 i d
  else
    let (c, d1) := d.applyMeter t st.pier i (st.pkt.get Md.color) (st.pkt.get Md.pktLen) aware
    let own := d.octetOf st.pier == some (byteField (d.meterOf st.pier i) 2 1 % 16)
    ({ st.setMd Md.color c with meters := st.meters + (if own then 1 else 0) }, d1)

/-! ### Header edits (R146, R180) -/

/-- The stroke with bytes inserted at an offset: headers and marks at or after it move on. -/
def Stroke.insertBytes (st : Stroke) (k : Nat) (l : List Byte) : Stroke :=
  let n := l.length
  { st with
    pkt := { st.pkt with bytes := st.pkt.bytes.take k ++ l ++ st.pkt.bytes.drop k }.setMd Md.pktLen (st.pkt.get Md.pktLen + n),
    v4 := st.v4.map fun x => if x.1 ≥ k then (x.1 + n, x.2) else x,
    fix := st.fix.map fun x => if x.1 ≥ k then (x.1 + n, x.2) else x }

/-- POP_HDR: the header's bytes go, later headers move up, PKT_LEN falls. -/
def Stroke.pop (st : Stroke) (id inst : Nat) : Stroke :=
  match st.hdr id inst with
  | none => st
  | some (j, h) =>
    let e := h.ofs + h.len
    let hs := ((List.range st.hdrs.length).zip st.hdrs).map fun x => if x.1 > j then { x.2 with ofs := x.2.ofs - h.len } else x.2
    { st with
      pkt := { st.pkt with bytes := st.pkt.bytes.take h.ofs ++ st.pkt.bytes.drop e }.setMd Md.pktLen
        (st.pkt.get Md.pktLen - h.len),
      hdrs := hs.eraseIdx j,
      v4 := (st.v4.filter fun x => !(h.ofs ≤ x.1 && x.1 < e)).map fun x => if x.1 ≥ e then (x.1 - h.len, x.2) else x,
      fix := (st.fix.filter fun x => !(h.ofs ≤ x.1 && x.1 < e)).map fun x => if x.1 ≥ e then (x.1 - h.len, x.2) else x }

/-- PUSH_HDR before a header that is present (R180). -/
def Stroke.pushAt (st : Stroke) (j : Nat) (h : Hdr) (d : Dev) : Stroke × Dev :=
  let i := st.pkt.get Md.encapIndex
  let e := d.entry 8 i
  let st1 := { st with pushes := st.pushes + 1 }
  if d.poisoned 8 i then st1.poison (d.tableAt 8 i) 8 i d
  else if bitOn e 792 = false then (st1.drop Drop.tblInvalid, d)
  else
    let n := min 96 (byteField e 96 1)
    let id := byteField e 97 1
    let st2 := st1.insertBytes h.ofs (leBytes n e.toNat)
    let hs := ((List.range st.hdrs.length).zip st.hdrs).map fun x => if x.1 ≥ j then { x.2 with ofs := x.2.ofs + n } else x.2
    let hs1 := if id ≠ 0 ∧ hs.length < 32 then hs.take j ++ [⟨id, h.ofs, n, false⟩] ++ hs.drop j else hs
    ({ st2 with hdrs := hs1, fix := if byteField e 98 1 % 8 = 0 then st2.fix else st2.fix ++ [(h.ofs, e)] }, d)

/-- The stroke with its packet's bytes edited in place: each header recorded under V4_CKSUM that the edit changed is noted (R146). -/
def Stroke.editBytes (st : Stroke) (new : List Byte) : Stroke :=
  let hit := st.hdrs.filter fun x => x.v4 && (st.pkt.bytes.drop x.ofs).take x.len != (new.drop x.ofs).take x.len
  { st with pkt := { st.pkt with bytes := new }, v4 := st.v4 ++ hit.map fun x => (x.ofs, some x.len) }

/-- DEC_TTL (R146). -/
def Stroke.decTtl (st : Stroke) (imm : Nat) : Stroke :=
  match st.hdr (imm / 256 % 256) (imm % 16) with
  | none => st
  | some (_, h) =>
    let l := st.pkt.bytes
    let ver := (l.getD h.ofs 0).toNat / 16
    let k := if ver = 4 then h.ofs + 8 else h.ofs + 7
    if (ver ≠ 4 ∧ ver ≠ 6) ∨ k ≥ l.length then st
    else
      let old := (l.getD k 0).toNat
      let st0 := st.editBytes (l.set k (BitVec.ofNat 8 (old - 1)))
      let st1 := { st0 with v4 := if ver = 4 ∧ old ≠ 0 ∧ h.v4 = false then st0.v4 ++ [(h.ofs, none)] else st0.v4 }
      if old > 1 then st1
      else if imm / 65536 % 2 = 1 then
        let q := imm / 2 ^ 24 % 64
        { (st1.setMd Md.destType 2).setMd Md.dest q with punt := some q }
      else st1.drop Drop.ttlExpired

/-- SET_HDR: bits written into a header (R146). -/
def Stroke.setHdr (st : Stroke) (id inst k n v : Nat) : Stroke :=
  match st.hdr id inst with
  | none => st
  | some (_, h) => st.editBytes (writeBits st.pkt.bytes (8 * h.ofs + k) n v)

/-- The end of a stroke's edits: the lengths that FIX bits choose, at egress, then the checksums of the IPv4 headers changed (R146,
R180). -/
def Stroke.finish (st : Stroke) : Stroke :=
  let n := st.pkt.bytes.length
  let fixes := if st.pipe = 1 then st.fix else []
  let (l, v) := fixes.foldl (fun a x =>
    let b := byteField x.2 98 1
    let h4 := x.1 + byteField x.2 100 1
    let hu := x.1 + byteField x.2 101 1
    let h6 := x.1 + byteField x.2 102 1
    let l1 := if b % 2 = 1 then put16 a.1 (h4 + 2) (n - h4) else a.1
    let l2 := if b / 2 % 2 = 1 then put16 (put16 l1 (hu + 4) (n - hu)) (hu + 6) 0 else l1
    let l3 := if b / 4 % 2 = 1 then put16 l2 (h6 + 4) (n - h6 - 40) else l2
    (l3, if b % 2 = 1 then a.2 ++ [(h4, none)] else a.2)) (st.pkt.bytes, st.v4)
  { st with pkt := { st.pkt with bytes := v.dedup.foldl v4Checksum l } }

/-! ### Action words (R145 to R148) -/

/-- May an opcode run in a pipe (R146)? -/
def opAllowed (op pipe : Nat) : Bool :=
  if op = 0x08 ∨ op = 0x09 ∨ op = 0x0C ∨ op = 0x11 ∨ op = 0x12 then pipe == 0
  else if op = 0x15 ∨ op = 0x16 then pipe == 1 else true

/-- Opcodes with a metadata destination. -/
def opHasDst (op : Nat) : Bool := (1 ≤ op && op ≤ 6) || op == 0x0D || op == 0x0E
/-- Opcodes with a source. -/
def opHasSrc (op : Nat) : Bool :=
  (1 ≤ op && op ≤ 6) || op == 0x08 || op == 0x09 || (0x0E ≤ op && op ≤ 0x10) || op == 0x12 || op == 0x16 || op == 0x17

/-- What a word does: the stroke after it, the device, the words to skip, and the fault case of R147 (0: none). -/
structure WordOut where
  st : Stroke
  dev : Dev
  skip : Nat
  fault : Nat

/-- A word that goes on with the next one. -/
def Stroke.goes (st : Stroke) (d : Dev) : WordOut := ⟨st, d, 0, 0⟩

/-- The stroke with a metadata destination of any place written. -/
def Stroke.putMd (st : Stroke) (ofs n v : Nat) : Stroke := { st with pkt := { st.pkt with md := setBits st.pkt.md (ofs + n - 1) ofs v } }

/-- The source value of a word (R145). -/
def Stroke.source (st : Stroke) (w : BitVec 128) (n : Nat) : Nat :=
  let sel := bits w 96 95
  let ofs := bits w 94 84
  if sel = 0 then bits w 63 0 % 2 ^ n
  else if sel = 1 then (st.pkt.md.toNat >>> ofs) % 2 ^ n
  else if sel = 2 then (st.result >>> ofs) % 2 ^ n
  else st.hdrBits (bits w 83 76) (bits w 75 72) ofs n

/-- A key builder named by HASH or LEARN: a record of the word's own pipe (R147 case 6). -/
def Stroke.namedBuilder (st : Stroke) (n : Nat) : Option (BitVec 1024) :=
  if (n ≥ 48) = (st.pipe = 1) then st.builder n else none

/-- One action word. DESIGN CHOICE (24): a word that meets several cases of R147 reports the first of 1, 2, 7 and then 6 or 8. -/
def Stroke.word (st : Stroke) (w : BitVec 128) (d : Dev) : WordOut :=
  let op := bits w 127 120
  let dst := bits w 113 104
  let wd := bits w 103 97
  let n := if wd = 0 then 64 else wd
  let imm := bits w 63 0
  let fault (c : Nat) : WordOut := ⟨st, d, 0, c⟩
  if op > 0x17 then fault 1
  else if opAllowed op st.pipe = false then fault 2
  else if wd > 64 ∨ (opHasDst op = true ∧ dst + n > 1024) ∨
      (opHasSrc op = true ∧ bits w 96 95 = 1 ∧ bits w 94 84 + n > 1024) then fault 7
  else
    let src := st.source w n
    let cur := (st.pkt.md.toNat >>> dst) % 2 ^ n
    let set (v : Nat) : WordOut := (st.putMd dst n v).goes d
    let dest (ty v : Nat) : Stroke := (st.setMd Md.destType ty).setMd Md.dest v
    match op with
    | 0x01 => set src
    | 0x02 => set (cur + src)
    | 0x03 => set (cur + 2 ^ n - src)
    | 0x04 => set (cur &&& src)
    | 0x05 => set (cur ||| src)
    | 0x06 => set (cur ^^^ src)
    | 0x07 => (st.setMd Md.runBits (st.pkt.get Md.runBits ||| (imm % 2 ^ 24))).goes d
    | 0x08 => (dest 0 src).goes d
    | 0x09 => (dest 1 src).goes d
    | 0x0A => ({ dest 2 (imm % 64) with punt := some (imm % 64) }).goes d
    | 0x0B => (st.drop (imm % 256)).goes d
    | 0x0C => ({ st.setMd Md.ssStart (imm % 512) with recirc := true }).goes d
    | 0x0D => match st.namedBuilder (imm % 64) with
      | none => fault 6
      | some r => set (st.symHash r (d.rd ((F.PIR_HASH_SEED_SEED.ix (imm / 256 % 4)).pier st.pier)))
    | 0x0E => set (src % 2 ^ 22 + ((st.pkt.get Md.flowHash * (src / 2 ^ 22 % 1024 + 1)) >>> 32))
    | 0x0F =>
      let r := st.meter (d.tableAt 9 src) src (imm % 2 == 1) d
      r.1.goes r.2
    | 0x10 =>
      let r := st.count (d.tableAt 10 src) src d
      r.1.goes r.2
    | 0x11 => (st.setMd Md.mirror (imm % 64)).goes d
    | 0x12 => match st.namedBuilder (imm % 64) with
      | none => fault 6
      | some r => st.goes (d.learnSubmit st.pkt.tag (imm / 65536 % 256) (st.key r) src st.pier)
    | 0x13 => (st.decTtl imm).goes d
    | 0x14 => (st.pop (imm / 256 % 256) (imm % 16)).goes d
    | 0x15 =>
      if st.pushes ≥ 2 then st.goes d.opIgnored
      else match st.hdr (imm / 256 % 256) (imm % 16) with
        | none => fault 8
        | some (j, h) =>
          let r := st.pushAt j h d
          r.1.goes r.2
    | 0x16 =>
      let v := if bits w 96 95 = 0 then bits w 63 32 else src
      (st.setHdr (imm / 256 % 256) (imm % 16) dst n v).goes d
    | 0x17 => ⟨st, d, if src &&& (imm % 2 ^ 32) = (imm / 2 ^ 32) &&& (imm % 2 ^ 32) then n else 0, 0⟩
    | _ => st.goes d

/-- How an action ends: the stroke, the device, and a program fault (case, opcode, action index) if it met one. -/
structure ActionOut where
  st : Stroke
  dev : Dev
  fault : Option (Nat × Nat × Nat)

/-- The words from index `i` of the action at index `a`; `n` words may still run (R142, R147). A fault names the action's index (R159).
DESIGN CHOICE (24): the opcode byte of case 5, where no word is run, is 0. -/
def runFrom (prog : List (BitVec 128)) (a : Nat) : Nat → Stroke → Nat → Dev → ActionOut
  | n, st, i, d =>
    match prog[i]? with
    | none => ⟨st, d, some (5, 0, a)⟩
    | some w =>
      let op := bits w 127 120
      match n with
      | 0 => ⟨st, d, some (3, op, a)⟩
      | n + 1 =>
        let r := st.word w d
        if r.fault ≠ 0 then ⟨st, d, some (r.fault, op, a)⟩
        else if bitOn w 119 then ⟨r.st, r.dev, none⟩
        else if i + 1 + r.skip ≥ prog.length then ⟨r.st, r.dev, some (4, op, a)⟩
        else runFrom prog a n r.st (i + 1 + r.skip) r.dev

/-- The words of the action at index `a`, of which `n` may run. -/
def runWords (prog : List (BitVec 128)) (n : Nat) (st : Stroke) (a : Nat) (d : Dev) : ActionOut := runFrom prog a n st a d

/-! ### Stages (R142, R162, R163) -/

/-- What a stage's lookup yields: the stroke, the device, the result on a hit, and whether it met poison, which is neither a hit nor a miss
(R189). -/
structure LookOut where
  st : Stroke
  dev : Dev
  hit : Option Nat
  poison : Bool

/-- A lookup by key or index in the stage's table. -/
def Stroke.tableLookup (st : Stroke) (tid : Nat) (s : Schema) (key : Nat) (d : Dev) : LookOut :=
  let p := d.placeOf tid s
  let i := s.base + key
  let ofLook (l : Look) (d : Dev) : LookOut := match l with
    | .miss => ⟨st, d, none, false⟩
    | .hit r => ⟨st, d, some r, false⟩
    | .poison k j => let r := st.poison (some tid) k j d; ⟨r.1, r.2, none, true⟩
  if s.kind = 1 then ofLook (d.lpmLookup tid s.keyBits key) d
  else if 2 ≤ s.kind ∧ s.kind ≤ 6 then let r := d.exactLookup tid s p key; ofLook r.1 r.2
  else if key ≥ s.capacity then ⟨st, d, none, false⟩
  else if s.kind = 7 then
    if d.poisoned 7 i then let r := st.poison (some tid) 7 i d; ⟨r.1, r.2, none, true⟩
    else
      let e := d.entry 7 i
      if bitOn e 127 then
        ⟨if bitOn e 85 then st.setMd Md.encapIndex (bits e 84 64) else st, d, some (byteField e 0 8), false⟩
      else ⟨st, d, none, false⟩
  else if s.kind = 8 then
    if d.poisoned 8 i then let r := st.poison (some tid) 8 i d; ⟨r.1, r.2, none, true⟩
    else if bitOn (d.entry 8 i) 792 then ⟨st, d, some (byteField (d.entry 8 i) 104 8), false⟩ else ⟨st, d, none, false⟩
  else if s.kind = 9 then
    if d.poisoned 9 i then let r := st.poison (some tid) 9 i d; ⟨r.1, r.2, none, true⟩
    else
      let r := st.meter (some tid) i (bitOn (d.meterOf st.pier i) 9) d
      ⟨r.1, r.2, some (r.1.pkt.get Md.color), false⟩
  else if s.kind = 10 then let r := st.count (some tid) i d; ⟨r.1, r.2, some 0, false⟩
  else ⟨st, d, none, false⟩

/-- A stage's lookup: in its table, or in its TCAM blocks; a stage with neither key builder nor table looks nothing up (R142). -/
def Stroke.look (st : Stroke) (s : StageRec) (d : Dev) : LookOut :=
  let b := if s.builder = 0xFF then none else st.builder s.builder
  let key := match b with | some r => st.key r | none => 0
  let sch := match st.im with | some im => im.schemas[s.table]? | none => none
  let tcam : LookOut := if s.blocks = 0 then ⟨st, d, none, false⟩ else ⟨st, d, d.tcamSearch st.pier st.pipe s.blocks b key, false⟩
  match sch with
  | some c =>
    let r := if c.kind ≥ 11 then tcam else st.tableLookup s.table c key d
    { r with hit := r.hit.map (· % 2 ^ c.resultBits) }
  | none => if b.isNone then ⟨st, d, none, false⟩ else tcam

/-- One stage: its lookup, then its action; a lookup that met poison runs none (R189). -/
def Stroke.stage (st : Stroke) (s : StageRec) (d : Dev) : ActionOut :=
  let r := st.look s d
  let prog := match st.im with
    | some im => if st.pipe = 0 then im.ingress else im.egress
    | none => []
  let st1 := { r.st with result := r.hit.getD 0 }
  let i := match r.hit with
    | some h => s.hitBase + h % 65536
    | none => s.missAction
  if r.poison then ⟨st1, r.dev, none⟩ else runWords prog 16 st1 i r.dev

/-- The stages of a stroke in ascending number; a program fault ends them (R142, R147). -/
def Stroke.stages (st : Stroke) (d : Dev) : List StageRec → Stroke × Dev
  | [] => (st, d)
  | s :: t =>
    if s.pred && (st.pkt.get Md.runBits >>> s.stage) % 2 == 0 then st.stages d t
    else
      let r := st.stage s d
      match r.fault with
      | none => r.st.stages r.dev t
      | some (c, op, i) =>
        (r.st.drop Drop.prgFault, (r.dev.bump (F.PIR_PRG_FAULT_CNT.pier st.pier)).post Ev.PIR_PRG_FAULT
          [(24, 1, st.pier), (25, 1, st.pipe), (26, 1, s.stage), (27, 1, op), (28, 4, i), (32, 1, c)])

/-- A whole stroke from its start state: parse, stages, the end of its edits, and ERR_DROP (R138). -/
def Dev.stroke (d : Dev) (pier pipe start : Nat) (p : Packet) : Stroke × Dev :=
  let im := d.pierImage pier p.tag
  let sts := match im with | some i => i.states | none => []
  let r := parseFrom sts p.bytes (windowOf p.bytes) 32 start 0 []
  let p1 := (p.setMd Md.runBits 0).setMd Md.parseErr r.err
  let d1 := if r.err = 0 then d else
    (d.bump (F.PIR_PARSE_ERR_CNT.pier pier)).post Ev.PIR_PARSE_ERR
      [(24, 1, pier), (25, 1, r.err), (26, 1, p.get Md.srcPort), (28, 2, r.state)]
  let st : Stroke :=
    { pier := pier, pipe := pipe, im := im, pkt := p1, hdrs := r.hdrs, result := 0, counts := 0, meters := 0, pushes := 0,
      v4 := [], fix := [], recirc := false, punt := none }
  let recs := match im with
    | some i => (List.range 24).filterMap fun n => i.stages.find? fun s => s.pipe == pipe && s.stage == n
    | none => []
  let (st1, d2) := st.stages d1 recs
  let st2 := st1.finish
  (if r.err ≠ 0 ∧ d2.on (F.PIR_PARSE_CFG_ERR_DROP.pier pier) = true then st2.drop Drop.prsError else st2, d2)

end Sys2Proof.Machine
end

