-- ==== Sys2Proof/Machine/Pier.lean ====
section
/-! DEFINITION. The piers: ingress, second and egress strokes with their exits, TCAM commits and the pier registers that only the broadcast
window writes (R129 to R135, R153 to R155). -/

namespace Sys2Proof.Machine

/-! ### Queues of a pier -/

/-- A pier's second-stroke queue. -/
def Dev.ssQueue (d : Dev) (p : Nat) : List SsEntry := d.pir.ss.get (fun _ => []) p
/-- The device with a second-stroke queue replaced. -/
def Dev.setSs (d : Dev) (p : Nat) (l : List SsEntry) : Dev := { d with pir := { d.pir with ss := d.pir.ss.set (fun _ => []) p l } }
/-- The whole frames that wait at an octet, oldest first: those held in the step buffer, then those in the receive buffer. -/
def Dev.rxQueue (d : Dev) (o : Nat) : List RxFrame := d.lpt.step.get (fun _ => []) o ++ d.lpt.rx.get (fun _ => []) o
/-- The oldest frame leaves the buffer it waits in. -/
def Dev.rxPop (d : Dev) (o : Nat) : Dev :=
  if (d.lpt.step.get (fun _ => []) o).isEmpty then { d with lpt := { d.lpt with rx := d.lpt.rx.upd (fun _ => []) o List.tail } }
  else { d with lpt := { d.lpt with step := d.lpt.step.upd (fun _ => []) o List.tail } }
/-- The injected packets that wait at an octet. -/
def Dev.injectQueue (d : Dev) (o : Nat) : List Packet := d.pir.inject.get (fun _ => []) o
/-- Packets from the TM that wait at an octet. -/
def Dev.egressQueue (d : Dev) (o : Nat) : List Packet := d.pir.egress.get (fun _ => []) o

/-- The claimant that last had the slot that second strokes and the inject queues share. -/
def Dev.setTurn (d : Dev) (p t : Nat) : Dev := { d with pir := { d.pir with turn := d.pir.turn.set (fun _ => 0) p t } }
/-- Did claimant `t` have it last? -/
def Dev.hadTurn (d : Dev) (p t : Nat) : Bool := d.pir.turn.get (fun _ => 0) p == t

/-! ### Issue slots of the ingress pipeline (R130, R135) -/

/-- The slot of the internal tick, in which issue slots are counted. -/
def Dev.issueStamp (d : Dev) : Nat := 100 * d.tim.tick + d.tim.tickSlot

/-- May no second stroke issue: step S3 is in force, and a second stroke has issued within the last 8 issue slots? DESIGN CHOICE (24): issue
slots are counted within one slot of 10.24 ns; the next slot of the tick ends the count. -/
def Dev.ssBarred (d : Dev) (pier : Nat) : Bool :=
  3 ≤ d.shed && match d.pir.lastSs.get (fun _ => none) pier with
    | some (t, n) => t == d.issueStamp && decide (n < 7)
    | none => false

/-- An issue slot of the ingress pipeline is given, to a second stroke or to another claimant. -/
def Dev.issueSlot (d : Dev) (pier : Nat) (ss : Bool) : Dev :=
  let was := d.pir.lastSs.get (fun _ => none) pier
  let now := if ss then some (d.issueStamp, 0) else was.map fun x => if x.1 = d.issueStamp then (x.1, x.2 + 1) else x
  { d with pir := { d.pir with lastSs := d.pir.lastSs.set (fun _ => none) pier now } }

/-- Second strokes copied from another pier wait, ahead of every frame (R93). -/
def Dev.copiedWait (d : Dev) (pier : Nat) : Bool := (d.ssQueue pier).any (·.first)

/-! ### The end of an ingress stroke (R133, R134, R345) -/

/-- A line frame leaves its ingress strokes: its decision record. Injected packets make none. -/
def Dev.decided (d : Dev) (fcs : Option Nat) (p : Packet) : Dev :=
  match fcs with
  | some f => d.decision (p.get Md.srcPort) f (p.get Md.pktLen) p.md
  | none => d

/-- A packet dropped at the end of its stroke, counted under its first reason. -/
def Dev.strokeDrop (d : Dev) (fcs : Option Nat) (p : Packet) : Dev := (d.dropCount (p.get Md.dropReason)).decided fcs p

/-- The bytes in a pier's recirculation buffer. -/
def Dev.ssBytes (d : Dev) (p : Nat) : Nat := ((d.ssQueue p).map fun e => e.pkt.bytes.length).sum

/-- A recirculation (R134): refused at the third second stroke, or without room. -/
def Dev.recirc (d : Dev) (pier : Nat) (fcs : Option Nat) (p : Packet) : Dev :=
  let refuse (reason why : Nat) (f : Fld) : Dev :=
    ((d.bump (f.pier pier)).post Ev.PIR_SS_DROP [(24, 1, pier), (25, 1, why), (26, 1, p.get Md.srcPort)]).strokeDrop fcs
      (dropPkt p reason)
  let n := p.get Md.strokeCount
  if n = 3 then refuse Drop.ssLimit 2 F.PIR_SS_LIMIT_DROP
  else if (d.ssQueue pier).length ≥ 1024 ∨ d.ssBytes pier + p.bytes.length > 4194304 then refuse Drop.ssQueueFull 1 F.PIR_SS_FULL_DROP
  else
    let q := ((p.setMd Md.strokeCount (n + 1)).setMd Md.runBits 0).setMd Md.parseErr 0
    d.setSs pier (d.ssQueue pier ++ [{ pkt := q, fcs := fcs }])

/-- A packet crosses the causeway to the TM with the metadata of reach 1 and above; it is lost where that direction has stopped. -/
def Dev.toTm (d : Dev) (o : Nat) (p : Packet) : Dev :=
  if d.cwStopped 0 then d else
  { d with que := { d.que with arrivals := d.que.arrivals ++ [⟨o, d.reachPkt 1 p⟩] } }

/-- The exit of an ingress stroke: drop before recirculation before the TM (R133). -/
def Dev.ingressExit (d : Dev) (pier o : Nat) (fcs : Option Nat) (st : Stroke) : Dev :=
  let p := st.pkt
  if p.get Md.drop = 1 then d.strokeDrop fcs p
  else if st.recirc then d.recirc pier fcs p
  else (d.decided fcs p).toTm o p

/-! ### Inject descriptors (R387, R390) -/

/-- The host address of the descriptor at HEAD of inject queue `q`. -/
def Dev.iqPlace (d : Dev) (q : Nat) : Nat :=
  d.rd (F.HST_IQ_BASE.ix q) + 32 * (d.rd (F.HST_IQ_HEAD_INDEX.ix q) % 2 ^ (6 + d.rd (F.HST_IQ_CFG_SIZE.ix q)))

/-- The descriptor that inject queue `q` has fetched is completed: byte 10 is written back, HEAD moves on, and the queue's vector is raised. -/
def Dev.injectDone (d : Dev) (q : Nat) : Dev :=
  match d.hst.fetched.get (fun _ => none) q with
  | none => d
  | some flags =>
    let head := d.rd (F.HST_IQ_HEAD_INDEX.ix q)
    let d1 := { d with hst := { d.hst with fetched := d.hst.fetched.set (fun _ => none) q none } }
    let d2 := (d1.dma (d.iqPlace q + 10) [BitVec.ofNat 8 flags]).wrIx F.HST_IQ_HEAD_INDEX 16 q (head + 1)
    d2.when (d.on (F.HST_IQ_CFG_IRQ_EN.ix q)) (·.raiseVector 1 (d.rd (F.HST_IQ_CFG_VECTOR.ix q)))

/-! ### Ingress strokes (R130, R138, R141) -/

/-- The metadata of a line frame at its first stroke. -/
def Dev.frameMd (d : Dev) (f : RxFrame) : BitVec 1024 :=
  mdSet (mdSet (mdSet (mdSet 0 Md.bankTag d.liveTag) Md.srcPort f.port) Md.pktLen f.bytes.length) Md.rxTs f.ts

/-- INGRESS_STROKE: the oldest frame that waits at the octet, otherwise an injected packet in its turn (R130); after second strokes copied
from another pier (R93), and none while the octet moves. -/
def ingressStroke (pier : Nat) (d : Dev) : Dev :=
  if d.forwarding = false ∨ d.pierHalted pier = true ∨ d.cwStopped 0 = true then d else
  match d.octetOf pier with
  | none => d
  | some o => if d.octetStopped o = true ∨ d.copiedWait pier = true then d else match d.rxQueue o with
    | f :: _ =>
      let d1 := (d.rxPop o).issueSlot pier false
      let r := (d1.bump (F.PIR_ING_STROKES.pier pier)).stroke pier 0 (d1.rd (F.PIR_PARSE_CFG_ING_START.pier pier))
        { bytes := f.bytes, md := d1.frameMd f, tsHeld := f.tsHeld }
      r.2.ingressExit pier o (some f.fcs) r.1
    | [] => match d.injectQueue o with
      | [] => d
      | p :: rest =>
        if d.ssQueue pier ≠ [] ∧ d.hadTurn pier 1 = true ∧ d.ssBarred pier = false then d
        else
          let d0 := { d with pir := { d.pir with inject := d.pir.inject.set (fun _ => []) o rest } }.issueSlot pier false
          let d1 := match p.back with
            | some q => d0.injectDone q
            | none => d0
          let r := ((d1.setTurn pier 1).bump (F.PIR_INJ_STROKES.pier pier)).stroke pier 0
            (d1.rd (F.PIR_PARSE_CFG_INJ_START.pier pier)) ({ p with back := none }.setMd Md.bankTag d1.liveTag)
          r.2.ingressExit pier o none r.1

/-- SECOND_STROKE: the head of the second-stroke queue, when no frame waits, in its turn (R130, R134), within the limit of step S3 (R135); an
entry copied from another pier goes before the frames that wait (R93). A packet of an expired epoch is dropped (R59), and so is one that does
not read (R100). -/
def secondStroke (pier : Nat) (d : Dev) : Dev :=
  if d.forwarding = false ∨ d.pierHalted pier = true ∨ d.cwStopped 0 = true then d else
  match d.octetOf pier with
  | none => d
  | some o =>
    if d.octetStopped o = true ∨ d.ssBarred pier = true ∨
       (d.copiedWait pier = false ∧ (d.rxQueue o ≠ [] ∨ (d.injectQueue o ≠ [] ∧ d.hadTurn pier 2 = true))) then d else
    match d.ssQueue pier with
    | [] => d
    | e :: rest =>
      let d1 := (d.setSs pier rest).setTurn pier 2
      if e.bad then d1.dropCount Drop.pierRetired
      else if d1.expired e.pkt.tag then d1.dropExpired
      else
        let r := ((d1.issueSlot pier true).bump (F.PIR_SS_STROKES.pier pier)).stroke pier 0 (e.pkt.get Md.ssStart) e.pkt
        r.2.ingressExit pier o e.fcs r.1

/-! ### Egress strokes (R45, R110, R114, R132, R141) -/

/-- Where a PTP message begins in a frame, if it is one: over Ethernet, or over UDP on IPv4 or IPv6 to port 319 or 320, below up to two
VLAN tags. PRESUMED (15): IEEE 1588's transports. -/
def ptpOffset (l : List Byte) : Option Nat :=
  let tagged (k : Nat) : Bool := let t := beNat ((l.drop k).take 2); t == 0x8100 || t == 0x88A8
  let k := if tagged 12 then (if tagged 16 then 20 else 16) else 12
  let t := beNat ((l.drop k).take 2)
  let h := k + 2
  let udp (u : Nat) : Option Nat :=
    let port := beNat ((l.drop (u + 2)).take 2)
    if port = 319 ∨ port = 320 then some (u + 8) else none
  if t = 0x88F7 then some h
  else if t = 0x0800 ∧ l.getD (h + 9) 0 = 17 then udp (h + ((l.getD h 0).toNat % 16) * 4)
  else if t = 0x86DD ∧ l.getD (h + 6) 0 = 17 then udp (h + 40)
  else none

/-- A one-step request: the frame's correctionField takes its new value, which the spec does not state (R45). -/
def Dev.oneStep (d : Dev) (l : List Byte) : List Byte × Dev :=
  match ptpOffset l with
  | none => (l, d)
  | some k =>
    let v := (Config.freeWord d.fresh).toNat
    (writeBits l (8 * (k + 8)) 64 v, { d with fresh := d.fresh + 1 })

/-- A packet to the transmit buffer of its port, MACsec-protected where the port protects (R110, R113). A one-step request on a protected
frame is carried out as two-step (R45). -/
def Dev.toLine (d : Dev) (port : Nat) (p : Packet) : Dev :=
  let ctl := p.get Md.ptpCtrl
  let sec := d.on (F.LPT_MSEC_CTRL_TX_EN.port port)
  let (l, d1) := if ctl / 2 % 2 = 1 ∧ sec = false then d.oneStep p.bytes else (p.bytes, d)
  let ts := if ctl % 2 = 1 ∨ (ctl / 2 % 2 = 1 ∧ sec = true) then some (p.get Md.tsTag) else none
  let send (l : List Byte) (d : Dev) : Dev := d.updLp port fun x => { x with tx := x.tx ++ [⟨l, p.cls, ts⟩] }
  if sec then
    match d1.msecProtect port l with
    | (some l1, d2) => send l1 d2
    | (none, d2) => d2
  else send l d1

/-- EGRESS_STROKE: the oldest packet from the TM. A packet of an expired epoch is dropped (R59); one that the stroke punts goes to the punt
egress queue that it names instead of the line (R146). -/
def egressStroke (pier : Nat) (d : Dev) : Dev :=
  if d.forwarding = false ∨ d.pierHalted pier = true then d else
  match d.octetOf pier with
  | none => d
  | some o => match d.egressQueue o with
    | [] => d
    | p :: rest =>
      let port := p.get Md.egrPort
      let d0 := { d with pir := { d.pir with egress := d.pir.egress.set (fun _ => []) o rest } }
      let d1 := d0.updLp port fun x => { x with pendingBytes := x.pendingBytes - p.bytes.length }
      if d1.expired p.tag then d1.dropExpired
      else
        let q := { p with md := keepReach (imageFields (d1.pierImage pier p.tag)) 3 p.md }
        let (st, d2) := (d1.bump (F.PIR_EGR_STROKES.pier pier)).stroke pier 1 (d1.rd (F.PIR_PARSE_CFG_EGR_START.pier pier)) q
        let e := st.pkt
        if e.get Md.drop = 1 then d2.dropCount (e.get Md.dropReason)
        else match st.punt with
          | some k => d2.toTm o ((e.setMd Md.destType 2).setMd Md.dest k)
          | none => d2.toLine port e

/-! ### TCAM rows and their commits (R26, R153 to R155) -/

/-- Pier `p` is powered: every one of its five domains is on (R14, R403). -/
def Dev.pierPowered (d : Dev) (p : Nat) : Bool := (List.range 5).all fun u => d.domainOn (5 * p + u)

/-- A step for every powered pier (R26). -/
def Dev.eachPier (d : Dev) (f : Nat → Dev → Dev) : Dev := d.each ((List.range 17).filter d.pierPowered) f

/-- The shadow of a row. -/
def Dev.shadowRow (d : Dev) (pier pipe row : Nat) : TcamRow := d.pir.shadow.get (fun _ => TcamRow.reset) (tcamKey pier pipe row)

/-- The rows of a pipe's TCAM. -/
def tcamRows (pipe : Nat) : Nat := if pipe = 0 then 16384 else 4096

/-- The commits that wait at a pier. -/
def Dev.commits (d : Dev) (pier : Nat) : List TcamCommit := d.pir.commits.get (fun _ => []) pier

/-- A write of PIR_TCAM_CTRL at a pier: a commit of the entry at ADDR, with its shadows as they stand, or a refusal (R154). -/
def Dev.commitRequest (d : Dev) (m pier : Nat) (data : Word) : Dev :=
  let pipe := d.rd (F.PIR_TCAM_ADDR_PIPE.pier pier)
  let row := d.rd (F.PIR_TCAM_ADDR_ROW.pier pier)
  let c := bits data 9 8
  if row ≥ tcamRows pipe ∨ c = 3 ∨ row % chainRows c ≠ 0 then
    d.post Ev.PIR_TCAM_REFUSED [(24, 1, pier), (25, 1, pipe), (28, 2, row), (30, 1, c), (31, 1, m)]
  else
    let x : TcamCommit :=
      { pipe := pipe, row := row, chain := c, valid := bitOn data 0, ranges := bits data 15 12,
        rows := (List.range (chainRows c)).map fun i => d.shadowRow pier pipe (row + i) }
    { d with pir := { d.pir with commits := d.pir.commits.upd (fun _ => []) pier (· ++ [x]) } }

/-- TCAM_COMMIT_REQUEST: the broadcast write of PIR_TCAM_CTRL, at every powered pier. -/
def tcamCommitRequest (m : Nat) (data : Word) (d : Dev) : Dev := d.eachPier fun p d => d.commitRequest m p data

/-- Does a packet wait for an issue slot of the pipe? -/
def Dev.waits (d : Dev) (pier pipe : Nat) : Bool :=
  match d.octetOf pier with
  | some o =>
    if pipe = 0 then !(d.rxQueue o).isEmpty || !(d.injectQueue o).isEmpty || !(d.ssQueue pier).isEmpty
    else !(d.egressQueue o).isEmpty
  | none => false

/-- The rows of an entry as a commit writes them: each gets the control word. -/
def TcamCommit.live (x : TcamCommit) : List TcamRow :=
  x.rows.map fun r => { r with valid := x.valid, chain := x.chain, ranges := x.ranges }

/-- TCAM_COMMIT: the oldest commit takes a slot and its rows become live in one clock (R154, R155). -/
def tcamCommit (pier : Nat) (d : Dev) : Dev :=
  if d.pierHalted pier then d else
  match d.commits pier with
  | [] => d
  | x :: rest =>
    let ws := (List.range x.rows.length).zip x.live
    let live := ws.foldl (fun (m : SMap TcamRow) w => m.set (fun _ => TcamRow.reset) (tcamKey pier x.pipe (x.row + w.1)) w.2) d.pir.live
    let d0 := { d with pir := { d.pir with live := live, commits := d.pir.commits.set (fun _ => []) pier rest } }
    let d1 := if x.pipe = 0 then d0.issueSlot pier false else d0
    (d1.bump (F.PIR_TCAM_COMMITS.pier pier)).when (d.waits pier x.pipe) (·.bump (F.PIR_TCAM_STEALS.pier pier))

/-- A shadow word of the row that ADDR names: KEY and MASK words 0 to 4, RES (R154). -/
def Dev.shadowWrite (d : Dev) (pier : Nat) (f : TcamRow → TcamRow) : Dev :=
  let k := tcamKey pier (d.rd (F.PIR_TCAM_ADDR_PIPE.pier pier)) (d.rd (F.PIR_TCAM_ADDR_ROW.pier pier))
  { d with pir := { d.pir with shadow := d.pir.shadow.upd (fun _ => TcamRow.reset) k f } }

/-- PIR_CNT_CLR: the counters of a pier are zeroed. -/
def pirCntClr (pier : Nat) (d : Dev) : Dev :=
  d.each (List.range 11) fun n d => d.setReg (0x8000800 + 8 * n + 0x100000 * pier) 0

/-! ### The commands -/

/-- INGRESS_STROKE. -/
def execIngressStroke (p : Pier) (s : State) : Host.Outcome State Fault Refusal := .next { s with dev := ingressStroke p.val s.dev }
/-- SECOND_STROKE. -/
def execSecondStroke (p : Pier) (s : State) : Host.Outcome State Fault Refusal := .next { s with dev := secondStroke p.val s.dev }
/-- EGRESS_STROKE. -/
def execEgressStroke (p : Pier) (s : State) : Host.Outcome State Fault Refusal := .next { s with dev := egressStroke p.val s.dev }
/-- TCAM_COMMIT_REQUEST: a write of the broadcast window (R153), mirrored (R342). -/
def execTcamCommitRequest (m : Master) (data : Word) (s : State) : Host.Outcome State Fault Refusal :=
  onMirrored s m.val 0x9800104 data.toNat (tcamCommitRequest m.val data)
/-- TCAM_COMMIT. -/
def execTcamCommit (p : Pier) (s : State) : Host.Outcome State Fault Refusal := .next { s with dev := tcamCommit p.val s.dev }
/-- PIR_CNT_CLR. -/
def execPirCntClr (m : Master) (p : Pier) (s : State) : Host.Outcome State Fault Refusal :=
  onReg s m.val (F.PIR_CTRL.pier p.val).off (pirCntClr p.val)

end Sys2Proof.Machine
end

