-- ==== Sys2Proof/Machine/Rails.lean ====
section
/-! DEFINITION. The set points of the core rails (R408, R479). -/

namespace Sys2Proof.Machine

/-- The set point of an AVSBus rail in mV: 720, 720 and 800 until the power manager has written one. -/
def Dev.setPoint (d : Dev) (rail : Nat) : Nat := d.pwr.setPoint.get (fun k => if k = 2 then 800 else 720) rail

/-- The highest pier clock in force, of the piers that are not retired. -/
def Dev.topClock (d : Dev) : Nat :=
  (((List.range 17).filter fun p => d.pierState p != 3).map fun p => d.rd (F.PWR_PIER_FREQ_ACTUAL.ix p)).foldl max 0

/-- The fused target of a core rail for a pier clock, between 0.700 V and 0.740 V. -/
def fusedTarget (rail mhz : Nat) : Nat := max 700 (min 740 (Config.railTarget rail mhz))

/-- The power manager keeps VDD_FE and VDD_TM to the fused target for the highest pier clock; no core rail is lowered below warning or with a
shed step in force (R408). It follows every change of the piers that run and of their clocks. -/
def Dev.setRails (d : Dev) : Dev :=
  d.each [0, 1] fun r d =>
    let v := fusedTarget r d.topClock
    if v < d.setPoint r ∧ (d.on F.PWR_STATUS_BELOW_WARN = true ∨ d.shed ≠ 0) then d
    else { d with pwr := { d.pwr with setPoint := d.pwr.setPoint.set (fun k => if k = 2 then 800 else 720) r v } }

end Sys2Proof.Machine
end

