-- ==== Sys2Proof/Machine/CheckUnit.lean ====
section
/-! DEFINITION. The check units at the end of a stream: the comparison, and what a stream's owner does before it completes (R440 to
R443). -/

namespace Sys2Proof.Machine

/-- The CRC of a polynomial code (R440). -/
def unitCrc (poly : Nat) (l : List Byte) : Nat :=
  if poly = 0 then crc32 l else if poly = 1 then crc32c l else if poly = 2 then crc64 l else crc16 l

/-- The width of the CRC. -/
def crcWidth (poly : Nat) : Nat := if poly ≤ 1 then 32 else if poly = 2 then 64 else 16

/-- DGN_CU_DONE of a unit: byte 25 is 0 match, 2 incomplete. -/
def Dev.unitDone (d : Dev) (u b : Nat) : Dev := d.post Ev.DGN_CU_DONE [(24, 1, u), (25, 1, b), (26, 1, (d.unit u).point)]

/-- A unit stays without a comparison (R443). -/
def Dev.unitIncomplete (d : Dev) (u : Nat) : Dev := (d.wr (F.DGN_CU_STATUS_STATE.ix u) 5).unitDone u 2

/-- The unit compares the CRC of the stream with EXPECT (R443): whether the stream's owner ends, and the device. -/
def Dev.unitCompares (d : Dev) (u : Nat) (l : List Byte) : Bool × Dev :=
  let x := d.unit u
  let r := unitCrc x.poly l
  let d1 := d.wr (F.DGN_CU_RESULT_VALUE.ix u) r
  if r = x.expect.toNat % 2 ^ crcWidth x.poly then (false, (d1.wr (F.DGN_CU_STATUS_STATE.ix u) 3).unitDone u 0)
  else
    let stops := x.abort && x.point != 2
    (stops, ((d1.wr (F.DGN_CU_STATUS_STATE.ix u) 4).bump F.DGN_CU_MISMATCH).post Ev.DGN_CU_MISMATCH
      [(24, 1, u), (26, 1, x.point), (27, 1, if stops then 1 else 0), (32, 8, r)])

/-- The units that measure a stream: at point 3 that of a segment. -/
def Dev.runningAt (d : Dev) (point seg : Nat) : List Nat :=
  (List.range 8).filter fun u => d.unitState u == 2 && (d.unit u).point == point && (d.unit u).seg == seg

/-- A stream ends at its last byte: every unit that measures it compares, before its owner completes (R443); does one of them end the owner?
`given`: the bytes, where the units have not seen them one by one. -/
def Dev.streamEnds (d : Dev) (point seg : Nat) (given : Option (List Byte) := none) : Bool × Dev :=
  (d.runningAt point seg).foldl (fun a u =>
    let r := a.2.unitCompares u (given.getD (a.2.unit u).seen)
    (a.1 || r.1, r.2)) (false, d)

/-- A stream is ended first by its owner: the units that measure it are INCOMPLETE (R443). -/
def Dev.streamStops (d : Dev) (point seg : Nat) : Dev := d.each (d.runningAt point seg) fun u d => d.unitIncomplete u

/-- A copy of segments ends: the units at point 3 that still measure one are INCOMPLETE. -/
def Dev.copyStops (d : Dev) : Dev :=
  d.each ((List.range 8).filter fun u => d.unitState u == 2 && (d.unit u).point == 3) fun u d => d.unitIncomplete u

end Sys2Proof.Machine
end

