-- ==== Sys2Proof/Machine/Tae.lean ====
section
/-! DEFINITION. The table access engine: its slots and queue, the operations of its requests, the entry window, rehash, the ageing
sweep and the retire list (R195 to R217). -/

namespace Sys2Proof.Machine

/-! ### Requests (R197, R199) -/

/-- The status codes of a response (R199). -/
def stQueued : Nat := 0x01
/-- OK. -/
def stOk : Nat := 0x02
/-- UPDATED. -/
def stUpdated : Nat := 0x03
/-- NOT_FOUND. -/
def stNotFound : Nat := 0x04
/-- NO_ROOM. -/
def stNoRoom : Nat := 0x10
/-- LPM_FULL. -/
def stLpmFull : Nat := 0x11
/-- BAD_REQUEST. -/
def stBad : Nat := 0x12
/-- RANGE. -/
def stRange : Nat := 0x13
/-- MODE. -/
def stMode : Nat := 0x14
/-- RETIRED. -/
def stRetired : Nat := 0x15
/-- RETIRE_FULL. -/
def stRetireFull : Nat := 0x16
/-- DMA_ERROR. -/
def stDma : Nat := 0x17

/-- TABLE_ID. -/
def reqTable (r : BitVec 2048) : Nat := byteField r 2 2
/-- KIND. -/
def reqKind (r : BitVec 2048) : Nat := byteField r 4 1
/-- INDEX. -/
def reqIndex (r : BitVec 2048) : Nat := byteField r 8 4
/-- COUNT. -/
def reqCount (r : BitVec 2048) : Nat := byteField r 12 4
/-- RESULT. -/
def reqResult (r : BitVec 2048) : Nat := byteField r 24 8
/-- KEY. -/
def reqKey (r : BitVec 2048) : Nat := byteField r 32 40
/-- The first `n` bytes of DATA. -/
def reqData (r : BitVec 2048) (n : Nat) : BitVec 1024 := BitVec.ofNat 1024 (byteField r 128 n)

/-- What a request ends with. -/
structure TaeOut where
  status : Nat
  moves : Nat
  index : Nat
  data : BitVec 1024
  deriving DecidableEq, Repr

/-- A failed request. -/
def taeFail (st : Nat) : TaeOut := ⟨st, 0, 0, 0⟩

/-- The table and key of a keyed request in the live bank: kinds 2 to 6, no key bit at or above KEY_BITS. -/
def Dev.keyedOf (d : Dev) (r : BitVec 2048) : Option (Nat × Schema × Place × Nat) :=
  match d.exactPlace d.liveTag (reqTable r) with
  | some (s, p) => if reqKey r < 2 ^ p.keyBits then some (reqTable r, s, p, reqKey r) else none
  | none => none

/-! ### Keyed operations (R198, R204) -/

/-- READ_KEY. -/
def Dev.doReadKey (d : Dev) (r : BitVec 2048) : TaeOut × Dev :=
  match d.keyedOf r with
  | none => (taeFail stBad, d)
  | some (_, _, p, k) => match d.findKey p k with
    | some i => (⟨stOk, 0, i, d.shownEntry p.kind i⟩, d.countOps 1)
    | none => (taeFail stNotFound, d.countOps 1)

/-- INSERT. -/
def Dev.doInsert (d : Dev) (r : BitVec 2048) : TaeOut × Dev :=
  match d.keyedOf r with
  | none => (taeFail stBad, d)
  | some (tid, s, p, k) =>
    let e := exEntry p.kind k (reqResult r) (d.ageTick s) (bitOn r 8) false
    match d.insertPlan p k with
    | .present i => (⟨stUpdated, 0, i, 0⟩, ((d.countOps 1).putEntry p.kind i e).shadowSync tid p k false)
    | .room i n ws =>
      (⟨stOk, n, i, 0⟩, ((d.countOps (1 + n)).bumpN F.TBL_RELOC_MOVES n).putSynced tid p (ws ++ [(i, e)]) k)
    | .noRoom => (taeFail stNoRoom, (d.countOps 1).insertNoRoom tid p 1)

/-- DELETE. -/
def Dev.doDelete (d : Dev) (r : BitVec 2048) : TaeOut × Dev :=
  match d.keyedOf r with
  | none => (taeFail stBad, d)
  | some (tid, _, p, k) => match d.findKey p k with
    | some i => (⟨stOk, 0, i, 0⟩,
        ((d.countOps 1).putEntry p.kind i (exSetValid p.kind (d.entry p.kind i) false)).shadowSync tid p k false)
    | none => (taeFail stNotFound, d.countOps 1)

/-! ### Indexed operations (R198, R202, R214) -/

/-- READ_INDEX. -/
def Dev.doReadIndex (d : Dev) (r : BitVec 2048) : TaeOut × Dev :=
  let k := reqKind r
  let i := reqIndex r
  if kindCap k = 0 then (taeFail stBad, d)
  else if i ≥ kindCap k then (taeFail stRange, d)
  else (⟨stOk, 0, i, d.shownEntry k i⟩, d)

/-- Is the entry in a range of the retire list? -/
def Dev.retired (d : Dev) (kind i : Nat) : Bool :=
  d.tbl.retire.any fun x => x.kind == kind && x.first ≤ i && i < x.first + x.count

/-- WRITE_INDEX: the bit POISON of a counter's DATA is ignored, and a meter leaves the caches first (R202). -/
def Dev.doWriteIndex (d : Dev) (r : BitVec 2048) : TaeOut × Dev :=
  let k := reqKind r
  let i := reqIndex r
  if k < 7 ∨ k > 10 then (taeFail stBad, d)
  else if i ≥ kindCap k then (taeFail stRange, d)
  else if d.retired k i then (taeFail stRetired, d)
  else
    let e := reqData r (kindBytes k)
    (⟨stOk, 0, i, 0⟩, (if k = 9 then d.forgetMeter i else d).putEntry k i (if k = 10 then putBit e 112 false else e))

/-- RETIRE: the range waits for span r + L, with L the larger drain limit (R214). -/
def Dev.doRetire (d : Dev) (r : BitVec 2048) : TaeOut × Dev :=
  let k := reqKind r
  let i := reqIndex r
  let n := reqCount r
  if ¬(k = 7 ∨ k = 8) ∨ n = 0 ∨ n > 65536 then (taeFail stBad, d)
  else if i + n > kindCap k then (taeFail stRange, d)
  else if d.tbl.retire.any fun x => x.kind == k && x.first < i + n && i < x.first + x.count then (taeFail stRetired, d)
  else if d.tbl.retire.length ≥ 4096 then (taeFail stRetireFull, d)
  else
    let l := max d.tim.limitInForce (d.rd F.TIM_DRAIN_LIMIT)
    let x : Retired := { kind := k, first := i, count := n, release := spanAdd d.tim.span l }
    (⟨stOk, 0, i, 0⟩, { d with tbl := { d.tbl with retire := d.tbl.retire ++ [x] } })

/-! ### LPM operations (R169, R170, R198) -/

/-- The units in use (TBL_LPM_USED). -/
def Dev.lpmUsed (d : Dev) : Nat := (d.tbl.lpm.map (·.cost)).sum

/-- The route that a request names: an LPM table of the live bank, a length within its address, address bits beyond it 0. -/
def Dev.lpmRoute (d : Dev) (r : BitVec 2048) : Option Route :=
  match d.schema d.liveTag (reqTable r) with
  | none => none
  | some s =>
    let bits := s.keyBits - 16
    let len := byteField r 146 1
    let a := beNat (leBytes 16 (byteField r 128 16))
    if s.kind ≠ 1 ∨ byteField r 148 2 ≠ reqTable r ∨ len > bits ∨ a % 2 ^ (128 - len) ≠ 0 then none
    else some { table := reqTable r, vrf := byteField r 144 2, addr := a, len := len, result := byteField r 152 6,
                cost := if s.keyBits = 144 then 2 else 1 }

/-- The same prefix: table, VRF, address and length. -/
def Route.same (a b : Route) : Bool := a.table == b.table && a.vrf == b.vrf && a.addr == b.addr && a.len == b.len

/-- A prefix of a poisoned range has been rewritten; a range with none left is clean (R188). -/
def Dev.lpmRewritten (d : Dev) (x : Route) : Dev :=
  let l := d.tbl.lpmPoison.map fun p =>
    if p.vrf = x.vrf then { p with todo := p.todo.filter fun t => t != (x.table, x.addr, x.len) } else p
  let touched := fun (p : PoisonRange) => p.vrf == x.vrf && covers p.addr p.len x.addr && p.len ≤ x.len
  { d with tbl := { d.tbl with lpmPoison := l.filter fun p => !(p.todo.isEmpty && touched p) } }

/-- LPM_INSERT. -/
def Dev.doLpmInsert (d : Dev) (r : BitVec 2048) : TaeOut × Dev :=
  match d.lpmRoute r with
  | none => (taeFail stBad, d)
  | some x =>
    if d.tbl.lpm.any x.same then
      let l := d.tbl.lpm.map fun y => if x.same y then { y with result := x.result } else y
      (⟨stOk, 0, 0, 0⟩, { d with tbl := { d.tbl with lpm := l } }.lpmRewritten x)
    else if d.lpmUsed + x.cost > 25165824 then (taeFail stLpmFull, d)
    else (⟨stOk, 0, 0, 0⟩, { d with tbl := { d.tbl with lpm := d.tbl.lpm ++ [x] } }.lpmRewritten x)

/-- LPM_DELETE. -/
def Dev.doLpmDelete (d : Dev) (r : BitVec 2048) : TaeOut × Dev :=
  match d.lpmRoute r with
  | none => (taeFail stBad, d)
  | some x =>
    if d.tbl.lpm.any x.same then
      (⟨stOk, 0, 0, 0⟩, { d with tbl := { d.tbl with lpm := d.tbl.lpm.filter fun y => !x.same y } }.lpmRewritten x)
    else (taeFail stNotFound, d)

/-- The 32 bytes of a route (R169). -/
def routeData (x : Route) : BitVec 1024 :=
  BitVec.ofNat 1024 (leNat ((leBytes 16 x.addr).reverse ++ leBytes 2 x.vrf ++ leBytes 1 x.len ++ leBytes 1 1 ++ leBytes 2 x.table ++
    leBytes 2 0 ++ leBytes 8 x.result))

/-- LPM_READ. -/
def Dev.doLpmRead (d : Dev) (r : BitVec 2048) : TaeOut × Dev :=
  match d.lpmRoute r with
  | none => (taeFail stBad, d)
  | some x => match d.tbl.lpm.find? x.same with
    | some y => (⟨stOk, 0, 0, routeData y⟩, d)
    | none => (taeFail stNotFound, d)

/-! ### The engine (R196, R203, R216) -/

/-- A request that changes state passes the check units (R441). -/
def Dev.requestSeen (d : Dev) (r : BitVec 2048) : Dev :=
  if opChanges (reqOp r) then (d.streamBegins 2 0 0).streamFeed 2 0 none (bytesOf r) else d

/-- A request but BULK. DEDUCED (42): a BULK is measured as the records it executes. -/
def Dev.taeOp (d0 : Dev) (r : BitVec 2048) : TaeOut × Dev :=
  let op := reqOp r
  let d := (d0.requestSeen r).countPath op
  if op = 1 then d.doReadKey r
  else if op = 2 then d.doInsert r
  else if op = 3 then d.doDelete r
  else if op = 4 then d.doReadIndex r
  else if op = 5 then d.doWriteIndex r
  else if op = 6 then d.doLpmInsert r
  else if op = 7 then d.doLpmDelete r
  else if op = 8 then d.doLpmRead r
  else if op = 10 then d.doRetire r
  else (taeFail stBad, d)

/-- A record of a BULK: one with opcode BULK is BAD_REQUEST (R203). -/
def Dev.bulkOp (d : Dev) (r : BitVec 2048) : TaeOut × Dev := if reqOp r = 9 then (taeFail stBad, d) else d.taeOp r

/-- A status after which a BULK goes on. -/
def TaeOut.goesOn (o : TaeOut) : Bool := o.status == stOk || o.status == stUpdated || o.status == stNotFound

/-- The records of a BULK after `n` others, in order, until one ends in neither OK, UPDATED nor NOT_FOUND: that status and the records completed;
or QUEUED where the rates of this span are used up (R200, R203). -/
def Dev.bulkRun (d : Dev) : Nat → List (BitVec 2048) → TaeOut × Dev
  | n, [] => (⟨stOk, 0, n, 0⟩, d)
  | n, r :: t =>
    if d.mayRun (reqOp r) = false then (⟨stQueued, 0, n, 0⟩, d)
    else
      let (o, d1) := d.bulkOp r
      if o.goesOn then Dev.bulkRun d1 (n + 1) t else (⟨o.status, 0, n, 0⟩, d1)

/-- The records of a BULK that a mirroring active has accepted, all of them, as the standby executes them: the first that ends otherwise than
it did when it was accepted is noted, with the number before it. -/
def Dev.bulkAll (d : Dev) : Nat → Option TaeOut → List (BitVec 2048) → Option TaeOut × Dev
  | _, x, [] => (x, d)
  | n, x, r :: t =>
    let (o, d1) := d.bulkOp r
    Dev.bulkAll d1 (n + 1) (x.or (if o.goesOn then none else some ⟨o.status, 0, n, 0⟩)) t

/-- TBL_TAE_REFUSED: what was refused (1 slot, 2 window, 3 rehash command), why, the master and the slot (R217). -/
def Dev.taeRefused (d : Dev) (t : Option Nat) (what why m slot : Nat) : Dev :=
  d.postTbl Ev.TBL_TAE_REFUSED t [(24, 1, what), (25, 1, why), (26, 1, m), (28, 2, slot)]

/-- The word of an entry that holds a byte. -/
def entryWord (e : BitVec 1024) (b : Nat) : Nat := byteField e (b / 4 * 4) 4

/-- An entry window read is answered: the entry is latched for its master, and the word returned (R201). -/
def Dev.winAnswer (d : Dev) (m kind i b : Nat) (e : BitVec 1024) : Dev :=
  { d with tbl := { d.tbl with winLatch := d.tbl.winLatch.set (fun _ => none) m (some (memKey kind i, e)) } }.answer (entryWord e b)

/-- The response of the request at the head, which leaves the queue; it answers the entry window read that waited for it. -/
def Dev.taeEnd (d : Dev) (q : TaeReq) (o : TaeOut) : Dev :=
  let d1 := { d with tbl := { d.tbl with queue := d.tbl.queue.tail } }
  let d2 := match q.slot, q.win with
    | some n, _ => { d1 with tbl := { d1.tbl with
        resp := d1.tbl.resp.set (fun _ => TaeResp.reset) n ⟨o.status, o.moves, q.seq, o.index, o.data⟩ } }
    | none, some b => d1.winAnswer q.master (reqKind q.req) (reqIndex q.req) b o.data
    | none, none => d1
  let d3 := (d2.wr F.TBL_TAE_SEQ_SEQ q.seq).bump F.TBL_TAE_OPS
  if o.status ≥ 0x10 then d3.bump F.TBL_TAE_FAIL else d3

/-- A request that changes state and may not: M5 and M6, from any master but 8 (R216). -/
def Dev.taeBarred (d : Dev) (op m : Nat) : Bool := opChanges op && (d.mode == .m5 || d.mode == .m6) && m != 8

/-- Has the span come at which the request takes effect? A change waits for the learned entries accepted before it (R191). -/
def Dev.taeDue (d : Dev) (q : TaeReq) : Bool :=
  (match q.apply with
    | some a => spanReached a d.tim.span
    | none => true) &&
  !(opChanges (reqOp q.req) && d.twn.records.any fun r => r.kind == 5 && r.seq == ownSeq)

/-- May the request at the head execute in this span, by the rates of R200? DEDUCED (25): once a mirrored change in the queue has come to its
span A, which R342 fixes for both twins, nothing in the queue waits for a rate. -/
def Dev.taeMay (d : Dev) (q : TaeReq) : Bool :=
  d.mayRun (reqOp q.req) || d.tbl.queue.any fun x => match x.apply with
    | some a => spanReached a d.tim.span
    | none => false

/-- A change at the head of a mirroring active that has not been mirrored yet. -/
def Dev.unmirrored (d : Dev) (q : TaeReq) : Bool := d.mirrorOn && opChanges (reqOp q.req) && reqOp q.req != 9 && q.apply.isNone

/-- The changes that wait are mirrored, each with its span A; those behind a BULK when it has ended, since none of them can execute before
(R196, R216). -/
def Dev.mirrorWaiting (d : Dev) : Dev :=
  let (l, rest) := d.tbl.queue.span fun q => reqOp q.req != 9
  let due := l.filter d.unmirrored
  if due = [] then d else
  let marked := l.map fun q => if d.unmirrored q then { q with apply := some d.mirrorSpan } else q
  { d with tbl := { d.tbl with queue := marked ++ rest } }.each due fun q d => d.mirror 1 q.master (bytesOf q.req)

/-- Execute the request at the head, but a BULK. -/
def Dev.taeHead (d : Dev) (q : TaeReq) : Dev :=
  if d.taeBarred (reqOp q.req) q.master then
    (d.taeRefused none (if q.slot.isSome then 1 else 2) 6 q.master (q.slot.getD 0)).taeEnd q (taeFail stMode)
  else
    let (o, d1) := d.taeOp q.req
    d1.taeEnd q o

/-- Requests with an opcode that R198 does not name end with BAD_REQUEST as they come to the head. -/
def Dev.taeSkip : Nat → Dev → Dev
  | 0, d => d
  | n + 1, d => match d.tbl.queue with
    | q :: _ => if reqOp q.req = 0 ∨ reqOp q.req > 10 then Dev.taeSkip n (d.taeEnd q (taeFail stBad)) else d
    | [] => d

/-- Execute the request at the head if it has the opcode, its span has come and the rate of its path allows it. -/
def taeRun (op : Nat) (d : Dev) : Dev :=
  let d1 := Dev.taeSkip d.tbl.queue.length d
  match d1.tbl.queue with
  | q :: _ =>
    if d1.unmirrored q then d1.mirrorWaiting
    else if reqOp q.req = op ∧ d1.taeDue q = true ∧ d1.taeMay q = true then d1.taeHead q
    else d1
  | [] => d1

/-- The 256-byte records of a list. -/
def bulkRecords (n : Nat) (l : List Byte) : List (BitVec 2048) :=
  (List.range (min n (l.length / 256))).map fun i => BitVec.ofNat 2048 (leNat ((l.drop (256 * i)).take 256))

/-- The request at the head changes. -/
def Dev.setHead (d : Dev) (q : TaeReq) : Dev := { d with tbl := { d.tbl with queue := q :: d.tbl.queue.tail } }

/-- The list of a BULK is read: its records, and DMA_ERROR as the end where the DMA brought fewer. A check unit at point 4 sees the list; one
that was cut short has no comparison (R203, R441, R443). -/
def Dev.bulkFetch (d : Dev) (q : TaeReq) (l : List Byte) : Dev :=
  let n := reqCount q.req
  let rs := bulkRecords n l
  let d1 := ((d.setHead { q with recs := some rs, stop := if rs.length < n then some stDma else none }).streamBegins 4 0 (256 * n)).streamFeed
    4 0 none (l.take (256 * n))
  if rs.length < n then d1.streamStops 4 0 else d1

/-- A BULK ends with a status after `n` records: first a check unit that still measures its list compares, and with a mismatch may end it with
DMA_ERROR (R441, R443). The changes that waited behind it are then mirrored. -/
def Dev.bulkEnd (d : Dev) (q : TaeReq) (status n : Nat) : Dev :=
  let (abort, d1) := d.streamEnds 4 0
  (d1.taeEnd q ⟨if abort then stDma else status, 0, n, 0⟩).mirrorWaiting

/-- A mirroring active accepts the records that this span's rates allow: those that would complete are mirrored one by one and wait for A;
where one would end otherwise, none from there on is executed or mirrored (R203, R216). -/
def Dev.bulkAccept (d : Dev) (q : TaeReq) (rs : List (BitVec 2048)) : Dev :=
  let o := (d.bulkRun q.done rs).1
  let k := o.index - q.done
  let good := rs.take k
  let ends := o.status ≠ stOk ∧ o.status ≠ stQueued
  if k = 0 then (if ends then d.bulkEnd q o.status q.done else d)
  else
    let q1 := { q with recs := some (if ends then good else rs), stop := if ends then some o.status else q.stop, ready := k,
                       apply := some d.mirrorSpan }
    (d.setHead q1).each (good.filter fun r => opChanges (reqOp r)) fun r d => d.mirror 1 q.master (bytesOf r)

/-- A BULK whose list has been read goes on with the records that are left. DESIGN CHOICE (25): where a record that a mirroring active had
accepted ends otherwise at A, the response names it, though the others accepted with it have executed on both twins. -/
def Dev.bulkGo (d : Dev) (q : TaeReq) (rs : List (BitVec 2048)) : Dev :=
  if rs = [] then d.bulkEnd q (q.stop.getD stOk) q.done
  else if q.ready ≠ 0 then
    let (x, d1) := d.bulkAll q.done none (rs.take q.ready)
    match x with
    | some o => d1.bulkEnd q o.status o.index
    | none =>
      let q1 := { q with recs := some (rs.drop q.ready), done := q.done + q.ready, ready := 0, apply := none }
      if rs.drop q.ready = [] then d1.bulkEnd q (q.stop.getD stOk) q1.done else d1.setHead q1
  else if d.mirrorOn then d.bulkAccept q rs
  else
    let (o, d1) := d.bulkRun q.done rs
    if o.status = stQueued then d1.setHead { q with recs := some (rs.drop (o.index - q.done)), done := o.index }
    else d1.bulkEnd q (if o.status = stOk then q.stop.getD stOk else o.status) o.index

/-- BULK: the records that the DMA brings are executed, as many in a span as the rates of their paths allow; while some are left the BULK stays at
the head of the queue, for the next command (R200, R203). On a mirroring active they are mirrored one by one and execute at A (R216). -/
def bulk (dma : Option (List Byte)) (d : Dev) : Dev :=
  let d1 := Dev.taeSkip d.tbl.queue.length d
  match d1.tbl.queue with
  | [] => d1
  | q :: _ =>
    let n := reqCount q.req
    if reqOp q.req ≠ 9 ∨ d1.taeDue q = false then d1
    else if d1.taeBarred 9 q.master then
      ((d1.streamStops 4 0).taeRefused none (if q.slot.isSome then 1 else 2) 6 q.master (q.slot.getD 0)).taeEnd q (taeFail stMode)
    else if n = 0 ∨ n > 1048576 ∨ byteField q.req 16 1 ≠ 0 then (d1.taeEnd q (taeFail stBad)).mirrorWaiting
    else match q.recs with
    | some rs => d1.bulkGo q rs
    | none =>
      let l := dma.getD []
      let d2 := d1.bulkFetch q l
      match d2.tbl.queue with
      | x :: _ => d2.bulkGo x (x.recs.getD [])
      | [] => d2

/-- A submission: queued with the next sequence number; a change that is mirrored takes effect at A (R196, R216). `win`: the byte whose word
answers an entry window read. -/
def Dev.taeQueue (d : Dev) (m : Nat) (slot : Option Nat) (r : BitVec 2048) (win : Option Nat := none) : Dev :=
  let seq := (d.tbl.seq + 1) % 2 ^ 32
  let q : TaeReq := { req := r, seq := seq, master := m, slot := slot, apply := none, recs := none, win := win }
  let d1 := { d with tbl := { d.tbl with seq := seq, queue := d.tbl.queue ++ [q] } }
  let d2 := match slot with
    | some n => { d1 with tbl := { d1.tbl with resp := d1.tbl.resp.set (fun _ => TaeResp.reset) n ⟨stQueued, 0, seq, 0, 0⟩ } }
    | none => d1
  d2.mirrorWaiting

/-- BAR2 answers as the TBL window does. -/
def tblOff : Nat := 0x0A000000

/-- Has the master the table-access window? PF1 has no BAR2 (R386). -/
def hasBar2 (m : Nat) : Bool := m != 7

/-- The request bytes of a slot (R195). -/
def Dev.slotReq (d : Dev) (slot : Nat) : BitVec 2048 := d.tbl.slots.get (fun _ => 0) slot

/-- The device with a slot's request bytes replaced. -/
def Dev.setSlotReq (d : Dev) (slot : Nat) (r : BitVec 2048) : Dev :=
  { d with tbl := { d.tbl with slots := d.tbl.slots.set (fun _ => 0) slot r } }

/-- The response of a slot. -/
def Dev.slotResp (d : Dev) (slot : Nat) : TaeResp := d.tbl.resp.get (fun _ => TaeResp.reset) slot

/-- The 256 bytes of a response (R199). -/
def respBytes (x : TaeResp) : BitVec 2048 :=
  BitVec.ofNat 2048 (packBytes [(0, 1, x.status), (1, 1, x.moves), (4, 4, x.seq), (8, 4, x.index)] + (x.data.toNat <<< 1024))

/-- TAE_SUBMIT: the slot takes the request's bytes, and its request is copied into the queue (R196). With the slot QUEUED the write of bytes 0 to
3 changes nothing; the others prepare the next submission. -/
def taeSubmit (m slot : Nat) (r : BitVec 2048) (d : Dev) : Dev :=
  if (d.slotResp slot).status = stQueued then
    (d.setSlotReq slot (setBits r 31 0 (bits (d.slotReq slot) 31 0))).taeRefused none 1 1 m slot
  else (d.setSlotReq slot r).taeQueue m (some slot) r

/-- A read in the operation slots: the request bytes as written, and the response (R195, R199). -/
def Dev.slotRead (d : Dev) (off : Nat) : Dev :=
  let b := off % 512 / 4 * 4
  if b < 256 then d.answer (byteField (d.slotReq (off / 512)) b 4) else d.answer (byteField (respBytes (d.slotResp (off / 512))) (b - 256) 4)

/-- A write in the operation slots: of request bytes, of which bytes 0 to 3 submit the request; a write of the response is ignored (R196, R199). -/
def Dev.slotWrite (d : Dev) (m off : Nat) (data : Word) : Dev :=
  let b := off % 512 / 4 * 4
  let r := setBits (d.slotReq (off / 512)) (8 * b + 31) (8 * b) data.toNat
  if 256 ≤ b then d else if b = 0 then taeSubmit m (off / 512) r d else d.setSlotReq (off / 512) r

/-! ### The entry window (R201) -/

/-- Execute the requests that wait, in order, up to one that cannot execute yet; by fuel. -/
def Dev.taeDrain : Nat → Dev → Dev
  | 0, d => d
  | n + 1, d => match d.tbl.queue with
    | q :: _ =>
      if (reqOp q.req = 9 ∧ d.taeBarred 9 q.master = false) ∨ d.unmirrored q = true then d
      else if d.taeDue q && d.taeMay q then Dev.taeDrain n (d.taeHead q) else d
    | [] => d

/-- The kind, entry and byte that a window offset names: none outside the region, for another kind, or beyond the memory. -/
def Dev.winEntry (d : Dev) (off : Nat) : Option (Nat × Nat × Nat) :=
  let k := d.rd F.TBL_TAE_WIN_KIND
  if off < 0x10000000 ∨ off ≥ 0x30000000 ∨ kindCap k = 0 then none
  else
    let o := off - 0x10000000
    let i := d.rd F.TBL_TAE_WIN_BASE + o / kindBytes k
    if i < kindCap k then some (k, i, o % kindBytes k) else none

/-- The READ_INDEX request of an entry. -/
def readIndexReq (k i : Nat) : BitVec 2048 := BitVec.ofNat 2048 (4 + (k <<< 32) + (i <<< 64))

/-- The WRITE_INDEX request of an entry. -/
def writeIndexReq (k i : Nat) (e : BitVec 1024) : BitVec 2048 := BitVec.ofNat 2048 (5 + (k <<< 32) + (i <<< 64) + (e.toNat <<< 1024))

/-- ENTRY_WINDOW_READ: from the master's latch, or by a READ_INDEX that waits for every request before it (R196, R201): where one of them cannot
execute yet, the answer comes when the READ_INDEX does. An offset in the operation slots reads the slot. -/
def entryWindowRead (m off : Nat) (d : Dev) : Dev :=
  if off < 0x40000 then d.slotRead off else
  match d.winEntry off with
  | none => d.answer 0
  | some (k, i, b) =>
    let held := match d.tbl.winLatch.get (fun _ => none) m with
      | some (key, e) => if key = memKey k i ∧ b ≥ 8 then some e else none
      | none => none
    match held with
    | some e => d.answer (entryWord e b)
    | none =>
      let d1 := d.taeQueue m none (readIndexReq k i) (some b)
      Dev.taeDrain d1.tbl.queue.length d1

/-- ENTRY_WINDOW_WRITE: the master's staging buffer takes the word; a complete entry is submitted (R201). An offset in the operation slots writes
the slot. -/
def entryWindowWrite (m off : Nat) (data : Word) (d : Dev) : Dev :=
  if off < 0x40000 then d.slotWrite m off data else
  match d.winEntry off with
  | none => d
  | some (k, i, b) =>
    if k < 7 then d.taeRefused none 2 3 m 0
    else if (d.mode = .m5 ∨ d.mode = .m6) ∧ m ≠ 8 then d.taeRefused none 2 6 m 0
    else
      let key := memKey k i
      let st := d.tbl.winStage.get (fun _ => none) m
      let partly := match st with
        | some (j, _, _) => j != key
        | none => false
      let d1 := if partly then d.taeRefused none 2 2 m 0 else d
      let (mask, e) := match st with
        | some (j, mk, e) => if j = key then (mk, e) else (0, 0)
        | none => (0, (0 : BitVec 1024))
      let w := b / 4
      let mask1 := mask ||| (1 <<< w)
      let e1 := setBits e (32 * w + 31) (32 * w) data.toNat
      let put (d : Dev) (x : Option (Nat × Nat × BitVec 1024)) : Dev :=
        { d with tbl := { d.tbl with winStage := d.tbl.winStage.set (fun _ => none) m x } }
      if mask1 = 2 ^ (kindBytes k / 4) - 1 then (put d1 none).taeQueue m none (writeIndexReq k i e1)
      else put d1 (some (key, mask1, e1))

/-! ### Rehash (R207 to R210) -/

/-- The tables of a kind in a bank that overlap entries first to first + count − 1. -/
def Dev.overlapsIn (d : Dev) (tag kind first count : Nat) : Bool :=
  match d.bankImage tag with
  | none => false
  | some im => (List.range im.schemas.length).any fun t => match im.schemas[t]? with
    | some s => let p := d.placeOf t s; s.kind == kind && p.base < first + count && first < p.base + p.cap
    | none => false

/-- A capacity that R171 allows for a kind. -/
def capacityLegal (kind cap : Nat) : Bool := 1024 ≤ cap && cap ≤ kindCap kind && cap == 2 ^ Nat.log2 cap

/-- Why an open is refused, by the codes of TBL_TAE_REFUSED byte 25; 0: it is not (R207). -/
def Dev.rehashBar (d : Dev) (m tid base cap : Nat) : Nat :=
  if d.tbl.rehash.isSome then 4
  else match d.exactPlace d.liveTag tid with
  | none => 8
  | some (_, p) =>
    if capacityLegal p.kind cap = false ∨ base % cap ≠ 0 ∨ base + cap > kindCap p.kind ∨ d.overlapsIn 0 p.kind base cap = true ∨
       d.overlapsIn 1 p.kind base cap = true then 5
    else if d.ksArmed then 7
    else if ¬(d.mode = .m2 ∨ d.mode = .m3 ∨ d.mode = .m4 ∨ d.mode = .m5) then 6
    else if d.mode = .m5 ∧ m ≠ 8 then 6
    else if d.mode = .m4 ∧ d.twn.copying = true then 6
    else 0

/-- Open a rehash: an empty shadow, to be filled from the live table's first entry. -/
def Dev.rehashStart (d : Dev) (tid base cap s0 s1 : Nat) : Dev :=
  match d.exactPlace d.liveTag tid with
  | none => d
  | some (_, p) =>
    let inShadow (k : Nat) : Bool := memKey p.kind base ≤ k && k < memKey p.kind (base + cap)
    let r : Rehash :=
      { table := tid, kind := p.kind, base := p.base, cap := p.cap, newBase := base, newCap := cap, seed0 := s0, seed1 := s1,
        pos := 0, poisoned := 0 }
    let d1 := { d with tbl := { d.tbl with rehash := some r, mem := d.tbl.mem.filter fun e => !inShadow e.1,
                                           poison := d.tbl.poison.filter fun e => !inShadow e.1 } }
    (d1.wr F.TBL_REHASH_STATUS_STATE 1).wr F.TBL_REHASH_COPIED_ENTRIES 0

/-- The body of a mirrored rehash open or abort: a request with OPCODE 0x81 or 0x83, the table, base, capacity and seeds. -/
def rehashReq (op tid base cap s0 s1 : Nat) : BitVec 2048 :=
  BitVec.ofNat 2048 (packBytes [(0, 1, op), (2, 2, tid), (8, 4, base), (12, 4, cap), (16, 4, s0), (20, 4, s1)])

/-- An open by master `m` with a placement and seeds (R207). -/
def Dev.rehashOpenWith (d : Dev) (m tid base cap s0 s1 : Nat) : Dev :=
  let why := d.rehashBar m tid base cap
  if why ≠ 0 then d.taeRefused (some tid) 3 why m 0
  else if d.mirrorOn then d.mirrorDefer 1 m (bytesOf (rehashReq 0x81 tid base cap s0 s1))
  else d.rehashStart tid base cap s0 s1

/-- The table of a rehash command, in TBL_REHASH_CTRL; a standby ignores a local master's (R343). -/
def Dev.rehashTable (d : Dev) (m tid : Nat) : Dev := if d.localBarred m then d else d.wr F.TBL_REHASH_CTRL_TABLE tid

/-- REHASH_OPEN: with the placement and seeds of the registers. -/
def rehashOpen (m tid : Nat) (d : Dev) : Dev :=
  (d.rehashTable m tid).rehashOpenWith m tid (d.rd F.TBL_REHASH_BASE_BASE) (d.rd F.TBL_REHASH_CAP_CAPACITY)
    (d.rd (F.TBL_REHASH_SEED.ix 0)) (d.rd (F.TBL_REHASH_SEED.ix 1))

/-- Copy live entries into the shadow in ascending index, while `n` operations are left: the listed entries still to look at. An entry costs one
operation and one per relocation move, all within its turn (R204). -/
def Dev.copyRun (d : Dev) (p : Place) : Nat → List Nat → Dev
  | _, [] => match d.tbl.rehash with
    | none => d
    | some r => (d.wr F.TBL_REHASH_STATUS_STATE 2).postTbl Ev.TBL_REHASH_READY (some r.table)
        [(28, 4, d.rd F.TBL_REHASH_COPIED_ENTRIES), (32, 4, r.poisoned)]
  | n, k :: t => match d.tbl.rehash with
    | none => d
    | some r =>
      let i := k - memKey p.kind 0
      let put (x : Rehash) : Dev := { d with tbl := { d.tbl with rehash := some x } }
      if d.poisoned p.kind i then Dev.copyRun (put { r with pos := i + 1 - p.base, poisoned := r.poisoned + 1 }) p n t
      else if exValid p.kind (d.entry p.kind i) = false then Dev.copyRun (put { r with pos := i + 1 - p.base }) p n t
      else if n = 0 then d
      else
        let d0 := put { r with pos := i + 1 - p.base }
        let cost := match d0.insertPlan (r.shadow p.keyBits) (p.keyOf (d.entry p.kind i)) with
          | .room _ k _ => 1 + k
          | _ => 1
        let d1 := (d0.shadowPut (r.shadow p.keyBits) (d.entry p.kind i)).countOps 1
        Dev.copyRun (if d1.tbl.rehash.isSome then d1.wr F.TBL_REHASH_COPIED_ENTRIES (d1.rd F.TBL_REHASH_COPIED_ENTRIES + 1) else d1)
          p (n - cost) t

/-- REHASH_COPY: once a span, the copy takes what learning and requests, those that wait included, leave of 320 operations, and at least 32
(R208). -/
def rehashCopy (d : Dev) : Dev :=
  match d.tbl.rehash with
  | none => d
  | some r =>
    if d.tbl.copyTick = some d.tim.tick ∨ d.rd F.TBL_REHASH_STATUS_STATE ≠ 1 then d
    else match d.exactPlace d.liveTag r.table with
    | none => d
    | some (_, p) =>
      let used := d.spanCount d.tbl.ops + d.learnClaim + (d.tbl.queue.filter fun q => 1 ≤ reqOp q.req && reqOp q.req ≤ 3).length
      let keys := ((d.tbl.mem.map (·.1) ++ d.tbl.poison.map (·.1)).filter fun k =>
        memKey p.kind (p.base + r.pos) ≤ k && k < memKey p.kind (p.base + p.cap)).dedup.insertionSort (· ≤ ·)
      { d with tbl := { d.tbl with copyTick := some d.tim.tick } }.copyRun p (max 32 (320 - used)) keys

/-- Does a bank's schema give the table the placement it had at the open of the rehash? -/
def Dev.sharesOpen (d : Dev) (r : Rehash) (tag : Nat) : Bool :=
  match d.schema tag r.table with
  | some s => let p := d.placeOf r.table s; p.kind == r.kind && p.base == r.base && p.cap == r.cap
  | none => false

/-- The placements that a commit puts in force: every bank whose schema gives the table the placement it had at the open. A held old bank with
another placement keeps it, and its seeds; where the live bank has another, it keeps the seeds in force, and the held old bank alone takes the
shadow's (R209). -/
def Dev.commitPlaces (d : Dev) (r : Rehash) : List Placed :=
  let old := d.tbl.places.get (fun _ => []) r.table
  [0, 1].foldl (fun l tag => match d.schema tag r.table with
    | some s =>
      let p := d.placeOf r.table s
      if p.kind = r.kind ∧ p.base = r.base ∧ p.cap = r.cap then
        ⟨s.kind, s.base, s.capacity, r.newBase, r.newCap, if d.sharesOpen r d.liveTag then none else some (r.seed0, r.seed1)⟩ ::
          l.filter fun x => !(x.kind == s.kind && x.base == s.base && x.cap == s.capacity)
      else if tag ≠ d.liveTag ∧ d.on F.TIM_BANK_STATUS_OLD_HELD = true ∧ 2 ≤ s.kind ∧ s.kind ≤ 6 then
        ⟨s.kind, s.base, s.capacity, p.base, p.cap, some (p.seed0, p.seed1)⟩ ::
          l.filter fun x => !(x.kind == s.kind && x.base == s.base && x.cap == s.capacity)
      else l
    | none => l) old

/-- REHASH_COMMIT: the shadow becomes the table, in one clock (R209). -/
def rehashCommit (m tid : Nat) (d0 : Dev) : Dev :=
  let d := d0.rehashTable m tid
  match d.tbl.rehash with
  | none => d.taeRefused (some tid) 3 8 m 0
  | some r =>
    if r.table ≠ tid ∨ d.rd F.TBL_REHASH_STATUS_STATE ≠ 2 then d.taeRefused (some tid) 3 8 m 0
    else if (d.mode = .m4 ∧ m ≠ 1) ∨ ((d.mode = .m5 ∨ d.mode = .m6) ∧ m ≠ 8) then d.taeRefused (some tid) 3 6 m 0
    else
      let seeds := if d.sharesOpen r d.liveTag then d.img.seeds.set (fun _ => none) tid (some (r.seed0, r.seed1)) else d.img.seeds
      let d1 := { d with
        tbl := { d.tbl with rehash := none, places := d.tbl.places.set (fun _ => []) tid (d.commitPlaces r) },
        img := { d.img with seeds := seeds } }
      let f := F.TBL_REHASH_PEND_PEND.ix (tid / 32)
      let d2 := (d1.wr f (d1.rd f - (if (d1.rd f >>> (tid % 32)) % 2 = 1 then 1 <<< (tid % 32) else 0))).wr F.TBL_REHASH_STATUS_STATE 0
      d2.postTbl Ev.TBL_REHASH_COMMIT (some tid) [(28, 4, r.newBase), (32, 4, r.newCap), (36, 4, r.seed0), (40, 4, r.seed1)]

/-- REHASH_ABORT: an open rehash ends before its commit (R209). -/
def rehashAbort (m tid : Nat) (d0 : Dev) : Dev :=
  let d := d0.rehashTable m tid
  if d.tbl.rehash.isNone then d.taeRefused (some tid) 3 8 m 0
  else if (d.mode = .m5 ∨ d.mode = .m6) ∧ m ≠ 8 then d.taeRefused (some tid) 3 6 m 0
  else if d.mirrorOn then d.mirrorDefer 1 m (bytesOf (rehashReq 0x83 tid 0 0 0 0))
  else d.rehashFail 2

/-- A mirrored request takes effect (R342): a request of R197, or a rehash open or abort. -/
def Dev.applyRequest (d : Dev) (r : BitVec 2048) : Dev :=
  if reqOp r = 0x81 then
    if d.rehashBar 8 (reqTable r) (reqIndex r) (reqCount r) = 0 then
      d.rehashStart (reqTable r) (reqIndex r) (reqCount r) (byteField r 16 4) (byteField r 20 4)
    else d.taeRefused (some (reqTable r)) 3 (d.rehashBar 8 (reqTable r) (reqIndex r) (reqCount r)) 8 0
  else if reqOp r = 0x83 then d.rehashFail 2
  else (d.taeOp r).2

/-! ### Ageing (R211 to R213) -/

/-- The sweep removes nothing on a standby (R216). -/
def Dev.sweepRemoves (d : Dev) : Bool := !(d.mode == .m5 || d.mode == .m6)

/-- An ageing removal reported, up to EV_MAX in a span (R212). -/
def Dev.agedEvent (d : Dev) (tid kind i key : Nat) : Dev :=
  let n := if d.tbl.agedEv.1 = d.tim.tick then d.tbl.agedEv.2 else 0
  if n ≥ d.rd F.TBL_AGE_CFG_EV_MAX then d.bump F.TBL_AGE_EV_SUPPRESSED
  else
    { d with tbl := { d.tbl with agedEv := (d.tim.tick, n + 1) } }.postTbl Ev.TBL_AGED (some tid)
      [(24, 1, kind), (28, 4, i), (32, 32, key)]

/-- Evaluate an entry, and remove it when it is older than the table's limit (R212). -/
def Dev.sweepEntry (d : Dev) (tid : Nat) (s : Schema) (p : Place) (i : Nat) : Dev :=
  let e := d.entry p.kind i
  let age := (d.ageTick s + 65536 - exAge p.kind e) % 65536
  if exValid p.kind e && !exStatic p.kind e && !d.poisoned p.kind i && decide (age > min s.ageLimit 32767) && d.sweepRemoves then
    let key := exKey p.kind e
    let e1 := exSetValid p.kind e false
    let d1 := ((d.putEntry p.kind i e1).shadowSync tid p key false).bump F.TBL_AGE_REMOVED
    (d1.mirror 6 0 (entryBody tid i e1)).agedEvent tid p.kind i key
  else d

/-- The tables that age: in the live bank, in ascending ID. -/
def Dev.ageingTables (d : Dev) : List Nat :=
  match d.liveImage with
  | none => []
  | some im => (List.range im.schemas.length).filter fun t => match im.schemas[t]? with
    | some s => s.ageing && 2 ≤ s.kind && s.kind ≤ 6
    | none => false

/-- The sweep starts a table: it lags when more than 32,768 ticks have passed since it last did (R213). -/
def Dev.sweepBegin (d : Dev) (tid : Nat) (s : Schema) : Dev :=
  let now := d.periodic
  let d1 := { d with tbl := { d.tbl with sweepStart := d.tbl.sweepStart.set (fun _ => none) tid (some now) } }
  match d.tbl.sweepStart.get (fun _ => none) tid with
  | none => d1
  | some t =>
    let n := (now >>> s.ageK) - (t >>> s.ageK)
    if n > 32768 then d1.postTbl Ev.TBL_AGE_LAG (some tid) [(28, 4, n)] else d1

/-- Sweep up to `n` entries of the tables of a list, the first from offset `o`; where it stopped is the next visit. -/
def Dev.sweepRun (d : Dev) : Nat → Nat → List Nat → Dev
  | _, _, [] => d
  | o, n, t :: rest => match d.exactPlace d.liveTag t with
    | none => Dev.sweepRun d 0 n rest
    | some (s, p) =>
      let d1 := if o = 0 then d.sweepBegin t s else d
      let k := min n (p.cap - o)
      let found := (d1.tbl.mem.filter fun e => memKey p.kind (p.base + o) ≤ e.1 && e.1 < memKey p.kind (p.base + o + k)).map (·.1)
      let d2 := d1.each found fun key d => d.sweepEntry t s p (key - memKey p.kind 0)
      if o + k < p.cap then { d2 with tbl := { d2.tbl with sweepAt := (t, o + k) } }
      else
        let ts := d.ageingTables
        let d3 := { d2 with tbl := { d2.tbl with sweepAt := ((ts.filter (t < ·)).headD (ts.headD 0), 0) } }
        if n - k = 0 then d3 else Dev.sweepRun d3 0 (n - k) rest

/-- AGEING_SWEEP: once a span, up to 2,048 entries, unless disabled or shed (R211), while the pair that runs the ageing agent runs (R366). -/
def ageingSweep (d : Dev) : Dev :=
  let ts := d.ageingTables
  if d.serviceRuns F.CTL_SVC_MAP_LEARN = false ∨ d.on F.TBL_AGE_CFG_EN = false ∨ d.shed ≥ 2 ∨ d.tbl.sweepTick = some d.tim.tick ∨ ts = [] then d
  else
    let d0 := { d with tbl := { d.tbl with sweepTick := some d.tim.tick } }
    let (t, o) := d.tbl.sweepAt
    let from' := if ts.contains t then t else (ts.filter (t < ·)).headD (ts.headD 0)
    let o1 := if from' = t then o else 0
    d0.sweepRun o1 2048 (ts.filter (from' ≤ ·) ++ ts.filter (· < from'))

/-! ### Retire list (R215) -/

/-- The adjacency or encapsulation entry made invalid. -/
def clearValid (kind : Nat) (e : BitVec 1024) : BitVec 1024 := putBit e (if kind = 7 then 127 else 792) false

/-- A range is released: its entries become invalid and writable. -/
def Dev.releaseRange (d : Dev) (x : Retired) : Dev :=
  let keys := (d.tbl.mem.filter fun e => memKey x.kind x.first ≤ e.1 && e.1 < memKey x.kind (x.first + x.count)).map (·.1)
  let d1 := { d with tbl := { d.tbl with retire := d.tbl.retire.filter (· != x) } }
  let d2 := d1.each keys fun k d =>
    let i := k - memKey x.kind 0
    { d with tbl := { d.tbl with mem := d.tbl.mem.set (fun _ => 0) k (clearValid x.kind (d.entry x.kind i)) } }
  (d2.bump F.TBL_RETIRE_RELEASED).postTbl Ev.TBL_RETIRE_RELEASED none [(24, 1, x.kind), (28, 4, x.first), (32, 4, x.count)]

/-- RETIRE_RELEASE: the ranges whose release span has come. -/
def retireRelease (d : Dev) : Dev :=
  d.each (d.tbl.retire.filter fun x => spanReached x.release d.tim.span) fun x d => d.releaseRange x

/-! ### The commands -/

/-- TAE_SUBMIT (R196). -/
def execTaeSubmit (m : Master) (slot : Fin 512) (r : BitVec 2048) (s : State) : Host.Outcome State Fault Refusal :=
  onReg s m.val tblOff fun d => if hasBar2 m.val then taeSubmit m.val slot.val r d else d
/-- READ_KEY (R198). -/
def execReadKey (s : State) : Host.Outcome State Fault Refusal := .next { s with dev := taeRun 1 s.dev }
/-- INSERT (R204). -/
def execInsert (s : State) : Host.Outcome State Fault Refusal := .next { s with dev := taeRun 2 s.dev }
/-- DELETE (R198). -/
def execDelete (s : State) : Host.Outcome State Fault Refusal := .next { s with dev := taeRun 3 s.dev }
/-- READ_INDEX (R198). -/
def execReadIndex (s : State) : Host.Outcome State Fault Refusal := .next { s with dev := taeRun 4 s.dev }
/-- WRITE_INDEX (R202). -/
def execWriteIndex (s : State) : Host.Outcome State Fault Refusal := .next { s with dev := taeRun 5 s.dev }
/-- LPM_INSERT (R170). -/
def execLpmInsert (s : State) : Host.Outcome State Fault Refusal := .next { s with dev := taeRun 6 s.dev }
/-- LPM_DELETE (R198). -/
def execLpmDelete (s : State) : Host.Outcome State Fault Refusal := .next { s with dev := taeRun 7 s.dev }
/-- LPM_READ (R198). -/
def execLpmRead (s : State) : Host.Outcome State Fault Refusal := .next { s with dev := taeRun 8 s.dev }
/-- BULK (R203). -/
def execBulk (dma : Option (List Byte)) (s : State) : Host.Outcome State Fault Refusal := .next { s with dev := bulk dma s.dev }
/-- RETIRE (R214). -/
def execRetire (s : State) : Host.Outcome State Fault Refusal := .next { s with dev := taeRun 10 s.dev }
/-- ENTRY_WINDOW_READ (R201). -/
def execEntryWindowRead (m : Master) (off : BitVec 30) (s : State) : Host.Outcome State Fault Refusal :=
  .next { s with dev := s.dev.onRead m.val tblOff fun d => if hasBar2 m.val then entryWindowRead m.val off.toNat d else d.answer 0 }
/-- ENTRY_WINDOW_WRITE (R201). -/
def execEntryWindowWrite (m : Master) (off : BitVec 30) (data : Word) (s : State) : Host.Outcome State Fault Refusal :=
  onReg s m.val tblOff fun d => if hasBar2 m.val then entryWindowWrite m.val off.toNat data d else d
/-- REHASH_OPEN (R207). -/
def execRehashOpen (m : Master) (t : BitVec 8) (s : State) : Host.Outcome State Fault Refusal :=
  onReg s m.val F.TBL_REHASH_CTRL.off (rehashOpen m.val t.toNat)
/-- REHASH_COPY (R208). -/
def execRehashCopy (s : State) : Host.Outcome State Fault Refusal := .next { s with dev := rehashCopy s.dev }
/-- REHASH_COMMIT (R209). -/
def execRehashCommit (m : Master) (t : BitVec 8) (s : State) : Host.Outcome State Fault Refusal :=
  onReg s m.val F.TBL_REHASH_CTRL.off (rehashCommit m.val t.toNat)
/-- REHASH_ABORT (R209). -/
def execRehashAbort (m : Master) (t : BitVec 8) (s : State) : Host.Outcome State Fault Refusal :=
  onReg s m.val F.TBL_REHASH_CTRL.off (rehashAbort m.val t.toNat)
/-- AGEING_SWEEP (R212). -/
def execAgeingSweep (s : State) : Host.Outcome State Fault Refusal := .next { s with dev := ageingSweep s.dev }
/-- RETIRE_RELEASE (R215). -/
def execRetireRelease (s : State) : Host.Outcome State Fault Refusal := .next { s with dev := retireRelease s.dev }

end Sys2Proof.Machine
end

