-- ==== Sys2Proof/Machine/Tim.lean ====
section
/-! DEFINITION. Time: the span time counter and its sources, the precision clock, time of day, and the timed-action table's arms and
cancels (R32 to R51, R57, R488 to R490). -/

namespace Sys2Proof.Machine

/-! ### Losing and gaining lock (R36, R37, R488, R489) -/

/-- LOCKED clears, and TIM_LOCK_LOST tells it. -/
def Dev.lockLost (d : Dev) : Dev :=
  (d.wr F.TIM_STATUS_LOCKED 0).post Ev.TIM_LOCK_LOST [(24, 1, d.rd F.TIM_CTRL_SRC), (32, 6, d.tim.span)]

/-- A source's own condition fails: a set LOCKED clears (R36, R39). -/
def Dev.loseLock (d : Dev) : Dev := if d.locked then d.lockLost else d

/-- A timed-action entry. -/
def Dev.entryAt (d : Dev) (i : Nat) : TaEntry := d.tim.entries.get (fun _ => TaEntry.reset) i
/-- The device with an entry replaced. -/
def Dev.setEntry (d : Dev) (i : Nat) (e : TaEntry) : Dev :=
  { d with tim := { d.tim with entries := d.tim.entries.set (fun _ => TaEntry.reset) i e } }

/-- After a load of the STC every armed entry less than 2 spans ahead, or in the past, is MISSED (R37). -/
def Dev.missEntries (d : Dev) : Dev :=
  d.each (d.tim.entries.map (·.1)) fun i d =>
    let e := d.entryAt i
    if e.state = .armed ∧ spanAtLeast e.span d.tim.span 2 = false then
      (d.setEntry i { e with state := .missed }).post Ev.TIM_MISSED [(24, 1, i), (25, 1, e.type), (32, 6, e.span)]
    else d

/-- LOCKED sets, with the STC at a span: TIM_LOCK_GAINED tells a backward step, entries may be missed (R37, R488, R489). -/
def Dev.gainLock (d : Dev) (span slot : Nat) : Dev :=
  let back := if spanFuture span d.tim.span then 0 else 1
  let d1 := { d with tim := { d.tim with span := span % 2 ^ 48, slot := slot, stcTick := d.tim.tick, relockAt := some d.tim.tick } }
  (((d1.wr F.TIM_STATUS_LOCKED 1).wr F.TIM_STATUS_BACKWARD back).post Ev.TIM_LOCK_GAINED
    [(24, 1, d.rd F.TIM_CTRL_SRC), (25, 1, back), (32, 6, span)]).missEntries

/-- SPAN_START: the internal span tick moves on, and with it the STC unless it is held (R32, R36). -/
def spanStart (d : Dev) : Dev :=
  let t := { d.tim with tick := d.tim.tick + 1, tickSlot := 0 }
  if d.stcHeld then { d with tim := t }
  else { d with tim := { t with span := spanAdd d.tim.span 1, slot := 0, stcTick := d.tim.tick + 1 } }

/-- A slot of the span passes (R32): what the block does by itself while no command waits. Slot 99 lasts until SPAN_START; the internal
span tick's slots pass likewise, and a held STC keeps its slot (R36). -/
def slotPasses (d : Dev) : Dev :=
  { d with tim := { d.tim with
    tickSlot := min 99 (d.tim.tickSlot + 1),
    slot := if d.stcHeld = true ∨ 99 ≤ d.tim.slot then d.tim.slot else d.tim.slot + 1 } }

/-- SRC_SELECT: only in M2, and only 0 without the SELF_TIMED strap (R34). With a new source LOCKED reads 0 until that source's own condition
is met; with SRC = 1 the STC holds until the PLL has locked to the reference (R39, R488, R489). What the source before it left (PPS_LOCK
and the good edges counted, a ToD message that waits) is kept: DESIGN CHOICE (14). -/
def srcSelect (src : Nat) (d : Dev) : Dev :=
  if d.mode ≠ .m2 ∨ src = 3 ∨ (d.on F.GLB_STRAP_SELF_TIMED = false ∧ src ≠ 0) ∨ src = d.rd F.TIM_CTRL_SRC then d
  else
    let d1 := (d.wr F.TIM_CTRL_SRC src).wr F.TIM_STATUS_LOCKED 0
    { d1 with tim := { d1.tim with pllLocked := if src = 1 then false else d1.tim.pllLocked, stcTick := d.tim.tick } }

/-- What a link's valid control slot of the span at internal tick `t` carried: its SPAN, and the STC's span at its receipt. -/
def Dev.linkSpanAt (d : Dev) (i t : Nat) : Option (Nat × Nat) :=
  ((d.fab.linkSpans.get (fun _ => []) i).find? fun e => e.1 == t).map (·.2)

/-- A link is up and not excluded as a time source. -/
def Dev.timeLink (d : Dev) (i : Nat) : Bool := (d.rd F.FAB_LINKS_UP_UP >>> i) % 2 == 1 && !bitOn d.tim.excluded i

/-- The time source of the span at tick `t`: the lowest-numbered link that is up, not excluded, and gave a valid control slot (R35). -/
def Dev.timeSourceAt (d : Dev) (t : Nat) : Option Nat :=
  (List.range 40).find? fun i => d.timeLink i && (d.linkSpanAt i t).isSome

/-- The spans by which link `i` disagrees with the time source in the span at tick `t`, if it does: its own and the source's (R35). -/
def Dev.disagreeAt (d : Dev) (i t : Nat) : Option (Nat × Nat) :=
  match d.timeSourceAt t, d.linkSpanAt i t with
  | some r, some a => match d.linkSpanAt r t with
    | some b => if a.1 = b.1 then none else some (a.1, b.1)
    | none => none
  | _, _ => none

/-- SPAN_DISAGREE: an up link whose SPAN has differed from the time source's in this span and the one before is excluded as a time source;
the exclusion is what the fabric interface is told (R35, R296). -/
def spanDisagree (link : Nat) (d : Dev) : Dev :=
  if d.rd F.TIM_CTRL_SRC ≠ 0 ∨ d.timeLink link = false ∨ d.tim.tick = 0 then d
  else match d.disagreeAt link d.tim.tick, d.disagreeAt link (d.tim.tick - 1) with
    | some (a, b), some _ =>
      ({ d with tim := { d.tim with excluded := putBit d.tim.excluded link true } }).post Ev.TIM_SPAN_DISAGREE
        [(24, 1, link), (32, 6, a), (40, 6, b)]
    | _, _ => d

/-- FABRIC_TIME_LOSS: no up link has given a valid control slot for 4 spans (R36). -/
def fabricTimeLoss (d : Dev) : Dev :=
  if d.rd F.TIM_CTRL_SRC = 0 ∧ d.locked = true ∧ d.tim.lastCtl + 4 ≤ d.tim.tick then d.loseLock else d

/-- The last valid control slot of a link, if it came in this span or the one before: its tick and SPAN. -/
def Dev.lastControl (d : Dev) (i : Nat) : Option (Nat × Nat) :=
  match d.fab.linkSpans.get (fun _ => []) i with
  | (t, span, _) :: _ => if d.tim.tick ≤ t + 1 then some (t, span) else none
  | [] => none

/-- The lowest-numbered time link that has given a valid control slot for 4 consecutive spans (R37). -/
def Dev.fabricSteady (d : Dev) : Option Nat :=
  (List.range 40).find? fun i => d.timeLink i && 4 ≤ d.fab.linkRun.get (fun _ => 0) i && (d.lastControl i).isSome

/-- FABRIC_RELOCK: the STC is loaded from the link, at slot 0 of the present span (R37). -/
def fabricRelock (d : Dev) : Dev :=
  match d.fabricSteady.bind d.lastControl with
  | some (t, span) =>
    if d.rd F.TIM_CTRL_SRC = 0 ∧ d.locked = false ∧ d.tim.pllLocked = true then d.gainLock (spanAdd span (d.tim.tick - t)) 0 else d
  | none => d

/-- PLL_LOCK: with SRC = 1 the STC counts on from its held value (R488). -/
def pllLock (d : Dev) : Dev :=
  if d.tim.pllLocked then d
  else
    let d1 := { d with tim := { d.tim with pllLocked := true, stcTick := d.tim.tick } }
    if d.rd F.TIM_CTRL_SRC = 1 then d1.gainLock d.tim.span d.tim.slot else d1

/-- PLL_LOCK_LOSS, in every source and whatever LOCKED was: a locked PLL loses its lock (R489). -/
def pllLockLoss (d : Dev) : Dev :=
  if d.tim.pllLocked then ({ d with tim := { d.tim with pllLocked := false } }).lockLost else d

/-! ### PPS and time of day (R38, R41 to R44) -/

/-- The PHC steps by `n` units of 2^-16 ns: above the threshold TIM_TOD_STEP tells it (R44). -/
def Dev.todStep (d : Dev) (n : Int) : Dev :=
  if n.natAbs > d.rd F.TIM_TOD_STEP_THR_THR * 65536 then d.post Ev.TIM_TOD_STEP [(24, 8, (n % 2 ^ 64).toNat)] else d

/-- The device with a ToD base and correction; the step of the PHC is told. -/
def Dev.setBase (d : Dev) (sec ns corr : Nat) : Dev :=
  let d1 := ((d.wr F.TIM_TOD_BASE sec).wr F.TIM_TOD_BASE_NS ns).wr F.TIM_CORR corr
  let tick := 32 * d.tim.slot
  d1.todStep ((d1.phcUnits d.tim.span tick : Int) - d.phcUnits d.tim.span tick)

/-- The PHC is set to a second and 0 ns at this instant: the ToD base is recomputed, to the next whole nanosecond (R42). -/
def Dev.setPhc (d : Dev) (sec : Nat) : Dev :=
  let now := d.tim.span * 1024000 * 65536 + 32 * d.tim.slot * 2097152 / 100
  let base : Int := -((now + signed32 (d.rd F.TIM_CORR) - (sec : Int) * 65536000000000) / 65536)
  let b := (base % (2 ^ 48 * 1000000000)).toNat
  (d.setBase (b / 1000000000) (b % 1000000000) (d.rd F.TIM_CORR)).wr F.TIM_STATUS_TOD_VALID 1

/-- PPS_LOCK clears and TIM_PPS_LOST is posted, if it was set (R38). -/
def Dev.losePps (d : Dev) : Dev :=
  if d.on F.TIM_STATUS_PPS_LOCK then
    (d.wr F.TIM_STATUS_PPS_LOCK 0).post Ev.TIM_PPS_LOST [(24, 4, d.rd F.TIM_PPS_PHASE)]
  else d

/-- An edge's error, in units of 0.32 ns, against the discipline: the eighth in a row within 20 ns locks, one above 100 ns unlocks (R38). -/
def Dev.ppsError (d : Dev) (err : Int) : Dev :=
  let good := if err.natAbs * 32 ≤ 2000 then d.tim.ppsGood + 1 else 0
  let d1 := ({ d with tim := { d.tim with ppsGood := good } }).wr F.TIM_PPS_PHASE (err % 2 ^ 32).toNat
  if err.natAbs * 32 > 10000 then d1.losePps
  else if good ≥ 8 then d1.wr F.TIM_STATUS_PPS_LOCK 1 else d1

/-- PPS_EDGE: with SRC = 1 and IN_EN the PLL is disciplined; an accepted ToD message takes effect at it while self-timed (R38, R42), also
while the STC and the PHC are held: DESIGN CHOICE (14). -/
def ppsEdge (err : BitVec 32) (d : Dev) : Dev :=
  let d1 := if d.rd F.TIM_CTRL_SRC = 1 ∧ d.on F.TIM_PPS_CFG_IN_EN = true then d.ppsError err.toInt else d
  match d1.tim.todPending with
  | none => d1
  | some s => if d.rd F.TIM_CTRL_SRC = 0 then d1
    else ({ d1 with tim := { d1.tim with todPending := none } }).setPhc s.toNat

/-- PPS_EDGES_MISSING: 3 expected edges are missing (R38). -/
def ppsEdgesMissing (d : Dev) : Dev :=
  if d.rd F.TIM_CTRL_SRC = 1 ∧ d.on F.TIM_PPS_CFG_IN_EN = true then ({ d with tim := { d.tim with ppsGood := 0 } }).losePps else d

/-- The cause that TIM_TOD_RX_ERR gives for a message that ends `ms` ms after a PPS edge; 0: accepted. The causes are tried in the
order of their codes, and a message that has not the form of R41 (12 bytes, SYNC first) counts as one whose CRC fails: DESIGN CHOICE
(15). -/
def todCause (ms : Nat) (l : List Byte) : Nat :=
  if ms < 100 ∨ ms > 900 then 1
  else if l.length ≠ 12 ∨ l.getD 0 0 ≠ 0xA5 ∨ crc16 ((l.drop 1).take 9) ≠ leNat (l.drop 10) then 2
  else if (l.getD 8 0).toNat % 2 = 0 then 3
  else if l.getD 1 0 ≠ 1 then 4
  else 0

/-- TOD_MESSAGE_RX: a message that ends `ms` ms after a PPS edge (R41, R42). -/
def todMessageRx (ms : Nat) (l : List Byte) (d : Dev) : Dev :=
  if todCause ms l ≠ 0 then d.post Ev.TIM_TOD_RX_ERR [(24, 1, todCause ms l)]
  else { d with tim := { d.tim with todPending := some (BitVec.ofNat 48 (leNat ((l.drop 2).take 6))) } }

/-- PHC_SECOND: TIME_PPS_OUT rises for OUT_WIDTH spans and the second's ToD message is due (R42). -/
def phcSecond (d : Dev) : Dev :=
  let s := d.phcNs / 1000000000
  if d.stcHeld = true ∨ s = d.tim.phcSecond then d
  else
    let d1 := { d with tim := { d.tim with phcSecond := s, todTxDue := true } }
    if d.on F.TIM_PPS_CFG_OUT_EN then
      { d1 with tim := { d1.tim with ppsOutUntil := d.slotTick + 100 * d.rd F.TIM_PPS_CFG_OUT_WIDTH } }
    else d1

/-- The ToD message that names a second (R41). -/
def todMessage (sec : Nat) (valid : Bool) : List Byte :=
  let body := [1] ++ leBytes 6 sec ++ [if valid then 1 else 0, 0]
  [0xA5] ++ body ++ leBytes 2 (crc16 body)

/-- TOD_MESSAGE_TX: from 500 ms after the PHC second, the message names the next one (R41, R42). -/
def todMessageTx (d : Dev) : Dev :=
  if d.on F.TIM_PPS_CFG_OUT_EN = false ∨ d.tim.todTxDue = false ∨ d.phcNs % 1000000000 < 500000000 then d
  else { d with tim := { d.tim with todTxDue := false, todTx := todMessage (d.phcNs / 1000000000 + 1) (d.on F.TIM_STATUS_TOD_VALID) } }

/-- The ToD base that came in an earlier span. -/
def Dev.dueBase (d : Dev) : Option (Nat × Nat) := if d.tim.basePendingTick < d.tim.tick then d.tim.basePending else none
/-- The correction that came in an earlier span. -/
def Dev.dueCorr (d : Dev) : Option (BitVec 32) := if d.tim.corrPendingTick < d.tim.tick then d.tim.corrPending else none

/-- TOD_BASE_UPDATE: a base or correction that came in an earlier span applies, at slot 0 (R44). -/
def todBaseUpdate (d : Dev) : Dev :=
  if d.stcHeld = true ∨ d.tim.slot ≠ 0 ∨ (d.dueBase = none ∧ d.dueCorr = none) then d
  else
    let b := d.dueBase.getD (d.rd F.TIM_TOD_BASE, d.rd F.TIM_TOD_BASE_NS)
    let c := (d.dueCorr.map (·.toNat)).getD (d.rd F.TIM_CORR)
    let t := { d.tim with basePending := if d.dueBase.isSome then none else d.tim.basePending,
                          corrPending := if d.dueCorr.isSome then none else d.tim.corrPending }
    let d1 := ({ d with tim := t }).setBase b.1 b.2 c
    if d.dueBase.isSome then d1.wr F.TIM_STATUS_TOD_VALID 1 else d1

/-- A write of TIM_CORR while self-timed waits for slot 0 of the next span; with SRC = 0 it is ignored (R44). -/
def Dev.corrWrite (d : Dev) (data : Word) : Dev :=
  if d.rd F.TIM_CTRL_SRC = 0 then d
  else { d with tim := { d.tim with corrPending := some data, corrPendingTick := d.tim.tick } }

/-! ### Span sync (R39, R40) -/

/-- SPAN_SYNC_MARKER at a slot of the running span: an armed one loads the STC, any other is checked. An armed one also loads it while the
PLL is unlocked, and LOCKED then waits for another, and while LOCKED = 1, where TIM_LOCK_GAINED is posted again: DESIGN CHOICE (14). -/
def spanSyncMarker (slot : Nat) (d : Dev) : Dev :=
  if d.rd F.TIM_CTRL_SRC ≠ 2 then d
  else if d.on F.TIM_SYNC_CFG_LOAD_ARM then
    let d1 := d.wr F.TIM_SYNC_CFG_LOAD_ARM 0
    let s := d.rd F.TIM_SYNC_LOAD
    if d.tim.pllLocked then d1.gainLock s 0 else { d1 with tim := { d1.tim with span := s, slot := 0, stcTick := d.tim.tick } }
  else if slot ≠ 0 ∨ d.tim.span % 1024 ≠ 0 then d.loseLock
  else d

/-- SPAN_SYNC_MARKERS_MISSING: 2 consecutive markers are missing. -/
def spanSyncMarkersMissing (d : Dev) : Dev := if d.rd F.TIM_CTRL_SRC = 2 then d.loseLock else d

/-- SYNC_LOAD_ARM: the next marker loads the STC; with SRC = 1 the write itself does. -/
def syncLoadArm (d : Dev) : Dev :=
  if d.rd F.TIM_CTRL_SRC = 1 then
    ({ d with tim := { d.tim with span := d.rd F.TIM_SYNC_LOAD, stcTick := d.tim.tick, relockAt := some d.tim.tick } }).missEntries
  else d.wr F.TIM_SYNC_CFG_LOAD_ARM 1

/-- SPAN_SYNC_OUT_MARKER: with OUT_EN, SPAN_SYNC_OUT is high in a span that is a multiple of 1,024 (R40). -/
def spanSyncOutMarker (d : Dev) : Dev :=
  if d.on F.TIM_SYNC_CFG_OUT_EN = true ∧ d.stcHeld = false ∧ d.tim.span % 1024 = 0 then
    { d with tim := { d.tim with syncOut := some d.tim.span } }
  else d

/-! ### Arms and cancels (R48 to R51, R54, R57, R490) -/

/-- The staging set of a master. -/
def Dev.stagingOf (d : Dev) (m : Nat) : TaStaging := d.tim.staging.get (fun _ => TaStaging.reset) m

/-- A master's index and staging set replaced. -/
def Dev.setStaging (d : Dev) (m : Nat) (s : TaStaging) : Dev :=
  { d with tim := { d.tim with staging := d.tim.staging.set (fun _ => TaStaging.reset) m s } }

/-- TA_STAGE_WRITE: a write of the master's index or staging set. SPAN and OPERAND are committed whole, which uses up the low half that the
master has staged of them (R8). -/
def taStageWrite (m : Nat) (which : TaStage) (v : BitVec 64) (d : Dev) : Dev :=
  let s := d.stagingOf m
  match which with
  | .index => d.setStaging m { s with index := v.toNat % 256 }
  | .span => (d.unstage m F.TIM_TA_SPAN.off).setStaging m { s with span := v.toNat % 2 ^ 48 }
  | .type => d.setStaging m { s with type := v.toNat % 16 }
  | .operand => (d.unstage m F.TIM_TA_OPERAND.off).setStaging m { s with operand := v }

/-- The BAR0 offset a register-write action names. -/
def taOffset (op : BitVec 64) : Nat := bits op 28 2 * 4

/-- The GLB, TIM, PWR and SEC windows, barred to register-write actions (R49). -/
def taBarred (off : Nat) : Bool := off < 0x2000000 || (0x15000000 ≤ off && off < 0x17000000)

/-- The case of R57 that refuses a keystone at span `k`; 0: none. -/
def Dev.ksCause (d : Dev) (m k : Nat) : Nat :=
  if d.ksArmed then 1
  else if d.on F.TIM_BANK_STATUS_OLD_HELD then 2
  else if d.rd F.IMG_STATUS_STAGED_STATE ≠ 3 then 3
  else if d.m7 then 4
  else if d.tim.ksFired = true ∧ spanFuture k (spanAdd (d.rd F.TIM_LAST_KEYSTONE) (d.tim.limitInForce + 16)) = false then 5
  else if !(2 ≤ d.mode.code && d.mode.code ≤ 6) || ((d.mode == .m5 || d.mode == .m6) && m != 8) then 6
  else 0

/-- A refused command leaves its entry but for CMD_RESULT (R50, R54). -/
def Dev.taRefuse (d : Dev) (i : Nat) (e : EvDesc) (pl : List (Nat × Nat × Nat)) : Dev :=
  (d.setEntry i { d.entryAt i with cmdResult := 2 }).post e ([(24, 1, i)] ++ pl)

/-- An arm of an entry by master `m`: was it accepted (R50, R57)? -/
def Dev.armEntry (d : Dev) (m i span type : Nat) (op : BitVec 64) : Bool × Dev :=
  let c := d.tim.span
  let e := d.entryAt i
  if d.locked = false then (false, d.taRefuse i Ev.TIM_UNLOCKED [(26, 1, m)])
  else if type ≥ 7 ∨ (type = 5 ∧ taBarred (taOffset op) = true) then
    (false, d.taRefuse i Ev.TIM_TA_BAD [(25, 1, type), (28, 4, taOffset op)])
  else if e.state = .armed then (false, d.taRefuse i Ev.TIM_TA_BUSY [(26, 1, m)])
  else if spanAtLeast span c 2 = false then (false, d.taRefuse i Ev.TIM_LATE [(26, 1, m), (32, 6, span), (40, 6, c)])
  else
    let k := if type = 1 then d.ksCause m span else 0
    if k ≠ 0 then (false, d.taRefuse i Ev.TIM_KEYSTONE_BUSY [(25, 1, k)])
    else (true, d.setEntry i { span := span, type := type, operand := op, state := .armed, cmdResult := 1, result := 0 })

/-- A cancel of an entry by master `m`: was it accepted (R51)? -/
def Dev.cancelEntry (d : Dev) (m i : Nat) : Bool × Dev :=
  let e := d.entryAt i
  if e.state = .armed ∧ spanAtLeast e.span d.tim.span 2 = true then
    (true, d.setEntry i { e with state := .free, cmdResult := 1 })
  else (false, d.taRefuse i Ev.TIM_LATE [(25, 1, 1), (26, 1, m), (32, 6, e.span), (40, 6, d.tim.span)])

/-- A local arm or cancel on the standby is ignored (R343); the arm of a keystone is refused by the checks of its own (R57). -/
def Dev.taLocal (d : Dev) (m : Nat) (keystone : Bool) (f : Dev → Dev) : Dev :=
  if (d.mode == .m5 || d.mode == .m6) && m != 8 && !keystone then d.post Ev.TWN_LOCAL_WRITE [(24, 1, m), (28, 4, F.TIM_TA_CMD.off)] else f d

/-- TA_ARM: the entry that the master's index names takes its staging set; an accepted arm is mirrored (R50, R342, R490). -/
def taArm (m : Nat) (d : Dev) : Dev :=
  d.taLocal m ((d.stagingOf m).type == 1) fun d =>
    let s := d.stagingOf m
    match d.armEntry m s.index s.span s.type s.operand with
    | (true, d1) => d1.mirror 3 m (leBytes 1 s.index ++ leBytes 1 s.type ++ leBytes 6 s.span ++ leBytes 8 s.operand.toNat)
    | (false, d1) => d1

/-- TA_CANCEL (R51). -/
def taCancel (m : Nat) (d : Dev) : Dev :=
  d.taLocal m false fun d =>
    match d.cancelEntry m (d.stagingOf m).index with
    | (true, d1) => d1.mirror 4 m (leBytes 1 (d.stagingOf m).index)
    | (false, d1) => d1

/-! ### The commands -/

/-- SRC_SELECT. -/
def execSrcSelect (m : Master) (src : BitVec 2) (s : State) : Host.Outcome State Fault Refusal :=
  onReg s m.val F.TIM_CTRL.off (srcSelect src.toNat)
/-- SPAN_DISAGREE. -/
def execSpanDisagree (link : Fin 40) (s : State) : Host.Outcome State Fault Refusal :=
  .next { s with dev := spanDisagree link.val s.dev }
/-- FABRIC_TIME_LOSS. -/
def execFabricTimeLoss (s : State) : Host.Outcome State Fault Refusal := .next { s with dev := fabricTimeLoss s.dev }
/-- FABRIC_RELOCK. -/
def execFabricRelock (s : State) : Host.Outcome State Fault Refusal := .next { s with dev := fabricRelock s.dev }
/-- PLL_LOCK. -/
def execPllLock (s : State) : Host.Outcome State Fault Refusal := .next { s with dev := pllLock s.dev }
/-- PLL_LOCK_LOSS. -/
def execPllLockLoss (s : State) : Host.Outcome State Fault Refusal := .next { s with dev := pllLockLoss s.dev }
/-- PPS_EDGE. -/
def execPpsEdge (err : BitVec 32) (s : State) : Host.Outcome State Fault Refusal := .next { s with dev := ppsEdge err s.dev }
/-- PPS_EDGES_MISSING. -/
def execPpsEdgesMissing (s : State) : Host.Outcome State Fault Refusal := .next { s with dev := ppsEdgesMissing s.dev }
/-- SPAN_SYNC_MARKER. -/
def execSpanSyncMarker (slot : Fin 100) (s : State) : Host.Outcome State Fault Refusal :=
  .next { s with dev := spanSyncMarker slot.val s.dev }
/-- SPAN_SYNC_MARKERS_MISSING. -/
def execSpanSyncMarkersMissing (s : State) : Host.Outcome State Fault Refusal := .next { s with dev := spanSyncMarkersMissing s.dev }
/-- SYNC_LOAD_ARM. -/
def execSyncLoadArm (m : Master) (s : State) : Host.Outcome State Fault Refusal := onReg s m.val F.TIM_SYNC_CFG.off syncLoadArm
/-- SPAN_SYNC_OUT_MARKER. -/
def execSpanSyncOutMarker (s : State) : Host.Outcome State Fault Refusal := .next { s with dev := spanSyncOutMarker s.dev }
/-- TOD_MESSAGE_RX. -/
def execTodMessageRx (ms : Nat) (l : List Byte) (s : State) : Host.Outcome State Fault Refusal :=
  .next { s with dev := todMessageRx ms l s.dev }
/-- PHC_SECOND. -/
def execPhcSecond (s : State) : Host.Outcome State Fault Refusal := .next { s with dev := phcSecond s.dev }
/-- TOD_MESSAGE_TX. -/
def execTodMessageTx (s : State) : Host.Outcome State Fault Refusal := .next { s with dev := todMessageTx s.dev }
/-- TOD_BASE_UPDATE. -/
def execTodBaseUpdate (s : State) : Host.Outcome State Fault Refusal := .next { s with dev := todBaseUpdate s.dev }
/-- TA_STAGE_WRITE. -/
def execTaStageWrite (m : Master) (which : TaStage) (v : BitVec 64) (s : State) : Host.Outcome State Fault Refusal :=
  onReg s m.val F.TIM_TA_INDEX.off (taStageWrite m.val which v)
/-- TA_ARM. -/
def execTaArm (m : Master) (s : State) : Host.Outcome State Fault Refusal := onReg s m.val F.TIM_TA_CMD.off (taArm m.val)
/-- TA_CANCEL. -/
def execTaCancel (m : Master) (s : State) : Host.Outcome State Fault Refusal := onReg s m.val F.TIM_TA_CMD.off (taCancel m.val)

end Sys2Proof.Machine
end

