-- ==== Sys2Proof/Machine/Img.lean ====
section
/-! DEFINITION. The image loader, the pier walk and pier retirement (R81 to R103). -/

namespace Sys2Proof.Machine

/-! ### Slots (R81, R89) -/

/-- IMG_STATUS.LIVE_SLOT. -/
def Dev.liveSlot (d : Dev) : Nat := d.rd F.IMG_STATUS_LIVE_SLOT

/-- IMG_STATUS.STAGED_STATE: 0 EMPTY, 1 LOADING, 2 VERIFYING, 3 READY, 4 WALK_READY, 5 OLD, 6 FAILED, 7 IN_WALK. -/
def Dev.staged (d : Dev) : Nat := d.rd F.IMG_STATUS_STAGED_STATE

/-- A slot takes an image, or is emptied. -/
def Dev.setSlot (d : Dev) (s : Nat) (x : Option (Image × List Byte)) : Dev :=
  { d with img := { d.img with slots := d.img.slots.set (fun _ => none) s (x.map (·.1)),
                               raw := d.img.raw.set (fun _ => []) s ((x.map (·.2)).getD []) } }

/-- The digest and compatibility registers of an image; 0 without one. -/
def Dev.showImage (d : Dev) (digest compat : Fld) (x : Option Image) : Dev :=
  let (g, c) := match x with | some im => (im.digest, im.compatId) | none => (0, 0)
  d.each (List.range 16) (fun n d => d.wr (digest.ix n) (bits g (32 * n + 31) (32 * n))) |>.wr compat c

/-- The registers of both slots show what the slots hold. -/
def Dev.showSlots (d : Dev) : Dev :=
  (d.showImage F.IMG_LIVE_DIGEST F.IMG_LIVE_COMPAT (d.slotImage d.liveSlot)).showImage F.IMG_STAGED_DIGEST F.IMG_STAGED_COMPAT
    (d.slotImage (1 - d.liveSlot))

/-- The slot of a target. -/
def Dev.targetSlot (d : Dev) (t : Nat) : Nat := if t = 0 then d.liveSlot else 1 - d.liveSlot

/-! ### Loading (R81 to R88) -/

/-- The modes a target is accepted in (R81); in M1 not before WAIT_IMAGE (R428). -/
def Dev.targetAllowed (d : Dev) (t : Nat) : Bool :=
  if t = 0 then (d.mode == .m1 && d.rd F.SEC_BOOT_STATUS_PHASE == 5) || d.mode == .m2
  else if t = 1 then 2 ≤ d.mode.code && d.mode.code ≤ 5
  else t == 2 && 3 ≤ d.mode.code && d.mode.code ≤ 5

/-- The case of R82 that refuses a load, by the codes of IMG_LOAD_REFUSED byte 25; 0: none. -/
def Dev.loadBar (d : Dev) (t : Nat) : Nat :=
  if d.img.load.isSome then 1
  else if d.targetAllowed t = false then 2
  else if t ≠ 0 ∧ d.ksArmed = true then 3
  else if t ≠ 0 ∧ d.on F.TIM_BANK_STATUS_OLD_HELD = true then 4
  else if d.m7 = true ∨ d.staged = 7 then 5
  else if t = 2 ∧ d.sparePier.isNone = true then 6
  else if t = 1 ∧ d.on F.IMG_STATUS_LIVE_VALID = false then 7
  else 0

/-- IMG_LOAD_START: from the start of streaming the target bank and slot hold no image (R85). -/
def imgLoadStart (m t : Nat) (d : Dev) : Dev :=
  let why := d.loadBar t
  if why ≠ 0 then d.post Ev.IMG_LOAD_REFUSED [(24, 1, t), (25, 1, why), (26, 1, m)]
  else
    let ld : LoadOp := { target := t, addr := d.rd F.IMG_LOAD_ADDR_ADDR * 64, len := d.rd F.IMG_LOAD_LEN, master := m }
    let d0 := d.streamBegins 1 0 0
    let d1 := ({ d0 with img := { d0.img with load := some ld } }).wr F.IMG_STATUS_LOAD_BUSY 1
    let d2 := ((d1.wr F.IMG_LOAD_PROGRESS_BYTES 0).when (t != 0) fun d1 =>
      d1.keepImages (d.targetSlot t) (if t = 2 then d.sparePier else none)).setSlot (d.targetSlot t) none
    (if t = 0 then d2.wr F.IMG_STATUS_LIVE_VALID 0 else d2.wr F.IMG_STATUS_STAGED_STATE 1).showSlots

/-- The load in progress ends; a staged or walk target takes a state. -/
def Dev.loadOver (d : Dev) (t st : Nat) : Dev :=
  let d1 := ({ d with img := { d.img with load := none } }).wr F.IMG_STATUS_LOAD_BUSY 0
  if t = 0 then d1 else d1.wr F.IMG_STATUS_STAGED_STATE st

/-- The load ends without success: IMG_LOAD_FAIL with its cause, and the target's state (R83, R87). DESIGN CHOICE (20): a retirement that takes
the spare after a failed or aborted target-2 load finds in its live bank the image that bank held before the load. -/
def Dev.loadFails (d : Dev) (cause sec ofs st : Nat) : Dev :=
  match d.img.load with
  | none => d
  | some ld =>
    let d1 := ((d.wr F.IMG_LOAD_STATUS_CAUSE cause).wr F.IMG_LOAD_STATUS_SECTION sec).wr F.IMG_LOAD_PROGRESS_BYTES ofs
    (d1.loadOver ld.target st).post Ev.IMG_LOAD_FAIL [(24, 1, ld.target), (25, 1, cause), (26, 1, sec), (28, 4, ofs)]

/-- A load that something outside the image stops: the bytes streamed by then are a free value (R87). -/
def Dev.loadStops (d : Dev) (cause st : Nat) : Dev :=
  match d.img.load with
  | none => d
  | some ld =>
    let (x, d1) := (d.streamStops 1 0).takeFree
    d1.loadFails cause 0 (x % (ld.len + 1)) st

/-- IMG_LOAD_ABORT, and what aborts a load besides (R87). -/
def imgLoadAbort (d : Dev) : Dev := d.loadStops LoadCause.aborted 0

/-- Does an image declare table `tid` as an exact-match table? -/
def declaresExact (im : Option Image) (tid : Nat) : Bool :=
  match im with
  | some x => (match x.schemas[tid]? with | some s => 2 ≤ s.kind && s.kind ≤ 6 | none => false)
  | none => false

/-- The seeds in force after a live load: those of its exact-match tables, beside those of tables that the other bank's image still
declares (R71). -/
def imageSeeds (im : Image) (other : Option Image) (was : SMap (Option (Nat × Nat))) : SMap (Option (Nat × Nat)) :=
  im.schemas.zipIdx.foldl (fun m x =>
    if 2 ≤ x.1.kind ∧ x.1.kind ≤ 6 then m.set (fun _ => none) x.2 (some (x.1.seed0, x.1.seed1)) else m)
    (was.filter fun e => declaresExact other e.1)

/-- A verified live image takes effect (R71, R77, R85, R251, R258): piers, seeds, port modes, roots and the TM profile. -/
def Dev.liveLoaded (d : Dev) (im : Image) : Dev :=
  let d1 := (d.wr F.IMG_STATUS_LIVE_VALID 1).each (List.range 17) fun p d =>
    let d1 := if d.pierState p = 4 then
        d.wr (F.IMG_PIER_STATUS_STATE.ix p) (if d.on (F.IMG_PIER_STATUS_SERVING.ix p) then 0 else 1)
      else d
    if d1.pierState p = 3 then d1 else d1.setPierSlot p d1.liveSlot
  let d2 := { d1 with img := { d1.img with seeds := imageSeeds im (d1.bankImage (1 - d1.liveTag)) d1.img.seeds }, tbl := { d1.tbl with places := [] } }
  let d3 := d2.each (im.ports.take 128).zipIdx fun x d => d.wr (F.LPT_STATUS_MODE.port x.2) (if x.1.present then x.1.mode else 0)
  (d3.setRoots false).applyTmProfile

/-- The load passes step 7 (R85). -/
def Dev.loadPasses (d : Dev) (ld : LoadOp) (im : Image) (raw : List Byte) : Dev :=
  let slot := d.targetSlot ld.target
  let d1 := (d.loadOver ld.target (if ld.target = 1 then 3 else 4)).setSlot slot (some (im, raw))
  let d2 := ((d1.setReg F.IMG_LOAD_STATUS.off 0).wr F.IMG_LOAD_PROGRESS_BYTES ld.len).showSlots
  let d3 := if ld.target = 0 then d2.liveLoaded im
    else if ld.target = 2 then match d2.sparePier with
      | some p => d2.setPierSlot p slot
      | none => d2
    else d2
  let d4 := d3.post Ev.IMG_LOAD_DONE [(24, 1, ld.target), (25, 1, slot), (28, 4, im.len), (32, 4, im.compatId), (36, 2, im.svn)]
  if ld.target = 0 ∧ d4.mode = .m1 then d4.withMode fun d => (d.setMode .m2).wr F.SEC_BOOT_STATUS_PHASE 6 else d4

/-- SEC_TAMPER, with the span where the STC is valid, which LOCKED says (R435, R439). -/
def Dev.postTamper (d : Dev) : Dev := d.post Ev.SEC_TAMPER [(32, 6, if d.locked then d.tim.span else 0)]

/-- IMG_LOAD_END: the image read from host memory (none: a DMA error) is checked in the order of R83, when every check unit that measures it has
compared, and none ends the load (R441, R443). `tamper`: TAMPER_IN_N falls in the cycle in
which the signature fails; both causes are recorded, TAMPER first (R439). -/
def imgLoadEnd (dma : Option (List Byte)) (tamper : Bool) (d : Dev) : Dev :=
  match d.img.load, dma with
  | none, _ => d
  | some _, none => d.loadStops LoadCause.dma 6
  | some ld, some l =>
    let raw := bytesAt (ld.streamed.getD l) 0 (min ld.len imageMax)
    let fw := d.rd F.CTL_FW_VERSION_VERSION
    let (stop, d) := d.streamEnds 1 0 (some raw)
    if stop then d.loadStops LoadCause.checkUnit 6 else
    match checkImage raw ld.len d.sec.fuses.variantS (d.rd F.IMG_MIN_SVN_SVN) fw ld.target d.liveImage with
    | .inl f => d.loadFails f.cause f.section_ f.ofs 6
    | .inr im =>
      let blk := bytesAt raw (ld.len - 256) 256
      let why := sigCause imageContext blk (leBytes 64 im.digest.toNat) d.sec.fuses.imgKeys (d.sec.fuses.revoke.toNat >>> 2)
      if why = 0 then d.loadPasses ld im raw
      else
        let d1 := (d.loadOver ld.target 6).post Ev.IMG_SIG_FAIL [(24, 1, ld.target), (25, 1, im.keySlot), (26, 1, why)]
        let d2 := { d1 with sec := { d1.sec with imgFailed := some ⟨ld.target, im.svn, im.compatId, im.digest⟩ } }
        if tamper then d2.postTamper.quarantine 11 12 else d2.quarantine 12

/-! ### Binding (R14, R93) -/

/-- The lane switch binds octet `o` to pier `new`, which is ACTIVE; pier `old` serves none and takes a state. -/
def Dev.rebind (d : Dev) (o old new st : Nat) : Dev :=
  let d1 := (d.wrIx F.IMG_PIER_STATUS_SERVING 17 old 0).wrIx F.IMG_PIER_STATUS_STATE 17 old st
  ((d1.wrIx F.IMG_PIER_STATUS_SERVING 17 new 1).wrIx F.IMG_PIER_STATUS_OCTET 17 new o).wrIx F.IMG_PIER_STATUS_STATE 17 new 0

/-- The second-stroke entries of pier `old` go to pier `new`, before its own; those that do not read are dropped (R93, R100). The number
dropped, and the device. -/
def Dev.moveSs (d : Dev) (old new : Nat) : Nat × Dev :=
  let l := d.ssQueue old
  let n := (l.filter (·.bad)).length
  let good := (l.filter fun e => !e.bad).map fun e => { e with first := true }
  let d1 := d.setSs old []
  (n, (d1.setSs new (good ++ d1.ssQueue new)).bumpN (F.HST_DROP_CNT.ix Drop.pierRetired) n)

/-- What a commit copies from pier `old` to pier `new`: its dirty meters and its second-stroke entries (R93, R100). The frames held in the
step buffer are the octet's, whichever pier serves it. DESIGN CHOICE (21): the spec gives the flow cache of a pier no content and no effect, so
State does not hold it, and nothing of it is copied here or emptied at a retirement. -/
def Dev.moveState (d : Dev) (x : PierMove) : Nat × Dev :=
  ((d.moveMeters x.old x.new).holdFrames x.octet []).moveSs x.old x.new

/-- A logic BIST run begins: the pier reads RELOADING while it lasts (R447). -/
def Dev.bistBegin (d : Dev) (r : BistRun) : Dev :=
  (({ d with dgn := { d.dgn with runs := d.dgn.runs ++ [r] } }.wrIx F.IMG_PIER_STATUS_STATE 17 r.pier 2).wr F.DGN_STATUS_BIST_BUSY 1).wr
    F.DGN_BIST_STATUS_PIER r.pier

/-- The maintenance BIST goes on with the next pier, if one is left (R451). -/
def Dev.maintNext (d : Dev) (pier : Nat) : Dev :=
  if pier < 16 then d.bistBegin { pier := pier + 1, restore := false, maint := true } else d

/-- BIST runs of a pier that is retired end without a result: it returns only by a restore (R102). For a maintenance test that is a pier that did
not pass. -/
def Dev.endRuns (d : Dev) (pier : Nat) : Dev :=
  if d.dgn.runs.any (·.pier == pier) then
    let l := d.dgn.runs.filter (·.pier != pier)
    let maint := d.dgn.runs.any fun r => r.pier == pier && r.maint
    let d1 := ({ d with dgn := { d.dgn with runs := l, maintBad := d.dgn.maintBad || maint } }.wr F.DGN_STATUS_BIST_BUSY
      (if l.isEmpty then 0 else 1)).wr F.DGN_BIST_STATUS_RESULT 3
    d1.when maint fun d => d.maintNext pier
  else d

/-- IMG_PIER_RETIRED; 0xFF stands for no octet and for no new pier. -/
def Dev.postRetired (d : Dev) (pier octet new dropped : Nat) : Dev :=
  d.post Ev.IMG_PIER_RETIRED [(24, 1, pier), (25, 1, octet), (26, 1, new), (28, 4, dropped)]

/-- A pier that serves no octet is retired without a move (R100). -/
def Dev.retireIdle (d : Dev) (pier : Nat) : Dev :=
  (((((d.endRuns pier).wrIx F.IMG_PIER_STATUS_STATE 17 pier 3).dropMeters pier).setSs pier []).postRetired pier 0xFF 0xFF 0).setRails

/-- No pier is SPARE: the serving pier is halted, and the ports of its octet go down (R101). DESIGN CHOICE (22): its second-stroke entries
are dropped and counted with PIER_RETIRED, which R101 does not say. -/
def Dev.haltPier (d : Dev) (pier octet : Nat) : Dev :=
  let l := d.ssQueue pier
  let d1 := ((((d.endRuns pier).dropMeters pier).wrIx F.IMG_PIER_STATUS_STATE 17 pier 3).wrIx F.IMG_PIER_STATUS_SERVING 17 pier 0).setSs pier []
  let d2 := (d1.bumpN (F.HST_DROP_CNT.ix Drop.pierRetired) l.length).post Ev.IMG_NO_SPARE [(24, 1, pier), (25, 1, octet)]
  (d2.each (d.octetPorts octet) fun p d => if d.linkUp p then d.portDown p 6 else d).setRails

/-- A retirement takes effect (R100). -/
def Dev.retireCommit (d : Dev) (x : PierMove) : Dev :=
  let (n, d1) := ({ (d.endRuns x.old) with img := { d.img with move := none } }).moveState x
  ((d1.rebind x.octet x.old x.new 3).postRetired x.old x.octet x.new n).setRails

/-- A pier is retired: a serving one onto the spare, where traffic runs by a move at the next span boundary, otherwise at once (R100). The
firmware of the pair that runs the walk service does it (R367), and while that pair does not run, the retirement waits (R366). DESIGN
CHOICE (22): the pier goes on as it is until then. -/
def Dev.retirePier (d : Dev) (pier : Nat) : Dev :=
  if d.serviceRuns F.CTL_SVC_MAP_WALK = false then
    if d.img.failDue.contains pier then d else { d with img := { d.img with failDue := d.img.failDue ++ [pier] } }
  else match d.octetOf pier, d.sparePier with
  | none, _ => d.retireIdle pier
  | some o, none => d.haltPier pier o
  | some o, some new =>
    let x : PierMove := ⟨o, pier, new, d.tim.tick + 1, true⟩
    if d.forwarding then { d with img := { d.img with move := some x } } else d.retireCommit x

/-- Retirements that waited, for a step to finish or for the lift of S6: one after another until one starts a rebind. -/
def Dev.runFails : Nat → Dev → Dev
  | 0, d => d
  | n + 1, d =>
    match d.img.move, d.img.failDue.find? fun x => !d.pierHalted x with
    | none, some x => Dev.runFails n (({ d with img := { d.img with failDue := d.img.failDue.erase x } }).retirePier x)
    | _, _ => d

/-- The retirements that waited start, where the pair of the walk service runs. -/
def Dev.runFailDue (d : Dev) : Dev :=
  if d.serviceRuns F.CTL_SVC_MAP_WALK then Dev.runFails d.img.failDue.length d else d

/-! ### The walk (R91 to R99) -/

/-- IMG_WALK_STATUS.STATE: 0 idle, 1 running, 2 suspended, 3 abandoned. -/
def Dev.walkState (d : Dev) : Nat := d.rd F.IMG_WALK_STATUS_STATE

/-- IMG_WALK_STATUS.STEPS_DONE. -/
def Dev.stepsDone (d : Dev) : Nat := d.rd F.IMG_WALK_STATUS_STEPS_DONE

/-- A step is in progress: a move that has not committed, or a reload. -/
def Dev.inStep (d : Dev) : Bool := d.img.move.isSome || d.img.reload.isSome

/-- The case of R91 that refuses a start or (R98) a resumption, by the codes of IMG_WALK_REFUSED byte 24; 0: none. DESIGN CHOICE (21): a
resumption where no walk was ever abandoned (STATE idle) is refused with cause 4; R98 has no case for it. -/
def Dev.walkBar (d : Dev) (m : Nat) (resume : Bool) : Nat :=
  let iv := d.rd F.IMG_WALK_INTERVAL_SPANS
  if !(3 ≤ d.mode.code && d.mode.code ≤ 5) then 1
  else if d.ksArmed then 2
  else if d.on F.TIM_BANK_STATUS_OLD_HELD then 3
  else if (if resume then d.walkState = 0 else d.staged ≠ 4) then 4
  else if 2 ≤ d.shed then 5
  else if d.sparePier.isNone then 6
  else if spanAtLeast (d.rd F.IMG_WALK_START_SPAN) d.tim.span 2 = false then 7
  else if iv < 1024 ∨ iv > 65536 then 8
  else if d.walkState = 1 ∨ d.walkState = 2 then 9
  else if d.mode = .m5 ∧ m ≠ 8 then 10
  else 0

/-- A refused walk command or step: its cause, in the register and in IMG_WALK_REFUSED. -/
def Dev.walkRefuse (d : Dev) (m why : Nat) : Dev :=
  (d.wr F.IMG_WALK_STATUS_CAUSE why).post Ev.IMG_WALK_REFUSED [(24, 1, why), (26, 1, m)]

/-- The master of the walk sequencer: the pair that runs its service (R92, R367). -/
def Dev.walkMaster (d : Dev) : Nat := 2 + d.rd F.CTL_SVC_MAP_WALK

/-- Every step is done: the walk completes (R96). -/
def Dev.walkComplete (d : Dev) : Dev :=
  d.withMode fun d =>
    let old := d.liveSlot
    let d1 := ((d.wr F.IMG_STATUS_LIVE_SLOT (1 - old)).setSlot old none).wr F.IMG_STATUS_STAGED_STATE 0
    let d2 := d1.each (List.range 17) fun p d => if d.pierState p = 3 then d else d.setPierSlot p (1 - old)
    let d3 := { d2 with img := { d2.img with walkOn := false, abandonDue := none, walkRefused := false, walkRetry := none, walkWaits := false } }
    ((d3.wr F.IMG_WALK_STATUS_STATE 0).showSlots).post Ev.IMG_WALK_DONE [(32, 6, d.tim.span)]

/-- The entry of the step's arm, and the arm's outcome, mirrored like any arm (R92, R342). -/
def Dev.walkTry (d : Dev) (span new : Nat) : Bool × Dev :=
  let e := d.rd F.IMG_WALK_CFG_TA_ENTRY
  let op := BitVec.ofNat 64 (d.rd F.IMG_WALK_STATUS_NEXT_OCTET + 256 * new)
  match d.armEntry d.walkMaster e span 4 op with
  | (true, d1) =>
    (true, (({ d1 with img := { d1.img with walkDue := span, walkRetry := none } }).mirror 3 d.walkMaster
      (leBytes 1 e ++ leBytes 1 4 ++ leBytes 6 span ++ leBytes 8 op.toNat)))
  | (false, d1) => (false, d1)

/-- The sequencer arms the next step (R92): an arm that comes late is made again an interval on, any other refused arm is tried again an
interval on. While the pair that runs the sequencer does not run, the arm waits for it (R364). The standby's steps arrive as mirrored arms
(R99). -/
def Dev.walkArm (d : Dev) : Dev :=
  let later := spanAdd d.tim.span (d.rd F.IMG_WALK_INTERVAL_SPANS)
  if d.mode = .m5 then d
  else if d.serviceRuns F.CTL_SVC_MAP_WALK = false then { d with img := { d.img with walkWaits := true } }
  else match d.sparePier with
  | none => { d with img := { d.img with walkRetry := some later } }
  | some new =>
    match d.walkTry d.img.walkDue new with
    | (true, d1) => d1
    | (false, d1) =>
      let d2 := { d1 with img := { d1.img with walkRetry := some later } }
      if spanAtLeast d.img.walkDue d.tim.span 2 then d2 else (d2.walkTry later new).2

/-- WALK_START. On acceptance M7 applies and STAGED_STATE becomes IN_WALK (R91). -/
def walkStart (m : Nat) (d : Dev) : Dev :=
  let why := d.walkBar m false
  if why ≠ 0 then d.walkRefuse m why
  else (d.withMode fun d =>
    let d1 := { d with img := { d.img with walkOn := true, walkDue := d.rd F.IMG_WALK_START_SPAN, walkRefused := false,
                                           abandonDue := none, walkRetry := none, walkWaits := false } }
    (((d1.wr F.IMG_STATUS_STAGED_STATE 7).wr F.IMG_WALK_STATUS_STATE 1).wr F.IMG_WALK_STATUS_NEXT_OCTET 0).wr
      F.IMG_WALK_STATUS_STEPS_DONE 0).walkArm.mirror 2 m (leBytes 4 F.IMG_WALK_CMD.off ++ leBytes 4 1)

/-- WALK_RESUME: an abandoned walk goes on from its next step, at the span R92 gives that step (R98). -/
def walkResume (m : Nat) (d : Dev) : Dev :=
  let why := d.walkBar m true
  if why ≠ 0 then d.walkRefuse m why
  else
    let n := d.stepsDone
    let d1 := d.withMode fun d =>
      let due := spanAdd (d.rd F.IMG_WALK_START_SPAN) (n * d.rd F.IMG_WALK_INTERVAL_SPANS)
      ({ d with img := { d.img with walkOn := true, walkDue := due, walkRefused := false, abandonDue := none,
                                    walkRetry := none } }).wr F.IMG_WALK_STATUS_STATE 1
    (if n ≥ 16 then d1.walkComplete else d1.walkArm).mirror 2 m (leBytes 4 F.IMG_WALK_CMD.off ++ leBytes 4 3)

/-- The walk is abandoned: no further step is armed and M7 clears; STAGED_STATE stays IN_WALK (R95, R98). The caller posts the change of
mode. -/
def Dev.abandonNow (d : Dev) (cause : Nat) : Dev :=
  let e := d.rd F.IMG_WALK_CFG_TA_ENTRY
  let x := d.entryAt e
  let d1 := if d.mode ≠ .m5 ∧ x.state = .armed ∧ x.type = 4 then
      match d.cancelEntry d.walkMaster e with
      | (true, d1) => d1.mirror 4 d.walkMaster (leBytes 1 e)
      | (false, d1) => d1
    else d
  let d2 := { d1 with img := { d1.img with walkOn := false, abandonDue := none, walkRefused := false, walkRetry := none,
                                           walkWaits := false } }
  ((d2.wr F.IMG_WALK_STATUS_STATE 3).wr F.IMG_WALK_STATUS_CAUSE cause).post Ev.IMG_WALK_ABANDONED
    [(24, 1, cause), (25, 1, d.stepsDone)]

/-- The walk is abandoned, and the change of mode posted. -/
def Dev.abandonWalk (d : Dev) (cause : Nat) : Dev := d.withMode fun d => d.abandonNow cause

/-- An abandonment waits while a step is in progress, until it has finished its reload. -/
def Dev.abandonLater (d : Dev) (cause : Nat) : Dev :=
  { d with img := { d.img with abandonDue := some (d.img.abandonDue.getD cause) } }

/-- The walk is to be abandoned: at once, or once the step in progress has finished its reload. -/
def Dev.wantAbandon (d : Dev) (cause : Nat) : Dev := if d.inStep then d.abandonLater cause else d.abandonWalk cause

/-- WALK_ABANDON: ignored where no walk runs (R98). On the standby a local write is ignored (R343). -/
def walkAbandon (m : Nat) (d : Dev) : Dev :=
  if (d.mode = .m5 ∨ d.mode = .m6) ∧ m ≠ 8 then d.post Ev.TWN_LOCAL_WRITE [(24, 1, m), (28, 4, F.IMG_WALK_CMD.off)]
  else if d.walkState = 1 ∨ d.walkState = 2 then
    (d.wantAbandon 1).mirror 2 m (leBytes 4 F.IMG_WALK_CMD.off ++ leBytes 4 2)
  else d

/-- A type-4 action fires (R48, R53, R93): was it performed? A step during suspension is refused and waits to be armed again (R97). -/
def Dev.walkFire (d : Dev) (octet new : Nat) : Bool × Dev :=
  let no (why : Nat) (d : Dev) : Bool × Dev := (false, d.walkRefuse d.walkMaster why)
  if d.m7 = false then no 4 d
  else if d.walkState = 2 then no 5 { d with img := { d.img with walkRefused := true } }
  else if d.inStep = true ∨ octet ≠ d.rd F.IMG_WALK_STATUS_NEXT_OCTET ∨ 16 ≤ d.stepsDone then no 9 d
  else if 17 ≤ new ∨ d.pierState new ≠ 1 then no 6 d
  else match d.pierOf octet with
    | none => no 6 d
    | some old => (true, { d with img := { d.img with move := some ⟨octet, old, new, d.tim.tick, false⟩ } })

/-- The shed step passes S2 during a walk: suspension and its end (R24, R97). -/
def Dev.walkShed (d : Dev) : Dev :=
  let say (d : Dev) (b : Nat) : Dev := d.post Ev.IMG_WALK_SUSPEND [(24, 1, b), (25, 1, d.rd F.IMG_WALK_STATUS_NEXT_OCTET)]
  if d.walkState = 1 ∧ 2 ≤ d.shed then say (d.wr F.IMG_WALK_STATUS_STATE 2) 0
  else if d.walkState = 2 ∧ d.shed < 2 then
    let d1 := d.wr F.IMG_WALK_STATUS_STATE 1
    let d2 := if d1.img.walkRefused then
        ({ d1 with img := { d1.img with walkRefused := false,
                                        walkDue := spanAdd d1.tim.span (d1.rd F.IMG_WALK_INTERVAL_SPANS) } }).walkArm
      else d1
    say d2 1
  else d

/-- An arm that was refused for another cause than lateness is made again at its span; one that waited for its pair is made once the pair
runs and the walk is not suspended, and so are the retirements that waited for it (R97, R364, R366, R367). -/
def Dev.walkTick (d0 : Dev) : Dev :=
  let d := if d0.inStep then d0 else d0.runFailDue
  if d.img.walkWaits = true ∧ d.walkState = 1 ∧ d.m7 = true ∧ d.serviceRuns F.CTL_SVC_MAP_WALK = true then
    ({ d with img := { d.img with walkWaits := false } }).walkArm
  else match d.img.walkRetry with
  | some t =>
    if d.walkState = 1 ∧ d.m7 = true ∧ spanReached t d.tim.span = true then
      ({ d with img := { d.img with walkDue := spanAdd d.tim.span (d.rd F.IMG_WALK_INTERVAL_SPANS), walkRetry := none } }).walkArm
    else d
  | none => d

/-- A move may commit: it has begun, and slot 0 of S + 8 has not passed (R93, R95). -/
def Dev.moveCommits (d : Dev) (x : PierMove) : Bool :=
  decide (x.start ≤ d.tim.tick) && (decide (d.tim.tick < x.start + 8) || (d.tim.tick == x.start + 8 && d.tim.tickSlot == 0))

/-- WALK_STEP_COMMIT: no later than slot 0 of S + 8, the octet is bound to the new pier, which holds the second-stroke entries of the old
one (R93). A retirement commits the same way, and ends the walk it interrupts (R100). -/
def walkStepCommit (d : Dev) : Dev :=
  match d.img.move with
  | none => d
  | some x =>
    if d.moveCommits x = false then d
    else if x.retirement then
      let d1 := (d.retireCommit x).runFailDue
      if (d1.walkState = 1 ∨ d1.walkState = 2) ∧ d1.inStep = false then d1.abandonWalk (d1.img.abandonDue.getD 5) else d1
    else
      let (_, d1) := ({ d with img := { d.img with move := none, reload := some x.old } }).moveState x
      (d1.rebind x.octet x.old x.new 2).post Ev.IMG_WALK_STEP [(24, 1, d.stepsDone), (25, 1, x.octet), (26, 1, x.old),
        (27, 1, x.new), (28, 1, d.tim.tick - x.start), (32, 6, d.tim.span)]

/-- A move fails: the octet stays with the old pier, which takes the held frames, and the new one is retired (R95); a retirement starts again on
another spare. -/
def Dev.moveFails (d : Dev) (x : PierMove) (cause : Nat) : Dev :=
  let d1 := (({ d with img := { d.img with move := none } }).holdFrames x.octet []).retireIdle x.new
  let d2 := if x.retirement then d1.retirePier x.old else d1
  if (d2.walkState = 1 ∨ d2.walkState = 2) ∧ d2.inStep = false then (d2.abandonWalk cause).runFailDue else d2.runFailDue

/-- WALK_STEP_TIMEOUT: the copy has not finished by slot 0 of S + 8, or the new pier failed its checks (R95). -/
def walkStepTimeout (newPierFailed : Bool) (d : Dev) : Dev :=
  match d.img.move with
  | none => d
  | some x =>
    if newPierFailed then d.moveFails x 3
    else if x.start + 8 ≤ d.tim.tick then d.moveFails x 2
    else d

/-- A step of the walk is done: the next one is armed, or the walk completes or is abandoned (R92, R96, R98). -/
def Dev.stepOver (d : Dev) (done : Bool) (fail : Option Nat) : Dev :=
  let n := d.stepsDone + 1
  let d1 := (d.wr F.IMG_WALK_STATUS_STEPS_DONE n).wr F.IMG_WALK_STATUS_NEXT_OCTET (n % 16)
  let d2 := { d1 with img := { d1.img with reload := none, walkDue := spanAdd d1.img.walkDue (d1.rd F.IMG_WALK_INTERVAL_SPANS) } }
  match fail.or d2.img.abandonDue with
  | none => if n ≥ 16 then d2.walkComplete else d2.walkArm
  | some c => if done = true ∧ n ≥ 16 then (d2.walkComplete).runFailDue else (d2.abandonWalk c).runFailDue

/-- A pier that passes logic BIST takes the TCAM rows of the lowest ACTIVE pier and both banks, and is SPARE (UNLOADED without a live
image); one that serves an octet is ACTIVE again (R102, R447). -/
def Dev.pierReady (d1 : Dev) (pier : Nat) : Dev :=
  let d2 := match (List.range 17).find? fun p => d1.pierState p == 0 with
    | none => d1
    | some src =>
      let mine (k : Nat) : Bool := k / 32768 == pier
      let theirs : List (Nat × TcamRow) := d1.pir.live.filter fun e => e.1 / 32768 == src
      let live : SMap TcamRow := theirs.foldl
        (fun (m : SMap TcamRow) (e : Nat × TcamRow) => SMap.set (fun _ => TcamRow.reset) m (32768 * pier + e.1 % 32768) e.2)
        (d1.pir.live.filter fun (e : Nat × TcamRow) => !mine e.1)
      { d1 with pir := { d1.pir with live := live } }
  let st := if d2.on F.IMG_STATUS_LIVE_VALID = false then 4 else if d2.on (F.IMG_PIER_STATUS_SERVING.ix pier) then 0 else 1
  let d3 := { d2 with img := { d2.img with own := d2.img.own.set (fun _ => none) (2 * pier + (1 - d2.liveTag)) none } }
  (d3.wrIx F.IMG_PIER_STATUS_STATE 17 pier st).setPierSlot pier d3.liveSlot

/-- The pier whose BIST run was stopped has reloaded, and takes the place of the pier that failed meanwhile. -/
def Dev.stoppedDone (d : Dev) (pier : Nat) (crcOk : Bool) : Dev :=
  match d.dgn.stopped with
  | none => d
  | some (_, q) =>
    let d1 := { d with dgn := { d.dgn with stopped := none } }
    ((if crcOk then d1.pierReady pier else d1.retireIdle pier).retirePier q).runFailDue

/-- PIER_RELOAD_DONE: the vacated pier holds the staged slot's image and is SPARE, or is retired when a section's CRC fails (R93, R95). -/
def pierReloadDone (pier : Nat) (crcOk : Bool) (d : Dev) : Dev :=
  if (d.dgn.stopped.map (·.1)) = some pier then d.stoppedDone pier crcOk
  else if d.img.reload ≠ some pier ∨ d.pierState pier ≠ 2 then d
  else if crcOk then
    ((d.wr (F.IMG_PIER_STATUS_STATE.ix pier) 1).setPierSlot pier (1 - d.liveSlot)).stepOver true none
  else (d.retireIdle pier).stepOver false (some 4)

/-! ### Faults and commands of piers (R100 to R102, R159) -/

/-- The report of a failed pier: PIR_PIER_FAULT, PIR_FAULT, evidence bit 1 and IMG_PIER_FAIL. -/
def Dev.pierReport (d : Dev) (pier kind pipe stage : Nat) : Dev :=
  let o := (d.octetOf pier).getD 0xFF
  let d1 := (d.wr (F.PIR_FAULT_PIPE.pier pier) pipe).wr (F.PIR_FAULT_STAGE.pier pier) stage
  let bit := if kind = 1 then F.PIR_FAULT_PARITY else if kind = 2 then F.PIR_FAULT_MEMORY else F.PIR_FAULT_TIMEOUT
  let d2 := (d1.wr (bit.pier pier) 1).post Ev.PIR_PIER_FAULT
    [(24, 1, pier), (25, 1, kind), (26, 1, pipe), (27, 1, stage), (28, 1, o)]
  (d2.evidence 1).post Ev.IMG_PIER_FAIL [(24, 1, pier), (25, 1, kind), (26, 1, o)]

/-- What becomes of a pier that fails its checks (R95, R100, R101, "When events coincide"). One that S6 has halted waits for the lift. -/
def Dev.pierFails (d : Dev) (pier : Nat) : Dev :=
  let walking := d.walkState = 1 ∨ d.walkState = 2
  let failNow (d : Dev) : Dev :=
    let d1 := d.retirePier pier
    if walking ∧ d1.inStep = false then d1.abandonWalk 5 else d1
  if (d.dgn.stopped.map (·.2)) = some pier then d else
  if (d.dgn.stopped.map (·.1)) = some pier then d.stoppedDone pier false else
  if d.pierHalted pier = true then { d with img := { d.img with failDue := d.img.failDue ++ [pier] } } else
  match d.img.move with
  | some x =>
    if pier = x.new then d.moveFails x 3
    else if pier = x.old then
      { d with img := { d.img with move := some { x with retirement := true },
                                   abandonDue := if walking then some (d.img.abandonDue.getD 5) else d.img.abandonDue } }
    else if (d.octetOf pier).isSome then
      { d with img := { d.img with failDue := d.img.failDue ++ [pier],
                                   abandonDue := if walking then some (d.img.abandonDue.getD 5) else d.img.abandonDue } }
    else d.retirePier pier
  | none =>
    if d.img.reload = some pier then (d.retireIdle pier).stepOver false (some 5)
    else if (d.octetOf pier).isNone then d.retirePier pier
    else if d.img.reload.isSome then
      { d with img := { d.img with failDue := d.img.failDue ++ [pier], abandonDue := some (d.img.abandonDue.getD 5) } }
    else match d.dgn.runs.find? fun r => !r.restore && !r.maint with
    | some r =>
      if d.sparePier.isSome ∨ d.dgn.stopped.isSome = true then failNow d
      else
        let d1 := { d with dgn := { d.dgn with runs := d.dgn.runs.erase r, stopped := some (r.pier, pier) } }
        let d2 := ((d1.wr F.DGN_BIST_STATUS_RESULT 3).wr F.DGN_STATUS_BIST_BUSY (if d1.dgn.runs.isEmpty then 0 else 1))
        d2.each (match d.octetOf pier with | some o => (d.octetPorts o).filter d.linkUp | none => []) fun p d => d.portDown p 6
    | none => failNow d

/-- The second-stroke entries of a pier at the listed places do not read (R100). -/
def Dev.markBadSs (d : Dev) (pier : Nat) (places : List Nat) : Dev :=
  d.setSs pier ((d.ssQueue pier).zipIdx.map fun x => if places.contains x.2 then { x.1 with bad := true } else x.1)

/-- PIER_FAULT of a powered pier: 1 parity, 2 memory. `badSs` are the places in its second-stroke queue and `badMeters` the meters of its
cache that do not read (R100). -/
def pierFault (pier kind pipe stage : Nat) (badSs badMeters : List Nat) (d : Dev) : Dev :=
  if d.pierState pier = 3 ∨ d.mode = .m0 ∨ d.mode = .m11 ∨ ¬(kind = 1 ∨ kind = 2) then d
  else ((((d.markBadSs pier badSs).loseMeters pier badMeters)).pierReport pier kind pipe stage).pierFails pier

/-- STROKE_TIMEOUT: a stroke beyond 4,096 clocks. -/
def strokeTimeout (pier pipe stage : Nat) (d : Dev) : Dev :=
  if d.pierState pier = 3 ∨ d.mode = .m0 ∨ d.mode = .m11 then d
  else (d.pierReport pier 3 pipe stage).pierFails pier

/-- PIER_RETIRE_CMD: accepted for a SPARE pier, and for a serving one outside M7 while a spare exists (R102). The target of a move is
still SPARE, and without it the move fails (R95); a serving pier waits for a move in progress. -/
def pierRetireCmd (pier : Nat) (d : Dev) : Dev :=
  if 17 ≤ pier then d
  else if d.pierState pier = 1 then
    match d.img.move with
    | some x => if x.new = pier then d.moveFails x 3 else d.retirePier pier
    | none => d.retirePier pier
  else if d.on (F.IMG_PIER_STATUS_SERVING.ix pier) = true ∧ d.sparePier.isSome = true ∧ d.m7 = false then
    match d.img.move with
    | some x =>
      if x.old = pier ∨ d.img.failDue.contains pier = true then d
      else { d with img := { d.img with failDue := d.img.failDue ++ [pier] } }
    | none => d.retirePier pier
  else d

/-- PIER_RESTORE_CMD: a RETIRED pier outside M7 is powered and runs logic BIST (R102). -/
def pierRestoreCmd (pier : Nat) (d : Dev) : Dev :=
  if 17 ≤ pier ∨ d.pierState pier ≠ 3 ∨ d.m7 = true then d
  else ((({ d with dgn := { d.dgn with runs := d.dgn.runs ++ [({ pier := pier, restore := true } : BistRun)] } }).wr
    (F.IMG_PIER_STATUS_STATE.ix pier) 2).wr F.DGN_STATUS_BIST_BUSY 1).setRails

/-! ### The commands -/

/-- IMG_LOAD_START. -/
def execImgLoadStart (m : Master) (t : BitVec 2) (s : State) : Host.Outcome State Fault Refusal :=
  onReg s m.val F.IMG_LOAD_CMD.off (imgLoadStart m.val t.toNat)
/-- IMG_LOAD_ABORT. -/
def execImgLoadAbort (m : Master) (s : State) : Host.Outcome State Fault Refusal := onReg s m.val F.IMG_LOAD_CMD.off imgLoadAbort
/-- IMG_LOAD_END. -/
def execImgLoadEnd (dma : Option (List Byte)) (tamper : Bool) (s : State) : Host.Outcome State Fault Refusal :=
  .next { s with dev := imgLoadEnd dma tamper s.dev }
/-- WALK_START. -/
def execWalkStart (m : Master) (s : State) : Host.Outcome State Fault Refusal := onReg s m.val F.IMG_WALK_CMD.off (walkStart m.val)
/-- WALK_ABANDON. -/
def execWalkAbandon (m : Master) (s : State) : Host.Outcome State Fault Refusal := onReg s m.val F.IMG_WALK_CMD.off (walkAbandon m.val)
/-- WALK_RESUME. -/
def execWalkResume (m : Master) (s : State) : Host.Outcome State Fault Refusal := onReg s m.val F.IMG_WALK_CMD.off (walkResume m.val)
/-- WALK_STEP_COMMIT. -/
def execWalkStepCommit (s : State) : Host.Outcome State Fault Refusal := .next { s with dev := walkStepCommit s.dev }
/-- WALK_STEP_TIMEOUT. -/
def execWalkStepTimeout (failed : Bool) (s : State) : Host.Outcome State Fault Refusal :=
  .next { s with dev := walkStepTimeout failed s.dev }
/-- PIER_RELOAD_DONE. -/
def execPierReloadDone (p : Pier) (ok : Bool) (s : State) : Host.Outcome State Fault Refusal :=
  .next { s with dev := pierReloadDone p.val ok s.dev }
/-- PIER_FAULT. -/
def execPierFault (p : Pier) (kind : BitVec 4) (pipe : BitVec 2) (stage : BitVec 5) (badSs badMeters : List Nat) (s : State) :
    Host.Outcome State Fault Refusal :=
  .next { s with dev := pierFault p.val kind.toNat pipe.toNat stage.toNat badSs badMeters s.dev }
/-- STROKE_TIMEOUT. -/
def execStrokeTimeout (p : Pier) (pipe : BitVec 2) (stage : BitVec 5) (s : State) : Host.Outcome State Fault Refusal :=
  .next { s with dev := strokeTimeout p.val pipe.toNat stage.toNat s.dev }
/-- PIER_RETIRE_CMD. -/
def execPierRetireCmd (m : Master) (p : BitVec 5) (s : State) : Host.Outcome State Fault Refusal :=
  onReg s m.val F.IMG_PIER_CMD.off (pierRetireCmd p.toNat)
/-- PIER_RESTORE_CMD. -/
def execPierRestoreCmd (m : Master) (p : BitVec 5) (s : State) : Host.Outcome State Fault Refusal :=
  onReg s m.val F.IMG_PIER_CMD.off (pierRestoreCmd p.toNat)

end Sys2Proof.Machine
end

