-- ==== Sys2Proof/Machine/Keystone.lean ====
section
/-! DEFINITION. The keystone and the release of the old bank (R55 to R59, R71, R89). -/

namespace Sys2Proof.Machine

/-! ### Old-tagged packets (R58) -/

/-- Does a tag name the old bank? -/
def Dev.oldTag (d : Dev) (t : Nat) : Bool := t % 2 != d.liveTag

/-- A held cell with the old tag. -/
def Dev.oldCell (d : Dev) (c : Option (BitVec 2048)) : Bool := match c with | some c => d.oldTag (cellTag c) | none => false

/-- The packets that begin in old-tagged cells which a context holds out of order. -/
def Dev.oldHeld (d : Dev) (x : RxContext) : Nat :=
  (x.held.map fun h => match h.2.2 with | some c => if d.oldTag (cellTag c) then cellHeads c else 0 | none => 0).sum

/-- Old-tagged packets resident in the device (TIM_OLD_RESIDENT): in queues, waiting for the TM or a stroke, in the deck, in the
replication engine, in a fabric stream and in reassembly. -/
def Dev.oldResident (d : Dev) : Nat :=
  let old (p : Packet) : Bool := d.oldTag p.tag
  let deck (x : Option DeckPkt) : Bool := match x with | some y => old y.pkt | none => false
  let n1 := (d.que.q.map fun e => (e.2.filter fun x => old x.pkt).length).sum
  let n2 := (d.que.arrivals.filter fun a => old a.pkt).length
  let n3 := (d.pir.ss.map fun e => (e.2.filter fun x => old x.pkt).length).sum
  let n4 := (d.pir.egress.map fun e => (e.2.filter old).length).sum
  let n5 := (d.dck.inProg.filter fun e => deck e.2).length + (d.dck.fabQ.map fun e => (e.2.filter fun x => old x.pkt).length).sum
  let n6 := (d.dck.backlog.filter fun j => j.released && old j.pkt).length
  let n7 := (d.fab.tx.filter fun e => !e.2.left.isEmpty && d.oldTag e.2.tag).length
  let n8 := (d.fab.rx.map fun e => (if !e.2.part.isEmpty && d.oldTag e.2.tag then 1 else 0) + d.oldHeld e.2).sum
  n1 + n2 + n3 + n4 + n5 + n6 + n7 + n8

/-- `n` packets dropped with EPOCH_EXPIRED. -/
def Dev.dropExpiredN (d : Dev) : Nat → Dev
  | 0 => d
  | n + 1 => d.dropExpired.dropExpiredN n

/-- A list without its old-tagged packets, and how many they were. -/
def Dev.sweepList {α : Type} (d : Dev) (pkt : α → Packet) (l : List α) : List α × Nat :=
  let keep := l.filter fun x => !d.oldTag (pkt x).tag
  (keep, l.length - keep.length)

/-- The sweep of one queue: its old-tagged records are freed. -/
def Dev.sweepQueue (d : Dev) (q : Nat) : Dev :=
  let gone := (d.queue q).filter fun x => d.oldTag x.pkt.tag
  let d1 := d.each gone fun x d => ((d.flowSub x.flow x.pktLen).releaseRecord x).dropExpired
  if gone.isEmpty then d else (d1.setQueue q ((d.queue q).filter fun x => !d.oldTag x.pkt.tag)).spillCheck q

/-- The sweep of the packets that wait for a stroke or for the TM. -/
def Dev.sweepPiers (d : Dev) : Dev :=
  let ss := d.pir.ss.map fun e => (e.1, d.sweepList (·.pkt) e.2)
  let eg := d.pir.egress.map fun e => (e.1, d.sweepList id e.2)
  let ar := d.sweepList (·.pkt) d.que.arrivals
  let gone := d.pir.egress.flatMap fun e => e.2.filter fun p => d.oldTag p.tag
  let lost := (d.que.arrivals.filter fun a => d.oldTag a.pkt.tag).map fun a => a.pkt.get Md.mirror
  let d1 := (d.mirrorsLost lost).each gone fun p d => d.updLp (p.get Md.egrPort) fun x => { x with pendingBytes := x.pendingBytes - p.bytes.length }
  let d2 : Dev :=
    { d1 with pir := { d1.pir with ss := (ss.filter fun e => !e.2.1.isEmpty).map fun e => (e.1, e.2.1),
                                   egress := (eg.filter fun e => !e.2.1.isEmpty).map fun e => (e.1, e.2.1) },
              que := { d1.que with arrivals := ar.1 } }
  d2.dropExpiredN ((ss.map fun e => e.2.2).sum + (eg.map fun e => e.2.2).sum + ar.2)

/-- The sweep of the deck and the replication engine. -/
def Dev.sweepDeck (d : Dev) : Dev :=
  let busy := d.dck.inProg.filter fun e => match e.2 with | some y => d.oldTag y.pkt.tag | none => false
  let d1 := d.each busy fun e d =>
    let d1 := match e.2 with
      | some y => (match y.voq with | some h => d.releaseRecord h | none => d)
      | none => d
    { d1 with dck := { d1.dck with inProg := d1.dck.inProg.set (fun _ => none) e.1 none } }.dropExpired
  let fq := d1.dck.fabQ.map fun e => (e.1, d1.sweepList (·.pkt) e.2)
  let jobs := d1.dck.backlog.filter fun j => d1.oldTag j.pkt.tag
  let d2 : Dev := { d1 with dck := { d1.dck with fabQ := (fq.filter fun e => !e.2.1.isEmpty).map fun e => (e.1, e.2.1),
                                                 backlog := d1.dck.backlog.filter fun j => !d1.oldTag j.pkt.tag } }
  let d3 := (d2.mirrorsLost (jobs.map (·.mirror))).each jobs fun j d => if j.released then (d.freeRecord j.owner j.handles).dropExpired else d
  d3.dropExpiredN (fq.map fun e => e.2.2).sum

/-- The sweep of the reassembly contexts: a packet in progress with the old tag ends, and its bytes are skipped up to a head; so end the packets
that begin in old-tagged cells held out of order, which then count as lost cells do. -/
def Dev.sweepReasm (d : Dev) : Dev :=
  d.each d.fab.rx fun e d =>
    let part := !e.2.part.isEmpty && d.oldTag e.2.tag
    let held := e.2.held.map fun h => (h.1, h.2.1, if d.oldCell h.2.2 then none else h.2.2)
    let x := { e.2 with part := if part then [] else e.2.part, skip := e.2.skip || part, held := held }
    (d.setRx e.1 x).reasmExpiredN e.1 e.2.expected ((if part then 1 else 0) + d.oldHeld e.2)

/-- The sweep of the sending streams: the rest of an old-tagged packet that is partly staged is dropped. -/
def Dev.sweepStreams (d : Dev) : Dev :=
  d.each (d.fab.tx.filter fun e => !e.2.left.isEmpty && d.oldTag e.2.tag) fun e d => (d.setTxStream e.1 { e.2 with left := [] }).dropExpired

/-- Every old-tagged packet is dropped with EPOCH_EXPIRED. -/
def Dev.sweepAll (d : Dev) : Dev :=
  let d1 := d.each (d.que.q.map (·.1)) fun q d => d.sweepQueue q
  ((((d1.sweepDeck).sweepPiers).sweepReasm).sweepStreams).settle

/-! ### Release (R59, R71, R89) -/

/-- Seeds stay in force while the schema of a bank declares their table as an exact-match table (R71). The placement a rehash put in
force stands until a live load (R210). -/
def Dev.pruneSeeds (d : Dev) : Dev :=
  let keep (tid : Nat) : Bool := declaresExact (d.bankImage 0) tid || declaresExact (d.bankImage 1) tid
  { d with img := { d.img with seeds := d.img.seeds.filter fun e => keep e.1 } }

/-- The placements that stand once the old bank is gone: a record that only kept the old bank's own placement goes; a committed placement that it
kept stands on, with the seeds in force (R210). -/
def releasedPlaces (l : List Placed) : List Placed :=
  (l.filter fun x => !(x.pin.isSome && x.newBase == x.base && x.newCap == x.cap)).map fun x => { x with pin := none }

/-- The old bank is released: TIM_RELEASE and TIM_EXPIRED together, and the staged slot is EMPTY. -/
def Dev.releaseOld (d : Dev) (swept : Nat) : Dev :=
  let old := (d.rd F.TIM_EPOCH_EPOCH + 65535) % 65536
  let d1 := (d.post Ev.TIM_RELEASE [(24, 2, old), (26, 1, swept), (32, 6, d.tim.span)]).post Ev.TIM_EXPIRED
    [(24, 8, d.tim.expiredSince)]
  let d2 := ((d1.wr F.TIM_BANK_STATUS_OLD_HELD 0).wr F.TIM_BANK_STATUS_SWEEP 0).wr F.IMG_STATUS_STAGED_STATE 0
  let places := (d2.tbl.places.map fun e => (e.1, releasedPlaces e.2)).filter fun (e : Nat × List Placed) => !e.2.isEmpty
  let d3 := { d2 with img := { d2.img with own := d2.img.own.filter fun e => e.1 % 2 == d.liveTag },
                      tbl := { d2.tbl with places := places } }
  ((d3.setSlot (1 - d.liveSlot) none).pruneSeeds).showSlots

/-- DRAIN_LIMIT_REACHED: at slot 0 of K + L, or of the first span after a relock that loads a span at or beyond it, the old bank is
released at once or an expiry sweep starts (R58). -/
def drainLimitReached (d : Dev) : Dev :=
  let lim := spanAdd (d.rd F.TIM_LAST_KEYSTONE) d.tim.limitInForce
  let loaded := d.tim.relockAt = some d.tim.tick
  if d.on F.TIM_BANK_STATUS_OLD_HELD = false ∨ d.tim.limitPassed = true ∨ d.stcHeld = true ∨ d.tim.slot ≠ 0 ∨
      spanReached lim d.tim.span = false ∨ loaded then d
  else
    let d1 := { d with tim := { d.tim with limitPassed := true } }
    if d1.oldResident = 0 then d1.releaseOld 0 else d1.wr F.TIM_BANK_STATUS_SWEEP 1

/-- EXPIRY_SWEEP_COMPLETE: the sweep has dropped every old-tagged packet, and the old bank is released (R58, R59). -/
def expirySweepComplete (d : Dev) : Dev :=
  if d.on F.TIM_BANK_STATUS_SWEEP then (d.sweepAll.releaseOld 1).lowCheck.settle else d

/-! ### The keystone (R56, R89) -/

/-- The armed entry of type 1 that is due now. -/
def Dev.dueKeystone (d : Dev) : Option Nat :=
  (d.tim.entries.find? fun e => e.2.state == .armed && e.2.type == 1 && e.2.span == d.tim.span).map (·.1)

/-- Tables without seeds in force take those of the new live image (R71). -/
def Dev.takeSeeds (d : Dev) (im : Image) : Dev :=
  d.each im.schemas.zipIdx fun x d =>
    if 2 ≤ x.1.kind ∧ x.1.kind ≤ 6 ∧ d.img.seeds.get (fun _ => none) x.2 = none then
      { d with img := { d.img with seeds := d.img.seeds.set (fun _ => none) x.2 (some (x.1.seed0, x.1.seed1)) } }
    else d

/-- A keystone that changes the placement of the table in rehash ends the rehash (R209). -/
def Dev.keystoneRehash (d : Dev) : Dev :=
  match d.tbl.rehash with
  | none => d
  | some r =>
    match d.exactPlace d.liveTag r.table with
    | some (_, p) => if p.kind = r.kind ∧ p.base = r.base ∧ p.cap = r.cap then d else d.rehashFail 3
    | none => d.rehashFail 3

/-- The flip of a keystone at span K: epoch, banks, slots, roots, profile and seeds. -/
def Dev.keystone (d : Dev) : Dev :=
  let k := d.tim.span
  let e := d.rd F.TIM_EPOCH_EPOCH + 1
  let d1 := ((d.wr F.TIM_EPOCH_EPOCH e).wr F.TIM_EPOCH_LIVE_TAG e).wr F.IMG_STATUS_LIVE_SLOT (1 - d.liveSlot)
  let d2 := ((d1.wr F.IMG_STATUS_STAGED_STATE 5).wr F.TIM_BANK_STATUS_OLD_HELD 1).wr F.TIM_LAST_KEYSTONE k
  let d3 : Dev := { d2 with tim := { d2.tim with
    ksFired := true, limitInForce := d.rd F.TIM_DRAIN_LIMIT_LIMIT, limitPassed := false, expiredSince := 0 } }
  let d4 := (d3.each (List.range 17) fun p d => if d.pierState p = 3 then d else d.setPierSlot p d.liveSlot).showSlots
  let d5 := match d4.liveImage with
    | some im => (((d4.takeSeeds im).setRoots true).applyTmProfile).keystoneRehash
    | none => d4
  (d5.settle).post Ev.TIM_KEYSTONE [(24, 2, d5.rd F.TIM_EPOCH_EPOCH), (32, 6, k)]

/-- KEYSTONE_FIRE. -/
def keystoneFire (d : Dev) : Dev :=
  match d.taFires, d.dueKeystone with
  | true, some i => (d.setEntry i { d.entryAt i with state := .done, result := 0 }).keystone
  | _, _ => d

/-! ### The commands -/

/-- KEYSTONE_FIRE. -/
def execKeystoneFire (s : State) : Host.Outcome State Fault Refusal := .next { s with dev := keystoneFire s.dev }
/-- DRAIN_LIMIT_REACHED. -/
def execDrainLimitReached (s : State) : Host.Outcome State Fault Refusal := .next { s with dev := drainLimitReached s.dev }
/-- EXPIRY_SWEEP_COMPLETE. -/
def execExpirySweepComplete (s : State) : Host.Outcome State Fault Refusal := .next { s with dev := expirySweepComplete s.dev }

end Sys2Proof.Machine
end

