-- ==== Sys2Proof/Machine/Inject.lean ====
section
/-! DEFINITION. Packets that come from the host side: inject queues (R387, R390, R391) and telemetry frames (R398). -/

namespace Sys2Proof.Machine

/-- A packet of inject queue `q` waits at its octet (R130), with SRC_PORT 0x80 + q. -/
def Dev.injectAt (d : Dev) (q : Nat) (l : List Byte) (md : BitVec 1024) (back : Option Nat) : Dev :=
  let p : Packet := { bytes := l, md := mdSet (mdSet md Md.srcPort (0x80 + q)) Md.pktLen l.length, tsHeld := d.stcHeld, back := back }
  { d with pir := { d.pir with inject := d.pir.inject.upd (fun _ => []) (d.rd (F.HST_IQ_CFG_OCTET.ix q)) (· ++ [p]) } }

/-! ### Telemetry (R398) -/

/-- The bytes of a frame with `k` records over an encapsulation entry. -/
def telemLen (e : BitVec 1024) (k : Nat) : Nat := min 96 (byteField e 96 1) + 16 + 64 * k

/-- A telemetry frame: the entry's bytes with its FIX bits applied, the header and the records. -/
def Dev.telemFrame (d : Dev) (e : BitVec 1024) (l : List QueuedRec) : List Byte :=
  let head : List Byte := [0x56, 0x59, 0x54, 0x45] ++ leBytes 2 d.nodeId ++ leBytes 1 l.length ++ [0] ++
    leBytes 4 d.hst.telemSeq.toNat ++ leBytes 4 0
  let raw := leBytes (min 96 (byteField e 96 1)) e.toNat ++ head ++ l.flatMap fun q => leBytes 64 q.bytes.toNat
  let st : Stroke :=
    { pier := 0, pipe := 1, im := none, pkt := { bytes := raw, md := 0 }, hdrs := [], result := 0, counts := 0, meters := 0, pushes := 0,
      v4 := [], fix := [(0, e)], recirc := false, punt := none }
  st.finish.pkt.bytes

/-- The tokens of a span: one is 1/125 bit, so that RATE Mb/s over 1.024 µs gives a whole number. -/
def telemTokens (mbps : Nat) : Nat := 128 * mbps

/-- Once a span the token bucket is refreshed at the RATE in force, up to one frame. -/
def Dev.telemRefresh (d : Dev) : Dev :=
  { d with hst := { d.hst with
    telemBucket := min (1000 * telemLen (d.entry 8 (d.rd F.HST_TELEM_CFG_ENCAP)) 22)
      (d.hst.telemBucket + telemTokens (d.rd F.HST_TELEM_RATE_MBPS)) } }

/-- Telemetry exports: enabled, no shed step, the service running. -/
def Dev.telemRuns (d : Dev) : Bool := d.on F.HST_TELEM_CFG_EN && d.shed == 0 && d.serviceRuns F.CTL_SVC_MAP_TELEMETRY

/-- The records of the largest frame that the bucket pays for now; 0: none waits, or not even one record is paid for. -/
def Dev.telemFits (d : Dev) : Nat :=
  let e := d.entry 8 (d.rd F.HST_TELEM_CFG_ENCAP)
  ((List.range 22).filter fun k => k < d.hst.telemQ.length && 1000 * telemLen e (k + 1) ≤ d.hst.telemBucket).length

/-! ### Inject queues -/

/-- An inject queue holds descriptors that software has handed over. DESIGN CHOICE (44): a queue's next descriptor is fetched once the one
before it has been injected. -/
def Dev.iqReady (d : Dev) (q : Nat) : Bool :=
  d.on (F.HST_IQ_CFG_EN.ix q) && d.rd (F.HST_IQ_HEAD_INDEX.ix q) != d.rd (F.HST_IQ_TAIL_INDEX.ix q) &&
  (d.hst.fetched.get (fun _ => none) q).isNone

/-- Has queue `q` a packet to give in its turn: a descriptor's, or on queue 15 a telemetry frame (R398)? -/
def Dev.iqWants (d : Dev) (q : Nat) : Bool := d.iqReady q || (q == 15 && d.telemRuns && d.telemFits != 0)

/-- The inject queues that share the octet of queue `q` are served in rotation: is it the turn of `q`? -/
def Dev.iqTurn (d : Dev) (q : Nat) : Bool :=
  let o := d.rd (F.HST_IQ_CFG_OCTET.ix q)
  let last := d.hst.injectTurn.get (fun _ => 15) o
  ((List.range 16).map fun k => (last + 1 + k) % 16).find? (fun n => d.iqWants n && d.rd (F.HST_IQ_CFG_OCTET.ix n) == o) == some q

/-- Reserved bits of an inject descriptor: those that R390 shows as 0 or gives no field. -/
def injectReserved (x : BitVec 256) : Bool :=
  bits x 79 78 != 0 || bits x 87 82 != 0 || bits x 95 91 != 0 || bits x 119 114 != 0 || bits x 151 146 != 0 || bits x 255 152 != 0

/-- Why a descriptor's packet is refused: 1 length, 2 DEST_TYPE, 3 reserved bit, 4 DMA; 0: injected (R391). -/
def injectBar (x : BitVec 256) (packet : Option (List Byte)) : Nat :=
  let n := bits x 77 64
  if n < 60 then 1
  else if bits x 113 112 = 3 then 2
  else if injectReserved x then 3
  else if packet.isNone then 4
  else 0

/-- The metadata that a descriptor sets. -/
def injectMd (x : BitVec 256) : BitVec 1024 :=
  let f (m : BitVec 1024) (e : MdFld × Nat) : BitVec 1024 := mdSet m e.1 e.2
  [(Md.tc, bits x 90 88), (Md.dest, bits x 111 96), (Md.destType, bits x 113 112), (Md.eqSel, bits x 127 120),
   (Md.tsTag, bits x 143 128), (Md.ptpCtrl, bits x 145 144)].foldl f 0

/-- INJECT_FETCH: the descriptor at HEAD, and its packet from host memory, are fetched. The packet waits at its octet, and its descriptor is
written back when it is injected (R387); a refused one is written back and dropped at once (R391). -/
def injectFetch (q : Nat) (x : BitVec 256) (packet : Option (List Byte)) (d : Dev) : Dev :=
  if d.iqReady q = false ∨ d.iqTurn q = false then d else
  let why := injectBar x packet
  let flags := bits x 87 80 / 4 * 4 + (if why = 0 then 1 else 3)
  let d1 := { d with hst := { d.hst with
    injectTurn := d.hst.injectTurn.set (fun _ => 15) (d.rd (F.HST_IQ_CFG_OCTET.ix q)) q,
    fetched := d.hst.fetched.set (fun _ => none) q (some flags) } }
  if why = 0 then d1.injectAt q (bytesAt (packet.getD []) 0 (bits x 77 64)) (injectMd x) (some q)
  else (((d1.injectDone q).bump F.HST_INJECT_ERR).dropCount Drop.injectBad).post Ev.HST_INJECT_ERR
    [(24, 1, q), (25, 1, why), (26, 2, d.rd (F.HST_IQ_HEAD_INDEX.ix q))]

/-- TELEMETRY_EXPORT: the largest frame that the bucket pays for leaves in the turn of inject queue 15; a record that it cannot pay for is not
exported, and counts as suppressed. -/
def telemetryExport (d : Dev) : Dev :=
  if d.telemRuns = false then d
  else
    let e := d.entry 8 (d.rd F.HST_TELEM_CFG_ENCAP)
    let k := d.telemFits
    match d.hst.telemQ with
    | [] => d
    | q :: rest =>
      if k = 0 then
        (({ d with hst := { d.hst with telemQ := rest } }).noteSuppressed q.source q.cls (q.bytes.toNat % 65536)).bump F.HST_TELEM_DROPPED
      else if d.iqTurn 15 = false then d
      else
        let l := d.hst.telemQ.take k
        let d2 := { d with hst := { d.hst with
          telemQ := d.hst.telemQ.drop k, telemBucket := d.hst.telemBucket - 1000 * telemLen e k, telemSeq := d.hst.telemSeq + 1,
          injectTurn := d.hst.injectTurn.set (fun _ => 15) (d.rd (F.HST_IQ_CFG_OCTET.ix 15)) 15 } }
        d2.injectAt 15 (d.telemFrame e l) 0 none

/-! ### The commands -/

/-- INJECT_FETCH. -/
def execInjectFetch (q : Fin 16) (x : BitVec 256) (packet : Option (List Byte)) (s : State) : Host.Outcome State Fault Refusal :=
  .next { s with dev := injectFetch q.val x packet s.dev }
/-- PQ_TAIL_WRITE: the punt egress queue may become eligible (R253, R389). -/
def execPqTailWrite (m : Master) (q : Fin 64) (t : BitVec 16) (s : State) : Host.Outcome State Fault Refusal :=
  onReg s m.val (F.HST_PQ_TAIL.ix q.val).off fun d => (pqTailWrite m.val q.val t.toNat d).settle
/-- QUEUE_ENABLE_WRITE: a punt egress queue may become eligible (R253, R389). -/
def execQueueEnableWrite (m : Master) (inject : Bool) (q : Fin 64) (data : Word) (s : State) :
    Host.Outcome State Fault Refusal :=
  onReg s m.val ((if inject then F.HST_IQ_CFG else F.HST_PQ_CFG).ix q.val).off
    fun d => (queueEnableWrite m.val inject q.val data d).settle
/-- TELEMETRY_EXPORT. -/
def execTelemetryExport (s : State) : Host.Outcome State Fault Refusal := .next { s with dev := telemetryExport s.dev }

end Sys2Proof.Machine
end

