-- ==== Sys2Proof/Machine/TwinRole.lean ====
section
/-! DEFINITION. Twin operation: frames received, roles and their changes, heartbeats, claims, and the commands of TWN_CMD
(R333 to R339, R351 to R353, R360, R361). -/

namespace Sys2Proof.Machine

/-! ### Roles (R351, R352) -/

/-- TWN_STATUS.STATE: the role's mode code; 0 when twin operation is disabled. -/
def Dev.twnState (d : Dev) : Nat :=
  if d.twinOn && (d.mode == .m2 || d.mode == .m4 || d.mode == .m5 || d.mode == .m6 || d.mode == .m9) then d.mode.code else 0

/-- TWN_STATUS.SUB: in M6 1 WAIT, 2 COPY, 3 SETTLE. -/
def Dev.twnSub (d : Dev) : Nat := d.rd F.TWN_STATUS_SUB

/-- Claiming: M5 with FAB_PAIR_CTRL.TAKEOVER = 1. -/
def Dev.claiming (d : Dev) : Bool := d.mode == .m5 && d.on F.FAB_PAIR_CTRL_TAKEOVER

/-- A standby in step: M5, not claiming. -/
def Dev.standing (d : Dev) : Bool := d.mode == .m5 && !d.claiming

/-- M6 COPY or SETTLE. -/
def Dev.inCopy (d : Dev) : Bool := d.mode == .m6 && 2 ≤ d.twnSub

/-- OWNER names this device. -/
def Dev.isOwner (d : Dev) : Bool := d.on F.FAB_PAIR_STATUS_OWNER_VALID && d.on F.FAB_PAIR_STATUS_IS_OWNER

/-- OWNER names the peer: the other node of the pair. -/
def Dev.peerOwns (d : Dev) : Bool :=
  d.on F.FAB_PAIR_STATUS_OWNER_VALID && d.rd F.FAB_PAIR_STATUS_OWNER == d.rd F.FAB_STATUS_NODE_ID ^^^ 1

/-- Ports whose link is up. -/
def Dev.upPorts (d : Dev) : List Nat := (List.range 128).filter d.linkUp

/-- A walk in progress is abandoned as by IMG_WALK_CMD = 2 when the device leaves M4 or M5 (R352). -/
def Dev.leaveWalk (d : Dev) : Dev :=
  if d.walkState = 1 ∨ d.walkState = 2 then (if d.inStep then d.abandonLater 1 else d.abandonNow 1) else d

/-- A role change without its GLB_MODE_CHANGE: the mode and sub-state, TWN_ROLE_CHANGE, and what the old and the new role bring with
them: entering M6 and M9 every queue is flushed as by a command flush (R335, R342, R346, R351, R352). A copy that was running is over, and
the check units that measure one of its segments are INCOMPLETE (R443). -/
def Dev.roleTo (d0 : Dev) (m : Mode) (sub : Nat) : Dev :=
  if (d0.setMode m).mode ≠ m then d0 else
  let d := d0.copyStops
  let d1 := (d.setMode m).wr F.TWN_STATUS_SUB (if m = .m6 then sub else 0)
  let d2 := d1.post Ev.TWN_ROLE_CHANGE [(24, 1, d.twnState), (25, 1, d1.twnState), (26, 1, d1.twnSub), (32, 6, d.tim.span)]
  let d3 := if (d.mode = .m4 ∨ d.mode = .m5) ∧ m ≠ d.mode then
      let d3 := d2.leaveWalk
      if m = .m6 ∨ m = .m9 then d3.requestFlush 3 0xFFFF [(0, 524288)] else d3
    else d2
  let d4 := if d.mode = .m4 ∧ m ≠ .m4 then
      { d3 with twn := { d3.twn with copying := false, mirroring := false, acted := none, earlyWord := none } }
    else d3
  let d5 := if d.mode = .m5 ∧ m ≠ .m5 then
      ({ d4 with twn := { d4.twn with wordAt := none, claimAt := none } }).wr F.FAB_PAIR_CTRL_TAKEOVER 0
    else d4
  let d6 := if m = .m5 ∧ d.mode ≠ .m5 then d5.each d5.upPorts fun p d => d.seekAlign p else d5
  d6.pinsFollow

/-- A role change of R351: it posts TWN_ROLE_CHANGE and GLB_MODE_CHANGE. -/
def Dev.setRole (d : Dev) (m : Mode) (sub : Nat) : Dev :=
  let d1 := d.roleTo m sub
  d1.post Ev.GLB_MODE_CHANGE [(24, 1, d.glbMode), (25, 1, d1.glbMode), (28, 4, d1.modeFlags)]

/-- To claiming: TAKEOVER is set and the pins are held from here on (R335, R351, R353). -/
def Dev.claim (d : Dev) : Dev :=
  let d1 := (d.setRole .m5 0).wr F.FAB_PAIR_CTRL_TAKEOVER 1
  let held := d.twn
  { d1 with twn := { d1.twn with claimAt := some (d.tim.tick, d.tim.span), pinsHeld := true, activeOut := held.activeOut,
                                 stateOut := held.stateOut } }

/-- A refused twin command (R351, R362): byte 24 the command, 0 for a write of EN. -/
def Dev.twnRefuse (d : Dev) (cmd m : Nat) : Dev := d.post Ev.TWN_CMD_REFUSED [(24, 1, cmd), (25, 1, d.twnState), (26, 1, m)]

/-- The peer's heartbeat shows M5. -/
def Dev.peerStands (d : Dev) : Bool := d.on F.TWN_STATUS_HB_OK && d.peerState == 5

/-- A demotion that is carried out: DEMOTE is shown, the pins are held until OWNER changes, and the device enters M6 WAIT. -/
def Dev.demoteBy (d : Dev) (change : Dev → Dev) : Dev :=
  change { d with twn := { d.twn with demoting := true, pinsHeld := true } }

/-- A demotion of the active: only while the peer's heartbeat shows M5; otherwise refused (R352). -/
def Dev.demote (d : Dev) (m : Nat) : Dev :=
  if d.peerStands then d.demoteBy (·.setRole .m6 1) else d.twnRefuse 1 m

/-- Shed step S3 comes into force: the active demotes, the standby goes to M6 WAIT (R361). The caller posts the change of mode. -/
def Dev.twinShed (d : Dev) : Dev :=
  if d.twinOn = false then d
  else if d.mode = .m4 then (if d.peerStands then d.demoteBy (·.roleTo .m6 1) else d.twnRefuse 1 0)
  else if d.standing then d.roleTo .m6 1
  else d

/-- FWD_EN with EN = 1: M4 if the fabric interface is UP and OWNER names this device, otherwise M6 WAIT (R333). -/
def Dev.enterTwin (d : Dev) : Dev := if d.fabUp && d.isOwner then d.setRole .m4 0 else d.setRole .m6 1

/-! ### Frames received (R336 to R338) -/

/-- TYPE. -/
def frameType (f : BitVec 4096) : Nat := byteField f 0 1
/-- LEN. -/
def frameLen (f : BitVec 4096) : Nat := min (byteField f 2 2) 488
/-- SEQ. -/
def frameSeq (f : BitVec 4096) : Nat := byteField f 4 4
/-- SPAN. -/
def frameSpan (f : BitVec 4096) : Nat := byteField f 8 6
/-- The payload bytes used. -/
def frameBytes (f : BitVec 4096) : List Byte := leBytes (frameLen f) (byteField f 16 488)
/-- The CRC is good. -/
def frameGood (f : BitVec 4096) : Bool := crc64 (leBytes 504 (byteField f 0 504)) == byteField f 504 8

/-- A frame that a locked lane delivers: a bad CRC or an unknown TYPE is discarded and counted; a frame of type `t` is acted on. -/
def Dev.onFrame (d : Dev) (t : Nat) (f : BitVec 4096) (k : Dev → Dev) : Dev :=
  if d.twinOn = false ∨ d.ralinUp = false then d
  else if frameGood f = false ∨ 8 < frameType f then d.bump F.TWN_RALIN_CRC_ERR
  else if frameType f = t then k d
  else d

/-- RALIN_LANE_LOCK: the markers of one span were received, and a lane locks if each is correct (R336); the lane runs while twin operation
is enabled and the link powered. -/
def ralinLaneLock (n : Nat) (markers : List (BitVec 16)) (d : Dev) : Dev :=
  if d.twinOn = true ∧ d.domainOn 145 = true ∧ d.mode ≠ .m11 ∧ markers = (List.range 25).map ralinMarker then
    d.setLanes (d.ralinLanes ||| (1 <<< n))
  else d

/-- RALIN_LANE_LOCK_LOSS: consecutive markers were received from that of frame `first` on, and the lane loses lock after 4 incorrect ones
(R336). -/
def ralinLaneLockLoss (n first : Nat) (markers : List (BitVec 16)) (d : Dev) : Dev :=
  if markers.length = 4 ∧ (markers.zipIdx first).all (fun x => x.1 != ralinMarker (x.2 % 25)) = true then
    d.setLanes (d.ralinLanes &&& (255 ^^^ (1 <<< n)))
  else d

/-! ### Enable (R333) -/

/-- TWIN_ENABLE: writable only in M2 with fabric timing and the fabric enabled. On a VY9640-A1-S EN reads 0 and the write is ignored (R3);
that the ignored EN = 1 posts TWN_CMD_REFUSED there too, like any other (R333), is DEDUCED (31). -/
def twinEnable (m : Nat) (en : Bool) (d : Dev) : Dev :=
  if d.mode = .m2 ∧ d.rd F.TIM_CTRL_SRC = 0 ∧ d.on F.FAB_CTRL_EN = true ∧ (en = false ∨ d.sec.fuses.twinAvail = true) then
    d.wr F.TWN_CTRL_EN (if en then 1 else 0)
  else if en then d.twnRefuse 0 m
  else d

/-! ### Heartbeats (R339) -/

/-- Byte 21 of a heartbeat. -/
def Dev.hbFlags (d : Dev) : Nat :=
  (if d.fabUp then 1 else 0) + (if d.isOwner then 2 else 0) + (if d.twn.demoting then 4 else 0) +
  (if d.on F.FAB_PAIR_CTRL_TAKEOVER then 8 else 0) + (if d.mode = .m4 ∧ d.twn.copying = true then 16 else 0)

/-- A heartbeat's body. -/
def Dev.hbBody (d : Dev) : List Byte :=
  leBytes 4 d.modeFlags ++ leBytes 1 d.twnState ++ leBytes 1 d.hbFlags ++ leBytes 2 0 ++
  leBytes 4 ((d.twn.rxSeq + 2 ^ 32 - 1) % 2 ^ 32)

/-- HEARTBEAT_SEND: frame 0 of every locked lane (R338, R339). -/
def heartbeatSend (d : Dev) : Dev :=
  if d.twinOn = false then d else
  d.each d.lockedLanes fun n d => d.emitMsg n 0 { prio := 0, type := 1, seq := 0, payload := d.hbBody }

/-- ACK reaches the sender: the frames it covers are no longer kept (R340). An ACK ahead of the last frame sent is none. -/
def Dev.takeAck (d : Dev) (a : Nat) : Dev :=
  if (d.twn.txSeq + 2 ^ 32 - 1 - a) % 2 ^ 32 < 2 ^ 31 then
    { d with twn := { d.twn with txKept := d.twn.txKept.filter fun k => 2 ^ 31 ≤ (a + 2 ^ 32 - k.1) % 2 ^ 32 } }
  else d

/-- What a valid heartbeat shows is acted on (R342, R346, R351): on the standby a peer that demotes or is in M9; on the active a peer that
has newly entered M5. -/
def Dev.hbActs (d : Dev) (was : Nat) : Dev :=
  let flags := d.rd F.TWN_PEER_FLAGS
  if d.standing = true ∧ ((flags >>> 2) % 2 = 1 ∨ d.peerState = 9) then d.claim
  else if d.mode = .m4 ∧ d.peerState = 5 then
    let d1 := { d with twn := { d.twn with mirroring := false, copying := false } }
    if was = 5 then d1 else d1.each d1.upPorts fun p d => d.seekAlign p
  else d

/-- HEARTBEAT_RX: a heartbeat is valid when its CRC is good and its SPAN is the STC span or the one before (R339). -/
def heartbeatRx (f : BitVec 4096) (d : Dev) : Dev :=
  d.onFrame 1 f fun d =>
    if spanAhead d.tim.span (frameSpan f) ≤ 1 then
      let was := if d.on F.TWN_STATUS_HB_OK then d.peerState else 0
      let d1 := ((d.wr F.TWN_PEER_STATE (byteField f 20 1)).wr F.TWN_PEER_FLAGS (byteField f 21 1)).wr F.TWN_STATUS_HB_OK 1
      let d2 := { d1 with twn := { d1.twn with hbAt := d.tim.tick, hbSpan := frameSpan f, peerFlags := byteField f 16 4 } }
      (d2.takeAck (byteField f 24 4)).hbActs was
    else d

/-- HEARTBEAT_LOSS: slot 0 of the span after 8 consecutive spans with no valid heartbeat (R339). With the fabric interface UP a standby
claims; the owner stays and posts TWN_PEER_LOST (R351). A standby whose interface comes UP while the loss lasts claims then. -/
def heartbeatLoss (d : Dev) : Dev :=
  if d.twinOn = false ∨ d.tim.tick < d.twn.hbAt + 9 then d
  else if d.on F.TWN_STATUS_HB_OK = false then (if d.standing && d.fabUp then d.claim else d)
  else
    let d1 := ((if d.mode = .m4 then d.copyStops else d).wr F.TWN_STATUS_HB_OK 0).post Ev.TWN_HB_LOST [(24, 1, d.peerState), (32, 6, d.twn.hbSpan)]
    let d2 := { d1 with twn := { d1.twn with copying := d1.twn.copying && d1.mode != .m4, mirroring := false } }
    if d2.standing = true ∧ d2.fabUp = true then d2.claim
    else if d2.mode = .m4 ∧ d2.fabUp = true ∧ d2.isOwner = true then d2.post Ev.TWN_PEER_LOST [(32, 6, d2.tim.span)]
    else d2

/-- SPAN_START: the span moves on (R32, R36); a span without a valid heartbeat counts in HB_MISSED; arms of a walk that were refused are
made again at their span (R91); the bucket of the telemetry export is refreshed (R398). -/
def spanBegins (d : Dev) : Dev :=
  let d1 := if d.twinOn = true ∧ d.twn.hbAt < d.tim.tick then d.bump F.TWN_HB_MISSED else d
  ((spanStart d1).walkTick).telemRefresh

/-! ### Claims and isolation (R351, R353) -/

/-- The fabric's OWNER, once a control-down cell has been taken: a change releases the pins; a claimant that is named becomes active
and TWIN_ACTIVE_OUT rises; an active whose peer is named goes to M6 WAIT (R335, R351). -/
def Dev.ownerActs (before after : Dev) : Dev :=
  if after.twinOn = false then after else
  let changed := after.on F.FAB_PAIR_STATUS_OWNER_VALID &&
    (!before.on F.FAB_PAIR_STATUS_OWNER_VALID || before.rd F.FAB_PAIR_STATUS_OWNER != after.rd F.FAB_PAIR_STATUS_OWNER)
  let d1 := if changed then { after with twn := { after.twn with pinsHeld := false, demoting := false } }.pinsFollow else after
  if before.claiming = true ∧ d1.mode = .m5 ∧ d1.isOwner = true then ({ d1 with twn := { d1.twn with pinsHeld := false } }).setRole .m4 0
  else if d1.mode = .m4 ∧ d1.peerOwns = true then d1.setRole .m6 1
  else d1

/-- TAKEOVER_TIMEOUT: OWNER unchanged 64 spans after TAKEOVER was set (R351). -/
def takeoverTimeout (d : Dev) : Dev :=
  if d.claiming = false then d
  else match d.twn.claimAt with
    | none => d
    | some (t, span) =>
      if d.tim.tick < t + 64 then d
      else (d.post Ev.TWN_TAKEOVER_FAIL [(24, 1, d.rd F.FAB_PAIR_STATUS_PEER_SILENT), (32, 6, span)]).setRole .m6 1

/-- TWIN_ISOLATION: the fabric interface has not been UP for 4 consecutive spans (R351). -/
def twinIsolation (d : Dev) : Dev :=
  match d.twn.notUpAt with
  | none => d
  | some t =>
    if (d.mode = .m4 ∨ d.mode = .m5) ∧ d.twinOn = true ∧ d.fabUp = false ∧ t + 4 ≤ d.tim.tick then
      (d.post Ev.TWN_ISOLATED [(24, 1, d.twnState), (32, 6, d.tim.span)]).setRole .m9 0
    else d

/-! ### TWN_CMD (R351, R352, R360) -/

/-- TWN_DEMOTE. -/
def twnDemote (m : Nat) (d : Dev) : Dev := if d.twinOn = true ∧ d.mode = .m4 then d.demote m else d.twnRefuse 1 m

/-- TWN_RESYNC: from M5 to M6 WAIT. -/
def twnResync (m : Nat) (d : Dev) : Dev := if d.twinOn && d.standing then d.setRole .m6 1 else d.twnRefuse 2 m

/-- Segments of a kind exist and are verified. -/
def Dev.segsVerified (d : Dev) (kind : Nat) : Bool :=
  (d.twn.segments.any fun g => g.kind == kind) && d.twn.segments.all fun g => g.kind != kind || g.verified

/-- An entry of a memory with VALID clear; a meter with mode 0. -/
def unusable (mem : Nat) (e : BitVec 1024) : BitVec 1024 :=
  if 2 ≤ mem ∧ mem ≤ 6 then exSetValid mem e false
  else if mem = 7 ∨ mem = 8 then clearValid mem e
  else if mem = 9 then setBits e 7 0 0
  else e

/-- The meters of a range leave every cache, without a write-back. -/
def Dev.forgetMeters (d : Dev) (first n : Nat) : Dev :=
  { d with tbl := { d.tbl with meters := (d.tbl.meters.map fun (e : Nat × List MeterLine) =>
      (e.1, e.2.filter fun x => x.idx < first || first + n ≤ x.idx)).filter fun e => !e.2.isEmpty } }

/-- A segment that was not verified leaves nothing usable behind, no meter in a cache either (R360). -/
def Dev.dropSegment (d : Dev) (g : Segment) : Dev :=
  if g.verified then d
  else if g.kind = 3 then
    { d with pir := { d.pir with live := d.pir.live.map fun r => (r.1, { r.2 with valid := false }),
                                 shadow := d.pir.shadow.map fun r => (r.1, { r.2 with valid := false }) } }
  else if g.memKind = 1 then { d with tbl := { d.tbl with lpm := [], lpmPoison := [] } }
  else if g.kind = 5 ∨ g.kind = 6 then
    let n := g.len / kindBytes g.memKind
    let keys := (d.tbl.mem.filter fun e => memKey g.memKind g.first ≤ e.1 && e.1 < memKey g.memKind (g.first + n)).map (·.1)
    (if g.memKind = 9 then d.forgetMeters g.first n else d).each keys fun k d =>
      { d with tbl := { d.tbl with mem := d.tbl.mem.upd (fun _ => 0) k (unusable g.memKind) } }
  else d

/-- TWN_FORCE_PROMOTE (R360). -/
def twnForcePromote (m : Nat) (d : Dev) : Dev :=
  if d.twinOn = true ∧ d.mode = .m6 ∧ d.twnSub = 1 ∧ (d.on F.TWN_STATUS_HB_OK = false ∨ d.peerState ≠ 4) ∧ d.fabUp = true ∧
     d.segsVerified 1 = true ∧ d.segsVerified 2 = true then
    ((d.each d.twn.segments fun g d => d.dropSegment g).wr F.TWN_STATUS_PARTIAL 1).claim
  else d.twnRefuse 3 m

/-- TWN_RELEASE: from M9 to M6 WAIT. -/
def twnRelease (m : Nat) (d : Dev) : Dev := if d.twinOn = true ∧ d.mode = .m9 then d.setRole .m6 1 else d.twnRefuse 4 m

/-- TWN_REACTIVATE: from M9 to M4, only while the fabric interface is UP and OWNER names this device. -/
def twnReactivate (m : Nat) (d : Dev) : Dev :=
  if d.twinOn = true ∧ d.mode = .m9 ∧ d.fabUp = true ∧ d.isOwner = true then d.setRole .m4 0 else d.twnRefuse 5 m

/-- What the block does by itself while no command waits: a slot of the span passes (R32), and the Ralin frame position that starts in it
is filled (R338). -/
def idleSlot (d : Dev) : Dev := (slotPasses d).ralinSlot

/-! ### The commands -/

/-- SPAN_START. -/
def execSpanStart (s : State) : Host.Outcome State Fault Refusal := .next { s with dev := spanBegins s.dev }
/-- CONTROL_DOWN_RX. -/
def execControlDownRx (l : Fin 160) (fate : CellFate) (c : BitVec 2048) (s : State) : Host.Outcome State Fault Refusal :=
  .next { s with dev := s.dev.ownerActs (controlDownRx l.val fate c s.dev) }
/-- TWIN_ENABLE. -/
def execTwinEnable (m : Master) (en : Bool) (s : State) : Host.Outcome State Fault Refusal :=
  onReg s m.val F.TWN_CTRL.off (twinEnable m.val en)
/-- RALIN_LANE_LOCK. -/
def execRalinLaneLock (n : Fin 8) (markers : List (BitVec 16)) (s : State) : Host.Outcome State Fault Refusal :=
  .next { s with dev := ralinLaneLock n.val markers s.dev }
/-- RALIN_LANE_LOCK_LOSS. -/
def execRalinLaneLockLoss (n : Fin 8) (first : Fin 25) (markers : List (BitVec 16)) (s : State) : Host.Outcome State Fault Refusal :=
  .next { s with dev := ralinLaneLockLoss n.val first.val markers s.dev }
/-- HEARTBEAT_SEND. -/
def execHeartbeatSend (s : State) : Host.Outcome State Fault Refusal := .next { s with dev := heartbeatSend s.dev }
/-- HEARTBEAT_RX. -/
def execHeartbeatRx (f : BitVec 4096) (s : State) : Host.Outcome State Fault Refusal := .next { s with dev := heartbeatRx f s.dev }
/-- HEARTBEAT_LOSS. -/
def execHeartbeatLoss (s : State) : Host.Outcome State Fault Refusal := .next { s with dev := heartbeatLoss s.dev }
/-- TWN_DEMOTE. -/
def execTwnDemote (m : Master) (s : State) : Host.Outcome State Fault Refusal := onReg s m.val F.TWN_CMD.off (twnDemote m.val)
/-- TWN_RESYNC. -/
def execTwnResync (m : Master) (s : State) : Host.Outcome State Fault Refusal := onReg s m.val F.TWN_CMD.off (twnResync m.val)
/-- TWN_FORCE_PROMOTE. -/
def execTwnForcePromote (m : Master) (s : State) : Host.Outcome State Fault Refusal :=
  onReg s m.val F.TWN_CMD.off (twnForcePromote m.val)
/-- TWN_RELEASE. -/
def execTwnRelease (m : Master) (s : State) : Host.Outcome State Fault Refusal := onReg s m.val F.TWN_CMD.off (twnRelease m.val)
/-- TWN_REACTIVATE. -/
def execTwnReactivate (m : Master) (s : State) : Host.Outcome State Fault Refusal := onReg s m.val F.TWN_CMD.off (twnReactivate m.val)
/-- TAKEOVER_TIMEOUT. -/
def execTakeoverTimeout (s : State) : Host.Outcome State Fault Refusal := .next { s with dev := takeoverTimeout s.dev }
/-- TWIN_ISOLATION. -/
def execTwinIsolation (s : State) : Host.Outcome State Fault Refusal := .next { s with dev := twinIsolation s.dev }

end Sys2Proof.Machine
end

