-- ==== Sys2Proof/Machine/TwinMirror.lean ====
section
/-! DEFINITION. The mirror stream as it is received, decision digests and verdicts (R340 to R350). -/

namespace Sys2Proof.Machine

/-- TWN_VERDICT: an alarm for code 4, a notice otherwise (R362). -/
def verdictEv (code : Nat) : EvDesc := ⟨0x0C05, if code = 4 then .alarm else .notice⟩

/-! ### Verdicts (R348 to R350) -/

/-- The evidence word. -/
def Dev.evidenceWord (d : Dev) : Nat := d.rd F.TWN_EVIDENCE_BITS

/-- The verdict code for the two words. -/
def verdictCode (active standby : Nat) : Nat :=
  if active = 0 then (if standby = 0 then 1 else 2) else (if standby = 0 then 3 else 4)

/-- A VERDICT frame. -/
def Dev.sendVerdict (d : Dev) (word code port window : Nat) : Dev :=
  d.mirrorSend 4 (leBytes 1 word ++ leBytes 1 code ++ leBytes 2 0 ++ leBytes 4 port ++ leBytes 4 window)

/-- The active decides with the standby's word, tells it, and demotes itself on code 3 (R350, R352). -/
def Dev.decide (d : Dev) (port window word : Nat) : Dev :=
  let mine := d.evidenceWord
  let code := verdictCode mine word
  let d1 := { d with twn := { d.twn with acted := none, earlyWord := none } }
  let d2 := (d1.sendVerdict mine code port window).post (verdictEv code) [(24, 1, code), (25, 1, mine), (26, 1, word), (27, 1, port)]
  if code = 3 then d2.demote 0 else d2

/-- A mismatch is acted on: the standby sends its evidence word; the active waits for it, or decides if it has come (R350). -/
def Dev.actOn (d : Dev) (port window : Nat) : Dev :=
  if d.standing = true ∧ d.twn.wordAt.isNone = true then
    let d1 := d.sendVerdict d.evidenceWord 0 port window
    { d1 with twn := { d1.twn with wordAt := some d.tim.tick } }
  else if d.mode = .m4 ∧ d.twn.acted.isNone = true then
    match d.twn.earlyWord with
    | some (p, w, word) => if p = port ∧ w = window then d.decide port window word
        else { d with twn := { d.twn with acted := some (port, window, d.tim.tick) } }
    | none => { d with twn := { d.twn with acted := some (port, window, d.tim.tick) } }
  else d

/-- A VERDICT frame is acted on: on the active the standby's word decides; on the standby the verdict (R350, R351). -/
def Dev.takeVerdict (d : Dev) (f : BitVec 4096) : Dev :=
  let word := byteField f 16 1
  let code := byteField f 17 1
  let port := byteField f 20 4
  let window := byteField f 24 4
  if code = 0 then
    if d.mode ≠ .m4 then d
    else match d.twn.acted with
      | some (p, w, _) => d.decide p w word
      | none => { d with twn := { d.twn with earlyWord := some (port, window, word) } }
  else if d.standing = false ∨ 4 < code then d
  else
    let d1 := { d with twn := { d.twn with wordAt := none } }
    let d2 := d1.post (verdictEv code) [(24, 1, code), (25, 1, word), (26, 1, d.evidenceWord), (27, 1, port)]
    if code = 3 then d2.claim else d2.setRole .m6 1

/-- VERDICT_EVIDENCE_TIMEOUT: 64 spans after acting the active decides with the standby's word taken as 0. -/
def verdictEvidenceTimeout (d : Dev) : Dev :=
  match d.twn.acted with
  | some (p, w, t) => if d.mode = .m4 ∧ t + 64 ≤ d.tim.tick then d.decide p w 0 else d
  | none => d

/-- VERDICT_WAIT_TIMEOUT: a standby with no verdict 128 spans after it sent its word goes to M6. -/
def verdictWaitTimeout (d : Dev) : Dev :=
  match d.twn.wordAt with
  | some t => if d.standing = true ∧ t + 128 ≤ d.tim.tick then d.setRole .m6 1 else d
  | none => d

/-- EVIDENCE_EXPIRY: a bit clears 65,536 spans after its source last fired (R349). -/
def evidenceExpiry (b : Nat) (d : Dev) : Dev :=
  if (d.evidenceWord >>> b) % 2 = 1 ∧ d.twn.evidenceAt.get (fun _ => 0) b + 65536 ≤ d.tim.tick then
    d.wr F.TWN_EVIDENCE_BITS (d.evidenceWord - (1 <<< b))
  else d

/-! ### The mirror stream received (R340, R341, R344) -/

/-- The mirror records that a MIRROR frame's payload holds. -/
def recordsIn (seq : Nat) : Nat → List Byte → List MirrorRec
  | 0, _ => []
  | n + 1, l =>
    let len := leNat (bytesAt l 2 2)
    if l.length < 16 ∨ len < 16 ∨ l.length < len then []
    else
      { kind := leNat (bytesAt l 0 1), master := leNat (bytesAt l 1 1) % 16, apply := leNat (bytesAt l 4 6),
        body := (l.take len).drop 16, seq := seq } :: recordsIn seq n (l.drop len)

/-- A record that applies on receipt: timed actions and the walk commands (R342). -/
def MirrorRec.onReceipt (r : MirrorRec) : Bool :=
  r.kind == 3 || r.kind == 4 ||
  (r.kind == 2 && (let off := leNat (r.body.take 4)
    off == F.IMG_WALK_START.off || off == F.IMG_WALK_START.off + 4 ||
    off == F.IMG_WALK_INTERVAL.off || off == F.IMG_WALK_CMD.off))

/-- The standby follows the active: in M5, or in M6 from the start of a copy. -/
def Dev.following (d : Dev) : Bool := d.mode == .m5 || d.inCopy

/-- A cause of R344 has occurred; the first one waits for MIRROR_FAILURE. -/
def Dev.mirrorCause (d : Dev) (cause seq a : Nat) : Dev :=
  { d with twn := { d.twn with mirrorDue := some (d.twn.mirrorDue.getD (cause, seq, a)) } }

/-- A received record waits for its span; one that arrives in or after its span A is late (R344). -/
def Dev.takeRecord (d : Dev) (r : MirrorRec) : Dev :=
  if r.onReceipt = false ∧ spanReached r.apply d.tim.span = true then d.mirrorCause 1 r.seq r.apply
  else { d with twn := { d.twn with records := d.twn.records ++ [r] } }

/-- A frame of the mirror stream in its turn. -/
def Dev.streamTake (d : Dev) (f : BitVec 4096) : Dev :=
  if frameType f = 4 then d.takeVerdict f
  else if d.following then d.each (recordsIn (frameSeq f) 30 (frameBytes f)) fun r d => d.takeRecord r
  else d

/-- Frames held are taken while the one expected next is among them. -/
def Dev.streamDrain : Nat → Dev → Dev
  | 0, d => d
  | n + 1, d =>
    let k := d.twn.rxSeq
    match d.twn.rxHeld.get (fun _ => none) k with
    | none => d
    | some f =>
      let d1 := { d with twn := { d.twn with rxSeq := (k + 1) % 2 ^ 32, rxHeld := d.twn.rxHeld.set (fun _ => none) k none } }
      (d1.streamTake f).streamDrain n

/-- A frame of the mirror stream arrives: it is applied in SEQ order, whatever its lane; one already taken is ignored (R340). -/
def Dev.streamRx (d : Dev) (f : BitVec 4096) : Dev :=
  let s := frameSeq f
  if 2 ^ 31 ≤ (s + 2 ^ 32 - d.twn.rxSeq) % 2 ^ 32 then d
  else
    let d1 := { d with twn := { d.twn with rxHeld := d.twn.rxHeld.set (fun _ => none) s (some f) } }
    d1.streamDrain d1.twn.rxHeld.length

/-- MIRROR_FRAME_RX. -/
def mirrorFrameRx (f : BitVec 4096) (d : Dev) : Dev := d.onFrame 2 f fun d => d.streamRx f

/-- VERDICT_RX. -/
def verdictRx (f : BitVec 4096) (d : Dev) : Dev := d.onFrame 4 f fun d => d.streamRx f

/-- A kept frame waits for a frame position, for the first time or again. -/
def Dev.msgWaits (d : Dev) (seq : Nat) : Bool := d.twn.waiting.any fun x => (x.type == 2 || x.type == 4) && x.seq == seq

/-- The kept frames from the oldest on that do not wait already: a MIRROR frame ahead of all else, a VERDICT at its own priority (R338). -/
def Dev.resendList (d : Dev) : List RalinMsg :=
  (d.twn.txKept.filter fun k => !d.msgWaits k.1).map fun k =>
    if k.2.2.type = 2 then { k.2.2 with prio := 0 } else k.2.2

/-- MIRROR_RETRANSMIT: when ACK has not passed the oldest frame within 4 spans of sending, the kept frames wait to be sent again from it (R338,
R340). -/
def mirrorRetransmit (d : Dev) : Dev :=
  match d.twn.txKept with
  | [] => d
  | (seq, t, _) :: _ =>
    if d.tim.tick < t + 4 ∨ d.ralinUp = false ∨ d.msgWaits seq = true then d
    else
      let l := d.resendList
      ({ d with twn := { d.twn with waiting := d.twn.waiting ++ l } }).bumpN F.TWN_MIRROR_RETX l.length

/-- The cause of R344 that MIRROR_FAILURE names, if it has occurred: its SEQ and span A. A gap in the stream that the sender no longer
fills is a mirror failure on the standby. -/
def Dev.failureDue (d : Dev) (cause : Nat) : Option (Nat × Nat) :=
  match d.twn.mirrorDue with
  | some (c, s, a) => if c = cause then some (s, a) else none
  | none => if cause = 3 ∧ d.following = true ∧ d.twn.rxHeld.isEmpty = false then some (d.twn.rxSeq, 0) else none

/-- A RESYNC_CTRL frame: operation, segment, CRC-64 or count, cause (R338). -/
def Dev.sendCtrl (d : Dev) (op seg crc cause : Nat) : Dev :=
  d.ralinSend 5 0 (leBytes 1 op ++ leBytes 3 0 ++ leBytes 4 seg ++ leBytes 8 crc ++ leBytes 1 cause)

/-- MIRROR_FAILURE: counted and posted; the standby leaves M5 for M6, in a copy the copy is to be aborted, and an active whose buffer has
lost a frame aborts a copy it sends (R344, R359). -/
def mirrorFailure (cause : Nat) (d : Dev) : Dev :=
  match d.failureDue cause with
  | none => d
  | some (s, a) =>
    let d0 := { d with twn := { d.twn with mirrorDue := none } }
    let d1 := (d0.bump F.TWN_MIRROR_LATE).post Ev.TWN_MIRROR_LATE [(24, 1, cause), (28, 4, s), (32, 6, a)]
    if d1.standing then d1.setRole .m6 1
    else if d1.inCopy then { d1 with twn := { d1.twn with abortDue := some 3 } }
    else if d1.mode = .m4 ∧ d1.twn.copying = true then
      let d2 := d1.copyStops.sendCtrl 7 0 0 3
      { d2 with twn := { d2.twn with copying := false, mirroring := false } }
    else d1

/-! ### Digests (R345 to R348) -/

/-- The bytes of a digest entry (R347). -/
def digestBytes (port : Nat) (e : DigestEntry) : List Byte :=
  leBytes 1 port ++ leBytes 1 (if e.void then 1 else 0) ++ leBytes 2 e.drops ++ leBytes 4 e.window ++ leBytes 4 e.firstFp ++
  leBytes 2 e.firstLen ++ leBytes 2 0 ++ leBytes 8 e.digest

/-- A digest entry of a DIGEST frame: its port and the entry. -/
def readDigest (now : Nat) (l : List Byte) : Nat × DigestEntry :=
  (leNat (bytesAt l 0 1) % 128,
   { void := leNat (bytesAt l 1 1) % 2 == 1, drops := leNat (bytesAt l 2 2), window := leNat (bytesAt l 4 4),
     firstFp := leNat (bytesAt l 8 4), firstLen := leNat (bytesAt l 12 2), digest := leNat (bytesAt l 16 8), tick := now })

/-- Mismatches among the last 8 compared windows. -/
def mismatches (h : List Bool) : Nat := ((h.take 8).filter id).length

/-- A pair of entries for one window is compared (R347, R348). The active counts and posts; both twins act. -/
def Dev.compareWindow (d : Dev) (p : Nat) (a b : DigestEntry) : Dev :=
  let active := d.mode == .m4
  if a.void = true ∨ b.void = true ∨ a.firstFp ≠ b.firstFp ∨ a.firstLen ≠ b.firstLen then
    if active then (d.bump F.TWN_WIN_VOID).updTp p fun x => { x with realignDue := true } else d
  else
    let bad := a.digest != b.digest
    let h := (bad :: (d.tp p).history).take 8
    let d1 := d.updTp p fun x => { x with history := h, retry := 0 }
    if bad = false then (if active then d1.bump F.TWN_WIN_MATCH else d1)
    else
      let n := mismatches h
      let d2 := if active then
          (d1.bump F.TWN_WIN_MISMATCH).post Ev.TWN_MISMATCH [(24, 1, p), (25, 1, n), (28, 4, a.window)]
        else d1
      if d2.rd F.TWN_CFG_THR ≤ n then d2.actOn p a.window else d2

/-- DIGEST_WINDOW_CLOSE: 4,096 records of an aligned port close a window; its entry is sent, and compared if the peer's has come. -/
def digestWindowClose (p : Nat) (d : Dev) : Dev :=
  let x := d.tp p
  if d.twinOn = false ∨ !(d.mode == .m4 || d.mode == .m5) ∨ x.aligned = false ∨ x.cur.length < 4096 then d
  else
    let recs := x.cur.take 4096
    let e : DigestEntry :=
      { void := x.drops != 0, drops := min x.drops 0xFFFF, window := x.window, firstFp := byteField (recs.headD 0) 0 4,
        firstLen := byteField (recs.headD 0) 4 2 % 16384, digest := crc64 (recs.flatMap bytesOf), tick := d.tim.tick }
    let d1 := d.updTp p fun x => { x with cur := x.cur.drop 4096, drops := 0, window := (x.window + 1) % 2 ^ 32 }
    if d.on F.TWN_CFG_DIGEST_EN = false then d1
    else
      let d2 := d1.ralinSend 3 0 (digestBytes p e)
      match x.peer.find? fun y => y.window == e.window with
      | some y => (d2.updTp p fun x => { x with peer := x.peer.filter fun z => z.window != e.window }).compareWindow p e y
      | none => d2.updTp p fun x => { x with mine := x.mine ++ [e] }

/-- DIGEST_RX: each entry is compared with the own entry for its window, or waits for the own close. -/
def digestRx (f : BitVec 4096) (d : Dev) : Dev :=
  d.onFrame 3 f fun d =>
    if d.on F.TWN_CFG_DIGEST_EN = false ∨ !(d.mode == .m4 || d.mode == .m5) then d
    else
      let l := frameBytes f
      d.each (List.range (min 20 (l.length / 24))) fun i d =>
        let (p, e) := readDigest d.tim.tick (bytesAt l (24 * i) 24)
        let x := d.tp p
        if x.aligned = false then d
        else match x.mine.find? fun y => y.window == e.window with
          | some y => (d.updTp p fun x => { x with mine := x.mine.filter fun z => z.window != e.window }).compareWindow p y e
          | none => d.updTp p fun x => { x with peer := x.peer ++ [e] }

/-- DIGEST_COMPARE_TIMEOUT: a window that the peer has not sent within 1,024 spans of the own close is dropped from comparison. -/
def digestCompareTimeout (p : Nat) (d : Dev) : Dev :=
  d.updTp p fun x => { x with mine := x.mine.filter fun e => d.tim.tick ≤ e.tick + 1024 }

/-- REALIGN_RX: the standby finds the record that starts window 0 among its last 4,096, with the frames dropped since it, or goes on to search its next 65,536 (R346). -/
def realignRx (f : BitVec 4096) (d : Dev) : Dev :=
  d.onFrame 8 f fun d =>
    if d.mode ≠ .m5 then d
    else
      let p := byteField f 16 1 % 128
      let fp := byteField f 20 4
      let len := byteField f 24 2
      let l := (d.tp p).recent
      match l.findIdx? fun r => byteField r.1 0 4 == fp && byteField r.1 4 2 % 16384 == len with
      | some k => d.updTp p fun x =>
          { x with aligned := true, seek := none, cur := ((l.take (k + 1)).map (·.1)).reverse,
                   drops := x.dropSum - ((l[k]?).map (·.2)).getD 0, window := 0, mine := [], peer := [] }
      | none => d.updTp p fun x =>
          { x with aligned := false, seek := some (fp, len, realignSearch), cur := [], drops := 0, window := 0, mine := [], peer := [] }

/-! ### The commands -/

/-- MIRROR_FRAME_RX. -/
def execMirrorFrameRx (f : BitVec 4096) (s : State) : Host.Outcome State Fault Refusal := .next { s with dev := mirrorFrameRx f s.dev }
/-- MIRROR_RETRANSMIT. -/
def execMirrorRetransmit (s : State) : Host.Outcome State Fault Refusal := .next { s with dev := mirrorRetransmit s.dev }
/-- MIRROR_FAILURE. -/
def execMirrorFailure (c : Fin 8) (s : State) : Host.Outcome State Fault Refusal := .next { s with dev := mirrorFailure c.val s.dev }
/-- DIGEST_WINDOW_CLOSE. -/
def execDigestWindowClose (p : Port) (s : State) : Host.Outcome State Fault Refusal :=
  .next { s with dev := digestWindowClose p.val s.dev }
/-- DIGEST_RX. -/
def execDigestRx (f : BitVec 4096) (s : State) : Host.Outcome State Fault Refusal := .next { s with dev := digestRx f s.dev }
/-- DIGEST_COMPARE_TIMEOUT. -/
def execDigestCompareTimeout (p : Port) (s : State) : Host.Outcome State Fault Refusal :=
  .next { s with dev := digestCompareTimeout p.val s.dev }
/-- REALIGN_RX. -/
def execRealignRx (f : BitVec 4096) (s : State) : Host.Outcome State Fault Refusal := .next { s with dev := realignRx f s.dev }
/-- VERDICT_RX. -/
def execVerdictRx (f : BitVec 4096) (s : State) : Host.Outcome State Fault Refusal := .next { s with dev := verdictRx f s.dev }
/-- VERDICT_EVIDENCE_TIMEOUT. -/
def execVerdictEvidenceTimeout (s : State) : Host.Outcome State Fault Refusal := .next { s with dev := verdictEvidenceTimeout s.dev }
/-- VERDICT_WAIT_TIMEOUT. -/
def execVerdictWaitTimeout (s : State) : Host.Outcome State Fault Refusal := .next { s with dev := verdictWaitTimeout s.dev }
/-- EVIDENCE_EXPIRY. -/
def execEvidenceExpiry (b : Fin 32) (s : State) : Host.Outcome State Fault Refusal := .next { s with dev := evidenceExpiry b.val s.dev }

end Sys2Proof.Machine
end

