-- ==== Sys2Proof/Machine/Resync.lean ====
section
/-! DEFINITION. Resync: the segments of a copy, the manifest, the frames that carry them, and the end of a copy (R354 to R359). -/

namespace Sys2Proof.Machine

/-! ### What the segments hold (R354). The encodings of kinds 2 to 4 and of LPM routes are the model's. -/

/-- The largest segment, 64 MiB. -/
def segMax : Nat := 67108864

/-- Registers outside the mirrored windows that go with the image store: which slot is live, and the epoch its tag follows from. -/
def storeRegs : List Nat := [F.IMG_STATUS.off, F.TIM_EPOCH.off, F.IMG_WALK_START.off, F.IMG_WALK_INTERVAL.off]

/-- A register of the configuration state that a copy carries: software writes it, in the PIR, TBL, QUE or DCK window. -/
def copiedReg (key : Nat) : Bool :=
  let off := key % 0x20000000
  storeRegs.contains off || tblConfig off ||
  (((0x8000000 ≤ off && off < 0x9100000) || (0xD000000 ≤ off && off < 0xE000000) || (0x11000000 ≤ off && off < 0x12000000)) &&
    match findReg off with
    | some h => h.desc.rw != 0 || h.desc.rwl != 0
    | none => false)

/-- The configuration items that differ from their reset value, by key: registers, then the hierarchy's parents (2^60), roots (2^61) and
the timed-action entries (2^62, three words each). -/
def Dev.configKeys (d : Dev) : List Nat :=
  (d.regs.filter fun r => copiedReg r.1).map (·.1) ++ d.que.parent.map (2 ^ 60 + ·.1) ++ d.que.roots.map (2 ^ 61 + ·.1) ++
  d.tim.entries.flatMap fun e => [2 ^ 62 + 4 * e.1, 2 ^ 62 + 4 * e.1 + 1, 2 ^ 62 + 4 * e.1 + 2]

/-- The code of an entry's state. -/
def taCode : TaState → Nat
  | .free => 0 | .armed => 1 | .done => 2 | .missed => 3

/-- The state of a code. -/
def taState (n : Nat) : TaState := if n = 1 then .armed else if n = 2 then .done else if n = 3 then .missed else .free

/-- The value of a configuration item. -/
def Dev.configGet (d : Dev) (k : Nat) : Nat :=
  if k < 2 ^ 60 then (d.reg k).toNat
  else if k < 2 ^ 61 then d.parent (k - 2 ^ 60)
  else if k < 2 ^ 62 then (match d.root (k - 2 ^ 61) with | some n => n + 1 | none => 0)
  else
    let e := d.entryAt ((k - 2 ^ 62) / 4)
    let j := (k - 2 ^ 62) % 4
    if j = 0 then e.span else if j = 1 then e.type + 16 * taCode e.state + 64 * e.cmdResult + 256 * e.result else e.operand.toNat

/-- A configuration item takes a value. -/
def Dev.configPut (d : Dev) (k v : Nat) : Dev :=
  if k < 2 ^ 60 then (if copiedReg k then d.setReg k (BitVec.ofNat 64 v) else d)
  else if k < 2 ^ 61 then d.setParent (k - 2 ^ 60) v
  else if k < 2 ^ 62 then
    { d with que := { d.que with roots := d.que.roots.set rootReset (k - 2 ^ 61) (if v = 0 then none else some (v - 1)) } }
  else
    let i := (k - 2 ^ 62) / 4 % 256
    let j := (k - 2 ^ 62) % 4
    let e := d.entryAt i
    d.setEntry i (if j = 0 then { e with span := v }
      else if j = 1 then { e with type := v % 16, state := taState (v / 16 % 4), cmdResult := v / 64 % 4, result := v / 256 % 4 }
      else { e with operand := BitVec.ofNat 64 v })

/-- The engine state as records of 32 bytes: 1 retire list, 2 placements, 3 seeds. -/
def Dev.engineRecords (d : Dev) : List Nat :=
  let rec8 (l : List Nat) : Nat := leNat (l.flatMap (leBytes 4))
  (d.tbl.retire.map fun x => rec8 [1, x.kind, x.first, x.count, x.release, x.release / 2 ^ 32, 0, 0]) ++
  (d.tbl.places.flatMap fun e => (e.2.filter fun x => x.pin.isNone || x.newBase != x.base || x.newCap != x.cap).map fun x => rec8 [2, e.1, x.kind, x.base, x.cap, x.newBase, x.newCap, 0]) ++
  (d.img.seeds.filterMap fun e => e.2.map fun x => rec8 [3, e.1, x.1, x.2, 0, 0, 0, 0])

/-- An engine record is taken: it takes the place of one for the same range or placement, so that a segment sent again adds nothing (R357). -/
def Dev.engineTake (d : Dev) (l : List Byte) : Dev :=
  let w (i : Nat) : Nat := leNat (bytesAt l (4 * i) 4)
  if w 0 = 1 then
    let x : Retired := { kind := w 1, first := w 2, count := w 3, release := w 4 + 2 ^ 32 * w 5 }
    { d with tbl := { d.tbl with
      retire := (d.tbl.retire.filter fun y => !(y.kind == x.kind && y.first == x.first && y.count == x.count)) ++ [x] } }
  else if w 0 = 2 then
    let x : Placed := { kind := w 2, base := w 3, cap := w 4, newBase := w 5, newCap := w 6 }
    { d with tbl := { d.tbl with places := d.tbl.places.upd (fun _ => []) (w 1) fun t =>
      (t.filter fun y => !(y.kind == x.kind && y.base == x.base && y.cap == x.cap)) ++ [x] } }
  else if w 0 = 3 then { d with img := { d.img with seeds := d.img.seeds.set (fun _ => none) (w 1) (some (w 2, w 3)) } }
  else d

/-- A route's name. -/
def routeKey (x : Route) : Nat := x.table + 2 ^ 16 * x.vrf + 2 ^ 32 * x.len + 2 ^ 40 * x.addr

/-- The 32 bytes of R169 of a named route; zeros, VALID 0, once it has been deleted. -/
def Dev.routeBytes (d : Dev) (k : Nat) : List Byte :=
  match d.tbl.lpm.find? fun x => routeKey x == k with
  | some x => leBytes 32 (routeData x).toNat
  | none => List.replicate 32 0

/-- A route is taken: it replaces the prefix it names. -/
def Dev.routeTake (d : Dev) (l : List Byte) : Dev :=
  if leNat (bytesAt l 19 1) % 2 = 0 then d else
  let t := leNat (bytesAt l 20 2)
  let x : Route := { table := t, vrf := leNat (bytesAt l 16 2), addr := beNat (bytesAt l 0 16), len := leNat (bytesAt l 18 1),
                     result := leNat (bytesAt l 24 6),
                     cost := match d.schema d.liveTag t with | some s => if s.keyBits = 144 then 2 else 1 | none => 1 }
  { d with tbl := { d.tbl with lpm := d.tbl.lpm.filter (fun y => !x.same y) ++ [x] } }

/-- The 64 bytes of a TCAM row. -/
def rowBytes (r : TcamRow) : List Byte :=
  leBytes 20 r.key.toNat ++ leBytes 20 r.mask.toNat ++ leBytes 1 (if r.valid then 1 else 0) ++ leBytes 1 r.chain ++ leBytes 2 r.ranges ++
  leBytes 4 0 ++ leBytes 8 r.res.toNat ++ leBytes 8 0

/-- The row of 64 bytes. -/
def rowOf (l : List Byte) : TcamRow :=
  { key := BitVec.ofNat 160 (leNat (bytesAt l 0 20)), mask := BitVec.ofNat 160 (leNat (bytesAt l 20 20)),
    valid := leNat (bytesAt l 40 1) % 2 == 1, chain := leNat (bytesAt l 41 1), ranges := leNat (bytesAt l 42 2),
    res := BitVec.ofNat 64 (leNat (bytesAt l 48 8)) }

/-! ### Segments -/

/-- Is the segment made of records that its keys name? The bytes of one. -/
def Segment.recBytes (g : Segment) : Nat := if g.kind = 2 then 16 else if g.kind = 4 ∨ g.memKind = 1 then 32 else 0

/-- The bytes of the entry or row `i` of a segment's memory. -/
def Dev.segEntry (d : Dev) (g : Segment) (i : Nat) : List Byte :=
  if g.kind = 3 then rowBytes (d.pir.live.get (fun _ => TcamRow.reset) i) else leBytes (kindBytes g.memKind) (d.entryNow g.memKind i).toNat

/-- The bytes per entry or row. -/
def Segment.entryBytes (g : Segment) : Nat := if g.kind = 3 then 64 else kindBytes g.memKind

/-- One record of a segment as it stands now: an engine record that is no longer in force reads 0 (R356). -/
def Dev.segRecord (d : Dev) (g : Segment) (k : Nat) : List Byte :=
  if g.kind = 2 then leBytes 8 k ++ leBytes 8 (d.configGet k)
  else if g.kind = 4 then leBytes 32 (if d.engineRecords.contains k then k else 0)
  else d.routeBytes k

/-- Up to 480 bytes of a segment from an offset, in the state of this span (R356). -/
def Dev.segBytes (d : Dev) (g : Segment) (ofs : Nat) : List Byte :=
  let n := min 480 (g.len - ofs)
  let r := g.recBytes
  if g.kind = 1 then bytesAt ((d.img.raw.get (fun _ => []) (g.first / 33554432)).drop ofs) 0 n
  else if r ≠ 0 then ((g.keys.drop (ofs / r)).take (n / r)).flatMap fun k => d.segRecord g k
  else
    let e := g.entryBytes
    let a := ofs / e
    let b := (ofs + n + e - 1) / e
    bytesAt (((List.range (b - a)).flatMap fun i => d.segEntry g (g.first + a + i)).drop (ofs - a * e)) 0 n

/-- One byte of an entry or row. -/
def Dev.segPutByte (d : Dev) (g : Segment) (k : Nat) (v : Byte) : Dev :=
  let e := g.entryBytes
  let i := g.first + k / e
  if g.kind = 3 then
    let l := rowBytes (d.pir.live.get (fun _ => TcamRow.reset) i)
    let r := rowOf (l.take (k % e) ++ [v] ++ l.drop (k % e + 1))
    { d with pir := { d.pir with live := d.pir.live.set (fun _ => TcamRow.reset) i r,
                                 shadow := d.pir.shadow.set (fun _ => TcamRow.reset) i r } }
  else (if g.memKind = 9 then d.forgetMeter i else d).putEntry g.memKind i (setBits (d.entry g.memKind i) (8 * (k % e) + 7) (8 * (k % e)) v.toNat)

/-- Received bytes of a segment are written; the image store's wait until the segment is verified. -/
def Dev.segWrite (d : Dev) (g : Segment) (ofs : Nat) (l : List Byte) : Dev :=
  let r := g.recBytes
  if g.kind = 1 then d
  else if r ≠ 0 then
    d.each (List.range (l.length / r)) fun i d =>
      let b := bytesAt l (r * i) r
      if g.kind = 2 then d.configPut (leNat (b.take 8)) (leNat (b.drop 8)) else if g.kind = 4 then d.engineTake b else d.routeTake b
  else d.each (l.zipIdx ofs) fun x d => d.segPutByte g x.2 x.1

/-- A range of a memory as segments of at most 64 MiB: kind, memory kind, first entry, bytes. -/
def splitRange (kind mem first n per : Nat) : List Segment :=
  let m := segMax / per
  (List.range ((n + m - 1) / m)).map fun i =>
    { seg := 0, kind := kind, memKind := mem, first := first + m * i, len := per * min m (n - m * i), crc := 0, data := [],
      verified := false, failures := 0, failed := false, keys := [] }

/-- A list of records as segments. -/
def splitRecords (kind mem per : Nat) (keys : List Nat) : List Segment :=
  (splitRange kind mem 0 keys.length per).map fun g => { g with keys := (keys.drop g.first).take (g.len / per) }

/-- The ranges that tables of a kind occupy in the live bank (R209, R354). -/
def Dev.tableRanges (d : Dev) (kind : Nat) : List (Nat × Nat) :=
  match d.liveImage with
  | none => []
  | some im => im.schemas.zipIdx.filterMap fun x =>
      if x.1.kind = kind ∧ x.1.capacity ≠ 0 then
        some (if 2 ≤ kind ∧ kind ≤ 6 then ((d.placeOf x.2 x.1).base, (d.placeOf x.2 x.1).cap) else (x.1.base, x.1.capacity))
      else none

/-- The segments of a copy, in order and numbered (R354, R355). -/
def Dev.manifest (d : Dev) : List Segment :=
  let store := (List.range 2).map fun s =>
    ({ seg := 0, kind := 1, memKind := 0, first := 33554432 * s, len := (d.img.raw.get (fun _ => []) s).length, crc := 0, data := [],
       verified := false, failures := 0, failed := false, keys := [] } : Segment)
  let lpm := splitRecords 5 1 32 (d.tbl.lpm.map routeKey)
  let tables := (List.range 7).flatMap fun j => (d.tableRanges (j + 2)).flatMap fun r => splitRange 5 (j + 2) r.1 r.2 (kindBytes (j + 2))
  let all := store ++ splitRecords 2 0 16 d.configKeys ++ splitRange 3 0 0 (17 * 32768) 64 ++ splitRecords 4 0 32 d.engineRecords ++
    lpm ++ tables ++ splitRange 6 9 0 (kindCap 9) 64
  all.zipIdx.map fun x => { x.1 with seg := x.2 }

/-- The 32 bytes of a manifest entry with a CRC field (R355). -/
def manifestBytes (g : Segment) (crc : Nat) : List Byte :=
  leBytes 4 g.seg ++ leBytes 1 g.kind ++ leBytes 1 g.memKind ++ leBytes 2 0 ++ leBytes 8 g.first ++ leBytes 4 g.len ++ leBytes 4 0 ++
  leBytes 8 crc

/-- The manifest check: CRC-64 over all entries with their CRC fields filled (R357). -/
def manifestCrc (l : List Segment) : Nat := crc64 (l.flatMap fun g => manifestBytes g g.crc)

/-- Lists of at most 15. -/
def chunks15 {α : Type} : Nat → List α → List (List α)
  | 0, _ => []
  | n + 1, l => if l.isEmpty then [] else l.take 15 :: chunks15 n (l.drop 15)

/-! ### The active's side (R356, R357) -/

/-- The device with one segment changed. -/
def Dev.updSeg (d : Dev) (n : Nat) (f : Segment → Segment) : Dev :=
  { d with twn := { d.twn with segments := d.twn.segments.map fun g => if g.seg = n then f g else g } }

/-- A REQUEST is accepted: mirroring starts in this span, an open rehash ends with cause RESYNC, and the manifest goes out (R356). The
mirror stream starts again from SEQ 1. -/
def Dev.acceptCopy (d : Dev) : Dev :=
  let d1 := d.copyStops.rehashFail 4
  let l := d1.manifest
  let d2 := { d1 with twn := { d1.twn with copying := true, mirroring := true, segments := l, sendSeg := 0, sendOfs := 0, txSeq := 1,
                                           txKept := [], mirrorDue := none,
                                           waiting := d1.twn.waiting.filter fun x => x.type != 2 && x.type != 4 } }
  (d2.sendCtrl 2 0 0 0).each (chunks15 l.length l) fun c d => d.ralinSend 6 0 (c.flatMap fun g => manifestBytes g 0)

/-- A REQUEST: accepted only in M4 outside M7 with no copy running. -/
def Dev.takeRequest (d : Dev) : Dev :=
  if d.mode = .m4 ∧ d.m7 = false ∧ d.twn.copying = false then d.acceptCopy else d.sendCtrl 3 0 0 0

/-- A segment counts as failed: the active sends it again, the standby asks for it again at its SEG_DONE; at the active too a fourth failure aborts
the copy (R357, R441). -/
def Dev.segmentFails (d : Dev) (n : Nat) : Dev :=
  if d.mode = .m4 then
    if d.twn.segments.any fun x => x.seg == n && 3 ≤ x.failures then
      let d1 := (d.copyStops).sendCtrl 7 n 0 4
      { d1 with twn := { d1.twn with copying := false, mirroring := false } }
    else
      ({ d with twn := { d.twn with sendSeg := n, sendOfs := 0 } }).updSeg n fun x =>
        { x with verified := false, data := [], failures := x.failures + 1 }
  else d.updSeg n fun x => { x with failed := !x.verified }

/-- SEGMENT_SEND: the next 480 bytes of the copy; after a segment's last bytes, when the check units that measure it have compared
and none fails it (R443), SEG_DONE with its CRC-64, after the last segment
MANIFEST_END with the entry count and the manifest's CRC-64 (R356, R357). -/
def segmentSend (d : Dev) : Dev :=
  if d.mode ≠ .m4 ∨ d.twn.copying = false ∨ d.ralinUp = false then d
  else match d.twn.segments.find? fun g => !g.verified with
    | none => d
    | some g =>
      let ofs := if d.twn.sendSeg = g.seg then d.twn.sendOfs else 0
      let l := d.segBytes g ofs
      let data := (if ofs = 0 then [] else g.data) ++ l
      let d0 := if ofs = 0 then d.streamBegins 3 g.seg g.len else d
      let d1 := (d0.streamFeed 3 g.seg (some ofs) l).ralinSend 7 0 (leBytes 4 g.seg ++ leBytes 4 ofs ++ l)
      if ofs + l.length < g.len then
        ({ d1 with twn := { d1.twn with sendSeg := g.seg, sendOfs := ofs + l.length } }).updSeg g.seg fun x => { x with data := data }
      else
        let crc := crc64 data
        let (stop, d1) := d1.streamEnds 3 g.seg
        if stop then d1.segmentFails g.seg else
        let d2 := ({ d1 with twn := { d1.twn with sendSeg := g.seg + 1, sendOfs := 0 } }).updSeg g.seg fun x =>
          { x with data := [], crc := crc, verified := true }
        let d3 := d2.sendCtrl 4 g.seg crc 0
        if d3.twn.segments.all (·.verified) then d3.sendCtrl 6 d3.twn.segments.length (manifestCrc d3.twn.segments) 0 else d3

/-! ### The standby's side (R356 to R359) -/

/-- ACCEPT: the copy starts; the configuration and engine state it replaces is cleared, and the mirror stream starts again. -/
def Dev.takeAccept (d : Dev) : Dev :=
  if d.mode ≠ .m6 ∨ d.twnSub ≠ 1 then d
  else
    let d1 := { d with
      twn := { d.twn with segments := [], manifestEnd := none, abortDue := none, mirrorDue := none, rxSeq := 1, rxHeld := [] },
      regs := d.regs.filter (fun r => !copiedReg r.1 || storeRegs.contains (r.1 % 0x20000000)),
      que := { d.que with parent := [], roots := [] }, tim := { d.tim with entries := [] },
      tbl := { d.tbl with lpm := [], lpmPoison := [], retire := [], places := [] }, img := { d.img with seeds := [] } }
    ((d1.wr F.TWN_RESYNC_DONE 0).wr F.TWN_RESYNC_TOTAL 0).setRole .m6 2

/-- The copy is verified when every segment and the manifest check match; the device then enters SETTLE (R357, R358). -/
def Dev.copyCheck (d : Dev) : Dev :=
  match d.twn.manifestEnd with
  | none => d
  | some (n, crc) =>
    if d.mode = .m6 ∧ d.twnSub = 2 ∧ d.twn.segments.length = n ∧ d.twn.segments.all (·.verified) = true ∧
       manifestCrc d.twn.segments = crc then
      ({ d with twn := { d.twn with settleAt := d.tim.tick, settleLimit := d.rd F.TIM_DRAIN_LIMIT_LIMIT } }).setRole .m6 3
    else d

/-- A verified segment of the image store fills its slot. -/
def Dev.storeTake (d : Dev) (g : Segment) : Dev :=
  if g.kind ≠ 1 then d else
  let raw := bytesAt g.data 0 g.len
  let im := match checkImage raw raw.length d.sec.fuses.variantS 0 0xFFFF_FFFF 1 none with
    | .inr im => some (im, raw)
    | .inl _ => none
  (d.setSlot (g.first / 33554432) im).showSlots

/-- The configuration has been copied: the piers and ports follow the slot that is now live, as after a live load (R85). -/
def Dev.configCopied (d : Dev) (g : Segment) : Dev :=
  if g.kind ≠ 2 then d else
  let d1 := d.showSlots.each (List.range 17) fun p d =>
    let d1 := if d.pierState p = 4 then
        d.wr (F.IMG_PIER_STATUS_STATE.ix p) (if d.on (F.IMG_PIER_STATUS_SERVING.ix p) then 0 else 1)
      else d
    if d1.pierState p = 3 then d1 else d1.setPierSlot p d1.liveSlot
  match d1.liveImage with
  | some im => d1.each (im.ports.take 128).zipIdx fun x d => d.wr (F.LPT_STATUS_MODE.port x.2) (if x.1.present then x.1.mode else 0)
  | none => d1

/-- SEG_DONE: a segment whose CRC-64 matches is verified; another is asked for again, and a fourth failure aborts the copy (R357). -/
def Dev.takeSegDone (d : Dev) (n crc : Nat) : Dev :=
  match d.twn.segments.find? fun g => g.seg == n with
  | none => d
  | some g =>
    if d.mode ≠ .m6 ∨ d.twnSub ≠ 2 ∨ g.verified = true then d
    else if crc64 (bytesAt g.data 0 g.len) = crc ∧ g.failed = false then
      let d1 := (d.storeTake g).configCopied g
      ((d1.updSeg n fun x => { x with verified := true, crc := crc, data := [] }).wr F.TWN_RESYNC_DONE
        (d.rd F.TWN_RESYNC_DONE + 1)).copyCheck
    else if 3 ≤ g.failures then { d with twn := { d.twn with abortDue := some 4 } }
    else (d.updSeg n fun x => { x with failures := x.failures + 1, failed := false, data := [] }).sendCtrl 5 n 0 0

/-- RESYNC_CTRL_RX: the operations of R356. -/
def resyncCtrlRx (f : BitVec 4096) (d : Dev) : Dev :=
  d.onFrame 5 f fun d =>
    let op := byteField f 16 1
    let seg := byteField f 20 4
    let crc := byteField f 24 8
    if op = 1 then d.takeRequest
    else if op = 2 then d.takeAccept
    else if op = 4 then d.takeSegDone seg crc
    else if op = 5 then
      if d.mode = .m4 ∧ d.twn.copying = true then d.updSeg seg fun x => { x with verified := false, data := [] } else d
    else if op = 6 then
      if d.inCopy then ({ d with twn := { d.twn with manifestEnd := some (seg, crc) } }).copyCheck else d
    else if op = 7 then
      if d.inCopy then { d with twn := { d.twn with abortDue := some 5 } }
      else if d.mode = .m4 then { d.copyStops with twn := { d.twn with copying := false, mirroring := false } }
      else d
    else if op = 8 then
      if d.mode = .m4 then { d.copyStops with twn := { d.twn with copying := false } } else d
    else d

/-- MANIFEST_RX: the standby records the segment entries (R355). -/
def manifestRx (f : BitVec 4096) (d : Dev) : Dev :=
  d.onFrame 6 f fun d =>
    if d.mode ≠ .m6 ∨ d.twnSub ≠ 2 then d
    else
      let l := frameBytes f
      let new := (List.range (min 15 (l.length / 32))).map fun i =>
        let b := bytesAt l (32 * i) 32
        ({ seg := leNat (bytesAt b 0 4), kind := leNat (bytesAt b 4 1), memKind := leNat (bytesAt b 5 1), first := leNat (bytesAt b 8 8),
           len := min segMax (leNat (bytesAt b 16 4)), crc := 0, data := [], verified := false, failures := 0, failed := false, keys := [] } : Segment)
      let known := new.filter fun g => !(d.twn.segments.any fun x => x.seg == g.seg)
      let d1 := { d with twn := { d.twn with segments := d.twn.segments ++ known } }
      d1.wr F.TWN_RESYNC_TOTAL d1.twn.segments.length

/-- SEGMENT_RX: received bytes are written, and kept until SEG_DONE (R357); at the last byte the check units that measure the segment compare
(R443). -/
def segmentRx (f : BitVec 4096) (d : Dev) : Dev :=
  d.onFrame 7 f fun d =>
    let n := byteField f 16 4
    let ofs := byteField f 20 4
    let l := (frameBytes f).drop 8
    match d.twn.segments.find? fun g => g.seg == n with
    | none => d
    | some g =>
      if d.mode ≠ .m6 ∨ d.twnSub ≠ 2 ∨ g.verified = true ∨ g.len < ofs + l.length then d
      else
        let d1 := (((if ofs = 0 then d.streamBegins 3 n g.len else d).streamFeed 3 n (some ofs) l).segWrite g ofs l).updSeg n fun x =>
          { x with data := placeBytes x.data ofs g.len l }
        if ofs + l.length < g.len then d1
        else
          let (stop, d2) := d1.streamEnds 3 n
          if stop then d2.segmentFails n else d2

/-- RESYNC_REQUEST_SEND: every 64 spans in M6 WAIT while the link is up and no step S3 or deeper is in force (R356). -/
def resyncRequestSend (d : Dev) : Dev :=
  let due := match d.twn.requestAt with
    | some t => t + 64 ≤ d.tim.tick
    | none => true
  if d.twinOn && d.mode == .m6 && d.twnSub == 1 && d.ralinUp && d.shed < 3 && due then
    ({ d with twn := { d.twn with requestAt := some d.tim.tick } }).sendCtrl 1 0 0 0
  else d

/-- The case of R359 that aborts the copy holds. -/
def Dev.abortHolds (d : Dev) (cause : Nat) : Bool :=
  d.inCopy &&
  (if cause = 1 then !d.on F.TWN_STATUS_HB_OK
   else if cause = 2 then d.peerState != 4 || (d.twn.peerFlags >>> 7) % 2 == 1
   else 3 ≤ cause && cause ≤ 5 && d.twn.abortDue == some cause)

/-- COPY_ABORT: back to M6 WAIT, keeping what has been received (R359). -/
def copyAbort (cause : Nat) (d : Dev) : Dev :=
  if d.abortHolds cause then
    let n := (d.twn.segments.filter (·.verified)).length
    let d1 := ({ d with twn := { d.twn with abortDue := none } }).post Ev.TWN_COPY_ABORT [(24, 1, cause), (28, 4, n)]
    (d1.sendCtrl 7 0 0 cause).setRole .m6 1
  else d

/-- SETTLE_COMPLETE: TIM_DRAIN_LIMIT spans, as read at entry to SETTLE, with no cause of R344: M5, IN_STEP (R358). DEDUCED (31): at step S3 or
deeper, which keeps a standby in M6 (R361), SETTLE does not end in M5. -/
def settleComplete (d : Dev) : Dev :=
  if d.mode = .m6 ∧ d.twnSub = 3 ∧ d.twn.settleAt + d.twn.settleLimit ≤ d.tim.tick ∧ d.twn.mirrorDue.isNone = true ∧
     d.twn.abortDue.isNone = true ∧ d.shed < 3 then
    let d1 := ((d.wr F.TWN_STATUS_PARTIAL 0).setRole .m5 0).sendCtrl 8 0 0 0
    d1.post Ev.TWN_IN_STEP [(28, 4, d1.twn.segments.length), (32, 6, d1.tim.span)]
  else d

/-! ### The commands -/

/-- RESYNC_REQUEST_SEND. -/
def execResyncRequestSend (s : State) : Host.Outcome State Fault Refusal := .next { s with dev := resyncRequestSend s.dev }
/-- RESYNC_CTRL_RX. -/
def execResyncCtrlRx (f : BitVec 4096) (s : State) : Host.Outcome State Fault Refusal := .next { s with dev := resyncCtrlRx f s.dev }
/-- MANIFEST_RX. -/
def execManifestRx (f : BitVec 4096) (s : State) : Host.Outcome State Fault Refusal := .next { s with dev := manifestRx f s.dev }
/-- SEGMENT_SEND. -/
def execSegmentSend (s : State) : Host.Outcome State Fault Refusal := .next { s with dev := segmentSend s.dev }
/-- SEGMENT_RX. -/
def execSegmentRx (f : BitVec 4096) (s : State) : Host.Outcome State Fault Refusal := .next { s with dev := segmentRx f s.dev }
/-- COPY_ABORT. -/
def execCopyAbort (c : Fin 8) (s : State) : Host.Outcome State Fault Refusal := .next { s with dev := copyAbort c.val s.dev }
/-- SETTLE_COMPLETE. -/
def execSettleComplete (s : State) : Host.Outcome State Fault Refusal := .next { s with dev := settleComplete s.dev }

end Sys2Proof.Machine
end

