-- ==== Sys2Proof/Machine/Pwr.lean ====
section
/-! DEFINITION. Power domains, rails, shedding, pier clocks and temperature (R403 to R418). The dwell times of the shed steps and
the intervals of the readings are the environment's: each command stands for the moment its time has passed. -/

namespace Sys2Proof.Machine

/-! ### Domains (R403, R404) -/

/-- Should domain `n` be on? -/
def Dev.domainWanted (d : Dev) (n : Nat) : Bool :=
  if d.mode = .m0 then false
  else if n < 85 then d.pierState (n / 5) != 3 && d.mode != .m11
  else if n < 101 then (d.octetPorts (n - 85)).length != 0
  else if n < 121 then d.on F.FAB_CTRL_EN && (d.rd F.PWR_FAB_OFF_OCTETS >>> (n - 101)) % 2 == 0 && d.mode != .m11
  else if n < 131 then true
  else if n < 135 then d.farAvail && !(d.buf.port (n - 131)).disabled
  else if n < 139 then d.pairState (n - 135) != 0 && d.pairState (n - 135) != 4
  else if n < 144 then true
  else if n = 144 then d.on F.HST_TELEM_CFG_EN && d.shed == 0
  else d.sec.fuses.twinAvail && d.twinOn && d.mode != .m11

/-- PWR_DOM_STATUS with a domain's bit set or cleared. -/
def Dev.setDomain (d : Dev) (n : Nat) (on : Bool) : Dev :=
  let f := F.PWR_DOM_STATUS.ix (n / 32)
  d.wr f (putBit (BitVec.ofNat 32 (d.rd f)) (n % 32) on).toNat

/-- DOMAIN_SWITCH: a domain follows its condition. A fabric octet turned off takes its lanes and links with it (cause 6, R296), the
Ralin link its lanes. -/
def domainSwitch (n : Nat) (d : Dev) : Dev :=
  let on := d.domainWanted n
  if d.domainOn n = on then d else
  let d1 := d.setDomain n on
  if on then d1
  else if 101 ≤ n ∧ n < 121 then
    let j := n - 101
    let d2 := { d1 with fab := { d1.fab with locked := setBits d1.fab.locked (8 * j + 7) (8 * j) 0 } }
    d2.each ([2 * j, 2 * j + 1].filter d2.fabLinkUp) fun i d => d.linkGoesDown i 6
  else if n = 145 then d1.setLanes 0
  else d1

/-! ### Rails (R406, R407) -/

/-- RAIL_BELOW_WARNING: a core monitor falls below 0.690 V; a hold or restore stops (R413). -/
def railBelowWarning (d : Dev) : Dev :=
  (({ d with pwr := { d.pwr with clear := false } }.wr F.PWR_STATUS_BELOW_WARN 1).wr F.PWR_STATUS_HOLDING 0).wr F.PWR_STATUS_RESTORING 0

/-- RAIL_CLEAR: every core monitor is at or above 0.700 V; with a step in force the 10 ms hold starts (R413). -/
def railClear (d : Dev) : Dev :=
  let d1 := { d with pwr := { d.pwr with clear := true } }.wr F.PWR_STATUS_BELOW_WARN 0
  (if d.shed ≠ 0 ∧ d.on F.PWR_STATUS_RESTORING = false then d1.wr F.PWR_STATUS_HOLDING 1 else d1).setRails

/-- RAIL_NEITHER_WARNING_NOR_CLEAR: the count toward the next step stops, and the clear hold breaks (R411, R413). Steps that are being lifted
wait until the device is clear again. -/
def railNeither (d : Dev) : Dev :=
  (({ d with pwr := { d.pwr with clear := false } }.wr F.PWR_STATUS_BELOW_WARN 0).wr F.PWR_STATUS_HOLDING 0).setRails

/-- RAIL_READING: the monitors read their rails; MIN_MV follows the lowest since its last read (R407). -/
def railReading (mvs : List Nat) (d : Dev) : Dev :=
  d.each (mvs.take 16).zipIdx fun x d =>
    let mv := min x.1 0xFFFF
    let low := if d.pwr.railSeen.get (fun _ => false) x.2 then min mv (d.rd (F.PWR_RAIL_MIN_MV.ix x.2)) else mv
    ({ d with pwr := { d.pwr with railSeen := d.pwr.railSeen.set (fun _ => false) x.2 true } }.wr (F.PWR_RAIL_MV.ix x.2) mv).wr
      (F.PWR_RAIL_MIN_MV.ix x.2) low

/-- RAIL_OOR: a non-core monitor has been outside ±5 % for 1 ms, or is back inside (R406). -/
def railOor (n : Nat) (d : Dev) : Dev :=
  if n < 7 then d else
  let was := d.pwr.outside.get (fun _ => false) n
  ({ d with pwr := { d.pwr with outside := d.pwr.outside.set (fun _ => false) n (!was) } }).post Ev.PWR_RAIL_OOR
    [(24, 1, n), (25, 1, if was then 1 else 0), (26, 2, d.rd (F.PWR_RAIL_MV.ix n))]

/-! ### Shedding (R410 to R414) -/

/-- The core monitor with the lowest reading, and the reading. -/
def Dev.lowestCore (d : Dev) : Nat × Nat :=
  (List.range 7).foldl (fun a n => if d.rd (F.PWR_RAIL_MV.ix n) < a.2 then (n, d.rd (F.PWR_RAIL_MV.ix n)) else a) (0, d.rd (F.PWR_RAIL_MV.ix 0))

/-- The deepest step in force changes; the log shows it. -/
def Dev.setShed (d : Dev) (n : Nat) : Dev :=
  let d1 := ((d.wr F.PWR_STATUS_SHED_STEP n).wr F.PWR_SHED_LOG_STEP n).wr F.PWR_SHED_LOG_SPAN d.tim.span
  d1.wr F.PWR_SHED_LOG_MAX_STEP (max n (d1.rd F.PWR_SHED_LOG_MAX_STEP))

/-- The ports that are up go down. -/
def Dev.portsDown (d : Dev) (ps : List Nat) (cause : Nat) : Dev := d.each (ps.filter d.linkUp) fun p d => d.portDown p cause

/-- What comes with the entry of step `n`, beside what the step in force stops by itself. -/
def Dev.shedEffect (d : Dev) (n : Nat) : Dev :=
  if n = 2 then d.walkShed
  else if n = 3 then d.twinShed
  else if n = 5 then d.portsDown ((List.range 128).filter d.portShed) 1
  else if n = 6 then
    let octets := (List.range 17).filterMap fun p => if d.pierHalted p then d.octetOf p else none
    d.portsDown (octets.flatMap d.octetPorts) 6
  else d

/-- SHED_STEP_ENTER: below warning for the dwell of the next step, it comes into force (R411). -/
def shedStepEnter (d : Dev) : Dev :=
  if d.mode = .m0 ∨ d.on F.PWR_STATUS_BELOW_WARN = false ∨ 6 ≤ d.shed then d
  else d.withMode fun d =>
    let n := d.shed + 1
    let (core, mv) := d.lowestCore
    ((d.setShed n).post Ev.PWR_SHED_ENTER [(24, 1, n), (25, 1, core), (26, 2, mv), (32, 6, d.tim.span)]).shedEffect n

/-- SHED_STEP_LIFT: after the hold, and then one at a time, the deepest step is lifted while the device is clear (R413, R414). -/
def shedStepLift (d : Dev) : Dev :=
  if d.shed = 0 ∨ d.pwr.clear = false ∨ (d.on F.PWR_STATUS_HOLDING || d.on F.PWR_STATUS_RESTORING) = false then d
  else d.withMode fun d =>
    let n := d.shed
    let d1 := ((d.setShed (n - 1)).wr F.PWR_STATUS_HOLDING 0).wr F.PWR_STATUS_RESTORING (if n = 1 then 0 else 1)
    let d2 := d1.post Ev.PWR_SHED_RESTORE [(24, 1, n), (25, 1, n - 1), (32, 6, d.tim.span)]
    if n = 6 then d2.runFailDue else if n = 2 then d2.walkShed else if n = 1 then d2.setRails else d2

/-! ### Clocks, temperature and regulators (R408, R409, R416) -/

/-- PIER_CLOCK_CHANGE: the lowest of TARGET, the shed cap and the thermal cap (R409); the core rails follow (R408). -/
def pierClockChange (p : Nat) (d : Dev) : Dev :=
  (d.wr (F.PWR_PIER_FREQ_ACTUAL.ix p)
    (min (d.rd (F.PWR_PIER_FREQ_TARGET.ix p)) (min (if 4 ≤ d.shed then 1200 else 1600) d.pwr.thermCap))).setRails

/-- Two's complement in 16 bits. -/
def tempWord (v : Int) : Nat := (BitVec.ofInt 16 v).toNat

/-- A sensor's reading, and the highest since its register was read. -/
def Dev.takeTemp (d : Dev) (n : Nat) (v : Int) : Dev :=
  let m := match d.pwr.tempMax.get (fun _ => none) n with
    | some x => max x v
    | none => v
  ({ d with pwr := { d.pwr with tempMax := d.pwr.tempMax.set (fun _ => none) n (some m) } }).wr (F.PWR_TEMP_TEMP.ix n) (tempWord v)

/-- TEMP_READING: the thermal cap falls or rises by 100 MHz; two readings of 125 °C or more by a sensor make a trip due (R416, R417). -/
def tempReading (eighths : List Int) (d : Dev) : Dev :=
  let l := (eighths.take 32).zipIdx
  match l with
  | [] => d
  | h :: _ =>
    let d1 := d.each l fun x d => d.takeTemp x.2 x.1
    let (v, s) := l.foldl (fun a x => if x.1 > a.1 then x else a) h
    let thr : Int := 8 * d.rd F.PWR_THERM_CFG_THROTTLE
    let cap := d.pwr.thermCap
    let cap1 := if v ≥ thr then max 1000 (cap - 100) else if v < thr - 40 then min 1600 (cap + 100) else cap
    let hot := (l.filter fun x => x.1 ≥ 1000).map (·.2)
    let trip := match l.find? fun x => x.1 ≥ 1000 && d.pwr.hot.contains x.2 with
      | some x => some (x.2, x.1)
      | none => d.pwr.tripDue
    let d2 := { d1 with pwr := { d1.pwr with thermCap := cap1, hot := hot, tripDue := trip, tripHold := d.pwr.tripHold && v ≥ thr - 40 } }
    let d3 := d2.wr F.PWR_STATUS_THROTTLE (if cap1 < 1600 then 1 else 0)
    if (cap == 1600) = (cap1 == 1600) then d3
    else d3.post Ev.PWR_THROTTLE [(24, 1, if cap1 < 1600 then 1 else 0), (25, 1, s), (26, 2, tempWord v)]

/-- The fault bits of STATUS_WORD. PRESUMED (37): PMBus 1.4's STATUS_WORD, in which OFF and POWER_GOOD# alone report no fault. -/
def faultBits (w : BitVec 16) : BitVec 16 := w &&& 0xF7BF

/-- The power of a regulator in µW: READ_VOUT × READ_IOUT, in mV and mA. -/
def regPower (r : RegReport) : Nat := r.vout * r.iout

/-- REGULATOR_POLL: a set fault bit is posted and cleared, an AVSBus fault and a regulator that does not answer are posted, and the package
power is summed (R408). -/
def regulatorPoll (l : List RegReport) (d : Dev) : Dev :=
  let mine := l.filter fun r => d.on (F.PWR_PMB_ADDR_VALID.ix r.slot.val)
  let d1 := d.each mine fun r d =>
    let i := r.slot.val
    let d0 := d.when r.avsFault (·.post Ev.PWR_REG_FAULT [(24, 1, i), (26, 2, if r.answered then r.status.toNat else 0), (28, 1, 2)])
    if r.answered = false then d0.post Ev.PWR_REG_FAULT [(24, 1, i), (28, 1, 3)]
    else if faultBits r.status = 0 then d0
    else ({ d0 with pwr := { d0.pwr with clearFaults := d0.pwr.clearFaults ++ [i] } }).post Ev.PWR_REG_FAULT
      [(24, 1, i), (26, 2, r.status.toNat), (28, 1, 1)]
  let uw := ((mine.filter fun r => r.answered && d.on (F.PWR_PMB_ADDR_PKG.ix r.slot.val)).map regPower).sum
  d1.wr F.PWR_PKG_POWER_WATTS (min (uw / 1000000) 0xFFFF)

/-! ### The commands -/

/-- DOMAIN_SWITCH. -/
def execDomainSwitch (n : Fin 146) (s : State) : Host.Outcome State Fault Refusal := .next { s with dev := domainSwitch n.val s.dev }
/-- RAIL_BELOW_WARNING. -/
def execRailBelowWarning (s : State) : Host.Outcome State Fault Refusal := .next { s with dev := railBelowWarning s.dev }
/-- RAIL_CLEAR. -/
def execRailClear (s : State) : Host.Outcome State Fault Refusal := .next { s with dev := railClear s.dev }
/-- RAIL_NEITHER_WARNING_NOR_CLEAR. -/
def execRailNeitherWarningNorClear (s : State) : Host.Outcome State Fault Refusal := .next { s with dev := railNeither s.dev }
/-- RAIL_READING. -/
def execRailReading (mvs : List Nat) (s : State) : Host.Outcome State Fault Refusal := .next { s with dev := railReading mvs s.dev }
/-- RAIL_OOR. -/
def execRailOor (n : Fin 16) (s : State) : Host.Outcome State Fault Refusal := .next { s with dev := railOor n.val s.dev }
/-- SHED_STEP_ENTER. -/
def execShedStepEnter (s : State) : Host.Outcome State Fault Refusal := .next { s with dev := shedStepEnter s.dev }
/-- SHED_STEP_LIFT. -/
def execShedStepLift (s : State) : Host.Outcome State Fault Refusal := .next { s with dev := shedStepLift s.dev }
/-- REGULATOR_POLL. -/
def execRegulatorPoll (l : List RegReport) (s : State) : Host.Outcome State Fault Refusal := .next { s with dev := regulatorPoll l s.dev }
/-- PIER_CLOCK_CHANGE. -/
def execPierClockChange (p : Pier) (s : State) : Host.Outcome State Fault Refusal := .next { s with dev := pierClockChange p.val s.dev }
/-- TEMP_READING. -/
def execTempReading (l : List Int) (s : State) : Host.Outcome State Fault Refusal := .next { s with dev := tempReading l s.dev }

end Sys2Proof.Machine
end

