-- ==== Sys2Proof/Machine/Sec.lean ====
section
/-! DEFINITION. Boot, fuses, attestation, flash and tamper (R422 to R439), and the lockstep evidence (R349, R364). -/

namespace Sys2Proof.Machine

/-! ### Flash (R422 to R425) -/

/-- The size of the boot flash: the largest device supported. -/
def flashSize : Nat := 0x10000000

/-- Bytes of the flash. -/
def Dev.flashBytes (d : Dev) (ofs n : Nat) : List Byte := (List.range n).map fun i => d.sec.flash.get (fun _ => 0xFF) (ofs + i)

/-- The context string of firmware bundles, "VY-FIRMWARE". -/
def fwContext : List Byte := [0x56, 0x59, 0x2D, 0x46, 0x49, 0x52, 0x4D, 0x57, 0x41, 0x52, 0x45]

/-- The directory is valid: MAGIC "VYFD", VERSION, CRC (R423). -/
def dirValid (l : List Byte) : Bool :=
  bytesAt l 0 4 == [0x56, 0x59, 0x46, 0x44] && at_ l 4 2 == 1 && at_ l 60 4 == crc32c (l.take 60)

/-- The slots that hold a bundle, in the order they are tried: descending SEQ, A first with equal SEQ (R426): slot, offset, length. -/
def dirSlots (l : List Byte) : List (Nat × Nat × Nat) :=
  let a := (0, at_ l 8 4, at_ l 12 4)
  let b := (1, at_ l 20 4, at_ l 24 4)
  (if at_ l 28 4 > at_ l 16 4 then [b, a] else [a, b]).filter fun s => s.2.2 != 0

/-- Component `c` of a bundle: offset, length and CRC (R424). -/
def component (l : List Byte) (c : Nat) : Nat × Nat × Nat := (at_ l (32 + 16 * c) 4, at_ l (36 + 16 * c) 4, at_ l (40 + 16 * c) 4)

/-- The components of a bundle lie inside it. -/
def componentsInside (l : List Byte) (len : Nat) : Bool :=
  (List.range 3).all fun c => 256 ≤ (component l c).1 && (component l c).1 + (component l c).2.1 + 256 ≤ len

/-- The bytes of a component. -/
def componentBytes (l : List Byte) (c : Nat) : List Byte := bytesAt l (component l c).1 (component l c).2.1

/-- The cause of a bundle's failure, in the order of R426; 0: it passes. -/
def bundleCause (f : Fuses) (l : List Byte) (len : Nat) : Nat :=
  let sig := bytesAt l (len - 256) 256
  let slot := at_ sig 5 1
  let key := bytesAt sig 24 57
  if len < 512 ∨ 8388608 < len ∨ bytesAt l 0 4 ≠ [0x56, 0x59, 0x46, 0x57] ∨ at_ l 4 2 ≠ 1 ∨ at_ l 12 4 ≠ len ∨
     componentsInside l len = false then 3
  else if at_ l 16 2 ≠ 0x9640 then 4
  else if at_ l 6 2 < f.fwArb then 5
  else if slot < 2 ∧ bitOn f.revoke slot = true then 6
  else if f.fwKeys[slot]? ≠ some (BitVec.ofNat 512 (leNat (shake256 key 64))) then 7
  else if sigCause fwContext sig (shake256 (l.take (len - 256)) 64) f.fwKeys 0 ≠ 0 then 8
  else if (List.range 3).any (fun c => crc32c (componentBytes l c) != (component l c).2.2) then 9
  else 0

/-- A slot is tried: what was found (R426). A read error of the flash ends it. -/
def Dev.tryBundle (d : Dev) (s : Nat × Nat × Nat) (readError : Bool) : BundleInfo :=
  let l := d.flashBytes s.2.1 (min s.2.2 8388608)
  let cause := if readError then 13 else bundleCause d.sec.fuses l s.2.2
  let digests := if cause = 3 ∨ cause = 13 then []
    else (List.range 3).map fun c => BitVec.ofNat 512 (leNat (shake256 (componentBytes l c) 64))
  { slot := s.1, passed := cause == 0, svn := at_ l 6 2 % 128, version := BitVec.ofNat 32 (at_ l 8 4), keySlot := at_ l (s.2.2 - 251) 1 % 2,
    cause := cause, digests := digests, ofs := s.2.1, len := s.2.2 }

/-! ### Boot (R426 to R428) -/

/-- A boot that ends before any slot is tried: the device halts in M1 (R427). -/
def Dev.bootHalts (d : Dev) (cause slot : Nat) : Dev :=
  ((d.wr F.SEC_BOOT_STATUS_CAUSE cause).wr F.SEC_BOOT_STATUS_PHASE 15).post Ev.SEC_BOOT_FAIL [(24, 1, cause), (25, 1, slot)]

/-- A failure of trust sends the device to M11 (R427, R435). -/
def untrusted (cause : Nat) : Bool := 5 ≤ cause && cause ≤ 8

/-- No slot passed: M11 after a failure of trust, otherwise HALTED. -/
def Dev.bootFails (d : Dev) (tried : List BundleInfo) : Dev :=
  match tried.getLast? with
  | none => d.bootHalts 0 0xFF
  | some b =>
    let d1 := { d with sec := { d.sec with bundle := some b } }.wr F.SEC_BOOT_STATUS_CAUSE b.cause
    match tried.reverse.find? fun x => untrusted x.cause with
    | some x => (d1.wr F.SEC_BOOT_STATUS_PHASE 3).quarantine x.cause
    | none => d1.bootHalts b.cause b.slot

/-- A bundle boots: the cores take their components, the switched domains come up at the rails' fused targets, the CXL ports start training
(R236), the control pairs start, and the device waits for an image (R366, R369, R373, R404, R408, R426). -/
def Dev.bootRuns (d : Dev) (b : BundleInfo) (failed : List BundleInfo) : Dev :=
  let cause := ((failed.getLast?).map (·.cause)).getD 0
  let back := if failed.isEmpty then 0 else 1
  let d1 := ((({ d with sec := { d.sec with bundle := some b } }.wr F.SEC_BOOT_STATUS_CAUSE cause).wr F.SEC_BOOT_STATUS_FALLBACK back).wr
    F.SEC_BOOT_STATUS_SLOT b.slot).wr F.SEC_BOOT_STATUS_KEY_SLOT b.keySlot
  let d2 := ((d1.wr F.SEC_BOOT_STATUS_FW_SVN b.svn).wr F.SEC_BOOT_STATUS_PHASE 5).wr F.CTL_FW_VERSION b.version.toNat
  let fw := d.flashBytes b.ofs b.len
  let solos := d2.each [0, 1] fun m d => d.startSolo (componentBytes fw m) m
  let pairs := (solos.each (List.range 4) fun p d => (d.startPair (componentBytes fw 2) p).wr (F.CTL_PAIR_STATUS_STATE.ix p) 1).each
    (List.range 146) domainSwitch
  let d3 := pairs.setRails.bindDefaults.each (List.range 4) fun n d => d.cxlStartTraining n
  let d4 := d3.each failed fun x d => d.post Ev.SEC_BOOT_FALLBACK [(24, 1, x.slot), (25, 1, x.cause)]
  d4.post Ev.SEC_BOOT_DONE [(24, 1, b.slot), (25, 1, b.svn), (26, 1, back), (28, 4, b.version.toNat)]

/-- TAMPER (R435): SEC_TAMPER, a load in progress aborted, and M11. -/
def Dev.tamper (d : Dev) : Dev :=
  if d.mode = .m0 ∨ d.mode = .m11 then d
  else (imgLoadAbort d.postTamper).quarantine 11

/-- BOOT_COMPLETE: fuse, flash and bundle checks in the order of R426. `tamperLow` is TAMPER_IN_N at the end of FUSE; `readError` bits 0 to
2 say that reading the directory, slot A or slot B failed. -/
def bootComplete (tamperLow : Bool) (readError : BitVec 3) (d : Dev) : Dev :=
  if d.mode ≠ .m1 ∨ 4 ≤ d.rd F.SEC_BOOT_STATUS_PHASE then d
  else if d.sec.fuses.ok = false then ((d.wr F.SEC_BOOT_STATUS_CAUSE 10).wr F.SEC_BOOT_STATUS_PHASE 1).quarantine 10
  else if tamperLow then ((d.wr F.SEC_BOOT_STATUS_CAUSE 11).wr F.SEC_BOOT_STATUS_PHASE 1).tamper
  else if 2 ≤ d.rd F.GLB_STRAP_FLASH_MODE then d.bootHalts 1 0xFF
  else
    let dir := d.flashBytes 0 64
    if bitOn readError 0 then d.bootHalts 13 0xFF
    else if dirValid dir = false then d.bootHalts 2 0xFF
    else
      let tried := (dirSlots dir).map fun s => d.tryBundle s (bitOn readError (s.1 + 1))
      let failed := tried.takeWhile fun b => !b.passed
      match tried.find? fun b => b.passed with
      | some b => d.bootRuns b failed
      | none => d.bootFails tried

/-- TAMPER_ASSERT: a low level in M1 to M10. -/
def tamperAssert (d : Dev) : Dev := d.tamper

/-! ### Fuses (R429, R430) -/

/-- A field as sensed: the value of two copies at least; none where all three differ. -/
def vote {α : Type} [DecidableEq α] (x y z : α) : Option α :=
  if x = y ∨ x = z then some x else if y = z then some y else none

/-- The fuses as sensed: each field's majority, and a good check where no field's copies all disagree and UDS reads. -/
def FuseArray.sense (f : FuseArray) : Fuses :=
  let v := vote f.a.variantS f.b.variantS f.c.variantS
  let t := vote f.a.twinAvail f.b.twinAvail f.c.twinAvail
  let w := vote f.a.farAvail f.b.farAvail f.c.farAvail
  let r := vote f.a.revoke f.b.revoke f.c.revoke
  let n := vote f.a.fwArb f.b.fwArb f.c.fwArb
  let j := vote f.a.jtagLock f.b.jtagLock f.c.jtagLock
  let k := vote f.a.fwKeys f.b.fwKeys f.c.fwKeys
  let i := vote f.a.imgKeys f.b.imgKeys f.c.imgKeys
  { variantS := v.getD f.a.variantS, twinAvail := t.getD f.a.twinAvail, farAvail := w.getD f.a.farAvail, revoke := r.getD f.a.revoke,
    fwArb := n.getD f.a.fwArb, jtagLock := j.getD f.a.jtagLock, fwKeys := k.getD f.a.fwKeys, imgKeys := i.getD f.a.imgKeys,
    uds := f.uds.getD 0,
    ok := v.isSome && t.isSome && w.isSome && r.isSome && n.isSome && j.isSome && k.isSome && i.isSome && f.uds.isSome }

/-- SEC_FUSE_STATE. -/
def Dev.fuseState (d : Dev) : Nat :=
  let f := d.sec.fuses
  f.fwArb % 128 + 256 * f.revoke.toNat + (if f.jtagLock then 0x4000 else 0) + (if f.ok then 0x8000 else 0) +
  (if f.twinAvail then 0x10000 else 0) + (if f.farAvail then 0x20000 else 0)

/-- A refused SEC command: 1 fuse, 2 flash, 3 attestation, 4 reset; why as in R439. -/
def Dev.secRefuse (d : Dev) (what why m : Nat) : Dev := d.post Ev.SEC_CMD_REFUSED [(24, 1, what), (25, 1, why), (26, 1, m)]

/-- The key slot of an image store slot's image. -/
def Dev.imageKey (d : Dev) (s : Nat) : Option Nat := (d.slotImage s).map (·.keySlot)

/-- A revoke that R430 refuses: the running bundle's slot, the last firmware slot not yet revoked, a slot that an image uses, or a slot
that does not exist. -/
def Dev.revokeBad (d : Dev) (slot : Nat) : Bool :=
  let used := match d.sec.bundle with
    | some b => b.passed && b.keySlot == slot
    | none => false
  if slot < 2 then used || (!bitOn d.sec.fuses.revoke slot && bitOn d.sec.fuses.revoke (1 - slot))
  else slot ≥ 6 || d.imageKey 0 == some (slot - 2) || d.imageKey 1 == some (slot - 2)

/-- The refusal of a fuse command, in the order of R439; 0: accepted. -/
def Dev.fuseBar (d : Dev) (m op slot : Nat) : Nat :=
  if m ≠ 6 then 3
  else if d.on F.GLB_LOCK_LOCK then 1
  else if d.mode ≠ .m2 ∧ d.mode ≠ .m3 then 2
  else if d.sec.fuseOp.isSome then 4
  else if op = 0 ∨ 3 < op ∨ (op = 2 ∧ d.revokeBad slot = true) then 5
  else 0

/-- A write of SEC_FUSE_CMD: the operation starts, or is refused. -/
def fuseStart (m op slot : Nat) (d : Dev) : Dev :=
  let why := d.fuseBar m op slot
  if why = 0 then { d with sec := { d.sec with fuseOp := some (op, slot) } }.wr F.SEC_FUSE_CMD_RESULT 1
  else (if d.sec.fuseOp.isSome then d else d.wr F.SEC_FUSE_CMD_RESULT 3).secRefuse 1 why m

/-- Fuse fields after an operation: 1 raises FW_ARB to `svn`, 2 revokes a key slot, 3 sets JTAG_LOCK. -/
def FuseFields.blown (f : FuseFields) (op slot svn : Nat) : FuseFields :=
  if op = 1 then { f with fwArb := max f.fwArb svn }
  else if op = 2 then { f with revoke := putBit f.revoke slot true }
  else { f with jtagLock := true }

/-- What an advance raises FW_ARB to: the running bundle's SVN. -/
def Dev.advanceTo (d : Dev) : Nat :=
  match d.sec.bundle with
  | some b => if b.passed then min b.svn 64 else 0
  | none => 0

/-- An operation changes the fuses, every copy of them. -/
def Dev.blow (d : Dev) (f : FuseFields → FuseFields) : Dev :=
  let x := d.sec.array
  { d with sec := { d.sec with array := { x with a := f x.a, b := f x.b, c := f x.c },
                               fuses := { d.sec.fuses with toFuseFields := f d.sec.fuses.toFuseFields } } }

/-- FUSE_OP_DONE. -/
def fuseOpDone (d : Dev) : Dev :=
  match d.sec.fuseOp with
  | none => d
  | some (op, slot) =>
    let d0 := d.blow fun f => f.blown op slot d.advanceTo
    let d1 := { d0 with sec := { d0.sec with fuseOp := none } }.wr F.SEC_FUSE_CMD_RESULT 2
    d1.post Ev.SEC_FUSE_DONE [(24, 1, op), (25, 1, slot), (26, 1, d1.sec.fuses.fwArb)]

/-! ### Identity and attestation (R432 to R434) -/

/-- The seed of the identity key. -/
def Dev.idSeed (d : Dev) : List Byte :=
  shake256 (leBytes 64 d.sec.fuses.uds.toNat ++ [0x56, 0x59, 0x2D, 0x49, 0x44, 0x45, 0x4E, 0x54, 0x49, 0x54, 0x59]) 57

/-- The identity public key, 57 bytes. -/
def Dev.idPublic (d : Dev) : List Byte := edPublic d.idSeed

/-- SEC_ID_PUB word `n`. -/
def Dev.idPubWord (d : Dev) (n : Nat) : Nat := at_ d.idPublic (4 * n) 4

/-- An 80-byte entry of the report. -/
def attestEntry (type state svn version : Nat) (digest : BitVec 512) : List Byte :=
  leBytes 1 type ++ leBytes 1 state ++ leBytes 2 svn ++ leBytes 4 version ++ leBytes 8 0 ++ leBytes 64 digest.toNat

/-- The entry of firmware component `c` (0 to 2): of the bundle that booted, or of the last slot tried. -/
def Dev.fwEntry (d : Dev) (c : Nat) : List Byte :=
  match d.sec.bundle with
  | none => attestEntry (c + 1) 0 0 0 0
  | some b => attestEntry (c + 1) (if b.passed then 1 else 2) b.svn b.version.toNat (b.digests.getD c 0)

/-- The entry of an image: being loaded, verified, failed its signature check, or absent. -/
def Dev.imgEntry (d : Dev) (type slot : Nat) (loading verified : Bool) (isTarget : Nat → Bool) : List Byte :=
  if loading then attestEntry type 3 0 0 0
  else match verified, d.slotImage slot with
    | true, some im => attestEntry type 1 im.svn im.compatId im.digest
    | _, _ => match d.sec.imgFailed with
      | some x => if isTarget x.target then attestEntry type 2 x.svn x.compat x.digest else attestEntry type 0 0 0 0
      | none => attestEntry type 0 0 0 0

/-- The TIME of a report: span, slot and VALID as TIM_STC shows them, VALID a copy of LOCKED (R434). -/
def Dev.reportTime (d : Dev) : Nat := d.tim.span + (d.tim.slot <<< 48) + (if d.locked then 1 <<< 63 else 0)

/-- Bytes 0 to 543 of a report, as of now (R434). -/
def Dev.attestBytes (d : Dev) : List Byte :=
  let nonce := (List.range 8).flatMap fun n => leBytes 4 (d.rd (F.SEC_ATT_NONCE_NONCE.ix n))
  let b := d.sec.bundle
  let passed := match b with | some x => x.passed | none => false
  let svn := match b with | some x => if x.passed then x.svn else 0xFF | none => 0xFF
  let boot := if passed then d.rd F.SEC_BOOT_STATUS_SLOT + 2 * d.rd F.SEC_BOOT_STATUS_FALLBACK + 4 * d.rd F.SEC_BOOT_STATUS_KEY_SLOT else 0
  let target := d.img.load.map (·.target)
  let staged := d.staged == 3 || d.staged == 4 || d.staged == 5 || d.staged == 7
  [0x56, 0x59, 0x41, 0x54] ++ leBytes 2 1 ++ leBytes 2 658 ++ nonce ++ leBytes 8 Config.dieId.toNat ++ leBytes 4 d.glbId ++
  leBytes 4 d.modeFlags ++ leBytes 8 d.reportTime ++ leBytes 4 d.fuseState ++ leBytes 2 (d.rd F.IMG_MIN_SVN_SVN) ++ leBytes 1 svn ++
  leBytes 1 boot ++ leBytes 1 5 ++ leBytes 7 0 ++ d.idPublic ++ leBytes 7 0 ++ d.fwEntry 0 ++ d.fwEntry 1 ++ d.fwEntry 2 ++
  d.imgEntry 4 d.liveSlot (target == some 0) (d.on F.IMG_STATUS_LIVE_VALID) (· == 0) ++
  d.imgEntry 5 (1 - d.liveSlot) (target == some 1 || target == some 2) staged (· != 0)

/-- The context string of reports, "VY-ATTEST". -/
def attestContext : List Byte := [0x56, 0x59, 0x2D, 0x41, 0x54, 0x54, 0x45, 0x53, 0x54]

/-- ATTEST_START by master 0 or 6; other masters' writes are ignored (R433). -/
def attestStart (m : Nat) (d : Dev) : Dev :=
  if m ≠ 0 ∧ m ≠ 6 then d
  else
    let why := if d.mode ≠ .m11 ∧ d.rd F.SEC_BOOT_STATUS_PHASE < 5 then 2 else if d.sec.attest.isSome then 4 else 0
    if why ≠ 0 then (if d.sec.attest.isSome then d else d.wr F.SEC_ATT_STATE 3).secRefuse 3 why m
    else
      let d1 := { d with sec := { d.sec with attest := some (m, d.attestBytes) } }
      ((d1.wr F.SEC_ATT_STATE 1).wr F.SEC_ATT_LEN 0).each (List.range 165) fun n d => d.wr (F.SEC_ATT_REPORT.ix n) 0

/-- ATTEST_DONE: the signed report is written. -/
def attestDone (d : Dev) : Dev :=
  match d.sec.attest with
  | none => d
  | some (m, l) =>
    let r := l ++ edSign attestContext d.idSeed l
    let d1 := ({ d with sec := { d.sec with attest := none } }).each (List.range 165) fun n d => d.wr (F.SEC_ATT_REPORT.ix n) (at_ r (4 * n) 4)
    ((d1.wr F.SEC_ATT_STATE 2).wr F.SEC_ATT_LEN 658).post Ev.SEC_ATT_DONE [(24, 1, m), (28, 4, at_ l 8 4)]

/-! ### Flash operations (R438) -/

/-- The range overlaps the slot that booted. -/
def Dev.bootedOverlap (d : Dev) (ofs len : Nat) : Bool :=
  match d.sec.bundle with
  | some b => b.passed && ofs < b.ofs + b.len && b.ofs < ofs + len
  | none => false

/-- The refusal of a flash command, in the order of R439; 0: accepted. -/
def Dev.flashBar (d : Dev) (m cmd : Nat) : Nat :=
  let ofs := d.rd F.SEC_FLASH_OFS_OFS
  let len := d.rd F.SEC_FLASH_LEN_LEN
  let al := if cmd = 2 then 4096 else if cmd = 3 then 256 else 1
  if m ≠ 6 then 3
  else if d.sec.flashOp.isSome then 4
  else if len = 0 ∨ 16777216 < len ∨ flashSize < ofs + len ∨ (cmd ≠ 1 ∧ d.bootedOverlap ofs len = true) then 5
  else if ofs % al ≠ 0 ∨ len % al ≠ 0 then 6
  else 0

/-- A write of SEC_FLASH_CMD: the operation starts, or is refused. -/
def flashStart (m cmd : Nat) (d : Dev) : Dev :=
  let why := d.flashBar m cmd
  if why = 0 then
    let op : FlashOp := { cmd := cmd, host := 64 * d.rd F.SEC_FLASH_HOST_ADDR, ofs := d.rd F.SEC_FLASH_OFS_OFS,
                          len := d.rd F.SEC_FLASH_LEN_LEN }
    let d1 := if cmd = 1 then (d.streamBegins 6 0 op.len).streamFeed 6 0 none (d.flashBytes op.ofs op.len) else d
    { d1 with sec := { d1.sec with flashOp := some op } }.wr F.SEC_FLASH_CMD_STATE 1
  else (if d.sec.flashOp.isSome then d else d.wr F.SEC_FLASH_CMD_STATE 3).secRefuse 2 why m

/-- The flash with bytes changed by `f`. -/
def Dev.flashMap (d : Dev) (ofs : Nat) (l : List Byte) (f : Byte → Byte → Byte) : Dev :=
  { d with sec := { d.sec with flash := (l.zipIdx ofs).foldl (fun m x => m.upd (fun _ => 0xFF) x.2 fun b => f b x.1) d.sec.flash } }

/-- A flash operation ends with a STATE; a check unit that still measures its read is INCOMPLETE (R443). -/
def Dev.flashEnds (d0 : Dev) (op : FlashOp) (st : Nat) : Dev :=
  let d := d0.streamStops 6 0
  ({ d with sec := { d.sec with flashOp := none } }.wr F.SEC_FLASH_CMD_STATE st).post Ev.SEC_FLASH_DONE
    [(24, 1, op.cmd), (25, 1, st), (28, 4, op.ofs), (32, 4, op.len)]

/-- Bytes that a stopped program or erase leaves: in the sectors it touched undefined data (free values); the slot that booted is intact
(R438). -/
def Dev.flashScramble (d : Dev) (op : FlashOp) : Dev :=
  if op.cmd = 1 then d else
  let a := op.ofs / 4096 * 4096
  let n := (op.ofs + op.len + 4095) / 4096 * 4096 - a
  let at_ := (List.range n).filter fun i => !d.bootedOverlap (a + i) 1
  { d with fresh := d.fresh + n, sec := { d.sec with
    flash := at_.foldl (fun m i => m.set (fun _ => 0xFF) (a + i) (BitVec.ofNat 8 (Config.freeNat (d.fresh + i)))) d.sec.flash } }

/-- An FLR of PF0 or PERST_N stops a flash operation's DMA: it ends ABORTED. -/
def Dev.flashAbort (d : Dev) : Dev :=
  match d.sec.flashOp with
  | none => d
  | some op => (d.flashScramble op).flashEnds op 5

/-- FLASH_OP_DONE: `dma` is the data read from host memory (none: the transfer failed, and the operation ends ERROR). A program clears bits
alone; a read-back that differs ends ERROR. A read completes when every check unit that measures it has compared, and none ends it (R441, R443). -/
def flashOpDone (dma : Option (List Byte)) (d : Dev) : Dev :=
  match d.sec.flashOp with
  | none => d
  | some op =>
    if op.cmd = 2 then (d.flashMap op.ofs (List.replicate op.len 0xFF) fun _ b => b).flashEnds op 2
    else match dma with
      | none => (if op.cmd = 3 then d.flashScramble op else d).flashEnds op 4
      | some l =>
        if op.cmd = 1 then
          let (stop, d1) := d.streamEnds 6 0
          if stop then d1.flashEnds op 4 else (d1.dma op.host (d.flashBytes op.ofs op.len)).flashEnds op 2
        else
          let l1 := bytesAt l 0 op.len
          let d1 := d.flashMap op.ofs l1 fun old new => old &&& new
          d1.flashEnds op (if d1.flashBytes op.ofs op.len = l1 then 2 else 4)

/-! ### The commands -/

/-- BOOT_COMPLETE. -/
def execBootComplete (tamperLow : Bool) (e : BitVec 3) (s : State) : Host.Outcome State Fault Refusal :=
  .next { s with dev := bootComplete tamperLow e s.dev }
/-- TAMPER_ASSERT. -/
def execTamperAssert (s : State) : Host.Outcome State Fault Refusal := .next { s with dev := tamperAssert s.dev }
/-- FUSE_ADVANCE. -/
def execFuseAdvance (m : Master) (s : State) : Host.Outcome State Fault Refusal :=
  onReg s m.val F.SEC_FUSE_CMD.off (fuseStart m.val 1 0)
/-- FUSE_REVOKE. -/
def execFuseRevoke (m : Master) (slot : BitVec 4) (s : State) : Host.Outcome State Fault Refusal :=
  onReg s m.val F.SEC_FUSE_CMD.off (fuseStart m.val 2 (slot.toNat % 8))
/-- FUSE_JTAG_LOCK. -/
def execFuseJtagLock (m : Master) (s : State) : Host.Outcome State Fault Refusal :=
  onReg s m.val F.SEC_FUSE_CMD.off (fuseStart m.val 3 0)
/-- FUSE_OP_DONE. -/
def execFuseOpDone (s : State) : Host.Outcome State Fault Refusal := .next { s with dev := fuseOpDone s.dev }
/-- ATTEST_START. -/
def execAttestStart (m : Master) (s : State) : Host.Outcome State Fault Refusal :=
  onReg s m.val F.SEC_ATT.off (attestStart m.val)
/-- ATTEST_DONE. -/
def execAttestDone (s : State) : Host.Outcome State Fault Refusal := .next { s with dev := attestDone s.dev }
/-- FLASH_READ. -/
def execFlashRead (m : Master) (s : State) : Host.Outcome State Fault Refusal :=
  onReg s m.val F.SEC_FLASH_CMD.off (flashStart m.val 1)
/-- FLASH_ERASE. -/
def execFlashErase (m : Master) (s : State) : Host.Outcome State Fault Refusal :=
  onReg s m.val F.SEC_FLASH_CMD.off (flashStart m.val 2)
/-- FLASH_PROGRAM. -/
def execFlashProgram (m : Master) (s : State) : Host.Outcome State Fault Refusal :=
  onReg s m.val F.SEC_FLASH_CMD.off (flashStart m.val 3)
/-- FLASH_OP_DONE. -/
def execFlashOpDone (dma : Option (List Byte)) (s : State) : Host.Outcome State Fault Refusal :=
  .next { s with dev := flashOpDone dma s.dev }
/-- LOCKSTEP_MISMATCH: with evidence bit 3. -/
def execLockstepMismatch (p : Fin 4) (s : State) : Host.Outcome State Fault Refusal :=
  .next { s with dev := if s.dev.pairState p.val = 1 then (lockstepMismatch p.val s.dev).evidence 3 else s.dev }

end Sys2Proof.Machine
end

