-- ==== Sys2Proof/Machine/Dgn.lean ====
section
/-! DEFINITION. Diagnostics: check units, memory patrol, logic BIST, SerDes recalibration, the causeway and maintenance tests (R440 to
R452). -/

namespace Sys2Proof.Machine

/-- A refused diagnostics command (R452): what, why, and the master. -/
def Dev.dgnRefuse (d : Dev) (what why m : Nat) : Dev := d.post Ev.DGN_CMD_REFUSED [(24, 1, what), (25, 1, why), (26, 1, m)]

/-! ### Check units (R440 to R443) -/

/-- The refusal of an arm; 0: accepted (R442). -/
def Dev.cuBar (d : Dev) (u point : Nat) : Nat :=
  if d.unitState u = 1 then 1
  else if d.unitState u = 2 then 3
  else if point = 0 ∨ point = 7 ∨ ((point = 2 ∨ point = 5) ∧ d.rd (F.DGN_CU_COUNT_BYTES.ix u) = 0) then 6
  else 0

/-- CU_ARM: POINT, POLY and ABORT come from the same write, EXPECT and COUNT as they stand; the reserved bits of DGN_CU_CTRL read 0. -/
def cuArm (m u : Nat) (data : Word) (d : Dev) : Dev :=
  if bitOn data 31 = false then d else
  let point := bits data 26 24
  let why := d.cuBar u point
  if why ≠ 0 then d.dgnRefuse 1 why m
  else
    let x : CheckUnit :=
      { point := point, poly := bits data 23 22, abort := bitOn data 30,
        expect := BitVec.ofNat 64 (d.rd (F.DGN_CU_EXPECT_VALUE.ix u)), count := d.rd (F.DGN_CU_COUNT_BYTES.ix u), seg := 0, seen := [] }
    ((d.setUnit u x).wr (F.DGN_CU_CTRL.ix u) (data.toNat &&& 0x47C00000)).wr (F.DGN_CU_STATUS_STATE.ix u) 1

/-- The BULK at the head whose list has been read (R203). -/
def Dev.bulkHeld (d : Dev) : Option TaeReq := d.tbl.queue.head?.filter fun q => reqOp q.req == 9 && q.recs.isSome

/-- It ends with DMA_ERROR because a check unit ended its list; the records already executed stand (R441). -/
def Dev.bulkStops (d : Dev) : Dev :=
  match d.bulkHeld with
  | some q => ((d.streamStops 4 0).taeEnd q ⟨stDma, 0, q.done, 0⟩).mirrorWaiting
  | none => d

/-- The causeway carries a test pattern: by DGN_CW_TEST, or as the maintenance test (R450, R451). -/
def Dev.patternRuns (d : Dev) : Bool :=
  d.on F.DGN_CW_TEST_EN || (d.on F.DGN_STATUS_MAINT_BUSY && !d.dgn.maintWaits && bitOn (BitVec.ofNat 5 (d.rd F.DGN_MAINT_CMD_SCOPE)) 4)

/-- Bit errors that a causeway test has counted, by direction: free values. -/
def Dev.countBer (d : Dev) : Dev :=
  let (x, d1) := d.takeFree
  let (y, d2) := d1.takeFree
  (d2.bumpN F.DGN_CW_BER_FE_TM x).bumpN F.DGN_CW_BER_TM_FE y

/-- The effect of an abort at a snoop point (R441). DESIGN CHOICE (42): at point 5 a maintenance test of the causeway goes on to its end, which its
own row brings. -/
def Dev.streamAbort (d : Dev) (x : CheckUnit) : Dev :=
  if x.point = 1 then d.loadStops LoadCause.checkUnit 6
  else if x.point = 3 then d.segmentFails x.seg
  else if x.point = 4 then d.bulkStops
  else if x.point = 5 then (if d.on F.DGN_CW_TEST_EN then ((d.wr F.DGN_CW_TEST_EN 0).streamStops 5 0).countBer else d.streamStops 5 0)
  else if x.point = 6 then match d.sec.flashOp with
    | some op => if op.cmd = 1 then d.flashEnds op 4 else d
    | none => d
  else d

/-- Does the device itself have the bytes of the stream: the requests and records of the table access engine, the segments of a copy, the list of a
BULK, the flash? -/
def CheckUnit.own (x : CheckUnit) : Bool := x.point == 2 || x.point == 3 || x.point == 4 || x.point == 6

/-- The bytes of the stream: those the unit has seen, or, of a stream from outside (an image, the received test pattern), `l`. -/
def CheckUnit.stream (x : CheckUnit) (l : List Byte) : List Byte := if x.own then x.seen else l

/-- Has a stream ended where R441 says with the bytes `l`: an image after IMAGE_LEN bytes, the same ones for every unit; the others after COUNT bytes
or at their last byte? -/
def Dev.streamWhole (d : Dev) (x : CheckUnit) (l : List Byte) : Bool :=
  if x.point = 1 then match d.img.load with
    | some ld => l.length == ld.len && (ld.streamed.getD l == l)
    | none => false
  else l.length == x.count

/-- An image whose stream a check unit has ended holds those bytes. -/
def Dev.noteStream (d : Dev) (x : CheckUnit) (l : List Byte) : Dev :=
  if x.point = 1 then { d with img := { d.img with load := d.img.load.map fun ld => { ld with streamed := some l } } } else d

/-- May a stream have ended first by its owner: a load that has ended, a copy that no longer runs, a BULK, a causeway test that was stopped, a
flash read that was aborted? The stream of requests has no such end. -/
def Dev.ownerEnded (d : Dev) (x : CheckUnit) : Bool :=
  match x.point with
  | 1 => d.img.load.isNone
  | 3 => !(d.twn.copying || (d.mode == .m6 && d.twnSub == 2))
  | 4 => d.bulkHeld.isNone
  | 5 => !d.patternRuns
  | 6 => d.sec.flashOp.isNone
  | _ => false

/-- CU_STREAM_END: a running unit compares at the end of its stream, and a mismatch with ABORT ends the stream's owner; or it stays without a
comparison where the owner ended first (R443). An owner that completes lets the units that still run compare before (Dev.streamEnds). -/
def cuStreamEnd (u : Nat) (given : List Byte) (complete : Bool) (d : Dev) : Dev :=
  let x := d.unit u
  let l := x.stream given
  if d.unitState u ≠ 2 then d
  else if complete = false then (if d.ownerEnded x then d.unitIncomplete u else d)
  else if d.streamWhole x l = false then d
  else
    let (stop, d1) := d.unitCompares u l
    if stop then d1.streamAbort x else d1.noteStream x l

/-! ### Memory patrol (R444, R445) -/

/-- A TCAM row with a parity error is made invalid (R156), with evidence bit 5. -/
def Dev.tcamParity (d : Dev) (pier pipe row : Nat) : Dev :=
  let live := d.pir.live.upd (fun _ => TcamRow.reset) (tcamKey pier pipe row) fun r => { r with valid := false }
  (({ d with pir := { d.pir with live := live } }).evidence 5).post Ev.PIR_TCAM_PARITY [(24, 1, pier), (25, 1, pipe), (28, 2, row)]

/-- The nodes of the LPM memory are numbered below its units (R160); the numbering is the model's. -/
def lpmUnits : Nat := 25165824

/-- The codes of TBL_POISONED byte 25. -/
def finderCode (f : ErrorFinder) : Nat :=
  match f with
  | .lookup => 1
  | .patrol => 2
  | .engine => 3

/-- Is there such a word, in a powered memory (R160, R403, R444)? Memories 0 to 3 of the rest are the SRAM of the control pairs. -/
def Dev.placeReads (d : Dev) (p : PatrolPlace) : Bool :=
  match p with
  | .table kind i =>
    1 ≤ kind && kind ≤ 10 && i < (if kind = 1 then lpmUnits else kindCap kind) &&
    (kind == 2 || (if kind = 1 ∨ kind = 3 ∨ kind = 4 then d.domainOn 121 else d.domainOn 122))
  | .tcam pier egress row => d.pierPowered pier.val && row < tcamRows (if egress then 1 else 0)
  | .pierMem pier => d.pierPowered pier.val
  | .other memory word => memory < 4 && word < pairSramSize && d.domainOn (135 + memory)

/-- The address of a word in the patrol's order: one memory after another, as R444 lists them, each in ascending address. -/
def placeKey (p : PatrolPlace) : Nat :=
  match p with
  | .table kind i => memKey kind i
  | .tcam pier egress row => 2 ^ 40 + tcamKey pier.val (if egress then 1 else 0) row
  | .pierMem pier => 2 ^ 41 + pier.val
  | .other memory word => 2 ^ 42 + 2 ^ 32 * memory + word

/-- What an uncorrectable error of a read does (R444). -/
def Dev.patrolFinds (d : Dev) (f : ErrorFinder) (p : PatrolPlace) : Dev :=
  match p with
  | .table kind i => d.poisonEntry kind i (finderCode f)
  | .tcam pier egress row => d.tcamParity pier.val (if egress then 1 else 0) row
  | .pierMem pier =>
    let (x, d1) := d.takeFree
    pierFault pier.val 2 (x % 3) (x / 3 % 24) [] [] d1
  | .other memory _ => if d.pairState memory = 1 then (lockstepMismatch memory d).evidence 3 else d

/-- The words of one round of the patrol, as the domains are powered. -/
def Dev.patrolWords (d : Dev) : Nat := Config.patrolWords ((List.range 5).map fun n => d.rd (F.PWR_DOM_STATUS.ix n))

/-- Is an error found so: the patrol finds one while it runs (R445), beyond the last one of this round (R444); a lookup or the table access
engine, in a table memory, whenever it reads the word (R188)? -/
def Dev.errorFound (d : Dev) (x : PatrolError) : Bool :=
  d.placeReads x.place &&
  match x.finder, x.place with
  | .patrol, p => d.on F.DGN_PATROL_CFG_EN && d.shed.blt 2 && d.dgn.patrolKey < placeKey p
  | _, .table _ _ => true
  | _, _ => false

/-- The patrol reads the word where it stands and goes on to the next; after the last one a round is counted and it starts again. -/
def Dev.patrolStep (d : Dev) : Dev :=
  if d.dgn.patrolAt + 1 < d.patrolWords then { d with dgn := { d.dgn with patrolAt := d.dgn.patrolAt + 1 } }
  else { d with dgn := { d.dgn with patrolAt := 0, patrolKey := 0 } }.wr F.DGN_PATROL_STATUS_ROUNDS (d.rd F.DGN_PATROL_STATUS_ROUNDS + 1)

/-- An error that the patrol finds at an address: none below it is found in the rest of the round. -/
def Dev.patrolNote (d : Dev) (x : PatrolError) : Dev :=
  if x.finder = .patrol then { d with dgn := { d.dgn with patrolKey := placeKey x.place } }.patrolStep else d

/-- The error that a read meets, in the word it reads: corrected and counted, or uncorrectable (R188, R444). -/
def Dev.errorMet (d : Dev) (x : PatrolError) : Dev :=
  if x.corrected then
    let d1 := if x.finder = .patrol then d.bump F.DGN_PATROL_CORR else d
    match x.place with
    | .table kind i => d1.correctEntry kind i
    | _ => d1
  else d.patrolFinds x.finder x.place

/-- PATROL_READ: the next word of a powered memory. How many words a round has is free: the sizes of the memories are not given; so where in its
round a word is read is known only by order: errors come in ascending address, as the words are read. DESIGN
CHOICE (42): the table has no row for an error that a lookup or the table access engine is the first to meet, so this row brings those
too: the error is found at the moment such a read takes the word, and the read itself is a command of its own. -/
def patrolRead (e : Option PatrolError) (d : Dev) : Dev :=
  if d.mode = .m0 then d
  else match e with
  | some x =>
    if d.errorFound x = false then d
    else (d.patrolNote x).errorMet x
  | none => if d.on F.DGN_PATROL_CFG_EN = false ∨ 2 ≤ d.shed then d else d.patrolStep

/-! ### Logic BIST (R446, R447) -/

/-- The refusal of a BIST command; 0: accepted. A pier number past 16 is a bad field. In M10 any pier is accepted; DEDUCED (42): outside M10 a
RETIRED pier, which is neither SPARE nor UNLOADED, is refused with BUSY. -/
def Dev.bistBar (d : Dev) (pier : Nat) : Nat :=
  if 17 ≤ pier then 6
  else if d.mode ≠ .m10 ∧ ¬(d.pierState pier = 1 ∨ d.pierState pier = 4) then 1
  else if 2 ≤ d.shed then 2
  else if d.dgn.runs ≠ [] then 3
  else 0

/-- BIST_START: the pier reads RELOADING while the run lasts. -/
def bistStart (m : Nat) (data : Word) (d : Dev) : Dev :=
  if bitOn data 31 = false then d else
  let pier := bits data 4 0
  let why := d.bistBar pier
  let d0 := d.wr F.DGN_BIST_CMD_PIER pier
  if why ≠ 0 then d0.dgnRefuse 2 why m
  else d0.bistBegin { pier := pier, restore := false }

/-! ### Maintenance tests (R451) -/

/-- The march test leaves free values in every TCAM row. -/
def Dev.marchRows (d : Dev) : Dev :=
  d.each ((List.range 17).filter d.pierPowered) fun p d =>
    d.each [0, 1] fun pipe d => d.each (List.range (tcamRows pipe)) fun r d =>
      let (x, d1) := d.takeFree
      let (y, d2) := d1.takeFree
      let row : TcamRow := ⟨BitVec.ofNat 160 x, BitVec.ofNat 160 y, Config.freeBool d2.fresh, x / 2 ^ 160 % 4, y / 2 ^ 160 % 16,
        BitVec.ofNat 64 (x / 2 ^ 164)⟩
      { d2 with fresh := d2.fresh + 1, pir := { d2.pir with live := d2.pir.live.set (fun _ => TcamRow.reset) (tcamKey p pipe r) row } }

/-- The test of the FE HBM leaves free values in every table entry that lies there, and as the result of every route. -/
def Dev.scrambleTables (d0 : Dev) : Dev :=
  let d : Dev := { d0 with
    fresh := d0.fresh + d0.tbl.lpm.length,
    tbl := { d0.tbl with lpm := d0.tbl.lpm.zipIdx.map fun x => { x.1 with result := Config.freeNat (d0.fresh + x.2) % 2 ^ 64 } } }
  d.each ((List.range 11).filter (3 ≤ ·)) fun kind d => d.each (List.range (kindCap kind)) fun i d =>
    let (x, d1) := d.takeFree
    d1.putEntry kind i (BitVec.ofNat 1024 x % BitVec.ofNat 1024 (2 ^ (8 * kindBytes kind)))

/-- Is a maintenance test selected? -/
def Dev.maintOn (d : Dev) (b : Nat) : Bool := (d.rd F.DGN_MAINT_CMD_SCOPE >>> b) % 2 == 1

/-- The maintenance tests after the logic BIST, in bit order: the march test, the memories, and the causeway's test pattern, which check units at
point 5 measure (R441). The tests of the buffer SRAM and of the TM HBM change nothing: since entry to M10 no buffer holds a packet (R230). -/
def Dev.maintGo (d : Dev) : Dev :=
  let d0 := { d with dgn := { d.dgn with maintWaits := false } }
  let d1 := if d.maintOn 1 then d0.marchRows else d0
  let d2 := if d.maintOn 3 then d1.scrambleTables else d1
  if d.maintOn 4 then d2.streamBegins 5 0 0 else d2

/-- A pier of the maintenance BIST has ended its run: the next one begins, and after pier 16 the other tests. -/
def Dev.maintAfter (d : Dev) (r : BistRun) (pass : Bool) : Dev :=
  if r.maint = false then d
  else
    let d1 := { d with dgn := { d.dgn with maintBad := d.dgn.maintBad || !pass } }
    if r.pier < 16 then d1.maintNext r.pier else d1.maintGo

/-- BIST_DONE: the oldest run ends. A pass reloads the pier; a failure retires it, or leaves it RETIRED where a restore started the
run (R102). A maintenance test goes on with the next pier (R451). -/
def bistDone (pass : Bool) (d : Dev) : Dev :=
  match d.dgn.runs with
  | [] => d
  | r :: rest =>
    let d1 := { d with dgn := { d.dgn with runs := rest } }
    let d2 := ((d1.wr F.DGN_STATUS_BIST_BUSY (if rest.isEmpty then 0 else 1)).wr F.DGN_BIST_STATUS_PIER r.pier).wr
      F.DGN_BIST_STATUS_RESULT (if pass then 1 else 2)
    if pass then (((d2.pierReady r.pier).post Ev.DGN_BIST_DONE [(24, 1, r.pier), (25, 1, 1)]).runFailDue).maintAfter r true
    else
      let d3 := (d2.evidence 1).post Ev.IMG_PIER_FAIL [(24, 1, r.pier), (25, 1, 4), (26, 1, (d2.octetOf r.pier).getD 0xFF)]
      if r.restore then (d3.wrIx F.IMG_PIER_STATUS_STATE 17 r.pier 3).setRails else (d3.retirePier r.pier).maintAfter r false

/-! ### Recalibration (R448) -/

/-- RECAL_START: accepted for a line or fabric lane that carries no traffic, and for any in M10; any other command, one for a lane that does not
exist included, is refused with TRAFFIC. -/
def recalStart (m : Nat) (data : Word) (d : Dev) : Dev :=
  if bitOn data 31 = false then d else
  let fabric := bitOn data 8
  let lane := bits data 7 0
  let d0 := (d.wr F.DGN_RECAL_CMD_FABRIC (if fabric then 1 else 0)).wr F.DGN_RECAL_CMD_LANE lane
  let idle := if fabric then !d.fabLinkUp (lane / 4) else (d.lanePorts lane).all fun p => !d.on (F.LPT_CTRL_ADMIN_UP.port p)
  if lane < (if fabric then 160 else 128) ∧ (d.mode = .m10 ∨ idle = true) then
    { d0 with dgn := { d0.dgn with recal := d0.dgn.recal ++ [(fabric, lane)] } }
  else d0.dgnRefuse 3 4 m

/-- RECAL_DONE: the oldest recalibration completes. -/
def recalDone (d : Dev) : Dev :=
  match d.dgn.recal with
  | [] => d
  | (fabric, lane) :: rest =>
    ({ d with dgn := { d.dgn with recal := rest } }).post Ev.DGN_RECAL_DONE [(24, 1, lane), (25, 1, if fabric then 1 else 0)]

/-! ### Causeway (R449, R450) -/

/-- Consecutive failed replays of a direction. -/
def Dev.cwFails (d : Dev) (dir : Nat) : Nat := d.dgn.cwFails.get (fun _ => 0) dir

/-- The count of failed replays of a direction changes. -/
def Dev.setCwFails (d : Dev) (dir n : Nat) : Dev := { d with dgn := { d.dgn with cwFails := d.dgn.cwFails.set (fun _ => 0) dir n } }

/-- An uncorrectable error of a direction: counted, evidence and DGN_CW_ERR. The wire group is a free value. -/
def Dev.causewayBad (d : Dev) (dir : Nat) : Dev :=
  let (x, d1) := (d.bump F.DGN_CW_UNCORR).takeFree
  (d1.evidence 2).post Ev.DGN_CW_ERR [(24, 1, dir), (28, 4, x)]

/-- CAUSEWAY_ERROR. The sixteenth consecutive failed replay stops the direction; a unit that arrives, corrected or not, ends the count. -/
def causewayError (fromFe : Bool) (kind : CausewayKind) (d : Dev) : Dev :=
  let dir := if fromFe then 0 else 1
  if d.mode = .m0 ∨ d.cwStopped dir = true then d else
  match kind with
  | .corrected => (d.setCwFails dir 0).bump F.DGN_CW_CORR
  | .replayed => ((d.setCwFails dir 0).causewayBad dir).bump F.DGN_CW_REPLAY
  | .failed =>
    let n := d.cwFails dir + 1
    let d1 := (d.setCwFails dir n).causewayBad dir
    if n < 16 then d1.bump F.DGN_CW_REPLAY
    else ({ d1 with dgn := { d1.dgn with cwStop := putBit d1.dgn.cwStop dir true } }.wr F.DGN_STATUS_CW_FAIL 1).post Ev.DGN_CW_FAIL [(24, 1, dir)]

/-- CW_TEST_ENABLE: accepted in M10 only. The bit errors of a test are counted by its end. -/
def cwTestEnable (m : Nat) (data : Word) (d : Dev) : Dev :=
  if d.mode ≠ .m10 then d.dgnRefuse 4 5 m
  else
    let was := d.on F.DGN_CW_TEST_EN
    let d1 := (d.wr F.DGN_CW_TEST_EN (if bitOn data 31 then 1 else 0)).wr F.DGN_CW_TEST_PRBS (bits data 0 0)
    if bitOn data 31 = true ∧ was = false then d1.streamBegins 5 0 0
    else if bitOn data 31 = false ∧ was = true then (d1.streamStops 5 0).countBer
    else d1

/-- MAINT_TEST_START: accepted in M10 only. The tests run in bit order: the logic BIST of the piers, one at a time, before the others; BIST_DONE
ends each pier's run. -/
def maintTestStart (m : Nat) (data : Word) (d : Dev) : Dev :=
  if bitOn data 31 = false then d
  else if d.mode ≠ .m10 then d.dgnRefuse 5 5 m
  else if d.on F.DGN_STATUS_MAINT_BUSY then d.dgnRefuse 5 3 m
  else
    let d1 := (d.wr F.DGN_MAINT_CMD_SCOPE (bits data 4 0)).wr F.DGN_STATUS_MAINT_BUSY 1
    let d2 := { d1 with dgn := { d1.dgn with maintBad := false, maintWaits := true } }
    if bitOn data 0 then d2.bistBegin { pier := 0, restore := false, maint := true } else d2.maintGo

/-- MAINT_TEST_DONE: the tests of SCOPE have ended, once the logic BIST of every pier has; `pass` says which of the others passed. -/
def maintTestDone (pass : BitVec 8) (d : Dev) : Dev :=
  if d.on F.DGN_STATUS_MAINT_BUSY = false ∨ d.dgn.runs.any (·.maint) = true then d
  else
    let scope := d.rd F.DGN_MAINT_CMD_SCOPE
    let d1 := if d.dgn.maintWaits then d.maintGo else d
    let d2 := if d.maintOn 4 then (d1.streamStops 5 0).countBer else d1
    let ok := pass.toNat / 2 * 2 + (if d.dgn.maintBad then 0 else 1)
    (d2.wr F.DGN_STATUS_MAINT_BUSY 0).post Ev.DGN_MAINT_DONE [(24, 1, scope), (25, 1, scope &&& ok)]

/-! ### The commands -/

/-- CU_ARM. -/
def execCuArm (m : Master) (u : Fin 8) (data : Word) (s : State) : Host.Outcome State Fault Refusal :=
  onReg s m.val (F.DGN_CU_CTRL.ix u.val).off (cuArm m.val u.val data)
/-- CU_STREAM_END. -/
def execCuStreamEnd (u : Fin 8) (l : List Byte) (complete : Bool) (s : State) : Host.Outcome State Fault Refusal :=
  .next { s with dev := cuStreamEnd u.val l complete s.dev }
/-- PATROL_READ. -/
def execPatrolRead (e : Option PatrolError) (s : State) : Host.Outcome State Fault Refusal := .next { s with dev := patrolRead e s.dev }
/-- BIST_START. -/
def execBistStart (m : Master) (data : Word) (s : State) : Host.Outcome State Fault Refusal :=
  onReg s m.val F.DGN_BIST_CMD.off (bistStart m.val data)
/-- BIST_DONE. -/
def execBistDone (pass : Bool) (s : State) : Host.Outcome State Fault Refusal := .next { s with dev := bistDone pass s.dev }
/-- RECAL_START. -/
def execRecalStart (m : Master) (data : Word) (s : State) : Host.Outcome State Fault Refusal :=
  onReg s m.val F.DGN_RECAL_CMD.off (recalStart m.val data)
/-- RECAL_DONE. -/
def execRecalDone (s : State) : Host.Outcome State Fault Refusal := .next { s with dev := recalDone s.dev }
/-- CAUSEWAY_ERROR. -/
def execCausewayError (fromFe : Bool) (kind : CausewayKind) (s : State) : Host.Outcome State Fault Refusal :=
  .next { s with dev := causewayError fromFe kind s.dev }
/-- CW_TEST_ENABLE. -/
def execCwTestEnable (m : Master) (data : Word) (s : State) : Host.Outcome State Fault Refusal :=
  onReg s m.val F.DGN_CW_TEST.off (cwTestEnable m.val data)
/-- MAINT_TEST_START. -/
def execMaintTestStart (m : Master) (data : Word) (s : State) : Host.Outcome State Fault Refusal :=
  onReg s m.val F.DGN_MAINT_CMD.off (maintTestStart m.val data)
/-- MAINT_TEST_DONE. -/
def execMaintTestDone (pass : BitVec 8) (s : State) : Host.Outcome State Fault Refusal := .next { s with dev := maintTestDone pass s.dev }

end Sys2Proof.Machine
end

