-- ==== Sys2Proof/Machine/Reset.lean ====
section
/-! DEFINITION. The resets (R378, R387, R407, R417, R419 to R421, R437, R471, R473, R483) and the mode requests of GLB_CTRL and
GLB_LOCK (R10, R22, R23). -/

namespace Sys2Proof.Machine

/-! ### Resets -/

/-- A low pulse shorter than 1 µs is ignored and one of 10 µs or longer is taken; between the two it is a free choice (R420). -/
def Dev.pulse (d : Dev) (lowNs : Nat) (f : Dev → Dev) : Dev :=
  if lowNs < 1000 then d
  else if 10000 ≤ lowNs then f d
  else
    let (b, d1) := d.takeFlip
    if b then f d1 else d1

/-- The fuses after a reset that interrupts a fuse operation: FW_ARB is at most one step short of its target, another bit is blown or
not (R430). -/
def Dev.fuseStops (d : Dev) : Dev :=
  match d.sec.fuseOp with
  | none => d
  | some (op, slot) =>
    let (b, d1) := d.takeFlip
    let n := d.advanceTo
    d1.blow fun f => if b then f.blown op slot n else if op = 1 then f.blown op slot (n - 1) else f

/-- Flash and fuse operations stop at a reset. -/
def Dev.opsStop (d : Dev) : Dev :=
  (match d.sec.flashOp with
   | some op => d.flashScramble op
   | none => d).fuseStops

/-- The fuses and the flash after a reset: the fuses are sensed again (R419, R426, R429). -/
def Dev.secKept (d : Dev) (por : Bool) : Sec :=
  { Sec.reset with array := d.sec.array, fuses := d.sec.array.sense, flash := d.sec.flash, porReset := por }

/-- PORST_N: everything is reset but the fuses, the flash and what lies outside the device. It is a reset of masters 0 to 9, whose discarded
messages and freed locks are posted, and it clears the binding table and BIND_LOCK too (R378). -/
def Dev.powerOn (d0 : Dev) : Dev :=
  let d := d0.opsStop
  let d1 : Dev := { Dev.reset with mode := .m0, fresh := d.fresh, hostMem := d.hostMem, sec := d.secKept true }
  { d1 with posted := ((List.range 10).foldl Dev.masterReset { d1 with regs := d.regs, ctl := d.ctl }).posted }

/-- The registers that a system reset keeps: GLB_RESET_CAUSE and GLB_STRAP, the mailboxes and locks, the power manager, the I3C target
(R405, R419). -/
def keptReg (key : Nat) : Bool :=
  let off := key % 0x20000000
  off == F.GLB_RESET_CAUSE.off || off == F.GLB_STRAP.off ||
  (0x13000000 ≤ off && off < 0x14000000 &&
    !((List.range 4).any fun p => off == (F.CTL_PAIR_STATUS_STATE.ix p).off || off == (F.CTL_PAIR_CKPT_SPAN.ix p).off) &&
    off != F.CTL_SVC_MAP_WALK.off && off != F.CTL_FW_VERSION.off) ||
  (0x15000000 ≤ off && off < 0x16000000) || (0x14000700 ≤ off && off < 0x14000710)

/-- What a system reset leaves before R378 acts on the masters. -/
def Dev.switchedReset (d0 : Dev) : Dev :=
  let d := d0.opsStop
  { Dev.reset with
    mode := .m0, fresh := d.fresh, hostMem := d.hostMem, regs := d.regs.filter fun r => keptReg r.1,
    ctl := { d.ctl with mismatches := [], ckpts := [], cores := [] }, pwr := { d.pwr with tripDue := none },
    hst := { Hst.reset with i3cDa := d.hst.i3cDa, i3cOff := d.hst.i3cOff, i3cOut := d.hst.i3cOut, ibi := d.hst.ibi },
    sec := d.secKept false }

/-- A further reset, with its bit of GLB_RESET_CAUSE (R419): while PORST_N is low it governs; while the device waits in M0 after its release,
only the cause is recorded. -/
def Dev.underPor (d : Dev) (cause : Fld) (f : Dev → Dev) : Dev :=
  if d.mode = .m0 ∧ d.sec.porReset = true then
    if d.sec.supplyHold || d.sec.testHold then d.wr cause 1 else d
  else f d

/-- A system reset from a source (R419). -/
def Dev.systemReset (d : Dev) (cause : Fld) : Dev :=
  d.underPor cause fun d => [2, 3, 4, 5, 6, 7, 9].foldl Dev.masterReset (d.switchedReset.wr cause 1)

/-- PORST_N_ASSERT. -/
def porstNAssert (lowNs : Nat) (d : Dev) : Dev := d.pulse lowNs Dev.powerOn

/-- SYSRST_N_ASSERT. -/
def sysrstNAssert (lowNs : Nat) (d : Dev) : Dev := d.pulse lowNs fun d => d.systemReset F.GLB_RESET_CAUSE_SYSRST

/-- RAIL_RESET_LEVEL: as SYSRST_N; shedding state is lost (R407). -/
def railResetLevel (d : Dev) : Dev :=
  let d1 := d.systemReset F.GLB_RESET_CAUSE_VRAIL
  ((d1.wr F.PWR_STATUS_SHED_STEP 0).wr F.PWR_STATUS_HOLDING 0).wr F.PWR_STATUS_RESTORING 0

/-- THERMAL_TRIP: posted through the always-on path, then as SYSRST_N; M0 until every sensor is cool (R417). -/
def thermalTrip (d : Dev) : Dev :=
  match d.pwr.tripDue with
  | none => d
  | some (s, v) =>
    let d1 := d.systemReset F.GLB_RESET_CAUSE_THERMAL
    let trip : List EventRec := (d.post Ev.PWR_THERM_TRIP [(24, 1, s), (26, 2, tempWord v)]).posted.drop d.posted.length
    { d1 with posted := trip ++ d1.posted, pwr := { d1.pwr with tripHold := true, tripDue := none } }

/-- SEC_SYS_RESET: master 6 outside M10 and M11; otherwise refused (R437, R439). -/
def secSysReset (m : Nat) (d : Dev) : Dev :=
  if m ≠ 6 then d.secRefuse 4 3 m
  else if d.mode = .m10 ∨ d.mode = .m11 then d.secRefuse 4 2 m
  else d.systemReset F.GLB_RESET_CAUSE_SEC

/-! ### Release -/

/-- The device leaves M0 for M1, unless a thermal trip still holds it. TIM_CTRL.SRC starts as the SELF_TIMED strap says (R34). -/
def Dev.leaveM0 (d : Dev) : Dev :=
  if d.pwr.tripHold then d else { d with mode := .m1 }.wr F.TIM_CTRL_SRC (d.rd F.GLB_STRAP_SELF_TIMED)

/-- The nominal value in mV of a supply monitor's rail, and how far a reading may lie from it: ±15 mV for the core rails, ±5 % for the
others (R406, R478, R483). -/
def monitorRange (n : Nat) : Nat × Nat :=
  if n < 7 then (720, 15) else
  let v := [800, 750, 750, 1200, 1050, 750, 1800, 800, 1800].getD (n - 7) 0
  (v, v / 20)

/-- Does supply monitor `n` read inside its range? -/
def Dev.monitorIn (d : Dev) (n : Nat) : Bool :=
  let mv := d.rd (F.PWR_RAIL_MV.ix n)
  let r := monitorRange n
  r.1.ble (mv + r.2) && mv.ble (r.1 + r.2)

/-- Does every supply monitor read inside its range (R483)? -/
def Dev.suppliesIn (d : Dev) : Bool := (List.range 16).all d.monitorIn

/-- The release of PORST_N: the straps are sampled (R473), the power manager reads the supply monitors, and M0 is left when every one reads
inside its range (R483). -/
def Dev.porRelease (d : Dev) (straps : BitVec 13) (mvs : List Nat) : Dev :=
  let d1 := railReading mvs (d.wr F.GLB_STRAP straps.toNat)
  if d1.suppliesIn then d1.leaveM0 else { d1 with sec := { d1.sec with supplyHold := true } }

/-- RESET_RELEASE: while TEST_EN is high the device stays in M0 (R471); straps and supplies matter at the release of PORST_N alone. -/
def resetRelease (straps : BitVec 13) (testEn : Bool) (mvs : List Nat) (d : Dev) : Dev :=
  if d.mode ≠ .m0 ∨ d.sec.testHold = true ∨ d.sec.supplyHold = true then d
  else if testEn then { d with sec := { d.sec with testHold := true } }
  else if d.sec.porReset = false then d.leaveM0
  else d.porRelease straps mvs

/-- TEST_EN_RELEASE: the device leaves reset as at the release that TEST_EN held up. -/
def testEnRelease (straps : BitVec 13) (mvs : List Nat) (d : Dev) : Dev :=
  if d.mode = .m0 ∧ d.sec.testHold = true then
    let d1 := { d with sec := { d.sec with testHold := false } }
    if d1.sec.porReset then d1.porRelease straps mvs else d1.leaveM0
  else d

/-- SUPPLY_MONITORS_IN_RANGE: every monitor has read inside for 1 ms, as PWR_RAIL shows; otherwise, or while TEST_EN holds, M0 goes on. -/
def supplyMonitorsInRange (d : Dev) : Dev :=
  if d.mode = .m0 ∧ d.sec.supplyHold = true ∧ d.sec.testHold = false ∧ d.suppliesIn = true then
    ({ d with sec := { d.sec with supplyHold := false } }).leaveM0
  else d

/-! ### PCIe resets (R387) -/

/-- The DMA of PF0 that runs over several commands is aborted: an image load, a flash operation. -/
def Dev.pf0Aborts (d : Dev) : Dev := (imgLoadAbort d).flashAbort

/-- PERST_N: both PFs are reset, and the data link goes down. -/
def Dev.pcieReset (d : Dev) : Dev :=
  let d1 := ((d.disablePf 0).disablePf 1).pf0Aborts.settle
  (([6, 7].foldl Dev.masterReset d1).setLink 0 0 0).wr F.GLB_RESET_CAUSE_PERST 1

/-- PERST_N_ASSERT. -/
def perstNAssert (lowNs : Nat) (d : Dev) : Dev :=
  d.pulse lowNs fun d => d.underPor F.GLB_RESET_CAUSE_PERST Dev.pcieReset

/-- FUNCTION_LEVEL_RESET of a PF. -/
def functionLevelReset (pf : Nat) (d : Dev) : Dev :=
  if d.mode = .m0 then d
  else
    let d1 := d.disablePf pf
    let d2 := if pf = 0 then d1.pf0Aborts else d1.settle
    (d2.masterReset (6 + pf)).wr (if pf = 0 then F.GLB_RESET_CAUSE_FLR_PF0 else F.GLB_RESET_CAUSE_FLR_PF1) 1

/-! ### GLB_CTRL and GLB_LOCK (R10, R23) -/

/-- GLB_CTRL_REFUSED: 1 MAINT_REQ, 2 FWD_EN. -/
def Dev.ctrlRefuse (d : Dev) (m what : Nat) : Dev := d.post Ev.GLB_CTRL_REFUSED [(24, 1, m), (25, 1, what), (26, 1, d.glbMode)]

/-- A write of 1 to FWD_EN: ignored outside M2, refused without a valid live bank or once M10 is being entered; otherwise M3, or M4 or
M6 with twin operation enabled. -/
def fwdEn (m : Nat) (d : Dev) : Dev :=
  if d.mode ≠ .m2 then d
  else if d.on F.IMG_STATUS_LIVE_VALID = false ∨ d.on F.GLB_CTRL_MAINT_REQ = true then d.ctrlRefuse m 2
  else
    let d1 := d.wr F.GLB_CTRL_FWD_EN 1
    if d1.twinOn then d1.enterTwin else d1.withMode fun d => d.setMode .m3

/-- A write of 1 to MAINT_REQ, with FWD_EN in the same write or not: accepted in M2 and M3 outside M7. Entry to M10 begins: line traffic
and fabric demand stop, and every queue is flushed. -/
def maintReq (m : Nat) (alsoFwd : Bool) (d : Dev) : Dev :=
  if (d.mode = .m2 ∨ d.mode = .m3) ∧ d.m7 = false then
    let was := d.mode
    let d1 := if d.on F.GLB_CTRL_MAINT_REQ then d
      else (d.wr F.GLB_CTRL_MAINT_REQ 1).requestFlush 4 0xFFFF [(0, 524288)]
    if alsoFwd = true ∧ was = .m2 then d1.ctrlRefuse m 2 else d1
  else
    let d1 := d.ctrlRefuse m 1
    if alsoFwd then fwdEn m d1 else d1

/-- M10_ENTRY_COMPLETE: once every queue is flushed, GLB_MODE reads M10 and every buffer is returned (R23, R230). -/
def m10EntryComplete (d : Dev) : Dev :=
  if d.on F.GLB_CTRL_MAINT_REQ = true ∧ (d.mode = .m2 ∨ d.mode = .m3) ∧ d.que.flushes = [] then
    (d.withMode fun d => d.setMode .m10).clearPiers.emptyBuffers.lowCheck.settle
  else d

/-- GLB_LOCK_SET. -/
def glbLockSet (d : Dev) : Dev := d.wr F.GLB_LOCK_LOCK 1

/-! ### Output pins (R469, R470)

The twin pins of R335 are fields of the twin. -/

/-- The level of a pin that the device may drive: low, high, not driven (Hi-Z), or an open drain let go. -/
inductive PinLevel where
  | low | high | hiZ | released
  deriving DecidableEq, Repr

/-- The output pins of R469 whose level in reset the table gives, but for the twin pins. -/
inductive OutPin where
  | timePpsOut | timeTodTx | spanSyncOut | i3cSda | avsClk | avsMdata | pmbScl | pmbSda | jtagTdo | xspiClk | xspiCsN | xspiResetN
  | xspiDq (d : Fin 8)
  deriving DecidableEq, Repr

/-- The "In reset" column of R469. -/
def OutPin.inReset : OutPin → PinLevel
  | .timePpsOut => .low
  | .timeTodTx => .high
  | .spanSyncOut => .low
  | .i3cSda => .hiZ
  | .avsClk => .low
  | .avsMdata => .high
  | .pmbScl => .released
  | .pmbSda => .released
  | .jtagTdo => .hiZ
  | .xspiClk => .low
  | .xspiCsN => .high
  | .xspiResetN => .low
  | .xspiDq _ => .hiZ

/-- PORST_N is low: a power-on reset whose release has not come yet. -/
def Dev.porstLow (d : Dev) : Bool := d.mode == .m0 && d.sec.porReset && !d.sec.supplyHold && !d.sec.testHold

/-- TIME_PPS_OUT: high for OUT_WIDTH spans from each PHC second, low without OUT_EN (R42, R470). -/
def Dev.timePpsOut (d : Dev) : Bool := d.on F.TIM_PPS_CFG_OUT_EN && d.slotTick.blt d.tim.ppsOutUntil

/-- SPAN_SYNC_OUT: high in the span of a marker, low without OUT_EN (R40, R470). -/
def Dev.spanSyncOut (d : Dev) : Bool := d.on F.TIM_SYNC_CFG_OUT_EN && d.tim.syncOut == some d.tim.span

/-- XSPI_RESET_N: low during a system reset, high after it; the 10 µs after the release are inside M0 here (R470). -/
def Dev.xspiResetN (d : Dev) : Bool := d.mode != .m0

/-- A pin's level where the spec gives one: in reset while PORST_N is low (R469), afterwards that of the pins whose level R470 gives. The pins
of a protocol (UART, I3C, AVSBus, PMBus, JTAG and xSPI) then follow their transfers, which are not modelled bit by bit (log 46). -/
def Dev.pinLevel (d : Dev) (x : OutPin) : Option PinLevel :=
  let drives (b : Bool) : PinLevel := if b then .high else .low
  if d.porstLow then some x.inReset
  else match x with
  | .timePpsOut => some (drives d.timePpsOut)
  | .spanSyncOut => some (drives d.spanSyncOut)
  | .xspiResetN => some (drives d.xspiResetN)
  | .timeTodTx => if d.on F.TIM_PPS_CFG_OUT_EN then none else some x.inReset
  | .i3cSda | .avsClk | .avsMdata | .pmbScl | .pmbSda | .jtagTdo | .xspiClk | .xspiCsN | .xspiDq _ => none

/-! ### The commands -/

/-- PORST_N_ASSERT. -/
def execPorstNAssert (n : Nat) (s : State) : Host.Outcome State Fault Refusal := .next { s with dev := porstNAssert n s.dev }
/-- SYSRST_N_ASSERT. -/
def execSysrstNAssert (n : Nat) (s : State) : Host.Outcome State Fault Refusal := .next { s with dev := sysrstNAssert n s.dev }
/-- PERST_N_ASSERT. -/
def execPerstNAssert (n : Nat) (s : State) : Host.Outcome State Fault Refusal := .next { s with dev := perstNAssert n s.dev }
/-- FUNCTION_LEVEL_RESET. -/
def execFunctionLevelReset (pf : Fin 2) (s : State) : Host.Outcome State Fault Refusal :=
  .next { s with dev := functionLevelReset pf.val s.dev }
/-- RESET_RELEASE. -/
def execResetRelease (straps : BitVec 13) (testEn : Bool) (mvs : List Nat) (s : State) : Host.Outcome State Fault Refusal :=
  .next { s with dev := resetRelease straps testEn mvs s.dev }
/-- TEST_EN_RELEASE. -/
def execTestEnRelease (straps : BitVec 13) (mvs : List Nat) (s : State) : Host.Outcome State Fault Refusal :=
  .next { s with dev := testEnRelease straps mvs s.dev }
/-- SUPPLY_MONITORS_IN_RANGE. -/
def execSupplyMonitorsInRange (s : State) : Host.Outcome State Fault Refusal := .next { s with dev := supplyMonitorsInRange s.dev }
/-- RAIL_RESET_LEVEL. -/
def execRailResetLevel (s : State) : Host.Outcome State Fault Refusal := .next { s with dev := railResetLevel s.dev }
/-- THERMAL_TRIP. -/
def execThermalTrip (s : State) : Host.Outcome State Fault Refusal := .next { s with dev := thermalTrip s.dev }
/-- SEC_SYS_RESET. -/
def execSecSysReset (m : Master) (s : State) : Host.Outcome State Fault Refusal := onReg s m.val F.SEC_CTRL.off (secSysReset m.val)
/-- GLB_LOCK_SET. -/
def execGlbLockSet (m : Master) (s : State) : Host.Outcome State Fault Refusal := onReg s m.val F.GLB_LOCK.off glbLockSet
/-- MAINT_REQ. -/
def execMaintReq (m : Master) (alsoFwd : Bool) (s : State) : Host.Outcome State Fault Refusal :=
  onReg s m.val F.GLB_CTRL.off (maintReq m.val alsoFwd)
/-- FWD_EN. -/
def execFwdEn (m : Master) (s : State) : Host.Outcome State Fault Refusal := onReg s m.val F.GLB_CTRL.off (fwdEn m.val)
/-- M10_ENTRY_COMPLETE. -/
def execM10EntryComplete (s : State) : Host.Outcome State Fault Refusal := .next { s with dev := m10EntryComplete s.dev }

end Sys2Proof.Machine
end

