-- ==== Sys2Proof/Machine/BusView.lean ====
section
/-! DEFINITION. What a register shows (R8, R10): where an access lands, the item a selector names, and the registers whose fields are
computed from the state. -/

namespace Sys2Proof.Machine

/-! ### Where an access lands -/

/-- A register of BAR0: the offset of its row's first copy in the block's first window, its own low half's offset, the copy's index, the
port or pier whose window it lies in, and whether the access names the high half of a 64-bit register. -/
structure RegAt where
  row : Nat
  off : Nat
  idx : Nat
  win : Nat
  high : Bool
  desc : RegDesc

/-- The offset of a block's first window, and the window of a port or a pier that `off` lies in (R25). -/
def blockWindow (off : Nat) : Nat × Nat :=
  if off < 0x1000000 then (0, 0)
  else if off < 0x2000000 then (0x1000000, 0)
  else if off < 0x4000000 then (0x2000000, 0)
  else if off < 0x8000000 then (0x4000000, (off - 0x4000000) / 0x10000)
  else if off < 0xA000000 then (0x8000000, (off - 0x8000000) / 0x100000)
  else if off < 0xC000000 then (0xA000000, 0)
  else if off < 0xE000000 then (off / 0x1000000 * 0x1000000, 0)
  else if off < 0x10000000 then (0xE000000, 0)
  else (off / 0x1000000 * 0x1000000, 0)

/-- The register at a BAR0 offset, if one is assigned there. -/
def regAt (off : Nat) : Option RegAt :=
  match findReg off with
  | some h =>
    let w := blockWindow off
    some { row := w.1 + h.desc.off, off := if h.high then off - 4 else off, idx := h.idx, win := w.2, high := h.high, desc := h.desc }
  | none => none

/-- Is the register a 64-bit one? -/
def RegAt.wide (r : RegAt) : Bool := r.desc.wide

/-! ### Selectors -/

/-- The item that a block's selector names for a register shown through one. -/
def Dev.selected (d : Dev) (row : Nat) : Nat :=
  if row < 0xB000000 then d.rd F.TBL_SNAP_INDEX_SET
  else if row < F.BUF_Q_SEL.off then 256 * d.rd F.BUF_QUOTA_SEL_POOL + d.rd F.BUF_QUOTA_SEL_REQ
  else if row < 0xD000000 then d.rd F.BUF_Q_SEL_QUEUE
  else if row < F.QUE_NODE_SEL.off then d.rd F.QUE_Q_SEL_QUEUE
  else if row < F.QUE_WRED_SEL.off then d.rd F.QUE_NODE_SEL_NODE
  else if row < F.QUE_LFSR_SEL.off then d.rd F.QUE_WRED_SEL_PROFILE
  else if row < F.QUE_HIST_SEL.off then d.rd F.QUE_LFSR_SEL_GROUP
  else if row < 0xE000000 then d.rd F.QUE_HIST_SEL_SLOT
  else if row = F.SHP_PROF_RATE1.off ∨ row = F.SHP_PROF_RATE2.off ∨ row = F.SHP_PROF_BURST1.off ∨ row = F.SHP_PROF_BURST2.off then
    d.rd F.SHP_PROF_SEL_PROFILE + 65536 * d.rd F.SHP_PROF_SEL_COPY
  else if row < F.SHP_ELEM_SEL.off then d.rd F.SHP_PROF_SEL_PROFILE
  else if row < 0x10000000 then d.rd F.SHP_ELEM_SEL_ELEM
  else if row < F.DCK_MC_SEL.off then d.rd F.DCK_PTR_SEL_N
  else if row < F.DCK_CL_SEL.off then d.rd F.DCK_MC_SEL_GROUP
  else if row < F.DCK_MIR_SEL.off then d.rd F.DCK_CL_SEL_INDEX
  else if row < 0x12000000 then d.rd F.DCK_MIR_SEL_SESSION
  else if row < 0x13000000 then d.rd F.TWN_PORT_SEL_PORT
  else d.rd F.HST_SUPP_SEL % 512

/-- The key of the register store that holds the register: its offset, and above it the selected item. -/
def Dev.regKey (d : Dev) (r : RegAt) : Nat :=
  if r.desc.sel then r.off + 0x20000000 * d.selected r.row
  else if r.row = F.LPT_MSEC_SCI.off then
    let dir := d.rd (F.LPT_MSEC_SA_SEL_DIR.port r.win)
    r.off + 0x20000000 * (32 * dir + (if dir = 1 then 0 else d.rd (F.LPT_MSEC_SA_SEL_SC.port r.win)))
  else r.off

/-! ### Computed registers, by block -/

/-- One bit of a view. -/
def flag (b : Bool) (i : Nat) : Nat := if b then 2 ^ i else 0

/-- TIM registers that the state gives: the STC, the PHC (R44), the counts of R58 and the entry that the reading master's index names
(R490). -/
def Dev.viewTim (d : Dev) (m row raw : Nat) : Nat :=
  let e := d.entryAt (d.stagingOf m).index
  if row = F.TIM_STC.off then d.tim.span % 2 ^ 48 + (d.tim.slot <<< 48) + flag d.locked 63
  else if row = F.TIM_PHC_SEC.off then d.phcNs / 1000000000 % 2 ^ 48
  else if row = F.TIM_PHC_NS.off then d.phcNs % 1000000000
  else if row = F.TIM_PHC_SUBNS.off then d.phcUnits d.tim.span (32 * d.tim.slot) % 65536
  else if row = F.TIM_BANK_STATUS.off then raw + flag d.ksArmed 2
  else if row = F.TIM_OLD_RESIDENT.off then d.oldResident
  else if row = F.TIM_TA_INDEX.off then (d.stagingOf m).index
  else if row = F.TIM_TA_SPAN.off then e.span
  else if row = F.TIM_TA_OPERAND.off then e.operand.toNat
  else if row = F.TIM_TA_TYPE.off then e.type
  else if row = F.TIM_TA_STATUS.off then taCode e.state + (e.cmdResult <<< 4) + (e.result <<< 8)
  else raw

/-- LPT registers that the state gives: the head of the timestamp FIFO (R114) and the selected SA (R112). Keys, salts and commands read
0. -/
def Dev.viewLpt (d : Dev) (p row raw : Nat) : Nat :=
  let x := d.lp p
  let sa := x.sa (saKey (d.rd (F.LPT_MSEC_SA_SEL_DIR.port p)) (d.rd (F.LPT_MSEC_SA_SEL_SC.port p)) (d.rd (F.LPT_MSEC_SA_SEL_AN.port p)))
  if row = F.LPT_TXTS_SEC.off then
    match x.txts with
    | (tag, s, _) :: _ => s % 2 ^ 48 + (tag <<< 48)
    | [] => 0
  else if row = F.LPT_TXTS_NS.off then
    match x.txts with
    | (_, _, ns, ok) :: _ => raw + ns + flag ok 31
    | [] => raw
  else if row = F.LPT_MSEC_SA_CMD.off then flag sa.valid 8
  else if row = F.LPT_MSEC_PN.off then sa.pn
  else if F.LPT_MSEC_KEY.off ≤ row ∧ row < F.LPT_GCL_ENTRY.off then 0
  else raw

/-- PIR registers that the state gives: the pier's clock and power, its second-stroke queue, its commits and the live row that ADDR
names (R135, R153, R154). -/
def Dev.viewPir (d : Dev) (p row idx raw : Nat) : Nat :=
  let live := d.tcamRow p (d.rd (F.PIR_TCAM_ADDR_PIPE.pier p)) (d.rd (F.PIR_TCAM_ADDR_ROW.pier p))
  if row = F.PIR_STATUS.off then
    (d.rd (F.PWR_PIER_FREQ_ACTUAL.ix p) <<< 16) + flag (3 ≤ d.shed) 2 + flag (!(d.commits p).isEmpty) 1 + flag (d.pierPowered p) 0
  else if row = F.PIR_SS_STATUS.off then (d.ssBytes p + 1023) / 1024 + ((d.ssQueue p).length <<< 16)
  else if row = F.PIR_TCAM_CTRL.off then flag live.valid 0 + (live.chain <<< 8) + (live.ranges <<< 12)
  else if row = F.PIR_TCAM_RES.off then live.res.toNat
  else if row = F.PIR_TCAM_KEY.off then bits live.key (32 * idx + 31) (32 * idx)
  else if row = F.PIR_TCAM_MASK.off then bits live.mask (32 * idx + 31) (32 * idx)
  else if row = F.PIR_TCAM_PEND.off then min 64 (d.commits p).length
  else raw

/-- Valid entries of an exact-match memory. -/
def Dev.validIn (d : Dev) (kind : Nat) : Nat :=
  (d.tbl.mem.filter fun x => memKey kind 0 ≤ x.1 && x.1 < memKey (kind + 1) 0 && exValid kind x.2).length

/-- TBL registers that the state gives. -/
def Dev.viewTbl (d : Dev) (row idx raw : Nat) : Nat :=
  if row = F.TBL_STATUS.off then flag (65536 ≤ d.tbl.learnQ.length) 1 + flag d.tbl.snap.isSome 0
  else if row = F.TBL_LEARN_DEPTH.off then d.tbl.learnQ.length
  else if row = F.TBL_LPM_USED.off then d.lpmUsed
  else if row = F.TBL_EXACT_USED.off then d.validIn (2 + idx)
  else if row = F.TBL_TAE_STATUS.off then min 512 d.tbl.queue.length + flag (!d.tbl.queue.isEmpty) 16
  else if row = F.TBL_AGE_STATUS.off then d.tbl.sweepAt.1 % 256 + flag (2 ≤ d.shed) 8
  else if row = F.TBL_RETIRE_USED.off then d.tbl.retire.length
  else raw

/-- BUF registers that the state gives. Pool 3 of BUF_QUOTA_SEL selects nothing, and requesters end at 22. -/
def Dev.viewBuf (d : Dev) (m row idx raw : Nat) : Nat :=
  let pool := d.rd F.BUF_QUOTA_SEL_POOL
  let q := d.rd F.BUF_Q_SEL_QUEUE
  if row = F.BUF_STATUS.off then
    ((List.range 4).map fun n => flag (d.cxlState n == 3) (8 + n)).sum + flag (3 ≤ d.shed) 2 + flag (2 ≤ d.shed) 1 +
      flag (4 ≤ d.rd F.SEC_BOOT_STATUS_PHASE) 0
  else if row = F.BUF_POOL_SIZE.off then d.poolSize idx
  else if row = F.BUF_POOL_FREE.off then d.poolFree idx
  else if row = F.BUF_QUOTA.off then if pool = 3 then 0 else raw
  else if row = F.BUF_USAGE.off then if pool = 3 then 0 else d.buf.used pool (d.rd F.BUF_QUOTA_SEL_REQ)
  else if row = F.BUF_ALLOC.off ∨ row = F.BUF_FREE_ADDR.off then 0
  else if row = F.BUF_FREE_RESULT.off then d.buf.freeResult.get (fun _ => 0) m
  else if row = F.BUF_Q_STATUS.off then
    (((d.queue q).filter (·.far)).map (·.sectors)).sum / 4 + flag (d.spilled q) 31
  else if row = F.BUF_CXL_PAGES.off then d.buf.heldOn idx
  else raw

/-- Does queue `q` wait to be detached? -/
def Dev.flushPends (d : Dev) (q : Nat) : Bool := d.flushWaiting.any fun r => r.1 ≤ q && q < r.1 + r.2

/-- QUE registers that the state gives. -/
def Dev.viewQue (d : Dev) (m row raw : Nat) : Nat :=
  let q := d.rd F.QUE_Q_SEL_QUEUE
  let n := d.rd F.QUE_NODE_SEL_NODE
  if row = F.QUE_STATUS.off then rangesSize d.flushWaiting + flag (d.que.flushes.any (·.todo.isEmpty)) 20
  else if row = F.QUE_Q_STATE.off then
    let par := if isVoq q then 0xFFFFF else d.parent (q - 131072)
    par + flag (par != 0xFFFFF) 20 + flag (d.spilled q) 29 + flag (d.flushPends q) 30 + flag (d.queueDown q) 31
  else if row = F.QUE_Q_DEPTH.off then d.depth q + ((d.queue q).length <<< 32)
  else if row = F.QUE_SJ_SUM.off then (d.que.sojourn.get (fun _ => (0, 0)) q).1 % 2 ^ 48
  else if row = F.QUE_NODE_PORT.off then d.nodePort n
  else if row = F.QUE_NODE_STATUS.off then
    let e := nodeElem n
    let root := (d.rootPort n).isSome
    (if root then 0xFFFFF else d.parent e) + (min 7 (d.heightOf 8 e) <<< 24) + (min 7 (d.levelOf 17 e) <<< 27) +
      flag root 30 + flag (d.attached e) 31
  else if row = F.QUE_NODE_CHILDREN.off then (d.children n).length
  else if row = F.QUE_MOVE_STATUS.off then d.que.moveResult.get (fun _ => 0) m
  else if row = F.QUE_MOVE_CMD.off ∨ row = F.QUE_FLUSH_CMD.off then 0
  else raw

/-- SHP registers that the state gives. Bucket 2 reads 0 where the mode does not use it (R276). -/
def Dev.viewShp (d : Dev) (row raw : Nat) : Nat :=
  let e := d.rd F.SHP_ELEM_SEL_ELEM
  let two (x : Int) : Nat := (x % 2 ^ 64).toNat
  if row = F.SHP_STATUS.off then raw + flag (4 ≤ d.rd F.SEC_BOOT_STATUS_PHASE) 0
  else if row = F.SHP_PROF_USERS.off then d.profUsers (d.rd F.SHP_PROF_SEL_PROFILE)
  else if row = F.SHP_ELEM_LEVEL1.off then two (d.levels e).l1
  else if row = F.SHP_ELEM_LEVEL2.off then if d.profMode (d.elemProf e) ≤ 1 then 0 else two (d.levels e).l2
  else raw

/-- TWN registers that the state gives. -/
def Dev.viewTwn (d : Dev) (row raw : Nat) : Nat :=
  let x := d.tp (d.rd F.TWN_PORT_SEL_PORT)
  if row = F.TWN_STATUS.off then raw + d.twnState + flag d.claiming 11
  else if row = F.TWN_PORT_STATUS.off then
    (((x.history.take 8).zipIdx).map fun h => flag h.1 h.2).sum + (((x.window - 1) % 2 ^ 23) <<< 8) + flag x.aligned 31
  else raw

/-- The value of a register as a read by master `m` returns it, both halves of a 64-bit one. -/
def Dev.view (d : Dev) (m : Nat) (r : RegAt) : Nat :=
  let raw := (d.reg (d.regKey r)).toNat
  let row := r.row
  if row < 0x1000000 then
    if row = F.GLB_ID.off then d.glbId
    else if row = F.GLB_DIE_ID.off then Config.dieId.toNat
    else if row = F.GLB_FEATURE.off then flag d.sec.fuses.twinAvail 0 + flag d.sec.fuses.farAvail 1
    else if row = F.GLB_MODE.off then d.glbMode
    else if row = F.GLB_MODE_FLAGS.off then d.modeFlags
    else raw
  else if row < 0x2000000 then d.viewTim m row raw
  else if row < 0x4000000 then raw
  else if row < 0x8000000 then d.viewLpt r.win row raw
  else if row < 0xA000000 then d.viewPir r.win row r.idx raw
  else if row < 0xC000000 then d.viewTbl row r.idx raw
  else if row < 0xD000000 then d.viewBuf m row r.idx raw
  else if row < 0xE000000 then d.viewQue m row raw
  else if row < 0x10000000 then d.viewShp row raw
  else if row = F.FAB_REASM_USED.off then (d.reasmBytes + 1023) / 1024
  else if row = F.DCK_STATUS.off then d.dck.backlog.length
  else if row = F.DCK_PTR.off then
    let n := d.rd F.DCK_PTR_SEL_N
    d.acceptPtr n + (if n < 16 then d.grantPtr n <<< 24 else 0)
  else if row < 0x12000000 then raw
  else if row < 0x13000000 then d.viewTwn row raw
  else if row = F.CTL_STATUS.off then
    ((List.range 4).map fun n => flag (d.pairState n == 1) n).sum + flag d.bindLocked 16
  else if row = F.CTL_LOCK_PEEK.off then d.lock r.idx
  else if row = F.HST_I3C_PID.off then i3cPid
  else if row = F.PWR_TEMP.off then raw + (toU16 ((d.pwr.tempMax.get (fun _ => none) r.idx).getD 0) <<< 16)
  else if row = F.SEC_FUSE_STATE.off then d.fuseState
  else if row = F.SEC_ID_PUB.off then d.idPubWord r.idx
  else if row = F.DGN_PATROL_STATUS.off then raw + flag (2 ≤ d.shed) 31
  else raw

end Sys2Proof.Machine
end

