-- ==== Sys2Proof/Machine/BusWrite.lean ====
section
/-! DEFINITION. What a write that has reached its register does (R8, R10, R11): the access codes, and the registers whose writes have an
effect or a limit of their own. -/

namespace Sys2Proof.Machine

/-! ### Access codes (R10) -/

/-- The register's value after a write under its access codes: RW bits take the data, RWL bits while GLB_LOCK is clear, W1C bits clear where
the data is 1, and the others stay. -/
def Dev.coded (d : Dev) (r : RegAt) (old data : Nat) : Nat :=
  let mask := r.desc.rw ||| (if d.on F.GLB_LOCK_LOCK then 0 else r.desc.rwl)
  let kept := old &&& ((2 ^ 64 - 1) ^^^ (mask ||| (data &&& r.desc.w1c)))
  kept ||| (data &&& mask)

/-- The register takes a write under its access codes. -/
def Dev.store (d : Dev) (r : RegAt) (data : Nat) : Dev :=
  let key := d.regKey r
  d.setReg key (BitVec.ofNat 64 (d.coded r (d.reg key).toNat data))

/-- The device's value limited to a range. -/
def clamp (lo hi x : Nat) : Nat := max lo (min hi x)

/-! ### 32-bit registers, by block -/

/-- A write of a GLB register. -/
def Dev.writeGlb (d : Dev) (m : Nat) (r : RegAt) (data : Word) : Dev :=
  if r.row = F.GLB_CTRL.off then
    if bitOn data 1 then maintReq m (bitOn data 0) d else d.when (bitOn data 0) (fwdEn m)
  else if r.row = F.GLB_LOCK.off then d.when (bitOn data 0) glbLockSet
  else d.store r data.toNat

/-- A write of a 32-bit TIM register. -/
def Dev.writeTim (d : Dev) (m : Nat) (r : RegAt) (data : Word) : Dev :=
  if r.row = F.TIM_CTRL.off then srcSelect (bits data 1 0) d
  else if r.row = F.TIM_CORR.off then d.corrWrite data
  else if r.row = F.TIM_DRAIN_LIMIT.off then d.wr F.TIM_DRAIN_LIMIT_LIMIT (clamp 256 1048576 (bits data 20 0))
  else if r.row = F.TIM_TA_INDEX.off then taStageWrite m .index (data.setWidth 64) d
  else if r.row = F.TIM_TA_TYPE.off then taStageWrite m .type (data.setWidth 64) d
  else if r.row = F.TIM_TA_CMD.off then
    if bits data 1 0 = 1 then taArm m d else if bits data 1 0 = 2 then taCancel m d else d
  else if r.row = F.TIM_SYNC_CFG.off then (d.store r data.toNat).when (bitOn data 0) syncLoadArm
  else d.store r data.toNat

/-- A write of a 32-bit IMG register. IMG_WALK_INTERVAL is mirrored (R342). -/
def Dev.writeImg (d : Dev) (m : Nat) (r : RegAt) (data : Word) : Dev :=
  let cmd := bits data 1 0
  if r.row = F.IMG_LOAD_CMD.off then
    if cmd = 1 then imgLoadStart m (bits data 5 4) d else if cmd = 2 then imgLoadAbort d else d
  else if r.row = F.IMG_WALK_INTERVAL.off then d.mirroredWrite m r.off data.toNat (·.store r data.toNat)
  else if r.row = F.IMG_WALK_CMD.off then
    if cmd = 1 then walkStart m d else if cmd = 2 then walkAbandon m d else if cmd = 3 then walkResume m d else d
  else if r.row = F.IMG_PIER_CMD.off then
    let p := bits data 4 0
    if bits data 9 8 = 1 then pierRetireCmd p d else if bits data 9 8 = 2 then pierRestoreCmd p d else d
  else d.store r data.toNat

/-- LPT_CTRL: FLOW 3 is ignored; ADMIN_UP acts (R125); CNT_CLR and TXTS_POP read 0. -/
def Dev.lptCtrl (d : Dev) (p : Nat) (data : Word) : Dev :=
  let d1 := d.wr (F.LPT_CTRL_AN_EN.port p) (bits data 4 4)
  let d2 := d1.when (bits data 1 0 != 3) (·.wr (F.LPT_CTRL_FLOW.port p) (bits data 1 0))
  ((adminUpWrite p (bitOn data 5) d2).when (bitOn data 8) (lptCntClr p)).when (bitOn data 9) (txtsPop p)

/-- LPT_PREEMPT: the verify exchange starts when EN and VERIFY_EN come to be set, and is off when they are not (R123). -/
def Dev.preemptWrite (d : Dev) (p : Nat) (r : RegAt) (data : Word) : Dev :=
  let on (d : Dev) : Bool := d.on (F.LPT_PREEMPT_EN.port p) && d.on (F.LPT_PREEMPT_VERIFY_EN.port p)
  let d1 := d.store r data.toNat
  if on d1 then if on d then d1 else d1.wr (F.LPT_PREEMPT_VERIFY_STATE.port p) 1
  else d1.wr (F.LPT_PREEMPT_VERIFY_STATE.port p) 0

/-- A write of a 32-bit LPT register of port `r.win`. -/
def Dev.writeLpt (d : Dev) (m : Nat) (r : RegAt) (data : Word) : Dev :=
  let p := r.win
  if r.row = F.LPT_CTRL.off then d.lptCtrl p data
  else if r.row = F.LPT_MAX_FRAME.off then d.wr (F.LPT_MAX_FRAME_BYTES.port p) (clamp 64 16352 (bits data 13 0))
  else if r.row = F.LPT_GCL_CTRL.off then (d.store r data.toNat).when (bitOn data 16) (gclCommit m p)
  else if r.row = F.LPT_PREEMPT.off then d.preemptWrite p r data
  else if r.row = F.LPT_MSEC_CTRL.off then
    let xpn := d.rd (F.LPT_MSEC_CTRL_XPN.port p)
    let free := !d.on (F.LPT_MSEC_CTRL_RX_EN.port p) && !d.on (F.LPT_MSEC_CTRL_TX_EN.port p)
    (d.store r data.toNat).when (!free) (·.wr (F.LPT_MSEC_CTRL_XPN.port p) xpn)
  else if r.row = F.LPT_MSEC_SA_CMD.off then
    if bits data 1 0 = 1 then msecSaInstall m p d else if bits data 1 0 = 2 then msecSaRetire p d else d
  else if F.LPT_MSEC_KEY.off ≤ r.row ∧ r.row < F.LPT_GCL_ENTRY.off then d.setReg r.off (data.setWidth 64)
  else if r.row = F.LPT_OCT_RX_MAP.off then laneMapWrite m p false data d
  else if r.row = F.LPT_OCT_TX_MAP.off then laneMapWrite m p true data d
  else d.store r data.toNat

/-- Is the register one that only the broadcast window writes (R153), and that is mirrored there (R342)? -/
def broadcastOnly (row : Nat) : Bool :=
  row == F.PIR_PARSE_CFG.off || (F.PIR_HASH_SEED.off ≤ row && row < F.PIR_TCAM_PEND.off) || row == F.PIR_TCAM_BLKTAG.off

/-- A write of a 32-bit register of pier `p`, from the pier's window or from the broadcast window. -/
def Dev.writePier (d : Dev) (m p : Nat) (r : RegAt) (data : Word) : Dev :=
  let at_ : RegAt := { r with off := r.off + 0x100000 * p - 0x100000 * r.win }
  if r.row = F.PIR_CTRL.off then d.when (bitOn data 0) (pirCntClr p)
  else if r.row = F.PIR_TCAM_CTRL.off then d.commitRequest m p data
  else if r.row = F.PIR_TCAM_KEY.off then
    d.shadowWrite p fun x => { x with key := setBits x.key (32 * r.idx + 31) (32 * r.idx) data.toNat }
  else if r.row = F.PIR_TCAM_MASK.off then
    d.shadowWrite p fun x => { x with mask := setBits x.mask (32 * r.idx + 31) (32 * r.idx) data.toNat }
  else d.store at_ data.toNat

/-- A write of a 32-bit register through a single pier's window. -/
def Dev.writePir (d : Dev) (m : Nat) (r : RegAt) (data : Word) : Dev :=
  if broadcastOnly r.row then d else d.writePier m r.win r data

/-- A write of a 32-bit TBL register. Its configuration is mirrored (R342, R343). -/
def Dev.writeTbl (d : Dev) (m : Nat) (r : RegAt) (data : Word) : Dev :=
  if r.row = F.TBL_REHASH_CTRL.off then
    let t := bits data 7 0
    let cmd := bits data 17 16
    if cmd = 1 then rehashOpen m t d else if cmd = 2 then rehashCommit m t d else if cmd = 3 then rehashAbort m t d
    else d.localWrite m r.off (·.wr F.TBL_REHASH_CTRL_TABLE t)
  else if tblConfig r.off then d.mirroredWrite m r.off data.toNat (·.store r data.toNat)
  else d.localWrite m r.off (·.store r data.toNat)

/-- A write of a 32-bit BUF register. -/
def Dev.writeBuf (d : Dev) (m : Nat) (r : RegAt) (data : Word) : Dev :=
  if r.row = F.BUF_QUOTA.off then if d.rd F.BUF_QUOTA_SEL_POOL = 3 then d else d.store r data.toNat
  else if r.row = F.BUF_MC_TMASK.off then
    (d.store r data.toNat).when (bits data 2 0 == 0) (·.wr F.BUF_MC_TMASK_MASK 3)
  else if r.row = F.BUF_FREE_HANDLE.off then bufFreeHandle m data d
  else if r.row = F.BUF_POOL_LOW.off ∨ r.row = F.BUF_PF_RESERVE.off then (d.store r data.toNat).lowCheck
  else if r.row = F.BUF_CXL_CTRL.off then
    let c := bits data 1 0
    if c = 1 then cxlEnable m r.idx d else if c = 2 then cxlDrain m r.idx d else if c = 3 then cxlDisable m r.idx d else d
  else if r.row = F.BUF_CXL_LIMIT.off then d.wr (F.BUF_CXL_LIMIT_PAGES.ix r.idx) (min 100663296 (bits data 26 0))
  else d.store r data.toNat

/-- QUE_MOVE_CMD: 1 attach, 2 swap, 3 detach, each mirrored if it was done (R256, R342). -/
def Dev.moveWrite (d : Dev) (m cmd : Nat) : Dev :=
  if cmd = 1 then (queAttach m d).mirrorMove m 1
  else if cmd = 2 then (queSwap m d).mirrorMove m 2
  else if cmd = 3 then (queDetach m d).mirrorMove m 3
  else d

/-- QUE_FLUSH_CMD: a queue, a port's egress queues, or every VOQ (R266). -/
def Dev.flushWrite (d : Dev) (data : Word) : Dev :=
  let scope := bits data 31 30
  let p := bits data 6 0
  if scope = 1 then d.requestFlush 3 0xFFFF [(d.rd F.QUE_Q_SEL_QUEUE, 1)]
  else if scope = 2 then d.requestFlush 3 p ((d.portRanges p).filter fun r => 131072 ≤ r.1)
  else if scope = 3 then d.requestFlush 3 0xFFFF [(0, 131072)]
  else d

/-- A QUE register that is stored, with the limits of its fields: a VOQ's CLASS is read-only, weights and LFSR states of 0 are stored as
1. -/
def Dev.queStore (d : Dev) (r : RegAt) (data : Word) : Dev :=
  let key := d.regKey r
  if r.row = F.QUE_Q_CFG.off ∧ isVoq (d.rd F.QUE_Q_SEL_QUEUE) = true then
    d.wr (F.QUE_Q_CFG_MAX_KIB.item (d.rd F.QUE_Q_SEL_QUEUE)) (bits data 23 0)
  else if (r.row = F.QUE_Q_SCHED.off ∨ r.row = F.QUE_NODE_CFG.off) ∧ bits data 31 16 = 0 then
    d.setReg key (BitVec.ofNat 64 (65536 + bits data 2 0))
  else if r.row = F.QUE_LFSR.off ∧ data = 0 then d.setReg key 1
  else d.store r data.toNat

/-- A write of a 32-bit QUE register. All but the histogram and read-only ones are mirrored (R342). -/
def Dev.writeQue (d : Dev) (m : Nat) (r : RegAt) (data : Word) : Dev :=
  if r.row = F.QUE_MOVE_CMD.off then d.moveWrite m (bits data 1 0)
  else if r.row = F.QUE_HIST_SEL.off then d.localWrite m r.off (·.store r data.toNat)
  else if r.row = F.QUE_HIST_CFG.off then d.localWrite m r.off (histWrite data)
  else if r.row = F.QUE_FLUSH_CMD.off then
    if bits data 31 30 = 0 then d else d.mirroredWrite m r.off data.toNat (·.flushWrite data)
  else if r.row = F.QUE_PORT_CFG.off then d.mirroredWrite m r.off data.toNat (quePortCfgWrite m r.idx data)
  else if r.row = F.QUE_NODE_PORT.off then d.mirroredWrite m r.off data.toNat (nodePortWrite m data)
  else if r.desc.rw = 0 then d
  else d.mirroredWrite m r.off data.toNat fun d => (d.queStore r data).settle

/-- A write of a 32-bit SHP register. Profile 0 has no shaping and is not written; the others keep ACTIVE. -/
def Dev.writeShp (d : Dev) (m : Nat) (r : RegAt) (data : Word) : Dev :=
  if r.row = F.SHP_ELEM_PROFILE.off then (elemBind m data d).settle
  else if r.row = F.SHP_SET_SWITCH.off then setSwitchWrite m data d
  else if F.SHP_PROF_CFG.off ≤ r.row ∧ r.row < F.SHP_ELEM_SEL.off then
    if d.rd F.SHP_PROF_SEL_PROFILE = 0 then d else (d.store r data.toNat).settle
  else d.store r data.toNat

/-- FAB_SP_MAP: the write takes effect from the next span (R299). -/
def Dev.spMapWrite (d : Dev) (x : Nat) (data : Word) : Dev :=
  let d1 := { d with fab := { d.fab with spMapOld := d.fab.spMapOld.set (fun _ => none) x (some (d.spNode x, d.tim.tick)) } }
  d1.wr (F.FAB_SP_MAP_NODE.ix x) (bits data 9 0)

/-- A write of a 32-bit FAB register. TAKEOVER is written in M5 alone (R315). -/
def Dev.writeFab (d : Dev) (r : RegAt) (data : Word) : Dev :=
  if r.row = F.FAB_CTRL.off then (fabEnableWrite (bitOn data 0) d).when (bitOn data 1) fabRestart
  else if r.row = F.FAB_PAIR_CTRL.off then
    if bitOn data 0 then takeoverRequest d
    else if d.mode = .m5 then { d.wr F.FAB_PAIR_CTRL_TAKEOVER 0 with twn := { d.twn with claimAt := none } }
    else d
  else if r.row = F.FAB_LANE_INV.off then if d.on F.FAB_CTRL_EN then d else d.store r data.toNat
  else if r.row = F.FAB_SP_MAP.off then d.spMapWrite r.idx data
  else d.store r data.toNat

/-- A write of a 32-bit DCK register. Its window is mirrored: a standby ignores local writes (R331, R343). -/
def Dev.writeDck (d : Dev) (m : Nat) (r : RegAt) (data : Word) : Dev :=
  if r.row = F.DCK_MC_SEL.off then d.localWrite m r.off fun d => (d.store r data.toNat).when (bitOn data 31) mcCounterClr
  else if r.row = F.DCK_MC_GROUP.off then mcGroupWrite m data d
  else if r.row = F.DCK_MIR_SEL.off then d.localWrite m r.off (·.wr F.DCK_MIR_SEL_SESSION (max 1 (bits data 5 0)))
  else if r.row = F.DCK_MIR_CFG.off then mirCfgWrite m data d
  else d.localWrite m r.off (·.store r data.toNat)

/-- A write of a 32-bit TWN register. -/
def Dev.writeTwn (d : Dev) (m : Nat) (r : RegAt) (data : Word) : Dev :=
  if r.row = F.TWN_CTRL.off then twinEnable m (bitOn data 0) d
  else if r.row = F.TWN_CMD.off then
    match bits data 2 0 with
    | 1 => twnDemote m d
    | 2 => twnResync m d
    | 3 => twnForcePromote m d
    | 4 => twnRelease m d
    | 5 => twnReactivate m d
    | _ => d
  else if r.row = F.TWN_CFG.off then
    ((d.wr F.TWN_CFG_DIGEST_EN (bits data 31 31)).wr F.TWN_CFG_THR (clamp 1 8 (bits data 19 16))).wr F.TWN_CFG_LEAD
      (clamp 8 1024 (bits data 10 0))
  else d.store r data.toNat

/-- A write of a CTL register. DESIGN CHOICE (35): a write of the read-only CTL_MBX_RXSTAT is ignored whoever makes it (R11), without the checks
of R376. -/
def Dev.writeCtl (d : Dev) (m : Nat) (r : RegAt) (data : Word) : Dev :=
  let n := r.idx
  if r.row = F.CTL_BIND_LOCK.off then d.when (bitOn data 0) (bindLockSet m)
  else if r.row = F.CTL_MBX_BIND.off then mbxBindWrite m n data d
  else if r.row = F.CTL_MBX_DATA.off then mbxDataWrite m n (r.off % 0x80 / 4) data d
  else if r.row = F.CTL_MBX_POST.off then mbxPost m n data d
  else if r.row = F.CTL_MBX_TXSTAT.off then mbxTxstatWrite m n data d
  else if r.row = F.CTL_MBX_ACK.off then mbxAck m n data d
  else if r.row = F.CTL_BELL.off then bellClear m n data d
  else if r.row = F.CTL_BELL_MASK.off then bellMaskWrite m n data d
  else if r.row = F.CTL_LOCK.off then lockWrite m n data d
  else d.store r data.toNat

/-- A write of a 32-bit HST register. -/
def Dev.writeHst (d : Dev) (m : Nat) (r : RegAt) (data : Word) : Dev :=
  if r.row = F.HST_EVR_CFG.off then evrEnableWrite r.idx data d
  else if r.row = F.HST_EVR_MOD.off then
    d.setReg r.off (BitVec.ofNat 64 ((bits data 31 16 <<< 16) + max 1 (bits data 15 0)))
  else if r.row = F.HST_PQ_CFG.off then (queueEnableWrite m false r.idx data d).settle
  else if r.row = F.HST_IQ_CFG.off then queueEnableWrite m true r.idx data d
  else if r.row = F.HST_PQ_TAIL.off then (pqTailWrite m r.idx (bits data 15 0) d).settle
  else if r.row = F.HST_IQ_TAIL.off then iqTailWrite m r.idx (bits data 15 0) d
  else d.store r data.toNat

/-- A write of a 32-bit PWR register. -/
def Dev.writePwr (d : Dev) (r : RegAt) (data : Word) : Dev :=
  if r.row = F.PWR_PIER_FREQ.off then
    d.wr (F.PWR_PIER_FREQ_TARGET.ix r.idx) (clamp 1000 1600 (bits data 26 16 / 100 * 100))
  else if r.row = F.PWR_THERM_CFG.off then
    if d.on F.GLB_LOCK_LOCK then d else d.wr F.PWR_THERM_CFG_THROTTLE (clamp 85 115 (bits data 7 0))
  else d.store r data.toNat

/-- A write of a 32-bit SEC register. -/
def Dev.writeSec (d : Dev) (m : Nat) (r : RegAt) (data : Word) : Dev :=
  if r.row = F.SEC_CTRL.off then d.when (bitOn data 0) (secSysReset m)
  else if r.row = F.SEC_FUSE_CMD.off then if bits data 2 0 = 0 then d else fuseStart m (bits data 2 0) (bits data 10 8) d
  else if r.row = F.SEC_ATT_NONCE.off then if m = 0 ∨ m = 6 then d.store r data.toNat else d
  else if r.row = F.SEC_ATT.off then d.when (bitOn data 0) (attestStart m)
  else if r.row = F.SEC_FLASH_CMD.off then if bits data 1 0 = 0 then d else flashStart m (bits data 1 0) d
  else d.store r data.toNat

/-- A write of a 32-bit DGN register. -/
def Dev.writeDgn (d : Dev) (m : Nat) (r : RegAt) (data : Word) : Dev :=
  if r.row = F.DGN_CU_CTRL.off then if bitOn data 31 then cuArm m r.idx data d else d.store r data.toNat
  else if r.row = F.DGN_BIST_CMD.off then if bitOn data 31 then bistStart m data d else d.store r data.toNat
  else if r.row = F.DGN_RECAL_CMD.off then if bitOn data 31 then recalStart m data d else d.store r data.toNat
  else if r.row = F.DGN_CW_TEST.off then cwTestEnable m data d
  else if r.row = F.DGN_MAINT_CMD.off then if bitOn data 31 then maintTestStart m data d else d.store r data.toNat
  else d.store r data.toNat

/-- A write of a 32-bit register. -/
def Dev.write32 (d : Dev) (m : Nat) (r : RegAt) (data : Word) : Dev :=
  if r.row < 0x1000000 then d.writeGlb m r data
  else if r.row < 0x2000000 then d.writeTim m r data
  else if r.row < 0x4000000 then d.writeImg m r data
  else if r.row < 0x8000000 then d.writeLpt m r data
  else if r.row < 0xA000000 then d.writePir m r data
  else if r.row < 0xC000000 then d.writeTbl m r data
  else if r.row < 0xD000000 then d.writeBuf m r data
  else if r.row < 0xE000000 then d.writeQue m r data
  else if r.row < 0x10000000 then d.writeShp m r data
  else if r.row < 0x11000000 then d.writeFab r data
  else if r.row < 0x12000000 then d.writeDck m r data
  else if r.row < 0x13000000 then d.writeTwn m r data
  else if r.row < 0x14000000 then d.writeCtl m r data
  else if r.row < 0x15000000 then d.writeHst m r data
  else if r.row < 0x16000000 then d.writePwr r data
  else if r.row < 0x17000000 then d.writeSec m r data
  else d.writeDgn m r data

/-! ### 64-bit registers (R8) -/

/-- The low half that a commit without a staged one keeps. -/
def Dev.currentLow (d : Dev) (m : Nat) (r : RegAt) : Nat :=
  if r.row = F.TIM_TA_SPAN.off then (d.stagingOf m).span
  else if r.row = F.TIM_TA_OPERAND.off then (d.stagingOf m).operand.toNat
  else (d.reg (d.regKey r)).toNat

/-- The value of a 64-bit register is committed. -/
def Dev.write64 (d : Dev) (m : Nat) (r : RegAt) (v : Nat) : Dev :=
  if r.row = F.TIM_TA_SPAN.off then taStageWrite m .span (BitVec.ofNat 64 v) d
  else if r.row = F.TIM_TA_OPERAND.off then taStageWrite m .operand (BitVec.ofNat 64 v) d
  else if r.row = F.PIR_TCAM_RES.off then d
  else if r.row = F.HST_EVR_BASE.off then if d.on (F.HST_EVR_CFG_EN.ix r.idx) then d else d.store r v
  else if r.row = F.HST_PQ_BASE.off then if m ≠ 7 ∨ d.on (F.HST_PQ_CFG_EN.ix r.idx) = true then d else d.store r v
  else if r.row = F.HST_IQ_BASE.off then if m ≠ 7 ∨ d.on (F.HST_IQ_CFG_EN.ix r.idx) = true then d else d.store r v
  else if r.row = F.PWR_SHED_LOG.off then d.when ((v >>> 52) % 16 != 0) (·.wr F.PWR_SHED_LOG_MAX_STEP 0)
  else d.store r v

/-- The commit of both halves by the write of the high half. BUF_FREE_ADDR and DCK_CL_ENTRY take the staged half themselves. -/
def Dev.commitHigh (d : Dev) (m : Nat) (r : RegAt) (data : Word) : Dev :=
  if r.row = F.BUF_FREE_ADDR.off then bufFreeAddr m data d
  else if r.row = F.DCK_CL_ENTRY.off then clEntryWrite m data d
  else (d.unstage m r.off).write64 m r (d.stagedLow m r.off (d.currentLow m r) + (data.toNat <<< 32))

/-- A write of one half of a 64-bit register. IMG_WALK_START is mirrored, half by half (R342); the TBL window is a mirrored one (R343). -/
def Dev.writeHalf (d : Dev) (m : Nat) (r : RegAt) (data : Word) : Dev :=
  let act (d : Dev) : Dev := if r.high then d.commitHigh m r data else d.stageLow m r.off data
  if r.row = F.IMG_WALK_START.off then d.mirroredWrite m (if r.high then r.off + 4 else r.off) data.toNat act
  else if 0xA000000 ≤ r.row ∧ r.row < 0xC000000 then d.localWrite m (if r.high then r.off + 4 else r.off) act
  else act d

/-! ### The broadcast window (R26, R153) -/

/-- A write of the broadcast window at every powered pier in the same cycle. A high half of PIR_TCAM_RES without a staged low half keeps
the low half of each pier's shadow (R8). -/
def Dev.broadcast (d : Dev) (m : Nat) (r : RegAt) (o : Nat) (data : Word) : Dev :=
  if r.wide then
    let base := 0x9800000 + o - (if r.high then 4 else 0)
    if r.high then
      if r.row = F.PIR_TCAM_RES.off then
        (d.unstage m base).eachPier fun p e =>
          e.shadowWrite p fun x => { x with res := BitVec.ofNat 64 (d.stagedLow m base x.res.toNat + (data.toNat <<< 32)) }
      else d
    else d.stageLow m base data
  else d.eachPier fun p d => d.writePier m p r data

/-- A write at offset `o` of the broadcast window: mirrored as configuration (R342), or ignored on a standby all the same (R343). -/
def Dev.broadcastWrite (d : Dev) (m o : Nat) (data : Word) : Dev :=
  match regAt (0x8000000 + o) with
  | none => d.post Ev.GLB_UNMAPPED_ACCESS [(24, 1, m), (25, 1, 1), (28, 4, 0x9800000 + o)]
  | some r =>
    if broadcastOnly r.row then d.mirroredWrite m (0x9800000 + o) data.toNat fun d => d.broadcast m r o data
    else d.localWrite m (0x9800000 + o) fun d => d.broadcast m r o data

end Sys2Proof.Machine
end

