-- ==== Sys2Proof/Machine/Bus.lean ====
section
/-! DEFINITION. Register accesses as commands (R8, R10, R26, R27), the timed actions that fire (R52) and the mirror records that apply
(R342): a fired action and a mirrored write act as accesses of their own. -/

namespace Sys2Proof.Machine

/-! ### Reads (R8, R10, R27) -/

/-- The register that an access names: one of the broadcast window stands for that of the lowest powered pier. -/
def Dev.accessed (d : Dev) (off : Nat) : Option RegAt :=
  if 0x9800000 ≤ off ∧ off < 0x9900000 then
    match (List.range 17).find? d.pierPowered with
    | some p => regAt (0x8000000 + 0x100000 * p + (off - 0x9800000))
    | none => none
  else regAt off

/-- Is the offset outside every window, or unassigned in its window (R27)? The broadcast window has a pier's registers. -/
def unmapped (off : Nat) : Bool :=
  (regAt (if 0x9800000 ≤ off ∧ off < 0x9900000 then 0x8000000 + (off - 0x9800000) else off)).isNone

/-- An access to an unassigned offset is reported (R27). -/
def Dev.postUnmapped (d : Dev) (m off dir : Nat) : Dev :=
  d.post Ev.GLB_UNMAPPED_ACCESS [(24, 1, m), (25, 1, dir), (28, 4, off)]

/-- Does the offset lie inside one of the block windows of R25, the broadcast window among them? -/
def inWindow (off : Nat) : Bool :=
  off < 0x4800000 || (0x8000000 ≤ off && off < 0x9100000) || (0x9800000 ≤ off && off < 0x9900000) ||
  (0xA000000 ≤ off && off < 0x18000000)

/-- An access to an unassigned offset answers where its window does, and always outside every window (R27, R421). -/
def Dev.answersAt (d : Dev) (off : Nat) : Bool := d.windowAnswers off || !inWindow off

/-- What a read of a register clears (R10): its RC fields; reading the low half of QUE_SJ_SUM moves the count to QUE_SJ_CNT. -/
def Dev.readClears (d : Dev) (r : RegAt) : Dev :=
  let q := d.rd F.QUE_Q_SEL_QUEUE
  if r.row = F.QUE_SJ_MAX.off then d.wr (F.QUE_SJ_MAX.item q) 0
  else if r.row = F.QUE_SJ_SUM.off then
    let d1 := d.wr (F.QUE_SJ_CNT.item q) (d.que.sojourn.get (fun _ => (0, 0)) q).2
    { d1 with que := { d1.que with sojourn := d1.que.sojourn.set (fun _ => (0, 0)) q (0, 0) } }
  else if r.row = F.PWR_RAIL.off then
    ({ d with pwr := { d.pwr with railSeen := d.pwr.railSeen.set (fun _ => false) r.idx false } }).wr (F.PWR_RAIL_MIN_MV.ix r.idx) 0
  else if r.row = F.PWR_TEMP.off then { d with pwr := { d.pwr with tempMax := d.pwr.tempMax.set (fun _ => none) r.idx none } }
  else d

/-- A read of the high half: the half that the master's last low read latched, or the current one; no side effect (R8). -/
def Dev.readHigh (d : Dev) (m : Nat) (r : RegAt) : Dev :=
  match d.latches.get (fun _ => none) (halfKey m r.off) with
  | some w => d.answer w.toNat
  | none => d.answer (d.view m r >>> 32)

/-- The low read of a 64-bit register latches its high half for the reading master (R8). -/
def Dev.latchHigh (d : Dev) (m : Nat) (r : RegAt) (v : Nat) : Dev :=
  if r.wide then { d with latches := d.latches.set (fun _ => none) (halfKey m r.off) (some (BitVec.ofNat 32 (v >>> 32))) } else d

/-- The 32-bit words that a low read latches beside the register's own high half: TIM_PHC_NS and TIM_PHC_SUBNS with TIM_PHC_SEC (TIM
registers), and the port's LPT_TXTS_NS with LPT_TXTS_SEC, which latches the head entry (R114). -/
def RegAt.group (r : RegAt) : List Nat :=
  if r.row = F.TIM_PHC_SEC.off then [F.TIM_PHC_NS.off, F.TIM_PHC_SUBNS.off]
  else if r.row = F.LPT_TXTS_SEC.off then [r.off + (F.LPT_TXTS_NS.off - F.LPT_TXTS_SEC.off)]
  else []

/-- A low read latches the other words of the register's group for the reading master (TIM registers, R114). -/
def Dev.latchGroup (d : Dev) (m : Nat) (r : RegAt) : Dev :=
  d.each r.group fun off d =>
    match d.accessed off with
    | some g => { d with latches := d.latches.set (fun _ => none) (halfKey m off) (some (BitVec.ofNat 32 (d.view m g))) }
    | none => d

/-- What a low read shows: for a word that a group read latched for the reading master, the latched word, and otherwise the current
one. VALID and TXTS_OVF of LPT_TXTS_NS are always the current ones: they are no part of the entry. -/
def Dev.groupWord (d : Dev) (m : Nat) (r : RegAt) (v : Nat) : Nat :=
  if r.wide then v
  else if r.row = F.TIM_PHC_NS.off ∨ r.row = F.TIM_PHC_SUBNS.off then
    match d.latches.get (fun _ => none) (halfKey m r.off) with
    | some w => w.toNat
    | none => v
  else if r.row = F.LPT_TXTS_NS.off then
    match d.latches.get (fun _ => none) (halfKey m r.off) with
    | some w => v >>> 30 <<< 30 + w.toNat % 2 ^ 30
    | none => v
  else v

/-- A read of a register's low half or of a 32-bit register. DESIGN CHOICE (35): R376 names no reader of the write-only CTL_MBX_POST and
CTL_MBX_ACK; the sender reads POST and the receiver ACK, as 0. -/
def Dev.readLow (d : Dev) (m : Nat) (r : RegAt) : Dev :=
  let n := r.idx
  if r.row = F.CTL_MBX_DATA.off then mbxDataRead m n (r.off % 0x80 / 4) d
  else if r.row = F.CTL_MBX_TXSTAT.off then mbxTxstatRead m n d
  else if r.row = F.CTL_MBX_RXSTAT.off then mbxRxstatRead m n d
  else if r.row = F.CTL_MBX_POST.off then d.mbxAccess n m 0x40 true false false (·.answer 0)
  else if r.row = F.CTL_MBX_ACK.off then d.mbxAccess n m 0x4C false true false (·.answer 0)
  else if r.row = F.CTL_LOCK.off then lockRead [m] n d
  else if r.row = F.BUF_ALLOC.off then bufAllocRead m n d
  else
    let v := d.groupWord m r (d.view m r)
    (((d.readClears r).latchGroup m r).latchHigh m r v).answer v

/-- A read by master `m` at a BAR0 offset. With no powered pier a read of the broadcast window returns a free value. -/
def Dev.busRead (d : Dev) (m off : Nat) : Dev :=
  if d.reaches m off = false ∨ d.answersAt off = false then d.answer 0
  else if unmapped off then (d.answer 0).postUnmapped m off 0
  else match d.accessed off with
    | some r => if r.high then d.readHigh m r else d.readLow m r
    | none => d.takeFree.2.answer d.takeFree.1

/-! ### Writes (R8, R10, R11, R26, R27) -/

/-- A write by master `m` at a BAR0 offset. DESIGN CHOICE (log entry 11): a causeway direction that has stopped (R449) changes nothing of
how an access to a block of the other die ends. -/
def Dev.busWrite (d0 : Dev) (m off : Nat) (data : Word) : Dev :=
  let d := d0.noAbort
  if d.reaches m off = false ∨ d.answersAt off = false then d
  else if unmapped off then d.postUnmapped m off 1
  else if d.writes m off = false then d
  else if 0x9800000 ≤ off ∧ off < 0x9900000 then d.broadcastWrite m (off - 0x9800000) data
  else match regAt off with
    | none => d
    | some r => if r.wide then d.writeHalf m r data else d.write32 m r data

/-- Does the offset name the low or the high half of a 64-bit register? -/
def halfAt (off : Nat) (high : Bool) : Bool :=
  match regAt (if 0x9800000 ≤ off ∧ off < 0x9900000 then 0x8000000 + (off - 0x9800000) else off) with
  | some r => r.wide && r.high == high
  | none => false

/-- UNMAPPED_ACCESS. -/
def unmappedAccess (m off : Nat) (isWrite : Bool) (d : Dev) : Dev :=
  if unmapped off then (if isWrite then d.busWrite m off 0 else d.busRead m off) else d

/-! ### Timed actions (R48, R49, R52, R53) -/

/-- The armed entry of another type than 1 that is due now, the lowest index first. -/
def Dev.dueEntry (d : Dev) : Option Nat :=
  (d.tim.entries.find? fun e => e.2.state == .armed && e.2.type != 1 && e.2.span == d.tim.span).map (·.1)

/-- The refusal events of the target blocks of register writes (R52). -/
def refusalEvent (code : Nat) : Bool :=
  [Ev.IMG_LOAD_REFUSED, Ev.IMG_WALK_REFUSED, Ev.LPT_CFG_REFUSED, Ev.PIR_TCAM_REFUSED, Ev.TBL_SNAP_REFUSED, Ev.TBL_TAE_REFUSED,
    Ev.BUF_FREE_REJECT, Ev.BUF_CFG_REFUSED, Ev.QUE_MOVE_REFUSED, Ev.QUE_CFG_REFUSED, Ev.SHP_SWITCH_REFUSED, Ev.SHP_CFG_REFUSED,
    Ev.DCK_CFG_REFUSED, Ev.TWN_CMD_REFUSED, Ev.CTL_BIND_REFUSED, Ev.CTL_MBX_DENIED, Ev.CTL_MBX_PWR_OFF,
    Ev.CTL_LOCK_BAD_RELEASE, Ev.HST_CFG_REFUSED, Ev.DGN_CMD_REFUSED].any fun e => e.code == code

/-- The master of a firing action: 1, or 8 on a device in M5 or M6 (R49). -/
def Dev.actionMaster (d : Dev) : Nat := if d.mode = .m5 ∨ d.mode = .m6 then 8 else 1

/-- A write of a firing action: it is not mirrored (R49). Did its target do it? -/
def Dev.actionWrite (d : Dev) (op : BitVec 64) : Bool × Dev :=
  let d1 := ({ d with twn := { d.twn with quiet := true } }).busWrite d.actionMaster (taOffset op) (BitVec.ofNat 32 (bits op 63 32))
  (!(d1.posted.drop d.posted.length).any (fun e => refusalEvent e.code), { d1 with twn := { d1.twn with quiet := d.twn.quiet } })

/-- The action of entry `i`: was it performed, or refused by its target (R48, R52)? -/
def Dev.action (d : Dev) (i : Nat) (e : TaEntry) : Bool × Dev :=
  let op := e.operand
  match e.type with
  | 2 => let x := d.snapFire (bits op 15 0); (!x.1, x.2)
  | 3 => let x := d.timedSwitch (bits op 15 0) d.actionMaster; (x.1, x.2.settle)
  | 4 => d.walkFire (bits op 3 0) (bits op 12 8)
  | 5 => d.actionWrite op
  | 6 => (true, d.post Ev.TIM_MARK [(24, 1, i), (32, 8, op.toNat)])
  | _ => (true, d)

/-- Entry `i` fires: it performs its action and goes to DONE with its result; a refusal also posts TIM_TA_RESULT. -/
def Dev.fireEntry (d : Dev) (i : Nat) : Dev :=
  let e := d.entryAt i
  let x := d.action i e
  let d1 := x.2.setEntry i { x.2.entryAt i with state := .done, result := if x.1 then 0 else 1 }
  if x.1 then d1 else d1.post Ev.TIM_TA_RESULT [(24, 1, i), (25, 1, e.type), (32, 6, e.span)]

/-- TIMED_ACTION_FIRE: the next entry due fires; keystones come first. -/
def timedActionFire (d : Dev) : Dev :=
  match d.taFires && d.dueKeystone.isNone, d.dueEntry with
  | true, some i => d.fireEntry i
  | _, _ => d

/-! ### Mirror records (R341 to R344) -/

/-- Is the record due: on receipt, or at its span A? -/
def Dev.recordDue (d : Dev) (r : MirrorRec) : Bool := r.onReceipt || spanReached r.apply d.tim.span

/-- A record applies, as a change of master 8. A record that the active itself kept for its span A carries an entry's value. -/
def Dev.applyRecord (d : Dev) (r : MirrorRec) : Dev :=
  let b := r.body
  match r.kind with
  | 1 => d.applyRequest (BitVec.ofNat 2048 (leNat b))
  | 2 => if r.seq = ownSeq then d.dckApply b else d.busWrite 8 (leNat (bytesAt b 0 4)) (BitVec.ofNat 32 (leNat (bytesAt b 4 4)))
  | 3 =>
    let x := d.armEntry 8 (leNat (bytesAt b 0 1)) (leNat (bytesAt b 2 6)) (leNat (bytesAt b 1 1)) (BitVec.ofNat 64 (leNat (bytesAt b 8 8)))
    if x.1 then x.2 else x.2.mirrorCause 2 r.seq r.apply
  | 4 => (d.cancelEntry 8 (leNat (bytesAt b 0 1))).2
  | 5 => d.applyEntryRecord b
  | 6 => d.applyEntryRecord b
  | _ => d

/-- The first record that is due, and the others. -/
def Dev.takeDue (d : Dev) : List MirrorRec → Option (MirrorRec × List MirrorRec)
  | [] => none
  | r :: t =>
    if d.recordDue r then some (r, t)
    else match d.takeDue t with
      | some (x, rest) => some (x, r :: rest)
      | none => none

/-- MIRROR_RECORD_APPLY. -/
def mirrorRecordApply (d : Dev) : Dev :=
  match d.takeDue d.twn.records with
  | none => d
  | some (r, rest) => ({ d with twn := { d.twn with records := rest } }).applyRecord r

/-! ### The commands -/

/-- REGISTER_WRITE. -/
def execRegisterWrite (m : Master) (off : Offset) (data : Word) (s : State) : Host.Outcome State Fault Refusal :=
  .next { s with dev := s.dev.busWrite m.val off.toNat data }
/-- REG64_LOW_READ. -/
def execReg64LowRead (m : Master) (off : Offset) (s : State) : Host.Outcome State Fault Refusal :=
  .next { s with dev := s.dev.when (halfAt off.toNat false) (·.busRead m.val off.toNat) }
/-- REG64_LOW_WRITE. -/
def execReg64LowWrite (m : Master) (off : Offset) (data : Word) (s : State) : Host.Outcome State Fault Refusal :=
  .next { s with dev := s.dev.when (halfAt off.toNat false) (·.busWrite m.val off.toNat data) }
/-- REG64_HIGH_WRITE. -/
def execReg64HighWrite (m : Master) (off : Offset) (data : Word) (s : State) : Host.Outcome State Fault Refusal :=
  .next { s with dev := s.dev.when (halfAt off.toNat true) (·.busWrite m.val off.toNat data) }
/-- RC_READ: the command is any read of a register. -/
def execRcRead (m : Master) (off : Offset) (s : State) : Host.Outcome State Fault Refusal :=
  .next { s with dev := s.dev.busRead m.val off.toNat }
/-- UNMAPPED_ACCESS. -/
def execUnmappedAccess (m : Master) (off : Offset) (isWrite : Bool) (s : State) : Host.Outcome State Fault Refusal :=
  .next { s with dev := unmappedAccess m.val off.toNat isWrite s.dev }
/-- BROADCAST_WRITE. -/
def execBroadcastWrite (m : Master) (off : BitVec 20) (data : Word) (s : State) : Host.Outcome State Fault Refusal :=
  .next { s with dev := s.dev.busWrite m.val (0x9800000 + off.toNat) data }
/-- TIMED_ACTION_FIRE. -/
def execTimedActionFire (s : State) : Host.Outcome State Fault Refusal := .next { s with dev := timedActionFire s.dev }
/-- MIRROR_RECORD_APPLY. -/
def execMirrorRecordApply (s : State) : Host.Outcome State Fault Refusal := .next { s with dev := mirrorRecordApply s.dev }

end Sys2Proof.Machine
end

