-- ==== Sys2Proof/Machine/Dispatch.lean ====
section
/-! DEFINITION. One arm for each command: a direct call of its meaning. -/

namespace Sys2Proof.Machine

/-- The effect of a command on everything but the queue. -/
def exec (i : Instr) (s : State) : Host.Outcome State Fault Refusal :=
  match i with
  | .porstNAssert lowNs => Sys2Proof.Machine.execPorstNAssert lowNs s
  | .sysrstNAssert lowNs => Sys2Proof.Machine.execSysrstNAssert lowNs s
  | .perstNAssert lowNs => Sys2Proof.Machine.execPerstNAssert lowNs s
  | .functionLevelReset pf => Sys2Proof.Machine.execFunctionLevelReset pf s
  | .resetRelease straps testEn mvs => Sys2Proof.Machine.execResetRelease straps testEn mvs s
  | .testEnRelease straps mvs => Sys2Proof.Machine.execTestEnRelease straps mvs s
  | .registerWrite m off data => Sys2Proof.Machine.execRegisterWrite m off data s
  | .reg64LowRead m off => Sys2Proof.Machine.execReg64LowRead m off s
  | .reg64LowWrite m off data => Sys2Proof.Machine.execReg64LowWrite m off data s
  | .reg64HighWrite m off data => Sys2Proof.Machine.execReg64HighWrite m off data s
  | .rcRead m off => Sys2Proof.Machine.execRcRead m off s
  | .unmappedAccess m off isWrite => Sys2Proof.Machine.execUnmappedAccess m off isWrite s
  | .broadcastWrite m off data => Sys2Proof.Machine.execBroadcastWrite m off data s
  | .glbLockSet m => Sys2Proof.Machine.execGlbLockSet m s
  | .maintReq m alsoFwd => Sys2Proof.Machine.execMaintReq m alsoFwd s
  | .fwdEn m => Sys2Proof.Machine.execFwdEn m s
  | .srcSelect m src => Sys2Proof.Machine.execSrcSelect m src s
  | .spanDisagree link => Sys2Proof.Machine.execSpanDisagree link s
  | .fabricRelock => Sys2Proof.Machine.execFabricRelock s
  | .ppsEdge errNs => Sys2Proof.Machine.execPpsEdge errNs s
  | .spanSyncMarker slot => Sys2Proof.Machine.execSpanSyncMarker slot s
  | .syncLoadArm m => Sys2Proof.Machine.execSyncLoadArm m s
  | .todMessageRx afterPpsMs bytes => Sys2Proof.Machine.execTodMessageRx afterPpsMs bytes s
  | .taStageWrite m which value => Sys2Proof.Machine.execTaStageWrite m which value s
  | .taArm m => Sys2Proof.Machine.execTaArm m s
  | .taCancel m => Sys2Proof.Machine.execTaCancel m s
  | .imgLoadStart m target => Sys2Proof.Machine.execImgLoadStart m target s
  | .imgLoadAbort m => Sys2Proof.Machine.execImgLoadAbort m s
  | .imgLoadEnd dma tamper => Sys2Proof.Machine.execImgLoadEnd dma tamper s
  | .walkStart m => Sys2Proof.Machine.execWalkStart m s
  | .walkAbandon m => Sys2Proof.Machine.execWalkAbandon m s
  | .walkResume m => Sys2Proof.Machine.execWalkResume m s
  | .walkStepTimeout newPierFailed => Sys2Proof.Machine.execWalkStepTimeout newPierFailed s
  | .pierReloadDone pier crcOk => Sys2Proof.Machine.execPierReloadDone pier crcOk s
  | .pierFault pier kind pipe stage badSs badMeters => Sys2Proof.Machine.execPierFault pier kind pipe stage badSs badMeters s
  | .strokeTimeout pier pipe stage => Sys2Proof.Machine.execStrokeTimeout pier pipe stage s
  | .pierRetireCmd m pier => Sys2Proof.Machine.execPierRetireCmd m pier s
  | .pierRestoreCmd m pier => Sys2Proof.Machine.execPierRestoreCmd m pier s
  | .laneMapWrite m port tx data => Sys2Proof.Machine.execLaneMapWrite m port tx data s
  | .frameReceive port bytes tick => Sys2Proof.Machine.execFrameReceive port bytes tick s
  | .macControlFrameRx port ctl => Sys2Proof.Machine.execMacControlFrameRx port ctl s
  | .pauseExpiry port cls => Sys2Proof.Machine.execPauseExpiry port cls s
  | .pfcRefresh port cls => Sys2Proof.Machine.execPfcRefresh port cls s
  | .pfcWatchdog port cls => Sys2Proof.Machine.execPfcWatchdog port cls s
  | .msecSaInstall m port => Sys2Proof.Machine.execMsecSaInstall m port s
  | .msecSaRetire m port => Sys2Proof.Machine.execMsecSaRetire m port s
  | .txtsPop m port => Sys2Proof.Machine.execTxtsPop m port s
  | .lptCntClr m port => Sys2Proof.Machine.execLptCntClr m port s
  | .gclCommit m port => Sys2Proof.Machine.execGclCommit m port s
  | .gclStart port => Sys2Proof.Machine.execGclStart port s
  | .gateEntryAdvance port => Sys2Proof.Machine.execGateEntryAdvance port s
  | .preemptVerifyExchange port ok => Sys2Proof.Machine.execPreemptVerifyExchange port ok s
  | .adminUpWrite m port up => Sys2Proof.Machine.execAdminUpWrite m port up s
  | .portLinkDown port => Sys2Proof.Machine.execPortLinkDown port s
  | .portLinkUp port => Sys2Proof.Machine.execPortLinkUp port s
  | .fecInterval port corrected uncorrectable => Sys2Proof.Machine.execFecInterval port corrected uncorrectable s
  | .ingressStroke pier => Sys2Proof.Machine.execIngressStroke pier s
  | .secondStroke pier => Sys2Proof.Machine.execSecondStroke pier s
  | .egressStroke pier => Sys2Proof.Machine.execEgressStroke pier s
  | .tcamCommitRequest m data => Sys2Proof.Machine.execTcamCommitRequest m data s
  | .tcamCommit pier => Sys2Proof.Machine.execTcamCommit pier s
  | .pirCntClr m pier => Sys2Proof.Machine.execPirCntClr m pier s
  | .taeSubmit m slot request => Sys2Proof.Machine.execTaeSubmit m slot request s
  | .bulk dma => Sys2Proof.Machine.execBulk dma s
  | .entryWindowRead m off => Sys2Proof.Machine.execEntryWindowRead m off s
  | .entryWindowWrite m off data => Sys2Proof.Machine.execEntryWindowWrite m off data s
  | .snapshotCopyDone ok copied => Sys2Proof.Machine.execSnapshotCopyDone ok copied s
  | .rehashOpen m table => Sys2Proof.Machine.execRehashOpen m table s
  | .rehashCommit m table => Sys2Proof.Machine.execRehashCommit m table s
  | .rehashAbort m table => Sys2Proof.Machine.execRehashAbort m table s
  | .openPageTimeout req pool => Sys2Proof.Machine.execOpenPageTimeout req pool s
  | .bufAllocRead m pool => Sys2Proof.Machine.execBufAllocRead m pool s
  | .bufFreeAddr m high => Sys2Proof.Machine.execBufFreeAddr m high s
  | .bufFreeHandle m handle => Sys2Proof.Machine.execBufFreeHandle m handle s
  | .prefetch farErr => Sys2Proof.Machine.execPrefetch farErr s
  | .cxlLinkTrained port width rate pages supported => Sys2Proof.Machine.execCxlLinkTrained port width rate pages supported s
  | .cxlTrainTimeout port => Sys2Proof.Machine.execCxlTrainTimeout port s
  | .cxlTrainRetry port => Sys2Proof.Machine.execCxlTrainRetry port s
  | .cxlEnable m port => Sys2Proof.Machine.execCxlEnable m port s
  | .cxlDrain m port => Sys2Proof.Machine.execCxlDrain m port s
  | .cxlDrainComplete port => Sys2Proof.Machine.execCxlDrainComplete port s
  | .cxlDisable m port => Sys2Proof.Machine.execCxlDisable m port s
  | .cxlLinkFail port surprise => Sys2Proof.Machine.execCxlLinkFail port surprise s
  | .cxlLinkRetrained port => Sys2Proof.Machine.execCxlLinkRetrained port s
  | .quePortCfgWrite m port data => Sys2Proof.Machine.execQuePortCfgWrite m port data s
  | .nodePortWrite m data => Sys2Proof.Machine.execNodePortWrite m data s
  | .queAttach m => Sys2Proof.Machine.execQueAttach m s
  | .queSwap m => Sys2Proof.Machine.execQueSwap m s
  | .queDetach m => Sys2Proof.Machine.execQueDetach m s
  | .schedulerSelection octet descriptor farErr disabled => Sys2Proof.Machine.execSchedulerSelection octet descriptor farErr disabled s
  | .flushQueue m => Sys2Proof.Machine.execFlushQueue m s
  | .flushPort m port => Sys2Proof.Machine.execFlushPort m port s
  | .flushAllVoqs m => Sys2Proof.Machine.execFlushAllVoqs m s
  | .histRebind m data => Sys2Proof.Machine.execHistRebind m data s
  | .histClear m data => Sys2Proof.Machine.execHistClear m data s
  | .elemBind m data => Sys2Proof.Machine.execElemBind m data s
  | .setSwitchWrite m data => Sys2Proof.Machine.execSetSwitchWrite m data s
  | .fabLaneLock lane => Sys2Proof.Machine.execFabLaneLock lane s
  | .fabLaneLockLoss lane => Sys2Proof.Machine.execFabLaneLockLoss lane s
  | .fabricLinkUp link => Sys2Proof.Machine.execFabricLinkUp link s
  | .fabricLinkDown link cause => Sys2Proof.Machine.execFabricLinkDown link cause s
  | .fabEnableWrite m en => Sys2Proof.Machine.execFabEnableWrite m en s
  | .fabRestart m => Sys2Proof.Machine.execFabRestart m s
  | .controlDownRx lane fate cell => Sys2Proof.Machine.execControlDownRx lane fate cell s
  | .cellSend slot => Sys2Proof.Machine.execCellSend slot s
  | .dataCellRx lane slot fate cell => Sys2Proof.Machine.execDataCellRx lane slot fate cell s
  | .reasmTimeout node tc => Sys2Proof.Machine.execReasmTimeout node tc s
  | .reasmStale node tc => Sys2Proof.Machine.execReasmStale node tc s
  | .takeoverRequest m => Sys2Proof.Machine.execTakeoverRequest m s
  | .mcGroupWrite m data => Sys2Proof.Machine.execMcGroupWrite m data s
  | .clEntryWrite m high => Sys2Proof.Machine.execClEntryWrite m high s
  | .mcCounterClr m => Sys2Proof.Machine.execMcCounterClr m s
  | .twinEnable m en => Sys2Proof.Machine.execTwinEnable m en s
  | .ralinLaneLock lane markers => Sys2Proof.Machine.execRalinLaneLock lane markers s
  | .ralinLaneLockLoss lane first markers => Sys2Proof.Machine.execRalinLaneLockLoss lane first markers s
  | .heartbeatRx frame => Sys2Proof.Machine.execHeartbeatRx frame s
  | .mirrorFrameRx frame => Sys2Proof.Machine.execMirrorFrameRx frame s
  | .mirrorFailure cause => Sys2Proof.Machine.execMirrorFailure cause s
  | .digestWindowClose port => Sys2Proof.Machine.execDigestWindowClose port s
  | .digestRx frame => Sys2Proof.Machine.execDigestRx frame s
  | .digestCompareTimeout port => Sys2Proof.Machine.execDigestCompareTimeout port s
  | .realignRx frame => Sys2Proof.Machine.execRealignRx frame s
  | .verdictRx frame => Sys2Proof.Machine.execVerdictRx frame s
  | .evidenceExpiry bit => Sys2Proof.Machine.execEvidenceExpiry bit s
  | .twnDemote m => Sys2Proof.Machine.execTwnDemote m s
  | .twnResync m => Sys2Proof.Machine.execTwnResync m s
  | .twnForcePromote m => Sys2Proof.Machine.execTwnForcePromote m s
  | .twnRelease m => Sys2Proof.Machine.execTwnRelease m s
  | .twnReactivate m => Sys2Proof.Machine.execTwnReactivate m s
  | .resyncCtrlRx frame => Sys2Proof.Machine.execResyncCtrlRx frame s
  | .manifestRx frame => Sys2Proof.Machine.execManifestRx frame s
  | .segmentRx frame => Sys2Proof.Machine.execSegmentRx frame s
  | .copyAbort cause => Sys2Proof.Machine.execCopyAbort cause s
  | .lockstepMismatch pair => Sys2Proof.Machine.execLockstepMismatch pair s
  | .pairRestart pair => Sys2Proof.Machine.execPairRestart pair s
  | .pairCheckpoint pair => Sys2Proof.Machine.execPairCheckpoint pair s
  | .serviceRequest server channel => Sys2Proof.Machine.execServiceRequest server channel s
  | .mbxBindWrite m ch data => Sys2Proof.Machine.execMbxBindWrite m ch data s
  | .bindLockSet m => Sys2Proof.Machine.execBindLockSet m s
  | .mbxDataWrite m ch w data => Sys2Proof.Machine.execMbxDataWrite m ch w data s
  | .mbxPost m ch data => Sys2Proof.Machine.execMbxPost m ch data s
  | .mbxRxstatRead m ch => Sys2Proof.Machine.execMbxRxstatRead m ch s
  | .mbxAck m ch data => Sys2Proof.Machine.execMbxAck m ch data s
  | .bellClear m target data => Sys2Proof.Machine.execBellClear m target data s
  | .bellMaskWrite m target data => Sys2Proof.Machine.execBellMaskWrite m target data s
  | .lockRead readers lock => Sys2Proof.Machine.execLockRead readers lock s
  | .lockWrite m lock data => Sys2Proof.Machine.execLockWrite m lock data s
  | .pcieLinkUp width rate => Sys2Proof.Machine.execPcieLinkUp width rate s
  | .pqTailWrite m queue tail => Sys2Proof.Machine.execPqTailWrite m queue tail s
  | .iqTailWrite m queue tail => Sys2Proof.Machine.execIqTailWrite m queue tail s
  | .injectFetch queue descriptor packet => Sys2Proof.Machine.execInjectFetch queue descriptor packet s
  | .queueEnableWrite m inject queue data => Sys2Proof.Machine.execQueueEnableWrite m inject queue data s
  | .evrEnableWrite m ring data => Sys2Proof.Machine.execEvrEnableWrite m ring data s
  | .eventPost traced => Sys2Proof.Machine.execEventPost traced s
  | .evrDmaError ring => Sys2Proof.Machine.execEvrDmaError ring s
  | .evrInterrupt ring => Sys2Proof.Machine.execEvrInterrupt ring s
  | .entdaa address => Sys2Proof.Machine.execEntdaa address s
  | .i3cPrivateWrite bytes => Sys2Proof.Machine.execI3cPrivateWrite bytes s
  | .i3cPrivateRead count => Sys2Proof.Machine.execI3cPrivateRead count s
  | .domainSwitch domain => Sys2Proof.Machine.execDomainSwitch domain s
  | .railOor monitor => Sys2Proof.Machine.execRailOor monitor s
  | .regulatorPoll reports => Sys2Proof.Machine.execRegulatorPoll reports s
  | .pierClockChange pier => Sys2Proof.Machine.execPierClockChange pier s
  | .tempReading eighths => Sys2Proof.Machine.execTempReading eighths s
  | .bootComplete tamperLow readError => Sys2Proof.Machine.execBootComplete tamperLow readError s
  | .fuseAdvance m => Sys2Proof.Machine.execFuseAdvance m s
  | .fuseRevoke m slot => Sys2Proof.Machine.execFuseRevoke m slot s
  | .fuseJtagLock m => Sys2Proof.Machine.execFuseJtagLock m s
  | .attestStart m => Sys2Proof.Machine.execAttestStart m s
  | .flashRead m => Sys2Proof.Machine.execFlashRead m s
  | .flashErase m => Sys2Proof.Machine.execFlashErase m s
  | .flashProgram m => Sys2Proof.Machine.execFlashProgram m s
  | .flashOpDone dma => Sys2Proof.Machine.execFlashOpDone dma s
  | .secSysReset m => Sys2Proof.Machine.execSecSysReset m s
  | .cuArm m unit data => Sys2Proof.Machine.execCuArm m unit data s
  | .cuStreamEnd unit bytes complete => Sys2Proof.Machine.execCuStreamEnd unit bytes complete s
  | .patrolRead error => Sys2Proof.Machine.execPatrolRead error s
  | .bistStart m data => Sys2Proof.Machine.execBistStart m data s
  | .bistDone pass => Sys2Proof.Machine.execBistDone pass s
  | .recalStart m data => Sys2Proof.Machine.execRecalStart m data s
  | .causewayError fromFe kind => Sys2Proof.Machine.execCausewayError fromFe kind s
  | .cwTestEnable m data => Sys2Proof.Machine.execCwTestEnable m data s
  | .maintTestStart m data => Sys2Proof.Machine.execMaintTestStart m data s
  | .maintTestDone pass => Sys2Proof.Machine.execMaintTestDone pass s
  | .frameTransmit port tick => Sys2Proof.Machine.execFrameTransmit port tick s
  | .railReading millivolts => Sys2Proof.Machine.execRailReading millivolts s
  | .lineFaultChange port cause present => Sys2Proof.Machine.execLineFaultChange port cause present s
  | .m10EntryComplete => Sys2Proof.Machine.execM10EntryComplete s
  | .spanStart => Sys2Proof.Machine.execSpanStart s
  | .fabricTimeLoss => Sys2Proof.Machine.execFabricTimeLoss s
  | .pllLock => Sys2Proof.Machine.execPllLock s
  | .pllLockLoss => Sys2Proof.Machine.execPllLockLoss s
  | .ppsEdgesMissing => Sys2Proof.Machine.execPpsEdgesMissing s
  | .spanSyncMarkersMissing => Sys2Proof.Machine.execSpanSyncMarkersMissing s
  | .spanSyncOutMarker => Sys2Proof.Machine.execSpanSyncOutMarker s
  | .phcSecond => Sys2Proof.Machine.execPhcSecond s
  | .todMessageTx => Sys2Proof.Machine.execTodMessageTx s
  | .todBaseUpdate => Sys2Proof.Machine.execTodBaseUpdate s
  | .keystoneFire => Sys2Proof.Machine.execKeystoneFire s
  | .timedActionFire => Sys2Proof.Machine.execTimedActionFire s
  | .drainLimitReached => Sys2Proof.Machine.execDrainLimitReached s
  | .expirySweepComplete => Sys2Proof.Machine.execExpirySweepComplete s
  | .walkStepCommit => Sys2Proof.Machine.execWalkStepCommit s
  | .readKey => Sys2Proof.Machine.execReadKey s
  | .insert => Sys2Proof.Machine.execInsert s
  | .delete => Sys2Proof.Machine.execDelete s
  | .readIndex => Sys2Proof.Machine.execReadIndex s
  | .writeIndex => Sys2Proof.Machine.execWriteIndex s
  | .lpmInsert => Sys2Proof.Machine.execLpmInsert s
  | .lpmDelete => Sys2Proof.Machine.execLpmDelete s
  | .lpmRead => Sys2Proof.Machine.execLpmRead s
  | .retire => Sys2Proof.Machine.execRetire s
  | .learnApply => Sys2Proof.Machine.execLearnApply s
  | .rehashCopy => Sys2Proof.Machine.execRehashCopy s
  | .ageingSweep => Sys2Proof.Machine.execAgeingSweep s
  | .retireRelease => Sys2Proof.Machine.execRetireRelease s
  | .enqueue more => Sys2Proof.Machine.execEnqueue more s
  | .flushProgress => Sys2Proof.Machine.execFlushProgress s
  | .tokenRefresh => Sys2Proof.Machine.execTokenRefresh s
  | .setSwitch => Sys2Proof.Machine.execSetSwitch s
  | .controlUpSend => Sys2Proof.Machine.execControlUpSend s
  | .cellStaging => Sys2Proof.Machine.execCellStaging s
  | .deckSlot => Sys2Proof.Machine.execDeckSlot s
  | .replicationCopy => Sys2Proof.Machine.execReplicationCopy s
  | .heartbeatSend => Sys2Proof.Machine.execHeartbeatSend s
  | .heartbeatLoss => Sys2Proof.Machine.execHeartbeatLoss s
  | .mirrorRetransmit => Sys2Proof.Machine.execMirrorRetransmit s
  | .mirrorRecordApply => Sys2Proof.Machine.execMirrorRecordApply s
  | .verdictEvidenceTimeout => Sys2Proof.Machine.execVerdictEvidenceTimeout s
  | .verdictWaitTimeout => Sys2Proof.Machine.execVerdictWaitTimeout s
  | .takeoverTimeout => Sys2Proof.Machine.execTakeoverTimeout s
  | .twinIsolation => Sys2Proof.Machine.execTwinIsolation s
  | .resyncRequestSend => Sys2Proof.Machine.execResyncRequestSend s
  | .segmentSend => Sys2Proof.Machine.execSegmentSend s
  | .settleComplete => Sys2Proof.Machine.execSettleComplete s
  | .pcieLinkDown => Sys2Proof.Machine.execPcieLinkDown s
  | .eventWrite => Sys2Proof.Machine.execEventWrite s
  | .blotterInterval => Sys2Proof.Machine.execBlotterInterval s
  | .telemetryExport => Sys2Proof.Machine.execTelemetryExport s
  | .rstdaa => Sys2Proof.Machine.execRstdaa s
  | .railBelowWarning => Sys2Proof.Machine.execRailBelowWarning s
  | .railClear => Sys2Proof.Machine.execRailClear s
  | .railResetLevel => Sys2Proof.Machine.execRailResetLevel s
  | .shedStepEnter => Sys2Proof.Machine.execShedStepEnter s
  | .shedStepLift => Sys2Proof.Machine.execShedStepLift s
  | .thermalTrip => Sys2Proof.Machine.execThermalTrip s
  | .fuseOpDone => Sys2Proof.Machine.execFuseOpDone s
  | .attestDone => Sys2Proof.Machine.execAttestDone s
  | .tamperAssert => Sys2Proof.Machine.execTamperAssert s
  | .recalDone => Sys2Proof.Machine.execRecalDone s
  | .railNeitherWarningNorClear => Sys2Proof.Machine.execRailNeitherWarningNorClear s
  | .supplyMonitorsInRange => Sys2Proof.Machine.execSupplyMonitorsInRange s

end Sys2Proof.Machine
end

