-- ==== Sys2Proof/WellFormed.lean ====
section
/-! DEFINITION. The well-formed commands: what the spec asks of an operand beyond its type. -/

namespace Sys2Proof

/-- Is the command one that can reach the block? Registers lie on 4-byte boundaries (R6), a 64-bit register on an 8-byte one with its
high half at offset 4 (R8); entry-window accesses are 32-bit (R201); a lock is read by one to ten masters at once, each once (R382); only
a trace record is posted from outside the other commands (R393); a poll reads all 16 monitors or all 32 sensors (R406, R416) and each
regulator once (R408); the link trains to a width of at most 8 lanes (R385); there are 16 inject queues (R390); a pier fault is a check
failure of kind 1 or 2 in one of two pipes (R100), and a fabric link goes down for one of six causes (R296). -/
def wellFormed : Instr → Bool
  | .registerWrite _ off _ => off.toNat % 4 == 0
  | .reg64LowRead _ off => off.toNat % 8 == 0
  | .reg64LowWrite _ off _ => off.toNat % 8 == 0
  | .reg64HighWrite _ off _ => off.toNat % 8 == 4
  | .rcRead _ off => off.toNat % 4 == 0
  | .unmappedAccess _ off _ => off.toNat % 4 == 0
  | .broadcastWrite _ off _ => off.toNat % 4 == 0
  | .pierFault _ kind pipe _ _ _ => (kind == 1 || kind == 2) && pipe.toNat ≤ 1
  | .strokeTimeout _ pipe _ => pipe.toNat ≤ 1
  | .entryWindowRead _ off => off.toNat % 4 == 0
  | .entryWindowWrite _ off _ => off.toNat % 4 == 0
  | .fabricLinkDown _ cause => 1 ≤ cause.toNat && cause.toNat ≤ 6
  | .lockRead readers _ => !readers.isEmpty && decide readers.Nodup
  | .pcieLinkUp width rate => (width == 1 || width == 2 || width == 4 || width == 8) && rate != 0
  | .queueEnableWrite _ inject queue _ => !inject || queue.val < 16
  | .eventPost traced => match traced with | none => true | some r => r.cls == .trace
  | .regulatorPoll reports => decide (reports.map (·.slot)).Nodup
  | .tempReading eighths => eighths.length == 32
  | .railReading mvs => mvs.length == 16
  | .resetRelease _ _ mvs => mvs.length == 16
  | .testEnRelease _ mvs => mvs.length == 16
  | .porstNAssert .. | .sysrstNAssert .. | .perstNAssert .. | .functionLevelReset ..
  | .glbLockSet .. | .maintReq .. | .fwdEn .. | .srcSelect .. | .spanDisagree .. | .fabricRelock .. | .ppsEdge ..
  | .spanSyncMarker .. | .syncLoadArm .. | .todMessageRx .. | .taStageWrite .. | .taArm .. | .taCancel .. | .imgLoadStart ..
  | .imgLoadAbort .. | .imgLoadEnd .. | .walkStart .. | .walkAbandon .. | .walkResume .. | .walkStepTimeout ..
  | .pierReloadDone .. | .pierRetireCmd .. | .pierRestoreCmd .. | .laneMapWrite .. | .frameReceive .. | .macControlFrameRx ..
  | .pauseExpiry .. | .pfcRefresh .. | .pfcWatchdog .. | .msecSaInstall .. | .msecSaRetire .. | .txtsPop .. | .lptCntClr ..
  | .gclCommit .. | .gclStart .. | .gateEntryAdvance .. | .preemptVerifyExchange .. | .adminUpWrite .. | .portLinkDown ..
  | .portLinkUp .. | .fecInterval .. | .ingressStroke .. | .secondStroke .. | .egressStroke .. | .tcamCommitRequest ..
  | .tcamCommit .. | .pirCntClr .. | .taeSubmit .. | .bulk .. | .snapshotCopyDone .. | .rehashOpen .. | .rehashCommit ..
  | .rehashAbort .. | .openPageTimeout .. | .bufAllocRead .. | .bufFreeAddr .. | .bufFreeHandle .. | .prefetch ..
  | .cxlLinkTrained .. | .cxlTrainTimeout .. | .cxlTrainRetry .. | .cxlEnable .. | .cxlDrain .. | .cxlDrainComplete ..
  | .cxlDisable .. | .cxlLinkFail .. | .cxlLinkRetrained .. | .quePortCfgWrite .. | .nodePortWrite .. | .queAttach ..
  | .queSwap .. | .queDetach .. | .schedulerSelection .. | .flushQueue .. | .flushPort .. | .flushAllVoqs .. | .histRebind ..
  | .histClear .. | .elemBind .. | .setSwitchWrite .. | .fabLaneLock .. | .fabLaneLockLoss .. | .fabricLinkUp ..
  | .fabEnableWrite .. | .fabRestart .. | .controlDownRx .. | .cellSend .. | .dataCellRx .. | .reasmTimeout .. | .reasmStale ..
  | .takeoverRequest .. | .mcGroupWrite .. | .clEntryWrite .. | .mcCounterClr .. | .twinEnable .. | .ralinLaneLock ..
  | .ralinLaneLockLoss .. | .heartbeatRx .. | .mirrorFrameRx .. | .mirrorFailure .. | .digestWindowClose .. | .digestRx ..
  | .digestCompareTimeout .. | .realignRx .. | .verdictRx .. | .evidenceExpiry .. | .twnDemote .. | .twnResync ..
  | .twnForcePromote .. | .twnRelease .. | .twnReactivate .. | .resyncCtrlRx .. | .manifestRx .. | .segmentRx ..
  | .copyAbort .. | .lockstepMismatch .. | .pairRestart .. | .pairCheckpoint .. | .serviceRequest .. | .mbxBindWrite ..
  | .bindLockSet .. | .mbxDataWrite .. | .mbxPost .. | .mbxRxstatRead .. | .mbxAck .. | .bellClear .. | .bellMaskWrite ..
  | .lockWrite .. | .pqTailWrite .. | .iqTailWrite .. | .injectFetch .. | .evrEnableWrite .. | .evrDmaError ..
  | .evrInterrupt .. | .entdaa .. | .i3cPrivateWrite .. | .i3cPrivateRead .. | .domainSwitch .. | .railOor ..
  | .pierClockChange .. | .bootComplete .. | .fuseAdvance .. | .fuseRevoke .. | .fuseJtagLock .. | .attestStart ..
  | .flashRead .. | .flashErase .. | .flashProgram .. | .flashOpDone .. | .secSysReset .. | .cuArm .. | .cuStreamEnd ..
  | .patrolRead .. | .bistStart .. | .bistDone .. | .recalStart .. | .causewayError .. | .cwTestEnable .. | .maintTestStart ..
  | .maintTestDone .. | .frameTransmit .. | .lineFaultChange .. | .m10EntryComplete .. | .spanStart .. | .fabricTimeLoss ..
  | .pllLock .. | .pllLockLoss .. | .ppsEdgesMissing .. | .spanSyncMarkersMissing .. | .spanSyncOutMarker .. | .phcSecond ..
  | .todMessageTx .. | .todBaseUpdate .. | .keystoneFire .. | .timedActionFire .. | .drainLimitReached ..
  | .expirySweepComplete .. | .walkStepCommit .. | .readKey .. | .insert .. | .delete .. | .readIndex .. | .writeIndex ..
  | .lpmInsert .. | .lpmDelete .. | .lpmRead .. | .retire .. | .learnApply .. | .rehashCopy .. | .ageingSweep ..
  | .retireRelease .. | .enqueue .. | .flushProgress .. | .tokenRefresh .. | .setSwitch .. | .controlUpSend ..
  | .cellStaging .. | .deckSlot .. | .replicationCopy .. | .heartbeatSend .. | .heartbeatLoss .. | .mirrorRetransmit ..
  | .mirrorRecordApply .. | .verdictEvidenceTimeout .. | .verdictWaitTimeout .. | .takeoverTimeout .. | .twinIsolation ..
  | .resyncRequestSend .. | .segmentSend .. | .settleComplete .. | .pcieLinkDown .. | .eventWrite .. | .blotterInterval ..
  | .telemetryExport .. | .rstdaa .. | .railBelowWarning .. | .railClear .. | .railResetLevel .. | .shedStepEnter ..
  | .shedStepLift .. | .thermalTrip .. | .fuseOpDone .. | .attestDone .. | .tamperAssert .. | .recalDone ..
  | .railNeitherWarningNorClear .. | .supplyMonitorsInRange .. => true

end Sys2Proof
end

