-- ==== Sys2Proof/Safety.lean ====
section
/-! DEFINITION. The terms in which claims are made: what it means that a command completes, what a command leaves as it was, and the
invariants. -/

namespace Sys2Proof.Machine

/-- The command completes at `s`: it answers a next state, in which the commands that wait are those that waited and of which `P` says
what the device holds. -/
def Completes (i : Instr) (s : State) (P : Dev → Prop) : Prop :=
  ∃ t, exec i s = .next t ∧ t.pending = s.pending ∧ P t.dev

/-- The events that `e` has posted beyond those of `d`, in order. -/
abbrev Posts (d e : Dev) (l : List EvDesc) : Prop := e.posted.map (·.code) = d.posted.map (·.code) ++ l.map (·.code)

/-- The parts of the device: its fields but the register store. -/
inductive Part where
  | mode | latches | stages | lastRead | lastAbort | posted | hostMem | fresh
  | tim | img | lpt | pir | tbl | buf | que | shp | fab | dck | twn | ctl | hst | pwr | sec | dgn
  deriving DecidableEq, Repr

/-- The block windows of R25, numbered as the blocks are: 1 GLB, 2 TIM, 3 IMG, 4 LPT, 5 PIR, 6 TBL, 7 BUF, 8 QUE, 9 SHP, 10 FAB, 11 DCK,
12 TWN, 13 CTL, 14 HST, 15 PWR, 16 SEC, 17 DGN. -/
def blockOf (off : Nat) : Nat :=
  if off < 0x1000000 then 1 else if off < 0x2000000 then 2 else if off < 0x4000000 then 3 else if off < 0x8000000 then 4
  else if off < 0xA000000 then 5 else if off < 0xC000000 then 6 else if off < 0xD000000 then 7 else if off < 0xE000000 then 8
  else if off < 0x10000000 then 9 else if off < 0x11000000 then 10 else if off < 0x12000000 then 11 else if off < 0x13000000 then 12
  else if off < 0x14000000 then 13 else if off < 0x15000000 then 14 else if off < 0x16000000 then 15 else if off < 0x17000000 then 16
  else 17

/-- The part is the same in both devices. -/
def Part.same : Part → Dev → Dev → Prop
  | .mode, d, e => e.mode = d.mode
  | .latches, d, e => e.latches = d.latches
  | .stages, d, e => e.stages = d.stages
  | .lastRead, d, e => e.lastRead = d.lastRead
  | .lastAbort, d, e => e.lastAbort = d.lastAbort
  | .posted, d, e => e.posted = d.posted
  | .hostMem, d, e => e.hostMem = d.hostMem
  | .fresh, d, e => e.fresh = d.fresh
  | .tim, d, e => e.tim = d.tim
  | .img, d, e => e.img = d.img
  | .lpt, d, e => e.lpt = d.lpt
  | .pir, d, e => e.pir = d.pir
  | .tbl, d, e => e.tbl = d.tbl
  | .buf, d, e => e.buf = d.buf
  | .que, d, e => e.que = d.que
  | .shp, d, e => e.shp = d.shp
  | .fab, d, e => e.fab = d.fab
  | .dck, d, e => e.dck = d.dck
  | .twn, d, e => e.twn = d.twn
  | .ctl, d, e => e.ctl = d.ctl
  | .hst, d, e => e.hst = d.hst
  | .pwr, d, e => e.pwr = d.pwr
  | .sec, d, e => e.sec = d.sec
  | .dgn, d, e => e.dgn = d.dgn

/-- The registers that a frame lets change, as a condition on their BAR0 offsets: none of them. -/
def noRegs (_ : Nat) : Prop := False

/-- Any of them. -/
def anyRegs (_ : Nat) : Prop := True

/-- Those at the offsets listed; a register that a selector shows has one offset for all its items. -/
def regsAt (l : List Nat) (off : Nat) : Prop := off ∈ l

/-- Those of the block windows listed. -/
def windows (l : List Nat) (off : Nat) : Prop := blockOf off ∈ l

/-- The frame of a command: whatever next state it answers, the queue of waiting commands, every part outside `l` and every register
outside `may` are as they were. -/
def Keeps (i : Instr) (s : State) (l : List Part) (may : Nat → Prop) : Prop :=
  ∀ t, exec i s = .next t → t.pending = s.pending ∧ (∀ p, p ∉ l → p.same s.dev t.dev) ∧
    ∀ k : Nat, ¬ may (k % 0x20000000) → t.dev.reg k = s.dev.reg k

/-- The bytes of host memory from address `a` up: `n` of them. -/
def inBytes (a n x : Nat) : Prop := ∃ i < n, x = (a + i) % 2 ^ 64

/-- Host memory outside `out` is the same after the command, whatever next state it answers. -/
def KeepsHost (i : Instr) (s : State) (out : Nat → Prop) : Prop :=
  ∀ t, exec i s = .next t → ∀ x, ¬ out x → t.dev.hostMem.get (fun _ => none) x = s.dev.hostMem.get (fun _ => none) x

/-- The registers that a system reset may change: all but those it keeps (R405, R419); of the CTL window the doorbells, locks and counters that
R378 acts on, and GLB_RESET_CAUSE, which it sets. -/
def lostAtReset (off : Nat) : Prop := keptReg off = false ∨ blockOf off = 13 ∨ off = F.GLB_RESET_CAUSE.off

/-- Every part but host memory. -/
def allButHost : List Part :=
  [.mode, .latches, .stages, .lastRead, .lastAbort, .posted, .fresh, .tim, .img, .lpt, .pir, .tbl, .buf, .que, .shp, .fab, .dck, .twn, .ctl,
    .hst, .pwr, .sec, .dgn]

/-- What a register write into a block may change: the parts beside the stages, the end of the access and the events, and the windows. A write of
SEC_CTRL that resets the system is another matter. -/
def writeFrame (block : Nat) : List Part × List Nat :=
  match block with
  | 1 => ([.mode, .tim, .img, .que, .twn], [1, 3, 10, 12, 17])
  | 2 => ([.tim, .twn], [2])
  | 3 => ([.fresh, .tim, .img, .lpt, .pir, .tbl, .que, .fab, .twn, .pwr, .dgn], [3, 4, 14, 17])
  | 4 => ([.lpt, .que, .fab], [4])
  | 5 => ([.pir, .twn], [5])
  | 6 => ([.img, .tbl, .twn], [6])
  | 7 => ([.fresh, .buf], [7, 15])
  | 8 => ([.que, .twn], [8])
  | 9 => ([.que, .shp], [9])
  | 10 => ([.fab, .twn], [10])
  | 11 => ([.twn], [11])
  | 12 => ([.mode, .tim, .img, .pir, .tbl, .que, .twn], [3, 10, 12, 17])
  | 13 => ([.lastRead, .ctl, .hst], [13])
  | 14 => ([.pir, .que, .hst], [14])
  | 15 => ([], [15])
  | 16 => ([.sec, .dgn], [16, 17])
  | _ => ([.fresh, .pir, .tbl, .dgn], [3, 17])

/-- The commands that end M10 and M11 (R22, R437): PORST_N, SYSRST_N, a core rail at its reset level (R407) and a thermal trip (R417). -/
def resetsDevice : Instr → Prop
  | .porstNAssert _ | .sysrstNAssert _ | .railResetLevel | .thermalTrip => True
  | _ => False

/-- The commands that release the device from reset (R22, R419, R483). -/
def releasesDevice : Instr → Prop
  | .resetRelease _ _ _ | .testEnRelease _ _ | .supplyMonitorsInRange => True
  | _ => False

/-- The 64-bit registers whose commit acts on its own, or has a limit of its own, beside the access codes of R10. -/
def ownCommit (row : Nat) : Bool :=
  [F.TIM_TA_SPAN.off, F.TIM_TA_OPERAND.off, F.IMG_WALK_START.off, F.PIR_TCAM_RES.off, F.BUF_FREE_ADDR.off, F.DCK_CL_ENTRY.off,
    F.HST_EVR_BASE.off, F.HST_PQ_BASE.off, F.HST_IQ_BASE.off, F.PWR_SHED_LOG.off].contains row

/-! ### What a command finds as it starts -/

/-- The device of an ingress stroke of a line frame: the frame out of the buffer it waited in and the stroke counted. -/
def ingressAt (d : Dev) (p o : Nat) : Dev := ((d.rxPop o).issueSlot p false).bump (F.PIR_ING_STROKES.pier p)

/-- The device of a second stroke: the packet out of its queue and the stroke counted. -/
def secondAt (d : Dev) (p : Nat) (rest : List SsEntry) : Dev := (((d.setSs p rest).setTurn p 2).issueSlot p true).bump (F.PIR_SS_STROKES.pier p)

/-- The device of an egress stroke: the packet out of its queue and the stroke counted. -/
def egressAt (d : Dev) (p o : Nat) (q : Packet) (rest : List Packet) : Dev :=
  ({ d with pir := { d.pir with egress := d.pir.egress.set (fun _ => []) o rest } }.updLp (q.get Md.egrPort)
    fun x => { x with pendingBytes := x.pendingBytes - q.bytes.length }).bump (F.PIR_EGR_STROKES.pier p)

/-- The request `q` is at the head of the engine's queue with opcode `op`, mirrored where it must be; its span has come, the rate of its path
allows it, and the mode does not bar it. -/
abbrev Dev.taeReady (d : Dev) (q : TaeReq) (op : Nat) : Prop :=
  d.tbl.queue.head? = some q ∧ reqOp q.req = op ∧ d.unmirrored q = false ∧ d.taeDue q = true ∧ d.taeMay q = true ∧
    d.taeBarred op q.master = false

/-- The request `q` has left the queue with the response `o` (R196, R199). -/
def TaeAnswered (q : TaeReq) (o : TaeOut) (d e : Dev) : Prop :=
  e.tbl.queue = d.tbl.queue.tail ∧
  (∀ n, q.slot = some n → e.tbl.resp.get (fun _ => TaeResp.reset) n = ⟨o.status, o.moves, q.seq, o.index, o.data⟩) ∧
  e.rd F.TBL_TAE_SEQ_SEQ = q.seq % 2 ^ 32 ∧ e.rd F.TBL_TAE_OPS = min (d.rd F.TBL_TAE_OPS + 1) (2 ^ 64 - 1)

/-- The tables as a learned entry meets them: its submission taken and counted, and those that wait for their span applied. -/
def learnAt (d : Dev) (rest : List LearnSub) : Dev := (Dev.countLearn { d with tbl := { d.tbl with learnQ := rest } }).learnView

/-- The device as an octet's scheduler finds it: the shaper states of the ports it can select at are noted. -/
def notedAt (d : Dev) (o : Nat) : Dev := d.each ((d.octetPorts o).filter fun p => d.linkUp p && d.txRoom p) fun p d => d.noteStates p

/-- The device with the oldest arrival taken. -/
def arrivedAt (d : Dev) (rest : List Arrival) : Dev := { d with que := { d.que with arrivals := rest } }

/-- A frame of type `t` arrives that the device acts on: the link is up and the CRC good (R336 to R338). -/
abbrev Dev.hears (d : Dev) (f : BitVec 4096) (t : Nat) : Prop :=
  d.twinOn = true ∧ d.ralinUp = true ∧ frameGood f = true ∧ frameType f = t ∧ t ≤ 8

/-- A frame of the mirror stream that is the next in SEQ order, with no frame held (R340). -/
abbrev Dev.hearsNext (d : Dev) (f : BitVec 4096) (t : Nat) : Prop :=
  d.hears f t ∧ frameSeq f = d.twn.rxSeq ∧ d.twn.rxHeld = []

/-! ### The invariant -/

/-- The registers, the host memory, the flash, the timed-action entries and the table memory are in their canonical form. -/
abbrev Inv (s : State) : Prop :=
  SMap.wf regReset s.dev.regs = true ∧ SMap.wf (fun _ => none) s.dev.hostMem = true ∧ SMap.wf (fun _ => 0xFF) s.dev.sec.flash = true ∧
  SMap.wf (fun _ => TaEntry.reset) s.dev.tim.entries = true ∧ SMap.wf (fun _ => 0) s.dev.tbl.mem = true

end Sys2Proof.Machine
end

