-- ==== Sys2Proof/Certificates/Slice0/Obligations.lean ====
section
/-! DEFINITION. The statements for the provers: where each command completes and what it then leaves, what each command keeps, and what
holds of every step. -/

open Sys2Proof Sys2Proof.Machine

/-! ### Time (TIM) -/

/-- Where the commands that move the STC's source, its lock and its marks complete (R32, R34 to R40, R488, R489): a new source in M2; an
excluded link; a lock lost after 4 spans without control slots and by the PLL; a lock gained from the fabric and from the PLL; a marker that
loads, one out of place and two that are missing; the armed load, the output marker and the internal span tick. And where the commands of
PPS and time of day complete (R38, R41 to R44): an edge within 20 ns after seven locks, one beyond 100 ns and missing edges unlock; a good
ToD message waits for the next edge, one at the wrong time is told; a PHC second, its message, and a base and a correction that came in an
earlier span, at slot 0; with none that came earlier nothing changes. -/
def Obligations.TimeCommandsComplete : Prop :=
  (∀ (s : State) (m : Master) (src : BitVec 2), s.dev.writes m.val F.TIM_CTRL.off = true → s.dev.mode = .m2 → src ≠ 3 →
    (s.dev.on F.GLB_STRAP_SELF_TIMED = true ∨ src = 0) → src.toNat ≠ s.dev.rd F.TIM_CTRL_SRC →
    Completes (.srcSelect m src) s fun d => d.rd F.TIM_CTRL_SRC = src.toNat ∧ d.rd F.TIM_STATUS_LOCKED = 0) ∧
  (∀ (s : State) (link : Fin 40) (x y : Nat × Nat), s.dev.rd F.TIM_CTRL_SRC = 0 → s.dev.timeLink link.val = true → s.dev.tim.tick ≠ 0 →
    s.dev.disagreeAt link.val s.dev.tim.tick = some x → s.dev.disagreeAt link.val (s.dev.tim.tick - 1) = some y →
    Completes (.spanDisagree link) s fun d => bitOn d.tim.excluded link.val = true ∧ Posts s.dev d [Ev.TIM_SPAN_DISAGREE]) ∧
  (∀ s : State, s.dev.rd F.TIM_CTRL_SRC = 0 → s.dev.locked = true → s.dev.tim.lastCtl + 4 ≤ s.dev.tim.tick →
    Completes .fabricTimeLoss s fun d => d.locked = false ∧
      Posts s.dev d [Ev.TIM_LOCK_LOST]) ∧
  (∀ (s : State) (i t k : Nat), s.dev.rd F.TIM_CTRL_SRC = 0 → s.dev.locked = false → s.dev.tim.pllLocked = true →
    s.dev.fabricSteady = some i → s.dev.lastControl i = some (t, k) →
    Completes .fabricRelock s fun d => d.locked = true ∧ d.tim.span = spanAdd k (s.dev.tim.tick - t) % 2 ^ 48 ∧ d.tim.slot = 0) ∧
  (∀ s : State, s.dev.tim.pllLocked = false → s.dev.rd F.TIM_CTRL_SRC = 1 →
    Completes .pllLock s fun d => d.tim.pllLocked = true ∧ d.locked = true ∧ d.tim.span = s.dev.tim.span % 2 ^ 48) ∧
  (∀ s : State, s.dev.tim.pllLocked = true → Completes .pllLockLoss s fun d => d.tim.pllLocked = false ∧ d.locked = false ∧
    d.tim.span = s.dev.tim.span ∧ Posts s.dev d [Ev.TIM_LOCK_LOST]) ∧
  (∀ (s : State) (slot : Fin 100), s.dev.rd F.TIM_CTRL_SRC = 2 → s.dev.tim.pllLocked = true →
    s.dev.on F.TIM_SYNC_CFG_LOAD_ARM = true →
    Completes (.spanSyncMarker slot) s fun d =>
      d.tim.span = s.dev.rd F.TIM_SYNC_LOAD % 2 ^ 48 ∧ d.tim.slot = 0 ∧ d.on F.TIM_SYNC_CFG_LOAD_ARM = false ∧ d.locked = true) ∧
  (∀ (s : State) (slot : Fin 100), s.dev.rd F.TIM_CTRL_SRC = 2 → s.dev.on F.TIM_SYNC_CFG_LOAD_ARM = false →
    slot.val ≠ 0 ∨ s.dev.tim.span % 1024 ≠ 0 → Completes (.spanSyncMarker slot) s fun d => d.locked = false) ∧
  (∀ s : State, s.dev.rd F.TIM_CTRL_SRC = 2 → Completes .spanSyncMarkersMissing s fun d => d.locked = false) ∧
  (∀ (s : State) (m : Master), s.dev.writes m.val F.TIM_SYNC_CFG.off = true → s.dev.rd F.TIM_CTRL_SRC ≠ 1 →
    Completes (.syncLoadArm m) s fun d => d.on F.TIM_SYNC_CFG_LOAD_ARM = true ∧ d.tim.span = s.dev.tim.span) ∧
  (∀ s : State, s.dev.on F.TIM_SYNC_CFG_OUT_EN = true → s.dev.stcHeld = false → s.dev.tim.span % 1024 = 0 →
    Completes .spanSyncOutMarker s fun d => d.tim.syncOut = some s.dev.tim.span) ∧
  (∀ s : State, Completes .spanStart s fun d => d.tim.tick = s.dev.tim.tick + 1 ∧
    d.tim.span = (if s.dev.stcHeld then s.dev.tim.span else (s.dev.tim.span + 1) % 2 ^ 48)) ∧
  (∀ (s : State) (err : BitVec 32), s.dev.rd F.TIM_CTRL_SRC = 1 → s.dev.on F.TIM_PPS_CFG_IN_EN = true → s.dev.tim.todPending = none →
    err.toInt.natAbs * 32 ≤ 2000 → 7 ≤ s.dev.tim.ppsGood →
    Completes (.ppsEdge err) s fun d => d.on F.TIM_STATUS_PPS_LOCK = true ∧ d.rd F.TIM_PPS_PHASE = err.toNat) ∧
  (∀ (s : State) (err : BitVec 32), s.dev.rd F.TIM_CTRL_SRC = 1 → s.dev.on F.TIM_PPS_CFG_IN_EN = true → s.dev.tim.todPending = none →
    10000 < err.toInt.natAbs * 32 → s.dev.on F.TIM_STATUS_PPS_LOCK = true →
    Completes (.ppsEdge err) s fun d => d.on F.TIM_STATUS_PPS_LOCK = false ∧ Posts s.dev d [Ev.TIM_PPS_LOST]) ∧
  (∀ s : State, s.dev.rd F.TIM_CTRL_SRC = 1 → s.dev.on F.TIM_PPS_CFG_IN_EN = true →
    Completes .ppsEdgesMissing s fun d => d.on F.TIM_STATUS_PPS_LOCK = false ∧ d.tim.ppsGood = 0) ∧
  (∀ (s : State) (ms : Nat) (sec : BitVec 48), 100 ≤ ms → ms ≤ 900 →
    Completes (.todMessageRx ms (todMessage sec.toNat true)) s fun d => d.tim.todPending = some sec ∧ d.posted = s.dev.posted) ∧
  (∀ (s : State) (ms : Nat) (sec : BitVec 48), ms < 100 ∨ 900 < ms →
    Completes (.todMessageRx ms (todMessage sec.toNat true)) s fun d =>
      d.tim.todPending = s.dev.tim.todPending ∧ Posts s.dev d [Ev.TIM_TOD_RX_ERR]) ∧
  (∀ s : State, s.dev.stcHeld = false → s.dev.phcNs / 1000000000 ≠ s.dev.tim.phcSecond → s.dev.on F.TIM_PPS_CFG_OUT_EN = true →
    Completes .phcSecond s fun d => d.tim.phcSecond = s.dev.phcNs / 1000000000 ∧ d.tim.todTxDue = true ∧
      d.tim.ppsOutUntil = s.dev.slotTick + 100 * s.dev.rd F.TIM_PPS_CFG_OUT_WIDTH) ∧
  (∀ s : State, s.dev.on F.TIM_PPS_CFG_OUT_EN = true → s.dev.tim.todTxDue = true → 500000000 ≤ s.dev.phcNs % 1000000000 →
    Completes .todMessageTx s fun d => d.tim.todTxDue = false ∧
      d.tim.todTx = todMessage (s.dev.phcNs / 1000000000 + 1) (s.dev.on F.TIM_STATUS_TOD_VALID)) ∧
  (∀ (s : State) (a n : Nat), s.dev.tim.basePending = some (a, n) → s.dev.stcHeld = false → s.dev.tim.slot = 0 → s.dev.tim.basePendingTick < s.dev.tim.tick →
    Completes .todBaseUpdate s fun d => d.tim.basePending = none ∧ d.rd F.TIM_TOD_BASE = a % 2 ^ 64 ∧
      d.rd F.TIM_TOD_BASE_NS = n % 2 ^ 32 ∧ d.on F.TIM_STATUS_TOD_VALID = true) ∧
  (∀ (s : State) (c : BitVec 32), s.dev.tim.corrPending = some c → s.dev.stcHeld = false → s.dev.tim.slot = 0 → s.dev.tim.corrPendingTick < s.dev.tim.tick →
    Completes .todBaseUpdate s fun d => d.tim.corrPending = none ∧ d.rd F.TIM_CORR = c.toNat) ∧
  (∀ s : State, s.dev.tim.slot ≠ 0 → Completes .todBaseUpdate s fun d => d = s.dev)

/-! ### None -/

/-- Where the timed-action and epoch commands complete (R48, R52, R55 to R59, R343, R490): a staging write, an arm that meets every
condition, the arm of a keystone that no case of R57 refuses, the standby's local arms and cancels, which it ignores, a mark that fires, a
keystone that fires, the drain limit with old packets and without, and the end of the sweep. -/
def Obligations.TimedActionCommandsComplete : Prop :=
  (∀ (s : State) (m : Master) (w : TaStage) (v : BitVec 64), s.dev.writes m.val F.TIM_TA_INDEX.off = true →
    Completes (.taStageWrite m w v) s fun d =>
      (match w with
        | .index => (d.stagingOf m.val).index = v.toNat % 256
        | .span => (d.stagingOf m.val).span = v.toNat % 2 ^ 48
        | .type => (d.stagingOf m.val).type = v.toNat % 16
        | .operand => (d.stagingOf m.val).operand = v) ∧
      ∀ n, n ≠ m.val → d.stagingOf n = s.dev.stagingOf n) ∧
  (∀ (s : State) (m : Master), s.dev.writes m.val F.TIM_TA_CMD.off = true → s.dev.localBarred m.val = false →
    s.dev.locked = true → (s.dev.stagingOf m.val).type < 7 → (s.dev.stagingOf m.val).type ≠ 1 →
    ((s.dev.stagingOf m.val).type = 5 → taBarred (taOffset (s.dev.stagingOf m.val).operand) = false) →
    (s.dev.entryAt (s.dev.stagingOf m.val).index).state ≠ .armed →
    spanAtLeast (s.dev.stagingOf m.val).span s.dev.tim.span 2 = true →
    Completes (.taArm m) s fun d =>
      d.entryAt (s.dev.stagingOf m.val).index = ⟨(s.dev.stagingOf m.val).span, (s.dev.stagingOf m.val).type,
        (s.dev.stagingOf m.val).operand, .armed, 1, 0⟩ ∧
      ∀ j, j ≠ (s.dev.stagingOf m.val).index → d.entryAt j = s.dev.entryAt j) ∧
  (∀ (s : State) (m : Master), s.dev.writes m.val F.TIM_TA_CMD.off = true → s.dev.locked = true → (s.dev.stagingOf m.val).type = 1 →
    (s.dev.entryAt (s.dev.stagingOf m.val).index).state ≠ .armed →
    spanAtLeast (s.dev.stagingOf m.val).span s.dev.tim.span 2 = true → s.dev.ksCause m.val (s.dev.stagingOf m.val).span = 0 →
    Completes (.taArm m) s fun d =>
      d.entryAt (s.dev.stagingOf m.val).index = ⟨(s.dev.stagingOf m.val).span, 1, (s.dev.stagingOf m.val).operand, .armed, 1, 0⟩ ∧
      d.posted = s.dev.posted ∧ ∀ j, j ≠ (s.dev.stagingOf m.val).index → d.entryAt j = s.dev.entryAt j) ∧
  (∀ (s : State) (m : Master), s.dev.writes m.val F.TIM_TA_CMD.off = true → s.dev.localBarred m.val = true →
    (s.dev.stagingOf m.val).type ≠ 1 →
    Completes (.taArm m) s fun d => d.tim = s.dev.tim ∧ d.regs = s.dev.regs ∧ Posts s.dev d [Ev.TWN_LOCAL_WRITE]) ∧
  (∀ (s : State) (m : Master), s.dev.writes m.val F.TIM_TA_CMD.off = true → s.dev.localBarred m.val = true →
    Completes (.taCancel m) s fun d => d.tim = s.dev.tim ∧ d.regs = s.dev.regs ∧ Posts s.dev d [Ev.TWN_LOCAL_WRITE]) ∧
  (∀ (s : State) (i : Nat), s.dev.taFires = true → s.dev.dueKeystone = none → s.dev.dueEntry = some i → (s.dev.entryAt i).type = 6 →
    Completes .timedActionFire s fun d => (d.entryAt i).state = .done ∧ (d.entryAt i).result = 0 ∧ Posts s.dev d [Ev.TIM_MARK]) ∧
  (∀ (s : State) (i : Nat), s.dev.taFires = true → s.dev.dueKeystone = some i →
    Completes .keystoneFire s fun d => (d.entryAt i).state = .done ∧
      d.rd F.TIM_EPOCH_EPOCH = (s.dev.rd F.TIM_EPOCH_EPOCH + 1) % 65536 ∧ d.on F.TIM_BANK_STATUS_OLD_HELD = true ∧
      d.rd F.TIM_LAST_KEYSTONE = s.dev.tim.span % 2 ^ 64 ∧ d.tim.limitInForce = s.dev.rd F.TIM_DRAIN_LIMIT_LIMIT) ∧
  (∀ s : State, s.dev.on F.TIM_BANK_STATUS_OLD_HELD = true → s.dev.tim.limitPassed = false → s.dev.stcHeld = false →
    s.dev.tim.relockAt ≠ some s.dev.tim.tick → s.dev.tim.slot = 0 →
    spanReached (spanAdd (s.dev.rd F.TIM_LAST_KEYSTONE) s.dev.tim.limitInForce) s.dev.tim.span = true → s.dev.oldResident ≠ 0 →
    Completes .drainLimitReached s fun d => d.on F.TIM_BANK_STATUS_SWEEP = true ∧ d.tim.limitPassed = true) ∧
  (∀ s : State, s.dev.on F.TIM_BANK_STATUS_OLD_HELD = true → s.dev.tim.limitPassed = false → s.dev.stcHeld = false →
    s.dev.tim.relockAt ≠ some s.dev.tim.tick → s.dev.tim.slot = 0 →
    spanReached (spanAdd (s.dev.rd F.TIM_LAST_KEYSTONE) s.dev.tim.limitInForce) s.dev.tim.span = true → s.dev.oldResident = 0 →
    Completes .drainLimitReached s fun d => d.on F.TIM_BANK_STATUS_OLD_HELD = false ∧ d.rd F.IMG_STATUS_STAGED_STATE = 0 ∧
      Posts s.dev d [Ev.TIM_RELEASE, Ev.TIM_EXPIRED]) ∧
  (∀ s : State, s.dev.on F.TIM_BANK_STATUS_SWEEP = true →
    Completes .expirySweepComplete s fun d => d.on F.TIM_BANK_STATUS_SWEEP = false ∧ d.on F.TIM_BANK_STATUS_OLD_HELD = false ∧
      d.rd F.IMG_STATUS_STAGED_STATE = 0)

/-- A cancel is accepted only of an armed entry at least 2 spans ahead, which then is FREE; any other is refused with TIM_LATE, and its
entry keeps its span, type, operand and state (R51). A standby's cancels by other masters than 8, which R343 ignores, are left out. -/
def Obligations.CancelNeedsTwoSpans : Prop :=
  ∀ (s : State) (m : Master), s.dev.writes m.val F.TIM_TA_CMD.off = true → s.dev.localBarred m.val = false →
    let i := (s.dev.stagingOf m.val).index
    let e := s.dev.entryAt i
    (e.state = .armed → spanAtLeast e.span s.dev.tim.span 2 = true →
      Completes (.taCancel m) s fun d => d.entryAt i = { e with state := .free, cmdResult := 1 } ∧ d.posted = s.dev.posted) ∧
    (e.state ≠ .armed ∨ spanAtLeast e.span s.dev.tim.span 2 = false →
      Completes (.taCancel m) s fun d => d.entryAt i = { e with cmdResult := 2 } ∧ Posts s.dev d [Ev.TIM_LATE] ∧
        ∀ r ∈ d.posted.drop s.dev.posted.length, byteField r.payload 1 1 = 1)

/-- The refusals of an arm, in their order: no lock, a reserved type or a barred offset, an entry already armed, a span less than 2 ahead,
and for a keystone the cases of R57, the standby's own among them. Each posts its one event and changes nothing of the entry but CMD_RESULT
(R50, R54, R57). -/
def Obligations.ArmRefusalsInOrder : Prop :=
  ∀ (s : State) (m : Master), s.dev.writes m.val F.TIM_TA_CMD.off = true →
    s.dev.localBarred m.val = false ∨ (s.dev.stagingOf m.val).type = 1 →
    let g := s.dev.stagingOf m.val
    let e := s.dev.entryAt g.index
    let bad := 7 ≤ g.type ∨ (g.type = 5 ∧ taBarred (taOffset g.operand) = true)
    let refused (ev : EvDesc) := Completes (.taArm m) s fun d => d.entryAt g.index = { e with cmdResult := 2 } ∧ Posts s.dev d [ev]
    (s.dev.locked = false → refused Ev.TIM_UNLOCKED) ∧
    (s.dev.locked = true → bad → refused Ev.TIM_TA_BAD) ∧
    (s.dev.locked = true → ¬ bad → e.state = .armed → refused Ev.TIM_TA_BUSY) ∧
    (s.dev.locked = true → ¬ bad → e.state ≠ .armed → spanAtLeast g.span s.dev.tim.span 2 = false → refused Ev.TIM_LATE) ∧
    (s.dev.locked = true → ¬ bad → e.state ≠ .armed → spanAtLeast g.span s.dev.tim.span 2 = true → g.type = 1 →
      s.dev.ksCause m.val g.span ≠ 0 → refused Ev.TIM_KEYSTONE_BUSY)

/-! ### Images and piers (IMG) -/

/-- Where the image loads complete (R81 to R83, R85, R87, R443): an accepted load empties its target and streams; a refused one is told; an
abort and a DMA error end a load, and so does a check unit that measures it and mismatches; an image that fails a check, a staged and a live
one that pass all of them, whose slot then holds it, the live one in M2 (from M1 or in it), and one that fails its signature check, which
sends the device to M11, with a tamper in the same cycle as the first of two causes (R439). -/
def Obligations.ImageLoadCommandsComplete : Prop :=
  (∀ (s : State) (m : Master) (t : BitVec 2), s.dev.writes m.val F.IMG_LOAD_CMD.off = true → s.dev.loadBar t.toNat = 0 →
    Completes (.imgLoadStart m t) s fun d =>
      d.img.load = some ⟨t.toNat, s.dev.rd F.IMG_LOAD_ADDR_ADDR * 64, s.dev.rd F.IMG_LOAD_LEN, m.val, none⟩ ∧
      d.on F.IMG_STATUS_LOAD_BUSY = true ∧ (t = 0 → d.on F.IMG_STATUS_LIVE_VALID = false) ∧ (t ≠ 0 → d.staged = 1)) ∧
  (∀ (s : State) (m : Master) (t : BitVec 2), s.dev.writes m.val F.IMG_LOAD_CMD.off = true → s.dev.loadBar t.toNat ≠ 0 →
    Completes (.imgLoadStart m t) s fun d => d.img = s.dev.img ∧ Posts s.dev d [Ev.IMG_LOAD_REFUSED]) ∧
  (∀ (s : State) (m : Master) (ld : LoadOp), s.dev.writes m.val F.IMG_LOAD_CMD.off = true → s.dev.img.load = some ld →
    Completes (.imgLoadAbort m) s fun d => d.img.load = none ∧ d.on F.IMG_STATUS_LOAD_BUSY = false ∧
      d.rd F.IMG_LOAD_STATUS_CAUSE = LoadCause.aborted ∧ (ld.target ≠ 0 → d.staged = 0) ∧
      Posts s.dev d ((s.dev.runningAt 1 0).map (fun _ => Ev.DGN_CU_DONE) ++ [Ev.IMG_LOAD_FAIL])) ∧
  (∀ (s : State) (ld : LoadOp), s.dev.img.load = some ld →
    ∀ tamper : Bool, Completes (.imgLoadEnd none tamper) s fun d => d.img.load = none ∧ d.on F.IMG_STATUS_LOAD_BUSY = false ∧
      d.rd F.IMG_LOAD_STATUS_CAUSE = LoadCause.dma ∧ (ld.target ≠ 0 → d.staged = 6) ∧
      Posts s.dev d ((s.dev.runningAt 1 0).map (fun _ => Ev.DGN_CU_DONE) ++ [Ev.IMG_LOAD_FAIL])) ∧
  (∀ (s : State) (ld : LoadOp) (l : List Byte), let raw := bytesAt (ld.streamed.getD l) 0 (min ld.len imageMax)
    s.dev.img.load = some ld → (s.dev.streamEnds 1 0 (some raw)).1 = true →
    ∀ tamper : Bool, Completes (.imgLoadEnd (some l) tamper) s fun d => d.img.load = none ∧
      d.rd F.IMG_LOAD_STATUS_CAUSE = LoadCause.checkUnit ∧ (ld.target ≠ 0 → d.staged = 6) ∧
      ∃ a, Posts s.dev d (a ++ [Ev.IMG_LOAD_FAIL])) ∧
  (∀ (s : State) (ld : LoadOp) (l : List Byte) (f : LoadFail), let raw := bytesAt (ld.streamed.getD l) 0 (min ld.len imageMax)
    s.dev.img.load = some ld → (s.dev.streamEnds 1 0 (some raw)).1 = false →
    checkImage raw ld.len s.dev.sec.fuses.variantS (s.dev.rd F.IMG_MIN_SVN_SVN)
      (s.dev.rd F.CTL_FW_VERSION_VERSION) ld.target s.dev.liveImage = .inl f →
    ∀ tamper : Bool, Completes (.imgLoadEnd (some l) tamper) s fun d => d.img.load = none ∧ d.rd F.IMG_LOAD_STATUS_CAUSE = f.cause % 256 ∧
      (ld.target ≠ 0 → d.staged = 6) ∧ ∃ l, Posts s.dev d (l ++ [Ev.IMG_LOAD_FAIL])) ∧
  (∀ (s : State) (ld : LoadOp) (l : List Byte) (im : Image), let raw := bytesAt (ld.streamed.getD l) 0 (min ld.len imageMax)
    s.dev.img.load = some ld → ld.target = 1 → (s.dev.streamEnds 1 0 (some raw)).1 = false →
    checkImage raw ld.len s.dev.sec.fuses.variantS (s.dev.rd F.IMG_MIN_SVN_SVN)
      (s.dev.rd F.CTL_FW_VERSION_VERSION) ld.target s.dev.liveImage = .inr im →
    sigCause imageContext (bytesAt raw (ld.len - 256) 256) (leBytes 64 im.digest.toNat)
      s.dev.sec.fuses.imgKeys (s.dev.sec.fuses.revoke.toNat >>> 2) = 0 →
    ∀ tamper : Bool, Completes (.imgLoadEnd (some l) tamper) s fun d => d.img.load = none ∧ d.staged = 3 ∧
      d.slotImage (1 - s.dev.liveSlot) = some im ∧ ∃ l, Posts s.dev d (l ++ [Ev.IMG_LOAD_DONE])) ∧
  (∀ (s : State) (ld : LoadOp) (l : List Byte) (im : Image), let raw := bytesAt (ld.streamed.getD l) 0 (min ld.len imageMax)
    s.dev.img.load = some ld → ld.target = 0 → s.dev.mode = .m1 ∨ s.dev.mode = .m2 → (s.dev.streamEnds 1 0 (some raw)).1 = false →
    checkImage raw ld.len s.dev.sec.fuses.variantS (s.dev.rd F.IMG_MIN_SVN_SVN)
      (s.dev.rd F.CTL_FW_VERSION_VERSION) ld.target s.dev.liveImage = .inr im →
    sigCause imageContext (bytesAt raw (ld.len - 256) 256) (leBytes 64 im.digest.toNat)
      s.dev.sec.fuses.imgKeys (s.dev.sec.fuses.revoke.toNat >>> 2) = 0 →
    ∀ tamper : Bool, Completes (.imgLoadEnd (some l) tamper) s fun d => d.img.load = none ∧ d.mode = .m2 ∧
      d.on F.IMG_STATUS_LIVE_VALID = true ∧ d.slotImage s.dev.liveSlot = some im ∧ d.liveSlot = s.dev.liveSlot ∧ d.tbl.places = [] ∧
      (s.dev.mode = .m1 → d.rd F.SEC_BOOT_STATUS_PHASE = 6) ∧ (s.dev.mode = .m2 → ∃ l, Posts s.dev d (l ++ [Ev.IMG_LOAD_DONE]))) ∧
  (∀ (s : State) (ld : LoadOp) (l : List Byte) (im : Image), let raw := bytesAt (ld.streamed.getD l) 0 (min ld.len imageMax)
    s.dev.img.load = some ld → s.dev.mode ≠ .m0 → s.dev.mode ≠ .m11 → (s.dev.streamEnds 1 0 (some raw)).1 = false →
    checkImage raw ld.len s.dev.sec.fuses.variantS (s.dev.rd F.IMG_MIN_SVN_SVN)
      (s.dev.rd F.CTL_FW_VERSION_VERSION) ld.target s.dev.liveImage = .inr im →
    sigCause imageContext (bytesAt raw (ld.len - 256) 256) (leBytes 64 im.digest.toNat)
      s.dev.sec.fuses.imgKeys (s.dev.sec.fuses.revoke.toNat >>> 2) ≠ 0 →
    ∀ tamper : Bool, Completes (.imgLoadEnd (some l) tamper) s fun d => d.img.load = none ∧ d.mode = .m11 ∧
      d.rd F.SEC_Q_CAUSE_CAUSE = (if tamper then 11 else 12) ∧ d.rd F.SEC_Q_CAUSE_DETAIL = (if tamper then 12 else 0) ∧
      d.sec.imgFailed = some ⟨ld.target, im.svn, im.compatId, im.digest⟩ ∧
      ∃ a e, Posts s.dev d (a ++ Ev.IMG_SIG_FAIL :: e))

/-- Where the commands of the pier walk complete (R91, R93, R95, R98): a start, an abandonment and a resumption that no case refuses; a step
that commits in time, one that times out, and a vacated pier that has reloaded. -/
def Obligations.WalkCommandsComplete : Prop :=
  (∀ (s : State) (m : Master), s.dev.writes m.val F.IMG_WALK_CMD.off = true → s.dev.walkBar m.val false = 0 →
    Completes (.walkStart m) s fun d => d.walkState = 1 ∧ d.m7 = true ∧ d.staged = 7 ∧ d.stepsDone = 0 ∧
      d.rd F.IMG_WALK_STATUS_NEXT_OCTET = 0) ∧
  (∀ (s : State) (m : Master), s.dev.writes m.val F.IMG_WALK_CMD.off = true → s.dev.walkBar m.val false ≠ 0 →
    Completes (.walkStart m) s fun d => d.rd F.IMG_WALK_STATUS_CAUSE = s.dev.walkBar m.val false ∧
      d.walkState = s.dev.walkState ∧ d.img = s.dev.img ∧ Posts s.dev d [Ev.IMG_WALK_REFUSED]) ∧
  (∀ (s : State) (m : Master), s.dev.writes m.val F.IMG_WALK_CMD.off = true → s.dev.mode ≠ .m5 → s.dev.mode ≠ .m6 →
    s.dev.walkState = 1 ∨ s.dev.walkState = 2 → s.dev.inStep = false →
    Completes (.walkAbandon m) s fun d => d.walkState = 3 ∧ d.m7 = false ∧ d.rd F.IMG_WALK_STATUS_CAUSE = 1 ∧
      d.staged = s.dev.staged) ∧
  (∀ (s : State) (m : Master), s.dev.writes m.val F.IMG_WALK_CMD.off = true → s.dev.walkBar m.val true = 0 → s.dev.stepsDone < 16 →
    Completes (.walkResume m) s fun d => d.walkState = 1 ∧ d.m7 = true ∧ d.stepsDone = s.dev.stepsDone) ∧
  (∀ (s : State) (x : PierMove), s.dev.img.move = some x → x.retirement = false → s.dev.moveCommits x = true →
    x.old ≠ x.new → x.old < 17 → x.new < 17 → x.octet < 16 →
    Completes .walkStepCommit s fun d => d.img.move = none ∧ d.img.reload = some x.old ∧ d.pierState x.old = 2 ∧
      d.on (F.IMG_PIER_STATUS_SERVING.ix x.old) = false ∧ d.pierState x.new = 0 ∧
      d.on (F.IMG_PIER_STATUS_SERVING.ix x.new) = true ∧ d.rd (F.IMG_PIER_STATUS_OCTET.ix x.new) = x.octet ∧
      d.ssQueue x.new = (((s.dev.ssQueue x.old).filter fun e => !e.bad).map fun e => { e with first := true }) ++ s.dev.ssQueue x.new ∧ Posts s.dev d [Ev.IMG_WALK_STEP]) ∧
  (∀ (s : State) (x : PierMove), s.dev.img.move = some x → x.retirement = false → x.start + 8 ≤ s.dev.tim.tick →
    s.dev.walkState = 1 → s.dev.img.reload = none → s.dev.img.failDue = [] → x.new < 17 →
    Completes (.walkStepTimeout false) s fun d => d.img.move = none ∧ d.pierState x.new = 3 ∧ d.walkState = 3 ∧
      d.rd F.IMG_WALK_STATUS_CAUSE = 2) ∧
  (∀ (s : State) (p : Pier), s.dev.dgn.stopped = none → s.dev.img.reload = some p.val → s.dev.pierState p.val = 2 →
    s.dev.stepsDone < 15 → s.dev.img.abandonDue = none →
    Completes (.pierReloadDone p true) s fun d => d.pierState p.val = 1 ∧ d.img.reload = none ∧
      d.stepsDone = s.dev.stepsDone + 1 ∧ d.rd F.IMG_WALK_STATUS_NEXT_OCTET = s.dev.stepsDone + 1)

/-- Where the faults and commands of piers complete (R100 to R102, R132, R366, R367): while the pair of the walk service runs, a pier that
serves no octet is retired at once, and a serving one moves onto the spare at the next span boundary; a stroke that times out is such a
fault; a spare is retired on command, and a retired pier starts its BIST. While that pair does not run the retirement waits, and the pier
stays as it is, which is the model's choice (log entry 22). -/
def Obligations.PierFaultCommandsComplete : Prop :=
  (∀ (s : State) (p : Pier) (kind : BitVec 4) (pipe : BitVec 2) (stage : BitVec 5) (bs bm : List Nat), kind = 1 ∨ kind = 2 →
    s.dev.pierState p.val ≠ 3 → s.dev.mode ≠ .m0 → s.dev.mode ≠ .m11 → s.dev.dgn.stopped = none → s.dev.pierHalted p.val = false →
    s.dev.img.move = none → s.dev.img.reload = none → s.dev.octetOf p.val = none → s.dev.serviceRuns F.CTL_SVC_MAP_WALK = true →
    Completes (.pierFault p kind pipe stage bs bm) s fun d => d.pierState p.val = 3 ∧ d.ssQueue p.val = [] ∧
      d.rd (F.PIR_FAULT_STAGE.pier p.val) = stage.toNat) ∧
  (∀ (s : State) (p : Pier) (kind : BitVec 4) (pipe : BitVec 2) (stage : BitVec 5) (bs bm : List Nat), kind = 1 ∨ kind = 2 →
    s.dev.pierState p.val ≠ 3 → s.dev.mode ≠ .m0 → s.dev.mode ≠ .m11 → s.dev.dgn.stopped = none → s.dev.pierHalted p.val = false →
    s.dev.img.move = none → s.dev.img.reload = none → s.dev.octetOf p.val = none → s.dev.serviceRuns F.CTL_SVC_MAP_WALK = false →
    Completes (.pierFault p kind pipe stage bs bm) s fun d => d.pierState p.val = s.dev.pierState p.val ∧ p.val ∈ d.img.failDue ∧
      Posts s.dev d [Ev.PIR_PIER_FAULT, Ev.IMG_PIER_FAIL]) ∧
  (∀ (s : State) (p : Pier) (kind : BitVec 4) (pipe : BitVec 2) (stage : BitVec 5) (bs bm : List Nat) (o new : Nat), kind = 1 ∨ kind = 2 →
    s.dev.pierState p.val ≠ 3 → s.dev.forwarding = true → s.dev.dgn.stopped = none → s.dev.pierHalted p.val = false →
    s.dev.img.move = none → s.dev.img.reload = none → s.dev.octetOf p.val = some o → s.dev.sparePier = some new →
    s.dev.dgn.runs = [] → s.dev.walkState = 0 → s.dev.serviceRuns F.CTL_SVC_MAP_WALK = true →
    Completes (.pierFault p kind pipe stage bs bm) s fun d => d.img.move = some ⟨o, p.val, new, s.dev.tim.tick + 1, true⟩) ∧
  (∀ (s : State) (p : Pier) (pipe : BitVec 2) (stage : BitVec 5), s.dev.pierState p.val ≠ 3 → s.dev.mode ≠ .m0 → s.dev.mode ≠ .m11 →
    s.dev.dgn.stopped = none → s.dev.pierHalted p.val = false → s.dev.img.move = none → s.dev.img.reload = none →
    s.dev.octetOf p.val = none → s.dev.serviceRuns F.CTL_SVC_MAP_WALK = true →
    Completes (.strokeTimeout p pipe stage) s fun d => d.pierState p.val = 3 ∧ d.on (F.PIR_FAULT_TIMEOUT.pier p.val) = true) ∧
  (∀ (s : State) (m : Master) (p : BitVec 5), s.dev.writes m.val F.IMG_PIER_CMD.off = true → p.toNat < 17 → s.dev.inStep = false →
    s.dev.pierState p.toNat = 1 → s.dev.octetOf p.toNat = none → s.dev.serviceRuns F.CTL_SVC_MAP_WALK = true →
    Completes (.pierRetireCmd m p) s fun d => d.pierState p.toNat = 3 ∧ Posts s.dev d [Ev.IMG_PIER_RETIRED]) ∧
  (∀ (s : State) (m : Master) (p : BitVec 5), s.dev.writes m.val F.IMG_PIER_CMD.off = true → p.toNat < 17 →
    s.dev.pierState p.toNat = 3 → s.dev.m7 = false →
    Completes (.pierRestoreCmd m p) s fun d => d.pierState p.toNat = 2 ∧ d.on F.DGN_STATUS_BIST_BUSY = true ∧
      d.dgn.runs = s.dev.dgn.runs ++ [⟨p.toNat, true, false⟩])

/-! ### Resets and mode requests (GLB) -/

/-- Where the resets complete (R378, R387, R407, R417, R419, R420, R437): a low pulse of 10 µs or longer is taken and one under 1 µs is not;
a power-on reset leaves the registers at their reset values and a system reset keeps the straps and, which is the model's choice (log entry
43), the whole window of the power manager; both sense the fuses again; PERST_N and a function-level reset disable the rings of their
functions; a rail at its reset level, a thermal trip and the security core reset the device as SYSRST_N does, outside M0. -/
def Obligations.ResetCommandsComplete : Prop :=
  (∀ (s : State) (n : Nat), 10000 ≤ n → s.dev.sec.fuseOp = none → s.dev.sec.flashOp = none →
    Completes (.porstNAssert n) s fun d => d.mode = .m0 ∧ (∀ k, d.reg k = regReset k) ∧ d.sec.array = s.dev.sec.array ∧ d.sec.fuses = s.dev.sec.array.sense ∧
      d.sec.flash = s.dev.sec.flash ∧ d.sec.porReset = true) ∧
  (∀ (s : State) (n : Nat), n < 1000 → Completes (.porstNAssert n) s fun d => d = s.dev) ∧
  (∀ (s : State) (n : Nat), 10000 ≤ n → s.dev.mode ≠ .m0 → s.dev.sec.fuseOp = none → s.dev.sec.flashOp = none →
    Completes (.sysrstNAssert n) s fun d => d.mode = .m0 ∧ d.on F.GLB_RESET_CAUSE_SYSRST = true ∧
      d.reg F.GLB_STRAP.off = s.dev.reg F.GLB_STRAP.off ∧ (∀ k, blockOf (k % 0x20000000) = 15 → d.reg k = s.dev.reg k) ∧
      d.sec.array = s.dev.sec.array ∧ d.sec.fuses = s.dev.sec.array.sense ∧ d.tim = Tim.reset) ∧
  (∀ (s : State) (n : Nat), n < 1000 → Completes (.sysrstNAssert n) s fun d => d = s.dev) ∧
  (∀ (s : State) (n : Nat), 10000 ≤ n → s.dev.mode ≠ .m0 →
    Completes (.perstNAssert n) s fun d => d.mode = s.dev.mode ∧ d.on F.GLB_RESET_CAUSE_PERST = true ∧
      d.on F.HST_STATUS_DL_UP = false ∧ ∀ r, r < 16 → d.ringAvail r = false) ∧
  (∀ (s : State) (pf : Fin 2), s.dev.mode ≠ .m0 →
    Completes (.functionLevelReset pf) s fun d => d.mode = s.dev.mode ∧
      d.on (if pf = 0 then F.GLB_RESET_CAUSE_FLR_PF0 else F.GLB_RESET_CAUSE_FLR_PF1) = true ∧
      ∀ r, r < 16 → s.dev.ringPf r = pf.val → d.ringAvail r = false) ∧
  (∀ s : State, s.dev.mode ≠ .m0 →
    Completes .railResetLevel s fun d => d.mode = .m0 ∧ d.on F.GLB_RESET_CAUSE_VRAIL = true ∧ d.shed = 0) ∧
  (∀ (s : State) (a : Nat) (v : Int), s.dev.mode ≠ .m0 → s.dev.pwr.tripDue = some (a, v) →
    Completes .thermalTrip s fun d => d.mode = .m0 ∧ d.on F.GLB_RESET_CAUSE_THERMAL = true ∧ d.pwr.tripHold = true ∧
      (d.posted.map (·.code)).head? = some Ev.PWR_THERM_TRIP.code) ∧
  (∀ s : State, s.dev.writes 6 F.SEC_CTRL.off = true → s.dev.mode ≠ .m10 → s.dev.mode ≠ .m11 →
    Completes (.secSysReset 6) s fun d => d.mode = .m0 ∧ d.on F.GLB_RESET_CAUSE_SEC = true) ∧
  (∀ (s : State) (m : Master), s.dev.writes m.val F.SEC_CTRL.off = true → m ≠ 6 ∨ s.dev.mode = .m10 ∨ s.dev.mode = .m11 →
    Completes (.secSysReset m) s fun d => d.mode = s.dev.mode ∧ Posts s.dev d [Ev.SEC_CMD_REFUSED])

/-- Where the releases from reset complete (R22, R34, R406, R421, R471, R473, R483): at the release of PORST_N the device samples its straps
and reads the supply monitors, and leaves M0 for M1 when TEST_EN is low and every monitor reads inside its range; a monitor outside holds it
until every one reads inside, and TEST_EN for as long as it is high, after whichever reset; the STC's source starts as the strap says. That
TEST_EN_RELEASE leaves M0 as the release which TEST_EN held up would have done is the model's choice (log entry 43). -/
def Obligations.ReleaseCommandsComplete : Prop :=
  (∀ (s : State) (st : BitVec 13) (mvs : List Nat), s.dev.mode = .m0 → s.dev.sec.testHold = false → s.dev.sec.supplyHold = false →
    s.dev.sec.porReset = true → s.dev.pwr.tripHold = false → mvs.length = 16 →
    (∀ n : Fin 16, (monitorRange n.val).1 ≤ mvs.getD n.val 0 + (monitorRange n.val).2 ∧
      mvs.getD n.val 0 ≤ (monitorRange n.val).1 + (monitorRange n.val).2) →
    Completes (.resetRelease st false mvs) s fun d => d.mode = .m1 ∧ d.rd F.GLB_STRAP = st.toNat ∧
      d.rd F.TIM_CTRL_SRC = d.rd F.GLB_STRAP_SELF_TIMED ∧ ∀ n : Fin 16, d.rd (F.PWR_RAIL_MV.ix n.val) = mvs.getD n.val 0) ∧
  (∀ (s : State) (st : BitVec 13) (mvs : List Nat) (n : Fin 16), s.dev.mode = .m0 → s.dev.sec.testHold = false →
    s.dev.sec.supplyHold = false → s.dev.sec.porReset = true → mvs.length = 16 →
    mvs.getD n.val 0 + (monitorRange n.val).2 < (monitorRange n.val).1 ∨
      ((monitorRange n.val).1 + (monitorRange n.val).2 < mvs.getD n.val 0) →
    Completes (.resetRelease st false mvs) s fun d => d.mode = .m0 ∧ d.rd F.GLB_STRAP = st.toNat ∧ d.sec.supplyHold = true) ∧
  (∀ (s : State) (st : BitVec 13) (mvs : List Nat), s.dev.mode = .m0 → s.dev.sec.testHold = false → s.dev.sec.supplyHold = false →
    s.dev.sec.porReset = false → s.dev.pwr.tripHold = false →
    Completes (.resetRelease st false mvs) s fun d => d.mode = .m1 ∧ d.rd F.GLB_STRAP = s.dev.rd F.GLB_STRAP ∧
      d.rd F.TIM_CTRL_SRC = d.rd F.GLB_STRAP_SELF_TIMED) ∧
  (∀ (s : State) (st : BitVec 13) (mvs : List Nat), s.dev.mode = .m0 → s.dev.sec.testHold = false → s.dev.sec.supplyHold = false →
    Completes (.resetRelease st true mvs) s fun d => d.mode = .m0 ∧ d.sec.testHold = true ∧ d.regs = s.dev.regs) ∧
  (∀ (s : State) (st : BitVec 13) (te : Bool) (mvs : List Nat), s.dev.mode ≠ .m0 ∨ s.dev.sec.testHold = true ∨ s.dev.sec.supplyHold = true →
    Completes (.resetRelease st te mvs) s fun d => d = s.dev) ∧
  (∀ (s : State) (st : BitVec 13) (mvs : List Nat), s.dev.mode = .m0 → s.dev.sec.testHold = true → s.dev.pwr.tripHold = false →
    s.dev.sec.porReset = true → mvs.length = 16 →
    (∀ n : Fin 16, (monitorRange n.val).1 ≤ mvs.getD n.val 0 + (monitorRange n.val).2 ∧
      mvs.getD n.val 0 ≤ (monitorRange n.val).1 + (monitorRange n.val).2) →
    Completes (.testEnRelease st mvs) s fun d => d.mode = .m1 ∧ d.rd F.GLB_STRAP = st.toNat ∧ d.sec.testHold = false) ∧
  (∀ (s : State) (st : BitVec 13) (mvs : List Nat), s.dev.mode = .m0 → s.dev.sec.testHold = true → s.dev.pwr.tripHold = false →
    s.dev.sec.porReset = false →
    Completes (.testEnRelease st mvs) s fun d => d.mode = .m1 ∧ d.rd F.GLB_STRAP = s.dev.rd F.GLB_STRAP ∧ d.sec.testHold = false) ∧
  (∀ s : State, s.dev.mode = .m0 → s.dev.sec.supplyHold = true → s.dev.sec.testHold = false → s.dev.suppliesIn = true →
    s.dev.pwr.tripHold = false → Completes .supplyMonitorsInRange s fun d => d.mode = .m1 ∧ d.sec.supplyHold = false ∧
      d.rd F.TIM_CTRL_SRC = d.rd F.GLB_STRAP_SELF_TIMED) ∧
  (∀ s : State, s.dev.sec.testHold = true ∨ s.dev.suppliesIn = false → Completes .supplyMonitorsInRange s fun d => d = s.dev)

/-- Where the mode requests complete (R10, R22, R23): GLB_LOCK is set by any write that reaches it; MAINT_REQ is accepted in M2 and M3
outside M7, with or without FWD_EN in the same write, and the device enters M10 when every flush has ended; refused, it leaves FWD_EN to be
evaluated on its own. FWD_EN starts forwarding in M2 with a valid live bank, as M3 without the twin and as M4 or M6 with it; without one it
is refused, and outside M2 ignored. That an FWD_EN of M3 written with an accepted MAINT_REQ is ignored and not refused is the model's choice
(log entry 43). -/
def Obligations.ModeRequestsComplete : Prop :=
  (∀ (s : State) (m : Master), s.dev.writes m.val F.GLB_LOCK.off = true →
    Completes (.glbLockSet m) s fun d => d.on F.GLB_LOCK_LOCK = true) ∧
  (∀ (s : State) (m : Master), s.dev.writes m.val F.GLB_CTRL.off = true → s.dev.mode = .m2 ∨ s.dev.mode = .m3 → s.dev.m7 = false →
    s.dev.on F.GLB_CTRL_MAINT_REQ = false →
    Completes (.maintReq m false) s fun d => d.on F.GLB_CTRL_MAINT_REQ = true ∧ d.mode = s.dev.mode ∧ d.lineStopped = true ∧
      d.que.flushes.length = s.dev.que.flushes.length + 1) ∧
  (∀ (s : State) (m : Master), s.dev.writes m.val F.GLB_CTRL.off = true → s.dev.mode ≠ .m2 → s.dev.mode ≠ .m3 ∨ s.dev.m7 = true →
    Completes (.maintReq m false) s fun d => d.mode = s.dev.mode ∧ d.on F.GLB_CTRL_MAINT_REQ = s.dev.on F.GLB_CTRL_MAINT_REQ ∧
      Posts s.dev d [Ev.GLB_CTRL_REFUSED]) ∧
  (∀ (s : State) (m : Master), s.dev.writes m.val F.GLB_CTRL.off = true → s.dev.mode = .m2 →
    s.dev.on F.IMG_STATUS_LIVE_VALID = true → s.dev.on F.GLB_CTRL_MAINT_REQ = false → s.dev.twinOn = false →
    Completes (.fwdEn m) s fun d => d.mode = .m3 ∧ d.on F.GLB_CTRL_FWD_EN = true) ∧
  (∀ (s : State) (m : Master), s.dev.writes m.val F.GLB_CTRL.off = true → s.dev.mode = .m2 →
    s.dev.on F.IMG_STATUS_LIVE_VALID = false →
    Completes (.fwdEn m) s fun d => d.mode = .m2 ∧ Posts s.dev d [Ev.GLB_CTRL_REFUSED]) ∧
  (∀ (s : State) (m : Master), s.dev.writes m.val F.GLB_CTRL.off = true → s.dev.mode = .m2 → s.dev.m7 = false →
    s.dev.on F.GLB_CTRL_MAINT_REQ = false →
    Completes (.maintReq m true) s fun d => d.on F.GLB_CTRL_MAINT_REQ = true ∧ d.on F.GLB_CTRL_FWD_EN = s.dev.on F.GLB_CTRL_FWD_EN ∧
      d.mode = .m2 ∧ d.que.flushes.length = s.dev.que.flushes.length + 1 ∧ Posts s.dev d [Ev.GLB_CTRL_REFUSED] ∧
      ∀ r ∈ d.posted.drop s.dev.posted.length, byteField r.payload 1 1 = 2) ∧
  (∀ (s : State) (m : Master), s.dev.writes m.val F.GLB_CTRL.off = true → s.dev.mode = .m3 → s.dev.m7 = false →
    s.dev.on F.GLB_CTRL_MAINT_REQ = false →
    Completes (.maintReq m true) s fun d => d.on F.GLB_CTRL_MAINT_REQ = true ∧ d.mode = .m3 ∧ d.posted = s.dev.posted) ∧
  (∀ (s : State) (m : Master), s.dev.writes m.val F.GLB_CTRL.off = true → (s.dev.mode ≠ .m2 ∧ s.dev.mode ≠ .m3) ∨ s.dev.m7 = true →
    s.dev.mode ≠ .m2 →
    Completes (.maintReq m true) s fun d => d.mode = s.dev.mode ∧ d.regs = s.dev.regs ∧ Posts s.dev d [Ev.GLB_CTRL_REFUSED]) ∧
  (∀ (s : State) (m : Master), s.dev.writes m.val F.GLB_CTRL.off = true → s.dev.mode = .m2 → s.dev.on F.IMG_STATUS_LIVE_VALID = true →
    s.dev.on F.GLB_CTRL_MAINT_REQ = false → s.dev.twinOn = true → s.dev.fabUp = true → s.dev.isOwner = true →
    Completes (.fwdEn m) s fun d => d.mode = .m4 ∧ d.on F.GLB_CTRL_FWD_EN = true) ∧
  (∀ (s : State) (m : Master), s.dev.writes m.val F.GLB_CTRL.off = true → s.dev.mode = .m2 → s.dev.on F.IMG_STATUS_LIVE_VALID = true →
    s.dev.on F.GLB_CTRL_MAINT_REQ = false → s.dev.twinOn = true → s.dev.fabUp = false ∨ s.dev.isOwner = false →
    Completes (.fwdEn m) s fun d => d.mode = .m6 ∧ d.on F.GLB_CTRL_FWD_EN = true) ∧
  (∀ (s : State) (m : Master), s.dev.writes m.val F.GLB_CTRL.off = true → s.dev.mode ≠ .m2 →
    Completes (.fwdEn m) s fun d => d = s.dev.noAbort) ∧
  (∀ s : State, s.dev.on F.GLB_CTRL_MAINT_REQ = true → s.dev.mode = .m2 ∨ s.dev.mode = .m3 → s.dev.que.flushes = [] →
    Completes .m10EntryComplete s fun d => d.mode = .m10 ∧ d.buf.held = [] ∧ d.pir.ss = [])

/-! ### Control complex (CTL) -/

/-- Where the commands of the lockstep pairs complete (R364 to R366, R370, R371, R375, R380): a first mismatch halts its pair, a third fails
it, a restart brings it back, a checkpoint shows its span; a request of a channel bound to a server is read and acknowledged, an orphan
without more, any other with a reply that is posted on the channel bound back: SERVICE, OPCODE and TAG as asked, and the STATUS where the
spec gives it. And where the doorbell and lock commands complete (R377, R382, R383): a master clears its own bits and sets its own mask,
another's write is ignored (it only ends without an abort); a free lock goes to the lowest of the masters that read it, an owned one stays
its owner's, and only a write of 0 by the owner releases it. -/
def Obligations.PairBellAndLockCommandsComplete : Prop :=
  (∀ (s : State) (p : Fin 4), s.dev.pairState p.val = 1 → s.dev.recentMismatches p.val = [] →
    Completes (.lockstepMismatch p) s fun d => d.pairState p.val = 2 ∧ d.twn.evidenceAt.get (fun _ => 0) 3 = s.dev.tim.tick ∧
      Posts s.dev d [Ev.CTL_LOCKSTEP]) ∧
  (∀ (s : State) (p : Fin 4), s.dev.pairState p.val = 1 → 2 ≤ (s.dev.recentMismatches p.val).length →
    Completes (.lockstepMismatch p) s fun d => d.pairState p.val = 4) ∧
  (∀ (s : State) (p : Fin 4), s.dev.pairState p.val = 2 ∨ s.dev.pairState p.val = 3 →
    Completes (.pairRestart p) s fun d => d.pairState p.val = 1 ∧ d.gen (2 + p.val) = s.dev.gen (2 + p.val) + 1 ∧
      ∀ n, n < 64 → d.lock n ≠ 2 + p.val + 1) ∧
  (∀ (s : State) (p : Fin 4), s.dev.pairState p.val = 1 →
    Completes (.pairCheckpoint p) s fun d => d.rd (F.CTL_PAIR_CKPT_SPAN.ix p.val) = s.dev.tim.span % 2 ^ F.CTL_PAIR_CKPT_SPAN.w) ∧
  (∀ (s : State) (v : Fin 6) (n : Fin 64), s.dev.mbxValid n.val = true → s.dev.mbxReceiver n.val = v.val →
    (s.dev.chan n.val).full = true → s.dev.issues v.val = true → s.dev.masterPowered v.val = true →
    s.dev.backChannel v.val (s.dev.mbxSender n.val) = none →
    Completes (.serviceRequest v n) s fun d => (d.chan n.val).full = false ∧ (d.chan n.val).latched = (s.dev.chan n.val).msg) ∧
  (∀ (s : State) (v : Fin 6) (n : Fin 64), s.dev.mbxValid n.val = true → s.dev.mbxReceiver n.val = v.val →
    (s.dev.chan n.val).full = true → s.dev.issues v.val = true → s.dev.masterPowered v.val = true →
    (s.dev.chan n.val).gen ≠ s.dev.gen (s.dev.mbxSender n.val) →
    Completes (.serviceRequest v n) s fun d => (d.chan n.val).full = false ∧ (d.chan n.val).latched = (s.dev.chan n.val).msg ∧
      d.posted = s.dev.posted ∧ d.regs = s.dev.regs ∧ ∀ k : Fin 64, k ≠ n → d.chan k.val = s.dev.chan k.val) ∧
  (∀ (s : State) (v : Fin 6) (n : Fin 64) (r : Nat), let q := (s.dev.chan n.val).msg
    s.dev.mbxValid n.val = true → s.dev.mbxReceiver n.val = v.val → (s.dev.chan n.val).full = true → s.dev.issues v.val = true →
    s.dev.masterPowered v.val = true → s.dev.mbxSender n.val ≠ v.val → (s.dev.chan n.val).gen = s.dev.gen (s.dev.mbxSender n.val) →
    s.dev.backChannel v.val (s.dev.mbxSender n.val) = some r → s.dev.masterPowered (s.dev.mbxSender n.val) = true →
    Completes (.serviceRequest v n) s fun d => (d.chan n.val).full = false ∧ (d.chan n.val).latched = q ∧ (d.chan r).full = true ∧
      (d.chan r).len = 64 ∧ (d.chan r).seq = (s.dev.chan r).seq + 1 ∧ byteField (d.chan r).msg 0 1 = byteField q 0 1 ∧
      byteField (d.chan r).msg 1 1 = byteField q 1 1 ∧ byteField (d.chan r).msg 2 2 = byteField q 2 2 ∧ byteField (d.chan r).msg 5 1 = 1 ∧
      (serviceKnown v.val (byteField q 0 1) = false → byteField (d.chan r).msg 4 1 = 1) ∧
      (2 ≤ v.val → byteField q 0 1 = 0 → byteField q 1 1 = 0 →
        byteField (d.chan r).msg 4 1 = 0 ∧ byteField (d.chan r).msg 8 4 = s.dev.rd F.CTL_FW_VERSION) ∧
      (v.val < 2 → byteField q 0 1 = 0x80 + v.val → byteField q 1 1 = 0 → byteField (d.chan r).msg 4 1 = 0) ∧
      (2 ≤ v.val → 1 ≤ byteField q 0 1 → byteField q 0 1 ≤ 6 → s.dev.servicePair (byteField q 0 1) ≠ v.val - 2 →
        byteField (d.chan r).msg 4 1 = 5 ∧ byteField (d.chan r).msg 8 1 = s.dev.servicePair (byteField q 0 1))) ∧
  (∀ (s : State) (m : Master) (data : Word), s.dev.writes m.val (F.CTL_BELL.ix m.val).off = true →
    Completes (.bellClear m m data) s fun d =>
      d.rd (F.CTL_BELL_BITS.ix m.val) = (BitVec.ofNat 32 (s.dev.rd (F.CTL_BELL_BITS.ix m.val)) &&& ~~~data).toNat) ∧
  (∀ (s : State) (m : Master) (t : Fin 10) (data : Word), s.dev.writes m.val (F.CTL_BELL.ix t.val).off = true → m ≠ t →
    Completes (.bellClear m t data) s fun d => d = s.dev.noAbort) ∧
  (∀ (s : State) (m : Master) (data : Word), s.dev.writes m.val (F.CTL_BELL_MASK.ix m.val).off = true →
    Completes (.bellMaskWrite m m data) s fun d => d.rd (F.CTL_BELL_MASK_BITS.ix m.val) = data.toNat ∧
      d.rd (F.CTL_BELL_BITS.ix m.val) = s.dev.rd (F.CTL_BELL_BITS.ix m.val)) ∧
  (∀ (s : State) (m : Master) (n : Fin 64), s.dev.reads m.val (F.CTL_LOCK.ix n.val).off = true → s.dev.lock n.val = 0 →
    Completes (.lockRead [m] n) s fun d => d.lock n.val = m.val + 1 ∧ d.lastRead = 0) ∧
  (∀ (s : State) (a b : Master) (n : Fin 64), s.dev.reads a.val (F.CTL_LOCK.ix n.val).off = true →
    s.dev.reads b.val (F.CTL_LOCK.ix n.val).off = true → s.dev.lock n.val = 0 → a < b →
    Completes (.lockRead [b, a] n) s fun d => d.lock n.val = a.val + 1 ∧ d.lastRead = BitVec.ofNat 32 (a.val + 1)) ∧
  (∀ (s : State) (m : Master) (n : Fin 64), s.dev.reads m.val (F.CTL_LOCK.ix n.val).off = true → s.dev.lock n.val ≠ 0 →
    Completes (.lockRead [m] n) s fun d => d.lock n.val = s.dev.lock n.val ∧ d.lastRead = BitVec.ofNat 32 (s.dev.lock n.val)) ∧
  (∀ (s : State) (m : Master) (n : Fin 64), s.dev.writes m.val (F.CTL_LOCK.ix n.val).off = true → s.dev.lock n.val = m.val + 1 →
    Completes (.lockWrite m n 0) s fun d => d.lock n.val = 0 ∧ d.posted = s.dev.posted) ∧
  (∀ (s : State) (m : Master) (n : Fin 64) (data : Word), s.dev.writes m.val (F.CTL_LOCK.ix n.val).off = true →
    data ≠ 0 ∨ s.dev.lock n.val ≠ m.val + 1 →
    Completes (.lockWrite m n data) s fun d => d.ctl = s.dev.ctl ∧ Posts s.dev d [Ev.CTL_LOCK_BAD_RELEASE])

/-- Where the mailbox commands complete (R372, R374 to R376): a binding while the table is not locked, the lock of the table, the sender's
data and post, the receiver's status read and acknowledgement. An access that the binding does not allow changes no channel and is told. -/
def Obligations.MailboxCommandsComplete : Prop :=
  (∀ (s : State) (n : Fin 64) (data : Word), s.dev.writes 0 (F.CTL_MBX_BIND.ix n.val).off = true → s.dev.bindLocked = false →
    bindRefused data = false →
    Completes (.mbxBindWrite 0 n data) s fun d => d.mbxSender n.val = bits data 3 0 ∧ d.mbxReceiver n.val = bits data 7 4 ∧
      d.mbxValid n.val = bitOn data 31) ∧
  (∀ (s : State) (m : Master) (n : Fin 64) (data : Word), s.dev.writes m.val (F.CTL_MBX_BIND.ix n.val).off = true →
    m ≠ 0 ∨ s.dev.bindLocked = true → Completes (.mbxBindWrite m n data) s fun d => d = s.dev.noAbort) ∧
  (∀ s : State, s.dev.writes 0 F.CTL_BIND_LOCK.off = true → Completes (.bindLockSet 0) s fun d => d.bindLocked = true) ∧
  (∀ (s : State) (m : Master) (n : Fin 64) (w : Fin 16) (data : Word), s.dev.writes m.val (0x13002000 + 0x80 * n.val + 4 * w.val) = true →
    s.dev.mbxCheck n.val m.val true false false = .ok →
    Completes (.mbxDataWrite m n w data) s fun d => bits (d.chan n.val).staging (32 * w.val + 31) (32 * w.val) = data.toNat ∧
      (d.chan n.val).msg = (s.dev.chan n.val).msg) ∧
  (∀ (s : State) (m : Master) (n : Fin 64) (data : Word), s.dev.writes m.val (0x13002040 + 0x80 * n.val) = true →
    s.dev.mbxCheck n.val m.val true false false = .ok → data.toNat % 128 ≠ 0 →
    Completes (.mbxPost m n data) s fun d => (d.chan n.val).msg = (s.dev.chan n.val).staging ∧ (d.chan n.val).full = true ∧
      (d.chan n.val).len = min (data.toNat % 128) 64 ∧ (d.chan n.val).seq = (s.dev.chan n.val).seq + 1 ∧
      (d.chan n.val).collide = ((s.dev.chan n.val).collide || (s.dev.chan n.val).full)) ∧
  (∀ (s : State) (m : Master) (n : Fin 64), s.dev.reads m.val (0x13002048 + 0x80 * n.val) = true →
    s.dev.mbxCheck n.val m.val false true true = .ok →
    Completes (.mbxRxstatRead m n) s fun d => d.lastRead = BitVec.ofNat 32 (s.dev.rxStat n.val) ∧
      (d.chan n.val).latched = if m = 9 then (s.dev.chan n.val).latched else (s.dev.chan n.val).msg) ∧
  (∀ (s : State) (m : Master) (n : Fin 64) (data : Word), s.dev.writes m.val (0x1300204C + 0x80 * n.val) = true →
    s.dev.mbxCheck n.val m.val false true false = .ok → data.toNat % 65536 = (s.dev.chan n.val).seq.toNat →
    Completes (.mbxAck m n data) s fun d => (d.chan n.val).full = false ∧ (d.chan n.val).seq = (s.dev.chan n.val).seq) ∧
  (∀ (s : State) (m : Master) (n : Fin 64) (data : Word), s.dev.writes m.val (0x13002040 + 0x80 * n.val) = true →
    s.dev.mbxCheck n.val m.val true false false = .denied →
    Completes (.mbxPost m n data) s fun d => d.ctl.chans = s.dev.ctl.chans ∧ d.lastAbort = true ∧ Posts s.dev d [Ev.CTL_MBX_DENIED])

/-! ### Host interface (HST) -/

/-- Where the event commands complete (R30, R392, R394, R396, R397): a record that no rule suppresses takes the accept index of its ring and
waits in the engine queue; a suppressed one adds to its source's count; an alarm sets its block's bit in GLB_ALARM_SUMMARY either way and,
if it is suppressed, its source's bit of HST_ALM_SAT; an accepted summary takes the counts it carries from its source's; the oldest record
is written at its place in host memory and PROD passes it; a ring is enabled at CONS, is lost to a DMA error, and raises its vector for an
alarm, for MOD_CNT records and MOD_SPANS spans after the first, and not before; a blotter interval posts one summary for each source with
counts. -/
def Obligations.EventCommandsComplete : Prop :=
  (∀ (s : State) (r : EventRec) (rest : List EventRec), s.dev.posted = r :: rest → r.cls ≠ .alarm → r.cls ≠ .summary →
    s.dev.suppresses r = false →
    Completes (.eventPost none) s fun d => d.posted = rest ∧
      d.acceptIdx (s.dev.routeOf r) = s.dev.acceptIdx (s.dev.routeOf r) + 1 ∧
      d.hst.engineQ.dropLast = s.dev.hst.engineQ ∧
      d.hst.engineQ.getLast?.map (fun q => (q.ring, q.seq)) = some (s.dev.routeOf r, s.dev.acceptIdx (s.dev.routeOf r))) ∧
  (∀ (s : State) (r : EventRec) (rest : List EventRec), s.dev.posted = r :: rest → r.cls ≠ .alarm → r.cls ≠ .summary →
    s.dev.suppresses r = true →
    Completes (.eventPost none) s fun d => d.posted = rest ∧ d.hst.engineQ = s.dev.hst.engineQ ∧ d.hst.accept = s.dev.hst.accept ∧
      d.rd (suppFld (recSource r) (classCode r.cls)) = min (s.dev.rd (suppFld (recSource r) (classCode r.cls)) + 1) (2 ^ 32 - 1)) ∧
  (∀ (s : State) (r : EventRec) (rest : List EventRec), s.dev.posted = r :: rest → r.cls = .alarm → recBlock r < 18 →
    Completes (.eventPost none) s fun d => d.rd { F.GLB_ALARM_SUMMARY with lo := recBlock r, w := 1 } = 1) ∧
  (∀ (s : State) (r : EventRec) (rest : List EventRec), s.dev.posted = r :: rest → r.cls = .alarm → s.dev.suppresses r = false →
    Completes (.eventPost none) s fun d => d.posted = rest ∧
      d.acceptIdx (s.dev.routeOf r) = s.dev.acceptIdx (s.dev.routeOf r) + 1 ∧ d.hst.engineQ.dropLast = s.dev.hst.engineQ ∧
      d.hst.engineQ.getLast?.map (fun q => (q.ring, q.seq)) = some (s.dev.routeOf r, s.dev.acceptIdx (s.dev.routeOf r))) ∧
  (∀ (s : State) (r : EventRec) (rest : List EventRec), s.dev.posted = r :: rest → r.cls = .alarm → recBlock r < 18 →
    s.dev.suppresses r = true →
    Completes (.eventPost none) s fun d => d.posted = rest ∧ d.hst.engineQ = s.dev.hst.engineQ ∧ d.hst.accept = s.dev.hst.accept ∧
      d.rd (suppFld (recSource r) 0) = min (s.dev.rd (suppFld (recSource r) 0) + 1) (2 ^ 32 - 1) ∧ d.on (almSatFld (recSource r)) = true) ∧
  (∀ (s : State) (r : EventRec) (rest : List EventRec), s.dev.posted = r :: rest → r.cls = .summary → s.dev.suppresses r = false →
    Completes (.eventPost none) s fun d => d.posted = rest ∧
      d.acceptIdx (s.dev.routeOf r) = s.dev.acceptIdx (s.dev.routeOf r) + 1 ∧ d.hst.engineQ.dropLast = s.dev.hst.engineQ ∧
      ∀ c : Fin 5, d.rd (suppFld (recSource r) c.val) = s.dev.rd (suppFld (recSource r) c.val) - recSummaryCount r c.val) ∧
  (∀ (s : State) (r : EventRec) (rest : List EventRec), s.dev.posted = r :: rest → r.cls = .summary → s.dev.suppresses r = true →
    Completes (.eventPost none) s fun d => d.posted = rest ∧ d.hst.engineQ = s.dev.hst.engineQ ∧ d.hst.accept = s.dev.hst.accept ∧
      d.rd F.HST_EV_SUPPRESSED = min (s.dev.rd F.HST_EV_SUPPRESSED + 1) (2 ^ 64 - 1) ∧
      ∀ c : Fin 5, d.rd (suppFld (recSource r) c.val) = s.dev.rd (suppFld (recSource r) c.val)) ∧
  (∀ (s : State) (q : QueuedRec) (rest : List QueuedRec), s.dev.hst.engineQ = q :: rest →
    s.dev.hst.writesTick ≠ s.dev.tim.tick ∨ s.dev.hst.writes < 16 →
    Completes .eventWrite s fun d => d.hst.engineQ = rest ∧
      d.hostMem = hostPutAll s.dev.hostMem (s.dev.ringPlace q.ring q.seq.toNat) (leBytes 64 q.bytes.toNat) ∧
      d.rd (F.HST_EVR_PROD.ix q.ring) = (q.seq + 1).toNat) ∧
  (∀ (s : State) (m : Master) (n : Fin 16) (data : Word), s.dev.writes m.val (F.HST_EVR_CFG.ix n.val).off = true →
    s.dev.ringAvail n.val = false → bitOn data 31 = true →
    Completes (.evrEnableWrite m n data) s fun d => d.ringAvail n.val = true ∧
      d.rd (F.HST_EVR_PROD.ix n.val) = s.dev.rd (F.HST_EVR_CONS.ix n.val) ∧ (d.acceptIdx n.val).toNat = s.dev.rd (F.HST_EVR_CONS.ix n.val) ∧
      d.ringK n.val = max 6 (min 20 (bits data 4 0)) ∧ d.posted = s.dev.posted) ∧
  (∀ (s : State) (n : Fin 16), s.dev.ringAvail n.val = true →
    Completes (.evrDmaError n) s fun d => d.ringAvail n.val = false ∧ d.on (F.HST_EVR_CFG_ERR.ix n.val) = true ∧
      d.posted = s.dev.posted ∧ d.hst.engineQ = s.dev.hst.engineQ.filter (fun q => q.ring != n.val)) ∧
  (∀ (s : State) (n : Fin 16) (k t : Nat), s.dev.hst.unsignalled.get (fun _ => (0, 0, false)) n.val = (k + 1, t, true) →
    s.dev.on (F.HST_EVR_CFG_IRQ_EN.ix n.val) = true →
    Completes (.evrInterrupt n) s fun d => d.hst.irqs = s.dev.hst.irqs ++ [(s.dev.ringPf n.val, s.dev.rd (F.HST_EVR_CFG_VECTOR.ix n.val))]) ∧
  (∀ (s : State) (n : Fin 16) (k t : Nat), s.dev.hst.unsignalled.get (fun _ => (0, 0, false)) n.val = (k + 1, t, false) →
    s.dev.on (F.HST_EVR_CFG_IRQ_EN.ix n.val) = true → s.dev.rd (F.HST_EVR_MOD_MOD_CNT.ix n.val) ≤ k + 1 ∨
      t + s.dev.rd (F.HST_EVR_MOD_MOD_SPANS.ix n.val) ≤ s.dev.tim.tick →
    Completes (.evrInterrupt n) s fun d =>
      d.hst.irqs = s.dev.hst.irqs ++ [(s.dev.ringPf n.val, s.dev.rd (F.HST_EVR_CFG_VECTOR.ix n.val))] ∧
      d.hst.unsignalled.get (fun _ => (0, 0, false)) n.val = (0, 0, false)) ∧
  (∀ (s : State) (n : Fin 16) (k t : Nat), s.dev.hst.unsignalled.get (fun _ => (0, 0, false)) n.val = (k, t, false) →
    k = 0 ∨ (k < s.dev.rd (F.HST_EVR_MOD_MOD_CNT.ix n.val) ∧ s.dev.tim.tick < t + s.dev.rd (F.HST_EVR_MOD_MOD_SPANS.ix n.val)) →
    Completes (.evrInterrupt n) s fun d => d = s.dev) ∧
  (∀ s : State, s.dev.periodic % 1024 = 0 → s.dev.hst.interval ≠ some s.dev.periodic → s.dev.serviceRuns F.CTL_SVC_MAP_BLOTTER = true →
    Completes .blotterInterval s fun d => d.hst.interval = some s.dev.periodic ∧ d.hst.logCount = [] ∧
      Posts s.dev d (((List.range 512).filter s.dev.sourceSuppressed).map fun _ => Ev.HST_SUMMARY))

/-- Where the link and queue commands complete (R388, R390, R391, R398, R491): the data link comes up, but not in M0, and goes down; a tail
and an enable by the host's function; a good descriptor leaves its packet at its octet and HEAD as it was (the packet's stroke moves it), a
bad one is refused, told and passed by HEAD; and telemetry sends in its turn the records that its bucket pays for, or drops one that it
cannot pay for. That HEAD stays at the fetch (log entry 44) and that a record which the bucket cannot pay for is dropped (log entry 36) are
the model's choices. And where the I3C commands complete (R400, R401): a target without an address sends its identity, takes the address
ENTDAA gives it and drops it at RSTDAA; a write of one byte sets the read offset, and a read returns the status page from there. The order
of the identity's bytes is MIPI I3C's, which the spec does not give (log entry 36, PRESUMED), and a read leaves the offset (log entry 36):
the model's choices. -/
def Obligations.HostQueueCommandsComplete : Prop :=
  (∀ (s : State) (w : BitVec 4) (r : BitVec 7), s.dev.on F.HST_STATUS_DL_UP = false → s.dev.mode ≠ .m0 →
    Completes (.pcieLinkUp w r) s fun d => d.on F.HST_STATUS_DL_UP = true ∧ d.rd F.HST_STATUS_WIDTH = w.toNat ∧
      d.rd F.HST_STATUS_RATE = r.toNat ∧ Posts s.dev d [Ev.HST_LINK_CHANGE]) ∧
  (∀ (s : State) (w : BitVec 4) (r : BitVec 7), s.dev.mode = .m0 → Completes (.pcieLinkUp w r) s fun d => d = s.dev) ∧
  (∀ s : State, s.dev.on F.HST_STATUS_DL_UP = true →
    Completes .pcieLinkDown s fun d => d.reg F.HST_STATUS.off = 0 ∧ Posts s.dev d [Ev.HST_LINK_CHANGE]) ∧
  (∀ (s : State) (q : Fin 64) (t : BitVec 16), s.dev.writes 7 (F.HST_PQ_TAIL.ix q.val).off = true →
    Completes (.pqTailWrite 7 q t) s fun d => d.rd (F.HST_PQ_TAIL_INDEX.ix q.val) = t.toNat) ∧
  (∀ (s : State) (q : Fin 16) (t : BitVec 16), s.dev.writes 7 (F.HST_IQ_TAIL.ix q.val).off = true → q ≠ 15 →
    Completes (.iqTailWrite 7 q t) s fun d => d.rd (F.HST_IQ_TAIL_INDEX.ix q.val) = t.toNat ∧ d.posted = s.dev.posted) ∧
  (∀ (s : State) (q : Fin 64) (data : Word), s.dev.writes 7 (F.HST_PQ_CFG.ix q.val).off = true →
    s.dev.on (F.HST_PQ_CFG_EN.ix q.val) = false → bitOn data 31 = true →
    Completes (.queueEnableWrite 7 false q data) s fun d => d.on (F.HST_PQ_CFG_EN.ix q.val) = true ∧
      d.rd (F.HST_PQ_HEAD_INDEX.ix q.val) = s.dev.rd (F.HST_PQ_TAIL_INDEX.ix q.val)) ∧
  (∀ (s : State) (q : Fin 16) (x : BitVec 256) (l : List Byte), s.dev.iqReady q.val = true → s.dev.iqTurn q.val = true →
    injectBar x (some l) = 0 →
    Completes (.injectFetch q x (some l)) s fun d =>
      d.hst.fetched.get (fun _ => none) q.val = some (bits x 87 80 / 4 * 4 + 1) ∧
      (d.injectQueue (s.dev.rd (F.HST_IQ_CFG_OCTET.ix q.val))).dropLast = s.dev.injectQueue (s.dev.rd (F.HST_IQ_CFG_OCTET.ix q.val)) ∧
      (d.injectQueue (s.dev.rd (F.HST_IQ_CFG_OCTET.ix q.val))).getLast?.map (fun p => (p.bytes, p.back)) =
        some (bytesAt l 0 (bits x 77 64), some q.val) ∧
      d.rd (F.HST_IQ_HEAD_INDEX.ix q.val) = s.dev.rd (F.HST_IQ_HEAD_INDEX.ix q.val) ∧ d.posted = s.dev.posted) ∧
  (∀ (s : State) (q : Fin 16) (x : BitVec 256) (l : Option (List Byte)), s.dev.iqReady q.val = true → s.dev.iqTurn q.val = true →
    injectBar x l ≠ 0 →
    Completes (.injectFetch q x l) s fun d => d.pir.inject = s.dev.pir.inject ∧
      d.rd (F.HST_IQ_HEAD_INDEX.ix q.val) = (s.dev.rd (F.HST_IQ_HEAD_INDEX.ix q.val) + 1) % 65536 ∧ Posts s.dev d [Ev.HST_INJECT_ERR]) ∧
  (∀ s : State, s.dev.telemRuns = true → 0 < s.dev.telemFits → s.dev.iqTurn 15 = true →
    Completes .telemetryExport s fun d => d.hst.telemQ = s.dev.hst.telemQ.drop s.dev.telemFits ∧ d.hst.telemSeq = s.dev.hst.telemSeq + 1 ∧
      (d.injectQueue (s.dev.rd (F.HST_IQ_CFG_OCTET.ix 15))).dropLast = s.dev.injectQueue (s.dev.rd (F.HST_IQ_CFG_OCTET.ix 15)) ∧
      (d.injectQueue (s.dev.rd (F.HST_IQ_CFG_OCTET.ix 15))).length = (s.dev.injectQueue (s.dev.rd (F.HST_IQ_CFG_OCTET.ix 15))).length + 1) ∧
  (∀ (s : State) (q : QueuedRec) (rest : List QueuedRec), s.dev.telemRuns = true → s.dev.hst.telemQ = q :: rest → s.dev.telemFits = 0 →
    Completes .telemetryExport s fun d => d.hst.telemQ = rest ∧
      d.rd F.HST_TELEM_DROPPED = min (s.dev.rd F.HST_TELEM_DROPPED + 1) (2 ^ 64 - 1)) ∧
  (∀ (s : State) (a : BitVec 7), s.dev.hst.i3cDa = none →
    Completes (.entdaa a) s fun d => d.hst.i3cDa = some a ∧ d.hst.i3cOut = i3cIdentity ∧ d.on F.HST_I3C_STATUS_ASSIGNED = true ∧ d.rd F.HST_I3C_STATUS_DA = a.toNat) ∧
  (∀ (s : State) (a b : BitVec 7), s.dev.hst.i3cDa = some b → Completes (.entdaa a) s fun d => d = s.dev) ∧
  (∀ s : State, Completes .rstdaa s fun d => d.hst.i3cDa = none ∧ d.on F.HST_I3C_STATUS_ASSIGNED = false) ∧
  (∀ (s : State) (b : Byte) (a : BitVec 7), s.dev.hst.i3cDa = some a →
    Completes (.i3cPrivateWrite [b]) s fun d => d.hst.i3cOff = b.toNat % 64) ∧
  (∀ (s : State) (l : List Byte), l.length ≠ 1 → Completes (.i3cPrivateWrite l) s fun d => d = s.dev) ∧
  (∀ (s : State) (n : Nat) (a : BitVec 7), s.dev.hst.i3cDa = some a →
    Completes (.i3cPrivateRead n) s fun d => d.hst.i3cOut.length = n ∧
      ∀ k, k < n → d.hst.i3cOut.getD k 0 = s.dev.statusPage.getD ((s.dev.hst.i3cOff + k) % 64) 0)

/-! ### Line ports (LPT) -/

/-- Where the frame commands of a port complete (R108, R115 to R118, R121): a good frame waits at its octet and one with a bad FCS is
counted and dropped; PAUSE stops every class for its pause time, and one that has run out releases its class; above XON a pause is repeated
once half of QUANTA quanta have gone since the last, and not before; a class paused for WD spans has PFC ignored; a frame of an open class
is on its way from that instant, and sent when its last byte is. That a storm also ends the present pause is the model's choice (log entry
23). -/
def Obligations.LineFrameCommandsComplete : Prop :=
  (∀ (s : State) (p : Port) (l : List Byte) (k : Fin 3200), s.dev.linkUp p.val = true → s.dev.forwarding = true →
    crc32 (frameBody l) = frameFcs l → 64 ≤ l.length → l.length ≤ s.dev.maxFrame p.val → controlOf l = none →
    s.dev.on (F.LPT_MSEC_CTRL_RX_EN.port p.val) = false →
    s.dev.octetStopped (s.dev.portOctet p.val) = true ∨ s.dev.rxBytes (s.dev.portOctet p.val) + (frameBody l).length + 4 ≤ 1048576 →
    Completes (.frameReceive p l k) s fun d =>
      (d.rxQueue (s.dev.portOctet p.val)).map (·.bytes) = (s.dev.rxQueue (s.dev.portOctet p.val)).map (·.bytes) ++ [frameBody l] ∧
      d.rd (F.LPT_RX_OK_FRAMES.port p.val) = min (s.dev.rd (F.LPT_RX_OK_FRAMES.port p.val) + 1) (2 ^ 64 - 1)) ∧
  (∀ (s : State) (p : Port) (l : List Byte) (k : Fin 3200), s.dev.linkUp p.val = true → s.dev.lineStopped = false →
    crc32 (frameBody l) ≠ frameFcs l →
    Completes (.frameReceive p l k) s fun d => d.lpt = s.dev.lpt ∧
      d.rd (F.LPT_RX_FCS_ERR.port p.val) = min (s.dev.rd (F.LPT_RX_FCS_ERR.port p.val) + 1) (2 ^ 64 - 1)) ∧
  (∀ (s : State) (p : Port) (t : BitVec 16), s.dev.lineSends p.val = true → s.dev.flowMode p.val = 1 → t ≠ 0 →
    Completes (.macControlFrameRx p (.pause t)) s fun d => ∀ c, c < 8 → bitOn (d.lp p.val).paused c = true ∧
      (d.lp p.val).pausedUntil.get (fun _ => 0) c = s.dev.instant (32 * s.dev.tim.tickSlot) + t.toNat * s.dev.quantum p.val) ∧
  (∀ (s : State) (p : Port) (c : Fin 8), (s.dev.lp p.val).pausedUntil.get (fun _ => 0) c.val < s.dev.slotEnd →
    Completes (.pauseExpiry p c) s fun d => bitOn (d.lp p.val).paused c.val = false) ∧
  (∀ (s : State) (p : Port) (c : Fin 8), s.dev.lineSends p.val = true → s.dev.flowMode p.val = 2 → bitOn (s.dev.lp p.val).xoff c.val = true →
    s.dev.rd (F.LPT_PFC_THR_XON.port p.val) * 4096 < s.dev.flowBytes p.val c.val →
    2 * (s.dev.lp p.val).ctlAt.get (fun _ => 0) c.val + s.dev.rd (F.LPT_PFC_QUANTA.port p.val) * s.dev.quantum p.val < 2 * s.dev.slotEnd →
    Completes (.pfcRefresh p c) s fun d =>
      (d.lp p.val).ctlOut = (s.dev.lp p.val).ctlOut ++ [(c.val, s.dev.rd (F.LPT_PFC_QUANTA.port p.val))] ∧
      (d.lp p.val).ctlAt.get (fun _ => 0) c.val = s.dev.instant (32 * s.dev.tim.tickSlot)) ∧
  (∀ (s : State) (p : Port) (c : Fin 8), s.dev.flowMode p.val = 2 →
    2 * s.dev.slotEnd ≤ 2 * (s.dev.lp p.val).ctlAt.get (fun _ => 0) c.val + s.dev.rd (F.LPT_PFC_QUANTA.port p.val) * s.dev.quantum p.val →
    Completes (.pfcRefresh p c) s fun d => d = s.dev) ∧
  (∀ (s : State) (p : Port) (c : Fin 8), s.dev.rd (F.LPT_PFC_WD.port p.val) ≠ 0 → bitOn (s.dev.lp p.val).ignored c.val = false →
    bitOn (s.dev.lp p.val).paused c.val = true →
    (s.dev.lp p.val).pausedAt.get (fun _ => 0) c.val + s.dev.rd (F.LPT_PFC_WD.port p.val) ≤ s.dev.tim.tick →
    Completes (.pfcWatchdog p c) s fun d => bitOn (d.lp p.val).ignored c.val = true ∧ bitOn (d.lp p.val).paused c.val = false ∧
      Posts s.dev d [Ev.LPT_PFC_STORM]) ∧
  (∀ (s : State) (p : Port) (k : Fin 3200) (f : TxFrame), s.dev.linkUp p.val = true → s.dev.lineStopped = false → s.dev.silent = false →
    (s.dev.lp p.val).flight = none → (s.dev.lp p.val).frag = none →
    (s.dev.lp p.val).tx = [f] → (s.dev.lp p.val).gclRun = none → (s.dev.lp p.val).gclPending = none → (s.dev.lp p.val).hold = false →
    bitOn (s.dev.lp p.val).paused f.cls = false → f.tsTag = none →
    Completes (.frameTransmit p k) s fun d => (d.lp p.val).tx = [] ∧
      (d.lp p.val).flight = some { frame := f, express := !s.dev.preemptable p.val f.cls, before := 0, start := s.dev.instant k.val,
                                   plan := f.macBytes }) ∧
  (∀ (s : State) (p : Port) (k : Fin 3200) (y : Flight), s.dev.linkUp p.val = true → s.dev.lineStopped = false → s.dev.silent = false →
    (s.dev.lp p.val).flight = some y → y.plan = y.frame.macBytes - y.before →
    y.plan ≤ (s.dev.instant k.val - y.start) * s.dev.portGbps p.val / 800 - 8 →
    Completes (.frameTransmit p k) s fun d => (d.lp p.val).flight = none ∧
      (d.lp p.val).lastTx = bytesAt y.frame.bytes 0 (max y.frame.bytes.length 60) ∧
      d.rd (F.LPT_TX_OK_FRAMES.port p.val) = min (s.dev.rd (F.LPT_TX_OK_FRAMES.port p.val) + 1) (2 ^ 64 - 1))

/-- Where the configuration commands of a port complete (R106, R112, R114, R127): a permutation is taken as a lane map while the octet is
administratively down and refused otherwise; an SA that is not in use is installed whole, and a retired one is invalid with its staged key
cleared; the timestamp FIFO loses its head; and every counter of the port is zeroed. And where the gate-list and preemption commands
complete (R47, R119, R120, R123): a legal staged list becomes the pending one, with a start at least two spans ahead, an illegal one is
refused; the pending list replaces the running one at its start, which is told and read; an entry whose interval has ended gives way to the
next; and the verify exchange ends. That the commit posts nothing and LPT_GCL_START comes at the start of the list, as R120's words have it
and the tables of the events do not, is the model's choice (log entry 23). -/
def Obligations.LineAndGateConfigCommandsComplete : Prop :=
  (∀ (s : State) (m : Master) (p : Port) (data : Word), s.dev.writes m.val (F.LPT_OCT_RX_MAP.port p.val).off = true → p.val % 8 = 0 →
    (∀ i, i < 8 → s.dev.on (F.LPT_CTRL_ADMIN_UP.port (p.val + i)) = false) → lanePermutation data.toNat = true →
    Completes (.laneMapWrite m p false data) s fun d => d.rd (F.LPT_OCT_RX_MAP.port p.val) = data.toNat ∧ d.posted = s.dev.posted) ∧
  (∀ (s : State) (m : Master) (p : Port) (data : Word), s.dev.writes m.val (F.LPT_OCT_TX_MAP.port p.val).off = true → p.val % 8 = 0 →
    lanePermutation data.toNat = false →
    Completes (.laneMapWrite m p true data) s fun d => d.regs = s.dev.regs ∧ Posts s.dev d [Ev.LPT_CFG_REFUSED]) ∧
  (∀ (s : State) (m : Master) (p : Port), s.dev.writes m.val (F.LPT_MSEC_SA_CMD.port p.val).off = true →
    ((s.dev.lp p.val).sa (saKey (s.dev.rd (F.LPT_MSEC_SA_SEL_DIR.port p.val)) (s.dev.rd (F.LPT_MSEC_SA_SEL_SC.port p.val))
      (s.dev.rd (F.LPT_MSEC_SA_SEL_AN.port p.val)))).valid = false →
    Completes (.msecSaInstall m p) s fun d =>
      let x := (d.lp p.val).sa (saKey (s.dev.rd (F.LPT_MSEC_SA_SEL_DIR.port p.val)) (s.dev.rd (F.LPT_MSEC_SA_SEL_SC.port p.val))
        (s.dev.rd (F.LPT_MSEC_SA_SEL_AN.port p.val)))
      x.valid = true ∧ x.pn = s.dev.rd (F.LPT_MSEC_PN.port p.val) ∧
        ∀ n, n < 8 → bits x.key (32 * n + 31) (32 * n) = s.dev.rd ((F.LPT_MSEC_KEY.ix n).port p.val)) ∧
  (∀ (s : State) (m : Master) (p : Port), s.dev.writes m.val (F.LPT_MSEC_SA_CMD.port p.val).off = true →
    Completes (.msecSaRetire m p) s fun d =>
      ((d.lp p.val).sa (saKey (s.dev.rd (F.LPT_MSEC_SA_SEL_DIR.port p.val)) (s.dev.rd (F.LPT_MSEC_SA_SEL_SC.port p.val))
        (s.dev.rd (F.LPT_MSEC_SA_SEL_AN.port p.val)))).valid = false ∧
      ∀ n, n < 8 → d.rd ((F.LPT_MSEC_KEY.ix n).port p.val) = 0) ∧
  (∀ (s : State) (m : Master) (p : Port), s.dev.writes m.val (F.LPT_CTRL.port p.val).off = true →
    Completes (.txtsPop m p) s fun d => (d.lp p.val).txts = (s.dev.lp p.val).txts.drop 1) ∧
  (∀ (s : State) (m : Master) (p : Port), s.dev.writes m.val (F.LPT_CTRL.port p.val).off = true →
    Completes (.lptCntClr m p) s fun d => ∀ f ∈ lptCounters, d.rd (f.port p.val) = 0) ∧
  (∀ (s : State) (m : Master) (p : Port), s.dev.writes m.val (F.LPT_GCL_CTRL.port p.val).off = true → s.dev.gatesLegal p.val = true →
    Completes (.gclCommit m p) s fun d => (d.lp p.val).gclPending = some (s.dev.stagedGates p.val) ∧
      d.on (F.LPT_GCL_CTRL_PENDING.port p.val) = true ∧ d.posted = s.dev.posted ∧
      s.dev.gateNs + 2048 ≤ (d.lp p.val).gclStart.1 * 1000000000 + (d.lp p.val).gclStart.2) ∧
  (∀ (s : State) (m : Master) (p : Port), s.dev.writes m.val (F.LPT_GCL_CTRL.port p.val).off = true → s.dev.gatesLegal p.val = false →
    Completes (.gclCommit m p) s fun d => d.lpt = s.dev.lpt ∧ Posts s.dev d [Ev.LPT_CFG_REFUSED]) ∧
  (∀ (s : State) (p : Port) (g : GateList), (s.dev.lp p.val).gclPending = some g →
    (s.dev.lp p.val).gclStart.1 * 1000000000 + (s.dev.lp p.val).gclStart.2 < s.dev.gateEndNs →
    Completes (.gclStart p) s fun d => (d.lp p.val).gclRun = some g ∧ (d.lp p.val).gclPending = none ∧ (d.lp p.val).gclIdx = 0 ∧
      d.on (F.LPT_GCL_CTRL_PENDING.port p.val) = false ∧ Posts s.dev d [Ev.LPT_GCL_START] ∧
      d.rd (F.LPT_GCL_BASE_NS_NS.port p.val) = (s.dev.lp p.val).gclStart.2 % 2 ^ F.LPT_GCL_BASE_NS_NS.w) ∧
  (∀ (s : State) (p : Port) (g : GateList) (w : Word) (n : Nat), (s.dev.lp p.val).gclRun = some g → g.enable = true →
    (gateSpans g.cycle g.entries)[(s.dev.lp p.val).gclIdx]? = some (w, n) → (s.dev.lp p.val).gclAt + n < s.dev.gateEndNs →
    Completes (.gateEntryAdvance p) s fun d => (d.lp p.val).gclAt = (s.dev.lp p.val).gclAt + n ∧
      (d.lp p.val).gclIdx = ((s.dev.lp p.val).gclIdx + 1) % (gateSpans g.cycle g.entries).length) ∧
  (∀ (s : State) (p : Port) (ok : Bool), s.dev.rd (F.LPT_PREEMPT_VERIFY_STATE.port p.val) = 1 → s.dev.linkUp p.val = true →
    Completes (.preemptVerifyExchange p ok) s fun d => d.rd (F.LPT_PREEMPT_VERIFY_STATE.port p.val) = (if ok then 2 else 3) ∧
      Posts s.dev d [Ev.LPT_PREEMPT_VERIFY])

/-- Where the commands of a port's link complete (R125, R126): ADMIN_UP = 0 takes an up port down at once, and cuts the frame on its way; a
cause that has lasted takes it down; a clean port comes up; an interval with too many uncorrectable codewords is marked; and a fault that
begins is shown. -/
def Obligations.LineLinkCommandsComplete : Prop :=
  (∀ (s : State) (m : Master) (p : Port), s.dev.writes m.val (F.LPT_CTRL.port p.val).off = true → s.dev.linkUp p.val = true →
    s.dev.on (F.LPT_CTRL_ADMIN_UP.port p.val) = true →
    Completes (.adminUpWrite m p false) s fun d => d.linkUp p.val = false ∧ (d.lp p.val).lanesOut = .squelched ∧ d.on (F.LPT_CTRL_ADMIN_UP.port p.val) = false ∧
      (d.lp p.val).flight = none ∧ (∀ y, (s.dev.lp p.val).flight = some y → (d.lp p.val).cutTx = y.frame.bytes) ∧
      d.que.portDown.get (fun _ => false) p.val = true ∧ Posts s.dev d [Ev.LPT_LINK_DOWN]) ∧
  (∀ (s : State) (m : Master) (p : Port), s.dev.writes m.val (F.LPT_CTRL.port p.val).off = true →
    Completes (.adminUpWrite m p true) s fun d => d.linkUp p.val = s.dev.linkUp p.val ∧ d.on (F.LPT_CTRL_ADMIN_UP.port p.val) = true) ∧
  (∀ (s : State) (p : Port) (c : Nat), s.dev.linkUp p.val = true → s.dev.downCause p.val = some c →
    Completes (.portLinkDown p) s fun d => d.linkUp p.val = false ∧ d.que.flushes.length = s.dev.que.flushes.length + 1 ∧
      Posts s.dev d [Ev.LPT_LINK_DOWN]) ∧
  (∀ (s : State) (p : Port), s.dev.linkUp p.val = false → s.dev.dgn.recal = [] → s.dev.present p.val = true →
    s.dev.on (F.LPT_CTRL_ADMIN_UP.port p.val) = true → (s.dev.lp p.val).clean = true →
    (s.dev.lp p.val).cleanAt + s.dev.rd (F.LPT_LINK_CFG_HOLD_UP.port p.val) ≤ s.dev.tim.tick →
    s.dev.octetRuns (s.dev.portOctet p.val) = true → s.dev.portShed p.val = false → s.dev.lineStopped = false →
    Completes (.portLinkUp p) s fun d => d.linkUp p.val = true ∧ d.que.portDown.get (fun _ => false) p.val = false ∧
      Posts s.dev d [Ev.LPT_LINK_UP]) ∧
  (∀ (s : State) (p : Port) (a b : Nat), s.dev.rd (F.LPT_LINK_CFG_FEC_THR.port p.val) ≠ 0 →
    s.dev.rd (F.LPT_LINK_CFG_FEC_THR.port p.val) < b →
    Completes (.fecInterval p a b) s fun d => d.on (F.LPT_STATUS_FEC_DEGRADE.port p.val) = true ∧ (d.lp p.val).fecBad.isSome = true ∧
      d.rd (F.LPT_FEC_UNCORR_CW.port p.val) = min (s.dev.rd (F.LPT_FEC_UNCORR_CW.port p.val) + b) (2 ^ 64 - 1)) ∧
  (∀ (s : State) (p : Port), bitOn (s.dev.lp p.val).faults 1 = false →
    Completes (.lineFaultChange p 3 true) s fun d => bitOn (d.lp p.val).faults 1 = true ∧
      d.on (F.LPT_STATUS_LOCAL_FAULT.port p.val) = true ∧ d.linkUp p.val = s.dev.linkUp p.val)

/-! ### Piers (PIR) -/

/-- Where the strokes complete (R58, R59, R130, R133, R134, R387, R390, R391): a frame leaves the buffer it waits in; a packet that its
stroke neither drops nor recirculates goes to the TM with the stroke's bytes, a dropped one does not, and one recirculated waits for its
second stroke with its count one higher; an injected packet's descriptor is completed as its packet takes its issue slot, which is the
model's choice (log entry 44); a second-stroke entry that does not read is dropped; a packet of an expired epoch is dropped and counted at
its second stroke, and at its egress stroke; another goes to the transmit buffer of its port as the stroke left it. -/
def Obligations.StrokeCommandsComplete : Prop :=
  (∀ (s : State) (p : Pier) (o : Nat) (f : RxFrame) (rest : List RxFrame), s.dev.forwarding = true → s.dev.pierHalted p.val = false →
    s.dev.cwStopped 0 = false → s.dev.octetOf p.val = some o → s.dev.rxQueue o = f :: rest →
    s.dev.octetStopped o = false → s.dev.copiedWait p.val = false →
    let r := (ingressAt s.dev p.val o).stroke p.val 0 (s.dev.rd (F.PIR_PARSE_CFG_ING_START.pier p.val))
      { bytes := f.bytes, md := s.dev.frameMd f, tsHeld := f.tsHeld }
    (r.1.pkt.get Md.drop = 1 → Completes (.ingressStroke p) s fun d => d.rxQueue o = rest ∧ d.que.arrivals = s.dev.que.arrivals) ∧
    (r.1.pkt.get Md.drop = 0 → r.1.recirc = false → Completes (.ingressStroke p) s fun d => d.rxQueue o = rest ∧
      ∃ q, d.que.arrivals = s.dev.que.arrivals ++ [⟨o, q⟩] ∧ q.bytes = r.1.pkt.bytes) ∧
    (r.1.pkt.get Md.drop = 0 → r.1.recirc = true → r.1.pkt.get Md.strokeCount < 3 → (s.dev.ssQueue p.val).length < 1024 →
      s.dev.ssBytes p.val + r.1.pkt.bytes.length ≤ 4194304 →
      Completes (.ingressStroke p) s fun d => d.rxQueue o = rest ∧
        ∃ q, d.ssQueue p.val = s.dev.ssQueue p.val ++ [{ pkt := q, fcs := some f.fcs }] ∧ q.bytes = r.1.pkt.bytes ∧
          q.get Md.strokeCount = r.1.pkt.get Md.strokeCount + 1 ∧ q.get Md.runBits = 0 ∧ q.get Md.parseErr = 0)) ∧
  (∀ (s : State) (p : Pier) (o n flags : Nat) (x : Packet) (rest : List Packet), s.dev.forwarding = true → s.dev.pierHalted p.val = false →
    s.dev.cwStopped 0 = false → s.dev.octetOf p.val = some o → s.dev.octetStopped o = false → s.dev.ssQueue p.val = [] → s.dev.rxQueue o = [] →
    s.dev.injectQueue o = x :: rest → x.back = some n → n < 16 → s.dev.hst.fetched.get (fun _ => none) n = some flags →
    Completes (.ingressStroke p) s fun d => d.injectQueue o = rest ∧ d.hst.fetched.get (fun _ => none) n = none ∧
      d.rd (F.HST_IQ_HEAD_INDEX.ix n) = (s.dev.rd (F.HST_IQ_HEAD_INDEX.ix n) + 1) % 65536) ∧
  (∀ (s : State) (p : Pier) (o : Nat) (e : SsEntry) (rest : List SsEntry), s.dev.forwarding = true → s.dev.pierHalted p.val = false →
    s.dev.cwStopped 0 = false → s.dev.octetOf p.val = some o → s.dev.octetStopped o = false → s.dev.ssBarred p.val = false →
    s.dev.copiedWait p.val = true ∨ (s.dev.rxQueue o = [] ∧ (s.dev.injectQueue o = [] ∨ s.dev.hadTurn p.val 2 = false)) →
    s.dev.ssQueue p.val = e :: rest →
    (e.bad = true → Completes (.secondStroke p) s fun d => d.ssQueue p.val = rest ∧ d.que.arrivals = s.dev.que.arrivals ∧
      d.rd (F.HST_DROP_CNT.ix Drop.pierRetired) = min (s.dev.rd (F.HST_DROP_CNT.ix Drop.pierRetired) + 1) (2 ^ 64 - 1)) ∧
    (e.bad = false → s.dev.expired e.pkt.tag = true → Completes (.secondStroke p) s fun d => d.ssQueue p.val = rest ∧
      d.rd F.TIM_EXPIRED_CNT = min (s.dev.rd F.TIM_EXPIRED_CNT + 1) (2 ^ 64 - 1)) ∧
    (let r := (secondAt s.dev p.val rest).stroke p.val 0 (e.pkt.get Md.ssStart) e.pkt
     e.bad = false → s.dev.expired e.pkt.tag = false → r.1.pkt.get Md.drop = 0 → r.1.recirc = false →
     Completes (.secondStroke p) s fun d => d.ssQueue p.val = rest ∧
       ∃ q, d.que.arrivals = s.dev.que.arrivals ++ [⟨o, q⟩] ∧ q.bytes = r.1.pkt.bytes)) ∧
  (∀ (s : State) (p : Pier) (o : Nat) (q : Packet) (rest : List Packet), s.dev.forwarding = true → s.dev.pierHalted p.val = false →
    s.dev.octetOf p.val = some o → s.dev.egressQueue o = q :: rest →
    (s.dev.expired q.tag = true → Completes (.egressStroke p) s fun d => d.egressQueue o = rest ∧
      d.rd F.TIM_EXPIRED_CNT = min (s.dev.rd F.TIM_EXPIRED_CNT + 1) (2 ^ 64 - 1)) ∧
    (let r := (egressAt s.dev p.val o q rest).stroke p.val 1 (s.dev.rd (F.PIR_PARSE_CFG_EGR_START.pier p.val))
       { q with md := keepReach (imageFields (s.dev.pierImage p.val q.tag)) 3 q.md }
     let port := q.get Md.egrPort
     s.dev.expired q.tag = false → r.1.pkt.get Md.drop = 0 → r.1.punt = none → r.1.pkt.get Md.ptpCtrl = 0 →
     r.2.on (F.LPT_MSEC_CTRL_TX_EN.port port) = false →
     Completes (.egressStroke p) s fun d => d.egressQueue o = rest ∧
       (d.lp port).tx = (s.dev.lp port).tx ++ [⟨r.1.pkt.bytes, r.1.pkt.cls, none⟩]))

/-- Where the TCAM commands of the piers complete (R26, R154, R155, R343): a commit of the entry at ADDR waits at every powered pier, an
unaligned one is refused there, a standby ignores a local one, and the oldest commit's rows become live together. -/
def Obligations.TcamCommandsComplete : Prop :=
  (∀ (s : State) (m : Master) (data : Word) (p : Nat), s.dev.writes m.val 0x9800104 = true → s.dev.localBarred m.val = false →
    p < 17 → s.dev.pierPowered p = true → s.dev.rd (F.PIR_TCAM_ADDR_ROW.pier p) < tcamRows (s.dev.rd (F.PIR_TCAM_ADDR_PIPE.pier p)) →
    bits data 9 8 ≠ 3 → s.dev.rd (F.PIR_TCAM_ADDR_ROW.pier p) % chainRows (bits data 9 8) = 0 →
    Completes (.tcamCommitRequest m data) s fun d => ∃ x, d.commits p = s.dev.commits p ++ [x] ∧
      x.row = s.dev.rd (F.PIR_TCAM_ADDR_ROW.pier p) ∧ x.chain = bits data 9 8 ∧ x.valid = bitOn data 0 ∧
      x.rows.length = chainRows (bits data 9 8)) ∧
  (∀ (s : State) (m : Master) (data : Word), s.dev.writes m.val 0x9800104 = true → s.dev.localBarred m.val = true →
    Completes (.tcamCommitRequest m data) s fun d => d.pir = s.dev.pir ∧ Posts s.dev d [Ev.TWN_LOCAL_WRITE]) ∧
  (∀ (s : State) (p : Pier) (x : TcamCommit) (rest : List TcamCommit), s.dev.pierHalted p.val = false → s.dev.commits p.val = x :: rest →
    Completes (.tcamCommit p) s fun d => d.commits p.val = rest ∧
      (∀ i r, x.live[i]? = some r → d.tcamRow p.val x.pipe (x.row + i) = r) ∧
      d.rd (F.PIR_TCAM_COMMITS.pier p.val) = min (s.dev.rd (F.PIR_TCAM_COMMITS.pier p.val) + 1) (2 ^ 64 - 1)) ∧
  (∀ (s : State) (m : Master) (p : Pier), s.dev.writes m.val (F.PIR_CTRL.pier p.val).off = true →
    Completes (.pirCntClr m p) s fun d => ∀ n, n < 11 → d.reg (0x8000800 + 8 * n + 0x100000 * p.val) = 0)

/-! ### Tables and the table access engine (TBL) -/

/-- Where the keyed requests complete (R198, R204, R206): READ_KEY and DELETE find the entry that holds the key or answer NOT_FOUND; INSERT
updates a key that is present, places a new one in the room that the insertion path finds, or answers NO_ROOM. The table's own entry is as
stated while no rehash of the table is open. -/
def Obligations.KeyedRequestsComplete : Prop :=
  (∀ (s : State) (q : TaeReq) (t : Nat) (c : Schema) (p : Place) (k i : Nat), s.dev.taeReady q 1 → s.dev.keyedOf q.req = some (t, c, p, k) →
    s.dev.findKey p k = some i →
    Completes .readKey s fun d => TaeAnswered q ⟨2, 0, i, s.dev.shownEntry p.kind i⟩ s.dev d ∧ d.tbl.mem = s.dev.tbl.mem) ∧
  (∀ (s : State) (q : TaeReq) (t : Nat) (c : Schema) (p : Place) (k : Nat), s.dev.taeReady q 1 → s.dev.keyedOf q.req = some (t, c, p, k) →
    s.dev.findKey p k = none →
    Completes .readKey s fun d => TaeAnswered q ⟨4, 0, 0, 0⟩ s.dev d ∧ d.tbl.mem = s.dev.tbl.mem) ∧
  (∀ (s : State) (q : TaeReq) (t : Nat) (c : Schema) (p : Place) (k i : Nat), s.dev.taeReady q 2 → s.dev.keyedOf q.req = some (t, c, p, k) →
    s.dev.insertPlan p k = .present i →
    Completes .insert s fun d => TaeAnswered q ⟨3, 0, i, 0⟩ s.dev d ∧ (s.dev.rehashOf t = none →
      d.entry p.kind i = exEntry p.kind k (reqResult q.req) (s.dev.ageTick c) (bitOn q.req 8) false)) ∧
  (∀ (s : State) (q : TaeReq) (t : Nat) (c : Schema) (p : Place) (k i n : Nat) (ws : List (Nat × BitVec 1024)), s.dev.taeReady q 2 →
    s.dev.keyedOf q.req = some (t, c, p, k) → s.dev.insertPlan p k = .room i n ws →
    Completes .insert s fun d => TaeAnswered q ⟨2, n, i, 0⟩ s.dev d ∧ (s.dev.rehashOf t = none →
      d.entry p.kind i = exEntry p.kind k (reqResult q.req) (s.dev.ageTick c) (bitOn q.req 8) false ∧ d.poisoned p.kind i = false)) ∧
  (∀ (s : State) (q : TaeReq) (t : Nat) (c : Schema) (p : Place) (k : Nat), s.dev.taeReady q 2 → s.dev.keyedOf q.req = some (t, c, p, k) →
    s.dev.insertPlan p k = .noRoom → t < 256 →
    Completes .insert s fun d => TaeAnswered q ⟨0x10, 0, 0, 0⟩ s.dev d ∧ d.tbl.mem = s.dev.tbl.mem ∧
      d.rd F.TBL_INSERT_NO_ROOM = min (s.dev.rd F.TBL_INSERT_NO_ROOM + 1) (2 ^ 64 - 1) ∧
      (d.rd (F.TBL_REHASH_PEND_PEND.ix (t / 32)) >>> (t % 32)) % 2 = 1) ∧
  (∀ (s : State) (q : TaeReq) (t : Nat) (c : Schema) (p : Place) (k i : Nat), s.dev.taeReady q 3 → s.dev.keyedOf q.req = some (t, c, p, k) →
    s.dev.findKey p k = some i →
    Completes .delete s fun d => TaeAnswered q ⟨2, 0, i, 0⟩ s.dev d ∧
      (s.dev.rehashOf t = none → exValid p.kind (d.entry p.kind i) = false ∧ p.keyOf (d.entry p.kind i) = k))

/-- Where the indexed, prefix, bulk and retire requests complete (R169, R170, R198, R202, R203, R214): an entry read as it stands or written
whole; a prefix installed, updated, refused without room, removed and read; the records of a bulk executed, as many as the rates of the span
allow, while the rest wait at the head, or none when its DMA fails; and a range on the retire list until the drain limit has passed. -/
def Obligations.IndexedRequestsComplete : Prop :=
  (∀ (s : State) (q : TaeReq), s.dev.taeReady q 4 → reqIndex q.req < kindCap (reqKind q.req) →
    Completes .readIndex s fun d => TaeAnswered q ⟨2, 0, reqIndex q.req, s.dev.shownEntry (reqKind q.req) (reqIndex q.req)⟩ s.dev d) ∧
  (∀ (s : State) (q : TaeReq), s.dev.taeReady q 5 → 7 ≤ reqKind q.req → reqKind q.req ≤ 10 → reqIndex q.req < kindCap (reqKind q.req) →
    s.dev.retired (reqKind q.req) (reqIndex q.req) = false →
    Completes .writeIndex s fun d => TaeAnswered q ⟨2, 0, reqIndex q.req, 0⟩ s.dev d ∧
      d.entry (reqKind q.req) (reqIndex q.req) = (if reqKind q.req = 10 then putBit (reqData q.req 16) 112 false
        else reqData q.req (kindBytes (reqKind q.req))) ∧
      d.poisoned (reqKind q.req) (reqIndex q.req) = false) ∧
  (∀ (s : State) (q : TaeReq) (x : Route), s.dev.taeReady q 6 → s.dev.lpmRoute q.req = some x →
    (s.dev.tbl.lpm.any x.same = true ∨ s.dev.lpmUsed + x.cost ≤ 25165824) →
    Completes .lpmInsert s fun d => TaeAnswered q ⟨2, 0, 0, 0⟩ s.dev d ∧ (d.tbl.lpm.find? x.same).map (·.result) = some x.result) ∧
  (∀ (s : State) (q : TaeReq) (x : Route), s.dev.taeReady q 6 → s.dev.lpmRoute q.req = some x → s.dev.tbl.lpm.any x.same = false →
    25165824 < s.dev.lpmUsed + x.cost →
    Completes .lpmInsert s fun d => TaeAnswered q ⟨0x11, 0, 0, 0⟩ s.dev d ∧ d.tbl.lpm = s.dev.tbl.lpm) ∧
  (∀ (s : State) (q : TaeReq) (x : Route), s.dev.taeReady q 7 → s.dev.lpmRoute q.req = some x → s.dev.tbl.lpm.any x.same = true →
    Completes .lpmDelete s fun d => TaeAnswered q ⟨2, 0, 0, 0⟩ s.dev d ∧ d.tbl.lpm.any x.same = false) ∧
  (∀ (s : State) (q : TaeReq) (x y : Route), s.dev.taeReady q 8 → s.dev.lpmRoute q.req = some x → s.dev.tbl.lpm.find? x.same = some y →
    Completes .lpmRead s fun d => TaeAnswered q ⟨2, 0, 0, routeData y⟩ s.dev d ∧ d.tbl.lpm = s.dev.tbl.lpm) ∧
  (∀ (s : State) (q : TaeReq) (l : List Byte), s.dev.taeReady q 9 → q.recs = none → q.done = 0 → q.ready = 0 → s.dev.mirrorOn = false →
    reqCount q.req ≠ 0 → reqCount q.req ≤ 1048576 → byteField q.req 16 1 = 0 → 256 * reqCount q.req ≤ l.length →
    (∀ u < 8, s.dev.unitState u = 1 ∨ s.dev.unitState u = 2 → (s.dev.unit u).point ≠ 4) →
    ((s.dev.bulkFetch q l).bulkRun 0 (bulkRecords (reqCount q.req) l)).1.status = 2 →
    Completes (.bulk (some l)) s fun d => TaeAnswered q ⟨2, 0, reqCount q.req, 0⟩ s.dev d ∧
      d.tbl.mem = ((s.dev.bulkFetch q l).bulkRun 0 (bulkRecords (reqCount q.req) l)).2.tbl.mem) ∧
  (∀ (s : State) (q : TaeReq) (l : List Byte) (n : Nat), s.dev.taeReady q 9 → q.recs = none → q.done = 0 → q.ready = 0 →
    s.dev.mirrorOn = false → reqCount q.req ≠ 0 → reqCount q.req ≤ 1048576 → byteField q.req 16 1 = 0 → 256 * reqCount q.req ≤ l.length →
    ((s.dev.bulkFetch q l).bulkRun 0 (bulkRecords (reqCount q.req) l)).1 = ⟨1, 0, n, 0⟩ →
    Completes (.bulk (some l)) s fun d => d.tbl.resp = s.dev.tbl.resp ∧
      (∃ x, d.tbl.queue = x :: s.dev.tbl.queue.tail ∧ x.req = q.req ∧ x.seq = q.seq ∧ x.slot = q.slot ∧ x.done = n ∧
        x.recs = some ((bulkRecords (reqCount q.req) l).drop n)) ∧
      d.tbl.mem = ((s.dev.bulkFetch q l).bulkRun 0 (bulkRecords (reqCount q.req) l)).2.tbl.mem) ∧
  (∀ (s : State) (q : TaeReq), s.dev.taeReady q 9 → q.recs = none → q.done = 0 → s.dev.mirrorOn = false → reqCount q.req ≠ 0 →
    reqCount q.req ≤ 1048576 → byteField q.req 16 1 = 0 →
    Completes (.bulk none) s fun d => TaeAnswered q ⟨0x17, 0, 0, 0⟩ s.dev d ∧ d.tbl.mem = s.dev.tbl.mem) ∧
  (∀ (s : State) (q : TaeReq), s.dev.taeReady q 10 → (reqKind q.req = 7 ∨ reqKind q.req = 8) → reqCount q.req ≠ 0 →
    reqCount q.req ≤ 65536 → reqIndex q.req + reqCount q.req ≤ kindCap (reqKind q.req) →
    (∀ x ∈ s.dev.tbl.retire, x.kind = reqKind q.req → x.first + x.count ≤ reqIndex q.req ∨ reqIndex q.req + reqCount q.req ≤ x.first) →
    s.dev.tbl.retire.length < 4096 →
    Completes .retire s fun d => TaeAnswered q ⟨2, 0, reqIndex q.req, 0⟩ s.dev d ∧
      d.tbl.retire = s.dev.tbl.retire ++ [⟨reqKind q.req, reqIndex q.req, reqCount q.req,
        spanAdd s.dev.tim.span (max s.dev.tim.limitInForce (s.dev.rd F.TIM_DRAIN_LIMIT))⟩])

/-- Where submissions, the slots and the entry window complete (R196, R201): a slot that is not QUEUED is queued with the next sequence
number, one that is QUEUED is refused; on an active that mirrors, a change carries the span at which both twins make it (R216); a response
is read and a request word written by their offsets (R195, R199); a window read takes the whole entry and shows the word; a window write
fills the master's staging buffer, whose last word submits the entry; and PF1, which has no BAR2, reads 0 and changes nothing (R386). -/
def Obligations.SubmissionsComplete : Prop :=
  (∀ (s : State) (m : Master) (n : Fin 512) (r : BitVec 2048), s.dev.writes m.val tblOff = true → m.val ≠ 7 → s.dev.mirrorOn = false →
    (s.dev.tbl.resp.get (fun _ => TaeResp.reset) n.val).status ≠ 1 →
    Completes (.taeSubmit m n r) s fun d => ∃ q, d.tbl.queue = s.dev.tbl.queue ++ [q] ∧ q.req = r ∧ q.slot = some n.val ∧ q.master = m.val ∧
      q.seq = (s.dev.tbl.seq + 1) % 2 ^ 32 ∧ d.tbl.seq = q.seq ∧
      (d.tbl.resp.get (fun _ => TaeResp.reset) n.val).status = 1 ∧ (d.tbl.resp.get (fun _ => TaeResp.reset) n.val).seq = q.seq) ∧
  (∀ (s : State) (m : Master) (n : Fin 512) (r : BitVec 2048), s.dev.writes m.val tblOff = true → m.val ≠ 7 → s.dev.mirrorOn = true →
    (s.dev.tbl.resp.get (fun _ => TaeResp.reset) n.val).status ≠ 1 → opChanges (reqOp r) = true → reqOp r ≠ 9 →
    (∀ x ∈ s.dev.tbl.queue, reqOp x.req ≠ 9 ∧ s.dev.unmirrored x = false) →
    Completes (.taeSubmit m n r) s fun d => ∃ q, d.tbl.queue = s.dev.tbl.queue ++ [q] ∧ q.req = r ∧ q.slot = some n.val ∧
      q.apply = some (spanAdd s.dev.tim.span (s.dev.rd F.TWN_CFG_LEAD))) ∧
  (∀ (s : State) (m : Master) (n : Fin 512) (r : BitVec 2048), s.dev.writes m.val tblOff = true → m.val ≠ 7 →
    (s.dev.tbl.resp.get (fun _ => TaeResp.reset) n.val).status = 1 →
    Completes (.taeSubmit m n r) s fun d => d.tbl.queue = s.dev.tbl.queue ∧ d.tbl.resp = s.dev.tbl.resp ∧
      byteField (d.slotReq n.val) 0 4 = byteField (s.dev.slotReq n.val) 0 4 ∧ Posts s.dev d [Ev.TBL_TAE_REFUSED]) ∧
  (∀ (s : State) (m : Master) (n : Fin 512) (r : BitVec 2048), m.val = 7 →
    Completes (.taeSubmit m n r) s fun d => d.tbl = s.dev.tbl ∧ Posts s.dev d []) ∧
  (∀ (s : State) (m : Master) (off : BitVec 30), s.dev.reads m.val tblOff = true → m.val = 7 →
    Completes (.entryWindowRead m off) s fun d => d.tbl = s.dev.tbl ∧ d.lastRead = 0) ∧
  (∀ (s : State) (m : Master) (off : BitVec 30) (data : Word), m.val = 7 →
    Completes (.entryWindowWrite m off data) s fun d => d.tbl = s.dev.tbl ∧ Posts s.dev d []) ∧
  (∀ (s : State) (m : Master) (off : BitVec 30), s.dev.reads m.val tblOff = true → m.val ≠ 7 → off.toNat < 0x40000 → 256 ≤ off.toNat % 512 →
    Completes (.entryWindowRead m off) s fun d => d.tbl = s.dev.tbl ∧
      d.lastRead.toNat = byteField (respBytes (s.dev.slotResp (off.toNat / 512))) (off.toNat % 512 / 4 * 4 - 256) 4) ∧
  (∀ (s : State) (m : Master) (off : BitVec 30) (data : Word), s.dev.writes m.val tblOff = true → m.val ≠ 7 → off.toNat < 0x40000 →
    4 ≤ off.toNat % 512 → off.toNat % 512 < 256 →
    Completes (.entryWindowWrite m off data) s fun d => d.tbl.queue = s.dev.tbl.queue ∧ d.tbl.resp = s.dev.tbl.resp ∧
      byteField (d.slotReq (off.toNat / 512)) (off.toNat % 512 / 4 * 4) 4 = data.toNat) ∧
  (∀ (s : State) (m : Master) (off : BitVec 30) (k i b : Nat), s.dev.reads m.val tblOff = true → m.val ≠ 7 →
    s.dev.winEntry off.toNat = some (k, i, b) → s.dev.tbl.queue = [] → s.dev.spanCount s.dev.tbl.idxOps < 64 → s.dev.tbl.winLatch.get (fun _ => none) m.val = none →
    Completes (.entryWindowRead m off) s fun d => d.lastRead.toNat = byteField (s.dev.shownEntry k i) (b / 4 * 4) 4 ∧
      d.lastAbort = false ∧ d.tbl.queue = [] ∧
      d.tbl.winLatch.get (fun _ => none) m.val = some (memKey k i, s.dev.shownEntry k i)) ∧
  (∀ (s : State) (m : Master) (off : BitVec 30) (k i b : Nat) (e : BitVec 1024), s.dev.reads m.val tblOff = true → m.val ≠ 7 →
    s.dev.winEntry off.toNat = some (k, i, b) → s.dev.tbl.winLatch.get (fun _ => none) m.val = some (memKey k i, e) → 8 ≤ b →
    Completes (.entryWindowRead m off) s fun d => d.lastRead.toNat = byteField e (b / 4 * 4) 4 ∧ d.tbl = s.dev.tbl) ∧
  (∀ (s : State) (m : Master) (off : BitVec 30) (data : Word) (k i b : Nat), s.dev.writes m.val tblOff = true → m.val ≠ 7 →
    s.dev.winEntry off.toNat = some (k, i, b) → 7 ≤ k → s.dev.mode ≠ .m5 → s.dev.mode ≠ .m6 →
    s.dev.tbl.winStage.get (fun _ => none) m.val = none →
    Completes (.entryWindowWrite m off data) s fun d => d.tbl.queue = s.dev.tbl.queue ∧
      d.tbl.winStage.get (fun _ => none) m.val =
        some (memKey k i, 1 <<< (b / 4), setBits 0 (32 * (b / 4) + 31) (32 * (b / 4)) data.toNat)) ∧
  (∀ (s : State) (m : Master) (off : BitVec 30) (data : Word) (k i b mask : Nat) (e : BitVec 1024), s.dev.writes m.val tblOff = true → m.val ≠ 7 →
    s.dev.mirrorOn = false → s.dev.winEntry off.toNat = some (k, i, b) → 7 ≤ k → s.dev.mode ≠ .m5 → s.dev.mode ≠ .m6 →
    s.dev.tbl.winStage.get (fun _ => none) m.val = some (memKey k i, mask, e) →
    mask ||| (1 <<< (b / 4)) = 2 ^ (kindBytes k / 4) - 1 →
    Completes (.entryWindowWrite m off data) s fun d => d.tbl.winStage.get (fun _ => none) m.val = none ∧
      ∃ q, d.tbl.queue = s.dev.tbl.queue ++ [q] ∧ q.slot = none ∧
        q.req = writeIndexReq k i (setBits e (32 * (b / 4) + 31) (32 * (b / 4)) data.toNat))

/-- Where the rehash commands complete (R207, R208, R209): an open that nothing bars gives the table an empty shadow, on an active that
mirrors at the span A of both twins (R216), and one barred is refused; the copy puts the entry it comes to into the place that the insertion
path finds in the shadow, and with no entry left to look at makes the shadow READY; a commit of a READY shadow puts its base, capacity and
seeds in force for the live table and ends the rehash; an abort fails it with cause 2. That the abort leaves STATE = 3 and nothing of the
shadow is the model's choice (log 25, DEDUCED): R209 gives the abort and TBL_REHASH_FAIL. -/
def Obligations.RehashCommandsComplete : Prop :=
  (∀ (s : State) (m : Master) (t : BitVec 8), s.dev.writes m.val F.TBL_REHASH_CTRL.off = true → s.dev.mirrorOn = false →
    s.dev.rehashBar m.val t.toNat (s.dev.rd F.TBL_REHASH_BASE_BASE) (s.dev.rd F.TBL_REHASH_CAP_CAPACITY) = 0 →
    Completes (.rehashOpen m t) s fun d => (∃ r, d.tbl.rehash = some r ∧ r.table = t.toNat ∧ r.newBase = s.dev.rd F.TBL_REHASH_BASE_BASE ∧
      r.newCap = s.dev.rd F.TBL_REHASH_CAP_CAPACITY ∧ r.seed0 = s.dev.rd (F.TBL_REHASH_SEED.ix 0) ∧
      r.seed1 = s.dev.rd (F.TBL_REHASH_SEED.ix 1) ∧ r.pos = 0 ∧
      ∀ i, r.newBase ≤ i → i < r.newBase + r.newCap → d.entry r.kind i = 0) ∧
      d.rd F.TBL_REHASH_STATUS_STATE = 1 ∧ d.rd F.TBL_REHASH_COPIED_ENTRIES = 0 ∧ d.rd F.TBL_REHASH_CTRL_TABLE = t.toNat) ∧
  (∀ (s : State) (m : Master) (t : BitVec 8), s.dev.writes m.val F.TBL_REHASH_CTRL.off = true → s.dev.mirrorOn = true →
    s.dev.rehashBar m.val t.toNat (s.dev.rd F.TBL_REHASH_BASE_BASE) (s.dev.rd F.TBL_REHASH_CAP_CAPACITY) = 0 →
    Completes (.rehashOpen m t) s fun d => d.tbl.rehash = s.dev.tbl.rehash ∧ ∃ x, d.twn.records = s.dev.twn.records ++ [x] ∧ x.kind = 1 ∧
      x.apply = spanAdd s.dev.tim.span (s.dev.rd F.TWN_CFG_LEAD)) ∧
  (∀ (s : State) (m : Master) (t : BitVec 8), s.dev.writes m.val F.TBL_REHASH_CTRL.off = true →
    s.dev.rehashBar m.val t.toNat (s.dev.rd F.TBL_REHASH_BASE_BASE) (s.dev.rd F.TBL_REHASH_CAP_CAPACITY) ≠ 0 →
    Completes (.rehashOpen m t) s fun d => d.tbl = s.dev.tbl ∧ Posts s.dev d [Ev.TBL_TAE_REFUSED]) ∧
  (∀ (s : State) (r : Rehash) (c : Schema) (p : Place), s.dev.tbl.rehash = some r → s.dev.tbl.copyTick ≠ some s.dev.tim.tick →
    s.dev.rd F.TBL_REHASH_STATUS_STATE = 1 → s.dev.exactPlace s.dev.liveTag r.table = some (c, p) →
    (∀ k ∈ s.dev.tbl.mem.map (·.1) ++ s.dev.tbl.poison.map (·.1), k < memKey p.kind (p.base + r.pos) ∨ memKey p.kind (p.base + p.cap) ≤ k) →
    Completes .rehashCopy s fun d => d.rd F.TBL_REHASH_STATUS_STATE = 2 ∧ d.tbl.rehash = some r ∧ Posts s.dev d [Ev.TBL_REHASH_READY]) ∧
  (∀ (s : State) (r : Rehash) (c : Schema) (p : Place) (i j n : Nat) (ws : List (Nat × BitVec 1024)), s.dev.tbl.rehash = some r →
    s.dev.tbl.copyTick ≠ some s.dev.tim.tick → s.dev.rd F.TBL_REHASH_STATUS_STATE = 1 → s.dev.exactPlace s.dev.liveTag r.table = some (c, p) →
    r.kind = p.kind → p.base + r.pos ≤ i → i < p.base + p.cap → s.dev.poisoned p.kind i = false → exValid p.kind (s.dev.entry p.kind i) = true →
    (∀ k ∈ s.dev.tbl.mem.map (·.1) ++ s.dev.tbl.poison.map (·.1),
      k < memKey p.kind (p.base + r.pos) ∨ k = memKey p.kind i ∨ memKey p.kind (p.base + p.cap) ≤ k) →
    s.dev.insertPlan (r.shadow p.keyBits) (p.keyOf (s.dev.entry p.kind i)) = .room j n ws →
    Completes .rehashCopy s fun d => d.entry p.kind j = s.dev.entry p.kind i ∧
      d.rd F.TBL_REHASH_COPIED_ENTRIES = (s.dev.rd F.TBL_REHASH_COPIED_ENTRIES + 1) % 2 ^ 27 ∧ d.rd F.TBL_REHASH_STATUS_STATE = 2) ∧
  (∀ (s : State) (m : Master) (t : BitVec 8) (r : Rehash) (c : Schema) (p : Place), s.dev.writes m.val F.TBL_REHASH_CTRL.off = true →
    s.dev.tbl.rehash = some r → r.table = t.toNat → s.dev.rd F.TBL_REHASH_STATUS_STATE = 2 → (s.dev.mode = .m4 → m.val = 1) →
    ((s.dev.mode = .m5 ∨ s.dev.mode = .m6) → m.val = 8) → s.dev.exactPlace s.dev.liveTag t.toNat = some (c, p) →
    s.dev.sharesOpen r s.dev.liveTag = true →
    Completes (.rehashCommit m t) s fun d => d.tbl.rehash = none ∧ d.rd F.TBL_REHASH_STATUS_STATE = 0 ∧
      d.exactPlace d.liveTag t.toNat = some (c, { p with base := r.newBase, cap := r.newCap, seed0 := r.seed0, seed1 := r.seed1 }) ∧
      (d.rd (F.TBL_REHASH_PEND_PEND.ix (t.toNat / 32)) >>> (t.toNat % 32)) % 2 = 0 ∧ Posts s.dev d [Ev.TBL_REHASH_COMMIT]) ∧
  (∀ (s : State) (m : Master) (t : BitVec 8), s.dev.writes m.val F.TBL_REHASH_CTRL.off = true → s.dev.tbl.rehash.isSome = true →
    s.dev.mode ≠ .m5 → s.dev.mode ≠ .m6 → s.dev.mirrorOn = false →
    Completes (.rehashAbort m t) s fun d => d.tbl.rehash = none ∧ d.rd F.TBL_REHASH_STATUS_STATE = 3 ∧
      d.rd F.TBL_REHASH_STATUS_CAUSE = 2 ∧ Posts s.dev d [Ev.TBL_REHASH_FAIL])

/-- Where learning, ageing, snapshots and the retire list complete (R175, R186, R191, R192, R211, R212, R215): a new key is learned, a
static entry keeps its result and a table without room counts the failure; a sweep that comes to a whole table invalidates its over-age
entries; a copy ends whole or failed; and a retired range whose span has come is released. -/
def Obligations.TableUpkeepCompletes : Prop :=
  (∀ (s : State) (x : LearnSub) (rest : List LearnSub) (c : Schema) (p : Place) (i n : Nat) (ws : List (Nat × BitVec 1024)),
    s.dev.serviceRuns F.CTL_SVC_MAP_LEARN = true → s.dev.learnWaits = false → s.dev.tbl.learnQ = x :: rest →
    s.dev.exactPlace s.dev.liveTag x.table = some (c, p) → s.dev.mirrorOn = false →
    (learnAt s.dev rest).insertPlan p (x.key % 2 ^ p.keyBits) = .room i n ws →
    Completes .learnApply s fun d => d.tbl.learnQ = rest ∧ d.rd F.TBL_LEARN_NEW = min (s.dev.rd F.TBL_LEARN_NEW + 1) (2 ^ 64 - 1) ∧
      (s.dev.rehashOf x.table = none →
        d.entry p.kind i = exEntry p.kind (x.key % 2 ^ p.keyBits) x.result (s.dev.ageTick c) false true)) ∧
  (∀ (s : State) (x : LearnSub) (rest : List LearnSub) (c : Schema) (p : Place) (i : Nat),
    s.dev.serviceRuns F.CTL_SVC_MAP_LEARN = true → s.dev.learnWaits = false → s.dev.tbl.learnQ = x :: rest → s.dev.exactPlace s.dev.liveTag x.table = some (c, p) →
    (learnAt s.dev rest).insertPlan p (x.key % 2 ^ p.keyBits) = .present i → (learnAt s.dev rest).poisoned p.kind i = false →
    exStatic p.kind ((learnAt s.dev rest).entry p.kind i) = true →
    Completes .learnApply s fun d => d.tbl.learnQ = rest ∧ d.tbl.mem = s.dev.tbl.mem ∧
      d.rd F.TBL_LEARN_STATIC = min (s.dev.rd F.TBL_LEARN_STATIC + 1) (2 ^ 64 - 1)) ∧
  (∀ (s : State) (x : LearnSub) (rest : List LearnSub) (c : Schema) (p : Place),
    s.dev.serviceRuns F.CTL_SVC_MAP_LEARN = true → s.dev.learnWaits = false → s.dev.tbl.learnQ = x :: rest → s.dev.exactPlace s.dev.liveTag x.table = some (c, p) →
    (learnAt s.dev rest).insertPlan p (x.key % 2 ^ p.keyBits) = .noRoom → x.table < 256 →
    Completes .learnApply s fun d => d.tbl.learnQ = rest ∧ d.tbl.mem = s.dev.tbl.mem ∧
      d.rd F.TBL_LEARN_FAIL = min (s.dev.rd F.TBL_LEARN_FAIL + 1) (2 ^ 64 - 1)) ∧
  (∀ (s : State) (t : Nat) (c : Schema) (p : Place), s.dev.serviceRuns F.CTL_SVC_MAP_LEARN = true → s.dev.on F.TBL_AGE_CFG_EN = true → s.dev.shed < 2 →
    s.dev.tbl.sweepTick ≠ some s.dev.tim.tick → s.dev.ageingTables = [t] → s.dev.tbl.sweepAt = (t, 0) →
    s.dev.exactPlace s.dev.liveTag t = some (c, p) → p.cap ≤ 2048 → s.dev.tbl.rehash = none → s.dev.mode ≠ .m5 → s.dev.mode ≠ .m6 →
    Completes .ageingSweep s fun d => d.tbl.sweepTick = some s.dev.tim.tick ∧ ∀ i, p.base ≤ i → i < p.base + p.cap →
      exStatic p.kind (s.dev.entry p.kind i) = false → s.dev.poisoned p.kind i = false →
      min c.ageLimit 32767 < (s.dev.ageTick c + 65536 - exAge p.kind (s.dev.entry p.kind i)) % 65536 →
      exValid p.kind (d.entry p.kind i) = false) ∧
  (∀ (s : State) (x : Snapshot) (ok : Bool) (n : Nat), s.dev.tbl.snap = some x →
    Completes (.snapshotCopyDone ok n) s fun d => d.tbl.snap = none ∧
      d.rd (F.TBL_SNAP_STATUS_STATE.item x.set) = (if ok then 2 else 3) ∧ Posts s.dev d [Ev.TBL_SNAP_DONE]) ∧
  (∀ (s : State) (x : Retired), x ∈ s.dev.tbl.retire → spanReached x.release s.dev.tim.span = true →
    Completes .retireRelease s fun d => x ∉ d.tbl.retire ∧
      ∀ i, x.first ≤ i → i < x.first + x.count → bitOn (d.entry x.kind i) (if x.kind = 7 then 127 else 792) = false)

/-! ### Buffers (BUF) -/

/-- Where the buffer commands complete (R221, R222, R228, R229, R231 to R233): an allocation takes one buffer of its pool for its requester
and returns the address, a refused one returns FAIL, for want of a free buffer with the pool's pointer moved past the requester (R226); a
checked free takes one record out of the buffer, a rejected one changes no buffer; a page that is idle for 64 spans is no longer open; and a
record is copied from the far pool into the prefetch reserve. -/
def Obligations.BufferCommandsComplete : Prop :=
  (∀ (s : State) (m : Master) (p : Fin 3) (r : Nat), s.dev.reads m.val (F.BUF_ALLOC.ix p.val).off = true → masterReq m.val = some r →
    s.dev.buf.used p.val r + 1 ≤ s.dev.quota p.val r → 1 ≤ s.dev.poolFree p.val → (p.val = 2 → s.dev.shed < 3) →
    Completes (.bufAllocRead m p) s fun d => ∃ h, handlePool h = p.val ∧ d.buf.info h = some ⟨r, 1⟩ ∧
      d.buf.used p.val r = s.dev.buf.used p.val r + 1 ∧ d.lastRead.toNat = handleAddr h % 2 ^ 32 ∧ d.lastAbort = false ∧
      d.latches.get (fun _ => none) (m.val * 0x20000000 + (F.BUF_ALLOC.ix p.val).off) = some (BitVec.ofNat 32 (handleAddr h >>> 32))) ∧
  (∀ (s : State) (m : Master) (p : Fin 3) (r : Nat), s.dev.reads m.val (F.BUF_ALLOC.ix p.val).off = true → masterReq m.val = some r →
    s.dev.quota p.val r ≤ s.dev.buf.used p.val r →
    Completes (.bufAllocRead m p) s fun d => d.buf = s.dev.buf ∧ d.lastRead = 0 ∧
      d.latches.get (fun _ => none) (m.val * 0x20000000 + (F.BUF_ALLOC.ix p.val).off) = some 0x80000000) ∧
  (∀ (s : State) (m : Master) (p : Fin 3) (r : Nat), s.dev.reads m.val (F.BUF_ALLOC.ix p.val).off = true → masterReq m.val = some r →
    s.dev.buf.used p.val r + 1 ≤ s.dev.quota p.val r → s.dev.poolFree p.val = 0 → (p.val = 2 → s.dev.shed < 3) →
    Completes (.bufAllocRead m p) s fun d => d.buf = s.dev.buf ∧ d.lastRead = 0 ∧ d.rd (prioFld p.val) = (r + 1) % 24 ∧
      d.rd F.BUF_CONTESTS = min (s.dev.rd F.BUF_CONTESTS + 1) (2 ^ 64 - 1) ∧
      d.latches.get (fun _ => none) (m.val * 0x20000000 + (F.BUF_ALLOC.ix p.val).off) = some 0x80000000) ∧
  (∀ (s : State) (m : Master) (w : Word) (o : Nat), s.dev.writes m.val F.BUF_FREE_HANDLE.off = true → masterReq m.val = some o →
    s.dev.freeCheck w.toNat o = 0 →
    Completes (.bufFreeHandle m w) s fun d => d.buf.freeResult.get (fun _ => 0) m.val = 0 ∧
      d.buf.info w.toNat = (s.dev.buf.dropRec w.toNat).info w.toNat ∧
      (∀ h, h ≠ w.toNat → d.buf.info h = s.dev.buf.info h)) ∧
  (∀ (s : State) (m : Master) (w : Word) (o : Nat), s.dev.writes m.val F.BUF_FREE_HANDLE.off = true → masterReq m.val = some o →
    s.dev.freeCheck w.toNat o ≠ 0 →
    Completes (.bufFreeHandle m w) s fun d => d.buf.freeResult.get (fun _ => 0) m.val = s.dev.freeCheck w.toNat o ∧
      d.buf.held = s.dev.buf.held ∧ d.buf.usage = s.dev.buf.usage ∧ Posts s.dev d [Ev.BUF_FREE_REJECT] ∧
      d.rd (rejectCounter (s.dev.freeCheck w.toNat o)) = min (s.dev.rd (rejectCounter (s.dev.freeCheck w.toNat o)) + 1) (2 ^ 64 - 1)) ∧
  (∀ (s : State) (m : Master) (high low : Word) (p i o : Nat), s.dev.writes m.val F.BUF_FREE_ADDR.off = true → masterReq m.val = some o →
    s.dev.stages.get (fun _ => none) (m.val * 0x20000000 + F.BUF_FREE_ADDR.off) = some low → p < 3 → i < poolMax p →
    low.toNat + (high.toNat <<< 32) = handleAddr (mkHandle p i) → s.dev.freeCheck (mkHandle p i) o = 0 →
    Completes (.bufFreeAddr m high) s fun d => d.buf.freeResult.get (fun _ => 0) m.val = 0 ∧
      d.buf.info (mkHandle p i) = (s.dev.buf.dropRec (mkHandle p i)).info (mkHandle p i) ∧
      d.stages.get (fun _ => none) (m.val * 0x20000000 + F.BUF_FREE_ADDR.off) = none) ∧
  (∀ (s : State) (r : Fin 24) (p : Fin 3) (o : OpenPage), s.dev.buf.openPage p.val r.val = some o → o.last + 64 ≤ s.dev.tim.tick →
    Completes (.openPageTimeout r p) s fun d => d.buf.openPage p.val r.val = none ∧
      (∀ i, s.dev.buf.info o.handle = some i → d.buf.info o.handle = if i.recs = 0 then none else some i)) ∧
  (∀ (s : State) (e : Fin 3) (q : Nat) (x : Desc), s.dev.on F.BUF_PF_CFG_EN = true → s.dev.shed < 2 → s.dev.prefetchQueue = some q →
    (s.dev.queue q).find? Desc.far = some x → s.dev.farRead x e.val = 0 → (x.sectors + 15) / 16 ≤ s.dev.reserveFree →
    Completes (.prefetch e) s fun d => (∃ hs, d.queue q = replaceFar { x with handles := hs, owner := 23, job := none } (s.dev.queue q)) ∧
      d.rd F.BUF_PF_RECORDS = min (s.dev.rd F.BUF_PF_RECORDS + 1) (2 ^ 64 - 1))

/-- Where the CXL port commands complete (R235 to R239): a trained link reads READY, or joins at once when an Enable waits; a training that
times out returns to ABSENT and is tried again; an Enable joins a READY port or starts training; a drained port that holds no page reads
READY; a disabled one is ABSENT with its domain off; a failed one DOWN; and a retrained one READY once it holds no page. -/
def Obligations.CxlCommandsComplete : Prop :=
  (∀ (s : State) (n : Fin 4) (w : BitVec 5) (r : BitVec 7) (pages : Word), s.dev.cxlState n.val = 1 → (w = 16 ∨ w = 8) → r = 64 →
    (s.dev.buf.port n.val).enableDue = none →
    Completes (.cxlLinkTrained n w r pages true) s fun d => d.cxlState n.val = 2 ∧ d.rd (F.BUF_CXL_STATUS_WIDTH.ix n.val) = w.toNat ∧
      (d.buf.port n.val).capacity = pages.toNat ∧ Posts s.dev d (if w = 8 then [Ev.BUF_CXL_DEGRADED] else [])) ∧
  (∀ (s : State) (n : Fin 4) (w : BitVec 5) (r : BitVec 7) (pages : Word) (limit : Nat), s.dev.cxlState n.val = 1 → (w = 16 ∨ w = 8) → r = 64 →
    (s.dev.buf.port n.val).enableDue = some limit →
    Completes (.cxlLinkTrained n w r pages true) s fun d => d.cxlState n.val = 3 ∧ (d.buf.port n.val).joined = min limit pages.toNat ∧
      (d.buf.port n.val).enableDue = none) ∧
  (∀ (s : State) (n : Fin 4) (w : BitVec 5) (r : BitVec 7) (pages : Word) (ok : Bool), s.dev.cxlState n.val = 1 →
    (ok = false ∨ (w ≠ 16 ∧ w ≠ 8) ∨ r ≠ 64) →
    Completes (.cxlLinkTrained n w r pages ok) s fun d => d.cxlState n.val = 6 ∧ Posts s.dev d [Ev.BUF_CXL_DEGRADED]) ∧
  (∀ (s : State) (n : Fin 4), s.dev.cxlState n.val = 1 →
    Completes (.cxlTrainTimeout n) s fun d => d.cxlState n.val = 0 ∧ d.buf = s.dev.buf) ∧
  (∀ (s : State) (n : Fin 4), s.dev.cxlState n.val = 0 → s.dev.farAvail = true → s.dev.domainOn (131 + n.val) = true →
    (s.dev.buf.port n.val).disabled = false → s.dev.cxlMayTry n.val = true →
    Completes (.cxlTrainRetry n) s fun d => d.cxlState n.val = 1 ∧ (d.buf.port n.val).triedAt = some s.dev.tim.tick) ∧
  (∀ (s : State) (m : Master) (n : Fin 4), s.dev.writes m.val (F.BUF_CXL_CTRL.ix n.val).off = true →
    (s.dev.mode = .m2 ∨ s.dev.mode = .m3 ∨ s.dev.mode = .m4 ∨ s.dev.mode = .m5) →
    (s.dev.cxlState n.val = 2 → Completes (.cxlEnable m n) s fun d => d.cxlState n.val = 3 ∧
      (d.buf.port n.val).joined = min (s.dev.rd (F.BUF_CXL_LIMIT_PAGES.ix n.val)) (s.dev.buf.port n.val).capacity) ∧
    (s.dev.cxlState n.val = 0 → s.dev.farAvail = true → Completes (.cxlEnable m n) s fun d => d.cxlState n.val = 1 ∧
      d.domainOn (131 + n.val) = true ∧ (d.buf.port n.val).enableDue = some (s.dev.rd (F.BUF_CXL_LIMIT_PAGES.ix n.val)))) ∧
  (∀ (s : State) (m : Master) (n : Fin 4), s.dev.writes m.val (F.BUF_CXL_CTRL.ix n.val).off = true → s.dev.cxlState n.val = 3 →
    Completes (.cxlDrain m n) s fun d => d.cxlState n.val = 4) ∧
  (∀ (s : State) (n : Fin 4), s.dev.cxlState n.val = 4 → s.dev.buf.heldOn n.val = 0 →
    Completes (.cxlDrainComplete n) s fun d => d.cxlState n.val = 2 ∧ Posts s.dev d [Ev.BUF_CXL_UP]) ∧
  (∀ (s : State) (m : Master) (n : Fin 4), s.dev.writes m.val (F.BUF_CXL_CTRL.ix n.val).off = true → s.dev.cxlState n.val = 2 →
    Completes (.cxlDisable m n) s fun d => d.cxlState n.val = 0 ∧ d.domainOn (131 + n.val) = false ∧ (d.buf.port n.val).joined = 0 ∧
      (d.buf.port n.val).disabled = true) ∧
  (∀ (s : State) (m : Master) (n : Fin 4), s.dev.writes m.val (F.BUF_CXL_CTRL.ix n.val).off = true → s.dev.cxlState n.val = 1 →
    Completes (.cxlDisable m n) s fun d => d.buf = s.dev.buf ∧ d.regs = s.dev.regs ∧ Posts s.dev d [Ev.BUF_CFG_REFUSED]) ∧
  (∀ (s : State) (n : Fin 4) (b : Bool), (s.dev.cxlState n.val = 3 ∨ s.dev.cxlState n.val = 4) →
    Completes (.cxlLinkFail n b) s fun d => d.cxlState n.val = 5 ∧ ∃ l, Posts s.dev d (Ev.BUF_CXL_DOWN :: l)) ∧
  (∀ (s : State) (n : Fin 4), s.dev.cxlState n.val = 5 →
    Completes (.cxlLinkRetrained n) s fun d => d.cxlState n.val = (if s.dev.buf.heldOn n.val = 0 then 2 else 5))

/-! ### Queues, the tree and shapers (QUE, SHP) -/

/-- Where arrivals, selections and flushes complete (R242, R247, R253, R254, R264, R265, R327, R329, R330, R388, R389): a packet to a system
port or to the host that its checks admit and that finds buffers is queued, one for a queue that is down is dropped and counted; a packet to
a group queues its first copy, with a job for the others, and is dropped where the group has no entry; a packet with a mirror session leaves
a job for the mirror copy, or loses it where the backlog is full; a selected packet goes to its octet's egress strokes, and one selected at
the host root is written to the buffer and the descriptor of its punt queue, or dropped where that was disabled in the same clock; a flush
request waits; and its queues are detached by the engine. -/
def Obligations.QueueTrafficCompletes : Prop :=
  (∀ (s : State) (a : Arrival) (rest : List Arrival), s.dev.que.arrivals = a :: rest → a.pkt.get Md.destType = 0 → a.pkt.get Md.mirror = 0 →
    s.dev.queueDown (voqOf a.pkt) = false → s.dev.rd (F.QUE_Q_CFG_MAX_KIB.item (voqOf a.pkt)) = 0 →
    s.dev.wredProfile a.pkt.tag (voqOf a.pkt) = 0 →
    ((arrivedAt s.dev rest).alloc a.input (sectorsOf a.pkt.len) (s.dev.tierMask a.pkt.tag (voqOf a.pkt))
      (s.dev.spilled (voqOf a.pkt))).1.isSome = true →
    Completes (.enqueue 0) s fun d => d.que.arrivals = rest ∧
      (d.queue (voqOf a.pkt)).map (·.pkt) = (s.dev.queue (voqOf a.pkt)).map (·.pkt) ++ [a.pkt]) ∧
  (∀ (s : State) (a : Arrival) (rest : List Arrival), s.dev.que.arrivals = a :: rest → a.pkt.get Md.destType = 0 → a.pkt.get Md.mirror = 0 →
    s.dev.queueDown (voqOf a.pkt) = true →
    Completes (.enqueue 0) s fun d => d.que.arrivals = rest ∧ d.que.q = s.dev.que.q ∧
      d.rd F.QUE_PORT_DOWN_DROP = min (s.dev.rd F.QUE_PORT_DOWN_DROP + 1) (2 ^ 64 - 1) ∧
      d.rd (F.QUE_Q_DROPS.item (voqOf a.pkt)) = min (s.dev.rd (F.QUE_Q_DROPS.item (voqOf a.pkt)) + 1) (2 ^ 64 - 1)) ∧
  (∀ (s : State) (a : Arrival) (rest : List Arrival), s.dev.que.arrivals = a :: rest → a.pkt.get Md.destType = 2 → a.pkt.get Md.mirror = 0 →
    s.dev.rd (F.QUE_Q_CFG_MAX_KIB.item (puntQueueOf a.pkt)) = 0 → s.dev.wredProfile a.pkt.tag (puntQueueOf a.pkt) = 0 →
    ((arrivedAt s.dev rest).alloc a.input (sectorsOf a.pkt.len) (s.dev.tierMask a.pkt.tag (puntQueueOf a.pkt))
      (s.dev.spilled (puntQueueOf a.pkt))).1.isSome = true →
    Completes (.enqueue 0) s fun d => d.que.arrivals = rest ∧
      (d.queue (puntQueueOf a.pkt)).map (·.pkt) = (s.dev.queue (puntQueueOf a.pkt)).map (·.pkt) ++ [a.pkt]) ∧
  (∀ (s : State) (a : Arrival) (rest : List Arrival), s.dev.que.arrivals = a :: rest → a.pkt.get Md.destType = 1 → a.pkt.get Md.mirror = 0 →
    (groupValid (s.dev.groupEntry (a.pkt.get Md.dest)) = false ∨ groupCount (s.dev.groupEntry (a.pkt.get Md.dest)) = 0) →
    Completes (.enqueue 0) s fun d => d.que.arrivals = rest ∧ d.que.q = s.dev.que.q ∧
      d.rd F.DCK_MC_NO_GROUP = min (s.dev.rd F.DCK_MC_NO_GROUP + 1) (2 ^ 64 - 1) ∧ ∃ l, Posts s.dev d (Ev.DCK_MC_NO_GROUP :: l)) ∧
  (∀ (s : State) (a : Arrival) (rest : List Arrival), s.dev.que.arrivals = a :: rest → a.pkt.get Md.destType = 1 →
    let g := a.pkt.get Md.dest
    let e := s.dev.groupEntry g
    let c := copyPacket (s.dev.clEntry (groupBase e)) a.pkt
    groupValid e = true → 2 ≤ groupCount e → s.dev.backlogFull = false → clValid (s.dev.clEntry (groupBase e)) = true →
    s.dev.queueDown (voqOf c) = false → s.dev.rd (F.QUE_Q_CFG_MAX_KIB.item (voqOf c)) = 0 → s.dev.wredProfile c.tag (voqOf c) = 0 →
    ((arrivedAt s.dev rest).alloc a.input (sectorsOf c.len) (s.dev.tierMask c.tag (voqOf c)) (s.dev.spilled (voqOf c))).1.isSome = true →
    Completes (.enqueue 0) s fun d => d.que.arrivals = rest ∧
      (d.queue (voqOf c)).map (·.pkt) = (s.dev.queue (voqOf c)).map (·.pkt) ++ [c] ∧
      d.rd (F.DCK_MC_COPIES.item g) = min (s.dev.rd (F.DCK_MC_COPIES.item g) + 1) (2 ^ 64 - 1) ∧
      ∃ j, d.dck.backlog = s.dev.dck.backlog ++ [j] ∧ j.pkt = a.pkt ∧ j.group = some g ∧ j.base = groupBase e ∧ j.count = groupCount e ∧
        j.nextCopy = 1 ∧ j.mirror = a.pkt.get Md.mirror) ∧
  (∀ (s : State) (a : Arrival) (rest : List Arrival), s.dev.que.arrivals = a :: rest → a.pkt.get Md.destType = 0 → a.pkt.get Md.mirror ≠ 0 →
    s.dev.queueDown (voqOf a.pkt) = false → s.dev.rd (F.QUE_Q_CFG_MAX_KIB.item (voqOf a.pkt)) = 0 →
    s.dev.wredProfile a.pkt.tag (voqOf a.pkt) = 0 →
    ((arrivedAt s.dev rest).alloc a.input (sectorsOf a.pkt.len) (s.dev.tierMask a.pkt.tag (voqOf a.pkt))
      (s.dev.spilled (voqOf a.pkt))).1.isSome = true →
    (s.dev.backlogFull = false → Completes (.enqueue 0) s fun d => d.que.arrivals = rest ∧
      (d.queue (voqOf a.pkt)).map (·.pkt) = (s.dev.queue (voqOf a.pkt)).map (·.pkt) ++ [a.pkt] ∧
      ∃ j, d.dck.backlog = s.dev.dck.backlog ++ [j] ∧ j.pkt = a.pkt ∧ j.group = none ∧ j.count = 0 ∧ j.mirror = a.pkt.get Md.mirror) ∧
    (s.dev.backlogFull = true → Completes (.enqueue 0) s fun d => d.que.arrivals = rest ∧ d.dck.backlog = s.dev.dck.backlog ∧
      (d.queue (voqOf a.pkt)).map (·.pkt) = (s.dev.queue (voqOf a.pkt)).map (·.pkt) ++ [a.pkt] ∧
      d.rd (F.DCK_MIR_LOST.item (a.pkt.get Md.mirror)) = min (s.dev.rd (F.DCK_MIR_LOST.item (a.pkt.get Md.mirror)) + 1) (2 ^ 64 - 1) ∧
      ∃ l, Posts s.dev d (Ev.DCK_MC_BACKLOG :: l))) ∧
  (∀ (s : State) (more : Fin 16), s.dev.que.arrivals ≠ [] →
    Completes (.enqueue more) s fun d => ∃ k, 1 ≤ k ∧ k ≤ more.val + 1 ∧ d.que.arrivals = s.dev.que.arrivals.drop k) ∧
  (∀ (s : State) (o : Fin 16) (x : BitVec 256) (e : Fin 3) (b : Bool) (p n : Nat) (pkt : Packet), s.dev.forwarding = true →
    s.dev.octetStopped o.val = false → s.dev.cwStopped 1 = false → (notedAt s.dev o.val).readyPorts o.val = [p] →
    ((notedAt s.dev o.val).takeFree.2.selectAt p e.val ((notedAt s.dev o.val).queuedPackets + 1)).1 = .packet n pkt →
    Completes (.schedulerSelection (some o) x e b) s fun d =>
      d.egressQueue o.val = s.dev.egressQueue o.val ++ [pkt.setMd Md.egrPort p]) ∧
  (∀ (s : State) (x : BitVec 256) (e : Fin 3) (n : Nat) (pkt : Packet), isPunt n = true → s.dev.pathOff = false →
    ((s.dev.noteStates 128).selectAt 128 e.val ((s.dev.noteStates 128).queuedPackets + 1)).1 = .packet n pkt →
    (Completes (.schedulerSelection none x e false) s fun d =>
      let k := n - 393152
      let md := s.dev.on (F.HST_PQ_CFG_META.ix k)
      let whole := (if md then leBytes 128 pkt.md.toNat else []) ++ pkt.bytes
      let data := whole.take (byteField x 8 2)
      let desc := s.dev.rd (F.HST_PQ_BASE.ix k) +
        32 * (s.dev.rd (F.HST_PQ_HEAD_INDEX.ix k) % 2 ^ (6 + s.dev.rd (F.HST_PQ_CFG_SIZE.ix k)))
      d.rd (F.HST_PQ_HEAD_INDEX.ix k) = (s.dev.rd (F.HST_PQ_HEAD_INDEX.ix k) + 1) % 65536 ∧
      d.hostMem = hostPutAll (hostPutAll s.dev.hostMem (byteField x 0 8) data) (desc + 10)
        (leBytes 2 data.length ++ leBytes 1 (1 + (if byteField x 8 2 < whole.length then 2 else 0) + (if md then 4 else 0)) ++
          leBytes 1 (pkt.get Md.tc) ++ leBytes 1 (pkt.get Md.srcPort) ++ leBytes 1 0 ++
          leBytes 8 (pkt.get Md.rxTs + (if pkt.tsHeld then 0 else 2 ^ 63)) ++ leBytes 4 (pkt.get Md.flowHash) ++ leBytes 4 0)) ∧
    (Completes (.schedulerSelection none x e true) s fun d => d.hostMem = s.dev.hostMem ∧
      d.rd (F.HST_PQ_HEAD_INDEX.ix (n - 393152)) = s.dev.rd (F.HST_PQ_HEAD_INDEX.ix (n - 393152)))) ∧
  (∀ (s : State) (m : Master), s.dev.writes m.val F.QUE_FLUSH_CMD.off = true → s.dev.mode ≠ .m5 → s.dev.mode ≠ .m6 →
    (Completes (.flushQueue m) s fun d => ∃ r, d.que.flushes = s.dev.que.flushes ++ [r] ∧ r.cause = 3 ∧ r.port = 0xFFFF ∧
      r.todo = rangesLess [(s.dev.rd F.QUE_Q_SEL_QUEUE, 1)] s.dev.flushWaiting) ∧
    (∀ p : Port, Completes (.flushPort m p) s fun d => ∃ r, d.que.flushes = s.dev.que.flushes ++ [r] ∧ r.cause = 3 ∧ r.port = p.val ∧
      r.todo = rangesLess ((s.dev.portRanges p.val).filter fun r => 131072 ≤ r.1) s.dev.flushWaiting) ∧
    (Completes (.flushAllVoqs m) s fun d => ∃ r, d.que.flushes = s.dev.que.flushes ++ [r] ∧ r.cause = 3 ∧ r.port = 0xFFFF ∧
      r.todo = rangesLess [(0, 131072)] s.dev.flushWaiting)) ∧
  (∀ (s : State) (r : FlushReq) (q : Nat), s.dev.que.flushTick ≠ s.dev.tim.tick → s.dev.que.flushes = [r] → r.todo = [(q, 1)] →
    r.tick < s.dev.tim.tick → (∀ x ∈ s.dev.queue q, x.handles.any s.dev.onDownPort = false) →
    Completes .flushProgress s fun d => d.queue q = [] ∧ d.que.flushes = [] ∧ d.que.flushTick = s.dev.tim.tick ∧
      (s.dev.mode ≠ .m11 → d.rd F.QUE_FLUSH_DROP = min (s.dev.rd F.QUE_FLUSH_DROP + (s.dev.queue q).length) (2 ^ 64 - 1)))

/-- Where the configuration commands of the queue manager complete (R244, R256, R257, R261): a port's range is taken or refused; the PORT of
a bare node; the three moves of the tree, and a refused one, which changes no parent; and the histogram of the selected slot, whose bins a
new queue or CLR zeroes. A standby ignores a local write of any of these registers and a local flush (R343). -/
def Obligations.QueueConfigCompletes : Prop :=
  (∀ (s : State) (m : Master) (p : Port) (data : Word), s.dev.writes m.val (F.QUE_PORT_CFG.ix p.val).off = true → s.dev.mode ≠ .m5 →
    s.dev.mode ≠ .m6 → s.dev.rangeBad 0 p.val (bits data 18 0) = false → s.dev.rangeBad 1 p.val (bits data 18 0) = false →
    s.dev.rangeOverlap 0 p.val (bits data 18 0) = false → s.dev.rangeOverlap 1 p.val (bits data 18 0) = false →
    s.dev.rangeAttached p.val (bits data 18 0) = false →
    Completes (.quePortCfgWrite m p data) s fun d => d.portCount p.val = bits data 18 0 ∧
      d.rd (F.QUE_PORT_CFG_SRC.ix p.val) = bits data 31 30 ∧ d.rd (F.QUE_PORT_CFG_SHIFT.ix p.val) = bits data 25 24) ∧
  (∀ (s : State) (m : Master) (p : Port) (data : Word), s.dev.writes m.val (F.QUE_PORT_CFG.ix p.val).off = true → s.dev.mode ≠ .m5 →
    s.dev.mode ≠ .m6 → s.dev.rangeBad 0 p.val (bits data 18 0) = true →
    Completes (.quePortCfgWrite m p data) s fun d => d.regs = s.dev.regs ∧ Posts s.dev d [Ev.QUE_CFG_REFUSED]) ∧
  (∀ (s : State) (m : Master) (data : Word), s.dev.writes m.val F.QUE_NODE_PORT.off = true → s.dev.mode ≠ .m5 → s.dev.mode ≠ .m6 →
    s.dev.attached (nodeElem (s.dev.rd F.QUE_NODE_SEL_NODE)) = false → s.dev.children (s.dev.rd F.QUE_NODE_SEL_NODE) = [] →
    Completes (.nodePortWrite m data) s fun d => d.rd (F.QUE_NODE_PORT_PORT.item (s.dev.rd F.QUE_NODE_SEL_NODE)) = data.toNat % 256) ∧
  (∀ (s : State) (m : Master), s.dev.writes m.val F.QUE_MOVE_CMD.off = true →
    let a := s.dev.rd F.QUE_MOVE_SRC_ELEM
    let b := s.dev.rd F.QUE_MOVE_DST_ELEM
    (s.dev.moveCause 1 m.val a b = 0 → Completes (.queAttach m) s fun d => d.parent a = b ∧
      d.que.moveResult.get (fun _ => 0) m.val = 0 ∧ ∀ e, e ≠ a → d.parent e = s.dev.parent e) ∧
    (s.dev.moveCause 2 m.val a b = 0 → Completes (.queSwap m) s fun d => d.parent b = s.dev.parent a ∧ d.parent a = 0xFFFFF ∧
      d.que.moveResult.get (fun _ => 0) m.val = 0 ∧ ∀ e, e ≠ a → e ≠ b → d.parent e = s.dev.parent e) ∧
    (s.dev.moveCause 3 m.val a b = 0 → Completes (.queDetach m) s fun d => d.parent a = 0xFFFFF ∧
      d.que.moveResult.get (fun _ => 0) m.val = 0 ∧ ∀ e, e ≠ a → d.parent e = s.dev.parent e) ∧
    (s.dev.moveCause 1 m.val a b ≠ 0 → Completes (.queAttach m) s fun d => d.que.parent = s.dev.que.parent ∧
      d.que.moveResult.get (fun _ => 0) m.val = s.dev.moveCause 1 m.val a b ∧ Posts s.dev d [Ev.QUE_MOVE_REFUSED])) ∧
  (∀ (s : State) (m : Master) (data : Word), s.dev.writes m.val F.QUE_HIST_CFG.off = true → s.dev.mode ≠ .m5 → s.dev.mode ≠ .m6 →
    let k := s.dev.rd F.QUE_HIST_SEL_SLOT
    (Completes (.histRebind m data) s fun d => d.rd (F.QUE_HIST_CFG_QUEUE.item k) = bits data 18 0 ∧
      d.rd (F.QUE_HIST_CFG_SHIFT.item k) = bits data 27 24 ∧ d.on (F.QUE_HIST_CFG_EN.item k) = bitOn data 31 ∧
      (s.dev.rd (F.QUE_HIST_CFG_QUEUE.item k) ≠ bits data 18 0 → ∀ b, b < 16 → d.rd ((F.QUE_HIST_BIN.ix b).item k) = 0)) ∧
    (Completes (.histClear m data) s fun d => ∀ b, b < 16 → d.rd ((F.QUE_HIST_BIN.ix b).item k) = 0)) ∧
  (∀ (s : State) (m : Master) (p : Port) (data : Word), s.dev.localBarred m.val = true →
    let ignored (d : Dev) : Prop := d.regs = s.dev.regs ∧ d.que = s.dev.que ∧ Posts s.dev d [Ev.TWN_LOCAL_WRITE]
    (s.dev.writes m.val (F.QUE_PORT_CFG.ix p.val).off = true → Completes (.quePortCfgWrite m p data) s ignored) ∧
    (s.dev.writes m.val F.QUE_NODE_PORT.off = true → Completes (.nodePortWrite m data) s ignored) ∧
    (s.dev.writes m.val F.QUE_HIST_CFG.off = true → Completes (.histRebind m data) s ignored ∧ Completes (.histClear m data) s ignored) ∧
    (s.dev.writes m.val F.QUE_FLUSH_CMD.off = true → Completes (.flushQueue m) s ignored ∧ Completes (.flushPort m p) s ignored ∧
      Completes (.flushAllVoqs m) s ignored))

/-- Where the shaper commands complete (R273, R282, R284, R285): a bound element of mode 1 is refreshed once a span; an element is bound,
and one that does not exist refused; a direct switch waits for slot 0, set 0 is refused; and a switch exchanges the copies of every profile
of its set. -/
def Obligations.ShaperCommandsComplete : Prop :=
  (∀ (s : State) (e : Nat), Inv s → s.dev.shp.refreshTick ≠ s.dev.tim.tick → s.dev.actionDue = false → s.dev.switchDue = false →
    e ∈ s.dev.boundElems → s.dev.profMode (s.dev.elemProf e) = 1 →
    Completes .tokenRefresh s fun d => d.shp.refreshTick = s.dev.tim.tick ∧
      ((d.levels e).l1, (d.levels e).r1) = refreshBucket (s.dev.levels e).l1 (s.dev.levels e).r1 (s.dev.profV (s.dev.elemProf e) 1)
        (s.dev.profBurst (s.dev.elemProf e) 1)) ∧
  (∀ (s : State) (m : Master) (data : Word), s.dev.writes m.val F.SHP_ELEM_PROFILE.off = true →
    (elemExists (s.dev.rd F.SHP_ELEM_SEL_ELEM) = true →
      Completes (.elemBind m data) s fun d => d.elemProf (s.dev.rd F.SHP_ELEM_SEL_ELEM) = bits data 13 0) ∧
    (elemExists (s.dev.rd F.SHP_ELEM_SEL_ELEM) = false →
      Completes (.elemBind m data) s fun d => d.regs = s.dev.regs ∧ Posts s.dev d [Ev.SHP_CFG_REFUSED])) ∧
  (∀ (s : State) (m : Master) (data : Word), s.dev.writes m.val F.SHP_SET_SWITCH.off = true →
    (data.toNat % 256 ≠ 0 → Completes (.setSwitchWrite m data) s fun d =>
      d.shp.pending = s.dev.shp.pending ++ [(data.toNat % 256, m.val, s.dev.tim.tick)] ∧ d.on F.SHP_STATUS_SWITCH_PEND = true) ∧
    (data.toNat % 256 = 0 → Completes (.setSwitchWrite m data) s fun d => d.shp = s.dev.shp ∧ Posts s.dev d [Ev.SHP_SWITCH_REFUSED])) ∧
  (∀ (s : State) (n m t : Nat) (rest : List (Nat × Nat × Nat)), Inv s → s.dev.shp.pending = (n, m, t) :: rest → t < s.dev.tim.tick →
    s.dev.actionDue = false →
    Completes .setSwitch s fun d => d.shp.pending = rest ∧ d.on F.SHP_STATUS_SWITCH_PEND = !rest.isEmpty ∧
      d.rd F.SHP_LAST_SWITCH_SET = n % 256 ∧ d.rd F.SHP_LAST_SWITCH_SPAN = s.dev.tim.span % 2 ^ 48 ∧ Posts s.dev d [Ev.SHP_SWITCH] ∧
      ∀ p ∈ s.dev.knownProfs, p ≠ 0 → s.dev.rd (F.SHP_PROF_CFG_SET.item p) = n →
        d.rd (F.SHP_PROF_CFG_ACTIVE.item p) = 1 - s.dev.rd (F.SHP_PROF_CFG_ACTIVE.item p))

/-! ### The deck and replication (DCK) -/

/-- Where the deck and replication commands complete (R322, R325 to R328, R331): a matched stream sends 384 bytes of the packet in progress;
the next copy of the job in front is queued and counted, or an invalid copy-list entry counted; a group entry and a copy-list entry take the
value written, a range past the lists is refused, and a refused write changes nothing; and a group's counters are zeroed, but by a local
write on a standby (R343). -/
def Obligations.DeckCommandsComplete : Prop :=
  (∀ (s : State) (i o : Nat) (x : DeckPkt), s.dev.dck.matching = [(i, o)] → o < 16 → s.dev.inProg i o = some x →
    384 < x.left →
    Completes .deckSlot s fun d => d.inProg i o = some { x with left := x.left - 384 } ∧
      d.rd (F.DCK_OUT_CELLS.ix o) = min (s.dev.rd (F.DCK_OUT_CELLS.ix o) + 1) (2 ^ 64 - 1)) ∧
  (∀ (s : State) (j : ReplJob) (rest : List ReplJob) (g : Nat), s.dev.dck.backlog = j :: rest → j.group = some g → j.nextCopy < j.count →
    (s.dev.sourceFate j).1 = 0 → clValid (s.dev.clEntry ((j.base + j.nextCopy) % 1048576)) = false → (j.nextCopy + 1 < j.count ∨ j.mirror ≠ 0) →
    Completes .replicationCopy s fun d => (d.dck.backlog.head?).map (·.nextCopy) = some (j.nextCopy + 1) ∧
      d.rd (groupDrop 4 g) = min (s.dev.rd (groupDrop 4 g) + 1) (2 ^ 64 - 1)) ∧
  (∀ (s : State) (j : ReplJob) (rest : List ReplJob) (g : Nat), s.dev.dck.backlog = j :: rest → j.group = some g → j.nextCopy < j.count →
    let c := copyPacket (s.dev.clEntry ((j.base + j.nextCopy) % 1048576)) j.pkt
    (s.dev.sourceFate j).1 = 0 → clValid (s.dev.clEntry ((j.base + j.nextCopy) % 1048576)) = true →
    ((s.dev.sourceFate j).2.admitTo (voqOf c) 20 j.input c).1 = none →
    (j.nextCopy + 1 < j.count ∨ j.mirror ≠ 0) →
    Completes .replicationCopy s fun d => (d.dck.backlog.head?).map (·.nextCopy) = some (j.nextCopy + 1) ∧
      (d.queue (voqOf c)).length = (s.dev.queue (voqOf c)).length + 1 ∧
      d.rd (F.DCK_MC_COPIES.item g) = min (s.dev.rd (F.DCK_MC_COPIES.item g) + 1) (2 ^ 64 - 1)) ∧
  (∀ (s : State) (m : Master) (data : Word), s.dev.writes m.val F.DCK_MC_GROUP.off = true → s.dev.dckWritable m.val = true →
    s.dev.mirrorOn = false → bits data 30 20 ≤ 1024 → bits data 19 0 + bits data 30 20 ≤ 1048576 →
    Completes (.mcGroupWrite m data) s fun d => d.groupEntry (s.dev.rd F.DCK_MC_SEL_GROUP) = BitVec.ofNat 64 data.toNat) ∧
  (∀ (s : State) (m : Master) (data : Word), s.dev.writes m.val F.DCK_MC_GROUP.off = true →
    (1024 < bits data 30 20 ∨ 1048576 < bits data 19 0 + bits data 30 20) →
    Completes (.mcGroupWrite m data) s fun d => d.regs = s.dev.regs ∧ Posts s.dev d [Ev.DCK_CFG_REFUSED]) ∧
  (∀ (s : State) (m : Master) (high low : Word), s.dev.writes m.val (F.DCK_CL_ENTRY.off + 4) = true → s.dev.dckWritable m.val = true →
    s.dev.mirrorOn = false → s.dev.stages.get (fun _ => none) (m.val * 0x20000000 + F.DCK_CL_ENTRY.off) = some low →
    Completes (.clEntryWrite m high) s fun d => d.clEntry (s.dev.rd F.DCK_CL_SEL_INDEX) =
        BitVec.ofNat 64 ((low.toNat + (high.toNat <<< 32)) &&& 0x80003FFFFF3F3FFF) ∧
      d.stages.get (fun _ => none) (m.val * 0x20000000 + F.DCK_CL_ENTRY.off) = none) ∧
  (∀ (s : State) (m : Master) (high : Word), s.dev.writes m.val (F.DCK_CL_ENTRY.off + 4) = true → s.dev.dckWritable m.val = false →
    Completes (.clEntryWrite m high) s fun d => d.regs = s.dev.regs ∧ d.stages = s.dev.stages ∧ Posts s.dev d [Ev.DCK_CFG_REFUSED]) ∧
  (∀ (s : State) (m : Master), s.dev.writes m.val F.DCK_MC_SEL.off = true →
    let g := s.dev.rd F.DCK_MC_SEL_GROUP
    (s.dev.localBarred m.val = false →
      Completes (.mcCounterClr m) s fun d => d.rd (F.DCK_MC_COPIES.item g) = 0 ∧ ∀ r, r < 5 → d.rd (groupDrop r g) = 0) ∧
    (s.dev.localBarred m.val = true →
      Completes (.mcCounterClr m) s fun d => d.regs = s.dev.regs ∧ Posts s.dev d [Ev.TWN_LOCAL_WRITE]))

/-! ### The fabric interface (FAB) -/

/-- Where the commands of lanes, links and the interface state complete (R290, R296, R297, R305, R315): a lane locks and unlocks; a link
that meets its conditions comes up, on an UP interface and on one in BRINGUP, which it takes UP with its node ID; a link with a cause goes
down, and the last one takes the interface DOWN; EN and RESTART start bring-up; and a takeover is requested in M5. -/
def Obligations.FabricLinkCommandsComplete : Prop :=
  (∀ (s : State) (l : Fin 160), s.dev.lanePowered l.val = true →
    Completes (.fabLaneLock l) s fun d => bitOn d.fab.locked l.val = true) ∧
  (∀ (s : State) (l : Fin 160), Completes (.fabLaneLockLoss l) s fun d => bitOn d.fab.locked l.val = false ∧
    d.fab.ctlRun.get (fun _ => 0) l.val = 0) ∧
  (∀ (s : State) (i : Fin 40), s.dev.on F.FAB_CTRL_EN = true → s.dev.fabUp = true → s.dev.fabLinkUp i.val = false →
    s.dev.lanePowered (4 * i.val) = true → s.dev.linkReady i.val = true → s.dev.linkNode i.val = s.dev.rd F.FAB_STATUS_NODE_ID →
    Completes (.fabricLinkUp i) s fun d => d.fabLinkUp i.val = true ∧ d.rd (F.FAB_LINK_STAT_STATE.ix i.val) = 2 ∧ d.fabUp = true ∧
      ∃ l, Posts s.dev d (Ev.FAB_LINK_UP :: l)) ∧
  (∀ (s : State) (i : Fin 40), s.dev.on F.FAB_CTRL_EN = true → s.dev.rd F.FAB_STATUS_STATE = 1 → s.dev.fabLinkUp i.val = false →
    s.dev.lanePowered (4 * i.val) = true → s.dev.linkReady i.val = true →
    (∀ j, j < 40 → s.dev.linkReady j = true → s.dev.linkNode j = s.dev.linkNode i.val) → s.dev.on F.GLB_STRAP_SELF_TIMED = false →
    Completes (.fabricLinkUp i) s fun d => d.fabLinkUp i.val = true ∧ d.fabUp = true ∧ d.on F.FAB_STATUS_NODE_VALID = true ∧
      d.rd F.FAB_STATUS_NODE_ID = s.dev.linkNode i.val ∧ ∃ l, Posts s.dev d (Ev.FAB_LINK_UP :: Ev.FAB_UP :: l)) ∧
  (∀ (s : State) (i : Fin 40) (c : BitVec 4), s.dev.fabLinkUp i.val = true → s.dev.downHolds i.val c.toNat = true →
    Completes (.fabricLinkDown i c) s fun d => d.fabLinkUp i.val = false ∧ d.rd (F.FAB_LINK_STAT_CAUSE.ix i.val) = c.toNat ∧
      (∀ j, j < 40 → j ≠ i.val → d.fabLinkUp j = s.dev.fabLinkUp j) ∧
      (s.dev.fabUp = true → d.linksUp = [] → d.rd F.FAB_STATUS_STATE = 4) ∧ ∃ l, Posts s.dev d (Ev.FAB_LINK_DOWN :: l)) ∧
  (∀ (s : State) (m : Master) (b : Bool), s.dev.writes m.val F.FAB_CTRL.off = true → s.dev.on F.FAB_CTRL_EN = !b →
    Completes (.fabEnableWrite m b) s fun d => d.on F.FAB_CTRL_EN = b ∧ d.rd F.FAB_STATUS_STATE = (if b then 1 else 0) ∧ d.linksUp = [] ∧
      d.on F.FAB_STATUS_NODE_VALID = false) ∧
  (∀ (s : State) (m : Master), s.dev.writes m.val F.FAB_CTRL.off = true → s.dev.on F.FAB_CTRL_EN = true →
    Completes (.fabRestart m) s fun d => d.rd F.FAB_STATUS_STATE = 1 ∧ d.linksUp = [] ∧ d.on F.FAB_STATUS_NODE_VALID = false) ∧
  (∀ (s : State) (m : Master), s.dev.writes m.val F.FAB_PAIR_CTRL.off = true → s.dev.mode = .m5 → s.dev.on F.FAB_PAIR_CTRL_TAKEOVER = false →
    Completes (.takeoverRequest m) s fun d => d.on F.FAB_PAIR_CTRL_TAKEOVER = true ∧ d.twn.claimAt = some (s.dev.tim.tick, s.dev.tim.span) ∧
      d.twn.pinsHeld = (s.dev.twn.pinsHeld || s.dev.twinOn))

/-- Where the cell commands complete (R289, R291, R300, R305, R307, R308, R310, R311): a control-up cell on every locked lane and a filler
on a powered one that is not, each behind its slot marker; a valid control-down cell gives its link's node ID and the lane's run, an invalid
one is counted; a cell that a codeword destroyed is as never received (R290); every grant for the next span on an up link is staged as one
cell; each such lane sends a cell in a data slot behind its marker, a filler where nothing is staged for it; a data cell in order is passed
on, one with a bad HCRC counted; and a missing or a stale packet is dropped. -/
def Obligations.CellCommandsComplete : Prop :=
  (∀ s : State, s.dev.on F.FAB_CTRL_EN = true →
    Completes .controlUpSend s fun d =>
      d.fab.ctlUp.map (·.lane) = ((List.range 160).filter fun l => bitOn s.dev.fab.locked l || s.dev.lanePowered l) ∧
      ∀ x ∈ d.fab.ctlUp, x.marker = slotMarker 0 ∧
        (if bitOn s.dev.fab.locked x.lane = true then cellType x.cell = 2 else x.cell = s.dev.idleCell)) ∧
  (∀ (s : State) (l : Fin 160) (c : BitVec 2048), s.dev.on F.FAB_CTRL_EN = true → bitOn s.dev.fab.locked l.val = true → controlValid c = true →
    Completes (.controlDownRx l .received c) s fun d => d.fab.ctlAt.get (fun _ => 0) l.val = s.dev.tim.tick ∧
      d.rd (F.FAB_LINK_STAT_NODE_ID.ix (l.val / 4)) = byteField c 22 2 % 1024 ∧
      d.on (F.FAB_LINK_STAT_NODE_VALID.ix (l.val / 4)) = decide (32768 ≤ byteField c 22 2)) ∧
  (∀ (s : State) (l : Fin 160) (c : BitVec 2048), s.dev.on F.FAB_CTRL_EN = true → bitOn s.dev.fab.locked l.val = true →
    controlValid c = false →
    Completes (.controlDownRx l .received c) s fun d => d.fab = s.dev.fab ∧ d.rd F.FAB_CTRL_ERR = min (s.dev.rd F.FAB_CTRL_ERR + 1) (2 ^ 64 - 1)) ∧
  (∀ (s : State) (l : Fin 160) (n : Fin 100) (f : CellFate) (c : BitVec 2048), s.dev.on F.FAB_CTRL_EN = true →
    bitOn s.dev.fab.locked l.val = true → f ≠ CellFate.received →
    (Completes (.controlDownRx l f c) s fun d => d.rd F.FAB_FEC_UNCORR = min (s.dev.rd F.FAB_FEC_UNCORR + 1) (2 ^ 64 - 1) ∧
      d.fab.ctlAt = s.dev.fab.ctlAt ∧ d.fab.grants = s.dev.fab.grants ∧ d.tim = s.dev.tim) ∧
    (n.val ≠ 0 → Completes (.dataCellRx l n f c) s fun d => d.rd F.FAB_FEC_UNCORR = min (s.dev.rd F.FAB_FEC_UNCORR + 1) (2 ^ 64 - 1) ∧
      d.fab.rx = s.dev.fab.rx ∧ d.dck = s.dev.dck)) ∧
  (∀ s : State, Completes .cellStaging s fun d =>
    d.fab.staged.length = s.dev.fab.staged.length + (s.dev.fab.grants.filter fun g =>
      g.span == spanAdd s.dev.tim.span 1 && s.dev.fabLinkUp (g.lane / 4)).length ∧
    ∀ g ∈ d.fab.grants, g.span = spanAdd s.dev.tim.span 1 → s.dev.fabLinkUp (g.lane / 4) = false) ∧
  (∀ (s : State) (n : Fin 100), n.val ≠ 0 → s.dev.on F.FAB_CTRL_EN = true →
    Completes (.cellSend n) s fun d =>
      d.fab.cellsOut.map (·.lane) = ((List.range 160).filter fun l => bitOn s.dev.fab.locked l || s.dev.lanePowered l) ∧
      (∀ x ∈ d.fab.cellsOut, x.marker = slotMarker n.val ∧
        ((∀ c ∈ s.dev.fab.staged, c.span = s.dev.tim.span → c.slot = n.val → c.lane ≠ x.lane) → x.cell = s.dev.idleCell)) ∧
      (∀ c ∈ d.fab.staged, ¬ (c.span = s.dev.tim.span ∧ c.slot ≤ n.val)) ∧
      d.rd F.FAB_CELLS_TX = min (s.dev.rd F.FAB_CELLS_TX +
        (s.dev.fab.staged.filter fun c =>
        c.span == s.dev.tim.span && c.slot == n.val && (!c.filler && s.dev.dataSlots)).length) (2 ^ 64 - 1)) ∧
  (∀ (s : State) (l : Fin 160) (n : Fin 100) (c : BitVec 2048), s.dev.on F.FAB_CTRL_EN = true → bitOn s.dev.fab.locked l.val = true →
    n.val ≠ 0 → hcrcGood c = true → cellType c = 1 → s.dev.silent = false → s.dev.isOwnNode (cellDst c) = true → cellRestart c = false →
    let k := 8 * cellSrc c + cellTc c
    cellSeq c = (s.dev.rxContext k).expected → (s.dev.rxContext k).held = [] → s.dev.reasmBytes + cellUsed c ≤ 67108864 →
    Completes (.dataCellRx l n .received c) s fun d => (d.rxContext k).expected = ((s.dev.rxContext k).expected + 1) % 65536 ∧
      (d.rxContext k).lastAt = s.dev.tim.tick ∧ d.rd F.FAB_CELLS_RX = min (s.dev.rd F.FAB_CELLS_RX + 1) (2 ^ 64 - 1)) ∧
  (∀ (s : State) (l : Fin 160) (n : Fin 100) (c : BitVec 2048), s.dev.on F.FAB_CTRL_EN = true → bitOn s.dev.fab.locked l.val = true →
    n.val ≠ 0 → hcrcGood c = false →
    Completes (.dataCellRx l n .received c) s fun d => d.fab = s.dev.fab ∧ d.rd F.FAB_CELL_ERR = min (s.dev.rd F.FAB_CELL_ERR + 1) (2 ^ 64 - 1)) ∧
  (∀ (s : State) (n : BitVec 10) (c : Fin 8) (t : Nat), ((s.dev.rxContext (8 * n.toNat + c.val)).held.map fun h => h.2.1).min? = some t →
    t + 9 ≤ s.dev.tim.tick →
    Completes (.reasmTimeout n c) s fun d => (∃ l, Posts s.dev d (Ev.FAB_REASM_DROP :: l)) ∧
      min (s.dev.rd F.FAB_REASM_DROPS + 1) (2 ^ 64 - 1) ≤ d.rd F.FAB_REASM_DROPS) ∧
  (∀ (s : State) (n : BitVec 10) (c : Fin 8), (s.dev.rxContext (8 * n.toNat + c.val)).part ≠ [] →
    (s.dev.rxContext (8 * n.toNat + c.val)).lastAt + 1024 ≤ s.dev.tim.tick →
    Completes (.reasmStale n c) s fun d => (d.rxContext (8 * n.toNat + c.val)).part = [] ∧
      (d.rxContext (8 * n.toNat + c.val)).skip = true ∧ Posts s.dev d [Ev.FAB_REASM_DROP] ∧
      d.rd F.FAB_REASM_DROPS = min (s.dev.rd F.FAB_REASM_DROPS + 1) (2 ^ 64 - 1))

/-! ### Twin operation (TWN) -/

/-- Where the commands of TWN_CTRL and TWN_CMD complete, and where they are refused (R333, R351, R352, R360): EN is written in M2 with
fabric timing; the active demotes only to a peer that stands by; a standby resynchronises; a waiting device with its image store and
configuration verified is forced to claim; and a device in M9 is released, or made active again while OWNER names it. -/
def Obligations.TwinCommandsComplete : Prop :=
  (∀ (s : State) (m : Master) (b : Bool), s.dev.writes m.val F.TWN_CTRL.off = true → s.dev.mode = .m2 → s.dev.rd F.TIM_CTRL_SRC = 0 →
    s.dev.on F.FAB_CTRL_EN = true → s.dev.sec.fuses.twinAvail = true →
    Completes (.twinEnable m b) s fun d => d.on F.TWN_CTRL_EN = b ∧ d.posted = s.dev.posted) ∧
  (∀ (s : State) (m : Master), s.dev.writes m.val F.TWN_CTRL.off = true → s.dev.mode ≠ .m2 →
    Completes (.twinEnable m true) s fun d => d.regs = s.dev.regs ∧ Posts s.dev d [Ev.TWN_CMD_REFUSED]) ∧
  (∀ (s : State) (m : Master), s.dev.writes m.val F.TWN_CMD.off = true → s.dev.twinOn = true →
    (s.dev.mode = .m4 → s.dev.peerStands = true → Completes (.twnDemote m) s fun d => d.mode = .m6 ∧ d.twnSub = 1 ∧
      d.twn.demoting = true ∧ d.twn.pinsHeld = true) ∧
    (s.dev.mode = .m4 → s.dev.peerStands = false → Completes (.twnDemote m) s fun d => d.mode = .m4 ∧
      Posts s.dev d [Ev.TWN_CMD_REFUSED]) ∧
    (s.dev.standing = true → Completes (.twnResync m) s fun d => d.mode = .m6 ∧ d.twnSub = 1) ∧
    (s.dev.standing = false → Completes (.twnResync m) s fun d => d.mode = s.dev.mode ∧ Posts s.dev d [Ev.TWN_CMD_REFUSED]) ∧
    (s.dev.mode = .m6 → s.dev.twnSub = 1 → (s.dev.on F.TWN_STATUS_HB_OK = false ∨ s.dev.peerState ≠ 4) → s.dev.fabUp = true →
      s.dev.segsVerified 1 = true → s.dev.segsVerified 2 = true →
      Completes (.twnForcePromote m) s fun d => d.claiming = true ∧ d.on F.TWN_STATUS_PARTIAL = true ∧ d.twn.pinsHeld = true) ∧
    (s.dev.mode = .m9 → Completes (.twnRelease m) s fun d => d.mode = .m6 ∧ d.twnSub = 1) ∧
    (s.dev.mode = .m9 → s.dev.fabUp = true → s.dev.isOwner = true → Completes (.twnReactivate m) s fun d => d.mode = .m4) ∧
    (s.dev.mode ≠ .m9 → Completes (.twnReactivate m) s fun d => d.mode = s.dev.mode ∧ Posts s.dev d [Ev.TWN_CMD_REFUSED]))

/-- Where heartbeats, lanes and the role timers complete (R336, R339, R351, R353): a lane locks on the markers of one span and loses lock
after four wrong ones; every locked lane sends a heartbeat; a valid heartbeat is taken, eight spans without one lose the peer, and a standby
whose fabric is UP then claims; a claim that OWNER does not answer in 64 spans ends in M6; and a device whose fabric has not been UP for 4
spans is isolated. -/
def Obligations.TwinLinkCommandsComplete : Prop :=
  (∀ (s : State) (n : Fin 8), s.dev.twinOn = true → s.dev.domainOn 145 = true → s.dev.mode ≠ .m11 →
    Completes (.ralinLaneLock n ((List.range 25).map ralinMarker)) s fun d => (d.ralinLanes >>> n.val) % 2 = 1 ∧ d.ralinUp = true) ∧
  (∀ (s : State) (n : Fin 8) (l : List (BitVec 16)), l ≠ (List.range 25).map ralinMarker →
    Completes (.ralinLaneLock n l) s fun d => d = s.dev) ∧
  (∀ (s : State) (n : Fin 8) (i : Fin 25) (l : List (BitVec 16)), l.length = 4 →
    ((l.zipIdx i.val).all (fun x => x.1 != ralinMarker (x.2 % 25)) = true →
      Completes (.ralinLaneLockLoss n i l) s fun d => (d.ralinLanes >>> n.val) % 2 = 0) ∧
    ((l.zipIdx i.val).all (fun x => x.1 != ralinMarker (x.2 % 25)) = false → Completes (.ralinLaneLockLoss n i l) s fun d => d = s.dev)) ∧
  (∀ s : State, s.dev.twinOn = true →
    Completes .heartbeatSend s fun d => d.twn.out.length = s.dev.twn.out.length +
      ((List.range 8).filter fun n => (s.dev.ralinLanes >>> n) % 2 == 1).length) ∧
  (∀ (s : State) (f : BitVec 4096), s.dev.hears f 1 → spanAhead s.dev.tim.span (frameSpan f) ≤ 1 →
    Completes (.heartbeatRx f) s fun d => d.on F.TWN_STATUS_HB_OK = true ∧ d.peerState = byteField f 20 1 ∧
      d.rd F.TWN_PEER_FLAGS = byteField f 21 1 ∧ d.twn.hbAt = s.dev.tim.tick) ∧
  (∀ s : State, s.dev.twinOn = true → s.dev.twn.hbAt + 9 ≤ s.dev.tim.tick → s.dev.on F.TWN_STATUS_HB_OK = true →
    Completes .heartbeatLoss s fun d => d.on F.TWN_STATUS_HB_OK = false ∧ (∃ a l, Posts s.dev d (a ++ Ev.TWN_HB_LOST :: l)) ∧
      (s.dev.standing = true → s.dev.fabUp = true → d.claiming = true ∧ d.twn.claimAt = some (s.dev.tim.tick, s.dev.tim.span))) ∧
  (∀ (s : State) (t n : Nat), s.dev.claiming = true → s.dev.twn.claimAt = some (t, n) → t + 64 ≤ s.dev.tim.tick →
    Completes .takeoverTimeout s fun d => d.mode = .m6 ∧ d.twnSub = 1 ∧ d.on F.FAB_PAIR_CTRL_TAKEOVER = false ∧ d.twn.claimAt = none ∧
      ∃ l, Posts s.dev d (Ev.TWN_TAKEOVER_FAIL :: l)) ∧
  (∀ (s : State) (t : Nat), s.dev.twn.notUpAt = some t → (s.dev.mode = .m4 ∨ s.dev.mode = .m5) → s.dev.twinOn = true →
    s.dev.fabUp = false → t + 4 ≤ s.dev.tim.tick →
    Completes .twinIsolation s fun d => d.mode = .m9 ∧ ∃ l, Posts s.dev d (Ev.TWN_ISOLATED :: l))

/-- Where the mirror stream and the verdicts complete (R340, R341, R344, R348 to R351): the next frame's records wait for their spans; kept
frames that ACK has not passed wait to be sent again; a failure is counted and takes a standby to M6; a standby's word decides on the
active, the verdict on the standby; and each timer of an open verdict, and of evidence, runs out. And where MIRROR_RECORD_APPLY completes
(R341 to R343): the first record that is due leaves the list, and a mirrored register write acts as that write by master 8, a mirrored
cancel as a cancel by master 8. With no record due nothing changes. -/
def Obligations.MirrorCommandsComplete : Prop :=
  (∀ (s : State) (f : BitVec 4096), s.dev.hearsNext f 2 → s.dev.following = true →
    Completes (.mirrorFrameRx f) s fun d => d.twn.rxSeq = (s.dev.twn.rxSeq + 1) % 2 ^ 32 ∧
      d.twn.records = s.dev.twn.records ++ (recordsIn (frameSeq f) 30 (frameBytes f)).filter fun r =>
        r.onReceipt || !spanReached r.apply s.dev.tim.span) ∧
  (∀ (s : State) (k : Nat × Nat × RalinMsg) (rest : List (Nat × Nat × RalinMsg)), s.dev.twn.txKept = k :: rest →
    k.2.1 + 4 ≤ s.dev.tim.tick → s.dev.ralinUp = true → s.dev.msgWaits k.1 = false →
    Completes .mirrorRetransmit s fun d => d.twn.waiting = s.dev.twn.waiting ++ s.dev.resendList ∧ d.twn.txKept = s.dev.twn.txKept ∧
      d.rd F.TWN_MIRROR_RETX = min (s.dev.rd F.TWN_MIRROR_RETX + s.dev.resendList.length) (2 ^ 64 - 1)) ∧
  (∀ (s : State) (c : Fin 8), (s.dev.failureDue c.val).isSome = true →
    Completes (.mirrorFailure c) s fun d => d.rd F.TWN_MIRROR_LATE = min (s.dev.rd F.TWN_MIRROR_LATE + 1) (2 ^ 64 - 1) ∧
      (∃ l, Posts s.dev d (Ev.TWN_MIRROR_LATE :: l)) ∧ (s.dev.standing = true → d.mode = .m6 ∧ d.twnSub = 1) ∧
      (s.dev.inCopy = true → d.twn.abortDue = some 3)) ∧
  (∀ (s : State) (f : BitVec 4096) (p w t : Nat), s.dev.hearsNext f 4 → s.dev.mode = .m4 → s.dev.twn.acted = some (p, w, t) →
    byteField f 17 1 = 0 →
    Completes (.verdictRx f) s fun d => d.twn.acted = none ∧
      ∃ l, Posts s.dev d (verdictEv (verdictCode s.dev.evidenceWord (byteField f 16 1)) :: l)) ∧
  (∀ (s : State) (f : BitVec 4096), s.dev.hearsNext f 4 → s.dev.standing = true → 1 ≤ byteField f 17 1 → byteField f 17 1 ≤ 4 →
    Completes (.verdictRx f) s fun d => d.twn.wordAt = none ∧ (∃ l, Posts s.dev d (verdictEv (byteField f 17 1) :: l)) ∧
      (if byteField f 17 1 = 3 then d.claiming = true else d.mode = .m6 ∧ d.twnSub = 1)) ∧
  (∀ (s : State) (p w t : Nat), s.dev.twn.acted = some (p, w, t) → s.dev.mode = .m4 → t + 64 ≤ s.dev.tim.tick →
    Completes .verdictEvidenceTimeout s fun d => d.twn.acted = none ∧
      ∃ l, Posts s.dev d (verdictEv (verdictCode s.dev.evidenceWord 0) :: l)) ∧
  (∀ (s : State) (t : Nat), s.dev.twn.wordAt = some t → s.dev.standing = true → t + 128 ≤ s.dev.tim.tick →
    Completes .verdictWaitTimeout s fun d => d.mode = .m6 ∧ d.twnSub = 1 ∧ d.twn.wordAt = none) ∧
  (∀ (s : State) (b : Fin 32), (s.dev.evidenceWord >>> b.val) % 2 = 1 → s.dev.twn.evidenceAt.get (fun _ => 0) b.val + 65536 ≤ s.dev.tim.tick →
    Completes (.evidenceExpiry b) s fun d => (d.evidenceWord >>> b.val) % 2 = 0 ∧
      ∀ c, c ≠ b.val → (d.evidenceWord >>> c) % 2 = (s.dev.evidenceWord >>> c) % 2) ∧
  (∀ (s : State) (r : MirrorRec) (rest : List MirrorRec), s.dev.takeDue s.dev.twn.records = some (r, rest) → r.kind = 2 → r.seq ≠ ownSeq →
    Completes .mirrorRecordApply s fun d => d = ({ s.dev with twn := { s.dev.twn with records := rest } }).busWrite 8
      (leNat (bytesAt r.body 0 4)) (BitVec.ofNat 32 (leNat (bytesAt r.body 4 4)))) ∧
  (∀ (s : State) (r : MirrorRec) (rest : List MirrorRec), let i := leNat (bytesAt r.body 0 1)
    s.dev.takeDue s.dev.twn.records = some (r, rest) → r.kind = 4 → (s.dev.entryAt i).state = .armed →
    spanAtLeast (s.dev.entryAt i).span s.dev.tim.span 2 = true →
    Completes .mirrorRecordApply s fun d => d.twn.records = rest ∧ (d.entryAt i).state = .free ∧ (d.entryAt i).cmdResult = 1 ∧
      d.posted = s.dev.posted) ∧
  (∀ s : State, s.dev.takeDue s.dev.twn.records = none → Completes .mirrorRecordApply s fun d => d = s.dev)

/-- Where the decision digests complete (R346 to R348, R350): a port with 4,096 records closes its window; a digest that comes before the
own close waits for it; one that comes after it is compared: void, match or mismatch, which the active counts, and the threshold makes a
twin act; one that the peer has not answered in 1,024 spans is dropped; and a REALIGN aligns the port at the record it names, with the
frames dropped since that record, or starts the search. -/
def Obligations.DigestCommandsComplete : Prop :=
  (∀ (s : State) (p : Port), s.dev.twinOn = true → (s.dev.mode = .m4 ∨ s.dev.mode = .m5) → (s.dev.tp p.val).aligned = true →
    4096 ≤ (s.dev.tp p.val).cur.length →
    Completes (.digestWindowClose p) s fun d => (d.tp p.val).window = ((s.dev.tp p.val).window + 1) % 2 ^ 32 ∧
      (d.tp p.val).cur = (s.dev.tp p.val).cur.drop 4096 ∧ (d.tp p.val).drops = 0) ∧
  (∀ (s : State) (f : BitVec 4096), s.dev.hears f 3 → s.dev.on F.TWN_CFG_DIGEST_EN = true → (s.dev.mode = .m4 ∨ s.dev.mode = .m5) →
    frameLen f = 24 →
    let e := readDigest s.dev.tim.tick (frameBytes f)
    (s.dev.tp e.1).aligned = true → (∀ y ∈ (s.dev.tp e.1).mine, y.window ≠ e.2.window) →
    Completes (.digestRx f) s fun d => (d.tp e.1).peer = (s.dev.tp e.1).peer ++ [e.2]) ∧
  (∀ (s : State) (f : BitVec 4096), s.dev.hears f 3 → s.dev.on F.TWN_CFG_DIGEST_EN = true → (s.dev.mode = .m4 ∨ s.dev.mode = .m5) →
    frameLen f = 24 →
    let p := (readDigest s.dev.tim.tick (frameBytes f)).1
    let e := (readDigest s.dev.tim.tick (frameBytes f)).2
    let n := mismatches ((true :: (s.dev.tp p).history).take 8)
    (s.dev.tp p).aligned = true → ∀ y, (s.dev.tp p).mine.find? (fun y => y.window == e.window) = some y →
    (y.void = true ∨ e.void = true ∨ y.firstFp ≠ e.firstFp ∨ y.firstLen ≠ e.firstLen → Completes (.digestRx f) s fun d =>
      (d.tp p).history = (s.dev.tp p).history ∧ (s.dev.mode = .m4 → (d.tp p).realignDue = true ∧
        d.rd F.TWN_WIN_VOID = min (s.dev.rd F.TWN_WIN_VOID + 1) (2 ^ 64 - 1))) ∧
    (y.void = false → e.void = false → y.firstFp = e.firstFp → y.firstLen = e.firstLen → y.digest = e.digest →
      Completes (.digestRx f) s fun d => (d.tp p).history = (false :: (s.dev.tp p).history).take 8 ∧
        (s.dev.mode = .m4 → d.rd F.TWN_WIN_MATCH = min (s.dev.rd F.TWN_WIN_MATCH + 1) (2 ^ 64 - 1))) ∧
    (y.void = false → e.void = false → y.firstFp = e.firstFp → y.firstLen = e.firstLen → y.digest ≠ e.digest →
      Completes (.digestRx f) s fun d => (d.tp p).history = (true :: (s.dev.tp p).history).take 8 ∧
        (s.dev.mode = .m4 → d.rd F.TWN_WIN_MISMATCH = min (s.dev.rd F.TWN_WIN_MISMATCH + 1) (2 ^ 64 - 1) ∧
          ∃ l, Posts s.dev d (Ev.TWN_MISMATCH :: l)) ∧
        (s.dev.mode = .m4 → s.dev.rd F.TWN_CFG_THR ≤ n → s.dev.twn.acted = none → s.dev.twn.earlyWord = none →
          d.twn.acted = some (p, e.window, s.dev.tim.tick)) ∧
        (s.dev.standing = true → s.dev.rd F.TWN_CFG_THR ≤ n → s.dev.twn.wordAt = none → d.twn.wordAt = some s.dev.tim.tick))) ∧
  (∀ (s : State) (p : Port), Completes (.digestCompareTimeout p) s fun d =>
    (d.tp p.val).mine = (s.dev.tp p.val).mine.filter fun e => s.dev.tim.tick ≤ e.tick + 1024) ∧
  (∀ (s : State) (f : BitVec 4096), s.dev.hears f 8 → s.dev.mode = .m5 →
    let p := byteField f 16 1 % 128
    let i := (s.dev.tp p).recent.findIdx? fun r => byteField r.1 0 4 == byteField f 20 4 && byteField r.1 4 2 % 16384 == byteField f 24 2
    (∀ k, i = some k → Completes (.realignRx f) s fun d => (d.tp p).aligned = true ∧ (d.tp p).window = 0 ∧ (d.tp p).seek = none ∧
      (d.tp p).cur = (((s.dev.tp p).recent.take (k + 1)).map (·.1)).reverse ∧
      ∀ r, (s.dev.tp p).recent[k]? = some r → (d.tp p).drops = (s.dev.tp p).dropSum - r.2) ∧
    (i = none → Completes (.realignRx f) s fun d => (d.tp p).aligned = false ∧
      (d.tp p).seek = some (byteField f 20 4, byteField f 24 2, 65536)))

/-- Where the commands of a copy complete (R355 to R359): a waiting device asks every 64 spans; the active accepts outside M7 and sends its
segments, each ended by SEG_DONE; the standby enters COPY, takes the manifest and the bytes of each segment; an abort returns it to WAIT;
and after SETTLE it is in step. -/
def Obligations.CopyCommandsComplete : Prop :=
  (∀ s : State, s.dev.twinOn = true → s.dev.mode = .m6 → s.dev.twnSub = 1 → s.dev.ralinUp = true → s.dev.shed < 3 →
    (∀ t, s.dev.twn.requestAt = some t → t + 64 ≤ s.dev.tim.tick) →
    Completes .resyncRequestSend s fun d => d.twn.requestAt = some s.dev.tim.tick ∧
      d.twn.waiting.length = s.dev.twn.waiting.length + 1) ∧
  (∀ (s : State) (f : BitVec 4096), s.dev.hears f 5 → byteField f 16 1 = 1 → s.dev.mode = .m4 → s.dev.m7 = false →
    s.dev.twn.copying = false →
    Completes (.resyncCtrlRx f) s fun d => d.twn.copying = true ∧ d.twn.mirroring = true ∧ d.twn.txSeq = 1 ∧ d.tbl.rehash = none ∧
      ∀ g ∈ d.twn.segments, g.verified = false) ∧
  (∀ (s : State) (f : BitVec 4096), s.dev.hears f 5 → byteField f 16 1 = 2 → s.dev.mode = .m6 → s.dev.twnSub = 1 →
    Completes (.resyncCtrlRx f) s fun d => d.mode = .m6 ∧ d.twnSub = 2 ∧ d.twn.rxSeq = 1 ∧ d.twn.segments = []) ∧
  (∀ (s : State) (f : BitVec 4096), s.dev.hears f 5 → byteField f 16 1 = 7 → s.dev.inCopy = true →
    Completes (.resyncCtrlRx f) s fun d => d.twn.abortDue = some 5) ∧
  (∀ (s : State) (f : BitVec 4096), s.dev.hears f 6 → s.dev.mode = .m6 → s.dev.twnSub = 2 →
    Completes (.manifestRx f) s fun d => d.rd F.TWN_RESYNC_TOTAL = d.twn.segments.length % 65536 ∧
      ∀ i, i < 15 → 32 * (i + 1) ≤ frameLen f → ∃ g ∈ d.twn.segments, g.seg = leNat (bytesAt (frameBytes f) (32 * i) 4)) ∧
  (∀ (s : State) (g : Segment), s.dev.mode = .m4 → s.dev.twn.copying = true → s.dev.ralinUp = true →
    (s.dev.twn.segments.find? fun g => !g.verified) = some g →
    let ofs := if s.dev.twn.sendSeg = g.seg then s.dev.twn.sendOfs else 0
    let n := (s.dev.segBytes g ofs).length
    (ofs + n < g.len → Completes .segmentSend s fun d => d.twn.sendSeg = g.seg ∧ d.twn.sendOfs = ofs + n ∧
      d.twn.waiting.length = s.dev.twn.waiting.length + 1) ∧
    (g.len ≤ ofs + n → (∀ u < 8, (s.dev.unit u).point = 3 → (s.dev.unit u).abort = false) → Completes .segmentSend s fun d => d.twn.sendSeg = g.seg + 1 ∧ d.twn.sendOfs = 0 ∧
      (∃ x ∈ d.twn.segments, x.seg = g.seg ∧ x.verified = true) ∧
      s.dev.twn.waiting.length + 2 ≤ d.twn.waiting.length)) ∧
  (∀ (s : State) (f : BitVec 4096) (g : Segment), s.dev.hears f 7 → s.dev.mode = .m6 → s.dev.twnSub = 2 →
    (s.dev.twn.segments.find? fun g => g.seg == byteField f 16 4) = some g → g.verified = false →
    byteField f 20 4 + ((frameBytes f).drop 8).length ≤ g.len →
    Completes (.segmentRx f) s fun d => ((d.twn.segments.find? fun g => g.seg == byteField f 16 4).map (·.data)) =
      some (placeBytes g.data (byteField f 20 4) g.len ((frameBytes f).drop 8))) ∧
  (∀ (s : State) (c : Fin 8), s.dev.abortHolds c.val = true →
    Completes (.copyAbort c) s fun d => d.mode = .m6 ∧ d.twnSub = 1 ∧ d.twn.abortDue = none ∧
      ∃ l, Posts s.dev d (Ev.TWN_COPY_ABORT :: l)) ∧
  (∀ s : State, s.dev.mode = .m6 → s.dev.twnSub = 3 → s.dev.twn.settleAt + s.dev.twn.settleLimit ≤ s.dev.tim.tick →
    s.dev.twn.mirrorDue = none → s.dev.twn.abortDue = none → s.dev.shed < 3 →
    Completes .settleComplete s fun d => d.mode = .m5 ∧ d.on F.TWN_STATUS_PARTIAL = false ∧
      ∃ a, Posts s.dev d (a ++ [Ev.TWN_ROLE_CHANGE, Ev.GLB_MODE_CHANGE, Ev.TWN_IN_STEP]))

/-! ### Power, clocks and temperature (PWR) -/

/-- Where the domain, clock and reading commands complete (R403, R406, R407, R408, R409, R416): the domain follows its condition, and a
fabric octet that is turned off takes its lanes and its links with it (R296); the rail readings, the lowest reading and the temperatures are
shown; the non-core monitor that leaves or re-enters its range is reported and a core one is not; a regulator's fault is reported and the
package power summed; the pier's clock is the lowest of its three limits, and the core rails follow it, never lower while shed; and the
thermal cap steps down at the throttle temperature and up 5 degrees below it. Which bits of STATUS_WORD report a fault is the model's choice
(log 37, PRESUMED), and so is when the set points follow the pier clocks (log 37, DEDUCED). -/
def Obligations.PowerReadingsComplete : Prop :=
  (∀ (s : State) (n : Fin 146), (101 ≤ n.val → n.val < 121 → s.dev.domainOn n.val = true → s.dev.domainWanted n.val = true) →
    Completes (.domainSwitch n) s fun d => d.domainOn n.val = s.dev.domainWanted n.val) ∧
  (∀ (s : State) (n : Fin 146), 101 ≤ n.val → n.val < 121 → s.dev.domainOn n.val = true → s.dev.domainWanted n.val = false →
    s.dev.fabLinkUp (2 * (n.val - 101)) = false → s.dev.fabLinkUp (2 * (n.val - 101) + 1) = false →
    Completes (.domainSwitch n) s fun d => d.domainOn n.val = false ∧
      bits d.fab.locked (8 * (n.val - 101) + 7) (8 * (n.val - 101)) = 0) ∧
  (∀ (s : State) (n : Fin 146) (i : Nat), 101 ≤ n.val → n.val < 121 → s.dev.domainOn n.val = true → s.dev.domainWanted n.val = false →
    i / 2 = n.val - 101 → s.dev.fabLinkUp i = true →
    Completes (.domainSwitch n) s fun d => d.domainOn n.val = false ∧
      bits d.fab.locked (8 * (n.val - 101) + 7) (8 * (n.val - 101)) = 0 ∧ d.fabLinkUp i = false ∧
      d.rd (F.FAB_LINK_STAT_CAUSE.ix i) = 6 ∧ ∃ l, Posts s.dev d (Ev.FAB_LINK_DOWN :: l)) ∧
  (∀ (s : State) (mvs : List Nat) (n : Fin 16) (mv : Nat), mvs[n.val]? = some mv → Completes (.railReading mvs) s fun d =>
    d.rd (F.PWR_RAIL_MV.ix n.val) = min mv 0xFFFF ∧
    d.rd (F.PWR_RAIL_MIN_MV.ix n.val) = (if s.dev.pwr.railSeen.get (fun _ => false) n.val = false then min mv 0xFFFF
      else min (s.dev.rd (F.PWR_RAIL_MIN_MV.ix n.val)) (min mv 0xFFFF))) ∧
  (∀ (s : State) (n : Fin 16), Completes (.railOor n) s fun d =>
    (n.val < 7 → d = s.dev) ∧
    (7 ≤ n.val → Posts s.dev d [Ev.PWR_RAIL_OOR] ∧
      d.pwr.outside.get (fun _ => false) n.val = !s.dev.pwr.outside.get (fun _ => false) n.val)) ∧
  (∀ (s : State) (l : List RegReport), Completes (.regulatorPoll l) s fun d =>
    let mine := l.filter fun r => s.dev.on (F.PWR_PMB_ADDR_VALID.ix r.slot.val)
    d.rd F.PWR_PKG_POWER_WATTS =
      min (((mine.filter fun r => r.answered && s.dev.on (F.PWR_PMB_ADDR_PKG.ix r.slot.val)).map regPower).sum / 1000000) 0xFFFF ∧
    d.posted.length = s.dev.posted.length + (mine.filter (·.avsFault)).length +
      (mine.filter fun r => !r.answered || faultBits r.status != 0).length ∧
    d.pwr.clearFaults = s.dev.pwr.clearFaults ++ (mine.filter fun r => r.answered && faultBits r.status != 0).map (·.slot.val)) ∧
  (∀ (s : State) (p : Pier), Completes (.pierClockChange p) s fun d => d.rd (F.PWR_PIER_FREQ_ACTUAL.ix p.val) =
    min (s.dev.rd (F.PWR_PIER_FREQ_TARGET.ix p.val)) (min (if 4 ≤ s.dev.shed then 1200 else 1600) s.dev.pwr.thermCap) ∧
    (s.dev.on F.PWR_STATUS_BELOW_WARN = false → s.dev.shed = 0 → ∀ r : Fin 2, d.setPoint r.val = fusedTarget r.val d.topClock) ∧
    (s.dev.shed ≠ 0 → ∀ r : Fin 2, s.dev.setPoint r.val ≤ d.setPoint r.val)) ∧
  (∀ (s : State) (l : List Int) (n : Fin 32) (v : Int), l[n.val]? = some v → Completes (.tempReading l) s fun d =>
    d.rd (F.PWR_TEMP_TEMP.ix n.val) = tempWord v ∧
    ((∃ x ∈ l.take 32, (8 * s.dev.rd F.PWR_THERM_CFG_THROTTLE : Int) ≤ x) → d.pwr.thermCap = max 1000 (s.dev.pwr.thermCap - 100)) ∧
    ((∀ x ∈ l.take 32, x < (8 * s.dev.rd F.PWR_THERM_CFG_THROTTLE : Int) - 40) → d.pwr.thermCap = min 1600 (s.dev.pwr.thermCap + 100)))

/-- Where the shedding commands complete (R410 to R414): below warning a device outside reset enters the next step, reports it and logs it;
above clear the hold begins; after the hold, and one by one, the deepest step is lifted and reported; a rail that falls below warning stops
a hold or a restore, and one between the two levels breaks the hold. -/
def Obligations.ShedCommandsComplete : Prop :=
  (∀ s : State, Completes .railBelowWarning s fun d => d.on F.PWR_STATUS_BELOW_WARN = true ∧ d.on F.PWR_STATUS_HOLDING = false ∧
    d.on F.PWR_STATUS_RESTORING = false ∧ d.pwr.clear = false) ∧
  (∀ s : State, Completes .railClear s fun d => d.on F.PWR_STATUS_BELOW_WARN = false ∧ d.pwr.clear = true ∧
    (s.dev.shed ≠ 0 → s.dev.on F.PWR_STATUS_RESTORING = false → d.on F.PWR_STATUS_HOLDING = true)) ∧
  (∀ s : State, Completes .railNeitherWarningNorClear s fun d => d.on F.PWR_STATUS_BELOW_WARN = false ∧ d.pwr.clear = false ∧
    d.on F.PWR_STATUS_HOLDING = false) ∧
  (∀ s : State, s.dev.mode ≠ .m0 → s.dev.on F.PWR_STATUS_BELOW_WARN = true → s.dev.shed < 6 → Completes .shedStepEnter s fun d =>
    d.shed = s.dev.shed + 1 ∧ d.rd F.PWR_SHED_LOG_STEP = s.dev.shed + 1 ∧
    d.rd F.PWR_SHED_LOG_MAX_STEP = max (s.dev.shed + 1) (s.dev.rd F.PWR_SHED_LOG_MAX_STEP) ∧
    ∃ l, Posts s.dev d (Ev.PWR_SHED_ENTER :: l)) ∧
  (∀ s : State, s.dev.shed ≠ 0 → s.dev.pwr.clear = true → s.dev.on F.PWR_STATUS_HOLDING = true ∨ s.dev.on F.PWR_STATUS_RESTORING = true →
    Completes .shedStepLift s fun d => d.shed = s.dev.shed - 1 ∧ d.on F.PWR_STATUS_HOLDING = false ∧
      d.on F.PWR_STATUS_RESTORING = (s.dev.shed != 1) ∧ d.rd F.PWR_SHED_LOG_STEP = s.dev.shed - 1 ∧
      ∃ l, Posts s.dev d (Ev.PWR_SHED_RESTORE :: l))

/-! ### Boot, fuses, attestation and flash (SEC) -/

/-- Where BOOT_COMPLETE and TAMPER_ASSERT complete (R426, R427, R428, R435): in M1 before the boot's end, the first bundle of the directory
that passes boots, is shown, and the control pairs run; a reserved flash mode, a read error of the directory, one that is invalid or empty,
and slots of which none passes and none fails trust halt the boot in M1 with their cause; fuses that fail their check, an asserted tamper
input and a slot that fails trust where none passes end it in M11; and an asserted tamper input takes any device outside reset and
Quarantine to Quarantine with cause 11. -/
def Obligations.BootCommandsComplete : Prop :=
  (∀ (s : State) (e : BitVec 3) (b : BundleInfo), s.dev.mode = .m1 → s.dev.rd F.SEC_BOOT_STATUS_PHASE < 4 → s.dev.sec.fuses.ok = true →
    s.dev.rd F.GLB_STRAP_FLASH_MODE < 2 → bitOn e 0 = false → dirValid (s.dev.flashBytes 0 64) = true →
    ((dirSlots (s.dev.flashBytes 0 64)).map fun x => s.dev.tryBundle x (bitOn e (x.1 + 1))).find? (·.passed) = some b →
    Completes (.bootComplete false e) s fun d => d.rd F.SEC_BOOT_STATUS_PHASE = 5 ∧ d.sec.bundle = some b ∧
      d.rd F.SEC_BOOT_STATUS_SLOT = b.slot % 2 ∧ d.rd F.SEC_BOOT_STATUS_KEY_SLOT = b.keySlot % 2 ∧
      d.rd F.CTL_FW_VERSION = b.version.toNat ∧ (∀ p : Fin 4, d.pairState p.val = 1) ∧ ∃ l, Posts s.dev d (l ++ [Ev.SEC_BOOT_DONE])) ∧
  (∀ (s : State) (e : BitVec 3), s.dev.mode = .m1 → s.dev.rd F.SEC_BOOT_STATUS_PHASE < 4 → s.dev.sec.fuses.ok = true →
    s.dev.rd F.GLB_STRAP_FLASH_MODE < 2 → bitOn e 0 = false → dirValid (s.dev.flashBytes 0 64) = false →
    Completes (.bootComplete false e) s fun d => d.rd F.SEC_BOOT_STATUS_PHASE = 15 ∧ d.rd F.SEC_BOOT_STATUS_CAUSE = 2 ∧
      d.mode = .m1 ∧ Posts s.dev d [Ev.SEC_BOOT_FAIL]) ∧
  (∀ (s : State) (e : BitVec 3), s.dev.mode = .m1 → s.dev.rd F.SEC_BOOT_STATUS_PHASE < 4 →
    let halts (b : Bool) (cause : Nat) : Prop := Completes (.bootComplete b e) s fun d => d.rd F.SEC_BOOT_STATUS_PHASE = 15 ∧
      d.rd F.SEC_BOOT_STATUS_CAUSE = cause ∧ d.mode = .m1 ∧ Posts s.dev d [Ev.SEC_BOOT_FAIL]
    let tried := (dirSlots (s.dev.flashBytes 0 64)).map fun x => s.dev.tryBundle x (bitOn e (x.1 + 1))
    (s.dev.sec.fuses.ok = false → ∀ b, Completes (.bootComplete b e) s fun d => d.mode = .m11 ∧ d.rd F.SEC_Q_CAUSE_CAUSE = 10 ∧
      d.rd F.SEC_BOOT_STATUS_CAUSE = 10 ∧ d.rd F.SEC_BOOT_STATUS_PHASE = 1 ∧ ∃ l, Posts s.dev d (Ev.SEC_QUARANTINE :: l)) ∧
    (s.dev.sec.fuses.ok = true → Completes (.bootComplete true e) s fun d => d.mode = .m11 ∧ d.rd F.SEC_Q_CAUSE_CAUSE = 11 ∧
      d.rd F.SEC_BOOT_STATUS_CAUSE = 11 ∧ d.rd F.SEC_BOOT_STATUS_PHASE = 1 ∧ ∃ l, Posts s.dev d (Ev.SEC_TAMPER :: l)) ∧
    (s.dev.sec.fuses.ok = true → 2 ≤ s.dev.rd F.GLB_STRAP_FLASH_MODE → halts false 1) ∧
    (s.dev.sec.fuses.ok = true → s.dev.rd F.GLB_STRAP_FLASH_MODE < 2 → bitOn e 0 = true → halts false 13) ∧
    (s.dev.sec.fuses.ok = true → s.dev.rd F.GLB_STRAP_FLASH_MODE < 2 → bitOn e 0 = false → dirValid (s.dev.flashBytes 0 64) = true →
      (tried = [] → halts false 0) ∧
      (∀ x, tried.getLast? = some x → (∀ y ∈ tried, y.passed = false) → (∀ y ∈ tried, untrusted y.cause = false) → halts false x.cause) ∧
      (∀ x, (∀ y ∈ tried, y.passed = false) → tried.reverse.find? (fun y => untrusted y.cause) = some x →
        Completes (.bootComplete false e) s fun d => d.mode = .m11 ∧ d.rd F.SEC_Q_CAUSE_CAUSE = x.cause ∧
          d.rd F.SEC_BOOT_STATUS_PHASE = 3 ∧ ∃ l, Posts s.dev d (Ev.SEC_QUARANTINE :: l)))) ∧
  (∀ s : State, s.dev.mode ≠ .m0 → s.dev.mode ≠ .m11 → Completes .tamperAssert s fun d => d.mode = .m11 ∧
    d.rd F.SEC_Q_CAUSE_CAUSE = 11 ∧ ∃ l, Posts s.dev d (Ev.SEC_TAMPER :: l))

/-- Where the fuse commands complete (R429, R430, R439): the host's operation starts in M2 or M3 with the lock clear and none running; a
refused one shows it and changes no fuse; and the operation that ends has blown its fuse, in the three copies of the array and as sensed.
And where the attestation commands complete (R433, R434): the security core or the host starts a report once the device has booted or is in
Quarantine, and the report that is done is the 544 bytes taken at the start with their signature. -/
def Obligations.FuseAndAttestCommandsComplete : Prop :=
  (∀ (s : State) (m : Master), s.dev.writes m.val F.SEC_FUSE_CMD.off = true → s.dev.fuseBar m.val 1 0 = 0 →
    Completes (.fuseAdvance m) s fun d => d.sec.fuseOp = some (1, 0) ∧ d.rd F.SEC_FUSE_CMD_RESULT = 1 ∧ d.sec.fuses = s.dev.sec.fuses) ∧
  (∀ (s : State) (m : Master) (slot : BitVec 4), s.dev.writes m.val F.SEC_FUSE_CMD.off = true →
    s.dev.fuseBar m.val 2 (slot.toNat % 8) = 0 →
    Completes (.fuseRevoke m slot) s fun d => d.sec.fuseOp = some (2, slot.toNat % 8) ∧ d.rd F.SEC_FUSE_CMD_RESULT = 1 ∧
      d.sec.fuses = s.dev.sec.fuses) ∧
  (∀ (s : State) (m : Master), s.dev.writes m.val F.SEC_FUSE_CMD.off = true → s.dev.fuseBar m.val 3 0 = 0 →
    Completes (.fuseJtagLock m) s fun d => d.sec.fuseOp = some (3, 0) ∧ d.rd F.SEC_FUSE_CMD_RESULT = 1 ∧ d.sec.fuses = s.dev.sec.fuses) ∧
  (∀ (s : State) (m : Master), s.dev.writes m.val F.SEC_FUSE_CMD.off = true → s.dev.fuseBar m.val 1 0 ≠ 0 → s.dev.sec.fuseOp = none →
    Completes (.fuseAdvance m) s fun d => d.sec = s.dev.sec ∧ d.rd F.SEC_FUSE_CMD_RESULT = 3 ∧ Posts s.dev d [Ev.SEC_CMD_REFUSED]) ∧
  (∀ (s : State) (slot : Nat), s.dev.sec.fuseOp = some (1, slot) → Completes .fuseOpDone s fun d =>
    d.sec.fuseOp = none ∧ d.rd F.SEC_FUSE_CMD_RESULT = 2 ∧ s.dev.sec.fuses.fwArb ≤ d.sec.fuses.fwArb ∧
    (∀ b, s.dev.sec.bundle = some b → b.passed = true → b.svn ≤ 64 → d.sec.fuses.fwArb = max s.dev.sec.fuses.fwArb b.svn) ∧
    Posts s.dev d [Ev.SEC_FUSE_DONE]) ∧
  (∀ (s : State) (slot : Nat), s.dev.sec.fuseOp = some (2, slot) → Completes .fuseOpDone s fun d =>
    d.sec.fuses = { s.dev.sec.fuses with revoke := putBit s.dev.sec.fuses.revoke slot true } ∧ d.sec.fuseOp = none ∧
    (∀ x ∈ [(s.dev.sec.array.a, d.sec.array.a), (s.dev.sec.array.b, d.sec.array.b), (s.dev.sec.array.c, d.sec.array.c)],
      x.2 = { x.1 with revoke := putBit x.1.revoke slot true }) ∧
    Posts s.dev d [Ev.SEC_FUSE_DONE]) ∧
  (∀ (s : State) (slot : Nat), s.dev.sec.fuseOp = some (3, slot) → Completes .fuseOpDone s fun d =>
    d.sec.fuses = { s.dev.sec.fuses with jtagLock := true } ∧ d.sec.fuseOp = none ∧ Posts s.dev d [Ev.SEC_FUSE_DONE]) ∧
  (∀ (s : State) (m : Master), s.dev.writes m.val F.SEC_ATT.off = true → m.val = 0 ∨ m.val = 6 →
    s.dev.mode = .m11 ∨ 5 ≤ s.dev.rd F.SEC_BOOT_STATUS_PHASE → s.dev.sec.attest = none →
    Completes (.attestStart m) s fun d => d.sec.attest = some (m.val, s.dev.attestBytes) ∧ d.rd F.SEC_ATT_STATE = 1 ∧
      d.rd F.SEC_ATT_LEN = 0) ∧
  (∀ (s : State) (m : Nat) (l : List Byte), s.dev.sec.attest = some (m, l) → Completes .attestDone s fun d =>
    d.sec.attest = none ∧ d.rd F.SEC_ATT_STATE = 2 ∧ d.rd F.SEC_ATT_LEN = 658 ∧
    (∀ n : Fin 165, d.rd (F.SEC_ATT_REPORT.ix n.val) = at_ (l ++ edSign attestContext s.dev.idSeed l) (4 * n.val) 4) ∧
    Posts s.dev d [Ev.SEC_ATT_DONE])

/-- Where the flash commands complete (R438, R439): an accepted operation holds what its registers say and reads busy, a refused one is
reported; a read ends with the bytes in host memory, and in error without them where a check unit ends it (R443); an erase ends with the
range at 0xFF and every other byte as it was; a program with bits cleared alone, and in error where its DMA fails, with no byte outside the
sectors it touched changed. That programming only clears bits, as flash does, is the model's choice (log 41, PRESUMED). -/
def Obligations.FlashCommandsComplete : Prop :=
  (∀ (s : State) (m : Master), s.dev.writes m.val F.SEC_FLASH_CMD.off = true → s.dev.flashBar m.val 1 = 0 →
    Completes (.flashRead m) s fun d => d.rd F.SEC_FLASH_CMD_STATE = 1 ∧
      d.sec.flashOp = some ⟨1, 64 * s.dev.rd F.SEC_FLASH_HOST_ADDR, s.dev.rd F.SEC_FLASH_OFS_OFS, s.dev.rd F.SEC_FLASH_LEN_LEN⟩) ∧
  (∀ (s : State) (m : Master), s.dev.writes m.val F.SEC_FLASH_CMD.off = true → s.dev.flashBar m.val 2 = 0 →
    Completes (.flashErase m) s fun d => d.rd F.SEC_FLASH_CMD_STATE = 1 ∧
      d.sec.flashOp = some ⟨2, 64 * s.dev.rd F.SEC_FLASH_HOST_ADDR, s.dev.rd F.SEC_FLASH_OFS_OFS, s.dev.rd F.SEC_FLASH_LEN_LEN⟩) ∧
  (∀ (s : State) (m : Master), s.dev.writes m.val F.SEC_FLASH_CMD.off = true → s.dev.flashBar m.val 3 = 0 →
    Completes (.flashProgram m) s fun d => d.rd F.SEC_FLASH_CMD_STATE = 1 ∧
      d.sec.flashOp = some ⟨3, 64 * s.dev.rd F.SEC_FLASH_HOST_ADDR, s.dev.rd F.SEC_FLASH_OFS_OFS, s.dev.rd F.SEC_FLASH_LEN_LEN⟩) ∧
  (∀ (s : State) (m : Master), s.dev.writes m.val F.SEC_FLASH_CMD.off = true → s.dev.flashBar m.val 2 ≠ 0 → s.dev.sec.flashOp = none →
    Completes (.flashErase m) s fun d => d.sec = s.dev.sec ∧ d.rd F.SEC_FLASH_CMD_STATE = 3 ∧ Posts s.dev d [Ev.SEC_CMD_REFUSED]) ∧
  (∀ (s : State) (op : FlashOp) (l : List Byte), s.dev.sec.flashOp = some op → op.cmd = 1 →
    ((s.dev.streamEnds 6 0).1 = false → Completes (.flashOpDone (some l)) s fun d =>
      d.hostMem = hostPutAll s.dev.hostMem op.host (s.dev.flashBytes op.ofs op.len) ∧ d.sec.flashOp = none ∧
      d.rd F.SEC_FLASH_CMD_STATE = 2 ∧ ∃ a, Posts s.dev d (a ++ [Ev.SEC_FLASH_DONE])) ∧
    ((s.dev.streamEnds 6 0).1 = true → Completes (.flashOpDone (some l)) s fun d => d.hostMem = s.dev.hostMem ∧ d.sec.flashOp = none ∧
      d.rd F.SEC_FLASH_CMD_STATE = 4 ∧ ∃ a, Posts s.dev d (a ++ [Ev.SEC_FLASH_DONE]))) ∧
  (∀ (s : State) (op : FlashOp) (x : Option (List Byte)), s.dev.sec.flashOp = some op → op.cmd = 2 → Completes (.flashOpDone x) s fun d =>
    (∀ a : Nat, d.sec.flash.get (fun _ => 0xFF) a =
      if op.ofs ≤ a ∧ a < op.ofs + op.len then 0xFF else s.dev.sec.flash.get (fun _ => 0xFF) a) ∧
    d.rd F.SEC_FLASH_CMD_STATE = 2 ∧ ∃ a, Posts s.dev d (a ++ [Ev.SEC_FLASH_DONE])) ∧
  (∀ (s : State) (op : FlashOp) (l : List Byte), s.dev.sec.flashOp = some op → op.cmd = 3 → Completes (.flashOpDone (some l)) s fun d =>
    (∀ a : Nat, d.sec.flash.get (fun _ => 0xFF) a =
      if op.ofs ≤ a ∧ a < op.ofs + op.len then s.dev.sec.flash.get (fun _ => 0xFF) a &&& l.getD (a - op.ofs) 0
      else s.dev.sec.flash.get (fun _ => 0xFF) a) ∧
    d.sec.flashOp = none ∧ ∃ a, Posts s.dev d (a ++ [Ev.SEC_FLASH_DONE])) ∧
  (∀ (s : State) (op : FlashOp), s.dev.sec.flashOp = some op → op.cmd = 3 → Completes (.flashOpDone none) s fun d =>
    (∀ a : Nat, a < op.ofs / 4096 * 4096 ∨ (op.ofs + op.len + 4095) / 4096 * 4096 ≤ a →
      d.sec.flash.get (fun _ => 0xFF) a = s.dev.sec.flash.get (fun _ => 0xFF) a) ∧
    d.sec.flashOp = none ∧ d.rd F.SEC_FLASH_CMD_STATE = 4 ∧ ∃ a, Posts s.dev d (a ++ [Ev.SEC_FLASH_DONE]))

/-! ### Diagnostics (DGN) -/

/-- Where the check unit commands complete (R440, R441, R442, R443): an arm that names a point of an idle unit arms it and shows the command
without its reserved bits, another is refused and changes no unit; a stream that ends gives MATCH or MISMATCH with the CRC of its bytes as
the result, a mismatch with ABORT ends an image load, a BULK and a flash read, and the unit is INCOMPLETE where its owner ended the stream.
-/
def Obligations.CheckUnitCommandsComplete : Prop :=
  (∀ (s : State) (m : Master) (u : Fin 8) (data : Word), s.dev.writes m.val (F.DGN_CU_CTRL.ix u.val).off = true → bitOn data 31 = true →
    s.dev.cuBar u.val (bits data 26 24) = 0 → Completes (.cuArm m u data) s fun d => d.unitState u.val = 1 ∧
      d.rd (F.DGN_CU_CTRL.ix u.val) = data.toNat &&& 0x47C00000 ∧
      d.unit u.val = ⟨bits data 26 24, bits data 23 22, bitOn data 30, BitVec.ofNat 64 (s.dev.rd (F.DGN_CU_EXPECT_VALUE.ix u.val)),
        s.dev.rd (F.DGN_CU_COUNT_BYTES.ix u.val), 0, []⟩) ∧
  (∀ (s : State) (m : Master) (u : Fin 8) (data : Word), s.dev.writes m.val (F.DGN_CU_CTRL.ix u.val).off = true → bitOn data 31 = true →
    s.dev.cuBar u.val (bits data 26 24) ≠ 0 → Completes (.cuArm m u data) s fun d => d.dgn = s.dev.dgn ∧ d.regs = s.dev.regs ∧
      Posts s.dev d [Ev.DGN_CMD_REFUSED]) ∧
  (∀ (s : State) (u : Fin 8) (given : List Byte), let x := s.dev.unit u.val; let l := x.stream given
    s.dev.unitState u.val = 2 → s.dev.streamWhole x l = true → unitCrc x.poly l = x.expect.toNat % 2 ^ crcWidth x.poly →
    Completes (.cuStreamEnd u given true) s fun d => d.unitState u.val = 3 ∧ d.rd (F.DGN_CU_RESULT_VALUE.ix u.val) = unitCrc x.poly l % 2 ^ 64 ∧
      Posts s.dev d [Ev.DGN_CU_DONE]) ∧
  (∀ (s : State) (u : Fin 8) (given : List Byte), let x := s.dev.unit u.val; let l := x.stream given
    s.dev.unitState u.val = 2 → s.dev.streamWhole x l = true → unitCrc x.poly l ≠ x.expect.toNat % 2 ^ crcWidth x.poly →
    x.abort = false ∨ x.point = 2 →
    Completes (.cuStreamEnd u given true) s fun d => d.unitState u.val = 4 ∧
      d.rd F.DGN_CU_MISMATCH = min (s.dev.rd F.DGN_CU_MISMATCH + 1) (2 ^ 64 - 1) ∧ Posts s.dev d [Ev.DGN_CU_MISMATCH]) ∧
  (∀ (s : State) (u : Fin 8) (given : List Byte), let x := s.dev.unit u.val; let l := x.stream given
    s.dev.unitState u.val = 2 → s.dev.streamWhole x l = true → unitCrc x.poly l ≠ x.expect.toNat % 2 ^ crcWidth x.poly →
    x.abort = true → x.point ≠ 2 →
    Completes (.cuStreamEnd u given true) s fun d => d.unitState u.val = 4 ∧
      d.rd F.DGN_CU_MISMATCH = min (s.dev.rd F.DGN_CU_MISMATCH + 1) (2 ^ 64 - 1) ∧ (∃ a, Posts s.dev d (Ev.DGN_CU_MISMATCH :: a)) ∧
      (x.point = 1 → d.img.load = none) ∧
      (∀ q, x.point = 4 → s.dev.bulkHeld = some q → s.dev.mirrorOn = false → TaeAnswered q ⟨0x17, 0, q.done, 0⟩ s.dev d) ∧
      (∀ op, x.point = 6 → s.dev.sec.flashOp = some op → op.cmd = 1 → d.sec.flashOp = none ∧ d.rd F.SEC_FLASH_CMD_STATE = 4)) ∧
  (∀ (s : State) (u : Fin 8) (l : List Byte), s.dev.unitState u.val = 2 → s.dev.ownerEnded (s.dev.unit u.val) = true →
    Completes (.cuStreamEnd u l false) s fun d => d.unitState u.val = 5 ∧ Posts s.dev d [Ev.DGN_CU_DONE]) ∧
  (∀ (s : State) (u : Fin 8) (l : List Byte), s.dev.unitState u.val = 2 → s.dev.ownerEnded (s.dev.unit u.val) = false →
    Completes (.cuStreamEnd u l false) s fun d => d = s.dev)

/-- Where the patrol and causeway commands complete (R188, R444, R445, R449, R450): a corrected error of a word further on in the round is
counted, a TCAM row with a parity error made invalid and reported, and a table entry that any read finds uncorrectable poisoned; a transfer
error is counted and replayed, and the sixteenth failed replay in a row stops its direction; and the causeway test runs in maintenance mode
alone. -/
def Obligations.PatrolAndCausewayComplete : Prop :=
  (∀ s : State, s.dev.mode ≠ .m0 → s.dev.on F.DGN_PATROL_CFG_EN = true → s.dev.shed < 2 → Completes (.patrolRead none) s fun d =>
    (∀ k : Nat, k ≠ F.DGN_PATROL_STATUS.off → d.reg k = s.dev.reg k) ∧ d.posted = s.dev.posted ∧ d.tbl = s.dev.tbl ∧ d.pir = s.dev.pir) ∧
  (∀ (s : State) (place : PatrolPlace), s.dev.mode ≠ .m0 → s.dev.on F.DGN_PATROL_CFG_EN = true → s.dev.shed < 2 →
    s.dev.placeReads place = true → s.dev.dgn.patrolKey < placeKey place →
    Completes (.patrolRead (some ⟨place, true, .patrol⟩)) s fun d =>
      d.rd F.DGN_PATROL_CORR = min (s.dev.rd F.DGN_PATROL_CORR + 1) (2 ^ 64 - 1)) ∧
  (∀ (s : State) (p : Pier) (egress : Bool) (row : Nat), s.dev.mode ≠ .m0 → s.dev.on F.DGN_PATROL_CFG_EN = true → s.dev.shed < 2 →
    s.dev.pierPowered p.val = true → row < tcamRows (if egress then 1 else 0) → s.dev.dgn.patrolKey < placeKey (.tcam p egress row) →
    Completes (.patrolRead (some ⟨.tcam p egress row, false, .patrol⟩)) s fun d =>
      (d.tcamRow p.val (if egress then 1 else 0) row).valid = false ∧ Posts s.dev d [Ev.PIR_TCAM_PARITY]) ∧
  (∀ (s : State) (x : PatrolError), x.finder = .patrol → s.dev.placeReads x.place = false ∨ placeKey x.place ≤ s.dev.dgn.patrolKey →
    Completes (.patrolRead (some x)) s fun d => d = s.dev) ∧
  (∀ (s : State) (kind i : Nat) (f : ErrorFinder), s.dev.mode ≠ .m0 → f ≠ .patrol → 2 ≤ kind → s.dev.placeReads (.table kind i) = true →
    s.dev.poisoned kind i = false → Completes (.patrolRead (some ⟨.table kind i, false, f⟩)) s fun d => d.poisoned kind i = true ∧
      d.rd F.TBL_ECC_UNCORR = min (s.dev.rd F.TBL_ECC_UNCORR + 1) (2 ^ 64 - 1) ∧ Posts s.dev d [Ev.TBL_POISONED]) ∧
  (∀ (s : State) (fe : Bool), s.dev.mode ≠ .m0 → s.dev.cwStopped (if fe then 0 else 1) = false →
    Completes (.causewayError fe .corrected) s fun d => d.rd F.DGN_CW_CORR = min (s.dev.rd F.DGN_CW_CORR + 1) (2 ^ 64 - 1) ∧
      d.posted = s.dev.posted) ∧
  (∀ (s : State) (fe : Bool), s.dev.mode ≠ .m0 → s.dev.cwStopped (if fe then 0 else 1) = false →
    Completes (.causewayError fe .replayed) s fun d => d.rd F.DGN_CW_UNCORR = min (s.dev.rd F.DGN_CW_UNCORR + 1) (2 ^ 64 - 1) ∧
      d.rd F.DGN_CW_REPLAY = min (s.dev.rd F.DGN_CW_REPLAY + 1) (2 ^ 64 - 1) ∧ Posts s.dev d [Ev.DGN_CW_ERR]) ∧
  (∀ (s : State) (fe : Bool), let dir := if fe then 0 else 1
    s.dev.mode ≠ .m0 → s.dev.cwStopped dir = false → s.dev.cwFails dir < 15 →
    Completes (.causewayError fe .failed) s fun d => d.cwStopped dir = false ∧ d.cwFails dir = s.dev.cwFails dir + 1 ∧
      d.rd F.DGN_CW_REPLAY = min (s.dev.rd F.DGN_CW_REPLAY + 1) (2 ^ 64 - 1) ∧ Posts s.dev d [Ev.DGN_CW_ERR]) ∧
  (∀ (s : State) (fe : Bool), let dir := if fe then 0 else 1
    s.dev.mode ≠ .m0 → s.dev.cwStopped dir = false → 15 ≤ s.dev.cwFails dir →
    Completes (.causewayError fe .failed) s fun d => d.cwStopped dir = true ∧ d.on F.DGN_STATUS_CW_FAIL = true ∧
      Posts s.dev d [Ev.DGN_CW_ERR, Ev.DGN_CW_FAIL]) ∧
  (∀ (s : State) (m : Master) (data : Word), s.dev.writes m.val F.DGN_CW_TEST.off = true → s.dev.mode = .m10 →
    Completes (.cwTestEnable m data) s fun d => d.on F.DGN_CW_TEST_EN = bitOn data 31 ∧ d.rd F.DGN_CW_TEST_PRBS = bits data 0 0) ∧
  (∀ (s : State) (m : Master) (data : Word), s.dev.writes m.val F.DGN_CW_TEST.off = true → s.dev.mode ≠ .m10 →
    Completes (.cwTestEnable m data) s fun d => d.regs = s.dev.regs ∧ Posts s.dev d [Ev.DGN_CMD_REFUSED])

/-- Where the test commands complete (R446, R447, R448, R451): an accepted BIST takes its pier from service and shows busy, and its end
shows the result and leaves no other run; a recalibration waits and is reported when done, and one for a lane with traffic, or for none, is
refused; and a maintenance test runs in maintenance mode with its scope, first the BIST of pier 0 where that is selected, and is reported
done once no pier's run is left. -/
def Obligations.TestCommandsComplete : Prop :=
  (∀ (s : State) (m : Master) (data : Word), s.dev.writes m.val F.DGN_BIST_CMD.off = true → bitOn data 31 = true →
    s.dev.bistBar (bits data 4 0) = 0 → Completes (.bistStart m data) s fun d => d.dgn.runs = [⟨bits data 4 0, false, false⟩] ∧
      d.pierState (bits data 4 0) = 2 ∧ d.on F.DGN_STATUS_BIST_BUSY = true) ∧
  (∀ (s : State) (m : Master) (data : Word), s.dev.writes m.val F.DGN_BIST_CMD.off = true → bitOn data 31 = true →
    s.dev.bistBar (bits data 4 0) ≠ 0 → Completes (.bistStart m data) s fun d => d.dgn = s.dev.dgn ∧ Posts s.dev d [Ev.DGN_CMD_REFUSED]) ∧
  (∀ (s : State) (p : Pier), s.dev.dgn.runs = [⟨p.val, false, false⟩] → s.dev.img.failDue = [] → Completes (.bistDone true) s fun d =>
    d.dgn.runs = [] ∧ d.on F.DGN_STATUS_BIST_BUSY = false ∧ d.rd F.DGN_BIST_STATUS_RESULT = 1 ∧ d.rd F.DGN_BIST_STATUS_PIER = p.val ∧
    d.pierState p.val = (if s.dev.on F.IMG_STATUS_LIVE_VALID = false then 4
      else if s.dev.on (F.IMG_PIER_STATUS_SERVING.ix p.val) = true then 0 else 1) ∧ Posts s.dev d [Ev.DGN_BIST_DONE]) ∧
  (∀ (s : State) (p : Pier), s.dev.dgn.runs = [⟨p.val, true, false⟩] → Completes (.bistDone false) s fun d =>
    d.dgn.runs = [] ∧ d.rd F.DGN_BIST_STATUS_RESULT = 2 ∧ d.pierState p.val = 3 ∧ Posts s.dev d [Ev.IMG_PIER_FAIL]) ∧
  (∀ (s : State) (m : Master) (data : Word), s.dev.writes m.val F.DGN_RECAL_CMD.off = true → bitOn data 31 = true →
    (bits data 7 0 < if bitOn data 8 then 160 else 128) → s.dev.mode = .m10 → Completes (.recalStart m data) s fun d =>
      d.dgn.recal = s.dev.dgn.recal ++ [(bitOn data 8, bits data 7 0)]) ∧
  (∀ (s : State) (m : Master) (data : Word), let lane := bits data 7 0
    s.dev.writes m.val F.DGN_RECAL_CMD.off = true → bitOn data 31 = true →
    (if bitOn data 8 then 160 else 128) ≤ lane ∨ (s.dev.mode ≠ .m10 ∧ (if bitOn data 8 then s.dev.fabLinkUp (lane / 4) = true
      else ∃ p ∈ s.dev.lanePorts lane, s.dev.on (F.LPT_CTRL_ADMIN_UP.port p) = true)) →
    Completes (.recalStart m data) s fun d => d.dgn = s.dev.dgn ∧ Posts s.dev d [Ev.DGN_CMD_REFUSED]) ∧
  (∀ (s : State) (x : Bool × Nat) (rest : List (Bool × Nat)), s.dev.dgn.recal = x :: rest → Completes .recalDone s fun d =>
    d.dgn.recal = rest ∧ Posts s.dev d [Ev.DGN_RECAL_DONE]) ∧
  (∀ (s : State) (m : Master) (data : Word), s.dev.writes m.val F.DGN_MAINT_CMD.off = true → bitOn data 31 = true → s.dev.mode = .m10 →
    s.dev.on F.DGN_STATUS_MAINT_BUSY = false → Completes (.maintTestStart m data) s fun d =>
      d.rd F.DGN_MAINT_CMD_SCOPE = bits data 4 0 ∧ d.on F.DGN_STATUS_MAINT_BUSY = true ∧
      d.dgn.runs = s.dev.dgn.runs ++ (if bitOn data 0 then [⟨0, false, true⟩] else []) ∧ d.posted = s.dev.posted) ∧
  (∀ (s : State) (m : Master) (data : Word), s.dev.writes m.val F.DGN_MAINT_CMD.off = true → bitOn data 31 = true →
    s.dev.mode ≠ .m10 ∨ s.dev.on F.DGN_STATUS_MAINT_BUSY = true → Completes (.maintTestStart m data) s fun d => d.dgn = s.dev.dgn ∧
      d.regs = s.dev.regs ∧ Posts s.dev d [Ev.DGN_CMD_REFUSED]) ∧
  (∀ (s : State) (pass : BitVec 8), s.dev.on F.DGN_STATUS_MAINT_BUSY = true → s.dev.dgn.runs.any (·.maint) = false →
    Completes (.maintTestDone pass) s fun d => d.on F.DGN_STATUS_MAINT_BUSY = false ∧ ∃ a, Posts s.dev d (a ++ [Ev.DGN_MAINT_DONE])) ∧
  (∀ (s : State) (pass : BitVec 8), s.dev.dgn.runs.any (·.maint) = true →
    Completes (.maintTestDone pass) s fun d => d = s.dev)

/-! ### Register accesses and mirror records -/

/-- Where the register commands complete (R8, R10, R26, R27, R343): a write sets the field its access code lets it set; the low read of a
64-bit register returns the low half and latches the high one for its master, and a high read answers from the latch; a low write is staged
and changes no register, and the high write commits both halves under the register's access code; a write that does not reach its register
changes none, and a read that does not returns 0; a read that clears, clears; an access to no register reads 0, changes no register and is
reported; a broadcast write reaches the powered piers and no other; and a standby ignores and reports a local write into a mirrored window.
That a broadcast write of a register that is not mirrored counts as one is the model's reading (log 13, DEDUCED). -/
def Obligations.RegisterCommandsComplete : Prop :=
  (∀ (s : State) (m : Master) (n : Fin 4) (data : Word), s.dev.writes m.val (F.GLB_SCRATCH.ix n.val).off = true →
    Completes (.registerWrite m (BitVec.ofNat 29 (F.GLB_SCRATCH.ix n.val).off) data) s fun d =>
      d.rd (F.GLB_SCRATCH.ix n.val) = data.toNat ∧ d.posted = s.dev.posted) ∧
  (∀ (s : State) (m : Master) (data : Word), s.dev.writes m.val F.GLB_RESET_CAUSE.off = true →
    Completes (.registerWrite m (BitVec.ofNat 29 F.GLB_RESET_CAUSE.off) data) s fun d =>
      bits (d.reg F.GLB_RESET_CAUSE.off) 7 0 = bits (s.dev.reg F.GLB_RESET_CAUSE.off &&& ~~~(data.setWidth 64)) 7 0) ∧
  (∀ (s : State) (m : Master) (off : Offset) (r : RegAt), s.dev.reaches m.val off.toNat = true → s.dev.answersAt off.toNat = true →
    (off.toNat < 0x9800000 ∨ 0x9900000 ≤ off.toNat) → regAt off.toNat = some r → r.wide = true → r.high = false → r.row ≠ F.BUF_ALLOC.off →
    Completes (.reg64LowRead m off) s fun d => d.lastRead = BitVec.ofNat 32 (s.dev.view m.val r) ∧
      d.latches.get (fun _ => none) (halfKey m.val r.off) = some (BitVec.ofNat 32 (s.dev.view m.val r >>> 32))) ∧
  (∀ (s : State) (m : Master) (off : Offset) (r : RegAt) (w : Word), s.dev.reaches m.val off.toNat = true → s.dev.answersAt off.toNat = true →
    (off.toNat < 0x9800000 ∨ 0x9900000 ≤ off.toNat) → regAt off.toNat = some r → r.high = true →
    s.dev.latches.get (fun _ => none) (halfKey m.val r.off) = some w →
    Completes (.rcRead m off) s fun d => d.lastRead = w ∧ d.regs = s.dev.regs ∧ d.latches = s.dev.latches) ∧
  (∀ (s : State) (m : Master) (off : Offset) (r : RegAt), s.dev.writes m.val off.toNat = true →
    (off.toNat < 0x9800000 ∨ 0x9900000 ≤ off.toNat) → regAt off.toNat = some r → r.wide = true → r.high = false →
    r.row ≠ F.IMG_WALK_START.off → (0xA000000 ≤ r.row → r.row < 0xC000000 → s.dev.localBarred m.val = false) → ∀ data : Word,
    Completes (.reg64LowWrite m off data) s fun d => d.regs = s.dev.regs ∧
      d.stages.get (fun _ => none) (halfKey m.val r.off) = some data) ∧
  (∀ (s : State) (m : Master) (u : Fin 8) (low high : Word), s.dev.writes m.val ((F.DGN_CU_EXPECT.ix u.val).off + 4) = true →
    s.dev.stages.get (fun _ => none) (halfKey m.val (F.DGN_CU_EXPECT.ix u.val).off) = some low →
    Completes (.reg64HighWrite m (BitVec.ofNat 29 ((F.DGN_CU_EXPECT.ix u.val).off + 4)) high) s fun d =>
      d.rd (F.DGN_CU_EXPECT_VALUE.ix u.val) = low.toNat + 2 ^ 32 * high.toNat ∧
      d.stages.get (fun _ => none) (halfKey m.val (F.DGN_CU_EXPECT.ix u.val).off) = none) ∧
  (∀ (s : State) (m : Master) (off : Offset) (r : RegAt) (data : Word), s.dev.writes m.val off.toNat = true →
    (off.toNat < 0x9800000 ∨ 0x9900000 ≤ off.toNat) → regAt off.toNat = some r → r.wide = true → r.high = true → ownCommit r.row = false →
    (0xA000000 ≤ r.row → r.row < 0xC000000 → s.dev.localBarred m.val = false) →
    Completes (.reg64HighWrite m off data) s fun d => d.posted = s.dev.posted ∧
      d.reg (s.dev.regKey r) = BitVec.ofNat 64 (s.dev.coded r (s.dev.reg (s.dev.regKey r)).toNat
        (s.dev.stagedLow m.val r.off (s.dev.reg (s.dev.regKey r)).toNat + (data.toNat <<< 32)))) ∧
  (∀ (s : State) (m : Master) (off : Offset) (r : RegAt) (data : Word), s.dev.writes m.val off.toNat = true →
    (off.toNat < 0x9800000 ∨ 0x9900000 ≤ off.toNat) → regAt off.toNat = some r → r.wide = true →
    r.row = F.IMG_WALK_START.off ∨ (0xA000000 ≤ r.row ∧ r.row < 0xC000000) → s.dev.localBarred m.val = true →
    Completes (if r.high then .reg64HighWrite m off data else .reg64LowWrite m off data) s fun d => d.regs = s.dev.regs ∧
      d.stages = s.dev.stages ∧ Posts s.dev d [Ev.TWN_LOCAL_WRITE]) ∧
  (∀ (s : State) (m : Master) (off : Offset) (data : Word), unmapped off.toNat = false → s.dev.writes m.val off.toNat = false →
    (Completes (.registerWrite m off data) s fun d => d = s.dev.noAbort) ∧
    (Completes (.reg64LowWrite m off data) s fun d => d.regs = s.dev.regs ∧ d.stages = s.dev.stages ∧ d.posted = s.dev.posted) ∧
    (Completes (.reg64HighWrite m off data) s fun d => d.regs = s.dev.regs ∧ d.stages = s.dev.stages ∧ d.posted = s.dev.posted)) ∧
  (∀ (s : State) (m : Master) (off : Offset), s.dev.reaches m.val off.toNat = false ∨ s.dev.answersAt off.toNat = false →
    Completes (.rcRead m off) s fun d => d = s.dev.answer 0) ∧
  (∀ (s : State) (m : Master) (n : Fin 16), s.dev.reads m.val (F.PWR_RAIL.ix n.val).off = true →
    Completes (.rcRead m (BitVec.ofNat 29 (F.PWR_RAIL.ix n.val).off)) s fun d => d.rd (F.PWR_RAIL_MIN_MV.ix n.val) = 0 ∧
      d.lastRead = BitVec.ofNat 32 (s.dev.reg (F.PWR_RAIL.ix n.val).off).toNat ∧
      d.rd (F.PWR_RAIL_MV.ix n.val) = s.dev.rd (F.PWR_RAIL_MV.ix n.val)) ∧
  (∀ (s : State) (m : Master) (off : Offset) (w : Bool), s.dev.reaches m.val off.toNat = true → s.dev.answersAt off.toNat = true →
    unmapped off.toNat = true → Completes (.unmappedAccess m off w) s fun d => d.regs = s.dev.regs ∧
      Posts s.dev d [Ev.GLB_UNMAPPED_ACCESS] ∧ (w = false → d.lastRead = 0 ∧ d.lastAbort = false)) ∧
  (∀ (s : State) (m : Master) (o : BitVec 20) (data : Word), s.dev.writes m.val (0x9800000 + o.toNat) = true →
    unmapped (0x9800000 + o.toNat) = false → s.dev.localBarred m.val = true → Completes (.broadcastWrite m o data) s fun d =>
      d.regs = s.dev.regs ∧ d.pir = s.dev.pir ∧ d.stages = s.dev.stages ∧ Posts s.dev d [Ev.TWN_LOCAL_WRITE]) ∧
  (∀ (s : State) (m : Master) (data : Word), s.dev.writes m.val (0x9800000 + 0x100) = true → s.dev.localBarred m.val = false →
    Completes (.broadcastWrite m 0x100 data) s fun d => ∀ p : Pier,
      (s.dev.pierPowered p.val = true → d.rd (F.PIR_TCAM_ADDR_ROW.pier p.val) = bits data 13 0 ∧
        d.rd (F.PIR_TCAM_ADDR_PIPE.pier p.val) = bits data 16 16) ∧
      (s.dev.pierPowered p.val = false → d.reg (F.PIR_TCAM_ADDR.pier p.val).off = s.dev.reg (F.PIR_TCAM_ADDR.pier p.val).off))

/-! ### Frames -/

/-- The frame of the life-cycle, time and image commands: whichever next state one of them answers, the commands that wait, the parts of the
device it does not name and the registers it does not name are as they were. A reset keeps host memory and what R419 says, beside what an
operation that it interrupts leaves. -/
def Obligations.TimeAndImageFrames : Prop :=
  (∀ (s : State) (lowNs : Nat),
    Keeps (.perstNAssert lowNs) s [.posted, .fresh, .img, .pir, .que, .ctl, .hst, .sec] (windows [1, 3, 13, 14, 16, 17])) ∧
  (∀ (s : State) (pf : Fin 2),
    Keeps (.functionLevelReset pf) s [.posted, .fresh, .img, .pir, .que, .ctl, .hst, .sec] (windows [1, 3, 13, 14, 16, 17])) ∧
  (∀ (s : State) (straps : BitVec 13) (testEn : Bool) (mvs : List Nat),
    Keeps (.resetRelease straps testEn mvs) s [.mode, .pwr, .sec] (windows [1, 2, 15])) ∧
  (∀ (s : State) (straps : BitVec 13) (mvs : List Nat),
    Keeps (.testEnRelease straps mvs) s [.mode, .pwr, .sec] (windows [1, 2, 15])) ∧
  (∀ (s : State) (m : Master),
    Keeps (.glbLockSet m) s [.lastAbort] (regsAt [F.GLB_LOCK.off]) ∧
    Keeps (.fwdEn m) s [.mode, .lastAbort, .posted, .tim, .img, .que, .twn] (windows [1, 3, 10, 12, 17]) ∧
    Keeps (.syncLoadArm m) s [.lastAbort, .posted, .tim] (regsAt [F.TIM_SYNC_CFG.off]) ∧
    Keeps (.taArm m) s [.lastAbort, .posted, .tim, .twn] noRegs ∧
    Keeps (.taCancel m) s [.lastAbort, .posted, .tim, .twn] noRegs ∧
    Keeps (.imgLoadAbort m) s [.lastAbort, .posted, .fresh, .img] (windows [3, 17]) ∧
    Keeps (.walkStart m) s [.lastAbort, .posted, .tim, .img, .twn] (regsAt [F.IMG_STATUS.off, F.IMG_WALK_STATUS.off]) ∧
    Keeps (.walkAbandon m) s [.lastAbort, .posted, .tim, .img, .twn] (regsAt [F.IMG_WALK_STATUS.off]) ∧
    Keeps (.walkResume m) s [.lastAbort, .posted, .tim, .img, .twn] (windows [3])) ∧
  (∀ (s : State) (m : Master) (alsoFwd : Bool),
    Keeps (.maintReq m alsoFwd) s [.mode, .lastAbort, .posted, .tim, .img, .que, .twn] (windows [1, 3, 10, 12, 17])) ∧
  (∀ (s : State) (m : Master) (src : BitVec 2),
    Keeps (.srcSelect m src) s [.lastAbort, .tim] (regsAt [F.TIM_CTRL.off, F.TIM_STATUS.off])) ∧
  (∀ (s : State) (link : Fin 40),
    Keeps (.spanDisagree link) s [.posted, .tim] noRegs) ∧
  (∀ (s : State),
    Keeps .fabricRelock s [.posted, .tim] (regsAt [F.TIM_STATUS.off]) ∧
    Keeps .m10EntryComplete s [.mode, .posted, .fresh, .lpt, .pir, .buf, .que, .dck, .hst] (windows [4, 7, 8, 11, 14]) ∧
    Keeps .fabricTimeLoss s [.posted] (regsAt [F.TIM_STATUS.off]) ∧
    Keeps .pllLock s [.posted, .tim] (regsAt [F.TIM_STATUS.off]) ∧
    Keeps .pllLockLoss s [.posted, .tim] (regsAt [F.TIM_STATUS.off]) ∧
    Keeps .ppsEdgesMissing s [.posted, .tim] (regsAt [F.TIM_STATUS.off]) ∧
    Keeps .spanSyncMarkersMissing s [.posted] (regsAt [F.TIM_STATUS.off]) ∧
    Keeps .spanSyncOutMarker s [.tim] noRegs ∧
    Keeps .phcSecond s [.tim] noRegs ∧
    Keeps .todMessageTx s [.tim] noRegs ∧
    Keeps .todBaseUpdate s [.posted, .tim] (regsAt [F.TIM_CORR.off, F.TIM_STATUS.off, F.TIM_TOD_BASE.off, F.TIM_TOD_BASE_NS.off]) ∧
    Keeps .keystoneFire s [.posted, .tim, .img, .tbl, .que, .shp] (windows [2, 3, 6, 8, 9]) ∧
    Keeps .drainLimitReached s [.posted, .tim, .img, .tbl] (windows [2, 3]) ∧
    Keeps .expirySweepComplete s [.posted, .fresh, .tim, .img, .lpt, .pir, .tbl, .buf, .que, .fab, .dck] (windows [2, 3, 4, 7, 10, 11, 14]) ∧
    Keeps .walkStepCommit s [.posted, .tim, .img, .lpt, .pir, .tbl, .que, .fab, .twn, .pwr, .dgn] (windows [3, 4, 14, 17]) ∧
    Keeps .supplyMonitorsInRange s [.mode, .sec] (regsAt [F.TIM_CTRL.off])) ∧
  (∀ (s : State) (errNs : BitVec 32),
    Keeps (.ppsEdge errNs) s [.posted, .tim] (regsAt [F.TIM_CORR.off, F.TIM_PPS_PHASE.off, F.TIM_STATUS.off, F.TIM_TOD_BASE.off, F.TIM_TOD_BASE_NS.off])) ∧
  (∀ (s : State) (slot : Fin 100),
    Keeps (.spanSyncMarker slot) s [.posted, .tim] (regsAt [F.TIM_STATUS.off, F.TIM_SYNC_CFG.off])) ∧
  (∀ (s : State) (afterPpsMs : Nat) (bytes : List Byte),
    Keeps (.todMessageRx afterPpsMs bytes) s [.posted, .tim] noRegs) ∧
  (∀ (s : State) (m : Master) (which : TaStage) (value : BitVec 64),
    Keeps (.taStageWrite m which value) s [.stages, .lastAbort, .tim] noRegs) ∧
  (∀ (s : State) (m : Master) (target : BitVec 2),
    Keeps (.imgLoadStart m target) s [.lastAbort, .posted, .img, .dgn] (windows [3, 17])) ∧
  (∀ (s : State) (newPierFailed : Bool),
    Keeps (.walkStepTimeout newPierFailed) s [.posted, .tim, .img, .lpt, .pir, .tbl, .que, .fab, .twn, .pwr, .dgn] (windows [3, 4, 14, 17])) ∧
  (∀ (s : State) (pier : Pier) (crcOk : Bool),
    Keeps (.pierReloadDone pier crcOk) s [.posted, .tim, .img, .lpt, .pir, .tbl, .que, .fab, .twn, .pwr, .dgn] (windows [3, 4, 14, 17])) ∧
  (∀ (s : State) (pier : Pier) (kind : BitVec 4) (pipe : BitVec 2) (stage : BitVec 5) (badSs : List Nat) (badMeters : List Nat),
    Keeps (.pierFault pier kind pipe stage badSs badMeters) s [.posted, .tim, .img, .lpt, .pir, .tbl, .que, .fab, .twn, .pwr, .dgn] (windows [3, 4, 5, 12, 14, 17])) ∧
  (∀ (s : State) (pier : Pier) (pipe : BitVec 2) (stage : BitVec 5),
    Keeps (.strokeTimeout pier pipe stage) s [.posted, .tim, .img, .lpt, .pir, .tbl, .que, .fab, .twn, .pwr, .dgn] (windows [3, 4, 5, 12, 14, 17])) ∧
  (∀ (s : State) (m : Master) (pier : BitVec 5),
    Keeps (.pierRetireCmd m pier) s [.lastAbort, .posted, .tim, .img, .lpt, .pir, .tbl, .que, .fab, .twn, .pwr, .dgn] (windows [3, 4, 14, 17]) ∧
    Keeps (.pierRestoreCmd m pier) s [.lastAbort, .pwr, .dgn] (windows [3, 17])) ∧
  (∀ (s : State) (dma : Option (List Byte)) (tamper : Bool),
    Keeps (.imgLoadEnd dma tamper) s [.mode, .posted, .fresh, .img, .lpt, .pir, .tbl, .que, .shp, .fab, .twn, .hst, .sec] (windows [3, 4, 8, 9, 10, 11, 12, 13, 16, 17])) ∧
  (∀ (s : State) (lowNs : Nat),
    Keeps (.porstNAssert lowNs) s allButHost anyRegs ∧
    (∀ t, exec (.porstNAssert lowNs) s = .next t → (s.dev.sec.fuseOp = none → t.dev.sec.array = s.dev.sec.array) ∧
      (s.dev.sec.flashOp = none → t.dev.sec.flash = s.dev.sec.flash)) ∧
    Keeps (.sysrstNAssert lowNs) s allButHost lostAtReset) ∧
  (∀ s : State,
    Keeps .railResetLevel s allButHost (fun off => lostAtReset off ∨ off = F.PWR_STATUS.off) ∧
    Keeps .thermalTrip s allButHost lostAtReset) ∧
  (∀ (s : State) (m : Master),
    Keeps (.secSysReset m) s allButHost lostAtReset ∧
    (m.val ≠ 6 ∨ s.dev.mode = .m10 ∨ s.dev.mode = .m11 → Keeps (.secSysReset m) s [.lastAbort, .posted] noRegs))

/-- The frame of the register, line port and pier commands: whichever next state one of them answers, the commands that wait, the parts of
the device it does not name and the registers it does not name are as they were. A stroke of an injected packet writes its descriptor's byte
in host memory alone, and a register write changes what its block may. -/
def Obligations.AccessAndLineFrames : Prop :=
  (∀ (s : State) (m : Master) (off : Offset),
    Keeps (.reg64LowRead m off) s [.latches, .lastRead, .lastAbort, .posted, .fresh, .buf, .que, .ctl, .pwr] (windows [7, 8, 13, 15]) ∧
    Keeps (.rcRead m off) s [.latches, .lastRead, .lastAbort, .posted, .fresh, .buf, .que, .ctl, .pwr] (windows [7, 8, 13, 15])) ∧
  (∀ (s : State) (m : Master) (off : Offset) (data : Word),
    Keeps (.reg64LowWrite m off data) s [.stages, .lastAbort, .posted, .twn] noRegs ∧
    Keeps (.reg64HighWrite m off data) s [.stages, .lastAbort, .posted, .fresh, .tim, .pir, .buf, .twn] (windows [blockOf off.toNat])) ∧
  (∀ (s : State) (m : Master) (off : Offset) (isWrite : Bool),
    Keeps (.unmappedAccess m off isWrite) s [.lastRead, .lastAbort, .posted] noRegs) ∧
  (∀ (s : State) (m : Master) (off : BitVec 20) (data : Word),
    Keeps (.broadcastWrite m off data) s [.stages, .lastAbort, .posted, .pir, .twn] (windows [5])) ∧
  (∀ (s : State) (m : Master) (port : Port) (tx : Bool) (data : Word),
    Keeps (.laneMapWrite m port tx data) s [.lastAbort, .posted] (regsAt [(F.LPT_OCT_RX_MAP.port port.val).off, (F.LPT_OCT_TX_MAP.port port.val).off])) ∧
  (∀ (s : State) (port : Port) (bytes : List Byte) (tick : Fin 3200),
    Keeps (.frameReceive port bytes tick) s [.lpt, .que, .twn] (windows [4, 5, 14])) ∧
  (∀ (s : State) (port : Port) (ctl : MacControl),
    Keeps (.macControlFrameRx port ctl) s [.lpt, .que] (regsAt [(F.LPT_RX_PAUSE.port port.val).off, (F.LPT_RX_PFC.port port.val).off])) ∧
  (∀ (s : State) (port : Port) (cls : Fin 8),
    Keeps (.pauseExpiry port cls) s [.lpt, .que] noRegs ∧
    Keeps (.pfcRefresh port cls) s [.lpt] (regsAt [(F.LPT_TX_FLOW_CTRL.port port.val).off]) ∧
    Keeps (.pfcWatchdog port cls) s [.posted, .lpt, .que] noRegs) ∧
  (∀ (s : State) (m : Master) (port : Port),
    Keeps (.msecSaInstall m port) s [.lastAbort, .posted, .lpt] noRegs ∧
    Keeps (.msecSaRetire m port) s [.lastAbort, .lpt] (windows [4]) ∧
    Keeps (.txtsPop m port) s [.lastAbort, .lpt] noRegs ∧
    Keeps (.lptCntClr m port) s [.lastAbort] (windows [4]) ∧
    Keeps (.gclCommit m port) s [.lastAbort, .posted, .lpt] (regsAt [(F.LPT_GCL_CTRL.port port.val).off])) ∧
  (∀ (s : State) (port : Port),
    Keeps (.gclStart port) s [.posted, .lpt, .que] (regsAt [(F.LPT_GCL_BASE_NS.port port.val).off, (F.LPT_GCL_BASE.port port.val).off, (F.LPT_GCL_CTRL.port port.val).off]) ∧
    Keeps (.gateEntryAdvance port) s [.lpt, .que] noRegs ∧
    Keeps (.portLinkDown port) s [.posted, .lpt, .que, .fab] (regsAt [(F.LPT_STATUS.port port.val).off]) ∧
    Keeps (.portLinkUp port) s [.posted, .lpt, .que, .fab, .twn] (regsAt [(F.LPT_STATUS.port port.val).off])) ∧
  (∀ (s : State) (port : Port) (ok : Bool),
    Keeps (.preemptVerifyExchange port ok) s [.posted] (regsAt [(F.LPT_PREEMPT.port port.val).off])) ∧
  (∀ (s : State) (m : Master) (port : Port) (up : Bool),
    Keeps (.adminUpWrite m port up) s [.lastAbort, .posted, .lpt, .que, .fab] (regsAt [(F.LPT_CTRL.port port.val).off, (F.LPT_STATUS.port port.val).off])) ∧
  (∀ (s : State) (port : Port) (corrected : Nat) (uncorrectable : Nat),
    Keeps (.fecInterval port corrected uncorrectable) s [.lpt] (regsAt [(F.LPT_FEC_CORR_CW.port port.val).off, (F.LPT_FEC_UNCORR_CW.port port.val).off, (F.LPT_STATUS.port port.val).off])) ∧
  (∀ (s : State) (pier : Pier),
    Keeps (.ingressStroke pier) s [.posted, .hostMem, .lpt, .pir, .tbl, .que, .twn, .hst] (windows [5, 6, 14]) ∧
    Keeps (.secondStroke pier) s [.posted, .tim, .pir, .tbl, .que, .twn] (windows [2, 5, 6, 14]) ∧
    Keeps (.egressStroke pier) s [.posted, .fresh, .tim, .lpt, .pir, .tbl, .que] (windows [2, 4, 5, 6, 14]) ∧
    Keeps (.tcamCommit pier) s [.pir] (regsAt [(F.PIR_TCAM_COMMITS.pier pier.val).off, (F.PIR_TCAM_STEALS.pier pier.val).off])) ∧
  (∀ (s : State) (m : Master) (data : Word),
    Keeps (.tcamCommitRequest m data) s [.lastAbort, .posted, .pir, .twn] noRegs) ∧
  (∀ (s : State) (m : Master) (pier : Pier),
    Keeps (.pirCntClr m pier) s [.lastAbort] (windows [5])) ∧
  (∀ (s : State) (port : Port) (tick : Fin 3200),
    Keeps (.frameTransmit port tick) s [.posted, .lpt] (windows [4, 14])) ∧
  (∀ (s : State) (port : Port) (cause : BitVec 3) (present : Bool),
    Keeps (.lineFaultChange port cause present) s [.lpt] (regsAt [(F.LPT_STATUS.port port.val).off])) ∧
  (∀ (s : State) (m : Master) (off : Offset) (data : Word),
    (off.toNat ≠ F.SEC_CTRL.off → Keeps (.registerWrite m off data) s
      ([.stages, .lastAbort, .posted] ++ (writeFrame (blockOf off.toNat)).1) (windows (writeFrame (blockOf off.toNat)).2)) ∧
    (off.toNat = F.SEC_CTRL.off → Keeps (.registerWrite m off data) s allButHost lostAtReset)) ∧
  (∀ (s : State) (i : Nat), let e := s.dev.entryAt i
    s.dev.dueEntry = some i →
    (e.type ≠ 5 → Keeps .timedActionFire s [.posted, .tim, .img, .tbl, .que, .shp] (windows [3, 6, 9])) ∧
    (e.type = 5 → Keeps .timedActionFire s
      ([.stages, .lastAbort, .posted, .tim, .twn] ++ (writeFrame (blockOf (taOffset e.operand))).1)
      (windows (writeFrame (blockOf (taOffset e.operand))).2))) ∧
  (∀ s : State, s.dev.dueEntry = none → Keeps .timedActionFire s [] noRegs) ∧
  (∀ (s : State) (r : MirrorRec) (rest : List MirrorRec), let off := leNat (bytesAt r.body 0 4)
    s.dev.takeDue s.dev.twn.records = some (r, rest) →
    (r.kind ≠ 2 → Keeps .mirrorRecordApply s [.posted, .tim, .tbl, .twn, .dgn] (windows [6, 17])) ∧
    (r.kind = 2 → r.seq = ownSeq → Keeps .mirrorRecordApply s [.twn] (windows [11])) ∧
    (r.kind = 2 → r.seq ≠ ownSeq → Keeps .mirrorRecordApply s
      ([.stages, .lastAbort, .posted, .twn] ++ (writeFrame (blockOf off)).1) (windows (writeFrame (blockOf off)).2))) ∧
  (∀ s : State, s.dev.takeDue s.dev.twn.records = none → Keeps .mirrorRecordApply s [] noRegs) ∧
  (∀ (s : State) (pier : Pier),
    KeepsHost (.ingressStroke pier) s fun x => ∃ o p rest q, s.dev.octetOf pier.val = some o ∧ s.dev.injectQueue o = p :: rest ∧
      p.back = some q ∧ inBytes (s.dev.iqPlace q + 10) 1 x)

/-- The frame of the table and buffer commands: whichever next state one of them answers, the commands that wait, the parts of the device it
does not name and the registers it does not name are as they were. A snapshot writes its counters to host memory and nothing beside them. -/
def Obligations.TableAndBufferFrames : Prop :=
  (∀ (s : State) (m : Master) (slot : Fin 512) (request : BitVec 2048),
    Keeps (.taeSubmit m slot request) s [.lastAbort, .posted, .tbl, .twn] noRegs) ∧
  (∀ (s : State) (m : Master) (off : BitVec 30),
    Keeps (.entryWindowRead m off) s [.lastRead, .lastAbort, .posted, .tbl, .twn, .dgn] (windows [6, 17])) ∧
  (∀ (s : State) (m : Master) (off : BitVec 30) (data : Word),
    Keeps (.entryWindowWrite m off data) s [.lastAbort, .posted, .tbl, .twn] noRegs) ∧
  (∀ (s : State) (ok : Bool) (copied : Nat),
    Keeps (.snapshotCopyDone ok copied) s [.posted, .hostMem, .tbl] (regsAt [F.TBL_SNAP_STATUS.off])) ∧
  (∀ (s : State) (m : Master) (table : BitVec 8),
    Keeps (.rehashOpen m table) s [.lastAbort, .posted, .tbl, .twn] (regsAt [F.TBL_REHASH_COPIED.off, F.TBL_REHASH_CTRL.off, F.TBL_REHASH_STATUS.off]) ∧
    Keeps (.rehashCommit m table) s [.lastAbort, .posted, .img, .tbl] (windows [6]) ∧
    Keeps (.rehashAbort m table) s [.lastAbort, .posted, .tbl, .twn] (regsAt [F.TBL_REHASH_CTRL.off, F.TBL_REHASH_STATUS.off])) ∧
  (∀ (s : State) (req : Fin 24) (pool : Fin 3),
    Keeps (.openPageTimeout req pool) s [.posted, .fresh, .buf] (windows [7])) ∧
  (∀ (s : State) (m : Master) (pool : Fin 3),
    Keeps (.bufAllocRead m pool) s [.latches, .lastRead, .lastAbort, .posted, .fresh, .buf] (windows [7])) ∧
  (∀ (s : State) (m : Master) (high : Word),
    Keeps (.bufFreeAddr m high) s [.stages, .lastAbort, .posted, .fresh, .buf] (windows [7])) ∧
  (∀ (s : State) (m : Master) (handle : Word),
    Keeps (.bufFreeHandle m handle) s [.lastAbort, .posted, .fresh, .buf] (windows [7])) ∧
  (∀ (s : State) (port : Fin 4) (width : BitVec 5) (rate : BitVec 7) (pages : Word) (supported : Bool),
    Keeps (.cxlLinkTrained port width rate pages supported) s [.posted, .fresh, .buf] (windows [7])) ∧
  (∀ (s : State) (port : Fin 4),
    Keeps (.cxlTrainTimeout port) s [] (regsAt [(F.BUF_CXL_STATUS.ix port.val).off]) ∧
    Keeps (.cxlTrainRetry port) s [.buf] (windows [7]) ∧
    Keeps (.cxlDrainComplete port) s [.posted] (regsAt [(F.BUF_CXL_STATUS.ix port.val).off]) ∧
    Keeps (.cxlLinkRetrained port) s [.buf] (windows [7])) ∧
  (∀ (s : State) (m : Master) (port : Fin 4),
    Keeps (.cxlEnable m port) s [.lastAbort, .posted, .fresh, .buf] (windows [7, 15]) ∧
    Keeps (.cxlDrain m port) s [.lastAbort, .posted, .fresh, .buf] (windows [7]) ∧
    Keeps (.cxlDisable m port) s [.lastAbort, .posted, .buf] (windows [7, 15])) ∧
  (∀ (s : State) (port : Fin 4) (surprise : Bool),
    Keeps (.cxlLinkFail port surprise) s [.posted, .fresh, .buf] (windows [7])) ∧
  (∀ (s : State),
    Keeps .readKey s [.lastRead, .lastAbort, .posted, .tbl, .twn, .dgn] (windows [6, 17]) ∧
    Keeps .insert s [.lastRead, .lastAbort, .posted, .tbl, .twn, .dgn] (windows [6, 17]) ∧
    Keeps .delete s [.lastRead, .lastAbort, .posted, .tbl, .twn, .dgn] (windows [6, 17]) ∧
    Keeps .readIndex s [.lastRead, .lastAbort, .posted, .tbl, .twn, .dgn] (windows [6, 17]) ∧
    Keeps .writeIndex s [.lastRead, .lastAbort, .posted, .tbl, .twn, .dgn] (windows [6, 17]) ∧
    Keeps .lpmInsert s [.lastRead, .lastAbort, .posted, .tbl, .twn, .dgn] (windows [6, 17]) ∧
    Keeps .lpmDelete s [.lastRead, .lastAbort, .posted, .tbl, .twn, .dgn] (windows [6, 17]) ∧
    Keeps .lpmRead s [.lastRead, .lastAbort, .posted, .tbl, .twn, .dgn] (windows [6, 17]) ∧
    Keeps .retire s [.lastRead, .lastAbort, .posted, .tbl, .twn, .dgn] (windows [6, 17]) ∧
    Keeps .learnApply s [.posted, .tbl, .twn] (windows [6]) ∧
    Keeps .rehashCopy s [.posted, .tbl] (regsAt [F.TBL_REHASH_COPIED.off, F.TBL_REHASH_STATUS.off, F.TBL_RELOC_MOVES.off]) ∧
    Keeps .ageingSweep s [.posted, .tbl, .twn] (regsAt [F.TBL_AGE_EV_SUPPRESSED.off, F.TBL_AGE_REMOVED.off, F.TBL_REHASH_STATUS.off, F.TBL_RELOC_MOVES.off]) ∧
    Keeps .retireRelease s [.posted, .tbl] (regsAt [F.TBL_RETIRE_RELEASED.off])) ∧
  (∀ (s : State) (dma : Option (List Byte)),
    Keeps (.bulk dma) s [.lastRead, .lastAbort, .posted, .tbl, .twn, .dgn] (windows [6, 17])) ∧
  (∀ (s : State) (ok : Bool) (copied : Nat),
    KeepsHost (.snapshotCopyDone ok copied) s fun x => ∃ n, s.dev.tbl.snap = some n ∧
      inBytes n.addr (16 * if ok then n.count else min copied n.count) x)

/-- The frame of the queue, shaper and deck commands: whichever next state one of them answers, the commands that wait, the parts of the
device it does not name and the registers it does not name are as they were. A selection at the host root writes a packet and its descriptor
to host memory and nothing beside them. -/
def Obligations.QueueAndDeckFrames : Prop :=
  (∀ (s : State) (farErr : Fin 3),
    Keeps (.prefetch farErr) s [.posted, .fresh, .buf, .que, .dck] (windows [7])) ∧
  (∀ (s : State) (m : Master) (port : Port) (data : Word),
    Keeps (.quePortCfgWrite m port data) s [.lastAbort, .posted, .twn] (regsAt [(F.QUE_PORT_CFG.ix port.val).off])) ∧
  (∀ (s : State) (m : Master) (data : Word),
    Keeps (.nodePortWrite m data) s [.lastAbort, .posted, .twn] (regsAt [F.QUE_NODE_PORT.off]) ∧
    Keeps (.histRebind m data) s [.lastAbort, .posted] (windows [8]) ∧
    Keeps (.histClear m data) s [.lastAbort, .posted] (windows [8]) ∧
    Keeps (.elemBind m data) s [.lastAbort, .posted, .que, .shp] (regsAt [F.SHP_ELEM_PROFILE.off, F.SHP_LEVEL_CAPS.off]) ∧
    Keeps (.setSwitchWrite m data) s [.lastAbort, .posted, .shp] (regsAt [F.SHP_STATUS.off]) ∧
    Keeps (.mcGroupWrite m data) s [.lastAbort, .posted, .twn] (regsAt [F.DCK_MC_GROUP.off])) ∧
  (∀ (s : State) (m : Master),
    Keeps (.queAttach m) s [.lastAbort, .posted, .que, .twn] noRegs ∧
    Keeps (.queSwap m) s [.lastAbort, .posted, .que, .twn] noRegs ∧
    Keeps (.queDetach m) s [.lastAbort, .posted, .que, .twn] noRegs ∧
    Keeps (.flushQueue m) s [.lastAbort, .posted, .que, .twn] noRegs ∧
    Keeps (.flushAllVoqs m) s [.lastAbort, .posted, .que, .twn] noRegs ∧
    Keeps (.mcCounterClr m) s [.lastAbort, .posted] (windows [11])) ∧
  (∀ (s : State) (m : Master) (port : Port),
    Keeps (.flushPort m port) s [.lastAbort, .posted, .que, .twn] noRegs) ∧
  (∀ (s : State) (m : Master) (high : Word),
    Keeps (.clEntryWrite m high) s [.stages, .lastAbort, .posted, .twn] (regsAt [F.DCK_CL_ENTRY.off])) ∧
  (∀ (s : State) (more : Fin 16),
    Keeps (.enqueue more) s [.posted, .fresh, .lpt, .buf, .que, .dck] (windows [4, 7, 8, 11, 14])) ∧
  (∀ (s : State),
    Keeps .flushProgress s [.posted, .fresh, .lpt, .buf, .que, .dck] (windows [4, 7, 8, 11, 14]) ∧
    Keeps .tokenRefresh s [.que, .shp] noRegs ∧
    Keeps .setSwitch s [.posted, .que, .shp] (windows [9]) ∧
    Keeps .deckSlot s [.posted, .fresh, .lpt, .buf, .que, .dck, .twn] (windows [4, 7, 8, 11, 12, 14]) ∧
    Keeps .replicationCopy s [.posted, .fresh, .lpt, .buf, .que, .dck] (windows [4, 7, 8, 11, 14])) ∧
  (∀ (s : State) (octet : Option (Fin 16)) (descriptor : BitVec 256) (farErr : Fin 3) (disabled : Bool),
    Keeps (.schedulerSelection octet descriptor farErr disabled) s [.posted, .hostMem, .fresh, .tim, .lpt, .pir, .buf, .que, .shp, .dck, .hst] (windows [2, 4, 7, 8, 9, 14])) ∧
  (∀ (s : State) (octet : Fin 16) (descriptor : BitVec 256) (farErr : Fin 3) (disabled : Bool),
    KeepsHost (.schedulerSelection (some octet) descriptor farErr disabled) s fun _ => False) ∧
  (∀ (s : State) (descriptor : BitVec 256) (farErr : Fin 3) (disabled : Bool), let d := s.dev.noteStates 128
    KeepsHost (.schedulerSelection none descriptor farErr disabled) s fun x => ∃ e pkt d1,
      d.selectAt 128 farErr.val (d.queuedPackets + 1) = (.packet e pkt, d1) ∧ disabled = false ∧
      (inBytes (byteField descriptor 0 8) (byteField descriptor 8 2) x ∨ inBytes (d1.pqPlace (e - 393152) + 10) 22 x))

/-- The frame of the fabric and twin commands: whichever next state one of them answers, the commands that wait, the parts of the device it
does not name and the registers it does not name are as they were. -/
def Obligations.FabricAndTwinFrames : Prop :=
  (∀ (s : State) (lane : Fin 160),
    Keeps (.fabLaneLock lane) s [.fab] noRegs ∧
    Keeps (.fabLaneLockLoss lane) s [.fab] noRegs) ∧
  (∀ (s : State) (link : Fin 40),
    Keeps (.fabricLinkUp link) s [.posted, .fresh, .tim, .lpt, .buf, .que, .fab, .dck, .twn] (windows [2, 4, 7, 8, 10, 14])) ∧
  (∀ (s : State) (link : Fin 40) (cause : BitVec 4),
    Keeps (.fabricLinkDown link cause) s [.posted, .fab, .twn] (windows [10])) ∧
  (∀ (s : State) (m : Master) (en : Bool),
    Keeps (.fabEnableWrite m en) s [.lastAbort, .posted, .fab, .twn] (windows [10]) ∧
    Keeps (.twinEnable m en) s [.lastAbort, .posted] (regsAt [F.TWN_CTRL.off])) ∧
  (∀ (s : State) (m : Master),
    Keeps (.fabRestart m) s [.lastAbort, .posted, .fab, .twn] (windows [10]) ∧
    Keeps (.takeoverRequest m) s [.lastAbort, .twn] (regsAt [F.FAB_PAIR_CTRL.off]) ∧
    Keeps (.twnDemote m) s [.mode, .lastAbort, .posted, .tim, .img, .que, .twn] (windows [3, 10, 12, 17]) ∧
    Keeps (.twnResync m) s [.mode, .lastAbort, .posted, .tim, .img, .que, .twn] (windows [3, 10, 12, 17]) ∧
    Keeps (.twnForcePromote m) s [.mode, .lastAbort, .posted, .tim, .img, .pir, .tbl, .que, .twn] (windows [3, 10, 12, 17]) ∧
    Keeps (.twnRelease m) s [.mode, .lastAbort, .posted, .tim, .img, .que, .twn] (windows [3, 10, 12, 17]) ∧
    Keeps (.twnReactivate m) s [.mode, .lastAbort, .posted, .tim, .img, .que, .twn] (windows [3, 10, 12, 17])) ∧
  (∀ (s : State) (lane : Fin 160) (fate : CellFate) (cell : BitVec 2048),
    Keeps (.controlDownRx lane fate cell) s [.mode, .posted, .tim, .img, .que, .fab, .twn] (windows [3, 8, 10, 12, 17])) ∧
  (∀ (s : State) (slot : Fin 100),
    Keeps (.cellSend slot) s [.fab] (regsAt [F.FAB_CELLS_TX.off, F.FAB_GRANT_WASTED.off])) ∧
  (∀ (s : State) (lane : Fin 160) (slot : Fin 100) (fate : CellFate) (cell : BitVec 2048),
    Keeps (.dataCellRx lane slot fate cell) s [.posted, .tim, .fab, .dck] (windows [2, 8, 10, 14])) ∧
  (∀ (s : State) (node : BitVec 10) (tc : Fin 8),
    Keeps (.reasmTimeout node tc) s [.posted, .tim, .fab, .dck] (windows [2, 8, 10, 14]) ∧
    Keeps (.reasmStale node tc) s [.posted, .fab] (windows [10, 14])) ∧
  (∀ (s : State) (frame : BitVec 4096),
    Keeps (.heartbeatRx frame) s [.mode, .posted, .tim, .img, .que, .twn] (windows [3, 10, 12, 17]) ∧
    Keeps (.mirrorFrameRx frame) s [.mode, .posted, .tim, .img, .que, .twn] (windows [3, 10, 12, 17]) ∧
    Keeps (.digestRx frame) s [.mode, .posted, .tim, .img, .que, .twn] (windows [3, 10, 12, 17]) ∧
    Keeps (.realignRx frame) s [.twn] (regsAt [F.TWN_RALIN_CRC_ERR.off]) ∧
    Keeps (.verdictRx frame) s [.mode, .posted, .tim, .img, .que, .twn] (windows [3, 10, 12, 17]) ∧
    Keeps (.resyncCtrlRx frame) s [.mode, .posted, .tim, .img, .tbl, .que, .twn] (windows [3, 4, 6, 10, 12, 17]) ∧
    Keeps (.manifestRx frame) s [.twn] (regsAt [F.TWN_RALIN_CRC_ERR.off, F.TWN_RESYNC.off]) ∧
    Keeps (.segmentRx frame) s [.posted, .tim, .img, .pir, .tbl, .que, .twn, .dgn] (windows [2, 3, 5, 6, 8, 11, 12, 17])) ∧
  (∀ (s : State) (cause : Fin 8),
    Keeps (.mirrorFailure cause) s [.mode, .posted, .tim, .img, .que, .twn] (windows [3, 10, 12, 17]) ∧
    Keeps (.copyAbort cause) s [.mode, .posted, .tim, .img, .que, .twn] (windows [3, 10, 12, 17])) ∧
  (∀ (s : State) (port : Port),
    Keeps (.digestWindowClose port) s [.mode, .posted, .tim, .img, .que, .twn] (windows [3, 10, 12, 17]) ∧
    Keeps (.digestCompareTimeout port) s [.twn] noRegs) ∧
  (∀ (s : State) (bit : Fin 32),
    Keeps (.evidenceExpiry bit) s [] (regsAt [F.TWN_EVIDENCE.off])) ∧
  (∀ (s : State),
    Keeps .spanStart s [.posted, .tim, .img, .lpt, .pir, .tbl, .que, .fab, .twn, .hst, .pwr, .dgn] (windows [3, 4, 12, 14, 17]) ∧
    Keeps .controlUpSend s [.fab] noRegs ∧
    Keeps .cellStaging s [.posted, .fresh, .tim, .lpt, .buf, .que, .fab, .dck] (windows [2, 4, 7, 8, 10, 14]) ∧
    Keeps .heartbeatSend s [.twn] noRegs ∧
    Keeps .heartbeatLoss s [.mode, .posted, .tim, .img, .que, .twn] (windows [3, 10, 12, 17]) ∧
    Keeps .mirrorRetransmit s [.twn] (regsAt [F.TWN_MIRROR_RETX.off]) ∧
    Keeps .verdictEvidenceTimeout s [.mode, .posted, .tim, .img, .que, .twn] (windows [3, 10, 12, 17]) ∧
    Keeps .verdictWaitTimeout s [.mode, .posted, .tim, .img, .que, .twn] (windows [3, 10, 12, 17]) ∧
    Keeps .takeoverTimeout s [.mode, .posted, .tim, .img, .que, .twn] (windows [3, 10, 12, 17]) ∧
    Keeps .twinIsolation s [.mode, .posted, .tim, .img, .que, .twn] (windows [3, 10, 12, 17]) ∧
    Keeps .resyncRequestSend s [.twn] noRegs ∧
    Keeps .segmentSend s [.posted, .twn, .dgn] (windows [17]) ∧
    Keeps .settleComplete s [.mode, .posted, .tim, .img, .que, .twn] (windows [3, 10, 12, 17])) ∧
  (∀ (s : State) (lane : Fin 8) (markers : List (BitVec 16)),
    Keeps (.ralinLaneLock lane markers) s [.twn] (regsAt [F.TWN_STATUS.off])) ∧
  (∀ (s : State) (lane : Fin 8) (first : Fin 25) (markers : List (BitVec 16)),
    Keeps (.ralinLaneLockLoss lane first markers) s [.twn] (regsAt [F.TWN_STATUS.off]))

/-- The frame of the control and host commands: whichever next state one of them answers, the commands that wait, the parts of the device it
does not name and the registers it does not name are as they were. An event is written to the place of its ring, a descriptor to its own. -/
def Obligations.ControlAndHostFrames : Prop :=
  (∀ (s : State) (pair : Fin 4),
    Keeps (.pairRestart pair) s [.posted, .ctl] (windows [13]) ∧
    Keeps (.pairCheckpoint pair) s [.ctl] (regsAt [(F.CTL_PAIR_CKPT.ix pair.val).off])) ∧
  (∀ (s : State) (server : Fin 6) (channel : Fin 64),
    Keeps (.serviceRequest server channel) s [.lastRead, .lastAbort, .posted, .fresh, .ctl, .hst] (windows [13])) ∧
  (∀ (s : State) (m : Master) (ch : Fin 64) (data : Word),
    Keeps (.mbxBindWrite m ch data) s [.lastAbort, .posted] (regsAt [(F.CTL_MBX_BIND.ix ch.val).off]) ∧
    Keeps (.mbxPost m ch data) s [.lastRead, .lastAbort, .posted, .ctl, .hst] (windows [13]) ∧
    Keeps (.mbxAck m ch data) s [.lastRead, .lastAbort, .posted, .ctl] noRegs) ∧
  (∀ (s : State) (m : Master),
    Keeps (.bindLockSet m) s [.lastAbort] (regsAt [F.CTL_BIND_LOCK.off])) ∧
  (∀ (s : State) (m : Master) (ch : Fin 64) (w : Fin 16) (data : Word),
    Keeps (.mbxDataWrite m ch w data) s [.lastRead, .lastAbort, .posted, .ctl] noRegs) ∧
  (∀ (s : State) (m : Master) (ch : Fin 64),
    Keeps (.mbxRxstatRead m ch) s [.lastRead, .lastAbort, .posted, .ctl] noRegs) ∧
  (∀ (s : State) (m : Master) (target : Fin 10) (data : Word),
    Keeps (.bellClear m target data) s [.lastAbort] (regsAt [(F.CTL_BELL.ix target.val).off]) ∧
    Keeps (.bellMaskWrite m target data) s [.lastAbort, .ctl, .hst] (regsAt [(F.CTL_BELL_MASK.ix target.val).off])) ∧
  (∀ (s : State) (readers : List Master) (lock : Fin 64),
    Keeps (.lockRead readers lock) s [.lastRead, .lastAbort, .ctl] (regsAt [F.CTL_LOCK_ACQUIRES.off, F.CTL_LOCK_CONTESTS.off])) ∧
  (∀ (s : State) (m : Master) (lock : Fin 64) (data : Word),
    Keeps (.lockWrite m lock data) s [.lastAbort, .posted, .ctl] noRegs) ∧
  (∀ (s : State) (width : BitVec 4) (rate : BitVec 7),
    Keeps (.pcieLinkUp width rate) s [.posted] (windows [14])) ∧
  (∀ (s : State) (m : Master) (queue : Fin 64) (tail : BitVec 16),
    Keeps (.pqTailWrite m queue tail) s [.lastAbort, .que] (regsAt [(F.HST_PQ_TAIL.ix queue.val).off])) ∧
  (∀ (s : State) (m : Master) (queue : Fin 16) (tail : BitVec 16),
    Keeps (.iqTailWrite m queue tail) s [.lastAbort, .posted] (regsAt [(F.HST_IQ_TAIL.ix queue.val).off])) ∧
  (∀ (s : State) (m : Master) (inject : Bool) (queue : Fin 64) (data : Word),
    Keeps (.queueEnableWrite m inject queue data) s [.lastAbort, .pir, .que, .hst] (regsAt [(F.HST_IQ_CFG.ix queue.val).off, (F.HST_IQ_HEAD.ix queue.val).off, (F.HST_PQ_CFG.ix queue.val).off, (F.HST_PQ_HEAD.ix queue.val).off])) ∧
  (∀ (s : State) (m : Master) (ring : Fin 16) (data : Word),
    Keeps (.evrEnableWrite m ring data) s [.lastAbort, .hst] (windows [14])) ∧
  (∀ (s : State) (traced : Option EventRec),
    Keeps (.eventPost traced) s [.posted, .hst] (windows [1, 14])) ∧
  (∀ (s : State) (ring : Fin 16),
    Keeps (.evrDmaError ring) s [.hst] (windows [14]) ∧
    Keeps (.evrInterrupt ring) s [.hst] noRegs) ∧
  (∀ (s : State) (address : BitVec 7),
    Keeps (.entdaa address) s [.hst] (regsAt [F.HST_I3C_STATUS.off])) ∧
  (∀ (s : State) (bytes : List Byte),
    Keeps (.i3cPrivateWrite bytes) s [.hst] noRegs) ∧
  (∀ (s : State) (count : Nat),
    Keeps (.i3cPrivateRead count) s [.hst] noRegs) ∧
  (∀ (s : State),
    Keeps .pcieLinkDown s [.posted] (windows [14]) ∧
    Keeps .eventWrite s [.hostMem, .hst] (windows [14]) ∧
    Keeps .blotterInterval s [.posted, .hst] noRegs ∧
    Keeps .telemetryExport s [.pir, .hst] (windows [14]) ∧
    Keeps .rstdaa s [.hst] (regsAt [F.HST_I3C_STATUS.off])) ∧
  (∀ (s : State) (queue : Fin 16) (descriptor : BitVec 256) (packet : Option (List Byte)),
    Keeps (.injectFetch queue descriptor packet) s [.posted, .hostMem, .pir, .hst] (windows [14])) ∧
  (∀ s : State,
    KeepsHost .eventWrite s fun x => ∃ q rest, s.dev.hst.engineQ = q :: rest ∧ inBytes (s.dev.ringPlace q.ring q.seq.toNat) 64 x) ∧
  (∀ (s : State) (queue : Fin 16) (descriptor : BitVec 256) (packet : Option (List Byte)),
    KeepsHost (.injectFetch queue descriptor packet) s (inBytes (s.dev.iqPlace queue.val + 10) 1))

/-- The frame of the power, security and diagnostics commands: whichever next state one of them answers, the commands that wait, the parts
of the device it does not name and the registers it does not name are as they were. A read of the flash writes its bytes to host memory and
nothing beside them. -/
def Obligations.PowerAndSecurityFrames : Prop :=
  (∀ (s : State) (pair : Fin 4),
    Keeps (.lockstepMismatch pair) s [.posted, .twn, .ctl] (windows [12, 13])) ∧
  (∀ (s : State) (domain : Fin 146),
    Keeps (.domainSwitch domain) s [.posted, .fab, .twn] (windows [10, 12, 15])) ∧
  (∀ (s : State) (monitor : Fin 16),
    Keeps (.railOor monitor) s [.posted, .pwr] noRegs) ∧
  (∀ (s : State) (reports : List RegReport),
    Keeps (.regulatorPoll reports) s [.posted, .pwr] (regsAt [F.PWR_PKG_POWER.off])) ∧
  (∀ (s : State) (pier : Pier),
    Keeps (.pierClockChange pier) s [.pwr] (regsAt [(F.PWR_PIER_FREQ.ix pier.val).off])) ∧
  (∀ (s : State) (eighths : List Int),
    Keeps (.tempReading eighths) s [.posted, .pwr] (windows [15])) ∧
  (∀ (s : State) (tamperLow : Bool) (readError : BitVec 3),
    Keeps (.bootComplete tamperLow readError) s [.mode, .posted, .fresh, .img, .lpt, .pir, .buf, .que, .fab, .twn, .ctl, .hst, .pwr, .sec] (windows [3, 7, 10, 11, 12, 13, 15, 16, 17])) ∧
  (∀ (s : State) (m : Master),
    Keeps (.fuseAdvance m) s [.lastAbort, .posted, .sec] (regsAt [F.SEC_FUSE_CMD.off]) ∧
    Keeps (.fuseJtagLock m) s [.lastAbort, .posted, .sec] (regsAt [F.SEC_FUSE_CMD.off]) ∧
    Keeps (.attestStart m) s [.lastAbort, .posted, .sec] (windows [16]) ∧
    Keeps (.flashRead m) s [.lastAbort, .posted, .sec, .dgn] (windows [16, 17]) ∧
    Keeps (.flashErase m) s [.lastAbort, .posted, .sec, .dgn] (windows [16, 17]) ∧
    Keeps (.flashProgram m) s [.lastAbort, .posted, .sec, .dgn] (windows [16, 17])) ∧
  (∀ (s : State) (m : Master) (slot : BitVec 4),
    Keeps (.fuseRevoke m slot) s [.lastAbort, .posted, .sec] (regsAt [F.SEC_FUSE_CMD.off])) ∧
  (∀ (s : State) (m : Master) (unit : Fin 8) (data : Word),
    Keeps (.cuArm m unit data) s [.lastAbort, .posted, .dgn] (regsAt [(F.DGN_CU_CTRL.ix unit.val).off, (F.DGN_CU_STATUS.ix unit.val).off])) ∧
  (∀ (s : State) (unit : Fin 8) (bytes : List Byte) (complete : Bool),
    Keeps (.cuStreamEnd unit bytes complete) s [.lastRead, .lastAbort, .posted, .fresh, .img, .tbl, .twn, .sec] (windows [3, 6, 16, 17])) ∧
  (∀ (s : State) (error : Option PatrolError),
    Keeps (.patrolRead error) s [.posted, .fresh, .tim, .img, .lpt, .pir, .tbl, .que, .fab, .twn, .ctl, .pwr, .dgn] (windows [3, 4, 5, 6, 12, 13, 14, 17])) ∧
  (∀ (s : State) (m : Master) (data : Word),
    Keeps (.bistStart m data) s [.lastAbort, .posted, .dgn] (windows [3, 17]) ∧
    Keeps (.recalStart m data) s [.lastAbort, .posted, .dgn] (regsAt [F.DGN_RECAL_CMD.off]) ∧
    Keeps (.cwTestEnable m data) s [.lastAbort, .posted, .fresh, .dgn] (windows [17]) ∧
    Keeps (.maintTestStart m data) s [.lastAbort, .posted, .fresh, .pir, .tbl, .dgn] (windows [3, 17])) ∧
  (∀ (s : State) (pass : Bool),
    Keeps (.bistDone pass) s [.posted, .fresh, .img, .lpt, .pir, .tbl, .que, .fab, .twn, .pwr, .dgn] (windows [3, 4, 12, 14, 17])) ∧
  (∀ (s : State) (fromFe : Bool) (kind : CausewayKind),
    Keeps (.causewayError fromFe kind) s [.posted, .fresh, .twn, .dgn] (windows [12, 17])) ∧
  (∀ (s : State) (pass : BitVec 8),
    Keeps (.maintTestDone pass) s [.posted, .fresh, .pir, .tbl, .dgn] (windows [17])) ∧
  (∀ (s : State) (millivolts : List Nat),
    Keeps (.railReading millivolts) s [.pwr] (windows [15])) ∧
  (∀ (s : State),
    Keeps .railBelowWarning s [.pwr] (regsAt [F.PWR_STATUS.off]) ∧
    Keeps .railClear s [.pwr] (regsAt [F.PWR_STATUS.off]) ∧
    Keeps .shedStepEnter s [.mode, .posted, .tim, .img, .lpt, .que, .fab, .twn] (windows [3, 4, 10, 12, 15, 17]) ∧
    Keeps .shedStepLift s [.posted, .tim, .img, .lpt, .pir, .tbl, .que, .fab, .twn, .pwr, .dgn] (windows [3, 4, 14, 15, 17]) ∧
    Keeps .fuseOpDone s [.posted, .sec] (regsAt [F.SEC_FUSE_CMD.off]) ∧
    Keeps .attestDone s [.posted, .sec] (windows [16]) ∧
    Keeps .tamperAssert s [.mode, .posted, .fresh, .img, .lpt, .pir, .que, .fab, .twn, .hst] (windows [3, 10, 11, 12, 13, 16, 17]) ∧
    Keeps .recalDone s [.posted, .dgn] noRegs ∧
    Keeps .railNeitherWarningNorClear s [.pwr] (regsAt [F.PWR_STATUS.off])) ∧
  (∀ (s : State) (dma : Option (List Byte)),
    Keeps (.flashOpDone dma) s [.posted, .hostMem, .fresh, .sec] (windows [16, 17])) ∧
  (∀ (s : State) (dma : Option (List Byte)),
    KeepsHost (.flashOpDone dma) s fun x => ∃ op, s.dev.sec.flashOp = some op ∧ op.cmd = 1 ∧ inBytes op.host op.len x)

/-! ### The whole block -/

/-- A step takes the command at the front of the queue: it is that command's effect on the device with the rest of the queue. Every command
of the table completes: in every state and with every operand it answers a next state, in which the commands that wait are those that
waited; a command that the spec refuses or ignores is one whose effect is that (the model's choice: log 3, DESIGN CHOICE). With an empty
queue a slot of the span (R30) passes and changes no register, event or mode (the model's choice: log 2, DESIGN CHOICE). -/
def Obligations.StepRunsFrontCommand : Prop :=
  (∀ (s : State) (c : Instr) (rest : List Instr), step { s with pending := c :: rest } = exec c { s with pending := rest }) ∧
  (∀ (s : State) (c : Instr), ∃ d : Dev, exec c s = .next { s with dev := d }) ∧
  (∀ s : State, s.pending = [] → ∃ t, step s = .next t ∧ t.pending = [] ∧ t.dev.regs = s.dev.regs ∧ t.dev.posted = s.dev.posted ∧
    t.dev.mode = s.dev.mode ∧ t.dev.tim.slot = (if s.dev.stcHeld = true ∨ 99 ≤ s.dev.tim.slot then s.dev.tim.slot else s.dev.tim.slot + 1))

/-- Right after reset the device is in M1, unlocked at span 0 with nothing booted, no image live, no shed step and no fuse operation or
queue of commands (R19, R21, R22, R421); the mode registers and GLB_ID (R2) show what their headings give, for ordering code VY9640-A1-F.
That no event is posted, no timed action armed and no fuse operation under way is the model's choice where the spec gives no value (log 5,
DESIGN CHOICE). -/
def Obligations.ResetState : Prop :=
  State.reset.pending = [] ∧ State.reset.dev.mode = .m1 ∧ State.reset.dev.glbMode = 1 ∧
  (∀ m : Master, State.reset.dev.reads m.val F.GLB_ID.off = true → Completes (.rcRead m (BitVec.ofNat 29 F.GLB_ID.off)) State.reset fun d =>
    d.lastRead = 0x964000A1) ∧ State.reset.dev.modeFlags = 0x10000002 ∧
  State.reset.dev.tim.span = 0 ∧ State.reset.dev.locked = false ∧ State.reset.dev.rd F.SEC_BOOT_STATUS_PHASE = 0 ∧
  State.reset.dev.on F.IMG_STATUS_LIVE_VALID = false ∧ State.reset.dev.shed = 0 ∧ State.reset.dev.on F.GLB_LOCK_LOCK = false ∧
  State.reset.dev.twinOn = false ∧ State.reset.dev.posted = [] ∧ State.reset.dev.sec.fuseOp = none ∧ State.reset.dev.tim.entries = [] ∧
  (∀ p : Fin 4, State.reset.dev.pairState p.val = 0)

/-- The state after reset meets the invariant: its stores are in the canonical form, which is the model's choice for every store of the
device (logs 6, 7, 8 and 9, DESIGN CHOICE); the spec names no form of a store. -/
def Obligations.ResetMeetsInvariant : Prop :=
  Inv State.reset

/-- Every step keeps the registers, the host memory, the flash, the timed-action entries and the table memory in their canonical form, in
which equal contents are equal data. The form is the model's choice (logs 6, 7, 8 and 9, DESIGN CHOICE); the spec names none. -/
def Obligations.StepKeepsInvariant : Prop :=
  ∀ s t : State, Inv s → step s = .next t → Inv t

/-- Quarantine is left only by a power-on or system reset from PORST_N, SYSRST_N, a core rail at its reset level or a thermal trip, and
maintenance mode only by those and to Quarantine; reset is left only by a release. A write of SYS_RESET by the host in M10 or M11 is refused
and changes no register (R22, R437). -/
def Obligations.QuarantineLeftByResetsAlone : Prop :=
  (∀ s t : State, step s = .next t → s.dev.mode = .m11 → t.dev.mode ≠ .m11 → ∃ c rest, s.pending = c :: rest ∧ resetsDevice c) ∧
  (∀ s t : State, step s = .next t → s.dev.mode = .m10 → t.dev.mode ≠ .m10 → t.dev.mode ≠ .m11 →
    ∃ c rest, s.pending = c :: rest ∧ resetsDevice c) ∧
  (∀ s t : State, step s = .next t → s.dev.mode = .m0 → t.dev.mode ≠ .m0 → ∃ c rest, s.pending = c :: rest ∧ releasesDevice c) ∧
  (∀ (s : State) (m : Master), s.dev.mode = .m10 ∨ s.dev.mode = .m11 → s.dev.writes m.val F.SEC_CTRL.off = true → m.val = 6 →
    ∃ t, exec (.secSysReset m) s = .next t ∧ t.dev.mode = s.dev.mode ∧ t.dev.regs = s.dev.regs ∧ Posts s.dev t.dev [Ev.SEC_CMD_REFUSED])

/-- TIM_CTRL.SRC is written only in M2, and only to 0 on a device without the SELF_TIMED strap, and never to the reserved value 3; any other
write of it is ignored, and only ends without an abort (R34). -/
def Obligations.SourceWrittenOnlyInM2 : Prop :=
  ∀ (s : State) (m : Master), s.dev.writes m.val F.TIM_CTRL.off = true →
    (∀ src : BitVec 2, s.dev.mode ≠ .m2 → Completes (.srcSelect m src) s fun d => d = s.dev.noAbort) ∧
    (∀ src : BitVec 2, s.dev.on F.GLB_STRAP_SELF_TIMED = false → src ≠ 0 → Completes (.srcSelect m src) s fun d => d = s.dev.noAbort) ∧
    (∀ src : BitVec 2, src = 3 → Completes (.srcSelect m src) s fun d => d = s.dev.noAbort) ∧
    (∀ src : BitVec 2, s.dev.mode = .m2 → src = 0 ∨ (s.dev.on F.GLB_STRAP_SELF_TIMED = true ∧ src ≠ 3) →
      Completes (.srcSelect m src) s fun d => d.rd F.TIM_CTRL_SRC = src.toNat)

/-- No access by one master changes another master's latch or staging of a 64-bit register: whatever register the master reads or writes, in
whole or by halves, in its own window or in the broadcast window, every other master's latched high half and staged low half are as they
were (R8); but a write of SEC_CTRL that resets the system leaves no half of any master (R437). -/
def Obligations.HalvesAreEachMastersOwn : Prop :=
  (∀ (s t : State) (m other : Master) (off : Offset) (data : Word) (n : Fin 3) (b : BitVec 20) (w : TaStage) (v : BitVec 64) (o : Nat),
    other ≠ m → o < 0x20000000 →
    exec (.reg64LowRead m off) s = .next t ∨ exec (.rcRead m off) s = .next t ∨ exec (.reg64LowWrite m off data) s = .next t ∨
      exec (.reg64HighWrite m off data) s = .next t ∨ exec (.bufAllocRead m n) s = .next t ∨ exec (.bufFreeAddr m data) s = .next t ∨
      exec (.clEntryWrite m data) s = .next t ∨ exec (.broadcastWrite m b data) s = .next t ∨ exec (.taStageWrite m w v) s = .next t ∨
      (exec (.registerWrite m off data) s = .next t ∧ off.toNat ≠ F.SEC_CTRL.off) →
    t.dev.latches.get (fun _ => none) (halfKey other.val o) = s.dev.latches.get (fun _ => none) (halfKey other.val o) ∧
    t.dev.stages.get (fun _ => none) (halfKey other.val o) = s.dev.stages.get (fun _ => none) (halfKey other.val o)) ∧
  (∀ (s t : State) (m : Master) (data : Word), exec (.registerWrite m (BitVec.ofNat 29 F.SEC_CTRL.off) data) s = .next t →
    (t.dev.latches = s.dev.latches ∧ t.dev.stages = s.dev.stages) ∨
    (t.dev.mode = .m0 ∧ t.dev.latches = [] ∧ t.dev.stages = []))
end

