-- ==== Sys2Proof/Laws/Exec.lean ====
section
/-! SUPPORT. What every command and every step do: they answer a next state, and a command leaves the waiting commands as they were. -/

namespace Sys2Proof.Machine

/-- Every command answers a next state, with the commands that wait unchanged. -/
theorem exec_next (i : Instr) (s : State) : ∃ d : Dev, exec i s = .next { s with dev := d } := by
  cases i <;> exact ⟨_, rfl⟩

/-- Every step answers a next state. -/
theorem step_next (s : State) : ∃ t, step s = .next t := by
  unfold step
  split
  · exact ⟨_, rfl⟩
  · obtain ⟨_, h⟩ := exec_next _ _
    exact ⟨_, h⟩

/-- A command answers one next state at most. -/
theorem exec_next_unique {i : Instr} {s t u : State} (h : exec i s = .next t) (h' : exec i s = .next u) : t = u :=
  Host.Outcome.next.inj (h.symm.trans h')

end Sys2Proof.Machine
end

