-- ==== Sys2Proof/Laws/SMap.lean ====
section
/-! SUPPORT. The laws of sparse tables: a read after a write, and that every operation keeps the canonical form. -/

namespace Sys2Proof.Machine.SMap

variable {α : Type}

theorem get_put_same (dflt : Nat → α) (m : SMap α) (k : Nat) (v : α) : get dflt (put m k v) k = v := by
  induction m with
  | nil => simp [put, get]
  | cons p t ih =>
    obtain ⟨j, w⟩ := p
    unfold put
    split
    · simp [get]
    · split
      · simp [get]
      · rename_i h; simp [get, Ne.symm h, ih]

theorem get_put_ne (dflt : Nat → α) (m : SMap α) {k j : Nat} (v : α) (h : k ≠ j) :
    get dflt (put m k v) j = get dflt m j := by
  induction m with
  | nil => simp [put, get, h]
  | cons p t ih =>
    obtain ⟨i, w⟩ := p
    unfold put
    split
    · simp [get, h]
    · split
      · subst_vars; simp [get, h]
      · simp [get, ih]

theorem get_del_same (dflt : Nat → α) (m : SMap α) (k : Nat) : get dflt (del m k) k = dflt k := by
  induction m with
  | nil => rfl
  | cons p t ih =>
    obtain ⟨j, w⟩ := p
    by_cases h : j = k <;> simp_all [del, get]

theorem get_del_ne (dflt : Nat → α) (m : SMap α) {k j : Nat} (h : k ≠ j) : get dflt (del m k) j = get dflt m j := by
  induction m with
  | nil => rfl
  | cons p t ih =>
    obtain ⟨i, w⟩ := p
    by_cases hi : i = k
    · subst hi; simp_all [del, get]
    · by_cases hj : i = j <;> simp_all [del, get]

/-- A read of the key just written. -/
@[simp] theorem get_set_same [DecidableEq α] (dflt : Nat → α) (m : SMap α) (k : Nat) (v : α) :
    get dflt (set dflt m k v) k = v := by
  unfold set
  split
  · rename_i h; rw [get_del_same, h]
  · exact get_put_same ..

/-- A write leaves every other key alone. -/
theorem get_set_ne [DecidableEq α] (dflt : Nat → α) (m : SMap α) {k j : Nat} (v : α) (h : k ≠ j) :
    get dflt (set dflt m k v) j = get dflt m j := by
  unfold set
  split
  · exact get_del_ne _ _ h
  · exact get_put_ne _ _ _ h

/-- Every read after a write. -/
theorem get_set [DecidableEq α] (dflt : Nat → α) (m : SMap α) (k j : Nat) (v : α) :
    get dflt (set dflt m k v) j = if k = j then v else get dflt m j := by
  split
  · subst_vars; simp
  · exact get_set_ne _ _ _ ‹_›

theorem risingFrom_mono {lo lo' : Nat} (m : SMap α) (h : lo' ≤ lo) (hm : risingFrom lo m = true) :
    risingFrom lo' m = true := by
  cases m with
  | nil => rfl
  | cons p t => obtain ⟨j, w⟩ := p; simp [risingFrom] at *; exact ⟨by omega, hm.2⟩

theorem risingFrom_put (m : SMap α) (lo k : Nat) (v : α) (hk : lo ≤ k) (h : risingFrom lo m = true) :
    risingFrom lo (put m k v) = true := by
  induction m generalizing lo with
  | nil => simp [put, risingFrom, hk]
  | cons p t ih =>
    obtain ⟨j, w⟩ := p
    simp [risingFrom] at h
    unfold put
    split
    · rename_i hj; simp [risingFrom, hk, h.2]; omega
    · split
      · subst_vars; simp [risingFrom, h]
      · simp [risingFrom, h.1]; exact ih _ (by omega) h.2

theorem risingFrom_del (m : SMap α) (lo k : Nat) (h : risingFrom lo m = true) : risingFrom lo (del m k) = true := by
  induction m generalizing lo with
  | nil => rfl
  | cons p t ih =>
    obtain ⟨j, w⟩ := p
    simp [risingFrom] at h
    by_cases hj : j = k
    · simp only [del, List.filter, hj, bne_self_eq_false]
      exact risingFrom_mono (lo := j + 1) _ (by omega) (ih _ h.2)
    · have : (j != k) = true := by simp [hj]
      simp only [del, List.filter, this, risingFrom, Bool.and_eq_true, decide_eq_true_eq]
      exact ⟨h.1, ih _ h.2⟩

theorem mem_put (m : SMap α) (k : Nat) (v : α) (p : Nat × α) (h : p ∈ put m k v) : p = (k, v) ∨ p ∈ m := by
  induction m with
  | nil => simpa [put] using h
  | cons q t ih =>
    obtain ⟨j, w⟩ := q
    unfold put at h
    split at h
    · simpa using h
    · split at h
      · simp at h; rcases h with h | h <;> simp [h]
      · simp at h ⊢
        rcases h with h | h
        · exact .inr (.inl h)
        · rcases ih h with h | h <;> simp [h]

/-- A write keeps the canonical form. -/
theorem wf_set [DecidableEq α] (dflt : Nat → α) (m : SMap α) (k : Nat) (v : α) (h : wf dflt m = true) :
    wf dflt (set dflt m k v) = true := by
  simp only [wf, Bool.and_eq_true, List.all_eq_true, decide_eq_true_eq] at h ⊢
  unfold set
  split
  · exact ⟨risingFrom_del _ _ _ h.1, fun p hp => h.2 p (List.mem_filter.mp hp).1⟩
  · rename_i hv
    refine ⟨risingFrom_put _ _ _ _ (Nat.zero_le _) h.1, fun p hp => ?_⟩
    rcases mem_put _ _ _ _ hp with rfl | hp
    · exact hv
    · exact h.2 p hp

/-- A change of a value keeps the canonical form. -/
theorem wf_upd [DecidableEq α] (dflt : Nat → α) (m : SMap α) (k : Nat) (f : α → α) (h : wf dflt m = true) :
    wf dflt (upd dflt m k f) = true := wf_set _ _ _ _ h

/-- Unlisting a key keeps the canonical form. -/
theorem wf_del [DecidableEq α] (dflt : Nat → α) (m : SMap α) (k : Nat) (h : wf dflt m = true) :
    wf dflt (del m k) = true := by
  simp only [wf, Bool.and_eq_true, List.all_eq_true, decide_eq_true_eq] at h ⊢
  exact ⟨risingFrom_del _ _ _ h.1, fun p hp => h.2 p (List.mem_filter.mp hp).1⟩

/-- The empty table is canonical. -/
theorem wf_nil [DecidableEq α] (dflt : Nat → α) : wf dflt [] = true := rfl

end Sys2Proof.Machine.SMap
end

