-- ==== Sys2Proof/Laws/State.lean ====
section
/-! SUPPORT. What each shared update of the device leaves as it was: one lemma for each field, so that no proof unfolds a
record update. -/

namespace Sys2Proof.Machine

/-! ### setReg -/

@[simp] theorem Dev.setReg_mode (d : Dev) (k : Nat) (v : BitVec 64) : (d.setReg k v).mode = d.mode := rfl
@[simp] theorem Dev.setReg_latches (d : Dev) (k : Nat) (v : BitVec 64) : (d.setReg k v).latches = d.latches := rfl
@[simp] theorem Dev.setReg_stages (d : Dev) (k : Nat) (v : BitVec 64) : (d.setReg k v).stages = d.stages := rfl
@[simp] theorem Dev.setReg_lastRead (d : Dev) (k : Nat) (v : BitVec 64) : (d.setReg k v).lastRead = d.lastRead := rfl
@[simp] theorem Dev.setReg_lastAbort (d : Dev) (k : Nat) (v : BitVec 64) : (d.setReg k v).lastAbort = d.lastAbort := rfl
@[simp] theorem Dev.setReg_posted (d : Dev) (k : Nat) (v : BitVec 64) : (d.setReg k v).posted = d.posted := rfl
@[simp] theorem Dev.setReg_hostMem (d : Dev) (k : Nat) (v : BitVec 64) : (d.setReg k v).hostMem = d.hostMem := rfl
@[simp] theorem Dev.setReg_fresh (d : Dev) (k : Nat) (v : BitVec 64) : (d.setReg k v).fresh = d.fresh := rfl
@[simp] theorem Dev.setReg_tim (d : Dev) (k : Nat) (v : BitVec 64) : (d.setReg k v).tim = d.tim := rfl
@[simp] theorem Dev.setReg_img (d : Dev) (k : Nat) (v : BitVec 64) : (d.setReg k v).img = d.img := rfl
@[simp] theorem Dev.setReg_lpt (d : Dev) (k : Nat) (v : BitVec 64) : (d.setReg k v).lpt = d.lpt := rfl
@[simp] theorem Dev.setReg_pir (d : Dev) (k : Nat) (v : BitVec 64) : (d.setReg k v).pir = d.pir := rfl
@[simp] theorem Dev.setReg_tbl (d : Dev) (k : Nat) (v : BitVec 64) : (d.setReg k v).tbl = d.tbl := rfl
@[simp] theorem Dev.setReg_buf (d : Dev) (k : Nat) (v : BitVec 64) : (d.setReg k v).buf = d.buf := rfl
@[simp] theorem Dev.setReg_que (d : Dev) (k : Nat) (v : BitVec 64) : (d.setReg k v).que = d.que := rfl
@[simp] theorem Dev.setReg_shp (d : Dev) (k : Nat) (v : BitVec 64) : (d.setReg k v).shp = d.shp := rfl
@[simp] theorem Dev.setReg_fab (d : Dev) (k : Nat) (v : BitVec 64) : (d.setReg k v).fab = d.fab := rfl
@[simp] theorem Dev.setReg_dck (d : Dev) (k : Nat) (v : BitVec 64) : (d.setReg k v).dck = d.dck := rfl
@[simp] theorem Dev.setReg_twn (d : Dev) (k : Nat) (v : BitVec 64) : (d.setReg k v).twn = d.twn := rfl
@[simp] theorem Dev.setReg_ctl (d : Dev) (k : Nat) (v : BitVec 64) : (d.setReg k v).ctl = d.ctl := rfl
@[simp] theorem Dev.setReg_hst (d : Dev) (k : Nat) (v : BitVec 64) : (d.setReg k v).hst = d.hst := rfl
@[simp] theorem Dev.setReg_pwr (d : Dev) (k : Nat) (v : BitVec 64) : (d.setReg k v).pwr = d.pwr := rfl
@[simp] theorem Dev.setReg_sec (d : Dev) (k : Nat) (v : BitVec 64) : (d.setReg k v).sec = d.sec := rfl
@[simp] theorem Dev.setReg_dgn (d : Dev) (k : Nat) (v : BitVec 64) : (d.setReg k v).dgn = d.dgn := rfl

/-! ### wr -/

@[simp] theorem Dev.wr_mode (d : Dev) (f : Fld) (x : Nat) : (d.wr f x).mode = d.mode := rfl
@[simp] theorem Dev.wr_latches (d : Dev) (f : Fld) (x : Nat) : (d.wr f x).latches = d.latches := rfl
@[simp] theorem Dev.wr_stages (d : Dev) (f : Fld) (x : Nat) : (d.wr f x).stages = d.stages := rfl
@[simp] theorem Dev.wr_lastRead (d : Dev) (f : Fld) (x : Nat) : (d.wr f x).lastRead = d.lastRead := rfl
@[simp] theorem Dev.wr_lastAbort (d : Dev) (f : Fld) (x : Nat) : (d.wr f x).lastAbort = d.lastAbort := rfl
@[simp] theorem Dev.wr_posted (d : Dev) (f : Fld) (x : Nat) : (d.wr f x).posted = d.posted := rfl
@[simp] theorem Dev.wr_hostMem (d : Dev) (f : Fld) (x : Nat) : (d.wr f x).hostMem = d.hostMem := rfl
@[simp] theorem Dev.wr_fresh (d : Dev) (f : Fld) (x : Nat) : (d.wr f x).fresh = d.fresh := rfl
@[simp] theorem Dev.wr_tim (d : Dev) (f : Fld) (x : Nat) : (d.wr f x).tim = d.tim := rfl
@[simp] theorem Dev.wr_img (d : Dev) (f : Fld) (x : Nat) : (d.wr f x).img = d.img := rfl
@[simp] theorem Dev.wr_lpt (d : Dev) (f : Fld) (x : Nat) : (d.wr f x).lpt = d.lpt := rfl
@[simp] theorem Dev.wr_pir (d : Dev) (f : Fld) (x : Nat) : (d.wr f x).pir = d.pir := rfl
@[simp] theorem Dev.wr_tbl (d : Dev) (f : Fld) (x : Nat) : (d.wr f x).tbl = d.tbl := rfl
@[simp] theorem Dev.wr_buf (d : Dev) (f : Fld) (x : Nat) : (d.wr f x).buf = d.buf := rfl
@[simp] theorem Dev.wr_que (d : Dev) (f : Fld) (x : Nat) : (d.wr f x).que = d.que := rfl
@[simp] theorem Dev.wr_shp (d : Dev) (f : Fld) (x : Nat) : (d.wr f x).shp = d.shp := rfl
@[simp] theorem Dev.wr_fab (d : Dev) (f : Fld) (x : Nat) : (d.wr f x).fab = d.fab := rfl
@[simp] theorem Dev.wr_dck (d : Dev) (f : Fld) (x : Nat) : (d.wr f x).dck = d.dck := rfl
@[simp] theorem Dev.wr_twn (d : Dev) (f : Fld) (x : Nat) : (d.wr f x).twn = d.twn := rfl
@[simp] theorem Dev.wr_ctl (d : Dev) (f : Fld) (x : Nat) : (d.wr f x).ctl = d.ctl := rfl
@[simp] theorem Dev.wr_hst (d : Dev) (f : Fld) (x : Nat) : (d.wr f x).hst = d.hst := rfl
@[simp] theorem Dev.wr_pwr (d : Dev) (f : Fld) (x : Nat) : (d.wr f x).pwr = d.pwr := rfl
@[simp] theorem Dev.wr_sec (d : Dev) (f : Fld) (x : Nat) : (d.wr f x).sec = d.sec := rfl
@[simp] theorem Dev.wr_dgn (d : Dev) (f : Fld) (x : Nat) : (d.wr f x).dgn = d.dgn := rfl

/-! ### wrIx -/

@[simp] theorem Dev.wrIx_mode (d : Dev) (f : Fld) (n i x : Nat) : (d.wrIx f n i x).mode = d.mode := by unfold Dev.wrIx; split <;> rfl
@[simp] theorem Dev.wrIx_latches (d : Dev) (f : Fld) (n i x : Nat) : (d.wrIx f n i x).latches = d.latches := by unfold Dev.wrIx; split <;> rfl
@[simp] theorem Dev.wrIx_stages (d : Dev) (f : Fld) (n i x : Nat) : (d.wrIx f n i x).stages = d.stages := by unfold Dev.wrIx; split <;> rfl
@[simp] theorem Dev.wrIx_lastRead (d : Dev) (f : Fld) (n i x : Nat) : (d.wrIx f n i x).lastRead = d.lastRead := by unfold Dev.wrIx; split <;> rfl
@[simp] theorem Dev.wrIx_lastAbort (d : Dev) (f : Fld) (n i x : Nat) : (d.wrIx f n i x).lastAbort = d.lastAbort := by unfold Dev.wrIx; split <;> rfl
@[simp] theorem Dev.wrIx_posted (d : Dev) (f : Fld) (n i x : Nat) : (d.wrIx f n i x).posted = d.posted := by unfold Dev.wrIx; split <;> rfl
@[simp] theorem Dev.wrIx_hostMem (d : Dev) (f : Fld) (n i x : Nat) : (d.wrIx f n i x).hostMem = d.hostMem := by unfold Dev.wrIx; split <;> rfl
@[simp] theorem Dev.wrIx_fresh (d : Dev) (f : Fld) (n i x : Nat) : (d.wrIx f n i x).fresh = d.fresh := by unfold Dev.wrIx; split <;> rfl
@[simp] theorem Dev.wrIx_tim (d : Dev) (f : Fld) (n i x : Nat) : (d.wrIx f n i x).tim = d.tim := by unfold Dev.wrIx; split <;> rfl
@[simp] theorem Dev.wrIx_img (d : Dev) (f : Fld) (n i x : Nat) : (d.wrIx f n i x).img = d.img := by unfold Dev.wrIx; split <;> rfl
@[simp] theorem Dev.wrIx_lpt (d : Dev) (f : Fld) (n i x : Nat) : (d.wrIx f n i x).lpt = d.lpt := by unfold Dev.wrIx; split <;> rfl
@[simp] theorem Dev.wrIx_pir (d : Dev) (f : Fld) (n i x : Nat) : (d.wrIx f n i x).pir = d.pir := by unfold Dev.wrIx; split <;> rfl
@[simp] theorem Dev.wrIx_tbl (d : Dev) (f : Fld) (n i x : Nat) : (d.wrIx f n i x).tbl = d.tbl := by unfold Dev.wrIx; split <;> rfl
@[simp] theorem Dev.wrIx_buf (d : Dev) (f : Fld) (n i x : Nat) : (d.wrIx f n i x).buf = d.buf := by unfold Dev.wrIx; split <;> rfl
@[simp] theorem Dev.wrIx_que (d : Dev) (f : Fld) (n i x : Nat) : (d.wrIx f n i x).que = d.que := by unfold Dev.wrIx; split <;> rfl
@[simp] theorem Dev.wrIx_shp (d : Dev) (f : Fld) (n i x : Nat) : (d.wrIx f n i x).shp = d.shp := by unfold Dev.wrIx; split <;> rfl
@[simp] theorem Dev.wrIx_fab (d : Dev) (f : Fld) (n i x : Nat) : (d.wrIx f n i x).fab = d.fab := by unfold Dev.wrIx; split <;> rfl
@[simp] theorem Dev.wrIx_dck (d : Dev) (f : Fld) (n i x : Nat) : (d.wrIx f n i x).dck = d.dck := by unfold Dev.wrIx; split <;> rfl
@[simp] theorem Dev.wrIx_twn (d : Dev) (f : Fld) (n i x : Nat) : (d.wrIx f n i x).twn = d.twn := by unfold Dev.wrIx; split <;> rfl
@[simp] theorem Dev.wrIx_ctl (d : Dev) (f : Fld) (n i x : Nat) : (d.wrIx f n i x).ctl = d.ctl := by unfold Dev.wrIx; split <;> rfl
@[simp] theorem Dev.wrIx_hst (d : Dev) (f : Fld) (n i x : Nat) : (d.wrIx f n i x).hst = d.hst := by unfold Dev.wrIx; split <;> rfl
@[simp] theorem Dev.wrIx_pwr (d : Dev) (f : Fld) (n i x : Nat) : (d.wrIx f n i x).pwr = d.pwr := by unfold Dev.wrIx; split <;> rfl
@[simp] theorem Dev.wrIx_sec (d : Dev) (f : Fld) (n i x : Nat) : (d.wrIx f n i x).sec = d.sec := by unfold Dev.wrIx; split <;> rfl
@[simp] theorem Dev.wrIx_dgn (d : Dev) (f : Fld) (n i x : Nat) : (d.wrIx f n i x).dgn = d.dgn := by unfold Dev.wrIx; split <;> rfl

/-! ### unstage -/

@[simp] theorem Dev.unstage_mode (d : Dev) (m off : Nat) : (d.unstage m off).mode = d.mode := rfl
@[simp] theorem Dev.unstage_regs (d : Dev) (m off : Nat) : (d.unstage m off).regs = d.regs := rfl
@[simp] theorem Dev.unstage_latches (d : Dev) (m off : Nat) : (d.unstage m off).latches = d.latches := rfl
@[simp] theorem Dev.unstage_lastRead (d : Dev) (m off : Nat) : (d.unstage m off).lastRead = d.lastRead := rfl
@[simp] theorem Dev.unstage_lastAbort (d : Dev) (m off : Nat) : (d.unstage m off).lastAbort = d.lastAbort := rfl
@[simp] theorem Dev.unstage_posted (d : Dev) (m off : Nat) : (d.unstage m off).posted = d.posted := rfl
@[simp] theorem Dev.unstage_hostMem (d : Dev) (m off : Nat) : (d.unstage m off).hostMem = d.hostMem := rfl
@[simp] theorem Dev.unstage_fresh (d : Dev) (m off : Nat) : (d.unstage m off).fresh = d.fresh := rfl
@[simp] theorem Dev.unstage_tim (d : Dev) (m off : Nat) : (d.unstage m off).tim = d.tim := rfl
@[simp] theorem Dev.unstage_img (d : Dev) (m off : Nat) : (d.unstage m off).img = d.img := rfl
@[simp] theorem Dev.unstage_lpt (d : Dev) (m off : Nat) : (d.unstage m off).lpt = d.lpt := rfl
@[simp] theorem Dev.unstage_pir (d : Dev) (m off : Nat) : (d.unstage m off).pir = d.pir := rfl
@[simp] theorem Dev.unstage_tbl (d : Dev) (m off : Nat) : (d.unstage m off).tbl = d.tbl := rfl
@[simp] theorem Dev.unstage_buf (d : Dev) (m off : Nat) : (d.unstage m off).buf = d.buf := rfl
@[simp] theorem Dev.unstage_que (d : Dev) (m off : Nat) : (d.unstage m off).que = d.que := rfl
@[simp] theorem Dev.unstage_shp (d : Dev) (m off : Nat) : (d.unstage m off).shp = d.shp := rfl
@[simp] theorem Dev.unstage_fab (d : Dev) (m off : Nat) : (d.unstage m off).fab = d.fab := rfl
@[simp] theorem Dev.unstage_dck (d : Dev) (m off : Nat) : (d.unstage m off).dck = d.dck := rfl
@[simp] theorem Dev.unstage_twn (d : Dev) (m off : Nat) : (d.unstage m off).twn = d.twn := rfl
@[simp] theorem Dev.unstage_ctl (d : Dev) (m off : Nat) : (d.unstage m off).ctl = d.ctl := rfl
@[simp] theorem Dev.unstage_hst (d : Dev) (m off : Nat) : (d.unstage m off).hst = d.hst := rfl
@[simp] theorem Dev.unstage_pwr (d : Dev) (m off : Nat) : (d.unstage m off).pwr = d.pwr := rfl
@[simp] theorem Dev.unstage_sec (d : Dev) (m off : Nat) : (d.unstage m off).sec = d.sec := rfl
@[simp] theorem Dev.unstage_dgn (d : Dev) (m off : Nat) : (d.unstage m off).dgn = d.dgn := rfl

/-! ### bumpN -/

@[simp] theorem Dev.bumpN_mode (d : Dev) (f : Fld) (n : Nat) : (d.bumpN f n).mode = d.mode := rfl
@[simp] theorem Dev.bumpN_latches (d : Dev) (f : Fld) (n : Nat) : (d.bumpN f n).latches = d.latches := rfl
@[simp] theorem Dev.bumpN_stages (d : Dev) (f : Fld) (n : Nat) : (d.bumpN f n).stages = d.stages := rfl
@[simp] theorem Dev.bumpN_lastRead (d : Dev) (f : Fld) (n : Nat) : (d.bumpN f n).lastRead = d.lastRead := rfl
@[simp] theorem Dev.bumpN_lastAbort (d : Dev) (f : Fld) (n : Nat) : (d.bumpN f n).lastAbort = d.lastAbort := rfl
@[simp] theorem Dev.bumpN_posted (d : Dev) (f : Fld) (n : Nat) : (d.bumpN f n).posted = d.posted := rfl
@[simp] theorem Dev.bumpN_hostMem (d : Dev) (f : Fld) (n : Nat) : (d.bumpN f n).hostMem = d.hostMem := rfl
@[simp] theorem Dev.bumpN_fresh (d : Dev) (f : Fld) (n : Nat) : (d.bumpN f n).fresh = d.fresh := rfl
@[simp] theorem Dev.bumpN_tim (d : Dev) (f : Fld) (n : Nat) : (d.bumpN f n).tim = d.tim := rfl
@[simp] theorem Dev.bumpN_img (d : Dev) (f : Fld) (n : Nat) : (d.bumpN f n).img = d.img := rfl
@[simp] theorem Dev.bumpN_lpt (d : Dev) (f : Fld) (n : Nat) : (d.bumpN f n).lpt = d.lpt := rfl
@[simp] theorem Dev.bumpN_pir (d : Dev) (f : Fld) (n : Nat) : (d.bumpN f n).pir = d.pir := rfl
@[simp] theorem Dev.bumpN_tbl (d : Dev) (f : Fld) (n : Nat) : (d.bumpN f n).tbl = d.tbl := rfl
@[simp] theorem Dev.bumpN_buf (d : Dev) (f : Fld) (n : Nat) : (d.bumpN f n).buf = d.buf := rfl
@[simp] theorem Dev.bumpN_que (d : Dev) (f : Fld) (n : Nat) : (d.bumpN f n).que = d.que := rfl
@[simp] theorem Dev.bumpN_shp (d : Dev) (f : Fld) (n : Nat) : (d.bumpN f n).shp = d.shp := rfl
@[simp] theorem Dev.bumpN_fab (d : Dev) (f : Fld) (n : Nat) : (d.bumpN f n).fab = d.fab := rfl
@[simp] theorem Dev.bumpN_dck (d : Dev) (f : Fld) (n : Nat) : (d.bumpN f n).dck = d.dck := rfl
@[simp] theorem Dev.bumpN_twn (d : Dev) (f : Fld) (n : Nat) : (d.bumpN f n).twn = d.twn := rfl
@[simp] theorem Dev.bumpN_ctl (d : Dev) (f : Fld) (n : Nat) : (d.bumpN f n).ctl = d.ctl := rfl
@[simp] theorem Dev.bumpN_hst (d : Dev) (f : Fld) (n : Nat) : (d.bumpN f n).hst = d.hst := rfl
@[simp] theorem Dev.bumpN_pwr (d : Dev) (f : Fld) (n : Nat) : (d.bumpN f n).pwr = d.pwr := rfl
@[simp] theorem Dev.bumpN_sec (d : Dev) (f : Fld) (n : Nat) : (d.bumpN f n).sec = d.sec := rfl
@[simp] theorem Dev.bumpN_dgn (d : Dev) (f : Fld) (n : Nat) : (d.bumpN f n).dgn = d.dgn := rfl

/-! ### bump -/

@[simp] theorem Dev.bump_mode (d : Dev) (f : Fld) : (d.bump f).mode = d.mode := rfl
@[simp] theorem Dev.bump_latches (d : Dev) (f : Fld) : (d.bump f).latches = d.latches := rfl
@[simp] theorem Dev.bump_stages (d : Dev) (f : Fld) : (d.bump f).stages = d.stages := rfl
@[simp] theorem Dev.bump_lastRead (d : Dev) (f : Fld) : (d.bump f).lastRead = d.lastRead := rfl
@[simp] theorem Dev.bump_lastAbort (d : Dev) (f : Fld) : (d.bump f).lastAbort = d.lastAbort := rfl
@[simp] theorem Dev.bump_posted (d : Dev) (f : Fld) : (d.bump f).posted = d.posted := rfl
@[simp] theorem Dev.bump_hostMem (d : Dev) (f : Fld) : (d.bump f).hostMem = d.hostMem := rfl
@[simp] theorem Dev.bump_fresh (d : Dev) (f : Fld) : (d.bump f).fresh = d.fresh := rfl
@[simp] theorem Dev.bump_tim (d : Dev) (f : Fld) : (d.bump f).tim = d.tim := rfl
@[simp] theorem Dev.bump_img (d : Dev) (f : Fld) : (d.bump f).img = d.img := rfl
@[simp] theorem Dev.bump_lpt (d : Dev) (f : Fld) : (d.bump f).lpt = d.lpt := rfl
@[simp] theorem Dev.bump_pir (d : Dev) (f : Fld) : (d.bump f).pir = d.pir := rfl
@[simp] theorem Dev.bump_tbl (d : Dev) (f : Fld) : (d.bump f).tbl = d.tbl := rfl
@[simp] theorem Dev.bump_buf (d : Dev) (f : Fld) : (d.bump f).buf = d.buf := rfl
@[simp] theorem Dev.bump_que (d : Dev) (f : Fld) : (d.bump f).que = d.que := rfl
@[simp] theorem Dev.bump_shp (d : Dev) (f : Fld) : (d.bump f).shp = d.shp := rfl
@[simp] theorem Dev.bump_fab (d : Dev) (f : Fld) : (d.bump f).fab = d.fab := rfl
@[simp] theorem Dev.bump_dck (d : Dev) (f : Fld) : (d.bump f).dck = d.dck := rfl
@[simp] theorem Dev.bump_twn (d : Dev) (f : Fld) : (d.bump f).twn = d.twn := rfl
@[simp] theorem Dev.bump_ctl (d : Dev) (f : Fld) : (d.bump f).ctl = d.ctl := rfl
@[simp] theorem Dev.bump_hst (d : Dev) (f : Fld) : (d.bump f).hst = d.hst := rfl
@[simp] theorem Dev.bump_pwr (d : Dev) (f : Fld) : (d.bump f).pwr = d.pwr := rfl
@[simp] theorem Dev.bump_sec (d : Dev) (f : Fld) : (d.bump f).sec = d.sec := rfl
@[simp] theorem Dev.bump_dgn (d : Dev) (f : Fld) : (d.bump f).dgn = d.dgn := rfl

/-! ### postInst -/

@[simp] theorem Dev.postInst_mode (d : Dev) (e : EvDesc) (n : Nat) (l : List (Nat × Nat × Nat)) : (d.postInst e n l).mode = d.mode := rfl
@[simp] theorem Dev.postInst_regs (d : Dev) (e : EvDesc) (n : Nat) (l : List (Nat × Nat × Nat)) : (d.postInst e n l).regs = d.regs := rfl
@[simp] theorem Dev.postInst_latches (d : Dev) (e : EvDesc) (n : Nat) (l : List (Nat × Nat × Nat)) : (d.postInst e n l).latches = d.latches := rfl
@[simp] theorem Dev.postInst_stages (d : Dev) (e : EvDesc) (n : Nat) (l : List (Nat × Nat × Nat)) : (d.postInst e n l).stages = d.stages := rfl
@[simp] theorem Dev.postInst_lastRead (d : Dev) (e : EvDesc) (n : Nat) (l : List (Nat × Nat × Nat)) : (d.postInst e n l).lastRead = d.lastRead := rfl
@[simp] theorem Dev.postInst_lastAbort (d : Dev) (e : EvDesc) (n : Nat) (l : List (Nat × Nat × Nat)) : (d.postInst e n l).lastAbort = d.lastAbort := rfl
@[simp] theorem Dev.postInst_hostMem (d : Dev) (e : EvDesc) (n : Nat) (l : List (Nat × Nat × Nat)) : (d.postInst e n l).hostMem = d.hostMem := rfl
@[simp] theorem Dev.postInst_fresh (d : Dev) (e : EvDesc) (n : Nat) (l : List (Nat × Nat × Nat)) : (d.postInst e n l).fresh = d.fresh := rfl
@[simp] theorem Dev.postInst_tim (d : Dev) (e : EvDesc) (n : Nat) (l : List (Nat × Nat × Nat)) : (d.postInst e n l).tim = d.tim := rfl
@[simp] theorem Dev.postInst_img (d : Dev) (e : EvDesc) (n : Nat) (l : List (Nat × Nat × Nat)) : (d.postInst e n l).img = d.img := rfl
@[simp] theorem Dev.postInst_lpt (d : Dev) (e : EvDesc) (n : Nat) (l : List (Nat × Nat × Nat)) : (d.postInst e n l).lpt = d.lpt := rfl
@[simp] theorem Dev.postInst_pir (d : Dev) (e : EvDesc) (n : Nat) (l : List (Nat × Nat × Nat)) : (d.postInst e n l).pir = d.pir := rfl
@[simp] theorem Dev.postInst_tbl (d : Dev) (e : EvDesc) (n : Nat) (l : List (Nat × Nat × Nat)) : (d.postInst e n l).tbl = d.tbl := rfl
@[simp] theorem Dev.postInst_buf (d : Dev) (e : EvDesc) (n : Nat) (l : List (Nat × Nat × Nat)) : (d.postInst e n l).buf = d.buf := rfl
@[simp] theorem Dev.postInst_que (d : Dev) (e : EvDesc) (n : Nat) (l : List (Nat × Nat × Nat)) : (d.postInst e n l).que = d.que := rfl
@[simp] theorem Dev.postInst_shp (d : Dev) (e : EvDesc) (n : Nat) (l : List (Nat × Nat × Nat)) : (d.postInst e n l).shp = d.shp := rfl
@[simp] theorem Dev.postInst_fab (d : Dev) (e : EvDesc) (n : Nat) (l : List (Nat × Nat × Nat)) : (d.postInst e n l).fab = d.fab := rfl
@[simp] theorem Dev.postInst_dck (d : Dev) (e : EvDesc) (n : Nat) (l : List (Nat × Nat × Nat)) : (d.postInst e n l).dck = d.dck := rfl
@[simp] theorem Dev.postInst_twn (d : Dev) (e : EvDesc) (n : Nat) (l : List (Nat × Nat × Nat)) : (d.postInst e n l).twn = d.twn := rfl
@[simp] theorem Dev.postInst_ctl (d : Dev) (e : EvDesc) (n : Nat) (l : List (Nat × Nat × Nat)) : (d.postInst e n l).ctl = d.ctl := rfl
@[simp] theorem Dev.postInst_hst (d : Dev) (e : EvDesc) (n : Nat) (l : List (Nat × Nat × Nat)) : (d.postInst e n l).hst = d.hst := rfl
@[simp] theorem Dev.postInst_pwr (d : Dev) (e : EvDesc) (n : Nat) (l : List (Nat × Nat × Nat)) : (d.postInst e n l).pwr = d.pwr := rfl
@[simp] theorem Dev.postInst_sec (d : Dev) (e : EvDesc) (n : Nat) (l : List (Nat × Nat × Nat)) : (d.postInst e n l).sec = d.sec := rfl
@[simp] theorem Dev.postInst_dgn (d : Dev) (e : EvDesc) (n : Nat) (l : List (Nat × Nat × Nat)) : (d.postInst e n l).dgn = d.dgn := rfl

/-! ### post -/

@[simp] theorem Dev.post_mode (d : Dev) (e : EvDesc) (l : List (Nat × Nat × Nat)) : (d.post e l).mode = d.mode := rfl
@[simp] theorem Dev.post_regs (d : Dev) (e : EvDesc) (l : List (Nat × Nat × Nat)) : (d.post e l).regs = d.regs := rfl
@[simp] theorem Dev.post_latches (d : Dev) (e : EvDesc) (l : List (Nat × Nat × Nat)) : (d.post e l).latches = d.latches := rfl
@[simp] theorem Dev.post_stages (d : Dev) (e : EvDesc) (l : List (Nat × Nat × Nat)) : (d.post e l).stages = d.stages := rfl
@[simp] theorem Dev.post_lastRead (d : Dev) (e : EvDesc) (l : List (Nat × Nat × Nat)) : (d.post e l).lastRead = d.lastRead := rfl
@[simp] theorem Dev.post_lastAbort (d : Dev) (e : EvDesc) (l : List (Nat × Nat × Nat)) : (d.post e l).lastAbort = d.lastAbort := rfl
@[simp] theorem Dev.post_hostMem (d : Dev) (e : EvDesc) (l : List (Nat × Nat × Nat)) : (d.post e l).hostMem = d.hostMem := rfl
@[simp] theorem Dev.post_fresh (d : Dev) (e : EvDesc) (l : List (Nat × Nat × Nat)) : (d.post e l).fresh = d.fresh := rfl
@[simp] theorem Dev.post_tim (d : Dev) (e : EvDesc) (l : List (Nat × Nat × Nat)) : (d.post e l).tim = d.tim := rfl
@[simp] theorem Dev.post_img (d : Dev) (e : EvDesc) (l : List (Nat × Nat × Nat)) : (d.post e l).img = d.img := rfl
@[simp] theorem Dev.post_lpt (d : Dev) (e : EvDesc) (l : List (Nat × Nat × Nat)) : (d.post e l).lpt = d.lpt := rfl
@[simp] theorem Dev.post_pir (d : Dev) (e : EvDesc) (l : List (Nat × Nat × Nat)) : (d.post e l).pir = d.pir := rfl
@[simp] theorem Dev.post_tbl (d : Dev) (e : EvDesc) (l : List (Nat × Nat × Nat)) : (d.post e l).tbl = d.tbl := rfl
@[simp] theorem Dev.post_buf (d : Dev) (e : EvDesc) (l : List (Nat × Nat × Nat)) : (d.post e l).buf = d.buf := rfl
@[simp] theorem Dev.post_que (d : Dev) (e : EvDesc) (l : List (Nat × Nat × Nat)) : (d.post e l).que = d.que := rfl
@[simp] theorem Dev.post_shp (d : Dev) (e : EvDesc) (l : List (Nat × Nat × Nat)) : (d.post e l).shp = d.shp := rfl
@[simp] theorem Dev.post_fab (d : Dev) (e : EvDesc) (l : List (Nat × Nat × Nat)) : (d.post e l).fab = d.fab := rfl
@[simp] theorem Dev.post_dck (d : Dev) (e : EvDesc) (l : List (Nat × Nat × Nat)) : (d.post e l).dck = d.dck := rfl
@[simp] theorem Dev.post_twn (d : Dev) (e : EvDesc) (l : List (Nat × Nat × Nat)) : (d.post e l).twn = d.twn := rfl
@[simp] theorem Dev.post_ctl (d : Dev) (e : EvDesc) (l : List (Nat × Nat × Nat)) : (d.post e l).ctl = d.ctl := rfl
@[simp] theorem Dev.post_hst (d : Dev) (e : EvDesc) (l : List (Nat × Nat × Nat)) : (d.post e l).hst = d.hst := rfl
@[simp] theorem Dev.post_pwr (d : Dev) (e : EvDesc) (l : List (Nat × Nat × Nat)) : (d.post e l).pwr = d.pwr := rfl
@[simp] theorem Dev.post_sec (d : Dev) (e : EvDesc) (l : List (Nat × Nat × Nat)) : (d.post e l).sec = d.sec := rfl
@[simp] theorem Dev.post_dgn (d : Dev) (e : EvDesc) (l : List (Nat × Nat × Nat)) : (d.post e l).dgn = d.dgn := rfl

/-! ### dma -/

@[simp] theorem Dev.dma_mode (d : Dev) (a : Nat) (l : List Byte) : (d.dma a l).mode = d.mode := rfl
@[simp] theorem Dev.dma_regs (d : Dev) (a : Nat) (l : List Byte) : (d.dma a l).regs = d.regs := rfl
@[simp] theorem Dev.dma_latches (d : Dev) (a : Nat) (l : List Byte) : (d.dma a l).latches = d.latches := rfl
@[simp] theorem Dev.dma_stages (d : Dev) (a : Nat) (l : List Byte) : (d.dma a l).stages = d.stages := rfl
@[simp] theorem Dev.dma_lastRead (d : Dev) (a : Nat) (l : List Byte) : (d.dma a l).lastRead = d.lastRead := rfl
@[simp] theorem Dev.dma_lastAbort (d : Dev) (a : Nat) (l : List Byte) : (d.dma a l).lastAbort = d.lastAbort := rfl
@[simp] theorem Dev.dma_posted (d : Dev) (a : Nat) (l : List Byte) : (d.dma a l).posted = d.posted := rfl
@[simp] theorem Dev.dma_fresh (d : Dev) (a : Nat) (l : List Byte) : (d.dma a l).fresh = d.fresh := rfl
@[simp] theorem Dev.dma_tim (d : Dev) (a : Nat) (l : List Byte) : (d.dma a l).tim = d.tim := rfl
@[simp] theorem Dev.dma_img (d : Dev) (a : Nat) (l : List Byte) : (d.dma a l).img = d.img := rfl
@[simp] theorem Dev.dma_lpt (d : Dev) (a : Nat) (l : List Byte) : (d.dma a l).lpt = d.lpt := rfl
@[simp] theorem Dev.dma_pir (d : Dev) (a : Nat) (l : List Byte) : (d.dma a l).pir = d.pir := rfl
@[simp] theorem Dev.dma_tbl (d : Dev) (a : Nat) (l : List Byte) : (d.dma a l).tbl = d.tbl := rfl
@[simp] theorem Dev.dma_buf (d : Dev) (a : Nat) (l : List Byte) : (d.dma a l).buf = d.buf := rfl
@[simp] theorem Dev.dma_que (d : Dev) (a : Nat) (l : List Byte) : (d.dma a l).que = d.que := rfl
@[simp] theorem Dev.dma_shp (d : Dev) (a : Nat) (l : List Byte) : (d.dma a l).shp = d.shp := rfl
@[simp] theorem Dev.dma_fab (d : Dev) (a : Nat) (l : List Byte) : (d.dma a l).fab = d.fab := rfl
@[simp] theorem Dev.dma_dck (d : Dev) (a : Nat) (l : List Byte) : (d.dma a l).dck = d.dck := rfl
@[simp] theorem Dev.dma_twn (d : Dev) (a : Nat) (l : List Byte) : (d.dma a l).twn = d.twn := rfl
@[simp] theorem Dev.dma_ctl (d : Dev) (a : Nat) (l : List Byte) : (d.dma a l).ctl = d.ctl := rfl
@[simp] theorem Dev.dma_hst (d : Dev) (a : Nat) (l : List Byte) : (d.dma a l).hst = d.hst := rfl
@[simp] theorem Dev.dma_pwr (d : Dev) (a : Nat) (l : List Byte) : (d.dma a l).pwr = d.pwr := rfl
@[simp] theorem Dev.dma_sec (d : Dev) (a : Nat) (l : List Byte) : (d.dma a l).sec = d.sec := rfl
@[simp] theorem Dev.dma_dgn (d : Dev) (a : Nat) (l : List Byte) : (d.dma a l).dgn = d.dgn := rfl

/-! ### takeFree -/

@[simp] theorem Dev.takeFree_mode (d : Dev) : (d.takeFree.2).mode = d.mode := rfl
@[simp] theorem Dev.takeFree_regs (d : Dev) : (d.takeFree.2).regs = d.regs := rfl
@[simp] theorem Dev.takeFree_latches (d : Dev) : (d.takeFree.2).latches = d.latches := rfl
@[simp] theorem Dev.takeFree_stages (d : Dev) : (d.takeFree.2).stages = d.stages := rfl
@[simp] theorem Dev.takeFree_lastRead (d : Dev) : (d.takeFree.2).lastRead = d.lastRead := rfl
@[simp] theorem Dev.takeFree_lastAbort (d : Dev) : (d.takeFree.2).lastAbort = d.lastAbort := rfl
@[simp] theorem Dev.takeFree_posted (d : Dev) : (d.takeFree.2).posted = d.posted := rfl
@[simp] theorem Dev.takeFree_hostMem (d : Dev) : (d.takeFree.2).hostMem = d.hostMem := rfl
@[simp] theorem Dev.takeFree_tim (d : Dev) : (d.takeFree.2).tim = d.tim := rfl
@[simp] theorem Dev.takeFree_img (d : Dev) : (d.takeFree.2).img = d.img := rfl
@[simp] theorem Dev.takeFree_lpt (d : Dev) : (d.takeFree.2).lpt = d.lpt := rfl
@[simp] theorem Dev.takeFree_pir (d : Dev) : (d.takeFree.2).pir = d.pir := rfl
@[simp] theorem Dev.takeFree_tbl (d : Dev) : (d.takeFree.2).tbl = d.tbl := rfl
@[simp] theorem Dev.takeFree_buf (d : Dev) : (d.takeFree.2).buf = d.buf := rfl
@[simp] theorem Dev.takeFree_que (d : Dev) : (d.takeFree.2).que = d.que := rfl
@[simp] theorem Dev.takeFree_shp (d : Dev) : (d.takeFree.2).shp = d.shp := rfl
@[simp] theorem Dev.takeFree_fab (d : Dev) : (d.takeFree.2).fab = d.fab := rfl
@[simp] theorem Dev.takeFree_dck (d : Dev) : (d.takeFree.2).dck = d.dck := rfl
@[simp] theorem Dev.takeFree_twn (d : Dev) : (d.takeFree.2).twn = d.twn := rfl
@[simp] theorem Dev.takeFree_ctl (d : Dev) : (d.takeFree.2).ctl = d.ctl := rfl
@[simp] theorem Dev.takeFree_hst (d : Dev) : (d.takeFree.2).hst = d.hst := rfl
@[simp] theorem Dev.takeFree_pwr (d : Dev) : (d.takeFree.2).pwr = d.pwr := rfl
@[simp] theorem Dev.takeFree_sec (d : Dev) : (d.takeFree.2).sec = d.sec := rfl
@[simp] theorem Dev.takeFree_dgn (d : Dev) : (d.takeFree.2).dgn = d.dgn := rfl

/-! ### takeFlip -/

@[simp] theorem Dev.takeFlip_mode (d : Dev) : (d.takeFlip.2).mode = d.mode := rfl
@[simp] theorem Dev.takeFlip_regs (d : Dev) : (d.takeFlip.2).regs = d.regs := rfl
@[simp] theorem Dev.takeFlip_latches (d : Dev) : (d.takeFlip.2).latches = d.latches := rfl
@[simp] theorem Dev.takeFlip_stages (d : Dev) : (d.takeFlip.2).stages = d.stages := rfl
@[simp] theorem Dev.takeFlip_lastRead (d : Dev) : (d.takeFlip.2).lastRead = d.lastRead := rfl
@[simp] theorem Dev.takeFlip_lastAbort (d : Dev) : (d.takeFlip.2).lastAbort = d.lastAbort := rfl
@[simp] theorem Dev.takeFlip_posted (d : Dev) : (d.takeFlip.2).posted = d.posted := rfl
@[simp] theorem Dev.takeFlip_hostMem (d : Dev) : (d.takeFlip.2).hostMem = d.hostMem := rfl
@[simp] theorem Dev.takeFlip_tim (d : Dev) : (d.takeFlip.2).tim = d.tim := rfl
@[simp] theorem Dev.takeFlip_img (d : Dev) : (d.takeFlip.2).img = d.img := rfl
@[simp] theorem Dev.takeFlip_lpt (d : Dev) : (d.takeFlip.2).lpt = d.lpt := rfl
@[simp] theorem Dev.takeFlip_pir (d : Dev) : (d.takeFlip.2).pir = d.pir := rfl
@[simp] theorem Dev.takeFlip_tbl (d : Dev) : (d.takeFlip.2).tbl = d.tbl := rfl
@[simp] theorem Dev.takeFlip_buf (d : Dev) : (d.takeFlip.2).buf = d.buf := rfl
@[simp] theorem Dev.takeFlip_que (d : Dev) : (d.takeFlip.2).que = d.que := rfl
@[simp] theorem Dev.takeFlip_shp (d : Dev) : (d.takeFlip.2).shp = d.shp := rfl
@[simp] theorem Dev.takeFlip_fab (d : Dev) : (d.takeFlip.2).fab = d.fab := rfl
@[simp] theorem Dev.takeFlip_dck (d : Dev) : (d.takeFlip.2).dck = d.dck := rfl
@[simp] theorem Dev.takeFlip_twn (d : Dev) : (d.takeFlip.2).twn = d.twn := rfl
@[simp] theorem Dev.takeFlip_ctl (d : Dev) : (d.takeFlip.2).ctl = d.ctl := rfl
@[simp] theorem Dev.takeFlip_hst (d : Dev) : (d.takeFlip.2).hst = d.hst := rfl
@[simp] theorem Dev.takeFlip_pwr (d : Dev) : (d.takeFlip.2).pwr = d.pwr := rfl
@[simp] theorem Dev.takeFlip_sec (d : Dev) : (d.takeFlip.2).sec = d.sec := rfl
@[simp] theorem Dev.takeFlip_dgn (d : Dev) : (d.takeFlip.2).dgn = d.dgn := rfl

/-! ### noAbort -/

@[simp] theorem Dev.noAbort_mode (d : Dev) : (d.noAbort).mode = d.mode := rfl
@[simp] theorem Dev.noAbort_regs (d : Dev) : (d.noAbort).regs = d.regs := rfl
@[simp] theorem Dev.noAbort_latches (d : Dev) : (d.noAbort).latches = d.latches := rfl
@[simp] theorem Dev.noAbort_stages (d : Dev) : (d.noAbort).stages = d.stages := rfl
@[simp] theorem Dev.noAbort_lastRead (d : Dev) : (d.noAbort).lastRead = d.lastRead := rfl
@[simp] theorem Dev.noAbort_posted (d : Dev) : (d.noAbort).posted = d.posted := rfl
@[simp] theorem Dev.noAbort_hostMem (d : Dev) : (d.noAbort).hostMem = d.hostMem := rfl
@[simp] theorem Dev.noAbort_fresh (d : Dev) : (d.noAbort).fresh = d.fresh := rfl
@[simp] theorem Dev.noAbort_tim (d : Dev) : (d.noAbort).tim = d.tim := rfl
@[simp] theorem Dev.noAbort_img (d : Dev) : (d.noAbort).img = d.img := rfl
@[simp] theorem Dev.noAbort_lpt (d : Dev) : (d.noAbort).lpt = d.lpt := rfl
@[simp] theorem Dev.noAbort_pir (d : Dev) : (d.noAbort).pir = d.pir := rfl
@[simp] theorem Dev.noAbort_tbl (d : Dev) : (d.noAbort).tbl = d.tbl := rfl
@[simp] theorem Dev.noAbort_buf (d : Dev) : (d.noAbort).buf = d.buf := rfl
@[simp] theorem Dev.noAbort_que (d : Dev) : (d.noAbort).que = d.que := rfl
@[simp] theorem Dev.noAbort_shp (d : Dev) : (d.noAbort).shp = d.shp := rfl
@[simp] theorem Dev.noAbort_fab (d : Dev) : (d.noAbort).fab = d.fab := rfl
@[simp] theorem Dev.noAbort_dck (d : Dev) : (d.noAbort).dck = d.dck := rfl
@[simp] theorem Dev.noAbort_twn (d : Dev) : (d.noAbort).twn = d.twn := rfl
@[simp] theorem Dev.noAbort_ctl (d : Dev) : (d.noAbort).ctl = d.ctl := rfl
@[simp] theorem Dev.noAbort_hst (d : Dev) : (d.noAbort).hst = d.hst := rfl
@[simp] theorem Dev.noAbort_pwr (d : Dev) : (d.noAbort).pwr = d.pwr := rfl
@[simp] theorem Dev.noAbort_sec (d : Dev) : (d.noAbort).sec = d.sec := rfl
@[simp] theorem Dev.noAbort_dgn (d : Dev) : (d.noAbort).dgn = d.dgn := rfl
@[simp] theorem Dev.noAbort_lastAbort (d : Dev) : d.noAbort.lastAbort = false := rfl

/-! ### raiseVector -/

@[simp] theorem Dev.raiseVector_mode (d : Dev) (pf v : Nat) : (d.raiseVector pf v).mode = d.mode := rfl
@[simp] theorem Dev.raiseVector_regs (d : Dev) (pf v : Nat) : (d.raiseVector pf v).regs = d.regs := rfl
@[simp] theorem Dev.raiseVector_latches (d : Dev) (pf v : Nat) : (d.raiseVector pf v).latches = d.latches := rfl
@[simp] theorem Dev.raiseVector_stages (d : Dev) (pf v : Nat) : (d.raiseVector pf v).stages = d.stages := rfl
@[simp] theorem Dev.raiseVector_lastRead (d : Dev) (pf v : Nat) : (d.raiseVector pf v).lastRead = d.lastRead := rfl
@[simp] theorem Dev.raiseVector_lastAbort (d : Dev) (pf v : Nat) : (d.raiseVector pf v).lastAbort = d.lastAbort := rfl
@[simp] theorem Dev.raiseVector_posted (d : Dev) (pf v : Nat) : (d.raiseVector pf v).posted = d.posted := rfl
@[simp] theorem Dev.raiseVector_hostMem (d : Dev) (pf v : Nat) : (d.raiseVector pf v).hostMem = d.hostMem := rfl
@[simp] theorem Dev.raiseVector_fresh (d : Dev) (pf v : Nat) : (d.raiseVector pf v).fresh = d.fresh := rfl
@[simp] theorem Dev.raiseVector_tim (d : Dev) (pf v : Nat) : (d.raiseVector pf v).tim = d.tim := rfl
@[simp] theorem Dev.raiseVector_img (d : Dev) (pf v : Nat) : (d.raiseVector pf v).img = d.img := rfl
@[simp] theorem Dev.raiseVector_lpt (d : Dev) (pf v : Nat) : (d.raiseVector pf v).lpt = d.lpt := rfl
@[simp] theorem Dev.raiseVector_pir (d : Dev) (pf v : Nat) : (d.raiseVector pf v).pir = d.pir := rfl
@[simp] theorem Dev.raiseVector_tbl (d : Dev) (pf v : Nat) : (d.raiseVector pf v).tbl = d.tbl := rfl
@[simp] theorem Dev.raiseVector_buf (d : Dev) (pf v : Nat) : (d.raiseVector pf v).buf = d.buf := rfl
@[simp] theorem Dev.raiseVector_que (d : Dev) (pf v : Nat) : (d.raiseVector pf v).que = d.que := rfl
@[simp] theorem Dev.raiseVector_shp (d : Dev) (pf v : Nat) : (d.raiseVector pf v).shp = d.shp := rfl
@[simp] theorem Dev.raiseVector_fab (d : Dev) (pf v : Nat) : (d.raiseVector pf v).fab = d.fab := rfl
@[simp] theorem Dev.raiseVector_dck (d : Dev) (pf v : Nat) : (d.raiseVector pf v).dck = d.dck := rfl
@[simp] theorem Dev.raiseVector_twn (d : Dev) (pf v : Nat) : (d.raiseVector pf v).twn = d.twn := rfl
@[simp] theorem Dev.raiseVector_ctl (d : Dev) (pf v : Nat) : (d.raiseVector pf v).ctl = d.ctl := rfl
@[simp] theorem Dev.raiseVector_pwr (d : Dev) (pf v : Nat) : (d.raiseVector pf v).pwr = d.pwr := rfl
@[simp] theorem Dev.raiseVector_sec (d : Dev) (pf v : Nat) : (d.raiseVector pf v).sec = d.sec := rfl
@[simp] theorem Dev.raiseVector_dgn (d : Dev) (pf v : Nat) : (d.raiseVector pf v).dgn = d.dgn := rfl

/-! ### answer -/

@[simp] theorem Dev.answer_mode (d : Dev) (w : Nat) : (d.answer w).mode = d.mode := rfl
@[simp] theorem Dev.answer_regs (d : Dev) (w : Nat) : (d.answer w).regs = d.regs := rfl
@[simp] theorem Dev.answer_latches (d : Dev) (w : Nat) : (d.answer w).latches = d.latches := rfl
@[simp] theorem Dev.answer_stages (d : Dev) (w : Nat) : (d.answer w).stages = d.stages := rfl
@[simp] theorem Dev.answer_posted (d : Dev) (w : Nat) : (d.answer w).posted = d.posted := rfl
@[simp] theorem Dev.answer_hostMem (d : Dev) (w : Nat) : (d.answer w).hostMem = d.hostMem := rfl
@[simp] theorem Dev.answer_fresh (d : Dev) (w : Nat) : (d.answer w).fresh = d.fresh := rfl
@[simp] theorem Dev.answer_tim (d : Dev) (w : Nat) : (d.answer w).tim = d.tim := rfl
@[simp] theorem Dev.answer_img (d : Dev) (w : Nat) : (d.answer w).img = d.img := rfl
@[simp] theorem Dev.answer_lpt (d : Dev) (w : Nat) : (d.answer w).lpt = d.lpt := rfl
@[simp] theorem Dev.answer_pir (d : Dev) (w : Nat) : (d.answer w).pir = d.pir := rfl
@[simp] theorem Dev.answer_tbl (d : Dev) (w : Nat) : (d.answer w).tbl = d.tbl := rfl
@[simp] theorem Dev.answer_buf (d : Dev) (w : Nat) : (d.answer w).buf = d.buf := rfl
@[simp] theorem Dev.answer_que (d : Dev) (w : Nat) : (d.answer w).que = d.que := rfl
@[simp] theorem Dev.answer_shp (d : Dev) (w : Nat) : (d.answer w).shp = d.shp := rfl
@[simp] theorem Dev.answer_fab (d : Dev) (w : Nat) : (d.answer w).fab = d.fab := rfl
@[simp] theorem Dev.answer_dck (d : Dev) (w : Nat) : (d.answer w).dck = d.dck := rfl
@[simp] theorem Dev.answer_twn (d : Dev) (w : Nat) : (d.answer w).twn = d.twn := rfl
@[simp] theorem Dev.answer_ctl (d : Dev) (w : Nat) : (d.answer w).ctl = d.ctl := rfl
@[simp] theorem Dev.answer_hst (d : Dev) (w : Nat) : (d.answer w).hst = d.hst := rfl
@[simp] theorem Dev.answer_pwr (d : Dev) (w : Nat) : (d.answer w).pwr = d.pwr := rfl
@[simp] theorem Dev.answer_sec (d : Dev) (w : Nat) : (d.answer w).sec = d.sec := rfl
@[simp] theorem Dev.answer_dgn (d : Dev) (w : Nat) : (d.answer w).dgn = d.dgn := rfl

end Sys2Proof.Machine
end

