-- ==== Sys2Proof/Laws/Ops.lean ====
section
/-! SUPPORT. The laws of the shared operations: register fields and counters, the saved byte store, conditions and the mode. -/

namespace Sys2Proof.Machine

/-! ### Registers -/

@[simp] theorem Dev.reg_setReg_same (d : Dev) (k : Nat) (v : BitVec 64) : (d.setReg k v).reg k = v :=
  SMap.get_set_same ..

theorem Dev.reg_setReg_ne (d : Dev) {k j : Nat} (v : BitVec 64) (h : k ≠ j) : (d.setReg k v).reg j = d.reg j :=
  SMap.get_set_ne _ _ _ h

theorem Dev.reg_wr_ne (d : Dev) (f : Fld) (x : Nat) {k : Nat} (h : f.off ≠ k) : (d.wr f x).reg k = d.reg k :=
  Dev.reg_setReg_ne _ _ h

/-- A field of another register is as it was. -/
theorem Dev.rd_wr_off (d : Dev) (f g : Fld) (x : Nat) (h : f.off ≠ g.off) : (d.wr f x).rd g = d.rd g := by
  simp [Dev.rd, Dev.reg_wr_ne d f x h]

theorem Dev.rd_setReg_off (d : Dev) (k : Nat) (v : BitVec 64) (g : Fld) (h : k ≠ g.off) : (d.setReg k v).rd g = d.rd g := by
  simp [Dev.rd, Dev.reg_setReg_ne d v h]

@[simp] theorem Dev.rd_setReg_same (d : Dev) (v : BitVec 64) (g : Fld) : (d.setReg g.off v).rd g = g.read v := by
  simp [Dev.rd]

/-- The bits of a word with a field replaced. -/
theorem Fld.getLsbD_write (f : Fld) (v : BitVec 64) (x i : Nat) (hi : i < 64) :
    (f.write v x).getLsbD i = if f.lo ≤ i ∧ i < f.lo + f.w then x.testBit (i - f.lo) else v.getLsbD i := by
  have h1 : ∀ k, (2 ^ f.w - 1).testBit k = decide (k < f.w) := Nat.testBit_two_pow_sub_one f.w
  simp only [Fld.write, BitVec.getLsbD_or, BitVec.getLsbD_and, BitVec.getLsbD_not, BitVec.getLsbD_ofNat,
    Nat.testBit_shiftLeft, Nat.testBit_mod_two_pow, h1, hi, decide_true, Bool.true_and]
  by_cases h : f.lo ≤ i
  · by_cases h2 : i < f.lo + f.w
    · have h3 : i - f.lo < f.w := by omega
      simp [h, h2, h3]
    · have h3 : ¬ (i - f.lo < f.w) := by omega
      simp [h, h2, h3]
  · simp [h]

theorem Fld.testBit_read (f : Fld) (v : BitVec 64) (i : Nat) :
    (f.read v).testBit i = (decide (i < f.w) && v.getLsbD (f.lo + i)) := by
  simp [Fld.read, Nat.testBit_mod_two_pow, Nat.testBit_shiftRight, BitVec.getLsbD, Nat.add_comm]

/-- A field just written, cut to its width. -/
theorem Dev.rd_wr_same (d : Dev) (f : Fld) (x : Nat) (h : f.lo + f.w ≤ 64) : (d.wr f x).rd f = x % 2 ^ f.w := by
  unfold Dev.wr Dev.rd
  rw [Dev.reg_setReg_same]
  apply Nat.eq_of_testBit_eq
  intro i
  rw [Fld.testBit_read, Nat.testBit_mod_two_pow]
  by_cases hi : i < f.w
  · rw [Fld.getLsbD_write _ _ _ _ (by omega)]
    simp [hi]
  · simp [hi]

/-- A field beside the one written, in the same register. -/
theorem Dev.rd_wr_beside (d : Dev) (f g : Fld) (x : Nat) (hg : g.lo + g.w ≤ 64)
    (h : g.lo + g.w ≤ f.lo ∨ f.lo + f.w ≤ g.lo) : (d.wr f x).rd g = d.rd g := by
  by_cases ho : f.off = g.off
  · unfold Dev.wr Dev.rd
    rw [← ho, Dev.reg_setReg_same]
    apply Nat.eq_of_testBit_eq
    intro i
    rw [Fld.testBit_read, Fld.testBit_read]
    by_cases hi : i < g.w
    · rw [Fld.getLsbD_write _ _ _ _ (by omega)]
      have : ¬ (f.lo ≤ g.lo + i ∧ g.lo + i < f.lo + f.w) := by omega
      simp [this]
    · simp [hi]
  · exact Dev.rd_wr_off d f g x ho

@[simp] theorem Dev.rd_postInst (d : Dev) (e : EvDesc) (n : Nat) (l : List (Nat × Nat × Nat)) (g : Fld) :
    (d.postInst e n l).rd g = d.rd g := rfl
@[simp] theorem Dev.rd_post (d : Dev) (e : EvDesc) (l : List (Nat × Nat × Nat)) (g : Fld) : (d.post e l).rd g = d.rd g := rfl
@[simp] theorem Dev.rd_dma (d : Dev) (a : Nat) (l : List Byte) (g : Fld) : (d.dma a l).rd g = d.rd g := rfl
@[simp] theorem Dev.reg_post (d : Dev) (e : EvDesc) (l : List (Nat × Nat × Nat)) (k : Nat) : (d.post e l).reg k = d.reg k := rfl
@[simp] theorem Dev.reg_postInst (d : Dev) (e : EvDesc) (n : Nat) (l : List (Nat × Nat × Nat)) (k : Nat) :
    (d.postInst e n l).reg k = d.reg k := rfl

/-! ### Fields of a register store

A field read and a field write as functions of the register store alone, so that a record update of any other part of the device drops
out by projection. With `Dev.rd_eq` and `Dev.regs_wr` as rewrite rules and the three laws below, whose side conditions `decide` settles
for named fields, every read of a field after a chain of updates comes down to a read before it. -/

/-- A field of a register store. -/
def rdRegs (r : SMap (BitVec 64)) (f : Fld) : Nat := f.read (r.get regReset f.off)

/-- The register store with a field replaced. -/
def wrRegs (r : SMap (BitVec 64)) (f : Fld) (x : Nat) : SMap (BitVec 64) :=
  r.set regReset f.off (f.write (r.get regReset f.off) x)

theorem Dev.rd_eq (d : Dev) (f : Fld) : d.rd f = rdRegs d.regs f := rfl
theorem Dev.regs_wr (d : Dev) (f : Fld) (x : Nat) : (d.wr f x).regs = wrRegs d.regs f x := rfl

theorem rdRegs_wr_same (r : SMap (BitVec 64)) (f : Fld) (x : Nat) (h : f.lo + f.w ≤ 64) :
    rdRegs (wrRegs r f x) f = x % 2 ^ f.w :=
  Dev.rd_wr_same { Dev.reset with regs := r } f x h

theorem rdRegs_wr_off (r : SMap (BitVec 64)) (f g : Fld) (x : Nat) (h : f.off ≠ g.off) :
    rdRegs (wrRegs r f x) g = rdRegs r g :=
  Dev.rd_wr_off { Dev.reset with regs := r } f g x h

theorem rdRegs_wr_beside (r : SMap (BitVec 64)) (f g : Fld) (x : Nat) (hg : g.lo + g.w ≤ 64)
    (h : g.lo + g.w ≤ f.lo ∨ f.lo + f.w ≤ g.lo) : rdRegs (wrRegs r f x) g = rdRegs r g :=
  Dev.rd_wr_beside { Dev.reset with regs := r } f g x hg h

theorem Dev.on_eq (d : Dev) (f : Fld) : d.on f = (d.rd f != 0) := rfl

/-- A counter that has not reached its top counts on. -/
theorem Dev.rd_bump_same (d : Dev) (f : Fld) (h : f.lo + f.w ≤ 64) :
    (d.bump f).rd f = min (d.rd f + 1) (2 ^ f.w - 1) := by
  unfold Dev.bump Dev.bumpN
  rw [Dev.rd_wr_same _ _ _ h, Nat.mod_eq_of_lt]
  have := Nat.two_pow_pos f.w
  omega

/-! ### Registers stay canonical -/

theorem Dev.regs_wf_setReg (d : Dev) (k : Nat) (v : BitVec 64) (h : SMap.wf regReset d.regs = true) :
    SMap.wf regReset (d.setReg k v).regs = true := SMap.wf_set _ _ _ _ h

theorem Dev.regs_wf_wr (d : Dev) (f : Fld) (x : Nat) (h : SMap.wf regReset d.regs = true) :
    SMap.wf regReset (d.wr f x).regs = true := SMap.wf_set _ _ _ _ h

theorem Dev.regs_wf_bumpN (d : Dev) (f : Fld) (n : Nat) (h : SMap.wf regReset d.regs = true) :
    SMap.wf regReset (d.bumpN f n).regs = true := SMap.wf_set _ _ _ _ h

theorem Dev.regs_wf_bump (d : Dev) (f : Fld) (h : SMap.wf regReset d.regs = true) :
    SMap.wf regReset (d.bump f).regs = true := SMap.wf_set _ _ _ _ h

/-! ### Copies of a register -/

theorem Dev.wrIx_of_lt (d : Dev) (f : Fld) (x : Nat) {n i : Nat} (h : i < n) : d.wrIx f n i x = d.wr (f.ix i) x := if_pos h

theorem Dev.wrIx_of_not_lt (d : Dev) (f : Fld) (x : Nat) {n i : Nat} (h : ¬ i < n) : d.wrIx f n i x = d := if_neg h

/-- Everything a write of a copy can do: the copy is written, or there is no such copy and nothing changes. -/
theorem Dev.wrIx_cases (d : Dev) (f : Fld) (n i x : Nat) : (i < n ∧ d.wrIx f n i x = d.wr (f.ix i) x) ∨ (n ≤ i ∧ d.wrIx f n i x = d) := by
  by_cases h : i < n
  · exact .inl ⟨h, d.wrIx_of_lt f x h⟩
  · exact .inr ⟨Nat.not_lt.1 h, d.wrIx_of_not_lt f x h⟩

/-- Every other register is as it was. -/
theorem Dev.reg_wrIx_ne (d : Dev) (f : Fld) (n i x : Nat) {k : Nat} (h : i < n → (f.ix i).off ≠ k) : (d.wrIx f n i x).reg k = d.reg k := by
  obtain ⟨hi, e⟩ | ⟨_, e⟩ := d.wrIx_cases f n i x <;> rw [e]
  exact Dev.reg_wr_ne d (f.ix i) x (h hi)

theorem Dev.regs_wf_wrIx (d : Dev) (f : Fld) (n i x : Nat) (h : SMap.wf regReset d.regs = true) :
    SMap.wf regReset (d.wrIx f n i x).regs = true := by
  obtain ⟨_, e⟩ | ⟨_, e⟩ := d.wrIx_cases f n i x <;> rw [e]
  · exact Dev.regs_wf_wr d _ x h
  · exact h

/-! ### Halves of 64-bit registers (R8) -/

@[simp] theorem Dev.stages_unstage_same (d : Dev) (m off : Nat) : (d.unstage m off).stages.get (fun _ => none) (halfKey m off) = none :=
  SMap.get_set_same (α := Option Word) (fun _ => none) d.stages (halfKey m off) none

theorem Dev.stages_unstage_ne (d : Dev) {m off k : Nat} (h : halfKey m off ≠ k) :
    (d.unstage m off).stages.get (fun _ => none) k = d.stages.get (fun _ => none) k :=
  SMap.get_set_ne (α := Option Word) (fun _ => none) d.stages none h

/-! ### Check units (R443) -/

/-- A stream that no unit measures ends with nothing done. -/
theorem Dev.streamEnds_none (d : Dev) {point seg : Nat} (h : d.runningAt point seg = []) (given : Option (List Byte)) :
    d.streamEnds point seg given = (false, d) := by
  simp [Dev.streamEnds, h]

theorem Dev.streamStops_none (d : Dev) {point seg : Nat} (h : d.runningAt point seg = []) : d.streamStops point seg = d := by
  simp [Dev.streamStops, h, Dev.each]

/-! ### Host memory -/

theorem hostPut_wf (m : SMap (Option Byte)) (a : Nat) (b : Byte) (h : SMap.wf (fun _ => none) m = true) :
    SMap.wf (fun _ => none) (hostPut m a b) = true := SMap.wf_set _ _ _ _ h

theorem hostPutAll_wf (m : SMap (Option Byte)) (a : Nat) (l : List Byte) (h : SMap.wf (fun _ => none) m = true) :
    SMap.wf (fun _ => none) (hostPutAll m a l) = true := by
  induction l generalizing m a with
  | nil => exact h
  | cons b t ih => exact ih _ _ (hostPut_wf _ _ _ h)

/-- A byte just written to host memory. -/
theorem hostPut_get_same (m : SMap (Option Byte)) (a : Nat) (b : Byte) (h : a < 2 ^ 64) :
    (hostPut m a b).get (fun _ => none) a = some b := by
  have h' : a % 2 ^ 64 = a := Nat.mod_eq_of_lt h
  rw [hostPut, h', SMap.get_set_same]

/-! ### Conditions and the mode -/

theorem Dev.when_true (d : Dev) (f : Dev → Dev) : d.when true f = f d := rfl
theorem Dev.when_false (d : Dev) (f : Dev → Dev) : d.when false f = d := rfl

/-- A property that every item's step keeps is kept by the whole run. -/
theorem Dev.each_induction {α : Type} (p : Dev → Prop) (f : α → Dev → Dev) (h : ∀ a d, p d → p (f a d)) (l : List α)
    (d : Dev) (hd : p d) : p (d.each l f) := by
  induction l generalizing d with
  | nil => exact hd
  | cons a t ih => exact ih _ (h a d hd)

/-- Everything a change of mode can do: the mode stays, or becomes the one asked for, which is not M0, outside M0 and M11. -/
theorem Dev.setMode_cases (d : Dev) (m : Mode) :
    d.setMode m = d ∨ (d.setMode m = { d with mode := m } ∧ d.mode ≠ .m0 ∧ d.mode ≠ .m11 ∧ m ≠ .m0) := by
  unfold Dev.setMode
  split
  · exact .inl rfl
  · split
    · exact .inl rfl
    · rename_i h _
      simp only [not_or] at h
      exact .inr ⟨rfl, h⟩

/-- M11 is not left by a change of mode (R437). -/
theorem Dev.setMode_m11 (d : Dev) (m : Mode) (h : d.mode = .m11) : d.setMode m = d := by simp [Dev.setMode, h]

/-! ### Accesses that reach their register, and those that do not (R11) -/

theorem Dev.onWrite_of {d : Dev} {m off : Nat} (h : d.writes m off = true) (f : Dev → Dev) : d.onWrite m off f = f d.noAbort := by
  simp [Dev.onWrite, h]

theorem Dev.onWrite_of_not {d : Dev} {m off : Nat} (h : d.writes m off = false) (f : Dev → Dev) : d.onWrite m off f = d.noAbort := by
  simp [Dev.onWrite, h]

theorem Dev.onRead_of {d : Dev} {m off : Nat} (h : d.reads m off = true) (f : Dev → Dev) : d.onRead m off f = f d := by
  simp [Dev.onRead, h]

theorem Dev.onRead_of_not {d : Dev} {m off : Nat} (h : d.reads m off = false) (f : Dev → Dev) : d.onRead m off f = d.answer 0 := by
  simp [Dev.onRead, h]

/-- A raised vector is recorded, whatever the MSI-X table holds. -/
@[simp] theorem Dev.raiseVector_irqs (d : Dev) (pf v : Nat) : (d.raiseVector pf v).hst.irqs = d.hst.irqs ++ [(pf, v)] := rfl

end Sys2Proof.Machine
end

