-- ==== Sys2Proof/Tests/Slice0.lean ====
section
/-! SUPPORT. The model's own tests: ill-formed commands are refused, worked examples of the spec, and states and operands that meet the
hypotheses of every statement. -/

namespace Sys2Proof.Tests

open Sys2Proof.Machine

set_option Elab.async false

/-! ### Ill-formed commands: a term for each check, which the check refuses -/

theorem test_registerWrite_misaligned : wellFormed (.registerWrite 6 0x61 0) = false := by decide
theorem test_reg64LowRead_misaligned : wellFormed (.reg64LowRead 6 0x1000004) = false := by decide
theorem test_reg64LowWrite_misaligned : wellFormed (.reg64LowWrite 6 0x1000004 0) = false := by decide
theorem test_reg64HighWrite_misaligned : wellFormed (.reg64HighWrite 6 0x1000008 0) = false := by decide
theorem test_rcRead_misaligned : wellFormed (.rcRead 6 0x15000002) = false := by decide
theorem test_unmappedAccess_misaligned : wellFormed (.unmappedAccess 6 0x17FFFFFD false) = false := by decide
theorem test_broadcastWrite_misaligned : wellFormed (.broadcastWrite 6 0x101 0) = false := by decide
theorem test_pierFault_kind : wellFormed (.pierFault 0 3 0 0 [] []) = false := by decide
theorem test_pierFault_pipe : wellFormed (.pierFault 0 1 2 0 [] []) = false := by decide
theorem test_strokeTimeout_pipe : wellFormed (.strokeTimeout 0 2 0) = false := by decide
theorem test_entryWindowRead_misaligned : wellFormed (.entryWindowRead 6 0xA000002) = false := by decide
theorem test_entryWindowWrite_misaligned : wellFormed (.entryWindowWrite 6 0xA000002 0) = false := by decide
theorem test_fabricLinkDown_cause : wellFormed (.fabricLinkDown 0 7) = false := by decide
theorem test_lockRead_twice : wellFormed (.lockRead [3, 3] 0) = false := by decide
theorem test_lockRead_none : wellFormed (.lockRead [] 0) = false := by decide
theorem test_pcieLinkUp_width : wellFormed (.pcieLinkUp 3 6) = false := by decide
theorem test_queueEnableWrite_inject : wellFormed (.queueEnableWrite 6 true 16 0) = false := by decide
theorem test_eventPost_class : wellFormed (.eventPost (some ⟨0, .alarm, 0, 0, 0⟩)) = false := by decide
theorem test_regulatorPoll_twice : wellFormed (.regulatorPoll [⟨1, true, 0, 720, 5, false⟩, ⟨1, false, 0, 0, 0, true⟩]) = false := by decide
theorem test_tempReading_sensors : wellFormed (.tempReading [840]) = false := by decide
theorem test_railReading_monitors : wellFormed (.railReading [750]) = false := by decide
theorem test_resetRelease_monitors : wellFormed (.resetRelease 0 false [750]) = false := by decide
theorem test_testEnRelease_monitors : wellFormed (.testEnRelease 0 [750]) = false := by decide
theorem test_railReading_all : wellFormed (.railReading (List.replicate 16 750)) = true := by decide

/-! ### No word spells a command -/

theorem test_decodeTableWord : decodeTableWord 32 0xFFFFFFFF = none := rfl

/-! ### States built for tests -/

/-- A booted device in a mode, with fields set. -/
def boot (m : Mode) (l : List (Fld × Nat)) : Dev :=
  l.foldl (fun d x => d.wr x.1 x.2) (({ State.reset.dev with mode := m }.wr F.SEC_BOOT_STATUS_PHASE 5).wr F.HST_STATUS_DL_UP 1)

/-- A state with no command waiting. -/
def st (d : Dev) : State := { State.reset with dev := d }

/-- The device after a command. -/
def after (c : Instr) (s : State) : Dev :=
  match exec c s with
  | .next t => t.dev
  | _ => s.dev

/-- A small image: sixteen ports present, port n on octet n / 8. -/
def image0 : Image :=
  { len := 4096, svn := 0, compatId := 0, tcamKeyId := 0, sharedDigest := 0, digest := 0, keySlot := 0, stages := [], states := [],
    builders := [], schemas := [], fields := [], ingress := [], egress := [], tm := [],
    ports := (List.range 16).map fun n => ⟨true, n, n / 8, 5, n % 8, 1, 8 * n, n⟩ }

/-- The device with that image in the live slot. -/
def withImage (im : Image) (d : Dev) : Dev := { d with img := { d.img with slots := [(0, some im)] } }

/-- An image with a drop and a recirculation as ingress actions: stage 0 of the ingress pipe runs action `a` on every packet. -/
def image1 (a : Nat) : Image :=
  { image0 with
    stages := [⟨0, 0, false, 0xFF, 0xFF, 0, 0, a⟩],
    ingress := [0x0B800000000000000000000000000050, 0x0C800000000000000000000000000000],
    schemas := [⟨2, true, true, 48, 32, 0, 1024, 0, 1, 2, 5⟩, ⟨1, false, false, 48, 48, 0, 0, 0, 0, 0, 0⟩] }

/-- The first table of `image1`, and its placement. -/
def schema0 : Schema := ⟨2, true, true, 48, 32, 0, 1024, 0, 1, 2, 5⟩
/-- Its placement. -/
def place0 : Place := ⟨2, 48, 0, 1024, 1, 2⟩

/-- A request from its fields. -/
def reqOf (l : List (Nat × Nat × Nat)) (seq : Nat) (slot : Option Nat) : TaeReq :=
  { req := BitVec.ofNat 2048 (packBytes l), seq := seq, master := 6, slot := slot, apply := none, recs := none }

/-- The device with `image1` and table state. -/
def taeDev (t : Tbl) : Dev := { withImage (image1 0) (boot .m3 [(F.CTL_PAIR_STATUS_STATE.ix 0, 1)]) with tbl := t }

/-- A small queued packet. -/
def desc0 : Desc := ⟨{ bytes := [1, 2, 3], md := 0 }, [], 0, 3, 0, 1, 0, 0, false, 0, 0, 0, none, none, 0⟩

/-- `TaeAnswered` as a test can evaluate it. -/
def answeredB (q : TaeReq) (o : TaeOut) (d e : Dev) : Bool :=
  decide (e.tbl.queue = d.tbl.queue.tail) &&
  (match q.slot with
   | some n => decide (e.tbl.resp.get (fun _ => TaeResp.reset) n = ⟨o.status, o.moves, q.seq, o.index, o.data⟩)
   | none => true) &&
  decide (e.rd F.TBL_TAE_SEQ_SEQ = q.seq % 2 ^ 32 ∧ e.rd F.TBL_TAE_OPS = min (d.rd F.TBL_TAE_OPS + 1) (2 ^ 64 - 1))
/-- A flash of 576 bytes: a directory that names slot A, and its bundle, signed with the key of `bundleKey`. -/
def bundleFlash : List Byte :=
  leBytes 64 0x9F22BF18000000000000000000000000000000000000000000000000000000000000000000000000000000000000000100000200000000400000000144465956 ++
  leBytes 64 0x100000000000000000000000000000001000000000000000000000000000000964000000200010203040003000157465956 ++
  leBytes 64 0x100 ++
  List.replicate 128 0 ++
  leBytes 64 0x84B1BFA86294C02FF0A4F4B266ABEA9147EDFEF6D8DAB4D761503893982761B5DF42A7420EA7D018000000000000000000000000000000000000000147534B53 ++
  leBytes 64 0xDB2AE7A0F076C75296CE2C25178E5A0869300066D28B49DE7AD26914888D54690D03AA7449E68FB90000000000000000386F22337F40A25BE5B3A1E860AC0B2D ++
  leBytes 64 0x9A18CA6A0910287B51FC48D544BACD536E0D2561A967E19E33406C3EC6D62ED6892A9E0F22159A6EAAF3BF5D3A3FA800140BCEA6452967DA4E6897018D9535AF ++
  leBytes 64 0x155371D809C001414D
/-- The SHAKE256 digest of the key that signs the bundle. -/
def bundleKey : BitVec 512 := 0x84F3D7A340946F0B6A3E9F9F447742F910E9C983FCDF20A75A77661E1DDC666A19EE97BCF39696E4F3D1123DD0BA3721B25CE0249EF2AB672A5AEE22CF76F1F6

/-- The smallest image: one record of each section that must have one, signed with the key of `imgKey`. -/
def imgBytes : List Byte :=
  leBytes 64 0x1000200000E00000001000000000A00000F00A00396400000000100545249564F4B53 ++
  List.replicate 128 0 ++
  leBytes 64 0x77247750000000000000000000000000000000000000000000000000000000000000000000000000000000000000000000000000000000000000000000000000 ++
  leBytes 64 0x400000000103C8EB67000000400000028000000002000000000000000000000020000000013FE621E3000000200000024000000001 ++
  leBytes 64 0x40000000016114B953000000400000034000000004000000000000000000000080000000012349A75600000080000002C000000003 ++
  leBytes 64 0x100000000142709AEA000000100000050000000006000000000000000000000010000000173E131EC1000001700000038000000005 ++
  leBytes 64 0x1000000000000000000000000000000580000000080000000000000000000000100000000142709AEA000000100000054000000007 ++
  leBytes 64 0x8000000001686047090000008000000D800000000A000000000000000000000010000000805BC75891000008000000058000000009 ++
  leBytes 64 0xFFFFFF000000 ++
  List.replicate 64 0 ++
  leBytes 64 0x800000000000000000000000000080100 ++
  List.replicate 64 0 ++
  leBytes 64 0x1000300001 ++
  leBytes 64 0x400040003000000000000000000000001000300020000000000000000000000020001000100000000000000000003000100000000 ++
  leBytes 64 0x30002001B0007000000000000000000030003001800060000000000000000000000080010000500000000000000000003000800080004 ++
  leBytes 64 0x300160040000B0000000000000000000200080030000A00000000000000000002001000200009000000000000000000020002001D0008 ++
  leBytes 64 0x3003C00C0000F00000000000000000003002000A0000E00000000000000000003000E0080000D0000000000000000000300150060000C ++
  leBytes 64 0x901200013000000000000000000010006011800120000000000000000000300020110001100000000000000000003001001000010 ++
  leBytes 64 0x18015000160000000000000000000300080140001500000000000000000000001001300014 ++
  List.replicate 128 0 ++
  ((List.range 128).flatMap fun n => leBytes 16 (n + 0)) ++
  leBytes 64 0x1C68B3F505C9C74BC5D5A1F687715CE8E880BA69187CEA0D084D8A32C6BA3E0422BDDB94686580822 ++
  List.replicate 64 0 ++
  leBytes 64 0x5944B28155E1E751032158F59DAE7BA588255FA17FD5B0FCA83B84ECC7466F32A0DC7FE5A38B91DA000000000000000000000000000000000000030147534B53 ++
  leBytes 64 0xF5F559F2E8107F457F0DFA7EB0C830F1BF9AD6199C7E03241D397E1EF48AA388884019665531AC1F0000000000000000C9E872EA99067C712D5835E8E1CDA7C0 ++
  leBytes 64 0xAC9C5C40B4CBCF57DB7537D976FCF11E64E2E7C210BC621A76CD37CB75C0C227E04A732D5D9FDE3AD402771FCB45D4800979CA00DB1B1FB2F6503076C14581FF ++
  leBytes 64 0xCFF957CF256EAA674
/-- The SHAKE256 digest of the key that signs the image. -/
def imgKey : BitVec 512 := 0x59275D479FABC9F9C0500C4AD7221B7CF607B1E7A459A38EA559A5D83B7F40DE49C8ED8C85271942150C6079FB1B5D66891E5614B9DDD6F2EAFE16412076CBD6

set_option maxRecDepth 8000

/-! ### A signature verified and a digest taken in parts -/

/-- The bytes that SHAKE256 absorbs: the message and its padding. -/
def padded (l : List Byte) : List Byte :=
  l ++ (if l.length % 136 = 135 then [0x9F] else [0x1F] ++ List.replicate (134 - l.length % 136) 0 ++ [0x80])

/-- Absorbing `m + n` blocks is absorbing `m` and then `n`. -/
theorem shakeAbsorb_add (m n a : Nat) (l : List Byte) :
    shakeAbsorb (m + n) a l = shakeAbsorb n (shakeAbsorb m a l) (l.drop (136 * m)) := by
  induction m generalizing a l with
  | zero => simp [shakeAbsorb]
  | succ m ih =>
    rw [Nat.add_right_comm, shakeAbsorb, ih, shakeAbsorb, List.drop_drop]
    congr 2
    omega

/-- A digest from the states after each of three parts of its blocks. -/
theorem shake256_parts {l : List Byte} {a b c : Nat} (i j k : Nat) (hn : (padded l).length / 136 = i + j + k)
    (h1 : shakeAbsorb i 0 (padded l) = a) (h2 : shakeAbsorb j a ((padded l).drop (136 * i)) = b)
    (h3 : shakeAbsorb k b ((padded l).drop (136 * (i + j))) = c) :
    shake256 l 64 = (shakeSqueeze 1 c).take 64 := by
  have h : shakeAbsorb ((padded l).length / 136) 0 (padded l) = c := by
    rw [hn, shakeAbsorb_add, shakeAbsorb_add, h1, h2, h3]
  exact congrArg (fun x => (shakeSqueeze 1 x).take 64) h

/-- The coordinates of a decoded point. -/
def coords (o : Option EdPoint) : Option (Nat × Nat × Nat) := o.map fun p => (p.x, p.y, p.z)

theorem eq_some_of_coords {o : Option EdPoint} {x y z : Nat} (h : coords o = some (x, y, z)) : o = some ⟨x, y, z⟩ := by
  cases o with
  | none => exact nomatch h
  | some p => cases p; simpa [coords] using h

/-- A signature verifies when both sides of its equation encode to the same bytes. -/
theorem edVerify_of {ctx key msg sig : List Byte} {a r : EdPoint} {h : Nat} {e : List Byte} (ha : edDecode key = some a)
    (hr : edDecode (sig.take 57) = some r) (hs : ¬(sig.length ≠ 114 ∨ leNat (sig.drop 57) ≥ edL))
    (hh : leNat (shake256 (edDom 1 ctx ++ sig.take 57 ++ key ++ msg) 114) % edL = h)
    (h1 : edEncode (edMul 448 (leNat (sig.drop 57)) edBase) = e) (h2 : edEncode (edAdd r (edMul 448 h a)) = e) :
    edVerify 1 ctx key msg sig = true := by
  simp only [edVerify, ha, hr, if_neg hs, hh, h1, h2, beq_self_eq_true]

/-- A signature block passes when its form, its key and its signature do. -/
theorem sigCause_of {ctx blk digest : List Byte} {keys : List (BitVec 512)} {revoked : Nat}
    (h1 : ¬(bytesAt blk 0 4 ≠ [0x53, 0x4B, 0x53, 0x47] ∨ at_ blk 4 1 ≠ 1)) (h2 : ¬(revoked >>> at_ blk 5 1) % 2 = 1)
    (h3 : keys[at_ blk 5 1]? = some (BitVec.ofNat 512 (leNat (shake256 (bytesAt blk 24 57) 64))))
    (h4 : edVerify 1 ctx (bytesAt blk 24 57) digest (bytesAt blk 88 114) = true) : sigCause ctx blk digest keys revoked = 0 := by
  unfold sigCause
  simp only [if_neg h1, h3, h2, h4, ne_eq, not_true_eq_false, or_self, if_false, if_true]

/-! ### The bundle that boots -/

/-- The bundle in slot A of `bundleFlash`, and its signature block. -/
def bundleBytes : List Byte := bundleFlash.drop 64
/-- Its signature block. -/
def bundleSig : List Byte := bytesAt bundleBytes 256 256
/-- The digest that the bundle's signature is over. -/
def bundleDigest : List Byte := leBytes 64 3077796101680084542033487537780433591737359090342518930365823569775868281301669700451817541413035216951708881715541210697593897454558985171196012886587475

theorem bundle_key_digest : BitVec.ofNat 512 (leNat (shake256 (bytesAt bundleSig 24 57) 64)) = bundleKey := by decide +kernel

theorem bundle_digest : shake256 (bundleBytes.take 256) 64 = bundleDigest := by
  rw [shake256_parts 1 1 0 (a := 0x2546102D9C1051457C2F1DC9F61C74DF5580A981615A98EC6568FE6C089A059055ED49E331805955C8D6A90637F43E8647D6EA29D7FF6C879BD5B979187C72D4EC33CBCB82C73D2FA8E7965293E5BCF6DE52C889747D504188D3C4911769009D759125C3BD12DD19E72E8A4155CDB9871FEC89C83FC4AD42D68233631110C972F378E8247B7F18B7983313C0C48F08CEC66237326494FE7E51F56D5E31A69EB3791ABFC2E8A240374DF5CD55F4061EF31CB6F5509B51D1C44C93D5CA40333E8B07D4F297E406BB12)
    (b := 0xE38691B8518C675CA213A275AD3E555364537894E6744292715AB52FD8FAA8D76C440904EAFE532F88CD1984CC2B454576B486FABA7E31924270E0071DA486486C19737C4032AA7E93FC61405DC2A458229E635E8FE51147E5A8C877DF356077469702B8541154D32F32DF1BFFF8CE2F80315ECB29ACDBAA452D1D272FF5D55B597A17F471E8D2903AC3F4374B8944D77F73FD095B896A725579504311F6036052C68E1E4E24253DBDC7399427B0650197C5E595A3A47C67557324F1B462D1E970B964B4DD957853)
    (c := 0xE38691B8518C675CA213A275AD3E555364537894E6744292715AB52FD8FAA8D76C440904EAFE532F88CD1984CC2B454576B486FABA7E31924270E0071DA486486C19737C4032AA7E93FC61405DC2A458229E635E8FE51147E5A8C877DF356077469702B8541154D32F32DF1BFFF8CE2F80315ECB29ACDBAA452D1D272FF5D55B597A17F471E8D2903AC3F4374B8944D77F73FD095B896A725579504311F6036052C68E1E4E24253DBDC7399427B0650197C5E595A3A47C67557324F1B462D1E970B964B4DD957853)
    (by decide +kernel) (by decide +kernel) (by decide +kernel) (by decide +kernel)]
  decide +kernel

theorem bundle_signature : edVerify 1 fwContext (bytesAt bundleSig 24 57) bundleDigest (bytesAt bundleSig 88 114) = true :=
  edVerify_of (h := 151894018392183329241305264168835892915326102366709655923337137107876241437937821346173556996828944872630541899641685412568134395338538)
    (e := leBytes 57 93148381354479341753767714456751088364094856279362604181312970823530517221403307453243911640650206400032548893519177782328179662737440076)
    (eq_some_of_coords (x := 262115255034005496642931503645681570450428101286196545917545715810556475142850091955301637487603842993113678049842870879240015159316250)
      (y := 160228517979496389043194258500241232278934205070061289075771386078132690324172771511235097021776995157464930765622485646616054196588568)
      (z := 1) (by decide +kernel))
    (eq_some_of_coords (x := 504139202514350465476173681671993424341090266044765917039607244762500936720097842842875836441672081677593093726637196858595380789904204)
      (y := 56915225470667786906554736724948635083102863987146920060779284808510394114530551509636720898946959112176530696211920818677916335771577)
      (z := 1) (by decide +kernel))
    (by decide +kernel) (by decide +kernel) (by decide +kernel) (by decide +kernel)

/-- The state at the boot's end, with `bundleFlash` in its flash and the digest of its key fused. -/
def bootState : State :=
  st { boot .m1 [(F.SEC_BOOT_STATUS_PHASE, 3)] with
    sec := { Sec.reset with flash := bundleFlash.zipIdx.map fun x => (x.2, x.1), fuses := { Fuses.reset with fwKeys := [bundleKey, 0] } } }

/-- A list of cells from key `k` on, read at a key. -/
theorem get_zipIdx (dflt : Nat → Byte) (l : List Byte) (k i : Nat) (hi : i < l.length) :
    SMap.get dflt ((l.zipIdx k).map fun x => (x.2, x.1)) (k + i) = l[i] := by
  induction l generalizing k i with
  | nil => exact absurd hi (Nat.not_lt_zero i)
  | cons b t ih =>
    cases i with
    | zero => simp [SMap.get]
    | succ i =>
      have h := ih (k + 1) i (Nat.lt_of_succ_lt_succ hi)
      rw [show k + 1 + i = k + (i + 1) by omega] at h
      simpa [SMap.get] using h

theorem bootState_bundle : bootState.dev.flashBytes 64 512 = bundleBytes := by
  have hn : bundleFlash.length = 576 := by decide +kernel
  refine List.ext_getElem (by simp [Dev.flashBytes, bundleBytes, hn]) fun i h1 h2 => ?_
  have hi : 64 + i < bundleFlash.length := by
    simp only [Dev.flashBytes, List.length_map, List.length_range] at h1
    omega
  have h := get_zipIdx (fun _ => 0xFF) bundleFlash 0 (64 + i) hi
  rw [Nat.zero_add] at h
  simp only [Dev.flashBytes, List.getElem_map, List.getElem_range, bundleBytes, List.getElem_drop]
  exact h

/-- A slot that is read passes when no check fails. -/
theorem tryBundle_passed (d : Dev) (n k m : Nat) :
    (d.tryBundle (n, k, m) false).passed = (bundleCause d.sec.fuses (d.flashBytes k (min m 8388608)) m == 0) := rfl

theorem bundle_passes : bundleCause bootState.dev.sec.fuses bundleBytes 512 = 0 := by
  have hs : sigCause fwContext bundleSig bundleDigest bootState.dev.sec.fuses.fwKeys 0 = 0 :=
    sigCause_of (by decide +kernel) (by decide +kernel) (by rw [bundle_key_digest]; decide +kernel) bundle_signature
  have h3 : ¬(512 < 512 ∨ 8388608 < 512 ∨ bytesAt bundleBytes 0 4 ≠ [0x56, 0x59, 0x46, 0x57] ∨ at_ bundleBytes 4 2 ≠ 1 ∨
      at_ bundleBytes 12 4 ≠ 512 ∨ componentsInside bundleBytes 512 = false) := by decide +kernel
  have h4 : ¬at_ bundleBytes 16 2 ≠ 0x9640 := by decide +kernel
  have h5 : ¬at_ bundleBytes 6 2 < bootState.dev.sec.fuses.fwArb := by decide +kernel
  have h6 : ¬(at_ bundleSig 5 1 < 2 ∧ bitOn bootState.dev.sec.fuses.revoke (at_ bundleSig 5 1) = true) := by decide +kernel
  have h7 : ¬bootState.dev.sec.fuses.fwKeys[at_ bundleSig 5 1]? ≠ some bundleKey := by decide +kernel
  have h9 : ¬(List.range 3).any (fun c => crc32c (componentBytes bundleBytes c) != (component bundleBytes c).2.2) = true := by decide +kernel
  unfold bundleCause
  have hg : bytesAt bundleBytes 256 256 = bundleSig := rfl
  simp only [Nat.reduceSub, hg, bundle_key_digest, bundle_digest, hs, if_neg h3, if_neg h4, if_neg h5, if_neg h6, if_neg h7, if_neg h9, ne_eq, not_true_eq_false, if_false]

/-! ### Worked examples of the spec -/

/-- The check value that R157 gives for its hash: CRC-32C of "123456789". -/
theorem test_hash_check_value :
    crc32cFrom 0xFFFFFFFF [0x31, 0x32, 0x33, 0x34, 0x35, 0x36, 0x37, 0x38, 0x39] = 0xE3069283 := by decide +kernel

/-- A walk suspended by step S2 on a twin-active device (chapter 1, after R24): GLB_MODE reads 8 and GLB_MODE_FLAGS 0x8005_0190. -/
theorem test_modes_together :
    (let d := boot .m4 [(F.IMG_WALK_STATUS_STATE, 2), (F.PWR_STATUS_SHED_STEP, 2)]
     let e : Dev := { d with img := { d.img with walkOn := true } }
     decide (e.glbMode = 8 ∧ e.modeFlags = 0x80050190)) = true := by decide +kernel

/-- The timestamp of the example after R44: 1,705,120,000 s, 259 ns and a fraction of 0xBD70. -/
theorem test_timestamp :
    (boot .m3 [(F.TIM_TOD_BASE, 1700000000), (F.TIM_CORR, 0x18000)]).phcUnits 5000000000 807 =
      (1705120000 * 1000000000 + 259) * 65536 + 0xBD70 := by decide +kernel

/-- The records of the example after R226: a packet of 512 bytes takes 3 sectors. -/
theorem test_sectors : sectorsOf 512 = 3 := by decide

/-! ### Hypotheses that can be met -/

/-- States and operands that meet the hypotheses of TimeCommandsComplete, parts 1, 2, 3, 4, 5, 6, 7, 8. -/
theorem witness_TimeCommandsComplete :
    (let s : State := st (boot .m2 [(F.GLB_STRAP_SELF_TIMED, 1), (F.TIM_STATUS_LOCKED, 1)])
     let m : Master := 6
     let src : BitVec 2 := 2
     decide (s.dev.writes m.val F.TIM_CTRL.off = true ∧ s.dev.mode = .m2 ∧ src ≠ 3 ∧
             ((s.dev.on F.GLB_STRAP_SELF_TIMED = true ∨ src = 0)) ∧ src.toNat ≠ s.dev.rd F.TIM_CTRL_SRC)) = true ∧
    (let s : State := st { boot .m3 [(F.FAB_LINKS_UP_UP, 3)] with tim := { Tim.reset with tick := 2 }, fab := { Fab.reset with linkSpans := [(0, [(2, 8, 8), (1, 7, 7)]), (1, [(2, 9, 8), (1, 9, 7)])] } }
     let link : Fin 40 := 1
     let x : Nat × Nat := (9, 8)
     let y : Nat × Nat := (9, 7)
     decide (s.dev.rd F.TIM_CTRL_SRC = 0 ∧ s.dev.timeLink link.val = true ∧ s.dev.tim.tick ≠ 0 ∧
             s.dev.disagreeAt link.val s.dev.tim.tick = some x ∧ s.dev.disagreeAt link.val (s.dev.tim.tick - 1) = some y)) = true ∧
    (let s : State := st { boot .m3 [(F.TIM_STATUS_LOCKED, 1)] with tim := { Tim.reset with tick := 4 } }
     decide (s.dev.rd F.TIM_CTRL_SRC = 0 ∧ s.dev.locked = true ∧ s.dev.tim.lastCtl + 4 ≤ s.dev.tim.tick)) = true ∧
    (let s : State := st { boot .m3 [(F.FAB_LINKS_UP_UP, 1)] with tim := { Tim.reset with pllLocked := true, tick := 9, slot := 7 }, fab := { Fab.reset with linkRun := [(0, 4)], linkSpans := [(0, [(8, 2 ^ 48 - 1, 3)])] } }
     let i : Nat := 0
     let t : Nat := 8
     let k : Nat := 2 ^ 48 - 1
     decide (s.dev.rd F.TIM_CTRL_SRC = 0 ∧ s.dev.locked = false ∧ s.dev.tim.pllLocked = true ∧ s.dev.fabricSteady = some i ∧
             s.dev.lastControl i = some (t, k))) = true ∧
    (let s : State := st { boot .m3 [(F.TIM_CTRL_SRC, 1)] with tim := { Tim.reset with span := 77 } }
     decide (s.dev.tim.pllLocked = false ∧ s.dev.rd F.TIM_CTRL_SRC = 1)) = true ∧
    (let s : State := st { boot .m3 [(F.TIM_STATUS_LOCKED, 1)] with tim := { Tim.reset with pllLocked := true, span := 3 } }
     decide (s.dev.tim.pllLocked = true)) = true ∧
    (let s : State := st { boot .m3 [(F.TIM_CTRL_SRC, 2), (F.TIM_SYNC_CFG_LOAD_ARM, 1), (F.TIM_SYNC_LOAD, 2 ^ 48 - 1)] with tim := { Tim.reset with pllLocked := true, slot := 9 } }
     decide (s.dev.rd F.TIM_CTRL_SRC = 2 ∧ s.dev.tim.pllLocked = true ∧ s.dev.on F.TIM_SYNC_CFG_LOAD_ARM = true)) = true ∧
    (let s : State := st { boot .m3 [(F.TIM_CTRL_SRC, 2), (F.TIM_STATUS_LOCKED, 1)] with tim := { Tim.reset with span := 1024 } }
     let slot : Fin 100 := 1
     decide (s.dev.rd F.TIM_CTRL_SRC = 2 ∧ s.dev.on F.TIM_SYNC_CFG_LOAD_ARM = false ∧ (slot.val ≠ 0 ∨ s.dev.tim.span % 1024 ≠ 0))) = true := by
  decide +kernel

/-- States and operands that meet the hypotheses of TimeCommandsComplete, parts 9, 10, 11, 13, 14, 15, 16, 17. -/
theorem witness_TimeCommandsComplete_2 :
    (let s : State := st (boot .m3 [(F.TIM_CTRL_SRC, 2), (F.TIM_STATUS_LOCKED, 1)])
     decide (s.dev.rd F.TIM_CTRL_SRC = 2)) = true ∧
    (let s : State := st (boot .m3 [])
     let m : Master := 0
     decide (s.dev.writes m.val F.TIM_SYNC_CFG.off = true ∧ s.dev.rd F.TIM_CTRL_SRC ≠ 1)) = true ∧
    (let s : State := st { boot .m3 [(F.TIM_SYNC_CFG_OUT_EN, 1), (F.TIM_STATUS_LOCKED, 1)] with tim := { Tim.reset with pllLocked := true, span := 2048 } }
     decide (s.dev.on F.TIM_SYNC_CFG_OUT_EN = true ∧ s.dev.stcHeld = false ∧ s.dev.tim.span % 1024 = 0)) = true ∧
    (let s : State := st { boot .m3 [(F.TIM_CTRL_SRC, 1), (F.TIM_PPS_CFG_IN_EN, 1)] with tim := { Tim.reset with ppsGood := 7 } }
     let err : BitVec 32 := -62
     decide (s.dev.rd F.TIM_CTRL_SRC = 1 ∧ s.dev.on F.TIM_PPS_CFG_IN_EN = true ∧ s.dev.tim.todPending = none ∧
             err.toInt.natAbs * 32 ≤ 2000 ∧ 7 ≤ s.dev.tim.ppsGood)) = true ∧
    (let s : State := st (boot .m3 [(F.TIM_CTRL_SRC, 1), (F.TIM_PPS_CFG_IN_EN, 1), (F.TIM_STATUS_PPS_LOCK, 1)])
     let err : BitVec 32 := 313
     decide (s.dev.rd F.TIM_CTRL_SRC = 1 ∧ s.dev.on F.TIM_PPS_CFG_IN_EN = true ∧ s.dev.tim.todPending = none ∧
             10000 < err.toInt.natAbs * 32 ∧ s.dev.on F.TIM_STATUS_PPS_LOCK = true)) = true ∧
    (let s : State := st { boot .m3 [(F.TIM_CTRL_SRC, 1), (F.TIM_PPS_CFG_IN_EN, 1), (F.TIM_STATUS_PPS_LOCK, 1)] with tim := { Tim.reset with ppsGood := 9 } }
     decide (s.dev.rd F.TIM_CTRL_SRC = 1 ∧ s.dev.on F.TIM_PPS_CFG_IN_EN = true)) = true ∧
    (let ms : Nat := 900
     decide (100 ≤ ms ∧ ms ≤ 900)) = true ∧
    (let ms : Nat := 99
     decide ((ms < 100 ∨ 900 < ms))) = true := by
  decide +kernel

/-- States and operands that meet the hypotheses of TimeCommandsComplete, parts 18, 19, 20, 21, 22. -/
theorem witness_TimeCommandsComplete_3 :
    (let s : State := st { boot .m3 [(F.TIM_PPS_CFG_OUT_EN, 1), (F.TIM_PPS_CFG_OUT_WIDTH, 10), (F.TIM_STATUS_LOCKED, 1), (F.TIM_TOD_BASE, 5)] with tim := { Tim.reset with pllLocked := true } }
     decide (s.dev.stcHeld = false ∧ s.dev.phcNs / 1000000000 ≠ s.dev.tim.phcSecond ∧ s.dev.on F.TIM_PPS_CFG_OUT_EN = true)) = true ∧
    (let s : State := st { boot .m3 [(F.TIM_PPS_CFG_OUT_EN, 1), (F.TIM_TOD_BASE_NS, 500000000)] with tim := { Tim.reset with todTxDue := true } }
     decide (s.dev.on F.TIM_PPS_CFG_OUT_EN = true ∧ s.dev.tim.todTxDue = true ∧ 500000000 ≤ s.dev.phcNs % 1000000000)) = true ∧
    (let s : State := st { boot .m3 [(F.TIM_STATUS_LOCKED, 1)] with tim := { Tim.reset with pllLocked := true, tick := 1, basePending := some (3, 4) } }
     let a : Nat := 3
     let n : Nat := 4
     decide (s.dev.tim.basePending = some (a, n) ∧ s.dev.stcHeld = false ∧ s.dev.tim.slot = 0 ∧
             s.dev.tim.basePendingTick < s.dev.tim.tick)) = true ∧
    (let s : State := st { boot .m3 [(F.TIM_STATUS_LOCKED, 1)] with tim := { Tim.reset with pllLocked := true, tick := 1, corrPending := some 5 } }
     let c : BitVec 32 := 5
     decide (s.dev.tim.corrPending = some c ∧ s.dev.stcHeld = false ∧ s.dev.tim.slot = 0 ∧
             s.dev.tim.corrPendingTick < s.dev.tim.tick)) = true ∧
    (let s : State := st { boot .m3 [] with tim := { Tim.reset with slot := 40, basePending := some (3, 4) } }
     decide (s.dev.tim.slot ≠ 0)) = true := by
  decide +kernel

/-- States and operands that meet the hypotheses of TimedActionCommandsComplete, parts 1, 2, 3, 4, 5, 6, 7, 8. -/
theorem witness_TimedActionCommandsComplete :
    (let s : State := st (boot .m3 [])
     let m : Master := 1
     decide (s.dev.writes m.val F.TIM_TA_INDEX.off = true)) = true ∧
    (let s : State := st { boot .m3 [(F.TIM_STATUS_LOCKED, 1)] with tim := { Tim.reset with span := 2 ^ 48 - 1, staging := [(0, ⟨255, 1, 6, 7⟩)] } }
     let m : Master := 0
     decide (s.dev.writes m.val F.TIM_TA_CMD.off = true ∧ s.dev.localBarred m.val = false ∧ s.dev.locked = true ∧
             (s.dev.stagingOf m.val).type < 7 ∧ (s.dev.stagingOf m.val).type ≠ 1 ∧
             (((s.dev.stagingOf m.val).type = 5 → taBarred (taOffset (s.dev.stagingOf m.val).operand) = false)) ∧
             (s.dev.entryAt (s.dev.stagingOf m.val).index).state ≠ .armed ∧
             spanAtLeast (s.dev.stagingOf m.val).span s.dev.tim.span 2 = true)) = true ∧
    (let s : State := st { boot .m3 [(F.TIM_STATUS_LOCKED, 1), (F.IMG_STATUS_STAGED_STATE, 3)] with tim := { Tim.reset with span := 5, staging := [(0, ⟨9, 7, 1, 0⟩)] } }
     let m : Master := 0
     decide (s.dev.writes m.val F.TIM_TA_CMD.off = true ∧ s.dev.locked = true ∧ (s.dev.stagingOf m.val).type = 1 ∧
             (s.dev.entryAt (s.dev.stagingOf m.val).index).state ≠ .armed ∧
             spanAtLeast (s.dev.stagingOf m.val).span s.dev.tim.span 2 = true ∧
             s.dev.ksCause m.val (s.dev.stagingOf m.val).span = 0)) = true ∧
    (let s : State := st { boot .m5 [(F.TIM_STATUS_LOCKED, 1)] with tim := { Tim.reset with span := 5, staging := [(0, ⟨9, 7, 6, 0⟩)] } }
     let m : Master := 0
     decide (s.dev.writes m.val F.TIM_TA_CMD.off = true ∧ s.dev.localBarred m.val = true ∧ (s.dev.stagingOf m.val).type ≠ 1)) = true ∧
    (let s : State := st { boot .m6 [] with tim := { Tim.reset with span := 5, staging := [(0, ⟨9, 7, 1, 0⟩)] } }
     let m : Master := 0
     decide (s.dev.writes m.val F.TIM_TA_CMD.off = true ∧ s.dev.localBarred m.val = true)) = true ∧
    (let s : State := st { boot .m3 [(F.TIM_STATUS_LOCKED, 1)] with tim := { Tim.reset with pllLocked := true, span := 9, entries := [(4, ⟨9, 6, 7, .armed, 1, 0⟩)] } }
     let i : Nat := 4
     decide (s.dev.taFires = true ∧ s.dev.dueKeystone = none ∧ s.dev.dueEntry = some i ∧ (s.dev.entryAt i).type = 6)) = true ∧
    (let s : State := st { boot .m3 [(F.TIM_STATUS_LOCKED, 1)] with tim := { Tim.reset with pllLocked := true, span := 9, entries := [(4, ⟨9, 1, 0, .armed, 1, 0⟩)] } }
     let i : Nat := 4
     decide (s.dev.taFires = true ∧ s.dev.dueKeystone = some i)) = true ∧
    (let s : State := st { boot .m3 [(F.TIM_STATUS_LOCKED, 1), (F.TIM_BANK_STATUS_OLD_HELD, 1), (F.TIM_EPOCH_EPOCH, 1)] with tim := { Tim.reset with pllLocked := true, span := 4096 }, que := { Que.reset with arrivals := [⟨0, { bytes := [1], md := 0 }⟩] } }
     decide (s.dev.on F.TIM_BANK_STATUS_OLD_HELD = true ∧ s.dev.tim.limitPassed = false ∧ s.dev.stcHeld = false ∧
             s.dev.tim.relockAt ≠ some s.dev.tim.tick ∧ s.dev.tim.slot = 0 ∧
             spanReached (spanAdd (s.dev.rd F.TIM_LAST_KEYSTONE) s.dev.tim.limitInForce) s.dev.tim.span = true ∧
             s.dev.oldResident ≠ 0)) = true := by
  decide +kernel

/-- States and operands that meet the hypotheses of TimedActionCommandsComplete, parts 9, 10. -/
theorem witness_TimedActionCommandsComplete_2 :
    (let s : State := st { boot .m3 [(F.TIM_STATUS_LOCKED, 1), (F.TIM_BANK_STATUS_OLD_HELD, 1), (F.IMG_STATUS_STAGED_STATE, 5)] with tim := { Tim.reset with pllLocked := true, span := 4096 } }
     decide (s.dev.on F.TIM_BANK_STATUS_OLD_HELD = true ∧ s.dev.tim.limitPassed = false ∧ s.dev.stcHeld = false ∧
             s.dev.tim.relockAt ≠ some s.dev.tim.tick ∧ s.dev.tim.slot = 0 ∧
             spanReached (spanAdd (s.dev.rd F.TIM_LAST_KEYSTONE) s.dev.tim.limitInForce) s.dev.tim.span = true ∧
             s.dev.oldResident = 0)) = true ∧
    (let s : State := st (boot .m3 [(F.TIM_BANK_STATUS_SWEEP, 1), (F.TIM_BANK_STATUS_OLD_HELD, 1), (F.IMG_STATUS_STAGED_STATE, 5)])
     decide (s.dev.on F.TIM_BANK_STATUS_SWEEP = true)) = true := by
  decide +kernel

/-- States and operands that meet the hypotheses of CancelNeedsTwoSpans, parts 1, 2. -/
theorem witness_CancelNeedsTwoSpans :
    (let s : State := st { boot .m3 [] with tim := { Tim.reset with span := 5, entries := [(0, ⟨7, 6, 0, .armed, 1, 0⟩)] } }
     let m : Master := 0
     let i := (s.dev.stagingOf m.val).index
     let e := s.dev.entryAt i
     decide (s.dev.writes m.val F.TIM_TA_CMD.off = true ∧ s.dev.localBarred m.val = false ∧ e.state = .armed ∧
             spanAtLeast e.span s.dev.tim.span 2 = true)) = true ∧
    (let s : State := st { boot .m3 [] with tim := { Tim.reset with span := 5, entries := [(0, ⟨6, 6, 0, .armed, 1, 0⟩)] } }
     let m : Master := 0
     let i := (s.dev.stagingOf m.val).index
     let e := s.dev.entryAt i
     decide (s.dev.writes m.val F.TIM_TA_CMD.off = true ∧ s.dev.localBarred m.val = false ∧
             (e.state ≠ .armed ∨ spanAtLeast e.span s.dev.tim.span 2 = false))) = true := by
  decide +kernel

/-- States and operands that meet the hypotheses of ArmRefusalsInOrder, parts 1, 2, 3, 4, 5. -/
theorem witness_ArmRefusalsInOrder :
    (let s : State := st (boot .m3 [])
     let m : Master := 0
     decide (s.dev.writes m.val F.TIM_TA_CMD.off = true ∧ (s.dev.localBarred m.val = false ∨ (s.dev.stagingOf m.val).type = 1) ∧
             s.dev.locked = false)) = true ∧
    (let s : State := st { boot .m3 [(F.TIM_STATUS_LOCKED, 1)] with tim := { Tim.reset with staging := [(0, ⟨1, 9, 7, 0⟩)] } }
     let m : Master := 0
     let g := s.dev.stagingOf m.val
     let bad := 7 ≤ g.type ∨ (g.type = 5 ∧ taBarred (taOffset g.operand) = true)
     decide (s.dev.writes m.val F.TIM_TA_CMD.off = true ∧ (s.dev.localBarred m.val = false ∨ (s.dev.stagingOf m.val).type = 1) ∧
             s.dev.locked = true ∧ bad)) = true ∧
    (let s : State := st { boot .m3 [(F.TIM_STATUS_LOCKED, 1)] with tim := { Tim.reset with entries := [(0, ⟨9, 6, 0, .armed, 1, 0⟩)] } }
     let m : Master := 0
     let g := s.dev.stagingOf m.val
     let e := s.dev.entryAt g.index
     let bad := 7 ≤ g.type ∨ (g.type = 5 ∧ taBarred (taOffset g.operand) = true)
     decide (s.dev.writes m.val F.TIM_TA_CMD.off = true ∧ (s.dev.localBarred m.val = false ∨ (s.dev.stagingOf m.val).type = 1) ∧
             s.dev.locked = true ∧ ¬ bad ∧ e.state = .armed)) = true ∧
    (let s : State := st { boot .m3 [(F.TIM_STATUS_LOCKED, 1)] with tim := { Tim.reset with staging := [(0, ⟨1, 1, 6, 0⟩)] } }
     let m : Master := 0
     let g := s.dev.stagingOf m.val
     let e := s.dev.entryAt g.index
     let bad := 7 ≤ g.type ∨ (g.type = 5 ∧ taBarred (taOffset g.operand) = true)
     decide (s.dev.writes m.val F.TIM_TA_CMD.off = true ∧ (s.dev.localBarred m.val = false ∨ (s.dev.stagingOf m.val).type = 1) ∧
             s.dev.locked = true ∧ ¬ bad ∧ e.state ≠ .armed ∧ spanAtLeast g.span s.dev.tim.span 2 = false)) = true ∧
    (let s : State := st { boot .m5 [(F.TIM_STATUS_LOCKED, 1), (F.IMG_STATUS_STAGED_STATE, 3)] with tim := { Tim.reset with span := 5, staging := [(0, ⟨9, 7, 1, 0⟩)] } }
     let m : Master := 0
     let g := s.dev.stagingOf m.val
     let e := s.dev.entryAt g.index
     let bad := 7 ≤ g.type ∨ (g.type = 5 ∧ taBarred (taOffset g.operand) = true)
     decide (s.dev.writes m.val F.TIM_TA_CMD.off = true ∧ (s.dev.localBarred m.val = false ∨ (s.dev.stagingOf m.val).type = 1) ∧
             s.dev.locked = true ∧ ¬ bad ∧ e.state ≠ .armed ∧ spanAtLeast g.span s.dev.tim.span 2 = true ∧ g.type = 1 ∧
             s.dev.ksCause m.val g.span ≠ 0)) = true := by
  decide +kernel

set_option maxRecDepth 8000 in
/-- States and operands that meet the hypotheses of ImageLoadCommandsComplete, parts 1, 2, 3, 4, 5, 6. -/
theorem witness_ImageLoadCommandsComplete :
    (let s : State := st (boot .m2 [(F.IMG_LOAD_LEN, 4096)])
     let m : Master := 6
     let t : BitVec 2 := 0
     decide (s.dev.writes m.val F.IMG_LOAD_CMD.off = true ∧ s.dev.loadBar t.toNat = 0)) = true ∧
    (let s : State := st { boot .m2 [] with img := { Img.reset with load := some ⟨0, 0, 4096, 6, none⟩ } }
     let m : Master := 6
     let t : BitVec 2 := 0
     decide (s.dev.writes m.val F.IMG_LOAD_CMD.off = true ∧ s.dev.loadBar t.toNat ≠ 0)) = true ∧
    (let s : State := st { boot .m2 [(F.IMG_STATUS_LOAD_BUSY, 1), (F.IMG_STATUS_STAGED_STATE, 1)] with img := { Img.reset with load := some ⟨1, 0, 4096, 6, none⟩ } }
     let m : Master := 6
     let ld : LoadOp := ⟨1, 0, 4096, 6, none⟩
     decide (s.dev.writes m.val F.IMG_LOAD_CMD.off = true ∧ s.dev.img.load = some ld)) = true ∧
    (let s : State := st { boot .m2 [(F.IMG_STATUS_LOAD_BUSY, 1), (F.IMG_STATUS_STAGED_STATE, 1)] with img := { Img.reset with load := some ⟨1, 0, 4096, 6, none⟩ } }
     let ld : LoadOp := ⟨1, 0, 4096, 6, none⟩
     decide (s.dev.img.load = some ld)) = true ∧
    (let s : State := st { boot .m2 [(F.DGN_CU_STATUS_STATE.ix 0, 2)] with img := { Img.reset with load := some ⟨1, 0, 64, 6, none⟩ }, dgn := { Dgn.reset with units := [(0, ⟨1, 0, true, 0, 0, 0, []⟩)] } }
     let ld : LoadOp := ⟨1, 0, 64, 6, none⟩
     let l : List Byte := []
     let raw := bytesAt (ld.streamed.getD l) 0 (min ld.len imageMax)
     decide (s.dev.img.load = some ld ∧ (s.dev.streamEnds 1 0 (some raw)).1 = true)) = true ∧
    (let s : State := st { boot .m2 [] with img := { Img.reset with load := some ⟨1, 0, 64, 6, none⟩ } }
     let ld : LoadOp := ⟨1, 0, 64, 6, none⟩
     let l : List Byte := []
     let f : LoadFail := ⟨1, 0, 64⟩
     let raw := bytesAt (ld.streamed.getD l) 0 (min ld.len imageMax)
     decide (s.dev.img.load = some ld ∧ (s.dev.streamEnds 1 0 (some raw)).1 = false ∧
             checkImage raw ld.len s.dev.sec.fuses.variantS (s.dev.rd F.IMG_MIN_SVN_SVN) (s.dev.rd F.CTL_FW_VERSION_VERSION) ld.target s.dev.liveImage = .inl f)) = true := by
  decide +kernel

/-- States and operands that meet the hypotheses of WalkCommandsComplete, parts 1, 2, 3, 4, 5, 6, 7. -/
theorem witness_WalkCommandsComplete :
    (let s : State := st (boot .m3 [(F.IMG_STATUS_STAGED_STATE, 4), (F.IMG_PIER_STATUS_STATE.ix 16, 1), (F.IMG_WALK_START_SPAN, 2), (F.IMG_WALK_INTERVAL_SPANS, 1024), (F.IMG_STATUS_LIVE_VALID, 1)])
     let m : Master := 6
     decide (s.dev.writes m.val F.IMG_WALK_CMD.off = true ∧ s.dev.walkBar m.val false = 0)) = true ∧
    (let s : State := st (boot .m2 [])
     let m : Master := 6
     decide (s.dev.writes m.val F.IMG_WALK_CMD.off = true ∧ s.dev.walkBar m.val false ≠ 0)) = true ∧
    (let s : State := st { boot .m3 [(F.IMG_WALK_STATUS_STATE, 1), (F.IMG_STATUS_STAGED_STATE, 7)] with img := { Img.reset with walkOn := true } }
     let m : Master := 6
     decide (s.dev.writes m.val F.IMG_WALK_CMD.off = true ∧ s.dev.mode ≠ .m5 ∧ s.dev.mode ≠ .m6 ∧
             (s.dev.walkState = 1 ∨ s.dev.walkState = 2) ∧ s.dev.inStep = false)) = true ∧
    (let s : State := st (boot .m3 [(F.IMG_WALK_STATUS_STATE, 3), (F.IMG_STATUS_STAGED_STATE, 7), (F.IMG_WALK_STATUS_STEPS_DONE, 15), (F.IMG_PIER_STATUS_STATE.ix 16, 1), (F.IMG_WALK_START_SPAN, 2), (F.IMG_WALK_INTERVAL_SPANS, 65536)])
     let m : Master := 6
     decide (s.dev.writes m.val F.IMG_WALK_CMD.off = true ∧ s.dev.walkBar m.val true = 0 ∧ s.dev.stepsDone < 16)) = true ∧
    (let s : State := st { boot .m3 [(F.IMG_PIER_STATUS_STATE.ix 0, 0), (F.IMG_PIER_STATUS_STATE.ix 16, 1)] with tim := { Tim.reset with tick := 10 }, img := { Img.reset with walkOn := true, move := some ⟨0, 0, 16, 2, false⟩ } }
     let x : PierMove := ⟨0, 0, 16, 2, false⟩
     decide (s.dev.img.move = some x ∧ x.retirement = false ∧ s.dev.moveCommits x = true ∧ x.old ≠ x.new ∧ x.old < 17 ∧
             x.new < 17 ∧ x.octet < 16)) = true ∧
    (let s : State := st { boot .m3 [(F.IMG_WALK_STATUS_STATE, 1)] with tim := { Tim.reset with tick := 10 }, img := { Img.reset with walkOn := true, move := some ⟨0, 0, 16, 2, false⟩ } }
     let x : PierMove := ⟨0, 0, 16, 2, false⟩
     decide (s.dev.img.move = some x ∧ x.retirement = false ∧ x.start + 8 ≤ s.dev.tim.tick ∧ s.dev.walkState = 1 ∧
             s.dev.img.reload = none ∧ s.dev.img.failDue = [] ∧ x.new < 17)) = true ∧
    (let s : State := st { boot .m3 [(F.IMG_WALK_STATUS_STATE, 1), (F.IMG_PIER_STATUS_STATE.ix 3, 2), (F.IMG_WALK_STATUS_STEPS_DONE, 14)] with img := { Img.reset with walkOn := true, reload := some 3 } }
     let p : Pier := 3
     decide (s.dev.dgn.stopped = none ∧ s.dev.img.reload = some p.val ∧ s.dev.pierState p.val = 2 ∧ s.dev.stepsDone < 15 ∧
             s.dev.img.abandonDue = none)) = true := by
  decide +kernel

/-- States and operands that meet the hypotheses of PierFaultCommandsComplete, parts 1, 2, 3, 4, 5, 6. -/
theorem witness_PierFaultCommandsComplete :
    (let s : State := st (boot .m3 [(F.CTL_PAIR_STATUS_STATE.ix 0, 1), (F.CTL_PAIR_STATUS_STATE.ix 1, 1), (F.CTL_PAIR_STATUS_STATE.ix 2, 1), (F.CTL_PAIR_STATUS_STATE.ix 3, 1), (F.IMG_PIER_STATUS_STATE.ix 16, 1)])
     let p : Pier := 16
     let kind : BitVec 4 := 2
     decide ((kind = 1 ∨ kind = 2) ∧ s.dev.pierState p.val ≠ 3 ∧ s.dev.mode ≠ .m0 ∧ s.dev.mode ≠ .m11 ∧ s.dev.dgn.stopped = none ∧
             s.dev.pierHalted p.val = false ∧ s.dev.img.move = none ∧ s.dev.img.reload = none ∧ s.dev.octetOf p.val = none ∧
             s.dev.serviceRuns F.CTL_SVC_MAP_WALK = true)) = true ∧
    (let s : State := st (boot .m3 [(F.IMG_PIER_STATUS_STATE.ix 16, 1)])
     let p : Pier := 16
     let kind : BitVec 4 := 2
     decide ((kind = 1 ∨ kind = 2) ∧ s.dev.pierState p.val ≠ 3 ∧ s.dev.mode ≠ .m0 ∧ s.dev.mode ≠ .m11 ∧ s.dev.dgn.stopped = none ∧
             s.dev.pierHalted p.val = false ∧ s.dev.img.move = none ∧ s.dev.img.reload = none ∧ s.dev.octetOf p.val = none ∧
             s.dev.serviceRuns F.CTL_SVC_MAP_WALK = false)) = true ∧
    (let s : State := st (boot .m3 [(F.CTL_PAIR_STATUS_STATE.ix 0, 1), (F.CTL_PAIR_STATUS_STATE.ix 1, 1), (F.CTL_PAIR_STATUS_STATE.ix 2, 1), (F.CTL_PAIR_STATUS_STATE.ix 3, 1), (F.IMG_PIER_STATUS_STATE.ix 16, 1), (F.IMG_PIER_STATUS_STATE.ix 0, 0)])
     let p : Pier := 0
     let kind : BitVec 4 := 1
     let o : Nat := 0
     let new : Nat := 16
     decide ((kind = 1 ∨ kind = 2) ∧ s.dev.pierState p.val ≠ 3 ∧ s.dev.forwarding = true ∧ s.dev.dgn.stopped = none ∧
             s.dev.pierHalted p.val = false ∧ s.dev.img.move = none ∧ s.dev.img.reload = none ∧ s.dev.octetOf p.val = some o ∧
             s.dev.sparePier = some new ∧ s.dev.dgn.runs = [] ∧ s.dev.walkState = 0 ∧
             s.dev.serviceRuns F.CTL_SVC_MAP_WALK = true)) = true ∧
    (let s : State := st (boot .m3 [(F.CTL_PAIR_STATUS_STATE.ix 0, 1), (F.CTL_PAIR_STATUS_STATE.ix 1, 1), (F.CTL_PAIR_STATUS_STATE.ix 2, 1), (F.CTL_PAIR_STATUS_STATE.ix 3, 1), (F.IMG_PIER_STATUS_STATE.ix 16, 1)])
     let p : Pier := 16
     decide (s.dev.pierState p.val ≠ 3 ∧ s.dev.mode ≠ .m0 ∧ s.dev.mode ≠ .m11 ∧ s.dev.dgn.stopped = none ∧
             s.dev.pierHalted p.val = false ∧ s.dev.img.move = none ∧ s.dev.img.reload = none ∧ s.dev.octetOf p.val = none ∧
             s.dev.serviceRuns F.CTL_SVC_MAP_WALK = true)) = true ∧
    (let s : State := st (boot .m3 [(F.CTL_PAIR_STATUS_STATE.ix 0, 1), (F.CTL_PAIR_STATUS_STATE.ix 1, 1), (F.CTL_PAIR_STATUS_STATE.ix 2, 1), (F.CTL_PAIR_STATUS_STATE.ix 3, 1), (F.IMG_PIER_STATUS_STATE.ix 16, 1)])
     let m : Master := 6
     let p : BitVec 5 := 16
     decide (s.dev.writes m.val F.IMG_PIER_CMD.off = true ∧ p.toNat < 17 ∧ s.dev.inStep = false ∧ s.dev.pierState p.toNat = 1 ∧
             s.dev.octetOf p.toNat = none ∧ s.dev.serviceRuns F.CTL_SVC_MAP_WALK = true)) = true ∧
    (let s : State := st (boot .m3 [(F.IMG_PIER_STATUS_STATE.ix 16, 3)])
     let m : Master := 6
     let p : BitVec 5 := 16
     decide (s.dev.writes m.val F.IMG_PIER_CMD.off = true ∧ p.toNat < 17 ∧ s.dev.pierState p.toNat = 3 ∧ s.dev.m7 = false)) = true := by
  decide +kernel

/-- States and operands that meet the hypotheses of ResetCommandsComplete, parts 1, 2, 3, 4, 5, 6, 7, 8. -/
theorem witness_ResetCommandsComplete :
    (let s : State := st (boot .m3 [(F.TIM_STATUS_LOCKED, 1)])
     let n : Nat := 10000
     decide (10000 ≤ n ∧ s.dev.sec.fuseOp = none ∧ s.dev.sec.flashOp = none)) = true ∧
    (let n : Nat := 999
     decide (n < 1000)) = true ∧
    (let s : State := st (boot .m3 [(F.PWR_STATUS_SHED_STEP, 2), (F.GLB_STRAP, 5)])
     let n : Nat := 10000
     decide (10000 ≤ n ∧ s.dev.mode ≠ .m0 ∧ s.dev.sec.fuseOp = none ∧ s.dev.sec.flashOp = none)) = true ∧
    (let n : Nat := 999
     decide (n < 1000)) = true ∧
    (let s : State := st (boot .m3 [(F.HST_EVR_CFG_EN.ix 3, 1)])
     let n : Nat := 10000
     decide (10000 ≤ n ∧ s.dev.mode ≠ .m0)) = true ∧
    (let s : State := st (boot .m3 [(F.HST_EVR_CFG_EN.ix 3, 1)])
     decide (s.dev.mode ≠ .m0)) = true ∧
    (let s : State := st (boot .m10 [(F.PWR_STATUS_SHED_STEP, 2)])
     decide (s.dev.mode ≠ .m0)) = true ∧
    (let s : State := st { boot .m11 [] with pwr := { Pwr.reset with tripDue := some (3, 1001) } }
     let a : Nat := 3
     let v : Int := 1001
     decide (s.dev.mode ≠ .m0 ∧ s.dev.pwr.tripDue = some (a, v))) = true := by
  decide +kernel

/-- States and operands that meet the hypotheses of ResetCommandsComplete, parts 9, 10. -/
theorem witness_ResetCommandsComplete_2 :
    (let s : State := st (boot .m3 [])
     decide (s.dev.writes 6 F.SEC_CTRL.off = true ∧ s.dev.mode ≠ .m10 ∧ s.dev.mode ≠ .m11)) = true ∧
    (let s : State := st (boot .m10 [])
     let m : Master := 6
     decide (s.dev.writes m.val F.SEC_CTRL.off = true ∧ (m ≠ 6 ∨ s.dev.mode = .m10 ∨ s.dev.mode = .m11))) = true := by
  decide +kernel

/-- States and operands that meet the hypotheses of ReleaseCommandsComplete, parts 1, 2, 3, 4, 5, 6, 7, 8. -/
theorem witness_ReleaseCommandsComplete :
    (let s : State := st { boot .m0 [] with sec := { Sec.reset with porReset := true } }
     let mvs : List Nat := [720, 735, 705, 720, 720, 720, 720, 840, 750, 750, 1200, 1050, 750, 1800, 800, 1710]
     decide (s.dev.mode = .m0 ∧ s.dev.sec.testHold = false ∧ s.dev.sec.supplyHold = false ∧ s.dev.sec.porReset = true ∧
             s.dev.pwr.tripHold = false ∧ mvs.length = 16 ∧
             (∀ n : Fin 16, (monitorRange n.val).1 ≤ mvs.getD n.val 0 + (monitorRange n.val).2 ∧ mvs.getD n.val 0 ≤ (monitorRange n.val).1 + (monitorRange n.val).2))) = true ∧
    (let s : State := st { boot .m0 [] with sec := { Sec.reset with porReset := true } }
     let mvs : List Nat := [720, 735, 705, 720, 720, 720, 720, 840, 750, 750, 1200, 1050, 750, 1800, 800, 1709]
     let n : Fin 16 := 15
     decide (s.dev.mode = .m0 ∧ s.dev.sec.testHold = false ∧ s.dev.sec.supplyHold = false ∧ s.dev.sec.porReset = true ∧
             mvs.length = 16 ∧
             (mvs.getD n.val 0 + (monitorRange n.val).2 < (monitorRange n.val).1 ∨ ((monitorRange n.val).1 + (monitorRange n.val).2 < mvs.getD n.val 0)))) = true ∧
    (let s : State := st { boot .m0 [(F.GLB_STRAP, 5)] with sec := { Sec.reset with porReset := false } }
     decide (s.dev.mode = .m0 ∧ s.dev.sec.testHold = false ∧ s.dev.sec.supplyHold = false ∧ s.dev.sec.porReset = false ∧
             s.dev.pwr.tripHold = false)) = true ∧
    (let s : State := st { boot .m0 [] with sec := { Sec.reset with porReset := false } }
     decide (s.dev.mode = .m0 ∧ s.dev.sec.testHold = false ∧ s.dev.sec.supplyHold = false)) = true ∧
    (let s : State := st { boot .m0 [] with sec := { Sec.reset with supplyHold := true } }
     decide ((s.dev.mode ≠ .m0 ∨ s.dev.sec.testHold = true ∨ s.dev.sec.supplyHold = true))) = true ∧
    (let s : State := st { boot .m0 [] with sec := { Sec.reset with testHold := true } }
     let mvs : List Nat := [720, 735, 705, 720, 720, 720, 720, 840, 750, 750, 1200, 1050, 750, 1800, 800, 1710]
     decide (s.dev.mode = .m0 ∧ s.dev.sec.testHold = true ∧ s.dev.pwr.tripHold = false ∧ s.dev.sec.porReset = true ∧
             mvs.length = 16 ∧
             (∀ n : Fin 16, (monitorRange n.val).1 ≤ mvs.getD n.val 0 + (monitorRange n.val).2 ∧ mvs.getD n.val 0 ≤ (monitorRange n.val).1 + (monitorRange n.val).2))) = true ∧
    (let s : State := st { boot .m0 [(F.GLB_STRAP, 5)] with sec := { Sec.reset with testHold := true, porReset := false } }
     decide (s.dev.mode = .m0 ∧ s.dev.sec.testHold = true ∧ s.dev.pwr.tripHold = false ∧ s.dev.sec.porReset = false)) = true ∧
    (let s : State := st { railReading [720, 735, 705, 720, 720, 720, 720, 840, 750, 750, 1200, 1050, 750, 1800, 800, 1710] (boot .m0 []) with sec := { Sec.reset with supplyHold := true } }
     decide (s.dev.mode = .m0 ∧ s.dev.sec.supplyHold = true ∧ s.dev.sec.testHold = false ∧ s.dev.suppliesIn = true ∧
             s.dev.pwr.tripHold = false)) = true := by
  decide +kernel

/-- States and operands that meet the hypotheses of ReleaseCommandsComplete, part 9. -/
theorem witness_ReleaseCommandsComplete_2 :
    (let s : State := st { boot .m0 [] with sec := { Sec.reset with supplyHold := true } }
     decide ((s.dev.sec.testHold = true ∨ s.dev.suppliesIn = false))) = true := by
  decide +kernel

/-- States and operands that meet the hypotheses of ModeRequestsComplete, parts 1, 2, 3, 4, 5, 6, 7, 8. -/
theorem witness_ModeRequestsComplete :
    (let s : State := st (boot .m3 [])
     let m : Master := 6
     decide (s.dev.writes m.val F.GLB_LOCK.off = true)) = true ∧
    (let s : State := st (boot .m2 [])
     let m : Master := 6
     decide (s.dev.writes m.val F.GLB_CTRL.off = true ∧ (s.dev.mode = .m2 ∨ s.dev.mode = .m3) ∧ s.dev.m7 = false ∧
             s.dev.on F.GLB_CTRL_MAINT_REQ = false)) = true ∧
    (let s : State := st { boot .m3 [] with img := { Img.reset with walkOn := true } }
     let m : Master := 6
     decide (s.dev.writes m.val F.GLB_CTRL.off = true ∧ s.dev.mode ≠ .m2 ∧ (s.dev.mode ≠ .m3 ∨ s.dev.m7 = true))) = true ∧
    (let s : State := st (boot .m2 [(F.IMG_STATUS_LIVE_VALID, 1)])
     let m : Master := 6
     decide (s.dev.writes m.val F.GLB_CTRL.off = true ∧ s.dev.mode = .m2 ∧ s.dev.on F.IMG_STATUS_LIVE_VALID = true ∧
             s.dev.on F.GLB_CTRL_MAINT_REQ = false ∧ s.dev.twinOn = false)) = true ∧
    (let s : State := st (boot .m2 [])
     let m : Master := 6
     decide (s.dev.writes m.val F.GLB_CTRL.off = true ∧ s.dev.mode = .m2 ∧ s.dev.on F.IMG_STATUS_LIVE_VALID = false)) = true ∧
    (let s : State := st (boot .m2 [])
     let m : Master := 6
     decide (s.dev.writes m.val F.GLB_CTRL.off = true ∧ s.dev.mode = .m2 ∧ s.dev.m7 = false ∧
             s.dev.on F.GLB_CTRL_MAINT_REQ = false)) = true ∧
    (let s : State := st (boot .m3 [])
     let m : Master := 6
     decide (s.dev.writes m.val F.GLB_CTRL.off = true ∧ s.dev.mode = .m3 ∧ s.dev.m7 = false ∧
             s.dev.on F.GLB_CTRL_MAINT_REQ = false)) = true ∧
    (let s : State := st (boot .m4 [])
     let m : Master := 6
     decide (s.dev.writes m.val F.GLB_CTRL.off = true ∧ ((s.dev.mode ≠ .m2 ∧ s.dev.mode ≠ .m3) ∨ s.dev.m7 = true) ∧
             s.dev.mode ≠ .m2)) = true := by
  decide +kernel

/-- States and operands that meet the hypotheses of ModeRequestsComplete, parts 9, 10, 11, 12. -/
theorem witness_ModeRequestsComplete_2 :
    (let s : State := st (boot .m2 [(F.IMG_STATUS_LIVE_VALID, 1), (F.TWN_CTRL_EN, 1), (F.FAB_STATUS_STATE, 2), (F.FAB_PAIR_STATUS_OWNER_VALID, 1), (F.FAB_PAIR_STATUS_IS_OWNER, 1)])
     let m : Master := 6
     decide (s.dev.writes m.val F.GLB_CTRL.off = true ∧ s.dev.mode = .m2 ∧ s.dev.on F.IMG_STATUS_LIVE_VALID = true ∧
             s.dev.on F.GLB_CTRL_MAINT_REQ = false ∧ s.dev.twinOn = true ∧ s.dev.fabUp = true ∧ s.dev.isOwner = true)) = true ∧
    (let s : State := st (boot .m2 [(F.IMG_STATUS_LIVE_VALID, 1), (F.TWN_CTRL_EN, 1)])
     let m : Master := 6
     decide (s.dev.writes m.val F.GLB_CTRL.off = true ∧ s.dev.mode = .m2 ∧ s.dev.on F.IMG_STATUS_LIVE_VALID = true ∧
             s.dev.on F.GLB_CTRL_MAINT_REQ = false ∧ s.dev.twinOn = true ∧ (s.dev.fabUp = false ∨ s.dev.isOwner = false))) = true ∧
    (let s : State := st (boot .m3 [(F.IMG_STATUS_LIVE_VALID, 1)])
     let m : Master := 6
     decide (s.dev.writes m.val F.GLB_CTRL.off = true ∧ s.dev.mode ≠ .m2)) = true ∧
    (let s : State := st (boot .m2 [(F.GLB_CTRL_MAINT_REQ, 1)])
     decide (s.dev.on F.GLB_CTRL_MAINT_REQ = true ∧ (s.dev.mode = .m2 ∨ s.dev.mode = .m3) ∧ s.dev.que.flushes = [])) = true := by
  decide +kernel

/-- States and operands that meet the hypotheses of PairBellAndLockCommandsComplete, parts 1, 2, 3, 4, 5, 6, 7, 8. -/
theorem witness_PairBellAndLockCommandsComplete :
    (let s : State := st { boot .m3 [(F.CTL_PAIR_STATUS_STATE.ix 3, 1)] with tim := { Tim.reset with tick := 5 } }
     let p : Fin 4 := 3
     decide (s.dev.pairState p.val = 1 ∧ s.dev.recentMismatches p.val = [])) = true ∧
    (let s : State := st { boot .m3 [(F.CTL_PAIR_STATUS_STATE.ix 0, 1)] with tim := { Tim.reset with tick := 9 }, ctl := { Ctl.reset with mismatches := [(0, [5, 3])] } }
     let p : Fin 4 := 0
     decide (s.dev.pairState p.val = 1 ∧ 2 ≤ (s.dev.recentMismatches p.val).length)) = true ∧
    (let s : State := st { boot .m3 [(F.CTL_PAIR_STATUS_STATE.ix 1, 2)] with ctl := { Ctl.reset with locks := [(0, 4), (63, 4)] } }
     let p : Fin 4 := 1
     decide ((s.dev.pairState p.val = 2 ∨ s.dev.pairState p.val = 3))) = true ∧
    (let s : State := st { boot .m3 [(F.CTL_PAIR_STATUS_STATE.ix 2, 1)] with tim := { Tim.reset with span := 2 ^ 48 - 1 } }
     let p : Fin 4 := 2
     decide (s.dev.pairState p.val = 1)) = true ∧
    (let s : State := st { boot .m3 [(F.CTL_MBX_BIND.ix 16, 0x80000006), (F.PWR_DOM_STATUS.ix 4, 0xFFFFFFFF)] with ctl := { Ctl.reset with chans := [(16, { Channel.reset with msg := 0xFF01, len := 2, seq := 1, full := true })] } }
     let v : Fin 6 := 0
     let n : Fin 64 := 16
     decide (s.dev.mbxValid n.val = true ∧ s.dev.mbxReceiver n.val = v.val ∧ (s.dev.chan n.val).full = true ∧
             s.dev.issues v.val = true ∧ s.dev.masterPowered v.val = true ∧
             s.dev.backChannel v.val (s.dev.mbxSender n.val) = none)) = true ∧
    (let s : State := st { boot .m3 [(F.CTL_MBX_BIND.ix 16, 0x80000006), (F.PWR_DOM_STATUS.ix 4, 0xFFFFFFFF)] with ctl := { Ctl.reset with chans := [(16, { Channel.reset with msg := 0xFF01, len := 2, seq := 1, full := true, gen := 3 })] } }
     let v : Fin 6 := 0
     let n : Fin 64 := 16
     decide (s.dev.mbxValid n.val = true ∧ s.dev.mbxReceiver n.val = v.val ∧ (s.dev.chan n.val).full = true ∧
             s.dev.issues v.val = true ∧ s.dev.masterPowered v.val = true ∧
             (s.dev.chan n.val).gen ≠ s.dev.gen (s.dev.mbxSender n.val))) = true ∧
    (let s : State := st { boot .m3 [(F.CTL_MBX_BIND.ix 16, 0x80000026), (F.CTL_MBX_BIND.ix 17, 0x80000062), (F.CTL_PAIR_STATUS_STATE.ix 0, 1), (F.CTL_FW_VERSION, 0x12345678), (F.PWR_DOM_STATUS.ix 3, 0xFFFFFFFF), (F.PWR_DOM_STATUS.ix 4, 0xFFFFFFFF)] with ctl := { Ctl.reset with chans := [(16, { Channel.reset with msg := 0xABCD0000, len := 2, seq := 1, full := true })] } }
     let v : Fin 6 := 2
     let n : Fin 64 := 16
     let r : Nat := 17
     decide (s.dev.mbxValid n.val = true ∧ s.dev.mbxReceiver n.val = v.val ∧ (s.dev.chan n.val).full = true ∧
             s.dev.issues v.val = true ∧ s.dev.masterPowered v.val = true ∧ s.dev.mbxSender n.val ≠ v.val ∧
             (s.dev.chan n.val).gen = s.dev.gen (s.dev.mbxSender n.val) ∧
             s.dev.backChannel v.val (s.dev.mbxSender n.val) = some r ∧ s.dev.masterPowered (s.dev.mbxSender n.val) = true)) = true ∧
    (let s : State := st (boot .m3 [(F.CTL_BELL_BITS.ix 6, 7)])
     let m : Master := 6
     decide (s.dev.writes m.val (F.CTL_BELL.ix m.val).off = true)) = true := by
  decide +kernel

/-- States and operands that meet the hypotheses of PairBellAndLockCommandsComplete, parts 9, 10, 11, 12, 13, 14, 15. -/
theorem witness_PairBellAndLockCommandsComplete_2 :
    (let s : State := st (boot .m3 [(F.CTL_BELL_BITS.ix 6, 7)])
     let m : Master := 7
     let t : Fin 10 := 6
     decide (s.dev.writes m.val (F.CTL_BELL.ix t.val).off = true ∧ m ≠ t)) = true ∧
    (let s : State := st (boot .m3 [(F.CTL_BELL_BITS.ix 6, 7), (F.CTL_BELL_MASK_BITS.ix 6, 5)])
     let m : Master := 6
     decide (s.dev.writes m.val (F.CTL_BELL_MASK.ix m.val).off = true)) = true ∧
    (let s : State := st (boot .m3 [])
     let m : Master := 9
     let n : Fin 64 := 63
     decide (s.dev.reads m.val (F.CTL_LOCK.ix n.val).off = true ∧ s.dev.lock n.val = 0)) = true ∧
    (let s : State := st (boot .m3 [])
     let a : Master := 6
     let b : Master := 7
     let n : Fin 64 := 0
     decide (s.dev.reads a.val (F.CTL_LOCK.ix n.val).off = true ∧ s.dev.reads b.val (F.CTL_LOCK.ix n.val).off = true ∧
             s.dev.lock n.val = 0 ∧ a < b)) = true ∧
    (let s : State := st { boot .m3 [] with ctl := { Ctl.reset with locks := [(5, 3)] } }
     let m : Master := 6
     let n : Fin 64 := 5
     decide (s.dev.reads m.val (F.CTL_LOCK.ix n.val).off = true ∧ s.dev.lock n.val ≠ 0)) = true ∧
    (let s : State := st { boot .m3 [] with ctl := { Ctl.reset with locks := [(5, 7)] } }
     let m : Master := 6
     let n : Fin 64 := 5
     decide (s.dev.writes m.val (F.CTL_LOCK.ix n.val).off = true ∧ s.dev.lock n.val = m.val + 1)) = true ∧
    (let s : State := st { boot .m3 [] with ctl := { Ctl.reset with locks := [(5, 7)] } }
     let m : Master := 7
     let n : Fin 64 := 5
     let data : Word := 0
     decide (s.dev.writes m.val (F.CTL_LOCK.ix n.val).off = true ∧ (data ≠ 0 ∨ s.dev.lock n.val ≠ m.val + 1))) = true := by
  decide +kernel

/-- States and operands that meet the hypotheses of MailboxCommandsComplete, parts 1, 2, 3, 4, 5, 6, 7, 8. -/
theorem witness_MailboxCommandsComplete :
    (let s : State := st (boot .m2 [])
     let n : Fin 64 := 63
     let data : Word := 0x80001F61
     decide (s.dev.writes 0 (F.CTL_MBX_BIND.ix n.val).off = true ∧ s.dev.bindLocked = false ∧ bindRefused data = false)) = true ∧
    (let s : State := st (boot .m2 [])
     let m : Master := 6
     let n : Fin 64 := 0
     decide (s.dev.writes m.val (F.CTL_MBX_BIND.ix n.val).off = true ∧ (m ≠ 0 ∨ s.dev.bindLocked = true))) = true ∧
    (let s : State := st (boot .m1 [])
     decide (s.dev.writes 0 F.CTL_BIND_LOCK.off = true)) = true ∧
    (let s : State := st (boot .m3 [(F.CTL_MBX_BIND.ix 16, 0x80000006)])
     let m : Master := 6
     let n : Fin 64 := 16
     let w : Fin 16 := 15
     decide (s.dev.writes m.val (0x13002000 + 0x80 * n.val + 4 * w.val) = true ∧
             s.dev.mbxCheck n.val m.val true false false = .ok)) = true ∧
    (let s : State := st { boot .m3 [(F.CTL_MBX_BIND.ix 16, 0x80000006)] with ctl := { Ctl.reset with chans := [(16, { Channel.reset with staging := 77, seq := 0xFFFF, full := true })] } }
     let m : Master := 6
     let n : Fin 64 := 16
     let data : Word := 127
     decide (s.dev.writes m.val (0x13002040 + 0x80 * n.val) = true ∧ s.dev.mbxCheck n.val m.val true false false = .ok ∧
             data.toNat % 128 ≠ 0)) = true ∧
    (let s : State := st { boot .m3 [(F.CTL_MBX_BIND.ix 17, 0x80000060), (F.PWR_DOM_STATUS.ix 4, 0xFFFFFFFF)] with ctl := { Ctl.reset with chans := [(17, { Channel.reset with msg := 77, len := 1, seq := 2, full := true, gen := 3 })] } }
     let m : Master := 6
     let n : Fin 64 := 17
     decide (s.dev.reads m.val (0x13002048 + 0x80 * n.val) = true ∧ s.dev.mbxCheck n.val m.val false true true = .ok)) = true ∧
    (let s : State := st { boot .m3 [(F.CTL_MBX_BIND.ix 17, 0x80000060), (F.PWR_DOM_STATUS.ix 4, 0xFFFFFFFF)] with ctl := { Ctl.reset with chans := [(17, { Channel.reset with msg := 77, len := 1, seq := 2, full := true })] } }
     let m : Master := 6
     let n : Fin 64 := 17
     let data : Word := 0x10002
     decide (s.dev.writes m.val (0x1300204C + 0x80 * n.val) = true ∧ s.dev.mbxCheck n.val m.val false true false = .ok ∧
             data.toNat % 65536 = (s.dev.chan n.val).seq.toNat)) = true ∧
    (let s : State := st (boot .m3 [(F.CTL_MBX_BIND.ix 17, 0x80000060), (F.PWR_DOM_STATUS.ix 4, 0xFFFFFFFF)])
     let m : Master := 6
     let n : Fin 64 := 17
     decide (s.dev.writes m.val (0x13002040 + 0x80 * n.val) = true ∧ s.dev.mbxCheck n.val m.val true false false = .denied)) = true := by
  decide +kernel

/-- States and operands that meet the hypotheses of EventCommandsComplete, parts 1, 2, 3, 4, 5, 6, 7, 8. -/
theorem witness_EventCommandsComplete :
    (let s : State := st { boot .m3 [(F.HST_EVR_CFG_EN.ix 0, 1), (F.HST_EVR_CFG_SIZE.ix 0, 6), (F.HST_EVR_CONS.ix 0, 0xFFFFFFFF), (F.HST_EV_ROUTE_ROUTINE.ix 0, 0)] with posted := [⟨0x0101, .notice, 0, 0, 0⟩], hst := { Hst.reset with accept := [(0, 0xFFFFFFFF)] } }
     let r : EventRec := ⟨0x0101, .notice, 0, 0, 0⟩
     let rest : List EventRec := []
     decide (s.dev.posted = r :: rest ∧ r.cls ≠ .alarm ∧ r.cls ≠ .summary ∧ s.dev.suppresses r = false)) = true ∧
    (let s : State := st { boot .m3 [(suppFld 256 4, 4294967295)] with posted := [⟨0x0101, .trace, 0, 0, 0⟩] }
     let r : EventRec := ⟨0x0101, .trace, 0, 0, 0⟩
     let rest : List EventRec := []
     decide (s.dev.posted = r :: rest ∧ r.cls ≠ .alarm ∧ r.cls ≠ .summary ∧ s.dev.suppresses r = true)) = true ∧
    (let s : State := st { boot .m3 [] with posted := [⟨0x1101, .alarm, 0, 0, 0⟩] }
     let r : EventRec := ⟨0x1101, .alarm, 0, 0, 0⟩
     let rest : List EventRec := []
     decide (s.dev.posted = r :: rest ∧ r.cls = .alarm ∧ recBlock r < 18)) = true ∧
    (let s : State := st { boot .m3 [(F.HST_EVR_CFG_EN.ix 3, 1), (F.HST_EVR_CFG_SIZE.ix 3, 6), (F.HST_EVR_CONS.ix 3, 0xFFFFFFC0), (F.HST_EV_ROUTE_URGENT.ix 0, 3)] with posted := [⟨0x0101, .alarm, 0, 0, 0⟩, ⟨0x0102, .log, 0, 0, 0⟩], hst := { Hst.reset with accept := [(3, 0xFFFFFFFF)] } }
     let r : EventRec := ⟨0x0101, .alarm, 0, 0, 0⟩
     let rest : List EventRec := [⟨0x0102, .log, 0, 0, 0⟩]
     decide (s.dev.posted = r :: rest ∧ r.cls = .alarm ∧ s.dev.suppresses r = false)) = true ∧
    (let s : State := st { boot .m3 [(suppFld 507 0, 4294967295)] with posted := [⟨0x1201 - 0x100, .alarm, 11, 0, 0⟩] }
     let r : EventRec := ⟨0x1201 - 0x100, .alarm, 11, 0, 0⟩
     let rest : List EventRec := []
     decide (s.dev.posted = r :: rest ∧ r.cls = .alarm ∧ recBlock r < 18 ∧ s.dev.suppresses r = true)) = true ∧
    (let s : State := st { boot .m3 [(F.HST_EVR_CFG_EN.ix 3, 1), (F.HST_EVR_CFG_SIZE.ix 3, 6), (F.HST_EV_ROUTE_ROUTINE.ix 0, 3), (suppFld 256 2, 7), (suppFld 256 4, 2)] with posted := [⟨0x1408, .summary, 256, 0, 5 <<< 64⟩] }
     let r : EventRec := ⟨0x1408, .summary, 256, 0, 5 <<< 64⟩
     let rest : List EventRec := []
     decide (s.dev.posted = r :: rest ∧ r.cls = .summary ∧ s.dev.suppresses r = false)) = true ∧
    (let s : State := st { boot .m3 [(suppFld 256 2, 7)] with posted := [⟨0x1408, .summary, 256, 0, 5 <<< 64⟩] }
     let r : EventRec := ⟨0x1408, .summary, 256, 0, 5 <<< 64⟩
     let rest : List EventRec := []
     decide (s.dev.posted = r :: rest ∧ r.cls = .summary ∧ s.dev.suppresses r = true)) = true ∧
    (let s : State := st { boot .m3 [(F.HST_EVR_BASE.ix 1, 0x1000), (F.HST_EVR_CFG_SIZE.ix 1, 6)] with hst := { Hst.reset with writes := 15, engineQ := [⟨1, 0xFFFFFFFF, 0xABCD, 256, .notice⟩] } }
     let q : QueuedRec := ⟨1, 0xFFFFFFFF, 0xABCD, 256, .notice⟩
     let rest : List QueuedRec := []
     decide (s.dev.hst.engineQ = q :: rest ∧ (s.dev.hst.writesTick ≠ s.dev.tim.tick ∨ s.dev.hst.writes < 16))) = true := by
  decide +kernel

/-- States and operands that meet the hypotheses of EventCommandsComplete, parts 9, 10, 11, 12, 13, 14. -/
theorem witness_EventCommandsComplete_2 :
    (let s : State := st (boot .m3 [(F.HST_EVR_CONS.ix 2, 0xFFFFFFFF)])
     let m : Master := 6
     let n : Fin 16 := 2
     let data : Word := 0xBFC0001F
     decide (s.dev.writes m.val (F.HST_EVR_CFG.ix n.val).off = true ∧ s.dev.ringAvail n.val = false ∧ bitOn data 31 = true)) = true ∧
    (let s : State := st { boot .m3 [(F.HST_EVR_CFG_EN.ix 2, 1)] with hst := { Hst.reset with engineQ := [⟨2, 0, 0x101, 256, .alarm⟩, ⟨1, 0, 0x101, 256, .notice⟩] } }
     let n : Fin 16 := 2
     decide (s.dev.ringAvail n.val = true)) = true ∧
    (let s : State := st { boot .m3 [(F.HST_EVR_CFG_IRQ_EN.ix 15, 1), (F.HST_EVR_CFG_PF.ix 15, 1), (F.HST_EVR_CFG_VECTOR.ix 15, 63)] with hst := { Hst.reset with unsignalled := [(15, (1, 4, true))] } }
     let n : Fin 16 := 15
     let k : Nat := 0
     let t : Nat := 4
     decide (s.dev.hst.unsignalled.get (fun _ => (0, 0, false)) n.val = (k + 1, t, true) ∧
             s.dev.on (F.HST_EVR_CFG_IRQ_EN.ix n.val) = true)) = true ∧
    (let s : State := st { boot .m3 [(F.HST_EVR_CFG_IRQ_EN.ix 15, 1), (F.HST_EVR_CFG_VECTOR.ix 15, 63), (F.HST_EVR_MOD_MOD_CNT.ix 15, 3), (F.HST_EVR_MOD_MOD_SPANS.ix 15, 100)] with hst := { Hst.reset with unsignalled := [(15, (3, 0, false))] } }
     let n : Fin 16 := 15
     let k : Nat := 2
     let t : Nat := 0
     decide (s.dev.hst.unsignalled.get (fun _ => (0, 0, false)) n.val = (k + 1, t, false) ∧
             s.dev.on (F.HST_EVR_CFG_IRQ_EN.ix n.val) = true ∧
             (s.dev.rd (F.HST_EVR_MOD_MOD_CNT.ix n.val) ≤ k + 1 ∨ t + s.dev.rd (F.HST_EVR_MOD_MOD_SPANS.ix n.val) ≤ s.dev.tim.tick))) = true ∧
    (let s : State := st { boot .m3 [(F.HST_EVR_CFG_IRQ_EN.ix 15, 1), (F.HST_EVR_CFG_VECTOR.ix 15, 63), (F.HST_EVR_MOD_MOD_CNT.ix 15, 4), (F.HST_EVR_MOD_MOD_SPANS.ix 15, 100)] with tim := { Tim.reset with tick := 99 }, hst := { Hst.reset with unsignalled := [(15, (3, 0, false))] } }
     let n : Fin 16 := 15
     let k : Nat := 3
     let t : Nat := 0
     decide (s.dev.hst.unsignalled.get (fun _ => (0, 0, false)) n.val = (k, t, false) ∧
             (k = 0 ∨ (k < s.dev.rd (F.HST_EVR_MOD_MOD_CNT.ix n.val) ∧ s.dev.tim.tick < t + s.dev.rd (F.HST_EVR_MOD_MOD_SPANS.ix n.val))))) = true ∧
    (let s : State := st { boot .m3 [(F.CTL_SVC_MAP, 0), (F.CTL_PAIR_STATUS_STATE.ix 0, 1), (suppFld 511 0, 1), (suppFld 3 4, 2)] with tim := { Tim.reset with tick := 1024 } }
     decide (s.dev.periodic % 1024 = 0 ∧ s.dev.hst.interval ≠ some s.dev.periodic ∧
             s.dev.serviceRuns F.CTL_SVC_MAP_BLOTTER = true)) = true := by
  decide +kernel

/-- States and operands that meet the hypotheses of HostQueueCommandsComplete, parts 1, 2, 3, 4, 5, 6, 7, 8. -/
theorem witness_HostQueueCommandsComplete :
    (let s : State := st ((boot .m3 []).wr F.HST_STATUS_DL_UP 0)
     decide (s.dev.on F.HST_STATUS_DL_UP = false ∧ s.dev.mode ≠ .m0)) = true ∧
    (let s : State := st (boot .m0 [])
     decide (s.dev.mode = .m0)) = true ∧
    (let s : State := st (boot .m3 [])
     decide (s.dev.on F.HST_STATUS_DL_UP = true)) = true ∧
    (let s : State := st (boot .m3 [])
     let q : Fin 64 := 63
     decide (s.dev.writes 7 (F.HST_PQ_TAIL.ix q.val).off = true)) = true ∧
    (let s : State := st (boot .m3 [(F.HST_TELEM_CFG_EN, 1)])
     let q : Fin 16 := 14
     decide (s.dev.writes 7 (F.HST_IQ_TAIL.ix q.val).off = true ∧ q ≠ 15)) = true ∧
    (let s : State := st (boot .m3 [(F.HST_PQ_TAIL_INDEX.ix 63, 99)])
     let q : Fin 64 := 63
     let data : Word := 0x8000000F
     decide (s.dev.writes 7 (F.HST_PQ_CFG.ix q.val).off = true ∧ s.dev.on (F.HST_PQ_CFG_EN.ix q.val) = false ∧
             bitOn data 31 = true)) = true ∧
    (let s : State := st (boot .m3 [(F.HST_IQ_CFG_EN.ix 15, 1), (F.HST_IQ_CFG_OCTET.ix 15, 3), (F.HST_IQ_HEAD_INDEX.ix 15, 65535)])
     let q : Fin 16 := 15
     let x : BitVec 256 := 60 <<< 64
     let l : List Byte := List.replicate 60 1
     decide (s.dev.iqReady q.val = true ∧ s.dev.iqTurn q.val = true ∧ injectBar x (some l) = 0)) = true ∧
    (let s : State := st (boot .m3 [(F.HST_IQ_CFG_EN.ix 0, 1), (F.HST_IQ_TAIL_INDEX.ix 0, 1)])
     let q : Fin 16 := 0
     let x : BitVec 256 := 59 <<< 64
     let l : Option (List Byte) := some []
     decide (s.dev.iqReady q.val = true ∧ s.dev.iqTurn q.val = true ∧ injectBar x l ≠ 0)) = true := by
  decide +kernel

/-- States and operands that meet the hypotheses of HostQueueCommandsComplete, parts 9, 10, 11, 12, 14, 15, 16. -/
theorem witness_HostQueueCommandsComplete_2 :
    (let s : State := st { boot .m3 [(F.HST_TELEM_CFG_EN, 1), (F.HST_TELEM_RATE_MBPS, 1), (F.CTL_SVC_MAP, 0), (F.CTL_PAIR_STATUS_STATE.ix 0, 1)] with hst := { Hst.reset with telemQ := [⟨0, 0, 5, 256, .notice⟩], telemBucket := 2000000 } }
     decide (s.dev.telemRuns = true ∧ 0 < s.dev.telemFits ∧ s.dev.iqTurn 15 = true)) = true ∧
    (let s : State := st { boot .m3 [(F.HST_TELEM_CFG_EN, 1), (F.HST_TELEM_RATE_MBPS, 1), (F.CTL_SVC_MAP, 0), (F.CTL_PAIR_STATUS_STATE.ix 0, 1)] with hst := { Hst.reset with telemQ := [⟨0, 0, 5, 256, .notice⟩], telemBucket := 0 } }
     let q : QueuedRec := ⟨0, 0, 5, 256, .notice⟩
     let rest : List QueuedRec := []
     decide (s.dev.telemRuns = true ∧ s.dev.hst.telemQ = q :: rest ∧ s.dev.telemFits = 0)) = true ∧
    (let s : State := st (boot .m3 [])
     decide (s.dev.hst.i3cDa = none)) = true ∧
    (let s : State := st { boot .m3 [] with hst := { Hst.reset with i3cDa := some 9 } }
     let b : BitVec 7 := 9
     decide (s.dev.hst.i3cDa = some b)) = true ∧
    (let s : State := st { boot .m3 [] with hst := { Hst.reset with i3cDa := some 9 } }
     let a : BitVec 7 := 9
     decide (s.dev.hst.i3cDa = some a)) = true ∧
    (let l : List Byte := [1, 2]
     decide (l.length ≠ 1)) = true ∧
    (let s : State := st { boot .m3 [] with hst := { Hst.reset with i3cDa := some 9, i3cOff := 63 } }
     let a : BitVec 7 := 9
     decide (s.dev.hst.i3cDa = some a)) = true := by
  decide +kernel

/-- States and operands that meet the hypotheses of LineFrameCommandsComplete, parts 1, 2, 3, 4, 5, 6, 7, 8. -/
theorem witness_LineFrameCommandsComplete :
    (let s : State := st (boot .m3 [(F.LPT_STATUS_LINK.port 127, 1), (F.LPT_RX_OK_FRAMES.port 127, 2 ^ 64 - 1)])
     let p : Port := 127
     let l : List Byte := (List.range 60).map (fun n => BitVec.ofNat 8 (n + 1)) ++ [0x34, 0x4C, 0xA0, 0x62]
     decide (s.dev.linkUp p.val = true ∧ s.dev.forwarding = true ∧ crc32 (frameBody l) = frameFcs l ∧ 64 ≤ l.length ∧
             l.length ≤ s.dev.maxFrame p.val ∧ controlOf l = none ∧ s.dev.on (F.LPT_MSEC_CTRL_RX_EN.port p.val) = false ∧
             (s.dev.octetStopped (s.dev.portOctet p.val) = true ∨ s.dev.rxBytes (s.dev.portOctet p.val) + (frameBody l).length + 4 ≤ 1048576))) = true ∧
    (let s : State := st (boot .m3 [(F.LPT_STATUS_LINK.port 0, 1)])
     let p : Port := 0
     let l : List Byte := List.replicate 64 0
     decide (s.dev.linkUp p.val = true ∧ s.dev.lineStopped = false ∧ crc32 (frameBody l) ≠ frameFcs l)) = true ∧
    (let s : State := st (boot .m3 [(F.LPT_STATUS_LINK.port 0, 1), (F.LPT_CTRL_FLOW.port 0, 1)])
     let p : Port := 0
     let t : BitVec 16 := 1
     decide (s.dev.lineSends p.val = true ∧ s.dev.flowMode p.val = 1 ∧ t ≠ 0)) = true ∧
    (let s : State := st { boot .m3 [] with lpt := { Lpt.reset with ports := [(5, { LptPort.reset with paused := 0xFF })] } }
     let p : Port := 5
     let c : Fin 8 := 7
     decide ((s.dev.lp p.val).pausedUntil.get (fun _ => 0) c.val < s.dev.slotEnd)) = true ∧
    (let s : State := st { boot .m3 [(F.LPT_STATUS_LINK.port 1, 1), (F.LPT_CTRL_FLOW.port 1, 2), (F.LPT_PFC_THR_XON.port 1, 1), (F.LPT_PFC_QUANTA.port 1, 65535)] with lpt := { Lpt.reset with ports := [(1, { LptPort.reset with xoff := 128, held := [(7, 4097)] })] } }
     let p : Port := 1
     let c : Fin 8 := 7
     decide (s.dev.lineSends p.val = true ∧ s.dev.flowMode p.val = 2 ∧ bitOn (s.dev.lp p.val).xoff c.val = true ∧
             s.dev.rd (F.LPT_PFC_THR_XON.port p.val) * 4096 < s.dev.flowBytes p.val c.val ∧
             2 * (s.dev.lp p.val).ctlAt.get (fun _ => 0) c.val + s.dev.rd (F.LPT_PFC_QUANTA.port p.val) * s.dev.quantum p.val < 2 * s.dev.slotEnd)) = true ∧
    (let s : State := st { boot .m3 [(F.LPT_STATUS_LINK.port 1, 1), (F.LPT_CTRL_FLOW.port 1, 2), (F.LPT_PFC_QUANTA.port 1, 65535)] with lpt := { Lpt.reset with ports := [(1, { LptPort.reset with xoff := 128, ctlAt := [(7, 40000)] })] } }
     let p : Port := 1
     let c : Fin 8 := 7
     decide (s.dev.flowMode p.val = 2 ∧
             2 * s.dev.slotEnd ≤ 2 * (s.dev.lp p.val).ctlAt.get (fun _ => 0) c.val + s.dev.rd (F.LPT_PFC_QUANTA.port p.val) * s.dev.quantum p.val)) = true ∧
    (let s : State := st { boot .m3 [(F.LPT_PFC_WD.port 1, 5)] with tim := { Tim.reset with tick := 15 }, lpt := { Lpt.reset with ports := [(1, { LptPort.reset with paused := 1, pausedAt := [(0, 10)] })] } }
     let p : Port := 1
     let c : Fin 8 := 0
     decide (s.dev.rd (F.LPT_PFC_WD.port p.val) ≠ 0 ∧ bitOn (s.dev.lp p.val).ignored c.val = false ∧
             bitOn (s.dev.lp p.val).paused c.val = true ∧
             (s.dev.lp p.val).pausedAt.get (fun _ => 0) c.val + s.dev.rd (F.LPT_PFC_WD.port p.val) ≤ s.dev.tim.tick)) = true ∧
    (let s : State := st { boot .m3 [(F.LPT_STATUS_LINK.port 1, 1), (F.LPT_PREEMPT_EN.port 1, 1), (F.LPT_PREEMPT_PMAC_MASK.port 1, 128), (F.LPT_PREEMPT_VERIFY_STATE.port 1, 2)] with lpt := { Lpt.reset with ports := [(1, { LptPort.reset with tx := [⟨[1, 2, 3], 7, none⟩] })] } }
     let p : Port := 1
     let f : TxFrame := ⟨[1, 2, 3], 7, none⟩
     decide (s.dev.linkUp p.val = true ∧ s.dev.lineStopped = false ∧ s.dev.silent = false ∧ (s.dev.lp p.val).flight = none ∧
             (s.dev.lp p.val).frag = none ∧ (s.dev.lp p.val).tx = [f] ∧ (s.dev.lp p.val).gclRun = none ∧
             (s.dev.lp p.val).gclPending = none ∧ (s.dev.lp p.val).hold = false ∧ bitOn (s.dev.lp p.val).paused f.cls = false ∧
             f.tsTag = none)) = true := by
  decide +kernel

/-- States and operands that meet the hypotheses of LineFrameCommandsComplete, part 9. -/
theorem witness_LineFrameCommandsComplete_2 :
    (let s : State := st { boot .m3 [(F.LPT_STATUS_LINK.port 1, 1), (F.LPT_STATUS_MODE.port 1, 5)] with tim := { Tim.reset with tick := 9 }, lpt := { Lpt.reset with ports := [(1, { LptPort.reset with flight := some ⟨⟨[1, 2, 3], 7, none⟩, false, 0, 0, 64⟩ })] } }
     let p : Port := 1
     let k : Fin 3200 := 1000
     let y : Flight := ⟨⟨[1, 2, 3], 7, none⟩, false, 0, 0, 64⟩
     decide (s.dev.linkUp p.val = true ∧ s.dev.lineStopped = false ∧ s.dev.silent = false ∧ (s.dev.lp p.val).flight = some y ∧
             y.plan = y.frame.macBytes - y.before ∧ y.plan ≤ (s.dev.instant k.val - y.start) * s.dev.portGbps p.val / 800 - 8)) = true := by
  decide +kernel

/-- States and operands that meet the hypotheses of LineAndGateConfigCommandsComplete, parts 1, 2, 3, 4, 5, 6, 7, 8. -/
theorem witness_LineAndGateConfigCommandsComplete :
    (let s : State := st (boot .m2 [])
     let m : Master := 6
     let p : Port := 120
     let data : Word := 0x53977
     decide (s.dev.writes m.val (F.LPT_OCT_RX_MAP.port p.val).off = true ∧ p.val % 8 = 0 ∧
             ((List.range 8).all fun i => decide (s.dev.on (F.LPT_CTRL_ADMIN_UP.port (p.val + i)) = false)) = true ∧
             lanePermutation data.toNat = true)) = true ∧
    (let s : State := st (boot .m2 [])
     let m : Master := 6
     let p : Port := 0
     let data : Word := 0
     decide (s.dev.writes m.val (F.LPT_OCT_TX_MAP.port p.val).off = true ∧ p.val % 8 = 0 ∧ lanePermutation data.toNat = false)) = true ∧
    (let s : State := st (boot .m2 [(F.LPT_MSEC_SA_SEL_DIR.port 3, 1), (F.LPT_MSEC_SA_SEL_AN.port 3, 3), (F.LPT_MSEC_PN.port 3, 2 ^ 64 - 1), ((F.LPT_MSEC_KEY.ix 7).port 3, 0xFFFFFFFF)])
     let m : Master := 7
     let p : Port := 3
     decide (s.dev.writes m.val (F.LPT_MSEC_SA_CMD.port p.val).off = true ∧
             ((s.dev.lp p.val).sa (saKey (s.dev.rd (F.LPT_MSEC_SA_SEL_DIR.port p.val)) (s.dev.rd (F.LPT_MSEC_SA_SEL_SC.port p.val)) (s.dev.rd (F.LPT_MSEC_SA_SEL_AN.port p.val)))).valid = false)) = true ∧
    (let s : State := st { boot .m2 [((F.LPT_MSEC_KEY.ix 7).port 3, 5)] with lpt := { Lpt.reset with ports := [(3, { LptPort.reset with sas := [(0, ⟨true, 5, 0, 0, 0, none, false⟩)] })] } }
     let m : Master := 6
     let p : Port := 3
     decide (s.dev.writes m.val (F.LPT_MSEC_SA_CMD.port p.val).off = true)) = true ∧
    (let s : State := st { boot .m2 [] with lpt := { Lpt.reset with ports := [(3, { LptPort.reset with txts := [(1, 2, 3, true), (4, 5, 6, false)] })] } }
     let m : Master := 6
     let p : Port := 3
     decide (s.dev.writes m.val (F.LPT_CTRL.port p.val).off = true)) = true ∧
    (let s : State := st (boot .m2 [(F.LPT_RX_OK_FRAMES.port 127, 9), (F.LPT_TX_MSEC_PN_DROP.port 127, 4)])
     let m : Master := 6
     let p : Port := 127
     decide (s.dev.writes m.val (F.LPT_CTRL.port p.val).off = true)) = true ∧
    (let s : State := st (withImage image0 (boot .m2 [(F.IMG_STATUS_LIVE_VALID, 1), (F.LPT_GCL_CTRL_LEN.port 0, 1), ((F.LPT_GCL_ENTRY.ix 0).port 0, 64), (F.LPT_GCL_CYCLE_NS.port 0, 1024)]))
     let m : Master := 6
     let p : Port := 0
     decide (s.dev.writes m.val (F.LPT_GCL_CTRL.port p.val).off = true ∧ s.dev.gatesLegal p.val = true)) = true ∧
    (let s : State := st (withImage image0 (boot .m2 [(F.LPT_GCL_CTRL_LEN.port 0, 1), ((F.LPT_GCL_ENTRY.ix 0).port 0, 63), (F.LPT_GCL_CYCLE_NS.port 0, 1024)]))
     let m : Master := 6
     let p : Port := 0
     decide (s.dev.writes m.val (F.LPT_GCL_CTRL.port p.val).off = true ∧ s.dev.gatesLegal p.val = false)) = true := by
  decide +kernel

/-- States and operands that meet the hypotheses of LineAndGateConfigCommandsComplete, parts 9, 10, 11. -/
theorem witness_LineAndGateConfigCommandsComplete_2 :
    (let s : State := st { boot .m3 [(F.LPT_GCL_CTRL_PENDING.port 0, 1)] with tim := { Tim.reset with span := 3 }, lpt := { Lpt.reset with ports := [(0, { LptPort.reset with gclPending := some ⟨[0x10000040], 0, 0, 1024, true⟩, gclStart := (0, 2048) })] } }
     let p : Port := 0
     let g : GateList := ⟨[0x10000040], 0, 0, 1024, true⟩
     decide ((s.dev.lp p.val).gclPending = some g ∧
             (s.dev.lp p.val).gclStart.1 * 1000000000 + (s.dev.lp p.val).gclStart.2 < s.dev.gateEndNs)) = true ∧
    (let s : State := st { boot .m3 [] with tim := { Tim.reset with span := 3 }, lpt := { Lpt.reset with ports := [(0, { LptPort.reset with gclRun := some ⟨[0x10000040, 0x20000040], 0, 0, 1024, true⟩, gclIdx := 1, gclAt := 2000 })] } }
     let p : Port := 0
     let g : GateList := ⟨[0x10000040, 0x20000040], 0, 0, 1024, true⟩
     let w : Word := 0x20000040
     let n : Nat := 960
     decide ((s.dev.lp p.val).gclRun = some g ∧ g.enable = true ∧
             (gateSpans g.cycle g.entries)[(s.dev.lp p.val).gclIdx]? = some (w, n) ∧
             (s.dev.lp p.val).gclAt + n < s.dev.gateEndNs)) = true ∧
    (let s : State := st (boot .m3 [(F.LPT_PREEMPT_VERIFY_STATE.port 1, 1), (F.LPT_STATUS_LINK.port 1, 1)])
     let p : Port := 1
     decide (s.dev.rd (F.LPT_PREEMPT_VERIFY_STATE.port p.val) = 1 ∧ s.dev.linkUp p.val = true)) = true := by
  decide +kernel

/-- States and operands that meet the hypotheses of LineLinkCommandsComplete, parts 1, 2, 3, 4, 5, 6. -/
theorem witness_LineLinkCommandsComplete :
    (let s : State := st (withImage image0 (boot .m3 [(F.LPT_STATUS_LINK.port 8, 1), (F.LPT_CTRL_ADMIN_UP.port 8, 1)]))
     let m : Master := 6
     let p : Port := 8
     decide (s.dev.writes m.val (F.LPT_CTRL.port p.val).off = true ∧ s.dev.linkUp p.val = true ∧
             s.dev.on (F.LPT_CTRL_ADMIN_UP.port p.val) = true)) = true ∧
    (let s : State := st (boot .m3 [])
     let m : Master := 6
     let p : Port := 127
     decide (s.dev.writes m.val (F.LPT_CTRL.port p.val).off = true)) = true ∧
    (let s : State := st { boot .m3 [(F.LPT_STATUS_LINK.port 8, 1), (F.LPT_LINK_CFG_HOLD_DOWN.port 8, 3)] with tim := { Tim.reset with tick := 9 }, lpt := { Lpt.reset with ports := [(8, { LptPort.reset with faults := 4, faultAt := [(2, 6)] })] } }
     let p : Port := 8
     let c : Nat := 4
     decide (s.dev.linkUp p.val = true ∧ s.dev.downCause p.val = some c)) = true ∧
    (let s : State := st { withImage image0 (boot .m3 [(F.LPT_CTRL_ADMIN_UP.port 15, 1), (F.LPT_LINK_CFG_HOLD_UP.port 15, 5)]) with tim := { Tim.reset with tick := 8 }, lpt := { Lpt.reset with ports := [(15, { LptPort.reset with cleanAt := 3 })] } }
     let p : Port := 15
     decide (s.dev.linkUp p.val = false ∧ s.dev.dgn.recal = [] ∧ s.dev.present p.val = true ∧
             s.dev.on (F.LPT_CTRL_ADMIN_UP.port p.val) = true ∧ (s.dev.lp p.val).clean = true ∧
             (s.dev.lp p.val).cleanAt + s.dev.rd (F.LPT_LINK_CFG_HOLD_UP.port p.val) ≤ s.dev.tim.tick ∧
             s.dev.octetRuns (s.dev.portOctet p.val) = true ∧ s.dev.portShed p.val = false ∧ s.dev.lineStopped = false)) = true ∧
    (let s : State := st (boot .m3 [(F.LPT_LINK_CFG_FEC_THR.port 0, 3)])
     let p : Port := 0
     let b : Nat := 4
     decide (s.dev.rd (F.LPT_LINK_CFG_FEC_THR.port p.val) ≠ 0 ∧ s.dev.rd (F.LPT_LINK_CFG_FEC_THR.port p.val) < b)) = true ∧
    (let s : State := st (boot .m3 [(F.LPT_STATUS_LINK.port 0, 1)])
     let p : Port := 0
     decide (bitOn (s.dev.lp p.val).faults 1 = false)) = true := by
  decide +kernel

/-- States and operands that meet the hypotheses of StrokeCommandsComplete, parts 1, 2, 3, 4, 5, 6, 7, 8. -/
theorem witness_StrokeCommandsComplete :
    (let s : State := st { withImage (image1 0) (boot .m3 []) with lpt := { Lpt.reset with rx := [(0, [⟨0, [1, 2], 5, 0, false⟩])] } }
     let p : Pier := 0
     let o : Nat := 0
     let f : RxFrame := ⟨0, [1, 2], 5, 0, false⟩
     let rest : List RxFrame := []
     let r := (ingressAt s.dev p.val o).stroke p.val 0 (s.dev.rd (F.PIR_PARSE_CFG_ING_START.pier p.val)) { bytes := f.bytes, md := s.dev.frameMd f, tsHeld := f.tsHeld }
     decide (s.dev.forwarding = true ∧ s.dev.pierHalted p.val = false ∧ s.dev.cwStopped 0 = false ∧ s.dev.octetOf p.val = some o ∧
             s.dev.rxQueue o = f :: rest ∧ s.dev.octetStopped o = false ∧ s.dev.copiedWait p.val = false ∧
             r.1.pkt.get Md.drop = 1)) = true ∧
    (let s : State := st { boot .m3 [(F.PIR_PARSE_CFG_ERR_DROP.pier 15, 0)] with lpt := { Lpt.reset with rx := [(15, [⟨120, [1, 2], 5, 0, false⟩, ⟨121, [3], 5, 0, false⟩])] } }
     let p : Pier := 15
     let o : Nat := 15
     let f : RxFrame := ⟨120, [1, 2], 5, 0, false⟩
     let rest : List RxFrame := [⟨121, [3], 5, 0, false⟩]
     let r := (ingressAt s.dev p.val o).stroke p.val 0 (s.dev.rd (F.PIR_PARSE_CFG_ING_START.pier p.val)) { bytes := f.bytes, md := s.dev.frameMd f, tsHeld := f.tsHeld }
     decide (s.dev.forwarding = true ∧ s.dev.pierHalted p.val = false ∧ s.dev.cwStopped 0 = false ∧ s.dev.octetOf p.val = some o ∧
             s.dev.rxQueue o = f :: rest ∧ s.dev.octetStopped o = false ∧ s.dev.copiedWait p.val = false ∧
             r.1.pkt.get Md.drop = 0 ∧ r.1.recirc = false)) = true ∧
    (let s : State := st { withImage (image1 1) (boot .m3 [(F.PIR_PARSE_CFG_ERR_DROP.pier 0, 0)]) with lpt := { Lpt.reset with rx := [(0, [⟨0, [1, 2], 5, 0, false⟩])] } }
     let p : Pier := 0
     let o : Nat := 0
     let f : RxFrame := ⟨0, [1, 2], 5, 0, false⟩
     let rest : List RxFrame := []
     let r := (ingressAt s.dev p.val o).stroke p.val 0 (s.dev.rd (F.PIR_PARSE_CFG_ING_START.pier p.val)) { bytes := f.bytes, md := s.dev.frameMd f, tsHeld := f.tsHeld }
     decide (s.dev.forwarding = true ∧ s.dev.pierHalted p.val = false ∧ s.dev.cwStopped 0 = false ∧ s.dev.octetOf p.val = some o ∧
             s.dev.rxQueue o = f :: rest ∧ s.dev.octetStopped o = false ∧ s.dev.copiedWait p.val = false ∧
             r.1.pkt.get Md.drop = 0 ∧ r.1.recirc = true ∧ r.1.pkt.get Md.strokeCount < 3 ∧ (s.dev.ssQueue p.val).length < 1024 ∧
             s.dev.ssBytes p.val + r.1.pkt.bytes.length ≤ 4194304)) = true ∧
    (let s : State := st { boot .m3 [(F.HST_IQ_CFG_OCTET.ix 9, 2), (F.HST_IQ_HEAD_INDEX.ix 9, 65535)] with pir := { Pir.reset with inject := [(2, [{ bytes := [1], md := 0, back := some 9 }])] }, hst := { Hst.reset with fetched := [(9, some 1)] } }
     let p : Pier := 2
     let o : Nat := 2
     let n : Nat := 9
     let flags : Nat := 1
     let x : Packet := { bytes := [1], md := 0, back := some 9 }
     let rest : List Packet := []
     decide (s.dev.forwarding = true ∧ s.dev.pierHalted p.val = false ∧ s.dev.cwStopped 0 = false ∧ s.dev.octetOf p.val = some o ∧
             s.dev.octetStopped o = false ∧ s.dev.ssQueue p.val = [] ∧ s.dev.rxQueue o = [] ∧ s.dev.injectQueue o = x :: rest ∧
             x.back = some n ∧ n < 16 ∧ s.dev.hst.fetched.get (fun _ => none) n = some flags)) = true ∧
    (let s : State := st { boot .m3 [(F.PIR_PARSE_CFG_ERR_DROP.pier 2, 0)] with pir := { Pir.reset with ss := [(2, [{ pkt := { bytes := [1], md := 2 }, fcs := some 7, bad := true }])] } }
     let p : Pier := 2
     let o : Nat := 2
     let e : SsEntry := { pkt := { bytes := [1], md := 2 }, fcs := some 7, bad := true }
     let rest : List SsEntry := []
     decide (s.dev.forwarding = true ∧ s.dev.pierHalted p.val = false ∧ s.dev.cwStopped 0 = false ∧ s.dev.octetOf p.val = some o ∧
             s.dev.octetStopped o = false ∧ s.dev.ssBarred p.val = false ∧
             (s.dev.copiedWait p.val = true ∨ (s.dev.rxQueue o = [] ∧ (s.dev.injectQueue o = [] ∨ s.dev.hadTurn p.val 2 = false))) ∧
             s.dev.ssQueue p.val = e :: rest ∧ e.bad = true)) = true ∧
    (let s : State := st { boot .m3 [(F.TIM_EPOCH_EPOCH, 1)] with tim := { Tim.reset with ksFired := true, limitPassed := true }, pir := { Pir.reset with ss := [(2, [{ pkt := { bytes := [1], md := 0 }, fcs := some 7 }])] } }
     let p : Pier := 2
     let o : Nat := 2
     let e : SsEntry := { pkt := { bytes := [1], md := 0 }, fcs := some 7 }
     let rest : List SsEntry := []
     decide (s.dev.forwarding = true ∧ s.dev.pierHalted p.val = false ∧ s.dev.cwStopped 0 = false ∧ s.dev.octetOf p.val = some o ∧
             s.dev.octetStopped o = false ∧ s.dev.ssBarred p.val = false ∧
             (s.dev.copiedWait p.val = true ∨ (s.dev.rxQueue o = [] ∧ (s.dev.injectQueue o = [] ∨ s.dev.hadTurn p.val 2 = false))) ∧
             s.dev.ssQueue p.val = e :: rest ∧ e.bad = false ∧ s.dev.expired e.pkt.tag = true)) = true ∧
    (let s : State := st { boot .m3 [(F.PIR_PARSE_CFG_ERR_DROP.pier 2, 0)] with pir := { Pir.reset with ss := [(2, [{ pkt := { bytes := [1], md := 2 }, fcs := some 7 }])] } }
     let p : Pier := 2
     let o : Nat := 2
     let e : SsEntry := { pkt := { bytes := [1], md := 2 }, fcs := some 7 }
     let rest : List SsEntry := []
     let r := (secondAt s.dev p.val rest).stroke p.val 0 (e.pkt.get Md.ssStart) e.pkt
     decide (s.dev.forwarding = true ∧ s.dev.pierHalted p.val = false ∧ s.dev.cwStopped 0 = false ∧ s.dev.octetOf p.val = some o ∧
             s.dev.octetStopped o = false ∧ s.dev.ssBarred p.val = false ∧
             (s.dev.copiedWait p.val = true ∨ (s.dev.rxQueue o = [] ∧ (s.dev.injectQueue o = [] ∨ s.dev.hadTurn p.val 2 = false))) ∧
             s.dev.ssQueue p.val = e :: rest ∧ e.bad = false ∧ s.dev.expired e.pkt.tag = false ∧ r.1.pkt.get Md.drop = 0 ∧
             r.1.recirc = false)) = true ∧
    (let s : State := st { boot .m3 [(F.TIM_EPOCH_EPOCH, 1)] with tim := { Tim.reset with ksFired := true, limitPassed := true }, pir := { Pir.reset with egress := [(2, [{ bytes := [1], md := 0 }])] } }
     let p : Pier := 2
     let o : Nat := 2
     let q : Packet := { bytes := [1], md := 0 }
     let rest : List Packet := []
     decide (s.dev.forwarding = true ∧ s.dev.pierHalted p.val = false ∧ s.dev.octetOf p.val = some o ∧
             s.dev.egressQueue o = q :: rest ∧ s.dev.expired q.tag = true)) = true := by
  decide +kernel

/-- States and operands that meet the hypotheses of StrokeCommandsComplete, part 9. -/
theorem witness_StrokeCommandsComplete_2 :
    (let s : State := st { boot .m3 [(F.PIR_PARSE_CFG_ERR_DROP.pier 2, 0)] with pir := { Pir.reset with egress := [(2, [{ bytes := [1], md := 127 <<< 320 }])] } }
     let p : Pier := 2
     let o : Nat := 2
     let q : Packet := { bytes := [1], md := 127 <<< 320 }
     let rest : List Packet := []
     let r := (egressAt s.dev p.val o q rest).stroke p.val 1 (s.dev.rd (F.PIR_PARSE_CFG_EGR_START.pier p.val)) { q with md := keepReach (imageFields (s.dev.pierImage p.val q.tag)) 3 q.md }
     let port := q.get Md.egrPort
     decide (s.dev.forwarding = true ∧ s.dev.pierHalted p.val = false ∧ s.dev.octetOf p.val = some o ∧
             s.dev.egressQueue o = q :: rest ∧ s.dev.expired q.tag = false ∧ r.1.pkt.get Md.drop = 0 ∧ r.1.punt = none ∧
             r.1.pkt.get Md.ptpCtrl = 0 ∧ r.2.on (F.LPT_MSEC_CTRL_TX_EN.port port) = false)) = true := by
  decide +kernel

/-- States and operands that meet the hypotheses of TcamCommandsComplete, parts 1, 2, 3, 4. -/
theorem witness_TcamCommandsComplete :
    (let s : State := st (boot .m3 [(F.PWR_DOM_STATUS.ix 0, 0xFFFFFFFF), (F.PIR_TCAM_ADDR_ROW.pier 0, 16380)])
     let m : Master := 6
     let data : Word := 0x201
     let p : Nat := 0
     decide (s.dev.writes m.val 0x9800104 = true ∧ s.dev.localBarred m.val = false ∧ p < 17 ∧ s.dev.pierPowered p = true ∧
             s.dev.rd (F.PIR_TCAM_ADDR_ROW.pier p) < tcamRows (s.dev.rd (F.PIR_TCAM_ADDR_PIPE.pier p)) ∧ bits data 9 8 ≠ 3 ∧
             s.dev.rd (F.PIR_TCAM_ADDR_ROW.pier p) % chainRows (bits data 9 8) = 0)) = true ∧
    (let s : State := st (boot .m5 [])
     let m : Master := 6
     decide (s.dev.writes m.val 0x9800104 = true ∧ s.dev.localBarred m.val = true)) = true ∧
    (let s : State := st { boot .m3 [] with pir := { Pir.reset with commits := [(16, [⟨1, 4094, 1, true, 0, [⟨1, 2, false, 0, 0, 3⟩, ⟨4, 5, false, 0, 0, 6⟩]⟩])] } }
     let p : Pier := 16
     let x : TcamCommit := ⟨1, 4094, 1, true, 0, [⟨1, 2, false, 0, 0, 3⟩, ⟨4, 5, false, 0, 0, 6⟩]⟩
     let rest : List TcamCommit := []
     decide (s.dev.pierHalted p.val = false ∧ s.dev.commits p.val = x :: rest)) = true ∧
    (let s : State := st (boot .m3 [(F.PIR_TCAM_COMMITS.pier 16, 4)])
     let m : Master := 6
     let p : Pier := 16
     decide (s.dev.writes m.val (F.PIR_CTRL.pier p.val).off = true)) = true := by
  decide +kernel

/-- States and operands that meet the hypotheses of KeyedRequestsComplete, parts 1, 2, 3, 4, 5, 6. -/
theorem witness_KeyedRequestsComplete :
    (let s : State := st (taeDev { Tbl.reset with mem := [(memKey 2 (place0.bucket 5 0 + 7), exEntry 2 5 9 0 false false)], queue := [reqOf [(0, 1, 1), (32, 40, 5)] 1 (some 511)] })
     let q : TaeReq := reqOf [(0, 1, 1), (32, 40, 5)] 1 (some 511)
     let t : Nat := 0
     let c : Schema := schema0
     let p : Place := place0
     let k : Nat := 5
     let i : Nat := place0.bucket 5 0 + 7
     decide (s.dev.taeReady q 1 ∧ s.dev.keyedOf q.req = some (t, c, p, k) ∧ s.dev.findKey p k = some i)) = true ∧
    (let s : State := st (taeDev { Tbl.reset with queue := [reqOf [(0, 1, 1), (32, 40, 2 ^ 48 - 1)] 1 (some 511)] })
     let q : TaeReq := reqOf [(0, 1, 1), (32, 40, 2 ^ 48 - 1)] 1 (some 511)
     let t : Nat := 0
     let c : Schema := schema0
     let p : Place := place0
     let k : Nat := 2 ^ 48 - 1
     decide (s.dev.taeReady q 1 ∧ s.dev.keyedOf q.req = some (t, c, p, k) ∧ s.dev.findKey p k = none)) = true ∧
    (let s : State := st (taeDev { Tbl.reset with mem := [(memKey 2 (place0.bucket 5 0), exEntry 2 5 9 0 false false)], queue := [reqOf [(0, 1, 2), (1, 1, 1), (24, 8, 2 ^ 64 - 1), (32, 40, 5)] 1 (some 0)] })
     let q : TaeReq := reqOf [(0, 1, 2), (1, 1, 1), (24, 8, 2 ^ 64 - 1), (32, 40, 5)] 1 (some 0)
     let t : Nat := 0
     let c : Schema := schema0
     let p : Place := place0
     let k : Nat := 5
     let i : Nat := place0.bucket 5 0
     decide (s.dev.taeReady q 2 ∧ s.dev.keyedOf q.req = some (t, c, p, k) ∧ s.dev.insertPlan p k = .present i)) = true ∧
    (let s : State := st (taeDev { Tbl.reset with mem := [(memKey 2 (place0.bucket 5 0), exEntry 2 6 9 0 false false)], queue := [reqOf [(0, 1, 2), (24, 8, 3), (32, 40, 5)] 1 (some 0)] })
     let q : TaeReq := reqOf [(0, 1, 2), (24, 8, 3), (32, 40, 5)] 1 (some 0)
     let t : Nat := 0
     let c : Schema := schema0
     let p : Place := place0
     let k : Nat := 5
     let i : Nat := place0.bucket 5 0 + 1
     let n : Nat := 0
     let ws : List (Nat × BitVec 1024) := []
     decide (s.dev.taeReady q 2 ∧ s.dev.keyedOf q.req = some (t, c, p, k) ∧ s.dev.insertPlan p k = .room i n ws)) = true ∧
    (let s : State := st (taeDev { Tbl.reset with mem := (List.range 8).map (fun i => (memKey 2 (place0.bucket 5 0 + i), exEntry 2 (6 + i) 9 0 false false)), queue := [reqOf [(0, 1, 2), (24, 8, 3), (32, 40, 5)] 1 (some 0)] })
     let q : TaeReq := reqOf [(0, 1, 2), (24, 8, 3), (32, 40, 5)] 1 (some 0)
     let t : Nat := 0
     let c : Schema := schema0
     let p : Place := place0
     let k : Nat := 5
     decide (s.dev.taeReady q 2 ∧ s.dev.keyedOf q.req = some (t, c, p, k) ∧ s.dev.insertPlan p k = .noRoom ∧ t < 256)) = true ∧
    (let s : State := st (taeDev { Tbl.reset with mem := [(memKey 2 (place0.bucket 5 0 + 7), exEntry 2 5 9 0 true false)], queue := [reqOf [(0, 1, 3), (32, 40, 5)] 1 (some 511)] })
     let q : TaeReq := reqOf [(0, 1, 3), (32, 40, 5)] 1 (some 511)
     let t : Nat := 0
     let c : Schema := schema0
     let p : Place := place0
     let k : Nat := 5
     let i : Nat := place0.bucket 5 0 + 7
     decide (s.dev.taeReady q 3 ∧ s.dev.keyedOf q.req = some (t, c, p, k) ∧ s.dev.findKey p k = some i)) = true := by
  decide +kernel

/-- States and operands that meet the hypotheses of IndexedRequestsComplete, parts 1, 2, 3, 4, 5, 6, 7, 8. -/
theorem witness_IndexedRequestsComplete :
    (let s : State := st (taeDev { Tbl.reset with mem := [(memKey 10 67108863, 77)], poison := [(memKey 10 67108863, true)], queue := [reqOf [(0, 1, 4), (4, 1, 10), (8, 4, 67108863)] 1 (some 3)] })
     let q : TaeReq := reqOf [(0, 1, 4), (4, 1, 10), (8, 4, 67108863)] 1 (some 3)
     decide (s.dev.taeReady q 4 ∧ reqIndex q.req < kindCap (reqKind q.req))) = true ∧
    (let s : State := st (taeDev { Tbl.reset with poison := [(memKey 10 1, true)], queue := [reqOf [(0, 1, 5), (4, 1, 10), (8, 4, 1), (128, 16, 2 ^ 128 - 1)] 1 (some 3)] })
     let q : TaeReq := reqOf [(0, 1, 5), (4, 1, 10), (8, 4, 1), (128, 16, 2 ^ 128 - 1)] 1 (some 3)
     decide (s.dev.taeReady q 5 ∧ 7 ≤ reqKind q.req ∧ reqKind q.req ≤ 10 ∧ reqIndex q.req < kindCap (reqKind q.req) ∧
             s.dev.retired (reqKind q.req) (reqIndex q.req) = false)) = true ∧
    (let s : State := st (taeDev { Tbl.reset with queue := [reqOf [(0, 1, 6), (2, 2, 1), (128, 1, 10), (144, 2, 9), (146, 1, 8), (148, 2, 1), (152, 6, 5)] 1 (some 3)] })
     let q : TaeReq := reqOf [(0, 1, 6), (2, 2, 1), (128, 1, 10), (144, 2, 9), (146, 1, 8), (148, 2, 1), (152, 6, 5)] 1 (some 3)
     let x : Route := ⟨1, 9, 10 <<< 120, 8, 5, 1⟩
     decide (s.dev.taeReady q 6 ∧ s.dev.lpmRoute q.req = some x ∧
             ((s.dev.tbl.lpm.any x.same = true ∨ s.dev.lpmUsed + x.cost ≤ 25165824)))) = true ∧
    (let s : State := st (taeDev { Tbl.reset with lpm := [⟨1, 9, 0, 0, 5, 25165824⟩], queue := [reqOf [(0, 1, 6), (2, 2, 1), (128, 1, 10), (144, 2, 9), (146, 1, 8), (148, 2, 1), (152, 6, 5)] 1 (some 3)] })
     let q : TaeReq := reqOf [(0, 1, 6), (2, 2, 1), (128, 1, 10), (144, 2, 9), (146, 1, 8), (148, 2, 1), (152, 6, 5)] 1 (some 3)
     let x : Route := ⟨1, 9, 10 <<< 120, 8, 5, 1⟩
     decide (s.dev.taeReady q 6 ∧ s.dev.lpmRoute q.req = some x ∧ s.dev.tbl.lpm.any x.same = false ∧
             25165824 < s.dev.lpmUsed + x.cost)) = true ∧
    (let s : State := st (taeDev { Tbl.reset with lpm := [⟨1, 9, 10 <<< 120, 8, 7, 1⟩], queue := [reqOf [(0, 1, 7), (2, 2, 1), (128, 1, 10), (144, 2, 9), (146, 1, 8), (148, 2, 1), (152, 6, 5)] 1 (some 3)] })
     let q : TaeReq := reqOf [(0, 1, 7), (2, 2, 1), (128, 1, 10), (144, 2, 9), (146, 1, 8), (148, 2, 1), (152, 6, 5)] 1 (some 3)
     let x : Route := ⟨1, 9, 10 <<< 120, 8, 5, 1⟩
     decide (s.dev.taeReady q 7 ∧ s.dev.lpmRoute q.req = some x ∧ s.dev.tbl.lpm.any x.same = true)) = true ∧
    (let s : State := st (taeDev { Tbl.reset with lpm := [⟨1, 9, 10 <<< 120, 8, 7, 1⟩], queue := [reqOf [(0, 1, 8), (2, 2, 1), (128, 1, 10), (144, 2, 9), (146, 1, 8), (148, 2, 1)] 1 (some 3)] })
     let q : TaeReq := reqOf [(0, 1, 8), (2, 2, 1), (128, 1, 10), (144, 2, 9), (146, 1, 8), (148, 2, 1)] 1 (some 3)
     let x : Route := ⟨1, 9, 10 <<< 120, 8, 0, 1⟩
     let y : Route := ⟨1, 9, 10 <<< 120, 8, 7, 1⟩
     decide (s.dev.taeReady q 8 ∧ s.dev.lpmRoute q.req = some x ∧ s.dev.tbl.lpm.find? x.same = some y)) = true ∧
    (let s : State := st (taeDev { Tbl.reset with queue := [reqOf [(0, 1, 9), (12, 4, 1)] 1 (some 3)] })
     let q : TaeReq := reqOf [(0, 1, 9), (12, 4, 1)] 1 (some 3)
     let l : List Byte := leBytes 256 (packBytes [(0, 1, 5), (4, 1, 10), (8, 4, 1), (128, 16, 9)])
     decide (s.dev.taeReady q 9 ∧ q.recs = none ∧ q.done = 0 ∧ q.ready = 0 ∧ s.dev.mirrorOn = false ∧ reqCount q.req ≠ 0 ∧
             reqCount q.req ≤ 1048576 ∧ byteField q.req 16 1 = 0 ∧ 256 * reqCount q.req ≤ l.length ∧
             (((List.range 8).all fun u => decide (s.dev.unitState u = 1 ∨ s.dev.unitState u = 2 → (s.dev.unit u).point ≠ 4)) = true) ∧
             ((s.dev.bulkFetch q l).bulkRun 0 (bulkRecords (reqCount q.req) l)).1.status = 2)) = true ∧
    (let s : State := st (taeDev { Tbl.reset with idxOps := (0, 64), queue := [reqOf [(0, 1, 9), (12, 4, 1)] 1 (some 3)] })
     let q : TaeReq := reqOf [(0, 1, 9), (12, 4, 1)] 1 (some 3)
     let l : List Byte := leBytes 256 (packBytes [(0, 1, 5), (4, 1, 10), (8, 4, 1), (128, 16, 9)])
     let n : Nat := 0
     decide (s.dev.taeReady q 9 ∧ q.recs = none ∧ q.done = 0 ∧ q.ready = 0 ∧ s.dev.mirrorOn = false ∧ reqCount q.req ≠ 0 ∧
             reqCount q.req ≤ 1048576 ∧ byteField q.req 16 1 = 0 ∧ 256 * reqCount q.req ≤ l.length ∧
             ((s.dev.bulkFetch q l).bulkRun 0 (bulkRecords (reqCount q.req) l)).1 = ⟨1, 0, n, 0⟩)) = true := by
  decide +kernel

/-- States and operands that meet the hypotheses of IndexedRequestsComplete, parts 9, 10. -/
theorem witness_IndexedRequestsComplete_2 :
    (let s : State := st (taeDev { Tbl.reset with queue := [reqOf [(0, 1, 9), (12, 4, 1048576)] 1 (some 3)] })
     let q : TaeReq := reqOf [(0, 1, 9), (12, 4, 1048576)] 1 (some 3)
     decide (s.dev.taeReady q 9 ∧ q.recs = none ∧ q.done = 0 ∧ s.dev.mirrorOn = false ∧ reqCount q.req ≠ 0 ∧
             reqCount q.req ≤ 1048576 ∧ byteField q.req 16 1 = 0)) = true ∧
    (let s : State := st (taeDev { Tbl.reset with retire := [⟨8, 100, 1, 5⟩], queue := [reqOf [(0, 1, 10), (4, 1, 8), (8, 4, 101), (12, 4, 65536)] 1 (some 3)] })
     let q : TaeReq := reqOf [(0, 1, 10), (4, 1, 8), (8, 4, 101), (12, 4, 65536)] 1 (some 3)
     decide (s.dev.taeReady q 10 ∧ ((reqKind q.req = 7 ∨ reqKind q.req = 8)) ∧ reqCount q.req ≠ 0 ∧ reqCount q.req ≤ 65536 ∧
             reqIndex q.req + reqCount q.req ≤ kindCap (reqKind q.req) ∧
             (∀ x ∈ s.dev.tbl.retire, x.kind = reqKind q.req → x.first + x.count ≤ reqIndex q.req ∨ reqIndex q.req + reqCount q.req ≤ x.first) ∧
             s.dev.tbl.retire.length < 4096)) = true := by
  decide +kernel

/-- States and operands that meet the hypotheses of SubmissionsComplete, parts 1, 2, 3, 4, 5, 6, 7, 8. -/
theorem witness_SubmissionsComplete :
    (let s : State := st (taeDev { Tbl.reset with seq := 2 ^ 32 - 1 })
     let m : Master := 6
     let n : Fin 512 := 511
     decide (s.dev.writes m.val tblOff = true ∧ m.val ≠ 7 ∧ s.dev.mirrorOn = false ∧
             (s.dev.tbl.resp.get (fun _ => TaeResp.reset) n.val).status ≠ 1)) = true ∧
    (let s : State := st ((taeDev Tbl.reset).wr F.TWN_CTRL_EN 1 |>.wr F.TWN_PEER_STATE 5 |> fun d => { d with mode := .m4 })
     let m : Master := 6
     let n : Fin 512 := 5
     let r : BitVec 2048 := (reqOf [(0, 1, 2), (32, 40, 5)] 1 (some 0)).req
     decide (s.dev.writes m.val tblOff = true ∧ m.val ≠ 7 ∧ s.dev.mirrorOn = true ∧
             (s.dev.tbl.resp.get (fun _ => TaeResp.reset) n.val).status ≠ 1 ∧ opChanges (reqOp r) = true ∧ reqOp r ≠ 9 ∧
             (∀ x ∈ s.dev.tbl.queue, reqOp x.req ≠ 9 ∧ s.dev.unmirrored x = false))) = true ∧
    (let s : State := st (taeDev { Tbl.reset with resp := [(0, ⟨1, 0, 5, 0, 0⟩)] })
     let m : Master := 6
     let n : Fin 512 := 0
     decide (s.dev.writes m.val tblOff = true ∧ m.val ≠ 7 ∧ (s.dev.tbl.resp.get (fun _ => TaeResp.reset) n.val).status = 1)) = true ∧
    (let m : Master := 7
     decide (m.val = 7)) = true ∧
    (let s : State := st (boot .m3 [])
     let m : Master := 7
     decide (s.dev.reads m.val tblOff = true ∧ m.val = 7)) = true ∧
    (let m : Master := 7
     decide (m.val = 7)) = true ∧
    (let s : State := st (taeDev { Tbl.reset with resp := [(511, ⟨2, 3, 4, 5, 6⟩)] })
     let m : Master := 6
     let off : BitVec 30 := 0x3FFFF
     decide (s.dev.reads m.val tblOff = true ∧ m.val ≠ 7 ∧ off.toNat < 0x40000 ∧ 256 ≤ off.toNat % 512)) = true ∧
    (let s : State := st (taeDev Tbl.reset)
     let m : Master := 6
     let off : BitVec 30 := 0x3FEFF
     decide (s.dev.writes m.val tblOff = true ∧ m.val ≠ 7 ∧ off.toNat < 0x40000 ∧ 4 ≤ off.toNat % 512 ∧ off.toNat % 512 < 256)) = true := by
  decide +kernel

/-- States and operands that meet the hypotheses of SubmissionsComplete, parts 9, 10, 11, 12. -/
theorem witness_SubmissionsComplete_2 :
    (let s : State := st ((taeDev { Tbl.reset with mem := [(memKey 2 1, 77)] }).wr F.TBL_TAE_WIN_KIND 2)
     let m : Master := 6
     let off : BitVec 30 := 0x10000020
     let k : Nat := 2
     let i : Nat := 1
     let b : Nat := 0
     decide (s.dev.reads m.val tblOff = true ∧ m.val ≠ 7 ∧ s.dev.winEntry off.toNat = some (k, i, b) ∧ s.dev.tbl.queue = [] ∧
             s.dev.spanCount s.dev.tbl.idxOps < 64 ∧ s.dev.tbl.winLatch.get (fun _ => none) m.val = none)) = true ∧
    (let s : State := st ((taeDev { Tbl.reset with winLatch := [(6, some (memKey 2 1, 5 <<< 64))] }).wr F.TBL_TAE_WIN_KIND 2)
     let m : Master := 6
     let off : BitVec 30 := 0x10000028
     let k : Nat := 2
     let i : Nat := 1
     let b : Nat := 8
     let e : BitVec 1024 := 5 <<< 64
     decide (s.dev.reads m.val tblOff = true ∧ m.val ≠ 7 ∧ s.dev.winEntry off.toNat = some (k, i, b) ∧
             s.dev.tbl.winLatch.get (fun _ => none) m.val = some (memKey k i, e) ∧ 8 ≤ b)) = true ∧
    (let s : State := st ((taeDev Tbl.reset).wr F.TBL_TAE_WIN_KIND 7)
     let m : Master := 6
     let off : BitVec 30 := 0x10000010
     let k : Nat := 7
     let i : Nat := 1
     let b : Nat := 0
     decide (s.dev.writes m.val tblOff = true ∧ m.val ≠ 7 ∧ s.dev.winEntry off.toNat = some (k, i, b) ∧ 7 ≤ k ∧ s.dev.mode ≠ .m5 ∧
             s.dev.mode ≠ .m6 ∧ s.dev.tbl.winStage.get (fun _ => none) m.val = none)) = true ∧
    (let s : State := st ((taeDev { Tbl.reset with winStage := [(6, some (memKey 7 1, 14, 0))] }).wr F.TBL_TAE_WIN_KIND 7)
     let m : Master := 6
     let off : BitVec 30 := 0x10000010
     let k : Nat := 7
     let i : Nat := 1
     let b : Nat := 0
     let mask : Nat := 14
     let e : BitVec 1024 := 0
     decide (s.dev.writes m.val tblOff = true ∧ m.val ≠ 7 ∧ s.dev.mirrorOn = false ∧ s.dev.winEntry off.toNat = some (k, i, b) ∧
             7 ≤ k ∧ s.dev.mode ≠ .m5 ∧ s.dev.mode ≠ .m6 ∧
             s.dev.tbl.winStage.get (fun _ => none) m.val = some (memKey k i, mask, e) ∧
             mask ||| (1 <<< (b / 4)) = 2 ^ (kindBytes k / 4) - 1)) = true := by
  decide +kernel

/-- States and operands that meet the hypotheses of RehashCommandsComplete, parts 1, 2, 3, 4, 5, 6, 7. -/
theorem witness_RehashCommandsComplete :
    (let s : State := st ((taeDev Tbl.reset).wr F.TBL_REHASH_BASE_BASE 1024 |>.wr F.TBL_REHASH_CAP_CAPACITY 1024)
     let m : Master := 6
     let t : BitVec 8 := 0
     decide (s.dev.writes m.val F.TBL_REHASH_CTRL.off = true ∧ s.dev.mirrorOn = false ∧
             s.dev.rehashBar m.val t.toNat (s.dev.rd F.TBL_REHASH_BASE_BASE) (s.dev.rd F.TBL_REHASH_CAP_CAPACITY) = 0)) = true ∧
    (let s : State := st ((taeDev Tbl.reset).wr F.TBL_REHASH_BASE_BASE 1024 |>.wr F.TBL_REHASH_CAP_CAPACITY 1024 |>.wr F.TWN_CTRL_EN 1 |>.wr F.TWN_PEER_STATE 5 |> fun d => { d with mode := .m4 })
     let m : Master := 1
     let t : BitVec 8 := 0
     decide (s.dev.writes m.val F.TBL_REHASH_CTRL.off = true ∧ s.dev.mirrorOn = true ∧
             s.dev.rehashBar m.val t.toNat (s.dev.rd F.TBL_REHASH_BASE_BASE) (s.dev.rd F.TBL_REHASH_CAP_CAPACITY) = 0)) = true ∧
    (let s : State := st ((taeDev Tbl.reset).wr F.TBL_REHASH_BASE_BASE 1024 |>.wr F.TBL_REHASH_CAP_CAPACITY 1024)
     let m : Master := 6
     let t : BitVec 8 := 1
     decide (s.dev.writes m.val F.TBL_REHASH_CTRL.off = true ∧
             s.dev.rehashBar m.val t.toNat (s.dev.rd F.TBL_REHASH_BASE_BASE) (s.dev.rd F.TBL_REHASH_CAP_CAPACITY) ≠ 0)) = true ∧
    (let s : State := st ((taeDev { Tbl.reset with rehash := some ⟨0, 2, 0, 1024, 1024, 1024, 3, 4, 512, 0⟩, mem := [(memKey 2 511, 1), (memKey 2 1024, 2)] }).wr F.TBL_REHASH_STATUS_STATE 1)
     let r : Rehash := ⟨0, 2, 0, 1024, 1024, 1024, 3, 4, 512, 0⟩
     let c : Schema := schema0
     let p : Place := place0
     decide (s.dev.tbl.rehash = some r ∧ s.dev.tbl.copyTick ≠ some s.dev.tim.tick ∧ s.dev.rd F.TBL_REHASH_STATUS_STATE = 1 ∧
             s.dev.exactPlace s.dev.liveTag r.table = some (c, p) ∧
             (∀ k ∈ s.dev.tbl.mem.map (·.1) ++ s.dev.tbl.poison.map (·.1), k < memKey p.kind (p.base + r.pos) ∨ memKey p.kind (p.base + p.cap) ≤ k))) = true ∧
    (let s : State := st ((taeDev { Tbl.reset with rehash := some ⟨0, 2, 0, 1024, 1024, 1024, 3, 4, 512, 0⟩, mem := [(memKey 2 511, 1), (memKey 2 1020, exEntry 2 5 9 0 true false)] }).wr F.TBL_REHASH_STATUS_STATE 1)
     let r : Rehash := ⟨0, 2, 0, 1024, 1024, 1024, 3, 4, 512, 0⟩
     let c : Schema := schema0
     let p : Place := place0
     let i : Nat := 1020
     let j : Nat := (⟨2, 48, 1024, 1024, 3, 4⟩ : Place).bucket 5 0
     let n : Nat := 0
     let ws : List (Nat × BitVec 1024) := []
     decide (s.dev.tbl.rehash = some r ∧ s.dev.tbl.copyTick ≠ some s.dev.tim.tick ∧ s.dev.rd F.TBL_REHASH_STATUS_STATE = 1 ∧
             s.dev.exactPlace s.dev.liveTag r.table = some (c, p) ∧ r.kind = p.kind ∧ p.base + r.pos ≤ i ∧ i < p.base + p.cap ∧
             s.dev.poisoned p.kind i = false ∧ exValid p.kind (s.dev.entry p.kind i) = true ∧
             (∀ k ∈ s.dev.tbl.mem.map (·.1) ++ s.dev.tbl.poison.map (·.1), k < memKey p.kind (p.base + r.pos) ∨ k = memKey p.kind i ∨ memKey p.kind (p.base + p.cap) ≤ k) ∧
             s.dev.insertPlan (r.shadow p.keyBits) (p.keyOf (s.dev.entry p.kind i)) = .room j n ws)) = true ∧
    (let s : State := st ((taeDev { Tbl.reset with rehash := some ⟨0, 2, 0, 1024, 1024, 1024, 3, 4, 512, 0⟩ }).wr F.TBL_REHASH_STATUS_STATE 2)
     let m : Master := 6
     let t : BitVec 8 := 0
     let r : Rehash := ⟨0, 2, 0, 1024, 1024, 1024, 3, 4, 512, 0⟩
     let c : Schema := schema0
     let p : Place := place0
     decide (s.dev.writes m.val F.TBL_REHASH_CTRL.off = true ∧ s.dev.tbl.rehash = some r ∧ r.table = t.toNat ∧
             s.dev.rd F.TBL_REHASH_STATUS_STATE = 2 ∧ ((s.dev.mode = .m4 → m.val = 1)) ∧
             (((s.dev.mode = .m5 ∨ s.dev.mode = .m6) → m.val = 8)) ∧ s.dev.exactPlace s.dev.liveTag t.toNat = some (c, p) ∧
             s.dev.sharesOpen r s.dev.liveTag = true)) = true ∧
    (let s : State := st ((taeDev { Tbl.reset with rehash := some ⟨0, 2, 0, 1024, 1024, 1024, 3, 4, 512, 0⟩ }).wr F.TBL_REHASH_STATUS_STATE 2)
     let m : Master := 6
     decide (s.dev.writes m.val F.TBL_REHASH_CTRL.off = true ∧ s.dev.tbl.rehash.isSome = true ∧ s.dev.mode ≠ .m5 ∧
             s.dev.mode ≠ .m6 ∧ s.dev.mirrorOn = false)) = true := by
  decide +kernel

/-- States and operands that meet the hypotheses of TableUpkeepCompletes, parts 1, 2, 3, 4, 5, 6. -/
theorem witness_TableUpkeepCompletes :
    (let s : State := st (taeDev { Tbl.reset with learnQ := [⟨0, 2 ^ 48 + 5, 9, 3⟩] })
     let x : LearnSub := ⟨0, 2 ^ 48 + 5, 9, 3⟩
     let rest : List LearnSub := []
     let c : Schema := schema0
     let p : Place := place0
     let i : Nat := place0.bucket 5 0
     let n : Nat := 0
     let ws : List (Nat × BitVec 1024) := []
     decide (s.dev.serviceRuns F.CTL_SVC_MAP_LEARN = true ∧ s.dev.learnWaits = false ∧ s.dev.tbl.learnQ = x :: rest ∧
             s.dev.exactPlace s.dev.liveTag x.table = some (c, p) ∧ s.dev.mirrorOn = false ∧
             (learnAt s.dev rest).insertPlan p (x.key % 2 ^ p.keyBits) = .room i n ws)) = true ∧
    (let s : State := st (taeDev { Tbl.reset with mem := [(memKey 2 (place0.bucket 5 0), exEntry 2 5 9 0 true false)], learnQ := [⟨0, 5, 7, 3⟩] })
     let x : LearnSub := ⟨0, 5, 7, 3⟩
     let rest : List LearnSub := []
     let c : Schema := schema0
     let p : Place := place0
     let i : Nat := place0.bucket 5 0
     decide (s.dev.serviceRuns F.CTL_SVC_MAP_LEARN = true ∧ s.dev.learnWaits = false ∧ s.dev.tbl.learnQ = x :: rest ∧
             s.dev.exactPlace s.dev.liveTag x.table = some (c, p) ∧
             (learnAt s.dev rest).insertPlan p (x.key % 2 ^ p.keyBits) = .present i ∧
             (learnAt s.dev rest).poisoned p.kind i = false ∧ exStatic p.kind ((learnAt s.dev rest).entry p.kind i) = true)) = true ∧
    (let s : State := st (taeDev { Tbl.reset with mem := (List.range 8).map (fun i => (memKey 2 (place0.bucket 5 0 + i), exEntry 2 (6 + i) 9 0 false false)), learnQ := [⟨0, 5, 7, 3⟩] })
     let x : LearnSub := ⟨0, 5, 7, 3⟩
     let rest : List LearnSub := []
     let c : Schema := schema0
     let p : Place := place0
     decide (s.dev.serviceRuns F.CTL_SVC_MAP_LEARN = true ∧ s.dev.learnWaits = false ∧ s.dev.tbl.learnQ = x :: rest ∧
             s.dev.exactPlace s.dev.liveTag x.table = some (c, p) ∧
             (learnAt s.dev rest).insertPlan p (x.key % 2 ^ p.keyBits) = .noRoom ∧ x.table < 256)) = true ∧
    (let s : State := st { (taeDev { Tbl.reset with mem := [(memKey 2 1023, exEntry 2 5 9 0 false false)] }).wr F.TBL_AGE_CFG_EN 1 with tim := { Tim.reset with tick := 6 } }
     let t : Nat := 0
     let c : Schema := schema0
     let p : Place := place0
     decide (s.dev.serviceRuns F.CTL_SVC_MAP_LEARN = true ∧ s.dev.on F.TBL_AGE_CFG_EN = true ∧ s.dev.shed < 2 ∧
             s.dev.tbl.sweepTick ≠ some s.dev.tim.tick ∧ s.dev.ageingTables = [t] ∧ s.dev.tbl.sweepAt = (t, 0) ∧
             s.dev.exactPlace s.dev.liveTag t = some (c, p) ∧ p.cap ≤ 2048 ∧ s.dev.tbl.rehash = none ∧ s.dev.mode ≠ .m5 ∧
             s.dev.mode ≠ .m6)) = true ∧
    (let s : State := st (taeDev { Tbl.reset with snap := some ⟨63, 0, 2, 64, 5, [(0, 7)]⟩ })
     let x : Snapshot := ⟨63, 0, 2, 64, 5, [(0, 7)]⟩
     decide (s.dev.tbl.snap = some x)) = true ∧
    (let s : State := st { taeDev { Tbl.reset with mem := [(memKey 7 100, 1 <<< 127)], retire := [⟨7, 100, 1, 5⟩] } with tim := { Tim.reset with span := 5 } }
     let x : Retired := ⟨7, 100, 1, 5⟩
     decide (x ∈ s.dev.tbl.retire ∧ spanReached x.release s.dev.tim.span = true)) = true := by
  decide +kernel

/-- States and operands that meet the hypotheses of BufferCommandsComplete, parts 1, 2, 3, 4, 5, 6, 7, 8. -/
theorem witness_BufferCommandsComplete :
    (let s : State := st (boot .m3 [(F.BUF_QUOTA_LIMIT.item 21, 1)])
     let m : Master := 6
     let p : Fin 3 := 0
     let r : Nat := 21
     decide (s.dev.reads m.val (F.BUF_ALLOC.ix p.val).off = true ∧ masterReq m.val = some r ∧
             s.dev.buf.used p.val r + 1 ≤ s.dev.quota p.val r ∧ 1 ≤ s.dev.poolFree p.val ∧ ((p.val = 2 → s.dev.shed < 3)))) = true ∧
    (let s : State := st (boot .m3 [(F.BUF_QUOTA_LIMIT.item (256 + 22), 0)])
     let m : Master := 0
     let p : Fin 3 := 1
     let r : Nat := 22
     decide (s.dev.reads m.val (F.BUF_ALLOC.ix p.val).off = true ∧ masterReq m.val = some r ∧
             s.dev.quota p.val r ≤ s.dev.buf.used p.val r)) = true ∧
    (let s : State := st (boot .m3 [(F.BUF_QUOTA_LIMIT.item (512 + 21), 1)])
     let m : Master := 6
     let p : Fin 3 := 2
     let r : Nat := 21
     decide (s.dev.reads m.val (F.BUF_ALLOC.ix p.val).off = true ∧ masterReq m.val = some r ∧
             s.dev.buf.used p.val r + 1 ≤ s.dev.quota p.val r ∧ s.dev.poolFree p.val = 0 ∧ ((p.val = 2 → s.dev.shed < 3)))) = true ∧
    (let s : State := st { boot .m3 [] with buf := { Buf.reset with held := [(5, some ⟨21, 1⟩)], usage := [(21, 1)] } }
     let m : Master := 6
     let w : Word := 5
     let o : Nat := 21
     decide (s.dev.writes m.val F.BUF_FREE_HANDLE.off = true ∧ masterReq m.val = some o ∧ s.dev.freeCheck w.toNat o = 0)) = true ∧
    (let s : State := st { boot .m3 [] with buf := { Buf.reset with held := [(5, some ⟨22, 1⟩)], usage := [(22, 1)] } }
     let m : Master := 6
     let w : Word := 5
     let o : Nat := 21
     decide (s.dev.writes m.val F.BUF_FREE_HANDLE.off = true ∧ masterReq m.val = some o ∧ s.dev.freeCheck w.toNat o ≠ 0)) = true ∧
    (let s : State := st { boot .m3 [] with stages := [(6 * 0x20000000 + F.BUF_FREE_ADDR.off, some 0x3000)], buf := { Buf.reset with held := [(mkHandle 1 3, some ⟨21, 2⟩)], usage := [(32 + 21, 1)] } }
     let m : Master := 6
     let high : Word := 0x400
     let low : Word := 0x3000
     let p : Nat := 1
     let i : Nat := 3
     let o : Nat := 21
     decide (s.dev.writes m.val F.BUF_FREE_ADDR.off = true ∧ masterReq m.val = some o ∧
             s.dev.stages.get (fun _ => none) (m.val * 0x20000000 + F.BUF_FREE_ADDR.off) = some low ∧ p < 3 ∧ i < poolMax p ∧
             low.toNat + (high.toNat <<< 32) = handleAddr (mkHandle p i) ∧ s.dev.freeCheck (mkHandle p i) o = 0)) = true ∧
    (let s : State := st { boot .m3 [] with tim := { Tim.reset with tick := 64 }, buf := { Buf.reset with held := [(mkHandle 1 3, some ⟨23, 0⟩)], usage := [(32 + 23, 1)], openPages := [(32 + 23, some ⟨mkHandle 1 3, 16, 0⟩)] } }
     let r : Fin 24 := 23
     let p : Fin 3 := 1
     let o : OpenPage := ⟨mkHandle 1 3, 16, 0⟩
     decide (s.dev.buf.openPage p.val r.val = some o ∧ o.last + 64 ≤ s.dev.tim.tick)) = true ∧
    (let s : State := st { boot .m3 [(F.BUF_PF_CFG_EN, 1), (F.BUF_PF_CFG_DEPTH, 1), (F.BUF_PF_RESERVE_PAGES, 1)] with que := { Que.reset with spilled := [(9, true)], q := [(9, [{ desc0 with handles := [mkHandle 2 0] }])] }, buf := { Buf.reset with held := [(mkHandle 2 0, some ⟨0, 1⟩)] } }
     let e : Fin 3 := 0
     let q : Nat := 9
     let x : Desc := { desc0 with handles := [mkHandle 2 0] }
     decide (s.dev.on F.BUF_PF_CFG_EN = true ∧ s.dev.shed < 2 ∧ s.dev.prefetchQueue = some q ∧
             (s.dev.queue q).find? Desc.far = some x ∧ s.dev.farRead x e.val = 0 ∧ (x.sectors + 15) / 16 ≤ s.dev.reserveFree)) = true := by
  decide +kernel

/-- States and operands that meet the hypotheses of CxlCommandsComplete, parts 1, 2, 3, 4, 5, 6, 7, 8. -/
theorem witness_CxlCommandsComplete :
    (let s : State := st (boot .m3 [(F.BUF_CXL_STATUS_STATE.ix 3, 1)])
     let n : Fin 4 := 3
     let w : BitVec 5 := 8
     let r : BitVec 7 := 64
     decide (s.dev.cxlState n.val = 1 ∧ ((w = 16 ∨ w = 8)) ∧ r = 64 ∧ (s.dev.buf.port n.val).enableDue = none)) = true ∧
    (let s : State := st { boot .m3 [(F.BUF_CXL_STATUS_STATE.ix 3, 1)] with buf := { Buf.reset with cxl := [(3, ⟨0, 0, some 5, false, false, none⟩)] } }
     let n : Fin 4 := 3
     let w : BitVec 5 := 8
     let r : BitVec 7 := 64
     let limit : Nat := 5
     decide (s.dev.cxlState n.val = 1 ∧ ((w = 16 ∨ w = 8)) ∧ r = 64 ∧ (s.dev.buf.port n.val).enableDue = some limit)) = true ∧
    (let s : State := st (boot .m3 [(F.BUF_CXL_STATUS_STATE.ix 3, 1)])
     let n : Fin 4 := 3
     let w : BitVec 5 := 16
     let r : BitVec 7 := 32
     let ok : Bool := true
     decide (s.dev.cxlState n.val = 1 ∧ ((ok = false ∨ (w ≠ 16 ∧ w ≠ 8) ∨ r ≠ 64)))) = true ∧
    (let s : State := st { boot .m3 [(F.BUF_CXL_STATUS_STATE.ix 0, 1)] with tim := { Tim.reset with tick := 9 } }
     let n : Fin 4 := 0
     decide (s.dev.cxlState n.val = 1)) = true ∧
    (let s : State := st { boot .m3 [(F.PWR_DOM_STATUS.ix 4, 0xFFFFFFFF)] with tim := { Tim.reset with tick := 976563 } }
     let n : Fin 4 := 0
     decide (s.dev.cxlState n.val = 0 ∧ s.dev.farAvail = true ∧ s.dev.domainOn (131 + n.val) = true ∧
             (s.dev.buf.port n.val).disabled = false ∧ s.dev.cxlMayTry n.val = true)) = true ∧
    (let s : State := st { boot .m2 [(F.BUF_CXL_STATUS_STATE.ix 1, 2), (F.BUF_CXL_LIMIT_PAGES.ix 1, 4)] with buf := { Buf.reset with cxl := [(1, ⟨100, 0, none, false, false, none⟩)] } }
     let m : Master := 6
     let n : Fin 4 := 1
     decide (s.dev.writes m.val (F.BUF_CXL_CTRL.ix n.val).off = true ∧
             ((s.dev.mode = .m2 ∨ s.dev.mode = .m3 ∨ s.dev.mode = .m4 ∨ s.dev.mode = .m5)) ∧ s.dev.cxlState n.val = 2)) = true ∧
    (let s : State := st (boot .m5 [])
     let m : Master := 6
     let n : Fin 4 := 1
     decide (s.dev.writes m.val (F.BUF_CXL_CTRL.ix n.val).off = true ∧
             ((s.dev.mode = .m2 ∨ s.dev.mode = .m3 ∨ s.dev.mode = .m4 ∨ s.dev.mode = .m5)) ∧ s.dev.cxlState n.val = 0 ∧
             s.dev.farAvail = true)) = true ∧
    (let s : State := st (boot .m3 [(F.BUF_CXL_STATUS_STATE.ix 1, 3)])
     let m : Master := 6
     let n : Fin 4 := 1
     decide (s.dev.writes m.val (F.BUF_CXL_CTRL.ix n.val).off = true ∧ s.dev.cxlState n.val = 3)) = true := by
  decide +kernel

/-- States and operands that meet the hypotheses of CxlCommandsComplete, parts 9, 10, 11, 12, 13. -/
theorem witness_CxlCommandsComplete_2 :
    (let s : State := st (boot .m3 [(F.BUF_CXL_STATUS_STATE.ix 1, 4)])
     let n : Fin 4 := 1
     decide (s.dev.cxlState n.val = 4 ∧ s.dev.buf.heldOn n.val = 0)) = true ∧
    (let s : State := st (boot .m3 [(F.BUF_CXL_STATUS_STATE.ix 1, 2), (F.PWR_DOM_STATUS.ix 4, 0xFFFFFFFF)])
     let m : Master := 6
     let n : Fin 4 := 1
     decide (s.dev.writes m.val (F.BUF_CXL_CTRL.ix n.val).off = true ∧ s.dev.cxlState n.val = 2)) = true ∧
    (let s : State := st (boot .m3 [(F.BUF_CXL_STATUS_STATE.ix 1, 1)])
     let m : Master := 6
     let n : Fin 4 := 1
     decide (s.dev.writes m.val (F.BUF_CXL_CTRL.ix n.val).off = true ∧ s.dev.cxlState n.val = 1)) = true ∧
    (let s : State := st (boot .m3 [(F.BUF_CXL_STATUS_STATE.ix 1, 4)])
     let n : Fin 4 := 1
     decide (((s.dev.cxlState n.val = 3 ∨ s.dev.cxlState n.val = 4)))) = true ∧
    (let s : State := st { boot .m3 [(F.BUF_CXL_STATUS_STATE.ix 1, 5)] with buf := { Buf.reset with held := [(mkHandle 2 pagesPerPort, some ⟨0, 1⟩)] } }
     let n : Fin 4 := 1
     decide (s.dev.cxlState n.val = 5)) = true := by
  decide +kernel

/-- States and operands that meet the hypotheses of QueueTrafficCompletes, parts 1, 2, 3, 4, 5, 6, 7, 8. -/
theorem witness_QueueTrafficCompletes :
    (let s : State := st { boot .m3 [(F.BUF_QUOTA_LIMIT.item 3, 9)] with que := { Que.reset with arrivals := [⟨3, { bytes := [1, 2], md := (7 <<< 24) + (65535 <<< 32) }⟩] } }
     let a : Arrival := ⟨3, { bytes := [1, 2], md := (7 <<< 24) + (65535 <<< 32) }⟩
     let rest : List Arrival := []
     decide (s.dev.que.arrivals = a :: rest ∧ a.pkt.get Md.destType = 0 ∧ a.pkt.get Md.mirror = 0 ∧
             s.dev.queueDown (voqOf a.pkt) = false ∧ s.dev.rd (F.QUE_Q_CFG_MAX_KIB.item (voqOf a.pkt)) = 0 ∧
             s.dev.wredProfile a.pkt.tag (voqOf a.pkt) = 0 ∧
             ((arrivedAt s.dev rest).alloc a.input (sectorsOf a.pkt.len) (s.dev.tierMask a.pkt.tag (voqOf a.pkt)) (s.dev.spilled (voqOf a.pkt))).1.isSome = true)) = true ∧
    (let s : State := st { boot .m3 [(F.QUE_SP_DOWN.ix 0, 1)] with que := { Que.reset with arrivals := [⟨3, { bytes := [1, 2], md := 0 }⟩] } }
     let a : Arrival := ⟨3, { bytes := [1, 2], md := 0 }⟩
     let rest : List Arrival := []
     decide (s.dev.que.arrivals = a :: rest ∧ a.pkt.get Md.destType = 0 ∧ a.pkt.get Md.mirror = 0 ∧
             s.dev.queueDown (voqOf a.pkt) = true)) = true ∧
    (let s : State := st { boot .m3 [(F.BUF_QUOTA_LIMIT.item 3, 9)] with que := { Que.reset with arrivals := [⟨3, ((({ bytes := [1, 2], md := 0 } : Packet).setMd Md.destType 2).setMd Md.dest 63)⟩] } }
     let a : Arrival := ⟨3, ((({ bytes := [1, 2], md := 0 } : Packet).setMd Md.destType 2).setMd Md.dest 63)⟩
     let rest : List Arrival := []
     decide (s.dev.que.arrivals = a :: rest ∧ a.pkt.get Md.destType = 2 ∧ a.pkt.get Md.mirror = 0 ∧
             s.dev.rd (F.QUE_Q_CFG_MAX_KIB.item (puntQueueOf a.pkt)) = 0 ∧ s.dev.wredProfile a.pkt.tag (puntQueueOf a.pkt) = 0 ∧
             ((arrivedAt s.dev rest).alloc a.input (sectorsOf a.pkt.len) (s.dev.tierMask a.pkt.tag (puntQueueOf a.pkt)) (s.dev.spilled (puntQueueOf a.pkt))).1.isSome = true)) = true ∧
    (let s : State := st { boot .m3 [] with que := { Que.reset with arrivals := [⟨3, ((({ bytes := [1, 2], md := 0 } : Packet).setMd Md.destType 1).setMd Md.dest 5)⟩] } }
     let a : Arrival := ⟨3, ((({ bytes := [1, 2], md := 0 } : Packet).setMd Md.destType 1).setMd Md.dest 5)⟩
     let rest : List Arrival := []
     decide (s.dev.que.arrivals = a :: rest ∧ a.pkt.get Md.destType = 1 ∧ a.pkt.get Md.mirror = 0 ∧
             ((groupValid (s.dev.groupEntry (a.pkt.get Md.dest)) = false ∨ groupCount (s.dev.groupEntry (a.pkt.get Md.dest)) = 0)))) = true ∧
    (let s : State := st { boot .m3 [(F.BUF_QUOTA_LIMIT.item 3, 9), (F.DCK_MC_GROUP.item 16383, 0x80200005), (F.DCK_CL_ENTRY.item 5, 0x8000000000000003)] with que := { Que.reset with arrivals := [⟨3, (((({ bytes := [1, 2], md := 0 } : Packet).setMd Md.destType 1).setMd Md.dest 16383).setMd Md.mirror 9)⟩] } }
     let a : Arrival := ⟨3, (((({ bytes := [1, 2], md := 0 } : Packet).setMd Md.destType 1).setMd Md.dest 16383).setMd Md.mirror 9)⟩
     let rest : List Arrival := []
     let g := a.pkt.get Md.dest
     let e := s.dev.groupEntry g
     let c := copyPacket (s.dev.clEntry (groupBase e)) a.pkt
     decide (s.dev.que.arrivals = a :: rest ∧ a.pkt.get Md.destType = 1 ∧ groupValid e = true ∧ 2 ≤ groupCount e ∧
             s.dev.backlogFull = false ∧ clValid (s.dev.clEntry (groupBase e)) = true ∧ s.dev.queueDown (voqOf c) = false ∧
             s.dev.rd (F.QUE_Q_CFG_MAX_KIB.item (voqOf c)) = 0 ∧ s.dev.wredProfile c.tag (voqOf c) = 0 ∧
             ((arrivedAt s.dev rest).alloc a.input (sectorsOf c.len) (s.dev.tierMask c.tag (voqOf c)) (s.dev.spilled (voqOf c))).1.isSome = true)) = true ∧
    (let s : State := st { boot .m3 [(F.BUF_QUOTA_LIMIT.item 3, 9)] with que := { Que.reset with arrivals := [⟨3, ((({ bytes := [1, 2], md := 0 } : Packet).setMd Md.dest 65535).setMd Md.mirror 63)⟩] } }
     let a : Arrival := ⟨3, ((({ bytes := [1, 2], md := 0 } : Packet).setMd Md.dest 65535).setMd Md.mirror 63)⟩
     let rest : List Arrival := []
     decide (s.dev.que.arrivals = a :: rest ∧ a.pkt.get Md.destType = 0 ∧ a.pkt.get Md.mirror ≠ 0 ∧
             s.dev.queueDown (voqOf a.pkt) = false ∧ s.dev.rd (F.QUE_Q_CFG_MAX_KIB.item (voqOf a.pkt)) = 0 ∧
             s.dev.wredProfile a.pkt.tag (voqOf a.pkt) = 0 ∧
             ((arrivedAt s.dev rest).alloc a.input (sectorsOf a.pkt.len) (s.dev.tierMask a.pkt.tag (voqOf a.pkt)) (s.dev.spilled (voqOf a.pkt))).1.isSome = true ∧
             s.dev.backlogFull = false)) = true ∧
    (let s : State := st { boot .m3 [(F.BUF_QUOTA_LIMIT.item 3, 9)] with que := { Que.reset with arrivals := [⟨3, ((({ bytes := [1, 2], md := 0 } : Packet).setMd Md.dest 65535).setMd Md.mirror 63)⟩] }, dck := { Dck.reset with backlog := List.replicate 65536 ⟨4, desc0.pkt, 2, [], 2, true, none, 4, 2, 1, 9⟩ } }
     let a : Arrival := ⟨3, ((({ bytes := [1, 2], md := 0 } : Packet).setMd Md.dest 65535).setMd Md.mirror 63)⟩
     let rest : List Arrival := []
     decide (s.dev.que.arrivals = a :: rest ∧ a.pkt.get Md.destType = 0 ∧ a.pkt.get Md.mirror ≠ 0 ∧
             s.dev.queueDown (voqOf a.pkt) = false ∧ s.dev.rd (F.QUE_Q_CFG_MAX_KIB.item (voqOf a.pkt)) = 0 ∧
             s.dev.wredProfile a.pkt.tag (voqOf a.pkt) = 0 ∧
             ((arrivedAt s.dev rest).alloc a.input (sectorsOf a.pkt.len) (s.dev.tierMask a.pkt.tag (voqOf a.pkt)) (s.dev.spilled (voqOf a.pkt))).1.isSome = true ∧
             s.dev.backlogFull = true)) = true ∧
    (let s : State := st { boot .m3 [] with que := { Que.reset with arrivals := [⟨3, { bytes := [1, 2], md := 0 }⟩, ⟨4, { bytes := [3], md := 0 }⟩] } }
     decide (s.dev.que.arrivals ≠ [])) = true := by
  decide +kernel

/-- States and operands that meet the hypotheses of QueueTrafficCompletes, parts 9, 10, 11, 12, 13, 14, 15. -/
theorem witness_QueueTrafficCompletes_2 :
    (let s : State := st { withImage image0 (boot .m3 [(F.LPT_STATUS_LINK.port 0, 1), (F.QUE_PORT_CFG_COUNT.ix 0, 8)]) with que := { Que.reset with roots := [(0, some 0)], parent := [(0, 0x80000)], q := [(131072, [desc0])] } }
     let o : Fin 16 := 0
     let e : Fin 3 := 0
     let p : Nat := 0
     let n : Nat := 0
     let pkt : Packet := desc0.pkt
     decide (s.dev.forwarding = true ∧ s.dev.octetStopped o.val = false ∧ s.dev.cwStopped 1 = false ∧
             (notedAt s.dev o.val).readyPorts o.val = [p] ∧
             ((notedAt s.dev o.val).takeFree.2.selectAt p e.val ((notedAt s.dev o.val).queuedPackets + 1)).1 = .packet n pkt)) = true ∧
    (let s : State := st { boot .m3 [(F.HST_PQ_CFG_EN.ix 63, 1), (F.HST_PQ_HEAD_INDEX.ix 63, 65535)] with que := { Que.reset with q := [(524287, [desc0])] } }
     let e : Fin 3 := 0
     let n : Nat := 393215
     let pkt : Packet := { desc0.pkt with cls := 7 }
     decide (isPunt n = true ∧ s.dev.pathOff = false ∧
             ((s.dev.noteStates 128).selectAt 128 e.val ((s.dev.noteStates 128).queuedPackets + 1)).1 = .packet n pkt)) = true ∧
    (let s : State := st { boot .m3 [(F.HST_PQ_CFG_EN.ix 63, 1), (F.HST_PQ_HEAD_INDEX.ix 63, 65535)] with que := { Que.reset with q := [(524287, [desc0])] } }
     let e : Fin 3 := 0
     let n : Nat := 393215
     let pkt : Packet := { desc0.pkt with cls := 7 }
     decide (isPunt n = true ∧ s.dev.pathOff = false ∧
             ((s.dev.noteStates 128).selectAt 128 e.val ((s.dev.noteStates 128).queuedPackets + 1)).1 = .packet n pkt)) = true ∧
    (let s : State := st (boot .m3 [(F.QUE_Q_SEL_QUEUE, 524287)])
     let m : Master := 6
     decide (s.dev.writes m.val F.QUE_FLUSH_CMD.off = true ∧ s.dev.mode ≠ .m5 ∧ s.dev.mode ≠ .m6)) = true ∧
    (let s : State := st (withImage image0 (boot .m3 [(F.QUE_PORT_CFG_COUNT.ix 0, 8)]))
     let m : Master := 6
     decide (s.dev.writes m.val F.QUE_FLUSH_CMD.off = true ∧ s.dev.mode ≠ .m5 ∧ s.dev.mode ≠ .m6)) = true ∧
    (let s : State := st { boot .m3 [] with que := { Que.reset with flushes := [⟨1, 0, [(5, 3)], 0, 0, 0, 0⟩] } }
     let m : Master := 6
     decide (s.dev.writes m.val F.QUE_FLUSH_CMD.off = true ∧ s.dev.mode ≠ .m5 ∧ s.dev.mode ≠ .m6)) = true ∧
    (let s : State := st { boot .m3 [] with tim := { Tim.reset with tick := 3 }, que := { Que.reset with q := [(9, [desc0, desc0])], flushes := [⟨1, 0, [(9, 1)], 0, 0, 0, 2⟩] } }
     let r : FlushReq := ⟨1, 0, [(9, 1)], 0, 0, 0, 2⟩
     let q : Nat := 9
     decide (s.dev.que.flushTick ≠ s.dev.tim.tick ∧ s.dev.que.flushes = [r] ∧ r.todo = [(q, 1)] ∧ r.tick < s.dev.tim.tick ∧
             (∀ x ∈ s.dev.queue q, x.handles.any s.dev.onDownPort = false))) = true := by
  decide +kernel

/-- States and operands that meet the hypotheses of QueueConfigCompletes, parts 1, 2, 3, 4, 5, 6, 7, 8. -/
theorem witness_QueueConfigCompletes :
    (let s : State := st (withImage image0 (boot .m3 []))
     let m : Master := 6
     let p : Port := 0
     let data : Word := 0xC3000008
     decide (s.dev.writes m.val (F.QUE_PORT_CFG.ix p.val).off = true ∧ s.dev.mode ≠ .m5 ∧ s.dev.mode ≠ .m6 ∧
             s.dev.rangeBad 0 p.val (bits data 18 0) = false ∧ s.dev.rangeBad 1 p.val (bits data 18 0) = false ∧
             s.dev.rangeOverlap 0 p.val (bits data 18 0) = false ∧ s.dev.rangeOverlap 1 p.val (bits data 18 0) = false ∧
             s.dev.rangeAttached p.val (bits data 18 0) = false)) = true ∧
    (let s : State := st (withImage image0 (boot .m3 []))
     let m : Master := 6
     let p : Port := 15
     let data : Word := 0x0007FFFF
     decide (s.dev.writes m.val (F.QUE_PORT_CFG.ix p.val).off = true ∧ s.dev.mode ≠ .m5 ∧ s.dev.mode ≠ .m6 ∧
             s.dev.rangeBad 0 p.val (bits data 18 0) = true)) = true ∧
    (let s : State := st (boot .m3 [(F.QUE_NODE_SEL_NODE, 65534)])
     let m : Master := 6
     decide (s.dev.writes m.val F.QUE_NODE_PORT.off = true ∧ s.dev.mode ≠ .m5 ∧ s.dev.mode ≠ .m6 ∧
             s.dev.attached (nodeElem (s.dev.rd F.QUE_NODE_SEL_NODE)) = false ∧
             s.dev.children (s.dev.rd F.QUE_NODE_SEL_NODE) = [])) = true ∧
    (let s : State := st (withImage image0 (boot .m3 [(F.QUE_NODE_PORT_PORT.item 5, 0), (F.QUE_PORT_CFG_COUNT.ix 0, 8), (F.QUE_MOVE_DST_ELEM, 0x80005)]))
     let m : Master := 6
     let a := s.dev.rd F.QUE_MOVE_SRC_ELEM
     let b := s.dev.rd F.QUE_MOVE_DST_ELEM
     decide (s.dev.writes m.val F.QUE_MOVE_CMD.off = true ∧ s.dev.moveCause 1 m.val a b = 0)) = true ∧
    (let s : State := st { withImage image0 (boot .m3 [(F.QUE_PORT_CFG_COUNT.ix 0, 8), (F.QUE_MOVE_DST_ELEM, 1)]) with que := { Que.reset with parent := [(0, 0x80005)] } }
     let m : Master := 6
     let a := s.dev.rd F.QUE_MOVE_SRC_ELEM
     let b := s.dev.rd F.QUE_MOVE_DST_ELEM
     decide (s.dev.writes m.val F.QUE_MOVE_CMD.off = true ∧ s.dev.moveCause 2 m.val a b = 0)) = true ∧
    (let s : State := st { withImage image0 (boot .m3 [(F.QUE_PORT_CFG_COUNT.ix 0, 8)]) with que := { Que.reset with parent := [(0, 0x80005)] } }
     let m : Master := 6
     let a := s.dev.rd F.QUE_MOVE_SRC_ELEM
     let b := s.dev.rd F.QUE_MOVE_DST_ELEM
     decide (s.dev.writes m.val F.QUE_MOVE_CMD.off = true ∧ s.dev.moveCause 3 m.val a b = 0)) = true ∧
    (let s : State := st (boot .m3 [(F.QUE_MOVE_SRC_ELEM, 3), (F.QUE_MOVE_DST_ELEM, 1)])
     let m : Master := 6
     let a := s.dev.rd F.QUE_MOVE_SRC_ELEM
     let b := s.dev.rd F.QUE_MOVE_DST_ELEM
     decide (s.dev.writes m.val F.QUE_MOVE_CMD.off = true ∧ s.dev.moveCause 1 m.val a b ≠ 0)) = true ∧
    (let s : State := st (boot .m3 [(F.QUE_HIST_SEL_SLOT, 63), ((F.QUE_HIST_BIN.ix 15).item 63, 9)])
     let m : Master := 6
     decide (s.dev.writes m.val F.QUE_HIST_CFG.off = true ∧ s.dev.mode ≠ .m5 ∧ s.dev.mode ≠ .m6)) = true := by
  decide +kernel

/-- States and operands that meet the hypotheses of QueueConfigCompletes, parts 9, 10, 11, 12, 13. -/
theorem witness_QueueConfigCompletes_2 :
    (let s : State := st (boot .m3 [(F.QUE_HIST_SEL_SLOT, 63), ((F.QUE_HIST_BIN.ix 15).item 63, 9)])
     let m : Master := 6
     decide (s.dev.writes m.val F.QUE_HIST_CFG.off = true ∧ s.dev.mode ≠ .m5 ∧ s.dev.mode ≠ .m6)) = true ∧
    (let s : State := st (boot .m5 [])
     let m : Master := 6
     let p : Port := 127
     decide (s.dev.localBarred m.val = true ∧ s.dev.writes m.val (F.QUE_PORT_CFG.ix p.val).off = true)) = true ∧
    (let s : State := st (boot .m6 [])
     let m : Master := 6
     decide (s.dev.localBarred m.val = true ∧ s.dev.writes m.val F.QUE_NODE_PORT.off = true)) = true ∧
    (let s : State := st (boot .m5 [])
     let m : Master := 6
     decide (s.dev.localBarred m.val = true ∧ s.dev.writes m.val F.QUE_HIST_CFG.off = true)) = true ∧
    (let s : State := st (boot .m6 [])
     let m : Master := 6
     decide (s.dev.localBarred m.val = true ∧ s.dev.writes m.val F.QUE_FLUSH_CMD.off = true)) = true := by
  decide +kernel

/-- States and operands that meet the hypotheses of ShaperCommandsComplete, parts 1, 2, 3, 4, 5, 6. -/
theorem witness_ShaperCommandsComplete :
    (let s : State := st { boot .m3 [(F.SHP_ELEM_PROFILE_PROFILE.item 5, 1), (F.SHP_PROF_CFG_MODE.item 1, 1), (F.SHP_PROF_RATE1.item 1, 1), (F.SHP_PROF_BURST1.item 1, 1000)] with tim := { Tim.reset with tick := 1 } }
     let e : Nat := 5
     decide (Inv s ∧ s.dev.shp.refreshTick ≠ s.dev.tim.tick ∧ s.dev.actionDue = false ∧ s.dev.switchDue = false ∧
             e ∈ s.dev.boundElems ∧ s.dev.profMode (s.dev.elemProf e) = 1)) = true ∧
    (let s : State := st (boot .m3 [(F.SHP_ELEM_SEL_ELEM, 0x8FFFF)])
     let m : Master := 6
     decide (s.dev.writes m.val F.SHP_ELEM_PROFILE.off = true ∧ elemExists (s.dev.rd F.SHP_ELEM_SEL_ELEM) = true)) = true ∧
    (let s : State := st (boot .m3 [(F.SHP_ELEM_SEL_ELEM, 393216)])
     let m : Master := 6
     decide (s.dev.writes m.val F.SHP_ELEM_PROFILE.off = true ∧ elemExists (s.dev.rd F.SHP_ELEM_SEL_ELEM) = false)) = true ∧
    (let s : State := st (boot .m3 [])
     let m : Master := 6
     let data : Word := 0xFFFFFFFF
     decide (s.dev.writes m.val F.SHP_SET_SWITCH.off = true ∧ data.toNat % 256 ≠ 0)) = true ∧
    (let s : State := st (boot .m3 [])
     let m : Master := 6
     let data : Word := 0x100
     decide (s.dev.writes m.val F.SHP_SET_SWITCH.off = true ∧ data.toNat % 256 = 0)) = true ∧
    (let s : State := st { boot .m3 [(F.SHP_PROF_CFG_SET.item 2, 255)] with tim := { Tim.reset with tick := 8 }, shp := { Shp.reset with pending := [(255, 6, 7)] } }
     let n : Nat := 255
     let m : Nat := 6
     let t : Nat := 7
     let rest : List (Nat × Nat × Nat) := []
     decide (Inv s ∧ s.dev.shp.pending = (n, m, t) :: rest ∧ t < s.dev.tim.tick ∧ s.dev.actionDue = false)) = true := by
  decide +kernel

/-- States and operands that meet the hypotheses of DeckCommandsComplete, parts 1, 2, 3, 4, 5, 6, 7, 8. -/
theorem witness_DeckCommandsComplete :
    (let s : State := st { boot .m3 [] with dck := { Dck.reset with matching := [(3, 15)], inProg := [(63, some ⟨desc0.pkt, none, 385, 3, 9⟩)] } }
     let i : Nat := 3
     let o : Nat := 15
     let x : DeckPkt := ⟨desc0.pkt, none, 385, 3, 9⟩
     decide (s.dev.dck.matching = [(i, o)] ∧ o < 16 ∧ s.dev.inProg i o = some x ∧ 384 < x.left)) = true ∧
    (let s : State := st { boot .m3 [] with dck := { Dck.reset with backlog := [⟨4, desc0.pkt, 2, [], 2, true, some 16383, 1048575, 3, 1, 0⟩] } }
     let j : ReplJob := ⟨4, desc0.pkt, 2, [], 2, true, some 16383, 1048575, 3, 1, 0⟩
     let rest : List ReplJob := []
     let g : Nat := 16383
     decide (s.dev.dck.backlog = j :: rest ∧ j.group = some g ∧ j.nextCopy < j.count ∧ (s.dev.sourceFate j).1 = 0 ∧
             clValid (s.dev.clEntry ((j.base + j.nextCopy) % 1048576)) = false ∧ ((j.nextCopy + 1 < j.count ∨ j.mirror ≠ 0)))) = true ∧
    (let s : State := st { (boot .m3 [(F.BUF_QUOTA_LIMIT.item 20, 8)]).setReg (F.DCK_CL_ENTRY.item 5).off 0x8000000000000003 with dck := { Dck.reset with backlog := [⟨4, desc0.pkt, 2, [], 2, true, some 7, 4, 2, 1, 9⟩] } }
     let j : ReplJob := ⟨4, desc0.pkt, 2, [], 2, true, some 7, 4, 2, 1, 9⟩
     let rest : List ReplJob := []
     let g : Nat := 7
     let c := copyPacket (s.dev.clEntry ((j.base + j.nextCopy) % 1048576)) j.pkt
     decide (s.dev.dck.backlog = j :: rest ∧ j.group = some g ∧ j.nextCopy < j.count ∧ (s.dev.sourceFate j).1 = 0 ∧
             clValid (s.dev.clEntry ((j.base + j.nextCopy) % 1048576)) = true ∧
             ((s.dev.sourceFate j).2.admitTo (voqOf c) 20 j.input c).1 = none ∧ ((j.nextCopy + 1 < j.count ∨ j.mirror ≠ 0)))) = true ∧
    (let s : State := st (boot .m3 [(F.DCK_MC_SEL_GROUP, 16383)])
     let m : Master := 6
     let data : Word := 0xC00FFC00
     decide (s.dev.writes m.val F.DCK_MC_GROUP.off = true ∧ s.dev.dckWritable m.val = true ∧ s.dev.mirrorOn = false ∧
             bits data 30 20 ≤ 1024 ∧ bits data 19 0 + bits data 30 20 ≤ 1048576)) = true ∧
    (let s : State := st (boot .m3 [])
     let m : Master := 6
     let data : Word := 0x80100000 + 1048575 + 0x100000
     decide (s.dev.writes m.val F.DCK_MC_GROUP.off = true ∧
             ((1024 < bits data 30 20 ∨ 1048576 < bits data 19 0 + bits data 30 20)))) = true ∧
    (let s : State := st { boot .m3 [(F.DCK_CL_SEL_INDEX, 1048575)] with stages := [(6 * 0x20000000 + F.DCK_CL_ENTRY.off, some 0xFFFFFFFF)] }
     let m : Master := 6
     let low : Word := 0xFFFFFFFF
     decide (s.dev.writes m.val (F.DCK_CL_ENTRY.off + 4) = true ∧ s.dev.dckWritable m.val = true ∧ s.dev.mirrorOn = false ∧
             s.dev.stages.get (fun _ => none) (m.val * 0x20000000 + F.DCK_CL_ENTRY.off) = some low)) = true ∧
    (let s : State := st { boot .m5 [] with stages := [(6 * 0x20000000 + F.DCK_CL_ENTRY.off, some 7)] }
     let m : Master := 6
     decide (s.dev.writes m.val (F.DCK_CL_ENTRY.off + 4) = true ∧ s.dev.dckWritable m.val = false)) = true ∧
    (let s : State := st (boot .m3 [(F.DCK_MC_SEL_GROUP, 3), (F.DCK_MC_COPIES.item 3, 8), (groupDrop 4 3, 9)])
     let m : Master := 6
     decide (s.dev.writes m.val F.DCK_MC_SEL.off = true ∧ s.dev.localBarred m.val = false)) = true := by
  decide +kernel

/-- States and operands that meet the hypotheses of DeckCommandsComplete, part 9. -/
theorem witness_DeckCommandsComplete_2 :
    (let s : State := st (boot .m5 [(F.DCK_MC_SEL_GROUP, 3), (F.DCK_MC_COPIES.item 3, 8)])
     let m : Master := 6
     decide (s.dev.writes m.val F.DCK_MC_SEL.off = true ∧ s.dev.localBarred m.val = true)) = true := by
  decide +kernel

/-- States and operands that meet the hypotheses of FabricLinkCommandsComplete, parts 1, 3, 4, 5, 6, 7, 8. -/
theorem witness_FabricLinkCommandsComplete :
    (let s : State := st (boot .m3 [(F.PWR_DOM_STATUS.ix 3, 0xFFFFFFFF), (F.PWR_DOM_STATUS.ix 4, 0xFFFFFFFF)])
     let l : Fin 160 := 159
     decide (s.dev.lanePowered l.val = true)) = true ∧
    (let s : State := st { boot .m3 [(F.FAB_CTRL_EN, 1), (F.FAB_STATUS_STATE, 2), (F.FAB_STATUS_NODE_ID, 5), (F.PWR_DOM_STATUS.ix 3, 0xFFFFFFFF)] with fab := { Fab.reset with locked := BitVec.allOnes 160, ctlRun := [(4, 4), (5, 4), (6, 4), (7, 9)], idRun := [(4, 4), (5, 4), (6, 4), (7, 4)], laneNode := [(4, 1029), (5, 1029), (6, 1029), (7, 1029)] } }
     let i : Fin 40 := 1
     decide (s.dev.on F.FAB_CTRL_EN = true ∧ s.dev.fabUp = true ∧ s.dev.fabLinkUp i.val = false ∧
             s.dev.lanePowered (4 * i.val) = true ∧ s.dev.linkReady i.val = true ∧
             s.dev.linkNode i.val = s.dev.rd F.FAB_STATUS_NODE_ID)) = true ∧
    (let s : State := st { boot .m2 [(F.FAB_CTRL_EN, 1), (F.FAB_STATUS_STATE, 1), (F.PWR_DOM_STATUS.ix 3, 0xFFFFFFFF)] with fab := { Fab.reset with locked := BitVec.allOnes 160, ctlRun := [(4, 4), (5, 4), (6, 4), (7, 9)], laneNode := [(4, 1029), (5, 1029), (6, 1029), (7, 1029)] } }
     let i : Fin 40 := 1
     decide (s.dev.on F.FAB_CTRL_EN = true ∧ s.dev.rd F.FAB_STATUS_STATE = 1 ∧ s.dev.fabLinkUp i.val = false ∧
             s.dev.lanePowered (4 * i.val) = true ∧ s.dev.linkReady i.val = true ∧
             (((List.range 40).all fun j => decide (s.dev.linkReady j = true → s.dev.linkNode j = s.dev.linkNode i.val)) = true) ∧
             s.dev.on F.GLB_STRAP_SELF_TIMED = false)) = true ∧
    (let s : State := st (boot .m3 [(F.FAB_CTRL_EN, 1), (F.FAB_STATUS_STATE, 2), (F.FAB_LINKS_UP_UP, 2)])
     let i : Fin 40 := 1
     let c : BitVec 4 := 1
     decide (s.dev.fabLinkUp i.val = true ∧ s.dev.downHolds i.val c.toNat = true)) = true ∧
    (let s : State := st (boot .m2 [])
     let m : Master := 6
     let b : Bool := true
     decide (s.dev.writes m.val F.FAB_CTRL.off = true ∧ s.dev.on F.FAB_CTRL_EN = !b)) = true ∧
    (let s : State := st (boot .m2 [(F.FAB_CTRL_EN, 1), (F.FAB_STATUS_STATE, 2), (F.FAB_LINKS_UP_UP, 2)])
     let m : Master := 6
     decide (s.dev.writes m.val F.FAB_CTRL.off = true ∧ s.dev.on F.FAB_CTRL_EN = true)) = true ∧
    (let s : State := st (boot .m5 [(F.TWN_CTRL_EN, 1)])
     let m : Master := 6
     decide (s.dev.writes m.val F.FAB_PAIR_CTRL.off = true ∧ s.dev.mode = .m5 ∧ s.dev.on F.FAB_PAIR_CTRL_TAKEOVER = false)) = true := by
  decide +kernel

/-- States and operands that meet the hypotheses of CellCommandsComplete, parts 1, 2, 3, 4, 5, 7, 8, 9. -/
theorem witness_CellCommandsComplete :
    (let s : State := st { boot .m3 [(F.FAB_CTRL_EN, 1)] with fab := { Fab.reset with locked := 3 } }
     decide (s.dev.on F.FAB_CTRL_EN = true)) = true ∧
    (let s : State := st { boot .m3 [(F.FAB_CTRL_EN, 1)] with fab := { Fab.reset with locked := 3 } }
     let l : Fin 160 := 1
     let c : BitVec 2048 := mkControl false 3 (leBytes 6 77 ++ [5, 0x84])
     decide (s.dev.on F.FAB_CTRL_EN = true ∧ bitOn s.dev.fab.locked l.val = true ∧ controlValid c = true)) = true ∧
    (let s : State := st { boot .m3 [(F.FAB_CTRL_EN, 1)] with fab := { Fab.reset with locked := 3 } }
     let l : Fin 160 := 1
     let c : BitVec 2048 := mkControl true 3 []
     decide (s.dev.on F.FAB_CTRL_EN = true ∧ bitOn s.dev.fab.locked l.val = true ∧ controlValid c = false)) = true ∧
    (let s : State := st { boot .m3 [(F.FAB_CTRL_EN, 1), (F.FAB_FEC_UNCORR, 2 ^ 64 - 1)] with fab := { Fab.reset with locked := 3 } }
     let l : Fin 160 := 1
     let f : CellFate := CellFate.destroyedLater
     decide (s.dev.on F.FAB_CTRL_EN = true ∧ bitOn s.dev.fab.locked l.val = true ∧ f ≠ CellFate.received)) = true ∧
    (let s : State := st { boot .m3 [(F.FAB_CTRL_EN, 1)] with fab := { Fab.reset with locked := 3 } }
     let l : Fin 160 := 1
     let n : Fin 100 := 99
     let f : CellFate := CellFate.destroyedLater
     decide (s.dev.on F.FAB_CTRL_EN = true ∧ bitOn s.dev.fab.locked l.val = true ∧ f ≠ CellFate.received ∧ n.val ≠ 0)) = true ∧
    (let s : State := st { boot .m3 [(F.FAB_CTRL_EN, 1)] with fab := { Fab.reset with locked := 4, staged := [⟨0, 2, 99, mkCell false 1 0 0 1 2 0 240 0 false [], false⟩] } }
     let n : Fin 100 := 99
     decide (n.val ≠ 0 ∧ s.dev.on F.FAB_CTRL_EN = true)) = true ∧
    (let s : State := st { boot .m3 [(F.FAB_CTRL_EN, 1), (F.FAB_STATUS_NODE_ID, 2), (F.FAB_STATUS_NODE_VALID, 1)] with fab := { Fab.reset with locked := 4, rx := [(12, { RxContext.reset with expected := 65535, part := [9] })] } }
     let l : Fin 160 := 2
     let n : Fin 100 := 99
     let c : BitVec 2048 := mkCell false 1 0 4 1 2 65535 240 0 false (leBytes 4 1)
     let k := 8 * cellSrc c + cellTc c
     decide (s.dev.on F.FAB_CTRL_EN = true ∧ bitOn s.dev.fab.locked l.val = true ∧ n.val ≠ 0 ∧ hcrcGood c = true ∧
             cellType c = 1 ∧ s.dev.silent = false ∧ s.dev.isOwnNode (cellDst c) = true ∧ cellRestart c = false ∧
             cellSeq c = (s.dev.rxContext k).expected ∧ (s.dev.rxContext k).held = [] ∧ s.dev.reasmBytes + cellUsed c ≤ 67108864)) = true ∧
    (let s : State := st { boot .m3 [(F.FAB_CTRL_EN, 1)] with fab := { Fab.reset with locked := 4 } }
     let l : Fin 160 := 2
     let n : Fin 100 := 1
     let c : BitVec 2048 := 1
     decide (s.dev.on F.FAB_CTRL_EN = true ∧ bitOn s.dev.fab.locked l.val = true ∧ n.val ≠ 0 ∧ hcrcGood c = false)) = true := by
  decide +kernel

/-- States and operands that meet the hypotheses of CellCommandsComplete, parts 10, 11. -/
theorem witness_CellCommandsComplete_2 :
    (let s : State := st { boot .m3 [] with tim := { Tim.reset with tick := 9 }, fab := { Fab.reset with rx := [(8191, { RxContext.reset with held := [(1, 0, none)] })] } }
     let n : BitVec 10 := 1023
     let c : Fin 8 := 7
     let t : Nat := 0
     decide (((s.dev.rxContext (8 * n.toNat + c.val)).held.map fun h => h.2.1).min? = some t ∧ t + 9 ≤ s.dev.tim.tick)) = true ∧
    (let s : State := st { boot .m3 [] with tim := { Tim.reset with tick := 1024 }, fab := { Fab.reset with rx := [(8191, { RxContext.reset with part := [1] })] } }
     let n : BitVec 10 := 1023
     let c : Fin 8 := 7
     decide ((s.dev.rxContext (8 * n.toNat + c.val)).part ≠ [] ∧
             (s.dev.rxContext (8 * n.toNat + c.val)).lastAt + 1024 ≤ s.dev.tim.tick)) = true := by
  decide +kernel

/-- States and operands that meet the hypotheses of TwinCommandsComplete, parts 1, 2, 3, 4, 5, 6, 7, 8. -/
theorem witness_TwinCommandsComplete :
    (let s : State := st { boot .m2 [(F.FAB_CTRL_EN, 1)] with sec := { Sec.reset with fuses := { Fuses.reset with twinAvail := true } } }
     let m : Master := 6
     decide (s.dev.writes m.val F.TWN_CTRL.off = true ∧ s.dev.mode = .m2 ∧ s.dev.rd F.TIM_CTRL_SRC = 0 ∧
             s.dev.on F.FAB_CTRL_EN = true ∧ s.dev.sec.fuses.twinAvail = true)) = true ∧
    (let s : State := st (boot .m3 [])
     let m : Master := 6
     decide (s.dev.writes m.val F.TWN_CTRL.off = true ∧ s.dev.mode ≠ .m2)) = true ∧
    (let s : State := st (boot .m4 [(F.TWN_CTRL_EN, 1), (F.TWN_STATUS_HB_OK, 1), (F.TWN_PEER_STATE, 5)])
     let m : Master := 6
     decide (s.dev.writes m.val F.TWN_CMD.off = true ∧ s.dev.twinOn = true ∧ s.dev.mode = .m4 ∧ s.dev.peerStands = true)) = true ∧
    (let s : State := st (boot .m4 [(F.TWN_CTRL_EN, 1), (F.TWN_STATUS_HB_OK, 1), (F.TWN_PEER_STATE, 6)])
     let m : Master := 6
     decide (s.dev.writes m.val F.TWN_CMD.off = true ∧ s.dev.twinOn = true ∧ s.dev.mode = .m4 ∧ s.dev.peerStands = false)) = true ∧
    (let s : State := st (boot .m5 [(F.TWN_CTRL_EN, 1)])
     let m : Master := 6
     decide (s.dev.writes m.val F.TWN_CMD.off = true ∧ s.dev.twinOn = true ∧ s.dev.standing = true)) = true ∧
    (let s : State := st (boot .m5 [(F.TWN_CTRL_EN, 1), (F.FAB_PAIR_CTRL_TAKEOVER, 1)])
     let m : Master := 6
     decide (s.dev.writes m.val F.TWN_CMD.off = true ∧ s.dev.twinOn = true ∧ s.dev.standing = false)) = true ∧
    (let s : State := st { boot .m6 [(F.TWN_CTRL_EN, 1), (F.TWN_STATUS_SUB, 1), (F.FAB_CTRL_EN, 1), (F.FAB_STATUS_STATE, 2)] with twn := { Twn.reset with segments := [⟨0, 1, 0, 0, 64, 0, [], true, 0, false, []⟩, ⟨1, 2, 0, 0, 64, 0, [], true, 0, false, []⟩] } }
     let m : Master := 6
     decide (s.dev.writes m.val F.TWN_CMD.off = true ∧ s.dev.twinOn = true ∧ s.dev.mode = .m6 ∧ s.dev.twnSub = 1 ∧
             ((s.dev.on F.TWN_STATUS_HB_OK = false ∨ s.dev.peerState ≠ 4)) ∧ s.dev.fabUp = true ∧ s.dev.segsVerified 1 = true ∧
             s.dev.segsVerified 2 = true)) = true ∧
    (let s : State := st (boot .m9 [(F.TWN_CTRL_EN, 1)])
     let m : Master := 6
     decide (s.dev.writes m.val F.TWN_CMD.off = true ∧ s.dev.twinOn = true ∧ s.dev.mode = .m9)) = true := by
  decide +kernel

/-- States and operands that meet the hypotheses of TwinCommandsComplete, parts 9, 10. -/
theorem witness_TwinCommandsComplete_2 :
    (let s : State := st (boot .m9 [(F.TWN_CTRL_EN, 1), (F.FAB_STATUS_STATE, 2), (F.FAB_PAIR_STATUS_OWNER_VALID, 1), (F.FAB_PAIR_STATUS_IS_OWNER, 1)])
     let m : Master := 6
     decide (s.dev.writes m.val F.TWN_CMD.off = true ∧ s.dev.twinOn = true ∧ s.dev.mode = .m9 ∧ s.dev.fabUp = true ∧
             s.dev.isOwner = true)) = true ∧
    (let s : State := st (boot .m6 [(F.TWN_CTRL_EN, 1)])
     let m : Master := 6
     decide (s.dev.writes m.val F.TWN_CMD.off = true ∧ s.dev.twinOn = true ∧ s.dev.mode ≠ .m9)) = true := by
  decide +kernel

/-- States and operands that meet the hypotheses of TwinLinkCommandsComplete, parts 1, 2, 3, 4, 5, 6, 7, 8. -/
theorem witness_TwinLinkCommandsComplete :
    (let s : State := st (boot .m4 [(F.TWN_CTRL_EN, 1), (F.PWR_DOM_STATUS.ix 4, 0xFFFFFFFF)])
     decide (s.dev.twinOn = true ∧ s.dev.domainOn 145 = true ∧ s.dev.mode ≠ .m11)) = true ∧
    (let n : Fin 8 := 7
     let l : List (BitVec 16) := (List.range 25).map fun n => ralinMarker (n + 1)
     decide (l ≠ (List.range 25).map ralinMarker)) = true ∧
    (let i : Fin 25 := 23
     let l : List (BitVec 16) := [0, 0, 1, 2]
     decide (l.length = 4 ∧ (l.zipIdx i.val).all (fun x => x.1 != ralinMarker (x.2 % 25)) = true)) = true ∧
    (let i : Fin 25 := 23
     let l : List (BitVec 16) := [0, 0, 0, 2]
     decide (l.length = 4 ∧ (l.zipIdx i.val).all (fun x => x.1 != ralinMarker (x.2 % 25)) = false)) = true ∧
    (let s : State := st (boot .m4 [(F.TWN_CTRL_EN, 1), (F.TWN_STATUS_LANES, 0x81)])
     decide (s.dev.twinOn = true)) = true ∧
    (let s : State := st (boot .m4 [(F.TWN_CTRL_EN, 1), (F.TWN_STATUS_LANES, 1)])
     let f : BitVec 4096 := ralinFrame 1 0 12 0 (2 ^ 48 - 1) 0 (leBytes 4 9 ++ [5, 0x83, 0, 0])
     decide (s.dev.hears f 1 ∧ spanAhead s.dev.tim.span (frameSpan f) ≤ 1)) = true ∧
    (let s : State := st { boot .m5 [(F.TWN_CTRL_EN, 1), (F.TWN_STATUS_HB_OK, 1), (F.FAB_STATUS_STATE, 2)] with tim := { Tim.reset with tick := 9 } }
     decide (s.dev.twinOn = true ∧ s.dev.twn.hbAt + 9 ≤ s.dev.tim.tick ∧ s.dev.on F.TWN_STATUS_HB_OK = true)) = true ∧
    (let s : State := st { boot .m5 [(F.FAB_PAIR_CTRL_TAKEOVER, 1)] with tim := { Tim.reset with tick := 64 }, twn := { Twn.reset with claimAt := some (0, 5) } }
     let t : Nat := 0
     let n : Nat := 5
     decide (s.dev.claiming = true ∧ s.dev.twn.claimAt = some (t, n) ∧ t + 64 ≤ s.dev.tim.tick)) = true := by
  decide +kernel

/-- States and operands that meet the hypotheses of TwinLinkCommandsComplete, part 9. -/
theorem witness_TwinLinkCommandsComplete_2 :
    (let s : State := st { boot .m4 [(F.TWN_CTRL_EN, 1)] with tim := { Tim.reset with tick := 4 }, twn := { Twn.reset with notUpAt := some 0 } }
     let t : Nat := 0
     decide (s.dev.twn.notUpAt = some t ∧ ((s.dev.mode = .m4 ∨ s.dev.mode = .m5)) ∧ s.dev.twinOn = true ∧ s.dev.fabUp = false ∧
             t + 4 ≤ s.dev.tim.tick)) = true := by
  decide +kernel

/-- States and operands that meet the hypotheses of MirrorCommandsComplete, parts 1, 2, 3, 4, 5, 6, 7, 8. -/
theorem witness_MirrorCommandsComplete :
    (let s : State := st (boot .m5 [(F.TWN_CTRL_EN, 1), (F.TWN_STATUS_LANES, 1)])
     let f : BitVec 4096 := ralinFrame 2 0 48 1 0 0 (mirrorBytes 2 6 9 (leBytes 8 0x8000000) ++ mirrorBytes 1 6 2 (leBytes 8 0))
     decide (s.dev.hearsNext f 2 ∧ s.dev.following = true)) = true ∧
    (let s : State := st { boot .m4 [(F.TWN_CTRL_EN, 1), (F.TWN_STATUS_LANES, 2)] with tim := { Tim.reset with tick := 4 }, twn := { Twn.reset with txKept := [(1, 0, ⟨1, 2, 1, []⟩), (2, 3, ⟨1, 2, 2, []⟩)] } }
     let k : Nat × Nat × RalinMsg := (1, 0, ⟨1, 2, 1, []⟩)
     let rest : List (Nat × Nat × RalinMsg) := [(2, 3, ⟨1, 2, 2, []⟩)]
     decide (s.dev.twn.txKept = k :: rest ∧ k.2.1 + 4 ≤ s.dev.tim.tick ∧ s.dev.ralinUp = true ∧ s.dev.msgWaits k.1 = false)) = true ∧
    (let s : State := st { boot .m5 [(F.TWN_CTRL_EN, 1)] with twn := { Twn.reset with mirrorDue := some (1, 7, 9) } }
     let c : Fin 8 := 1
     decide ((s.dev.failureDue c.val).isSome = true)) = true ∧
    (let s : State := st { boot .m4 [(F.TWN_CTRL_EN, 1), (F.TWN_STATUS_LANES, 1)] with twn := { Twn.reset with acted := some (127, 3, 0) } }
     let f : BitVec 4096 := ralinFrame 4 0 12 1 0 0 [5]
     let p : Nat := 127
     let w : Nat := 3
     let t : Nat := 0
     decide (s.dev.hearsNext f 4 ∧ s.dev.mode = .m4 ∧ s.dev.twn.acted = some (p, w, t) ∧ byteField f 17 1 = 0)) = true ∧
    (let s : State := st (boot .m5 [(F.TWN_CTRL_EN, 1), (F.TWN_STATUS_LANES, 1)])
     let f : BitVec 4096 := ralinFrame 4 0 12 1 0 0 [5, 4]
     decide (s.dev.hearsNext f 4 ∧ s.dev.standing = true ∧ 1 ≤ byteField f 17 1 ∧ byteField f 17 1 ≤ 4)) = true ∧
    (let s : State := st { boot .m4 [(F.TWN_CTRL_EN, 1), (F.TWN_EVIDENCE_BITS, 1)] with tim := { Tim.reset with tick := 64 }, twn := { Twn.reset with acted := some (127, 3, 0) } }
     let p : Nat := 127
     let w : Nat := 3
     let t : Nat := 0
     decide (s.dev.twn.acted = some (p, w, t) ∧ s.dev.mode = .m4 ∧ t + 64 ≤ s.dev.tim.tick)) = true ∧
    (let s : State := st { boot .m5 [(F.TWN_CTRL_EN, 1)] with tim := { Tim.reset with tick := 128 }, twn := { Twn.reset with wordAt := some 0 } }
     let t : Nat := 0
     decide (s.dev.twn.wordAt = some t ∧ s.dev.standing = true ∧ t + 128 ≤ s.dev.tim.tick)) = true ∧
    (let s : State := st { boot .m5 [(F.TWN_EVIDENCE_BITS, 6)] with tim := { Tim.reset with tick := 65536 } }
     let b : Fin 32 := 2
     decide ((s.dev.evidenceWord >>> b.val) % 2 = 1 ∧ s.dev.twn.evidenceAt.get (fun _ => 0) b.val + 65536 ≤ s.dev.tim.tick)) = true := by
  decide +kernel

/-- States and operands that meet the hypotheses of MirrorCommandsComplete, parts 9, 10, 11. -/
theorem witness_MirrorCommandsComplete_2 :
    (let s : State := st { boot .m5 [(F.TWN_CTRL_EN, 1)] with twn := { Twn.reset with records := [⟨2, 6, 0, leBytes 4 0xD000010 ++ leBytes 4 5, 3⟩] } }
     let r : MirrorRec := ⟨2, 6, 0, leBytes 4 0xD000010 ++ leBytes 4 5, 3⟩
     let rest : List MirrorRec := []
     decide (s.dev.takeDue s.dev.twn.records = some (r, rest) ∧ r.kind = 2 ∧ r.seq ≠ ownSeq)) = true ∧
    (let s : State := st { boot .m5 [(F.TWN_CTRL_EN, 1)] with tim := { Tim.reset with entries := [(7, { TaEntry.reset with state := .armed, span := 2 })] }, twn := { Twn.reset with records := [⟨4, 6, 0, leBytes 4 7, 3⟩] } }
     let r : MirrorRec := ⟨4, 6, 0, leBytes 4 7, 3⟩
     let rest : List MirrorRec := []
     let i := leNat (bytesAt r.body 0 1)
     decide (s.dev.takeDue s.dev.twn.records = some (r, rest) ∧ r.kind = 4 ∧ (s.dev.entryAt i).state = .armed ∧
             spanAtLeast (s.dev.entryAt i).span s.dev.tim.span 2 = true)) = true ∧
    (let s : State := st (boot .m5 [(F.TWN_CTRL_EN, 1)])
     decide (s.dev.takeDue s.dev.twn.records = none)) = true := by
  decide +kernel

/-- States and operands that meet the hypotheses of DigestCommandsComplete, parts 1, 2, 3, 4, 5, 7, 8. -/
theorem witness_DigestCommandsComplete :
    (let s : State := st { boot .m5 [(F.TWN_CTRL_EN, 1)] with twn := { Twn.reset with ports := [(127, { TwnPort.reset with aligned := true, cur := List.replicate 4096 5, drops := 2, window := 2 ^ 32 - 1 })] } }
     let p : Port := 127
     decide (s.dev.twinOn = true ∧ ((s.dev.mode = .m4 ∨ s.dev.mode = .m5)) ∧ (s.dev.tp p.val).aligned = true ∧
             4096 ≤ (s.dev.tp p.val).cur.length)) = true ∧
    (let s : State := st { boot .m5 [(F.TWN_CTRL_EN, 1), (F.TWN_CFG_DIGEST_EN, 1), (F.TWN_STATUS_LANES, 1)] with twn := { Twn.reset with ports := [(3, { TwnPort.reset with aligned := true })] } }
     let f : BitVec 4096 := ralinFrame 3 0 24 0 0 0 (digestBytes 3 ⟨false, 0, 6, 7, 8, 9, 0⟩)
     let e := readDigest s.dev.tim.tick (frameBytes f)
     decide (s.dev.hears f 3 ∧ s.dev.on F.TWN_CFG_DIGEST_EN = true ∧ ((s.dev.mode = .m4 ∨ s.dev.mode = .m5)) ∧ frameLen f = 24 ∧
             (s.dev.tp e.1).aligned = true ∧ (∀ y ∈ (s.dev.tp e.1).mine, y.window ≠ e.2.window))) = true ∧
    (let y := (⟨true, 0, 6, 7, 8, 9, 0⟩ : DigestEntry)
     let s : State := st { boot .m4 [(F.TWN_CTRL_EN, 1), (F.TWN_CFG_DIGEST_EN, 1), (F.TWN_STATUS_LANES, 1), (F.TWN_CFG_THR, 2)] with twn := { Twn.reset with ports := [(3, { TwnPort.reset with aligned := true, mine := [⟨true, 0, 6, 7, 8, 9, 0⟩], history := [true, false, false, false, false, false, false, true] })] } }
     let f : BitVec 4096 := ralinFrame 3 0 24 0 0 0 (digestBytes 3 ⟨false, 0, 6, 7, 8, 9, 0⟩)
     let p := (readDigest s.dev.tim.tick (frameBytes f)).1
     let e := (readDigest s.dev.tim.tick (frameBytes f)).2
     decide (s.dev.hears f 3 ∧ s.dev.on F.TWN_CFG_DIGEST_EN = true ∧ ((s.dev.mode = .m4 ∨ s.dev.mode = .m5)) ∧ frameLen f = 24 ∧
             (s.dev.tp p).aligned = true ∧ (s.dev.tp p).mine.find? (fun y => y.window == e.window) = some y ∧
             (y.void = true ∨ e.void = true ∨ y.firstFp ≠ e.firstFp ∨ y.firstLen ≠ e.firstLen))) = true ∧
    (let y := (⟨false, 0, 6, 7, 8, 9, 0⟩ : DigestEntry)
     let s : State := st { boot .m4 [(F.TWN_CTRL_EN, 1), (F.TWN_CFG_DIGEST_EN, 1), (F.TWN_STATUS_LANES, 1), (F.TWN_CFG_THR, 2)] with twn := { Twn.reset with ports := [(3, { TwnPort.reset with aligned := true, mine := [⟨false, 0, 5, 7, 8, 1, 0⟩, ⟨false, 0, 6, 7, 8, 9, 0⟩], history := [true, false, false, false, false, false, false, true] })] } }
     let f : BitVec 4096 := ralinFrame 3 0 24 0 0 0 (digestBytes 3 ⟨false, 3, 6, 7, 8, 9, 0⟩)
     let p := (readDigest s.dev.tim.tick (frameBytes f)).1
     let e := (readDigest s.dev.tim.tick (frameBytes f)).2
     decide (s.dev.hears f 3 ∧ s.dev.on F.TWN_CFG_DIGEST_EN = true ∧ ((s.dev.mode = .m4 ∨ s.dev.mode = .m5)) ∧ frameLen f = 24 ∧
             (s.dev.tp p).aligned = true ∧ (s.dev.tp p).mine.find? (fun y => y.window == e.window) = some y ∧ y.void = false ∧
             e.void = false ∧ y.firstFp = e.firstFp ∧ y.firstLen = e.firstLen ∧ y.digest = e.digest)) = true ∧
    (let y := (⟨false, 0, 6, 7, 8, 9, 0⟩ : DigestEntry)
     let s : State := st { boot .m4 [(F.TWN_CTRL_EN, 1), (F.TWN_CFG_DIGEST_EN, 1), (F.TWN_STATUS_LANES, 1), (F.TWN_CFG_THR, 2)] with twn := { Twn.reset with ports := [(3, { TwnPort.reset with aligned := true, mine := [⟨false, 0, 6, 7, 8, 9, 0⟩], history := [true, false, false, false, false, false, false, true] })] } }
     let f : BitVec 4096 := ralinFrame 3 0 24 0 0 0 (digestBytes 3 ⟨false, 0, 6, 7, 8, 10, 0⟩)
     let p := (readDigest s.dev.tim.tick (frameBytes f)).1
     let e := (readDigest s.dev.tim.tick (frameBytes f)).2
     decide (s.dev.hears f 3 ∧ s.dev.on F.TWN_CFG_DIGEST_EN = true ∧ ((s.dev.mode = .m4 ∨ s.dev.mode = .m5)) ∧ frameLen f = 24 ∧
             (s.dev.tp p).aligned = true ∧ (s.dev.tp p).mine.find? (fun y => y.window == e.window) = some y ∧ y.void = false ∧
             e.void = false ∧ y.firstFp = e.firstFp ∧ y.firstLen = e.firstLen ∧ y.digest ≠ e.digest)) = true ∧
    (let k := (1 : Nat)
     let s : State := st { boot .m5 [(F.TWN_CTRL_EN, 1), (F.TWN_STATUS_LANES, 1)] with twn := { Twn.reset with ports := [(3, { TwnPort.reset with recent := [(0, 9), (decisionRecord 9 64 0, 7), (5, 6)], dropSum := 10 })] } }
     let f : BitVec 4096 := ralinFrame 8 0 10 0 0 0 ([3, 0, 0, 0] ++ leBytes 4 9 ++ leBytes 2 64)
     let p := byteField f 16 1 % 128
     let i := (s.dev.tp p).recent.findIdx? fun r => byteField r.1 0 4 == byteField f 20 4 && byteField r.1 4 2 % 16384 == byteField f 24 2
     decide (s.dev.hears f 8 ∧ s.dev.mode = .m5 ∧ i = some k)) = true ∧
    (let s : State := st { boot .m5 [(F.TWN_CTRL_EN, 1), (F.TWN_STATUS_LANES, 1)] with twn := { Twn.reset with ports := [(3, { TwnPort.reset with recent := [(0, 9), (decisionRecord 9 63 0, 7), (5, 6)], dropSum := 10 })] } }
     let f : BitVec 4096 := ralinFrame 8 0 10 0 0 0 ([3, 0, 0, 0] ++ leBytes 4 9 ++ leBytes 2 64)
     let p := byteField f 16 1 % 128
     let i := (s.dev.tp p).recent.findIdx? fun r => byteField r.1 0 4 == byteField f 20 4 && byteField r.1 4 2 % 16384 == byteField f 24 2
     decide (s.dev.hears f 8 ∧ s.dev.mode = .m5 ∧ i = none)) = true := by
  decide +kernel

/-- States and operands that meet the hypotheses of CopyCommandsComplete, parts 1, 2, 3, 4, 5, 6, 7, 8. -/
theorem witness_CopyCommandsComplete :
    (let s : State := st { boot .m6 [(F.TWN_CTRL_EN, 1), (F.TWN_STATUS_LANES, 1), (F.TWN_STATUS_SUB, 1)] with tim := { Tim.reset with tick := 64 }, twn := { Twn.reset with requestAt := some 0 } }
     decide (s.dev.twinOn = true ∧ s.dev.mode = .m6 ∧ s.dev.twnSub = 1 ∧ s.dev.ralinUp = true ∧ s.dev.shed < 3 ∧ True)) = true ∧
    (let s : State := st (boot .m4 [(F.TWN_CTRL_EN, 1), (F.TWN_STATUS_LANES, 1)])
     let f : BitVec 4096 := ralinFrame 5 0 17 0 0 0 [1]
     decide (s.dev.hears f 5 ∧ byteField f 16 1 = 1 ∧ s.dev.mode = .m4 ∧ s.dev.m7 = false ∧ s.dev.twn.copying = false)) = true ∧
    (let s : State := st (boot .m6 [(F.TWN_CTRL_EN, 1), (F.TWN_STATUS_LANES, 1), (F.TWN_STATUS_SUB, 1)])
     let f : BitVec 4096 := ralinFrame 5 0 17 0 0 0 [2]
     decide (s.dev.hears f 5 ∧ byteField f 16 1 = 2 ∧ s.dev.mode = .m6 ∧ s.dev.twnSub = 1)) = true ∧
    (let s : State := st (boot .m6 [(F.TWN_CTRL_EN, 1), (F.TWN_STATUS_LANES, 1), (F.TWN_STATUS_SUB, 3)])
     let f : BitVec 4096 := ralinFrame 5 0 17 0 0 0 [7]
     decide (s.dev.hears f 5 ∧ byteField f 16 1 = 7 ∧ s.dev.inCopy = true)) = true ∧
    (let s : State := st (boot .m6 [(F.TWN_CTRL_EN, 1), (F.TWN_STATUS_LANES, 1), (F.TWN_STATUS_SUB, 2)])
     let f : BitVec 4096 := ralinFrame 6 0 64 0 0 0 (leBytes 16 0x300000001 ++ leBytes 16 64 ++ leBytes 16 0x400000002 ++ leBytes 16 32)
     decide (s.dev.hears f 6 ∧ s.dev.mode = .m6 ∧ s.dev.twnSub = 2)) = true ∧
    (let s : State := st { boot .m4 [(F.TWN_STATUS_LANES, 1)] with twn := { Twn.reset with copying := true, sendSeg := 4, sendOfs := 480, segments := [⟨4, 3, 0, 0, 1024, 0, List.replicate 480 0, false, 0, false, []⟩] } }
     let g : Segment := ⟨4, 3, 0, 0, 1024, 0, List.replicate 480 0, false, 0, false, []⟩
     let ofs := if s.dev.twn.sendSeg = g.seg then s.dev.twn.sendOfs else 0
     let n := (s.dev.segBytes g ofs).length
     decide (s.dev.mode = .m4 ∧ s.dev.twn.copying = true ∧ s.dev.ralinUp = true ∧
             (s.dev.twn.segments.find? fun g => !g.verified) = some g ∧ ofs + n < g.len)) = true ∧
    (let s : State := st { boot .m4 [(F.TWN_STATUS_LANES, 1)] with twn := { Twn.reset with copying := true, segments := [⟨4, 3, 0, 0, 64, 0, [], false, 0, false, []⟩, ⟨5, 3, 0, 1, 64, 0, [], false, 0, false, []⟩] } }
     let g : Segment := ⟨4, 3, 0, 0, 64, 0, [], false, 0, false, []⟩
     let ofs := if s.dev.twn.sendSeg = g.seg then s.dev.twn.sendOfs else 0
     let n := (s.dev.segBytes g ofs).length
     decide (s.dev.mode = .m4 ∧ s.dev.twn.copying = true ∧ s.dev.ralinUp = true ∧
             (s.dev.twn.segments.find? fun g => !g.verified) = some g ∧ g.len ≤ ofs + n ∧
             (((List.range 8).all fun u => decide ((s.dev.unit u).point = 3 → (s.dev.unit u).abort = false)) = true))) = true ∧
    (let s : State := st { boot .m6 [(F.TWN_CTRL_EN, 1), (F.TWN_STATUS_LANES, 1), (F.TWN_STATUS_SUB, 2)] with twn := { Twn.reset with segments := [⟨4, 3, 0, 0, 64, 0, [], false, 0, false, []⟩] } }
     let f : BitVec 4096 := ralinFrame 7 0 72 0 0 0 (leBytes 4 4 ++ leBytes 4 0 ++ List.replicate 64 255)
     let g : Segment := ⟨4, 3, 0, 0, 64, 0, [], false, 0, false, []⟩
     decide (s.dev.hears f 7 ∧ s.dev.mode = .m6 ∧ s.dev.twnSub = 2 ∧
             (s.dev.twn.segments.find? fun g => g.seg == byteField f 16 4) = some g ∧ g.verified = false ∧
             byteField f 20 4 + ((frameBytes f).drop 8).length ≤ g.len)) = true := by
  decide +kernel

/-- States and operands that meet the hypotheses of CopyCommandsComplete, parts 9, 10. -/
theorem witness_CopyCommandsComplete_2 :
    (let s : State := st { boot .m6 [(F.TWN_CTRL_EN, 1), (F.TWN_STATUS_SUB, 2)] with twn := { Twn.reset with abortDue := some 4 } }
     let c : Fin 8 := 4
     decide (s.dev.abortHolds c.val = true)) = true ∧
    (let s : State := st { boot .m6 [(F.TWN_CTRL_EN, 1), (F.TWN_STATUS_SUB, 3), (F.TWN_STATUS_PARTIAL, 1)] with tim := { Tim.reset with tick := 9 }, twn := { Twn.reset with settleLimit := 9 } }
     decide (s.dev.mode = .m6 ∧ s.dev.twnSub = 3 ∧ s.dev.twn.settleAt + s.dev.twn.settleLimit ≤ s.dev.tim.tick ∧
             s.dev.twn.mirrorDue = none ∧ s.dev.twn.abortDue = none ∧ s.dev.shed < 3)) = true := by
  decide +kernel

/-- States and operands that meet the hypotheses of PowerReadingsComplete, parts 1, 2, 3, 4, 8. -/
theorem witness_PowerReadingsComplete :
    (let s : State := st (boot .m3 [])
     let n : Fin 146 := 121
     decide (((101 ≤ n.val → n.val < 121 → s.dev.domainOn n.val = true → s.dev.domainWanted n.val = true)))) = true ∧
    (let s : State := st { boot .m3 [(F.PWR_DOM_STATUS.ix 3, 0xFFFFFFFF)] with fab := { Fab.reset with locked := BitVec.allOnes 160 } }
     let n : Fin 146 := 101
     decide (101 ≤ n.val ∧ n.val < 121 ∧ s.dev.domainOn n.val = true ∧ s.dev.domainWanted n.val = false ∧
             s.dev.fabLinkUp (2 * (n.val - 101)) = false ∧ s.dev.fabLinkUp (2 * (n.val - 101) + 1) = false)) = true ∧
    (let s : State := st { boot .m3 [(F.PWR_DOM_STATUS.ix 3, 0xFFFFFFFF), (F.FAB_STATUS_STATE, 2), (F.FAB_LINKS_UP_UP, 3)] with fab := { Fab.reset with locked := BitVec.allOnes 160 } }
     let n : Fin 146 := 101
     let i : Nat := 1
     decide (101 ≤ n.val ∧ n.val < 121 ∧ s.dev.domainOn n.val = true ∧ s.dev.domainWanted n.val = false ∧ i / 2 = n.val - 101 ∧
             s.dev.fabLinkUp i = true)) = true ∧
    (let mvs : List Nat := [1, 2, 3, 4, 5, 6, 7, 8, 9, 10, 11, 12, 13, 14, 15, 65536]
     let n : Fin 16 := 15
     let mv : Nat := 65536
     decide (mvs[n.val]? = some mv)) = true ∧
    (let l : List Int := [839, 840]
     let n : Fin 32 := 1
     let v : Int := 840
     decide (l[n.val]? = some v)) = true := by
  decide +kernel

/-- States and operands that meet the hypotheses of ShedCommandsComplete, parts 4, 5. -/
theorem witness_ShedCommandsComplete :
    (let s : State := st (boot .m3 [(F.PWR_STATUS_BELOW_WARN, 1), (F.PWR_STATUS_SHED_STEP, 5)])
     decide (s.dev.mode ≠ .m0 ∧ s.dev.on F.PWR_STATUS_BELOW_WARN = true ∧ s.dev.shed < 6)) = true ∧
    (let s : State := st (boot .m3 [(F.PWR_STATUS_HOLDING, 1), (F.PWR_STATUS_SHED_STEP, 6)])
     decide (s.dev.shed ≠ 0 ∧ s.dev.pwr.clear = true ∧
             (s.dev.on F.PWR_STATUS_HOLDING = true ∨ s.dev.on F.PWR_STATUS_RESTORING = true))) = true := by
  decide +kernel

/-- States and operands that meet the hypotheses of BootCommandsComplete, parts 2, 4. -/
theorem witness_BootCommandsComplete :
    (let s : State := st { boot .m1 [(F.SEC_BOOT_STATUS_PHASE, 3)] with hostMem := [] }
     let e : BitVec 3 := 6
     decide (s.dev.mode = .m1 ∧ s.dev.rd F.SEC_BOOT_STATUS_PHASE < 4 ∧ s.dev.sec.fuses.ok = true ∧
             s.dev.rd F.GLB_STRAP_FLASH_MODE < 2 ∧ bitOn e 0 = false ∧ dirValid (s.dev.flashBytes 0 64) = false)) = true ∧
    (let s : State := st (boot .m10 [])
     decide (s.dev.mode ≠ .m0 ∧ s.dev.mode ≠ .m11)) = true := by
  decide +kernel

/-- States and operands that meet the hypotheses of FuseAndAttestCommandsComplete, parts 1, 2, 3, 4, 5, 6, 7, 8. -/
theorem witness_FuseAndAttestCommandsComplete :
    (let s : State := st (boot .m2 [])
     let m : Master := 6
     decide (s.dev.writes m.val F.SEC_FUSE_CMD.off = true ∧ s.dev.fuseBar m.val 1 0 = 0)) = true ∧
    (let s : State := st { boot .m3 [] with sec := { Sec.reset with bundle := some ⟨0, true, 5, 9, 0, 0, [], 0, 512⟩ } }
     let m : Master := 6
     let slot : BitVec 4 := 1
     decide (s.dev.writes m.val F.SEC_FUSE_CMD.off = true ∧ s.dev.fuseBar m.val 2 (slot.toNat % 8) = 0)) = true ∧
    (let s : State := st (boot .m2 [])
     let m : Master := 6
     decide (s.dev.writes m.val F.SEC_FUSE_CMD.off = true ∧ s.dev.fuseBar m.val 3 0 = 0)) = true ∧
    (let s : State := st (boot .m3 [(F.GLB_LOCK_LOCK, 1)])
     let m : Master := 6
     decide (s.dev.writes m.val F.SEC_FUSE_CMD.off = true ∧ s.dev.fuseBar m.val 1 0 ≠ 0 ∧ s.dev.sec.fuseOp = none)) = true ∧
    (let s : State := st { boot .m3 [] with sec := { Sec.reset with fuseOp := some (1, 0), bundle := some ⟨0, true, 64, 9, 0, 0, [], 0, 512⟩ } }
     let slot : Nat := 0
     decide (s.dev.sec.fuseOp = some (1, slot))) = true ∧
    (let s : State := st { boot .m3 [] with sec := { Sec.reset with fuseOp := some (2, 5) } }
     let slot : Nat := 5
     decide (s.dev.sec.fuseOp = some (2, slot))) = true ∧
    (let s : State := st { boot .m3 [] with sec := { Sec.reset with fuseOp := some (3, 0) } }
     let slot : Nat := 0
     decide (s.dev.sec.fuseOp = some (3, slot))) = true ∧
    (let s : State := st (boot .m2 [])
     let m : Master := 0
     decide (s.dev.writes m.val F.SEC_ATT.off = true ∧ (m.val = 0 ∨ m.val = 6) ∧
             (s.dev.mode = .m11 ∨ 5 ≤ s.dev.rd F.SEC_BOOT_STATUS_PHASE) ∧ s.dev.sec.attest = none)) = true := by
  decide +kernel

/-- States and operands that meet the hypotheses of FuseAndAttestCommandsComplete, part 9. -/
theorem witness_FuseAndAttestCommandsComplete_2 :
    (let s : State := st { boot .m2 [] with sec := { Sec.reset with attest := some (6, [1, 2]) } }
     let m : Nat := 6
     let l : List Byte := [1, 2]
     decide (s.dev.sec.attest = some (m, l))) = true := by
  decide +kernel

/-- States and operands that meet the hypotheses of FlashCommandsComplete, parts 1, 2, 3, 4, 5, 6, 7, 8. -/
theorem witness_FlashCommandsComplete :
    (let s : State := st (boot .m2 [(F.SEC_FLASH_LEN_LEN, 16777216), (F.SEC_FLASH_OFS_OFS, 0xF000000)])
     let m : Master := 6
     decide (s.dev.writes m.val F.SEC_FLASH_CMD.off = true ∧ s.dev.flashBar m.val 1 = 0)) = true ∧
    (let s : State := st (boot .m2 [(F.SEC_FLASH_LEN_LEN, 4096), (F.SEC_FLASH_OFS_OFS, 0xFFFF000)])
     let m : Master := 6
     decide (s.dev.writes m.val F.SEC_FLASH_CMD.off = true ∧ s.dev.flashBar m.val 2 = 0)) = true ∧
    (let s : State := st (boot .m2 [(F.SEC_FLASH_LEN_LEN, 256), (F.SEC_FLASH_OFS_OFS, 256)])
     let m : Master := 6
     decide (s.dev.writes m.val F.SEC_FLASH_CMD.off = true ∧ s.dev.flashBar m.val 3 = 0)) = true ∧
    (let s : State := st (boot .m2 [(F.SEC_FLASH_LEN_LEN, 256), (F.SEC_FLASH_OFS_OFS, 256)])
     let m : Master := 6
     decide (s.dev.writes m.val F.SEC_FLASH_CMD.off = true ∧ s.dev.flashBar m.val 2 ≠ 0 ∧ s.dev.sec.flashOp = none)) = true ∧
    (let s : State := st { boot .m2 [] with sec := { Sec.reset with flash := [(5, 7)], flashOp := some ⟨1, 64, 5, 2⟩ } }
     let op : FlashOp := ⟨1, 64, 5, 2⟩
     decide (s.dev.sec.flashOp = some op ∧ op.cmd = 1 ∧ (s.dev.streamEnds 6 0).1 = false)) = true ∧
    (let s : State := st { boot .m2 [(F.DGN_CU_STATUS_STATE.ix 0, 2)] with sec := { Sec.reset with flash := [(5, 7)], flashOp := some ⟨1, 64, 5, 2⟩ }, dgn := { Dgn.reset with units := [(0, ⟨6, 0, true, 0, 0, 0, [7, 255]⟩)] } }
     let op : FlashOp := ⟨1, 64, 5, 2⟩
     decide (s.dev.sec.flashOp = some op ∧ op.cmd = 1 ∧ (s.dev.streamEnds 6 0).1 = true)) = true ∧
    (let s : State := st { boot .m2 [] with sec := { Sec.reset with flash := [(5, 7)], flashOp := some ⟨2, 64, 5, 2⟩ } }
     let op : FlashOp := ⟨2, 64, 5, 2⟩
     decide (s.dev.sec.flashOp = some op ∧ op.cmd = 2)) = true ∧
    (let s : State := st { boot .m2 [] with sec := { Sec.reset with flash := [(5, 7)], flashOp := some ⟨3, 64, 5, 2⟩ } }
     let op : FlashOp := ⟨3, 64, 5, 2⟩
     decide (s.dev.sec.flashOp = some op ∧ op.cmd = 3)) = true := by
  decide +kernel

/-- States and operands that meet the hypotheses of FlashCommandsComplete, part 9. -/
theorem witness_FlashCommandsComplete_2 :
    (let s : State := st { boot .m2 [] with sec := { Sec.reset with flash := [(5, 7), (4096, 3)], flashOp := some ⟨3, 64, 5, 2⟩ } }
     let op : FlashOp := ⟨3, 64, 5, 2⟩
     decide (s.dev.sec.flashOp = some op ∧ op.cmd = 3)) = true := by
  decide +kernel

/-- States and operands that meet the hypotheses of CheckUnitCommandsComplete, parts 1, 2, 3, 4, 5, 6, 7. -/
theorem witness_CheckUnitCommandsComplete :
    (let s : State := st (boot .m3 [(F.DGN_CU_COUNT_BYTES.ix 7, 5)])
     let m : Master := 6
     let u : Fin 8 := 7
     let data : Word := 0xC6C00000
     decide (s.dev.writes m.val (F.DGN_CU_CTRL.ix u.val).off = true ∧ bitOn data 31 = true ∧
             s.dev.cuBar u.val (bits data 26 24) = 0)) = true ∧
    (let s : State := st (boot .m3 [])
     let m : Master := 6
     let u : Fin 8 := 7
     let data : Word := 0x85000000
     decide (s.dev.writes m.val (F.DGN_CU_CTRL.ix u.val).off = true ∧ bitOn data 31 = true ∧
             s.dev.cuBar u.val (bits data 26 24) ≠ 0)) = true ∧
    (let s : State := st { boot .m3 [(F.DGN_CU_STATUS_STATE.ix 7, 2)] with dgn := { Dgn.reset with units := [(7, ⟨2, 0, true, 0xDEADBEEFCBF43926, 9, 0, [0x31, 0x32, 0x33, 0x34, 0x35, 0x36, 0x37, 0x38, 0x39]⟩)] } }
     let u : Fin 8 := 7
     let given : List Byte := []
     let x := s.dev.unit u.val; let l := x.stream given
     decide (s.dev.unitState u.val = 2 ∧ s.dev.streamWhole x l = true ∧ unitCrc x.poly l = x.expect.toNat % 2 ^ crcWidth x.poly)) = true ∧
    (let s : State := st { boot .m3 [(F.DGN_CU_STATUS_STATE.ix 7, 2)] with dgn := { Dgn.reset with units := [(7, ⟨5, 3, false, 0, 9, 0, []⟩)] } }
     let u : Fin 8 := 7
     let given : List Byte := [0x31, 0x32, 0x33, 0x34, 0x35, 0x36, 0x37, 0x38, 0x39]
     let x := s.dev.unit u.val; let l := x.stream given
     decide (s.dev.unitState u.val = 2 ∧ s.dev.streamWhole x l = true ∧ unitCrc x.poly l ≠ x.expect.toNat % 2 ^ crcWidth x.poly ∧
             (x.abort = false ∨ x.point = 2))) = true ∧
    (let s : State := st { boot .m3 [(F.DGN_CU_STATUS_STATE.ix 7, 2)] with dgn := { Dgn.reset with units := [(7, ⟨6, 0, true, 5, 2, 0, [9, 8]⟩)] }, sec := { Sec.reset with flashOp := some ⟨1, 64, 5, 2⟩ } }
     let u : Fin 8 := 7
     let given : List Byte := []
     let x := s.dev.unit u.val; let l := x.stream given
     decide (s.dev.unitState u.val = 2 ∧ s.dev.streamWhole x l = true ∧ unitCrc x.poly l ≠ x.expect.toNat % 2 ^ crcWidth x.poly ∧
             x.abort = true ∧ x.point ≠ 2)) = true ∧
    (let s : State := st { boot .m3 [(F.DGN_CU_STATUS_STATE.ix 7, 2)] with dgn := { Dgn.reset with units := [(7, ⟨1, 3, false, 0, 9, 0, []⟩)] } }
     let u : Fin 8 := 7
     decide (s.dev.unitState u.val = 2 ∧ s.dev.ownerEnded (s.dev.unit u.val) = true)) = true ∧
    (let s : State := st { boot .m3 [(F.DGN_CU_STATUS_STATE.ix 7, 2)] with dgn := { Dgn.reset with units := [(7, ⟨2, 3, false, 0, 9, 0, []⟩)] } }
     let u : Fin 8 := 7
     decide (s.dev.unitState u.val = 2 ∧ s.dev.ownerEnded (s.dev.unit u.val) = false)) = true := by
  decide +kernel

/-- States and operands that meet the hypotheses of PatrolAndCausewayComplete, parts 1, 2, 3, 4, 5, 6, 7, 8. -/
theorem witness_PatrolAndCausewayComplete :
    (let s : State := st (boot .m3 [(F.DGN_PATROL_CFG_EN, 1)])
     decide (s.dev.mode ≠ .m0 ∧ s.dev.on F.DGN_PATROL_CFG_EN = true ∧ s.dev.shed < 2)) = true ∧
    (let s : State := st (boot .m3 [(F.DGN_PATROL_CFG_EN, 1), (F.PWR_DOM_STATUS.ix 3, 0xFFFFFFFF)])
     let place : PatrolPlace := .table 10 0
     decide (s.dev.mode ≠ .m0 ∧ s.dev.on F.DGN_PATROL_CFG_EN = true ∧ s.dev.shed < 2 ∧ s.dev.placeReads place = true ∧
             s.dev.dgn.patrolKey < placeKey place)) = true ∧
    (let s : State := st { boot .m3 [(F.DGN_PATROL_CFG_EN, 1), (F.PWR_DOM_STATUS.ix 2, 0xFFFFFFFF)] with pir := { Pir.reset with live := [(tcamKey 16 1 7, { TcamRow.reset with valid := true })] } }
     let p : Pier := 16
     let egress : Bool := true
     let row : Nat := 7
     decide (s.dev.mode ≠ .m0 ∧ s.dev.on F.DGN_PATROL_CFG_EN = true ∧ s.dev.shed < 2 ∧ s.dev.pierPowered p.val = true ∧
             row < tcamRows (if egress then 1 else 0) ∧ s.dev.dgn.patrolKey < placeKey (.tcam p egress row))) = true ∧
    (let s : State := st { boot .m3 [(F.DGN_PATROL_CFG_EN, 1), (F.PWR_DOM_STATUS.ix 3, 0xFFFFFFFF)] with dgn := { Dgn.reset with patrolKey := placeKey (.table 10 9) } }
     let x : PatrolError := ⟨.table 10 9, true, .patrol⟩
     decide (x.finder = .patrol ∧ (s.dev.placeReads x.place = false ∨ placeKey x.place ≤ s.dev.dgn.patrolKey))) = true ∧
    (let s : State := st (boot .m3 [(F.PWR_DOM_STATUS.ix 3, 0xFFFFFFFF)])
     let kind : Nat := 10
     let i : Nat := 67108863
     let f : ErrorFinder := .engine
     decide (s.dev.mode ≠ .m0 ∧ f ≠ .patrol ∧ 2 ≤ kind ∧ s.dev.placeReads (.table kind i) = true ∧ s.dev.poisoned kind i = false)) = true ∧
    (let s : State := st (boot .m3 [])
     let fe : Bool := true
     decide (s.dev.mode ≠ .m0 ∧ s.dev.cwStopped (if fe then 0 else 1) = false)) = true ∧
    (let s : State := st (boot .m3 [])
     let fe : Bool := false
     decide (s.dev.mode ≠ .m0 ∧ s.dev.cwStopped (if fe then 0 else 1) = false)) = true ∧
    (let s : State := st { boot .m3 [] with dgn := { Dgn.reset with cwFails := [(1, 14)] } }
     let fe : Bool := false
     let dir := if fe then 0 else 1
     decide (s.dev.mode ≠ .m0 ∧ s.dev.cwStopped dir = false ∧ s.dev.cwFails dir < 15)) = true := by
  decide +kernel

/-- States and operands that meet the hypotheses of PatrolAndCausewayComplete, parts 9, 10, 11. -/
theorem witness_PatrolAndCausewayComplete_2 :
    (let s : State := st { boot .m3 [] with dgn := { Dgn.reset with cwFails := [(1, 15)] } }
     let fe : Bool := false
     let dir := if fe then 0 else 1
     decide (s.dev.mode ≠ .m0 ∧ s.dev.cwStopped dir = false ∧ 15 ≤ s.dev.cwFails dir)) = true ∧
    (let s : State := st (boot .m10 [])
     let m : Master := 6
     decide (s.dev.writes m.val F.DGN_CW_TEST.off = true ∧ s.dev.mode = .m10)) = true ∧
    (let s : State := st (boot .m3 [])
     let m : Master := 6
     decide (s.dev.writes m.val F.DGN_CW_TEST.off = true ∧ s.dev.mode ≠ .m10)) = true := by
  decide +kernel

/-- States and operands that meet the hypotheses of TestCommandsComplete, parts 1, 2, 3, 4, 5, 6, 7, 8. -/
theorem witness_TestCommandsComplete :
    (let s : State := st (boot .m10 [(F.PWR_STATUS_SHED_STEP, 1)])
     let m : Master := 6
     let data : Word := 0x80000010
     decide (s.dev.writes m.val F.DGN_BIST_CMD.off = true ∧ bitOn data 31 = true ∧ s.dev.bistBar (bits data 4 0) = 0)) = true ∧
    (let s : State := st (boot .m10 [])
     let m : Master := 6
     let data : Word := 0x80000011
     decide (s.dev.writes m.val F.DGN_BIST_CMD.off = true ∧ bitOn data 31 = true ∧ s.dev.bistBar (bits data 4 0) ≠ 0)) = true ∧
    (let s : State := st { boot .m10 [] with dgn := { Dgn.reset with runs := [⟨16, false, false⟩] } }
     let p : Pier := 16
     decide (s.dev.dgn.runs = [⟨p.val, false, false⟩] ∧ s.dev.img.failDue = [])) = true ∧
    (let s : State := st { boot .m10 [] with dgn := { Dgn.reset with runs := [⟨16, true, false⟩] } }
     let p : Pier := 16
     decide (s.dev.dgn.runs = [⟨p.val, true, false⟩])) = true ∧
    (let s : State := st (boot .m10 [])
     let m : Master := 6
     let data : Word := 0x8000019F
     decide (s.dev.writes m.val F.DGN_RECAL_CMD.off = true ∧ bitOn data 31 = true ∧
             (bits data 7 0 < if bitOn data 8 then 160 else 128) ∧ s.dev.mode = .m10)) = true ∧
    (let s : State := st (boot .m10 [])
     let m : Master := 6
     let data : Word := 0x80000080
     let lane := bits data 7 0
     decide (s.dev.writes m.val F.DGN_RECAL_CMD.off = true ∧ bitOn data 31 = true ∧
             ((if bitOn data 8 then 160 else 128) ≤ lane ∨ (s.dev.mode ≠ .m10 ∧ (if bitOn data 8 then s.dev.fabLinkUp (lane / 4) = true else ∃ p ∈ s.dev.lanePorts lane, s.dev.on (F.LPT_CTRL_ADMIN_UP.port p) = true))))) = true ∧
    (let s : State := st { boot .m10 [] with dgn := { Dgn.reset with recal := [(true, 159), (false, 3)] } }
     let x : Bool × Nat := (true, 159)
     let rest : List (Bool × Nat) := [(false, 3)]
     decide (s.dev.dgn.recal = x :: rest)) = true ∧
    (let s : State := st (boot .m10 [])
     let m : Master := 6
     let data : Word := 0x8000001F
     decide (s.dev.writes m.val F.DGN_MAINT_CMD.off = true ∧ bitOn data 31 = true ∧ s.dev.mode = .m10 ∧
             s.dev.on F.DGN_STATUS_MAINT_BUSY = false)) = true := by
  decide +kernel

/-- States and operands that meet the hypotheses of TestCommandsComplete, parts 9, 10, 11. -/
theorem witness_TestCommandsComplete_2 :
    (let s : State := st (boot .m3 [])
     let m : Master := 6
     let data : Word := 0x8000001F
     decide (s.dev.writes m.val F.DGN_MAINT_CMD.off = true ∧ bitOn data 31 = true ∧
             (s.dev.mode ≠ .m10 ∨ s.dev.on F.DGN_STATUS_MAINT_BUSY = true))) = true ∧
    (let s : State := st (boot .m10 [(F.DGN_STATUS_MAINT_BUSY, 1), (F.DGN_MAINT_CMD_SCOPE, 4)])
     decide (s.dev.on F.DGN_STATUS_MAINT_BUSY = true ∧ s.dev.dgn.runs.any (·.maint) = false)) = true ∧
    (let s : State := st { boot .m10 [] with dgn := { Dgn.reset with runs := [⟨16, false, true⟩] } }
     decide (s.dev.dgn.runs.any (·.maint) = true)) = true := by
  decide +kernel

/-- States and operands that meet the hypotheses of RegisterCommandsComplete, parts 1, 2, 3, 4, 5, 6, 7, 8. -/
theorem witness_RegisterCommandsComplete :
    (let s : State := st (boot .m3 [])
     let m : Master := 6
     let n : Fin 4 := 3
     decide (s.dev.writes m.val (F.GLB_SCRATCH.ix n.val).off = true)) = true ∧
    (let s : State := st (boot .m3 [(F.GLB_RESET_CAUSE_SYSRST, 1), (F.GLB_RESET_CAUSE_PERST, 1)])
     let m : Master := 6
     decide (s.dev.writes m.val F.GLB_RESET_CAUSE.off = true)) = true ∧
    (let s : State := st (boot .m3 [(F.TIM_TOD_BASE, 0x1234567890AB)])
     let m : Master := 6
     let off : Offset := BitVec.ofNat 29 F.TIM_TOD_BASE.off
     let r : RegAt := (regAt F.TIM_TOD_BASE.off).getD ⟨0, 0, 0, 0, false, ⟨"", 0, 0, 0, 0, 0, false, false, fun _ => 0, 0, 0, 0⟩⟩
     decide (s.dev.reaches m.val off.toNat = true ∧ s.dev.answersAt off.toNat = true ∧
             ((off.toNat < 0x9800000 ∨ 0x9900000 ≤ off.toNat)) ∧ (regAt off.toNat).isSome = true ∧ r.wide = true ∧
             r.high = false ∧ r.row ≠ F.BUF_ALLOC.off)) = true ∧
    (let s : State := st { boot .m3 [] with latches := [(halfKey 6 F.TIM_TOD_BASE.off, some 0x1234)] }
     let m : Master := 6
     let off : Offset := BitVec.ofNat 29 (F.TIM_TOD_BASE.off + 4)
     let r : RegAt := (regAt (F.TIM_TOD_BASE.off + 4)).getD ⟨0, 0, 0, 0, false, ⟨"", 0, 0, 0, 0, 0, false, false, fun _ => 0, 0, 0, 0⟩⟩
     let w : Word := 0x1234
     decide (s.dev.reaches m.val off.toNat = true ∧ s.dev.answersAt off.toNat = true ∧
             ((off.toNat < 0x9800000 ∨ 0x9900000 ≤ off.toNat)) ∧ (regAt off.toNat).isSome = true ∧ r.high = true ∧
             s.dev.latches.get (fun _ => none) (halfKey m.val r.off) = some w)) = true ∧
    (let s : State := st (boot .m3 [])
     let m : Master := 6
     let off : Offset := BitVec.ofNat 29 (F.DGN_CU_EXPECT.ix 7).off
     let r : RegAt := (regAt (F.DGN_CU_EXPECT.ix 7).off).getD ⟨0, 0, 0, 0, false, ⟨"", 0, 0, 0, 0, 0, false, false, fun _ => 0, 0, 0, 0⟩⟩
     decide (s.dev.writes m.val off.toNat = true ∧ ((off.toNat < 0x9800000 ∨ 0x9900000 ≤ off.toNat)) ∧
             (regAt off.toNat).isSome = true ∧ r.wide = true ∧ r.high = false ∧ r.row ≠ F.IMG_WALK_START.off ∧
             ((0xA000000 ≤ r.row → r.row < 0xC000000 → s.dev.localBarred m.val = false)))) = true ∧
    (let s : State := st { boot .m3 [] with stages := [(halfKey 6 (F.DGN_CU_EXPECT.ix 7).off, some 0xFFFFFFFF)] }
     let m : Master := 6
     let u : Fin 8 := 7
     let low : Word := 0xFFFFFFFF
     decide (s.dev.writes m.val ((F.DGN_CU_EXPECT.ix u.val).off + 4) = true ∧
             s.dev.stages.get (fun _ => none) (halfKey m.val (F.DGN_CU_EXPECT.ix u.val).off) = some low)) = true ∧
    (let s : State := st { boot .m3 [(F.DGN_CU_EXPECT_VALUE.ix 7, 5)] with stages := [(halfKey 6 (F.DGN_CU_EXPECT.ix 7).off, some 0xFFFFFFFE)] }
     let m : Master := 6
     let off : Offset := BitVec.ofNat 29 ((F.DGN_CU_EXPECT.ix 7).off + 4)
     let r : RegAt := (regAt ((F.DGN_CU_EXPECT.ix 7).off + 4)).getD ⟨0, 0, 0, 0, false, ⟨"", 0, 0, 0, 0, 0, false, false, fun _ => 0, 0, 0, 0⟩⟩
     decide (s.dev.writes m.val off.toNat = true ∧ ((off.toNat < 0x9800000 ∨ 0x9900000 ≤ off.toNat)) ∧
             (regAt off.toNat).isSome = true ∧ r.wide = true ∧ r.high = true ∧ ownCommit r.row = false ∧
             ((0xA000000 ≤ r.row → r.row < 0xC000000 → s.dev.localBarred m.val = false)))) = true ∧
    (let s : State := st (boot .m5 [])
     let m : Master := 6
     let off : Offset := BitVec.ofNat 29 F.IMG_WALK_START.off
     let r : RegAt := (regAt F.IMG_WALK_START.off).getD ⟨0, 0, 0, 0, false, ⟨"", 0, 0, 0, 0, 0, false, false, fun _ => 0, 0, 0, 0⟩⟩
     decide (s.dev.writes m.val off.toNat = true ∧ ((off.toNat < 0x9800000 ∨ 0x9900000 ≤ off.toNat)) ∧
             (regAt off.toNat).isSome = true ∧ r.wide = true ∧
             (r.row = F.IMG_WALK_START.off ∨ (0xA000000 ≤ r.row ∧ r.row < 0xC000000)) ∧ s.dev.localBarred m.val = true)) = true := by
  decide +kernel

/-- States and operands that meet the hypotheses of RegisterCommandsComplete, parts 9, 10, 11, 12, 13, 14, 15, 16. -/
theorem witness_RegisterCommandsComplete_2 :
    (let s : State := st { boot .m11 [] with lastAbort := true }
     let m : Master := 6
     let off : Offset := BitVec.ofNat 29 F.TIM_TOD_BASE.off
     decide (unmapped off.toNat = false ∧ s.dev.writes m.val off.toNat = false)) = true ∧
    (let s : State := st { boot .m11 [] with lastAbort := true }
     let m : Master := 6
     let off : Offset := BitVec.ofNat 29 F.TIM_TOD_BASE.off
     decide (unmapped off.toNat = false ∧ s.dev.writes m.val off.toNat = false)) = true ∧
    (let s : State := st { boot .m11 [] with lastAbort := true }
     let m : Master := 7
     let off : Offset := BitVec.ofNat 29 (F.TIM_TOD_BASE.off + 4)
     decide (unmapped off.toNat = false ∧ s.dev.writes m.val off.toNat = false)) = true ∧
    (let s : State := st { (boot .m3 []) with lastAbort := true }
     let m : Master := 8
     let off : Offset := BitVec.ofNat 29 0x13000100
     decide ((s.dev.reaches m.val off.toNat = false ∨ s.dev.answersAt off.toNat = false))) = true ∧
    (let s : State := st (boot .m3 [(F.PWR_RAIL_MIN_MV.ix 15, 700), (F.PWR_RAIL_MV.ix 15, 720)])
     let m : Master := 6
     let n : Fin 16 := 15
     decide (s.dev.reads m.val (F.PWR_RAIL.ix n.val).off = true)) = true ∧
    (let s : State := st (boot .m3 [])
     let m : Master := 6
     let off : Offset := 0x17FFFFFC
     decide (s.dev.reaches m.val off.toNat = true ∧ s.dev.answersAt off.toNat = true ∧ unmapped off.toNat = true)) = true ∧
    (let s : State := st (boot .m6 [])
     let m : Master := 6
     let o : BitVec 20 := 0x100
     decide (s.dev.writes m.val (0x9800000 + o.toNat) = true ∧ unmapped (0x9800000 + o.toNat) = false ∧
             s.dev.localBarred m.val = true)) = true ∧
    (let s : State := st (boot .m3 [(F.PWR_DOM_STATUS.ix 2, 0x1FFFFF), (F.PWR_DOM_STATUS.ix 1, 0xFFFFFFFF)])
     let m : Master := 6
     decide (s.dev.writes m.val (0x9800000 + 0x100) = true ∧ s.dev.localBarred m.val = false)) = true := by
  decide +kernel

/-- States and operands that meet the hypotheses of SourceWrittenOnlyInM2, parts 1, 2, 3, 4. -/
theorem witness_SourceWrittenOnlyInM2 :
    (let s : State := st (boot .m3 [])
     let m : Master := 6
     decide (s.dev.writes m.val F.TIM_CTRL.off = true ∧ s.dev.mode ≠ .m2)) = true ∧
    (let s : State := st (boot .m2 [])
     let m : Master := 6
     let src : BitVec 2 := 3
     decide (s.dev.writes m.val F.TIM_CTRL.off = true ∧ s.dev.on F.GLB_STRAP_SELF_TIMED = false ∧ src ≠ 0)) = true ∧
    (let s : State := st (boot .m2 [(F.GLB_STRAP_SELF_TIMED, 1)])
     let m : Master := 6
     let src : BitVec 2 := 3
     decide (s.dev.writes m.val F.TIM_CTRL.off = true ∧ src = 3)) = true ∧
    (let s : State := st (boot .m2 [(F.GLB_STRAP_SELF_TIMED, 1)])
     let m : Master := 6
     let src : BitVec 2 := 2
     decide (s.dev.writes m.val F.TIM_CTRL.off = true ∧ s.dev.mode = .m2 ∧
             (src = 0 ∨ (s.dev.on F.GLB_STRAP_SELF_TIMED = true ∧ src ≠ 3)))) = true := by
  decide +kernel

/-! ### The image that a load accepts -/

/-- The section table of `imgBytes`. -/
def imgEntries : List SecEntry :=
  [⟨0, 1, 576, 32, 1072046563, 1, 32⟩, ⟨1, 2, 640, 64, 63499111, 1, 64⟩, ⟨2, 3, 704, 128, 592029526, 1, 128⟩,
   ⟨3, 4, 832, 64, 1628748115, 1, 64⟩, ⟨4, 5, 896, 368, 1041440449, 23, 16⟩, ⟨5, 6, 1280, 16, 1114675946, 1, 16⟩,
   ⟨6, 7, 1344, 16, 1114675946, 1, 16⟩, ⟨7, 8, 1408, 0, 0, 0, 16⟩, ⟨8, 9, 1408, 2048, 1539790993, 128, 16⟩,
   ⟨9, 10, 3456, 128, 1751140105, 1, 128⟩]

/-- The image that `imgBytes` hold. -/
def imgRead : Image := readImage imgBytes imgEntries
/-- Its signature block. -/
def imgSig : List Byte := bytesAt imgBytes 3584 256
/-- The digest that its signature is over. -/
def imgDigest : List Byte := leBytes 64 8863811783752461297055251929149159192768073790028794662524564763808009459244452369742475345167719644488644901125089573537944873734134997472903009150279825
/-- The sections whose digest COMPAT holds as SHARED_DIGEST. -/
def imgShared : List Byte :=
  (secOf imgBytes imgEntries 4).1 ++ (secOf imgBytes imgEntries 5).1 ++ (secOf imgBytes imgEntries 8).1 ++ (secOf imgBytes imgEntries 9).1

theorem img_digest : shake256 (imgBytes.take 3584) 64 = imgDigest := by
  rw [shake256_parts 9 9 9 (a := 0xA36F0C25244C4155963B55148C316605E23FA66747D3901841CBA40E48BDB6108261AA29F71CE852E36A419EA86FF3AB19B95F95AFD951AFB2331385A48C1989CE0B2DE8968AA7A6905387CF2BD4C7B2836283222ACF6577B1633C38A88D2387EC267C62A315697B680E93835C73090270ADB1583332604704D00FC6B50DC050F7B88E7C9134590E5A5866EBC3FB04C7BFA536EBF5D0DA02E9F380C88A3C83487593603DA8EBAC9B253F55877AAD5CB1C59399F16161A6783588C6BC3A19E94B27BEA590CE63E916)
    (b := 0x12A07369EF45FD50B08288604E0F73153F286187464C67AE721AA1778EF600F53E28B3127F11E7ED85B469FFFE2A4CAA1B4F0C8C07777F797A55903F3ACAA49D78F99C074189A9F3AA1A21E45444F51B085B1962F7AC539E8C0241C3937E769904FFE43460ED47DBB98CC2B7B9F4E7D0F9B7D1FA7EA5406A1F9B94D5A22E232EF66ACD8256F2B38098EA06990F5006AFC764E8F7FDC8363E7403031347D2A7E64026281BF119EE191AF9BDA3D15BCCBC6DD9AC5A47E34B2F716A94F9D77C8C9275748120BA7E370A)
    (c := 0xD74C3A4D9DD527CD993C4899A0205FD9171D001975185C0379409D06F95FB9B657464F6589DD7289EAF5D26C191CA86C242142070482C2B6889ADE216568EA5C5765CEE9EDE5CF532B69F96D4F554ED58138B913CC1791E1F52C9036750A59E50804058469D6F3D810464D9FF8BD8A42E5660F581FAB970B505E2404F6317BA82BDAC213EBE09C0BA93D68D4FB501ECEF2AB92AC4C3F6551650B6950EDDD2D93D2A509D71EC92FD53D5885A19B52C5CC4D2177515E63A34A19331750F6559BCE0D864C2237D1A091)
    (by decide +kernel) (by decide +kernel) (by decide +kernel) (by decide +kernel)]
  decide +kernel

theorem img_shared : leNat ((shake256 imgShared 64).take 32) = 89803972738059614595740087944040132229420009947279263068642482393055066579010 := by
  rw [shake256_parts 7 6 6 (a := 0xD6FA4C890D6598EB11A69D17DE35886D41F2801725944D5F20957183AC8538A6626B87591841FFCEE7ADAFD8307B469F1C9330C51E7D0E845D245D6281A68F6EA0C650351E2BE93ABDE215D2FCEBF3968D24F73305EDB7E68F1019CB967835138FE983E59724452C8B6382BC453BC38DBD33C551444F607AFADC3207EE12337C82B40D291104E2E77F9019E11E0E52E009030F1A49E173E74E315B442115E43565101983BC2BC6E3532C9C9FD1ECE3D1907DA56570201CBCF5B3344AADE5886C05EE1DC9A696FE9F)
    (b := 0xB3F1B633E04040440CFE82FFD6159C4E59AF833505382189656936C94023F91CAF62965745120807306F9EEB6FECCDE54503F5091DC643EF1E3BE640B175AE9E5A8A4748D65112F20D4FCA690123A13CF228963B56C624998F0600563072787BAE0E44105B1C2B7A7E2D365649C2EFEAB559C61975521A588BF13E54FC10DDA03B39330B91486E3AF15E01D18C775B1887F25DAB3F94FD6BB546DB33085ADA47773B06930260D25083518A7FCE77D67971BD1C25DE4000E6776D2C75E5BD2A8780EB9ED6598978B9)
    (c := 0xA2499788DA8CE74239FE4FBB1143E66791979859B52188C73163FF0AD4C976D483385F23D96663E26E24255AFB4A33DF8C74136F7015C39BFBD2A57D6212734F5FE66C7847F959C91FCBA17FE59C9B0560C86C443ABADE4AE1D018D518321487F1BBA68A4771D32F00A42992DCD5B8C709E7ECBFAD8142445D76DFC8B798295299B70EF819EE1733DE6587DC4A663A0AD9C6256514582546EDC30A7D8C4F95B8103710176834C050C68B3F505C9C74BC5D5A1F687715CE8E880BA69187CEA0D084D8A32C6BA3E042)
    (by decide +kernel) (by decide +kernel) (by decide +kernel) (by decide +kernel)]
  decide +kernel

theorem deriveCompat_shared (l : List Byte) (es : List SecEntry) (st : List StageRec) : (deriveCompat l es st).shared =
    leNat ((shake256 ((secOf l es 4).1 ++ (secOf l es 5).1 ++ (secOf l es 8).1 ++ (secOf l es 9).1) 64).take 32) := rfl

theorem img_compat : readCompat (secOf imgBytes imgEntries 10).1 = deriveCompat imgBytes imgEntries imgRead.stages := by
  have hc : readCompat (secOf imgBytes imgEntries 10).1 =
      ⟨2253916194, 735951174, 89803972738059614595740087944040132229420009947279263068642482393055066579010, 1, 0⟩ := by decide +kernel
  have hi : (deriveCompat imgBytes imgEntries imgRead.stages).id = 2253916194 := by decide +kernel
  have ht : (deriveCompat imgBytes imgEntries imgRead.stages).tcamKey = 735951174 := by decide +kernel
  have hs : (deriveCompat imgBytes imgEntries imgRead.stages).shared =
      89803972738059614595740087944040132229420009947279263068642482393055066579010 := by
    rw [deriveCompat_shared, ← imgShared, img_shared]
  have hg : (deriveCompat imgBytes imgEntries imgRead.stages).ing = 1 := by decide +kernel
  have he : (deriveCompat imgBytes imgEntries imgRead.stages).egr = 0 := by decide +kernel
  rw [hc, ← hi, ← ht, ← hs, ← hg, ← he]

/-- No cross-check of a load into the live or the staged slot fails, with no live image. -/
theorem crossCause_of {l : List Byte} {es : List SecEntry} {im : Image} {target : Nat} (h1 : ¬im.builders.zipIdx.any (fun x => builderBad x.2 x.1) = true)
    (h2 : ¬im.states.any (stateBad im.states.length) = true) (h3 : ¬(im.stages.any (stageBad im) = true ∨ anyPair stagesClash im.stages = true))
    (h4 : ¬(im.schemas.any schemaBad = true ∨ anyPair schemasClash im.schemas = true))
    (h5 : ¬(im.fields.any fieldBad = true ∨ anyPair fieldsClash im.fields = true ∨ fmdWords (some im) > 16 ∨
      deviceFields.any (fun x => !im.fields.any fun f => f.id == x.id) = true))
    (h6 : ¬im.tm.any tmBad = true) (h7 : readCompat (secOf l es 10).1 = deriveCompat l es im.stages)
    (h8 : ¬portMapBad im.ports ((recordsOf 16 (secOf l es 9).1).map fun r => at_ r 0 1) = true) : crossCause l es im target none = none := by
  unfold crossCause
  rw [if_neg h1, if_neg h2, if_neg h3, if_neg h4, if_neg h5, if_neg h6, if_neg (by simp), if_neg (by simp [h7]), if_neg h8]
  split <;> rfl

/-- PORT_MAP with no port present is as R105 asks. -/
theorem portMap_absent {ports : List PortRec} {nums : List Nat} (h : ports.all (fun r => !r.present) = true)
    (hn : nums = List.range 128) : ¬portMapBad ports nums = true := by
  have hp : ∀ r ∈ ports, r.present = false := by simpa using h
  have h1 : ports.zipIdx.any (fun x => portBad x.2 x.1) = false := by
    refine List.any_eq_false.2 fun x hx => ?_
    simp [portBad, hp x.1 (List.fst_mem_of_mem_zipIdx hx)]
  have h2 : ∀ l : List PortRec, (∀ r ∈ l, r.present = false) →
      anyPair (fun (a b : PortRec) => a.present && b.present && a.octet == b.octet && a.mode != b.mode) l = false := by
    intro l hl
    induction l with
    | nil => rfl
    | cons a t ih => simp [anyPair, hl a (List.mem_cons_self ..), ih fun r hr => hl r (List.mem_cons_of_mem _ hr)]
  simp [portMapBad, hn, h1, h2 ports hp]

/-- Every check of R83 passes. -/
theorem checkImage_of {l : List Byte} {es : List SecEntry} {len n m target : Nat} {v : Bool} (h1 : headerCause l len v n m = 0)
    (h2 : (List.range (at_ l 20 2)).map (secEntry l) = es) (h3 : tableBad l (len - 256) es (256 + 32 * es.length) [] = none)
    (h4 : crcBad l es = none) (h5 : crossCause l es (readImage l es) target none = none) :
    checkImage l len v n m target none = .inr (readImage l es) := by
  simp [checkImage, h1, h2, h3, h4, h5]

theorem img_checked (target : Nat) : checkImage imgBytes 3840 false 2 1 target none = .inr imgRead :=
  checkImage_of (by decide +kernel) (by decide +kernel) (by decide +kernel) (by decide +kernel)
    (crossCause_of (by decide +kernel) (by decide +kernel) (by decide +kernel) (by decide +kernel) (by decide +kernel) (by decide +kernel)
      img_compat (portMap_absent (by decide +kernel) (by decide +kernel)))

theorem img_key_digest : BitVec.ofNat 512 (leNat (shake256 (bytesAt imgSig 24 57) 64)) = imgKey := by decide +kernel

theorem img_signature : edVerify 1 imageContext (bytesAt imgSig 24 57) imgDigest (bytesAt imgSig 88 114) = true :=
  edVerify_of (h := 110210243174525372801923372888419234140671067439337816697541677506907176054351365204318848701454773975948824618139327785258831884234651)
    (e := leBytes 57 229736436338548754535661887998231912910914859667123431499684308114661201569109507627385351006256697715164712374529170401262690918442526)
    (eq_some_of_coords (x := 694966997265447140190044180493071967321654528716003367730574683013350062248378750977306060534308432502051848904173379547261983043062792)
      (y := 573259983117814432920944109174086370479139918962756657625020474283028403427185966052420728002076117785214219620930484533839294389522906)
      (z := 1) (by decide +kernel))
    (eq_some_of_coords (x := 102382670309795755926197341361586115804952055540937135764627750702399714577757017753523589807891272480088857076113821004348712922346263)
      (y := 26903647416535270617373306504095513852700453898844749089846099676142411807297345453527146822085911938458762975594817613980973776612383)
      (z := 1) (by decide +kernel))
    (by decide +kernel) (by decide +kernel) (by decide +kernel) (by decide +kernel)

/-- The state that loads `imgBytes` into a target. -/
def imgState (target : Nat) : State :=
  st { boot .m2 [(F.IMG_MIN_SVN_SVN, 2), (F.CTL_FW_VERSION_VERSION, 1)] with
    img := { Img.reset with load := some ⟨target, 0, 3840, 6, none⟩ },
    sec := { Sec.reset with fuses := { Fuses.reset with imgKeys := [0, 0, 0, imgKey] } } }

/-- A bundle that passes every check and its signature, in slot A of the flash: a state and operands that meet the hypotheses of
BootCommandsComplete, part 1. -/
theorem witness_BootCommandsComplete_2 :
    let s : State := bootState
    let e : BitVec 3 := 0
    let b : BundleInfo := bootState.dev.tryBundle (0, 64, 512) false
    s.dev.mode = .m1 ∧ s.dev.rd F.SEC_BOOT_STATUS_PHASE < 4 ∧ s.dev.sec.fuses.ok = true ∧ s.dev.rd F.GLB_STRAP_FLASH_MODE < 2 ∧
    bitOn e 0 = false ∧ dirValid (s.dev.flashBytes 0 64) = true ∧
    ((dirSlots (s.dev.flashBytes 0 64)).map fun x => s.dev.tryBundle x (bitOn e (x.1 + 1))).find? (·.passed) = some b := by
  have hd : dirSlots (bootState.dev.flashBytes 0 64) = [(0, 64, 512)] := by decide +kernel
  have hb : bitOn (0 : BitVec 3) (0 + 1) = false := by decide
  have hp : (bootState.dev.tryBundle (0, 64, 512) false).passed = true := by
    rw [tryBundle_passed, show min 512 8388608 = 512 from rfl, bootState_bundle, bundle_passes]
    rfl
  refine ⟨by decide +kernel, by decide +kernel, by decide +kernel, by decide +kernel, by decide, by decide +kernel, ?_⟩
  simp only [hd, List.map_cons, List.map_nil, hb]
  rw [List.find?_cons_of_pos hp]

/-- The signature of the image in slot 3 passes. -/
theorem img_passes : sigCause imageContext imgSig (leBytes 64 imgRead.digest.toNat) [0, 0, 0, imgKey] 0 = 0 := by
  have hw : imgBytes.length - 256 = 3584 := by decide +kernel
  have hd : leBytes 64 imgRead.digest.toNat = imgDigest := by
    have h : imgRead.digest = BitVec.ofNat 512 (leNat (shake256 (imgBytes.take (imgBytes.length - 256)) 64)) := rfl
    rw [h, hw, img_digest]
    decide +kernel
  rw [hd]
  exact sigCause_of (by decide +kernel) (by decide +kernel) (by rw [img_key_digest]; decide +kernel) img_signature

/-- The bytes of `imgBytes` that a load reads. -/
theorem img_raw : bytesAt imgBytes 0 (min 3840 imageMax) = imgBytes := by decide +kernel

/-- An image that passes every check and its signature, signed in slot 3, loaded into the staged slot: a state and operands that meet the
hypotheses of ImageLoadCommandsComplete, part 7. -/
theorem witness_ImageLoadCommandsComplete_2 :
    let s : State := imgState 1
    let ld : LoadOp := ⟨1, 0, 3840, 6, none⟩
    let l : List Byte := imgBytes
    let im : Image := imgRead
    let raw := bytesAt (ld.streamed.getD l) 0 (min ld.len imageMax)
    s.dev.img.load = some ld ∧ ld.target = 1 ∧ (s.dev.streamEnds 1 0 (some raw)).1 = false ∧
    checkImage raw ld.len s.dev.sec.fuses.variantS (s.dev.rd F.IMG_MIN_SVN_SVN)
      (s.dev.rd F.CTL_FW_VERSION_VERSION) ld.target s.dev.liveImage = .inr im ∧
    sigCause imageContext (bytesAt raw (ld.len - 256) 256) (leBytes 64 im.digest.toNat)
      s.dev.sec.fuses.imgKeys (s.dev.sec.fuses.revoke.toNat >>> 2) = 0 := by
  have hv : (imgState 1).dev.sec.fuses.variantS = false := by decide +kernel
  have hn : (imgState 1).dev.rd F.IMG_MIN_SVN_SVN = 2 := by decide +kernel
  have hm : (imgState 1).dev.rd F.CTL_FW_VERSION_VERSION = 1 := by decide +kernel
  have hi : (imgState 1).dev.liveImage = none := by decide +kernel
  have hg : bytesAt imgBytes 3584 256 = imgSig := rfl
  refine ⟨rfl, rfl, by decide +kernel, ?_, ?_⟩
  · simp only [Option.getD_none, img_raw, hv, hn, hm, hi]
    exact img_checked 1
  · simp only [Option.getD_none, img_raw, Nat.reduceSub, hg]
    exact img_passes

/-- The same image loaded into the live slot in M2: a state and operands that meet the hypotheses of ImageLoadCommandsComplete, part 8. -/
theorem witness_ImageLoadCommandsComplete_4 :
    let s : State := imgState 0
    let ld : LoadOp := ⟨0, 0, 3840, 6, none⟩
    let l : List Byte := imgBytes
    let im : Image := imgRead
    let raw := bytesAt (ld.streamed.getD l) 0 (min ld.len imageMax)
    s.dev.img.load = some ld ∧ ld.target = 0 ∧ (s.dev.mode = .m1 ∨ s.dev.mode = .m2) ∧ (s.dev.streamEnds 1 0 (some raw)).1 = false ∧
    checkImage raw ld.len s.dev.sec.fuses.variantS (s.dev.rd F.IMG_MIN_SVN_SVN)
      (s.dev.rd F.CTL_FW_VERSION_VERSION) ld.target s.dev.liveImage = .inr im ∧
    sigCause imageContext (bytesAt raw (ld.len - 256) 256) (leBytes 64 im.digest.toNat)
      s.dev.sec.fuses.imgKeys (s.dev.sec.fuses.revoke.toNat >>> 2) = 0 := by
  have hv : (imgState 0).dev.sec.fuses.variantS = false := by decide +kernel
  have hn : (imgState 0).dev.rd F.IMG_MIN_SVN_SVN = 2 := by decide +kernel
  have hm : (imgState 0).dev.rd F.CTL_FW_VERSION_VERSION = 1 := by decide +kernel
  have hi : (imgState 0).dev.liveImage = none := by decide +kernel
  have hg : bytesAt imgBytes 3584 256 = imgSig := rfl
  refine ⟨rfl, rfl, .inr (by decide +kernel), by decide +kernel, ?_, ?_⟩
  · simp only [Option.getD_none, img_raw, hv, hn, hm, hi]
    exact img_checked 0
  · simp only [Option.getD_none, img_raw, Nat.reduceSub, hg]
    exact img_passes

/-- The same image in a device whose fuses hold no such key: a state and operands that meet the hypotheses of
ImageLoadCommandsComplete, part 9. -/
theorem witness_ImageLoadCommandsComplete_3 :
    let s : State := st { boot .m2 [(F.IMG_MIN_SVN_SVN, 2), (F.CTL_FW_VERSION_VERSION, 1)] with
      img := { Img.reset with load := some ⟨1, 0, 3840, 6, none⟩ } }
    let ld : LoadOp := ⟨1, 0, 3840, 6, none⟩
    let l : List Byte := imgBytes
    let im : Image := imgRead
    let raw := bytesAt (ld.streamed.getD l) 0 (min ld.len imageMax)
    s.dev.img.load = some ld ∧ s.dev.mode ≠ .m0 ∧ s.dev.mode ≠ .m11 ∧ (s.dev.streamEnds 1 0 (some raw)).1 = false ∧
    checkImage raw ld.len s.dev.sec.fuses.variantS (s.dev.rd F.IMG_MIN_SVN_SVN)
      (s.dev.rd F.CTL_FW_VERSION_VERSION) ld.target s.dev.liveImage = .inr im ∧
    sigCause imageContext (bytesAt raw (ld.len - 256) 256) (leBytes 64 im.digest.toNat)
      s.dev.sec.fuses.imgKeys (s.dev.sec.fuses.revoke.toNat >>> 2) ≠ 0 := by
  refine ⟨rfl, by decide +kernel, by decide +kernel, by decide +kernel, ?_, ?_⟩
  · simp only [Option.getD_none, img_raw]
    exact img_checked 1
  · have hg : bytesAt imgBytes 3584 256 = imgSig := rfl
    have h1 : ¬(bytesAt imgSig 0 4 ≠ [0x53, 0x4B, 0x53, 0x47] ∨ at_ imgSig 4 1 ≠ 1) := by decide +kernel
    have h2 : Fuses.reset.imgKeys[at_ imgSig 5 1]? ≠ some imgKey := by decide +kernel
    have h3 : (boot .m2 [(F.IMG_MIN_SVN_SVN, 2), (F.CTL_FW_VERSION_VERSION, 1)]).sec.fuses.imgKeys = Fuses.reset.imgKeys := by
      decide +kernel
    simp only [Option.getD_none, img_raw, Nat.reduceSub, hg, sigCause, if_neg h1, img_key_digest]
    rw [if_pos (Or.inr (by simpa [st, h3] using h2))]
    decide

/-- Boots that do not pass: a failed fuse sense, tamper, a strapped flash mode that is none, a flash that does not answer, a directory of no
bundle, a bundle that cannot be read and one whose key is not fused: states and operands that meet the hypotheses of BootCommandsComplete,
part 3, clause by clause. -/
def bootWith (ok : Bool) (strap : Nat) (flash : List Byte) : State :=
  st { boot .m1 [(F.SEC_BOOT_STATUS_PHASE, 3), (F.GLB_STRAP_FLASH_MODE, strap)] with
    sec := { Sec.reset with flash := flash.zipIdx.map fun x => (x.2, x.1), fuses := { Fuses.reset with ok := ok } } }

/-- A directory that names no bundle. -/
def emptyDir : List Byte :=
  let l := [0x56, 0x59, 0x46, 0x44, 1, 0] ++ List.replicate 54 0
  l ++ leBytes 4 (crc32c l)

/-- The bundles that a boot tries. -/
def triedAt (s : State) (e : BitVec 3) : List BundleInfo :=
  (dirSlots (s.dev.flashBytes 0 64)).map fun x => s.dev.tryBundle x (bitOn e (x.1 + 1))

theorem witness_BootCommandsComplete_3 :
    ((bootWith false 0 []).dev.mode = .m1 ∧ (bootWith false 0 []).dev.rd F.SEC_BOOT_STATUS_PHASE < 4 ∧
      (bootWith false 0 []).dev.sec.fuses.ok = false) ∧
    ((bootWith true 2 []).dev.sec.fuses.ok = true ∧ 2 ≤ (bootWith true 2 []).dev.rd F.GLB_STRAP_FLASH_MODE) ∧
    ((bootWith true 1 []).dev.rd F.GLB_STRAP_FLASH_MODE < 2 ∧ bitOn (7 : BitVec 3) 0 = true) ∧
    (dirValid ((bootWith true 0 emptyDir).dev.flashBytes 0 64) = true ∧ triedAt (bootWith true 0 emptyDir) 0 = []) ∧
    (dirValid ((bootWith true 0 bundleFlash).dev.flashBytes 0 64) = true ∧ bitOn (2 : BitVec 3) 0 = false ∧
      (triedAt (bootWith true 0 bundleFlash) 2).map (fun y => (y.passed, y.cause)) = [(false, 13)] ∧ untrusted 13 = false) ∧
    ((triedAt (bootWith true 0 bundleFlash) 0).map (fun y => (y.passed, y.cause)) = [(false, 7)] ∧ untrusted 7 = true) := by
  decide +kernel

/-! ### The statements about every step -/

/-- An empty queue. -/
theorem witness_StepRunsFrontCommand : (st (boot .m3 [])).pending = [] := rfl

/-- A state with bytes in host memory and in flash, and a write of a register in front. -/
theorem witness_StepKeepsInvariant :
    (let d : Dev := { boot .m3 [] with hostMem := [(7, some 1)], sec := { Sec.reset with flash := [(9, 1)] } }
     decide (Inv { State.reset with dev := d, pending := [.registerWrite 6 0x60 5] })) = true ∧
    ∀ s : State, ∃ t, step s = .next t :=
  ⟨by decide +kernel, step_next⟩

/-- A state with one command in front. -/
def front (m : Mode) (c : Instr) : State := { st (boot m []) with pending := [c] }

/-- The state after a step. -/
def stepped (s : State) : State :=
  match step s with
  | .next t => t
  | _ => s

theorem stepped_eq (s : State) : step s = .next (stepped s) := by
  obtain ⟨t, h⟩ := step_next s
  simp [stepped, h]

/-- Readings of the supply monitors, each inside its range. -/
def inRange : List Nat := [720, 735, 705, 720, 720, 720, 720, 840, 750, 750, 1200, 1050, 750, 1800, 800, 1710]

/-- PORST_N in Quarantine and in maintenance mode, and a release from reset. -/
theorem witness_QuarantineLeftByResetsAlone :
    ((front .m11 (.porstNAssert 20000)).dev.mode = .m11 ∧ (stepped (front .m11 (.porstNAssert 20000))).dev.mode ≠ .m11) ∧
    ((front .m10 (.porstNAssert 20000)).dev.mode = .m10 ∧ (stepped (front .m10 (.porstNAssert 20000))).dev.mode ≠ .m10 ∧
      (stepped (front .m10 (.porstNAssert 20000))).dev.mode ≠ .m11) ∧
    ((front .m0 (.resetRelease 0 false inRange)).dev.mode = .m0 ∧ (stepped (front .m0 (.resetRelease 0 false inRange))).dev.mode ≠ .m0) ∧
    (st (boot .m10 [])).dev.writes (6 : Master).val F.SEC_CTRL.off = true := by
  decide +kernel

/-- A low-half read by master 0 beside master 6, the other accesses, and a write of SEC_CTRL. -/
theorem witness_HalvesAreEachMastersOwn :
    ((6 : Master) ≠ 0 ∧ F.TIM_TOD_BASE.off < 0x20000000 ∧ F.TIM_TOD_BASE.off ≠ F.SEC_CTRL.off) ∧
    ∀ (i : Instr) (s : State), ∃ d : Dev, exec i s = .next { s with dev := d } :=
  ⟨by decide +kernel, exec_next⟩

/-- The device right after reset is read by the security core: the hypothesis of ResetState. -/
theorem witness_ResetState : State.reset.dev.reads (0 : Master).val F.GLB_ID.off = true := by decide +kernel

/-- What the frames presuppose, that a command answers a next state, holds of every command in every state. -/
theorem witness_frames (i : Instr) (s : State) : ∃ t, exec i s = .next t :=
  (exec_next i s).elim fun _ h => ⟨_, h⟩

end Sys2Proof.Tests
end

