-- ==== Sys2Proof/Proofs/Reset.lean ====
section
/-! PROOF. The state after reset. -/

namespace Sys2Proof.Machine

/-- Settles O55: every value is that of the state after reset itself, and a read of GLB_ID shows the ordering code's word whichever master
reads it. -/
theorem resetState : Obligations.ResetState := by
  unfold Obligations.ResetState
  refine ⟨rfl, rfl, by decide, fun m hm => ⟨_, rfl, rfl, ?_⟩, by decide, rfl, by decide, by decide, by decide, by decide, by decide, by decide,
    rfl, rfl, rfl, by decide⟩
  revert m
  decide

end Sys2Proof.Machine
end

