-- ==== Sys2Proof/Proofs/AcceptFrame.lean ====
section
/-! PROOF. The frame of the fabric and twin commands fails: a standby that takes an ACCEPT forgets its copied configuration. -/

namespace Sys2Proof.Machine

/-- A copy-control frame that carries ACCEPT (type 5, operation 2), with its CRC. -/
def acceptFrame : BitVec 4096 := BitVec.ofNat 4096 (5 + 2 * 2 ^ 128 + 16481743176067970612 * 2 ^ 4032)

/-- A standby that has asked for a copy, with its twin link up and QUE_PORT_CFG of port 0 written to 5. -/
def standbyAsking : Dev :=
  ((((({ State.reset.dev with mode := .m6 }).wr F.TWN_CTRL_EN 1).wr F.TWN_STATUS_LANES 1).wr F.TWN_STATUS_SUB 1).setReg
    (F.QUE_PORT_CFG.ix 0).off 5)

theorem frameGood_acceptFrame : frameGood acceptFrame = true := by decide +kernel

theorem resyncCtrlRx_acceptFrame : resyncCtrlRx acceptFrame standbyAsking = standbyAsking.takeAccept := by
  have hup : ¬ (standbyAsking.twinOn = false ∨ standbyAsking.ralinUp = false) := by decide +kernel
  have hgood : ¬ (frameGood acceptFrame = false ∨ 8 < frameType acceptFrame) := by
    rw [frameGood_acceptFrame]
    decide +kernel
  have htype : frameType acceptFrame = 5 := by decide +kernel
  have hop : byteField acceptFrame 16 1 = 2 := by decide +kernel
  rw [resyncCtrlRx, Dev.onFrame, if_neg hup, if_neg hgood, if_pos htype]
  simp only [hop]
  rfl

/-- Refutes O51: a standby that takes an ACCEPT forgets every copied register, those of the PIR, QUE and DCK windows among them, and the
frame of RESYNC_CTRL_RX names none of these windows. -/
theorem not_fabricAndTwinFrames : ¬ Obligations.FabricAndTwinFrames := by
  unfold Obligations.FabricAndTwinFrames
  rintro ⟨-, -, -, -, -, -, -, -, -, hframes, -⟩
  obtain ⟨-, -, -, -, -, hkeeps, -⟩ := hframes ⟨standbyAsking, []⟩ acceptFrame
  obtain ⟨-, -, hregs⟩ := hkeeps _ rfl
  have hsame := hregs (F.QUE_PORT_CFG.ix 0).off (show blockOf _ ∉ [3, 4, 6, 10, 12, 17] by decide)
  rw [resyncCtrlRx_acceptFrame] at hsame
  exact absurd hsame (by decide +kernel)

end Sys2Proof.Machine
end

