-- ==== Sys2Proof/Proofs/Scope.lean ====
section
/-! PROOF. What a step may change, as data: the scope of a step, and that a device is another one but for a scope. Every operation
of the model has its scope; a command's frame is the scope of what it runs. -/

namespace Sys2Proof.Machine

/-- What a step may change: parts of the device, whole block windows of registers, and single registers by their BAR0 offset. -/
structure Scope where
  parts : List Part
  wins : List Nat := []
  regs : List Nat := []

/-- May a register at the BAR0 offset change? -/
def Scope.has (S : Scope) (off : Nat) : Bool := S.wins.contains (blockOf off) || S.regs.contains off

/-- One scope lies within another. -/
def Scope.le (A B : Scope) : Bool :=
  A.parts.all (B.parts.contains ·) && A.wins.all (B.wins.contains ·) && A.regs.all B.has

/-- The device `e` is `d` but for what the scope lets change. -/
def Within (S : Scope) (d e : Dev) : Prop :=
  (∀ p, p ∉ S.parts → p.same d e) ∧ ∀ k : Nat, S.has (k % 0x20000000) = false → e.reg k = d.reg k

theorem Part.same_refl (p : Part) (d : Dev) : p.same d d := by cases p <;> rfl

theorem Part.same_trans {p : Part} {d e f : Dev} (h : p.same d e) (h' : p.same e f) : p.same d f := by
  cases p <;> exact Eq.trans h' h

theorem Scope.has_of_le {A B : Scope} {off : Nat} (h : A.le B) (ho : A.has off) : B.has off := by
  simp only [Scope.le, Scope.has, Bool.and_eq_true, List.all_eq_true, Bool.or_eq_true, List.contains_iff_mem] at h ho ⊢
  rcases ho with ho | ho
  · exact .inl (h.1.2 _ ho)
  · exact h.2 _ ho

theorem Scope.mem_of_le {A B : Scope} {p : Part} (h : A.le B) (hp : p ∈ A.parts) : p ∈ B.parts := by
  simp only [Scope.le, Bool.and_eq_true, List.all_eq_true, List.contains_iff_mem] at h
  exact h.1.1 _ hp

theorem Scope.parts_contains {A B : Scope} {p : Part} (h : A.le B) (hp : A.parts.contains p) : B.parts.contains p :=
  List.contains_iff_mem.2 (Scope.mem_of_le h (List.contains_iff_mem.1 hp))

theorem Scope.le_trans {A B C : Scope} (h : A.le B) (h' : B.le C) : A.le C := by
  simp only [Scope.le, Bool.and_eq_true, List.all_eq_true, List.contains_iff_mem] at h ⊢
  refine ⟨⟨fun p hp => Scope.mem_of_le h' (h.1.1 p hp), fun w hw => ?_⟩, fun x hx => Scope.has_of_le h' (h.2 x hx)⟩
  simp only [Scope.le, Bool.and_eq_true, List.all_eq_true, List.contains_iff_mem] at h'
  exact h'.1.2 w (h.1.2 w hw)

/-- A step that does nothing stays within every scope. -/
theorem Within.refl {S : Scope} {d : Dev} : Within S d d := ⟨fun p _ => p.same_refl d, fun _ _ => rfl⟩

theorem Within.trans {S : Scope} {a d e : Dev} (h : Within S a d) (h' : Within S d e) : Within S a e :=
  ⟨fun p hp => Part.same_trans (h.1 p hp) (h'.1 p hp), fun k hk => (h'.2 k hk).trans (h.2 k hk)⟩

theorem Within.symm {S : Scope} {a d : Dev} (h : Within S a d) : Within S d a := by
  refine ⟨fun p hp => ?_, fun k hk => (h.2 k hk).symm⟩
  have := h.1 p hp
  cases p <;> exact Eq.symm this

theorem Within.mono {A B : Scope} {a d : Dev} (h : Within A a d) (hS : A.le B) : Within B a d := by
  refine ⟨fun p hp => h.1 p fun hq => hp (Scope.mem_of_le hS hq), fun k hk => h.2 k ?_⟩
  by_contra hc
  simp only [Bool.not_eq_false] at hc
  simp [Scope.has_of_le hS hc] at hk

/-- A step of its own scope, after steps of a wider one. -/
theorem Within.lift {A S : Scope} {a d e : Dev} (ha : Within S a d) (hS : A.le S) (h : Within A d e) : Within S a e :=
  ha.trans (h.mono hS)

/-! ### The parts -/

/-- The device `d` with one part taken from `e`. -/
def Dev.take (p : Part) (d e : Dev) : Dev :=
  match p with
  | .mode => { d with mode := e.mode }
  | .latches => { d with latches := e.latches }
  | .stages => { d with stages := e.stages }
  | .lastRead => { d with lastRead := e.lastRead }
  | .lastAbort => { d with lastAbort := e.lastAbort }
  | .posted => { d with posted := e.posted }
  | .hostMem => { d with hostMem := e.hostMem }
  | .fresh => { d with fresh := e.fresh }
  | .tim => { d with tim := e.tim }
  | .img => { d with img := e.img }
  | .lpt => { d with lpt := e.lpt }
  | .pir => { d with pir := e.pir }
  | .tbl => { d with tbl := e.tbl }
  | .buf => { d with buf := e.buf }
  | .que => { d with que := e.que }
  | .shp => { d with shp := e.shp }
  | .fab => { d with fab := e.fab }
  | .dck => { d with dck := e.dck }
  | .twn => { d with twn := e.twn }
  | .ctl => { d with ctl := e.ctl }
  | .hst => { d with hst := e.hst }
  | .pwr => { d with pwr := e.pwr }
  | .sec => { d with sec := e.sec }
  | .dgn => { d with dgn := e.dgn }

section
variable {S : Scope} {a d : Dev}

/-- Taking one part leaves every other. -/
theorem Part.same_take {p q : Part} (h : q ≠ p) (e : Dev) : q.same d (Dev.take p d e) := by
  cases p <;> cases q <;> trivial

/-- A change of one part alone. -/
theorem Within.take (ha : Within S a d) (p : Part) (e : Dev) (hp : S.parts.contains p) : Within S a (Dev.take p d e) := by
  refine ha.trans ⟨fun q hq => ?_, fun k _ => by cases p <;> rfl⟩
  have hqp : q ≠ p := fun h => hq (h ▸ List.contains_iff_mem.1 hp)
  exact Part.same_take hqp e

theorem Within.set_mode {x} (ha : Within S a d) (hp : S.parts.contains .mode) : Within S a { d with mode := x } :=
  ha.take .mode { d with mode := x } hp
theorem Within.set_latches {x} (ha : Within S a d) (hp : S.parts.contains .latches) : Within S a { d with latches := x } :=
  ha.take .latches { d with latches := x } hp
theorem Within.set_stages {x} (ha : Within S a d) (hp : S.parts.contains .stages) : Within S a { d with stages := x } :=
  ha.take .stages { d with stages := x } hp
theorem Within.set_lastRead {x} (ha : Within S a d) (hp : S.parts.contains .lastRead) : Within S a { d with lastRead := x } :=
  ha.take .lastRead { d with lastRead := x } hp
theorem Within.set_lastAbort {x} (ha : Within S a d) (hp : S.parts.contains .lastAbort) : Within S a { d with lastAbort := x } :=
  ha.take .lastAbort { d with lastAbort := x } hp
theorem Within.set_posted {x} (ha : Within S a d) (hp : S.parts.contains .posted) : Within S a { d with posted := x } :=
  ha.take .posted { d with posted := x } hp
theorem Within.set_hostMem {x} (ha : Within S a d) (hp : S.parts.contains .hostMem) : Within S a { d with hostMem := x } :=
  ha.take .hostMem { d with hostMem := x } hp
theorem Within.set_fresh {x} (ha : Within S a d) (hp : S.parts.contains .fresh) : Within S a { d with fresh := x } :=
  ha.take .fresh { d with fresh := x } hp
theorem Within.set_tim {x} (ha : Within S a d) (hp : S.parts.contains .tim) : Within S a { d with tim := x } :=
  ha.take .tim { d with tim := x } hp
theorem Within.set_img {x} (ha : Within S a d) (hp : S.parts.contains .img) : Within S a { d with img := x } :=
  ha.take .img { d with img := x } hp
theorem Within.set_lpt {x} (ha : Within S a d) (hp : S.parts.contains .lpt) : Within S a { d with lpt := x } :=
  ha.take .lpt { d with lpt := x } hp
theorem Within.set_pir {x} (ha : Within S a d) (hp : S.parts.contains .pir) : Within S a { d with pir := x } :=
  ha.take .pir { d with pir := x } hp
theorem Within.set_tbl {x} (ha : Within S a d) (hp : S.parts.contains .tbl) : Within S a { d with tbl := x } :=
  ha.take .tbl { d with tbl := x } hp
theorem Within.set_buf {x} (ha : Within S a d) (hp : S.parts.contains .buf) : Within S a { d with buf := x } :=
  ha.take .buf { d with buf := x } hp
theorem Within.set_que {x} (ha : Within S a d) (hp : S.parts.contains .que) : Within S a { d with que := x } :=
  ha.take .que { d with que := x } hp
theorem Within.set_shp {x} (ha : Within S a d) (hp : S.parts.contains .shp) : Within S a { d with shp := x } :=
  ha.take .shp { d with shp := x } hp
theorem Within.set_fab {x} (ha : Within S a d) (hp : S.parts.contains .fab) : Within S a { d with fab := x } :=
  ha.take .fab { d with fab := x } hp
theorem Within.set_dck {x} (ha : Within S a d) (hp : S.parts.contains .dck) : Within S a { d with dck := x } :=
  ha.take .dck { d with dck := x } hp
theorem Within.set_twn {x} (ha : Within S a d) (hp : S.parts.contains .twn) : Within S a { d with twn := x } :=
  ha.take .twn { d with twn := x } hp
theorem Within.set_ctl {x} (ha : Within S a d) (hp : S.parts.contains .ctl) : Within S a { d with ctl := x } :=
  ha.take .ctl { d with ctl := x } hp
theorem Within.set_hst {x} (ha : Within S a d) (hp : S.parts.contains .hst) : Within S a { d with hst := x } :=
  ha.take .hst { d with hst := x } hp
theorem Within.set_pwr {x} (ha : Within S a d) (hp : S.parts.contains .pwr) : Within S a { d with pwr := x } :=
  ha.take .pwr { d with pwr := x } hp
theorem Within.set_sec {x} (ha : Within S a d) (hp : S.parts.contains .sec) : Within S a { d with sec := x } :=
  ha.take .sec { d with sec := x } hp
theorem Within.set_dgn {x} (ha : Within S a d) (hp : S.parts.contains .dgn) : Within S a { d with dgn := x } :=
  ha.take .dgn { d with dgn := x } hp

/-! ### Several parts at once -/

theorem Within.set_lastRead_lastAbort {x y} (ha : Within S a d) (h1 : S.parts.contains .lastRead) (h2 : S.parts.contains .lastAbort) :
    Within S a { d with lastRead := x, lastAbort := y } := Within.set_lastAbort (x := y) (Within.set_lastRead (x := x) ha h1) h2
theorem Within.set_img_tbl {x y} (ha : Within S a d) (h1 : S.parts.contains .img) (h2 : S.parts.contains .tbl) :
    Within S a { d with img := x, tbl := y } := Within.set_tbl (x := y) (Within.set_img (x := x) ha h1) h2
theorem Within.set_tim_fab {x y} (ha : Within S a d) (h1 : S.parts.contains .tim) (h2 : S.parts.contains .fab) :
    Within S a { d with tim := x, fab := y } := Within.set_fab (x := y) (Within.set_tim (x := x) ha h1) h2
theorem Within.set_lastRead_lastAbort_ctl {x y z} (ha : Within S a d) (h1 : S.parts.contains .lastRead)
  (h2 : S.parts.contains .lastAbort) (h3 : S.parts.contains .ctl) :
    Within S a { d with lastRead := x, lastAbort := y, ctl := z } := Within.set_ctl (x := z) (Within.set_lastAbort (x := y)
      (Within.set_lastRead (x := x) ha h1) h2) h3
theorem Within.set_posted_pwr {x y} (ha : Within S a d) (h1 : S.parts.contains .posted) (h2 : S.parts.contains .pwr) :
    Within S a { d with posted := x, pwr := y } := Within.set_pwr (x := y) (Within.set_posted (x := x) ha h1) h2
theorem Within.set_pir_que {x y} (ha : Within S a d) (h1 : S.parts.contains .pir) (h2 : S.parts.contains .que) :
    Within S a { d with pir := x, que := y } := Within.set_que (x := y) (Within.set_pir (x := x) ha h1) h2
theorem Within.set_pir_hst {x y} (ha : Within S a d) (h1 : S.parts.contains .pir) (h2 : S.parts.contains .hst) :
    Within S a { d with pir := x, hst := y } := Within.set_hst (x := y) (Within.set_pir (x := x) ha h1) h2
theorem Within.set_lpt_pir_que_hst {x y z w} (ha : Within S a d) (h1 : S.parts.contains .lpt) (h2 : S.parts.contains .pir)
  (h3 : S.parts.contains .que) (h4 : S.parts.contains .hst) :
    Within S a { d with lpt := x, pir := y, que := z, hst := w } := Within.set_hst (x := w) (Within.set_que (x := z) (Within.set_pir (x
      := y) (Within.set_lpt (x := x) ha h1) h2) h3) h4
theorem Within.set_fresh_tbl {x y} (ha : Within S a d) (h1 : S.parts.contains .fresh) (h2 : S.parts.contains .tbl) :
    Within S a { d with fresh := x, tbl := y } := Within.set_tbl (x := y) (Within.set_fresh (x := x) ha h1) h2
theorem Within.set_fresh_sec {x y} (ha : Within S a d) (h1 : S.parts.contains .fresh) (h2 : S.parts.contains .sec) :
    Within S a { d with fresh := x, sec := y } := Within.set_sec (x := y) (Within.set_fresh (x := x) ha h1) h2
theorem Within.set_fresh_pir {x y} (ha : Within S a d) (h1 : S.parts.contains .fresh) (h2 : S.parts.contains .pir) :
    Within S a { d with fresh := x, pir := y } := Within.set_pir (x := y) (Within.set_fresh (x := x) ha h1) h2

/-! ### Branches and pairs -/

theorem Within.ite {c : Prop} [Decidable c] {x y : Dev} (hx : Within S a x) (hy : Within S a y) : Within S a (if c then x else y) := by
  split
  · exact hx
  · exact hy

/-- A step that is made on a condition. -/
theorem Within.ite_step {c : Prop} [Decidable c] {x y : Dev} (hx : Within S a x) (hy : Within S a x → Within S a y) :
    Within S a (if c then y else x) := .ite (hy hx) hx

theorem Within.ite_of {c : Prop} [Decidable c] {x y : Dev} (hx : c → Within S a x) (hy : ¬ c → Within S a y) :
    Within S a (if c then x else y) := by
  split
  case isTrue h => exact hx h
  case isFalse h => exact hy h

theorem Within.snd {α : Type} {p : α × Dev} {x : α} {e : Dev} (he : p = (x, e)) (h : Within S a p.2) : Within S a e := by
  subst he; exact h

theorem Within.snd2 {α β : Type} {p : α × β × Dev} {x : α} {y : β} {e : Dev} (he : p = (x, y, e))
  (h : Within S a p.2.2) : Within S a e := by
  subst he; exact h

/-! ### The registers -/

theorem bits_lt {w : ℕ} (x : BitVec w) (hi lo : ℕ) : bits x hi lo < 2 ^ (hi + 1 - lo) := Nat.mod_lt _ (Nat.two_pow_pos _)

theorem Dev.rd_lt (d : Dev) (f : Fld) : d.rd f < 2 ^ f.w := Nat.mod_lt _ (Nat.two_pow_pos _)

/-- A register array of a block window may change: `n` copies from offset `off` up, at a stride. -/
def Scope.spans (S : Scope) (off st n : Nat) : Bool :=
  S.wins.contains (blockOf off) && blockOf off == blockOf (off + st * n) && (off + st * n).ble 0x1FFFFFFF

/-- The number of the window that an offset lies in, by the ends of the windows: they are numbered from `n` up. -/
def windowFrom : List Nat → Nat → Nat → Nat
  | [], n, _ => n
  | b :: t, n, off => if off < b then n else windowFrom t (n + 1) off

theorem le_windowFrom (l : List Nat) (n off : Nat) : n ≤ windowFrom l n off := by
  induction l generalizing n with
  | nil => exact Nat.le_refl n
  | cons b t ih =>
    unfold windowFrom
    split
    · exact Nat.le_refl n
    · exact Nat.le_of_succ_le (ih (n + 1))

theorem windowFrom_mono (l : List Nat) (n : Nat) {i j : Nat} (h : i ≤ j) : windowFrom l n i ≤ windowFrom l n j := by
  induction l generalizing n with
  | nil => exact Nat.le_refl n
  | cons b t ih =>
    unfold windowFrom
    split
    · split
      · exact Nat.le_refl n
      · exact Nat.le_of_succ_le (le_windowFrom t (n + 1) j)
    · rw [if_neg (by omega)]
      exact ih (n + 1)

theorem blockOf_eq (off : Nat) : blockOf off = windowFrom [0x1000000, 0x2000000, 0x4000000, 0x8000000, 0xA000000, 0xC000000, 0xD000000,
    0xE000000, 0x10000000, 0x11000000, 0x12000000, 0x13000000, 0x14000000, 0x15000000, 0x16000000, 0x17000000] 1 off := rfl

/-- A higher offset lies in no lower window. -/
theorem blockOf_mono {i j : Nat} (h : i ≤ j) : blockOf i ≤ blockOf j := by
  rw [blockOf_eq, blockOf_eq]
  exact windowFrom_mono _ 1 h

theorem blockOf_between {lo hi off n : Nat} (hlo : blockOf lo = n) (hhi : blockOf hi = n) (h1 : lo ≤ off)
  (h2 : off ≤ hi) : blockOf off = n :=
  Nat.le_antisymm (hhi ▸ blockOf_mono h2) (hlo ▸ blockOf_mono h1)

theorem Scope.has_of_spans {off st n i : Nat} (h : S.spans off st n) (hi : i < n) : S.has ((off + st * i) % 0x20000000) := by
  simp only [Scope.spans, Bool.and_eq_true, beq_iff_eq, Nat.ble_eq] at h
  have hle : st * i ≤ st * n := Nat.mul_le_mul_left _ hi.le
  rw [Nat.mod_eq_of_lt (by omega), Scope.has]
  have h1 := blockOf_mono (i := off) (j := off + st * i) (by omega)
  have h2 := blockOf_mono (i := off + st * i) (j := off + st * n) (by omega)
  simp only [show blockOf (off + st * i) = blockOf off by omega, h.1.1, Bool.true_or]

theorem has_ix {f : Fld} {n i : Nat} (hi : i < n) (h : S.spans f.off f.st n) : S.has ((f.ix i).off % 0x20000000) :=
  Scope.has_of_spans h hi
theorem has_port {f : Fld} {n i : Nat} (hi : i < n) (h : S.spans f.off 0x10000 n) : S.has ((f.port i).off % 0x20000000) :=
  Scope.has_of_spans h hi
theorem has_pier {f : Fld} {n i : Nat} (hi : i < n) (h : S.spans f.off 0x100000 n) : S.has ((f.pier i).off % 0x20000000) :=
  Scope.has_of_spans h hi
theorem has_item {f : Fld} {i : Nat} (h : S.has (f.off % 0x20000000)) : S.has ((f.item i).off % 0x20000000) := by
  rw [show (f.item i).off = f.off + 0x20000000 * i from rfl, Nat.add_mul_mod_self_left]; exact h

theorem has_add_item {k i : Nat} (h : S.has (k % 0x20000000)) : S.has ((k + 0x20000000 * i) % 0x20000000) := by
  rw [Nat.add_mul_mod_self_left]; exact h

/-- The registers of a block window, from one offset to another. -/
theorem Scope.has_of_between {lo hi k : Nat} (h : S.spans lo (hi - lo) 1) (h1 : lo ≤ k) (h2 : k ≤ hi) : S.has (k % 0x20000000) := by
  simp only [Scope.spans, Bool.and_eq_true, beq_iff_eq, Nat.ble_eq] at h
  rw [Nat.mod_eq_of_lt (by omega), Scope.has]
  have h3 := blockOf_mono h1
  have h4 := blockOf_mono (i := k) (j := lo + (hi - lo) * 1) (by omega)
  simp only [show blockOf k = blockOf lo by omega, h.1.1, Bool.true_or]

theorem has_ix_port {f : Fld} {n i p : ℕ} (hi : i < n) (hp : p < 128) (h : S.spans f.off (f.st * n + 0x800000) 1) :
    S.has (((f.ix i).port p).off % 0x20000000) := by
  have hle : f.st * i ≤ f.st * n := Nat.mul_le_mul_left _ hi.le
  refine Scope.has_of_between (lo := f.off) (hi := f.off + (f.st * n + 0x800000)) ?_ ?_ ?_
  · rwa [Nat.add_sub_cancel_left]
  all_goals simp only [Fld.port, Fld.ix]; omega

theorem Scope.has_reg {off : Nat} (h : off < 0x20000000) (hm : off ∈ S.regs) : S.has (off % 0x20000000) := by
  rw [Nat.mod_eq_of_lt h, Scope.has, List.contains_iff_mem.2 hm, Bool.or_true]

theorem has_reg_ix {f : Fld} {n i : Nat} (hi : i < n) (h : (f.off + f.st * n).ble 0x1FFFFFFF) (hm : (f.ix i).off ∈ S.regs) :
    S.has ((f.ix i).off % 0x20000000) := by
  refine Scope.has_reg ?_ hm
  have hle : f.st * i ≤ f.st * n := Nat.mul_le_mul_left _ hi.le
  have := Nat.le_of_ble_eq_true h
  simp only [Fld.ix]
  omega

theorem has_reg_port {f : Fld} {p : Nat} (hp : p < 128) (h : (f.off + 0x800000).ble 0x1FFFFFFF) (hm : (f.port p).off ∈ S.regs) :
    S.has ((f.port p).off % 0x20000000) := by
  refine Scope.has_reg ?_ hm
  have := Nat.le_of_ble_eq_true h
  simp only [Fld.port]
  omega

theorem has_reg_pier {f : Fld} {p : Nat} (hp : p < 17) (h : (f.off + 0x1100000).ble 0x1FFFFFFF) (hm : (f.pier p).off ∈ S.regs) :
    S.has ((f.pier p).off % 0x20000000) := by
  refine Scope.has_reg ?_ hm
  have := Nat.le_of_ble_eq_true h
  simp only [Fld.pier]
  omega

theorem has_suppFld {src c : Nat} (hc : c < 6) (h : S.spans F.HST_SUPP_CNT.off F.HST_SUPP_CNT.st 6) :
    S.has ((suppFld src c).off % 0x20000000) := has_item (has_ix hc h)

theorem has_groupDrop {r g : Nat} (hr : r < 8) (h : S.spans F.DCK_MC_DROP.off F.DCK_MC_DROP.st 8) :
    S.has ((groupDrop r g).off % 0x20000000) := has_item (has_ix hr h)

theorem Within.setReg {k : Nat} {v : BitVec 64} (ha : Within S a d) (hk : S.has (k % 0x20000000)) : Within S a (d.setReg k v) := by
  refine ha.trans ⟨fun p _ => by cases p <;> rfl, fun j hj => Dev.reg_setReg_ne d v fun h => ?_⟩
  subst h; simp [hk] at hj

theorem Within.wr {f : Fld} {x : Nat} (ha : Within S a d) (hk : S.has (f.off % 0x20000000)) : Within S a (d.wr f x) :=
  ha.setReg hk
theorem Within.bumpN {f : Fld} {n : Nat} (ha : Within S a d) (hk : S.has (f.off % 0x20000000)) : Within S a (d.bumpN f n) :=
  ha.wr hk
theorem Within.bump {f : Fld} (ha : Within S a d) (hk : S.has (f.off % 0x20000000)) : Within S a (d.bump f) := ha.bumpN hk
theorem Within.wrIx {f : Fld} {n i x : Nat} (ha : Within S a d) (h : S.spans f.off f.st n) : Within S a (d.wrIx f n i x) := by
  obtain ⟨hi, e⟩ | ⟨_, e⟩ := d.wrIx_cases f n i x <;> rw [e]
  · exact ha.wr (has_ix hi h)
  · exact ha

/-! ### Conditions and runs -/

theorem Within.when {c : Bool} {f : Dev → Dev} (ha : Within S a d) (hf : c = true → Within S a (f d)) : Within S a (d.when c f) := by
  cases c
  · exact ha
  · exact hf rfl

theorem Within.each {α : Type} {l : List α} {f : α → Dev → Dev} (ha : Within S a d)
    (hf : ∀ x ∈ l, ∀ e, Within S a e → Within S a (f x e)) : Within S a (d.each l f) := by
  unfold Dev.each
  induction l generalizing d with
  | nil => exact ha
  | cons x t ih => exact ih (hf x (by simp) d ha) fun y hy => hf y (by simp [hy])

end

/-! ### Frames -/

/-- A fold that carries a result beside the device. -/
theorem Within.foldl_snd {α β : Type} {l : List α} {f : β × Dev → α → β × Dev} {x : β × Dev} (hx : Within S a x.2)
    (hf : ∀ u ∈ l, ∀ x, Within S a x.2 → Within S a (f x u).2) : Within S a (l.foldl f x).2 := by
  induction l generalizing x with
  | nil => exact hx
  | cons u t ih => exact ih (hf u (.head t) x hx) fun v hv => hf v (.tail u hv)

theorem SMap.get_filter {α : Type} (dflt : ℕ → α) (m : SMap α) (P : ℕ → Bool) {k : ℕ} (h : P k = true) :
    SMap.get dflt (m.filter fun r => P r.1) k = SMap.get dflt m k := by
  induction m with
  | nil => rfl
  | cons p t ih =>
    obtain ⟨j, w⟩ := p
    by_cases hj : P j = true
    · simp only [List.filter_cons, hj, if_true, SMap.get, ih]
    · have hjk : j ≠ k := fun e => hj (e ▸ h)
      simpa [List.filter_cons, hj, SMap.get, hjk] using ih

/-- Registers are forgotten in a scope that lets them change. -/
theorem Within.filter_regs {P : ℕ → Bool} (ha : Within S a d) (hP : ∀ k, S.has (k % 0x20000000) = false → P k = true) :
    Within S a { d with regs := d.regs.filter fun r => P r.1 } :=
  ha.trans ⟨fun p _ => by cases p <;> rfl, fun k hk => SMap.get_filter regReset d.regs P (hP k hk)⟩

theorem Keeps.of_within {i : Instr} {s : State} {e : Dev} {S : Scope} {l : List Part} {may : Nat → Prop} (h : exec i s = .next
  { s with dev := e })
    (hw : Within S s.dev e) (hl : ∀ p ∈ S.parts, p ∈ l) (hm : ∀ off, S.has off = true → may off) : Keeps i s l may := by
  intro t ht
  cases exec_next_unique ht h
  refine ⟨rfl, fun p hp => hw.1 p fun hq => hp (hl p hq), fun k hk => hw.2 k ?_⟩
  cases hc : S.has (k % 0x20000000)
  · rfl
  · exact absurd (hm _ hc) hk

theorem Keeps.of_windows {i : Instr} {s : State} {e : Dev} {l : List Part} {ws : List Nat} (h : exec i s = .next { s with dev := e })
    (hw : Within ⟨l, ws, []⟩ s.dev e) : Keeps i s l (windows ws) :=
  Keeps.of_within h hw (fun _ hp => hp) fun off ho => by simpa [Scope.has, windows] using ho

theorem Keeps.of_regs {i : Instr} {s : State} {e : Dev} {l : List Part} {rs : List Nat} (h : exec i s = .next { s with dev := e })
    (hw : Within ⟨l, [], rs⟩ s.dev e) : Keeps i s l (regsAt rs) :=
  Keeps.of_within h hw (fun _ hp => hp) fun off ho => by simpa [Scope.has, regsAt] using ho

theorem Keeps.of_none {i : Instr} {s : State} {e : Dev} {l : List Part} (h : exec i s = .next { s with dev := e })
    (hw : Within ⟨l, [], []⟩ s.dev e) : Keeps i s l noRegs :=
  Keeps.of_within h hw (fun _ hp => hp) fun off ho => by simp [Scope.has] at ho

end Sys2Proof.Machine
end

