-- ==== Sys2Proof/Proofs/Registers.lean ====
section
/-! PROOF. The registers that the bus finds at an offset, and the scopes that hold them (R25 to R27). -/

namespace Sys2Proof.Machine

/-! ### The register at an offset -/

/-- The block windows (R25): the first offset, the end, and the rows. -/
def windowRows : List (ℕ × ℕ × List RegDesc) :=
  [(0, 0x1000000, regsGlb), (0x1000000, 0x2000000, regsTim), (0x2000000, 0x4000000, regsImg), (0x4000000, 0x4800000, regsLpt),
    (0x8000000, 0x9100000, regsPir), (0xA000000, 0xC000000, regsTbl), (0xC000000, 0xD000000, regsBuf), (0xD000000, 0xE000000, regsQue),
    (0xE000000, 0x10000000, regsShp), (0x10000000, 0x11000000, regsFab), (0x11000000, 0x12000000, regsDck),
    (0x12000000, 0x13000000, regsTwn), (0x13000000, 0x14000000, regsCtl), (0x14000000, 0x15000000, regsHst),
    (0x15000000, 0x16000000, regsPwr), (0x16000000, 0x17000000, regsSec), (0x17000000, 0x18000000, regsDgn)]

theorem RegDesc.of_hit {r : RegDesc} {o : ℕ} {h : RegHit} (e : r.hit o = some h) :
    h.desc = r ∧ h.idx < r.n ∧ r.off + (if h.high then 4 else 0) ≤ o ∧ (r.n = 1 → r.n2 = 1 → r.wide = false → o = r.off) := by
  unfold RegDesc.hit at e
  split at e
  · cases e
  · dsimp only at e
    generalize (if r.st = 0 then 0 else (o - r.off) / r.st) = i at e
    generalize (if r.st2 = 0 then 0 else (o - r.off - i * r.st) / r.st2) = j at e
    split_ifs at e with hi hk hw <;> cases e
    · refine ⟨rfl, hi.1, by simp only [Bool.false_eq_true, if_false]; omega, fun h1 h2 _ => ?_⟩
      obtain rfl : i = 0 := by omega
      obtain rfl : j = 0 := by omega
      omega
    · exact ⟨rfl, hi.1, by simp only [if_true]; omega, fun _ _ h => absurd hw.2 (by simp [h])⟩

theorem of_findRow {l : List RegDesc} {o : ℕ} {h : RegHit} (e : findRow l o = some h) :
    h.desc ∈ l ∧ h.idx < h.desc.n ∧ h.desc.off + (if h.high then 4 else 0) ≤ o ∧
      (h.desc.n = 1 → h.desc.n2 = 1 → h.desc.wide = false → o = h.desc.off) := by
  induction l with
  | nil => cases e
  | cons r t ih =>
    unfold findRow at e
    split at e
    · rename_i x hx
      cases e
      obtain ⟨hd, hi, ho⟩ := RegDesc.of_hit hx
      rw [hd]
      exact ⟨.head t, hi, ho⟩
    · obtain ⟨hd, hi, ho⟩ := ih e
      exact ⟨.tail r hd, hi, ho⟩

/-- Where a register that is found lies: in a window, in one of its rows, at a copy the row has. -/
def FoundIn (off : ℕ) (h : RegHit) (w : ℕ × ℕ × List RegDesc) : Prop :=
  w.1 ≤ off ∧ off < w.2.1 ∧ h.desc ∈ w.2.2 ∧ h.idx < h.desc.n ∧ w.1 + h.desc.off + (if h.high then 4 else 0) ≤ off ∧
    (h.desc.n = 1 → h.desc.n2 = 1 → h.desc.wide = false → w.1 ≠ 0x4000000 → w.1 ≠ 0x8000000 → off = w.1 + h.desc.off)

theorem foundIn_of_findRow {off o lo hi : ℕ} {rows : List RegDesc} {h : RegHit} (h1 : lo + o ≤ off) (h2 : off < hi)
    (e : findRow rows o = some h) (h3 : lo ≠ 0x4000000 → lo ≠ 0x8000000 → off = lo + o) : FoundIn off h (lo, hi, rows) := by
  obtain ⟨hd, hi, ho, he⟩ := of_findRow e
  exact ⟨by dsimp only; omega, h2, hd, hi, by dsimp only; omega, fun a b c x y => by rw [← he a b c]; exact h3 x y⟩

/-- One branch of the search: the offset is looked for in the rows of its window, or past the window's end. -/
theorem exists_foundIn_of_ite {off b o : ℕ} {rows : List RegDesc} {h : RegHit} {x y : Option RegHit} (lo : ℕ)
    (hx : x = some h → findRow rows o = some h) (hw : (lo, b, rows) ∈ windowRows) (hlo : lo + o ≤ off)
    (ho : lo ≠ 0x4000000 → lo ≠ 0x8000000 → off = lo + o) (e : (if off < b then x else y) = some h)
    (hy : b ≤ off → y = some h → ∃ w ∈ windowRows, FoundIn off h w) : ∃ w ∈ windowRows, FoundIn off h w := by
  by_cases hb : off < b
  · exact ⟨_, hw, foundIn_of_findRow hlo hb (hx ((if_pos hb).symm.trans e)) ho⟩
  · exact hy (Nat.le_of_not_lt hb) ((if_neg hb).symm.trans e)

theorem of_findReg {off : ℕ} {h : RegHit} (e : findReg off = some h) : ∃ w ∈ windowRows, FoundIn off h w := by
  unfold findReg at e
  refine exists_foundIn_of_ite 0 id (by simp [windowRows]) (by omega) (by omega) e fun hge e => ?_
  refine exists_foundIn_of_ite 0x1000000 id (by simp [windowRows]) (by omega) (by omega) e fun hge e => ?_
  refine exists_foundIn_of_ite 0x2000000 id (by simp [windowRows]) (by omega) (by omega) e fun hge e => ?_
  refine exists_foundIn_of_ite 0x4000000 (fun e => (Option.ite_none_left_eq_some.1 e).2) (by simp [windowRows]) (by omega) (by omega) e
    fun hge e => ?_
  obtain ⟨hge, e⟩ := Option.ite_none_left_eq_some.1 e
  refine exists_foundIn_of_ite 0x8000000 id (by simp [windowRows]) (by omega) (by omega) e fun hge e => ?_
  obtain ⟨hge, e⟩ := Option.ite_none_left_eq_some.1 e
  refine exists_foundIn_of_ite 0xA000000 id (by simp [windowRows]) (by omega) (by omega) e fun hge e => ?_
  refine exists_foundIn_of_ite 0xC000000 id (by simp [windowRows]) (by omega) (by omega) e fun hge e => ?_
  refine exists_foundIn_of_ite 0xD000000 id (by simp [windowRows]) (by omega) (by omega) e fun hge e => ?_
  refine exists_foundIn_of_ite 0xE000000 id (by simp [windowRows]) (by omega) (by omega) e fun hge e => ?_
  refine exists_foundIn_of_ite 0x10000000 id (by simp [windowRows]) (by omega) (by omega) e fun hge e => ?_
  refine exists_foundIn_of_ite 0x11000000 id (by simp [windowRows]) (by omega) (by omega) e fun hge e => ?_
  refine exists_foundIn_of_ite 0x12000000 id (by simp [windowRows]) (by omega) (by omega) e fun hge e => ?_
  refine exists_foundIn_of_ite 0x13000000 id (by simp [windowRows]) (by omega) (by omega) e fun hge e => ?_
  refine exists_foundIn_of_ite 0x14000000 id (by simp [windowRows]) (by omega) (by omega) e fun hge e => ?_
  refine exists_foundIn_of_ite 0x15000000 id (by simp [windowRows]) (by omega) (by omega) e fun hge e => ?_
  refine exists_foundIn_of_ite 0x16000000 id (by simp [windowRows]) (by omega) (by omega) e fun hge e => ?_
  refine exists_foundIn_of_ite 0x17000000 id (by simp [windowRows]) (by omega) (by omega) e fun hge e => ?_
  cases e

/-- The window that an offset of a window's rows lies in is that window. -/
theorem blockWindow_fst {off : ℕ} {w : ℕ × ℕ × List RegDesc} (hw : w ∈ windowRows) (h1 : w.1 ≤ off) (h2 : off < w.2.1) :
    (blockWindow off).1 = w.1 := by
  have h : ∀ w ∈ windowRows.map fun w => (w.1, w.2.1), w.1 ≤ off → off < w.2 → (blockWindow off).1 = w.1 := by
    simp only [windowRows, List.map_cons, List.map_nil, List.forall_mem_cons, List.not_mem_nil, false_imp_iff, implies_true, and_true]
    refine ⟨?_, ?_, ?_, ?_, ?_, ?_, ?_, ?_, ?_, ?_, ?_, ?_, ?_, ?_, ?_, ?_, ?_⟩ <;> intro h1 h2 <;>
      simp (disch := omega) only [blockWindow, if_pos, if_neg] <;> omega
  exact h _ (List.mem_map_of_mem hw) h1 h2

/-- What is known of the register at an offset. -/
theorem of_regAt {off : ℕ} {r : RegAt} (e : regAt off = some r) : ∃ w ∈ windowRows, w.1 ≤ r.row ∧ r.row ≤ r.off ∧ r.off ≤ off ∧ off <
  w.2.1 ∧
    r.desc ∈ w.2.2 ∧ r.row = w.1 + r.desc.off ∧ r.idx < r.desc.n ∧
    (r.desc.n = 1 → r.desc.n2 = 1 → r.desc.wide = false → w.1 ≠ 0x4000000 → w.1 ≠ 0x8000000 → off = r.row) := by
  unfold regAt at e
  split at e
  · rename_i h hh
    cases e
    obtain ⟨w, hw, h1, h2, h3, h4, h5, h6⟩ := of_findReg hh
    refine ⟨w, hw, ?_⟩
    simp only [blockWindow_fst hw h1 h2]
    refine ⟨Nat.le_add_right .., ?_, ?_, h2, h3, trivial, h4, h6⟩ <;> split at h5 <;> rename_i hh <;> simp only [hh] <;> simp <;> omega
  · cases e

/-- A window of rows lies in one block window. -/
theorem blockOf_windowRows {off o : ℕ} {w : ℕ × ℕ × List RegDesc} (hw : w ∈ windowRows) (h1 : w.1 ≤ o) (h2 : o ≤ off) (h3 : off < w.2.1) :
    blockOf o = blockOf off := by
  have h : ∀ w ∈ windowRows, blockOf w.1 = blockOf (w.2.1 - 1) := by decide
  have h4 := blockOf_mono h1
  have h5 := blockOf_mono h2
  have h6 := blockOf_mono (i := off) (j := w.2.1 - 1) (by omega)
  have h7 := h w hw
  omega

theorem blockOf_row {off : ℕ} {r : RegAt} (e : regAt off = some r) : blockOf r.row = blockOf off := by
  obtain ⟨w, hw, h1, h2, h3, h4, _⟩ := of_regAt e
  exact blockOf_windowRows hw h1 (h2.trans h3) h4

theorem blockOf_off {off : ℕ} {r : RegAt} (e : regAt off = some r) : blockOf r.off = blockOf off := by
  obtain ⟨w, hw, h1, h2, h3, h4, _⟩ := of_regAt e
  exact blockOf_windowRows hw (h1.trans h2) h3 h4

theorem off_lt {off : ℕ} {r : RegAt} (e : regAt off = some r) : r.off < 0x18000000 := by
  obtain ⟨w, hw, _, _, h3, h4, _⟩ := of_regAt e
  have : ∀ w ∈ windowRows, w.2.1 ≤ 0x18000000 := by decide
  have := this w hw
  omega

theorem row_lt {off : ℕ} {r : RegAt} (e : regAt off = some r) : r.row < 0x18000000 := by
  obtain ⟨w, hw, _, h2, _⟩ := of_regAt e
  exact h2.trans_lt (off_lt e)

/-- Has every row at the offset at most `n` copies? -/
def rowCopies (row n : ℕ) : Bool := windowRows.all fun w => w.2.2.all fun d => w.1 + d.off != row || d.n.ble n

theorem idx_lt {off : ℕ} {r : RegAt} {row n : ℕ} (e : regAt off = some r) (h : r.row = row) (hn : rowCopies row n) : r.idx < n := by
  obtain ⟨w, hw, _, _, _, _, hd, hr, hi, _⟩ := of_regAt e
  have := List.all_eq_true.1 (List.all_eq_true.1 hn w hw) r.desc hd
  simp only [Bool.or_eq_true, bne_iff_ne, Nat.ble_eq] at this
  omega

/-- Is every row at the offset a single 32-bit register, of no port and no pier? -/
def rowSingle (row : ℕ) : Bool := windowRows.all fun w => w.2.2.all fun d =>
  w.1 + d.off != row || (d.n == 1 && d.n2 == 1 && !d.wide && w.1 != 0x4000000 && w.1 != 0x8000000)

theorem off_of_rowSingle {off : ℕ} {r : RegAt} {row : ℕ} (e : regAt off = some r) (h : r.row = row) (hs : rowSingle row) : off = row := by
  obtain ⟨w, hw, _, _, _, _, hd, hr, _, ho⟩ := of_regAt e
  have := List.all_eq_true.1 (List.all_eq_true.1 hs w hw) r.desc hd
  simp only [Bool.or_eq_true, bne_iff_ne, Bool.and_eq_true, beq_iff_eq, Bool.not_eq_true'] at this
  rcases this with hne | ⟨⟨⟨⟨h1, h2⟩, h3⟩, h4⟩, h5⟩
  · omega
  · rw [ho h1 h2 h3 h4 h5, h]

/-- A register of a block window that the scope lets change. -/
theorem has_regAt {S : Scope} {off : ℕ} {r : RegAt} (e : regAt off = some r) (h : S.wins.contains (blockOf off)) :
    S.has (r.off % 0x20000000) := by
  have := off_lt e
  rw [Nat.mod_eq_of_lt (by omega), Scope.has, blockOf_off e, h, Bool.true_or]

theorem range_of_blockOf_four {off : ℕ} (h : blockOf off = 4) : 0x4000000 ≤ off ∧ off < 0x8000000 := by
  have h1 := fun h0 => blockOf_mono (i := off) (j := 0x3FFFFFF) h0
  have h2 := fun h0 => blockOf_mono (i := 0x8000000) (j := off) h0
  simp only [show blockOf 0x3FFFFFF = 3 from rfl, show blockOf 0x8000000 = 5 from rfl, h] at h1 h2
  omega

theorem range_of_blockOf_five {off : ℕ} (h : blockOf off = 5) : 0x8000000 ≤ off ∧ off < 0xA000000 := by
  have h1 := fun h0 => blockOf_mono (i := off) (j := 0x7FFFFFF) h0
  have h2 := fun h0 => blockOf_mono (i := 0xA000000) (j := off) h0
  simp only [show blockOf 0x7FFFFFF = 4 from rfl, show blockOf 0xA000000 = 6 from rfl, h] at h1 h2
  omega

theorem win_of_regAt {off : ℕ} {r : RegAt} (e : regAt off = some r) : r.win = (blockWindow off).2 := by
  unfold regAt at e
  split at e <;> cases e
  rfl

/-- A register of the LPT window is one of a port. -/
theorem win_lt_port {off : ℕ} {r : RegAt} (e : regAt off = some r) (h : blockOf off = 4) : r.win < 128 := by
  obtain ⟨h1, h2⟩ := range_of_blockOf_four h
  rw [win_of_regAt e]
  simp (disch := omega) only [blockWindow, if_pos, if_neg]
  obtain ⟨w, hw, h3, h4, h5, h6, _⟩ := of_regAt e
  simp only [windowRows, List.mem_cons, List.not_mem_nil, or_false] at hw
  rcases hw with rfl | rfl | rfl | rfl | rfl | rfl | rfl | rfl | rfl | rfl | rfl | rfl | rfl | rfl | rfl | rfl | rfl <;>
    dsimp only at h3 h6 <;> omega

/-- A register of the PIR window is one of a pier. -/
theorem win_lt_pier {off : ℕ} {r : RegAt} (e : regAt off = some r) (h : blockOf off = 5) : r.win < 17 := by
  obtain ⟨h1, h2⟩ := range_of_blockOf_five h
  rw [win_of_regAt e]
  simp (disch := omega) only [blockWindow, if_pos, if_neg]
  obtain ⟨w, hw, h3, h4, h5, h6, _⟩ := of_regAt e
  simp only [windowRows, List.mem_cons, List.not_mem_nil, or_false] at hw
  rcases hw with rfl | rfl | rfl | rfl | rfl | rfl | rfl | rfl | rfl | rfl | rfl | rfl | rfl | rfl | rfl | rfl | rfl <;>
    dsimp only at h3 h6 <;> omega

end Sys2Proof.Machine
end

