-- ==== Sys2Proof/Proofs/FramesEvents.lean ====
section
/-! PROOF. What the model's functions may change: the operations, the modes, the control complex and the events.
Each has the least scope it needs, and runs within any wider one. -/

namespace Sys2Proof.Machine

variable {S : Scope} {a : Dev}

theorem Stroke.pop_pier (st : Stroke) (id inst : ℕ) : (st.pop id inst).pier = st.pier := by
  unfold Stroke.pop
  split <;> rfl

theorem Stroke.decTtl_pier (st : Stroke) (imm : ℕ) : (st.decTtl imm).pier = st.pier := by
  unfold Stroke.decTtl
  split
  · rfl
  · dsimp only
    split_ifs <;> rfl

theorem Stroke.setHdr_pier (st : Stroke) (id inst k n v : ℕ) : (st.setHdr id inst k n v).pier = st.pier := by
  unfold Stroke.setHdr
  split <;> rfl

theorem histBin_lt (v : ℕ) : histBin v < 16 := by
  unfold histBin
  split <;> omega

theorem lt_of_mem_octetPorts {d : Dev} {o p : ℕ} (h : p ∈ d.octetPorts o) : p < 128 :=
  List.mem_range.1 (List.mem_of_mem_filter h)

theorem lt_of_mem_runningAt {d : Dev} {point seg u : Nat} (h : u ∈ d.runningAt point seg) : u < 8 :=
  List.mem_range.1 (List.mem_of_mem_filter h)

/-- What a write of a 32-bit register of a block may change: no half of a 64-bit one is staged. -/
def blockScope (b : ℕ) : Scope := ⟨[.lastAbort, .posted] ++ (writeFrame b).1, (writeFrame b).2, []⟩

theorem has_blockScope {off : ℕ} {r : RegAt} {b : ℕ} (e : regAt off = some r) (hb : blockOf off = b) (h : (writeFrame b).2.contains b) :
    (blockScope b).has (r.off % 0x20000000) := has_regAt e (hb.symm ▸ h)

theorem has_regKey {d : Dev} {r : RegAt} (h : S.has (r.off % 0x20000000)) : S.has (d.regKey r % 0x20000000) := by
  unfold Dev.regKey
  split
  · exact has_add_item h
  · dsimp only
    split
    · exact has_add_item h
    · exact h

theorem lt_of_mem_linksUp {d : Dev} {i : ℕ} (h : i ∈ d.linksUp) : i < 40 :=
  List.mem_range.1 (List.mem_of_mem_filter h)

theorem range_of_tblConfig {off : ℕ} (h : tblConfig off = true) : 0xA000000 ≤ off ∧ off < 0xC000000 := by
  simp only [tblConfig, Bool.or_eq_true, Bool.and_eq_true, beq_iff_eq, decide_eq_true_eq] at h
  simp only [F.TBL_LEARN_CFG_EN, F.TBL_TAE_CFG_MAX_MOVES, F.TBL_AGE_CFG_EN, F.TBL_REHASH_BASE_BASE, F.TBL_REHASH_CAP_CAPACITY,
    F.TBL_REHASH_SEED, F.TBL_REHASH_PEND_PEND] at h
  omega

theorem has_of_copiedReg {k : ℕ} (h : copiedReg k = true) : Scope.has ⟨[], [2, 3, 5, 6, 8, 11], []⟩ (k % 0x20000000) := by
  have hb : ∀ {lo hi : ℕ}, Scope.spans ⟨[], [2, 3, 5, 6, 8, 11], []⟩ lo (hi - lo) 1 → lo ≤ k % 0x20000000 → k % 0x20000000 ≤ hi →
      Scope.has ⟨[], [2, 3, 5, 6, 8, 11], []⟩ (k % 0x20000000) := fun hs h1 h2 => by
    have := Scope.has_of_between hs h1 h2
    rwa [Nat.mod_mod] at this
  simp only [copiedReg, Bool.or_eq_true, Bool.and_eq_true, decide_eq_true_eq] at h
  rcases h with (h | h) | ⟨(h | h) | h, _⟩
  · exact List.all_eq_true.1 (by decide : storeRegs.all fun o => Scope.has ⟨[], [2, 3, 5, 6, 8, 11], []⟩ o) _ (List.contains_iff_mem.1 h)
  · obtain ⟨h1, h2⟩ := range_of_tblConfig h
    exact hb (lo := 0xA000000) (hi := 0xBFFFFFF) rfl h1 (by omega)
  · exact hb (lo := 0x8000000) (hi := 0x9FFFFFF) rfl h.1 (by omega)
  · exact hb (lo := 0xD000000) (hi := 0xDFFFFFF) rfl h.1 (by omega)
  · exact hb (lo := 0x11000000) (hi := 0x11FFFFFF) rfl h.1 (by omega)

theorem service_off {sf : ℕ × Fld} (h : sf ∈ services) : Scope.has ⟨[], [13], []⟩ (sf.2.off % 0x20000000) :=
  List.all_eq_true.1 (by decide : services.all fun sf => Scope.has ⟨[], [13], []⟩ (sf.2.off % 0x20000000)) sf h

/-- An error is found at a memory that the device has (R26). -/
theorem other_lt_of_errorFound {d : Dev} {x : PatrolError} (h : d.errorFound x = true) {n w : ℕ} (hx : x.place = .other n w) : n < 4 := by
  simp only [Dev.errorFound, Dev.placeReads, hx, Bool.and_eq_true, decide_eq_true_eq] at h
  exact h.1.1.1

theorem snd_lt_of_mem_zipIdx_take {α : Type} {l : List α} {n : ℕ} {x : α × ℕ} (h : x ∈ (l.take n).zipIdx) : x.2 < n := by
  have h1 := List.snd_lt_of_mem_zipIdx h
  simp only [List.length_take] at h1
  omega

theorem Scope.le_refl (A : Scope) : A.le A := by
  simp only [Scope.le, Scope.has, Bool.and_eq_true, List.all_eq_true, List.contains_iff_mem, Bool.or_eq_true]
  exact ⟨⟨fun _ h => h, fun _ h => h⟩, fun _ h => .inr h⟩

/-- The registers of a queue lie in the HST window. -/
theorem has_queue {q : ℕ} (hq : q < 64) : ∀ f ∈ [F.HST_IQ_CFG, F.HST_IQ_HEAD, F.HST_PQ_CFG, F.HST_PQ_HEAD],
    (blockScope 14).has ((f.ix q).off % 0x20000000) := by
  simp only [List.forall_mem_cons, List.not_mem_nil, false_imp_iff, implies_true, and_true]
  exact ⟨has_ix hq rfl, has_ix hq rfl, has_ix hq rfl, has_ix hq rfl⟩

theorem blockOf_bounds (off : ℕ) : 1 ≤ blockOf off ∧ blockOf off ≤ 17 := by
  have h := blockOf_mono (Nat.le_max_left off 0x17000000)
  have h1 : blockOf (max off 0x17000000) = 17 := by
    have := Nat.le_max_right off 0x17000000
    generalize max off 0x17000000 = k at this
    simp (disch := omega) only [blockOf, if_neg]
  exact ⟨blockOf_eq off ▸ le_windowFrom _ 1 off, h1 ▸ h⟩

theorem Within.arrivedAt {d : Dev} {rest : List Arrival} (hd : Within S a d)
    (hS : Scope.le ⟨[.que], [], []⟩ S) : Within S a (arrivedAt d rest) := by
  refine hd.lift hS ?_
  unfold Machine.arrivedAt
  exact .set_que .refl rfl

/-- The register that an access finds is one at an offset, its own or that of a powered pier. -/
theorem regAt_of_accessed {d : Dev} {off : ℕ} {r : RegAt} (h : d.accessed off = some r) : ∃ o, regAt o = some r := by
  unfold Dev.accessed at h
  split at h
  · split at h
    · exact ⟨_, h⟩
    · cases h
  · exact ⟨off, h⟩

theorem lt_of_pierOf {d : Dev} {o n : ℕ} (h : d.pierOf o = some n) : n < 17 :=
  List.mem_range.1 (List.mem_of_find?_eq_some h)

theorem Within.bump_when {d : Dev} {f g : Fld} {c : Bool} (h : Within S a d) (hf : S.has (f.off % 0x20000000))
    (hg : S.has (g.off % 0x20000000)) : Within S a ((d.bump f).when c (·.bump g)) :=
  .when (.bump h hf) fun _ => .bump (.bump h hf) hg

theorem Within.takeFree {d : Dev} (hd : Within S a d)
    (hS : Scope.le ⟨[.fresh], [], []⟩ S) : Within S a (d.takeFree).2 := by
  refine hd.lift hS ?_
  unfold Dev.takeFree
  exact .set_fresh .refl rfl

theorem Within.takeFlip {d : Dev} (hd : Within S a d)
    (hS : Scope.le ⟨[.fresh], [], []⟩ S) : Within S a (d.takeFlip).2 := by
  refine hd.lift hS ?_
  unfold Dev.takeFlip
  exact .set_fresh .refl rfl

theorem Within.postInst {d : Dev} {e : EvDesc} {inst : ℕ} {pl : List (ℕ × ℕ × ℕ)} (hd : Within S a d)
    (hS : Scope.le ⟨[.posted], [], []⟩ S) : Within S a (d.postInst e inst pl) := by
  refine hd.lift hS ?_
  unfold Dev.postInst
  exact .set_posted .refl rfl

theorem Within.post {d : Dev} {e : EvDesc} {pl : List (ℕ × ℕ × ℕ)} (hd : Within S a d)
    (hS : Scope.le ⟨[.posted], [], []⟩ S) : Within S a (d.post e pl) := by
  refine hd.lift hS ?_
  unfold Dev.post
  exact .postInst .refl rfl

theorem Within.setUnit {d : Dev} {u : ℕ} {x : CheckUnit} (hd : Within S a d)
    (hS : Scope.le ⟨[.dgn], [], []⟩ S) : Within S a (d.setUnit u x) := by
  refine hd.lift hS ?_
  unfold Dev.setUnit
  exact .set_dgn .refl rfl

theorem Within.streamBegins {d : Dev} {point : ℕ} {seg : ℕ} {len : ℕ} (hd : Within S a d)
    (hS : Scope.le ⟨[.dgn], [17], []⟩ S) : Within S a (d.streamBegins point seg len) := by
  refine hd.lift hS ?_
  unfold Dev.streamBegins
  exact .each .refl (fun x hx e he => (.ite (.wr (.setUnit he rfl) (has_ix (List.mem_range.1 hx) rfl)) he))

theorem Within.streamFeed {d : Dev} {point : ℕ} {seg : ℕ} {ofs : Option ℕ} {l : List Byte} (hd : Within S a d)
    (hS : Scope.le ⟨[.dgn], [], []⟩ S) : Within S a (d.streamFeed point seg ofs l) := by
  refine hd.lift hS ?_
  unfold Dev.streamFeed
  exact .each .refl (fun x _ e he => (.ite (.setUnit he rfl) he))

theorem Within.dma {d : Dev} {addr : ℕ} {l : List Byte} (hd : Within S a d)
    (hS : Scope.le ⟨[.hostMem], [], []⟩ S) : Within S a (d.dma addr l) := by
  refine hd.lift hS ?_
  unfold Dev.dma
  exact .set_hostMem .refl rfl

theorem Within.raiseVector {d : Dev} {pf : ℕ} {v : ℕ} (hd : Within S a d)
    (hS : Scope.le ⟨[.hst], [], []⟩ S) : Within S a (d.raiseVector pf v) := by
  refine hd.lift hS ?_
  unfold Dev.raiseVector
  exact .set_hst .refl rfl

theorem Within.setMode {d : Dev} {m : Mode} (hd : Within S a d)
    (hS : Scope.le ⟨[.mode], [], []⟩ S) : Within S a (d.setMode m) := by
  refine hd.lift hS ?_
  unfold Dev.setMode
  exact .ite .refl (.ite .refl (.set_mode .refl rfl))

theorem Within.noteMode {before after : Dev} (h : Within S a after) (hS : Scope.le ⟨[.posted], [], []⟩ S) :
    Within S a (Dev.noteMode before after) := by
  unfold Dev.noteMode
  split
  · exact h
  · exact h.post hS

theorem Within.withMode {d : Dev} {f : Dev → Dev} (h : Within S a (f d)) (hS : Scope.le ⟨[.posted], [], []⟩ S) :
    Within S a (d.withMode f) := h.noteMode hS

theorem Within.unstage {d : Dev} {m : ℕ} {off : ℕ} (hd : Within S a d)
    (hS : Scope.le ⟨[.stages], [], []⟩ S) : Within S a (d.unstage m off) := by
  refine hd.lift hS ?_
  unfold Dev.unstage
  exact .set_stages .refl rfl

theorem Within.noAbort {d : Dev} (hd : Within S a d)
    (hS : Scope.le ⟨[.lastAbort], [], []⟩ S) : Within S a (d.noAbort) := by
  refine hd.lift hS ?_
  unfold Dev.noAbort
  exact .set_lastAbort .refl rfl

theorem Within.onWrite {d : Dev} {m off : Nat} {f : Dev → Dev} (hd : Within S a d) (hf : Within S a (f d.noAbort))
    (hS : Scope.le ⟨[.lastAbort], [], []⟩ S) : Within S a (d.onWrite m off f) := .ite hf (hd.noAbort hS)

theorem Within.answer {d : Dev} {v : ℕ} (hd : Within S a d)
    (hS : Scope.le ⟨[.lastRead, .lastAbort], [], []⟩ S) : Within S a (d.answer v) := by
  refine hd.lift hS ?_
  unfold Dev.answer
  exact .set_lastRead_lastAbort .refl rfl rfl

theorem Within.onRead {d : Dev} {m off : Nat} {f : Dev → Dev} (hd : Within S a d) (hf : Within S a (f d))
    (hS : Scope.le ⟨[.lastRead, .lastAbort], [], []⟩ S) : Within S a (d.onRead m off f) := .ite hf (hd.answer hS)

theorem Within.setChan {d : Dev} {n : ℕ} {c : Channel} (hd : Within S a d)
    (hS : Scope.le ⟨[.ctl], [], []⟩ S) : Within S a (d.setChan n c) := by
  refine hd.lift hS ?_
  unfold Dev.setChan
  exact .set_ctl .refl rfl

theorem Within.setLock {d : Dev} {n : ℕ} {v : ℕ} (hd : Within S a d)
    (hS : Scope.le ⟨[.ctl], [], []⟩ S) : Within S a (d.setLock n v) := by
  refine hd.lift hS ?_
  unfold Dev.setLock
  exact .set_ctl .refl rfl

theorem Within.bellIrq {d : Dev} {m : ℕ} (hd : Within S a d)
    (hS : Scope.le ⟨[.ctl, .hst], [], []⟩ S) : Within S a (d.bellIrq m) := by
  refine hd.lift hS ?_
  unfold Dev.bellIrq
  exact .ite (.raiseVector (.set_ctl .refl rfl) rfl) (.set_ctl .refl rfl)

theorem Within.ring {d : Dev} {m b : ℕ} (hd : Within S a d) (hm : m < 16)
    (hS : Scope.le ⟨[.ctl, .hst], [13], []⟩ S) : Within S a (d.ring m b) := by
  refine hd.lift hS ?_
  unfold Dev.ring
  split
  · exact .refl
  · dsimp only
    split
    · exact .bellIrq (.wr .refl (has_ix hm rfl)) rfl
    · exact .wr .refl (has_ix hm rfl)

theorem Within.bellClear {m target : ℕ} {data : Word} {d : Dev} (hd : Within S a d)
    (hk : S.has ((F.CTL_BELL.ix target).off % 0x20000000)) :
    Within S a (Machine.bellClear m target data d) := by
  unfold Machine.bellClear
  exact .ite (.wr hd hk) hd

theorem Within.bellMaskWrite {m target : ℕ} {data : Word} {d : Dev} (hd : Within S a d)
    (hk : S.has ((F.CTL_BELL_MASK.ix target).off % 0x20000000))
    (hS : Scope.le ⟨[.ctl, .hst], [], []⟩ S) : Within S a (Machine.bellMaskWrite m target data d) := by
  unfold Machine.bellMaskWrite
  refine .ite ?_ hd
  dsimp only
  exact .ite (.bellIrq (.wr hd hk) hS) (.wr hd hk)

theorem Within.mbxFail {d : Dev} {c : MbxCheck} {n : ℕ} {m : ℕ} {ofs : ℕ} {isWrite : Bool} (hd : Within S a d)
    (hS : Scope.le ⟨[.lastRead, .lastAbort, .posted, .ctl], [], []⟩ S) : Within S a (d.mbxFail c n m ofs isWrite) := by
  refine hd.lift hS ?_
  unfold Dev.mbxFail
  dsimp only
  split
  · refine .post ?_ rfl
    split
    · exact .set_lastRead_lastAbort_ctl .refl rfl rfl rfl
    · exact .set_lastRead_lastAbort .refl rfl rfl
  · refine .post ?_ rfl
    split
    · exact .set_lastRead_lastAbort_ctl .refl rfl rfl rfl
    · exact .set_lastRead_lastAbort .refl rfl rfl
  · exact .refl

theorem Within.mbxAccess {d : Dev} {n m ofs : Nat} {x y w : Bool} {f : Dev → Dev} (hd : Within S a d) (hf : Within S a (f d))
    (hS : Scope.le ⟨[.lastRead, .lastAbort, .posted, .ctl], [], []⟩ S) : Within S a (d.mbxAccess n m ofs x y w f) := by
  unfold Dev.mbxAccess
  split
  · exact hf
  · exact hd.mbxFail hS

theorem Within.mbxDataWrite {m : ℕ} {n : ℕ} {w : ℕ} {data : Word} {d : Dev} (hd : Within S a d)
    (hS : Scope.le ⟨[.lastRead, .lastAbort, .posted, .ctl], [], []⟩ S) : Within S a (mbxDataWrite m n w data d) := by
  refine hd.lift hS ?_
  unfold Machine.mbxDataWrite
  exact .mbxAccess .refl (.setChan .refl rfl) rfl

theorem Within.mbxPostCore {d : Dev} {n len : ℕ} (hd : Within S a d)
    (hS : Scope.le ⟨[.ctl, .hst], [13], []⟩ S) : Within S a (d.mbxPostCore n len) := by
  refine hd.lift hS ?_
  unfold Dev.mbxPostCore
  exact .ring (.when (.bump (.setChan .refl rfl) rfl) (fun _ => (.bump (.bump (.setChan .refl rfl) rfl) rfl))) (Dev.rd_lt d
    (F.CTL_MBX_BIND_RECEIVER.ix n)) rfl

theorem Within.mbxPost {m : ℕ} {n : ℕ} {data : Word} {d : Dev} (hd : Within S a d)
    (hS : Scope.le ⟨[.lastRead, .lastAbort, .posted, .ctl, .hst], [13], []⟩ S) : Within S a (mbxPost m n data d) := by
  refine hd.lift hS ?_
  unfold Machine.mbxPost
  exact .mbxAccess .refl (.ite .refl (.mbxPostCore .refl rfl)) rfl

theorem Within.mbxRxstatRead {m : ℕ} {n : ℕ} {d : Dev} (hd : Within S a d)
    (hS : Scope.le ⟨[.lastRead, .lastAbort, .posted, .ctl], [], []⟩ S) : Within S a (mbxRxstatRead m n d) := by
  refine hd.lift hS ?_
  unfold Machine.mbxRxstatRead
  exact .mbxAccess .refl (.answer (.ite .refl (.setChan .refl rfl)) rfl) rfl

theorem Within.mbxDataRead {m : ℕ} {n : ℕ} {w : ℕ} {d : Dev} (hd : Within S a d)
    (hS : Scope.le ⟨[.lastRead, .lastAbort, .posted, .ctl], [], []⟩ S) : Within S a (mbxDataRead m n w d) := by
  refine hd.lift hS ?_
  unfold Machine.mbxDataRead
  exact .mbxAccess .refl (.answer .refl rfl) rfl

theorem Within.mbxTxstatRead {m : ℕ} {n : ℕ} {d : Dev} (hd : Within S a d)
    (hS : Scope.le ⟨[.lastRead, .lastAbort, .posted, .ctl], [], []⟩ S) : Within S a (mbxTxstatRead m n d) := by
  refine hd.lift hS ?_
  unfold Machine.mbxTxstatRead
  exact .mbxAccess .refl (.answer .refl rfl) rfl

theorem Within.mbxTxstatWrite {m : ℕ} {n : ℕ} {data : Word} {d : Dev} (hd : Within S a d)
    (hS : Scope.le ⟨[.lastRead, .lastAbort, .posted, .ctl], [], []⟩ S) : Within S a (mbxTxstatWrite m n data d) := by
  refine hd.lift hS ?_
  unfold Machine.mbxTxstatWrite
  exact .mbxAccess .refl (.setChan .refl rfl) rfl

theorem Within.mbxAck {m : ℕ} {n : ℕ} {data : Word} {d : Dev} (hd : Within S a d)
    (hS : Scope.le ⟨[.lastRead, .lastAbort, .posted, .ctl], [], []⟩ S) : Within S a (mbxAck m n data d) := by
  refine hd.lift hS ?_
  unfold Machine.mbxAck
  exact .mbxAccess .refl (.ite (.setChan .refl rfl) .refl) rfl

theorem Within.mbxBindWrite {m n : ℕ} {data : Word} {d : Dev} (hd : Within S a d)
    (hk : S.has ((F.CTL_MBX_BIND.ix n).off % 0x20000000))
    (hS : Scope.le ⟨[.posted], [], []⟩ S) : Within S a (Machine.mbxBindWrite m n data d) := by
  unfold Machine.mbxBindWrite
  exact .ite hd (.ite (.post hd hS) (.setReg hd hk))

theorem Within.bindLockSet {m : ℕ} {d : Dev} (hd : Within S a d)
    (hS : Scope.le ⟨[], [], [F.CTL_BIND_LOCK_LOCK.off]⟩ S) : Within S a (bindLockSet m d) := by
  refine hd.lift hS ?_
  unfold Machine.bindLockSet
  exact .ite (.wr .refl rfl) .refl

theorem Within.bindDefaults {d : Dev} (hd : Within S a d)
    (hS : Scope.le ⟨[], [13], []⟩ S) : Within S a d.bindDefaults := by
  refine hd.lift hS ?_
  unfold Dev.bindDefaults
  split
  · exact .refl
  · refine .each .refl (fun n hn e he => ?_)
    split
    · exact .setReg he (has_ix (List.mem_range.1 hn) rfl)
    · exact he

theorem Within.lockRead {readers : List ℕ} {n : ℕ} {d : Dev} (hd : Within S a d)
    (hS : Scope.le ⟨[.lastRead, .lastAbort, .ctl], [], [F.CTL_LOCK_ACQUIRES.off, F.CTL_LOCK_CONTESTS.off]⟩ S) :
    Within S a (lockRead readers n d) := by
  refine hd.lift hS ?_
  unfold Machine.lockRead
  split
  · exact .set_lastRead .refl rfl
  · split
    · exact .answer (.when (.bump (.setLock .refl rfl) rfl) (fun _ => (.bump (.bump (.setLock .refl rfl) rfl) rfl))) rfl
    · exact .answer .refl rfl

theorem Within.lockWrite {m : ℕ} {n : ℕ} {data : Word} {d : Dev} (hd : Within S a d)
    (hS : Scope.le ⟨[.posted, .ctl], [], []⟩ S) : Within S a (lockWrite m n data d) := by
  refine hd.lift hS ?_
  unfold Machine.lockWrite
  exact .ite (.setLock .refl rfl) (.post .refl rfl)

theorem Within.receiverReset {d : Dev} {m : ℕ} (hd : Within S a d) (hm : m < 10)
    (hS : Scope.le ⟨[.posted, .ctl], [13], []⟩ S) : Within S a (d.receiverReset m) := by
  refine hd.lift hS ?_
  unfold Dev.receiverReset
  dsimp only
  split
  · exact .bumpN (.wr (.each .refl (fun x _ e he => (.setChan he rfl))) (has_ix hm rfl)) rfl
  · exact .post (.bumpN (.wr (.each .refl (fun x _ e he => (.setChan he rfl))) (has_ix hm rfl)) rfl) rfl

theorem Within.senderReset {d : Dev} {m : ℕ} (hd : Within S a d)
    (hS : Scope.le ⟨[.ctl], [], []⟩ S) : Within S a (d.senderReset m) := by
  refine hd.lift hS ?_
  unfold Dev.senderReset
  exact .set_ctl (.each .refl (fun x _ e he => (.setChan he rfl))) rfl

theorem Within.releaseLocks {d : Dev} {m : ℕ} (hd : Within S a d)
    (hS : Scope.le ⟨[.posted, .ctl], [], []⟩ S) : Within S a (d.releaseLocks m) := by
  refine hd.lift hS ?_
  unfold Dev.releaseLocks
  exact .post (.each .refl (fun x _ e he => (.setLock he rfl))) rfl

theorem Within.masterReset {d : Dev} {m : ℕ} (hd : Within S a d) (hm : m < 10)
    (hS : Scope.le ⟨[.posted, .ctl], [13], []⟩ S) : Within S a (d.masterReset m) := by
  refine hd.lift hS ?_
  unfold Dev.masterReset
  exact .releaseLocks (.senderReset (.receiverReset .refl hm rfl) rfl) rfl

theorem Within.foldl_masterReset {d : Dev} {l : List ℕ} (hd : Within S a d) (hl : ∀ m ∈ l, m < 10)
    (hS : Scope.le ⟨[.posted, .ctl], [13], []⟩ S) : Within S a (l.foldl Dev.masterReset d) := by
  induction l generalizing d with
  | nil => exact hd
  | cons m t ih => exact ih (.masterReset hd (hl m (.head t)) hS) fun x hx => hl x (.tail m hx)

theorem Within.setCore {d : Dev} {p : ℕ} {c : PairCore} (hd : Within S a d)
    (hS : Scope.le ⟨[.ctl], [], []⟩ S) : Within S a (d.setCore p c) := by
  refine hd.lift hS ?_
  unfold Dev.setCore
  exact .set_ctl .refl rfl

theorem Within.startPair {d : Dev} {fw : List Byte} {p : ℕ} (hd : Within S a d)
    (hS : Scope.le ⟨[.ctl], [], []⟩ S) : Within S a (d.startPair fw p) := by
  refine hd.lift hS ?_
  unfold Dev.startPair
  exact .setCore .refl rfl

theorem Within.startSolo {d : Dev} {fw : List Byte} {m : ℕ} (hd : Within S a d)
    (hS : Scope.le ⟨[.ctl], [], []⟩ S) : Within S a (d.startSolo fw m) := by
  refine hd.lift hS ?_
  unfold Dev.startSolo
  exact .set_ctl .refl rfl

theorem Within.moveServices {d : Dev} {p : ℕ} (hd : Within S a d)
    (hS : Scope.le ⟨[.posted], [13], []⟩ S) : Within S a (d.moveServices p) := by
  refine hd.lift hS ?_
  unfold Dev.moveServices
  split
  · exact .refl
  · refine .each .refl (fun sf hsf e he => ?_)
    split
    · exact .post (.wr he (Scope.has_of_le rfl (service_off hsf))) rfl
    · exact he

theorem Within.lockstepMismatch {p : ℕ} {d : Dev} (hd : Within S a d) (hp : p < 4)
    (hS : Scope.le ⟨[.posted, .ctl], [13], []⟩ S) : Within S a (lockstepMismatch p d) := by
  refine hd.lift hS ?_
  unfold Machine.lockstepMismatch
  split
  · exact .refl
  · dsimp only
    split
    · exact .setCore (.masterReset (.moveServices (.post (.wr (.post (.bump (.wr (.set_ctl .refl rfl) (has_ix hp rfl)) rfl) rfl) (has_ix
        hp rfl)) rfl) rfl) (by omega) rfl) rfl
    · exact .post (.bump (.wr (.set_ctl .refl rfl) (has_ix hp rfl)) rfl) rfl

theorem Within.pairRestart {p : ℕ} {d : Dev} (hd : Within S a d) (hp : p < 4)
    (hS : Scope.le ⟨[.posted, .ctl], [13], []⟩ S) : Within S a (pairRestart p d) := by
  refine hd.lift hS ?_
  unfold Machine.pairRestart
  split
  · exact .refl
  · exact .post (.masterReset (.wr (.wr (.setCore .refl rfl) (has_ix hp rfl)) (has_ix hp rfl)) (by omega) rfl) rfl

theorem Within.pairCheckpoint {p : ℕ} {d : Dev} (hd : Within S a d)
    (hk : S.has ((F.CTL_PAIR_CKPT.ix p).off % 0x20000000))
    (hS : Scope.le ⟨[.ctl], [], []⟩ S) : Within S a (Machine.pairCheckpoint p d) := by
  unfold Machine.pairCheckpoint
  exact .ite (.wr (.set_ctl hd (Scope.parts_contains (p := .ctl) hS rfl)) hk) hd

theorem Within.serviceReply {d : Dev} {srv : ℕ} {s : ℕ} {op : ℕ} (hd : Within S a d)
    (hS : Scope.le ⟨[.fresh], [], []⟩ S) : Within S a (d.serviceReply srv s op).2.2 := by
  refine hd.lift hS ?_
  unfold Dev.serviceReply
  dsimp only
  split
  · dsimp only
    exact .refl
  · split
    · dsimp only
      exact .refl
    · split
      · split
        · dsimp only
          exact .refl
        · dsimp only
          exact .takeFree .refl rfl
      · dsimp only
        exact .takeFree (.takeFree .refl rfl) rfl

theorem Within.serviceRequest {srv : ℕ} {n : ℕ} {d : Dev} (hd : Within S a d)
    (hS : Scope.le ⟨[.lastRead, .lastAbort, .posted, .fresh, .ctl, .hst], [13], []⟩ S) : Within S a (serviceRequest srv n d) := by
  refine hd.lift hS ?_
  unfold Machine.serviceRequest
  dsimp only
  split
  · exact .refl
  · split
    · exact .ite (.setChan (.setChan .refl rfl) rfl) (.setChan .refl rfl)
    · split
      · exact .ite (.setChan (.setChan .refl rfl) rfl) (.setChan .refl rfl)
      · split
        · exact .setChan (.mbxAccess (.serviceReply (.setChan .refl rfl) rfl) (.mbxPostCore (.setChan (.serviceReply (.setChan .refl rfl)
            rfl) rfl) rfl) rfl) rfl
        · exact .mbxAccess (.serviceReply (.setChan .refl rfl) rfl) (.mbxPostCore (.setChan (.serviceReply (.setChan .refl rfl) rfl) rfl)
            rfl) rfl

theorem Within.setAccept {d : Dev} {n : ℕ} {v : BitVec 32} (hd : Within S a d)
    (hS : Scope.le ⟨[.hst], [], []⟩ S) : Within S a (d.setAccept n v) := by
  refine hd.lift hS ?_
  unfold Dev.setAccept
  exact .set_hst .refl rfl

theorem Within.noteSuppressed {d : Dev} {src : ℕ} {cls : EvClass} {code : ℕ} (hd : Within S a d)
    (hS : Scope.le ⟨[.hst], [14], []⟩ S) : Within S a (d.noteSuppressed src cls code) := by
  refine hd.lift hS ?_
  unfold Dev.noteSuppressed
  exact .bump (.set_hst .refl rfl) (has_suppFld (by cases cls <;> decide) rfl)

theorem Within.countSuppressed {d : Dev} {src : ℕ} {cls : EvClass} {code : ℕ} (hd : Within S a d)
    (hS : Scope.le ⟨[.hst], [14], []⟩ S) : Within S a (d.countSuppressed src cls code) := by
  refine hd.lift hS ?_
  unfold Dev.countSuppressed
  dsimp only
  split
  · exact .bump .refl rfl
  · split
    · exact .wr (.noteSuppressed (.bump .refl rfl) rfl) (has_ix (f := F.HST_ALM_SAT) (Nat.mod_lt _ (by decide)) rfl)
    · exact .noteSuppressed (.bump .refl rfl) rfl

theorem Within.acceptRec {d : Dev} {r : EventRec} (hd : Within S a d)
    (hS : Scope.le ⟨[.hst], [14], []⟩ S) : Within S a (d.acceptRec r) := by
  refine hd.lift hS ?_
  unfold Dev.acceptRec
  dsimp only
  split
  · exact .set_hst (.each (.set_hst (.bump (.setAccept .refl rfl) rfl) rfl)
      (fun x hx e he => (.wr he (has_suppFld (Nat.lt_succ_of_lt (List.mem_range.1 hx)) rfl)))) rfl
  · exact .set_hst (.bump (.setAccept .refl rfl) rfl) rfl

theorem Within.alarmSummary {d : Dev} {r : EventRec} (hd : Within S a d)
    (hS : Scope.le ⟨[.hst], [], [F.GLB_ALARM_SUMMARY.off]⟩ S) : Within S a (d.alarmSummary r) := by
  refine hd.lift hS ?_
  unfold Dev.alarmSummary
  split
  · dsimp only
    split
    · exact .wr .refl rfl
    · exact .ite (.set_hst (.wr .refl rfl) rfl) (.wr .refl rfl)
  · exact .refl

theorem Within.admitRecord {d : Dev} {r : EventRec} (hd : Within S a d)
    (hS : Scope.le ⟨[.hst], [14], [F.GLB_ALARM_SUMMARY.off]⟩ S) : Within S a (d.admitRecord r) := by
  refine hd.lift hS ?_
  unfold Dev.admitRecord
  dsimp only
  split
  · exact .countSuppressed (.alarmSummary .refl rfl) rfl
  · exact .acceptRec (.alarmSummary .refl rfl) rfl

theorem Within.eventPost {traced : Option EventRec} {d : Dev} (hd : Within S a d)
    (hS : Scope.le ⟨[.posted, .hst], [14], [F.GLB_ALARM_SUMMARY.off]⟩ S) : Within S a (eventPost traced d) := by
  refine hd.lift hS ?_
  unfold Machine.eventPost
  split
  · exact .admitRecord .refl rfl
  · split
    · exact .refl
    · exact .admitRecord (.set_posted .refl rfl) rfl

theorem Within.eventWrite {d : Dev} (hd : Within S a d)
    (hS : Scope.le ⟨[.hostMem, .hst], [14], []⟩ S) : Within S a (eventWrite d) := by
  refine hd.lift hS ?_
  unfold Machine.eventWrite
  dsimp only
  split
  · exact .refl
  · exact .ite .refl (.set_hst (.wrIx (.dma .refl rfl) rfl) rfl)

theorem Within.evrInterrupt {n : ℕ} {d : Dev} (hd : Within S a d)
    (hS : Scope.le ⟨[.hst], [], []⟩ S) : Within S a (evrInterrupt n d) := by
  refine hd.lift hS ?_
  unfold Machine.evrInterrupt
  exact .ite (.raiseVector (.set_hst .refl rfl) rfl) .refl

theorem Within.discardRing {d : Dev} {n : ℕ} (hd : Within S a d)
    (hS : Scope.le ⟨[.hst], [14], []⟩ S) : Within S a (d.discardRing n) := by
  refine hd.lift hS ?_
  unfold Dev.discardRing
  exact .each (.set_hst .refl rfl) (fun x _ e he => (.countSuppressed he rfl))

theorem Within.disableRing {d : Dev} {n : ℕ} (hd : Within S a d) (hn : n < 16)
    (hS : Scope.le ⟨[.hst], [14], []⟩ S) : Within S a (d.disableRing n) := by
  refine hd.lift hS ?_
  unfold Dev.disableRing
  exact .ite (.discardRing (.wr .refl (has_ix hn rfl)) rfl) .refl

theorem Within.evrDmaError {n : ℕ} {d : Dev} (hd : Within S a d) (hn : n < 16)
    (hS : Scope.le ⟨[.hst], [14], []⟩ S) : Within S a (evrDmaError n d) := by
  refine hd.lift hS ?_
  unfold Machine.evrDmaError
  exact .ite (.disableRing (.wr .refl (has_ix hn rfl)) hn rfl) .refl

theorem Within.evrEnableWrite {n : ℕ} {data : Word} {d : Dev} (hd : Within S a d) (hn : n < 16)
    (hS : Scope.le ⟨[.hst], [14], []⟩ S) : Within S a (evrEnableWrite n data d) := by
  refine hd.lift hS ?_
  unfold Machine.evrEnableWrite
  dsimp only
  split
  · split
    · exact .when (.wr (.wr (.wr (.wr .refl (has_ix hn rfl)) (has_ix hn rfl)) (has_ix hn rfl)) (has_ix hn rfl)) (fun _ => (.wr (.wr (.wr
        (.wr (.wr .refl (has_ix hn rfl)) (has_ix hn rfl)) (has_ix hn rfl)) (has_ix hn rfl)) (has_ix hn rfl)))
    · exact .setAccept (.wr (.wr (.when (.wr (.wr (.wr (.wr .refl (has_ix hn rfl)) (has_ix hn rfl)) (has_ix hn rfl)) (has_ix hn rfl)) (fun
        _ => (.wr (.wr (.wr (.wr (.wr .refl (has_ix hn rfl)) (has_ix hn rfl)) (has_ix hn rfl)) (has_ix hn rfl)) (has_ix hn rfl)))) (has_ix
        hn rfl)) (has_ix hn rfl)) rfl
  · exact .disableRing (.when (.wr (.wr (.wr (.wr .refl (has_ix hn rfl)) (has_ix hn rfl)) (has_ix hn rfl)) (has_ix hn rfl)) (fun _ => (.wr
      (.wr (.wr (.wr (.wr .refl (has_ix hn rfl)) (has_ix hn rfl)) (has_ix hn rfl)) (has_ix hn rfl)) (has_ix hn rfl)))) hn rfl

theorem Within.postSummary {d : Dev} {src : ℕ} (hd : Within S a d)
    (hS : Scope.le ⟨[.posted, .hst], [], []⟩ S) : Within S a (d.postSummary src) := by
  refine hd.lift hS ?_
  unfold Dev.postSummary
  exact .postInst (.set_hst .refl rfl) rfl

theorem Within.blotterInterval {d : Dev} (hd : Within S a d)
    (hS : Scope.le ⟨[.posted, .hst], [], []⟩ S) : Within S a (blotterInterval d) := by
  refine hd.lift hS ?_
  unfold Machine.blotterInterval
  dsimp only
  split
  · exact .refl
  · split
    · exact .each (.set_hst .refl rfl) (fun x _ e he => (.postSummary he rfl))
    · exact .set_hst .refl rfl

theorem Within.setLink {d : Dev} {up : ℕ} {width : ℕ} {rate : ℕ} (hd : Within S a d)
    (hS : Scope.le ⟨[.posted], [], [F.HST_STATUS.off]⟩ S) : Within S a (d.setLink up width rate) := by
  refine hd.lift hS ?_
  unfold Dev.setLink
  exact .ite .refl (.post (.setReg .refl rfl) rfl)

theorem Within.pcieLinkUp {width : ℕ} {rate : ℕ} {d : Dev} (hd : Within S a d)
    (hS : Scope.le ⟨[.posted], [], [F.HST_STATUS.off]⟩ S) : Within S a (pcieLinkUp width rate d) := by
  refine hd.lift hS ?_
  unfold Machine.pcieLinkUp
  exact .ite .refl (.setLink .refl rfl)

theorem Within.pcieLinkDown {d : Dev} (hd : Within S a d)
    (hS : Scope.le ⟨[.posted], [], [F.HST_STATUS.off]⟩ S) : Within S a (pcieLinkDown d) := by
  refine hd.lift hS ?_
  unfold Machine.pcieLinkDown
  exact .setLink .refl rfl

theorem Within.pqTailWrite {m q tail : ℕ} {d : Dev} (hd : Within S a d)
    (hk : S.has ((F.HST_PQ_TAIL.ix q).off % 0x20000000)) :
    Within S a (Machine.pqTailWrite m q tail d) := by
  unfold Machine.pqTailWrite
  exact .ite (.wr hd hk) hd

theorem Within.iqTailWrite {m q tail : ℕ} {d : Dev} (hd : Within S a d)
    (hk : S.has ((F.HST_IQ_TAIL.ix q).off % 0x20000000))
    (hS : Scope.le ⟨[.posted], [], []⟩ S) : Within S a (Machine.iqTailWrite m q tail d) := by
  unfold Machine.iqTailWrite
  exact .ite hd (.ite (.post hd hS) (.wr hd hk))

theorem Within.dropFetched {d : Dev} {q : ℕ} (hd : Within S a d)
    (hS : Scope.le ⟨[.pir, .hst], [], []⟩ S) : Within S a (d.dropFetched q) := by
  refine hd.lift hS ?_
  unfold Dev.dropFetched
  exact .set_pir_hst .refl rfl rfl

theorem Within.queueEnableWrite {m q : ℕ} {inject : Bool} {data : Word} {d : Dev} (hd : Within S a d)
    (hk : ∀ f ∈ [F.HST_IQ_CFG, F.HST_IQ_HEAD, F.HST_PQ_CFG, F.HST_PQ_HEAD], S.has ((f.ix q).off % 0x20000000))
    (hS : Scope.le ⟨[.pir, .hst], [], []⟩ S) : Within S a (Machine.queueEnableWrite m inject q data d) := by
  unfold Machine.queueEnableWrite
  simp only [List.forall_mem_cons, List.not_mem_nil, false_imp_iff, implies_true, and_true] at hk
  obtain ⟨hic, hih, hpc, hph⟩ := hk
  refine .ite hd ?_
  dsimp only
  refine .ite ?_ (.ite (.wr (.setReg hd hpc) hph) (.setReg hd hpc))
  exact .ite (.ite (.setReg hd hic) (.wr (.setReg hd hic) hih)) (.dropFetched (.setReg hd hic) hS)

theorem Within.resetPf {d : Dev} {pf : ℕ} (hd : Within S a d)
    (hS : Scope.le ⟨[.hst], [], []⟩ S) : Within S a (d.resetPf pf) := by
  refine hd.lift hS ?_
  unfold Dev.resetPf
  exact .set_hst .refl rfl

theorem Within.disablePf {d0 : Dev} {pf : ℕ} (hd0 : Within S a d0)
    (hS : Scope.le ⟨[.pir, .hst], [14], []⟩ S) : Within S a (d0.disablePf pf) := by
  refine hd0.lift hS ?_
  unfold Dev.disablePf
  dsimp only
  split
  · exact .each (.each (.each (.resetPf .refl rfl) (fun x hx e he => (.ite (.disableRing he (List.mem_range.1 hx) rfl) he))) (fun x hx e
      he => (.wr he (has_ix (List.mem_range.1 hx) rfl)))) (fun x hx e he => (.dropFetched (.wr he (has_ix (List.mem_range.1 hx) rfl))
      rfl))
  · exact .each (.resetPf .refl rfl) (fun x hx e he => (.ite (.disableRing he (List.mem_range.1 hx) rfl) he))

theorem Within.entdaa {a' : BitVec 7} {d : Dev} (hd : Within S a d)
    (hS : Scope.le ⟨[.hst], [], [F.HST_I3C_STATUS.off]⟩ S) : Within S a (entdaa a' d) := by
  refine hd.lift hS ?_
  unfold Machine.entdaa
  exact .ite .refl (.wr (.set_hst .refl rfl) rfl)

theorem Within.rstdaa {d : Dev} (hd : Within S a d)
    (hS : Scope.le ⟨[.hst], [], [F.HST_I3C_STATUS.off]⟩ S) : Within S a (rstdaa d) := by
  refine hd.lift hS ?_
  unfold Machine.rstdaa
  exact .wr (.set_hst .refl rfl) rfl

theorem Within.i3cPrivateWrite {l : List Byte} {d : Dev} (hd : Within S a d)
    (hS : Scope.le ⟨[.hst], [], []⟩ S) : Within S a (i3cPrivateWrite l d) := by
  refine hd.lift hS ?_
  unfold Machine.i3cPrivateWrite
  split
  · exact .set_hst .refl rfl
  · exact .refl

theorem Within.i3cPrivateRead {n : ℕ} {d : Dev} (hd : Within S a d)
    (hS : Scope.le ⟨[.hst], [], []⟩ S) : Within S a (i3cPrivateRead n d) := by
  refine hd.lift hS ?_
  unfold Machine.i3cPrivateRead
  exact .ite (.set_hst .refl rfl) .refl

theorem Within.setPierSlot {d : Dev} {p : ℕ} {s : ℕ} (hd : Within S a d)
    (hS : Scope.le ⟨[.img], [3], []⟩ S) : Within S a (d.setPierSlot p s) := by
  refine hd.lift hS ?_
  unfold Dev.setPierSlot
  exact .wrIx (.set_img .refl rfl) rfl

theorem Within.keepImages {d : Dev} {s : ℕ} {but : Option ℕ} (hd : Within S a d)
    (hS : Scope.le ⟨[.img], [], []⟩ S) : Within S a (d.keepImages s but) := by
  refine hd.lift hS ?_
  unfold Dev.keepImages
  exact .each .refl (fun x _ e he => (.set_img he rfl))

theorem Within.holdFrames {d : Dev} {o : ℕ} {l : List RxFrame} (hd : Within S a d)
    (hS : Scope.le ⟨[.lpt], [], []⟩ S) : Within S a (d.holdFrames o l) := by
  refine hd.lift hS ?_
  unfold Dev.holdFrames
  exact .set_lpt .refl rfl

theorem Within.dropCount {d : Dev} {reason : ℕ} (hd : Within S a d)
    (hS : Scope.le ⟨[], [14], []⟩ S) : Within S a (d.dropCount reason) := by
  refine hd.lift hS ?_
  unfold Dev.dropCount
  exact .bump .refl (has_ix (n := 256) (Nat.mod_lt _ (by decide)) rfl)

theorem Within.dropExpired {d : Dev} (hd : Within S a d)
    (hS : Scope.le ⟨[.tim], [14], [F.TIM_EXPIRED_CNT.off]⟩ S) : Within S a (d.dropExpired) := by
  refine hd.lift hS ?_
  unfold Dev.dropExpired
  dsimp only
  split
  · exact .set_tim (.bump (.dropCount .refl rfl) rfl) rfl
  · exact .bump (.dropCount .refl rfl) rfl

theorem Within.evidence {d : Dev} {b : ℕ} (hd : Within S a d)
    (hS : Scope.le ⟨[.twn], [], [F.TWN_EVIDENCE.off]⟩ S) : Within S a (d.evidence b) := by
  refine hd.lift hS ?_
  unfold Dev.evidence
  exact .set_twn (.wr .refl rfl) rfl

end Sys2Proof.Machine
end

