-- ==== Sys2Proof/Proofs/FramesBuffer.lean ====
section
/-! PROOF. What the model's functions may change: the buffer manager, the mirror, flow control and the shapers.
Each has the least scope it needs, and runs within any wider one. -/

namespace Sys2Proof.Machine

variable {S : Scope} {a : Dev}

theorem Within.fitReserve {d : Dev} (hd : Within S a d)
    (hS : Scope.le ⟨[.buf], [], []⟩ S) : Within S a (d.fitReserve) := by
  refine hd.lift hS ?_
  unfold Dev.fitReserve
  exact .set_buf .refl rfl

theorem Within.settlePort {d : Dev} {n : ℕ} (hd : Within S a d) (hn : n < 4)
    (hS : Scope.le ⟨[.buf], [7], []⟩ S) : Within S a (d.settlePort n) := by
  refine hd.lift hS ?_
  unfold Dev.settlePort
  exact .ite (.wr (.set_buf .refl rfl) (has_ix hn rfl)) .refl

theorem Within.lowNotice {d : Dev} (hd : Within S a d)
    (hS : Scope.le ⟨[.posted, .fresh, .buf], [], []⟩ S) : Within S a (d.lowNotice) := by
  refine hd.lift hS ?_
  unfold Dev.lowNotice
  dsimp only
  split
  · refine .each ?_ (fun x1 _ e he => (.set_buf he rfl))
    split
    · exact .refl
    · exact .takeFree .refl rfl
  · refine .post (.each ?_ (fun x1 _ e he => (.set_buf he rfl))) rfl
    split
    · exact .refl
    · exact .takeFree .refl rfl

theorem Within.lowCheck {d : Dev} (hd : Within S a d)
    (hS : Scope.le ⟨[.posted, .fresh, .buf], [7], []⟩ S) : Within S a (d.lowCheck) := by
  refine hd.lift hS ?_
  unfold Dev.lowCheck
  exact .lowNotice (.fitReserve (.each .refl (fun x hx e he => (.settlePort he (List.mem_range.1 hx) rfl))) rfl) rfl

theorem Within.takeBuf {d : Dev} {p : ℕ} {base : ℕ} {size : ℕ} {r : ℕ} (hd : Within S a d)
    (hS : Scope.le ⟨[.fresh, .buf], [], []⟩ S) : Within S a (d.takeBuf p base size r).2 := by
  refine hd.lift hS ?_
  unfold Dev.takeBuf
  exact .set_buf (.takeFree .refl rfl) rfl

theorem Within.takeOne {d : Dev} {p : ℕ} {r : ℕ} (hd : Within S a d)
    (hS : Scope.le ⟨[.fresh, .buf], [], []⟩ S) : Within S a (d.takeOne p r).2 := by
  refine hd.lift hS ?_
  unfold Dev.takeOne
  split
  · split
    · exact .set_buf (.takeBuf .refl rfl) rfl
    · exact .takeBuf .refl rfl
  · exact .takeBuf .refl rfl

theorem Within.takeMany {d : Dev} {p : ℕ} {r : ℕ} {n : ℕ} (hd : Within S a d)
    (hS : Scope.le ⟨[.fresh, .buf], [], []⟩ S) : Within S a (d.takeMany p r n).2 := by
  refine hd.lift hS ?_
  clear hd
  induction n generalizing d with
  | zero =>
    rw [Dev.takeMany]
    exact .refl
  | succ k ih =>
    rw [Dev.takeMany]
    exact .trans (.takeOne .refl rfl) ih

theorem Within.rejectFree {d : Dev} {c o h addr m left : ℕ} (hd : Within S a d)
    (hS : Scope.le ⟨[.posted], [7], []⟩ S) : Within S a (d.rejectFree c o h addr m left) := by
  refine hd.lift hS ?_
  unfold Dev.rejectFree rejectCounter
  exact .post (.bump .refl (by split <;> [rfl; split <;> [rfl; split <;> rfl]])) rfl

theorem Within.freeRecord {d : Dev} {o : ℕ} {l : List ℕ} (hd : Within S a d)
    (hS : Scope.le ⟨[.posted, .buf], [7], []⟩ S) : Within S a (d.freeRecord o l) := by
  refine hd.lift hS ?_
  clear hd
  induction l generalizing d with
  | nil =>
    rw [Dev.freeRecord]
    exact .refl
  | cons y t ih =>
    rw [Dev.freeRecord]
    split
    · exact .trans (.set_buf .refl rfl) ih
    · split
      · exact .trans (.set_buf .refl rfl) ih
      · exact .rejectFree .refl rfl

theorem Within.placePaged {d : Dev} {p : ℕ} {r : ℕ} {n : ℕ} {k : ℕ} (hd : Within S a d)
    (hS : Scope.le ⟨[.fresh, .buf], [], []⟩ S) : Within S a (d.placePaged p r n k).2 := by
  refine hd.lift hS ?_
  unfold Dev.placePaged
  exact .set_buf (.takeMany (.set_buf .refl rfl) rfl) rfl

theorem Within.tryPool {d e : Dev} {p r n : ℕ} {hs : List ℕ} (he : d.tryPool p r n = .placed hs e) (hd : Within S a d)
    (hS : Scope.le ⟨[.fresh, .buf], [], []⟩ S) : Within S a e := by
  simp only [Dev.tryPool] at he
  split_ifs at he <;> cases he
  · exact .takeMany hd hS
  · exact .placePaged hd hS

theorem Within.refusePool {d : Dev} {p r : ℕ} (hd : Within S a d)
    (hS : Scope.le ⟨[], [7], []⟩ S) : Within S a (d.refusePool p r) := by
  refine hd.lift hS ?_
  unfold Dev.refusePool prioFld
  exact .wr .refl (by split <;> [rfl; split <;> rfl])

theorem Within.serveInOrder {d : Dev} {p : ℕ} {l : List AllocReq} (hd : Within S a d)
    (hS : Scope.le ⟨[.fresh, .buf], [], []⟩ S) : Within S a (d.serveInOrder p l).2.2 := by
  induction l generalizing d with
  | nil => exact hd
  | cons r t ih =>
    unfold Dev.serveInOrder
    split
    · rename_i h
      exact ih (.tryPool h hd hS)
    · exact ih hd
    · exact ih hd

theorem Within.servePool {d : Dev} {p : ℕ} {placed : List PlacedRec} {rs : List AllocReq} (hd : Within S a d)
    (hS : Scope.le ⟨[.fresh, .buf], [7], []⟩ S) : Within S a (d.servePool p placed rs).2.2 := by
  refine hd.lift hS ?_
  unfold Dev.servePool
  dsimp only
  split
  · exact .serveInOrder .refl rfl
  · exact .refusePool (.serveInOrder .refl rfl) rfl

theorem Within.allocClock {d : Dev} {rs : List AllocReq} (hd : Within S a d)
    (hS : Scope.le ⟨[.fresh, .buf], [7], []⟩ S) : Within S a (d.allocClock rs).2 := by
  refine hd.lift hS ?_
  unfold Dev.allocClock
  refine .each (.when ?_ (fun _ => (.bump ?_ rfl))) (fun x _ e he => ?_)
  · exact .servePool (.servePool (.servePool .refl rfl) rfl) rfl
  · exact .servePool (.servePool (.servePool .refl rfl) rfl) rfl
  · split
    · exact .when he (fun _ => (.bump he rfl))
    · exact .bump he rfl

theorem Within.alloc {d : Dev} {r : ℕ} {n : ℕ} {mask : ℕ} {spilled : Bool} (hd : Within S a d)
    (hS : Scope.le ⟨[.fresh, .buf], [7], []⟩ S) : Within S a (d.alloc r n mask spilled).2 := by
  refine hd.lift hS ?_
  unfold Dev.alloc
  exact .allocClock .refl rfl

theorem Within.bufAllocRead {m : ℕ} {p : ℕ} {d : Dev} (hd : Within S a d)
    (hS : Scope.le ⟨[.latches, .lastRead, .lastAbort, .posted, .fresh, .buf], [7], []⟩ S) : Within S a (bufAllocRead m p d) := by
  refine hd.lift hS ?_
  unfold Machine.bufAllocRead
  dsimp only
  split
  · exact .answer (.set_latches .refl rfl) rfl
  · split
    · exact .lowCheck (.answer (.set_latches (.takeOne .refl rfl) rfl) rfl) rfl
    · split
      · exact .answer (.set_latches (.bump (.refusePool .refl rfl) rfl) rfl) rfl
      · exact .answer (.set_latches .refl rfl) rfl

theorem Within.setFreeResult {d : Dev} {m : ℕ} {c : ℕ} (hd : Within S a d)
    (hS : Scope.le ⟨[.buf], [], []⟩ S) : Within S a (d.setFreeResult m c) := by
  refine hd.lift hS ?_
  unfold Dev.setFreeResult
  exact .set_buf .refl rfl

theorem Within.masterFree {d : Dev} {m : ℕ} {h : ℕ} {addr : ℕ} {badRange : Bool} {badAlign : Bool} (hd : Within S a d)
    (hS : Scope.le ⟨[.posted, .fresh, .buf], [7], []⟩ S) : Within S a (d.masterFree m h addr badRange badAlign) := by
  refine hd.lift hS ?_
  unfold Dev.masterFree
  split
  · exact .refl
  · dsimp only
    split
    · split
      · split
        · exact .lowCheck (.setFreeResult (.set_buf .refl rfl) rfl) rfl
        · exact .setFreeResult (.rejectFree .refl rfl) rfl
      · split
        · split
          · exact .lowCheck (.setFreeResult (.set_buf .refl rfl) rfl) rfl
          · exact .setFreeResult (.rejectFree .refl rfl) rfl
        · split
          · exact .lowCheck (.setFreeResult (.set_buf .refl rfl) rfl) rfl
          · exact .setFreeResult (.rejectFree .refl rfl) rfl
    · split
      · split
        · exact .lowCheck (.setFreeResult (.set_buf .refl rfl) rfl) rfl
        · exact .setFreeResult (.rejectFree .refl rfl) rfl
      · split
        · split
          · exact .lowCheck (.setFreeResult (.set_buf .refl rfl) rfl) rfl
          · exact .setFreeResult (.rejectFree .refl rfl) rfl
        · split
          · exact .lowCheck (.setFreeResult (.set_buf .refl rfl) rfl) rfl
          · exact .setFreeResult (.rejectFree .refl rfl) rfl

theorem Within.bufFreeHandle {m : ℕ} {w : Word} {d : Dev} (hd : Within S a d)
    (hS : Scope.le ⟨[.posted, .fresh, .buf], [7], []⟩ S) : Within S a (bufFreeHandle m w d) := by
  refine hd.lift hS ?_
  unfold Machine.bufFreeHandle
  exact .masterFree .refl rfl

theorem Within.freeAddr {d : Dev} {m : ℕ} {addr : ℕ} (hd : Within S a d)
    (hS : Scope.le ⟨[.posted, .fresh, .buf], [7], []⟩ S) : Within S a (d.freeAddr m addr) := by
  refine hd.lift hS ?_
  unfold Dev.freeAddr
  exact .masterFree .refl rfl

theorem Within.openPageTimeout {r : ℕ} {p : ℕ} {d : Dev} (hd : Within S a d)
    (hS : Scope.le ⟨[.posted, .fresh, .buf], [7], []⟩ S) : Within S a (openPageTimeout r p d) := by
  refine hd.lift hS ?_
  unfold Machine.openPageTimeout
  split
  · exact .refl
  · exact .ite .refl (.lowCheck (.set_buf .refl rfl) rfl)

theorem Within.returnAllBuffers {d : Dev} (hd : Within S a d)
    (hS : Scope.le ⟨[.buf], [], []⟩ S) : Within S a (d.returnAllBuffers) := by
  refine hd.lift hS ?_
  unfold Dev.returnAllBuffers
  exact .set_buf .refl rfl

theorem Within.postDegraded {d : Dev} {n : ℕ} {width : ℕ} {rate : ℕ} {bad : ℕ} (hd : Within S a d)
    (hS : Scope.le ⟨[.posted], [], []⟩ S) : Within S a (d.postDegraded n width rate bad) := by
  refine hd.lift hS ?_
  unfold Dev.postDegraded
  exact .post .refl rfl

theorem Within.cxlJoin {d : Dev} {n : ℕ} {limit : ℕ} (hd : Within S a d) (hn : n < 4)
    (hS : Scope.le ⟨[.posted, .buf], [7], []⟩ S) : Within S a (d.cxlJoin n limit) := by
  refine hd.lift hS ?_
  unfold Dev.cxlJoin
  exact .post (.wr (.set_buf .refl rfl) (has_ix hn rfl)) rfl

theorem Within.cxlLinkTrained {n : ℕ} {width : ℕ} {rate : ℕ} {pages : ℕ} {supported : Bool} {d : Dev} (hd : Within S a d) (hn : n < 4)
    (hS : Scope.le ⟨[.posted, .fresh, .buf], [7], []⟩ S) : Within S a (cxlLinkTrained n width rate pages supported d) := by
  refine hd.lift hS ?_
  unfold Machine.cxlLinkTrained
  split
  · exact .refl
  · dsimp only
    split
    · split
      · refine .lowCheck (.cxlJoin ?_ hn rfl) rfl
        split
        · exact .postDegraded (.wr (.set_buf (.wr (.wr .refl (has_ix hn rfl)) (has_ix hn rfl)) rfl) (has_ix hn rfl)) rfl
        · exact .wr (.set_buf (.wr (.wr .refl (has_ix hn rfl)) (has_ix hn rfl)) rfl) (has_ix hn rfl)
      · split
        · exact .postDegraded (.wr (.set_buf (.wr (.wr .refl (has_ix hn rfl)) (has_ix hn rfl)) rfl) (has_ix hn rfl)) rfl
        · exact .wr (.set_buf (.wr (.wr .refl (has_ix hn rfl)) (has_ix hn rfl)) rfl) (has_ix hn rfl)
    · exact .postDegraded (.wr (.wr (.wr .refl (has_ix hn rfl)) (has_ix hn rfl)) (has_ix hn rfl)) rfl

theorem Within.cxlTrainTimeout {n : ℕ} {d : Dev} (hd : Within S a d)
    (hk : S.has ((F.BUF_CXL_STATUS.ix n).off % 0x20000000)) :
    Within S a (Machine.cxlTrainTimeout n d) := by
  unfold Machine.cxlTrainTimeout
  exact .ite hd (.wr hd hk)

theorem Within.cxlStartTraining {d : Dev} {n : ℕ} (hd : Within S a d) (hn : n < 4)
    (hS : Scope.le ⟨[.buf], [7], []⟩ S) : Within S a (d.cxlStartTraining n) := by
  refine hd.lift hS ?_
  unfold Dev.cxlStartTraining
  exact .ite (.wr (.set_buf .refl rfl) (has_ix hn rfl)) .refl

theorem Within.cxlTrainRetry {n : ℕ} {d : Dev} (hd : Within S a d) (hn : n < 4)
    (hS : Scope.le ⟨[.buf], [7], []⟩ S) : Within S a (cxlTrainRetry n d) := by
  refine hd.lift hS ?_
  unfold Machine.cxlTrainRetry
  exact .ite .refl (.cxlStartTraining .refl hn rfl)

theorem Within.cxlRefuse {d : Dev} {m : ℕ} {n : ℕ} {cmd : ℕ} (hd : Within S a d)
    (hS : Scope.le ⟨[.posted], [], []⟩ S) : Within S a (d.cxlRefuse m n cmd) := by
  refine hd.lift hS ?_
  unfold Dev.cxlRefuse
  exact .post .refl rfl

theorem Within.cxlEnable {m n : ℕ} {d : Dev} (hd : Within S a d) (hn : n < 4)
    (hS : Scope.le ⟨[.posted, .fresh, .buf], [7, 15], []⟩ S) : Within S a (Machine.cxlEnable m n d) := by
  refine hd.lift hS ?_
  unfold Machine.cxlEnable
  dsimp only
  split
  · exact .lowCheck (.cxlJoin .refl hn rfl) rfl
  · split
    · exact .cxlStartTraining (.wr (.set_buf .refl rfl) (has_ix (f := F.PWR_DOM_STATUS) (n := 5) (by omega) rfl)) hn rfl
    · exact .cxlRefuse .refl rfl

theorem Within.cxlDrain {m : ℕ} {n : ℕ} {d : Dev} (hd : Within S a d) (hn : n < 4)
    (hS : Scope.le ⟨[.posted, .fresh, .buf], [7], []⟩ S) : Within S a (cxlDrain m n d) := by
  refine hd.lift hS ?_
  unfold Machine.cxlDrain
  split
  · exact .lowCheck (.wr .refl (has_ix hn rfl)) rfl
  · exact .cxlRefuse .refl rfl

theorem Within.cxlDrainComplete {n : ℕ} {d : Dev} (hd : Within S a d)
    (hk : S.has ((F.BUF_CXL_STATUS.ix n).off % 0x20000000))
    (hS : Scope.le ⟨[.posted], [], []⟩ S) : Within S a (Machine.cxlDrainComplete n d) := by
  unfold Machine.cxlDrainComplete
  exact .ite (.post (.wr hd hk) hS) hd

theorem Within.cxlDisable {m n : ℕ} {d : Dev} (hd : Within S a d) (hn : n < 4)
    (hS : Scope.le ⟨[.posted, .buf], [7, 15], []⟩ S) : Within S a (Machine.cxlDisable m n d) := by
  refine hd.lift hS ?_
  unfold Machine.cxlDisable
  split
  · exact .wr (.setReg (.set_buf .refl rfl) (has_ix hn rfl)) (has_ix (f := F.PWR_DOM_STATUS) (n := 5) (by omega) rfl)
  · exact .cxlRefuse .refl rfl

theorem Within.cxlLinkFail {n : ℕ} {surprise : Bool} {d : Dev} (hd : Within S a d) (hn : n < 4)
    (hS : Scope.le ⟨[.posted, .fresh, .buf], [7], []⟩ S) : Within S a (cxlLinkFail n surprise d) := by
  refine hd.lift hS ?_
  unfold Machine.cxlLinkFail
  split
  · exact .refl
  · exact .lowCheck (.post (.wr (.set_buf .refl rfl) (has_ix hn rfl)) rfl) rfl

theorem Within.cxlLinkRetrained {n : ℕ} {d : Dev} (hd : Within S a d) (hn : n < 4)
    (hS : Scope.le ⟨[.buf], [7], []⟩ S) : Within S a (cxlLinkRetrained n d) := by
  refine hd.lift hS ?_
  unfold Machine.cxlLinkRetrained
  exact .ite (.settlePort (.set_buf .refl rfl) hn rfl) .refl

theorem Within.setLanes {d : Dev} {v : ℕ} (hd : Within S a d)
    (hS : Scope.le ⟨[.twn], [], [F.TWN_STATUS_LANES.off]⟩ S) : Within S a (d.setLanes v) := by
  refine hd.lift hS ?_
  unfold Dev.setLanes
  exact .ite (.wr .refl rfl) (.set_twn (.wr .refl rfl) rfl)

theorem Within.ralinPut {d : Dev} {x : RalinMsg} (hd : Within S a d)
    (hS : Scope.le ⟨[.twn], [], []⟩ S) : Within S a (d.ralinPut x) := by
  refine hd.lift hS ?_
  unfold Dev.ralinPut
  exact .ite (.set_twn .refl rfl) .refl

theorem Within.ralinSend {d : Dev} {type : ℕ} {seq : ℕ} {payload : List Byte} (hd : Within S a d)
    (hS : Scope.le ⟨[.twn], [], []⟩ S) : Within S a (d.ralinSend type seq payload) := by
  refine hd.lift hS ?_
  unfold Dev.ralinSend
  exact .ralinPut .refl rfl

theorem Within.mirrorSend {d : Dev} {type : ℕ} {payload : List Byte} (hd : Within S a d)
    (hS : Scope.le ⟨[.twn], [], []⟩ S) : Within S a (d.mirrorSend type payload) := by
  refine hd.lift hS ?_
  unfold Dev.mirrorSend
  exact .ralinPut (.set_twn .refl rfl) rfl

theorem Within.emitMsg {d : Dev} {n : ℕ} {f : ℕ} {x : RalinMsg} (hd : Within S a d)
    (hS : Scope.le ⟨[.twn], [], []⟩ S) : Within S a (d.emitMsg n f x) := by
  refine hd.lift hS ?_
  unfold Dev.emitMsg
  exact .set_twn .refl rfl

theorem Within.fillPosition {d : Dev} {f : ℕ} {n : ℕ} (hd : Within S a d)
    (hS : Scope.le ⟨[.twn], [], []⟩ S) : Within S a (d.fillPosition f n) := by
  refine hd.lift hS ?_
  unfold Dev.fillPosition
  split
  · split
    · exact .emitMsg (.set_twn .refl rfl) rfl
    · exact .refl
  · exact .emitMsg .refl rfl

theorem Within.ralinSlot {d : Dev} (hd : Within S a d)
    (hS : Scope.le ⟨[.twn], [], []⟩ S) : Within S a (d.ralinSlot) := by
  refine hd.lift hS ?_
  unfold Dev.ralinSlot
  exact .ite (.each .refl (fun x _ e he => (.fillPosition he rfl))) .refl

theorem Within.mirror {d : Dev} {kind : ℕ} {master : ℕ} {body : List Byte} (hd : Within S a d)
    (hS : Scope.le ⟨[.twn], [], []⟩ S) : Within S a (d.mirror kind master body) := by
  refine hd.lift hS ?_
  unfold Dev.mirror
  exact .ite (.mirrorSend .refl rfl) .refl

theorem Within.mirrorDefer {d : Dev} {kind : ℕ} {master : ℕ} {body : List Byte} (hd : Within S a d)
    (hS : Scope.le ⟨[.twn], [], []⟩ S) : Within S a (d.mirrorDefer kind master body) := by
  refine hd.lift hS ?_
  unfold Dev.mirrorDefer
  exact .mirror (.set_twn .refl rfl) rfl

theorem Within.atMirror {d : Dev} {kind m : Nat} {b : List Byte} {f : Dev → Dev} (hd : Within S a d) (hf : Within S a (f d))
    (hS : Scope.le ⟨[.twn], [], []⟩ S) : Within S a (d.atMirror kind m b f) := .ite (hd.mirrorDefer hS) hf

theorem Within.localWrite {d : Dev} {m off : Nat} {f : Dev → Dev} (hd : Within S a d) (hf : Within S a (f d))
    (hS : Scope.le ⟨[.posted], [], []⟩ S) : Within S a (d.localWrite m off f) := .ite (hd.post hS) hf

theorem Within.mirroredWrite {d : Dev} {m off data : Nat} {f : Dev → Dev} (hd : Within S a d) (hf : Within S a (f d))
    (hS : Scope.le ⟨[.posted, .twn], [], []⟩ S) : Within S a (d.mirroredWrite m off data f) := by
  refine .ite (hd.lift hS (.post .refl rfl)) (hf.lift hS (.mirror .refl rfl))

theorem Within.setLp {d : Dev} {p : ℕ} {x : LptPort} (hd : Within S a d)
    (hS : Scope.le ⟨[.lpt], [], []⟩ S) : Within S a (d.setLp p x) := by
  refine hd.lift hS ?_
  unfold Dev.setLp
  exact .set_lpt .refl rfl

theorem Within.updLp {d : Dev} {p : ℕ} {f : LptPort → LptPort} (hd : Within S a d)
    (hS : Scope.le ⟨[.lpt], [], []⟩ S) : Within S a (d.updLp p f) := by
  refine hd.lift hS ?_
  unfold Dev.updLp
  exact .setLp .refl rfl

theorem Within.egressAt {d : Dev} {p : ℕ} {o : ℕ} {q : Packet} {rest : List Packet} (hd : Within S a d) (hp : p < 17)
    (hS : Scope.le ⟨[.lpt, .pir], [5], []⟩ S) : Within S a (egressAt d p o q rest) := by
  refine hd.lift hS ?_
  unfold Machine.egressAt
  exact .bump (.updLp (.set_pir .refl rfl) rfl) (has_pier hp rfl)

theorem Within.sendPause {p cls time : ℕ} {d : Dev} (hd : Within S a d)
    (hk : p < 128 → S.has ((F.LPT_TX_FLOW_CTRL.port p).off % 0x20000000))
    (hS : Scope.le ⟨[.lpt], [], []⟩ S) : Within S a (d.sendPause p cls time) := by
  unfold Dev.sendPause
  exact .when (.updLp hd hS) fun h => .bump (.updLp hd hS) (hk (of_decide_eq_true h))

theorem Within.flowCheck {d : Dev} {p cls : ℕ} (hd : Within S a d) (hS : Scope.le ⟨[.lpt], [4], []⟩ S) :
    Within S a (d.flowCheck p cls) := by
  refine hd.lift hS ?_
  unfold Dev.flowCheck
  dsimp only
  exact .ite (.ite (.sendPause (.updLp .refl rfl) (has_port · rfl) rfl) (.ite (.sendPause (.updLp .refl rfl) (has_port · rfl) rfl)
    .refl)) .refl

theorem Within.flowAdd {d : Dev} {fl : Option (ℕ × ℕ)} {n : ℕ} (hd : Within S a d)
    (hS : Scope.le ⟨[.lpt], [4], []⟩ S) : Within S a (d.flowAdd fl n) := by
  refine hd.lift hS ?_
  unfold Dev.flowAdd
  split
  · exact .refl
  · exact .flowCheck (.updLp .refl rfl) rfl

theorem Within.flowSub {d : Dev} {fl : Option (ℕ × ℕ)} {n : ℕ} (hd : Within S a d)
    (hS : Scope.le ⟨[.lpt], [4], []⟩ S) : Within S a (d.flowSub fl n) := by
  refine hd.lift hS ?_
  unfold Dev.flowSub
  split
  · exact .refl
  · exact .flowCheck (.updLp .refl rfl) rfl

theorem Within.setLevels {d : Dev} {e : ℕ} {l : Levels} (hd : Within S a d)
    (hS : Scope.le ⟨[.shp], [], []⟩ S) : Within S a (d.setLevels e l) := by
  refine hd.lift hS ?_
  unfold Dev.setLevels
  exact .set_shp .refl rfl

theorem Within.refreshElem {d : Dev} {e : ℕ} (hd : Within S a d)
    (hS : Scope.le ⟨[.shp], [], []⟩ S) : Within S a (d.refreshElem e) := by
  refine hd.lift hS ?_
  unfold Dev.refreshElem
  exact .ite .refl (.ite (.setLevels .refl rfl) (.setLevels .refl rfl))

theorem Within.lowerLevels {d : Dev} {e : ℕ} {l : Levels} (hd : Within S a d)
    (hS : Scope.le ⟨[.shp], [], [F.SHP_LEVEL_CAPS.off]⟩ S) : Within S a (d.lowerLevels e l) := by
  refine hd.lift hS ?_
  unfold Dev.lowerLevels
  exact .bumpN (.setLevels .refl rfl) rfl

theorem Within.capElem {d : Dev} {e : ℕ} (hd : Within S a d)
    (hS : Scope.le ⟨[.shp], [], [F.SHP_LEVEL_CAPS.off]⟩ S) : Within S a (d.capElem e) := by
  refine hd.lift hS ?_
  unfold Dev.capElem
  exact .ite .refl (.lowerLevels .refl rfl)

theorem Within.charge {d : Dev} {e : ℕ} {state : ℕ} {port : ℕ} {len : ℕ} (hd : Within S a d)
    (hS : Scope.le ⟨[.shp], [], []⟩ S) : Within S a (d.charge e state port len) := by
  refine hd.lift hS ?_
  unfold Dev.charge
  dsimp only
  split
  · exact .refl
  · exact .setLevels .refl rfl
  · exact .setLevels .refl rfl
  · exact .setLevels .refl rfl
  · exact .setLevels .refl rfl
  · exact .setLevels .refl rfl

theorem Within.bindElem {d : Dev} {e : ℕ} {p : ℕ} (hd : Within S a d)
    (hS : Scope.le ⟨[.shp], [], [F.SHP_ELEM_PROFILE_PROFILE.off, F.SHP_LEVEL_CAPS.off]⟩ S) : Within S a (d.bindElem e p) := by
  refine hd.lift hS ?_
  unfold Dev.bindElem
  dsimp only
  split
  · exact .refl
  · split
    · exact .capElem (.wr .refl (has_item rfl)) rfl
    · exact .lowerLevels (.wr .refl (has_item rfl)) rfl

theorem Within.elemBind {m : ℕ} {data : Word} {d : Dev} (hd : Within S a d)
    (hS : Scope.le ⟨[.posted, .shp], [], [F.SHP_ELEM_PROFILE_PROFILE.off, F.SHP_LEVEL_CAPS.off]⟩ S) : Within S a (elemBind m data d) := by
  refine hd.lift hS ?_
  unfold Machine.elemBind
  exact .ite (.bindElem .refl rfl) (.post .refl rfl)

theorem Within.switchSet {d : Dev} {s direct : ℕ} (hd : Within S a d)
    (hS : Scope.le ⟨[.posted, .shp], [9], []⟩ S) : Within S a (d.switchSet s direct) := by
  refine hd.lift hS ?_
  unfold Dev.switchSet
  exact .post (.bump (.wr (.wr (.each (.each .refl (fun x _ e he => (.wr he (has_item rfl)))) (fun x _ e he => (.capElem he
    rfl))) rfl) rfl) rfl) rfl

theorem Within.timedSwitch {d : Dev} {s : ℕ} {m : ℕ} (hd : Within S a d)
    (hS : Scope.le ⟨[.posted, .shp], [9], []⟩ S) : Within S a (d.timedSwitch s m).2 := by
  refine hd.lift hS ?_
  unfold Dev.timedSwitch
  split
  · exact .switchSet .refl rfl
  · exact .post .refl rfl

theorem Within.setSwitchWrite {m : ℕ} {data : Word} {d : Dev} (hd : Within S a d)
    (hS : Scope.le ⟨[.posted, .shp], [], [F.SHP_STATUS_SWITCH_PEND.off]⟩ S) : Within S a (setSwitchWrite m data d) := by
  refine hd.lift hS ?_
  unfold Machine.setSwitchWrite
  exact .ite (.post .refl rfl) (.wr (.set_shp .refl rfl) rfl)

theorem Within.setSwitch {d : Dev} (hd : Within S a d)
    (hS : Scope.le ⟨[.posted, .shp], [9], []⟩ S) : Within S a (setSwitch d) := by
  refine hd.lift hS ?_
  unfold Machine.setSwitch
  split
  · exact .refl
  · exact .ite .refl (.wr (.switchSet (.set_shp .refl rfl) rfl) rfl)

theorem Within.refreshAll {d : Dev} (hd : Within S a d)
    (hS : Scope.le ⟨[.shp], [], []⟩ S) : Within S a (d.refreshAll) := by
  refine hd.lift hS ?_
  unfold Dev.refreshAll
  exact .each (.set_shp .refl rfl) (fun x _ e he => (.refreshElem he rfl))

end Sys2Proof.Machine
end

