-- ==== Sys2Proof/Proofs/FramesQueue.lean ====
section
/-! PROOF. What the model's functions may change: the queues, the scheduler and the deck.
Each has the least scope it needs, and runs within any wider one. -/

namespace Sys2Proof.Machine

variable {S : Scope} {a : Dev}

theorem Within.setQueue {d : Dev} {q : ℕ} {l : List Desc} (hd : Within S a d)
    (hS : Scope.le ⟨[.que], [], []⟩ S) : Within S a (d.setQueue q l) := by
  refine hd.lift hS ?_
  unfold Dev.setQueue
  exact .set_que .refl rfl

theorem Within.setSpilled {d : Dev} {q : ℕ} {b : Bool} (hd : Within S a d)
    (hS : Scope.le ⟨[.que], [], []⟩ S) : Within S a (d.setSpilled q b) := by
  refine hd.lift hS ?_
  unfold Dev.setSpilled
  exact .set_que .refl rfl

theorem Within.wred {d : Dev} {q : ℕ} {pkt : Packet} (hd : Within S a d)
    (hS : Scope.le ⟨[.que], [8], []⟩ S) : Within S a (d.wred q pkt).2.2 := by
  refine hd.lift hS ?_
  unfold Dev.wred
  dsimp only
  split
  · exact .refl
  · split
    · exact .set_que .refl rfl
    · split
      · exact .set_que .refl rfl
      · split
        · split
          · exact .bump (.wr (.set_que .refl rfl) (has_item rfl)) rfl
          · exact .wr (.set_que .refl rfl) (has_item rfl)
        · exact .wr (.set_que .refl rfl) (has_item rfl)

theorem Within.queueDrop {d : Dev} {q : ℕ} {reason : ℕ} (hd : Within S a d)
    (hS : Scope.le ⟨[], [8, 14], []⟩ S) : Within S a (d.queueDrop q reason) := by
  refine hd.lift hS ?_
  unfold Dev.queueDrop
  dsimp only
  split
  · exact .bump (.dropCount (.bump .refl (has_item rfl)) rfl) rfl
  · split
    · exact .bump (.dropCount (.bump .refl (has_item rfl)) rfl) rfl
    · split
      · exact .bump (.dropCount (.bump .refl (has_item rfl)) rfl) rfl
      · split
        · exact .bump (.dropCount (.bump .refl (has_item rfl)) rfl) rfl
        · exact .dropCount (.bump .refl (has_item rfl)) rfl

theorem Within.admitChecks {d : Dev} {q : ℕ} {pkt : Packet} (hd : Within S a d)
    (hS : Scope.le ⟨[.que], [8], []⟩ S) : Within S a (d.admitChecks q pkt).2.2 := by
  refine hd.lift hS ?_
  unfold Dev.admitChecks
  dsimp only
  split
  · dsimp only
    exact .refl
  · split
    · dsimp only
      exact .refl
    · dsimp only
      exact .wred .refl rfl

theorem Within.spillEnter {d : Dev} {q : ℕ} {pool : ℕ} (hd : Within S a d)
    (hS : Scope.le ⟨[.que], [], [F.BUF_SPILL_ENTER.off]⟩ S) : Within S a (d.spillEnter q pool) := by
  refine hd.lift hS ?_
  unfold Dev.spillEnter
  exact .ite (.bump (.setSpilled .refl rfl) rfl) .refl

theorem Within.append {d : Dev} {q : ℕ} {req : ℕ} {input : ℕ} {pkt : Packet} {pool : ℕ} {hs : List ℕ} {job : Option ℕ} (hd : Within S a d)
    (hS : Scope.le ⟨[.lpt, .que], [4], [F.BUF_SPILL_ENTER.off]⟩ S) : Within S a (d.append q req input pkt pool hs job) := by
  refine hd.lift hS ?_
  unfold Dev.append
  exact .flowAdd (.spillEnter (.setQueue .refl rfl) rfl) rfl

theorem Within.admitTo {d : Dev} {q : ℕ} {req : ℕ} {input : ℕ} {pkt : Packet} (hd : Within S a d)
    (hS : Scope.le ⟨[.fresh, .lpt, .buf, .que], [4, 7, 8, 14], []⟩ S) : Within S a (d.admitTo q req input pkt).2 := by
  refine hd.lift hS ?_
  unfold Dev.admitTo
  split
  · rename_i h
    exact .queueDrop (.snd2 h (.admitChecks .refl rfl)) rfl
  · rename_i h
    split
    · rename_i h1
      dsimp only
      exact .queueDrop (.snd h1 (.alloc (.snd2 h (.admitChecks .refl rfl)) rfl)) rfl
    · rename_i h1
      exact .append (.snd h1 (.alloc (.snd2 h (.admitChecks .refl rfl)) rfl)) rfl

theorem Within.setTag {d : Dev} {e : ℕ} {v : ℕ} (hd : Within S a d)
    (hS : Scope.le ⟨[.que], [], []⟩ S) : Within S a (d.setTag e v) := by
  refine hd.lift hS ?_
  unfold Dev.setTag
  exact .set_que .refl rfl

theorem Within.settle {d : Dev} (hd : Within S a d)
    (hS : Scope.le ⟨[.que], [], []⟩ S) : Within S a (d.settle) := by
  refine hd.lift hS ?_
  unfold Dev.settle
  exact .each .refl (fun x _ e he => (.set_que (.ite (.setTag he rfl) he) rfl))

theorem Within.noteSojourn {d : Dev} {q s : ℕ} (hd : Within S a d)
    (hS : Scope.le ⟨[.que], [8], []⟩ S) : Within S a (d.noteSojourn q s) := by
  refine hd.lift hS ?_
  unfold Dev.noteSojourn
  exact .each (.wr (.set_que .refl rfl) (has_item rfl)) (fun x _ e he => (.bump he (has_item (has_ix (histBin_lt _) rfl))))

theorem Within.zeroBins {d : Dev} {k : ℕ} (hd : Within S a d)
    (hS : Scope.le ⟨[], [8], []⟩ S) : Within S a (d.zeroBins k) := by
  refine hd.lift hS ?_
  unfold Dev.zeroBins
  exact .each .refl (fun b hb e he => .wr he (has_item (has_ix (List.mem_range.1 hb) rfl)))

theorem Within.histWrite {data : Word} {d : Dev} (hd : Within S a d)
    (hS : Scope.le ⟨[], [8], []⟩ S) : Within S a (histWrite data d) := by
  refine hd.lift hS ?_
  unfold Machine.histWrite
  exact .setReg (.ite (.zeroBins .refl rfl) .refl) (has_item rfl)

theorem Within.releaseRecord {d : Dev} {x : Desc} (hd : Within S a d)
    (hS : Scope.le ⟨[.posted, .buf, .dck], [7], []⟩ S) : Within S a (d.releaseRecord x) := by
  refine hd.lift hS ?_
  unfold Dev.releaseRecord
  exact .ite (.set_dck .refl rfl) (.freeRecord .refl rfl)

theorem Within.spillCheck {d : Dev} {q : ℕ} (hd : Within S a d)
    (hS : Scope.le ⟨[.que], [], []⟩ S) : Within S a (d.spillCheck q) := by
  refine hd.lift hS ?_
  unfold Dev.spillCheck
  exact .ite (.setSpilled .refl rfl) .refl

theorem Within.popHead {d : Dev} {q : ℕ} {x : Desc} (hd : Within S a d)
    (hS : Scope.le ⟨[.lpt, .que], [4, 8], []⟩ S) : Within S a (d.popHead q x) := by
  refine hd.lift hS ?_
  unfold Dev.popHead
  exact .spillCheck (.flowSub (.noteSojourn (.setQueue .refl rfl) rfl) rfl) rfl

theorem Within.chargePath {d : Dev} {len : ℕ} {elems : List (ℕ × ℕ)} (hd : Within S a d)
    (hS : Scope.le ⟨[.que, .shp], [], []⟩ S) : Within S a (d.chargePath len elems) := by
  refine hd.lift hS ?_
  unfold Dev.chargePath
  exact .each .refl (fun x _ e he => (.ite (.charge he rfl) (.setTag (.set_que (.charge he rfl) rfl) rfl)))

theorem Within.noteStates {d : Dev} {port : ℕ} (hd : Within S a d)
    (hS : Scope.le ⟨[], [], [F.SHP_ELEM_STATE_STATE.off]⟩ S) : Within S a (d.noteStates port) := by
  refine hd.lift hS ?_
  unfold Dev.noteStates
  split
  · exact .refl
  · exact .each .refl (fun x1 _ e he => (.wr he (has_item rfl)))

theorem Within.notedAt {d : Dev} {o : ℕ} (hd : Within S a d)
    (hS : Scope.le ⟨[], [], [F.SHP_ELEM_STATE_STATE.off]⟩ S) : Within S a (notedAt d o) := by
  refine hd.lift hS ?_
  unfold Machine.notedAt
  exact .each .refl (fun x _ e he => (.noteStates he rfl))

theorem Within.countMark {d : Dev} {q : ℕ} {x : Desc} (hd : Within S a d)
    (hS : Scope.le ⟨[], [], [F.QUE_SJ_MARK.off]⟩ S) : Within S a (d.countMark q x) := by
  refine hd.lift hS ?_
  unfold Dev.countMark
  exact .when .refl (fun _ => (.bump .refl rfl))

theorem Within.farFate {d : Dev} {x : Desc} (hd : Within S a d)
    (hS : Scope.le ⟨[.fresh], [], []⟩ S) : Within S a (d.farFate x).2 := by
  refine hd.lift hS ?_
  unfold Dev.farFate
  split
  · exact .takeFree .refl rfl
  · exact .refl

theorem Within.farDrop {d : Dev} {x : Desc} {q cause : ℕ} (hd : Within S a d)
    (hS : Scope.le ⟨[.posted, .fresh], [14], [F.BUF_FAR_ERROR_DROP.off]⟩ S) : Within S a (d.farDrop x q cause) := by
  refine hd.lift hS ?_
  unfold Dev.farDrop
  split
  rename_i h
  refine .post (.bump (.dropCount (.snd h ?_) rfl) rfl) rfl
  split
  · exact .refl
  · exact .takeFree .refl rfl

theorem Within.expireHead {d : Dev} {q : ℕ} {x : Desc} (hd : Within S a d)
    (hS : Scope.le ⟨[.posted, .tim, .lpt, .buf, .que, .dck], [4, 7, 14], [F.TIM_EXPIRED_CNT.off]⟩ S) : Within S a (d.expireHead q x) := by
  refine hd.lift hS ?_
  unfold Dev.expireHead
  exact .dropExpired (.releaseRecord (.spillCheck (.flowSub (.setQueue .refl rfl) rfl) rfl) rfl) rfl

theorem Within.select {d : Dev} {farErr n : ℕ} {via : List ℕ} (hd : Within S a d)
    (hS : Scope.le ⟨[.posted, .fresh, .tim, .lpt, .buf, .que, .shp, .dck], [4, 7, 8, 14], [F.TIM_EXPIRED_CNT.off]⟩ S) :
    Within S a (d.select farErr n via).2 := by
  induction n generalizing d via with
  | zero => exact hd
  | succ k ih =>
    rw [Dev.select]
    split
    · exact hd
    rename_i p _
    dsimp only
    generalize egrQueue (p.path.getLastD (0, 0)).1 = q
    split
    · dsimp only
      exact hd.lift hS (.settle (.lowCheck (.expireHead .refl rfl) rfl) rfl)
    split
    · exact ih (hd.lift hS (.settle (.queueDrop (.releaseRecord (.popHead .refl rfl) rfl) rfl) rfl))
    have hm : Within S a ((d.countMark q p.head).chargePath p.head.pktLen p.path) :=
      hd.lift hS (.chargePath (.countMark .refl rfl) rfl)
    have hx : Within S a (((d.countMark q p.head).chargePath p.head.pktLen p.path).when (d.spilled q && p.head.far) (·.bump
      F.BUF_PF_MISS)) :=
      .when hm fun _ => hm.lift hS (.bump .refl rfl)
    have hr := hx.lift hS (.releaseRecord (x := p.head) (.popHead (q := q) (x := p.head) .refl rfl) rfl)
    split
    · dsimp only
      exact hr.lift hS (.settle (.lowCheck (.farDrop .refl rfl) rfl) rfl)
    · dsimp only
      exact hr.lift hS (.settle (.lowCheck .refl rfl) rfl)

theorem Within.selectAt {d : Dev} {port farErr fuel : ℕ} (hd : Within S a d)
    (hS : Scope.le ⟨[.posted, .fresh, .tim, .lpt, .buf, .que, .shp, .dck], [4, 7, 8, 14], [F.TIM_EXPIRED_CNT.off]⟩ S) :
    Within S a (d.selectAt port farErr fuel).2 := by
  unfold Dev.selectAt
  split
  · exact hd
  · exact .select hd hS

theorem Within.setParent {d : Dev} {e : ℕ} {p : ℕ} (hd : Within S a d)
    (hS : Scope.le ⟨[.que], [], []⟩ S) : Within S a (d.setParent e p) := by
  refine hd.lift hS ?_
  unfold Dev.setParent
  exact .set_que .refl rfl

theorem Within.setElig {d : Dev} {e : ℕ} {b : Bool} (hd : Within S a d)
    (hS : Scope.le ⟨[.que], [], []⟩ S) : Within S a (d.setElig e b) := by
  refine hd.lift hS ?_
  unfold Dev.setElig
  exact .set_que .refl rfl

theorem Within.setMoveResult {d : Dev} {m : ℕ} {c : ℕ} (hd : Within S a d)
    (hS : Scope.le ⟨[.que], [], []⟩ S) : Within S a (d.setMoveResult m c) := by
  refine hd.lift hS ?_
  unfold Dev.setMoveResult
  exact .set_que .refl rfl

theorem Within.move {d : Dev} {cmd m : Nat} {f : Nat → Nat → Dev → Dev} (hd : Within S a d) (hf : ∀ src dst, Within S a (f src dst d))
    (hS : Scope.le ⟨[.posted, .que], [], []⟩ S) : Within S a (d.move cmd m f) := by
  refine .ite ((hf _ _).lift hS (.settle (.setMoveResult .refl rfl) rfl)) (hd.lift hS (.post (.setMoveResult .refl rfl) rfl))

theorem Within.queAttach {m : ℕ} {d : Dev} (hd : Within S a d)
    (hS : Scope.le ⟨[.posted, .que], [], []⟩ S) : Within S a (queAttach m d) := by
  refine hd.lift hS ?_
  unfold Machine.queAttach
  exact .move .refl (fun src dst => (.setElig (.setTag (.setParent .refl rfl) rfl) rfl)) rfl

theorem Within.queSwap {m : ℕ} {d : Dev} (hd : Within S a d)
    (hS : Scope.le ⟨[.posted, .que], [], []⟩ S) : Within S a (queSwap m d) := by
  refine hd.lift hS ?_
  unfold Machine.queSwap
  exact .move .refl (fun src dst => (.setElig (.setParent (.setElig (.setTag (.setParent .refl rfl) rfl) rfl) rfl) rfl)) rfl

theorem Within.queDetach {m : ℕ} {d : Dev} (hd : Within S a d)
    (hS : Scope.le ⟨[.posted, .que], [], []⟩ S) : Within S a (queDetach m d) := by
  refine hd.lift hS ?_
  unfold Machine.queDetach
  exact .move .refl (fun src dst => (.setElig (.setParent .refl rfl) rfl)) rfl

theorem Within.mirrorMove {d : Dev} {m : ℕ} {cmd : ℕ} (hd : Within S a d)
    (hS : Scope.le ⟨[.twn], [], []⟩ S) : Within S a (d.mirrorMove m cmd) := by
  refine hd.lift hS ?_
  unfold Dev.mirrorMove
  exact .ite (.mirror .refl rfl) .refl

theorem Within.nodePortWrite {m : ℕ} {data : Word} {d : Dev} (hd : Within S a d)
    (hS : Scope.le ⟨[.posted], [], [F.QUE_NODE_PORT_PORT.off]⟩ S) : Within S a (nodePortWrite m data d) := by
  refine hd.lift hS ?_
  unfold Machine.nodePortWrite
  exact .ite (.wr .refl (has_item rfl)) (.post .refl rfl)

theorem Within.setRoots {d : Dev} {posted : Bool} (hd : Within S a d)
    (hS : Scope.le ⟨[.posted, .que], [], [F.QUE_NODE_PORT_PORT.off]⟩ S) : Within S a (d.setRoots posted) := by
  refine hd.lift hS ?_
  unfold Dev.setRoots
  refine .each .refl (fun x _ e he => ?_)
  split
  · exact he
  · split
    · exact he
    · dsimp only
      split
      · exact .post (.wr (.setParent (.set_que he rfl) rfl) (has_item rfl)) rfl
      · exact .wr (.setParent (.set_que he rfl) rfl) (has_item rfl)

theorem Within.applyTmProfile {d : Dev} (hd : Within S a d)
    (hS : Scope.le ⟨[.shp], [], [F.QUE_NODE_CFG.off, F.SHP_ELEM_PROFILE_PROFILE.off, F.SHP_LEVEL_CAPS.off]⟩ S) :
    Within S a (d.applyTmProfile) := by
  refine hd.lift hS ?_
  unfold Dev.applyTmProfile
  split
  · exact .refl
  · refine .each .refl (fun x1 _ e he => ?_)
    split
    · exact .each he (fun x3 _ e1 he1 => (.setReg he1 (has_item rfl)))
    · split
      · exact .each he (fun x3 _ e1 he1 => (.ite he1 (.bindElem he1 rfl)))
      · exact he

theorem Within.quePortCfgWrite {m p : ℕ} {data : Word} {d : Dev} (hd : Within S a d)
    (hk : S.has ((F.QUE_PORT_CFG.ix p).off % 0x20000000))
    (hS : Scope.le ⟨[.posted], [], []⟩ S) : Within S a (Machine.quePortCfgWrite m p data d) := by
  unfold Machine.quePortCfgWrite
  exact .ite (.setReg hd hk) (.post hd hS)

theorem Within.requestFlush {d : Dev} {cause : ℕ} {port : ℕ} {rs : List (ℕ × ℕ)} (hd : Within S a d)
    (hS : Scope.le ⟨[.que], [], []⟩ S) : Within S a (d.requestFlush cause port rs) := by
  refine hd.lift hS ?_
  unfold Dev.requestFlush
  exact .set_que .refl rfl

theorem Within.flushPortDown {d : Dev} {p : ℕ} (hd : Within S a d)
    (hS : Scope.le ⟨[.que], [], []⟩ S) : Within S a (d.flushPortDown p) := by
  refine hd.lift hS ?_
  unfold Dev.flushPortDown
  exact .requestFlush (.set_que .refl rfl) rfl

theorem Within.flushOne {d : Dev} {q : ℕ} (hd : Within S a d)
    (hS : Scope.le ⟨[.posted, .fresh, .lpt, .buf, .que, .dck], [4, 7, 14], [F.QUE_FLUSH_DROP.off]⟩ S) : Within S a (d.flushOne q).2 := by
  refine hd.lift hS ?_
  unfold Dev.flushOne
  refine .spillCheck (.setQueue (.each .refl (fun x _ e he => ?_)) rfl) rfl
  dsimp only
  split
  · exact .farDrop (.releaseRecord (.flowSub he rfl) rfl) rfl
  · exact .bump (.dropCount (.releaseRecord (.flowSub he rfl) rfl) rfl) rfl

theorem Within.flushSome {d : Dev} {n : ℕ} {x : FlushReq} (hd : Within S a d)
    (hS : Scope.le ⟨[.posted, .fresh, .lpt, .buf, .que, .dck], [4, 7, 14], [F.QUE_FLUSH_DROP.off]⟩ S) :
    Within S a (d.flushSome n x).2.2 := by
  refine hd.lift hS ?_
  clear hd
  induction n generalizing d x with
  | zero =>
    rw [Dev.flushSome]
    dsimp only
    exact .refl
  | succ k ih =>
    rw [Dev.flushSome]
    dsimp only
    split
    · dsimp only
      exact .refl
    · exact .trans (.flushOne .refl rfl) ih

theorem Within.flushRun {d : Dev} {n : ℕ} {l : List FlushReq} (hd : Within S a d)
    (hS : Scope.le ⟨[.posted, .fresh, .lpt, .buf, .que, .dck], [4, 7, 14], [F.QUE_FLUSH_DROP.off]⟩ S) :
    Within S a (d.flushRun n l).2 := by
  refine hd.lift hS ?_
  clear hd
  induction l generalizing d n with
  | nil =>
    rw [Dev.flushRun]
    exact .refl
  | cons y t ih =>
    rw [Dev.flushRun]
    split
    · exact .refl
    · split
      · rename_i h1
        split
        · exact .trans (.post (.snd2 h1 (.flushSome .refl rfl)) rfl) ih
        · exact .snd2 h1 (.flushSome .refl rfl)

theorem Within.mirrorLost {d : Dev} {s : ℕ} (hd : Within S a d)
    (hS : Scope.le ⟨[], [], [F.DCK_MIR_LOST.off]⟩ S) : Within S a (d.mirrorLost s) := by
  refine hd.lift hS ?_
  unfold Dev.mirrorLost
  exact .bump .refl (has_item rfl)

theorem Within.mirrorsLost {d : Dev} {sessions : List ℕ} (hd : Within S a d)
    (hS : Scope.le ⟨[], [], [F.DCK_MIR_LOST.off]⟩ S) : Within S a (d.mirrorsLost sessions) := by
  refine hd.lift hS ?_
  unfold Dev.mirrorsLost
  exact .each .refl (fun x _ e he => (.mirrorLost he rfl))

theorem Within.emptyBuffers {d : Dev} (hd : Within S a d)
    (hS : Scope.le ⟨[.posted, .fresh, .lpt, .buf, .que, .dck], [4, 7, 14], [F.QUE_FLUSH_DROP.off, F.DCK_MIR_LOST.off]⟩ S) :
    Within S a (d.emptyBuffers) := by
  refine hd.lift hS ?_
  unfold Dev.emptyBuffers
  exact .returnAllBuffers (.set_dck (.mirrorsLost (.each .refl (fun x _ e he => (.flushOne he rfl))) rfl) rfl) rfl

theorem Within.flushProgress {d : Dev} (hd : Within S a d)
    (hS : Scope.le ⟨[.posted, .fresh, .lpt, .buf, .que, .dck], [4, 7, 14], [F.QUE_FLUSH_DROP.off, F.DCK_MIR_LOST.off]⟩ S) :
    Within S a (flushProgress d) := by
  refine hd.lift hS ?_
  unfold Machine.flushProgress
  split
  · exact .refl
  · refine .settle (.lowCheck ?_ rfl) rfl
    split
    · exact .emptyBuffers (.set_que (.flushRun (.set_que .refl rfl) rfl) rfl) rfl
    · exact .set_que (.flushRun (.set_que .refl rfl) rfl) rfl

theorem Within.prefetch {err : ℕ} {d : Dev} (hd : Within S a d)
    (hS : Scope.le ⟨[.posted, .fresh, .buf, .que, .dck], [7], []⟩ S) : Within S a (prefetch err d) := by
  refine hd.lift hS ?_
  unfold Machine.prefetch
  split
  · exact .refl
  · split
    · exact .refl
    · dsimp only
      split
      · exact .set_buf .refl rfl
      · split
        · exact .set_buf .refl rfl
        · split
          · exact .setQueue (.set_buf .refl rfl) rfl
          · exact .lowCheck (.spillCheck (.bump (.releaseRecord (.setQueue (.placePaged (.set_buf .refl rfl) rfl) rfl) rfl) rfl) rfl) rfl

theorem Within.puntWrite {d : Dev} {k : ℕ} {desc : BitVec 256} {pkt : Packet} (hd : Within S a d)
    (hS : Scope.le ⟨[.hostMem, .hst], [14], []⟩ S) : Within S a (d.puntWrite k desc pkt) := by
  refine hd.lift hS ?_
  unfold Dev.puntWrite
  exact .when (.wrIx (.dma (.dma .refl rfl) rfl) rfl) (fun _ => (.raiseVector (.wrIx (.dma (.dma .refl rfl) rfl) rfl) rfl))

theorem Within.selectOctet {o : ℕ} {farErr : ℕ} {d : Dev} (hd : Within S a d)
    (hS : Scope.le ⟨[.posted, .fresh, .tim, .lpt, .pir, .buf, .que, .shp, .dck], [4, 7, 8, 14], [F.TIM_EXPIRED_CNT.off,
      F.SHP_ELEM_STATE_STATE.off]⟩ S) :
    Within S a (selectOctet o farErr d) := by
  refine hd.lift hS ?_
  unfold Machine.selectOctet
  split
  · exact .refl
  · dsimp only
    split
    · exact .each .refl (fun x1 _ e he => (.noteStates he rfl))
    · split
      · rename_i h2
        exact .set_pir (.updLp (.snd h2 (.selectAt (.takeFree (.each .refl (fun x2 _ e1 he1 => (.noteStates he1 rfl))) rfl) rfl)) rfl) rfl
      · rename_i h3
        exact .snd h3 (.selectAt (.takeFree (.each .refl (fun x2 _ e he => (.noteStates he rfl))) rfl) rfl)

theorem Within.selectHost {desc : BitVec 256} {farErr : ℕ} {disabled : Bool} {d : Dev} (hd : Within S a d)
    (hS : Scope.le ⟨[.posted, .hostMem, .fresh, .tim, .lpt, .buf, .que, .shp, .dck, .hst], [4, 7, 8, 14], [F.TIM_EXPIRED_CNT.off,
      F.SHP_ELEM_STATE_STATE.off]⟩ S) :
    Within S a (selectHost desc farErr disabled d) := by
  refine hd.lift hS ?_
  unfold Machine.selectHost
  split
  · exact .refl
  · dsimp only
    split
    · rename_i h1
      split
      · exact .dropCount (.snd h1 (.selectAt (.noteStates .refl rfl) rfl)) rfl
      · exact .puntWrite (.snd h1 (.selectAt (.noteStates .refl rfl) rfl)) rfl
    · rename_i h2
      exact .snd h2 (.selectAt (.noteStates .refl rfl) rfl)

theorem Within.schedulerSelection {o : Option (Fin 16)} {desc : BitVec 256} {farErr : ℕ} {disabled : Bool} {d : Dev} (hd : Within S a d)
    (hS : Scope.le ⟨[.posted, .hostMem, .fresh, .tim, .lpt, .pir, .buf, .que, .shp, .dck, .hst], [4, 7, 8, 14], [F.TIM_EXPIRED_CNT.off,
      F.SHP_ELEM_STATE_STATE.off]⟩ S) :
    Within S a (schedulerSelection o desc farErr disabled d) := by
  refine hd.lift hS ?_
  unfold Machine.schedulerSelection
  split
  · exact .selectOctet .refl rfl
  · exact .selectHost .refl rfl

theorem Within.tokenRefresh {d : Dev} (hd : Within S a d)
    (hS : Scope.le ⟨[.que, .shp], [], []⟩ S) : Within S a (tokenRefresh d) := by
  refine hd.lift hS ?_
  unfold Machine.tokenRefresh
  exact .ite .refl (.settle (.refreshAll .refl rfl) rfl)

theorem Within.countCopy {d : Dev} {g : ℕ} {res : Option ℕ} {n : ℕ} (hd : Within S a d)
    (hS : Scope.le ⟨[], [11], []⟩ S) : Within S a (d.countCopy g res n) := by
  refine hd.lift hS ?_
  unfold Dev.countCopy
  split
  · exact .bumpN .refl (has_item rfl)
  · split
    · exact .bumpN .refl (has_groupDrop (by decide) rfl)
    · split
      · exact .bumpN .refl (has_groupDrop (by decide) rfl)
      · exact .bumpN .refl (has_groupDrop (by decide) rfl)

theorem Within.mirrorCopy {d : Dev} {s : ℕ} {input : ℕ} {p : Packet} (hd : Within S a d)
    (hS : Scope.le ⟨[.fresh, .lpt, .buf, .que], [4, 7, 8, 14], [F.DCK_MIR_MADE.off, F.DCK_MIR_LOST.off, F.DCK_MIRROR_SHED.off,
      F.DCK_MC_COPIES_TOTAL.off]⟩ S) :
    Within S a (d.mirrorCopy s input p) := by
  refine hd.lift hS ?_
  unfold Dev.mirrorCopy
  split
  · exact .mirrorLost (.bump .refl rfl) rfl
  · split
    · exact .mirrorLost .refl rfl
    · split
      · rename_i h2
        exact .bump (.bump (.snd h2 (.admitTo .refl rfl)) (has_item rfl)) rfl
      · rename_i h2
        exact .mirrorLost (.snd h2 (.admitTo .refl rfl)) rfl

theorem Within.pushJob {d : Dev} {j : ReplJob} (hd : Within S a d)
    (hS : Scope.le ⟨[.dck], [], []⟩ S) : Within S a (d.pushJob j) := by
  refine hd.lift hS ?_
  unfold Dev.pushJob
  exact .set_dck .refl rfl

theorem Within.sourceFate {d : Dev} {j : ReplJob} (hd : Within S a d)
    (hS : Scope.le ⟨[.fresh], [], []⟩ S) : Within S a (d.sourceFate j).2 := by
  refine hd.lift hS ?_
  unfold Dev.sourceFate
  exact .farFate .refl rfl

theorem Within.finishJob {d : Dev} {j : ReplJob} (hd : Within S a d)
    (hS : Scope.le ⟨[.posted, .buf, .dck], [7], []⟩ S) : Within S a (d.finishJob j) := by
  refine hd.lift hS ?_
  unfold Dev.finishJob
  exact .ite (.freeRecord (.set_dck .refl rfl) rfl) (.set_dck .refl rfl)

theorem Within.sourceLost {d : Dev} {j : ReplJob} {bad : ℕ} (hd : Within S a d)
    (hS : Scope.le ⟨[.posted, .fresh, .buf, .que, .dck], [7, 14], [F.DCK_MIR_LOST.off]⟩ S) : Within S a (d.sourceLost j bad) := by
  refine hd.lift hS ?_
  unfold Dev.sourceLost
  refine .finishJob (.set_que (.when (.farDrop ?_ rfl) (fun _ => (.mirrorLost (.farDrop ?_ rfl) rfl))) rfl) rfl
  · split
    · exact .refl
    · exact .takeFree .refl rfl
  · split
    · exact .refl
    · exact .takeFree .refl rfl

theorem Within.noMirror {d : Dev} {p : Packet} (hd : Within S a d)
    (hS : Scope.le ⟨[], [], [F.DCK_MIR_LOST.off]⟩ S) : Within S a (d.noMirror p) := by
  refine hd.lift hS ?_
  unfold Dev.noMirror
  exact .when .refl (fun _ => (.mirrorLost .refl rfl))

theorem Within.planOne {d : Dev} {q : ℕ} {a' : Arrival} (hd : Within S a d)
    (hS : Scope.le ⟨[.que], [8, 14], [F.DCK_MIR_LOST.off]⟩ S) : Within S a (d.planOne q a').2 := by
  refine hd.lift hS ?_
  unfold Dev.planOne
  split
  · rename_i h
    exact .noMirror (.queueDrop (.snd2 h (.admitChecks .refl rfl)) rfl) rfl
  · rename_i h
    exact .snd2 h (.admitChecks .refl rfl)

theorem Within.unplaced {d : Dev} {w : EnqPlan} (hd : Within S a d)
    (hS : Scope.le ⟨[], [8, 11, 14], []⟩ S) : Within S a (d.unplaced w) := by
  refine hd.lift hS ?_
  unfold Dev.unplaced
  refine .noMirror ?_ rfl
  split
  · exact .queueDrop .refl rfl
  · exact .countCopy (.queueDrop .refl rfl) rfl
  · exact .countCopy (.dropCount .refl rfl) rfl

theorem Within.place {d : Dev} {w : EnqPlan} {pool : ℕ} {hs : List ℕ} (hd : Within S a d)
    (hS : Scope.le ⟨[.posted, .lpt, .buf, .que, .dck], [4, 7, 11], []⟩ S) : Within S a (d.place w pool hs) := by
  refine hd.lift hS ?_
  unfold Dev.place
  dsimp only
  split
  · split
    · exact .post (.noMirror (.append .refl rfl) rfl) rfl
    · exact .when (.append .refl rfl) (fun _ => (.pushJob (.append .refl rfl) rfl))
  · exact .when (.countCopy (.append .refl rfl) rfl) (fun _ => (.pushJob (.countCopy (.append .refl rfl) rfl) rfl))
  · exact .ite (.pushJob .refl rfl) (.freeRecord .refl rfl)

theorem Within.setProg {d : Dev} {i : ℕ} {o : ℕ} {x : Option DeckPkt} (hd : Within S a d)
    (hS : Scope.le ⟨[.dck], [], []⟩ S) : Within S a (d.setProg i o x) := by
  refine hd.lift hS ?_
  unfold Dev.setProg
  exact .set_dck .refl rfl

theorem Within.setFabQ {d : Dev} {i : ℕ} {o : ℕ} {c : ℕ} {l : List DeckPkt} (hd : Within S a d)
    (hS : Scope.le ⟨[.dck], [], []⟩ S) : Within S a (d.setFabQ i o c l) := by
  refine hd.lift hS ?_
  unfold Dev.setFabQ
  exact .set_dck .refl rfl

theorem Within.deliver {d : Dev} {i : ℕ} {o : ℕ} {x : DeckPkt} (hd : Within S a d)
    (hS : Scope.le ⟨[.posted, .fresh, .buf, .dck, .twn], [7, 14], [F.QUE_EQ_RANGE_DROP.off, F.DCK_CRC_DROP.off, F.TWN_EVIDENCE.off]⟩ S) :
    Within S a (d.deliver i o x).2 := by
  refine hd.lift hS ?_
  unfold Dev.deliver
  dsimp only
  split
  · split
    · exact .post (.evidence (.bump (.dropCount (.set_fresh (.releaseRecord .refl rfl) rfl) rfl) rfl) rfl) rfl
    · split
      · exact .bump (.dropCount (.set_fresh (.releaseRecord .refl rfl) rfl) rfl) rfl
      · exact .set_fresh (.releaseRecord .refl rfl) rfl
  · split
    · exact .post (.evidence (.bump (.dropCount (.set_fresh .refl rfl) rfl) rfl) rfl) rfl
    · split
      · exact .bump (.dropCount (.set_fresh .refl rfl) rfl) rfl
      · exact .set_fresh .refl rfl

theorem Within.askAll {d : Dev} {l : List Delivery} (hd : Within S a d)
    (hS : Scope.le ⟨[.que], [8, 14], []⟩ S) : Within S a (d.askAll l).2 := by
  refine hd.lift hS ?_
  clear hd
  induction l generalizing d with
  | nil =>
    rw [Dev.askAll]
    exact .refl
  | cons y t ih =>
    rw [Dev.askAll]
    split
    · rename_i h
      exact .trans (.queueDrop (.snd2 h (.admitChecks .refl rfl)) rfl) ih
    · rename_i h
      exact .trans (.snd2 h (.admitChecks .refl rfl)) ih

theorem Within.deliverAll {d : Dev} {n : ℕ} {l : List Delivery} (hd : Within S a d)
    (hS : Scope.le ⟨[.fresh, .lpt, .buf, .que], [4, 7, 8, 14], []⟩ S) : Within S a (d.deliverAll n l) := by
  refine hd.lift hS ?_
  clear hd
  induction n generalizing d l with
  | zero =>
    rw [Dev.deliverAll]
    exact .refl
  | succ k ih =>
    rw [Dev.deliverAll]
    refine .trans (.each (.allocClock (.askAll .refl rfl) rfl) (fun x _ e he => ?_)) ih
    split
    · exact .append he rfl
    · exact .queueDrop he rfl

theorem Within.startLocal {d : Dev} {i : ℕ} {o : ℕ} {n : ℕ} (hd : Within S a d)
    (hS : Scope.le ⟨[.posted, .fresh, .lpt, .buf, .que, .dck], [4, 7, 8, 14], []⟩ S) : Within S a (d.startLocal i o n).2 := by
  refine hd.lift hS ?_
  clear hd
  induction n generalizing d with
  | zero =>
    rw [Dev.startLocal]
    exact .refl
  | succ k ih =>
    rw [Dev.startLocal]
    split
    · exact .refl
    · dsimp only
      split
      · exact .refl
      · split
        · exact .trans (.queueDrop (.releaseRecord (.popHead (.set_dck .refl rfl) rfl) rfl) rfl) ih
        · split
          · exact .trans (.farDrop (.releaseRecord (.popHead (.farFate (.when (.countMark (.set_dck .refl rfl) rfl) (fun _ => (.bump
              (.countMark (.set_dck .refl rfl) rfl) rfl))) rfl) rfl) rfl) rfl) ih
          · exact .popHead (.farFate (.when (.countMark (.set_dck .refl rfl) rfl) (fun _ => (.bump (.countMark (.set_dck .refl rfl) rfl)
              rfl))) rfl) rfl

theorem Within.startStream {d : Dev} {i : ℕ} {o : ℕ} (hd : Within S a d)
    (hS : Scope.le ⟨[.posted, .fresh, .lpt, .buf, .que, .dck], [4, 7, 8, 14], []⟩ S) : Within S a (d.startStream i o).2 := by
  refine hd.lift hS ?_
  unfold Dev.startStream
  split
  · exact .startLocal .refl rfl
  · split
    · exact .refl
    · split
      · exact .refl
      · exact .setFabQ .refl rfl

theorem Within.sendCell {d : Dev} {i : ℕ} {o : ℕ} {n : ℕ} {n1 : ℕ} (hd : Within S a d)
    (hS : Scope.le ⟨[.posted, .fresh, .lpt, .buf, .que, .dck, .twn], [4, 7, 8, 14], [F.DCK_CRC_DROP.off, F.TWN_EVIDENCE.off]⟩ S) :
    Within S a (d.sendCell i o n n1).2.2 := by
  refine hd.lift hS ?_
  clear hd
  induction n generalizing d n1 with
  | zero =>
    rw [Dev.sendCell]
    dsimp only
    exact .refl
  | succ k ih =>
    rw [Dev.sendCell]
    dsimp only
    split
    · dsimp only
      exact .refl
    · split
      · dsimp only
        split
        · exact .refl
        · exact .startStream .refl rfl
      · split
        · dsimp only
          refine .trans (.deliver (.setProg ?_ rfl) rfl) ih
          split
          · exact .refl
          · exact .startStream .refl rfl
        · dsimp only
          refine .setProg ?_ rfl
          split
          · exact .refl
          · exact .startStream .refl rfl

theorem Within.movePointers {d : Dev} {acc : List (ℕ × ℕ)} (hd : Within S a d)
    (hS : Scope.le ⟨[.dck], [], []⟩ S) : Within S a (d.movePointers acc) := by
  refine hd.lift hS ?_
  unfold Dev.movePointers
  exact .each .refl (fun x _ e he => (.set_dck he rfl))

theorem Within.matchSlot {d : Dev} (hd : Within S a d)
    (hS : Scope.le ⟨[.dck], [], []⟩ S) : Within S a (d.matchSlot) := by
  refine hd.lift hS ?_
  unfold Dev.matchSlot
  exact .set_dck (.movePointers .refl rfl) rfl

theorem Within.sendCells {d : Dev} {l : List (ℕ × ℕ)} (hd : Within S a d)
    (hS : Scope.le ⟨[.posted, .fresh, .lpt, .buf, .que, .dck, .twn], [4, 7, 8, 11, 14], [F.TWN_EVIDENCE.off]⟩ S) :
    Within S a (d.sendCells l).2 := by
  refine hd.lift hS ?_
  clear hd
  induction l generalizing d with
  | nil =>
    rw [Dev.sendCells]
    exact .refl
  | cons y t ih =>
    rw [Dev.sendCells]
    exact .trans (.when (.sendCell .refl rfl) (fun hx => (.bump (.sendCell .refl rfl) (has_ix (n := 16) (by simp at hx; omega) rfl)))) ih

theorem Within.deckSlot {d : Dev} (hd : Within S a d)
    (hS : Scope.le ⟨[.posted, .fresh, .lpt, .buf, .que, .dck, .twn], [4, 7, 8, 11, 14], [F.TWN_EVIDENCE.off]⟩ S) :
    Within S a (deckSlot d) := by
  refine hd.lift hS ?_
  unfold Machine.deckSlot
  exact .settle (.lowCheck (.matchSlot (.deliverAll (.sendCells .refl rfl) rfl) rfl) rfl) rfl

theorem Within.dckRefuse {d : Dev} {cause : ℕ} {m : ℕ} {idx : ℕ} (hd : Within S a d)
    (hS : Scope.le ⟨[.posted], [], []⟩ S) : Within S a (d.dckRefuse cause m idx) := by
  refine hd.lift hS ?_
  unfold Dev.dckRefuse
  exact .post .refl rfl

theorem Within.dckChange {d : Dev} {m off idx v : ℕ} {recs : List (ℕ × ℕ)} (hd : Within S a d) (hk : S.has (off % 0x20000000))
    (hS : Scope.le ⟨[.twn], [], []⟩ S) : Within S a (d.dckChange m off idx v recs) := by
  unfold Dev.dckChange
  split
  · exact hd.lift hS (.each (.set_twn .refl rfl) (fun x _ e he => (.mirror he rfl)))
  · exact .setReg hd (has_add_item hk)

theorem Within.dckApply {d : Dev} {body : List Byte} (hd : Within S a d)
    (hS : Scope.le ⟨[], [11], []⟩ S) : Within S a (d.dckApply body) := by
  refine hd.lift hS ?_
  unfold Dev.dckApply
  refine .when .refl (fun h => .setReg .refl (has_add_item ?_))
  simp only [Bool.and_eq_true, decide_eq_true_eq] at h
  exact Scope.has_of_between (lo := 0x11000000) (hi := 0x11FFFFFF) rfl h.1 (by omega)

theorem Within.mcGroupWrite {m : ℕ} {data : Word} {d : Dev} (hd : Within S a d)
    (hS : Scope.le ⟨[.posted, .twn], [], [F.DCK_MC_GROUP.off]⟩ S) : Within S a (Machine.mcGroupWrite m data d) := by
  refine hd.lift hS ?_
  unfold Machine.mcGroupWrite
  exact .ite (.dckRefuse .refl rfl) (.ite (.dckRefuse .refl rfl) (.dckChange .refl rfl rfl))

theorem Within.clEntryWrite {m : ℕ} {high : Word} {d : Dev} (hd : Within S a d)
    (hS : Scope.le ⟨[.stages, .posted, .twn], [], [F.DCK_CL_ENTRY.off]⟩ S) : Within S a (Machine.clEntryWrite m high d) := by
  refine hd.lift hS ?_
  unfold Machine.clEntryWrite
  dsimp only
  split
  · exact .dckRefuse .refl rfl
  · exact .dckChange (.unstage .refl rfl) rfl rfl

theorem Within.mirCfgWrite {m : ℕ} {data : Word} {d : Dev} (hd : Within S a d)
    (hS : Scope.le ⟨[.posted, .twn], [], [F.DCK_MIR_CFG.off]⟩ S) : Within S a (Machine.mirCfgWrite m data d) := by
  refine hd.lift hS ?_
  unfold Machine.mirCfgWrite
  exact .ite (.dckRefuse .refl rfl) (.dckChange .refl rfl rfl)

end Sys2Proof.Machine
end

