-- ==== Sys2Proof/Proofs/FramesFabric.lean ====
section
/-! PROOF. What the model's functions may change: the twin's links, the fabric and the line ports.
Each has the least scope it needs, and runs within any wider one. -/

namespace Sys2Proof.Machine

variable {S : Scope} {a : Dev}

theorem Within.updTp {d : Dev} {p : ℕ} {f : TwnPort → TwnPort} (hd : Within S a d)
    (hS : Scope.le ⟨[.twn], [], []⟩ S) : Within S a (d.updTp p f) := by
  refine hd.lift hS ?_
  unfold Dev.updTp
  exact .set_twn .refl rfl

theorem Within.sendRealign {d : Dev} {p : ℕ} {fp : ℕ} {len : ℕ} {r16 : BitVec 128} (hd : Within S a d)
    (hS : Scope.le ⟨[.twn], [], []⟩ S) : Within S a (d.sendRealign p fp len r16) := by
  refine hd.lift hS ?_
  unfold Dev.sendRealign
  exact .ralinSend (.updTp .refl rfl) rfl

theorem Within.decision {d : Dev} {p : ℕ} {fp : ℕ} {len : ℕ} {md : BitVec 1024} (hd : Within S a d)
    (hS : Scope.le ⟨[.posted, .twn], [], []⟩ S) : Within S a (d.decision p fp len md) := by
  refine hd.lift hS ?_
  unfold Dev.decision
  split
  · exact .refl
  · dsimp only
    split
    · exact .sendRealign (.updTp .refl rfl) rfl
    · split
      · split
        · exact .updTp (.updTp .refl rfl) rfl
        · split
          · exact .post (.updTp (.updTp .refl rfl) rfl) rfl
          · exact .updTp (.updTp .refl rfl) rfl
      · split
        · exact .updTp (.ite (.updTp (.updTp .refl rfl) rfl) (.updTp .refl rfl)) rfl
        · exact .updTp (.ite (.updTp (.updTp .refl rfl) rfl) (.updTp .refl rfl)) rfl

theorem Within.macDrop {d : Dev} {p : ℕ} (hd : Within S a d)
    (hS : Scope.le ⟨[.twn], [], []⟩ S) : Within S a (d.macDrop p) := by
  refine hd.lift hS ?_
  unfold Dev.macDrop
  exact .ite (.updTp .refl rfl) .refl

theorem Within.seekAlign {d : Dev} {p : ℕ} (hd : Within S a d)
    (hS : Scope.le ⟨[.twn], [], []⟩ S) : Within S a (d.seekAlign p) := by
  refine hd.lift hS ?_
  unfold Dev.seekAlign
  exact .ite .refl (.ite (.updTp .refl rfl) (.updTp .refl rfl))

theorem Within.fabLaneLock {l : ℕ} {d : Dev} (hd : Within S a d)
    (hS : Scope.le ⟨[.fab], [], []⟩ S) : Within S a (fabLaneLock l d) := by
  refine hd.lift hS ?_
  unfold Machine.fabLaneLock
  exact .ite (.set_fab .refl rfl) .refl

theorem Within.fabLaneLockLoss {l : ℕ} {d : Dev} (hd : Within S a d)
    (hS : Scope.le ⟨[.fab], [], []⟩ S) : Within S a (fabLaneLockLoss l d) := by
  refine hd.lift hS ?_
  unfold Machine.fabLaneLockLoss
  exact .set_fab .refl rfl

theorem Within.capacity {d : Dev} {before : ℕ} (hd : Within S a d)
    (hS : Scope.le ⟨[.posted, .fab], [], [F.FAB_STATUS_BELOW_LINE.off]⟩ S) : Within S a (d.capacity before) := by
  refine hd.lift hS ?_
  unfold Dev.capacity
  dsimp only
  split
  · exact .post (.set_fab (.wr .refl rfl) rfl) rfl
  · exact .ite (.post (.set_fab (.wr .refl rfl) rfl) rfl) (.wr .refl rfl)

theorem Within.nodeMismatch {d : Dev} {i : ℕ} {other : ℕ} (hd : Within S a d)
    (hS : Scope.le ⟨[.posted], [], [F.FAB_STATUS_STATE.off]⟩ S) : Within S a (d.nodeMismatch i other) := by
  refine hd.lift hS ?_
  unfold Dev.nodeMismatch
  exact .post (.wr .refl rfl) rfl

theorem Within.enterUp {d : Dev} {node : ℕ} (hd : Within S a d)
    (hS : Scope.le ⟨[.posted, .fab, .twn], [], [F.FAB_STATUS_NODE_VALID.off]⟩ S) : Within S a (d.enterUp node) := by
  refine hd.lift hS ?_
  unfold Dev.enterUp
  exact .post (.set_twn (.set_fab (.wr (.wr (.wr .refl rfl) rfl) rfl) rfl) rfl) rfl

theorem Within.linkComesUp {d : Dev} {i : ℕ} (hd : Within S a d) (hi : i < 40)
    (hS : Scope.le ⟨[.posted, .tim, .fab, .twn], [10], []⟩ S) : Within S a (d.linkComesUp i) := by
  refine hd.lift hS ?_
  unfold Dev.linkComesUp
  refine .capacity ?_ rfl
  split
  · exact .post (.set_tim_fab (.wr (.wr .refl rfl) (has_ix hi rfl)) rfl rfl) rfl
  · exact .enterUp (.post (.set_tim_fab (.wr (.wr .refl rfl) (has_ix hi rfl)) rfl rfl) rfl) rfl

theorem Within.linkGoesDown {d : Dev} {i : ℕ} {cause : ℕ} (hd : Within S a d) (hi : i < 40)
    (hS : Scope.le ⟨[.posted, .fab, .twn], [10], []⟩ S) : Within S a (d.linkGoesDown i cause) := by
  refine hd.lift hS ?_
  unfold Dev.linkGoesDown
  dsimp only
  split
  · split
    · split
      · split
        · exact .post (.wr (.set_twn (.capacity (.set_fab (.post (.wr (.wr (.wr .refl rfl) (has_ix hi rfl)) (has_ix hi rfl)) rfl) rfl)
            rfl) rfl) rfl) rfl
        · exact .capacity (.set_fab (.post (.wr (.wr (.wr .refl rfl) (has_ix hi rfl)) (has_ix hi rfl)) rfl) rfl) rfl
      · split
        · exact .post (.wr (.set_twn (.capacity (.post (.bumpN (.set_fab (.post (.wr (.wr (.wr .refl rfl) (has_ix hi rfl)) (has_ix hi
            rfl)) rfl) rfl) rfl) rfl) rfl) rfl) rfl) rfl
        · exact .capacity (.post (.bumpN (.set_fab (.post (.wr (.wr (.wr .refl rfl) (has_ix hi rfl)) (has_ix hi rfl)) rfl) rfl) rfl) rfl)
            rfl
    · split
      · split
        · exact .post (.wr (.set_twn (.capacity (.set_fab (.post (.wr (.wr (.wr .refl rfl) (has_ix hi rfl)) (has_ix hi rfl)) rfl) rfl)
            rfl) rfl) rfl) rfl
        · exact .capacity (.set_fab (.post (.wr (.wr (.wr .refl rfl) (has_ix hi rfl)) (has_ix hi rfl)) rfl) rfl) rfl
      · split
        · exact .post (.wr (.set_twn (.capacity (.post (.bumpN (.set_fab (.post (.wr (.wr (.wr .refl rfl) (has_ix hi rfl)) (has_ix hi
            rfl)) rfl) rfl) rfl) rfl) rfl) rfl) rfl) rfl
        · exact .capacity (.post (.bumpN (.set_fab (.post (.wr (.wr (.wr .refl rfl) (has_ix hi rfl)) (has_ix hi rfl)) rfl) rfl) rfl) rfl)
            rfl
  · split
    · split
      · exact .post (.wr (.set_twn (.capacity (.set_fab (.post (.wr (.wr (.wr .refl rfl) (has_ix hi rfl)) (has_ix hi rfl)) rfl) rfl) rfl)
          rfl) rfl) rfl
      · exact .capacity (.set_fab (.post (.wr (.wr (.wr .refl rfl) (has_ix hi rfl)) (has_ix hi rfl)) rfl) rfl) rfl
    · split
      · exact .post (.wr (.set_twn (.capacity (.post (.bumpN (.set_fab (.post (.wr (.wr (.wr .refl rfl) (has_ix hi rfl)) (has_ix hi rfl))
          rfl) rfl) rfl) rfl) rfl) rfl) rfl) rfl
      · exact .capacity (.post (.bumpN (.set_fab (.post (.wr (.wr (.wr .refl rfl) (has_ix hi rfl)) (has_ix hi rfl)) rfl) rfl) rfl) rfl)
          rfl

theorem Within.fabricLinkDown {i : ℕ} {cause : ℕ} {d : Dev} (hd : Within S a d) (hi : i < 40)
    (hS : Scope.le ⟨[.posted, .fab, .twn], [10], []⟩ S) : Within S a (fabricLinkDown i cause d) := by
  refine hd.lift hS ?_
  unfold Machine.fabricLinkDown
  exact .ite (.linkGoesDown .refl hi rfl) .refl

theorem Within.cellDestroyed {d : Dev} {l : ℕ} {first : Bool} (hd : Within S a d)
    (hS : Scope.le ⟨[.fab], [], [F.FAB_FEC_UNCORR.off]⟩ S) : Within S a (d.cellDestroyed l first) := by
  refine hd.lift hS ?_
  unfold Dev.cellDestroyed
  exact .ite (.set_fab (.bump .refl rfl) rfl) (.bump .refl rfl)

theorem Within.allLinksDown {d : Dev} {cause st : ℕ} (hd : Within S a d)
    (hS : Scope.le ⟨[.posted, .fab, .twn], [10], []⟩ S) : Within S a (d.allLinksDown cause st) := by
  refine hd.lift hS ?_
  unfold Dev.allLinksDown
  have h : Within ⟨[.posted, .fab, .twn], [10], []⟩ d ((d.wr F.FAB_STATUS_STATE st).each (d.wr F.FAB_STATUS_STATE st).linksUp
      fun i d => d.linkGoesDown i cause) :=
    .each (.wr .refl rfl) (fun x hx e he => .linkGoesDown he (lt_of_mem_linksUp hx) rfl)
  dsimp only
  split
  · exact .set_twn (.each (.wr (.wr h rfl) rfl) (fun x hx e he => .wr he (has_ix (List.mem_range.1 hx) rfl))) rfl
  · exact .each (.wr (.wr h rfl) rfl) (fun x hx e he => .wr he (has_ix (List.mem_range.1 hx) rfl))

theorem Within.fabEnableWrite {en : Bool} {d : Dev} (hd : Within S a d)
    (hS : Scope.le ⟨[.posted, .fab, .twn], [10], []⟩ S) : Within S a (fabEnableWrite en d) := by
  refine hd.lift hS ?_
  unfold Machine.fabEnableWrite
  split
  · exact .refl
  · split
    · exact .allLinksDown (.wr .refl rfl) rfl
    · exact .allLinksDown (.wr .refl rfl) rfl

theorem Within.fabRestart {d : Dev} (hd : Within S a d)
    (hS : Scope.le ⟨[.posted, .fab, .twn], [10], []⟩ S) : Within S a (fabRestart d) := by
  refine hd.lift hS ?_
  unfold Machine.fabRestart
  exact .ite (.allLinksDown .refl rfl) .refl

theorem Within.takeoverRequest {d : Dev} (hd : Within S a d)
    (hS : Scope.le ⟨[.twn], [], [F.FAB_PAIR_CTRL_TAKEOVER.off]⟩ S) : Within S a (takeoverRequest d) := by
  refine hd.lift hS ?_
  unfold Machine.takeoverRequest
  exact .ite (.set_twn (.wr .refl rfl) rfl) .refl

theorem Within.ageReports {d : Dev} (hd : Within S a d)
    (hS : Scope.le ⟨[.fab], [], []⟩ S) : Within S a (d.ageReports) := by
  refine hd.lift hS ?_
  unfold Dev.ageReports
  exact .set_fab .refl rfl

theorem Within.controlUpSend {d : Dev} (hd : Within S a d)
    (hS : Scope.le ⟨[.fab], [], []⟩ S) : Within S a (controlUpSend d) := by
  refine hd.lift hS ?_
  unfold Machine.controlUpSend
  exact .ite .refl (.ageReports (.set_fab .refl rfl) rfl)

theorem Within.spReport {d : Dev} {x : ℕ} {up : Bool} (hd : Within S a d) (hx : x < 16384)
    (hS : Scope.le ⟨[.posted, .que], [8], []⟩ S) : Within S a (d.spReport x up) := by
  refine hd.lift hS ?_
  unfold Dev.spReport
  dsimp only
  have hk : Scope.has ⟨[.posted, .que], [8], []⟩ ((F.QUE_SP_DOWN.ix (x / 32)).off % 0x20000000) := has_ix (n := 512) (by omega) rfl
  split
  · exact .refl
  · exact .ite (.post .refl rfl) (.ite (.wr (.post .refl rfl) hk) (.requestFlush (.wr (.post .refl rfl) hk) rfl))

theorem Within.takeBase {d : Dev} {b : ℕ × ℕ} (hd : Within S a d)
    (hS : Scope.le ⟨[.tim], [], []⟩ S) : Within S a (d.takeBase b) := by
  refine hd.lift hS ?_
  unfold Dev.takeBase
  exact .ite .refl (.set_tim .refl rfl)

theorem Within.takeCorr {d : Dev} {x : BitVec 32} (hd : Within S a d)
    (hS : Scope.le ⟨[.tim], [], []⟩ S) : Within S a (d.takeCorr x) := by
  refine hd.lift hS ?_
  unfold Dev.takeCorr
  exact .ite .refl (.set_tim .refl rfl)

theorem Within.takeTime {d : Dev} {c : BitVec 2048} (hd : Within S a d)
    (hS : Scope.le ⟨[.tim], [], []⟩ S) : Within S a (d.takeTime c) := by
  refine hd.lift hS ?_
  unfold Dev.takeTime
  split
  · exact .refl
  · exact .takeCorr (.ite (.takeBase (.set_tim .refl rfl) rfl) (.set_tim .refl rfl)) rfl

theorem Within.takePair {d : Dev} {c : BitVec 2048} (hd : Within S a d)
    (hS : Scope.le ⟨[.posted], [], [F.FAB_STATUS_PAIR.off, F.FAB_PAIR_STATUS_PEER_SILENT.off, F.FAB_PAIR_CTRL_TAKEOVER.off]⟩ S) :
    Within S a (d.takePair c) := by
  refine hd.lift hS ?_
  unfold Dev.takePair
  dsimp only
  split
  · split
    · exact .post (.wr (.wr (.wr (.wr (.wr (.wr .refl rfl) rfl) rfl) rfl) rfl) rfl) rfl
    · exact .wr (.wr (.wr (.wr (.wr .refl rfl) rfl) rfl) rfl) rfl
  · split
    · exact .post (.wr (.wr (.wr (.wr (.wr (.wr .refl rfl) rfl) rfl) rfl) rfl) rfl) rfl
    · exact .wr (.wr (.wr (.wr (.wr .refl rfl) rfl) rfl) rfl) rfl

theorem Within.noteSpan {d : Dev} {i : ℕ} {span : ℕ} (hd : Within S a d)
    (hS : Scope.le ⟨[.fab], [], []⟩ S) : Within S a (d.noteSpan i span) := by
  refine hd.lift hS ?_
  unfold Dev.noteSpan
  exact .ite .refl (.set_fab .refl rfl)

theorem Within.controlSource {d : Dev} {l : ℕ} {c : BitVec 2048} (hd : Within S a d)
    (hS : Scope.le ⟨[.posted, .tim, .fab], [], [F.FAB_STATUS_PAIR.off, F.FAB_PAIR_STATUS_PEER_SILENT.off, F.FAB_PAIR_CTRL_TAKEOVER.off]⟩
      S) :
    Within S a (d.controlSource l c) := by
  refine hd.lift hS ?_
  unfold Dev.controlSource
  dsimp only
  split
  · exact .refl
  · split
    · split
      · split
        · split
          · exact .takePair (.set_tim_fab .refl rfl rfl) rfl
          · exact .set_tim_fab .refl rfl rfl
        · exact .set_tim .refl rfl
      · split
        · split
          · exact .takePair (.set_tim_fab .refl rfl rfl) rfl
          · exact .set_tim_fab .refl rfl rfl
        · exact .set_tim .refl rfl
    · refine .takeTime ?_ rfl
      split
      · split
        · split
          · exact .takePair (.set_tim_fab .refl rfl rfl) rfl
          · exact .set_tim_fab .refl rfl rfl
        · exact .set_tim .refl rfl
      · split
        · split
          · exact .takePair (.set_tim_fab .refl rfl rfl) rfl
          · exact .set_tim_fab .refl rfl rfl
        · exact .set_tim .refl rfl

theorem Within.setTxStream {d : Dev} {k : ℕ} {x : TxStream} (hd : Within S a d)
    (hS : Scope.le ⟨[.fab], [], []⟩ S) : Within S a (d.setTxStream k x) := by
  refine hd.lift hS ?_
  unfold Dev.setTxStream
  exact .set_fab .refl rfl

theorem Within.stageNext {d e : Dev} {k : ℕ} {tag : Option ℕ} (he : d.stageNext k tag = some e) (hd : Within S a d)
    (hS : Scope.le ⟨[.posted, .fresh, .tim, .lpt, .buf, .que, .fab, .dck], [4, 7, 8, 14], [F.TIM_EXPIRED_CNT.off]⟩ S) : Within S a e := by
  refine hd.lift hS ?_
  unfold Dev.stageNext at he
  dsimp only at he
  split at he
  · cases he
  · split at he
    · cases he
    · split at he
      · cases he
      · split at he
        · cases he
          exact .setTxStream (.expireHead .refl rfl) rfl
        · split at he
          · cases he
            exact .setTxStream (.queueDrop (.releaseRecord (.popHead .refl rfl) rfl) rfl) rfl
          · split at he
            · cases he
              exact .setTxStream (.farDrop (.releaseRecord (.popHead (.farFate (.when (.countMark .refl rfl) fun _ =>
                .bump (.countMark .refl rfl) rfl) rfl) rfl) rfl) rfl) rfl
            · cases he
              exact .setTxStream (.releaseRecord (.popHead (.farFate (.when (.countMark .refl rfl) fun _ =>
                .bump (.countMark .refl rfl) rfl) rfl) rfl) rfl) rfl

theorem Within.fillCell {n : ℕ} {d : Dev} {n1 : ℕ} {l : List Byte} {n2 : ℕ} {o : Option ℕ} (hd : Within S a d)
    (hS : Scope.le ⟨[.posted, .fresh, .tim, .lpt, .buf, .que, .fab, .dck], [4, 7, 8, 14], [F.TIM_EXPIRED_CNT.off]⟩ S) :
    Within S a (Dev.fillCell n d n1 l n2 o).2.2.2 := by
  induction n generalizing d n1 l n2 o with
  | zero => exact hd
  | succ k ih =>
    rw [Dev.fillCell]
    dsimp only
    split
    · exact hd
    · split
      · split
        · exact hd
        · rename_i h
          split <;> exact ih (.stageNext h hd hS)
      · split
        · exact hd
        · split
          · exact ih (hd.lift hS (.dropExpired (.setTxStream .refl rfl) rfl))
          · exact ih (hd.lift hS (.setTxStream .refl rfl))

theorem Within.stageGrant {d : Dev} {g : Grant} (hd : Within S a d)
    (hS : Scope.le ⟨[.posted, .fresh, .tim, .lpt, .buf, .que, .fab, .dck], [4, 7, 8, 14], [F.TIM_EXPIRED_CNT.off]⟩ S) :
    Within S a (d.stageGrant g) := by
  refine hd.lift hS ?_
  unfold Dev.stageGrant
  dsimp only
  split
  · split
    · exact .set_fab (.fillCell .refl rfl) rfl
    · exact .set_fab (.setTxStream (.fillCell .refl rfl) rfl) rfl
  · exact .ite (.set_fab .refl rfl) (.set_fab (.setTxStream .refl rfl) rfl)

theorem Within.orderStaged {d : Dev} {next : ℕ} (hd : Within S a d)
    (hS : Scope.le ⟨[.fab], [], []⟩ S) : Within S a (d.orderStaged next) := by
  refine hd.lift hS ?_
  unfold Dev.orderStaged
  exact .set_fab .refl rfl

theorem Within.stageSpan {d : Dev} (hd : Within S a d)
    (hS : Scope.le ⟨[.posted, .fresh, .tim, .lpt, .buf, .que, .fab, .dck], [4, 7, 8, 14], [F.TIM_EXPIRED_CNT.off, F.FAB_GRANTS.off]⟩ S) :
    Within S a (d.stageSpan) := by
  refine hd.lift hS ?_
  unfold Dev.stageSpan
  exact .settle (.lowCheck (.orderStaged (.each (.bumpN (.set_fab .refl rfl) rfl) (fun x _ e he => (.stageGrant he rfl))) rfl) rfl) rfl

theorem Within.cellStaging {d : Dev} (hd : Within S a d)
    (hS : Scope.le ⟨[.posted, .fresh, .tim, .lpt, .buf, .que, .fab, .dck], [4, 7, 8, 14], [F.TIM_EXPIRED_CNT.off, F.FAB_GRANTS.off]⟩ S) :
    Within S a (cellStaging d) := by
  refine hd.lift hS ?_
  unfold Machine.cellStaging
  exact .stageSpan .refl rfl

theorem Within.stageLate {d : Dev} (hd : Within S a d)
    (hS : Scope.le ⟨[.posted, .fresh, .tim, .lpt, .buf, .que, .fab, .dck], [4, 7, 8, 14], [F.TIM_EXPIRED_CNT.off, F.FAB_GRANTS.off]⟩ S) :
    Within S a (d.stageLate) := by
  refine hd.lift hS ?_
  unfold Dev.stageLate
  exact .ite (.stageSpan .refl rfl) .refl

theorem Within.fabricLinkUp {i : ℕ} {d : Dev} (hd : Within S a d) (hi : i < 40)
    (hS : Scope.le ⟨[.posted, .fresh, .tim, .lpt, .buf, .que, .fab, .dck, .twn], [4, 7, 8, 10, 14], [F.TIM_EXPIRED_CNT.off]⟩ S) :
    Within S a (fabricLinkUp i d) := by
  refine hd.lift hS ?_
  unfold Machine.fabricLinkUp
  dsimp only
  split
  · exact .refl
  · split
    · exact .ite (.stageLate (.linkComesUp .refl hi rfl) rfl) .refl
    · split
      · exact .nodeMismatch .refl rfl
      · split
        · exact .nodeMismatch .refl rfl
        · exact .stageLate (.linkComesUp .refl hi rfl) rfl

theorem Within.cellSend {slot : ℕ} {d : Dev} (hd : Within S a d)
    (hS : Scope.le ⟨[.fab], [], [F.FAB_GRANT_WASTED.off, F.FAB_CELLS_TX.off]⟩ S) : Within S a (cellSend slot d) := by
  refine hd.lift hS ?_
  unfold Machine.cellSend
  exact .ite .refl (.bumpN (.bumpN (.set_fab .refl rfl) rfl) rfl)

theorem Within.setRx {d : Dev} {k : ℕ} {x : RxContext} (hd : Within S a d)
    (hS : Scope.le ⟨[.fab], [], []⟩ S) : Within S a (d.setRx k x) := by
  refine hd.lift hS ?_
  unfold Dev.setRx
  exact .set_fab .refl rfl

theorem Within.reasmDrop {d : Dev} {k : ℕ} {reason : ℕ} {code : ℕ} {seq : ℕ} (hd : Within S a d)
    (hS : Scope.le ⟨[.posted], [14], [F.FAB_REASM_DROPS.off]⟩ S) : Within S a (d.reasmDrop k reason code seq) := by
  refine hd.lift hS ?_
  unfold Dev.reasmDrop
  exact .post (.bump (.dropCount .refl rfl) rfl) rfl

theorem Within.reasmExpired {d : Dev} {k : ℕ} {seq : ℕ} (hd : Within S a d)
    (hS : Scope.le ⟨[.posted, .tim], [14], [F.TIM_EXPIRED_CNT.off, F.FAB_REASM_DROPS.off]⟩ S) : Within S a (d.reasmExpired k seq) := by
  refine hd.lift hS ?_
  unfold Dev.reasmExpired
  exact .post (.bump (.dropExpired .refl rfl) rfl) rfl

theorem Within.reasmExpiredN {d : Dev} {k : ℕ} {seq : ℕ} {n : ℕ} (hd : Within S a d)
    (hS : Scope.le ⟨[.posted, .tim], [14], [F.TIM_EXPIRED_CNT.off, F.FAB_REASM_DROPS.off]⟩ S) : Within S a (d.reasmExpiredN k seq n) := by
  refine hd.lift hS ?_
  clear hd
  induction n generalizing d with
  | zero =>
    rw [Dev.reasmExpiredN]
    exact .refl
  | succ k ih =>
    rw [Dev.reasmExpiredN]
    exact .trans (.reasmExpired .refl rfl) ih

theorem Within.reasmPacket {d : Dev} {k : ℕ} {tag : ℕ} {seq : ℕ} {b : List Byte} (hd : Within S a d)
    (hS : Scope.le ⟨[.posted, .dck], [14], [F.QUE_EQ_RANGE_DROP.off, F.FAB_REASM_DROPS.off, F.FAB_CRC_DROP.off]⟩ S) :
    Within S a (d.reasmPacket k tag seq b) := by
  refine hd.lift hS ?_
  unfold Dev.reasmPacket
  dsimp only
  split
  · exact .reasmDrop (.bump .refl rfl) rfl
  · split
    · exact .reasmDrop .refl rfl
    · split
      · exact .bump (.dropCount .refl rfl) rfl
      · exact .setFabQ .refl rfl

theorem Within.reasmTake {n : ℕ} {d : Dev} {n1 : ℕ} {n2 : ℕ} (hd : Within S a d)
    (hS : Scope.le ⟨[.posted, .fab, .dck], [14], [F.QUE_EQ_RANGE_DROP.off, F.FAB_REASM_DROPS.off, F.FAB_CRC_DROP.off]⟩ S) :
    Within S a (Dev.reasmTake n d n1 n2) := by
  refine hd.lift hS ?_
  clear hd
  induction n generalizing d with
  | zero =>
    rw [Dev.reasmTake]
    exact .refl
  | succ k ih =>
    rw [Dev.reasmTake]
    exact .ite .refl (.trans (.reasmPacket (.setRx .refl rfl) rfl) ih)

theorem Within.reasmCell {d : Dev} {k : ℕ} {c : Option (BitVec 2048)} (hd : Within S a d)
    (hS : Scope.le ⟨[.posted, .tim, .fab, .dck], [14], [F.TIM_EXPIRED_CNT.off, F.QUE_EQ_RANGE_DROP.off, F.FAB_REASM_DROPS.off,
      F.FAB_CRC_DROP.off]⟩ S) :
    Within S a (d.reasmCell k c) := by
  refine hd.lift hS ?_
  unfold Dev.reasmCell
  dsimp only
  split
  · exact .ite (.reasmExpired (.setRx .refl rfl) rfl) (.setRx .refl rfl)
  · split
    · exact .setRx .refl rfl
    · split
      · exact .reasmExpiredN (.setRx .refl rfl) rfl
      · exact .reasmTake (.setRx .refl rfl) rfl

theorem Within.reasmDrain {n : ℕ} {d : Dev} {n1 : ℕ} (hd : Within S a d)
    (hS : Scope.le ⟨[.posted, .tim, .fab, .dck], [14], [F.TIM_EXPIRED_CNT.off, F.QUE_EQ_RANGE_DROP.off, F.FAB_REASM_DROPS.off,
      F.FAB_CRC_DROP.off]⟩ S) :
    Within S a (Dev.reasmDrain n d n1) := by
  refine hd.lift hS ?_
  clear hd
  induction n generalizing d with
  | zero =>
    rw [Dev.reasmDrain]
    exact .refl
  | succ k ih =>
    rw [Dev.reasmDrain]
    split
    · exact .refl
    · exact .trans (.reasmCell (.setRx .refl rfl) rfl) ih

theorem Within.reasmRun {d : Dev} {k : ℕ} (hd : Within S a d)
    (hS : Scope.le ⟨[.posted, .tim, .fab, .dck], [14], [F.TIM_EXPIRED_CNT.off, F.QUE_EQ_RANGE_DROP.off, F.FAB_REASM_DROPS.off,
      F.FAB_CRC_DROP.off]⟩ S) :
    Within S a (d.reasmRun k) := by
  refine hd.lift hS ?_
  unfold Dev.reasmRun
  exact .reasmDrain .refl rfl

theorem Within.reasmRestart {d : Dev} {k : ℕ} (hd : Within S a d)
    (hS : Scope.le ⟨[.posted, .fab], [14], [F.FAB_REASM_DROPS.off]⟩ S) : Within S a (d.reasmRestart k) := by
  refine hd.lift hS ?_
  unfold Dev.reasmRestart
  exact .ite .refl (.setRx (.ite .refl (.reasmDrop .refl rfl)) rfl)

theorem Within.reasmAccept {d : Dev} {k : ℕ} {c : BitVec 2048} (hd : Within S a d)
    (hS : Scope.le ⟨[.posted, .tim, .fab, .dck], [2, 8, 10, 14], []⟩ S) : Within S a (d.reasmAccept k c) := by
  refine hd.lift hS ?_
  unfold Dev.reasmAccept
  dsimp only
  split
  · exact .bump .refl rfl
  · split
    · exact .reasmRun (.reasmCell (.setRx (.ite (.reasmDrop .refl rfl) (.bump .refl rfl)) rfl) rfl) rfl
    · split
      · exact .setRx (.ite (.reasmDrop .refl rfl) (.bump .refl rfl)) rfl
      · split
        · exact .reasmExpiredN (.setRx (.setRx (.ite (.reasmDrop .refl rfl) (.bump .refl rfl)) rfl) rfl) rfl
        · exact .setRx (.setRx (.ite (.reasmDrop .refl rfl) (.bump .refl rfl)) rfl) rfl

theorem Within.dataCellRx {l : ℕ} {slot : ℕ} {fate : CellFate} {c : BitVec 2048} {d : Dev} (hd : Within S a d)
    (hS : Scope.le ⟨[.posted, .tim, .fab, .dck], [2, 8, 10, 14], []⟩ S) : Within S a (dataCellRx l slot fate c d) := by
  refine hd.lift hS ?_
  unfold Machine.dataCellRx
  split
  · exact .refl
  · split
    · exact .cellDestroyed .refl rfl
    · split
      · exact .bump .refl rfl
      · split
        · exact .refl
        · split
          · exact .bump .refl rfl
          · exact .reasmAccept (.ite (.reasmRestart .refl rfl) .refl) rfl

theorem Within.reasmTimeout {node : ℕ} {tc : ℕ} {d : Dev} (hd : Within S a d)
    (hS : Scope.le ⟨[.posted, .tim, .fab, .dck], [14], [F.TIM_EXPIRED_CNT.off, F.QUE_EQ_RANGE_DROP.off, F.FAB_REASM_DROPS.off,
      F.FAB_CRC_DROP.off]⟩ S) :
    Within S a (reasmTimeout node tc d) := by
  refine hd.lift hS ?_
  unfold Machine.reasmTimeout
  dsimp only
  split
  · exact .refl
  · exact .ite .refl (.reasmRun (.setRx (.reasmDrop .refl rfl) rfl) rfl)

theorem Within.reasmStale {node : ℕ} {tc : ℕ} {d : Dev} (hd : Within S a d)
    (hS : Scope.le ⟨[.posted, .fab], [14], [F.FAB_REASM_DROPS.off]⟩ S) : Within S a (reasmStale node tc d) := by
  refine hd.lift hS ?_
  unfold Machine.reasmStale
  exact .ite .refl (.setRx (.reasmDrop .refl rfl) rfl)

theorem Within.msecCheck {d : Dev} {p : ℕ} {frame : List Byte} (hd : Within S a d)
    (hS : Scope.le ⟨[.lpt], [], []⟩ S) : Within S a (d.msecCheck p frame).2 := by
  refine hd.lift hS ?_
  unfold Dev.msecCheck
  dsimp only
  split
  · exact .refl
  · split
    · exact .refl
    · split
      · exact .refl
      · split
        · exact .refl
        · split
          · exact .refl
          · split
            · split
              · split
                · exact .refl
                · dsimp only
                  exact .updLp .refl rfl
              · split
                · exact .refl
                · dsimp only
                  exact .updLp .refl rfl
            · split
              · split
                · exact .refl
                · dsimp only
                  exact .updLp .refl rfl
              · split
                · exact .refl
                · dsimp only
                  exact .updLp .refl rfl

theorem Within.msecProtect {d : Dev} {p : ℕ} {frame : List Byte} (hd : Within S a d) (hp : p < 256)
    (hS : Scope.le ⟨[.posted, .lpt], [4, 14], []⟩ S) : Within S a (d.msecProtect p frame).2 := by
  refine hd.lift hS ?_
  unfold Dev.msecProtect
  dsimp only
  split
  · split
    · exact .bump (.dropCount .refl rfl) (has_port hp rfl)
    · exact .ite (.post (.updLp .refl rfl) rfl) (.updLp .refl rfl)
  · split
    · exact .bump (.dropCount .refl rfl) (has_port hp rfl)
    · exact .ite (.post (.updLp .refl rfl) rfl) (.updLp .refl rfl)

theorem Within.msecSaInstall {m : ℕ} {p : ℕ} {d : Dev} (hd : Within S a d)
    (hS : Scope.le ⟨[.posted, .lpt], [], []⟩ S) : Within S a (msecSaInstall m p d) := by
  refine hd.lift hS ?_
  unfold Machine.msecSaInstall
  exact .ite (.post .refl rfl) (.updLp .refl rfl)

theorem Within.msecSaRetire {p : ℕ} {d : Dev} (hd : Within S a d) (hp : p < 128)
    (hS : Scope.le ⟨[.lpt], [4], []⟩ S) : Within S a (Machine.msecSaRetire p d) := by
  refine hd.lift hS ?_
  unfold Machine.msecSaRetire
  exact .each (.updLp .refl rfl) (fun n hn e he => .wr he (has_ix_port (List.mem_range.1 hn) hp rfl))

theorem Within.pauseClass {d : Dev} {p : ℕ} {c : ℕ} {time : ℕ} (hd : Within S a d)
    (hS : Scope.le ⟨[.lpt], [], []⟩ S) : Within S a (d.pauseClass p c time) := by
  refine hd.lift hS ?_
  unfold Dev.pauseClass
  exact .ite (.updLp .refl rfl) (.updLp .refl rfl)

theorem Within.pfcClass {d : Dev} {p : ℕ} {c : ℕ} {time : ℕ} (hd : Within S a d)
    (hS : Scope.le ⟨[.lpt], [], []⟩ S) : Within S a (d.pfcClass p c time) := by
  refine hd.lift hS ?_
  unfold Dev.pfcClass
  exact .ite (.ite .refl (.updLp .refl rfl)) (.pauseClass .refl rfl)

theorem Within.macControl {p : ℕ} {ctl : MacControl} {d : Dev} (hd : Within S a d)
    (hpause : S.has ((F.LPT_RX_PAUSE.port p).off % 0x20000000)) (hpfc : S.has ((F.LPT_RX_PFC.port p).off % 0x20000000))
    (hS : Scope.le ⟨[.lpt, .que], [], []⟩ S) : Within S a (Machine.macControl p ctl d) := by
  unfold Machine.macControl
  refine .ite hd ?_
  split
  · exact .ite (.settle (.each (.bump hd hpause) fun _ _ _ he => .pauseClass he (Scope.le_trans rfl hS)) (Scope.le_trans rfl hS)) (.bump
      hd hpause)
  · exact .ite (.settle (.each (.bump hd hpfc) fun _ _ _ he => .pfcClass he (Scope.le_trans rfl hS)) (Scope.le_trans rfl hS)) (.bump hd
      hpfc)
  · exact hd

theorem Within.pauseExpiry {p : ℕ} {c : ℕ} {d : Dev} (hd : Within S a d)
    (hS : Scope.le ⟨[.lpt, .que], [], []⟩ S) : Within S a (pauseExpiry p c d) := by
  refine hd.lift hS ?_
  unfold Machine.pauseExpiry
  exact .ite .refl (.settle (.updLp .refl rfl) rfl)

theorem Within.pfcRefresh {p c : ℕ} {d : Dev} (hd : Within S a d)
    (hk : S.has ((F.LPT_TX_FLOW_CTRL.port p).off % 0x20000000))
    (hS : Scope.le ⟨[.lpt], [], []⟩ S) : Within S a (Machine.pfcRefresh p c d) := by
  unfold Machine.pfcRefresh
  exact .ite (.sendPause hd (fun _ => hk) hS) hd

theorem Within.pfcWatchdog {p : ℕ} {c : ℕ} {d : Dev} (hd : Within S a d)
    (hS : Scope.le ⟨[.posted, .lpt, .que], [], []⟩ S) : Within S a (pfcWatchdog p c d) := by
  refine hd.lift hS ?_
  unfold Machine.pfcWatchdog
  dsimp only
  split
  · exact .refl
  · split
    · exact .ite .refl (.post (.updLp .refl rfl) rfl)
    · exact .ite (.settle (.post (.updLp .refl rfl) rfl) rfl) .refl

theorem Within.rxDrop {d : Dev} {p : ℕ} {f : Fld} (hd : Within S a d) (hk : S.has ((f.port p).off % 0x20000000))
    (hS : Scope.le ⟨[.twn], [], []⟩ S) : Within S a (d.rxDrop p f) := by
  unfold Dev.rxDrop
  exact .macDrop (.bump hd hk) hS

theorem Within.rxPlace {d : Dev} {p fcs tick : ℕ} {body : List Byte} (hd : Within S a d) (hp : p < 128)
    (hS : Scope.le ⟨[.lpt, .twn], [4, 5, 14], []⟩ S) : Within S a (d.rxPlace p fcs tick body) := by
  refine hd.lift hS ?_
  unfold Dev.rxPlace
  dsimp only
  split
  · split
    · rename_i n hn
      exact .bump (.macDrop (.dropCount .refl rfl) rfl) (has_pier (lt_of_pierOf hn) rfl)
    · exact .macDrop (.dropCount .refl rfl) rfl
  · refine .bumpN (.bump ?_ (has_port hp rfl)) (has_port hp rfl)
    split
    · exact .holdFrames .refl rfl
    · exact .set_lpt .refl rfl

theorem Within.frameReceive {p : ℕ} {l : List Byte} {tick : ℕ} {d : Dev} (hd : Within S a d) (hp : p < 128)
    (hS : Scope.le ⟨[.lpt, .que, .twn], [4, 5, 14], []⟩ S) : Within S a (Machine.frameReceive p l tick d) := by
  refine hd.lift hS ?_
  unfold Machine.frameReceive
  split
  · exact .refl
  · split
    · exact .rxDrop .refl (has_port hp rfl) rfl
    · split
      · exact .refl
      · split
        · exact .rxDrop .refl (has_port hp rfl) rfl
        · split
          · exact .rxDrop .refl (has_port hp rfl) rfl
          · split
            · exact .macControl .refl (has_port hp rfl) (has_port hp rfl) rfl
            · split
              · exact .refl
              · split
                · split
                  · rename_i h
                    exact .rxDrop (.snd h (.msecCheck .refl rfl)) (has_port hp rfl) rfl
                  · rename_i h
                    exact .rxPlace (.snd h (.msecCheck .refl rfl)) hp rfl
                · exact .rxPlace .refl hp rfl

theorem Within.laneMapWrite {m p : ℕ} {tx : Bool} {data : Word} {d : Dev} (hd : Within S a d)
    (hr : S.has ((F.LPT_OCT_RX_MAP.port p).off % 0x20000000)) (ht : S.has ((F.LPT_OCT_TX_MAP.port p).off % 0x20000000))
    (hS : Scope.le ⟨[.posted], [], []⟩ S) : Within S a (Machine.laneMapWrite m p tx data d) := by
  unfold Machine.laneMapWrite
  refine .ite hd (.ite (.wr hd ?_) (.post hd hS))
  cases tx
  · exact hr
  · exact ht

theorem Within.txtsPop {p : ℕ} {d : Dev} (hd : Within S a d)
    (hS : Scope.le ⟨[.lpt], [], []⟩ S) : Within S a (txtsPop p d) := by
  refine hd.lift hS ?_
  unfold Machine.txtsPop
  exact .updLp .refl rfl

theorem Within.lptCntClr {p : ℕ} {d : Dev} (hd : Within S a d) (hp : p < 128)
    (hS : Scope.le ⟨[], [4], []⟩ S) : Within S a (Machine.lptCntClr p d) := by
  refine hd.lift hS ?_
  unfold Machine.lptCntClr
  exact .each .refl (fun f hf e he => .wr he (has_port hp (List.all_eq_true.1 (by decide : lptCounters.all fun f => Scope.spans ⟨[], [4],
    []⟩ f.off 0x10000 128) f hf)))

theorem Within.gclCommit {m p : ℕ} {d : Dev} (hd : Within S a d)
    (hk : S.has ((F.LPT_GCL_CTRL.port p).off % 0x20000000))
    (hS : Scope.le ⟨[.posted, .lpt], [], []⟩ S) : Within S a (Machine.gclCommit m p d) := by
  unfold Machine.gclCommit
  exact .ite (.post hd (Scope.le_trans rfl hS)) (.wr (.updLp hd (Scope.le_trans rfl hS)) hk)

theorem Within.gclStart {p : ℕ} {d : Dev} (hd : Within S a d)
    (hbase : S.has ((F.LPT_GCL_BASE.port p).off % 0x20000000)) (hns : S.has ((F.LPT_GCL_BASE_NS.port p).off % 0x20000000)) (hctrl : S.has
      ((F.LPT_GCL_CTRL.port p).off % 0x20000000))
    (hS : Scope.le ⟨[.posted, .lpt, .que], [], []⟩ S) : Within S a (Machine.gclStart p d) := by
  unfold Machine.gclStart
  dsimp only
  split
  · exact hd
  · exact .ite hd (.settle (.post (.wr (.wr (.wr (.setLp hd (Scope.le_trans rfl hS)) hbase) hns) hctrl) (Scope.le_trans rfl hS))
      (Scope.le_trans rfl hS))

theorem Within.gateEntryAdvance {p : ℕ} {d : Dev} (hd : Within S a d)
    (hS : Scope.le ⟨[.lpt, .que], [], []⟩ S) : Within S a (gateEntryAdvance p d) := by
  refine hd.lift hS ?_
  unfold Machine.gateEntryAdvance
  dsimp only
  split
  · exact .refl
  · split
    · exact .refl
    · exact .ite .refl (.settle (.setLp .refl rfl) rfl)

theorem Within.preemptVerify {p : ℕ} {ok : Bool} {d : Dev} (hd : Within S a d)
    (hk : S.has ((F.LPT_PREEMPT.port p).off % 0x20000000))
    (hS : Scope.le ⟨[.posted], [], []⟩ S) : Within S a (Machine.preemptVerify p ok d) := by
  unfold Machine.preemptVerify
  exact .ite (.post (.wr hd hk) hS) hd

theorem Within.stampTx {d : Dev} {p : ℕ} {tick : ℕ} {f : TxFrame} (hd : Within S a d) (hp : p < 128)
    (hS : Scope.le ⟨[.posted, .lpt], [4], []⟩ S) : Within S a (d.stampTx p tick f) := by
  refine hd.lift hS ?_
  unfold Dev.stampTx
  split
  · exact .refl
  · exact .ite (.post (.wr .refl (has_port hp rfl)) rfl) (.updLp .refl rfl)

theorem Within.txDone {d : Dev} {p : ℕ} {f : TxFrame} (hd : Within S a d) (hp : p < 128)
    (hS : Scope.le ⟨[.lpt], [4], []⟩ S) : Within S a (d.txDone p f) := by
  refine hd.lift hS ?_
  unfold Dev.txDone
  exact .bumpN (.bump (.updLp .refl rfl) (has_port hp rfl)) (has_port hp rfl)

theorem Within.txBegin {d : Dev} {p : ℕ} {tick : ℕ} {f : TxFrame} {before : ℕ} {mv : TxMove} (hd : Within S a d)
    (hS : Scope.le ⟨[.lpt], [], []⟩ S) : Within S a (d.txBegin p tick f before mv) := by
  refine hd.lift hS ?_
  unfold Dev.txBegin
  dsimp only
  split
  · exact .updLp .refl rfl
  · exact .updLp .refl rfl
  · exact .refl

theorem Within.txCarry {d : Dev} {p : ℕ} {tick : ℕ} {i : ℕ} {f : TxFrame} {mv : TxMove} (hd : Within S a d) (hp : p < 128)
    (hS : Scope.le ⟨[.posted, .lpt], [4, 14], []⟩ S) : Within S a (d.txCarry p tick i f mv) := by
  refine hd.lift hS ?_
  unfold Dev.txCarry
  split
  · exact .refl
  · exact .post (.bump (.dropCount (.updLp .refl rfl) rfl) (has_port hp rfl)) rfl
  · exact .txBegin (.stampTx (.updLp .refl rfl) hp rfl) rfl

theorem Within.txProgress {d : Dev} {p : ℕ} {tick : ℕ} {y : Flight} (hd : Within S a d) (hp : p < 128)
    (hS : Scope.le ⟨[.lpt], [4], []⟩ S) : Within S a (d.txProgress p tick y) := by
  refine hd.lift hS ?_
  unfold Dev.txProgress
  dsimp only
  split
  · split
    · exact .txDone (.updLp .refl rfl) hp rfl
    · exact .bump (.updLp .refl rfl) (has_port hp rfl)
  · exact .ite (.bump (.updLp .refl rfl) (has_port hp rfl)) .refl

theorem Within.frameTransmit {p : ℕ} {tick : ℕ} {d : Dev} (hd : Within S a d) (hp : p < 128)
    (hS : Scope.le ⟨[.posted, .lpt], [4, 14], []⟩ S) : Within S a (frameTransmit p tick d) := by
  refine hd.lift hS ?_
  unfold Machine.frameTransmit
  split
  · exact .refl
  · dsimp only
    split
    · exact .txProgress .refl hp rfl
    · split
      · exact .txCarry .refl hp rfl
      · exact .txBegin .refl rfl
      · split
        · exact .txCarry .refl hp rfl
        · exact .refl

theorem Within.portReport {d : Dev} {p : ℕ} {up : Bool} (hd : Within S a d)
    (hS : Scope.le ⟨[.fab], [], []⟩ S) : Within S a (d.portReport p up) := by
  refine hd.lift hS ?_
  unfold Dev.portReport
  split
  · exact .refl
  · exact .ite (.set_fab .refl rfl) (.set_fab .refl rfl)

theorem Within.portDown {p cause : ℕ} {d : Dev} (hd : Within S a d)
    (hk : S.has ((F.LPT_STATUS.port p).off % 0x20000000))
    (hS : Scope.le ⟨[.posted, .lpt, .que, .fab], [], []⟩ S) : Within S a (d.portDown p cause) := by
  unfold Dev.portDown
  exact .post (.portReport (.flushPortDown (.updLp (.wr hd hk) (Scope.le_trans rfl hS)) (Scope.le_trans rfl hS)) (Scope.le_trans rfl hS))
    (Scope.le_trans rfl hS)

theorem Within.adminUpWrite {p : ℕ} {up : Bool} {d : Dev} (hd : Within S a d)
    (hctrl : S.has ((F.LPT_CTRL.port p).off % 0x20000000)) (hstatus : S.has ((F.LPT_STATUS.port p).off % 0x20000000))
    (hS : Scope.le ⟨[.posted, .lpt, .que, .fab], [], []⟩ S) : Within S a (Machine.adminUpWrite p up d) := by
  unfold Machine.adminUpWrite
  dsimp only
  exact .ite (.wr hd hctrl) (.ite (.updLp (.wr hd hctrl) (Scope.le_trans rfl hS)) (.ite (.portDown (.wr hd hctrl) hstatus hS) (.updLp
    (.wr hd hctrl) (Scope.le_trans rfl hS))))

theorem Within.lineFaultChange {p cause : ℕ} {on : Bool} {d : Dev} (hd : Within S a d)
    (hk : S.has ((F.LPT_STATUS.port p).off % 0x20000000))
    (hS : Scope.le ⟨[.lpt], [], []⟩ S) : Within S a (Machine.lineFaultChange p cause on d) := by
  unfold Machine.lineFaultChange
  refine .ite hd ?_
  dsimp only
  exact .ite hd (.ite (.wr (.setLp hd hS) hk) (.ite (.wr (.setLp hd hS) hk) (.setLp hd hS)))

theorem Within.fecInterval {p corr uncorr : ℕ} {d : Dev} (hd : Within S a d)
    (hc : S.has ((F.LPT_FEC_CORR_CW.port p).off % 0x20000000)) (hu : S.has ((F.LPT_FEC_UNCORR_CW.port p).off % 0x20000000)) (hs : S.has
      ((F.LPT_STATUS.port p).off % 0x20000000))
    (hS : Scope.le ⟨[.lpt], [], []⟩ S) : Within S a (Machine.fecInterval p corr uncorr d) := by
  unfold Machine.fecInterval
  dsimp only
  exact .ite (.wr (.setLp (.bumpN (.bumpN hd hc) hu) hS) hs) (.wr (.setLp (.bumpN (.bumpN hd hc) hu) hS) hs)

theorem Within.portLinkDown {p : ℕ} {d : Dev} (hd : Within S a d)
    (hk : S.has ((F.LPT_STATUS.port p).off % 0x20000000))
    (hS : Scope.le ⟨[.posted, .lpt, .que, .fab], [], []⟩ S) : Within S a (Machine.portLinkDown p d) := by
  unfold Machine.portLinkDown
  split
  · exact hd
  · split
    · exact .portDown hd hk hS
    · exact hd

theorem Within.portLinkUp {p : ℕ} {d : Dev} (hd : Within S a d)
    (hk : S.has ((F.LPT_STATUS.port p).off % 0x20000000))
    (hS : Scope.le ⟨[.posted, .lpt, .que, .fab, .twn], [], []⟩ S) : Within S a (Machine.portLinkUp p d) := by
  unfold Machine.portLinkUp
  dsimp only
  refine .ite hd ?_
  exact .settle (.post (.seekAlign (.portReport (.updLp (.set_que (.wr (.wr hd hk) hk) (Scope.parts_contains (p := .que) hS rfl))
    (Scope.le_trans rfl hS)) (Scope.le_trans rfl hS)) (Scope.le_trans rfl hS)) (Scope.le_trans rfl hS)) (Scope.le_trans rfl hS)

theorem Within.pinsFollow {d : Dev} (hd : Within S a d)
    (hS : Scope.le ⟨[.twn], [], []⟩ S) : Within S a (d.pinsFollow) := by
  refine hd.lift hS ?_
  unfold Dev.pinsFollow
  exact .ite .refl (.set_twn .refl rfl)

theorem Within.clearPiers {d0 : Dev} (hd0 : Within S a d0)
    (hS : Scope.le ⟨[.lpt, .pir, .que, .hst], [], [F.DCK_MIR_LOST.off]⟩ S) : Within S a (d0.clearPiers) := by
  refine hd0.lift hS ?_
  unfold Dev.clearPiers
  exact .set_lpt_pir_que_hst (.mirrorsLost .refl rfl) rfl rfl rfl rfl

theorem Within.quarantine {d : Dev} {cause detail : ℕ} (hd : Within S a d)
    (hS : Scope.le ⟨[.mode, .posted, .lpt, .pir, .que, .fab, .twn, .hst], [10, 13, 16], [F.DCK_MIR_LOST.off, F.TWN_STATUS_LANES.off]⟩ S) :
    Within S a (d.quarantine cause detail) := by
  refine hd.lift hS ?_
  unfold Dev.quarantine
  split
  · exact .refl
  · refine .withMode (.pinsFollow (.set_twn (.each (.clearPiers (.requestFlush (.setLanes (.allLinksDown
      (.setMode (.wr (.wr (.post .refl rfl) rfl) rfl) rfl) rfl) rfl) rfl) rfl) (fun x hx e he => ?_)) rfl) rfl) rfl
    exact .wr he (has_ix (List.mem_range.1 hx) rfl)

end Sys2Proof.Machine
end

