-- ==== Sys2Proof/Proofs/FramesPier.lean ====
section
/-! PROOF. What the model's functions may change: the tables, the piers and their strokes.
Each has the least scope it needs, and runs within any wider one. -/

namespace Sys2Proof.Machine

variable {S : Scope} {a : Dev}

theorem Within.putEntry {d : Dev} {kind : ℕ} {i : ℕ} {e : BitVec 1024} (hd : Within S a d)
    (hS : Scope.le ⟨[.tbl], [], []⟩ S) : Within S a (d.putEntry kind i e) := by
  refine hd.lift hS ?_
  unfold Dev.putEntry
  exact .set_tbl .refl rfl

theorem Within.setMeters {d : Dev} {pier : ℕ} {l : List MeterLine} (hd : Within S a d)
    (hS : Scope.le ⟨[.tbl], [], []⟩ S) : Within S a (d.setMeters pier l) := by
  refine hd.lift hS ?_
  unfold Dev.setMeters
  exact .set_tbl .refl rfl

theorem Within.writeBack {d : Dev} {x : MeterLine} (hd : Within S a d)
    (hS : Scope.le ⟨[.tbl], [], []⟩ S) : Within S a (d.writeBack x) := by
  refine hd.lift hS ?_
  unfold Dev.writeBack
  exact .ite (.set_tbl .refl rfl) .refl

theorem Within.useMeter {d : Dev} {pier : ℕ} {i : ℕ} {e : BitVec 1024} (hd : Within S a d)
    (hS : Scope.le ⟨[.tbl], [], []⟩ S) : Within S a (d.useMeter pier i e) := by
  refine hd.lift hS ?_
  unfold Dev.useMeter
  exact .each (.setMeters .refl rfl) (fun x _ e1 he1 => (.writeBack he1 rfl))

theorem Within.forgetMeter {d : Dev} {i : ℕ} (hd : Within S a d)
    (hS : Scope.le ⟨[.tbl], [], []⟩ S) : Within S a (d.forgetMeter i) := by
  refine hd.lift hS ?_
  unfold Dev.forgetMeter
  exact .set_tbl .refl rfl

theorem Within.loseMeters {d : Dev} {pier : ℕ} {is : List ℕ} (hd : Within S a d)
    (hS : Scope.le ⟨[.tbl], [], []⟩ S) : Within S a (d.loseMeters pier is) := by
  refine hd.lift hS ?_
  unfold Dev.loseMeters
  exact .setMeters .refl rfl

theorem Within.dropMeters {d : Dev} {pier : ℕ} (hd : Within S a d)
    (hS : Scope.le ⟨[.tbl], [], []⟩ S) : Within S a (d.dropMeters pier) := by
  refine hd.lift hS ?_
  unfold Dev.dropMeters
  exact .setMeters .refl rfl

theorem Within.moveMeters {d : Dev} {old : ℕ} {new : ℕ} (hd : Within S a d)
    (hS : Scope.le ⟨[.tbl], [], []⟩ S) : Within S a (d.moveMeters old new) := by
  refine hd.lift hS ?_
  unfold Dev.moveMeters
  exact .setMeters (.setMeters .refl rfl) rfl

theorem Within.postTbl {d : Dev} {e : EvDesc} {t : Option ℕ} {pl : List (ℕ × ℕ × ℕ)} (hd : Within S a d)
    (hS : Scope.le ⟨[.posted], [], []⟩ S) : Within S a (d.postTbl e t pl) := by
  refine hd.lift hS ?_
  unfold Dev.postTbl
  exact .postInst .refl rfl

theorem Within.putAll {d : Dev} {kind : ℕ} {ws : List (ℕ × BitVec 1024)} (hd : Within S a d)
    (hS : Scope.le ⟨[.tbl], [], []⟩ S) : Within S a (d.putAll kind ws) := by
  refine hd.lift hS ?_
  unfold Dev.putAll
  exact .each .refl (fun x _ e he => (.putEntry he rfl))

theorem Within.rehashFail {d : Dev} {cause : ℕ} (hd : Within S a d)
    (hS : Scope.le ⟨[.posted, .tbl], [], [F.TBL_REHASH_STATUS_CAUSE.off]⟩ S) : Within S a (d.rehashFail cause) := by
  refine hd.lift hS ?_
  unfold Dev.rehashFail
  split
  · exact .refl
  · exact .postTbl (.wr (.wr (.set_tbl .refl rfl) rfl) rfl) rfl

theorem Within.countOps {d : Dev} {n : ℕ} (hd : Within S a d)
    (hS : Scope.le ⟨[.tbl], [], []⟩ S) : Within S a (d.countOps n) := by
  refine hd.lift hS ?_
  unfold Dev.countOps
  exact .set_tbl .refl rfl

theorem Within.countPath {d : Dev} {op : ℕ} (hd : Within S a d)
    (hS : Scope.le ⟨[.tbl], [], []⟩ S) : Within S a (d.countPath op) := by
  refine hd.lift hS ?_
  unfold Dev.countPath
  exact .ite (.set_tbl .refl rfl) (.ite (.set_tbl .refl rfl) .refl)

theorem Within.countLearn {d : Dev} (hd : Within S a d)
    (hS : Scope.le ⟨[.tbl], [], []⟩ S) : Within S a (d.countLearn) := by
  refine hd.lift hS ?_
  unfold Dev.countLearn
  exact .set_tbl .refl rfl

theorem Within.shadowPut {d : Dev} {sh : Place} {e : BitVec 1024} (hd : Within S a d)
    (hS : Scope.le ⟨[.posted, .tbl], [], [F.TBL_REHASH_STATUS_CAUSE.off, F.TBL_RELOC_MOVES.off]⟩ S) : Within S a (d.shadowPut sh e) := by
  refine hd.lift hS ?_
  unfold Dev.shadowPut
  split
  · exact .putEntry .refl rfl
  · exact .putEntry (.putAll (.bumpN (.countOps .refl rfl) rfl) rfl) rfl
  · exact .rehashFail .refl rfl

theorem Within.shadowSync {d : Dev} {tid : ℕ} {p : Place} {key : ℕ} {stamp : Bool} (hd : Within S a d)
    (hS : Scope.le ⟨[.posted, .tbl], [], [F.TBL_REHASH_STATUS_CAUSE.off, F.TBL_RELOC_MOVES.off]⟩ S) :
    Within S a (d.shadowSync tid p key stamp) := by
  refine hd.lift hS ?_
  unfold Dev.shadowSync
  split
  · exact .refl
  · dsimp only
    split
    · exact .ite .refl (.shadowPut .refl rfl)
    · split
      · exact .putEntry .refl rfl
      · exact .refl

theorem Within.putSynced {d : Dev} {tid : ℕ} {p : Place} {ws : List (ℕ × BitVec 1024)} {key : ℕ} (hd : Within S a d)
    (hS : Scope.le ⟨[.posted, .tbl], [], [F.TBL_REHASH_STATUS_CAUSE.off, F.TBL_RELOC_MOVES.off]⟩ S) :
    Within S a (d.putSynced tid p ws key) := by
  refine hd.lift hS ?_
  unfold Dev.putSynced
  exact .shadowSync (.each (.putAll .refl rfl) (fun x _ e he => (.shadowSync he rfl))) rfl

theorem Within.exactLookup {d : Dev} {tid : ℕ} {s : Schema} {p : Place} {key : ℕ} (hd : Within S a d)
    (hS : Scope.le ⟨[.posted, .tbl], [], [F.TBL_REHASH_STATUS_CAUSE.off, F.TBL_RELOC_MOVES.off]⟩ S) :
    Within S a (d.exactLookup tid s p key).2 := by
  refine hd.lift hS ?_
  unfold Dev.exactLookup
  dsimp only
  split
  · dsimp only
    split
    · exact .when (.putEntry .refl rfl) (fun _ => (.shadowSync (.putEntry .refl rfl) rfl))
    · exact .refl
  · split
    · exact .refl
    · exact .refl

theorem Within.poisonHit {d : Dev} {t : Option ℕ} {kind : ℕ} {i : ℕ} {pier : ℕ} {pipe : ℕ} (hd : Within S a d)
    (hS : Scope.le ⟨[.posted], [], [F.TBL_POISON_DROP.off]⟩ S) : Within S a (d.poisonHit t kind i pier pipe) := by
  refine hd.lift hS ?_
  unfold Dev.poisonHit
  exact .postTbl (.bump .refl rfl) rfl

theorem Within.poisonEntry {d : Dev} {kind : ℕ} {i : ℕ} {found : ℕ} (hd : Within S a d)
    (hS : Scope.le ⟨[.posted, .fresh, .tbl, .twn], [], [F.TBL_POISON_LOG_INDEX.off, F.TBL_ECC_UNCORR.off, F.TWN_EVIDENCE.off]⟩ S) :
    Within S a (d.poisonEntry kind i found) := by
  refine hd.lift hS ?_
  unfold Dev.poisonEntry
  dsimp only
  split
  · split
    · exact .refl
    · exact .postTbl (.wr (.wr (.wr (.set_tbl (.takeFree (.takeFree (.takeFree (.evidence (.bump .refl rfl) rfl) rfl) rfl) rfl) rfl) rfl)
        rfl) rfl) rfl
  · split
    · exact .refl
    · exact .postTbl (.wr (.wr (.wr (.set_tbl (.evidence (.bump .refl rfl) rfl) rfl) rfl) rfl) rfl) rfl

theorem Within.correctEntry {d : Dev} {kind : ℕ} {i : ℕ} (hd : Within S a d)
    (hS : Scope.le ⟨[.posted], [], [F.TBL_ECC_CORR.off]⟩ S) : Within S a (d.correctEntry kind i) := by
  refine hd.lift hS ?_
  unfold Dev.correctEntry
  exact .postTbl (.bump .refl rfl) rfl

theorem Within.countPacket {d : Dev} {t : Option ℕ} {pier : ℕ} {i : ℕ} {len : ℕ} (hd : Within S a d)
    (hS : Scope.le ⟨[.posted, .tbl], [], [F.TBL_CNT_LOST.off]⟩ S) : Within S a (d.countPacket t pier i len) := by
  refine hd.lift hS ?_
  unfold Dev.countPacket
  exact .ite (.postTbl (.bump .refl rfl) rfl) (.putEntry .refl rfl)

theorem Within.applyMeter {d : Dev} {t : Option ℕ} {pier : ℕ} {i : ℕ} {color : ℕ} {len : ℕ} {aware : Bool} (hd : Within S a d)
    (hS : Scope.le ⟨[.posted, .tbl], [], [F.TBL_METER_FOREIGN.off]⟩ S) : Within S a (d.applyMeter t pier i color len aware).2 := by
  refine hd.lift hS ?_
  unfold Dev.applyMeter
  dsimp only
  split
  · exact .postTbl (.bump .refl rfl) rfl
  · split
    · exact .refl
    · exact .useMeter .refl rfl

theorem Within.snapFire {d : Dev} {n : ℕ} (hd : Within S a d)
    (hS : Scope.le ⟨[.posted, .tbl], [], [F.TBL_SNAP_STATUS_STATE.off, F.TBL_SNAP_SPAN_SPAN.off]⟩ S) : Within S a (d.snapFire n).2 := by
  refine hd.lift hS ?_
  unfold Dev.snapFire
  dsimp only
  split
  · split
    · exact .postTbl .refl rfl
    · exact .wr (.wr (.set_tbl .refl rfl) (has_item rfl)) (has_item rfl)
  · split
    · split
      · exact .postTbl .refl rfl
      · exact .wr (.wr (.set_tbl .refl rfl) (has_item rfl)) (has_item rfl)
    · split
      · split
        · exact .postTbl .refl rfl
        · exact .wr (.wr (.set_tbl .refl rfl) (has_item rfl)) (has_item rfl)
      · split
        · exact .postTbl .refl rfl
        · exact .wr (.wr (.set_tbl .refl rfl) (has_item rfl)) (has_item rfl)

theorem Within.snapWrite {d : Dev} {s : Snapshot} {n : ℕ} (hd : Within S a d)
    (hS : Scope.le ⟨[.hostMem], [], []⟩ S) : Within S a (d.snapWrite s n) := by
  refine hd.lift hS ?_
  unfold Dev.snapWrite
  exact .each .refl (fun x _ e he => (.dma he rfl))

theorem Within.snapshotCopyDone {ok : Bool} {copied : ℕ} {d : Dev} (hd : Within S a d)
    (hS : Scope.le ⟨[.posted, .hostMem, .tbl], [], [F.TBL_SNAP_STATUS_STATE.off]⟩ S) : Within S a (snapshotCopyDone ok copied d) := by
  refine hd.lift hS ?_
  unfold Machine.snapshotCopyDone
  split
  · exact .refl
  · exact .postTbl (.wr (.set_tbl (.snapWrite .refl rfl) rfl) (has_item rfl)) rfl

theorem Within.insertNoRoom {d : Dev} {tid : ℕ} {p : Place} {source : ℕ} (hd : Within S a d)
    (hS : Scope.le ⟨[.posted], [6], []⟩ S) : Within S a (d.insertNoRoom tid p source) := by
  refine hd.lift hS ?_
  unfold Dev.insertNoRoom
  exact .ite (.bump .refl rfl) (.postTbl (.wrIx (.bump .refl rfl) rfl) rfl)

theorem Within.learnSubmit {d : Dev} {tag : ℕ} {tid : ℕ} {key : ℕ} {result : ℕ} {pier : ℕ} (hd : Within S a d)
    (hS : Scope.le ⟨[.tbl], [], [F.TBL_LEARN_DROP.off, F.TBL_LEARN_BAD.off]⟩ S) : Within S a (d.learnSubmit tag tid key result pier) := by
  refine hd.lift hS ?_
  unfold Dev.learnSubmit
  split
  · exact .refl
  · exact .ite (.bump .refl rfl) (.ite (.bump .refl rfl) (.set_tbl .refl rfl))

theorem Within.learnEvent {d : Dev} {s : LearnSub} {what : ℕ} (hd : Within S a d)
    (hS : Scope.le ⟨[.posted, .tbl], [], [F.TBL_LEARN_EV_SUPPRESSED.off]⟩ S) : Within S a (d.learnEvent s what) := by
  refine hd.lift hS ?_
  unfold Dev.learnEvent
  exact .ite (.bump .refl rfl) (.postInst (.set_tbl .refl rfl) rfl)

theorem Within.applyEntryRecord {d : Dev} {body : List Byte} (hd : Within S a d)
    (hS : Scope.le ⟨[.posted, .tbl], [], [F.TBL_REHASH_STATUS_CAUSE.off, F.TBL_RELOC_MOVES.off]⟩ S) :
    Within S a (d.applyEntryRecord body) := by
  refine hd.lift hS ?_
  unfold Dev.applyEntryRecord
  dsimp only
  split
  · exact .refl
  · split
    · exact .refl
    · exact .shadowSync (.ite (.shadowSync (.putEntry .refl rfl) rfl) (.putEntry .refl rfl)) rfl

theorem Within.learnView {d : Dev} (hd : Within S a d)
    (hS : Scope.le ⟨[.posted, .tbl], [], [F.TBL_REHASH_STATUS_CAUSE.off, F.TBL_RELOC_MOVES.off]⟩ S) : Within S a (d.learnView) := by
  refine hd.lift hS ?_
  unfold Dev.learnView
  exact .each .refl (fun x _ e he => (.applyEntryRecord he rfl))

theorem Within.learnAt {d : Dev} {rest : List LearnSub} (hd : Within S a d)
    (hS : Scope.le ⟨[.posted, .tbl], [], [F.TBL_REHASH_STATUS_CAUSE.off, F.TBL_RELOC_MOVES.off]⟩ S) : Within S a (learnAt d rest) := by
  refine hd.lift hS ?_
  unfold Machine.learnAt
  exact .learnView (.countLearn (.set_tbl .refl rfl) rfl) rfl

theorem Within.learnWrites {d : Dev} {tid : ℕ} {p : Place} {ws : List (ℕ × BitVec 1024)} {key : ℕ} (hd : Within S a d)
    (hS : Scope.le ⟨[.posted, .tbl, .twn], [], [F.TBL_REHASH_STATUS_CAUSE.off, F.TBL_RELOC_MOVES.off]⟩ S) :
    Within S a (d.learnWrites tid p ws key) := by
  refine hd.lift hS ?_
  unfold Dev.learnWrites
  split
  · exact .each .refl (fun x _ e he => (.mirrorDefer he rfl))
  · exact .putSynced .refl rfl

theorem Within.learnApply {d : Dev} (hd : Within S a d)
    (hS : Scope.le ⟨[.posted, .tbl, .twn], [6], []⟩ S) : Within S a (learnApply d) := by
  refine hd.lift hS ?_
  unfold Machine.learnApply
  split
  · exact .refl
  · split
    · exact .refl
    · dsimp only
      split
      · exact .bump (.countLearn (.set_tbl .refl rfl) rfl) rfl
      · split
        · split
          · exact .countOps (.countLearn (.set_tbl .refl rfl) rfl) rfl
          · split
            · exact .bump (.countOps (.countLearn (.set_tbl .refl rfl) rfl) rfl) rfl
            · split
              · exact .learnWrites (.countOps (.countLearn (.set_tbl .refl rfl) rfl) rfl) rfl
              · exact .learnEvent (.bump (.learnWrites (.countOps (.countLearn (.set_tbl .refl rfl) rfl) rfl) rfl) rfl) rfl
        · exact .learnEvent (.bump (.learnWrites (.bumpN (.countOps (.countOps (.countLearn (.set_tbl .refl rfl) rfl) rfl) rfl) rfl) rfl)
            rfl) rfl
        · exact .insertNoRoom (.bump (.countOps (.countLearn (.set_tbl .refl rfl) rfl) rfl) rfl) rfl

theorem Within.opIgnored {d : Dev} (hd : Within S a d)
    (hS : Scope.le ⟨[], [], [F.TBL_OP_IGNORED.off]⟩ S) : Within S a (d.opIgnored) := by
  refine hd.lift hS ?_
  unfold Dev.opIgnored
  exact .bump .refl rfl

theorem Within.poison {st : Stroke} {t : Option ℕ} {kind : ℕ} {i : ℕ} {d : Dev} (hd : Within S a d)
    (hS : Scope.le ⟨[.posted], [], [F.TBL_POISON_DROP.off]⟩ S) : Within S a (st.poison t kind i d).2 := by
  refine hd.lift hS ?_
  unfold Stroke.poison
  exact .poisonHit .refl rfl

theorem Within.count {st : Stroke} {t : Option ℕ} {i : ℕ} {d : Dev} (hd : Within S a d)
    (hS : Scope.le ⟨[.posted, .tbl], [], [F.TBL_CNT_LOST.off, F.TBL_OP_IGNORED.off]⟩ S) : Within S a (st.count t i d).2 := by
  refine hd.lift hS ?_
  unfold Stroke.count
  split
  · exact .opIgnored .refl rfl
  · exact .countPacket .refl rfl

theorem Stroke.count_pier (st : Stroke) (t : Option ℕ) (i : ℕ) (d : Dev) : (st.count t i d).1.pier = st.pier := by
  unfold Stroke.count
  split <;> rfl

theorem Within.meter {st : Stroke} {t : Option ℕ} {i : ℕ} {aware : Bool} {d : Dev} (hd : Within S a d)
    (hS : Scope.le ⟨[.posted, .tbl], [], [F.TBL_POISON_DROP.off, F.TBL_OP_IGNORED.off, F.TBL_METER_FOREIGN.off]⟩ S) :
    Within S a (st.meter t i aware d).2 := by
  refine hd.lift hS ?_
  unfold Stroke.meter
  split
  · exact .opIgnored .refl rfl
  · split
    · exact .poison .refl rfl
    · exact .applyMeter .refl rfl

theorem Stroke.meter_pier (st : Stroke) (t : Option ℕ) (i : ℕ) (aware : Bool) (d : Dev) : (st.meter t i aware d).1.pier = st.pier := by
  unfold Stroke.meter
  split
  · rfl
  · split <;> rfl

theorem Within.pushAt {st : Stroke} {j : ℕ} {h : Hdr} {d : Dev} (hd : Within S a d)
    (hS : Scope.le ⟨[.posted], [], [F.TBL_POISON_DROP.off]⟩ S) : Within S a (st.pushAt j h d).2 := by
  refine hd.lift hS ?_
  unfold Stroke.pushAt
  dsimp only
  split
  · exact .poison .refl rfl
  · split
    · exact .refl
    · exact .refl

theorem Stroke.pushAt_pier (st : Stroke) (j : ℕ) (h : Hdr) (d : Dev) : (st.pushAt j h d).1.pier = st.pier := by
  unfold Stroke.pushAt
  dsimp only
  split
  · rfl
  · split <;> rfl

theorem Within.goes {st : Stroke} {d : Dev} (hd : Within S a d)
    (hS : Scope.le ⟨[], [], []⟩ S) : Within S a (st.goes d).dev := by
  refine hd.lift hS ?_
  unfold Stroke.goes
  exact .refl

theorem Within.word {st : Stroke} {w : BitVec 128} {d : Dev} (hd : Within S a d)
    (hS : Scope.le ⟨[.posted, .tbl], [6], []⟩ S) : Within S a (st.word w d).dev := by
  refine hd.lift hS ?_
  unfold Stroke.word
  dsimp only
  generalize (if bits w 103 97 = 0 then 64 else bits w 103 97) = n
  split
  · exact .refl
  split
  · exact .refl
  split
  · exact .refl
  split
  case h_13 => split <;> exact .refl
  case h_15 => exact .goes (.meter .refl rfl) rfl
  case h_16 => exact .goes (.count .refl rfl) rfl
  case h_18 =>
    split
    · exact .refl
    · exact .goes (.learnSubmit .refl rfl) rfl
  case h_21 =>
    split
    · exact .goes (.opIgnored .refl rfl) rfl
    split
    · exact .refl
    · exact .goes (.pushAt .refl rfl) rfl
  all_goals exact .refl

/-- No action word moves its stroke to another pier. -/
theorem Stroke.word_pier (st : Stroke) (w : BitVec 128) (d : Dev) : (st.word w d).st.pier = st.pier := by
  unfold Stroke.word
  dsimp only
  generalize (if bits w 103 97 = 0 then 64 else bits w 103 97) = n
  split
  · rfl
  · split
    · rfl
    · split
      · rfl
      · split
        case h_15 => exact st.meter_pier ..
        case h_16 => exact st.count_pier ..
        case h_13 => split <;> rfl
        case h_18 => split <;> rfl
        case h_19 => exact st.decTtl_pier _
        case h_20 => exact st.pop_pier ..
        case h_21 =>
          split
          · rfl
          · split
            · rfl
            · exact st.pushAt_pier ..
        case h_22 => exact st.setHdr_pier ..
        all_goals rfl

theorem Within.runFrom {prog : List (BitVec 128)} {pc n : ℕ} {x : Stroke} {n1 : ℕ} {d : Dev} (hd : Within S a d)
    (hS : Scope.le ⟨[.posted, .tbl], [6], []⟩ S) : Within S a (Machine.runFrom prog pc n x n1 d).dev := by
  induction n generalizing x n1 d with
  | zero =>
    unfold Machine.runFrom
    split <;> exact hd
  | succ k ih =>
    unfold Machine.runFrom
    split
    · exact hd
    · dsimp only
      split
      · exact hd
      · split
        · exact .word hd hS
        · split
          · exact .word hd hS
          · exact ih (.word hd hS)

theorem runFrom_pier (prog : List (BitVec 128)) (pc n : ℕ) (st : Stroke) (i : ℕ) (d : Dev) : (runFrom prog pc n st i d).st.pier = st.pier
  := by
  induction n generalizing st i d with
  | zero =>
    unfold runFrom
    split <;> rfl
  | succ k ih =>
    unfold runFrom
    split
    · rfl
    · dsimp only
      split
      · rfl
      · split
        · exact st.word_pier ..
        · split
          · exact st.word_pier ..
          · exact (ih ..).trans (st.word_pier ..)

theorem Within.runWords {prog : List (BitVec 128)} {n : ℕ} {st : Stroke} {a' : ℕ} {d : Dev} (hd : Within S a d)
    (hS : Scope.le ⟨[.posted, .tbl], [6], []⟩ S) : Within S a (runWords prog n st a' d).dev := by
  refine hd.lift hS ?_
  unfold Machine.runWords
  exact .runFrom .refl rfl

theorem Within.tableLookup {st : Stroke} {tid : ℕ} {s : Schema} {key : ℕ} {d : Dev} (hd : Within S a d)
    (hS : Scope.le ⟨[.posted, .tbl], [6], []⟩ S) : Within S a (st.tableLookup tid s key d).dev := by
  refine hd.lift hS ?_
  unfold Stroke.tableLookup
  dsimp only
  split
  · split
    · exact .refl
    · exact .refl
    · exact .poison .refl rfl
  · split
    · split
      · exact .exactLookup .refl rfl
      · exact .exactLookup .refl rfl
      · exact .poison (.exactLookup .refl rfl) rfl
    · split
      · exact .refl
      · split
        · split
          · exact .poison .refl rfl
          · split
            · exact .refl
            · exact .refl
        · split
          · split
            · exact .poison .refl rfl
            · split
              · exact .refl
              · exact .refl
          · split
            · split
              · exact .poison .refl rfl
              · exact .meter .refl rfl
            · split
              · exact .count .refl rfl
              · exact .refl

theorem Stroke.tableLookup_pier (st : Stroke) (tid : ℕ) (s : Schema) (key : ℕ) (d : Dev) : (st.tableLookup tid s key d).st.pier = st.pier
  := by
  unfold Stroke.tableLookup
  dsimp only
  split
  · split <;> rfl
  · split
    · split <;> rfl
    · split
      · rfl
      · split
        · split
          · rfl
          · split
            · dsimp only
              split <;> rfl
            · rfl
        · split
          · split
            · rfl
            · split <;> rfl
          · split
            · split
              · rfl
              · exact st.meter_pier ..
            · split
              · exact st.count_pier ..
              · rfl

theorem Within.look {st : Stroke} {s : StageRec} {d : Dev} (hd : Within S a d)
    (hS : Scope.le ⟨[.posted, .tbl], [6], []⟩ S) : Within S a (st.look s d).dev := by
  refine hd.lift hS ?_
  unfold Stroke.look
  dsimp only
  split
  · dsimp only
    split
    · split
      · exact .refl
      · exact .refl
    · exact .tableLookup .refl rfl
  · split
    · dsimp only
      split
      · exact .refl
      · split
        · exact .refl
        · exact .refl
    · split
      · exact .refl
      · split
        · exact .refl
        · exact .refl

theorem Stroke.look_pier (st : Stroke) (s : StageRec) (d : Dev) : (st.look s d).st.pier = st.pier := by
  unfold Stroke.look
  dsimp only
  split
  · dsimp only
    split
    · split <;> rfl
    · exact st.tableLookup_pier ..
  · split_ifs <;> rfl

theorem Within.stage {st : Stroke} {s : StageRec} {d : Dev} (hd : Within S a d)
    (hS : Scope.le ⟨[.posted, .tbl], [6], []⟩ S) : Within S a (st.stage s d).dev := by
  refine hd.lift hS ?_
  unfold Stroke.stage
  dsimp only
  split
  · exact .look .refl rfl
  · exact .runWords (.look .refl rfl) rfl

/-- No stage moves its stroke to another pier. -/
theorem Stroke.stage_pier (st : Stroke) (s : StageRec) (d : Dev) : (st.stage s d).st.pier = st.pier := by
  unfold Stroke.stage
  dsimp only
  split
  · exact st.look_pier ..
  · exact (runFrom_pier ..).trans (st.look_pier ..)

theorem Within.stages {st : Stroke} {d : Dev} {l : List StageRec} (hd : Within S a d) (hst : st.pier < 17)
    (hS : Scope.le ⟨[.posted, .tbl], [5, 6], []⟩ S) : Within S a (st.stages d l).2 := by
  induction l generalizing d st with
  | nil => exact hd
  | cons y t ih =>
    rw [Stroke.stages]
    split
    · exact ih hd hst
    · dsimp only
      split
      · exact ih (hd.lift hS (.stage .refl rfl)) ((st.stage_pier y d).trans_lt hst)
      · exact hd.lift hS (.post (.bump (.stage .refl rfl) (has_pier hst rfl)) rfl)

theorem Within.stageLow {d : Dev} {m : ℕ} {off : ℕ} {data : Word} (hd : Within S a d)
    (hS : Scope.le ⟨[.stages], [], []⟩ S) : Within S a (d.stageLow m off data) := by
  refine hd.lift hS ?_
  unfold Dev.stageLow
  exact .set_stages .refl rfl

theorem Within.bufFreeAddr {m : ℕ} {high : Word} {d : Dev} (hd : Within S a d)
    (hS : Scope.le ⟨[.stages, .posted, .fresh, .buf], [7], []⟩ S) : Within S a (bufFreeAddr m high d) := by
  refine hd.lift hS ?_
  unfold Machine.bufFreeAddr
  exact .freeAddr (.wr (.unstage .refl rfl) rfl) rfl

/-- What a register write into a block may change, the end of the access and the events beside it. -/
def writeScope (b : ℕ) : Scope := ⟨[.stages, .lastAbort, .posted] ++ (writeFrame b).1, (writeFrame b).2, []⟩

theorem blockScope_le_writeScope (b : ℕ) : Scope.le (blockScope b) (writeScope b) := by
  simp only [Scope.le, Scope.has, blockScope, writeScope, Bool.and_eq_true, List.all_eq_true, List.contains_iff_mem]
  refine ⟨⟨fun p hp => ?_, fun _ h => h⟩, fun x hx => nomatch hx⟩
  simp only [List.mem_append, List.mem_cons, List.not_mem_nil, or_false] at hp ⊢
  tauto

/-- What a write of a half of a 64-bit register of a block may change, the end of the access beside it. -/
def wideScope (b : ℕ) : Scope :=
  ⟨[.stages, .posted] ++ (match b with | 2 => [.tim] | 3 => [.twn] | 7 => [.fresh, .buf] | 11 => [.twn] | _ => []), [b], []⟩

theorem has_wideScope {off : ℕ} {r : RegAt} (e : regAt off = some r) : (wideScope (blockOf off)).has (r.off % 0x20000000) :=
  has_regAt e (by simp [wideScope])

theorem wideScope_le_writeScope {b : ℕ} (h : 1 ≤ b ∧ b ≤ 17) : Scope.le (wideScope b) (writeScope b) := by
  obtain ⟨h1, h2⟩ := h
  interval_cases b <;> rfl

/-- What a timed register write into a block may change, the entry that fires beside it. -/
def actionScope (b : ℕ) : Scope := ⟨[.stages, .lastAbort, .posted, .tim, .twn] ++ (writeFrame b).1, (writeFrame b).2, []⟩

theorem writeScope_le_actionScope (b : ℕ) : Scope.le (writeScope b) (actionScope b) := by
  simp only [Scope.le, Scope.has, writeScope, actionScope, Bool.and_eq_true, List.all_eq_true, List.contains_iff_mem]
  refine ⟨⟨fun p hp => ?_, fun _ h => h⟩, fun x hx => nomatch hx⟩
  simp only [List.mem_append, List.mem_cons, List.not_mem_nil, or_false] at hp ⊢
  tauto

/-- What a timed action may change by its type: a register write, what its block may. -/
def entryScope (e : TaEntry) : Scope :=
  if e.type = 5 then actionScope (blockOf (taOffset e.operand)) else ⟨[.posted, .tim, .img, .tbl, .que, .shp], [3, 6, 9], []⟩

/-- What a mirror record may change by its kind: a register write, what its block may. -/
def recordScope (r : MirrorRec) : Scope :=
  if r.kind = 2 then if r.seq = ownSeq then ⟨[.twn], [11], []⟩ else
    ⟨[.stages, .lastAbort, .posted, .twn] ++ (writeFrame (blockOf (leNat (bytesAt r.body 0 4)))).1,
      (writeFrame (blockOf (leNat (bytesAt r.body 0 4)))).2, []⟩
  else ⟨[.posted, .tim, .tbl, .twn, .dgn], [6, 17], []⟩

theorem Within.stroke {d : Dev} {pier pipe start : ℕ} {p : Packet} (hd : Within S a d) (hpier : pier < 17)
    (hS : Scope.le ⟨[.posted, .tbl], [5, 6], []⟩ S) : Within S a (d.stroke pier pipe start p).2 := by
  refine hd.lift hS ?_
  unfold Dev.stroke
  exact .stages (.ite .refl (.post (.bump .refl (has_pier hpier rfl)) rfl)) hpier rfl

theorem Within.setSs {d : Dev} {p : ℕ} {l : List SsEntry} (hd : Within S a d)
    (hS : Scope.le ⟨[.pir], [], []⟩ S) : Within S a (d.setSs p l) := by
  refine hd.lift hS ?_
  unfold Dev.setSs
  exact .set_pir .refl rfl

theorem Within.rxPop {d : Dev} {o : ℕ} (hd : Within S a d)
    (hS : Scope.le ⟨[.lpt], [], []⟩ S) : Within S a (d.rxPop o) := by
  refine hd.lift hS ?_
  unfold Dev.rxPop
  exact .ite (.set_lpt .refl rfl) (.set_lpt .refl rfl)

theorem Within.setTurn {d : Dev} {p : ℕ} {t : ℕ} (hd : Within S a d)
    (hS : Scope.le ⟨[.pir], [], []⟩ S) : Within S a (d.setTurn p t) := by
  refine hd.lift hS ?_
  unfold Dev.setTurn
  exact .set_pir .refl rfl

theorem Within.issueSlot {d : Dev} {pier : ℕ} {ss : Bool} (hd : Within S a d)
    (hS : Scope.le ⟨[.pir], [], []⟩ S) : Within S a (d.issueSlot pier ss) := by
  refine hd.lift hS ?_
  unfold Dev.issueSlot
  exact .set_pir .refl rfl

theorem Within.ingressAt {d : Dev} {p : ℕ} {o : ℕ} (hd : Within S a d) (hp : p < 17)
    (hS : Scope.le ⟨[.lpt, .pir], [5], []⟩ S) : Within S a (ingressAt d p o) := by
  refine hd.lift hS ?_
  unfold Machine.ingressAt
  exact .bump (.issueSlot (.rxPop .refl rfl) rfl) (has_pier hp rfl)

theorem Within.secondAt {d : Dev} {p : ℕ} {rest : List SsEntry} (hd : Within S a d) (hp : p < 17)
    (hS : Scope.le ⟨[.pir], [5], []⟩ S) : Within S a (secondAt d p rest) := by
  refine hd.lift hS ?_
  unfold Machine.secondAt
  exact .bump (.issueSlot (.setTurn (.setSs .refl rfl) rfl) rfl) (has_pier hp rfl)

theorem Within.decided {d : Dev} {fcs : Option ℕ} {p : Packet} (hd : Within S a d)
    (hS : Scope.le ⟨[.posted, .twn], [], []⟩ S) : Within S a (d.decided fcs p) := by
  refine hd.lift hS ?_
  unfold Dev.decided
  split
  · exact .decision .refl rfl
  · exact .refl

theorem Within.strokeDrop {d : Dev} {fcs : Option ℕ} {p : Packet} (hd : Within S a d)
    (hS : Scope.le ⟨[.posted, .twn], [14], []⟩ S) : Within S a (d.strokeDrop fcs p) := by
  refine hd.lift hS ?_
  unfold Dev.strokeDrop
  exact .decided (.dropCount .refl rfl) rfl

theorem Within.recirc {d : Dev} {pier : ℕ} {fcs : Option ℕ} {p : Packet} (hd : Within S a d) (hpier : pier < 17)
    (hS : Scope.le ⟨[.posted, .pir, .twn], [5, 14], []⟩ S) : Within S a (d.recirc pier fcs p) := by
  refine hd.lift hS ?_
  unfold Dev.recirc
  exact .ite (.strokeDrop (.post (.bump .refl (has_pier hpier rfl)) rfl) rfl)
    (.ite (.strokeDrop (.post (.bump .refl (has_pier hpier rfl)) rfl) rfl) (.setSs .refl rfl))

theorem Within.toTm {d : Dev} {o : ℕ} {p : Packet} (hd : Within S a d)
    (hS : Scope.le ⟨[.que], [], []⟩ S) : Within S a (d.toTm o p) := by
  refine hd.lift hS ?_
  unfold Dev.toTm
  exact .ite .refl (.set_que .refl rfl)

theorem Within.ingressExit {d : Dev} {pier : ℕ} {o : ℕ} {fcs : Option ℕ} {st : Stroke} (hd : Within S a d) (hpier : pier < 17)
    (hS : Scope.le ⟨[.posted, .pir, .que, .twn], [5, 14], []⟩ S) : Within S a (d.ingressExit pier o fcs st) := by
  refine hd.lift hS ?_
  unfold Dev.ingressExit
  dsimp only
  split
  · exact .strokeDrop .refl rfl
  · exact .ite (.recirc .refl hpier rfl) (.toTm (.decided .refl rfl) rfl)

theorem Within.injectDone {d : Dev} {q : ℕ} (hd : Within S a d)
    (hS : Scope.le ⟨[.hostMem, .hst], [14], []⟩ S) : Within S a (d.injectDone q) := by
  refine hd.lift hS ?_
  unfold Dev.injectDone
  split
  · exact .refl
  · exact .when (.wrIx (.dma (.set_hst .refl rfl) rfl) rfl) (fun _ => (.raiseVector (.wrIx (.dma (.set_hst .refl rfl) rfl) rfl) rfl))

theorem Within.ingressStroke {pier : ℕ} {d : Dev} (hd : Within S a d) (hpier : pier < 17)
    (hS : Scope.le ⟨[.posted, .hostMem, .lpt, .pir, .tbl, .que, .twn, .hst], [5, 6, 14], []⟩ S) : Within S a (ingressStroke pier d) := by
  refine hd.lift hS ?_
  unfold Machine.ingressStroke
  split
  · exact .refl
  · split
    · exact .refl
    · split
      · exact .refl
      · split
        · exact .ingressExit (.stroke (.bump (.issueSlot (.rxPop .refl rfl) rfl) (has_pier hpier rfl)) hpier rfl) hpier rfl
        · split
          · exact .refl
          · split
            · exact .refl
            · refine .ingressExit (.stroke (.bump (.setTurn ?_ rfl) (has_pier hpier rfl)) hpier rfl) hpier rfl
              split
              · exact .injectDone (.issueSlot (.set_pir .refl rfl) rfl) rfl
              · exact .issueSlot (.set_pir .refl rfl) rfl

theorem Within.secondStroke {pier : ℕ} {d : Dev} (hd : Within S a d) (hpier : pier < 17)
    (hS : Scope.le ⟨[.posted, .tim, .pir, .tbl, .que, .twn], [5, 6, 14], [F.TIM_EXPIRED_CNT.off]⟩ S) :
    Within S a (secondStroke pier d) := by
  refine hd.lift hS ?_
  unfold Machine.secondStroke
  split
  · exact .refl
  · split
    · exact .refl
    · split
      · exact .refl
      · split
        · exact .refl
        · dsimp only
          split
          · exact .dropCount (.setTurn (.setSs .refl rfl) rfl) rfl
          · split
            · exact .dropExpired (.setTurn (.setSs .refl rfl) rfl) rfl
            · exact .ingressExit (.stroke (.bump (.issueSlot (.setTurn (.setSs .refl rfl) rfl) rfl) (has_pier hpier rfl)) hpier rfl) hpier
                rfl

theorem Within.oneStep {d : Dev} {l : List Byte} (hd : Within S a d)
    (hS : Scope.le ⟨[.fresh], [], []⟩ S) : Within S a (d.oneStep l).2 := by
  refine hd.lift hS ?_
  unfold Dev.oneStep
  split
  · exact .refl
  · exact .set_fresh .refl rfl

theorem Within.toLine {d : Dev} {port : ℕ} {p : Packet} (hd : Within S a d) (hport : port < 256)
    (hS : Scope.le ⟨[.posted, .fresh, .lpt], [4, 14], []⟩ S) : Within S a (d.toLine port p) := by
  refine hd.lift hS ?_
  unfold Dev.toLine
  dsimp only
  split
  · split
    · rename_i h1
      refine .updLp (.snd h1 (.msecProtect ?_ hport rfl)) rfl
      split
      · exact .oneStep .refl rfl
      · exact .refl
    · rename_i h1
      refine .snd h1 (.msecProtect ?_ hport rfl)
      split
      · exact .oneStep .refl rfl
      · exact .refl
  · refine .updLp ?_ rfl
    split
    · exact .oneStep .refl rfl
    · exact .refl

theorem Within.eachPier {d : Dev} {f : Nat → Dev → Dev} (hd : Within S a d) (hf : ∀ p, p < 17 → ∀ e, Within S a e → Within S a (f p e)) :
    Within S a (d.eachPier f) :=
  .each hd fun p hp e he => hf p (List.mem_range.1 (List.mem_of_mem_filter hp)) e he

theorem Within.commitRequest {d : Dev} {m : ℕ} {pier : ℕ} {data : Word} (hd : Within S a d)
    (hS : Scope.le ⟨[.posted, .pir], [], []⟩ S) : Within S a (d.commitRequest m pier data) := by
  refine hd.lift hS ?_
  unfold Dev.commitRequest
  exact .ite (.post .refl rfl) (.set_pir .refl rfl)

theorem Within.tcamCommitRequest {m : ℕ} {data : Word} {d : Dev} (hd : Within S a d)
    (hS : Scope.le ⟨[.posted, .pir], [], []⟩ S) : Within S a (tcamCommitRequest m data d) := by
  refine hd.lift hS ?_
  unfold Machine.tcamCommitRequest
  exact .eachPier .refl (fun p _ e he => (.commitRequest he rfl))

theorem Within.tcamCommit {pier : ℕ} {d : Dev} (hd : Within S a d)
    (hc : S.has ((F.PIR_TCAM_COMMITS.pier pier).off % 0x20000000)) (hs : S.has ((F.PIR_TCAM_STEALS.pier pier).off % 0x20000000))
    (hS : Scope.le ⟨[.pir], [], []⟩ S) : Within S a (Machine.tcamCommit pier d) := by
  have hpir : S.parts.contains .pir := Scope.parts_contains hS rfl
  unfold Machine.tcamCommit
  refine .ite hd ?_
  split
  · exact hd
  · exact .bump_when (.ite (.issueSlot (.set_pir hd hpir) hS) (.set_pir hd hpir)) hc hs

theorem Within.shadowWrite {d : Dev} {pier : ℕ} {f : TcamRow → TcamRow} (hd : Within S a d)
    (hS : Scope.le ⟨[.pir], [], []⟩ S) : Within S a (d.shadowWrite pier f) := by
  refine hd.lift hS ?_
  unfold Dev.shadowWrite
  exact .set_pir .refl rfl

theorem Within.pirCntClr {pier : ℕ} {d : Dev} (hd : Within S a d) (hp : pier < 17)
    (hS : Scope.le ⟨[], [5], []⟩ S) : Within S a (Machine.pirCntClr pier d) := by
  refine hd.lift hS ?_
  unfold Machine.pirCntClr
  refine .each .refl (fun n hn e he => .setReg he (Scope.has_of_between (lo := 0x8000000) (hi := 0x9FFFFFF) rfl ?_ ?_))
  · omega
  · have := List.mem_range.1 hn; omega

theorem Within.setRails {d : Dev} (hd : Within S a d)
    (hS : Scope.le ⟨[.pwr], [], []⟩ S) : Within S a (d.setRails) := by
  refine hd.lift hS ?_
  unfold Dev.setRails
  exact .each .refl (fun x _ e he => (.ite he (.set_pwr he rfl)))

theorem Within.unitDone {d : Dev} {u : ℕ} {b : ℕ} (hd : Within S a d)
    (hS : Scope.le ⟨[.posted], [], []⟩ S) : Within S a (d.unitDone u b) := by
  refine hd.lift hS ?_
  unfold Dev.unitDone
  exact .post .refl rfl

theorem Within.unitIncomplete {d : Dev} {u : ℕ} (hd : Within S a d) (hu : u < 8)
    (hS : Scope.le ⟨[.posted], [17], []⟩ S) : Within S a (d.unitIncomplete u) := by
  refine hd.lift hS ?_
  unfold Dev.unitIncomplete
  exact .unitDone (.wr .refl (has_ix hu rfl)) rfl

theorem Within.unitCompares {d : Dev} {u : ℕ} {l : List Byte} (hd : Within S a d) (hu : u < 8)
    (hS : Scope.le ⟨[.posted], [17], []⟩ S) : Within S a (d.unitCompares u l).2 := by
  refine hd.lift hS ?_
  unfold Dev.unitCompares
  dsimp only
  split
  · exact .unitDone (.wr (.wr .refl (has_ix hu rfl)) (has_ix hu rfl)) rfl
  · exact .post (.bump (.wr (.wr .refl (has_ix hu rfl)) (has_ix hu rfl)) rfl) rfl

theorem Within.streamEnds {d : Dev} {point seg : ℕ} {given : Option (List Byte)} (hd : Within S a d)
    (hS : Scope.le ⟨[.posted], [17], []⟩ S) : Within S a (d.streamEnds point seg given).2 := by
  refine hd.lift hS ?_
  unfold Dev.streamEnds
  refine .foldl_snd .refl (fun u hu x hx => ?_)
  exact .unitCompares hx (lt_of_mem_runningAt hu) rfl

theorem Within.streamStops {d : Dev} {point seg : Nat} (hd : Within S a d) (hS : Scope.le ⟨[.posted], [17], []⟩ S) :
    Within S a (d.streamStops point seg) :=
  hd.lift hS (.each .refl fun _ hx _ he => .unitIncomplete he (lt_of_mem_runningAt hx) rfl)

theorem Within.copyStops {d : Dev} (hd : Within S a d)
    (hS : Scope.le ⟨[.posted], [17], []⟩ S) : Within S a (d.copyStops) := by
  refine hd.lift hS ?_
  unfold Dev.copyStops
  exact .each .refl (fun x hx e he => (.unitIncomplete he (List.mem_range.1 (List.mem_of_mem_filter hx)) rfl))

end Sys2Proof.Machine
end

