-- ==== Sys2Proof/Proofs/FramesTae.lean ====
section
/-! PROOF. What the model's functions may change: the table engine and time.
Each has the least scope it needs, and runs within any wider one. -/

namespace Sys2Proof.Machine

variable {S : Scope} {a : Dev}

theorem Within.doReadKey {d : Dev} {r : BitVec 2048} (hd : Within S a d)
    (hS : Scope.le ⟨[.tbl], [], []⟩ S) : Within S a (d.doReadKey r).2 := by
  refine hd.lift hS ?_
  unfold Dev.doReadKey
  split
  · exact .refl
  · split
    · exact .countOps .refl rfl
    · exact .countOps .refl rfl

theorem Within.doInsert {d : Dev} {r : BitVec 2048} (hd : Within S a d)
    (hS : Scope.le ⟨[.posted, .tbl], [6], []⟩ S) : Within S a (d.doInsert r).2 := by
  refine hd.lift hS ?_
  unfold Dev.doInsert
  split
  · exact .refl
  · dsimp only
    split
    · exact .shadowSync (.putEntry (.countOps .refl rfl) rfl) rfl
    · exact .putSynced (.bumpN (.countOps .refl rfl) rfl) rfl
    · exact .insertNoRoom (.countOps .refl rfl) rfl

theorem Within.doDelete {d : Dev} {r : BitVec 2048} (hd : Within S a d)
    (hS : Scope.le ⟨[.posted, .tbl], [], [F.TBL_REHASH_STATUS_CAUSE.off, F.TBL_RELOC_MOVES.off]⟩ S) : Within S a (d.doDelete r).2 := by
  refine hd.lift hS ?_
  unfold Dev.doDelete
  split
  · exact .refl
  · split
    · exact .shadowSync (.putEntry (.countOps .refl rfl) rfl) rfl
    · exact .countOps .refl rfl

theorem Within.doReadIndex {d : Dev} {r : BitVec 2048} (hd : Within S a d)
    (hS : Scope.le ⟨[], [], []⟩ S) : Within S a (d.doReadIndex r).2 := by
  refine hd.lift hS ?_
  unfold Dev.doReadIndex
  dsimp only
  split
  · exact .refl
  · split
    · exact .refl
    · exact .refl

theorem Within.doWriteIndex {d : Dev} {r : BitVec 2048} (hd : Within S a d)
    (hS : Scope.le ⟨[.tbl], [], []⟩ S) : Within S a (d.doWriteIndex r).2 := by
  refine hd.lift hS ?_
  unfold Dev.doWriteIndex
  dsimp only
  split
  · exact .refl
  · split
    · exact .refl
    · split
      · exact .refl
      · exact .putEntry (.ite (.forgetMeter .refl rfl) .refl) rfl

theorem Within.doRetire {d : Dev} {r : BitVec 2048} (hd : Within S a d)
    (hS : Scope.le ⟨[.tbl], [], []⟩ S) : Within S a (d.doRetire r).2 := by
  refine hd.lift hS ?_
  unfold Dev.doRetire
  dsimp only
  split
  · exact .refl
  · split
    · exact .refl
    · split
      · exact .refl
      · split
        · exact .refl
        · exact .set_tbl .refl rfl

theorem Within.lpmRewritten {d : Dev} {x : Route} (hd : Within S a d)
    (hS : Scope.le ⟨[.tbl], [], []⟩ S) : Within S a (d.lpmRewritten x) := by
  refine hd.lift hS ?_
  unfold Dev.lpmRewritten
  exact .set_tbl .refl rfl

theorem Within.doLpmInsert {d : Dev} {r : BitVec 2048} (hd : Within S a d)
    (hS : Scope.le ⟨[.tbl], [], []⟩ S) : Within S a (d.doLpmInsert r).2 := by
  refine hd.lift hS ?_
  unfold Dev.doLpmInsert
  split
  · exact .refl
  · split
    · exact .lpmRewritten (.set_tbl .refl rfl) rfl
    · split
      · exact .refl
      · exact .lpmRewritten (.set_tbl .refl rfl) rfl

theorem Within.doLpmDelete {d : Dev} {r : BitVec 2048} (hd : Within S a d)
    (hS : Scope.le ⟨[.tbl], [], []⟩ S) : Within S a (d.doLpmDelete r).2 := by
  refine hd.lift hS ?_
  unfold Dev.doLpmDelete
  split
  · exact .refl
  · split
    · exact .lpmRewritten (.set_tbl .refl rfl) rfl
    · exact .refl

theorem Within.doLpmRead {d : Dev} {r : BitVec 2048} (hd : Within S a d)
    (hS : Scope.le ⟨[], [], []⟩ S) : Within S a (d.doLpmRead r).2 := by
  refine hd.lift hS ?_
  unfold Dev.doLpmRead
  split
  · exact .refl
  · split
    · exact .refl
    · exact .refl

theorem Within.requestSeen {d : Dev} {r : BitVec 2048} (hd : Within S a d)
    (hS : Scope.le ⟨[.dgn], [17], []⟩ S) : Within S a (d.requestSeen r) := by
  refine hd.lift hS ?_
  unfold Dev.requestSeen
  exact .ite (.streamFeed (.streamBegins .refl rfl) rfl) .refl

theorem Within.taeOp {d0 : Dev} {r : BitVec 2048} (hd0 : Within S a d0)
    (hS : Scope.le ⟨[.posted, .tbl, .dgn], [6, 17], []⟩ S) : Within S a (d0.taeOp r).2 := by
  refine hd0.lift hS ?_
  unfold Dev.taeOp
  dsimp only
  split
  · exact .doReadKey (.countPath (.requestSeen .refl rfl) rfl) rfl
  · split
    · exact .doInsert (.countPath (.requestSeen .refl rfl) rfl) rfl
    · split
      · exact .doDelete (.countPath (.requestSeen .refl rfl) rfl) rfl
      · split
        · exact .doReadIndex (.countPath (.requestSeen .refl rfl) rfl) rfl
        · split
          · exact .doWriteIndex (.countPath (.requestSeen .refl rfl) rfl) rfl
          · split
            · exact .doLpmInsert (.countPath (.requestSeen .refl rfl) rfl) rfl
            · split
              · exact .doLpmDelete (.countPath (.requestSeen .refl rfl) rfl) rfl
              · split
                · exact .doLpmRead (.countPath (.requestSeen .refl rfl) rfl) rfl
                · split
                  · exact .doRetire (.countPath (.requestSeen .refl rfl) rfl) rfl
                  · exact .countPath (.requestSeen .refl rfl) rfl

theorem Within.bulkOp {d : Dev} {r : BitVec 2048} (hd : Within S a d)
    (hS : Scope.le ⟨[.posted, .tbl, .dgn], [6, 17], []⟩ S) : Within S a (d.bulkOp r).2 := by
  refine hd.lift hS ?_
  unfold Dev.bulkOp
  split
  · exact .refl
  · exact .taeOp .refl rfl

theorem Within.bulkRun {d : Dev} {n : ℕ} {l : List (BitVec 2048)} (hd : Within S a d)
    (hS : Scope.le ⟨[.posted, .tbl, .dgn], [6, 17], []⟩ S) : Within S a (d.bulkRun n l).2 := by
  refine hd.lift hS ?_
  clear hd
  induction l generalizing d n with
  | nil =>
    rw [Dev.bulkRun]
    exact .refl
  | cons y t ih =>
    rw [Dev.bulkRun]
    split
    · exact .refl
    · split
      · rename_i h1
        split
        · exact .trans (.snd h1 (.bulkOp .refl rfl)) ih
        · exact .snd h1 (.bulkOp .refl rfl)

theorem Within.bulkAll {d : Dev} {n : ℕ} {o : Option TaeOut} {l : List (BitVec 2048)} (hd : Within S a d)
    (hS : Scope.le ⟨[.posted, .tbl, .dgn], [6, 17], []⟩ S) : Within S a (d.bulkAll n o l).2 := by
  refine hd.lift hS ?_
  clear hd
  induction l generalizing d n o with
  | nil =>
    rw [Dev.bulkAll]
    exact .refl
  | cons y t ih =>
    rw [Dev.bulkAll]
    exact .trans (.bulkOp .refl rfl) ih

theorem Within.taeRefused {d : Dev} {t : Option ℕ} {what : ℕ} {why : ℕ} {m : ℕ} {slot : ℕ} (hd : Within S a d)
    (hS : Scope.le ⟨[.posted], [], []⟩ S) : Within S a (d.taeRefused t what why m slot) := by
  refine hd.lift hS ?_
  unfold Dev.taeRefused
  exact .postTbl .refl rfl

theorem Within.winAnswer {d : Dev} {m : ℕ} {kind : ℕ} {i : ℕ} {b : ℕ} {e : BitVec 1024} (hd : Within S a d)
    (hS : Scope.le ⟨[.lastRead, .lastAbort, .tbl], [], []⟩ S) : Within S a (d.winAnswer m kind i b e) := by
  refine hd.lift hS ?_
  unfold Dev.winAnswer
  exact .answer (.set_tbl .refl rfl) rfl

theorem Within.taeEnd {d : Dev} {q : TaeReq} {o : TaeOut} (hd : Within S a d)
    (hS : Scope.le ⟨[.lastRead, .lastAbort, .tbl], [], [F.TBL_TAE_SEQ_SEQ.off, F.TBL_TAE_OPS.off, F.TBL_TAE_FAIL.off]⟩ S) :
    Within S a (d.taeEnd q o) := by
  refine hd.lift hS ?_
  unfold Dev.taeEnd
  dsimp only
  split
  · refine .bump (.bump (.wr ?_ rfl) rfl) rfl
    split
    · exact .set_tbl .refl rfl
    · exact .winAnswer (.set_tbl .refl rfl) rfl
    · exact .set_tbl .refl rfl
  · refine .bump (.wr ?_ rfl) rfl
    split
    · exact .set_tbl .refl rfl
    · exact .winAnswer (.set_tbl .refl rfl) rfl
    · exact .set_tbl .refl rfl

theorem Within.mirrorWaiting {d : Dev} (hd : Within S a d)
    (hS : Scope.le ⟨[.tbl, .twn], [], []⟩ S) : Within S a (d.mirrorWaiting) := by
  refine hd.lift hS ?_
  unfold Dev.mirrorWaiting
  split
  · dsimp only
    split
    · exact .refl
    · exact .each (.set_tbl .refl rfl) (fun x1 _ e he => (.mirror he rfl))

theorem Within.taeHead {d : Dev} {q : TaeReq} (hd : Within S a d)
    (hS : Scope.le ⟨[.lastRead, .lastAbort, .posted, .tbl, .dgn], [6, 17], []⟩ S) : Within S a (d.taeHead q) := by
  refine hd.lift hS ?_
  unfold Dev.taeHead
  split
  · exact .taeEnd (.taeRefused .refl rfl) rfl
  · exact .taeEnd (.taeOp .refl rfl) rfl

theorem Within.taeSkip {n : ℕ} {d : Dev} (hd : Within S a d)
    (hS : Scope.le ⟨[.lastRead, .lastAbort, .tbl], [], [F.TBL_TAE_SEQ_SEQ.off, F.TBL_TAE_OPS.off, F.TBL_TAE_FAIL.off]⟩ S) :
    Within S a (Dev.taeSkip n d) := by
  refine hd.lift hS ?_
  clear hd
  induction n generalizing d with
  | zero =>
    rw [Dev.taeSkip]
    exact .refl
  | succ k ih =>
    rw [Dev.taeSkip]
    split
    · exact .ite (.trans (.taeEnd .refl rfl) ih) .refl
    · exact .refl

theorem Within.taeRun {op : ℕ} {d : Dev} (hd : Within S a d)
    (hS : Scope.le ⟨[.lastRead, .lastAbort, .posted, .tbl, .twn, .dgn], [6, 17], []⟩ S) : Within S a (taeRun op d) := by
  refine hd.lift hS ?_
  unfold Machine.taeRun
  dsimp only
  split
  · split
    · exact .mirrorWaiting (.taeSkip .refl rfl) rfl
    · exact .ite (.taeHead (.taeSkip .refl rfl) rfl) (.taeSkip .refl rfl)
  · exact .taeSkip .refl rfl

theorem Within.setHead {d : Dev} {q : TaeReq} (hd : Within S a d)
    (hS : Scope.le ⟨[.tbl], [], []⟩ S) : Within S a (d.setHead q) := by
  refine hd.lift hS ?_
  unfold Dev.setHead
  exact .set_tbl .refl rfl

theorem Within.bulkFetch {d : Dev} {q : TaeReq} {l : List Byte} (hd : Within S a d)
    (hS : Scope.le ⟨[.posted, .tbl, .dgn], [17], []⟩ S) : Within S a (d.bulkFetch q l) := by
  refine hd.lift hS ?_
  unfold Dev.bulkFetch
  dsimp only
  split
  · exact .streamStops (.streamFeed (.streamBegins (.setHead .refl rfl) rfl) rfl) rfl
  · exact .streamFeed (.streamBegins (.setHead .refl rfl) rfl) rfl

theorem Within.bulkEnd {d : Dev} {q : TaeReq} {status : ℕ} {n : ℕ} (hd : Within S a d)
    (hS : Scope.le ⟨[.lastRead, .lastAbort, .posted, .tbl, .twn], [17], [F.TBL_TAE_SEQ_SEQ.off, F.TBL_TAE_OPS.off, F.TBL_TAE_FAIL.off]⟩
      S) :
    Within S a (d.bulkEnd q status n) := by
  refine hd.lift hS ?_
  unfold Dev.bulkEnd
  exact .mirrorWaiting (.taeEnd (.streamEnds .refl rfl) rfl) rfl

theorem Within.bulkAccept {d : Dev} {q : TaeReq} {rs : List (BitVec 2048)} (hd : Within S a d)
    (hS : Scope.le ⟨[.lastRead, .lastAbort, .posted, .tbl, .twn, .dgn], [6, 17], []⟩ S) : Within S a (d.bulkAccept q rs) := by
  refine hd.lift hS ?_
  unfold Dev.bulkAccept
  dsimp only
  split
  · exact .ite (.bulkEnd .refl rfl) .refl
  · exact .each (.setHead .refl rfl) (fun x _ e he => (.mirror he rfl))

theorem Within.bulkGo {d : Dev} {q : TaeReq} {rs : List (BitVec 2048)} (hd : Within S a d)
    (hS : Scope.le ⟨[.lastRead, .lastAbort, .posted, .tbl, .twn, .dgn], [6, 17], []⟩ S) : Within S a (d.bulkGo q rs) := by
  refine hd.lift hS ?_
  unfold Dev.bulkGo
  split
  · exact .bulkEnd .refl rfl
  · split
    · split
      · rename_i h2
        split
        · exact .bulkEnd (.snd h2 (.bulkAll .refl rfl)) rfl
        · dsimp only
          split
          · exact .bulkEnd (.snd h2 (.bulkAll .refl rfl)) rfl
          · exact .setHead (.snd h2 (.bulkAll .refl rfl)) rfl
    · split
      · exact .bulkAccept .refl rfl
      · split
        · rename_i h3
          split
          · exact .setHead (.snd h3 (.bulkRun .refl rfl)) rfl
          · exact .bulkEnd (.snd h3 (.bulkRun .refl rfl)) rfl

theorem Within.bulk {dma : Option (List Byte)} {d : Dev} (hd : Within S a d)
    (hS : Scope.le ⟨[.lastRead, .lastAbort, .posted, .tbl, .twn, .dgn], [6, 17], []⟩ S) : Within S a (bulk dma d) := by
  refine hd.lift hS ?_
  unfold Machine.bulk
  dsimp only
  split
  · exact .taeSkip .refl rfl
  · split
    · exact .taeSkip .refl rfl
    · split
      · exact .taeEnd (.taeRefused (.streamStops (.taeSkip .refl rfl) rfl) rfl) rfl
      · split
        · exact .mirrorWaiting (.taeEnd (.taeSkip .refl rfl) rfl) rfl
        · split
          · exact .bulkGo (.taeSkip .refl rfl) rfl
          · split
            · exact .bulkGo (.bulkFetch (.taeSkip .refl rfl) rfl) rfl
            · exact .bulkFetch (.taeSkip .refl rfl) rfl

theorem Within.taeQueue {d : Dev} {m : ℕ} {slot : Option ℕ} {r : BitVec 2048} {win : optParam (Option ℕ) none} (hd : Within S a d)
    (hS : Scope.le ⟨[.tbl, .twn], [], []⟩ S) : Within S a (d.taeQueue m slot r win) := by
  refine hd.lift hS ?_
  unfold Dev.taeQueue
  refine .mirrorWaiting ?_ rfl
  split
  · exact .set_tbl (.set_tbl .refl rfl) rfl
  · exact .set_tbl .refl rfl

theorem Within.setSlotReq {d : Dev} {slot : ℕ} {r : BitVec 2048} (hd : Within S a d)
    (hS : Scope.le ⟨[.tbl], [], []⟩ S) : Within S a (d.setSlotReq slot r) := by
  refine hd.lift hS ?_
  unfold Dev.setSlotReq
  exact .set_tbl .refl rfl

theorem Within.taeSubmit {m : ℕ} {slot : ℕ} {r : BitVec 2048} {d : Dev} (hd : Within S a d)
    (hS : Scope.le ⟨[.posted, .tbl, .twn], [], []⟩ S) : Within S a (taeSubmit m slot r d) := by
  refine hd.lift hS ?_
  unfold Machine.taeSubmit
  split
  · exact .taeRefused (.setSlotReq .refl rfl) rfl
  · exact .taeQueue (.setSlotReq .refl rfl) rfl

theorem Within.slotRead {d : Dev} {off : ℕ} (hd : Within S a d)
    (hS : Scope.le ⟨[.lastRead, .lastAbort], [], []⟩ S) : Within S a (d.slotRead off) := by
  refine hd.lift hS ?_
  unfold Dev.slotRead
  exact .ite (.answer .refl rfl) (.answer .refl rfl)

theorem Within.slotWrite {d : Dev} {m : ℕ} {off : ℕ} {data : Word} (hd : Within S a d)
    (hS : Scope.le ⟨[.posted, .tbl, .twn], [], []⟩ S) : Within S a (d.slotWrite m off data) := by
  refine hd.lift hS ?_
  unfold Dev.slotWrite
  exact .ite .refl (.ite (.taeSubmit .refl rfl) (.setSlotReq .refl rfl))

theorem Within.taeDrain {n : ℕ} {d : Dev} (hd : Within S a d)
    (hS : Scope.le ⟨[.lastRead, .lastAbort, .posted, .tbl, .dgn], [6, 17], []⟩ S) : Within S a (Dev.taeDrain n d) := by
  refine hd.lift hS ?_
  clear hd
  induction n generalizing d with
  | zero =>
    rw [Dev.taeDrain]
    exact .refl
  | succ k ih =>
    rw [Dev.taeDrain]
    split
    · exact .ite .refl (.ite (.trans (.taeHead .refl rfl) ih) .refl)
    · exact .refl

theorem Within.entryWindowRead {m : ℕ} {off : ℕ} {d : Dev} (hd : Within S a d)
    (hS : Scope.le ⟨[.lastRead, .lastAbort, .posted, .tbl, .twn, .dgn], [6, 17], []⟩ S) : Within S a (entryWindowRead m off d) := by
  refine hd.lift hS ?_
  unfold Machine.entryWindowRead
  split
  · exact .slotRead .refl rfl
  · split
    · exact .answer .refl rfl
    · dsimp only
      split
      · exact .answer .refl rfl
      · exact .taeDrain (.taeQueue .refl rfl) rfl

theorem Within.entryWindowWrite {m : ℕ} {off : ℕ} {data : Word} {d : Dev} (hd : Within S a d)
    (hS : Scope.le ⟨[.posted, .tbl, .twn], [], []⟩ S) : Within S a (entryWindowWrite m off data d) := by
  refine hd.lift hS ?_
  unfold Machine.entryWindowWrite
  split
  · exact .slotWrite .refl rfl
  · split
    · exact .refl
    · split
      · exact .taeRefused .refl rfl
      · split
        · exact .taeRefused .refl rfl
        · dsimp only
          split
          · split
            · split
              · exact .taeQueue (.set_tbl (.ite (.taeRefused .refl rfl) .refl) rfl) rfl
              · exact .set_tbl (.ite (.taeRefused .refl rfl) .refl) rfl
            · split
              · exact .taeQueue (.set_tbl (.ite (.taeRefused .refl rfl) .refl) rfl) rfl
              · exact .set_tbl (.ite (.taeRefused .refl rfl) .refl) rfl
          · split
            · exact .taeQueue (.set_tbl (.ite (.taeRefused .refl rfl) .refl) rfl) rfl
            · exact .set_tbl (.ite (.taeRefused .refl rfl) .refl) rfl

theorem Within.rehashStart {d : Dev} {tid : ℕ} {base : ℕ} {cap : ℕ} {s0 : ℕ} {s1 : ℕ} (hd : Within S a d)
    (hS : Scope.le ⟨[.tbl], [], [F.TBL_REHASH_STATUS_STATE.off, F.TBL_REHASH_COPIED_ENTRIES.off]⟩ S) :
    Within S a (d.rehashStart tid base cap s0 s1) := by
  refine hd.lift hS ?_
  unfold Dev.rehashStart
  split
  · exact .refl
  · exact .wr (.wr (.set_tbl .refl rfl) rfl) rfl

theorem Within.rehashOpenWith {d : Dev} {m : ℕ} {tid : ℕ} {base : ℕ} {cap : ℕ} {s0 : ℕ} {s1 : ℕ} (hd : Within S a d)
    (hS : Scope.le ⟨[.posted, .tbl, .twn], [], [F.TBL_REHASH_STATUS_STATE.off, F.TBL_REHASH_COPIED_ENTRIES.off]⟩ S) :
    Within S a (d.rehashOpenWith m tid base cap s0 s1) := by
  refine hd.lift hS ?_
  unfold Dev.rehashOpenWith
  dsimp only
  split
  · exact .taeRefused .refl rfl
  · exact .ite (.mirrorDefer .refl rfl) (.rehashStart .refl rfl)

theorem Within.rehashTable {d : Dev} {m : ℕ} {tid : ℕ} (hd : Within S a d)
    (hS : Scope.le ⟨[], [], [F.TBL_REHASH_CTRL_TABLE.off]⟩ S) : Within S a (d.rehashTable m tid) := by
  refine hd.lift hS ?_
  unfold Dev.rehashTable
  exact .ite .refl (.wr .refl rfl)

theorem Within.rehashOpen {m : ℕ} {tid : ℕ} {d : Dev} (hd : Within S a d)
    (hS : Scope.le ⟨[.posted, .tbl, .twn], [], [F.TBL_REHASH_CTRL_TABLE.off, F.TBL_REHASH_STATUS_STATE.off,
      F.TBL_REHASH_COPIED_ENTRIES.off]⟩ S) :
    Within S a (rehashOpen m tid d) := by
  refine hd.lift hS ?_
  unfold Machine.rehashOpen
  exact .rehashOpenWith (.rehashTable .refl rfl) rfl

theorem Within.copyRun {d : Dev} {p : Place} {n : ℕ} {l : List ℕ} (hd : Within S a d)
    (hS : Scope.le ⟨[.posted, .tbl], [], [F.TBL_REHASH_STATUS_STATE.off, F.TBL_REHASH_COPIED_ENTRIES.off, F.TBL_RELOC_MOVES.off]⟩ S) :
    Within S a (d.copyRun p n l) := by
  refine hd.lift hS ?_
  clear hd
  induction l generalizing d n with
  | nil =>
    rw [Dev.copyRun]
    split
    · exact .refl
    · exact .postTbl (.wr .refl rfl) rfl
  | cons y t ih =>
    rw [Dev.copyRun]
    split
    · exact .refl
    · dsimp only
      split
      · exact .trans (.set_tbl .refl rfl) ih
      · split
        · exact .trans (.set_tbl .refl rfl) ih
        · split
          · exact .refl
          · refine .trans ?_ ih
            split
            · exact .wr (.countOps (.shadowPut (.set_tbl .refl rfl) rfl) rfl) rfl
            · exact .countOps (.shadowPut (.set_tbl .refl rfl) rfl) rfl

theorem Within.rehashCopy {d : Dev} (hd : Within S a d)
    (hS : Scope.le ⟨[.posted, .tbl], [], [F.TBL_REHASH_STATUS_STATE.off, F.TBL_REHASH_COPIED_ENTRIES.off, F.TBL_RELOC_MOVES.off]⟩ S) :
    Within S a (rehashCopy d) := by
  refine hd.lift hS ?_
  unfold Machine.rehashCopy
  split
  · exact .refl
  · split
    · exact .refl
    · split
      · exact .refl
      · exact .copyRun (.set_tbl .refl rfl) rfl

theorem Within.rehashCommit {m tid : ℕ} {d0 : Dev} (hd0 : Within S a d0) (ht : tid < 256)
    (hS : Scope.le ⟨[.posted, .img, .tbl], [6], []⟩ S) : Within S a (Machine.rehashCommit m tid d0) := by
  refine hd0.lift hS ?_
  unfold Machine.rehashCommit
  dsimp only
  split
  · exact .taeRefused (.rehashTable .refl rfl) rfl
  · split
    · exact .taeRefused (.rehashTable .refl rfl) rfl
    · split
      · exact .taeRefused (.rehashTable .refl rfl) rfl
      · exact .postTbl (.wr (.wr (.set_img_tbl (.rehashTable .refl rfl) rfl rfl)
          (has_ix (n := 8) (by omega) rfl)) rfl) rfl

theorem Within.rehashAbort {m : ℕ} {tid : ℕ} {d0 : Dev} (hd0 : Within S a d0)
    (hS : Scope.le ⟨[.posted, .tbl, .twn], [], [F.TBL_REHASH_CTRL_TABLE.off, F.TBL_REHASH_STATUS_CAUSE.off]⟩ S) :
    Within S a (rehashAbort m tid d0) := by
  refine hd0.lift hS ?_
  unfold Machine.rehashAbort
  dsimp only
  split
  · exact .taeRefused (.rehashTable .refl rfl) rfl
  · split
    · exact .taeRefused (.rehashTable .refl rfl) rfl
    · split
      · exact .mirrorDefer (.rehashTable .refl rfl) rfl
      · exact .rehashFail (.rehashTable .refl rfl) rfl

theorem Within.applyRequest {d : Dev} {r : BitVec 2048} (hd : Within S a d)
    (hS : Scope.le ⟨[.posted, .tbl, .dgn], [6, 17], []⟩ S) : Within S a (d.applyRequest r) := by
  refine hd.lift hS ?_
  unfold Dev.applyRequest
  split
  · exact .ite (.rehashStart .refl rfl) (.taeRefused .refl rfl)
  · exact .ite (.rehashFail .refl rfl) (.taeOp .refl rfl)

theorem Within.agedEvent {d : Dev} {tid : ℕ} {kind : ℕ} {i : ℕ} {key : ℕ} (hd : Within S a d)
    (hS : Scope.le ⟨[.posted, .tbl], [], [F.TBL_AGE_EV_SUPPRESSED.off]⟩ S) : Within S a (d.agedEvent tid kind i key) := by
  refine hd.lift hS ?_
  unfold Dev.agedEvent
  exact .ite (.bump .refl rfl) (.postTbl (.set_tbl .refl rfl) rfl)

theorem Within.sweepEntry {d : Dev} {tid : ℕ} {s : Schema} {p : Place} {i : ℕ} (hd : Within S a d)
    (hS : Scope.le ⟨[.posted, .tbl, .twn], [], [F.TBL_REHASH_STATUS_CAUSE.off, F.TBL_RELOC_MOVES.off, F.TBL_AGE_REMOVED.off,
      F.TBL_AGE_EV_SUPPRESSED.off]⟩ S) :
    Within S a (d.sweepEntry tid s p i) := by
  refine hd.lift hS ?_
  unfold Dev.sweepEntry
  dsimp only
  split
  · exact .agedEvent (.mirror (.bump (.shadowSync (.putEntry .refl rfl) rfl) rfl) rfl) rfl
  · exact .refl

theorem Within.sweepBegin {d : Dev} {tid : ℕ} {s : Schema} (hd : Within S a d)
    (hS : Scope.le ⟨[.posted, .tbl], [], []⟩ S) : Within S a (d.sweepBegin tid s) := by
  refine hd.lift hS ?_
  unfold Dev.sweepBegin
  dsimp only
  split
  · exact .set_tbl .refl rfl
  · exact .ite (.postTbl (.set_tbl .refl rfl) rfl) (.set_tbl .refl rfl)

theorem Within.sweepRun {d : Dev} {n : ℕ} {n1 : ℕ} {l : List ℕ} (hd : Within S a d)
    (hS : Scope.le ⟨[.posted, .tbl, .twn], [], [F.TBL_REHASH_STATUS_CAUSE.off, F.TBL_RELOC_MOVES.off, F.TBL_AGE_REMOVED.off,
      F.TBL_AGE_EV_SUPPRESSED.off]⟩ S) :
    Within S a (d.sweepRun n n1 l) := by
  refine hd.lift hS ?_
  clear hd
  induction l generalizing d n n1 with
  | nil =>
    rw [Dev.sweepRun]
    exact .refl
  | cons y t ih =>
    rw [Dev.sweepRun]
    split
    · exact ih
    · dsimp only
      split
      · exact .set_tbl (.each (.ite (.sweepBegin .refl rfl) .refl) (fun x1 _ e he => (.sweepEntry he rfl))) rfl
      · split
        · exact .set_tbl (.each (.ite (.sweepBegin .refl rfl) .refl) (fun x1 _ e he => (.sweepEntry he rfl))) rfl
        · exact .trans (.set_tbl (.each (.ite (.sweepBegin .refl rfl) .refl) (fun x1 _ e he => (.sweepEntry he rfl))) rfl) ih

theorem Within.ageingSweep {d : Dev} (hd : Within S a d)
    (hS : Scope.le ⟨[.posted, .tbl, .twn], [], [F.TBL_REHASH_STATUS_CAUSE.off, F.TBL_RELOC_MOVES.off, F.TBL_AGE_REMOVED.off,
      F.TBL_AGE_EV_SUPPRESSED.off]⟩ S) :
    Within S a (ageingSweep d) := by
  refine hd.lift hS ?_
  unfold Machine.ageingSweep
  exact .ite .refl (.sweepRun (.set_tbl .refl rfl) rfl)

theorem Within.releaseRange {d : Dev} {x : Retired} (hd : Within S a d)
    (hS : Scope.le ⟨[.posted, .tbl], [], [F.TBL_RETIRE_RELEASED.off]⟩ S) : Within S a (d.releaseRange x) := by
  refine hd.lift hS ?_
  unfold Dev.releaseRange
  exact .postTbl (.bump (.each (.set_tbl .refl rfl) (fun x1 _ e he => (.set_tbl he rfl))) rfl) rfl

theorem Within.retireRelease {d : Dev} (hd : Within S a d)
    (hS : Scope.le ⟨[.posted, .tbl], [], [F.TBL_RETIRE_RELEASED.off]⟩ S) : Within S a (retireRelease d) := by
  refine hd.lift hS ?_
  unfold Machine.retireRelease
  exact .each .refl (fun x _ e he => (.releaseRange he rfl))

theorem Within.lockLost {d : Dev} (hd : Within S a d)
    (hS : Scope.le ⟨[.posted], [], [F.TIM_STATUS_LOCKED.off]⟩ S) : Within S a (d.lockLost) := by
  refine hd.lift hS ?_
  unfold Dev.lockLost
  exact .post (.wr .refl rfl) rfl

theorem Within.loseLock {d : Dev} (hd : Within S a d)
    (hS : Scope.le ⟨[.posted], [], [F.TIM_STATUS_LOCKED.off]⟩ S) : Within S a (d.loseLock) := by
  refine hd.lift hS ?_
  unfold Dev.loseLock
  exact .ite (.lockLost .refl rfl) .refl

theorem Within.setEntry {d : Dev} {i : ℕ} {e : TaEntry} (hd : Within S a d)
    (hS : Scope.le ⟨[.tim], [], []⟩ S) : Within S a (d.setEntry i e) := by
  refine hd.lift hS ?_
  unfold Dev.setEntry
  exact .set_tim .refl rfl

theorem Within.missEntries {d : Dev} (hd : Within S a d)
    (hS : Scope.le ⟨[.posted, .tim], [], []⟩ S) : Within S a (d.missEntries) := by
  refine hd.lift hS ?_
  unfold Dev.missEntries
  exact .each .refl (fun x _ e he => (.ite (.post (.setEntry he rfl) rfl) he))

theorem Within.gainLock {d : Dev} {span : ℕ} {slot : ℕ} (hd : Within S a d)
    (hS : Scope.le ⟨[.posted, .tim], [], [F.TIM_STATUS_BACKWARD.off]⟩ S) : Within S a (d.gainLock span slot) := by
  refine hd.lift hS ?_
  unfold Dev.gainLock
  exact .missEntries (.post (.wr (.wr (.set_tim .refl rfl) rfl) rfl) rfl) rfl

theorem Within.spanStart {d : Dev} (hd : Within S a d)
    (hS : Scope.le ⟨[.tim], [], []⟩ S) : Within S a (spanStart d) := by
  refine hd.lift hS ?_
  unfold Machine.spanStart
  exact .ite (.set_tim .refl rfl) (.set_tim .refl rfl)

theorem Within.slotPasses {d : Dev} (hd : Within S a d)
    (hS : Scope.le ⟨[.tim], [], []⟩ S) : Within S a (slotPasses d) := by
  refine hd.lift hS ?_
  unfold Machine.slotPasses
  exact .set_tim .refl rfl

theorem Within.srcSelect {src : ℕ} {d : Dev} (hd : Within S a d)
    (hS : Scope.le ⟨[.tim], [], [F.TIM_STATUS_LOCKED.off, F.TIM_CTRL_SRC.off]⟩ S) : Within S a (srcSelect src d) := by
  refine hd.lift hS ?_
  unfold Machine.srcSelect
  exact .ite .refl (.set_tim (.wr (.wr .refl rfl) rfl) rfl)

theorem Within.spanDisagree {link : ℕ} {d : Dev} (hd : Within S a d)
    (hS : Scope.le ⟨[.posted, .tim], [], []⟩ S) : Within S a (spanDisagree link d) := by
  refine hd.lift hS ?_
  unfold Machine.spanDisagree
  split
  · exact .refl
  · split
    · exact .post (.set_tim .refl rfl) rfl
    · exact .refl

theorem Within.fabricTimeLoss {d : Dev} (hd : Within S a d)
    (hS : Scope.le ⟨[.posted], [], [F.TIM_STATUS_LOCKED.off]⟩ S) : Within S a (fabricTimeLoss d) := by
  refine hd.lift hS ?_
  unfold Machine.fabricTimeLoss
  exact .ite (.loseLock .refl rfl) .refl

theorem Within.fabricRelock {d : Dev} (hd : Within S a d)
    (hS : Scope.le ⟨[.posted, .tim], [], [F.TIM_STATUS_BACKWARD.off]⟩ S) : Within S a (fabricRelock d) := by
  refine hd.lift hS ?_
  unfold Machine.fabricRelock
  split
  · exact .ite (.gainLock .refl rfl) .refl
  · exact .refl

theorem Within.pllLock {d : Dev} (hd : Within S a d)
    (hS : Scope.le ⟨[.posted, .tim], [], [F.TIM_STATUS_BACKWARD.off]⟩ S) : Within S a (pllLock d) := by
  refine hd.lift hS ?_
  unfold Machine.pllLock
  split
  · exact .refl
  · exact .ite (.gainLock (.set_tim .refl rfl) rfl) (.set_tim .refl rfl)

theorem Within.pllLockLoss {d : Dev} (hd : Within S a d)
    (hS : Scope.le ⟨[.posted, .tim], [], [F.TIM_STATUS_LOCKED.off]⟩ S) : Within S a (pllLockLoss d) := by
  refine hd.lift hS ?_
  unfold Machine.pllLockLoss
  exact .ite (.lockLost (.set_tim .refl rfl) rfl) .refl

theorem Within.todStep {d : Dev} {n : ℤ} (hd : Within S a d)
    (hS : Scope.le ⟨[.posted], [], []⟩ S) : Within S a (d.todStep n) := by
  refine hd.lift hS ?_
  unfold Dev.todStep
  exact .ite (.post .refl rfl) .refl

theorem Within.setBase {d : Dev} {sec : ℕ} {ns : ℕ} {corr : ℕ} (hd : Within S a d)
    (hS : Scope.le ⟨[.posted], [], [F.TIM_TOD_BASE.off, F.TIM_TOD_BASE_NS.off, F.TIM_CORR.off]⟩ S) :
    Within S a (d.setBase sec ns corr) := by
  refine hd.lift hS ?_
  unfold Dev.setBase
  exact .todStep (.wr (.wr (.wr .refl rfl) rfl) rfl) rfl

theorem Within.setPhc {d : Dev} {sec : ℕ} (hd : Within S a d)
    (hS : Scope.le ⟨[.posted], [], [F.TIM_STATUS_TOD_VALID.off, F.TIM_TOD_BASE.off, F.TIM_TOD_BASE_NS.off, F.TIM_CORR.off]⟩ S) :
    Within S a (d.setPhc sec) := by
  refine hd.lift hS ?_
  unfold Dev.setPhc
  exact .wr (.setBase .refl rfl) rfl

theorem Within.losePps {d : Dev} (hd : Within S a d)
    (hS : Scope.le ⟨[.posted], [], [F.TIM_STATUS_PPS_LOCK.off]⟩ S) : Within S a (d.losePps) := by
  refine hd.lift hS ?_
  unfold Dev.losePps
  exact .ite (.post (.wr .refl rfl) rfl) .refl

theorem Within.ppsError {d : Dev} {err : ℤ} (hd : Within S a d)
    (hS : Scope.le ⟨[.posted, .tim], [], [F.TIM_STATUS_PPS_LOCK.off, F.TIM_PPS_PHASE.off]⟩ S) : Within S a (d.ppsError err) := by
  refine hd.lift hS ?_
  unfold Dev.ppsError
  dsimp only
  split
  · exact .losePps (.wr (.set_tim .refl rfl) rfl) rfl
  · split
    · split
      · exact .wr (.wr (.set_tim .refl rfl) rfl) rfl
      · exact .wr (.set_tim .refl rfl) rfl
    · split
      · exact .wr (.wr (.set_tim .refl rfl) rfl) rfl
      · exact .wr (.set_tim .refl rfl) rfl

theorem Within.ppsEdge {err : BitVec 32} {d : Dev} (hd : Within S a d)
    (hS : Scope.le ⟨[.posted, .tim], [], [F.TIM_CORR.off, F.TIM_PPS_PHASE.off, F.TIM_STATUS.off, F.TIM_TOD_BASE.off,
      F.TIM_TOD_BASE_NS.off]⟩ S) :
    Within S a (Machine.ppsEdge err d) := by
  refine hd.lift hS ?_
  unfold Machine.ppsEdge
  dsimp only
  split
  · exact .ite (.ppsError .refl rfl) .refl
  · exact .ite (.ite (.ppsError .refl rfl) .refl) (.setPhc (.set_tim (.ite (.ppsError .refl rfl) .refl) rfl) rfl)

theorem Within.ppsEdgesMissing {d : Dev} (hd : Within S a d)
    (hS : Scope.le ⟨[.posted, .tim], [], [F.TIM_STATUS_PPS_LOCK.off]⟩ S) : Within S a (ppsEdgesMissing d) := by
  refine hd.lift hS ?_
  unfold Machine.ppsEdgesMissing
  exact .ite (.losePps (.set_tim .refl rfl) rfl) .refl

theorem Within.todMessageRx {ms : ℕ} {l : List Byte} {d : Dev} (hd : Within S a d)
    (hS : Scope.le ⟨[.posted, .tim], [], []⟩ S) : Within S a (todMessageRx ms l d) := by
  refine hd.lift hS ?_
  unfold Machine.todMessageRx
  exact .ite (.post .refl rfl) (.set_tim .refl rfl)

theorem Within.phcSecond {d : Dev} (hd : Within S a d)
    (hS : Scope.le ⟨[.tim], [], []⟩ S) : Within S a (phcSecond d) := by
  refine hd.lift hS ?_
  unfold Machine.phcSecond
  dsimp only
  exact .ite .refl (.ite (.set_tim .refl rfl) (.set_tim .refl rfl))

theorem Within.todMessageTx {d : Dev} (hd : Within S a d)
    (hS : Scope.le ⟨[.tim], [], []⟩ S) : Within S a (todMessageTx d) := by
  refine hd.lift hS ?_
  unfold Machine.todMessageTx
  exact .ite .refl (.set_tim .refl rfl)

theorem Within.todBaseUpdate {d : Dev} (hd : Within S a d)
    (hS : Scope.le ⟨[.posted, .tim], [], [F.TIM_STATUS_TOD_VALID.off, F.TIM_TOD_BASE.off, F.TIM_TOD_BASE_NS.off, F.TIM_CORR.off]⟩ S) :
    Within S a (todBaseUpdate d) := by
  refine hd.lift hS ?_
  unfold Machine.todBaseUpdate
  split
  · exact .refl
  · dsimp only
    split
    · exact .wr (.setBase (.set_tim .refl rfl) rfl) rfl
    · exact .setBase (.set_tim .refl rfl) rfl

theorem Within.corrWrite {d : Dev} {data : Word} (hd : Within S a d)
    (hS : Scope.le ⟨[.tim], [], []⟩ S) : Within S a (d.corrWrite data) := by
  refine hd.lift hS ?_
  unfold Dev.corrWrite
  exact .ite .refl (.set_tim .refl rfl)

theorem Within.spanSyncMarker {slot : ℕ} {d : Dev} (hd : Within S a d)
    (hS : Scope.le ⟨[.posted, .tim], [], [F.TIM_STATUS_BACKWARD.off, F.TIM_SYNC_CFG_LOAD_ARM.off]⟩ S) :
    Within S a (spanSyncMarker slot d) := by
  refine hd.lift hS ?_
  unfold Machine.spanSyncMarker
  split
  · exact .refl
  · split
    · exact .ite (.gainLock (.wr .refl rfl) rfl) (.set_tim (.wr .refl rfl) rfl)
    · exact .ite (.loseLock .refl rfl) .refl

theorem Within.spanSyncMarkersMissing {d : Dev} (hd : Within S a d)
    (hS : Scope.le ⟨[.posted], [], [F.TIM_STATUS_LOCKED.off]⟩ S) : Within S a (spanSyncMarkersMissing d) := by
  refine hd.lift hS ?_
  unfold Machine.spanSyncMarkersMissing
  exact .ite (.loseLock .refl rfl) .refl

theorem Within.syncLoadArm {d : Dev} (hd : Within S a d)
    (hS : Scope.le ⟨[.posted, .tim], [], [F.TIM_SYNC_CFG_LOAD_ARM.off]⟩ S) : Within S a (syncLoadArm d) := by
  refine hd.lift hS ?_
  unfold Machine.syncLoadArm
  exact .ite (.missEntries (.set_tim .refl rfl) rfl) (.wr .refl rfl)

theorem Within.spanSyncOutMarker {d : Dev} (hd : Within S a d)
    (hS : Scope.le ⟨[.tim], [], []⟩ S) : Within S a (spanSyncOutMarker d) := by
  refine hd.lift hS ?_
  unfold Machine.spanSyncOutMarker
  exact .ite (.set_tim .refl rfl) .refl

theorem Within.setStaging {d : Dev} {m : ℕ} {s : TaStaging} (hd : Within S a d)
    (hS : Scope.le ⟨[.tim], [], []⟩ S) : Within S a (d.setStaging m s) := by
  refine hd.lift hS ?_
  unfold Dev.setStaging
  exact .set_tim .refl rfl

theorem Within.taStageWrite {m : ℕ} {which : TaStage} {v : BitVec 64} {d : Dev} (hd : Within S a d)
    (hS : Scope.le ⟨[.stages, .tim], [], []⟩ S) : Within S a (taStageWrite m which v d) := by
  refine hd.lift hS ?_
  unfold Machine.taStageWrite
  dsimp only
  split
  · exact .setStaging .refl rfl
  · exact .setStaging (.unstage .refl rfl) rfl
  · exact .setStaging .refl rfl
  · exact .setStaging (.unstage .refl rfl) rfl

theorem Within.taRefuse {d : Dev} {i : ℕ} {e : EvDesc} {pl : List (ℕ × ℕ × ℕ)} (hd : Within S a d)
    (hS : Scope.le ⟨[.posted, .tim], [], []⟩ S) : Within S a (d.taRefuse i e pl) := by
  refine hd.lift hS ?_
  unfold Dev.taRefuse
  exact .post (.setEntry .refl rfl) rfl

theorem Within.armEntry {d : Dev} {m : ℕ} {i : ℕ} {span : ℕ} {type : ℕ} {op : BitVec 64} (hd : Within S a d)
    (hS : Scope.le ⟨[.posted, .tim], [], []⟩ S) : Within S a (d.armEntry m i span type op).2 := by
  refine hd.lift hS ?_
  unfold Dev.armEntry
  dsimp only
  split
  · exact .taRefuse .refl rfl
  · split
    · exact .taRefuse .refl rfl
    · split
      · exact .taRefuse .refl rfl
      · split
        · exact .taRefuse .refl rfl
        · split
          · split
            · exact .taRefuse .refl rfl
            · exact .setEntry .refl rfl
          · split
            · exact .taRefuse .refl rfl
            · exact .setEntry .refl rfl

theorem Within.cancelEntry {d : Dev} {m : ℕ} {i : ℕ} (hd : Within S a d)
    (hS : Scope.le ⟨[.posted, .tim], [], []⟩ S) : Within S a (d.cancelEntry m i).2 := by
  refine hd.lift hS ?_
  unfold Dev.cancelEntry
  dsimp only
  split
  · exact .setEntry .refl rfl
  · exact .taRefuse .refl rfl

theorem Within.taLocal {d : Dev} {m : Nat} {k : Bool} {f : Dev → Dev} (hd : Within S a d) (hf : Within S a (f d))
    (hS : Scope.le ⟨[.posted], [], []⟩ S) : Within S a (d.taLocal m k f) := .ite (hd.post hS) hf

theorem Within.taArm {m : ℕ} {d : Dev} (hd : Within S a d)
    (hS : Scope.le ⟨[.posted, .tim, .twn], [], []⟩ S) : Within S a (taArm m d) := by
  refine hd.lift hS ?_
  unfold Machine.taArm
  refine .taLocal .refl ?_ rfl
  dsimp only
  split
  · rename_i h
    exact .mirror (.snd h (.armEntry .refl rfl)) rfl
  · rename_i h
    exact .snd h (.armEntry .refl rfl)

theorem Within.taCancel {m : ℕ} {d : Dev} (hd : Within S a d)
    (hS : Scope.le ⟨[.posted, .tim, .twn], [], []⟩ S) : Within S a (taCancel m d) := by
  refine hd.lift hS ?_
  unfold Machine.taCancel
  refine .taLocal .refl ?_ rfl
  split
  · rename_i h
    exact .mirror (.snd h (.cancelEntry .refl rfl)) rfl
  · rename_i h
    exact .snd h (.cancelEntry .refl rfl)

end Sys2Proof.Machine
end

