-- ==== Sys2Proof/Proofs/FramesImage.lean ====
section
/-! PROOF. What the model's functions may change: images, walks, keystones and injected packets.
Each has the least scope it needs, and runs within any wider one. -/

namespace Sys2Proof.Machine

variable {S : Scope} {a : Dev}

theorem Within.setSlot {d : Dev} {s : ℕ} {x : Option (Image × List Byte)} (hd : Within S a d)
    (hS : Scope.le ⟨[.img], [], []⟩ S) : Within S a (d.setSlot s x) := by
  refine hd.lift hS ?_
  unfold Dev.setSlot
  exact .set_img .refl rfl

theorem Within.showImage {d : Dev} {digest compat : Fld} {x : Option Image} (hd : Within S a d) (hg : S.spans digest.off digest.st 16)
    (hc : S.has (compat.off % 0x20000000)) : Within S a (d.showImage digest compat x) := by
  unfold Dev.showImage
  exact .wr (.each hd (fun x1 hx e he => (.wr he (has_ix (List.mem_range.1 hx) hg)))) hc

theorem Within.showSlots {d : Dev} (hd : Within S a d)
    (hS : Scope.le ⟨[], [3], []⟩ S) : Within S a (d.showSlots) := by
  refine hd.lift hS ?_
  unfold Dev.showSlots
  exact .showImage (.showImage .refl rfl rfl) rfl rfl

theorem Within.imgLoadStart {m : ℕ} {t : ℕ} {d : Dev} (hd : Within S a d)
    (hS : Scope.le ⟨[.posted, .img, .dgn], [3, 17], []⟩ S) : Within S a (imgLoadStart m t d) := by
  refine hd.lift hS ?_
  unfold Machine.imgLoadStart
  dsimp only
  split
  · exact .post .refl rfl
  · refine .showSlots ?_ rfl
    split
    · exact .wr (.setSlot (.when (.wr (.wr (.set_img (.streamBegins .refl rfl) rfl) rfl) rfl) (fun _ => (.keepImages (.wr (.wr (.set_img
        (.streamBegins .refl rfl) rfl) rfl) rfl) rfl))) rfl) rfl
    · exact .wr (.setSlot (.when (.wr (.wr (.set_img (.streamBegins .refl rfl) rfl) rfl) rfl) (fun _ => (.keepImages (.wr (.wr (.set_img
        (.streamBegins .refl rfl) rfl) rfl) rfl) rfl))) rfl) rfl

theorem Within.loadOver {d : Dev} {t : ℕ} {st : ℕ} (hd : Within S a d)
    (hS : Scope.le ⟨[.img], [], [F.IMG_STATUS_LOAD_BUSY.off]⟩ S) : Within S a (d.loadOver t st) := by
  refine hd.lift hS ?_
  unfold Dev.loadOver
  dsimp only
  split
  · exact .wr (.set_img .refl rfl) rfl
  · exact .wr (.wr (.set_img .refl rfl) rfl) rfl

theorem Within.loadFails {d : Dev} {cause : ℕ} {sec : ℕ} {ofs : ℕ} {st : ℕ} (hd : Within S a d)
    (hS : Scope.le ⟨[.posted, .img], [], [F.IMG_STATUS_LOAD_BUSY.off, F.IMG_LOAD_STATUS_SECTION.off, F.IMG_LOAD_PROGRESS_BYTES.off]⟩ S) :
    Within S a (d.loadFails cause sec ofs st) := by
  refine hd.lift hS ?_
  unfold Dev.loadFails
  split
  · exact .refl
  · exact .post (.loadOver (.wr (.wr (.wr .refl rfl) rfl) rfl) rfl) rfl

theorem Within.loadStops {d : Dev} {cause : ℕ} {st : ℕ} (hd : Within S a d)
    (hS : Scope.le ⟨[.posted, .fresh, .img], [17], [F.IMG_STATUS_LOAD_BUSY.off, F.IMG_LOAD_STATUS_SECTION.off,
      F.IMG_LOAD_PROGRESS_BYTES.off]⟩ S) :
    Within S a (d.loadStops cause st) := by
  refine hd.lift hS ?_
  unfold Dev.loadStops
  split
  · exact .refl
  · exact .loadFails (.takeFree (.streamStops .refl rfl) rfl) rfl

theorem Within.imgLoadAbort {d : Dev} (hd : Within S a d)
    (hS : Scope.le ⟨[.posted, .fresh, .img], [17], [F.IMG_STATUS_LOAD_BUSY.off, F.IMG_LOAD_STATUS_SECTION.off,
      F.IMG_LOAD_PROGRESS_BYTES.off]⟩ S) :
    Within S a (imgLoadAbort d) := by
  refine hd.lift hS ?_
  unfold Machine.imgLoadAbort
  exact .loadStops .refl rfl

theorem Within.liveLoaded {d : Dev} {im : Image} (hd : Within S a d)
    (hS : Scope.le ⟨[.posted, .img, .tbl, .que, .shp], [3, 4, 8, 9], []⟩ S) : Within S a (d.liveLoaded im) := by
  refine hd.lift hS ?_
  unfold Dev.liveLoaded
  refine .applyTmProfile (.setRoots (.each (.set_img_tbl (.each (.wr .refl rfl) (fun p hp e he => ?_)) rfl rfl) (fun x hx e he => ?_))
    rfl) rfl
  · have h1 : Within ⟨[.posted, .img, .tbl, .que, .shp], [3, 4, 8, 9], []⟩ d (if e.pierState p = 4 then
        e.wr (F.IMG_PIER_STATUS_STATE.ix p) (if e.on (F.IMG_PIER_STATUS_SERVING.ix p) then 0 else 1) else e) :=
      .ite (.wr he (has_ix (List.mem_range.1 hp) rfl)) he
    exact .ite h1 (.setPierSlot h1 rfl)
  · exact .wr he (has_port (snd_lt_of_mem_zipIdx_take hx) rfl)

theorem Within.loadPasses {d : Dev} {ld : LoadOp} {im : Image} {raw : List Byte} (hd : Within S a d)
    (hS : Scope.le ⟨[.mode, .posted, .img, .tbl, .que, .shp], [3, 4, 8, 9], [F.SEC_BOOT_STATUS_PHASE.off]⟩ S) :
    Within S a (d.loadPasses ld im raw) := by
  refine hd.lift hS ?_
  unfold Dev.loadPasses
  refine .ite_step (.post (.ite (.liveLoaded ?_ rfl) (.ite_step ?_ fun h => ?_)) rfl)
    fun h => .withMode (.wr (.setMode h rfl) rfl) rfl
  · exact .showSlots (.wr (.setReg (.setSlot (.loadOver .refl rfl) rfl) rfl) rfl) rfl
  · exact .showSlots (.wr (.setReg (.setSlot (.loadOver .refl rfl) rfl) rfl) rfl) rfl
  · split
    · exact .setPierSlot h rfl
    · exact h

theorem Within.postTamper {d : Dev} (hd : Within S a d)
    (hS : Scope.le ⟨[.posted], [], []⟩ S) : Within S a (d.postTamper) := by
  refine hd.lift hS ?_
  unfold Dev.postTamper
  exact .post .refl rfl

theorem Within.rebind {d : Dev} {o : ℕ} {old : ℕ} {new : ℕ} {st : ℕ} (hd : Within S a d)
    (hS : Scope.le ⟨[], [3], []⟩ S) : Within S a (d.rebind o old new st) := by
  refine hd.lift hS ?_
  unfold Dev.rebind
  exact .wrIx (.wrIx (.wrIx (.wrIx (.wrIx .refl rfl) rfl) rfl) rfl) rfl

theorem Within.moveSs {d : Dev} {old : ℕ} {new : ℕ} (hd : Within S a d)
    (hS : Scope.le ⟨[.pir], [], [(F.HST_DROP_CNT.ix Drop.pierRetired).off]⟩ S) : Within S a (d.moveSs old new).2 := by
  refine hd.lift hS ?_
  unfold Dev.moveSs
  exact .bumpN (.setSs (.setSs .refl rfl) rfl) rfl

theorem Within.moveState {d : Dev} {x : PierMove} (hd : Within S a d)
    (hS : Scope.le ⟨[.lpt, .pir, .tbl], [], [(F.HST_DROP_CNT.ix Drop.pierRetired).off]⟩ S) : Within S a (d.moveState x).2 := by
  refine hd.lift hS ?_
  unfold Dev.moveState
  exact .moveSs (.holdFrames (.moveMeters .refl rfl) rfl) rfl

theorem Within.bistBegin {d : Dev} {r : BistRun} (hd : Within S a d)
    (hS : Scope.le ⟨[.dgn], [3], [F.DGN_STATUS_BIST_BUSY.off, F.DGN_BIST_STATUS_PIER.off]⟩ S) : Within S a (d.bistBegin r) := by
  refine hd.lift hS ?_
  unfold Dev.bistBegin
  exact .wr (.wr (.wrIx (.set_dgn .refl rfl) rfl) rfl) rfl

theorem Within.maintNext {d : Dev} {pier : ℕ} (hd : Within S a d)
    (hS : Scope.le ⟨[.dgn], [3], [F.DGN_STATUS_BIST_BUSY.off, F.DGN_BIST_STATUS_PIER.off]⟩ S) : Within S a (d.maintNext pier) := by
  refine hd.lift hS ?_
  unfold Dev.maintNext
  exact .ite (.bistBegin .refl rfl) .refl

theorem Within.endRuns {d : Dev} {pier : ℕ} (hd : Within S a d)
    (hS : Scope.le ⟨[.dgn], [3], [F.DGN_STATUS_BIST_BUSY.off, F.DGN_BIST_STATUS_RESULT.off]⟩ S) : Within S a (d.endRuns pier) := by
  refine hd.lift hS ?_
  unfold Dev.endRuns
  split
  · exact .when (.wr (.wr (.set_dgn .refl rfl) rfl) rfl) (fun _ => (.maintNext (.wr (.wr (.set_dgn .refl rfl) rfl) rfl) rfl))
  · exact .refl

theorem Within.postRetired {d : Dev} {pier : ℕ} {octet : ℕ} {new : ℕ} {dropped : ℕ} (hd : Within S a d)
    (hS : Scope.le ⟨[.posted], [], []⟩ S) : Within S a (d.postRetired pier octet new dropped) := by
  refine hd.lift hS ?_
  unfold Dev.postRetired
  exact .post .refl rfl

theorem Within.retireIdle {d : Dev} {pier : ℕ} (hd : Within S a d)
    (hS : Scope.le ⟨[.posted, .pir, .tbl, .pwr, .dgn], [3], [F.DGN_STATUS_BIST_BUSY.off, F.DGN_BIST_STATUS_RESULT.off]⟩ S) :
    Within S a (d.retireIdle pier) := by
  refine hd.lift hS ?_
  unfold Dev.retireIdle
  exact .setRails (.postRetired (.setSs (.dropMeters (.wrIx (.endRuns .refl rfl) rfl) rfl) rfl) rfl) rfl

theorem Within.haltPier {d : Dev} {pier octet : ℕ} (hd : Within S a d)
    (hS : Scope.le ⟨[.posted, .lpt, .pir, .tbl, .que, .fab, .pwr, .dgn], [3, 4], [(F.HST_DROP_CNT.ix Drop.pierRetired).off,
      F.DGN_STATUS_BIST_BUSY.off, F.DGN_BIST_STATUS_RESULT.off]⟩ S) : Within S a (d.haltPier pier octet) := by
  refine hd.lift hS ?_
  unfold Dev.haltPier
  refine .setRails (.each (.post (.bumpN (.setSs (.wrIx (.wrIx (.dropMeters (.endRuns .refl rfl) rfl) rfl) rfl) rfl) rfl) rfl)
    (fun x hx e he => ?_)) rfl
  split
  · exact .portDown he (has_port (lt_of_mem_octetPorts hx) rfl) rfl
  · exact he

theorem Within.retireCommit {d : Dev} {x : PierMove} (hd : Within S a d)
    (hS : Scope.le ⟨[.posted, .img, .lpt, .pir, .tbl, .pwr, .dgn], [3], [(F.HST_DROP_CNT.ix Drop.pierRetired).off,
      F.DGN_STATUS_BIST_BUSY.off, F.DGN_BIST_STATUS_RESULT.off]⟩ S) :
    Within S a (d.retireCommit x) := by
  refine hd.lift hS ?_
  unfold Dev.retireCommit
  exact .setRails (.postRetired (.rebind (.moveState (.set_img (.endRuns .refl rfl) rfl) rfl) rfl) rfl) rfl

theorem Within.retirePier {d : Dev} {pier : ℕ} (hd : Within S a d)
    (hS : Scope.le ⟨[.posted, .img, .lpt, .pir, .tbl, .que, .fab, .pwr, .dgn], [3, 4], [(F.HST_DROP_CNT.ix Drop.pierRetired).off,
      F.DGN_STATUS_BIST_BUSY.off, F.DGN_BIST_STATUS_RESULT.off]⟩ S) : Within S a (d.retirePier pier) := by
  refine hd.lift hS ?_
  unfold Dev.retirePier
  split
  · exact .ite .refl (.set_img .refl rfl)
  · split
    · exact .retireIdle .refl rfl
    · exact .haltPier .refl rfl
    · exact .ite (.set_img .refl rfl) (.retireCommit .refl rfl)

theorem Within.runFails {n : ℕ} {d : Dev} (hd : Within S a d)
    (hS : Scope.le ⟨[.posted, .img, .lpt, .pir, .tbl, .que, .fab, .pwr, .dgn], [3, 4], [(F.HST_DROP_CNT.ix Drop.pierRetired).off,
      F.DGN_STATUS_BIST_BUSY.off, F.DGN_BIST_STATUS_RESULT.off]⟩ S) :
    Within S a (Dev.runFails n d) := by
  refine hd.lift hS ?_
  clear hd
  induction n generalizing d with
  | zero =>
    rw [Dev.runFails]
    exact .refl
  | succ k ih =>
    rw [Dev.runFails]
    split
    · exact .trans (.retirePier (.set_img .refl rfl) rfl) ih
    · exact .refl

theorem Within.runFailDue {d : Dev} (hd : Within S a d)
    (hS : Scope.le ⟨[.posted, .img, .lpt, .pir, .tbl, .que, .fab, .pwr, .dgn], [3, 4], [(F.HST_DROP_CNT.ix Drop.pierRetired).off,
      F.DGN_STATUS_BIST_BUSY.off, F.DGN_BIST_STATUS_RESULT.off]⟩ S) :
    Within S a (d.runFailDue) := by
  refine hd.lift hS ?_
  unfold Dev.runFailDue
  exact .ite (.runFails .refl rfl) .refl

theorem Within.walkRefuse {d : Dev} {m : ℕ} {why : ℕ} (hd : Within S a d)
    (hS : Scope.le ⟨[.posted], [], [F.IMG_WALK_STATUS_CAUSE.off]⟩ S) : Within S a (d.walkRefuse m why) := by
  refine hd.lift hS ?_
  unfold Dev.walkRefuse
  exact .post (.wr .refl rfl) rfl

theorem Within.walkComplete {d : Dev} (hd : Within S a d)
    (hS : Scope.le ⟨[.posted, .img], [3], []⟩ S) : Within S a (d.walkComplete) := by
  refine hd.lift hS ?_
  unfold Dev.walkComplete
  exact .withMode (.post (.showSlots (.wr (.set_img (.each (.wr (.setSlot (.wr .refl rfl) rfl) rfl) (fun x _ e he => (.ite he
      (.setPierSlot he rfl)))) rfl) rfl) rfl) rfl) rfl

theorem Within.walkTry {d : Dev} {span : ℕ} {new : ℕ} (hd : Within S a d)
    (hS : Scope.le ⟨[.posted, .tim, .img, .twn], [], []⟩ S) : Within S a (d.walkTry span new).2 := by
  refine hd.lift hS ?_
  unfold Dev.walkTry
  dsimp only
  split
  · rename_i h
    exact .mirror (.set_img (.snd h (.armEntry .refl rfl)) rfl) rfl
  · rename_i h
    exact .snd h (.armEntry .refl rfl)

theorem Within.walkArm {d : Dev} (hd : Within S a d)
    (hS : Scope.le ⟨[.posted, .tim, .img, .twn], [], []⟩ S) : Within S a (d.walkArm) := by
  refine hd.lift hS ?_
  unfold Dev.walkArm
  dsimp only
  split
  · exact .refl
  · split
    · exact .set_img .refl rfl
    · split
      · exact .set_img .refl rfl
      · split
        · rename_i h3
          exact .snd h3 (.walkTry .refl rfl)
        · rename_i h3
          split
          · exact .set_img (.snd h3 (.walkTry .refl rfl)) rfl
          · exact .walkTry (.set_img (.snd h3 (.walkTry .refl rfl)) rfl) rfl

theorem Within.walkStart {m : ℕ} {d : Dev} (hd : Within S a d)
    (hS : Scope.le ⟨[.posted, .tim, .img, .twn], [], [F.IMG_STATUS_STAGED_STATE.off, F.IMG_WALK_STATUS_CAUSE.off]⟩ S) :
    Within S a (walkStart m d) := by
  refine hd.lift hS ?_
  unfold Machine.walkStart
  dsimp only
  split
  · exact .walkRefuse .refl rfl
  · exact .mirror (.walkArm (.withMode (.wr (.wr (.wr (.wr (.set_img .refl rfl) rfl) rfl) rfl) rfl) rfl) rfl) rfl

theorem Within.walkResume {m : ℕ} {d : Dev} (hd : Within S a d)
    (hS : Scope.le ⟨[.posted, .tim, .img, .twn], [3], []⟩ S) : Within S a (walkResume m d) := by
  refine hd.lift hS ?_
  unfold Machine.walkResume
  dsimp only
  split
  · exact .walkRefuse .refl rfl
  · refine .mirror ?_ rfl
    split
    · exact .walkComplete (.withMode (.wr (.set_img .refl rfl) rfl) rfl) rfl
    · exact .walkArm (.withMode (.wr (.set_img .refl rfl) rfl) rfl) rfl

theorem Within.abandonNow {d : Dev} {cause : ℕ} (hd : Within S a d)
    (hS : Scope.le ⟨[.posted, .tim, .img, .twn], [], [F.IMG_WALK_STATUS_CAUSE.off]⟩ S) : Within S a (d.abandonNow cause) := by
  refine hd.lift hS ?_
  unfold Dev.abandonNow
  refine .post (.wr (.wr (.set_img ?_ rfl) rfl) rfl) rfl
  split
  · split
    · rename_i h1
      exact .mirror (.snd h1 (.cancelEntry .refl rfl)) rfl
    · rename_i h1
      exact .snd h1 (.cancelEntry .refl rfl)
  · exact .refl

theorem Within.abandonWalk {d : Dev} {cause : ℕ} (hd : Within S a d)
    (hS : Scope.le ⟨[.posted, .tim, .img, .twn], [], [F.IMG_WALK_STATUS_CAUSE.off]⟩ S) : Within S a (d.abandonWalk cause) := by
  refine hd.lift hS ?_
  unfold Dev.abandonWalk
  exact .withMode (.abandonNow .refl rfl) rfl

theorem Within.abandonLater {d : Dev} {cause : ℕ} (hd : Within S a d)
    (hS : Scope.le ⟨[.img], [], []⟩ S) : Within S a (d.abandonLater cause) := by
  refine hd.lift hS ?_
  unfold Dev.abandonLater
  exact .set_img .refl rfl

theorem Within.wantAbandon {d : Dev} {cause : ℕ} (hd : Within S a d)
    (hS : Scope.le ⟨[.posted, .tim, .img, .twn], [], [F.IMG_WALK_STATUS_CAUSE.off]⟩ S) : Within S a (d.wantAbandon cause) := by
  refine hd.lift hS ?_
  unfold Dev.wantAbandon
  exact .ite (.abandonLater .refl rfl) (.abandonWalk .refl rfl)

theorem Within.walkAbandon {m : ℕ} {d : Dev} (hd : Within S a d)
    (hS : Scope.le ⟨[.posted, .tim, .img, .twn], [], [F.IMG_WALK_STATUS_CAUSE.off]⟩ S) : Within S a (walkAbandon m d) := by
  refine hd.lift hS ?_
  unfold Machine.walkAbandon
  split
  · exact .post .refl rfl
  · exact .ite (.mirror (.wantAbandon .refl rfl) rfl) .refl

theorem Within.walkFire {d : Dev} {octet : ℕ} {new : ℕ} (hd : Within S a d)
    (hS : Scope.le ⟨[.posted, .img], [], [F.IMG_WALK_STATUS_CAUSE.off]⟩ S) : Within S a (d.walkFire octet new).2 := by
  refine hd.lift hS ?_
  unfold Dev.walkFire
  dsimp only
  split
  · exact .walkRefuse .refl rfl
  · split
    · exact .walkRefuse (.set_img .refl rfl) rfl
    · split
      · exact .walkRefuse .refl rfl
      · split
        · exact .walkRefuse .refl rfl
        · split
          · exact .walkRefuse .refl rfl
          · exact .set_img .refl rfl

theorem Within.walkShed {d : Dev} (hd : Within S a d)
    (hS : Scope.le ⟨[.posted, .tim, .img, .twn], [], [F.IMG_WALK_STATUS_STATE.off]⟩ S) : Within S a (d.walkShed) := by
  refine hd.lift hS ?_
  unfold Dev.walkShed
  dsimp only
  split
  · exact .post (.wr .refl rfl) rfl
  · split
    · exact .post (.ite (.walkArm (.set_img (.wr .refl rfl) rfl) rfl) (.wr .refl rfl)) rfl
    · exact .refl

theorem Within.walkTick {d0 : Dev} (hd0 : Within S a d0)
    (hS : Scope.le ⟨[.posted, .tim, .img, .lpt, .pir, .tbl, .que, .fab, .twn, .pwr, .dgn], [3, 4], [(F.HST_DROP_CNT.ix
      Drop.pierRetired).off, F.DGN_STATUS_BIST_BUSY.off, F.DGN_BIST_STATUS_RESULT.off]⟩ S) :
    Within S a (d0.walkTick) := by
  refine hd0.lift hS ?_
  unfold Dev.walkTick
  dsimp only
  split
  · split
    · exact .walkArm (.set_img .refl rfl) rfl
    · split
      · exact .ite (.walkArm (.set_img .refl rfl) rfl) .refl
      · exact .refl
  · split
    · exact .walkArm (.set_img (.runFailDue .refl rfl) rfl) rfl
    · split
      · split
        · exact .walkArm (.set_img (.runFailDue .refl rfl) rfl) rfl
        · exact .runFailDue .refl rfl
      · exact .runFailDue .refl rfl

theorem Within.walkStepCommit {d : Dev} (hd : Within S a d)
    (hS : Scope.le ⟨[.posted, .tim, .img, .lpt, .pir, .tbl, .que, .fab, .twn, .pwr, .dgn], [3, 4], [(F.HST_DROP_CNT.ix
      Drop.pierRetired).off, F.DGN_STATUS_BIST_BUSY.off, F.DGN_BIST_STATUS_RESULT.off]⟩ S) :
    Within S a (walkStepCommit d) := by
  refine hd.lift hS ?_
  unfold Machine.walkStepCommit
  split
  · exact .refl
  · split
    · exact .refl
    · split
      · dsimp only
        split
        · exact .abandonWalk (.runFailDue (.retireCommit .refl rfl) rfl) rfl
        · exact .runFailDue (.retireCommit .refl rfl) rfl
      · exact .post (.rebind (.moveState (.set_img .refl rfl) rfl) rfl) rfl

theorem Within.moveFails {d : Dev} {x : PierMove} {cause : ℕ} (hd : Within S a d)
    (hS : Scope.le ⟨[.posted, .tim, .img, .lpt, .pir, .tbl, .que, .fab, .twn, .pwr, .dgn], [3, 4], [(F.HST_DROP_CNT.ix
      Drop.pierRetired).off, F.DGN_STATUS_BIST_BUSY.off, F.DGN_BIST_STATUS_RESULT.off]⟩ S) :
    Within S a (d.moveFails x cause) := by
  refine hd.lift hS ?_
  unfold Dev.moveFails
  dsimp only
  split
  · split
    · exact .runFailDue (.abandonWalk (.retirePier (.retireIdle (.holdFrames (.set_img .refl rfl) rfl) rfl) rfl) rfl) rfl
    · exact .runFailDue (.retirePier (.retireIdle (.holdFrames (.set_img .refl rfl) rfl) rfl) rfl) rfl
  · split
    · exact .runFailDue (.abandonWalk (.retireIdle (.holdFrames (.set_img .refl rfl) rfl) rfl) rfl) rfl
    · exact .runFailDue (.retireIdle (.holdFrames (.set_img .refl rfl) rfl) rfl) rfl

theorem Within.walkStepTimeout {newPierFailed : Bool} {d : Dev} (hd : Within S a d)
    (hS : Scope.le ⟨[.posted, .tim, .img, .lpt, .pir, .tbl, .que, .fab, .twn, .pwr, .dgn], [3, 4], [(F.HST_DROP_CNT.ix
      Drop.pierRetired).off, F.DGN_STATUS_BIST_BUSY.off, F.DGN_BIST_STATUS_RESULT.off]⟩ S) :
    Within S a (walkStepTimeout newPierFailed d) := by
  refine hd.lift hS ?_
  unfold Machine.walkStepTimeout
  split
  · exact .refl
  · exact .ite (.moveFails .refl rfl) (.ite (.moveFails .refl rfl) .refl)

theorem Within.stepOver {d : Dev} {done : Bool} {fail : Option ℕ} (hd : Within S a d)
    (hS : Scope.le ⟨[.posted, .tim, .img, .lpt, .pir, .tbl, .que, .fab, .twn, .pwr, .dgn], [3, 4], [(F.HST_DROP_CNT.ix
      Drop.pierRetired).off, F.DGN_STATUS_BIST_BUSY.off, F.DGN_BIST_STATUS_RESULT.off]⟩ S) :
    Within S a (d.stepOver done fail) := by
  refine hd.lift hS ?_
  unfold Dev.stepOver
  dsimp only
  split
  · split
    · exact .walkComplete (.set_img (.wr (.wr .refl rfl) rfl) rfl) rfl
    · exact .walkArm (.set_img (.wr (.wr .refl rfl) rfl) rfl) rfl
  · split
    · exact .runFailDue (.walkComplete (.set_img (.wr (.wr .refl rfl) rfl) rfl) rfl) rfl
    · exact .runFailDue (.abandonWalk (.set_img (.wr (.wr .refl rfl) rfl) rfl) rfl) rfl

theorem Within.pierReady {d1 : Dev} {pier : ℕ} (hd1 : Within S a d1)
    (hS : Scope.le ⟨[.img, .pir], [3], []⟩ S) : Within S a (d1.pierReady pier) := by
  refine hd1.lift hS ?_
  unfold Dev.pierReady
  refine .setPierSlot (.wrIx (.set_img ?_ rfl) rfl) rfl
  split
  · exact .refl
  · exact .set_pir .refl rfl

theorem Within.stoppedDone {d : Dev} {pier : ℕ} {crcOk : Bool} (hd : Within S a d)
    (hS : Scope.le ⟨[.posted, .img, .lpt, .pir, .tbl, .que, .fab, .pwr, .dgn], [3, 4], [(F.HST_DROP_CNT.ix Drop.pierRetired).off,
      F.DGN_STATUS_BIST_BUSY.off, F.DGN_BIST_STATUS_RESULT.off]⟩ S) :
    Within S a (d.stoppedDone pier crcOk) := by
  refine hd.lift hS ?_
  unfold Dev.stoppedDone
  split
  · exact .refl
  · refine .runFailDue (.retirePier ?_ rfl) rfl
    split
    · exact .pierReady (.set_dgn .refl rfl) rfl
    · exact .retireIdle (.set_dgn .refl rfl) rfl

theorem Within.pierReloadDone {pier : ℕ} {crcOk : Bool} {d : Dev} (hd : Within S a d) (hpier : pier < 17)
    (hS : Scope.le ⟨[.posted, .tim, .img, .lpt, .pir, .tbl, .que, .fab, .twn, .pwr, .dgn], [3, 4], [(F.HST_DROP_CNT.ix
      Drop.pierRetired).off, F.DGN_STATUS_BIST_BUSY.off, F.DGN_BIST_STATUS_RESULT.off]⟩ S) :
    Within S a (pierReloadDone pier crcOk d) := by
  refine hd.lift hS ?_
  unfold Machine.pierReloadDone
  split
  · exact .stoppedDone .refl rfl
  · split
    · exact .refl
    · split
      · exact .stepOver (.setPierSlot (.wr .refl (has_ix hpier rfl)) rfl) rfl
      · exact .stepOver (.retireIdle .refl rfl) rfl

theorem Within.pierReport {d : Dev} {pier kind pipe stage : ℕ} (hd : Within S a d) (hpier : pier < 17)
    (hS : Scope.le ⟨[.posted, .twn], [5], [F.TWN_EVIDENCE.off]⟩ S) : Within S a (d.pierReport pier kind pipe stage) := by
  refine hd.lift hS ?_
  unfold Dev.pierReport
  refine .post (.evidence (.post (.wr (.wr (.wr .refl (has_pier hpier rfl)) (has_pier hpier rfl)) (has_pier hpier ?_)) rfl) rfl) rfl
  split
  · rfl
  · split <;> rfl

theorem Within.pierFails {d : Dev} {pier : ℕ} (hd : Within S a d)
    (hS : Scope.le ⟨[.posted, .tim, .img, .lpt, .pir, .tbl, .que, .fab, .twn, .pwr, .dgn], [3, 4, 17], [(F.HST_DROP_CNT.ix
      Drop.pierRetired).off]⟩ S) :
    Within S a (d.pierFails pier) := by
  refine hd.lift hS ?_
  unfold Dev.pierFails
  dsimp only
  have failNow : ∀ c : Prop, [Decidable c] → Within ⟨[.posted, .tim, .img, .lpt, .pir, .tbl, .que, .fab, .twn, .pwr, .dgn], [3, 4, 17],
      [(F.HST_DROP_CNT.ix Drop.pierRetired).off]⟩ d (if c then (d.retirePier pier).abandonWalk 5 else d.retirePier pier) :=
    fun _ _ => .ite (.abandonWalk (.retirePier .refl rfl) rfl) (.retirePier .refl rfl)
  split
  · exact .refl
  · split
    · exact .stoppedDone .refl rfl
    · split
      · exact .set_img .refl rfl
      · split
        · split
          · exact .moveFails .refl rfl
          · exact .ite (.set_img .refl rfl) (.ite (.set_img .refl rfl) (.retirePier .refl rfl))
        · split
          · exact .stepOver (.retireIdle .refl rfl) rfl
          · split
            · exact .retirePier .refl rfl
            · split
              · exact .set_img .refl rfl
              · split
                · split
                  · exact failNow _
                  · refine .each (.wr (.wr (.set_dgn .refl rfl) rfl) rfl) (fun p hp e he => .portDown he (has_port (n := 128) ?_ rfl) rfl)
                    split at hp
                    · exact lt_of_mem_octetPorts (List.mem_of_mem_filter hp)
                    · cases hp
                · exact failNow _

theorem Within.markBadSs {d : Dev} {pier : ℕ} {places : List ℕ} (hd : Within S a d)
    (hS : Scope.le ⟨[.pir], [], []⟩ S) : Within S a (d.markBadSs pier places) := by
  refine hd.lift hS ?_
  unfold Dev.markBadSs
  exact .setSs .refl rfl

theorem Within.pierFault {pier kind pipe stage : ℕ} {badSs badMeters : List ℕ} {d : Dev} (hd : Within S a d) (hpier : pier < 17)
    (hS : Scope.le ⟨[.posted, .tim, .img, .lpt, .pir, .tbl, .que, .fab, .twn, .pwr, .dgn], [3, 4, 5, 17], [F.TWN_EVIDENCE.off,
      (F.HST_DROP_CNT.ix Drop.pierRetired).off]⟩ S) : Within S a (Machine.pierFault pier kind pipe stage badSs badMeters d) := by
  refine hd.lift hS ?_
  unfold Machine.pierFault
  exact .ite .refl (.pierFails (.pierReport (.loseMeters (.markBadSs .refl rfl) rfl) hpier rfl) rfl)

theorem Within.strokeTimeout {pier pipe stage : ℕ} {d : Dev} (hd : Within S a d) (hpier : pier < 17)
    (hS : Scope.le ⟨[.posted, .tim, .img, .lpt, .pir, .tbl, .que, .fab, .twn, .pwr, .dgn], [3, 4, 5, 17], [F.TWN_EVIDENCE.off,
      (F.HST_DROP_CNT.ix Drop.pierRetired).off]⟩ S) : Within S a (Machine.strokeTimeout pier pipe stage d) := by
  refine hd.lift hS ?_
  unfold Machine.strokeTimeout
  exact .ite .refl (.pierFails (.pierReport .refl hpier rfl) rfl)

theorem Within.pierRetireCmd {pier : ℕ} {d : Dev} (hd : Within S a d)
    (hS : Scope.le ⟨[.posted, .tim, .img, .lpt, .pir, .tbl, .que, .fab, .twn, .pwr, .dgn], [3, 4], [(F.HST_DROP_CNT.ix
      Drop.pierRetired).off, F.DGN_STATUS_BIST_BUSY.off, F.DGN_BIST_STATUS_RESULT.off]⟩ S) :
    Within S a (pierRetireCmd pier d) := by
  refine hd.lift hS ?_
  unfold Machine.pierRetireCmd
  split
  · exact .refl
  · split
    · split
      · exact .ite (.moveFails .refl rfl) (.retirePier .refl rfl)
      · exact .retirePier .refl rfl
    · split
      · split
        · exact .ite .refl (.set_img .refl rfl)
        · exact .retirePier .refl rfl
      · exact .refl

theorem Within.pierRestoreCmd {pier : ℕ} {d : Dev} (hd : Within S a d)
    (hS : Scope.le ⟨[.pwr, .dgn], [3], [F.DGN_STATUS_BIST_BUSY.off]⟩ S) : Within S a (pierRestoreCmd pier d) := by
  refine hd.lift hS ?_
  unfold Machine.pierRestoreCmd
  split
  · exact .refl
  · exact .setRails (.wr (.wr (.set_dgn .refl rfl) (has_ix (n := 17) (by omega) rfl)) rfl) rfl

theorem Within.dropExpiredN {d : Dev} {n : ℕ} (hd : Within S a d)
    (hS : Scope.le ⟨[.tim], [14], [F.TIM_EXPIRED_CNT.off]⟩ S) : Within S a (d.dropExpiredN n) := by
  refine hd.lift hS ?_
  clear hd
  induction n generalizing d with
  | zero =>
    rw [Dev.dropExpiredN]
    exact .refl
  | succ k ih =>
    rw [Dev.dropExpiredN]
    exact .trans (.dropExpired .refl rfl) ih

theorem Within.sweepQueue {d : Dev} {q : ℕ} (hd : Within S a d)
    (hS : Scope.le ⟨[.posted, .tim, .lpt, .buf, .que, .dck], [4, 7, 14], [F.TIM_EXPIRED_CNT.off]⟩ S) : Within S a (d.sweepQueue q) := by
  refine hd.lift hS ?_
  unfold Dev.sweepQueue
  dsimp only
  split
  · exact .refl
  · exact .spillCheck (.setQueue (.each .refl (fun x _ e he => (.dropExpired (.releaseRecord (.flowSub he rfl) rfl) rfl))) rfl) rfl

theorem Within.sweepPiers {d : Dev} (hd : Within S a d)
    (hS : Scope.le ⟨[.tim, .lpt, .pir, .que], [14], [F.TIM_EXPIRED_CNT.off, F.DCK_MIR_LOST.off]⟩ S) : Within S a (d.sweepPiers) := by
  refine hd.lift hS ?_
  unfold Dev.sweepPiers
  exact .dropExpiredN (.set_pir_que (.each (.mirrorsLost .refl rfl) (fun x _ e he => (.updLp he rfl))) rfl rfl) rfl

theorem Within.sweepDeck {d : Dev} (hd : Within S a d)
    (hS : Scope.le ⟨[.posted, .tim, .buf, .dck], [7, 14], [F.TIM_EXPIRED_CNT.off, F.DCK_MIR_LOST.off]⟩ S) : Within S a (d.sweepDeck) := by
  refine hd.lift hS ?_
  unfold Dev.sweepDeck
  refine .dropExpiredN (.each (.mirrorsLost (.set_dck (.each .refl (fun x _ e he => (.dropExpired (.set_dck ?_ rfl) rfl))) rfl) rfl) (fun
      x _ e he => (.ite (.dropExpired (.freeRecord he rfl) rfl) he))) rfl
  split
  · split
    · exact .releaseRecord he rfl
    · exact he
  · exact he

theorem Within.sweepReasm {d : Dev} (hd : Within S a d)
    (hS : Scope.le ⟨[.posted, .tim, .fab], [14], [F.TIM_EXPIRED_CNT.off, F.FAB_REASM_DROPS.off]⟩ S) : Within S a (d.sweepReasm) := by
  refine hd.lift hS ?_
  unfold Dev.sweepReasm
  exact .each .refl (fun x _ e he => (.reasmExpiredN (.setRx he rfl) rfl))

theorem Within.sweepStreams {d : Dev} (hd : Within S a d)
    (hS : Scope.le ⟨[.tim, .fab], [14], [F.TIM_EXPIRED_CNT.off]⟩ S) : Within S a (d.sweepStreams) := by
  refine hd.lift hS ?_
  unfold Dev.sweepStreams
  exact .each .refl (fun x _ e he => (.dropExpired (.setTxStream he rfl) rfl))

theorem Within.sweepAll {d : Dev} (hd : Within S a d)
    (hS : Scope.le ⟨[.posted, .tim, .lpt, .pir, .buf, .que, .fab, .dck], [4, 7, 14], [F.TIM_EXPIRED_CNT.off, F.FAB_REASM_DROPS.off,
      F.DCK_MIR_LOST.off]⟩ S) :
    Within S a (d.sweepAll) := by
  refine hd.lift hS ?_
  unfold Dev.sweepAll
  exact .settle (.sweepStreams (.sweepReasm (.sweepPiers (.sweepDeck (.each .refl (fun x _ e he => (.sweepQueue he rfl))) rfl) rfl) rfl)
      rfl) rfl

theorem Within.pruneSeeds {d : Dev} (hd : Within S a d)
    (hS : Scope.le ⟨[.img], [], []⟩ S) : Within S a (d.pruneSeeds) := by
  refine hd.lift hS ?_
  unfold Dev.pruneSeeds
  exact .set_img .refl rfl

theorem Within.releaseOld {d : Dev} {swept : ℕ} (hd : Within S a d)
    (hS : Scope.le ⟨[.posted, .img, .tbl], [3], [F.TIM_BANK_STATUS_SWEEP.off]⟩ S) : Within S a (d.releaseOld swept) := by
  refine hd.lift hS ?_
  unfold Dev.releaseOld
  exact .showSlots (.pruneSeeds (.setSlot (.set_img_tbl (.wr (.wr (.wr (.post (.post .refl rfl) rfl) rfl) rfl) rfl) rfl rfl) rfl) rfl) rfl

theorem Within.drainLimitReached {d : Dev} (hd : Within S a d)
    (hS : Scope.le ⟨[.posted, .tim, .img, .tbl], [3], [F.TIM_BANK_STATUS_SWEEP.off]⟩ S) : Within S a (drainLimitReached d) := by
  refine hd.lift hS ?_
  unfold Machine.drainLimitReached
  dsimp only
  split
  · exact .refl
  · split
    · exact .releaseOld (.set_tim .refl rfl) rfl
    · exact .wr (.set_tim .refl rfl) rfl

theorem Within.expirySweepComplete {d : Dev} (hd : Within S a d)
    (hS : Scope.le ⟨[.posted, .fresh, .tim, .img, .lpt, .pir, .tbl, .buf, .que, .fab, .dck], [3, 4, 7, 14], [F.TIM_BANK_STATUS_SWEEP.off,
      F.TIM_EXPIRED_CNT.off, F.FAB_REASM_DROPS.off, F.DCK_MIR_LOST.off]⟩ S) :
    Within S a (expirySweepComplete d) := by
  refine hd.lift hS ?_
  unfold Machine.expirySweepComplete
  split
  · exact .settle (.lowCheck (.releaseOld (.sweepAll .refl rfl) rfl) rfl) rfl
  · exact .refl

theorem Within.takeSeeds {d : Dev} {im : Image} (hd : Within S a d)
    (hS : Scope.le ⟨[.img], [], []⟩ S) : Within S a (d.takeSeeds im) := by
  refine hd.lift hS ?_
  unfold Dev.takeSeeds
  exact .each .refl (fun x _ e he => (.ite (.set_img he rfl) he))

theorem Within.keystoneRehash {d : Dev} (hd : Within S a d)
    (hS : Scope.le ⟨[.posted, .tbl], [], [F.TBL_REHASH_STATUS_CAUSE.off]⟩ S) : Within S a (d.keystoneRehash) := by
  refine hd.lift hS ?_
  unfold Dev.keystoneRehash
  split
  · exact .refl
  · split
    · exact .ite .refl (.rehashFail .refl rfl)
    · exact .rehashFail .refl rfl

theorem Within.keystone {d : Dev} (hd : Within S a d)
    (hS : Scope.le ⟨[.posted, .tim, .img, .tbl, .que, .shp], [2, 3, 6, 8, 9], []⟩ S) : Within S a (d.keystone) := by
  refine hd.lift hS ?_
  unfold Dev.keystone
  refine .post (.settle ?_ rfl) rfl
  split
  · exact .keystoneRehash (.applyTmProfile (.setRoots (.takeSeeds (.showSlots (.each (.set_tim (.wr (.wr (.wr (.wr (.wr (.wr .refl rfl)
      rfl) rfl) rfl) rfl) rfl) rfl) (fun x1 _ e he => (.ite he (.setPierSlot he rfl)))) rfl) rfl) rfl) rfl) rfl
  · exact .showSlots (.each (.set_tim (.wr (.wr (.wr (.wr (.wr (.wr .refl rfl) rfl) rfl) rfl) rfl) rfl) rfl) (fun x1 _ e he => (.ite he
      (.setPierSlot he rfl)))) rfl

theorem Within.keystoneFire {d : Dev} (hd : Within S a d)
    (hS : Scope.le ⟨[.posted, .tim, .img, .tbl, .que, .shp], [2, 3, 6, 8, 9], []⟩ S) : Within S a (keystoneFire d) := by
  refine hd.lift hS ?_
  unfold Machine.keystoneFire
  split
  · exact .keystone (.setEntry .refl rfl) rfl
  · exact .refl

theorem Within.injectAt {d : Dev} {q : ℕ} {l : List Byte} {md : BitVec 1024} {back : Option ℕ} (hd : Within S a d)
    (hS : Scope.le ⟨[.pir], [], []⟩ S) : Within S a (d.injectAt q l md back) := by
  refine hd.lift hS ?_
  unfold Dev.injectAt
  exact .set_pir .refl rfl

theorem Within.telemRefresh {d : Dev} (hd : Within S a d)
    (hS : Scope.le ⟨[.hst], [], []⟩ S) : Within S a (d.telemRefresh) := by
  refine hd.lift hS ?_
  unfold Dev.telemRefresh
  exact .set_hst .refl rfl

theorem Within.injectFetch {q : ℕ} {x : BitVec 256} {packet : Option (List Byte)} {d : Dev} (hd : Within S a d)
    (hS : Scope.le ⟨[.posted, .hostMem, .pir, .hst], [14], []⟩ S) : Within S a (injectFetch q x packet d) := by
  refine hd.lift hS ?_
  unfold Machine.injectFetch
  split
  · exact .refl
  · dsimp only
    split
    · exact .injectAt (.set_hst .refl rfl) rfl
    · exact .post (.dropCount (.bump (.injectDone (.set_hst .refl rfl) rfl) rfl) rfl) rfl

theorem Within.telemetryExport {d : Dev} (hd : Within S a d)
    (hS : Scope.le ⟨[.pir, .hst], [14], []⟩ S) : Within S a (telemetryExport d) := by
  refine hd.lift hS ?_
  unfold Machine.telemetryExport
  split
  · exact .refl
  · dsimp only
    split
    · exact .refl
    · split
      · exact .bump (.noteSuppressed (.set_hst .refl rfl) rfl) rfl
      · exact .ite .refl (.injectAt (.set_hst .refl rfl) rfl)

end Sys2Proof.Machine
end

