-- ==== Sys2Proof/Proofs/FramesTwin.lean ====
section
/-! PROOF. What the model's functions may change: the twin's roles, its mirror stream and the copy.
Each has the least scope it needs, and runs within any wider one. -/

namespace Sys2Proof.Machine

variable {S : Scope} {a : Dev}

theorem Within.leaveWalk {d : Dev} (hd : Within S a d)
    (hS : Scope.le ⟨[.posted, .tim, .img, .twn], [], [F.IMG_WALK_STATUS_CAUSE.off]⟩ S) : Within S a (d.leaveWalk) := by
  refine hd.lift hS ?_
  unfold Dev.leaveWalk
  exact .ite (.ite (.abandonLater .refl rfl) (.abandonNow .refl rfl)) .refl

theorem Within.roleTo {d0 : Dev} {m : Mode} {sub : ℕ} (hd0 : Within S a d0)
    (hS : Scope.le ⟨[.mode, .posted, .tim, .img, .que, .twn], [17], [F.IMG_WALK_STATUS_CAUSE.off, F.FAB_PAIR_CTRL_TAKEOVER.off,
      F.TWN_STATUS_SUB.off]⟩ S) :
    Within S a (d0.roleTo m sub) := by
  refine hd0.lift hS ?_
  unfold Dev.roleTo
  refine .ite .refl (.pinsFollow (.ite_step (.ite_step (.ite_step (.ite_step ?_ fun h => ?_) fun h => ?_) fun h => ?_) fun h => ?_) rfl)
  · exact .post (.wr (.setMode (.copyStops .refl rfl) rfl) rfl) rfl
  · exact .ite_step (.leaveWalk h rfl) fun h => .requestFlush h rfl
  · exact .set_twn h rfl
  · exact .wr (.set_twn h rfl) rfl
  · exact .each h fun x _ e he => .seekAlign he rfl

theorem Within.setRole {d : Dev} {m : Mode} {sub : ℕ} (hd : Within S a d)
    (hS : Scope.le ⟨[.mode, .posted, .tim, .img, .que, .twn], [17], [F.IMG_WALK_STATUS_CAUSE.off, F.FAB_PAIR_CTRL_TAKEOVER.off,
      F.TWN_STATUS_SUB.off]⟩ S) :
    Within S a (d.setRole m sub) := by
  refine hd.lift hS ?_
  unfold Dev.setRole
  exact .post (.roleTo .refl rfl) rfl

theorem Within.claim {d : Dev} (hd : Within S a d)
    (hS : Scope.le ⟨[.mode, .posted, .tim, .img, .que, .twn], [17], [F.IMG_WALK_STATUS_CAUSE.off, F.FAB_PAIR_CTRL_TAKEOVER.off,
      F.TWN_STATUS_SUB.off]⟩ S) :
    Within S a (d.claim) := by
  refine hd.lift hS ?_
  unfold Dev.claim
  exact .set_twn (.wr (.setRole .refl rfl) rfl) rfl

theorem Within.twnRefuse {d : Dev} {cmd : ℕ} {m : ℕ} (hd : Within S a d)
    (hS : Scope.le ⟨[.posted], [], []⟩ S) : Within S a (d.twnRefuse cmd m) := by
  refine hd.lift hS ?_
  unfold Dev.twnRefuse
  exact .post .refl rfl

theorem Within.demoteBy {d : Dev} {f : Dev → Dev} (hf : ∀ e, Within S a e → Within S a (f e)) (hd : Within S a d)
    (hS : Scope.le ⟨[.twn], [], []⟩ S) : Within S a (d.demoteBy f) := hf _ (hd.lift hS (.set_twn .refl rfl))

theorem Within.demote {d : Dev} {m : ℕ} (hd : Within S a d)
    (hS : Scope.le ⟨[.mode, .posted, .tim, .img, .que, .twn], [17], [F.IMG_WALK_STATUS_CAUSE.off, F.FAB_PAIR_CTRL_TAKEOVER.off,
      F.TWN_STATUS_SUB.off]⟩ S) :
    Within S a (d.demote m) := by
  refine hd.lift hS ?_
  unfold Dev.demote
  split
  · exact .demoteBy (fun e he => (.setRole he rfl)) .refl rfl
  · exact .twnRefuse .refl rfl

theorem Within.twinShed {d : Dev} (hd : Within S a d)
    (hS : Scope.le ⟨[.mode, .posted, .tim, .img, .que, .twn], [17], [F.IMG_WALK_STATUS_CAUSE.off, F.FAB_PAIR_CTRL_TAKEOVER.off,
      F.TWN_STATUS_SUB.off]⟩ S) :
    Within S a (d.twinShed) := by
  refine hd.lift hS ?_
  unfold Dev.twinShed
  split
  · exact .refl
  · split
    · split
      · exact .demoteBy (fun e he => (.roleTo he rfl)) .refl rfl
      · exact .twnRefuse .refl rfl
    · exact .ite (.roleTo .refl rfl) .refl

theorem Within.enterTwin {d : Dev} (hd : Within S a d)
    (hS : Scope.le ⟨[.mode, .posted, .tim, .img, .que, .twn], [17], [F.IMG_WALK_STATUS_CAUSE.off, F.FAB_PAIR_CTRL_TAKEOVER.off,
      F.TWN_STATUS_SUB.off]⟩ S) :
    Within S a (d.enterTwin) := by
  refine hd.lift hS ?_
  unfold Dev.enterTwin
  exact .ite (.setRole .refl rfl) (.setRole .refl rfl)

theorem Within.onFrame {d : Dev} {t : Nat} {f : BitVec 4096} {k : Dev → Dev} (hd : Within S a d) (hk : Within S a (k d))
    (hS : Scope.le ⟨[], [], [F.TWN_RALIN_CRC_ERR.off]⟩ S) : Within S a (d.onFrame t f k) := by
  exact .ite hd (.ite (hd.lift hS (.bump .refl rfl)) (.ite hk hd))

theorem Within.ralinLaneLock {n : ℕ} {markers : List (BitVec 16)} {d : Dev} (hd : Within S a d)
    (hS : Scope.le ⟨[.twn], [], [F.TWN_STATUS_LANES.off]⟩ S) : Within S a (ralinLaneLock n markers d) := by
  refine hd.lift hS ?_
  unfold Machine.ralinLaneLock
  exact .ite (.setLanes .refl rfl) .refl

theorem Within.ralinLaneLockLoss {n : ℕ} {first : ℕ} {markers : List (BitVec 16)} {d : Dev} (hd : Within S a d)
    (hS : Scope.le ⟨[.twn], [], [F.TWN_STATUS_LANES.off]⟩ S) : Within S a (ralinLaneLockLoss n first markers d) := by
  refine hd.lift hS ?_
  unfold Machine.ralinLaneLockLoss
  exact .ite (.setLanes .refl rfl) .refl

theorem Within.twinEnable {m : ℕ} {en : Bool} {d : Dev} (hd : Within S a d)
    (hS : Scope.le ⟨[.posted], [], [F.TWN_CTRL_EN.off]⟩ S) : Within S a (twinEnable m en d) := by
  refine hd.lift hS ?_
  unfold Machine.twinEnable
  exact .ite (.wr .refl rfl) (.ite (.twnRefuse .refl rfl) .refl)

theorem Within.heartbeatSend {d : Dev} (hd : Within S a d)
    (hS : Scope.le ⟨[.twn], [], []⟩ S) : Within S a (heartbeatSend d) := by
  refine hd.lift hS ?_
  unfold Machine.heartbeatSend
  exact .ite .refl (.each .refl (fun x _ e he => (.emitMsg he rfl)))

theorem Within.takeAck {d : Dev} {a' : ℕ} (hd : Within S a d)
    (hS : Scope.le ⟨[.twn], [], []⟩ S) : Within S a (d.takeAck a') := by
  refine hd.lift hS ?_
  unfold Dev.takeAck
  exact .ite (.set_twn .refl rfl) .refl

theorem Within.hbActs {d : Dev} {was : ℕ} (hd : Within S a d)
    (hS : Scope.le ⟨[.mode, .posted, .tim, .img, .que, .twn], [17], [F.IMG_WALK_STATUS_CAUSE.off, F.FAB_PAIR_CTRL_TAKEOVER.off,
      F.TWN_STATUS_SUB.off]⟩ S) :
    Within S a (d.hbActs was) := by
  refine hd.lift hS ?_
  unfold Dev.hbActs
  dsimp only
  split
  · exact .claim .refl rfl
  · split
    · split
      · exact .set_twn .refl rfl
      · exact .each (.set_twn .refl rfl) (fun x _ e he => (.seekAlign he rfl))
    · exact .refl

theorem Within.heartbeatRx {f : BitVec 4096} {d : Dev} (hd : Within S a d)
    (hS : Scope.le ⟨[.mode, .posted, .tim, .img, .que, .twn], [3, 10, 12, 17], []⟩ S) : Within S a (heartbeatRx f d) := by
  refine hd.lift hS ?_
  unfold Machine.heartbeatRx
  refine .onFrame .refl ?_ rfl
  split
  · exact .hbActs (.takeAck (.set_twn (.wr (.wr (.wr .refl rfl) rfl) rfl) rfl) rfl) rfl
  · exact .refl

theorem Within.heartbeatLoss {d : Dev} (hd : Within S a d)
    (hS : Scope.le ⟨[.mode, .posted, .tim, .img, .que, .twn], [17], [F.IMG_WALK_STATUS_CAUSE.off, F.FAB_PAIR_CTRL_TAKEOVER.off,
      F.TWN_STATUS_SUB.off]⟩ S) :
    Within S a (heartbeatLoss d) := by
  refine hd.lift hS ?_
  unfold Machine.heartbeatLoss
  split
  · exact .refl
  · split
    · exact .ite (.claim .refl rfl) .refl
    · dsimp only
      split
      · split
        · exact .claim (.set_twn (.post (.wr (.copyStops .refl rfl) rfl) rfl) rfl) rfl
        · split
          · exact .post (.set_twn (.post (.wr (.copyStops .refl rfl) rfl) rfl) rfl) rfl
          · exact .set_twn (.post (.wr (.copyStops .refl rfl) rfl) rfl) rfl
      · split
        · exact .claim (.set_twn (.post (.wr .refl rfl) rfl) rfl) rfl
        · split
          · exact .post (.set_twn (.post (.wr .refl rfl) rfl) rfl) rfl
          · exact .set_twn (.post (.wr .refl rfl) rfl) rfl

theorem Within.spanBegins {d : Dev} (hd : Within S a d)
    (hS : Scope.le ⟨[.posted, .tim, .img, .lpt, .pir, .tbl, .que, .fab, .twn, .hst, .pwr, .dgn], [3, 4], [F.TWN_HB_MISSED.off,
      (F.HST_DROP_CNT.ix Drop.pierRetired).off, F.DGN_STATUS_BIST_BUSY.off, F.DGN_BIST_STATUS_RESULT.off]⟩ S) :
    Within S a (spanBegins d) := by
  refine hd.lift hS ?_
  unfold Machine.spanBegins
  exact .telemRefresh (.walkTick (.spanStart (.ite (.bump .refl rfl) .refl) rfl) rfl) rfl

theorem Within.ownerActs {before after : Dev} (h : Within S a after)
    (hS : Scope.le ⟨[.mode, .posted, .tim, .img, .que, .twn], [3, 10, 12, 17], []⟩ S) : Within S a (Dev.ownerActs before after) := by
  refine h.lift hS ?_
  unfold Dev.ownerActs
  have h1 : ∀ c : Prop, [Decidable c] → Within ⟨[.mode, .posted, .tim, .img, .que, .twn], [3, 10, 12, 17], []⟩ after (if c then
      { after with twn := { after.twn with pinsHeld := false, demoting := false } }.pinsFollow else after) :=
    fun _ _ => .ite (.pinsFollow (.set_twn .refl rfl) rfl) .refl
  exact .ite .refl (.ite (.setRole (.set_twn (h1 _) rfl) rfl) (.ite (.setRole (h1 _) rfl) (h1 _)))

theorem Within.takeoverTimeout {d : Dev} (hd : Within S a d)
    (hS : Scope.le ⟨[.mode, .posted, .tim, .img, .que, .twn], [17], [F.IMG_WALK_STATUS_CAUSE.off, F.FAB_PAIR_CTRL_TAKEOVER.off,
      F.TWN_STATUS_SUB.off]⟩ S) :
    Within S a (takeoverTimeout d) := by
  refine hd.lift hS ?_
  unfold Machine.takeoverTimeout
  split
  · exact .refl
  · split
    · exact .refl
    · exact .ite .refl (.setRole (.post .refl rfl) rfl)

theorem Within.twinIsolation {d : Dev} (hd : Within S a d)
    (hS : Scope.le ⟨[.mode, .posted, .tim, .img, .que, .twn], [17], [F.IMG_WALK_STATUS_CAUSE.off, F.FAB_PAIR_CTRL_TAKEOVER.off,
      F.TWN_STATUS_SUB.off]⟩ S) :
    Within S a (twinIsolation d) := by
  refine hd.lift hS ?_
  unfold Machine.twinIsolation
  split
  · exact .refl
  · exact .ite (.setRole (.post .refl rfl) rfl) .refl

theorem Within.twnDemote {m : ℕ} {d : Dev} (hd : Within S a d)
    (hS : Scope.le ⟨[.mode, .posted, .tim, .img, .que, .twn], [17], [F.IMG_WALK_STATUS_CAUSE.off, F.FAB_PAIR_CTRL_TAKEOVER.off,
      F.TWN_STATUS_SUB.off]⟩ S) :
    Within S a (twnDemote m d) := by
  refine hd.lift hS ?_
  unfold Machine.twnDemote
  exact .ite (.demote .refl rfl) (.twnRefuse .refl rfl)

theorem Within.twnResync {m : ℕ} {d : Dev} (hd : Within S a d)
    (hS : Scope.le ⟨[.mode, .posted, .tim, .img, .que, .twn], [17], [F.IMG_WALK_STATUS_CAUSE.off, F.FAB_PAIR_CTRL_TAKEOVER.off,
      F.TWN_STATUS_SUB.off]⟩ S) :
    Within S a (twnResync m d) := by
  refine hd.lift hS ?_
  unfold Machine.twnResync
  exact .ite (.setRole .refl rfl) (.twnRefuse .refl rfl)

theorem Within.forgetMeters {d : Dev} {first : ℕ} {n : ℕ} (hd : Within S a d)
    (hS : Scope.le ⟨[.tbl], [], []⟩ S) : Within S a (d.forgetMeters first n) := by
  refine hd.lift hS ?_
  unfold Dev.forgetMeters
  exact .set_tbl .refl rfl

theorem Within.dropSegment {d : Dev} {g : Segment} (hd : Within S a d)
    (hS : Scope.le ⟨[.pir, .tbl], [], []⟩ S) : Within S a (d.dropSegment g) := by
  refine hd.lift hS ?_
  unfold Dev.dropSegment
  split
  · exact .refl
  · split
    · exact .set_pir .refl rfl
    · split
      · exact .set_tbl .refl rfl
      · split
        · exact .each (.ite (.forgetMeters .refl rfl) .refl) (fun x _ e he => (.set_tbl he rfl))
        · exact .refl

theorem Within.twnForcePromote {m : ℕ} {d : Dev} (hd : Within S a d)
    (hS : Scope.le ⟨[.mode, .posted, .tim, .img, .pir, .tbl, .que, .twn], [17], [F.IMG_WALK_STATUS_CAUSE.off,
      F.FAB_PAIR_CTRL_TAKEOVER.off, F.TWN_STATUS_SUB.off]⟩ S) :
    Within S a (twnForcePromote m d) := by
  refine hd.lift hS ?_
  unfold Machine.twnForcePromote
  split
  · exact .claim (.wr (.each .refl (fun x _ e he => (.dropSegment he rfl))) rfl) rfl
  · exact .twnRefuse .refl rfl

theorem Within.twnRelease {m : ℕ} {d : Dev} (hd : Within S a d)
    (hS : Scope.le ⟨[.mode, .posted, .tim, .img, .que, .twn], [17], [F.IMG_WALK_STATUS_CAUSE.off, F.FAB_PAIR_CTRL_TAKEOVER.off,
      F.TWN_STATUS_SUB.off]⟩ S) :
    Within S a (twnRelease m d) := by
  refine hd.lift hS ?_
  unfold Machine.twnRelease
  exact .ite (.setRole .refl rfl) (.twnRefuse .refl rfl)

theorem Within.twnReactivate {m : ℕ} {d : Dev} (hd : Within S a d)
    (hS : Scope.le ⟨[.mode, .posted, .tim, .img, .que, .twn], [17], [F.IMG_WALK_STATUS_CAUSE.off, F.FAB_PAIR_CTRL_TAKEOVER.off,
      F.TWN_STATUS_SUB.off]⟩ S) :
    Within S a (twnReactivate m d) := by
  refine hd.lift hS ?_
  unfold Machine.twnReactivate
  exact .ite (.setRole .refl rfl) (.twnRefuse .refl rfl)

theorem Within.idleSlot {d : Dev} (hd : Within S a d)
    (hS : Scope.le ⟨[.tim, .twn], [], []⟩ S) : Within S a (idleSlot d) := by
  refine hd.lift hS ?_
  unfold Machine.idleSlot
  exact .ralinSlot (.slotPasses .refl rfl) rfl

theorem Within.sendVerdict {d : Dev} {word : ℕ} {code : ℕ} {port : ℕ} {window : ℕ} (hd : Within S a d)
    (hS : Scope.le ⟨[.twn], [], []⟩ S) : Within S a (d.sendVerdict word code port window) := by
  refine hd.lift hS ?_
  unfold Dev.sendVerdict
  exact .mirrorSend .refl rfl

theorem Within.decide {d : Dev} {port : ℕ} {window : ℕ} {word : ℕ} (hd : Within S a d)
    (hS : Scope.le ⟨[.mode, .posted, .tim, .img, .que, .twn], [17], [F.IMG_WALK_STATUS_CAUSE.off, F.FAB_PAIR_CTRL_TAKEOVER.off,
      F.TWN_STATUS_SUB.off]⟩ S) :
    Within S a (d.decide port window word) := by
  refine hd.lift hS ?_
  unfold Dev.decide
  dsimp only
  split
  · exact .demote (.post (.sendVerdict (.set_twn .refl rfl) rfl) rfl) rfl
  · exact .post (.sendVerdict (.set_twn .refl rfl) rfl) rfl

theorem Within.replicationCopy {d : Dev} (hd : Within S a d)
    (hS : Scope.le ⟨[.posted, .fresh, .lpt, .buf, .que, .dck], [4, 7, 8, 11, 14], []⟩ S) : Within S a (Machine.replicationCopy d) := by
  refine hd.lift hS ?_
  unfold Machine.replicationCopy
  split
  · exact .refl
  split
  rename_i j _ _ _ bad e he
  have hs : Within ⟨[.posted, .fresh, .lpt, .buf, .que, .dck], [4, 7, 8, 11, 14], []⟩ d e := .snd he (.sourceFate .refl rfl)
  split
  · exact .settle (.lowCheck (.sourceLost hs rfl) rfl) rfl
  split
  · dsimp only
    refine .settle (.lowCheck ?_ rfl) rfl
    have hc : Within ⟨[.posted, .fresh, .lpt, .buf, .que, .dck], [4, 7, 8, 11, 14], []⟩ d
        (if clValid (e.clEntry ((j.base + j.nextCopy) % 1048576)) then
          match e.admitTo (voqOf (copyPacket (e.clEntry ((j.base + j.nextCopy) % 1048576)) j.pkt)) 20 j.input
            (copyPacket (e.clEntry ((j.base + j.nextCopy) % 1048576)) j.pkt) with
          | (none, d1) => (d1.countCopy (j.group.getD 0) none 1).bump F.DCK_MC_COPIES_TOTAL
          | (some r, d1) => d1.countCopy (j.group.getD 0) (some r) 1
        else e.bump (groupDrop 4 (j.group.getD 0))) := by
      split
      · split
        · rename_i h
          exact .bump (.countCopy (.snd h (.admitTo hs rfl)) rfl) rfl
        · rename_i h
          exact .countCopy (.snd h (.admitTo hs rfl)) rfl
      · exact .bump hs (has_groupDrop (by decide) rfl)
    split
    · split
      · exact .finishJob (.set_dck hc rfl) rfl
      · exact .set_dck hc rfl
    · exact .set_dck hc rfl
  · dsimp only
    refine .settle (.lowCheck ?_ rfl) rfl
    split
    · exact .finishJob (.ite hs (.mirrorCopy hs rfl)) rfl
    · exact .ite hs (.mirrorCopy hs rfl)

theorem Within.planGroup {d : Dev} {a' : Arrival} {g base count : ℕ} (hd : Within S a d)
    (hS : Scope.le ⟨[.posted, .que], [8, 11, 14], []⟩ S) : Within S a (d.planGroup a' g base count).2 := by
  refine hd.lift hS ?_
  unfold Dev.planGroup
  dsimp only
  split
  · exact .post (.noMirror (.bumpN (.bump (.dropCount .refl rfl) rfl) (has_groupDrop (by decide) rfl)) rfl) rfl
  · split
    · split
      · rename_i h2
        dsimp only
        exact .countCopy (.queueDrop (.snd2 h2 (.admitChecks .refl rfl)) rfl) rfl
      · rename_i h2
        exact .snd2 h2 (.admitChecks .refl rfl)
    · exact .bump .refl (has_groupDrop (by decide) rfl)

theorem Within.planArrival {d : Dev} {a' : Arrival} (hd : Within S a d)
    (hS : Scope.le ⟨[.posted, .que], [8, 11, 14], []⟩ S) : Within S a (d.planArrival a').2 := by
  refine hd.lift hS ?_
  unfold Dev.planArrival
  split
  · exact .planOne .refl rfl
  · dsimp only
    split
    · exact .post (.noMirror (.bump (.dropCount .refl rfl) rfl) rfl) rfl
    · exact .planGroup .refl rfl
  · exact .planOne .refl rfl
  · exact .noMirror .refl rfl

theorem Within.planAll {d : Dev} {l : List Arrival} (hd : Within S a d)
    (hS : Scope.le ⟨[.posted, .que], [8, 11, 14], []⟩ S) : Within S a (d.planAll l).2 := by
  refine hd.lift hS ?_
  clear hd
  induction l generalizing d with
  | nil =>
    rw [Dev.planAll]
    exact .refl
  | cons y t ih =>
    rw [Dev.planAll]
    exact .trans (.planArrival .refl rfl) ih

theorem Within.enqueue {more : ℕ} {d : Dev} (hd : Within S a d)
    (hS : Scope.le ⟨[.posted, .fresh, .lpt, .buf, .que, .dck], [4, 7, 8, 11, 14], []⟩ S) : Within S a (Machine.enqueue more d) := by
  refine hd.lift hS ?_
  unfold Machine.enqueue
  split
  · exact .refl
  · refine .settle (.lowCheck (.each (.allocClock (.planAll (.set_que .refl rfl) rfl) rfl) (fun w _ e he => ?_)) rfl) rfl
    split
    · exact .place he rfl
    · exact .unplaced he rfl

theorem Within.mcCounterClr {d : Dev} (hd : Within S a d)
    (hS : Scope.le ⟨[], [11], []⟩ S) : Within S a (Machine.mcCounterClr d) := by
  refine hd.lift hS ?_
  unfold Machine.mcCounterClr
  exact .each (.wr .refl (has_item rfl)) (fun r hr e he => .wr he (has_groupDrop ((List.mem_range.1 hr).trans (by decide)) rfl))

theorem Within.controlTaken {d : Dev} {l : ℕ} {c : BitVec 2048} (hd : Within S a d) (hl : l < 160)
    (hS : Scope.le ⟨[.posted, .que, .fab], [8, 10], []⟩ S) : Within S a (d.controlTaken l c) := by
  refine hd.lift hS ?_
  unfold Dev.controlTaken
  exact .each (.wr (.wr (.set_fab (.noteSpan .refl rfl) rfl) (has_ix (n := 40) (by omega) rfl)) (has_ix (n := 40) (by omega) rfl))
    (fun x _ e he => (.ite (.spReport he (Nat.mod_lt _ (by decide)) rfl) he))

theorem Within.controlDownRx {l : ℕ} {fate : CellFate} {c : BitVec 2048} {d : Dev} (hd : Within S a d) (hl : l < 160)
    (hS : Scope.le ⟨[.posted, .tim, .que, .fab], [8, 10], []⟩ S) : Within S a (controlDownRx l fate c d) := by
  refine hd.lift hS ?_
  unfold Machine.controlDownRx
  split
  · exact .refl
  · split
    · exact .cellDestroyed .refl rfl
    · split
      · exact .controlSource (.controlTaken .refl hl rfl) rfl
      · exact .bump .refl rfl

/-- The device acts as itself or as the stream: never as a host that resets. -/
theorem actionMaster_ne_host (d : Dev) : d.actionMaster ≠ 6 := by
  unfold Dev.actionMaster
  split <;> decide

theorem egrPort_lt (p : Packet) : p.get Md.egrPort < 256 := Nat.mod_lt _ (by decide)

theorem Within.egressStroke {pier : ℕ} {d : Dev} (hd : Within S a d) (hpier : pier < 17)
    (hS : Scope.le ⟨[.posted, .fresh, .tim, .lpt, .pir, .tbl, .que], [4, 5, 6, 14], [F.TIM_EXPIRED_CNT.off]⟩ S) :
    Within S a (Machine.egressStroke pier d) := by
  refine hd.lift hS ?_
  unfold Machine.egressStroke
  split
  · exact .refl
  · split
    · exact .refl
    · split
      · exact .refl
      · dsimp only
        split
        · exact .dropExpired (.updLp (.set_pir .refl rfl) rfl) rfl
        · split
          · exact .dropCount (.stroke (.bump (.updLp (.set_pir .refl rfl) rfl) (has_pier hpier rfl)) hpier rfl) rfl
          · split
            · exact .toTm (.stroke (.bump (.updLp (.set_pir .refl rfl) rfl) (has_pier hpier rfl)) hpier rfl) rfl
            · exact .toLine (.stroke (.bump (.updLp (.set_pir .refl rfl) rfl) (has_pier hpier rfl)) hpier rfl) (egrPort_lt _) rfl

theorem Within.actOn {d : Dev} {port : ℕ} {window : ℕ} (hd : Within S a d)
    (hS : Scope.le ⟨[.mode, .posted, .tim, .img, .que, .twn], [17], [F.IMG_WALK_STATUS_CAUSE.off, F.FAB_PAIR_CTRL_TAKEOVER.off,
      F.TWN_STATUS_SUB.off]⟩ S) :
    Within S a (d.actOn port window) := by
  refine hd.lift hS ?_
  unfold Dev.actOn
  split
  · exact .set_twn (.sendVerdict .refl rfl) rfl
  · split
    · split
      · exact .ite (.decide .refl rfl) (.set_twn .refl rfl)
      · exact .set_twn .refl rfl
    · exact .refl

theorem Within.takeVerdict {d : Dev} {f : BitVec 4096} (hd : Within S a d)
    (hS : Scope.le ⟨[.mode, .posted, .tim, .img, .que, .twn], [17], [F.IMG_WALK_STATUS_CAUSE.off, F.FAB_PAIR_CTRL_TAKEOVER.off,
      F.TWN_STATUS_SUB.off]⟩ S) :
    Within S a (d.takeVerdict f) := by
  refine hd.lift hS ?_
  unfold Dev.takeVerdict
  dsimp only
  split
  · split
    · exact .refl
    · split
      · exact .decide .refl rfl
      · exact .set_twn .refl rfl
  · split
    · exact .refl
    · split
      · exact .claim (.post (.set_twn .refl rfl) rfl) rfl
      · exact .setRole (.post (.set_twn .refl rfl) rfl) rfl

theorem Within.verdictEvidenceTimeout {d : Dev} (hd : Within S a d)
    (hS : Scope.le ⟨[.mode, .posted, .tim, .img, .que, .twn], [17], [F.IMG_WALK_STATUS_CAUSE.off, F.FAB_PAIR_CTRL_TAKEOVER.off,
      F.TWN_STATUS_SUB.off]⟩ S) :
    Within S a (verdictEvidenceTimeout d) := by
  refine hd.lift hS ?_
  unfold Machine.verdictEvidenceTimeout
  split
  · exact .ite (.decide .refl rfl) .refl
  · exact .refl

theorem Within.verdictWaitTimeout {d : Dev} (hd : Within S a d)
    (hS : Scope.le ⟨[.mode, .posted, .tim, .img, .que, .twn], [17], [F.IMG_WALK_STATUS_CAUSE.off, F.FAB_PAIR_CTRL_TAKEOVER.off,
      F.TWN_STATUS_SUB.off]⟩ S) :
    Within S a (verdictWaitTimeout d) := by
  refine hd.lift hS ?_
  unfold Machine.verdictWaitTimeout
  split
  · exact .ite (.setRole .refl rfl) .refl
  · exact .refl

theorem Within.evidenceExpiry {b : ℕ} {d : Dev} (hd : Within S a d)
    (hS : Scope.le ⟨[], [], [F.TWN_EVIDENCE_BITS.off]⟩ S) : Within S a (evidenceExpiry b d) := by
  refine hd.lift hS ?_
  unfold Machine.evidenceExpiry
  exact .ite (.wr .refl rfl) .refl

theorem Within.mirrorCause {d : Dev} {cause : ℕ} {seq : ℕ} {a' : ℕ} (hd : Within S a d)
    (hS : Scope.le ⟨[.twn], [], []⟩ S) : Within S a (d.mirrorCause cause seq a') := by
  refine hd.lift hS ?_
  unfold Dev.mirrorCause
  exact .set_twn .refl rfl

theorem Within.takeRecord {d : Dev} {r : MirrorRec} (hd : Within S a d)
    (hS : Scope.le ⟨[.twn], [], []⟩ S) : Within S a (d.takeRecord r) := by
  refine hd.lift hS ?_
  unfold Dev.takeRecord
  exact .ite (.mirrorCause .refl rfl) (.set_twn .refl rfl)

theorem Within.streamTake {d : Dev} {f : BitVec 4096} (hd : Within S a d)
    (hS : Scope.le ⟨[.mode, .posted, .tim, .img, .que, .twn], [17], [F.IMG_WALK_STATUS_CAUSE.off, F.FAB_PAIR_CTRL_TAKEOVER.off,
      F.TWN_STATUS_SUB.off]⟩ S) :
    Within S a (d.streamTake f) := by
  refine hd.lift hS ?_
  unfold Dev.streamTake
  split
  · exact .takeVerdict .refl rfl
  · exact .ite (.each .refl (fun x _ e he => (.takeRecord he rfl))) .refl

theorem Within.streamDrain {n : ℕ} {d : Dev} (hd : Within S a d)
    (hS : Scope.le ⟨[.mode, .posted, .tim, .img, .que, .twn], [17], [F.IMG_WALK_STATUS_CAUSE.off, F.FAB_PAIR_CTRL_TAKEOVER.off,
      F.TWN_STATUS_SUB.off]⟩ S) :
    Within S a (Dev.streamDrain n d) := by
  refine hd.lift hS ?_
  clear hd
  induction n generalizing d with
  | zero =>
    rw [Dev.streamDrain]
    exact .refl
  | succ k ih =>
    rw [Dev.streamDrain]
    split
    · exact .refl
    · exact .trans (.streamTake (.set_twn .refl rfl) rfl) ih

theorem Within.streamRx {d : Dev} {f : BitVec 4096} (hd : Within S a d)
    (hS : Scope.le ⟨[.mode, .posted, .tim, .img, .que, .twn], [17], [F.IMG_WALK_STATUS_CAUSE.off, F.FAB_PAIR_CTRL_TAKEOVER.off,
      F.TWN_STATUS_SUB.off]⟩ S) :
    Within S a (d.streamRx f) := by
  refine hd.lift hS ?_
  unfold Dev.streamRx
  exact .ite .refl (.streamDrain (.set_twn .refl rfl) rfl)

theorem Within.mirrorFrameRx {f : BitVec 4096} {d : Dev} (hd : Within S a d)
    (hS : Scope.le ⟨[.mode, .posted, .tim, .img, .que, .twn], [17], [F.IMG_WALK_STATUS_CAUSE.off, F.FAB_PAIR_CTRL_TAKEOVER.off,
      F.TWN_STATUS_SUB.off, F.TWN_RALIN_CRC_ERR.off]⟩ S) :
    Within S a (mirrorFrameRx f d) := by
  refine hd.lift hS ?_
  unfold Machine.mirrorFrameRx
  exact .onFrame .refl (.streamRx .refl rfl) rfl

theorem Within.verdictRx {f : BitVec 4096} {d : Dev} (hd : Within S a d)
    (hS : Scope.le ⟨[.mode, .posted, .tim, .img, .que, .twn], [17], [F.IMG_WALK_STATUS_CAUSE.off, F.FAB_PAIR_CTRL_TAKEOVER.off,
      F.TWN_STATUS_SUB.off, F.TWN_RALIN_CRC_ERR.off]⟩ S) :
    Within S a (verdictRx f d) := by
  refine hd.lift hS ?_
  unfold Machine.verdictRx
  exact .onFrame .refl (.streamRx .refl rfl) rfl

theorem Within.mirrorRetransmit {d : Dev} (hd : Within S a d)
    (hS : Scope.le ⟨[.twn], [], [F.TWN_MIRROR_RETX.off]⟩ S) : Within S a (mirrorRetransmit d) := by
  refine hd.lift hS ?_
  unfold Machine.mirrorRetransmit
  split
  · exact .refl
  · exact .ite .refl (.bumpN (.set_twn .refl rfl) rfl)

theorem Within.sendCtrl {d : Dev} {op : ℕ} {seg : ℕ} {crc : ℕ} {cause : ℕ} (hd : Within S a d)
    (hS : Scope.le ⟨[.twn], [], []⟩ S) : Within S a (d.sendCtrl op seg crc cause) := by
  refine hd.lift hS ?_
  unfold Dev.sendCtrl
  exact .ralinSend .refl rfl

theorem Within.mirrorFailure {cause : ℕ} {d : Dev} (hd : Within S a d)
    (hS : Scope.le ⟨[.mode, .posted, .tim, .img, .que, .twn], [17], [F.IMG_WALK_STATUS_CAUSE.off, F.FAB_PAIR_CTRL_TAKEOVER.off,
      F.TWN_STATUS_SUB.off, F.TWN_MIRROR_LATE.off]⟩ S) :
    Within S a (mirrorFailure cause d) := by
  refine hd.lift hS ?_
  unfold Machine.mirrorFailure
  split
  · exact .refl
  · dsimp only
    split
    · exact .setRole (.post (.bump (.set_twn .refl rfl) rfl) rfl) rfl
    · split
      · exact .set_twn (.post (.bump (.set_twn .refl rfl) rfl) rfl) rfl
      · split
        · exact .set_twn (.sendCtrl (.copyStops (.post (.bump (.set_twn .refl rfl) rfl) rfl) rfl) rfl) rfl
        · exact .post (.bump (.set_twn .refl rfl) rfl) rfl

theorem Within.compareWindow {d : Dev} {p : ℕ} {a' : DigestEntry} {b : DigestEntry} (hd : Within S a d)
    (hS : Scope.le ⟨[.mode, .posted, .tim, .img, .que, .twn], [3, 10, 12, 17], []⟩ S) : Within S a (d.compareWindow p a' b) := by
  refine hd.lift hS ?_
  unfold Dev.compareWindow
  dsimp only
  split
  · exact .ite (.updTp (.bump .refl rfl) rfl) .refl
  · split
    · exact .ite (.bump (.updTp .refl rfl) rfl) (.updTp .refl rfl)
    · split
      · split
        · exact .actOn (.post (.bump (.updTp .refl rfl) rfl) rfl) rfl
        · exact .post (.bump (.updTp .refl rfl) rfl) rfl
      · exact .ite (.actOn (.updTp .refl rfl) rfl) (.updTp .refl rfl)

theorem Within.digestWindowClose {p : ℕ} {d : Dev} (hd : Within S a d)
    (hS : Scope.le ⟨[.mode, .posted, .tim, .img, .que, .twn], [3, 10, 12, 17], []⟩ S) : Within S a (digestWindowClose p d) := by
  refine hd.lift hS ?_
  unfold Machine.digestWindowClose
  dsimp only
  split
  · exact .refl
  · split
    · exact .updTp .refl rfl
    · split
      · exact .compareWindow (.updTp (.ralinSend (.updTp .refl rfl) rfl) rfl) rfl
      · exact .updTp (.ralinSend (.updTp .refl rfl) rfl) rfl

theorem Within.digestRx {f : BitVec 4096} {d : Dev} (hd : Within S a d)
    (hS : Scope.le ⟨[.mode, .posted, .tim, .img, .que, .twn], [3, 10, 12, 17], []⟩ S) : Within S a (digestRx f d) := by
  refine hd.lift hS ?_
  unfold Machine.digestRx
  refine .onFrame .refl ?_ rfl
  split
  · exact .refl
  · refine .each .refl (fun x _ e he => ?_)
    split
    · dsimp only
      split
      · exact he
      · split
        · exact .compareWindow (.updTp he rfl) rfl
        · exact .updTp he rfl

theorem Within.digestCompareTimeout {p : ℕ} {d : Dev} (hd : Within S a d)
    (hS : Scope.le ⟨[.twn], [], []⟩ S) : Within S a (digestCompareTimeout p d) := by
  refine hd.lift hS ?_
  unfold Machine.digestCompareTimeout
  exact .updTp .refl rfl

theorem Within.realignRx {f : BitVec 4096} {d : Dev} (hd : Within S a d)
    (hS : Scope.le ⟨[.twn], [], [F.TWN_RALIN_CRC_ERR.off]⟩ S) : Within S a (realignRx f d) := by
  refine hd.lift hS ?_
  unfold Machine.realignRx
  refine .onFrame .refl ?_ rfl
  split
  · exact .refl
  · dsimp only
    split
    · exact .updTp .refl rfl
    · exact .updTp .refl rfl

theorem Within.configPut {d : Dev} {k v : ℕ} (hd : Within S a d)
    (hS : Scope.le ⟨[.tim, .que], [2, 3, 5, 6, 8, 11], []⟩ S) : Within S a (d.configPut k v) := by
  refine hd.lift hS ?_
  unfold Dev.configPut
  split
  · split
    · rename_i h
      exact .setReg .refl (Scope.has_of_le (A := ⟨[], [2, 3, 5, 6, 8, 11], []⟩) rfl (has_of_copiedReg h))
    · exact .refl
  · exact .ite (.setParent .refl rfl) (.ite (.set_que .refl rfl) (.setEntry .refl rfl))

theorem Within.engineTake {d : Dev} {l : List Byte} (hd : Within S a d)
    (hS : Scope.le ⟨[.img, .tbl], [], []⟩ S) : Within S a (d.engineTake l) := by
  refine hd.lift hS ?_
  unfold Dev.engineTake
  dsimp only
  split
  · exact .set_tbl .refl rfl
  · exact .ite (.set_tbl .refl rfl) (.ite (.set_img .refl rfl) .refl)

theorem Within.routeTake {d : Dev} {l : List Byte} (hd : Within S a d)
    (hS : Scope.le ⟨[.tbl], [], []⟩ S) : Within S a (d.routeTake l) := by
  refine hd.lift hS ?_
  unfold Dev.routeTake
  exact .ite .refl (.set_tbl .refl rfl)

theorem Within.segPutByte {d : Dev} {g : Segment} {k : ℕ} {v : Byte} (hd : Within S a d)
    (hS : Scope.le ⟨[.pir, .tbl], [], []⟩ S) : Within S a (d.segPutByte g k v) := by
  refine hd.lift hS ?_
  unfold Dev.segPutByte
  dsimp only
  split
  · exact .set_pir .refl rfl
  · exact .putEntry (.ite (.forgetMeter .refl rfl) .refl) rfl

theorem Within.segWrite {d : Dev} {g : Segment} {ofs : ℕ} {l : List Byte} (hd : Within S a d)
    (hS : Scope.le ⟨[.tim, .img, .pir, .tbl, .que], [2, 3, 5, 6, 8, 11], []⟩ S) : Within S a (d.segWrite g ofs l) := by
  refine hd.lift hS ?_
  unfold Dev.segWrite
  dsimp only
  split
  · exact .refl
  · split
    · refine .each .refl (fun x _ e he => ?_)
      split
      · exact .configPut he rfl
      · exact .ite (.engineTake he rfl) (.routeTake he rfl)
    · exact .each .refl (fun x _ e he => (.segPutByte he rfl))

theorem Within.updSeg {d : Dev} {n : ℕ} {f : Segment → Segment} (hd : Within S a d)
    (hS : Scope.le ⟨[.twn], [], []⟩ S) : Within S a (d.updSeg n f) := by
  refine hd.lift hS ?_
  unfold Dev.updSeg
  exact .set_twn .refl rfl

theorem Within.acceptCopy {d : Dev} (hd : Within S a d)
    (hS : Scope.le ⟨[.posted, .tbl, .twn], [17], [F.TBL_REHASH_STATUS_CAUSE.off]⟩ S) : Within S a (d.acceptCopy) := by
  refine hd.lift hS ?_
  unfold Dev.acceptCopy
  exact .each (.sendCtrl (.set_twn (.rehashFail (.copyStops .refl rfl) rfl) rfl) rfl) (fun x _ e he => (.ralinSend he rfl))

theorem Within.takeRequest {d : Dev} (hd : Within S a d)
    (hS : Scope.le ⟨[.posted, .tbl, .twn], [17], [F.TBL_REHASH_STATUS_CAUSE.off]⟩ S) : Within S a (d.takeRequest) := by
  refine hd.lift hS ?_
  unfold Dev.takeRequest
  exact .ite (.acceptCopy .refl rfl) (.sendCtrl .refl rfl)

theorem Within.segmentFails {d : Dev} {n : ℕ} (hd : Within S a d)
    (hS : Scope.le ⟨[.posted, .twn], [17], []⟩ S) : Within S a (d.segmentFails n) := by
  refine hd.lift hS ?_
  unfold Dev.segmentFails
  split
  · split
    · exact .set_twn (.sendCtrl (.copyStops .refl rfl) rfl) rfl
    · exact .updSeg (.set_twn .refl rfl) rfl
  · exact .updSeg .refl rfl

theorem Within.segmentSend {d : Dev} (hd : Within S a d)
    (hS : Scope.le ⟨[.posted, .twn, .dgn], [17], []⟩ S) : Within S a (segmentSend d) := by
  refine hd.lift hS ?_
  unfold Machine.segmentSend
  split
  · exact .refl
  · split
    · exact .refl
    · refine .ite (.updSeg (.set_twn ?_ rfl) rfl) (.ite (.segmentFails (.streamEnds ?_ rfl) rfl)
        (.ite_step (.sendCtrl (.updSeg (.set_twn (.streamEnds ?_ rfl) rfl) rfl) rfl) fun h => .sendCtrl h rfl))
      all_goals exact .ralinSend (.streamFeed (.ite (.streamBegins .refl rfl) .refl) rfl) rfl

theorem Within.takeAccept {d : Dev} (hd : Within S a d)
    (hS : Scope.le ⟨[.mode, .posted, .tim, .img, .tbl, .que, .twn], [2, 3, 5, 6, 8, 11, 17], [F.FAB_PAIR_CTRL_TAKEOVER.off,
      F.TWN_STATUS_SUB.off, F.TWN_RESYNC_DONE.off, F.TWN_RESYNC_TOTAL.off]⟩ S) : Within S a d.takeAccept := by
  refine hd.lift hS ?_
  unfold Dev.takeAccept
  split
  · exact .refl
  · refine .setRole (.wr (.wr (.set_img (.set_tbl (.set_tim (.set_que (.set_twn (.filter_regs
      (P := fun k => !copiedReg k || storeRegs.contains (k % 0x20000000)) .refl fun k hk => ?_) rfl) rfl) rfl) rfl) rfl) rfl) rfl) rfl
    rw [Bool.or_eq_true, Bool.not_eq_true']
    refine .inl (Bool.eq_false_iff.2 fun h => ?_)
    rw [Scope.has_of_le (A := ⟨[], [2, 3, 5, 6, 8, 11], []⟩) rfl (has_of_copiedReg h)] at hk
    cases hk

theorem Within.copyCheck {d : Dev} (hd : Within S a d)
    (hS : Scope.le ⟨[.mode, .posted, .tim, .img, .que, .twn], [17], [F.IMG_WALK_STATUS_CAUSE.off, F.FAB_PAIR_CTRL_TAKEOVER.off,
      F.TWN_STATUS_SUB.off]⟩ S) :
    Within S a (d.copyCheck) := by
  refine hd.lift hS ?_
  unfold Dev.copyCheck
  split
  · exact .refl
  · exact .ite (.setRole (.set_twn .refl rfl) rfl) .refl

theorem Within.storeTake {d : Dev} {g : Segment} (hd : Within S a d)
    (hS : Scope.le ⟨[.img], [3], []⟩ S) : Within S a (d.storeTake g) := by
  refine hd.lift hS ?_
  unfold Dev.storeTake
  exact .ite .refl (.showSlots (.setSlot .refl rfl) rfl)

theorem Within.configCopied {d : Dev} {g : Segment} (hd : Within S a d)
    (hS : Scope.le ⟨[.img], [3, 4], []⟩ S) : Within S a (d.configCopied g) := by
  refine hd.lift hS ?_
  unfold Dev.configCopied
  split
  · exact .refl
  · dsimp only
    have h : Within ⟨[.img], [3, 4], []⟩ d (d.showSlots.each (List.range 17) fun p d =>
        if (if d.pierState p = 4 then
          d.wr (F.IMG_PIER_STATUS_STATE.ix p) (if d.on (F.IMG_PIER_STATUS_SERVING.ix p) then 0 else 1) else d).pierState p = 3
        then (if d.pierState p = 4 then
          d.wr (F.IMG_PIER_STATUS_STATE.ix p) (if d.on (F.IMG_PIER_STATUS_SERVING.ix p) then 0 else 1) else d)
        else (if d.pierState p = 4 then
          d.wr (F.IMG_PIER_STATUS_STATE.ix p) (if d.on (F.IMG_PIER_STATUS_SERVING.ix p) then 0 else 1) else d).setPierSlot p
            (if d.pierState p = 4 then
          d.wr (F.IMG_PIER_STATUS_STATE.ix p) (if d.on (F.IMG_PIER_STATUS_SERVING.ix p) then 0 else 1) else d).liveSlot) := by
      refine .each (.showSlots .refl rfl) (fun p hp e he => ?_)
      have h1 : Within ⟨[.img], [3, 4], []⟩ d (if e.pierState p = 4 then
        e.wr (F.IMG_PIER_STATUS_STATE.ix p) (if e.on (F.IMG_PIER_STATUS_SERVING.ix p) then 0 else 1) else e) :=
        .ite (.wr he (has_ix (List.mem_range.1 hp) rfl)) he
      exact .ite h1 (.setPierSlot h1 rfl)
    split
    · exact .each h (fun x hx e he => .wr he (has_port (snd_lt_of_mem_zipIdx_take hx) rfl))
    · exact h

theorem Within.takeSegDone {d : Dev} {n : ℕ} {crc : ℕ} (hd : Within S a d)
    (hS : Scope.le ⟨[.mode, .posted, .tim, .img, .que, .twn], [3, 4, 17], [F.FAB_PAIR_CTRL_TAKEOVER.off, F.TWN_STATUS_SUB.off,
      F.TWN_RESYNC_DONE.off]⟩ S) :
    Within S a (d.takeSegDone n crc) := by
  refine hd.lift hS ?_
  unfold Dev.takeSegDone
  split
  · exact .refl
  · split
    · exact .refl
    · split
      · exact .copyCheck (.wr (.updSeg (.configCopied (.storeTake .refl rfl) rfl) rfl) rfl) rfl
      · exact .ite (.set_twn .refl rfl) (.sendCtrl (.updSeg .refl rfl) rfl)

theorem Within.resyncCtrlRx {f : BitVec 4096} {d : Dev} (hd : Within S a d)
    (hS : Scope.le ⟨[.mode, .posted, .tim, .img, .tbl, .que, .twn], [2, 3, 4, 5, 6, 8, 10, 11, 12, 17], []⟩ S) :
    Within S a (resyncCtrlRx f d) := by
  refine hd.lift hS ?_
  unfold Machine.resyncCtrlRx
  refine .onFrame .refl ?_ rfl
  dsimp only
  split
  · exact .takeRequest .refl rfl
  · split
    · exact .takeAccept .refl rfl
    · split
      · exact .takeSegDone .refl rfl
      · split
        · exact .ite (.updSeg .refl rfl) .refl
        · split
          · exact .ite (.copyCheck (.set_twn .refl rfl) rfl) .refl
          · split
            · split
              · exact .set_twn .refl rfl
              · exact .ite (.set_twn (.copyStops .refl rfl) rfl) .refl
            · exact .ite (.ite (.set_twn (.copyStops .refl rfl) rfl) .refl) .refl

theorem Within.manifestRx {f : BitVec 4096} {d : Dev} (hd : Within S a d)
    (hS : Scope.le ⟨[.twn], [], [F.TWN_RESYNC_TOTAL.off, F.TWN_RALIN_CRC_ERR.off]⟩ S) : Within S a (manifestRx f d) := by
  refine hd.lift hS ?_
  unfold Machine.manifestRx
  exact .onFrame .refl (.ite .refl (.wr (.set_twn .refl rfl) rfl)) rfl

theorem Within.segmentRx {f : BitVec 4096} {d : Dev} (hd : Within S a d)
    (hS : Scope.le ⟨[.posted, .tim, .img, .pir, .tbl, .que, .twn, .dgn], [2, 3, 5, 6, 8, 11, 17], [F.TWN_RALIN_CRC_ERR.off]⟩ S) :
    Within S a (segmentRx f d) := by
  refine hd.lift hS ?_
  unfold Machine.segmentRx
  refine .onFrame .refl ?_ rfl
  dsimp only
  split
  · exact .refl
  · split
    · exact .refl
    · split
      · exact .updSeg (.segWrite (.streamFeed (.ite (.streamBegins .refl rfl) .refl) rfl) rfl) rfl
      · split
        · split
          · exact .segmentFails (.streamEnds (.updSeg (.segWrite (.streamFeed (.streamBegins .refl rfl) rfl) rfl) rfl) rfl) rfl
          · exact .streamEnds (.updSeg (.segWrite (.streamFeed (.streamBegins .refl rfl) rfl) rfl) rfl) rfl
        · split
          · exact .segmentFails (.streamEnds (.updSeg (.segWrite (.streamFeed .refl rfl) rfl) rfl) rfl) rfl
          · exact .streamEnds (.updSeg (.segWrite (.streamFeed .refl rfl) rfl) rfl) rfl

theorem Within.resyncRequestSend {d : Dev} (hd : Within S a d)
    (hS : Scope.le ⟨[.twn], [], []⟩ S) : Within S a (resyncRequestSend d) := by
  refine hd.lift hS ?_
  unfold Machine.resyncRequestSend
  exact .ite (.sendCtrl (.set_twn .refl rfl) rfl) .refl

theorem Within.copyAbort {cause : ℕ} {d : Dev} (hd : Within S a d)
    (hS : Scope.le ⟨[.mode, .posted, .tim, .img, .que, .twn], [17], [F.IMG_WALK_STATUS_CAUSE.off, F.FAB_PAIR_CTRL_TAKEOVER.off,
      F.TWN_STATUS_SUB.off]⟩ S) :
    Within S a (copyAbort cause d) := by
  refine hd.lift hS ?_
  unfold Machine.copyAbort
  split
  · exact .setRole (.sendCtrl (.post (.set_twn .refl rfl) rfl) rfl) rfl
  · exact .refl

theorem Within.settleComplete {d : Dev} (hd : Within S a d)
    (hS : Scope.le ⟨[.mode, .posted, .tim, .img, .que, .twn], [17], [F.IMG_WALK_STATUS_CAUSE.off, F.FAB_PAIR_CTRL_TAKEOVER.off,
      F.TWN_STATUS_SUB.off]⟩ S) :
    Within S a (settleComplete d) := by
  refine hd.lift hS ?_
  unfold Machine.settleComplete
  split
  · exact .post (.sendCtrl (.setRole (.wr .refl rfl) rfl) rfl) rfl
  · exact .refl

end Sys2Proof.Machine
end

