-- ==== Sys2Proof/Proofs/FramesPower.lean ====
section
/-! PROOF. What the model's functions may change: power, security, diagnostics and the resets.
Each has the least scope it needs, and runs within any wider one. -/

namespace Sys2Proof.Machine

variable {S : Scope} {a : Dev}

theorem Within.setDomain {d : Dev} {n : ℕ} {on : Bool} (hd : Within S a d) (hn : n < 512)
    (hS : Scope.le ⟨[], [15], []⟩ S) : Within S a (d.setDomain n on) := by
  refine hd.lift hS ?_
  unfold Dev.setDomain
  exact .wr .refl (has_ix (n := 16) (by omega) rfl)

theorem Within.domainSwitch {n : ℕ} {d : Dev} (hd : Within S a d) (hn : n < 512)
    (hS : Scope.le ⟨[.posted, .fab, .twn], [10, 15], [F.TWN_STATUS_LANES.off]⟩ S) : Within S a (Machine.domainSwitch n d) := by
  refine hd.lift hS ?_
  unfold Machine.domainSwitch
  dsimp only
  split
  · exact .refl
  · split
    · exact .setDomain .refl hn rfl
    · split
      · refine .each (.set_fab (.setDomain .refl hn rfl) rfl) (fun i hi e he => .linkGoesDown he ?_ rfl)
        have h := List.mem_of_mem_filter hi
        simp only [List.mem_cons, List.not_mem_nil, or_false] at h
        omega
      · exact .ite (.setLanes (.setDomain .refl hn rfl) rfl) (.setDomain .refl hn rfl)

theorem Within.railBelowWarning {d : Dev} (hd : Within S a d)
    (hS : Scope.le ⟨[.pwr], [], [F.PWR_STATUS_RESTORING.off]⟩ S) : Within S a (railBelowWarning d) := by
  refine hd.lift hS ?_
  unfold Machine.railBelowWarning
  exact .wr (.wr (.wr (.set_pwr .refl rfl) rfl) rfl) rfl

theorem Within.railClear {d : Dev} (hd : Within S a d)
    (hS : Scope.le ⟨[.pwr], [], [F.PWR_STATUS_BELOW_WARN.off]⟩ S) : Within S a (railClear d) := by
  refine hd.lift hS ?_
  unfold Machine.railClear
  refine .setRails ?_ rfl
  split
  · exact .wr (.wr (.set_pwr .refl rfl) rfl) rfl
  · exact .wr (.set_pwr .refl rfl) rfl

theorem Within.railNeither {d : Dev} (hd : Within S a d)
    (hS : Scope.le ⟨[.pwr], [], [F.PWR_STATUS_HOLDING.off]⟩ S) : Within S a (railNeither d) := by
  refine hd.lift hS ?_
  unfold Machine.railNeither
  exact .setRails (.wr (.wr (.set_pwr .refl rfl) rfl) rfl) rfl

theorem Within.railReading {mvs : List ℕ} {d : Dev} (hd : Within S a d)
    (hS : Scope.le ⟨[.pwr], [15], []⟩ S) : Within S a (Machine.railReading mvs d) := by
  refine hd.lift hS ?_
  unfold Machine.railReading
  exact .each .refl (fun x hx e he => (.wr (.wr (.set_pwr he rfl) (has_ix (snd_lt_of_mem_zipIdx_take hx) rfl))
    (has_ix (snd_lt_of_mem_zipIdx_take hx) rfl)))

theorem Within.railOor {n : ℕ} {d : Dev} (hd : Within S a d)
    (hS : Scope.le ⟨[.posted, .pwr], [], []⟩ S) : Within S a (railOor n d) := by
  refine hd.lift hS ?_
  unfold Machine.railOor
  exact .ite .refl (.post (.set_pwr .refl rfl) rfl)

theorem Within.setShed {d : Dev} {n : ℕ} (hd : Within S a d)
    (hS : Scope.le ⟨[], [], [F.PWR_STATUS_SHED_STEP.off, F.PWR_SHED_LOG_SPAN.off]⟩ S) : Within S a (d.setShed n) := by
  refine hd.lift hS ?_
  unfold Dev.setShed
  exact .wr (.wr (.wr (.wr .refl rfl) rfl) rfl) rfl

theorem Within.portsDown {d : Dev} {ps : List ℕ} {cause : ℕ} (hd : Within S a d) (hps : ∀ p ∈ ps, p < 128)
    (hS : Scope.le ⟨[.posted, .lpt, .que, .fab], [4], []⟩ S) : Within S a (d.portsDown ps cause) := by
  refine hd.lift hS ?_
  unfold Dev.portsDown
  exact .each .refl (fun p hp e he => .portDown he (has_port (hps p (List.mem_of_mem_filter hp)) rfl) rfl)

theorem Within.shedEffect {d : Dev} {n : ℕ} (hd : Within S a d)
    (hS : Scope.le ⟨[.mode, .posted, .tim, .img, .lpt, .que, .fab, .twn], [4, 17], [F.IMG_WALK_STATUS_STATE.off,
      F.FAB_PAIR_CTRL_TAKEOVER.off, F.TWN_STATUS_SUB.off]⟩ S) : Within S a (d.shedEffect n) := by
  refine hd.lift hS ?_
  unfold Dev.shedEffect
  split
  · exact .walkShed .refl rfl
  · split
    · exact .twinShed .refl rfl
    · split
      · exact .portsDown .refl (fun p hp => List.mem_range.1 (List.mem_of_mem_filter hp)) rfl
      · split
        · refine .portsDown .refl (fun p hp => ?_) rfl
          obtain ⟨o, _, ho⟩ := List.mem_flatMap.1 hp
          exact lt_of_mem_octetPorts ho
        · exact .refl

theorem Within.shedStepEnter {d : Dev} (hd : Within S a d)
    (hS : Scope.le ⟨[.mode, .posted, .tim, .img, .lpt, .que, .fab, .twn], [3, 4, 10, 12, 15, 17], []⟩ S) :
    Within S a (shedStepEnter d) := by
  refine hd.lift hS ?_
  unfold Machine.shedStepEnter
  split
  · exact .refl
  · exact .withMode (.shedEffect (.post (.setShed .refl rfl) rfl) rfl) rfl

theorem Within.shedStepLift {d : Dev} (hd : Within S a d)
    (hS : Scope.le ⟨[.posted, .tim, .img, .lpt, .pir, .tbl, .que, .fab, .twn, .pwr, .dgn], [3, 4, 14, 15, 17], []⟩ S) :
    Within S a (shedStepLift d) := by
  refine hd.lift hS ?_
  unfold Machine.shedStepLift
  split
  · exact .refl
  · refine .withMode ?_ rfl
    dsimp only
    split
    · exact .runFailDue (.post (.wr (.wr (.setShed .refl rfl) rfl) rfl) rfl) rfl
    · split
      · exact .walkShed (.post (.wr (.wr (.setShed .refl rfl) rfl) rfl) rfl) rfl
      · split
        · exact .setRails (.post (.wr (.wr (.setShed .refl rfl) rfl) rfl) rfl) rfl
        · exact .post (.wr (.wr (.setShed .refl rfl) rfl) rfl) rfl

theorem Within.pierClockChange {p : ℕ} {d : Dev} (hd : Within S a d)
    (hk : S.has ((F.PWR_PIER_FREQ.ix p).off % 0x20000000))
    (hS : Scope.le ⟨[.pwr], [], []⟩ S) : Within S a (Machine.pierClockChange p d) := by
  unfold Machine.pierClockChange
  exact .setRails (.wr hd hk) hS

theorem Within.takeTemp {d : Dev} {n : ℕ} {v : ℤ} (hd : Within S a d) (hn : n < 32)
    (hS : Scope.le ⟨[.pwr], [15], []⟩ S) : Within S a (d.takeTemp n v) := by
  refine hd.lift hS ?_
  unfold Dev.takeTemp
  exact .wr (.set_pwr .refl rfl) (has_ix hn rfl)

theorem Within.tempReading {eighths : List ℤ} {d : Dev} (hd : Within S a d)
    (hS : Scope.le ⟨[.posted, .pwr], [15], []⟩ S) : Within S a (Machine.tempReading eighths d) := by
  refine hd.lift hS ?_
  unfold Machine.tempReading
  dsimp only
  have h : Within ⟨[.posted, .pwr], [15], []⟩ d (d.each (eighths.take 32).zipIdx fun x d => d.takeTemp x.2 x.1) :=
    .each .refl (fun x hx e he => .takeTemp he (snd_lt_of_mem_zipIdx_take hx) rfl)
  split
  · exact .refl
  · rename_i hl
    rw [hl] at h
    rw [hl]
    exact .ite (.wr (.set_pwr h rfl) rfl) (.post (.wr (.set_pwr h rfl) rfl) rfl)

theorem Within.regulatorPoll {l : List RegReport} {d : Dev} (hd : Within S a d)
    (hS : Scope.le ⟨[.posted, .pwr], [], [F.PWR_PKG_POWER_WATTS.off]⟩ S) : Within S a (regulatorPoll l d) := by
  refine hd.lift hS ?_
  unfold Machine.regulatorPoll
  refine .wr (.each .refl (fun x _ e he => ?_)) rfl
  dsimp only
  split
  · exact .post (.when he (fun _ => (.post he rfl))) rfl
  · split
    · exact .when he (fun _ => (.post he rfl))
    · exact .post (.set_pwr (.when he (fun _ => (.post he rfl))) rfl) rfl

theorem Within.bootHalts {d : Dev} {cause : ℕ} {slot : ℕ} (hd : Within S a d)
    (hS : Scope.le ⟨[.posted], [], [F.SEC_BOOT_STATUS_PHASE.off]⟩ S) : Within S a (d.bootHalts cause slot) := by
  refine hd.lift hS ?_
  unfold Dev.bootHalts
  exact .post (.wr (.wr .refl rfl) rfl) rfl

theorem Within.bootFails {d : Dev} {tried : List BundleInfo} (hd : Within S a d)
    (hS : Scope.le ⟨[.mode, .posted, .lpt, .pir, .que, .fab, .twn, .hst, .sec], [10, 13, 16], [F.DCK_MIR_LOST.off,
      F.TWN_STATUS_LANES.off]⟩ S) :
    Within S a (d.bootFails tried) := by
  refine hd.lift hS ?_
  unfold Dev.bootFails
  split
  · exact .bootHalts .refl rfl
  · dsimp only
    split
    · exact .quarantine (.wr (.wr (.set_sec .refl rfl) rfl) rfl) rfl
    · exact .bootHalts (.wr (.set_sec .refl rfl) rfl) rfl

theorem Within.bootRuns {d : Dev} {b : BundleInfo} {failed : List BundleInfo} (hd : Within S a d)
    (hS : Scope.le ⟨[.posted, .buf, .fab, .twn, .ctl, .pwr, .sec], [7, 10, 13, 15, 16], [F.TWN_STATUS_LANES.off]⟩ S) :
    Within S a (d.bootRuns b failed) := by
  refine hd.lift hS ?_
  unfold Dev.bootRuns
  refine .post (.each (.each (.bindDefaults (.setRails (.each (.each (.each (.wr (.wr (.wr (.wr (.wr (.wr (.wr (.set_sec .refl rfl) rfl)
    rfl) rfl)
    rfl) rfl) rfl) rfl) (fun m hm e he => .startSolo he rfl)) (fun p hp e he => .wr (.startPair he rfl) (has_ix (List.mem_range.1 hp)
      rfl)))
    (fun n hn e he => .domainSwitch he ((List.mem_range.1 hn).trans (by decide)) rfl)) rfl) rfl)
    (fun n hn e he => .cxlStartTraining he (List.mem_range.1 hn) rfl)) (fun x _ e he => .post he rfl)) rfl

theorem Within.tamper {d : Dev} (hd : Within S a d)
    (hS : Scope.le ⟨[.mode, .posted, .fresh, .img, .lpt, .pir, .que, .fab, .twn, .hst], [3, 10, 11, 12, 13, 16, 17], []⟩ S) :
    Within S a (d.tamper) := by
  refine hd.lift hS ?_
  unfold Dev.tamper
  split
  · exact .refl
  · exact .quarantine (.imgLoadAbort (.postTamper .refl rfl) rfl) rfl

theorem Within.imgLoadEnd {dma : Option (List Byte)} {tamper : Bool} {d : Dev} (hd : Within S a d)
    (hS : Scope.le ⟨[.mode, .posted, .fresh, .img, .lpt, .pir, .tbl, .que, .shp, .fab, .twn, .hst, .sec], [3, 4, 8, 9, 10, 13, 16, 17],
      [F.DCK_MIR_LOST.off, F.TWN_STATUS_LANES.off]⟩ S) :
    Within S a (imgLoadEnd dma tamper d) := by
  refine hd.lift hS ?_
  unfold Machine.imgLoadEnd
  split
  · exact .refl
  · exact .loadStops .refl rfl
  · dsimp only
    split
    · exact .loadStops (.streamEnds .refl rfl) rfl
    · split
      · exact .loadFails (.streamEnds .refl rfl) rfl
      · split
        · exact .loadPasses (.streamEnds .refl rfl) rfl
        · split
          · exact .quarantine (.postTamper (.set_sec (.post (.loadOver (.streamEnds .refl rfl) rfl) rfl) rfl) rfl) rfl
          · exact .quarantine (.set_sec (.post (.loadOver (.streamEnds .refl rfl) rfl) rfl) rfl) rfl

theorem Within.bootComplete {tamperLow : Bool} {readError : BitVec 3} {d : Dev} (hd : Within S a d)
    (hS : Scope.le ⟨[.mode, .posted, .fresh, .img, .lpt, .pir, .buf, .que, .fab, .twn, .ctl, .hst, .pwr, .sec], [3, 7, 10, 11, 12, 13,
      15, 16, 17],
      []⟩ S) : Within S a (Machine.bootComplete tamperLow readError d) := by
  refine hd.lift hS ?_
  unfold Machine.bootComplete
  split
  · exact .refl
  · split
    · exact .quarantine (.wr (.wr .refl rfl) rfl) rfl
    · split
      · exact .tamper (.wr (.wr .refl rfl) rfl) rfl
      · split
        · exact .bootHalts .refl rfl
        · dsimp only
          split
          · exact .bootHalts .refl rfl
          · split
            · exact .bootHalts .refl rfl
            · split
              · exact .bootRuns .refl rfl
              · exact .bootFails .refl rfl

theorem Within.tamperAssert {d : Dev} (hd : Within S a d)
    (hS : Scope.le ⟨[.mode, .posted, .fresh, .img, .lpt, .pir, .que, .fab, .twn, .hst], [3, 10, 11, 12, 13, 16, 17], []⟩ S) :
    Within S a (tamperAssert d) := by
  refine hd.lift hS ?_
  unfold Machine.tamperAssert
  exact .tamper .refl rfl

theorem Within.secRefuse {d : Dev} {what : ℕ} {why : ℕ} {m : ℕ} (hd : Within S a d)
    (hS : Scope.le ⟨[.posted], [], []⟩ S) : Within S a (d.secRefuse what why m) := by
  refine hd.lift hS ?_
  unfold Dev.secRefuse
  exact .post .refl rfl

theorem Within.fuseStart {m : ℕ} {op : ℕ} {slot : ℕ} {d : Dev} (hd : Within S a d)
    (hS : Scope.le ⟨[.posted, .sec], [], [F.SEC_FUSE_CMD_RESULT.off]⟩ S) : Within S a (fuseStart m op slot d) := by
  refine hd.lift hS ?_
  unfold Machine.fuseStart
  dsimp only
  split
  · exact .wr (.set_sec .refl rfl) rfl
  · exact .secRefuse (.ite .refl (.wr .refl rfl)) rfl

theorem Within.blow {d : Dev} {f : FuseFields → FuseFields} (hd : Within S a d)
    (hS : Scope.le ⟨[.sec], [], []⟩ S) : Within S a (d.blow f) := by
  refine hd.lift hS ?_
  unfold Dev.blow
  exact .set_sec .refl rfl

theorem Within.fuseOpDone {d : Dev} (hd : Within S a d)
    (hS : Scope.le ⟨[.posted, .sec], [], [F.SEC_FUSE_CMD_RESULT.off]⟩ S) : Within S a (fuseOpDone d) := by
  refine hd.lift hS ?_
  unfold Machine.fuseOpDone
  split
  · exact .refl
  · exact .post (.wr (.set_sec (.blow .refl rfl) rfl) rfl) rfl

theorem Within.attestStart {m : ℕ} {d : Dev} (hd : Within S a d)
    (hS : Scope.le ⟨[.posted, .sec], [16], []⟩ S) : Within S a (Machine.attestStart m d) := by
  refine hd.lift hS ?_
  unfold Machine.attestStart
  split
  · exact .refl
  · dsimp only
    generalize (if d.mode ≠ .m11 ∧ d.rd F.SEC_BOOT_STATUS_PHASE < 5 then 2 else if d.sec.attest.isSome then 4 else 0) = why
    split
    · exact .secRefuse (.ite .refl (.wr .refl rfl)) rfl
    · exact .each (.wr (.wr (.set_sec .refl rfl) rfl) rfl) (fun x hx e he => (.wr he (has_ix (List.mem_range.1 hx) rfl)))

theorem Within.attestDone {d : Dev} (hd : Within S a d)
    (hS : Scope.le ⟨[.posted, .sec], [16], []⟩ S) : Within S a (Machine.attestDone d) := by
  refine hd.lift hS ?_
  unfold Machine.attestDone
  split
  · exact .refl
  · exact .post (.wr (.wr (.each (.set_sec .refl rfl) (fun x hx e he => (.wr he (has_ix (List.mem_range.1 hx) rfl)))) rfl) rfl) rfl

theorem Within.flashStart {m : ℕ} {cmd : ℕ} {d : Dev} (hd : Within S a d)
    (hS : Scope.le ⟨[.posted, .sec, .dgn], [17], [F.SEC_FLASH_CMD_STATE.off]⟩ S) : Within S a (flashStart m cmd d) := by
  refine hd.lift hS ?_
  unfold Machine.flashStart
  dsimp only
  split
  · exact .wr (.set_sec (.ite (.streamFeed (.streamBegins .refl rfl) rfl) .refl) rfl) rfl
  · exact .secRefuse (.ite .refl (.wr .refl rfl)) rfl

theorem Within.flashMap {d : Dev} {ofs : ℕ} {l : List Byte} {f : Byte → Byte → Byte} (hd : Within S a d)
    (hS : Scope.le ⟨[.sec], [], []⟩ S) : Within S a (d.flashMap ofs l f) := by
  refine hd.lift hS ?_
  unfold Dev.flashMap
  exact .set_sec .refl rfl

theorem Within.flashEnds {d0 : Dev} {op : FlashOp} {st : ℕ} (hd0 : Within S a d0)
    (hS : Scope.le ⟨[.posted, .sec], [17], [F.SEC_FLASH_CMD_STATE.off]⟩ S) : Within S a (d0.flashEnds op st) := by
  refine hd0.lift hS ?_
  unfold Dev.flashEnds
  exact .post (.wr (.set_sec (.streamStops .refl rfl) rfl) rfl) rfl

theorem Within.flashScramble {d : Dev} {op : FlashOp} (hd : Within S a d)
    (hS : Scope.le ⟨[.fresh, .sec], [], []⟩ S) : Within S a (d.flashScramble op) := by
  refine hd.lift hS ?_
  unfold Dev.flashScramble
  exact .ite .refl (.set_fresh_sec .refl rfl rfl)

theorem Within.flashAbort {d : Dev} (hd : Within S a d)
    (hS : Scope.le ⟨[.posted, .fresh, .sec], [17], [F.SEC_FLASH_CMD_STATE.off]⟩ S) : Within S a (d.flashAbort) := by
  refine hd.lift hS ?_
  unfold Dev.flashAbort
  split
  · exact .refl
  · exact .flashEnds (.flashScramble .refl rfl) rfl

theorem Within.flashOpDone {dma : Option (List Byte)} {d : Dev} (hd : Within S a d)
    (hS : Scope.le ⟨[.posted, .hostMem, .fresh, .sec], [17], [F.SEC_FLASH_CMD_STATE.off]⟩ S) : Within S a (flashOpDone dma d) := by
  refine hd.lift hS ?_
  unfold Machine.flashOpDone
  split
  · exact .refl
  · split
    · exact .flashEnds (.flashMap .refl rfl) rfl
    · split
      · exact .flashEnds (.ite (.flashScramble .refl rfl) .refl) rfl
      · rename_i dma _
        split
        · split
          · rename_i h3
            split
            · exact .flashEnds (.snd h3 (.streamEnds .refl rfl)) rfl
            · exact .flashEnds (.dma (.snd h3 (.streamEnds .refl rfl)) rfl) rfl
        · exact .flashEnds (.flashMap .refl rfl) rfl

theorem Within.dgnRefuse {d : Dev} {what : ℕ} {why : ℕ} {m : ℕ} (hd : Within S a d)
    (hS : Scope.le ⟨[.posted], [], []⟩ S) : Within S a (d.dgnRefuse what why m) := by
  refine hd.lift hS ?_
  unfold Dev.dgnRefuse
  exact .post .refl rfl

theorem Within.cuArm {m u : ℕ} {data : Word} {d : Dev} (hd : Within S a d)
    (hctrl : S.has ((F.DGN_CU_CTRL.ix u).off % 0x20000000)) (hstatus : S.has ((F.DGN_CU_STATUS.ix u).off % 0x20000000))
    (hS : Scope.le ⟨[.posted, .dgn], [], []⟩ S) : Within S a (Machine.cuArm m u data d) := by
  unfold Machine.cuArm
  refine .ite hd ?_
  dsimp only
  exact .ite (.dgnRefuse hd (Scope.le_trans rfl hS)) (.wr (.wr (.setUnit hd (Scope.le_trans rfl hS)) hctrl) hstatus)

theorem Within.bulkStops {d : Dev} (hd : Within S a d)
    (hS : Scope.le ⟨[.lastRead, .lastAbort, .posted, .tbl, .twn], [17], [F.TBL_TAE_SEQ_SEQ.off, F.TBL_TAE_OPS.off, F.TBL_TAE_FAIL.off]⟩
      S) :
    Within S a (d.bulkStops) := by
  refine hd.lift hS ?_
  unfold Dev.bulkStops
  split
  · exact .mirrorWaiting (.taeEnd (.streamStops .refl rfl) rfl) rfl
  · exact .refl

theorem Within.countBer {d : Dev} (hd : Within S a d)
    (hS : Scope.le ⟨[.fresh], [], [F.DGN_CW_BER_FE_TM.off, F.DGN_CW_BER_TM_FE.off]⟩ S) : Within S a (d.countBer) := by
  refine hd.lift hS ?_
  unfold Dev.countBer
  exact .bumpN (.bumpN (.set_fresh (.takeFree .refl rfl) rfl) rfl) rfl

theorem Within.streamAbort {d : Dev} {x : CheckUnit} (hd : Within S a d)
    (hS : Scope.le ⟨[.lastRead, .lastAbort, .posted, .fresh, .img, .tbl, .twn, .sec], [3, 6, 16, 17], []⟩ S) :
    Within S a (d.streamAbort x) := by
  refine hd.lift hS ?_
  unfold Dev.streamAbort
  split
  · exact .loadStops .refl rfl
  · split
    · exact .segmentFails .refl rfl
    · split
      · exact .bulkStops .refl rfl
      · split
        · split
          · exact .countBer (.streamStops (.wr .refl rfl) rfl) rfl
          · exact .streamStops .refl rfl
        · split
          · split
            · exact .ite (.flashEnds .refl rfl) .refl
            · exact .refl
          · exact .refl

theorem Within.noteStream {d : Dev} {x : CheckUnit} {l : List Byte} (hd : Within S a d)
    (hS : Scope.le ⟨[.img], [], []⟩ S) : Within S a (d.noteStream x l) := by
  refine hd.lift hS ?_
  unfold Dev.noteStream
  exact .ite (.set_img .refl rfl) .refl

theorem Within.cuStreamEnd {u : ℕ} {given : List Byte} {complete : Bool} {d : Dev} (hd : Within S a d) (hu : u < 8)
    (hS : Scope.le ⟨[.lastRead, .lastAbort, .posted, .fresh, .img, .tbl, .twn, .sec], [3, 6, 16, 17], []⟩ S) :
    Within S a (cuStreamEnd u given complete d) := by
  refine hd.lift hS ?_
  unfold Machine.cuStreamEnd
  dsimp only
  split
  · exact .refl
  · split
    · exact .ite (.unitIncomplete .refl hu rfl) .refl
    · split
      · exact .refl
      · split
        · exact .streamAbort (.unitCompares .refl hu rfl) rfl
        · exact .noteStream (.unitCompares .refl hu rfl) rfl

theorem Within.tcamParity {d : Dev} {pier : ℕ} {pipe : ℕ} {row : ℕ} (hd : Within S a d)
    (hS : Scope.le ⟨[.posted, .pir, .twn], [], [F.TWN_EVIDENCE.off]⟩ S) : Within S a (d.tcamParity pier pipe row) := by
  refine hd.lift hS ?_
  unfold Dev.tcamParity
  exact .post (.evidence (.set_pir .refl rfl) rfl) rfl

theorem Within.patrolFinds {d : Dev} {f : ErrorFinder} {p : PatrolPlace} (hd : Within S a d) (hm : ∀ n w, p = .other n w → n < 4)
    (hS : Scope.le ⟨[.posted, .fresh, .tim, .img, .lpt, .pir, .tbl, .que, .fab, .twn, .ctl, .pwr, .dgn], [3, 4, 5, 13, 17],
      [F.TBL_POISON_LOG_INDEX.off, F.TBL_ECC_UNCORR.off, F.TWN_EVIDENCE.off, (F.HST_DROP_CNT.ix Drop.pierRetired).off]⟩ S) :
    Within S a (d.patrolFinds f p) := by
  refine hd.lift hS ?_
  unfold Dev.patrolFinds
  split
  · exact .poisonEntry .refl rfl
  · exact .tcamParity .refl rfl
  · rename_i pier
    exact .pierFault (.takeFree .refl rfl) pier.isLt rfl
  · rename_i memory _
    split
    · exact .evidence (.lockstepMismatch .refl (hm _ _ rfl) rfl) rfl
    · exact .refl

theorem Within.patrolStep {d : Dev} (hd : Within S a d)
    (hS : Scope.le ⟨[.dgn], [], [F.DGN_PATROL_STATUS_ROUNDS.off]⟩ S) : Within S a (d.patrolStep) := by
  refine hd.lift hS ?_
  unfold Dev.patrolStep
  exact .ite (.set_dgn .refl rfl) (.wr (.set_dgn .refl rfl) rfl)

theorem Within.patrolNote {d : Dev} {x : PatrolError} (hd : Within S a d)
    (hS : Scope.le ⟨[.dgn], [], [F.DGN_PATROL_STATUS_ROUNDS.off]⟩ S) : Within S a (d.patrolNote x) := by
  refine hd.lift hS ?_
  unfold Dev.patrolNote
  exact .ite (.patrolStep (.set_dgn .refl rfl) rfl) .refl

theorem Within.errorMet {d : Dev} {x : PatrolError} (hd : Within S a d) (hm : ∀ n w, x.place = .other n w → n < 4)
    (hS : Scope.le ⟨[.posted, .fresh, .tim, .img, .lpt, .pir, .tbl, .que, .fab, .twn, .ctl, .pwr, .dgn], [3, 4, 5, 13, 17],
      [F.TBL_POISON_LOG_INDEX.off, F.TBL_ECC_UNCORR.off, F.TBL_ECC_CORR.off, F.TWN_EVIDENCE.off, (F.HST_DROP_CNT.ix
        Drop.pierRetired).off]⟩ S) :
    Within S a (d.errorMet x) := by
  refine hd.lift hS ?_
  unfold Dev.errorMet
  split
  · dsimp only
    split
    · exact .correctEntry (.ite (.bump .refl rfl) .refl) rfl
    · exact .ite (.bump .refl rfl) .refl
  · exact .patrolFinds .refl hm rfl

theorem Within.patrolRead {e : Option PatrolError} {d : Dev} (hd : Within S a d)
    (hS : Scope.le ⟨[.posted, .fresh, .tim, .img, .lpt, .pir, .tbl, .que, .fab, .twn, .ctl, .pwr, .dgn], [3, 4, 5, 6, 12, 13, 14, 17],
      []⟩ S) :
    Within S a (Machine.patrolRead e d) := by
  refine hd.lift hS ?_
  unfold Machine.patrolRead
  split
  · exact .refl
  split
  · rename_i x
    split
    · exact .refl
    · rename_i h
      exact .errorMet (.patrolNote .refl rfl) (fun _ _ hx => other_lt_of_errorFound (Bool.not_eq_false _ ▸ h) hx) rfl
  · exact .ite .refl (.patrolStep .refl rfl)

theorem Within.bistStart {m : ℕ} {data : Word} {d : Dev} (hd : Within S a d)
    (hS : Scope.le ⟨[.posted, .dgn], [3], [F.DGN_STATUS_BIST_BUSY.off, F.DGN_BIST_CMD_PIER.off, F.DGN_BIST_STATUS_PIER.off]⟩ S) :
    Within S a (bistStart m data d) := by
  refine hd.lift hS ?_
  unfold Machine.bistStart
  split
  · exact .refl
  · dsimp only
    split
    · exact .dgnRefuse (.wr .refl rfl) rfl
    · exact .bistBegin (.wr .refl rfl) rfl

theorem Within.marchRows {d : Dev} (hd : Within S a d)
    (hS : Scope.le ⟨[.fresh, .pir], [], []⟩ S) : Within S a (d.marchRows) := by
  refine hd.lift hS ?_
  unfold Dev.marchRows
  exact .each .refl (fun x _ e he => (.each he (fun x1 _ e1 he1 => (.each he1 (fun x2 _ e2 he2 => (.set_fresh_pir (.set_fresh (.takeFree
      he2 rfl) rfl) rfl rfl))))))

theorem Within.scrambleTables {d0 : Dev} (hd0 : Within S a d0)
    (hS : Scope.le ⟨[.fresh, .tbl], [], []⟩ S) : Within S a (d0.scrambleTables) := by
  refine hd0.lift hS ?_
  unfold Dev.scrambleTables
  exact .each (.set_fresh_tbl .refl rfl rfl) (fun x _ e he => (.each he (fun x1 _ e1 he1 => (.putEntry (.takeFree he1 rfl) rfl))))

theorem Within.maintGo {d : Dev} (hd : Within S a d)
    (hS : Scope.le ⟨[.fresh, .pir, .tbl, .dgn], [17], []⟩ S) : Within S a (d.maintGo) := by
  refine hd.lift hS ?_
  unfold Dev.maintGo
  dsimp only
  split
  · refine .streamBegins ?_ rfl
    split
    · exact .scrambleTables (.ite (.marchRows (.set_dgn .refl rfl) rfl) (.set_dgn .refl rfl)) rfl
    · exact .ite (.marchRows (.set_dgn .refl rfl) rfl) (.set_dgn .refl rfl)
  · split
    · exact .scrambleTables (.ite (.marchRows (.set_dgn .refl rfl) rfl) (.set_dgn .refl rfl)) rfl
    · exact .ite (.marchRows (.set_dgn .refl rfl) rfl) (.set_dgn .refl rfl)

theorem Within.maintAfter {d : Dev} {r : BistRun} {pass : Bool} (hd : Within S a d)
    (hS : Scope.le ⟨[.fresh, .pir, .tbl, .dgn], [3, 17], []⟩ S) : Within S a (d.maintAfter r pass) := by
  refine hd.lift hS ?_
  unfold Dev.maintAfter
  split
  · exact .refl
  · dsimp only
    split
    · exact .maintNext (.set_dgn .refl rfl) rfl
    · exact .maintGo (.set_dgn .refl rfl) rfl

theorem Within.bistDone {pass : Bool} {d : Dev} (hd : Within S a d)
    (hS : Scope.le ⟨[.posted, .fresh, .img, .lpt, .pir, .tbl, .que, .fab, .twn, .pwr, .dgn], [3, 4, 17], [F.TWN_EVIDENCE.off,
      (F.HST_DROP_CNT.ix Drop.pierRetired).off]⟩ S) :
    Within S a (bistDone pass d) := by
  refine hd.lift hS ?_
  unfold Machine.bistDone
  split
  · exact .refl
  · dsimp only
    split
    · exact .maintAfter (.runFailDue (.post (.pierReady (.wr (.wr (.wr (.set_dgn .refl rfl) rfl) rfl) rfl) rfl) rfl) rfl) rfl
    · split
      · exact .setRails (.wrIx (.post (.evidence (.wr (.wr (.wr (.set_dgn .refl rfl) rfl) rfl) rfl) rfl) rfl) rfl) rfl
      · exact .maintAfter (.retirePier (.post (.evidence (.wr (.wr (.wr (.set_dgn .refl rfl) rfl) rfl) rfl) rfl) rfl) rfl) rfl

theorem Within.recalStart {m : ℕ} {data : Word} {d : Dev} (hd : Within S a d)
    (hS : Scope.le ⟨[.posted, .dgn], [], [F.DGN_RECAL_CMD_LANE.off]⟩ S) : Within S a (recalStart m data d) := by
  refine hd.lift hS ?_
  unfold Machine.recalStart
  split
  · exact .refl
  · dsimp only
    split
    · split
      · exact .set_dgn (.wr (.wr .refl rfl) rfl) rfl
      · exact .dgnRefuse (.wr (.wr .refl rfl) rfl) rfl
    · split
      · exact .set_dgn (.wr (.wr .refl rfl) rfl) rfl
      · exact .dgnRefuse (.wr (.wr .refl rfl) rfl) rfl

theorem Within.recalDone {d : Dev} (hd : Within S a d)
    (hS : Scope.le ⟨[.posted, .dgn], [], []⟩ S) : Within S a (recalDone d) := by
  refine hd.lift hS ?_
  unfold Machine.recalDone
  split
  · exact .refl
  · exact .post (.set_dgn .refl rfl) rfl

theorem Within.setCwFails {d : Dev} {dir : ℕ} {n : ℕ} (hd : Within S a d)
    (hS : Scope.le ⟨[.dgn], [], []⟩ S) : Within S a (d.setCwFails dir n) := by
  refine hd.lift hS ?_
  unfold Dev.setCwFails
  exact .set_dgn .refl rfl

theorem Within.causewayBad {d : Dev} {dir : ℕ} (hd : Within S a d)
    (hS : Scope.le ⟨[.posted, .fresh, .twn], [], [F.TWN_EVIDENCE.off, F.DGN_CW_UNCORR.off]⟩ S) : Within S a (d.causewayBad dir) := by
  refine hd.lift hS ?_
  unfold Dev.causewayBad
  exact .post (.evidence (.takeFree (.bump .refl rfl) rfl) rfl) rfl

theorem Within.causewayError {fromFe : Bool} {kind : CausewayKind} {d : Dev} (hd : Within S a d)
    (hS : Scope.le ⟨[.posted, .fresh, .twn, .dgn], [12, 17], []⟩ S) : Within S a (causewayError fromFe kind d) := by
  refine hd.lift hS ?_
  unfold Machine.causewayError
  dsimp only
  split
  · split
    · exact .refl
    · split
      · exact .bump (.setCwFails .refl rfl) rfl
      · exact .bump (.causewayBad (.setCwFails .refl rfl) rfl) rfl
      · split
        · exact .bump (.causewayBad (.setCwFails .refl rfl) rfl) rfl
        · exact .post (.wr (.set_dgn (.causewayBad (.setCwFails .refl rfl) rfl) rfl) rfl) rfl
  · split
    · exact .refl
    · split
      · exact .bump (.setCwFails .refl rfl) rfl
      · exact .bump (.causewayBad (.setCwFails .refl rfl) rfl) rfl
      · split
        · exact .bump (.causewayBad (.setCwFails .refl rfl) rfl) rfl
        · exact .post (.wr (.set_dgn (.causewayBad (.setCwFails .refl rfl) rfl) rfl) rfl) rfl

theorem Within.cwTestEnable {m : ℕ} {data : Word} {d : Dev} (hd : Within S a d)
    (hS : Scope.le ⟨[.posted, .fresh, .dgn], [17], []⟩ S) : Within S a (cwTestEnable m data d) := by
  refine hd.lift hS ?_
  unfold Machine.cwTestEnable
  split
  · exact .dgnRefuse .refl rfl
  · dsimp only
    split
    · exact .streamBegins (.wr (.wr .refl rfl) rfl) rfl
    · split
      · exact .countBer (.streamStops (.wr (.wr .refl rfl) rfl) rfl) rfl
      · exact .wr (.wr .refl rfl) rfl

theorem Within.maintTestStart {m : ℕ} {data : Word} {d : Dev} (hd : Within S a d)
    (hS : Scope.le ⟨[.posted, .fresh, .pir, .tbl, .dgn], [3, 17], []⟩ S) : Within S a (maintTestStart m data d) := by
  refine hd.lift hS ?_
  unfold Machine.maintTestStart
  split
  · exact .refl
  · split
    · exact .dgnRefuse .refl rfl
    · split
      · exact .dgnRefuse .refl rfl
      · dsimp only
        split
        · exact .bistBegin (.set_dgn (.wr (.wr .refl rfl) rfl) rfl) rfl
        · exact .maintGo (.set_dgn (.wr (.wr .refl rfl) rfl) rfl) rfl

theorem Within.maintTestDone {pass : BitVec 8} {d : Dev} (hd : Within S a d)
    (hS : Scope.le ⟨[.posted, .fresh, .pir, .tbl, .dgn], [17], []⟩ S) : Within S a (maintTestDone pass d) := by
  refine hd.lift hS ?_
  unfold Machine.maintTestDone
  split
  · exact .refl
  · refine .post (.wr ?_ rfl) rfl
    split
    · exact .countBer (.streamStops (.ite (.maintGo .refl rfl) .refl) rfl) rfl
    · exact .ite (.maintGo .refl rfl) .refl

theorem Within.pulse {d : Dev} {n : Nat} {f : Dev → Dev} (hd : Within S a d) (hf : ∀ e, Within S a e → Within S a (f e))
    (hS : Scope.le ⟨[.fresh], [], []⟩ S) : Within S a (d.pulse n f) := by
  exact .ite hd (.ite (hf _ hd) (.ite (hf _ (hd.takeFlip hS)) (hd.takeFlip hS)))

theorem Within.fuseStops {d : Dev} (hd : Within S a d)
    (hS : Scope.le ⟨[.fresh, .sec], [], []⟩ S) : Within S a (d.fuseStops) := by
  refine hd.lift hS ?_
  unfold Dev.fuseStops
  split
  · exact .refl
  · exact .blow (.takeFlip .refl rfl) rfl

theorem Within.opsStop {d : Dev} (hd : Within S a d)
    (hS : Scope.le ⟨[.fresh, .sec], [], []⟩ S) : Within S a (d.opsStop) := by
  refine hd.lift hS ?_
  unfold Dev.opsStop
  refine .fuseStops ?_ rfl
  split
  · exact .flashScramble .refl rfl
  · exact .refl

theorem Within.underPor {d : Dev} {cause : Fld} {f : Dev → Dev} (hd : Within S a d) (hf : Within S a (f d))
    (hk : S.has (cause.off % 0x20000000)) : Within S a (d.underPor cause f) := .ite (.ite (hd.wr hk) hd) hf

/-- A write of SYS_RESET that is refused resets nothing: by another master than the host, in M10 or in M11 (R437). -/
theorem Within.secSysReset {m : ℕ} {d : Dev} (hd : Within S a d) (hm : m ≠ 6 ∨ d.mode = .m10 ∨ d.mode = .m11)
    (hS : Scope.le ⟨[.posted], [], []⟩ S) : Within S a (Machine.secSysReset m d) := by
  unfold Machine.secSysReset
  split
  · exact .secRefuse hd hS
  · rename_i h
    rw [if_pos (hm.resolve_left (not_not_intro (not_not.1 h)))]
    exact .secRefuse hd hS

theorem Within.leaveM0 {d : Dev} (hd : Within S a d)
    (hS : Scope.le ⟨[.mode], [], [F.TIM_CTRL_SRC.off]⟩ S) : Within S a (d.leaveM0) := by
  refine hd.lift hS ?_
  unfold Dev.leaveM0
  exact .ite .refl (.wr (.set_mode .refl rfl) rfl)

theorem Within.porRelease {d : Dev} {straps : BitVec 13} {mvs : List ℕ} (hd : Within S a d)
    (hS : Scope.le ⟨[.mode, .pwr, .sec], [15], [F.GLB_STRAP.off, F.TIM_CTRL_SRC.off]⟩ S) : Within S a (d.porRelease straps mvs) := by
  refine hd.lift hS ?_
  unfold Dev.porRelease
  dsimp only
  split
  · exact .leaveM0 (.railReading (.wr .refl rfl) rfl) rfl
  · exact .set_sec (.railReading (.wr .refl rfl) rfl) rfl

theorem Within.resetRelease {straps : BitVec 13} {testEn : Bool} {mvs : List ℕ} {d : Dev} (hd : Within S a d)
    (hS : Scope.le ⟨[.mode, .pwr, .sec], [15], [F.GLB_STRAP.off, F.TIM_CTRL_SRC.off]⟩ S) :
    Within S a (resetRelease straps testEn mvs d) := by
  refine hd.lift hS ?_
  unfold Machine.resetRelease
  split
  · exact .refl
  · split
    · exact .set_sec .refl rfl
    · exact .ite (.leaveM0 .refl rfl) (.porRelease .refl rfl)

theorem Within.testEnRelease {straps : BitVec 13} {mvs : List ℕ} {d : Dev} (hd : Within S a d)
    (hS : Scope.le ⟨[.mode, .pwr, .sec], [15], [F.GLB_STRAP.off, F.TIM_CTRL_SRC.off]⟩ S) : Within S a (testEnRelease straps mvs d) := by
  refine hd.lift hS ?_
  unfold Machine.testEnRelease
  split
  · dsimp only
    split
    · exact .porRelease (.set_sec .refl rfl) rfl
    · exact .leaveM0 (.set_sec .refl rfl) rfl
  · exact .refl

theorem Within.supplyMonitorsInRange {d : Dev} (hd : Within S a d)
    (hS : Scope.le ⟨[.mode, .sec], [], [F.TIM_CTRL_SRC.off]⟩ S) : Within S a (supplyMonitorsInRange d) := by
  refine hd.lift hS ?_
  unfold Machine.supplyMonitorsInRange
  exact .ite (.leaveM0 (.set_sec .refl rfl) rfl) .refl

theorem Within.pf0Aborts {d : Dev} (hd : Within S a d)
    (hS : Scope.le ⟨[.posted, .fresh, .img, .sec], [17], [F.IMG_STATUS_LOAD_BUSY.off, F.IMG_LOAD_STATUS_SECTION.off,
      F.IMG_LOAD_PROGRESS_BYTES.off, F.SEC_FLASH_CMD_STATE.off]⟩ S) :
    Within S a (d.pf0Aborts) := by
  refine hd.lift hS ?_
  unfold Dev.pf0Aborts
  exact .flashAbort (.imgLoadAbort .refl rfl) rfl

theorem Within.pcieReset {d : Dev} (hd : Within S a d)
    (hS : Scope.le ⟨[.posted, .fresh, .img, .pir, .que, .ctl, .hst, .sec], [1, 3, 13, 14, 16, 17], []⟩ S) :
    Within S a d.pcieReset := by
  refine hd.lift hS ?_
  unfold Dev.pcieReset
  exact .wr (.setLink (.foldl_masterReset (.settle (.pf0Aborts (.disablePf (.disablePf .refl rfl) rfl) rfl) rfl) (by decide) rfl) rfl) rfl

theorem Within.perstNAssert {lowNs : ℕ} {d : Dev} (hd : Within S a d)
    (hS : Scope.le ⟨[.posted, .fresh, .img, .pir, .que, .ctl, .hst, .sec], [1, 3, 13, 14, 16, 17], []⟩ S) :
    Within S a (perstNAssert lowNs d) := by
  refine hd.lift hS ?_
  unfold Machine.perstNAssert
  exact .pulse .refl (fun e he => (.underPor he (.pcieReset he rfl) rfl)) rfl

theorem Within.functionLevelReset {pf : ℕ} {d : Dev} (hd : Within S a d) (hpf : pf < 2)
    (hS : Scope.le ⟨[.posted, .fresh, .img, .pir, .que, .ctl, .hst, .sec], [1, 3, 13, 14, 16, 17], []⟩ S) :
    Within S a (Machine.functionLevelReset pf d) := by
  refine hd.lift hS ?_
  unfold Machine.functionLevelReset
  refine .ite .refl (.wr (.masterReset (.ite (.pf0Aborts (.disablePf .refl rfl) rfl) (.settle (.disablePf .refl rfl) rfl)) (by omega)
    rfl) ?_)
  split <;> rfl

theorem Within.ctrlRefuse {d : Dev} {m : ℕ} {what : ℕ} (hd : Within S a d)
    (hS : Scope.le ⟨[.posted], [], []⟩ S) : Within S a (d.ctrlRefuse m what) := by
  refine hd.lift hS ?_
  unfold Dev.ctrlRefuse
  exact .post .refl rfl

theorem Within.fwdEn {m : ℕ} {d : Dev} (hd : Within S a d)
    (hS : Scope.le ⟨[.mode, .posted, .tim, .img, .que, .twn], [17], [F.GLB_CTRL_FWD_EN.off, F.IMG_WALK_STATUS_CAUSE.off,
      F.FAB_PAIR_CTRL_TAKEOVER.off, F.TWN_STATUS_SUB.off]⟩ S) :
    Within S a (fwdEn m d) := by
  refine hd.lift hS ?_
  unfold Machine.fwdEn
  split
  · exact .refl
  · split
    · exact .ctrlRefuse .refl rfl
    · dsimp only
      split
      · exact .enterTwin (.wr .refl rfl) rfl
      · exact .withMode (.setMode (.wr .refl rfl) rfl) rfl

theorem Within.maintReq {m : ℕ} {alsoFwd : Bool} {d : Dev} (hd : Within S a d)
    (hS : Scope.le ⟨[.mode, .posted, .tim, .img, .que, .twn], [17], [F.GLB_CTRL_MAINT_REQ.off, F.IMG_WALK_STATUS_CAUSE.off,
      F.FAB_PAIR_CTRL_TAKEOVER.off, F.TWN_STATUS_SUB.off]⟩ S) :
    Within S a (maintReq m alsoFwd d) := by
  refine hd.lift hS ?_
  unfold Machine.maintReq
  split
  · dsimp only
    split
    · exact .ctrlRefuse (.ite .refl (.requestFlush (.wr .refl rfl) rfl)) rfl
    · exact .ite .refl (.requestFlush (.wr .refl rfl) rfl)
  · exact .ite (.fwdEn (.ctrlRefuse .refl rfl) rfl) (.ctrlRefuse .refl rfl)

theorem Within.m10EntryComplete {d : Dev} (hd : Within S a d)
    (hS : Scope.le ⟨[.mode, .posted, .fresh, .lpt, .pir, .buf, .que, .dck, .hst], [4, 7, 14], [F.QUE_FLUSH_DROP.off, F.DCK_MIR_LOST.off]⟩
      S) :
    Within S a (m10EntryComplete d) := by
  refine hd.lift hS ?_
  unfold Machine.m10EntryComplete
  split
  · exact .settle (.lowCheck (.emptyBuffers (.clearPiers (.withMode (.setMode .refl rfl) rfl) rfl) rfl) rfl) rfl
  · exact .refl

theorem Within.glbLockSet {d : Dev} (hd : Within S a d)
    (hS : Scope.le ⟨[], [], [F.GLB_LOCK_LOCK.off]⟩ S) : Within S a (glbLockSet d) := by
  refine hd.lift hS ?_
  unfold Machine.glbLockSet
  exact .wr .refl rfl

end Sys2Proof.Machine
end

