-- ==== Sys2Proof/Proofs/FramesBus.lean ====
section
/-! PROOF. What the model's functions may change: register accesses, timed actions and mirror records.
Each has the least scope it needs, and runs within any wider one. -/

namespace Sys2Proof.Machine

variable {S : Scope} {a : Dev}

theorem Within.store {d : Dev} {r : RegAt} {data : ℕ} (hd : Within S a d) (hk : S.has (r.off % 0x20000000)) :
    Within S a (d.store r data) := .setReg hd (has_regKey hk)

theorem Within.writeGlb {off m : ℕ} {r : RegAt} {data : Word} {d : Dev} (hd : Within S a d) (hr : regAt off = some r)
  (hb : blockOf off = 1)
    (hS : Scope.le (blockScope 1) S) : Within S a (d.writeGlb m r data) := by
  refine hd.lift hS ?_
  have hk := has_blockScope hr hb rfl
  unfold Dev.writeGlb
  exact .ite (.ite (.maintReq .refl rfl) (.when .refl fun _ => .fwdEn .refl rfl))
    (.ite (.when .refl fun _ => .glbLockSet .refl rfl) (.store .refl hk))

theorem Within.writeTim {off m : ℕ} {r : RegAt} {data : Word} {d : Dev} (hd : Within S a d) (hr : regAt off = some r)
  (hb : blockOf off = 2)
    (hS : Scope.le (blockScope 2) S) : Within S a (d.writeTim m r data) := by
  refine hd.lift hS ?_
  have hk := has_blockScope hr hb rfl
  unfold Dev.writeTim
  exact .ite (.srcSelect .refl rfl) (.ite (.corrWrite .refl rfl) (.ite (.wr .refl rfl) (.ite (.setStaging .refl rfl)
    (.ite (.setStaging .refl rfl) (.ite (.ite (.taArm .refl rfl) (.ite (.taCancel .refl rfl) .refl))
    (.ite (.when (.store .refl hk) fun _ => .syncLoadArm (.store .refl hk) rfl) (.store .refl hk)))))))

theorem Within.writeImg {off m : ℕ} {r : RegAt} {data : Word} {d : Dev} (hd : Within S a d) (hr : regAt off = some r)
  (hb : blockOf off = 3)
    (hS : Scope.le (blockScope 3) S) : Within S a (d.writeImg m r data) := by
  refine hd.lift hS ?_
  have hk := has_blockScope hr hb rfl
  unfold Dev.writeImg
  exact .ite (.ite (.imgLoadStart .refl rfl) (.ite (.imgLoadAbort .refl rfl) .refl)) (.ite (.mirroredWrite .refl (.store .refl hk) rfl)
    (.ite (.ite (.walkStart .refl rfl) (.ite (.walkAbandon .refl rfl) (.ite (.walkResume .refl rfl) .refl)))
    (.ite (.ite (.pierRetireCmd .refl rfl) (.ite (.pierRestoreCmd .refl rfl) .refl)) (.store .refl hk))))

theorem Within.lptCtrl {p : ℕ} {data : Word} {d : Dev} (hd : Within S a d) (hp : p < 128)
    (hS : Scope.le ⟨[.posted, .lpt, .que, .fab], [4], []⟩ S) : Within S a (d.lptCtrl p data) := by
  refine hd.lift hS ?_
  unfold Dev.lptCtrl
  have h1 : Within ⟨[.posted, .lpt, .que, .fab], [4], []⟩ d (d.wr (F.LPT_CTRL_AN_EN.port p) (bits data 4 4)) := .wr .refl (has_port hp
    rfl)
  have h2 : ∀ c : Bool, Within ⟨[.posted, .lpt, .que, .fab], [4], []⟩ d ((d.wr (F.LPT_CTRL_AN_EN.port p) (bits data 4 4)).when c
      (·.wr (F.LPT_CTRL_FLOW.port p) (bits data 1 0))) := fun _ => .when h1 fun _ => .wr h1 (has_port hp rfl)
  have h3 := Within.when (c := bitOn data 8) (.adminUpWrite (up := bitOn data 5) (h2 (bits data 1 0 != 3)) (has_port hp rfl) (has_port hp
    rfl) rfl) fun _ =>
    .lptCntClr (.adminUpWrite (h2 _) (has_port hp rfl) (has_port hp rfl) rfl) hp rfl
  exact .when h3 fun _ => .txtsPop h3 rfl

theorem Within.preemptWrite {p : ℕ} {r : RegAt} {data : Word} {d : Dev} (hd : Within S a d) (hp : p < 128)
    (hk : S.has (r.off % 0x20000000)) (hv : S.spans F.LPT_PREEMPT_VERIFY_STATE.off 0x10000 128) : Within S a (d.preemptWrite p r data) :=
      by
  unfold Dev.preemptWrite
  exact .ite (.ite (.store hd hk) (.wr (.store hd hk) (has_port hp hv))) (.wr (.store hd hk) (has_port hp hv))

theorem Within.writeLpt {off m : ℕ} {r : RegAt} {data : Word} {d : Dev} (hd : Within S a d) (hr : regAt off = some r)
  (hb : blockOf off = 4)
    (hS : Scope.le (blockScope 4) S) : Within S a (d.writeLpt m r data) := by
  refine hd.lift hS ?_
  have hk := has_blockScope hr hb rfl
  unfold Dev.writeLpt
  have hp := win_lt_port hr hb
  exact .ite (.lptCtrl .refl hp rfl) (.ite (.wr .refl (has_port hp rfl))
    (.ite (.when (.store .refl hk) fun _ => .gclCommit (.store .refl hk) (has_port hp rfl) rfl) (.ite (.preemptWrite .refl hp hk rfl)
    (.ite (.when (.store .refl hk) fun _ => .wr (.store .refl hk) (has_port hp rfl))
    (.ite (.ite (.msecSaInstall .refl rfl) (.ite (.msecSaRetire .refl hp rfl) .refl)) (.ite (.setReg .refl hk)
    (.ite (.laneMapWrite .refl (has_port hp rfl) (has_port hp rfl) rfl) (.ite (.laneMapWrite .refl (has_port hp rfl) (has_port hp rfl)
      rfl) (.store .refl hk)))))))))

theorem Within.writePier {m p : ℕ} {r : RegAt} {data : Word} {d : Dev} (hd : Within S a d) (hp : p < 17)
    (hk : S.has ((r.off + 0x100000 * p - 0x100000 * r.win) % 0x20000000))
    (hS : Scope.le ⟨[.posted, .pir], [5], []⟩ S) : Within S a (d.writePier m p r data) := by
  unfold Dev.writePier
  exact .ite (.when hd fun _ => .pirCntClr hd hp (Scope.le_trans rfl hS)) (.ite (.commitRequest hd (Scope.le_trans rfl hS))
    (.ite (.shadowWrite hd (Scope.le_trans rfl hS)) (.ite (.shadowWrite hd (Scope.le_trans rfl hS)) (.store hd hk))))

theorem Within.writePir {off m : ℕ} {r : RegAt} {data : Word} {d : Dev} (hd : Within S a d) (hr : regAt off = some r)
  (hb : blockOf off = 5)
    (hS : Scope.le (blockScope 5) S) : Within S a (d.writePir m r data) := by
  refine hd.lift hS ?_
  have hk := has_blockScope hr hb rfl
  unfold Dev.writePir
  exact .ite .refl (.writePier .refl (win_lt_pier hr hb) (by rwa [Nat.add_sub_cancel]) rfl)

theorem Within.writeTbl {off m : ℕ} {r : RegAt} {data : Word} {d : Dev} (hd : Within S a d) (hr : regAt off = some r)
  (hb : blockOf off = 6)
    (hS : Scope.le (blockScope 6) S) : Within S a (d.writeTbl m r data) := by
  refine hd.lift hS ?_
  have hk := has_blockScope hr hb rfl
  unfold Dev.writeTbl
  exact .ite (.ite (.rehashOpen .refl rfl) (.ite (.rehashCommit .refl (bits_lt data 7 0) rfl) (.ite (.rehashAbort .refl rfl)
    (.localWrite .refl (.wr .refl rfl) rfl)))) (.ite (.mirroredWrite .refl (.store .refl hk) rfl) (.localWrite .refl (.store .refl hk)
      rfl))

theorem Within.writeBuf {off m : ℕ} {r : RegAt} {data : Word} {d : Dev} (hd : Within S a d) (hr : regAt off = some r)
  (hb : blockOf off = 7)
    (hS : Scope.le (blockScope 7) S) : Within S a (d.writeBuf m r data) := by
  refine hd.lift hS ?_
  have hk := has_blockScope hr hb rfl
  unfold Dev.writeBuf
  split
  · exact .ite .refl (.store .refl hk)
  · split
    · exact .when (.store .refl hk) fun _ => .wr (.store .refl hk) rfl
    · split
      · exact .bufFreeHandle .refl rfl
      · split
        · exact .lowCheck (.store .refl hk) rfl
        · split
          · rename_i h
            have hi := idx_lt (n := 4) hr h rfl
            exact .ite (.cxlEnable .refl hi rfl) (.ite (.cxlDrain .refl hi rfl) (.ite (.cxlDisable .refl hi rfl) .refl))
          · split
            · rename_i h
              exact .wr .refl (has_ix (idx_lt (n := 4) hr h rfl) rfl)
            · exact .store .refl hk

theorem Within.moveWrite {d : Dev} {m : ℕ} {cmd : ℕ} (hd : Within S a d)
    (hS : Scope.le ⟨[.posted, .que, .twn], [], []⟩ S) : Within S a (d.moveWrite m cmd) := by
  refine hd.lift hS ?_
  unfold Dev.moveWrite
  split
  · exact .mirrorMove (.queAttach .refl rfl) rfl
  · split
    · exact .mirrorMove (.queSwap .refl rfl) rfl
    · exact .ite (.mirrorMove (.queDetach .refl rfl) rfl) .refl

theorem Within.flushWrite {d : Dev} {data : Word} (hd : Within S a d)
    (hS : Scope.le ⟨[.que], [], []⟩ S) : Within S a (d.flushWrite data) := by
  refine hd.lift hS ?_
  unfold Dev.flushWrite
  dsimp only
  split
  · exact .requestFlush .refl rfl
  · split
    · exact .requestFlush .refl rfl
    · exact .ite (.requestFlush .refl rfl) .refl

theorem Within.queStore {r : RegAt} {data : Word} {d : Dev} (hd : Within S a d) (hk : S.has (r.off % 0x20000000))
    (hq : S.has (F.QUE_Q_CFG.off % 0x20000000)) : Within S a (d.queStore r data) := by
  unfold Dev.queStore
  exact .ite (.wr hd (has_item hq)) (.ite (.setReg hd (has_regKey hk)) (.ite (.setReg hd (has_regKey hk)) (.store hd hk)))

theorem Within.writeQue {off m : ℕ} {r : RegAt} {data : Word} {d : Dev} (hd : Within S a d) (hr : regAt off = some r)
  (hb : blockOf off = 8)
    (hS : Scope.le (blockScope 8) S) : Within S a (d.writeQue m r data) := by
  refine hd.lift hS ?_
  have hk := has_blockScope hr hb rfl
  unfold Dev.writeQue
  split
  · exact .moveWrite .refl rfl
  · split
    · exact .localWrite .refl (.store .refl hk) rfl
    · split
      · exact .localWrite .refl (.histWrite .refl rfl) rfl
      · split
        · exact .ite .refl (.mirroredWrite .refl (.flushWrite .refl rfl) rfl)
        · split
          · rename_i h
            exact .mirroredWrite .refl (.quePortCfgWrite .refl (has_ix (idx_lt (n := 128) hr h rfl) rfl) rfl) rfl
          · exact .ite (.mirroredWrite .refl (.nodePortWrite .refl rfl) rfl) (.ite .refl (.mirroredWrite .refl (.settle (.queStore .refl
              hk rfl) rfl) rfl))

theorem Within.writeShp {off m : ℕ} {r : RegAt} {data : Word} {d : Dev} (hd : Within S a d) (hr : regAt off = some r)
  (hb : blockOf off = 9)
    (hS : Scope.le (blockScope 9) S) : Within S a (d.writeShp m r data) := by
  refine hd.lift hS ?_
  have hk := has_blockScope hr hb rfl
  unfold Dev.writeShp
  exact .ite (.settle (.elemBind .refl rfl) rfl) (.ite (.setSwitchWrite .refl rfl) (.ite (.ite .refl (.settle (.store .refl hk) rfl))
    (.store .refl hk)))

theorem Within.spMapWrite {d : Dev} {x : ℕ} {data : Word} (hd : Within S a d) (hx : x < 16384)
    (hS : Scope.le ⟨[.fab], [10], []⟩ S) : Within S a (d.spMapWrite x data) := by
  refine hd.lift hS ?_
  unfold Dev.spMapWrite
  exact .wr (.set_fab .refl rfl) (has_ix hx rfl)

theorem Within.writeFab {off : ℕ} {r : RegAt} {data : Word} {d : Dev} (hd : Within S a d) (hr : regAt off = some r)
  (hb : blockOf off = 10)
    (hS : Scope.le (blockScope 10) S) : Within S a (d.writeFab r data) := by
  refine hd.lift hS ?_
  have hk := has_blockScope hr hb rfl
  unfold Dev.writeFab
  split
  · exact .when (.fabEnableWrite .refl rfl) fun _ => .fabRestart (.fabEnableWrite .refl rfl) rfl
  · split
    · exact .ite (.takeoverRequest .refl rfl) (.ite (.set_twn (.wr .refl rfl) rfl) .refl)
    · split
      · exact .ite .refl (.store .refl hk)
      · split
        · rename_i h
          exact .spMapWrite .refl (idx_lt hr h rfl) rfl
        · exact .store .refl hk

theorem Within.writeDck {off m : ℕ} {r : RegAt} {data : Word} {d : Dev} (hd : Within S a d) (hr : regAt off = some r)
  (hb : blockOf off = 11)
    (hS : Scope.le (blockScope 11) S) : Within S a (d.writeDck m r data) := by
  refine hd.lift hS ?_
  have hk := has_blockScope hr hb rfl
  unfold Dev.writeDck
  exact .ite (.localWrite .refl (.when (.store .refl hk) fun _ => .mcCounterClr (.store .refl hk) rfl) rfl) (.ite (.mcGroupWrite .refl
    rfl)
    (.ite (.localWrite .refl (.wr .refl rfl) rfl) (.ite (.mirCfgWrite .refl rfl) (.localWrite .refl (.store .refl hk) rfl))))

theorem Within.writeTwn {off m : ℕ} {r : RegAt} {data : Word} {d : Dev} (hd : Within S a d) (hr : regAt off = some r)
  (hb : blockOf off = 12)
    (hS : Scope.le (blockScope 12) S) : Within S a (d.writeTwn m r data) := by
  refine hd.lift hS ?_
  have hk := has_blockScope hr hb rfl
  unfold Dev.writeTwn
  split
  · exact .twinEnable .refl rfl
  · split
    · split
      · exact .twnDemote .refl rfl
      · exact .twnResync .refl rfl
      · exact .twnForcePromote .refl rfl
      · exact .twnRelease .refl rfl
      · exact .twnReactivate .refl rfl
      · exact .refl
    · exact .ite (.wr (.wr (.wr .refl rfl) rfl) rfl) (.store .refl hk)

theorem Within.writeCtl {off m : ℕ} {r : RegAt} {data : Word} {d : Dev} (hd : Within S a d) (hr : regAt off = some r)
  (hb : blockOf off = 13)
    (hS : Scope.le (blockScope 13) S) : Within S a (d.writeCtl m r data) := by
  refine hd.lift hS ?_
  have hk := has_blockScope hr hb rfl
  unfold Dev.writeCtl
  dsimp only
  split
  · exact .when .refl fun _ => .bindLockSet .refl rfl
  · split
    · rename_i h
      exact .mbxBindWrite .refl (has_ix (idx_lt (n := 64) hr h rfl) rfl) rfl
    · refine .ite (.mbxDataWrite .refl rfl) (.ite (.mbxPost .refl rfl) (.ite (.mbxTxstatWrite .refl rfl) (.ite (.mbxAck .refl rfl) ?_)))
      split
      · rename_i h
        exact .bellClear .refl (has_ix (idx_lt (n := 10) hr h rfl) rfl)
      · split
        · rename_i h
          exact .bellMaskWrite .refl (has_ix (idx_lt (n := 10) hr h rfl) rfl) rfl
        · exact .ite (.lockWrite .refl rfl) (.store .refl hk)

theorem Within.writeHst {off m : ℕ} {r : RegAt} {data : Word} {d : Dev} (hd : Within S a d) (hr : regAt off = some r)
  (hb : blockOf off = 14)
    (hS : Scope.le (blockScope 14) S) : Within S a (d.writeHst m r data) := by
  refine hd.lift hS ?_
  have hk := has_blockScope hr hb rfl
  unfold Dev.writeHst
  split
  · rename_i h
    exact .evrEnableWrite .refl (idx_lt hr h rfl) rfl
  · split
    · exact .setReg .refl hk
    · split
      · rename_i h
        exact .settle (.queueEnableWrite .refl (has_queue (idx_lt hr h rfl)) rfl) rfl
      · split
        · rename_i h
          exact .queueEnableWrite .refl (has_queue (Nat.lt_of_lt_of_le (idx_lt (n := 16) hr h rfl) (by decide))) rfl
        · split
          · rename_i h
            exact .settle (.pqTailWrite .refl (has_ix (idx_lt (n := 64) hr h rfl) rfl)) rfl
          · split
            · rename_i h
              exact .iqTailWrite .refl (has_ix (idx_lt (n := 16) hr h rfl) rfl) rfl
            · exact .store .refl hk

theorem Within.writePwr {off : ℕ} {r : RegAt} {data : Word} {d : Dev} (hd : Within S a d) (hr : regAt off = some r)
  (hb : blockOf off = 15)
    (hS : Scope.le (blockScope 15) S) : Within S a (d.writePwr r data) := by
  refine hd.lift hS ?_
  have hk := has_blockScope hr hb rfl
  unfold Dev.writePwr
  split
  · rename_i h
    exact .wr .refl (has_ix (idx_lt (n := 17) hr h rfl) rfl)
  · exact .ite (.ite .refl (.wr .refl rfl)) (.store .refl hk)

theorem Within.writeSec {off m : ℕ} {r : RegAt} {data : Word} {d : Dev} (hd : Within S a d) (hr : regAt off = some r)
  (hb : blockOf off = 16) (hsec : r.row = F.SEC_CTRL.off → m ≠ 6)
    (hS : Scope.le (blockScope 16) S) : Within S a (d.writeSec m r data) := by
  refine hd.lift hS ?_
  have hk := has_blockScope hr hb rfl
  unfold Dev.writeSec
  split
  · rename_i h
    exact .when .refl fun _ => .secSysReset .refl (.inl (hsec h)) rfl
  · exact .ite (.ite .refl (.fuseStart .refl rfl)) (.ite (.ite (.store .refl hk) .refl) (.ite (.when .refl fun _ => .attestStart .refl
      rfl)
      (.ite (.ite .refl (.flashStart .refl rfl)) (.store .refl hk))))

theorem Within.writeDgn {off m : ℕ} {r : RegAt} {data : Word} {d : Dev} (hd : Within S a d) (hr : regAt off = some r)
  (hb : blockOf off = 17)
    (hS : Scope.le (blockScope 17) S) : Within S a (d.writeDgn m r data) := by
  refine hd.lift hS ?_
  have hk := has_blockScope hr hb rfl
  unfold Dev.writeDgn
  split
  · rename_i h
    exact .ite (.cuArm .refl (has_ix (idx_lt (n := 8) hr h rfl) rfl) (has_ix (idx_lt (n := 8) hr h rfl) rfl) rfl) (.store .refl hk)
  · exact .ite (.ite (.bistStart .refl rfl) (.store .refl hk)) (.ite (.ite (.recalStart .refl rfl) (.store .refl hk)) (.ite
      (.cwTestEnable .refl rfl)
      (.ite (.ite (.maintTestStart .refl rfl) (.store .refl hk)) (.store .refl hk))))

theorem Within.write32 {off m : ℕ} {r : RegAt} {data : Word} {d : Dev} (hd : Within S a d) (hr : regAt off = some r)
    (hsec : r.row = F.SEC_CTRL.off → m ≠ 6) (hS : Scope.le (blockScope (blockOf off)) S) : Within S a (d.write32 m r data) := by
  refine hd.lift hS ?_
  have hblk : ∀ {e : Dev} (lo hi n : ℕ), blockOf lo = n → blockOf hi = n → lo ≤ r.row → r.row ≤ hi →
      (blockOf off = n → Within (blockScope n) d e) → Within (blockScope (blockOf off)) d e := fun lo hi n h1 h2 h3 h4 hw => by
    have hb : blockOf off = n := blockOf_row hr ▸ blockOf_between h1 h2 h3 h4
    rw [hb]
    exact hw hb
  have hlt := row_lt hr
  unfold Dev.write32
  refine .ite_of (fun h => ?_) fun h => ?_
  · exact hblk 0x0 0xFFFFFF 1 rfl rfl (by omega) (by omega) fun hb => .writeGlb .refl hr hb rfl
  refine .ite_of (fun h => ?_) fun h => ?_
  · exact hblk 0x1000000 0x1FFFFFF 2 rfl rfl (by omega) (by omega) fun hb => .writeTim .refl hr hb rfl
  refine .ite_of (fun h => ?_) fun h => ?_
  · exact hblk 0x2000000 0x3FFFFFF 3 rfl rfl (by omega) (by omega) fun hb => .writeImg .refl hr hb rfl
  refine .ite_of (fun h => ?_) fun h => ?_
  · exact hblk 0x4000000 0x7FFFFFF 4 rfl rfl (by omega) (by omega) fun hb => .writeLpt .refl hr hb rfl
  refine .ite_of (fun h => ?_) fun h => ?_
  · exact hblk 0x8000000 0x9FFFFFF 5 rfl rfl (by omega) (by omega) fun hb => .writePir .refl hr hb rfl
  refine .ite_of (fun h => ?_) fun h => ?_
  · exact hblk 0xA000000 0xBFFFFFF 6 rfl rfl (by omega) (by omega) fun hb => .writeTbl .refl hr hb rfl
  refine .ite_of (fun h => ?_) fun h => ?_
  · exact hblk 0xC000000 0xCFFFFFF 7 rfl rfl (by omega) (by omega) fun hb => .writeBuf .refl hr hb rfl
  refine .ite_of (fun h => ?_) fun h => ?_
  · exact hblk 0xD000000 0xDFFFFFF 8 rfl rfl (by omega) (by omega) fun hb => .writeQue .refl hr hb rfl
  refine .ite_of (fun h => ?_) fun h => ?_
  · exact hblk 0xE000000 0xFFFFFFF 9 rfl rfl (by omega) (by omega) fun hb => .writeShp .refl hr hb rfl
  refine .ite_of (fun h => ?_) fun h => ?_
  · exact hblk 0x10000000 0x10FFFFFF 10 rfl rfl (by omega) (by omega) fun hb => .writeFab .refl hr hb rfl
  refine .ite_of (fun h => ?_) fun h => ?_
  · exact hblk 0x11000000 0x11FFFFFF 11 rfl rfl (by omega) (by omega) fun hb => .writeDck .refl hr hb rfl
  refine .ite_of (fun h => ?_) fun h => ?_
  · exact hblk 0x12000000 0x12FFFFFF 12 rfl rfl (by omega) (by omega) fun hb => .writeTwn .refl hr hb rfl
  refine .ite_of (fun h => ?_) fun h => ?_
  · exact hblk 0x13000000 0x13FFFFFF 13 rfl rfl (by omega) (by omega) fun hb => .writeCtl .refl hr hb rfl
  refine .ite_of (fun h => ?_) fun h => ?_
  · exact hblk 0x14000000 0x14FFFFFF 14 rfl rfl (by omega) (by omega) fun hb => .writeHst .refl hr hb rfl
  refine .ite_of (fun h => ?_) fun h => ?_
  · exact hblk 0x15000000 0x15FFFFFF 15 rfl rfl (by omega) (by omega) fun hb => .writePwr .refl hr hb rfl
  refine .ite_of (fun h => ?_) fun h => ?_
  · exact hblk 0x16000000 0x16FFFFFF 16 rfl rfl (by omega) (by omega) fun hb => .writeSec .refl hr hb hsec rfl
  exact hblk 0x17000000 0x17FFFFFF 17 rfl rfl (by omega) (by omega) fun hb => .writeDgn .refl hr hb rfl

theorem Within.write64 {off m v : ℕ} {r : RegAt} {d : Dev} (hd : Within S a d) (hr : regAt off = some r)
    (hS : Scope.le (wideScope (blockOf off)) S) : Within S a (d.write64 m r v) := by
  refine hd.lift hS ?_
  have hk := has_wideScope hr
  unfold Dev.write64
  split
  · rename_i h
    rw [← blockOf_row hr, h]
    exact .taStageWrite .refl rfl
  split
  · rename_i h
    rw [← blockOf_row hr, h]
    exact .taStageWrite .refl rfl
  split
  · exact .refl
  split
  · exact .ite .refl (.store .refl hk)
  split
  · exact .ite .refl (.store .refl hk)
  split
  · exact .ite .refl (.store .refl hk)
  split
  · rename_i h
    rw [← blockOf_row hr, h]
    exact .when .refl fun _ => .wr .refl rfl
  · exact .store .refl hk

theorem Within.commitHigh {off m : ℕ} {r : RegAt} {data : Word} {d : Dev} (hd : Within S a d) (hr : regAt off = some r)
    (hS : Scope.le (wideScope (blockOf off)) S) : Within S a (d.commitHigh m r data) := by
  refine hd.lift hS ?_
  unfold Dev.commitHigh
  split
  · rename_i h
    rw [← blockOf_row hr, h]
    exact .bufFreeAddr .refl rfl
  split
  · rename_i h
    rw [← blockOf_row hr, h]
    exact .clEntryWrite .refl rfl
  · exact .write64 (.unstage .refl rfl) hr (Scope.le_refl _)

theorem Within.writeHalf {off m : ℕ} {r : RegAt} {data : Word} {d : Dev} (hd : Within S a d) (hr : regAt off = some r)
    (hS : Scope.le (wideScope (blockOf off)) S) : Within S a (d.writeHalf m r data) := by
  refine hd.lift hS ?_
  have hact : Within (wideScope (blockOf off)) d (if r.high then d.commitHigh m r data else d.stageLow m r.off data) :=
    .ite (.commitHigh .refl hr (Scope.le_refl _)) (.stageLow .refl rfl)
  unfold Dev.writeHalf
  dsimp only
  split
  · rename_i h
    refine .ite (.post .refl rfl) ?_
    have hb : Scope.le ⟨[.posted, .twn], [], []⟩ (wideScope (blockOf off)) := by
      rw [← blockOf_row hr, h]
      rfl
    exact .mirror hact (Scope.le_trans rfl hb)
  · exact .ite (.localWrite .refl hact rfl) hact

theorem Within.broadcast {m o : ℕ} {r : RegAt} {data : Word} {d : Dev} (hd : Within S a d) (ho : o < 0x100000)
    (hr : regAt (0x8000000 + o) = some r) (hS : Scope.le ⟨[.stages, .posted, .pir], [5], []⟩ S) :
    Within S a (d.broadcast m r o data) := by
  refine hd.lift hS ?_
  unfold Dev.broadcast
  split
  · dsimp only
    split
    · split
      · exact .eachPier (.unstage .refl rfl) fun p _ e he => .shadowWrite he rfl
      · exact .refl
    · exact .stageLow .refl rfl
  · refine .eachPier .refl fun p hp e he => .writePier he hp ?_ rfl
    obtain ⟨w, hw, h1, h2, h3, h4, _⟩ := of_regAt hr
    have hwin : r.win = 0 := by rw [win_of_regAt hr]; simp (disch := omega) only [blockWindow, if_pos, if_neg]; omega
    have hb := blockOf_mono h3
    have hlo : 0x8000000 ≤ r.off := by
      simp only [windowRows, List.mem_cons, List.not_mem_nil, or_false] at hw
      rcases hw with rfl | rfl | rfl | rfl | rfl | rfl | rfl | rfl | rfl | rfl | rfl | rfl | rfl | rfl | rfl | rfl | rfl <;>
        dsimp only at h1 h4 <;> omega
    rw [hwin]
    exact Scope.has_of_between (lo := 0x8000000) (hi := 0x9FFFFFF) rfl (by omega) (by omega)

/-- The registers of a broadcast are the piers'. -/
theorem blockOf_broadcast {off : ℕ} (h : 0x9800000 ≤ off ∧ off < 0x9900000) : blockOf off = 5 := by
  simp (disch := omega) only [blockOf, if_pos, if_neg]

theorem Within.broadcastWrite {m o : ℕ} {data : Word} {d : Dev} (hd : Within S a d) (ho : o < 0x100000)
    (hS : Scope.le ⟨[.stages, .posted, .pir, .twn], [5], []⟩ S) : Within S a (d.broadcastWrite m o data) := by
  refine hd.lift hS ?_
  unfold Dev.broadcastWrite
  split
  · exact .post .refl rfl
  · rename_i r hr
    exact .ite (.ite (.post .refl rfl) (.mirror (.broadcast .refl ho hr rfl) rfl)) (.localWrite .refl (.broadcast .refl ho hr rfl) rfl)

theorem Within.postUnmapped {d : Dev} {m : ℕ} {off : ℕ} {dir : ℕ} (hd : Within S a d)
    (hS : Scope.le ⟨[.posted], [], []⟩ S) : Within S a (d.postUnmapped m off dir) := by
  refine hd.lift hS ?_
  unfold Dev.postUnmapped
  exact .post .refl rfl

theorem Within.readClears {off : ℕ} {r : RegAt} {d : Dev} (hd : Within S a d) (hr : regAt off = some r)
    (hS : Scope.le ⟨[.que, .pwr], [15], [F.QUE_SJ_MAX.off, F.QUE_SJ_CNT.off]⟩ S) : Within S a (d.readClears r) := by
  refine hd.lift hS ?_
  unfold Dev.readClears
  dsimp only
  split
  · exact .wr .refl (has_item rfl)
  split
  · exact .set_que (.wr .refl (has_item rfl)) rfl
  split
  · rename_i h
    exact .wr (.set_pwr .refl rfl) (has_ix (idx_lt hr h (by decide : rowCopies _ 16)) rfl)
  · exact .ite (.set_pwr .refl rfl) .refl

theorem Within.readHigh {d : Dev} {m : ℕ} {r : RegAt} (hd : Within S a d)
    (hS : Scope.le ⟨[.lastRead, .lastAbort], [], []⟩ S) : Within S a (d.readHigh m r) := by
  refine hd.lift hS ?_
  unfold Dev.readHigh
  split
  · exact .answer .refl rfl
  · exact .answer .refl rfl

theorem Within.latchHigh {d : Dev} {m : ℕ} {r : RegAt} {v : ℕ} (hd : Within S a d)
    (hS : Scope.le ⟨[.latches], [], []⟩ S) : Within S a (d.latchHigh m r v) := by
  refine hd.lift hS ?_
  unfold Dev.latchHigh
  exact .ite (.set_latches .refl rfl) .refl

theorem Within.latchGroup {d : Dev} {m : ℕ} {r : RegAt} (hd : Within S a d)
    (hS : Scope.le ⟨[.latches], [], []⟩ S) : Within S a (d.latchGroup m r) := by
  refine hd.lift hS ?_
  unfold Dev.latchGroup
  refine .each .refl (fun x _ e he => ?_)
  split
  · exact .set_latches he rfl
  · exact he

theorem Within.readLow {off m : ℕ} {r : RegAt} {d : Dev} (hd : Within S a d) (hr : regAt off = some r)
    (hS : Scope.le ⟨[.latches, .lastRead, .lastAbort, .posted, .fresh, .buf, .que, .ctl, .pwr], [7, 15],
      [F.QUE_SJ_MAX.off, F.QUE_SJ_CNT.off, F.CTL_LOCK_ACQUIRES.off, F.CTL_LOCK_CONTESTS.off]⟩ S) : Within S a (d.readLow m r) := by
  refine hd.lift hS ?_
  unfold Dev.readLow
  dsimp only
  split
  · exact .mbxDataRead .refl rfl
  split
  · exact .mbxTxstatRead .refl rfl
  split
  · exact .mbxRxstatRead .refl rfl
  split
  · exact .mbxAccess .refl (.answer .refl rfl) rfl
  split
  · exact .mbxAccess .refl (.answer .refl rfl) rfl
  split
  · exact .lockRead .refl rfl
  split
  · exact .bufAllocRead .refl rfl
  · exact .answer (.latchHigh (.latchGroup (.readClears .refl hr rfl) rfl) rfl) rfl

theorem Within.busRead {m off : ℕ} {d : Dev} (hd : Within S a d)
    (hS : Scope.le ⟨[.latches, .lastRead, .lastAbort, .posted, .fresh, .buf, .que, .ctl, .pwr], [7, 15],
      [F.QUE_SJ_MAX.off, F.QUE_SJ_CNT.off, F.CTL_LOCK_ACQUIRES.off, F.CTL_LOCK_CONTESTS.off]⟩ S) : Within S a (d.busRead m off) := by
  refine hd.lift hS ?_
  unfold Dev.busRead
  split
  · exact .answer .refl rfl
  split
  · exact .postUnmapped (.answer .refl rfl) rfl
  split
  · rename_i r h
    obtain ⟨o, hr⟩ := regAt_of_accessed h
    exact .ite (.readHigh .refl rfl) (.readLow .refl hr rfl)
  · exact .answer (.takeFree .refl rfl) rfl

/-- A write into a block stays within the block's scope; one of SEC_CTRL, that of a master that cannot reset the system does. -/
theorem Within.busWrite {m off : ℕ} {data : Word} {d : Dev} (hd : Within S a d) (hsec : off = F.SEC_CTRL.off → m ≠ 6)
    (hS : Scope.le (writeScope (blockOf off)) S) : Within S a (d.busWrite m off data) := by
  refine hd.lift hS ?_
  unfold Dev.busWrite
  dsimp only
  split
  · exact .noAbort .refl rfl
  split
  · exact .postUnmapped (.noAbort .refl rfl) rfl
  split
  · exact .noAbort .refl rfl
  split
  · rename_i h
    rw [blockOf_broadcast h]
    exact .broadcastWrite (.noAbort .refl rfl) (by omega) rfl
  split
  · exact .noAbort .refl rfl
  · rename_i r hr
    exact .ite (.writeHalf (.noAbort .refl rfl) hr (wideScope_le_writeScope (blockOf_bounds off)))
      (.write32 (.noAbort .refl rfl) hr (fun h => hsec (off_of_rowSingle hr h (by decide))) (blockScope_le_writeScope _))

/-- An access to no register ends, and is reported where it is one that reaches the device. -/
theorem Within.unmappedAccess {m off : ℕ} {w : Bool} {d : Dev} (hd : Within S a d)
    (hS : Scope.le ⟨[.lastRead, .lastAbort, .posted], [], []⟩ S) : Within S a (unmappedAccess m off w d) := by
  refine hd.lift hS ?_
  unfold Machine.unmappedAccess
  split
  · rename_i h
    cases w
    · simp only [Bool.false_eq_true, if_false, Dev.busRead, h, if_true]
      exact .ite (.answer .refl rfl) (.postUnmapped (.answer .refl rfl) rfl)
    · simp only [if_true, Dev.busWrite, h]
      exact .ite (.noAbort .refl rfl) (.postUnmapped (.noAbort .refl rfl) rfl)
  · exact .refl

theorem Within.actionWrite {d : Dev} {op : BitVec 64} (hd : Within S a d) (hS : Scope.le (actionScope (blockOf (taOffset op))) S) :
    Within S a (d.actionWrite op).2 := by
  refine hd.lift hS ?_
  unfold Dev.actionWrite
  exact .set_twn (.busWrite (.set_twn .refl rfl) (fun _ => actionMaster_ne_host d) (writeScope_le_actionScope _)) rfl

theorem Within.action {d : Dev} {i : ℕ} {e : TaEntry} (hd : Within S a d) (hS : Scope.le (entryScope e) S) :
    Within S a (d.action i e).2 := by
  refine hd.lift hS ?_
  unfold entryScope Dev.action
  dsimp only
  by_cases h : e.type = 5
  · rw [if_pos h, h]
    exact .actionWrite .refl (Scope.le_refl _)
  · rw [if_neg h]
    split
    · exact .snapFire .refl rfl
    · exact .settle (.timedSwitch .refl rfl) rfl
    · exact .walkFire .refl rfl
    · exact absurd ‹_› h
    · exact .post .refl rfl
    · exact .refl

theorem Within.fireEntry {d : Dev} {i : ℕ} (hd : Within S a d) (hS : Scope.le (entryScope (d.entryAt i)) S) :
    Within S a (d.fireEntry i) := by
  refine hd.lift hS ?_
  have htim : Scope.le ⟨[.posted, .tim], [], []⟩ (entryScope (d.entryAt i)) := by
    unfold entryScope
    split <;> rfl
  have hset : ∀ {x : Dev} {e : TaEntry}, Within (entryScope (d.entryAt i)) d x → Within (entryScope (d.entryAt i)) d (x.setEntry i e) :=
    fun hx => .setEntry hx (Scope.le_trans rfl htim)
  unfold Dev.fireEntry
  dsimp only
  split
  · exact hset (.action .refl (Scope.le_refl _))
  · exact .post (hset (.action .refl (Scope.le_refl _))) (Scope.le_trans rfl htim)

theorem Within.timedActionFire {d : Dev} (hd : Within S a d) (hS : ∀ i, d.dueEntry = some i → Scope.le (entryScope (d.entryAt i)) S) :
    Within S a (timedActionFire d) := by
  unfold Machine.timedActionFire
  split
  · rename_i i _ h
    exact hd.fireEntry (hS i h)
  · exact hd

theorem Within.applyRecord {d : Dev} {r : MirrorRec} (hd : Within S a d) (hS : Scope.le (recordScope r) S) :
    Within S a (d.applyRecord r) := by
  refine hd.lift hS ?_
  unfold recordScope Dev.applyRecord
  dsimp only
  by_cases h : r.kind = 2
  · rw [if_pos h, h]
    split
    · exact .dckApply .refl rfl
    · refine .busWrite .refl (fun _ => by decide) ?_
      simp only [Scope.le, Scope.has, writeScope, Bool.and_eq_true, List.all_eq_true, List.contains_iff_mem]
      refine ⟨⟨fun p hp => ?_, fun _ h => h⟩, fun x hx => nomatch hx⟩
      simp only [List.mem_append, List.mem_cons, List.not_mem_nil, or_false] at hp ⊢
      tauto
  · rw [if_neg h]
    split
    · exact .applyRequest .refl rfl
    · exact absurd ‹_› h
    · exact .ite (.armEntry .refl rfl) (.mirrorCause (.armEntry .refl rfl) rfl)
    · exact .cancelEntry .refl rfl
    · exact .applyEntryRecord .refl rfl
    · exact .applyEntryRecord .refl rfl
    · exact .refl

theorem Within.mirrorRecordApply {d : Dev} (hd : Within S a d)
    (hS : ∀ r rest, d.takeDue d.twn.records = some (r, rest) → Scope.le (recordScope r) S) (ht : S.parts.contains .twn) :
    Within S a (mirrorRecordApply d) := by
  unfold Machine.mirrorRecordApply
  split
  · exact hd
  · rename_i r rest h
    exact .applyRecord (.set_twn hd ht) (hS r rest h)

end Sys2Proof.Machine
end

