-- ==== Sys2Proof/Proofs/FramesResets.lean ====
section
/-! PROOF. What a reset keeps: host memory and the registers of R405 and R419; of the fuses and the flash, what no operation
under way was at. -/

namespace Sys2Proof.Machine

/-! ### What a reset keeps -/

/-- Host memory and every register outside `lost` are as they were. -/
def KeepsBut (lost : ℕ → Prop) (d e : Dev) : Prop :=
  e.hostMem = d.hostMem ∧ ∀ k : ℕ, ¬ lost (k % 0x20000000) → e.reg k = d.reg k

section
variable {lost : ℕ → Prop} {a d e : Dev}

theorem KeepsBut.refl : KeepsBut lost a a := ⟨rfl, fun _ _ => rfl⟩

theorem KeepsBut.trans (h : KeepsBut lost a d) (h' : KeepsBut lost d e) : KeepsBut lost a e :=
  ⟨h'.1.trans h.1, fun k hk => (h'.2 k hk).trans (h.2 k hk)⟩

theorem KeepsBut.of_within {S : Scope} (h : Within S d e) (hp : Part.hostMem ∉ S.parts) (hl : ∀ off, S.has off = true → lost off) :
    KeepsBut lost d e := by
  refine ⟨h.1 .hostMem hp, fun k hk => h.2 k ?_⟩
  by_contra hc
  exact hk (hl _ (Bool.not_eq_false _ ▸ hc))

theorem KeepsBut.wr {f : Fld} {x : ℕ} (h : KeepsBut lost a d) (hf : f.off < 0x20000000)
  (hl : lost f.off) : KeepsBut lost a (d.wr f x) := by
  refine h.trans (.of_within (S := ⟨[], [], [f.off]⟩) (.wr .refl (Scope.has_reg hf (.head _))) (by simp) fun off ho => ?_)
  simp only [Scope.has, List.contains_nil, Bool.false_or, List.contains_cons, Bool.or_false, beq_iff_eq] at ho
  exact ho ▸ hl

theorem KeepsBut.pulse {n : ℕ} {f : Dev → Dev} (hf : ∀ e, KeepsBut lost e (f e)) : KeepsBut lost d (d.pulse n f) := by
  have hflip : KeepsBut lost d d.takeFlip.2 := .of_within (S := ⟨[.fresh], [], []⟩) (.takeFlip .refl rfl) (by decide) (by simp
    [Scope.has])
  unfold Dev.pulse
  split
  · exact .refl
  split
  · exact hf d
  dsimp only
  split
  · exact hflip.trans (hf _)
  · exact hflip

/-- A command keeps what its reset keeps. -/
theorem Keeps.of_keepsBut {i : Instr} {s : State} (h : exec i s = .next { s with dev := e }) (hk : KeepsBut lost s.dev e) :
    Keeps i s allButHost lost := by
  intro t ht
  cases exec_next_unique ht h
  refine ⟨rfl, fun p hp => ?_, hk.2⟩
  cases p
  case hostMem => exact hk.1
  all_goals exact absurd (by decide) hp

end

variable {a : Dev}

theorem keptReg_mod (k : ℕ) : keptReg (k % 0x20000000) = keptReg k := by
  unfold keptReg
  rw [Nat.mod_mod]

theorem opsStop_hostMem (d : Dev) : d.opsStop.hostMem = d.hostMem :=
  (Within.opsStop (S := ⟨[.fresh, .sec], [], []⟩) .refl rfl).1 .hostMem (by decide)

/-- A system reset takes a register that it keeps from before, the operation that it interrupts being no matter of registers. -/
theorem reg_switchedReset {d : Dev} {k : ℕ} (h : keptReg k = true) : d.switchedReset.reg k = d.reg k :=
  (SMap.get_filter regReset d.opsStop.regs keptReg h).trans ((Within.opsStop (S := ⟨[.fresh, .sec], [], []⟩) .refl rfl).2 k rfl)

theorem KeepsBut.switchedReset {d : Dev} : KeepsBut lostAtReset d d.switchedReset := by
  refine ⟨opsStop_hostMem d, fun k hk => reg_switchedReset ?_⟩
  by_contra h
  exact hk (.inl (by rwa [keptReg_mod, Bool.eq_false_iff]))

theorem KeepsBut.wrCause {d : Dev} {cause : Fld} {x : ℕ} (h : KeepsBut lostAtReset a d) (hc : cause.off = F.GLB_RESET_CAUSE.off) :
    KeepsBut lostAtReset a (d.wr cause x) :=
  h.wr (by rw [hc]; decide) (.inr (.inr hc))

theorem KeepsBut.systemReset {d : Dev} {cause : Fld} (hc : cause.off = F.GLB_RESET_CAUSE.off) :
    KeepsBut lostAtReset d (d.systemReset cause) := by
  unfold Dev.systemReset Dev.underPor
  split
  · split
    · exact .wrCause .refl hc
    · exact .refl
  · refine (KeepsBut.wrCause .switchedReset hc).trans (.of_within (S := ⟨[.posted, .ctl], [13], []⟩)
      (.foldl_masterReset .refl (by decide) rfl) (by decide) fun off ho => .inr (.inl ?_))
    simpa [Scope.has] using ho

theorem KeepsBut.powerOn {d : Dev} : KeepsBut anyRegs d d.powerOn := ⟨opsStop_hostMem d, fun _ h => absurd trivial h⟩

theorem KeepsBut.sysrstNAssert {d : Dev} {n : ℕ} : KeepsBut lostAtReset d (sysrstNAssert n d) :=
  .pulse fun _ => .systemReset rfl

theorem KeepsBut.railResetLevel {d : Dev} : KeepsBut (fun off => lostAtReset off ∨ off = F.PWR_STATUS.off) d (railResetLevel d) := by
  have hs := KeepsBut.systemReset (d := d) (cause := F.GLB_RESET_CAUSE_VRAIL) rfl
  have h : KeepsBut (fun off => lostAtReset off ∨ off = F.PWR_STATUS.off) d (d.systemReset F.GLB_RESET_CAUSE_VRAIL) :=
    ⟨hs.1, fun k hk => hs.2 k fun hl => hk (.inl hl)⟩
  unfold Machine.railResetLevel
  exact .wr (.wr (.wr h (by decide) (.inr rfl)) (by decide) (.inr rfl)) (by decide) (.inr rfl)

theorem KeepsBut.thermalTrip {d : Dev} : KeepsBut lostAtReset d (thermalTrip d) := by
  unfold Machine.thermalTrip
  split
  · exact .refl
  · have hs := KeepsBut.systemReset (d := d) (cause := F.GLB_RESET_CAUSE_THERMAL) rfl
    exact ⟨hs.1, hs.2⟩

theorem KeepsBut.secRefuse {d : Dev} {what why m : ℕ} : KeepsBut lostAtReset d (d.secRefuse what why m) :=
  .of_within (S := ⟨[.posted], [], []⟩) (.secRefuse .refl rfl) (by decide) (by simp [Scope.has])

theorem KeepsBut.noAbort {d : Dev} : KeepsBut lostAtReset d d.noAbort := ⟨rfl, fun _ _ => rfl⟩

theorem KeepsBut.secSysReset {d : Dev} {m : ℕ} : KeepsBut lostAtReset d (secSysReset m d) := by
  unfold Machine.secSysReset
  split
  · exact .secRefuse
  split
  · exact .secRefuse
  · exact .systemReset rfl

/-! ### What a power-on reset keeps of the fuses and the flash -/

theorem flashScramble_array (d : Dev) (op : FlashOp) : (d.flashScramble op).sec.array = d.sec.array := by
  unfold Dev.flashScramble
  split <;> rfl

theorem flashScramble_fuseOp (d : Dev) (op : FlashOp) : (d.flashScramble op).sec.fuseOp = d.sec.fuseOp := by
  unfold Dev.flashScramble
  split <;> rfl

theorem fuseStops_of_none {d : Dev} (h : d.sec.fuseOp = none) : d.fuseStops = d := by
  unfold Dev.fuseStops
  rw [h]

theorem fuseStops_flash (d : Dev) : d.fuseStops.sec.flash = d.sec.flash := by
  unfold Dev.fuseStops
  split <;> rfl

theorem array_powerOn {d : Dev} (h : d.sec.fuseOp = none) : d.powerOn.sec.array = d.sec.array := by
  show d.opsStop.sec.array = d.sec.array
  unfold Dev.opsStop
  split
  · rw [fuseStops_of_none ((flashScramble_fuseOp d _).trans h), flashScramble_array]
  · rw [fuseStops_of_none h]

theorem flash_powerOn {d : Dev} (h : d.sec.flashOp = none) : d.powerOn.sec.flash = d.sec.flash := by
  show d.opsStop.sec.flash = d.sec.flash
  unfold Dev.opsStop
  rw [h]
  exact fuseStops_flash d

/-- PORST_N is no pulse, or one that powers the device on after a draw at most. -/
theorem porstNAssert_cases (n : ℕ) (d : Dev) : (porstNAssert n d).sec = d.sec ∨
    ∃ e : Dev, porstNAssert n d = e.powerOn ∧ e.sec = d.sec := by
  unfold porstNAssert Dev.pulse
  split
  · exact .inl rfl
  split
  · exact .inr ⟨d, rfl, rfl⟩
  dsimp only
  split
  · exact .inr ⟨d.takeFlip.2, rfl, rfl⟩
  · exact .inl rfl

theorem array_porstNAssert {n : ℕ} {d : Dev} (h : d.sec.fuseOp = none) : (porstNAssert n d).sec.array = d.sec.array := by
  obtain hs | ⟨e, he, hs⟩ := porstNAssert_cases n d
  · rw [hs]
  · rw [he, array_powerOn (by rw [hs, h]), hs]

theorem flash_porstNAssert {n : ℕ} {d : Dev} (h : d.sec.flashOp = none) : (porstNAssert n d).sec.flash = d.sec.flash := by
  obtain hs | ⟨e, he, hs⟩ := porstNAssert_cases n d
  · rw [hs]
  · rw [he, flash_powerOn (by rw [hs, h]), hs]

/-! ### A write of SYS_RESET -/

theorem KeepsBut.secSysResetWrite {d : Dev} {m off : ℕ} : KeepsBut lostAtReset d (d.onWrite m off (Machine.secSysReset m)) := by
  unfold Dev.onWrite
  split
  · exact KeepsBut.noAbort.trans .secSysReset
  · exact .noAbort

end Sys2Proof.Machine
end

