-- ==== Sys2Proof/Proofs/FramesHalves.lean ====
section
/-! PROOF. Writes of a half of a 64-bit register (R8), of the broadcast window (R26) and of SEC_CTRL, and the access of a timed action or
a mirror record. -/

namespace Sys2Proof.Machine

/-! ### Writes of a half, and of SEC_CTRL -/

theorem wide_of_halfAt {off : ℕ} {high : Bool} {r : RegAt} (h : halfAt off high = true) (hb : ¬ (0x9800000 ≤ off ∧ off < 0x9900000))
    (hr : regAt off = some r) : r.wide = true ∧ r.high = high := by
  simpa [halfAt, hb, hr] using h

theorem wide_of_halfAt_broadcast {off : ℕ} {high : Bool} {r : RegAt} (h : halfAt off high = true) (hb : 0x9800000 ≤ off ∧ off < 0x9900000)
    (hr : regAt (0x8000000 + (off - 0x9800000)) = some r) : r.wide = true ∧ r.high = high := by
  simpa [halfAt, hb, hr] using h

section
variable {S : Scope} {a d : Dev} {m off o : ℕ} {data : Word}

/-- A low half is staged, and nothing else becomes of it. -/
theorem Within.writeHalf_low {r : RegAt} (hd : Within S a d) (hl : r.high = false) (hS : Scope.le ⟨[.stages, .posted, .twn], [], []⟩ S) :
    Within S a (d.writeHalf m r data) := by
  refine hd.lift hS ?_
  unfold Dev.writeHalf
  simp only [hl, Bool.false_eq_true, if_false]
  exact .ite (.mirroredWrite .refl (.stageLow .refl rfl) rfl) (.ite (.localWrite .refl (.stageLow .refl rfl) rfl) (.stageLow .refl rfl))

theorem Within.broadcast_low {r : RegAt} (hd : Within S a d) (hw : r.wide = true) (hl : r.high = false)
    (hS : Scope.le ⟨[.stages], [], []⟩ S) : Within S a (d.broadcast m r o data) := by
  refine hd.lift hS ?_
  unfold Dev.broadcast
  simp only [hw, hl, if_true, Bool.false_eq_true, if_false]
  exact .stageLow .refl rfl

theorem Within.broadcast_high {r : RegAt} (hd : Within S a d) (hw : r.wide = true) (hh : r.high = true)
    (hS : Scope.le ⟨[.stages, .pir], [], []⟩ S) : Within S a (d.broadcast m r o data) := by
  refine hd.lift hS ?_
  unfold Dev.broadcast
  simp only [hw, hh, if_true]
  exact .ite (.eachPier (.unstage .refl rfl) fun p e _ he => .shadowWrite he rfl) .refl

theorem Within.broadcastWrite_of {P : RegAt → Prop} (hd : Within S a d) (hP : ∀ r, regAt (0x8000000 + o) = some r → P r)
    (hb : ∀ r e, P r → Within S a e → Within S a (e.broadcast m r o data)) (hS : Scope.le ⟨[.posted, .twn], [], []⟩ S) :
    Within S a (d.broadcastWrite m o data) := by
  unfold Dev.broadcastWrite
  split
  · exact hd.post (Scope.le_trans rfl hS)
  · rename_i r hr
    exact .ite (.mirroredWrite hd (hb r d (hP r hr) hd) hS) (.localWrite hd (hb r d (hP r hr) hd) (Scope.le_trans rfl hS))

theorem Within.busWrite_low (h : halfAt off false = true) :
    Within ⟨[.stages, .lastAbort, .posted, .twn], [], []⟩ d (d.busWrite m off data) := by
  unfold Dev.busWrite
  refine .ite (.noAbort .refl rfl) (.ite (.postUnmapped (.noAbort .refl rfl) rfl) (.ite (.noAbort .refl rfl) (.ite_of (fun hb => ?_) fun
    hb => ?_)))
  · exact .broadcastWrite_of (.noAbort .refl rfl) (fun r hr => wide_of_halfAt_broadcast h hb hr)
      (fun r e hr he => .broadcast_low he hr.1 hr.2 rfl) rfl
  · split
    · exact .noAbort .refl rfl
    · rename_i r hr
      obtain ⟨hw, hl⟩ := wide_of_halfAt h hb hr
      rw [if_pos hw]
      exact .writeHalf_low (.noAbort .refl rfl) hl rfl

theorem wideScope_le_high {b : ℕ} (h : 1 ≤ b ∧ b ≤ 17) :
    Scope.le (wideScope b) ⟨[.stages, .lastAbort, .posted, .fresh, .tim, .pir, .buf, .twn], [b], []⟩ := by
  obtain ⟨h1, h2⟩ := h
  interval_cases b <;> rfl

theorem Within.busWrite_high (h : halfAt off true = true) :
    Within ⟨[.stages, .lastAbort, .posted, .fresh, .tim, .pir, .buf, .twn], [blockOf off], []⟩ d (d.busWrite m off data) := by
  unfold Dev.busWrite
  refine .ite (.noAbort .refl rfl) (.ite (.postUnmapped (.noAbort .refl rfl) rfl) (.ite (.noAbort .refl rfl) (.ite_of (fun hb => ?_) fun
    hb => ?_)))
  · exact .broadcastWrite_of (.noAbort .refl rfl) (fun r hr => wide_of_halfAt_broadcast h hb hr)
      (fun r e hr he => .broadcast_high he hr.1 hr.2 rfl) rfl
  · split
    · exact .noAbort .refl rfl
    · rename_i r hr
      rw [if_pos (wide_of_halfAt h hb hr).1]
      exact .writeHalf (.noAbort .refl rfl) hr (wideScope_le_high (blockOf_bounds off))

theorem Within.busWrite_broadcast (ho : o < 0x100000) :
    Within ⟨[.stages, .lastAbort, .posted, .pir, .twn], [5], []⟩ d (d.busWrite m (0x9800000 + o) data) :=
  .busWrite .refl (fun h => absurd h (by simp only [F.SEC_CTRL]; omega)) (by rw [blockOf_broadcast (by omega)]; rfl)

theorem Within.timedActionFire_of {i : ℕ} (h : d.dueEntry = some i) (hS : Scope.le (entryScope (d.entryAt i)) S) :
    Within S d (Machine.timedActionFire d) :=
  .timedActionFire .refl fun j hj => by cases h.symm.trans hj; exact hS

theorem Within.mirrorRecordApply_of {r : MirrorRec} {rest : List MirrorRec} (h : d.takeDue d.twn.records = some (r, rest))
    (hS : Scope.le (recordScope r) S) (ht : S.parts.contains .twn) : Within S d (Machine.mirrorRecordApply d) :=
  .mirrorRecordApply .refl (fun r' rest' h' => by cases h.symm.trans h'; exact hS) ht

theorem mirrorRecordApply_of_none (h : d.takeDue d.twn.records = none) : mirrorRecordApply d = d := by
  rw [mirrorRecordApply, h]

theorem regAt_secCtrl {r : RegAt} (h : regAt F.SEC_CTRL.off = some r) : r.row = F.SEC_CTRL.off ∧ r.wide = false := by
  have hall : (regAt F.SEC_CTRL.off).all fun r => r.row == F.SEC_CTRL.off && !r.wide := by decide
  simpa [h] using hall

/-- A write of SEC_CTRL asks for a reset of the system, or ends as an access alone. -/
theorem busWrite_secCtrl_cases (d : Dev) (m : ℕ) (data : Word) :
    Within ⟨[.lastAbort, .posted], [], []⟩ d (d.busWrite m F.SEC_CTRL.off data) ∨
      d.busWrite m F.SEC_CTRL.off data = Machine.secSysReset m d.noAbort := by
  have hno : Within ⟨[.lastAbort, .posted], [], []⟩ d d.noAbort := .noAbort .refl rfl
  unfold Dev.busWrite
  dsimp only
  split
  · exact .inl hno
  split
  · exact .inl (.postUnmapped hno rfl)
  split
  · exact .inl hno
  rw [if_neg (by decide)]
  split
  · exact .inl hno
  · rename_i r hr
    obtain ⟨hrow, hwide⟩ := regAt_secCtrl hr
    rw [if_neg (by simp [hwide])]
    unfold Dev.write32 Dev.writeSec Dev.when
    simp (disch := decide) only [hrow, if_neg, if_pos]
    split
    · exact .inr rfl
    · exact .inl hno

theorem KeepsBut.busWrite_secCtrl : KeepsBut lostAtReset d (d.busWrite m F.SEC_CTRL.off data) := by
  obtain h | h := busWrite_secCtrl_cases d m data
  · exact .of_within h (by decide) (by simp [Scope.has])
  · rw [h]
    exact KeepsBut.noAbort.trans .secSysReset

theorem ne_secCtrl_of_halfAt {high : Bool} (h : halfAt off high = true) : off ≠ F.SEC_CTRL.off := by
  rintro rfl
  have hnone : ∀ high, halfAt F.SEC_CTRL.off high = false := by decide
  rw [hnone] at h
  cases h

end

/-- The registers of a packet or injection queue that its enable writes. -/
theorem has_queueReg {l : List Part} {f : Fld} {q : ℕ} (hf : f ∈ [F.HST_IQ_CFG, F.HST_IQ_HEAD, F.HST_PQ_CFG, F.HST_PQ_HEAD])
  (hq : q < 64) :
    Scope.has ⟨l, [], [F.HST_IQ_CFG, F.HST_IQ_HEAD, F.HST_PQ_CFG, F.HST_PQ_HEAD].map fun f => (f.ix q).off⟩ ((f.ix q).off % 0x20000000) :=
  have hend : ∀ f ∈ [F.HST_IQ_CFG, F.HST_IQ_HEAD, F.HST_PQ_CFG, F.HST_PQ_HEAD], (f.off + f.st * 64).ble 0x1FFFFFFF := by decide
  has_reg_ix hq (hend f hf) (List.mem_map_of_mem hf)

end Sys2Proof.Machine
end

