-- ==== Sys2Proof/Proofs/FramesHost.lean ====
section
/-! PROOF. What a command writes to host memory. -/

namespace Sys2Proof.Machine

/-! ### What a command writes to host memory -/

/-- The scope of a step that writes nothing to host memory. -/
def noHost : Scope := ⟨allButHost, [1, 2, 3, 4, 5, 6, 7, 8, 9, 10, 11, 12, 13, 14, 15, 16, 17], []⟩

/-- Host memory is the same outside `out`. -/
def HostKept (out : ℕ → Prop) (d e : Dev) : Prop :=
  ∀ x, ¬ out x → e.hostMem.get (fun _ => none) x = d.hostMem.get (fun _ => none) x

theorem hostPutAll_get_of_ne {m : SMap (Option Byte)} {a x : ℕ} {l : List Byte} (h : ∀ i < l.length, x ≠ (a + i) % 2 ^ 64) :
    (hostPutAll m a l).get (fun _ => none) x = m.get (fun _ => none) x := by
  induction l generalizing m a with
  | nil => rfl
  | cons b t ih =>
    rw [hostPutAll, ih fun i hi => ?_]
    · exact SMap.get_set_ne _ _ _ (h 0 (by simp)).symm
    · rw [Nat.add_right_comm, Nat.add_assoc]
      exact h (i + 1) (by simpa using hi)

section
variable {out : ℕ → Prop} {a d e : Dev}

theorem HostKept.refl : HostKept out a a := fun _ _ => rfl

theorem HostKept.trans (h : HostKept out a d) (h' : HostKept out d e) : HostKept out a e := fun x hx => (h' x hx).trans (h x hx)

theorem HostKept.of_within (h : Within noHost d e) : HostKept out d e := fun x _ => by
  rw [show e.hostMem = d.hostMem from h.1 .hostMem (by decide)]

theorem HostKept.then (h : HostKept out a d) (h' : Within noHost d e) : HostKept out a e := h.trans (.of_within h')

theorem HostKept.mono {out' : ℕ → Prop} (h : HostKept out a d) (ho : ∀ x, out x → out' x) : HostKept out' a d :=
  fun x hx => h x fun hx' => hx (ho x hx')

theorem HostKept.dma {addr : ℕ} {l : List Byte} (ho : ∀ x, inBytes addr l.length x → out x) : HostKept out d (d.dma addr l) :=
  fun x hx => hostPutAll_get_of_ne fun i hi he => hx (ho x ⟨i, hi, he⟩)

theorem KeepsHost.of_hostKept {i : Instr} {s : State} (h : exec i s = .next { s with dev := e }) (hk : HostKept out s.dev e) :
    KeepsHost i s out := by
  intro t ht
  cases exec_next_unique ht h
  exact hk

end

/-! ### Strokes and injected packets -/

theorem iqPlace_of_regs {d e : Dev} {q : ℕ} (h : e.regs = d.regs) : e.iqPlace q = d.iqPlace q := by
  simp only [Dev.iqPlace, Dev.rd, Dev.reg, h]

/-- An injected packet's end is one byte of its descriptor. -/
theorem HostKept.injectDone {d : Dev} {q : ℕ} : HostKept (inBytes (d.iqPlace q + 10) 1) d (d.injectDone q) := by
  unfold Dev.injectDone
  split
  · exact .refl
  rename_i flags _
  have hw : HostKept (inBytes (d.iqPlace q + 10) 1) d
      ({ d with hst := { d.hst with fetched := d.hst.fetched.set (fun _ => none) q none } }.dma (d.iqPlace q + 10) [BitVec.ofNat 8
        flags]) :=
    (HostKept.of_within (.set_hst .refl rfl)).trans (.dma fun _ h => h)
  exact hw.then (.when (.wrIx .refl rfl) fun _ => .raiseVector (.wrIx .refl rfl) rfl)

/-- The bytes that an ingress stroke may write: the descriptor's byte of the injected packet at the head of the pier's octet. -/
def strokeBytes (d : Dev) (pier x : ℕ) : Prop :=
  ∃ o p rest q, d.octetOf pier = some o ∧ d.injectQueue o = p :: rest ∧ p.back = some q ∧ inBytes (d.iqPlace q + 10) 1 x

theorem HostKept.ingressStroke {d : Dev} {pier : ℕ} (hp : pier < 17) : HostKept (strokeBytes d pier) d (ingressStroke pier d) := by
  unfold Machine.ingressStroke
  split
  · exact .refl
  split
  · exact .refl
  rename_i o ho
  split
  · exact .refl
  split
  · exact .of_within (.ingressExit (.stroke (.bump (.issueSlot (.rxPop .refl rfl) rfl) (has_pier hp rfl)) hp rfl) hp rfl)
  split
  · exact .refl
  rename_i p rest hq
  split
  · exact .refl
  dsimp only
  have hstart : ∀ x, Within noHost d { d with pir := x } := fun x => .set_pir .refl rfl
  have hdone : HostKept (strokeBytes d pier) d (match p.back with
      | some q => ({ d with pir := { d.pir with inject := d.pir.inject.set (fun _ => []) o rest } }.issueSlot pier false).injectDone q
      | none => { d with pir := { d.pir with inject := d.pir.inject.set (fun _ => []) o rest } }.issueSlot pier false) := by
    split
    · rename_i q hb
      exact (HostKept.of_within (.issueSlot (hstart _) rfl)).trans (HostKept.injectDone.mono fun x hx =>
        ⟨o, p, rest, q, ho, hq, hb, by rwa [iqPlace_of_regs rfl] at hx⟩)
    · exact .of_within (.issueSlot (hstart _) rfl)
  exact hdone.then (.ingressExit (.stroke (.bump (.setTurn .refl rfl) (has_pier hp rfl)) hp rfl) hp rfl)

theorem HostKept.injectFetch {d : Dev} {q : ℕ} {x : BitVec 256} {packet : Option (List Byte)} :
    HostKept (inBytes (d.iqPlace q + 10) 1) d (injectFetch q x packet d) := by
  unfold Machine.injectFetch
  split
  · exact .refl
  dsimp only
  have hstart : ∀ y, Within noHost d { d with hst := y } := fun y => .set_hst .refl rfl
  split
  · exact .of_within (.injectAt (hstart _) rfl)
  · have hdone : ∀ y, HostKept (inBytes (d.iqPlace q + 10) 1) d ({ d with hst := y }.injectDone q) := fun y =>
      (HostKept.of_within (hstart y)).trans (HostKept.injectDone.mono fun x hx => by rwa [iqPlace_of_regs rfl] at hx)
    exact (hdone _).then (.post (.dropCount (.bump .refl rfl) rfl) rfl)

/-! ### Snapshots, selections, events and the flash -/

theorem HostKept.each {α : Type} {out : ℕ → Prop} {d : Dev} {l : List α} {f : α → Dev → Dev} (hf : ∀ x ∈ l, ∀ e, HostKept out e (f x e)) :
    HostKept out d (d.each l f) := by
  unfold Dev.each
  induction l generalizing d with
  | nil => exact .refl
  | cons x t ih => exact (hf x (.head t) d).trans (ih fun y hy => hf y (.tail x hy))

theorem length_leBytes (n v : ℕ) : (leBytes n v).length = n := by
  induction n generalizing v with
  | zero => rfl
  | succ n ih => simp [leBytes, ih]

theorem inBytes_of_inBytes {a b m n x : ℕ} (h : inBytes (a + b) m x) (hb : b + m ≤ n) : inBytes a n x := by
  obtain ⟨i, hi, hx⟩ := h
  exact ⟨b + i, by omega, by rw [hx, Nat.add_assoc]⟩

theorem HostKept.snapWrite {d : Dev} {s : Snapshot} {n : ℕ} : HostKept (inBytes s.addr (16 * n)) d (d.snapWrite s n) := by
  refine .each fun i hi e => .dma fun x hx => inBytes_of_inBytes hx ?_
  have := List.mem_range.1 hi
  rw [show ∀ y : BitVec 128, (bytesOf y).length = 16 from fun y => length_leBytes 16 _]
  omega

/-- The bytes that a snapshot's end writes: one counter of 16 bytes for each copied. -/
def snapBytes (d : Dev) (ok : Bool) (copied x : ℕ) : Prop :=
  ∃ n, d.tbl.snap = some n ∧ inBytes n.addr (16 * if ok then n.count else min copied n.count) x

theorem HostKept.snapshotCopyDone {d : Dev} {ok : Bool} {copied : ℕ} :
    HostKept (snapBytes d ok copied) d (snapshotCopyDone ok copied d) := by
  unfold Machine.snapshotCopyDone
  split
  · exact .refl
  rename_i s hs
  dsimp only
  exact (HostKept.snapWrite.mono fun x hx => ⟨s, hs, hx⟩).then (.postTbl (.wr (.set_tbl .refl rfl) (has_item rfl)) rfl)

/-- The bytes that a selection at the host root writes: the packet's, as many as the descriptor's buffer takes, and its descriptor's. -/
def puntBytes (d : Dev) (k : ℕ) (desc : BitVec 256) (x : ℕ) : Prop :=
  inBytes (byteField desc 0 8) (byteField desc 8 2) x ∨ inBytes (d.pqPlace k + 10) 22 x

theorem HostKept.puntWrite {d : Dev} {k : ℕ} {desc : BitVec 256} {pkt : Packet} :
    HostKept (puntBytes d k desc) d (d.puntWrite k desc pkt) := by
  unfold Dev.puntWrite
  dsimp only
  refine HostKept.then (HostKept.trans (.dma fun x hx => .inl ?_) (.dma fun x hx => .inr ?_))
    (.when (.wrIx .refl rfl) fun _ => .raiseVector (.wrIx .refl rfl) rfl)
  · exact inBytes_of_inBytes (b := 0) hx (by rw [List.length_take]; omega)
  · simpa [length_leBytes] using hx

/-- The bytes that a selection at the host root writes, where a packet is selected for an enabled path. -/
def rootBytes (d : Dev) (desc : BitVec 256) (farErr : ℕ) (disabled : Bool) (x : ℕ) : Prop :=
  ∃ e pkt d1, (d.noteStates 128).selectAt 128 farErr ((d.noteStates 128).queuedPackets + 1) = (.packet e pkt, d1) ∧ disabled = false ∧
    puntBytes d1 (e - 393152) desc x

theorem HostKept.selectHost {d : Dev} {desc : BitVec 256} {farErr : ℕ} {disabled : Bool} :
    HostKept (rootBytes d desc farErr disabled) d (selectHost desc farErr disabled d) := by
  unfold Machine.selectHost
  split
  · exact .refl
  dsimp only
  split
  · rename_i e pkt d1 hsel
    have hd1 : Within noHost d d1 := .snd hsel (.selectAt (.noteStates .refl rfl) rfl)
    split
    · exact .of_within (.dropCount hd1 rfl)
    · rename_i hdis
      exact (HostKept.of_within hd1).trans (HostKept.puntWrite.mono fun x hx => ⟨e, pkt, d1, hsel, Bool.eq_false_iff.2 hdis, hx⟩)
  · rename_i d1 _ hsel
    exact .of_within (.snd hsel (.selectAt (.noteStates .refl rfl) rfl))

/-- The bytes of the event at the head of the engine's queue. -/
def eventBytes (d : Dev) (x : ℕ) : Prop :=
  ∃ q rest, d.hst.engineQ = q :: rest ∧ inBytes (d.ringPlace q.ring q.seq.toNat) 64 x

theorem HostKept.eventWrite {d : Dev} : HostKept (eventBytes d) d (eventWrite d) := by
  unfold Machine.eventWrite
  generalize (if d.hst.writesTick = d.tim.tick then d.hst.writes else 0) = done
  dsimp only
  split
  · exact .refl
  rename_i q rest hq
  split
  · exact .refl
  · exact HostKept.then (.dma fun x hx => ⟨q, rest, hq, by rwa [length_leBytes] at hx⟩) (.set_hst (.wrIx .refl rfl) rfl)

/-- The bytes of a flash read. -/
def flashReadBytes (d : Dev) (x : ℕ) : Prop := ∃ op, d.sec.flashOp = some op ∧ op.cmd = 1 ∧ inBytes op.host op.len x

theorem HostKept.flashOpDone {d : Dev} {dma : Option (List Byte)} : HostKept (flashReadBytes d) d (flashOpDone dma d) := by
  unfold Machine.flashOpDone
  split
  · exact .refl
  rename_i op hop
  split
  · exact .of_within (.flashEnds (.flashMap .refl rfl) rfl)
  split
  · exact .of_within (.flashEnds (.ite (.flashScramble .refl rfl) .refl) rfl)
  split
  · rename_i hcmd
    have hs : Within noHost d (d.streamEnds 6 0).2 := .streamEnds .refl rfl
    dsimp only
    split
    · exact .of_within (.flashEnds hs rfl)
    · exact ((HostKept.of_within hs).trans (.dma fun x hx => ⟨op, hop, hcmd, by simpa [Dev.flashBytes] using hx⟩)).then
        (.flashEnds .refl rfl)
  · exact .of_within (.flashEnds (.flashMap .refl rfl) rfl)

end Sys2Proof.Machine
end

