-- ==== Sys2Proof/Proofs/Frames.lean ====
section
/-! PROOF. The frames of the commands, family by family. -/

namespace Sys2Proof.Machine

/-- Settles O47: each command runs within the scope that its frame names, and a reset keeps what R405 and R419 keep. -/
theorem timeAndImageFrames : Obligations.TimeAndImageFrames :=
  ⟨fun _ _ => .of_windows rfl (.perstNAssert .refl rfl),
   fun _ pf => .of_windows rfl (.functionLevelReset .refl pf.isLt rfl),
   fun _ _ _ _ => .of_windows rfl (.resetRelease .refl rfl),
   fun _ _ _ => .of_windows rfl (.testEnRelease .refl rfl),
   fun _ _ => ⟨.of_regs rfl (.onWrite .refl (.glbLockSet (.noAbort .refl rfl) rfl) rfl),
    .of_windows rfl (.onWrite .refl (.fwdEn (.noAbort .refl rfl) rfl) rfl),
    .of_regs rfl (.onWrite .refl (.syncLoadArm (.noAbort .refl rfl) rfl) rfl),
    .of_none rfl (.onWrite .refl (.taArm (.noAbort .refl rfl) rfl) rfl),
    .of_none rfl (.onWrite .refl (.taCancel (.noAbort .refl rfl) rfl) rfl),
    .of_windows rfl (.onWrite .refl (.imgLoadAbort (.noAbort .refl rfl) rfl) rfl),
    .of_regs rfl (.onWrite .refl (.walkStart (.noAbort .refl rfl) rfl) rfl),
    .of_regs rfl (.onWrite .refl (.walkAbandon (.noAbort .refl rfl) rfl) rfl),
    .of_windows rfl (.onWrite .refl (.walkResume (.noAbort .refl rfl) rfl) rfl)⟩,
   fun _ _ _ => .of_windows rfl (.onWrite .refl (.maintReq (.noAbort .refl rfl) rfl) rfl),
   fun _ _ _ => .of_regs rfl (.onWrite .refl (.srcSelect (.noAbort .refl rfl) rfl) rfl),
   fun _ _ => .of_none rfl (.spanDisagree .refl rfl),
   fun _ => ⟨.of_regs rfl (.fabricRelock .refl rfl),
    .of_windows rfl (.m10EntryComplete .refl rfl),
    .of_regs rfl (.fabricTimeLoss .refl rfl),
    .of_regs rfl (.pllLock .refl rfl),
    .of_regs rfl (.pllLockLoss .refl rfl),
    .of_regs rfl (.ppsEdgesMissing .refl rfl),
    .of_regs rfl (.spanSyncMarkersMissing .refl rfl),
    .of_none rfl (.spanSyncOutMarker .refl rfl),
    .of_none rfl (.phcSecond .refl rfl),
    .of_none rfl (.todMessageTx .refl rfl),
    .of_regs rfl (.todBaseUpdate .refl rfl),
    .of_windows rfl (.keystoneFire .refl rfl),
    .of_windows rfl (.drainLimitReached .refl rfl),
    .of_windows rfl (.expirySweepComplete .refl rfl),
    .of_windows rfl (.walkStepCommit .refl rfl),
    .of_regs rfl (.supplyMonitorsInRange .refl rfl)⟩,
   fun _ _ => .of_regs rfl (.ppsEdge .refl rfl),
   fun _ _ => .of_regs rfl (.spanSyncMarker .refl rfl),
   fun _ _ _ => .of_none rfl (.todMessageRx .refl rfl),
   fun _ _ _ _ => .of_none rfl (.onWrite .refl (.taStageWrite (.noAbort .refl rfl) rfl) rfl),
   fun _ _ _ => .of_windows rfl (.onWrite .refl (.imgLoadStart (.noAbort .refl rfl) rfl) rfl),
   fun _ _ => .of_windows rfl (.walkStepTimeout .refl rfl),
   fun _ pier _ => .of_windows rfl (.pierReloadDone .refl pier.isLt rfl),
   fun _ pier _ _ _ _ _ => .of_windows rfl (.pierFault .refl pier.isLt rfl),
   fun _ pier _ _ => .of_windows rfl (.strokeTimeout .refl pier.isLt rfl),
   fun _ _ _ => ⟨.of_windows rfl (.onWrite .refl (.pierRetireCmd (.noAbort .refl rfl) rfl) rfl),
    .of_windows rfl (.onWrite .refl (.pierRestoreCmd (.noAbort .refl rfl) rfl) rfl)⟩,
   fun _ _ _ => .of_windows rfl (.imgLoadEnd .refl rfl),
   fun _ _ => ⟨.of_keepsBut rfl (.pulse fun _ => .powerOn),
    fun t h => ⟨fun h1 => by cases exec_next_unique h rfl; exact array_porstNAssert h1,
    fun h1 => by cases exec_next_unique h rfl; exact flash_porstNAssert h1⟩,
    .of_keepsBut rfl .sysrstNAssert⟩,
   fun _ => ⟨.of_keepsBut rfl .railResetLevel,
    .of_keepsBut rfl .thermalTrip⟩,
   fun _ _ => ⟨.of_keepsBut rfl .secSysResetWrite,
    fun h => .of_none rfl (.onWrite .refl (.secSysReset (.noAbort .refl rfl) h rfl) rfl)⟩⟩

/-- Settles O48: each command runs within the scope that its frame names; a register write, within that of its block. -/
theorem accessAndLineFrames : Obligations.AccessAndLineFrames :=
  ⟨fun _ _ _ => ⟨.of_windows rfl (.when .refl (fun _ => (.busRead .refl rfl))),
    .of_windows rfl (.busRead .refl rfl)⟩,
   fun _ _ _ _ => ⟨.of_none rfl (.when .refl fun h => .busWrite_low h),
    .of_windows rfl (.when .refl fun h => .busWrite_high h)⟩,
   fun _ _ _ _ => .of_none rfl (.unmappedAccess .refl rfl),
   fun _ _ off _ => .of_windows rfl (.busWrite_broadcast off.isLt),
   fun _ _ port _ _ => .of_regs rfl (.onWrite .refl (.laneMapWrite (.noAbort .refl rfl) (has_reg_port port.isLt rfl (.head _))
     (has_reg_port port.isLt rfl (.tail _ (.head _))) rfl) rfl),
   fun _ port _ _ => .of_windows rfl (.frameReceive .refl port.isLt rfl),
   fun _ port _ => .of_regs rfl (.macControl .refl (has_reg_port port.isLt rfl (.head _)) (has_reg_port port.isLt rfl (.tail _ (.head
     _))) rfl),
   fun _ port _ => ⟨.of_none rfl (.pauseExpiry .refl rfl),
    .of_regs rfl (.pfcRefresh .refl (has_reg_port port.isLt rfl (.head _)) rfl),
    .of_none rfl (.pfcWatchdog .refl rfl)⟩,
   fun _ _ port => ⟨.of_none rfl (.onWrite .refl (.msecSaInstall (.noAbort .refl rfl) rfl) rfl),
    .of_windows rfl (.onWrite .refl (.msecSaRetire (.noAbort .refl rfl) port.isLt rfl) rfl),
    .of_none rfl (.onWrite .refl (.txtsPop (.noAbort .refl rfl) rfl) rfl),
    .of_windows rfl (.onWrite .refl (.lptCntClr (.noAbort .refl rfl) port.isLt rfl) rfl),
    .of_regs rfl (.onWrite .refl (.gclCommit (.noAbort .refl rfl) (has_reg_port port.isLt rfl (.head _)) rfl) rfl)⟩,
   fun _ port => ⟨.of_regs rfl (.gclStart .refl (has_reg_port port.isLt rfl (.tail _ (.head _))) (has_reg_port port.isLt rfl (.head _))
     (has_reg_port port.isLt rfl (.tail _ (.tail _ (.head _)))) rfl),
    .of_none rfl (.gateEntryAdvance .refl rfl),
    .of_regs rfl (.portLinkDown .refl (has_reg_port port.isLt rfl (.head _)) rfl),
    .of_regs rfl (.portLinkUp .refl (has_reg_port port.isLt rfl (.head _)) rfl)⟩,
   fun _ port _ => .of_regs rfl (.preemptVerify .refl (has_reg_port port.isLt rfl (.head _)) rfl),
   fun _ _ port _ => .of_regs rfl (.onWrite .refl (.adminUpWrite (.noAbort .refl rfl) (has_reg_port port.isLt rfl (.head _))
     (has_reg_port port.isLt rfl (.tail _ (.head _))) rfl) rfl),
   fun _ port _ _ => .of_regs rfl (.fecInterval .refl (has_reg_port port.isLt rfl (.head _)) (has_reg_port port.isLt rfl (.tail _ (.head
     _))) (has_reg_port port.isLt rfl (.tail _ (.tail _ (.head _)))) rfl),
   fun _ pier => ⟨.of_windows rfl (.ingressStroke .refl pier.isLt rfl),
    .of_windows rfl (.secondStroke .refl pier.isLt rfl),
    .of_windows rfl (.egressStroke .refl pier.isLt rfl),
    .of_regs rfl (.tcamCommit .refl (has_reg_pier pier.isLt rfl (.head _)) (has_reg_pier pier.isLt rfl (.tail _ (.head _))) rfl)⟩,
   fun _ _ _ => .of_none rfl (.onWrite .refl (.mirroredWrite (.noAbort .refl rfl) (.tcamCommitRequest (.noAbort .refl rfl) rfl) rfl) rfl),
   fun _ _ pier => .of_windows rfl (.onWrite .refl (.pirCntClr (.noAbort .refl rfl) pier.isLt rfl) rfl),
   fun _ port _ => .of_windows rfl (.frameTransmit .refl port.isLt rfl),
   fun _ port _ _ => .of_regs rfl (.lineFaultChange .refl (has_reg_port port.isLt rfl (.head _)) rfl),
   fun _ _ _ _ => ⟨fun h => .of_windows rfl (.busWrite .refl (fun h1 => absurd h1 h) (Scope.le_refl _)),
    fun h => .of_keepsBut rfl (h ▸ .busWrite_secCtrl)⟩,
   fun _ _ h => ⟨fun h1 => .of_windows rfl (.timedActionFire_of h (by rw [entryScope, if_neg h1]; rfl)),
    fun h1 => .of_windows rfl (.timedActionFire_of h (by rw [entryScope, if_pos h1]; exact Scope.le_refl _))⟩,
   fun _ h => .of_none rfl (.timedActionFire .refl fun i hi => nomatch h.symm.trans hi),
   fun _ _ _ h => ⟨fun h1 => .of_windows rfl (.mirrorRecordApply_of h (by rw [recordScope, if_neg h1]; rfl) rfl),
    fun h1 h2 => .of_windows rfl (.mirrorRecordApply_of h (by rw [recordScope, if_pos h1, if_pos h2]; rfl) rfl),
    fun h1 h2 => .of_windows rfl (.mirrorRecordApply_of h (by rw [recordScope, if_pos h1, if_neg h2]; exact Scope.le_refl _) rfl)⟩,
   fun _ h => .of_none rfl (by rw [mirrorRecordApply_of_none h]; exact .refl),
   fun _ pier => .of_hostKept rfl (HostKept.ingressStroke pier.isLt)⟩

/-- Settles O49: each command runs within the scope that its frame names. -/
theorem tableAndBufferFrames : Obligations.TableAndBufferFrames :=
  ⟨fun _ _ _ _ => .of_none rfl (.onWrite .refl (.ite (.taeSubmit (.noAbort .refl rfl) rfl) (.noAbort .refl rfl)) rfl),
   fun _ _ _ => .of_windows rfl (.onRead .refl (.ite (.entryWindowRead .refl rfl) (.answer .refl rfl)) rfl),
   fun _ _ _ _ => .of_none rfl (.onWrite .refl (.ite (.entryWindowWrite (.noAbort .refl rfl) rfl) (.noAbort .refl rfl)) rfl),
   fun _ _ _ => .of_regs rfl (.snapshotCopyDone .refl rfl),
   fun _ _ _ => ⟨.of_regs rfl (.onWrite .refl (.rehashOpen (.noAbort .refl rfl) rfl) rfl),
    .of_windows rfl (.onWrite .refl (.rehashCommit (.noAbort .refl rfl) (by omega) rfl) rfl),
    .of_regs rfl (.onWrite .refl (.rehashAbort (.noAbort .refl rfl) rfl) rfl)⟩,
   fun _ _ _ => .of_windows rfl (.openPageTimeout .refl rfl),
   fun _ _ _ => .of_windows rfl (.onRead .refl (.bufAllocRead .refl rfl) rfl),
   fun _ _ _ => .of_windows rfl (.onWrite .refl (.bufFreeAddr (.noAbort .refl rfl) rfl) rfl),
   fun _ _ _ => .of_windows rfl (.onWrite .refl (.bufFreeHandle (.noAbort .refl rfl) rfl) rfl),
   fun _ port _ _ _ _ => .of_windows rfl (.cxlLinkTrained .refl port.isLt rfl),
   fun _ port => ⟨.of_regs rfl (.cxlTrainTimeout .refl (has_reg_ix port.isLt rfl (.head _))),
    .of_windows rfl (.cxlTrainRetry .refl port.isLt rfl),
    .of_regs rfl (.cxlDrainComplete .refl (has_reg_ix port.isLt rfl (.head _)) rfl),
    .of_windows rfl (.cxlLinkRetrained .refl port.isLt rfl)⟩,
   fun _ _ port => ⟨.of_windows rfl (.onWrite .refl (.cxlEnable (.noAbort .refl rfl) port.isLt rfl) rfl),
    .of_windows rfl (.onWrite .refl (.cxlDrain (.noAbort .refl rfl) port.isLt rfl) rfl),
    .of_windows rfl (.onWrite .refl (.cxlDisable (.noAbort .refl rfl) port.isLt rfl) rfl)⟩,
   fun _ port _ => .of_windows rfl (.cxlLinkFail .refl port.isLt rfl),
   fun _ => ⟨.of_windows rfl (.taeRun .refl rfl),
    .of_windows rfl (.taeRun .refl rfl),
    .of_windows rfl (.taeRun .refl rfl),
    .of_windows rfl (.taeRun .refl rfl),
    .of_windows rfl (.taeRun .refl rfl),
    .of_windows rfl (.taeRun .refl rfl),
    .of_windows rfl (.taeRun .refl rfl),
    .of_windows rfl (.taeRun .refl rfl),
    .of_windows rfl (.taeRun .refl rfl),
    .of_windows rfl (.learnApply .refl rfl),
    .of_regs rfl (.rehashCopy .refl rfl),
    .of_regs rfl (.ageingSweep .refl rfl),
    .of_regs rfl (.retireRelease .refl rfl)⟩,
   fun _ _ => .of_windows rfl (.bulk .refl rfl),
   fun _ _ _ => .of_hostKept rfl HostKept.snapshotCopyDone⟩

/-- Settles O50: each command runs within the scope that its frame names. -/
theorem queueAndDeckFrames : Obligations.QueueAndDeckFrames :=
  ⟨fun _ _ => .of_windows rfl (.prefetch .refl rfl),
   fun _ _ port _ => .of_regs rfl (.onWrite .refl (.mirroredWrite (.noAbort .refl rfl) (.quePortCfgWrite (.noAbort .refl rfl) (has_reg_ix
     port.isLt rfl (.head _)) rfl) rfl) rfl),
   fun _ _ _ => ⟨.of_regs rfl (.onWrite .refl (.mirroredWrite (.noAbort .refl rfl) (.nodePortWrite (.noAbort .refl rfl) rfl) rfl) rfl),
    .of_windows rfl (.onWrite .refl (.localWrite (.noAbort .refl rfl) (.histWrite (.noAbort .refl rfl) rfl) rfl) rfl),
    .of_windows rfl (.onWrite .refl (.localWrite (.noAbort .refl rfl) (.histWrite (.noAbort .refl rfl) rfl) rfl) rfl),
    .of_regs rfl (.onWrite .refl (.settle (.elemBind (.noAbort .refl rfl) rfl) rfl) rfl),
    .of_regs rfl (.onWrite .refl (.setSwitchWrite (.noAbort .refl rfl) rfl) rfl),
    .of_regs rfl (.onWrite .refl (.mcGroupWrite (.noAbort .refl rfl) rfl) rfl)⟩,
   fun _ _ => ⟨.of_none rfl (.onWrite .refl (.mirrorMove (.queAttach (.noAbort .refl rfl) rfl) rfl) rfl),
    .of_none rfl (.onWrite .refl (.mirrorMove (.queSwap (.noAbort .refl rfl) rfl) rfl) rfl),
    .of_none rfl (.onWrite .refl (.mirrorMove (.queDetach (.noAbort .refl rfl) rfl) rfl) rfl),
    .of_none rfl (.onWrite .refl (.mirroredWrite (.noAbort .refl rfl) (.requestFlush (.noAbort .refl rfl) rfl) rfl) rfl),
    .of_none rfl (.onWrite .refl (.mirroredWrite (.noAbort .refl rfl) (.requestFlush (.noAbort .refl rfl) rfl) rfl) rfl),
    .of_windows rfl (.onWrite .refl (.localWrite (.noAbort .refl rfl) (.mcCounterClr (.noAbort .refl rfl) rfl) rfl) rfl)⟩,
   fun _ _ _ => .of_none rfl (.onWrite .refl (.mirroredWrite (.noAbort .refl rfl) (.requestFlush (.noAbort .refl rfl) rfl) rfl) rfl),
   fun _ _ _ => .of_regs rfl (.onWrite .refl (.clEntryWrite (.noAbort .refl rfl) rfl) rfl),
   fun _ _ => .of_windows rfl (.enqueue .refl rfl),
   fun _ => ⟨.of_windows rfl (.flushProgress .refl rfl),
    .of_none rfl (.tokenRefresh .refl rfl),
    .of_windows rfl (.settle (.setSwitch .refl rfl) rfl),
    .of_windows rfl (.deckSlot .refl rfl),
    .of_windows rfl (.replicationCopy .refl rfl)⟩,
   fun _ _ _ _ _ => .of_windows rfl (.schedulerSelection .refl rfl),
   fun _ _ _ _ _ => .of_hostKept rfl (.of_within (.selectOctet .refl rfl)),
   fun _ _ _ _ => .of_hostKept rfl HostKept.selectHost⟩

/-- Settles O52: each command runs within the scope that its frame names. -/
theorem controlAndHostFrames : Obligations.ControlAndHostFrames :=
  ⟨fun _ pair => ⟨.of_windows rfl (.pairRestart .refl pair.isLt rfl),
    .of_regs rfl (.pairCheckpoint .refl (has_reg_ix pair.isLt rfl (.head _)) rfl)⟩,
   fun _ _ _ => .of_windows rfl (.serviceRequest .refl rfl),
   fun _ _ ch _ => ⟨.of_regs rfl (.onWrite .refl (.mbxBindWrite (.noAbort .refl rfl) (has_reg_ix ch.isLt rfl (.head _)) rfl) rfl),
    .of_windows rfl (.onWrite .refl (.mbxPost (.noAbort .refl rfl) rfl) rfl),
    .of_none rfl (.onWrite .refl (.mbxAck (.noAbort .refl rfl) rfl) rfl)⟩,
   fun _ _ => .of_regs rfl (.onWrite .refl (.bindLockSet (.noAbort .refl rfl) rfl) rfl),
   fun _ _ _ _ _ => .of_none rfl (.onWrite .refl (.mbxDataWrite (.noAbort .refl rfl) rfl) rfl),
   fun _ _ _ => .of_none rfl (.onRead .refl (.mbxRxstatRead .refl rfl) rfl),
   fun _ _ target _ => ⟨.of_regs rfl (.onWrite .refl (.bellClear (.noAbort .refl rfl) (has_reg_ix target.isLt rfl (.head _))) rfl),
    .of_regs rfl (.onWrite .refl (.bellMaskWrite (.noAbort .refl rfl) (has_reg_ix target.isLt rfl (.head _)) rfl) rfl)⟩,
   fun _ _ _ => .of_regs rfl (.lockRead .refl rfl),
   fun _ _ _ _ => .of_none rfl (.onWrite .refl (.lockWrite (.noAbort .refl rfl) rfl) rfl),
   fun _ _ _ => .of_windows rfl (.pcieLinkUp .refl rfl),
   fun _ _ queue _ => .of_regs rfl (.onWrite .refl (.settle (.pqTailWrite (.noAbort .refl rfl) (has_reg_ix queue.isLt rfl (.head _)))
     rfl) rfl),
   fun _ _ queue _ => .of_regs rfl (.onWrite .refl (.iqTailWrite (.noAbort .refl rfl) (has_reg_ix queue.isLt rfl (.head _)) rfl) rfl),
   fun _ _ _ queue _ => .of_regs rfl (.onWrite .refl (.settle (.queueEnableWrite (.noAbort .refl rfl) (fun _ hf => has_queueReg hf
     queue.isLt) rfl) rfl) rfl),
   fun _ _ ring _ => .of_windows rfl (.onWrite .refl (.evrEnableWrite (.noAbort .refl rfl) ring.isLt rfl) rfl),
   fun _ _ => .of_windows rfl (.eventPost .refl rfl),
   fun _ ring => ⟨.of_windows rfl (.evrDmaError .refl ring.isLt rfl),
    .of_none rfl (.evrInterrupt .refl rfl)⟩,
   fun _ _ => .of_regs rfl (.entdaa .refl rfl),
   fun _ _ => .of_none rfl (.i3cPrivateWrite .refl rfl),
   fun _ _ => .of_none rfl (.i3cPrivateRead .refl rfl),
   fun _ => ⟨.of_windows rfl (.pcieLinkDown .refl rfl),
    .of_windows rfl (.eventWrite .refl rfl),
    .of_none rfl (.blotterInterval .refl rfl),
    .of_windows rfl (.telemetryExport .refl rfl),
    .of_regs rfl (.rstdaa .refl rfl)⟩,
   fun _ _ _ _ => .of_windows rfl (.injectFetch .refl rfl),
   fun _ => .of_hostKept rfl HostKept.eventWrite,
   fun _ _ _ _ => .of_hostKept rfl HostKept.injectFetch⟩

/-- Settles O53: each command runs within the scope that its frame names. -/
theorem powerAndSecurityFrames : Obligations.PowerAndSecurityFrames :=
  ⟨fun _ pair => .of_windows rfl (.ite (.evidence (.lockstepMismatch .refl pair.isLt rfl) rfl) .refl),
   fun _ domain => .of_windows rfl (.domainSwitch .refl (domain.isLt.trans (by decide)) rfl),
   fun _ _ => .of_none rfl (.railOor .refl rfl),
   fun _ _ => .of_regs rfl (.regulatorPoll .refl rfl),
   fun _ pier => .of_regs rfl (.pierClockChange .refl (has_reg_ix pier.isLt rfl (.head _)) rfl),
   fun _ _ => .of_windows rfl (.tempReading .refl rfl),
   fun _ _ _ => .of_windows rfl (.bootComplete .refl rfl),
   fun _ _ => ⟨.of_regs rfl (.onWrite .refl (.fuseStart (.noAbort .refl rfl) rfl) rfl),
    .of_regs rfl (.onWrite .refl (.fuseStart (.noAbort .refl rfl) rfl) rfl),
    .of_windows rfl (.onWrite .refl (.attestStart (.noAbort .refl rfl) rfl) rfl),
    .of_windows rfl (.onWrite .refl (.flashStart (.noAbort .refl rfl) rfl) rfl),
    .of_windows rfl (.onWrite .refl (.flashStart (.noAbort .refl rfl) rfl) rfl),
    .of_windows rfl (.onWrite .refl (.flashStart (.noAbort .refl rfl) rfl) rfl)⟩,
   fun _ _ _ => .of_regs rfl (.onWrite .refl (.fuseStart (.noAbort .refl rfl) rfl) rfl),
   fun _ _ unit _ => .of_regs rfl (.onWrite .refl (.cuArm (.noAbort .refl rfl) (has_reg_ix unit.isLt rfl (.head _)) (has_reg_ix unit.isLt
     rfl (.tail _ (.head _))) rfl) rfl),
   fun _ unit _ _ => .of_windows rfl (.cuStreamEnd .refl unit.isLt rfl),
   fun _ _ => .of_windows rfl (.patrolRead .refl rfl),
   fun _ _ _ => ⟨.of_windows rfl (.onWrite .refl (.bistStart (.noAbort .refl rfl) rfl) rfl),
    .of_regs rfl (.onWrite .refl (.recalStart (.noAbort .refl rfl) rfl) rfl),
    .of_windows rfl (.onWrite .refl (.cwTestEnable (.noAbort .refl rfl) rfl) rfl),
    .of_windows rfl (.onWrite .refl (.maintTestStart (.noAbort .refl rfl) rfl) rfl)⟩,
   fun _ _ => .of_windows rfl (.bistDone .refl rfl),
   fun _ _ _ => .of_windows rfl (.causewayError .refl rfl),
   fun _ _ => .of_windows rfl (.maintTestDone .refl rfl),
   fun _ _ => .of_windows rfl (.railReading .refl rfl),
   fun _ => ⟨.of_regs rfl (.railBelowWarning .refl rfl),
    .of_regs rfl (.railClear .refl rfl),
    .of_windows rfl (.shedStepEnter .refl rfl),
    .of_windows rfl (.shedStepLift .refl rfl),
    .of_regs rfl (.fuseOpDone .refl rfl),
    .of_windows rfl (.attestDone .refl rfl),
    .of_windows rfl (.tamperAssert .refl rfl),
    .of_none rfl (.recalDone .refl rfl),
    .of_regs rfl (.railNeither .refl rfl)⟩,
   fun _ _ => .of_windows rfl (.flashOpDone .refl rfl),
   fun _ _ => .of_hostKept rfl HostKept.flashOpDone⟩

end Sys2Proof.Machine
end

