-- ==== Sys2Proof/Proofs/Halves.lean ====
section
/-! PROOF. The halves of 64-bit registers that a master has latched or staged are its own (R8, R437). -/

namespace Sys2Proof.Machine

/-- The scope of a step that touches no latched and no staged half. -/
def noHalves : Scope :=
  ⟨[.mode, .lastRead, .lastAbort, .posted, .hostMem, .fresh, .tim, .img, .lpt, .pir, .tbl, .buf, .que, .shp, .fab, .dck, .twn, .ctl, .hst,
    .pwr, .sec, .dgn], [1, 2, 3, 4, 5, 6, 7, 8, 9, 10, 11, 12, 13, 14, 15, 16, 17], []⟩

theorem mem_windows {b : ℕ} (h : 1 ≤ b ∧ b ≤ 17) : [1, 2, 3, 4, 5, 6, 7, 8, 9, 10, 11, 12, 13, 14, 15, 16, 17].contains b = true := by
  obtain ⟨h1, h2⟩ := h
  interval_cases b <;> rfl

theorem noHalves_has (off : ℕ) : noHalves.has off = true := by
  simp only [Scope.has, noHalves, mem_windows (blockOf_bounds off), Bool.true_or]

theorem blockScope_le_noHalves {b : ℕ} (h : 1 ≤ b ∧ b ≤ 17) : Scope.le (blockScope b) noHalves := by
  obtain ⟨h1, h2⟩ := h
  interval_cases b <;> rfl

/-- Every half that another master than `m` has latched or staged is as it was. -/
def HalvesKept (m : ℕ) (d e : Dev) : Prop :=
  ∀ k, k / 0x20000000 ≠ m → e.latches.get (fun _ => none) k = d.latches.get (fun _ => none) k ∧
    e.stages.get (fun _ => none) k = d.stages.get (fun _ => none) k

theorem halfKey_div {m o : ℕ} (ho : o < 0x20000000) : halfKey m o / 0x20000000 = m := by
  unfold halfKey
  omega

section
variable {m off o : ℕ} {data : Word} {a d e : Dev} {r : RegAt}

theorem halfKey_ne {k : ℕ} (ho : o < 0x20000000) (hk : k / 0x20000000 ≠ m) : halfKey m o ≠ k := fun h => hk (h ▸ halfKey_div ho)

theorem HalvesKept.refl : HalvesKept m a a := fun _ _ => ⟨rfl, rfl⟩

theorem HalvesKept.trans (h : HalvesKept m a d) (h' : HalvesKept m d e) : HalvesKept m a e :=
  fun k hk => ⟨(h' k hk).1.trans (h k hk).1, (h' k hk).2.trans (h k hk).2⟩

theorem HalvesKept.of_within (h : Within noHalves d e) : HalvesKept m d e := fun k _ => by
  rw [show e.latches = d.latches from h.1 .latches (by decide), show e.stages = d.stages from h.1 .stages (by decide)]
  exact ⟨rfl, rfl⟩

theorem HalvesKept.then (h : HalvesKept m a d) (h' : Within noHalves d e) : HalvesKept m a e := h.trans (.of_within h')

theorem HalvesKept.ite {c : Prop} [Decidable c] (hx : HalvesKept m a d)
  (hy : HalvesKept m a e) : HalvesKept m a (if c then d else e) := by
  split
  · exact hx
  · exact hy

theorem HalvesKept.when {c : Bool} {f : Dev → Dev} (hf : c = true → HalvesKept m d (f d)) : HalvesKept m d (d.when c f) := by
  cases c
  · exact .refl
  · exact hf rfl

/-! ### The halves of the master itself -/

theorem HalvesKept.latch {v : Option Word} (h : HalvesKept m a d) (ho : o < 0x20000000) :
    HalvesKept m a { d with latches := d.latches.set (fun _ => none) (halfKey m o) v } :=
  h.trans fun _ hk => ⟨SMap.get_set_ne _ _ _ (halfKey_ne ho hk), rfl⟩

theorem HalvesKept.stageLow (h : HalvesKept m a d) (ho : o < 0x20000000) : HalvesKept m a (d.stageLow m o data) :=
  h.trans fun _ hk => ⟨rfl, SMap.get_set_ne (fun _ => none) d.stages (some data) (halfKey_ne ho hk)⟩

theorem HalvesKept.unstage (h : HalvesKept m a d) (ho : o < 0x20000000) : HalvesKept m a (d.unstage m o) :=
  h.trans fun _ hk => ⟨rfl, SMap.get_set_ne (fun _ => none) d.stages none (halfKey_ne ho hk)⟩

theorem HalvesKept.latchHigh {v : ℕ} (h : HalvesKept m a d) (ho : r.off < 0x20000000) : HalvesKept m a (d.latchHigh m r v) :=
  .ite (.latch h ho) h

theorem HalvesKept.each {l : List ℕ} {f : ℕ → Dev → Dev} (h : HalvesKept m a d) (hf : ∀ x ∈ l, ∀ e, HalvesKept m e (f x e)) :
    HalvesKept m a (d.each l f) := by
  unfold Dev.each
  induction l generalizing d with
  | nil => exact h
  | cons x t ih => exact ih (h.trans (hf x (.head t) d)) fun y hy => hf y (.tail x hy)

theorem group_lt (ho : r.off < 0x18000000) : ∀ x ∈ r.group, x < 0x20000000 := by
  unfold RegAt.group
  split
  · decide
  split
  · simp only [List.mem_singleton, forall_eq, F.LPT_TXTS_NS, F.LPT_TXTS_SEC]
    omega
  · exact fun _ h => nomatch h

theorem HalvesKept.latchGroup (h : HalvesKept m a d) (ho : r.off < 0x18000000) : HalvesKept m a (d.latchGroup m r) := by
  refine .each h fun x hx e => ?_
  split
  · exact .latch .refl (group_lt ho x hx)
  · exact .refl

/-! ### Reads -/

theorem off_bufAlloc_lt {p : ℕ} (hp : p < 3) : (F.BUF_ALLOC.ix p).off < 0x20000000 := by
  simp only [Fld.ix, F.BUF_ALLOC]
  omega

theorem HalvesKept.bufAllocRead {p : ℕ} (hp : p < 3) : HalvesKept m d (bufAllocRead m p d) := by
  have hl : ∀ {e : Dev} {w : Option Word} (v : ℕ), HalvesKept m d e → HalvesKept m d
      ({ e with latches := e.latches.set (fun _ => none) (halfKey m (F.BUF_ALLOC.ix p).off) w }.answer v) :=
    fun v h => (h.latch (off_bufAlloc_lt hp)).then (.answer .refl rfl)
  unfold Machine.bufAllocRead
  dsimp only
  split
  · exact hl _ .refl
  refine .ite ?_ (.ite (hl _ (.of_within (.bump (.refusePool .refl rfl) rfl))) (hl _ .refl))
  exact (hl _ (.of_within (.takeOne .refl rfl))).then (.lowCheck .refl rfl)

theorem HalvesKept.readLow (hr : regAt off = some r) : HalvesKept m d (d.readLow m r) := by
  have hlt := off_lt hr
  unfold Dev.readLow
  dsimp only
  split
  · exact .of_within (.mbxDataRead .refl rfl)
  split
  · exact .of_within (.mbxTxstatRead .refl rfl)
  split
  · exact .of_within (.mbxRxstatRead .refl rfl)
  split
  · exact .of_within (.mbxAccess .refl (.answer .refl rfl) rfl)
  split
  · exact .of_within (.mbxAccess .refl (.answer .refl rfl) rfl)
  split
  · exact .of_within (.lockRead .refl rfl)
  split
  · rename_i h
    exact .bufAllocRead (idx_lt (n := 3) hr h rfl)
  · exact (HalvesKept.latchHigh (.latchGroup (.of_within (.readClears .refl hr rfl)) hlt) (by omega)).then (.answer .refl rfl)

theorem HalvesKept.readHigh : HalvesKept m d (d.readHigh m r) := by
  unfold Dev.readHigh
  split <;> exact .of_within (.answer .refl rfl)

theorem HalvesKept.busRead : HalvesKept m d (d.busRead m off) := by
  unfold Dev.busRead
  refine .ite (.of_within (.answer .refl rfl)) (.ite (.of_within (.postUnmapped (.answer .refl rfl) rfl)) ?_)
  split
  · rename_i r hr
    obtain ⟨o, ho⟩ := regAt_of_accessed hr
    exact .ite .readHigh (.readLow ho)
  · exact .of_within (.answer (.takeFree .refl rfl) rfl)

/-! ### Writes -/

theorem HalvesKept.taStageWrite {which : TaStage} {v : BitVec 64} (h : HalvesKept m a d) :
    HalvesKept m a (taStageWrite m which v d) := by
  cases which
  · exact h.then (.setStaging .refl rfl)
  · exact (h.unstage (by decide)).then (.setStaging .refl rfl)
  · exact h.then (.setStaging .refl rfl)
  · exact (h.unstage (by decide)).then (.setStaging .refl rfl)

theorem HalvesKept.write64 {v : ℕ} : HalvesKept m d (d.write64 m r v) := by
  have hs : HalvesKept m d (d.store r v) := .of_within (.store .refl (noHalves_has _))
  unfold Dev.write64
  exact .ite (.taStageWrite .refl) (.ite (.taStageWrite .refl) (.ite .refl (.ite (.ite .refl hs) (.ite (.ite .refl hs) (.ite (.ite .refl
    hs)
    (.ite (.of_within (.when .refl fun _ => .wr .refl rfl)) hs))))))

theorem HalvesKept.bufFreeAddr (h : HalvesKept m a d) : HalvesKept m a (bufFreeAddr m data d) :=
  (h.unstage (by decide)).then (.freeAddr (.wr .refl rfl) rfl)

theorem HalvesKept.clEntryWrite (h : HalvesKept m a d) : HalvesKept m a (clEntryWrite m data d) :=
  .ite (h.then (.dckRefuse .refl rfl)) ((h.unstage (by decide)).then (.dckChange .refl rfl rfl))

theorem HalvesKept.commitHigh (hr : regAt off = some r) : HalvesKept m d (d.commitHigh m r data) := by
  have := off_lt hr
  exact .ite (.bufFreeAddr .refl) (.ite (.clEntryWrite .refl) ((HalvesKept.unstage .refl (by omega)).trans .write64))

theorem HalvesKept.localWrite {f : Dev → Dev} (hf : HalvesKept m d (f d)) : HalvesKept m d (d.localWrite m off f) :=
  .ite (.of_within (.post .refl rfl)) hf

theorem HalvesKept.mirroredWrite {v : ℕ} {f : Dev → Dev} (hf : HalvesKept m d (f d)) : HalvesKept m d (d.mirroredWrite m off v f) :=
  .ite (.of_within (.post .refl rfl)) (hf.then (.mirror .refl rfl))

theorem HalvesKept.writeHalf (hr : regAt off = some r) : HalvesKept m d (d.writeHalf m r data) := by
  have := off_lt hr
  have hact : HalvesKept m d (if r.high then d.commitHigh m r data else d.stageLow m r.off data) :=
    .ite (.commitHigh hr) (.stageLow .refl (by omega))
  exact .ite (.mirroredWrite hact) (.ite (.localWrite hact) hact)

theorem HalvesKept.broadcast (ho : o < 0x100000) : HalvesKept m d (d.broadcast m r o data) := by
  have hbase : 0x9800000 + o - (if r.high then 4 else 0) < 0x20000000 := by omega
  unfold Dev.broadcast
  refine .ite (.ite (.ite ?_ .refl) (.stageLow .refl hbase)) (.of_within ?_)
  · exact (HalvesKept.unstage .refl hbase).then (.eachPier .refl fun p _ e he => .shadowWrite he rfl)
  · exact .eachPier .refl fun p hp e he => .writePier he hp (noHalves_has _) rfl

theorem HalvesKept.broadcastWrite (ho : o < 0x100000) : HalvesKept m d (d.broadcastWrite m o data) := by
  unfold Dev.broadcastWrite
  split
  · exact .of_within (.post .refl rfl)
  · exact .ite (.mirroredWrite (.broadcast ho)) (.localWrite (.broadcast ho))

theorem HalvesKept.noAbort : HalvesKept m d d.noAbort := .of_within (.noAbort .refl rfl)

theorem HalvesKept.busWrite (hsec : off ≠ F.SEC_CTRL.off) : HalvesKept m d (d.busWrite m off data) := by
  unfold Dev.busWrite
  refine HalvesKept.trans .noAbort (.ite .refl (.ite (.of_within (.postUnmapped .refl rfl)) (.ite .refl ?_)))
  split
  · exact .broadcastWrite (by omega)
  split
  · exact .refl
  · rename_i r hr
    exact .ite (.writeHalf hr) (.of_within (.write32 .refl hr (fun h => absurd (off_of_rowSingle hr h (by decide)) hsec)
      (blockScope_le_noHalves (blockOf_bounds off))))

theorem HalvesKept.onWrite {f : Dev → Dev} (hf : HalvesKept m d.noAbort (f d.noAbort)) : HalvesKept m d (d.onWrite m off f) :=
  HalvesKept.trans .noAbort (.ite hf .refl)

end

/-! ### A reset -/

/-- A step leaves no half of any master, in M0, or every half as it was. -/
def HalvesKeptOrReset (d e : Dev) : Prop :=
  (e.latches = d.latches ∧ e.stages = d.stages) ∨ (e.mode = .m0 ∧ e.latches = [] ∧ e.stages = [])

theorem HalvesKeptOrReset.of_within {d e : Dev} (h : Within noHalves d e) : HalvesKeptOrReset d e :=
  .inl ⟨h.1 .latches (by decide), h.1 .stages (by decide)⟩

theorem HalvesKeptOrReset.systemReset {d : Dev} {cause : Fld} : HalvesKeptOrReset d (d.systemReset cause) := by
  unfold Dev.systemReset Dev.underPor
  split
  · split
    · exact .inl ⟨rfl, rfl⟩
    · exact .inl ⟨rfl, rfl⟩
  · have h : Within ⟨[.posted, .ctl], [13], []⟩ (d.switchedReset.wr cause 1)
        ([2, 3, 4, 5, 6, 7, 9].foldl Dev.masterReset (d.switchedReset.wr cause 1)) := .foldl_masterReset .refl (by decide) rfl
    exact .inr ⟨h.1 .mode (by decide), h.1 .latches (by decide), h.1 .stages (by decide)⟩

theorem HalvesKeptOrReset.secSysReset {d : Dev} {m : ℕ} : HalvesKeptOrReset d (secSysReset m d) := by
  unfold Machine.secSysReset
  split
  · exact .of_within (.secRefuse .refl rfl)
  split
  · exact .of_within (.secRefuse .refl rfl)
  · exact .systemReset

theorem HalvesKeptOrReset.busWrite_secCtrl {d : Dev} {m : ℕ} {data : Word} : HalvesKeptOrReset d (d.busWrite m F.SEC_CTRL.off data) := by
  obtain h | h := busWrite_secCtrl_cases d m data
  · exact .of_within (h.mono rfl)
  · rw [h]
    exact HalvesKeptOrReset.secSysReset (d := d.noAbort)

/-- Settles O60: an access latches and stages halves of its own master alone; only a write of SEC_CTRL resets. -/
theorem halvesAreEachMastersOwn : Obligations.HalvesAreEachMastersOwn := by
  unfold Obligations.HalvesAreEachMastersOwn
  refine ⟨fun s t m other off data n b w v o hne ho h => ?_, fun s t m data h => ?_⟩
  · have hkeep : ∀ {i : Instr} {e : Dev}, exec i s = .next t → exec i s = .next { s with dev := e } → HalvesKept m.val s.dev e →
        HalvesKept m.val s.dev t.dev := fun h1 h2 hk => by cases exec_next_unique h1 h2; exact hk
    have hk : HalvesKept m.val s.dev t.dev := by
      rcases h with h | h | h | h | h | h | h | h | h | ⟨h, hsec⟩
      · exact hkeep h rfl (.when fun _ => .busRead)
      · exact hkeep h rfl .busRead
      · exact hkeep h rfl (.when fun hh => .busWrite (ne_secCtrl_of_halfAt hh))
      · exact hkeep h rfl (.when fun hh => .busWrite (ne_secCtrl_of_halfAt hh))
      · exact hkeep h rfl (.ite (.bufAllocRead n.isLt) (.of_within (.answer .refl rfl)))
      · exact hkeep h rfl (.onWrite (.bufFreeAddr .refl))
      · exact hkeep h rfl (.onWrite (.clEntryWrite .refl))
      · exact hkeep h rfl (.busWrite (by simp only [F.SEC_CTRL]; omega))
      · exact hkeep h rfl (.onWrite (.taStageWrite .refl))
      · exact hkeep h rfl (.busWrite hsec)
    exact hk _ (by rw [halfKey_div ho]; exact fun he => hne (Fin.ext he))
  · cases exec_next_unique h rfl
    exact HalvesKeptOrReset.busWrite_secCtrl

end Sys2Proof.Machine
end

