-- ==== Sys2Proof/Proofs/Modes.lean ====
section
/-! PROOF. The mode requests (R10, R22, R23). -/

namespace Sys2Proof.Machine

/-! ### Completions -/

theorem Completes.of_exec {i : Instr} {s : State} {e : Dev} {P : Dev → Prop} (h : exec i s = .next { s with dev := e }) (hp : P e) :
    Completes i s P := ⟨_, h, rfl, hp⟩

/-- A write that reaches its register completes where its meaning leaves the device. -/
theorem Completes.of_onReg {i : Instr} {s : State} {m off : ℕ} {f : Dev → Dev} {P : Dev → Prop} (h : exec i s = onReg s m off f)
    (hw : s.dev.writes m off = true) (hp : P (f s.dev.noAbort)) : Completes i s P :=
  .of_exec h (by rw [Dev.onWrite_of hw]; exact hp)

theorem Dev.on_wr_one (d : Dev) (f : Fld) (h : f.lo + f.w ≤ 64) (hw : 1 % 2 ^ f.w = 1) : (d.wr f 1).on f = true := by
  rw [Dev.on, Dev.rd_wr_same d f 1 h, hw]
  rfl

theorem Within.rd_eq {S : Scope} {d e : Dev} {f : Fld} (h : Within S d e)
  (hf : S.has (f.off % 0x20000000) = false) : e.rd f = d.rd f := by
  rw [Dev.rd, Dev.rd, h.2 _ hf]

theorem Within.on_eq {S : Scope} {d e : Dev} {f : Fld} (h : Within S d e)
  (hf : S.has (f.off % 0x20000000) = false) : e.on f = d.on f := by
  rw [Dev.on, Dev.on, h.rd_eq hf]

theorem Within.mode_eq {S : Scope} {d e : Dev} (h : Within S d e) (hp : Part.mode ∉ S.parts) : e.mode = d.mode := h.1 .mode hp

theorem posts_post (d : Dev) (e : EvDesc) (l : List (ℕ × ℕ × ℕ)) : Posts d (d.post e l) [e] := by
  simp [Posts, Dev.post, Dev.postInst]

/-! ### GLB_CTRL -/

section
variable {d : Dev} {m : ℕ}

theorem posts_ctrlRefuse (d : Dev) (m what : ℕ) : Posts d (d.ctrlRefuse m what) [Ev.GLB_CTRL_REFUSED] := posts_post _ _ _

/-- The refusal says what of GLB_CTRL was refused. -/
theorem ctrlRefuse_payload {r : EventRec} {what : ℕ} (hw : what < 256) (h : r ∈ (d.ctrlRefuse m what).posted.drop d.posted.length) :
    byteField r.payload 1 1 = what := by
  simp only [Dev.ctrlRefuse, Dev.post, Dev.postInst, List.drop_left, List.mem_singleton] at h
  subst h
  simp only [byteField, packBytes, List.map_cons, List.map_nil, List.foldl_cons, List.foldl_nil, BitVec.toNat_ofNat, Nat.shiftLeft_eq,
    Nat.shiftRight_eq_div_pow]
  omega

/-- MAINT_REQ is set, and a flush of every queue asked for. -/
def Dev.maintStarts (d : Dev) : Dev := (d.wr F.GLB_CTRL_MAINT_REQ 1).requestFlush 4 0xFFFF [(0, 524288)]

theorem maintReq_accepted {alsoFwd : Bool} (hmode : d.mode = .m2 ∨ d.mode = .m3) (h7 : d.m7 = false)
    (hreq : d.on F.GLB_CTRL_MAINT_REQ = false) :
    maintReq m alsoFwd d = if alsoFwd = true ∧ d.mode = .m2 then d.maintStarts.ctrlRefuse m 2 else d.maintStarts := by
  simp only [maintReq, hmode, h7, hreq, and_self, if_true, Bool.false_eq_true, if_false, Dev.maintStarts]

theorem maintReq_refused {alsoFwd : Bool} (h : (d.mode ≠ .m2 ∧ d.mode ≠ .m3) ∨ d.m7 = true) :
    maintReq m alsoFwd d = if alsoFwd then fwdEn m (d.ctrlRefuse m 1) else d.ctrlRefuse m 1 := by
  have hn : ¬ ((d.mode = .m2 ∨ d.mode = .m3) ∧ d.m7 = false) := by
    rintro ⟨h1, h2⟩
    obtain ⟨h3, h4⟩ | h3 := h
    · exact h1.elim h3 h4
    · rw [h2] at h3
      cases h3
  rw [maintReq, if_neg hn]

theorem maintStarts_on (d : Dev) : d.maintStarts.on F.GLB_CTRL_MAINT_REQ = true := Dev.on_wr_one d _ (by decide) rfl

theorem maintStarts_fwdEn (d : Dev) : d.maintStarts.on F.GLB_CTRL_FWD_EN = d.on F.GLB_CTRL_FWD_EN := by
  rw [Dev.on, Dev.on, show d.maintStarts.rd F.GLB_CTRL_FWD_EN = (d.wr F.GLB_CTRL_MAINT_REQ 1).rd F.GLB_CTRL_FWD_EN from rfl,
    Dev.rd_wr_beside d _ _ _ (by decide) (by decide)]

theorem maintStarts_flushes (d : Dev) : d.maintStarts.que.flushes.length = d.que.flushes.length + 1 := by
  simp [Dev.maintStarts, Dev.requestFlush]

theorem fabUp_wr_fwdEn (d : Dev) (x : ℕ) : (d.wr F.GLB_CTRL_FWD_EN x).fabUp = d.fabUp := by
  rw [Dev.fabUp, Dev.fabUp, Dev.rd_wr_off d _ _ _ (by decide)]

theorem isOwner_wr_fwdEn (d : Dev) (x : ℕ) : (d.wr F.GLB_CTRL_FWD_EN x).isOwner = d.isOwner := by
  simp only [Dev.isOwner, Dev.on]
  rw [Dev.rd_wr_off d _ _ _ (by decide), Dev.rd_wr_off d _ _ _ (by decide)]

theorem withMode_fwdEn (d : Dev) (k : Mode) : ((d.wr F.GLB_CTRL_FWD_EN 1).withMode fun e => e.setMode k).on F.GLB_CTRL_FWD_EN = true := by
  have hw : Within ⟨[.mode, .posted], [], []⟩ (d.wr F.GLB_CTRL_FWD_EN 1) ((d.wr F.GLB_CTRL_FWD_EN 1).withMode fun e => e.setMode k) :=
    .withMode (.setMode .refl rfl) rfl
  rw [hw.on_eq (by decide)]
  exact Dev.on_wr_one d F.GLB_CTRL_FWD_EN (by decide) rfl

theorem fwdEn_ignored (h : d.mode ≠ .m2) : fwdEn m d = d := if_pos h

/-- FWD_EN is set, and the device forwards in the mode that the twin leaves it. -/
theorem fwdEn_accepted (h : d.mode = .m2) (hlive : d.on F.IMG_STATUS_LIVE_VALID = true) (hreq : d.on F.GLB_CTRL_MAINT_REQ = false) :
    fwdEn m d = if d.twinOn then (d.wr F.GLB_CTRL_FWD_EN 1).enterTwin else (d.wr F.GLB_CTRL_FWD_EN 1).withMode fun e => e.setMode .m3 :=
      by
  have htwin : (d.wr F.GLB_CTRL_FWD_EN 1).twinOn = d.twinOn := by
    rw [Dev.twinOn, Dev.twinOn, Dev.on, Dev.on, Dev.rd_wr_off d _ _ _ (by decide)]
  simp only [fwdEn, h, hlive, hreq, htwin, ne_eq, not_true_eq_false, if_false, Bool.true_eq_false, Bool.false_eq_true, or_self]

theorem fwdEn_refused (h : d.mode = .m2) (hlive : d.on F.IMG_STATUS_LIVE_VALID = false) : fwdEn m d = d.ctrlRefuse m 2 := by
  rw [fwdEn, if_neg (not_not.2 h), if_pos (.inl hlive)]

/-! ### Modes and roles -/

theorem setMode_of_m2 {k : Mode} (h : d.mode = .m2) (hk : k ≠ .m0) : d.setMode k = { d with mode := k } := by
  simp [Dev.setMode, h, hk]

theorem mode_noteMode (d e : Dev) : (Dev.noteMode d e).mode = e.mode := by
  unfold Dev.noteMode
  split <;> rfl

theorem roleTo_mode_of_m2 {k : Mode} {sub : ℕ} (h : d.mode = .m2) (hk : k = .m4 ∨ k = .m6) : (d.roleTo k sub).mode = k := by
  have hk0 : k ≠ .m0 := by rintro rfl; simp at hk
  have hk5 : k ≠ .m5 := by rintro rfl; simp at hk
  have hc : d.copyStops.mode = .m2 := ((Within.copyStops (S := ⟨[.posted], [17], []⟩) .refl rfl).mode_eq (by decide)).trans h
  unfold Dev.roleTo
  rw [if_neg (by simp [setMode_of_m2 h hk0])]
  simp only [hc, hk5, reduceCtorEq, false_or, false_and, if_false]
  rw [(Within.pinsFollow (S := ⟨[.twn], [], []⟩) .refl rfl).mode_eq (by decide), Dev.post_mode, Dev.wr_mode, setMode_of_m2 hc hk0]

theorem setRole_of_m2 {k : Mode} {sub : ℕ} (h : d.mode = .m2) (hk : k = .m4 ∨ k = .m6) : (d.setRole k sub).mode = k :=
  roleTo_mode_of_m2 h hk

/-- FWD_EN has no part in who owns the port nor in the state of the fabric. -/
theorem enterTwin_owner (hfab : d.fabUp = true) (hown : d.isOwner = true) :
    (d.wr F.GLB_CTRL_FWD_EN 1).enterTwin = (d.wr F.GLB_CTRL_FWD_EN 1).setRole .m4 0 := by
  rw [Dev.enterTwin, fabUp_wr_fwdEn, isOwner_wr_fwdEn, hfab, hown]
  rfl

theorem enterTwin_standby (h : d.fabUp = false ∨ d.isOwner = false) :
    (d.wr F.GLB_CTRL_FWD_EN 1).enterTwin = (d.wr F.GLB_CTRL_FWD_EN 1).setRole .m6 1 := by
  rw [Dev.enterTwin, fabUp_wr_fwdEn, isOwner_wr_fwdEn, if_neg]
  obtain h | h := h <;> simp [h]

theorem setRole_fwdEn (d : Dev) (k : Mode) (sub : ℕ) : (d.setRole k sub).on F.GLB_CTRL_FWD_EN = d.on F.GLB_CTRL_FWD_EN :=
  (Within.setRole .refl (Scope.le_refl _)).on_eq (by decide)

/-! ### The entry of M10 -/

theorem held_fitReserve (d : Dev) : d.fitReserve.buf.held = d.buf.held := rfl

theorem held_lowCheck (d : Dev) : d.lowCheck.buf.held = d.buf.held := by
  have hports : (d.each (List.range 4) fun n e => e.settlePort n).buf.held = d.buf.held :=
    Dev.each_induction (fun e => e.buf.held = d.buf.held) _ (fun n e he => by
      unfold Dev.settlePort
      split
      · exact he
      · exact he) _ d rfl
  have hlow : ∀ e : Dev, e.lowNotice.buf.held = e.buf.held := by
    intro e
    have hlow : ∀ x : Dev, x.buf.held = e.buf.held → (x.each (List.range 3) fun p d1 =>
        { d1 with buf := { d1.buf with low := d1.buf.low.set (fun _ => false) p (e.lowFired p) } }).buf.held = e.buf.held := by
      intro x hx
      refine Dev.each_induction (fun y => y.buf.held = e.buf.held) _ ?_ _ x hx
      exact fun _ _ hy => hy
    unfold Dev.lowNotice
    dsimp only
    split <;> split <;> exact hlow _ rfl
  rw [Dev.lowCheck, hlow, held_fitReserve, hports]

/-- The steps of the entry of M10 leave no buffer held, no signal set in a pier and the mode as it is. -/
theorem emptied (e : Dev) : e.clearPiers.emptyBuffers.lowCheck.settle.mode = e.mode ∧
    e.clearPiers.emptyBuffers.lowCheck.settle.buf.held = [] ∧ e.clearPiers.emptyBuffers.lowCheck.settle.pir.ss = [] := by
  have hend : Within ⟨[.posted, .fresh, .lpt, .buf, .que, .dck], [4, 7, 14], [F.QUE_FLUSH_DROP.off, F.DCK_MIR_LOST.off]⟩ e.clearPiers
      e.clearPiers.emptyBuffers.lowCheck.settle := .settle (.lowCheck (.emptyBuffers .refl rfl) rfl) rfl
  have hclear : Within ⟨[.lpt, .pir, .que, .hst], [], [F.DCK_MIR_LOST.off]⟩ e e.clearPiers := .clearPiers .refl rfl
  have hset : ∀ x : Dev, x.settle.buf = x.buf := fun x => (Within.settle (S := ⟨[.que], [], []⟩) .refl rfl).1 .buf (by decide)
  refine ⟨(hend.mode_eq (by decide)).trans (hclear.mode_eq (by decide)), ?_, ?_⟩
  · rw [hset, held_lowCheck]
    rfl
  · rw [show e.clearPiers.emptyBuffers.lowCheck.settle.pir = e.clearPiers.pir from hend.1 .pir (by decide)]
    rfl

theorem m10EntryComplete_of (hreq : d.on F.GLB_CTRL_MAINT_REQ = true) (hmode : d.mode = .m2 ∨ d.mode = .m3) (hfl : d.que.flushes = []) :
    m10EntryComplete d = (d.withMode fun e => e.setMode .m10).clearPiers.emptyBuffers.lowCheck.settle := by
  rw [m10EntryComplete, if_pos ⟨hreq, hmode, hfl⟩]

theorem setMode_m10 (h : d.mode = .m2 ∨ d.mode = .m3) : (d.setMode .m10).mode = .m10 := by
  obtain h | h := h <;> simp [Dev.setMode, h]

end

/-- Settles O10: each request by the case of GLB_CTRL that it meets, and M10 by what its entry ends. -/
theorem modeRequestsComplete : Obligations.ModeRequestsComplete := by
  unfold Obligations.ModeRequestsComplete
  refine ⟨fun s m hw => ?_, fun s m hw hmode h7 hreq => ?_, fun s m hw h2 h => ?_, fun s m hw hmode hlive hreq htwin => ?_,
    fun s m hw hmode hlive => ?_, fun s m hw hmode h7 hreq => ?_, fun s m hw hmode h7 hreq => ?_, fun s m hw h hmode => ?_,
    fun s m hw hmode hlive hreq htwin hfab hown => ?_, fun s m hw hmode hlive hreq htwin h => ?_, fun s m hw hmode => ?_,
    fun s hreq hmode hfl => ?_⟩
  · exact .of_onReg rfl hw (Dev.on_wr_one _ _ (by decide) rfl)
  · refine .of_onReg rfl hw ?_
    rw [maintReq_accepted (d := s.dev.noAbort) hmode h7 hreq, if_neg (by simp)]
    exact ⟨maintStarts_on _, rfl, by simp [Dev.lineStopped, maintStarts_on], maintStarts_flushes _⟩
  · refine .of_onReg rfl hw ?_
    rw [maintReq_refused (d := s.dev.noAbort) (h.imp_left fun h3 => ⟨h2, h3⟩)]
    exact ⟨rfl, rfl, posts_ctrlRefuse _ _ _⟩
  · refine .of_onReg rfl hw ?_
    rw [fwdEn_accepted (d := s.dev.noAbort) hmode hlive hreq, if_neg (fun h => by cases htwin.symm.trans h)]
    exact ⟨by rw [Dev.withMode, mode_noteMode, setMode_of_m2 (by exact hmode) (by decide)], withMode_fwdEn _ _⟩
  · refine .of_onReg rfl hw ?_
    rw [fwdEn_refused (d := s.dev.noAbort) hmode hlive]
    exact ⟨hmode, posts_ctrlRefuse _ _ _⟩
  · refine .of_onReg rfl hw ?_
    rw [maintReq_accepted (d := s.dev.noAbort) (.inl hmode) h7 hreq, if_pos ⟨rfl, hmode⟩]
    exact ⟨maintStarts_on _, maintStarts_fwdEn _, hmode, maintStarts_flushes _, posts_ctrlRefuse _ _ _,
      fun r hr => ctrlRefuse_payload (d := s.dev.noAbort.maintStarts) (by decide) hr⟩
  · refine .of_onReg rfl hw ?_
    rw [maintReq_accepted (d := s.dev.noAbort) (.inr hmode) h7 hreq, if_neg fun h => by cases hmode.symm.trans h.2]
    exact ⟨maintStarts_on _, hmode, rfl⟩
  · refine .of_onReg rfl hw ?_
    rw [maintReq_refused (d := s.dev.noAbort) h, if_pos rfl, fwdEn_ignored (by exact hmode)]
    exact ⟨rfl, rfl, posts_ctrlRefuse _ _ _⟩
  · refine .of_onReg rfl hw ?_
    rw [fwdEn_accepted (d := s.dev.noAbort) hmode hlive hreq, if_pos (by exact htwin), enterTwin_owner (by exact hfab) (by exact hown)]
    exact ⟨setRole_of_m2 hmode (.inl rfl), (setRole_fwdEn _ _ _).trans (Dev.on_wr_one _ _ (by decide) rfl)⟩
  · refine .of_onReg rfl hw ?_
    rw [fwdEn_accepted (d := s.dev.noAbort) hmode hlive hreq, if_pos (by exact htwin), enterTwin_standby (by exact h)]
    exact ⟨setRole_of_m2 hmode (.inr rfl), (setRole_fwdEn _ _ _).trans (Dev.on_wr_one _ _ (by decide) rfl)⟩
  · exact .of_onReg rfl hw (fwdEn_ignored (d := s.dev.noAbort) (by exact hmode))
  · refine .of_exec rfl ?_
    rw [m10EntryComplete_of hreq hmode hfl]
    obtain ⟨hm, hheld, hss⟩ := emptied (s.dev.withMode fun e => e.setMode .m10)
    exact ⟨by rw [hm, Dev.withMode, mode_noteMode, setMode_m10 hmode], hheld, hss⟩

end Sys2Proof.Machine
end

