-- ==== Sys2Proof/Proofs/Submissions.lean ====
section
/-! PROOF. Submissions, the slots and the entry window (R195, R196, R199, R201, R216). -/

namespace Sys2Proof.Machine

/-! ### Fields of a wide word -/

theorem byteField_lt {w : ℕ} (x : BitVec w) (k n : ℕ) : byteField x k n < 2 ^ (8 * n) := Nat.mod_lt _ (Nat.two_pow_pos _)

theorem toNat_word_byteField {w : ℕ} (x : BitVec w) (k : ℕ) : (BitVec.ofNat 32 (byteField x k 4)).toNat = byteField x k 4 :=
  (BitVec.toNat_ofNat _ _).trans (Nat.mod_eq_of_lt (byteField_lt x k 4))

theorem toNat_lastRead_answer {w : ℕ} (d : Dev) (x : BitVec w) (k : ℕ) : (d.answer (byteField x k 4)).lastRead.toNat = byteField x k 4 :=
  toNat_word_byteField x k

/-- The word that is put at a byte is the word found there. -/
theorem byteField_setBits {w : ℕ} (x : BitVec w) {b v : ℕ} (h : 8 * b + 32 ≤ w) :
    byteField (setBits x (8 * b + 31) (8 * b) v) b 4 = v % 2 ^ 32 := by
  have hw : 8 * b + 31 + 1 - 8 * b = 32 := by omega
  refine Nat.eq_of_testBit_eq fun i => ?_
  simp only [byteField, setBits, hw, Nat.testBit_mod_two_pow, Nat.testBit_shiftRight, BitVec.testBit_toNat, BitVec.getLsbD_or,
    BitVec.getLsbD_and, BitVec.getLsbD_not, BitVec.getLsbD_ofNat, Nat.testBit_shiftLeft, Nat.testBit_two_pow_sub_one]
  by_cases hi : i < 32
  · have h1 : 8 * b + i < w := by omega
    simp [hi, h1]
  · simp [hi]

/-- The first word that is put back is as it was. -/
theorem byteField_setBits_self (x y : BitVec 2048) : byteField (setBits x 31 0 (bits y 31 0)) 0 4 = byteField y 0 4 :=
  (byteField_setBits (b := 0) x (by decide)).trans (Nat.mod_mod _ _)

/-! ### The queue of the table engine -/

section
variable {d : Dev} {m : ℕ} {r : BitVec 2048}

/-- With no change in the queue that is still to be mirrored, none is. -/
theorem mirrorWaiting_of_none (h : ∀ q ∈ d.tbl.queue, d.unmirrored q = false) : d.mirrorWaiting = d := by
  have hdue : (d.tbl.queue.takeWhile fun q => reqOp q.req != 9).filter d.unmirrored = [] :=
    List.filter_eq_nil_iff.2 fun q hq => by simp [h q ((List.takeWhile_prefix _).subset hq)]
  simp only [Dev.mirrorWaiting, List.span_eq_takeWhile_dropWhile, hdue, if_true]

/-- A change behind others that are mirrored already, and behind no BULK, is mirrored with its span. -/
theorem mirrorWaiting_queue {l : List TaeReq} {q : TaeReq} (hq : d.tbl.queue = l ++ [q])
    (hl : ∀ x ∈ l, reqOp x.req ≠ 9 ∧ d.unmirrored x = false) (h9 : reqOp q.req ≠ 9) (hun : d.unmirrored q = true) :
    d.mirrorWaiting.tbl.queue = l ++ [{ q with apply := some d.mirrorSpan }] := by
  have hall : ∀ x ∈ d.tbl.queue, (reqOp x.req != 9) = true := by
    intro x hx
    rw [hq, List.mem_append, List.mem_singleton] at hx
    obtain hx | rfl := hx
    · exact bne_iff_ne.2 (hl x hx).1
    · exact bne_iff_ne.2 h9
  have htake : (d.tbl.queue.takeWhile fun x => reqOp x.req != 9) = l ++ [q] := by rw [List.takeWhile_eq_self_iff.2 hall, hq]
  have hdrop : (d.tbl.queue.dropWhile fun x => reqOp x.req != 9) = [] := List.dropWhile_eq_nil_iff.2 hall
  have hdue : (l ++ [q]).filter d.unmirrored = [q] := by
    rw [List.filter_append, List.filter_eq_nil_iff.2 fun x hx => by simp [(hl x hx).2]]
    simp [hun]
  have hmark : (l.map fun x => if d.unmirrored x then { x with apply := some d.mirrorSpan } else x) = l :=
    (List.map_congr_left fun x hx => by rw [if_neg (by simp [(hl x hx).2])]).trans (List.map_id' l)
  simp only [Dev.mirrorWaiting, List.span_eq_takeWhile_dropWhile, htake, hdrop, hdue, List.cons_ne_nil, if_false, List.append_nil]
  rw [show ∀ e : Dev, (e.each [q] fun x y => y.mirror 1 x.master (bytesOf x.req)).tbl = e.tbl from fun e =>
    (Within.each (S := ⟨[.twn], [], []⟩) .refl fun x _ y hy => .mirror hy rfl).1 .tbl (by decide)]
  simp [hmark, hun]

/-- The request that a submission queues. -/
def Dev.submitted (d : Dev) (m : ℕ) (slot : Option ℕ) (r : BitVec 2048) (win : Option ℕ) : TaeReq :=
  { req := r, seq := (d.tbl.seq + 1) % 2 ^ 32, master := m, slot := slot, apply := none, recs := none, win := win }

/-- A submission queued, before any change that waits is mirrored. -/
def Dev.queued (d : Dev) (m : ℕ) (slot : Option ℕ) (r : BitVec 2048) (win : Option ℕ) : Dev :=
  let d1 := { d with tbl := { d.tbl with seq := (d.tbl.seq + 1) % 2 ^ 32, queue := d.tbl.queue ++ [d.submitted m slot r win] } }
  match slot with
  | some n => { d1 with tbl := { d1.tbl with resp := d1.tbl.resp.set (fun _ => TaeResp.reset) n ⟨stQueued, 0, (d.tbl.seq + 1) % 2 ^ 32,
    0, 0⟩ } }
  | none => d1

theorem taeQueue_eq (d : Dev) (m : ℕ) (slot : Option ℕ) (r : BitVec 2048) (win : Option ℕ) :
    d.taeQueue m slot r win = (d.queued m slot r win).mirrorWaiting := by
  cases slot <;> rfl

theorem queued_queue (d : Dev) (m : ℕ) (slot : Option ℕ) (r : BitVec 2048) (win : Option ℕ) :
    (d.queued m slot r win).tbl.queue = d.tbl.queue ++ [d.submitted m slot r win] := by
  cases slot <;> rfl

theorem queued_resp (d : Dev) (m n : ℕ) (r : BitVec 2048) (win : Option ℕ) :
    (d.queued m (some n) r win).tbl.resp.get (fun _ => TaeResp.reset) n = ⟨stQueued, 0, (d.tbl.seq + 1) % 2 ^ 32, 0, 0⟩ := by
  simp [Dev.queued]

theorem queued_winStage (d : Dev) (m : ℕ) (slot : Option ℕ) (r : BitVec 2048) (win : Option ℕ) :
    (d.queued m slot r win).tbl.winStage = d.tbl.winStage := by
  cases slot <;> rfl

theorem queued_unmirrored (d : Dev) (m : ℕ) (slot : Option ℕ) (r : BitVec 2048) (win : Option ℕ) (q : TaeReq) :
    (d.queued m slot r win).unmirrored q = d.unmirrored q := by
  cases slot <;> rfl

theorem unmirrored_of_mirrorOn (h : d.mirrorOn = false) (q : TaeReq) : d.unmirrored q = false := by
  simp only [Dev.unmirrored, h, Bool.false_and]

theorem taeQueue_of_mirrorOn {slot win : Option ℕ} (h : d.mirrorOn = false) : d.taeQueue m slot r win = d.queued m slot r win := by
  rw [taeQueue_eq, mirrorWaiting_of_none fun q _ => by rw [queued_unmirrored, unmirrored_of_mirrorOn h]]

theorem taeSubmit_queued {n : ℕ} (h : (d.slotResp n).status ≠ 1) : taeSubmit m n r d = (d.setSlotReq n r).taeQueue m (some n) r := if_neg
  h

theorem taeSubmit_refused {n : ℕ} (h : (d.slotResp n).status = 1) :
    taeSubmit m n r d = (d.setSlotReq n (setBits r 31 0 (bits (d.slotReq n) 31 0))).taeRefused none 1 1 m n := if_pos h

theorem slotReq_setSlotReq (d : Dev) (n : ℕ) (r : BitVec 2048) : (d.setSlotReq n r).slotReq n = r := SMap.get_set_same _ _ _ _

theorem slotReq_taeRefused (d : Dev) (t : Option ℕ) (what why m slot n : ℕ) : (d.taeRefused t what why m slot).slotReq n = d.slotReq n :=
  rfl

/-- On a device that mirrors, a change with no span yet is still to be mirrored. -/
theorem unmirrored_of_change {q : TaeReq} (h : d.mirrorOn = true) (hop : opChanges (reqOp r) = true) (h9 : reqOp r ≠ 9) (hr : q.req = r)
    (ha : q.apply = none) : d.unmirrored q = true := by
  simp [Dev.unmirrored, h, hr, hop, h9, ha]

theorem posts_taeRefused (d : Dev) (t : Option ℕ) (what why m slot : ℕ) : Posts d (d.taeRefused t what why m slot) [Ev.TBL_TAE_REFUSED]
  := by
  simp [Posts, Dev.taeRefused, Dev.postTbl, Dev.postInst]

end

/-! ### The slots and the entry window -/

section
variable {d : Dev} {m off : ℕ} {data : Word}

theorem slotRead_resp (h : 256 ≤ off % 512) :
    d.slotRead off = d.answer (byteField (respBytes (d.slotResp (off / 512))) (off % 512 / 4 * 4 - 256) 4) := if_neg (by omega)

theorem slotWrite_request (h4 : 4 ≤ off % 512) (h : off % 512 < 256) : d.slotWrite m off data =
    d.setSlotReq (off / 512) (setBits (d.slotReq (off / 512)) (8 * (off % 512 / 4 * 4) + 31) (8 * (off % 512 / 4 * 4)) data.toNat) := by
  rw [Dev.slotWrite, if_neg (by omega), if_neg (by omega)]

theorem off_le_of_winEntry {k i b : ℕ} (h : d.winEntry off = some (k, i, b)) : ¬ off < 0x40000 := by
  intro hlt
  rw [Dev.winEntry] at h
  dsimp only at h
  rw [if_pos (.inl (by omega))] at h
  cases h

/-- An offset of the window names an entry that the memory has. -/
theorem winEntry_bounds {k i b : ℕ} (h : d.winEntry off = some (k, i, b)) : kindCap k ≠ 0 ∧ i < kindCap k := by
  rw [Dev.winEntry] at h
  dsimp only at h
  split at h
  · cases h
  rename_i hno
  split at h
  · rename_i hi
    cases h
    exact ⟨fun hk => hno (.inr (.inr hk)), hi⟩
  · cases h

theorem kind_bounds {k : ℕ} (h : kindCap k ≠ 0) : 2 ≤ k ∧ k ≤ 10 := by
  unfold kindCap at h
  split_ifs at h <;> omega

theorem kindCap_le (k : ℕ) : kindCap k ≤ 67108864 := by
  unfold kindCap
  split_ifs <;> omega

theorem readIndexReq_toNat {k i : ℕ} (hk : k ≤ 10) (hi : i < 67108864) : (readIndexReq k i).toNat = 4 + k * 2 ^ 32 + i * 2 ^ 64 := by
  have hlt : 4 + k * 2 ^ 32 + i * 2 ^ 64 < 2 ^ 96 := by omega
  have hmod : ∀ n, 96 ≤ n → (BitVec.ofNat n (4 + k * 2 ^ 32 + i * 2 ^ 64)).toNat = 4 + k * 2 ^ 32 + i * 2 ^ 64 := fun n hn =>
    (BitVec.toNat_ofNat _ n).trans (Nat.mod_eq_of_lt (hlt.trans_le (Nat.pow_le_pow_right two_pos hn)))
  rw [readIndexReq, Nat.shiftLeft_eq, Nat.shiftLeft_eq, hmod 2048 (by decide)]

theorem readIndexReq_fields {k i : ℕ} (hk : k ≤ 10) (hi : i < 67108864) :
    reqOp (readIndexReq k i) = 4 ∧ reqKind (readIndexReq k i) = k ∧ reqIndex (readIndexReq k i) = i := by
  simp only [reqOp, reqKind, reqIndex, byteField, readIndexReq_toNat hk hi, Nat.shiftRight_eq_div_pow]
  omega

theorem entryWindowRead_miss {k i b : ℕ} (h : d.winEntry off = some (k, i, b)) (hl : d.tbl.winLatch.get (fun _ => none) m = none) :
    entryWindowRead m off d = Dev.taeDrain (d.taeQueue m none (readIndexReq k i) (some b)).tbl.queue.length
      (d.taeQueue m none (readIndexReq k i) (some b)) := by
  rw [entryWindowRead, if_neg (off_le_of_winEntry h), h]
  simp only [hl]

theorem entryWindowRead_held {k i b : ℕ} {e : BitVec 1024} (h : d.winEntry off = some (k, i, b))
    (hl : d.tbl.winLatch.get (fun _ => none) m = some (memKey k i, e)) (hb : 8 ≤ b) : entryWindowRead m off d = d.answer (entryWord e b)
      := by
  rw [entryWindowRead, if_neg (off_le_of_winEntry h), h]
  simp only [hl, ge_iff_le, hb, and_self, if_true]

/-- A READ_INDEX is no change, of whatever entry. -/
theorem unmirrored_of_readIndex {q : TaeReq} (hq : reqOp q.req = 4) (d : Dev) : d.unmirrored q = false := by
  simp [Dev.unmirrored, hq, opChanges]

/-- The only READ_INDEX of the queue executes at once, where the rate of its path allows it. -/
theorem taeDrain_readIndex {q : TaeReq} (hq : d.tbl.queue = [q]) (hop : reqOp q.req = 4) (ha : q.apply = none)
    (hr : d.spanCount d.tbl.idxOps < 64) : Dev.taeDrain 1 d = d.taeHead q := by
  have hmay : d.taeMay q = true := by simp [Dev.taeMay, Dev.mayRun, hop, hr]
  have hdue : d.taeDue q = true := by simp [Dev.taeDue, ha, hop, opChanges]
  simp only [Dev.taeDrain, hq, hop, unmirrored_of_readIndex hop, hdue, hmay, Nat.reduceEqDiff, false_and, Bool.false_eq_true, or_self,
    if_false,
    Bool.and_self, if_true]

/-- A READ_INDEX of an entry that the memory has ends OK with the entry as it is shown. -/
theorem taeHead_readIndex {q : TaeReq} {k i : ℕ} (hq : q.req = readIndexReq k i) (hk : kindCap k ≠ 0) (hi : i < kindCap k) :
    d.taeHead q = (d.countPath 4).taeEnd q ⟨stOk, 0, i, d.shownEntry k i⟩ := by
  have hi' := hi.trans_le (kindCap_le k)
  obtain ⟨hop, hkind, hidx⟩ := readIndexReq_fields (kind_bounds hk).2 hi'
  have hshown : (d.countPath 4).shownEntry k i = d.shownEntry k i := rfl
  simp only [Dev.taeHead, Dev.taeBarred, Dev.taeOp, Dev.requestSeen, Dev.doReadIndex, hq, hop, hkind, hidx, opChanges, hk, not_le.2 hi,
    hshown,
    Nat.reduceBEq, Nat.reduceLeDiff, decide_false, decide_true, Bool.false_and, Bool.or_self, Bool.false_eq_true, if_false, if_true,
    Nat.reduceEqDiff]

theorem winLatch_winAnswer (d : Dev) (m kind i b : ℕ) (e : BitVec 1024) :
    (d.winAnswer m kind i b e).tbl.winLatch.get (fun _ => none) m = some (memKey kind i, e) := by
  simp [Dev.winAnswer]

/-- What the end of the READ_INDEX behind an entry window read leaves. -/
theorem taeEnd_window {q : TaeReq} {k i b x : ℕ} {e : BitVec 1024} (hs : q.slot = none) (hw : q.win = some b)
    (hf : reqKind q.req = k ∧ reqIndex q.req = i) :
    (d.taeEnd q ⟨stOk, x, i, e⟩).lastRead = BitVec.ofNat 32 (entryWord e b) ∧ (d.taeEnd q ⟨stOk, x, i, e⟩).lastAbort = false ∧
      (d.taeEnd q ⟨stOk, x, i, e⟩).tbl.queue = d.tbl.queue.tail ∧
      (d.taeEnd q ⟨stOk, x, i, e⟩).tbl.winLatch.get (fun _ => none) q.master = some (memKey k i, e) := by
  obtain ⟨rfl, rfl⟩ := hf
  simp only [Dev.taeEnd, hs, hw]
  rw [if_neg (by decide)]
  exact ⟨rfl, rfl, rfl, winLatch_winAnswer _ _ _ _ b _⟩

end

/-- The read of an entry with no request before it is answered at once. -/
theorem entryWindowRead_alone {d : Dev} {m off k i b : ℕ} (h : d.winEntry off = some (k, i, b))
    (hl : d.tbl.winLatch.get (fun _ => none) m = none) (hq : d.tbl.queue = []) (hr : d.spanCount d.tbl.idxOps < 64) :
    entryWindowRead m off d = ((d.queued m none (readIndexReq k i) (some b)).countPath 4).taeEnd
      (d.submitted m none (readIndexReq k i) (some b)) ⟨stOk, 0, i, d.shownEntry k i⟩ := by
  obtain ⟨hk, hi⟩ := winEntry_bounds h
  have hop := (readIndexReq_fields (kind_bounds hk).2 (hi.trans_le (kindCap_le k))).1
  have hqueue : (d.queued m none (readIndexReq k i) (some b)).tbl.queue = [d.submitted m none (readIndexReq k i) (some b)] := by
    rw [queued_queue, hq, List.nil_append]
  have hrate : (d.queued m none (readIndexReq k i) (some b)).spanCount (d.queued m none (readIndexReq k i) (some b)).tbl.idxOps < 64 := hr
  have hshown : (d.queued m none (readIndexReq k i) (some b)).shownEntry k i = d.shownEntry k i := rfl
  have hreq : (d.submitted m none (readIndexReq k i) (some b)).req = readIndexReq k i := rfl
  have hop' : reqOp (d.submitted m none (readIndexReq k i) (some b)).req = 4 := hreq ▸ hop
  have hnone : (d.queued m none (readIndexReq k i) (some b)).mirrorWaiting = d.queued m none (readIndexReq k i) (some b) := by
    refine mirrorWaiting_of_none fun q hmem => ?_
    rw [hqueue, List.mem_singleton] at hmem
    rw [hmem]
    exact unmirrored_of_readIndex hop' _
  rw [entryWindowRead_miss h hl, taeQueue_eq, hnone, hqueue, List.length_singleton, taeDrain_readIndex hqueue hop' rfl hrate,
    taeHead_readIndex hreq hk hi, hshown]

/-! ### Writes of an entry -/

section
variable {d : Dev} {m off k i b : ℕ} {data : Word}

/-- One word of an entry does not complete it. -/
theorem one_word_ne {k : ℕ} (hk : kindCap k ≠ 0) (h7 : 7 ≤ k) (n : ℕ) : 0 ||| (1 <<< n) ≠ 2 ^ (kindBytes k / 4) - 1 := by
  have hodd : ∀ w, 2 ≤ w → 1 <<< n ≠ 2 ^ w - 1 := by
    intro w hw h
    have h0 := congrArg (Nat.testBit · 0) h
    have h1 := congrArg (Nat.testBit · 1) h
    simp only [Nat.testBit_shiftLeft, Nat.testBit_two_pow_sub_one] at h0 h1
    have hw0 : 0 < w := by omega
    have hw1 : 1 < w := by omega
    simp only [hw0, hw1, decide_true, Bool.and_eq_true, decide_eq_true_eq] at h0 h1
    obtain ⟨h0, -⟩ := h0
    obtain rfl : n = 0 := by omega
    exact absurd h1 (by decide)
  rw [Nat.zero_or]
  refine hodd _ ?_
  obtain ⟨-, hle⟩ := kind_bounds hk
  interval_cases k <;> decide

/-- The staging buffer of the master holds `x`. -/
def Dev.stageEntry (d : Dev) (m : ℕ) (x : Option (ℕ × ℕ × BitVec 1024)) : Dev :=
  { d with tbl := { d.tbl with winStage := d.tbl.winStage.set (fun _ => none) m x } }

theorem winStage_stageEntry (d : Dev) (m : ℕ) (x : Option (ℕ × ℕ × BitVec 1024)) :
    (d.stageEntry m x).tbl.winStage.get (fun _ => none) m = x := SMap.get_set_same _ _ _ _

/-- The staging buffer of the master takes a word of a new entry. -/
theorem entryWindowWrite_first (h : d.winEntry off = some (k, i, b)) (h7 : 7 ≤ k) (h5 : d.mode ≠ .m5) (h6 : d.mode ≠ .m6)
    (hst : d.tbl.winStage.get (fun _ => none) m = none) :
    entryWindowWrite m off data d =
      d.stageEntry m (some (memKey k i, 1 <<< (b / 4), setBits 0 (32 * (b / 4) + 31) (32 * (b / 4)) data.toNat)) := by
  have hne := one_word_ne (winEntry_bounds h).1 h7 (b / 4)
  rw [Nat.zero_or] at hne
  rw [entryWindowWrite, if_neg (off_le_of_winEntry h), h]
  simp only [hst, not_lt.2 h7, h5, h6, hne, or_self, false_and, if_false, Bool.false_eq_true, Nat.zero_or, Dev.stageEntry]

/-- The word that completes the entry submits it. -/
theorem entryWindowWrite_last {mask : ℕ} {e : BitVec 1024} (h : d.winEntry off = some (k, i, b)) (h7 : 7 ≤ k) (h5 : d.mode ≠ .m5)
    (h6 : d.mode ≠ .m6) (hst : d.tbl.winStage.get (fun _ => none) m = some (memKey k i, mask, e))
    (hfull : mask ||| (1 <<< (b / 4)) = 2 ^ (kindBytes k / 4) - 1) :
    entryWindowWrite m off data d = (d.stageEntry m none).taeQueue m none
      (writeIndexReq k i (setBits e (32 * (b / 4) + 31) (32 * (b / 4)) data.toNat)) := by
  rw [entryWindowWrite, if_neg (off_le_of_winEntry h), h]
  simp only [hst, not_lt.2 h7, h5, h6, hfull, or_self, false_and, if_false, bne_self_eq_false, Bool.false_eq_true, if_true,
    Dev.stageEntry]

end

theorem hasBar2_of_ne {m : ℕ} (h : m ≠ 7) : hasBar2 m = true := bne_iff_ne.2 h

theorem not_hasBar2 {m : ℕ} (h : m = 7) : hasBar2 m = false := by rw [h]; rfl

/-- Settles O22: submissions by what the queue becomes, the window by the entry that its offset names. -/
theorem submissionsComplete : Obligations.SubmissionsComplete := by
  unfold Obligations.SubmissionsComplete
  refine ⟨fun s m n r hw hm hmir hst => ?_, fun s m n r hw hm hmir hst hop h9 hq => ?_, fun s m n r hw hm hst => ?_, fun s m n r hm => ?_,
    fun s m off hr hm => ?_, fun s m off data hm => ?_, fun s m off hr hm hoff hresp => ?_, fun s m off data hw hm hoff h4 h256 => ?_,
    fun s m off k i b hr hm hwin hq hrate hl => ?_, fun s m off k i b e hr hm hwin hl hb => ?_,
    fun s m off data k i b hw hm hwin h7 h5 h6 hst => ?_, fun s m off data k i b mask e hw hm hmir hwin h7 h5 h6 hst hfull => ?_⟩
  · refine .of_onReg rfl hw ?_
    rw [if_pos (hasBar2_of_ne hm), taeSubmit_queued (by exact hst), taeQueue_of_mirrorOn (by exact hmir), queued_resp]
    exact ⟨_, queued_queue _ _ _ _ _, rfl, rfl, rfl, rfl, rfl, rfl, rfl⟩
  · refine .of_onReg rfl hw ?_
    rw [if_pos (hasBar2_of_ne hm), taeSubmit_queued (by exact hst), taeQueue_eq]
    refine ⟨_, mirrorWaiting_queue (queued_queue _ _ _ _ _) (fun x hx => ⟨(hq x hx).1, (hq x hx).2⟩) (by exact h9) ?_, rfl, rfl, rfl⟩
    exact (unmirrored_of_change hmir hop h9 rfl rfl)
  · refine .of_onReg rfl hw ?_
    rw [if_pos (hasBar2_of_ne hm), taeSubmit_refused (by exact hst)]
    refine ⟨rfl, rfl, ?_, posts_taeRefused _ _ _ _ _ _⟩
    rw [slotReq_taeRefused, slotReq_setSlotReq]
    exact byteField_setBits_self _ _
  · refine .of_exec rfl ?_
    simp only [not_hasBar2 hm, Bool.false_eq_true, if_false, Dev.onWrite, ite_self]
    exact ⟨rfl, (List.append_nil _).symm⟩
  · refine .of_exec rfl ?_
    simp only [Dev.onRead_of hr, not_hasBar2 hm, Bool.false_eq_true, if_false]
    exact ⟨Dev.answer_tbl _ _, rfl⟩
  · refine .of_exec rfl ?_
    simp only [not_hasBar2 hm, Bool.false_eq_true, if_false, Dev.onWrite, ite_self]
    exact ⟨rfl, (List.append_nil _).symm⟩
  · refine .of_exec rfl ?_
    rw [Dev.onRead_of hr, if_pos (hasBar2_of_ne hm), entryWindowRead, if_pos hoff, slotRead_resp hresp, toNat_lastRead_answer]
    exact ⟨Dev.answer_tbl _ _, rfl⟩
  · refine .of_onReg rfl hw ?_
    rw [if_pos (hasBar2_of_ne hm), entryWindowWrite, if_pos hoff, slotWrite_request h4 h256]
    refine ⟨rfl, rfl, ?_⟩
    rw [slotReq_setSlotReq, byteField_setBits _ (by omega)]
    exact Nat.mod_eq_of_lt data.isLt
  · refine .of_exec rfl ?_
    rw [Dev.onRead_of hr, if_pos (hasBar2_of_ne hm), entryWindowRead_alone hwin hl hq hrate]
    obtain ⟨hlast, habort, hqueue, hlatch⟩ := taeEnd_window (d := (s.dev.queued m.val none (readIndexReq k i) (some b)).countPath 4)
      (q := s.dev.submitted m.val none (readIndexReq k i) (some b)) (x := 0) (e := s.dev.shownEntry k i) rfl rfl
      (readIndexReq_fields (kind_bounds (winEntry_bounds hwin).1).2 ((winEntry_bounds hwin).2.trans_le (kindCap_le k))).2
    exact ⟨by rw [hlast]; exact toNat_word_byteField _ _, habort, by rw [hqueue]; exact congrArg (fun l => (l ++ [_]).tail) hq, hlatch⟩
  · refine .of_exec rfl ?_
    rw [Dev.onRead_of hr, if_pos (hasBar2_of_ne hm), entryWindowRead_held hwin hl hb]
    exact ⟨toNat_lastRead_answer _ _ _, rfl⟩
  · refine .of_onReg rfl hw ?_
    rw [if_pos (hasBar2_of_ne hm), entryWindowWrite_first (d := s.dev.noAbort) hwin h7 h5 h6 hst]
    exact ⟨rfl, winStage_stageEntry _ _ _⟩
  · refine .of_onReg rfl hw ?_
    rw [if_pos (hasBar2_of_ne hm), entryWindowWrite_last (d := s.dev.noAbort) hwin h7 h5 h6 hst hfull, taeQueue_of_mirrorOn (by exact
      hmir),
      queued_winStage]
    exact ⟨winStage_stageEntry _ _ _, _, queued_queue _ _ _ _ _, rfl, rfl⟩

end Sys2Proof.Machine
end

