-- ==== Sys2Proof/Proofs/Accesses.lean ====
section
/-! PROOF. Accesses that reach their register, and those that do not (R8, R10, R26, R27, R343). -/

namespace Sys2Proof.Machine

/-! ### Accesses that reach their register -/

section
variable {d : Dev} {m off : ℕ} {data : Word} {r : RegAt}

theorem answersAt_of_windowAnswers (h : d.windowAnswers off = true) : d.answersAt off = true := by rw [Dev.answersAt, h, Bool.true_or]

theorem reaches_of_writes (h : d.writes m off = true) : d.reaches m off = true ∧ d.answersAt off = true := by
  simp only [Dev.writes, Bool.and_eq_true] at h
  exact ⟨h.1.1, answersAt_of_windowAnswers h.1.2⟩

theorem reaches_of_reads (h : d.reads m off = true) : d.reaches m off = true ∧ d.answersAt off = true := by
  simp only [Dev.reads, Bool.and_eq_true] at h
  exact ⟨h.1, answersAt_of_windowAnswers h.2⟩

theorem not_unreached (h : d.reaches m off = true ∧ d.answersAt off = true) : ¬ (d.reaches m off = false ∨ d.answersAt off = false) := by
  simp [h.1, h.2]

theorem unmapped_of_regAt (hb : ¬ (0x9800000 ≤ off ∧ off < 0x9900000)) (hr : regAt off = some r) : unmapped off = false := by
  rw [unmapped, if_neg hb, hr]
  rfl

theorem halfAt_of_regAt (hb : ¬ (0x9800000 ≤ off ∧ off < 0x9900000)) (hr : regAt off = some r) (hw : r.wide = true) :
    halfAt off r.high = true := by
  rw [halfAt, if_neg hb, hr]
  simp [hw]

/-- A write that reaches a register outside the broadcast window. -/
theorem busWrite_of_regAt (hw : d.writes m off = true) (hb : ¬ (0x9800000 ≤ off ∧ off < 0x9900000)) (hr : regAt off = some r) :
    d.busWrite m off data = if r.wide then d.noAbort.writeHalf m r data else d.noAbort.write32 m r data := by
  have hreach : ¬ (d.noAbort.reaches m off = false ∨ d.noAbort.answersAt off = false) := not_unreached (d := d.noAbort)
    (reaches_of_writes hw)
  have hwr : d.noAbort.writes m off = true := hw
  simp only [Dev.busWrite, hreach, unmapped_of_regAt hb hr, hwr, hb, hr, Bool.true_eq_false, Bool.false_eq_true, if_false]

/-- A read that reaches a register outside the broadcast window. -/
theorem busRead_of_regAt (hreach : d.reaches m off = true ∧ d.answersAt off = true) (hb : ¬ (0x9800000 ≤ off ∧ off < 0x9900000))
    (hr : regAt off = some r) : d.busRead m off = if r.high then d.readHigh m r else d.readLow m r := by
  have hacc : d.accessed off = some r := by rw [Dev.accessed, if_neg hb, hr]
  simp only [Dev.busRead, not_unreached hreach, unmapped_of_regAt hb hr, hacc, Bool.false_eq_true, if_false]

theorem busRead_of_unreached (h : d.reaches m off = false ∨ d.answersAt off = false) : d.busRead m off = d.answer 0 := by
  rw [Dev.busRead, if_pos h]

/-- A write that does not reach its register changes nothing but the end of the access. -/
theorem busWrite_of_not_writes (hu : unmapped off = false) (hw : d.writes m off = false) : d.busWrite m off data = d.noAbort := by
  have hwr : d.noAbort.writes m off = false := hw
  simp only [Dev.busWrite, hu, hwr, Bool.false_eq_true, if_false, if_true, ite_self]

theorem busWrite_of_unmapped (hreach : d.reaches m off = true ∧ d.answersAt off = true) (hu : unmapped off = true) :
    d.busWrite m off data = d.noAbort.postUnmapped m off 1 := by
  have hn : ¬ (d.noAbort.reaches m off = false ∨ d.noAbort.answersAt off = false) := not_unreached (d := d.noAbort) hreach
  simp only [Dev.busWrite, hn, hu, if_false, if_true]

theorem busRead_of_unmapped (hreach : d.reaches m off = true ∧ d.answersAt off = true) (hu : unmapped off = true) :
    d.busRead m off = (d.answer 0).postUnmapped m off 0 := by
  simp only [Dev.busRead, not_unreached hreach, hu, if_false, if_true]

/-- A write that reaches the broadcast window. -/
theorem busWrite_of_broadcast {o : ℕ} (ho : o < 0x100000) (hw : d.writes m (0x9800000 + o) = true)
  (hu : unmapped (0x9800000 + o) = false) :
    d.busWrite m (0x9800000 + o) data = d.noAbort.broadcastWrite m o data := by
  have hreach : ¬ (d.noAbort.reaches m (0x9800000 + o) = false ∨ d.noAbort.answersAt (0x9800000 + o) = false) :=
    not_unreached (d := d.noAbort) (reaches_of_writes hw)
  have hwr : d.noAbort.writes m (0x9800000 + o) = true := hw
  have hb : 0x9800000 ≤ 0x9800000 + o ∧ 0x9800000 + o < 0x9900000 := by omega
  simp only [Dev.busWrite, hreach, hu, hwr, hb, and_self, Bool.true_eq_false, Bool.false_eq_true, if_false, if_true,
    Nat.add_sub_cancel_left]

/-! ### What a store leaves in its register -/

theorem regKey_of_plain (hs : r.desc.sel = false) (hm : r.row ≠ F.LPT_MSEC_SCI.off) : d.regKey r = r.off := by
  simp only [Dev.regKey, hs, hm, Bool.false_eq_true, if_false]

theorem reg_store (d : Dev) (r : RegAt) (v : ℕ) :
    (d.store r v).reg (d.regKey r) = BitVec.ofNat 64 (d.coded r (d.reg (d.regKey r)).toNat v) := Dev.reg_setReg_same _ _ _

theorem store_of_plain {v : ℕ} (hs : r.desc.sel = false) (hm : r.row ≠ F.LPT_MSEC_SCI.off) :
    d.store r v = d.setReg r.off (BitVec.ofNat 64 (d.coded r (d.reg r.off).toNat v)) := by
  rw [Dev.store, regKey_of_plain hs hm]

/-- A bit that every write may set takes the data; the access codes are those of 64 bits. -/
theorem testBit_coded_rw {old v i : ℕ} (h64 : i < 64) (hi : r.desc.rw.testBit i = true) : (d.coded r old v).testBit i = v.testBit i := by
  have hall : (2 ^ 64 - 1).testBit i = true := by rw [Nat.testBit_two_pow_sub_one, decide_eq_true h64]
  rw [Dev.coded, Nat.testBit_or, Nat.testBit_and, Nat.testBit_and, Nat.testBit_xor, hall]
  simp [hi]

/-- A bit that only a write of 1 clears. -/
theorem testBit_coded_w1c {old v i : ℕ} (h64 : i < 64) (hrw : r.desc.rw = 0) (hrwl : r.desc.rwl = 0) (hi : r.desc.w1c.testBit i = true) :
    (d.coded r old v).testBit i = (old.testBit i && !v.testBit i) := by
  have hall : (2 ^ 64 - 1).testBit i = true := by rw [Nat.testBit_two_pow_sub_one, decide_eq_true h64]
  rw [Dev.coded, Nat.testBit_or, Nat.testBit_and, Nat.testBit_and, Nat.testBit_xor, hall]
  simp [hrw, hrwl, hi]

/-- A field whose bits every write may set reads as the data's. -/
theorem read_coded {f : Fld} {old v : ℕ} (hf : f.lo + f.w ≤ 64) (hrw : ∀ i < f.w, r.desc.rw.testBit (f.lo + i) = true) :
    f.read (BitVec.ofNat 64 (d.coded r old v)) = (v >>> f.lo) % 2 ^ f.w := by
  refine Nat.eq_of_testBit_eq fun i => ?_
  rw [Fld.testBit_read, Nat.testBit_mod_two_pow, Nat.testBit_shiftRight, BitVec.getLsbD_ofNat]
  by_cases hi : i < f.w
  · have h64 : f.lo + i < 64 := by omega
    rw [testBit_coded_rw h64 (hrw i hi), decide_eq_true h64, Bool.true_and]
  · rw [decide_eq_false hi, Bool.false_and, Bool.false_and]

/-- What a write of a plain register reads in a field that every write may set. -/
theorem rd_store {f : Fld} {v : ℕ} (hs : r.desc.sel = false) (hm : r.row ≠ F.LPT_MSEC_SCI.off) (ho : r.off = f.off) (hf : f.lo + f.w ≤ 64)
    (hrw : ∀ i < f.w, r.desc.rw.testBit (f.lo + i) = true) : (d.store r v).rd f = (v >>> f.lo) % 2 ^ f.w := by
  rw [store_of_plain hs hm, ho, Dev.rd_setReg_same, read_coded hf hrw]

/-- What a write of 1s clears. -/
theorem bits_coded_w1c {old : BitVec 64} {v : Word} (hrw : r.desc.rw = 0) (hrwl : r.desc.rwl = 0) (hw : r.desc.w1c = 0xFF) :
    bits (BitVec.ofNat 64 (d.coded r old.toNat v.toNat)) 7 0 = bits (old &&& ~~~(v.setWidth 64)) 7 0 := by
  refine Nat.eq_of_testBit_eq fun i => ?_
  simp only [bits, Nat.testBit_mod_two_pow, Nat.testBit_shiftRight, BitVec.testBit_toNat, BitVec.getLsbD_ofNat, BitVec.getLsbD_and,
    BitVec.getLsbD_not, BitVec.getLsbD_setWidth]
  by_cases hi : i < 8
  · have h64 : i < 64 := by omega
    have hbit : r.desc.w1c.testBit i = true := by
      rw [hw]
      exact (by decide : ∀ i < 8, (0xFF).testBit i = true) i hi
    simp [hi, h64, testBit_coded_w1c h64 hrw hrwl hbit, BitVec.getLsbD]
  · simp [hi]

/-! ### Registers by name -/

theorem exists_regAt {p : RegAt → Bool} (h : (regAt off).any p = true) : ∃ r, regAt off = some r ∧ p r = true := by
  cases hr : regAt off with
  | none => rw [hr] at h; cases h
  | some r => exact ⟨r, rfl, by rwa [hr] at h⟩

/-- Is the register the plain one of a row, at an offset, of a width, with the bits `rw` for every write? -/
def plainReg (row at_ rw : ℕ) (wide high : Bool) (r : RegAt) : Bool :=
  r.row == row && r.off == at_ && r.desc.rw == rw && r.wide == wide && r.high == high && !r.desc.sel

theorem of_plainReg {row at_ rw : ℕ} {wide high : Bool} (h : plainReg row at_ rw wide high r = true) :
    r.row = row ∧ r.off = at_ ∧ r.desc.rw = rw ∧ r.wide = wide ∧ r.high = high ∧ r.desc.sel = false := by
  simpa [plainReg, and_assoc] using h

theorem regAt_scratch (n : Fin 4) : ∃ r, regAt (F.GLB_SCRATCH.ix n.val).off = some r ∧
    plainReg F.GLB_SCRATCH.off (F.GLB_SCRATCH.ix n.val).off 0xFFFFFFFF false false r = true := by
  have h : ∀ n : Fin 4, (regAt (F.GLB_SCRATCH.ix n.val).off).any
      (plainReg F.GLB_SCRATCH.off (F.GLB_SCRATCH.ix n.val).off 0xFFFFFFFF false false) = true := by decide
  exact exists_regAt (h n)

theorem regAt_resetCause : ∃ r, regAt F.GLB_RESET_CAUSE.off = some r ∧
    (plainReg F.GLB_RESET_CAUSE.off F.GLB_RESET_CAUSE.off 0 false false r && (r.desc.rwl == 0 && r.desc.w1c == 0xFF)) = true :=
  exists_regAt (by decide)

theorem regAt_cuExpect (u : Fin 8) : ∃ r, regAt ((F.DGN_CU_EXPECT.ix u.val).off + 4) = some r ∧
    plainReg F.DGN_CU_EXPECT.off (F.DGN_CU_EXPECT.ix u.val).off 0xFFFFFFFFFFFFFFFF true true r = true := by
  have h : ∀ u : Fin 8, (regAt ((F.DGN_CU_EXPECT.ix u.val).off + 4)).any
      (plainReg F.DGN_CU_EXPECT.off (F.DGN_CU_EXPECT.ix u.val).off 0xFFFFFFFFFFFFFFFF true true) = true := by decide
  exact exists_regAt (h u)

theorem regAt_rail (n : Fin 16) : ∃ r, regAt (F.PWR_RAIL.ix n.val).off = some r ∧
    (plainReg F.PWR_RAIL.off (F.PWR_RAIL.ix n.val).off 0 false false r && r.idx == n.val) = true := by
  have h : ∀ n : Fin 16, (regAt (F.PWR_RAIL.ix n.val).off).any (fun r =>
      plainReg F.PWR_RAIL.off (F.PWR_RAIL.ix n.val).off 0 false false r && r.idx == n.val) = true := by decide
  exact exists_regAt (h n)

theorem regAt_tcamAddr : ∃ r, regAt (0x8000000 + 0x100) = some r ∧
    (plainReg F.PIR_TCAM_ADDR.off F.PIR_TCAM_ADDR.off 0x13FFF false false r && r.win == 0) = true := exists_regAt (by decide)

/-- The rows of 32 bits whose reads are commands of their own. -/
def readRows : List ℕ := [F.CTL_MBX_DATA.off, F.CTL_MBX_TXSTAT.off, F.CTL_MBX_RXSTAT.off, F.CTL_MBX_POST.off, F.CTL_MBX_ACK.off,
  F.CTL_LOCK.off]

theorem row_not_mem_readRows (hr : regAt off = some r) (hw : r.wide = true) : r.row ∉ readRows := by
  intro hmem
  obtain ⟨w, hwin, _, _, _, _, hd, hrow, _⟩ := of_regAt hr
  have hall : ∀ w ∈ windowRows, ∀ x ∈ w.2.2, w.1 + x.off ∈ readRows → x.wide = false := by decide
  have := hall w hwin r.desc hd (hrow ▸ hmem)
  rw [RegAt.wide, this] at hw
  cases hw

/-- The read of a low half latches the high one, and answers what the register shows. -/
theorem readLow_wide (hr : regAt off = some r) (hw : r.wide = true) (hb : r.row ≠ F.BUF_ALLOC.off) :
    d.readLow m r = (((d.readClears r).latchGroup m r).latchHigh m r (d.view m r)).answer (d.view m r) := by
  have hrow := row_not_mem_readRows hr hw
  simp only [readRows, List.mem_cons, List.not_mem_nil, or_false, not_or] at hrow
  obtain ⟨h1, h2, h3, h4, h5, h6⟩ := hrow
  have hg : d.groupWord m r (d.view m r) = d.view m r := if_pos hw
  simp only [Dev.readLow, h1, h2, h3, h4, h5, h6, hb, hg, if_false]

/-- The read of a rail's register clears the lowest reading, and answers what the register held. -/
theorem readLow_rail (hrow : r.row = F.PWR_RAIL.off) (hw : r.wide = false) (hs : r.desc.sel = false) :
    d.readLow m r = (({ d with pwr := { d.pwr with railSeen := d.pwr.railSeen.set (fun _ => false) r.idx false } }).wr
      (F.PWR_RAIL_MIN_MV.ix r.idx) 0).answer (d.reg r.off).toNat := by
  have hkey : d.regKey r = r.off := regKey_of_plain hs (by rw [hrow]; decide)
  have hview : d.view m r = (d.reg r.off).toNat := by
    rw [← hkey]
    simp (disch := decide) only [Dev.view, hrow, if_neg]
  have hgroup : r.group = [] := by simp (disch := decide) only [RegAt.group, hrow, if_neg]
  have hword : d.groupWord m r (d.reg r.off).toNat = (d.reg r.off).toNat := by
    simp (disch := decide) only [Dev.groupWord, hw, hrow, if_neg]
  simp (disch := decide) only [Dev.readLow, Dev.readClears, Dev.latchHigh, Dev.latchGroup, hview, hgroup, hword, hw, hrow, if_neg, if_pos]
  rfl

theorem latchHigh_wide {v : ℕ} (hw : r.wide = true) :
    (d.latchHigh m r v).latches.get (fun _ => none) (halfKey m r.off) = some (BitVec.ofNat 32 (v >>> 32)) := by
  simp [Dev.latchHigh, hw]

end

/-! ### Writes of a half -/

section
variable {d : Dev} {m off : ℕ} {data : Word} {r : RegAt}

theorem localWrite_of_not_barred {f : Dev → Dev} (h : d.localBarred m = false) : d.localWrite m off f = f d := if_neg (by simp [h])

theorem localWrite_of_barred {f : Dev → Dev} (h : d.localBarred m = true) :
    d.localWrite m off f = d.post Ev.TWN_LOCAL_WRITE [(24, 1, m), (28, 4, off)] := if_pos h

theorem mirroredWrite_of_barred {v : ℕ} {f : Dev → Dev} (h : d.localBarred m = true) :
    d.mirroredWrite m off v f = d.post Ev.TWN_LOCAL_WRITE [(24, 1, m), (28, 4, off)] := if_pos h

/-- A half outside IMG_WALK_START is written where no standby bars it. -/
theorem writeHalf_of_not_barred (hrow : r.row ≠ F.IMG_WALK_START.off)
  (hbar : 0xA000000 ≤ r.row → r.row < 0xC000000 → d.localBarred m = false) :
    d.writeHalf m r data = if r.high then d.commitHigh m r data else d.stageLow m r.off data := by
  rw [Dev.writeHalf, if_neg hrow]
  split
  · rename_i h
    rw [localWrite_of_not_barred (hbar h.1 h.2)]
  · rfl

/-- A half of a mirrored register or window is ignored and reported on a standby. -/
theorem writeHalf_of_barred (hrow : r.row = F.IMG_WALK_START.off ∨ (0xA000000 ≤ r.row ∧ r.row < 0xC000000))
  (hbar : d.localBarred m = true) :
    d.writeHalf m r data = d.post Ev.TWN_LOCAL_WRITE [(24, 1, m), (28, 4, if r.high then r.off + 4 else r.off)] := by
  rw [Dev.writeHalf]
  split
  · exact mirroredWrite_of_barred hbar
  · rename_i h
    rw [if_pos (hrow.resolve_left h), localWrite_of_barred hbar]

/-- The high half commits both halves under the access codes, but for the registers with a commit of their own. -/
theorem commitHigh_of_ownCommit (hown : ownCommit r.row = false) :
    d.commitHigh m r data =
      (d.unstage m r.off).store r (d.stagedLow m r.off (d.reg (d.regKey r)).toNat + (data.toNat <<< 32)) := by
  simp only [ownCommit, List.contains_eq_mem, List.mem_cons, List.not_mem_nil, or_false, decide_eq_false_iff_not, not_or] at hown
  obtain ⟨h1, h2, -, h4, h5, h6, h7, h8, h9, h10⟩ := hown
  simp only [Dev.commitHigh, Dev.currentLow, Dev.write64, h1, h2, h4, h5, h6, h7, h8, h9, h10, if_false]

theorem ne_walkStart_of_ownCommit (hown : ownCommit r.row = false) : r.row ≠ F.IMG_WALK_START.off := by
  intro h
  rw [h] at hown
  exact absurd hown (by decide)

theorem stages_stageLow (d : Dev) (m off : ℕ) (data : Word) :
    (d.stageLow m off data).stages.get (fun _ => none) (halfKey m off) = some data := by
  simp [Dev.stageLow]

theorem stagedLow_of_staged {now : ℕ} {w : Word} (h : d.stages.get (fun _ => none) (halfKey m off) = some w) :
    d.stagedLow m off now = w.toNat := by
  rw [Dev.stagedLow, h]

theorem not_broadcast (h : off < 0x9800000 ∨ 0x9900000 ≤ off) : ¬ (0x9800000 ≤ off ∧ off < 0x9900000) := by omega

end

/-! ### Broadcast -/

/-- What each member of a list establishes for itself and no other undoes holds of every member at the end. -/
theorem each_establishes {P : ℕ → Dev → Prop} {f : ℕ → Dev → Dev} (hset : ∀ p e, P p (f p e)) (hkeep : ∀ p q e, P p e → P p (f q e))
    {l : List ℕ} {p : ℕ} (hp : p ∈ l) (d : Dev) : P p (d.each l f) := by
  unfold Dev.each
  induction l generalizing d with
  | nil => cases hp
  | cons q t ih =>
    obtain rfl | ht := List.mem_cons.1 hp
    · exact Dev.each_induction (P p) f (fun x e => hkeep p x e) t _ (hset p d)
    · exact ih ht _

theorem each_preserves {P : Dev → Prop} {f : ℕ → Dev → Dev} {l : List ℕ} (h : ∀ q ∈ l, ∀ e, P e → P (f q e)) {d : Dev} (hd : P d) :
    P (d.each l f) := by
  unfold Dev.each
  induction l generalizing d with
  | nil => exact hd
  | cons q t ih => exact ih (fun x hx => h x (.tail q hx)) (h q (.head t) d hd)

section
variable {d : Dev} {m : ℕ} {data : Word} {r : RegAt}

/-- The write of PIR_TCAM_ADDR at one pier, by the pier's own offset. -/
theorem writePier_tcamAddr {p : ℕ} (hp : plainReg F.PIR_TCAM_ADDR.off F.PIR_TCAM_ADDR.off 0x13FFF false false r = true)
  (hwin : r.win = 0) :
    d.writePier m p r data = d.store { r with off := (F.PIR_TCAM_ADDR.pier p).off } data.toNat := by
  obtain ⟨hrow, hoff, -⟩ := of_plainReg hp
  simp (disch := decide) only [Dev.writePier, hrow, hoff, hwin, if_neg, Nat.mul_zero, Nat.sub_zero]
  rfl

theorem off_tcamAddr_ne {p q : ℕ} (h : q ≠ p) : (F.PIR_TCAM_ADDR.pier q).off ≠ (F.PIR_TCAM_ADDR.pier p).off := by
  simp only [Fld.pier]
  omega

/-- PIR_TCAM_ADDR of pier `p` shows the data's row and pipe. -/
def tcamAddrIs (data : Word) (p : ℕ) (e : Dev) : Prop :=
  e.rd (F.PIR_TCAM_ADDR_ROW.pier p) = bits data 13 0 ∧ e.rd (F.PIR_TCAM_ADDR_PIPE.pier p) = bits data 16 16

theorem tcamAddrIs_writePier (p : ℕ) (hp : plainReg F.PIR_TCAM_ADDR.off F.PIR_TCAM_ADDR.off 0x13FFF false false r = true)
  (hwin : r.win = 0) :
    tcamAddrIs data p (d.writePier m p r data) := by
  obtain ⟨hrow, -, hrw, -, -, hsel⟩ := of_plainReg hp
  have hsci : r.row ≠ F.LPT_MSEC_SCI.off := by rw [hrow]; decide
  rw [writePier_tcamAddr hp hwin]
  constructor
  · exact rd_store (f := F.PIR_TCAM_ADDR_ROW.pier p) hsel hsci rfl
      (show F.PIR_TCAM_ADDR_ROW.lo + F.PIR_TCAM_ADDR_ROW.w ≤ 64 by decide)
      (by rw [hrw]; exact (by decide : ∀ i < F.PIR_TCAM_ADDR_ROW.w, (0x13FFF).testBit (F.PIR_TCAM_ADDR_ROW.lo + i) = true))
  · exact rd_store (f := F.PIR_TCAM_ADDR_PIPE.pier p) hsel hsci rfl
      (show F.PIR_TCAM_ADDR_PIPE.lo + F.PIR_TCAM_ADDR_PIPE.w ≤ 64 by decide)
      (by rw [hrw]; exact (by decide : ∀ i < F.PIR_TCAM_ADDR_PIPE.w, (0x13FFF).testBit (F.PIR_TCAM_ADDR_PIPE.lo + i) = true))

/-- A write at another pier leaves the pier's PIR_TCAM_ADDR. -/
theorem reg_writePier_tcamAddr_ne {p q : ℕ} (hp : plainReg F.PIR_TCAM_ADDR.off F.PIR_TCAM_ADDR.off 0x13FFF false false r = true)
    (hwin : r.win = 0) (h : q ≠ p) : (d.writePier m q r data).reg (F.PIR_TCAM_ADDR.pier p).off = d.reg (F.PIR_TCAM_ADDR.pier p).off := by
  obtain ⟨hrow, -, -, -, -, hsel⟩ := of_plainReg hp
  rw [writePier_tcamAddr hp hwin, store_of_plain (by exact hsel) (by rw [hrow]; decide), Dev.reg_setReg_ne _ _ (off_tcamAddr_ne h)]

theorem tcamAddrIs_of_reg {p : ℕ} {e : Dev} (h : tcamAddrIs data p d)
  (hr : e.reg (F.PIR_TCAM_ADDR.pier p).off = d.reg (F.PIR_TCAM_ADDR.pier p).off) :
    tcamAddrIs data p e := by
  obtain ⟨h1, h2⟩ := h
  exact ⟨(congrArg (F.PIR_TCAM_ADDR_ROW.pier p).read hr).trans h1, (congrArg (F.PIR_TCAM_ADDR_PIPE.pier p).read hr).trans h2⟩

/-- A write of the broadcast window is ignored and reported on a standby, of whatever register. -/
theorem broadcastWrite_of_barred {o : ℕ} (hu : unmapped (0x9800000 + o) = false) (ho : o < 0x100000) (hbar : d.localBarred m = true) :
    d.broadcastWrite m o data = d.post Ev.TWN_LOCAL_WRITE [(24, 1, m), (28, 4, 0x9800000 + o)] := by
  rw [unmapped, if_pos (by omega), Nat.add_sub_cancel_left] at hu
  rw [Dev.broadcastWrite]
  split
  · rename_i hnone
    rw [hnone] at hu
    cases hu
  · split
    · exact mirroredWrite_of_barred hbar
    · exact localWrite_of_barred hbar

/-- A write of the broadcast window, where no standby bars it, is one at every powered pier: the mirror changes no register. -/
theorem reg_broadcastWrite {o k : ℕ} (hr : regAt (0x8000000 + o) = some r) (hw : r.wide = false) (hbar : d.localBarred m = false) :
    (d.broadcastWrite m o data).reg k = (d.eachPier fun p e => e.writePier m p r data).reg k := by
  have hb : d.broadcast m r o data = d.eachPier fun p e => e.writePier m p r data := if_neg (by simp [hw])
  rw [Dev.broadcastWrite, hr]
  dsimp only
  split
  · rw [Dev.mirroredWrite, if_neg (by simp [hbar]), hb]
    exact (Within.mirror (S := ⟨[.twn], [], []⟩) .refl rfl).2 k rfl
  · rw [localWrite_of_not_barred hbar, hb]

theorem tcamAddr_powered {p : ℕ} (hp : plainReg F.PIR_TCAM_ADDR.off F.PIR_TCAM_ADDR.off 0x13FFF false false r = true) (hwin : r.win = 0)
    (hlt : p < 17) (hpow : d.pierPowered p = true) : tcamAddrIs data p (d.eachPier fun p e => e.writePier m p r data) := by
  refine each_establishes (fun q e => tcamAddrIs_writePier q hp hwin) (fun p q e he => ?_)
    (List.mem_filter.2 ⟨List.mem_range.2 hlt, hpow⟩) d
  by_cases h : q = p
  · rw [h]
    exact tcamAddrIs_writePier p hp hwin
  · exact tcamAddrIs_of_reg he (reg_writePier_tcamAddr_ne hp hwin h)

theorem tcamAddr_unpowered {p : ℕ} (hp : plainReg F.PIR_TCAM_ADDR.off F.PIR_TCAM_ADDR.off 0x13FFF false false r = true) (hwin : r.win = 0)
    (hpow : d.pierPowered p = false) :
    (d.eachPier fun p e => e.writePier m p r data).reg (F.PIR_TCAM_ADDR.pier p).off = d.reg (F.PIR_TCAM_ADDR.pier p).off := by
  refine each_preserves (P := fun e => e.reg (F.PIR_TCAM_ADDR.pier p).off = d.reg (F.PIR_TCAM_ADDR.pier p).off) (fun q hq e he => ?_) rfl
  have hne : q ≠ p := fun h => by rw [← h, (List.mem_filter.1 hq).2] at hpow; cases hpow
  rw [reg_writePier_tcamAddr_ne hp hwin hne, he]

end

/-! ### The clauses of O46 -/

section
variable {d : Dev} {m : ℕ} {data : Word}

/-- Every scratch bit takes the data of the write. -/
theorem rd_busWrite_scratch (n : Fin 4) (hw : d.writes m (F.GLB_SCRATCH.ix n.val).off = true) :
    (d.busWrite m (F.GLB_SCRATCH.ix n.val).off data).rd (F.GLB_SCRATCH.ix n.val) = data.toNat ∧
      (d.busWrite m (F.GLB_SCRATCH.ix n.val).off data).posted = d.posted := by
  obtain ⟨r, hr, hp⟩ := regAt_scratch n
  obtain ⟨hrow, hoff, hrw, hwide, -, hsel⟩ := of_plainReg hp
  have hb : ∀ n : Fin 4, ¬ (0x9800000 ≤ (F.GLB_SCRATCH.ix n.val).off ∧ (F.GLB_SCRATCH.ix n.val).off < 0x9900000) := by decide
  rw [busWrite_of_regAt hw (hb n) hr, if_neg (by simp [hwide])]
  simp (disch := decide) only [Dev.write32, Dev.writeGlb, hrow, if_neg, if_pos]
  refine ⟨?_, rfl⟩
  rw [rd_store hsel (by rw [hrow]; decide) hoff (show F.GLB_SCRATCH.lo + F.GLB_SCRATCH.w ≤ 64 by decide)
    (by rw [hrw]; exact (by decide : ∀ i < F.GLB_SCRATCH.w, (0xFFFFFFFF).testBit (F.GLB_SCRATCH.lo + i) = true))]
  exact Nat.mod_eq_of_lt data.isLt

/-- A write of 1s clears the causes of the reset that it names. -/
theorem bits_busWrite_resetCause (hw : d.writes m F.GLB_RESET_CAUSE.off = true) :
    bits ((d.busWrite m F.GLB_RESET_CAUSE.off data).reg F.GLB_RESET_CAUSE.off) 7 0 =
      bits (d.reg F.GLB_RESET_CAUSE.off &&& ~~~(data.setWidth 64)) 7 0 := by
  obtain ⟨r, hr, hp⟩ := regAt_resetCause
  rw [Bool.and_eq_true, Bool.and_eq_true, beq_iff_eq, beq_iff_eq] at hp
  obtain ⟨hp, hrwl, hw1c⟩ := hp
  obtain ⟨hrow, hoff, hrw, hwide, -, hsel⟩ := of_plainReg hp
  rw [busWrite_of_regAt hw (by decide) hr, if_neg (by simp [hwide])]
  simp (disch := decide) only [Dev.write32, Dev.writeGlb, hrow, if_neg, if_pos]
  rw [store_of_plain hsel (by rw [hrow]; decide), hoff, Dev.reg_setReg_same]
  exact bits_coded_w1c hrw hrwl hw1c

theorem cuExpect_not_broadcast (u : Fin 8) :
    ¬ (0x9800000 ≤ (F.DGN_CU_EXPECT.ix u.val).off + 4 ∧ (F.DGN_CU_EXPECT.ix u.val).off + 4 < 0x9900000) := by
  have hb : ∀ u : Fin 8, ¬ (0x9800000 ≤ (F.DGN_CU_EXPECT.ix u.val).off + 4 ∧ (F.DGN_CU_EXPECT.ix u.val).off + 4 < 0x9900000) := by decide
  exact hb u

/-- The high write of DGN_CU_EXPECT commits the half that is staged with its own. -/
theorem rd_busWrite_cuExpect {low high : Word} (u : Fin 8) (hw : d.writes m ((F.DGN_CU_EXPECT.ix u.val).off + 4) = true)
    (hst : d.stages.get (fun _ => none) (halfKey m (F.DGN_CU_EXPECT.ix u.val).off) = some low) :
    (d.busWrite m ((F.DGN_CU_EXPECT.ix u.val).off + 4) high).rd (F.DGN_CU_EXPECT_VALUE.ix u.val) = low.toNat + 2 ^ 32 * high.toNat ∧
      (d.busWrite m ((F.DGN_CU_EXPECT.ix u.val).off + 4) high).stages.get (fun _ => none) (halfKey m (F.DGN_CU_EXPECT.ix u.val).off) =
        none := by
  obtain ⟨r, hr, hp⟩ := regAt_cuExpect u
  obtain ⟨hrow, hoff, hrw, hwide, hhigh, hsel⟩ := of_plainReg hp
  rw [busWrite_of_regAt hw (cuExpect_not_broadcast u) hr, if_pos hwide,
    writeHalf_of_not_barred (by rw [hrow]; decide) (by rw [hrow]; exact fun _ h => absurd h (by decide)), if_pos hhigh,
    commitHigh_of_ownCommit (by rw [hrow]; decide), hoff]
  refine ⟨?_, Dev.stages_unstage_same _ _ _⟩
  rw [rd_store (f := F.DGN_CU_EXPECT_VALUE.ix u.val) hsel (by rw [hrow]; decide) hoff
    (show F.DGN_CU_EXPECT_VALUE.lo + F.DGN_CU_EXPECT_VALUE.w ≤ 64 by decide)
    (by rw [hrw]; exact (by decide : ∀ i < F.DGN_CU_EXPECT_VALUE.w, (0xFFFFFFFFFFFFFFFF).testBit (F.DGN_CU_EXPECT_VALUE.lo + i) = true)),
    show d.noAbort.stagedLow m (F.DGN_CU_EXPECT.ix u.val).off _ = low.toNat from stagedLow_of_staged hst]
  have hl := low.isLt
  have hh := high.isLt
  simp only [Fld.ix, F.DGN_CU_EXPECT_VALUE, Nat.shiftRight_zero, Nat.shiftLeft_eq]
  omega

/-- A read of a rail answers its readings and clears the lowest one. -/
theorem busRead_rail (n : Fin 16) (hrd : d.reads m (F.PWR_RAIL.ix n.val).off = true) :
    (d.busRead m (F.PWR_RAIL.ix n.val).off).rd (F.PWR_RAIL_MIN_MV.ix n.val) = 0 ∧
      (d.busRead m (F.PWR_RAIL.ix n.val).off).lastRead = BitVec.ofNat 32 (d.reg (F.PWR_RAIL.ix n.val).off).toNat ∧
      (d.busRead m (F.PWR_RAIL.ix n.val).off).rd (F.PWR_RAIL_MV.ix n.val) = d.rd (F.PWR_RAIL_MV.ix n.val) := by
  obtain ⟨r, hr, hp⟩ := regAt_rail n
  rw [Bool.and_eq_true, beq_iff_eq] at hp
  obtain ⟨hp, hidx⟩ := hp
  obtain ⟨hrow, hoff, -, hwide, hhigh, hsel⟩ := of_plainReg hp
  have hb : ∀ n : Fin 16, ¬ (0x9800000 ≤ (F.PWR_RAIL.ix n.val).off ∧ (F.PWR_RAIL.ix n.val).off < 0x9900000) := by decide
  rw [busRead_of_regAt (reaches_of_reads hrd) (hb n) hr, if_neg (by simp [hhigh]), readLow_rail hrow hwide hsel, hidx, hoff]
  refine ⟨?_, rfl, ?_⟩
  · exact (Dev.rd_wr_same _ (F.PWR_RAIL_MIN_MV.ix n.val) 0 (show F.PWR_RAIL_MIN_MV.lo + F.PWR_RAIL_MIN_MV.w ≤ 64 by decide)).trans rfl
  · exact Dev.rd_wr_beside _ (F.PWR_RAIL_MIN_MV.ix n.val) (F.PWR_RAIL_MV.ix n.val) 0
      (show F.PWR_RAIL_MV.lo + F.PWR_RAIL_MV.w ≤ 64 by decide) (.inl (show F.PWR_RAIL_MV.lo + F.PWR_RAIL_MV.w ≤ F.PWR_RAIL_MIN_MV.lo by
        decide))

/-- A broadcast write of PIR_TCAM_ADDR sets the powered piers' and no other. -/
theorem tcamAddr_busWrite (hwr : d.writes m (0x9800000 + 0x100) = true) (hbar : d.localBarred m = false) (p : Pier) :
    (d.pierPowered p.val = true → tcamAddrIs data p.val (d.busWrite m (0x9800000 + 0x100) data)) ∧
      (d.pierPowered p.val = false →
        (d.busWrite m (0x9800000 + 0x100) data).reg (F.PIR_TCAM_ADDR.pier p.val).off = d.reg (F.PIR_TCAM_ADDR.pier p.val).off) := by
  obtain ⟨r, hr, hp⟩ := regAt_tcamAddr
  rw [Bool.and_eq_true, beq_iff_eq] at hp
  obtain ⟨hp, hwin⟩ := hp
  obtain ⟨-, -, -, hwide, -⟩ := of_plainReg hp
  rw [busWrite_of_broadcast (by decide) hwr (by decide)]
  refine ⟨fun hpow => ?_, fun hpow => ?_⟩
  · exact tcamAddrIs_of_reg (tcamAddr_powered hp hwin p.isLt (by exact hpow)) (reg_broadcastWrite hr hwide (by exact hbar))
  · rw [reg_broadcastWrite hr hwide (by exact hbar)]
    exact tcamAddr_unpowered hp hwin (by exact hpow)

end

/-- Settles O46: each access by the one lemma that says what becomes of it where it reaches its register, is barred, or does not reach
it. -/
theorem registerCommandsComplete : Obligations.RegisterCommandsComplete := by
  unfold Obligations.RegisterCommandsComplete
  refine ⟨fun s m n data hw => ?_, fun s m data hw => ?_, fun s m off r hreach hans hb hr hw hl hrow => ?_,
    fun s m off r w hreach hans hb hr hh hlatch => ?_, fun s m off r hwr hb hr hw hl hrow hbar data => ?_,
    fun s m u low high hw hst => ?_, fun s m off r data hwr hb hr hw hh hown hbar => ?_, fun s m off r data hwr hb hr hw hrow hbar => ?_,
    fun s m off data hu hwr => ?_, fun s m off h => .of_exec rfl (busRead_of_unreached h), fun s m n hrd => ?_,
    fun s m off w hreach hans hu => ?_, fun s m o data hwr hu hbar => ?_, fun s m data hwr hbar => ?_⟩
  · have hx : ∀ n : Fin 4, (BitVec.ofNat 29 (F.GLB_SCRATCH.ix n.val).off).toNat = (F.GLB_SCRATCH.ix n.val).off := by decide
    refine .of_exec rfl ?_
    rw [hx n]
    exact rd_busWrite_scratch n hw
  · exact .of_exec rfl (bits_busWrite_resetCause hw)
  · refine .of_exec rfl ?_
    rw [Dev.when, if_pos (hl ▸ halfAt_of_regAt (not_broadcast hb) hr hw), busRead_of_regAt ⟨hreach, hans⟩ (not_broadcast hb) hr,
      if_neg (by simp [hl]), readLow_wide hr hw hrow]
    exact ⟨rfl, latchHigh_wide hw⟩
  · refine .of_exec rfl ?_
    rw [busRead_of_regAt ⟨hreach, hans⟩ (not_broadcast hb) hr, if_pos hh, Dev.readHigh, hlatch]
    exact ⟨BitVec.ofNat_toNat .., rfl, rfl⟩
  · refine .of_exec rfl ?_
    rw [Dev.when, if_pos (hl ▸ halfAt_of_regAt (not_broadcast hb) hr hw), busWrite_of_regAt hwr (not_broadcast hb) hr, if_pos hw,
      writeHalf_of_not_barred hrow (by exact hbar), if_neg (by simp [hl])]
    exact ⟨rfl, stages_stageLow _ _ _ _⟩
  · have hx : ∀ u : Fin 8, (BitVec.ofNat 29 ((F.DGN_CU_EXPECT.ix u.val).off + 4)).toNat = (F.DGN_CU_EXPECT.ix u.val).off + 4 := by decide
    obtain ⟨r, hr, hp⟩ := regAt_cuExpect u
    obtain ⟨-, -, -, hwide, hhigh, -⟩ := of_plainReg hp
    refine .of_exec rfl ?_
    rw [hx u, Dev.when, if_pos (hhigh ▸ halfAt_of_regAt (cuExpect_not_broadcast u) hr hwide)]
    exact rd_busWrite_cuExpect u hw hst
  · refine .of_exec rfl ?_
    rw [Dev.when, if_pos (hh ▸ halfAt_of_regAt (not_broadcast hb) hr hw), busWrite_of_regAt hwr (not_broadcast hb) hr, if_pos hw,
      writeHalf_of_not_barred (ne_walkStart_of_ownCommit hown) (by exact hbar), if_pos hh, commitHigh_of_ownCommit hown]
    exact ⟨rfl, reg_store _ _ _⟩
  · have hwrite : s.dev.busWrite m.val off.toNat data =
        s.dev.noAbort.post Ev.TWN_LOCAL_WRITE [(24, 1, m.val), (28, 4, if r.high then r.off + 4 else r.off)] := by
      rw [busWrite_of_regAt hwr (not_broadcast hb) hr, if_pos hw, writeHalf_of_barred hrow (by exact hbar)]
    have hhalf := halfAt_of_regAt (not_broadcast hb) hr hw
    cases hh : r.high
    all_goals
      rw [hh] at hhalf
      refine .of_exec rfl ?_
      rw [Dev.when, if_pos hhalf, hwrite]
      exact ⟨rfl, rfl, posts_post _ _ _⟩
  · have hbus : s.dev.busWrite m.val off.toNat data = s.dev.noAbort := busWrite_of_not_writes hu hwr
    refine ⟨.of_exec rfl hbus, .of_exec rfl ?_, .of_exec rfl ?_⟩
    all_goals
      rw [Dev.when, hbus]
      split <;> exact ⟨rfl, rfl, rfl⟩
  · have hx : ∀ n : Fin 16, (BitVec.ofNat 29 (F.PWR_RAIL.ix n.val).off).toNat = (F.PWR_RAIL.ix n.val).off := by decide
    refine .of_exec rfl ?_
    rw [hx n]
    exact busRead_rail n hrd
  · refine .of_exec rfl ?_
    rw [unmappedAccess, if_pos hu]
    cases w
    · rw [if_neg (by decide), busRead_of_unmapped ⟨hreach, hans⟩ hu]
      exact ⟨rfl, posts_post _ _ _, fun _ => ⟨rfl, rfl⟩⟩
    · rw [if_pos rfl, busWrite_of_unmapped ⟨hreach, hans⟩ hu]
      exact ⟨rfl, posts_post _ _ _, fun h => nomatch h⟩
  · refine .of_exec rfl ?_
    rw [busWrite_of_broadcast o.isLt hwr hu, broadcastWrite_of_barred hu o.isLt (by exact hbar)]
    exact ⟨rfl, rfl, rfl, posts_post _ _ _⟩
  · exact .of_exec rfl (tcamAddr_busWrite hwr hbar)

end Sys2Proof.Machine
end

