-- ==== Sys2Proof/Proofs/Step.lean ====
section
/-! PROOF. A step runs the front command; with none waiting a slot of the span passes (R32). -/

namespace Sys2Proof.Machine

/-- Everything a step can do: the front command's effect with the rest of the queue, or with an empty queue a slot that passes. -/
theorem step_cases {s t : State} (h : step s = .next t) : (s.pending = [] ∧ t = { s with dev := idleSlot s.dev }) ∨
    ∃ c rest, s.pending = c :: rest ∧ exec c { s with pending := rest } = .next t := by
  unfold step at h
  split at h
  · rename_i hp
    exact .inl ⟨hp, (Host.Outcome.next.inj h).symm⟩
  · rename_i c rest hp
    exact .inr ⟨c, rest, hp, h⟩

theorem step_of_pending_nil {s : State} (h : s.pending = []) : step s = .next { s with dev := idleSlot s.dev } := by
  rw [step, h]

theorem regs_fillPosition (d : Dev) (f n : ℕ) : (d.fillPosition f n).regs = d.regs := by
  unfold Dev.fillPosition
  split
  · split <;> rfl
  · rfl

theorem regs_ralinSlot (d : Dev) : d.ralinSlot.regs = d.regs := by
  unfold Dev.ralinSlot
  split
  · exact Dev.each_induction (fun e => e.regs = d.regs) _ (fun n e he => (regs_fillPosition e _ n).trans he) _ d rfl
  · rfl

/-- The frame position that starts in a slot is the twin link's alone. -/
theorem tim_ralinSlot (d : Dev) : d.ralinSlot.tim = d.tim := (Within.ralinSlot (S := ⟨[.twn], [], []⟩) .refl rfl).1 .tim (by decide)

/-- Settles O54: a step is the front command's arm, every arm answers a next state, and a slot that passes moves the block's time and fills
the twin link's frame position. -/
theorem stepRunsFrontCommand : Obligations.StepRunsFrontCommand := by
  unfold Obligations.StepRunsFrontCommand
  refine ⟨fun _ _ _ => rfl, fun s c => exec_next c s, fun s hp => ⟨_, step_of_pending_nil hp, hp, ?_⟩⟩
  have hw : Within ⟨[.tim, .twn], [], []⟩ s.dev (idleSlot s.dev) := .idleSlot .refl rfl
  exact ⟨regs_ralinSlot (slotPasses s.dev), hw.1 .posted (by decide), hw.1 .mode (by decide),
    congrArg Tim.slot (tim_ralinSlot (slotPasses s.dev))⟩

end Sys2Proof.Machine
end

