-- ==== Sys2Proof/Proofs/ModeHeld.lean ====
section
/-! PROOF. The modes that no operation but a reset or a release leaves (R22, R437): an operation changes the mode by `Dev.setMode`
alone, which holds M0, M10 and M11; what lies outside the mode is any operation's to change. -/

namespace Sys2Proof.Machine

/-- M0 and M11 are held, and M10 is left for M11 alone. -/
def ModeHeld (d e : Dev) : Prop :=
  (d.mode = .m0 → e.mode = .m0) ∧ (d.mode = .m11 → e.mode = .m11) ∧ (d.mode = .m10 → e.mode = .m10 ∨ e.mode = .m11)

/-- The scope of a step that leaves the mode. -/
def modeless : Scope :=
  ⟨[.latches, .stages, .lastRead, .lastAbort, .posted, .hostMem, .fresh, .tim, .img, .lpt, .pir, .tbl, .buf, .que, .shp, .fab, .dck,
    .twn, .ctl, .hst, .pwr, .sec, .dgn], [1, 2, 3, 4, 5, 6, 7, 8, 9, 10, 11, 12, 13, 14, 15, 16, 17], []⟩

/-- Every register lies in some block window. -/
theorem has_modeless (off : ℕ) : modeless.has off = true := by
  obtain ⟨h1, h2⟩ := blockOf_bounds off
  simp only [Scope.has, modeless, Bool.or_eq_true, List.contains_iff_mem]
  exact .inl (by simp; omega)

section
variable {a d e : Dev}

theorem ModeHeld.of_eq (h : e.mode = d.mode) : ModeHeld d e := ⟨h.trans, h.trans, fun hd => .inl (h.trans hd)⟩

theorem ModeHeld.refl : ModeHeld a a := .of_eq rfl

theorem ModeHeld.trans (h : ModeHeld a d) (h' : ModeHeld d e) : ModeHeld a e := by
  obtain ⟨h0, h11, h10⟩ := h
  obtain ⟨h0', h11', h10'⟩ := h'
  exact ⟨fun ha => h0' (h0 ha), fun ha => h11' (h11 ha), fun ha => (h10 ha).elim h10' fun hd => .inr (h11' hd)⟩

theorem ModeHeld.of_within (h : Within modeless d e) : ModeHeld d e := .of_eq (h.1 .mode (by decide))

/-- A step that leaves the mode, after steps that hold it. -/
theorem ModeHeld.within (h : ModeHeld a d) (h' : Within modeless d e) : ModeHeld a e := h.trans (.of_within h')

/-- A change of mode holds M0 and M11, and M10 but for M11. -/
theorem ModeHeld.setMode {m : Mode} (h : ModeHeld a d) : ModeHeld a (d.setMode m) := by
  refine h.trans ⟨fun hd => ?_, fun hd => ?_, fun hd => ?_⟩
  · simp [Dev.setMode, hd]
  · rw [Dev.setMode_m11 d m hd, hd]
  · by_cases hm : m = .m11 <;> simp [Dev.setMode, hd, hm]

theorem ModeHeld.withMode {f : Dev → Dev} (h : ModeHeld a (f d)) : ModeHeld a (d.withMode f) := h.trans (.of_eq (mode_noteMode d (f d)))

theorem ModeHeld.ite {c : Prop} [Decidable c] {x y : Dev} (hx : ModeHeld a x) (hy : ModeHeld a y) : ModeHeld a (if c then x else y) := by
  split
  · exact hx
  · exact hy

/-- A step that is made on a condition. -/
theorem ModeHeld.ite_step {c : Prop} [Decidable c] {x y : Dev} (hx : ModeHeld a x) (hy : ModeHeld a x → ModeHeld a y) :
    ModeHeld a (if c then y else x) := .ite (hy hx) hx

theorem ModeHeld.when {c : Bool} {f : Dev → Dev} (hf : c = true → ModeHeld d (f d)) : ModeHeld d (d.when c f) := by
  cases c
  · exact .refl
  · exact hf rfl

theorem ModeHeld.each {α : Type} {l : List α} {f : α → Dev → Dev} (h : ModeHeld a d)
    (hf : ∀ x e, ModeHeld a e → ModeHeld a (f x e)) : ModeHeld a (d.each l f) := Dev.each_induction (ModeHeld a) f hf l d h

theorem ModeHeld.onWrite {m off : ℕ} {f : Dev → Dev} (hf : ∀ {e}, ModeHeld e (f e)) : ModeHeld d (d.onWrite m off f) :=
  .ite (.trans (.of_within (.noAbort .refl rfl)) hf) (.of_within (.noAbort .refl rfl))

end

variable {a : Dev}

/-! ### Quarantine, boot and image loads -/

theorem ModeHeld.quarantine {d : Dev} {cause detail : ℕ} (h : ModeHeld a d) : ModeHeld a (d.quarantine cause detail) := by
  refine h.trans ?_
  unfold Dev.quarantine
  have hcause : ∀ {l}, Within modeless d (((d.post Ev.SEC_QUARANTINE l).wr F.SEC_Q_CAUSE_CAUSE cause).wr F.SEC_Q_CAUSE_DETAIL detail) :=
    .wr (.wr (.post .refl rfl) rfl) rfl
  exact .ite .refl (.withMode (.within (.setMode (m := .m11) (.of_within hcause)) (.pinsFollow (.set_twn (.each (.clearPiers (.requestFlush
    (.setLanes (.allLinksDown .refl rfl) rfl) rfl) rfl) fun _ _ _ he => .wr he (has_modeless _)) rfl) rfl)))

theorem ModeHeld.tamper {d : Dev} (h : ModeHeld a d) : ModeHeld a d.tamper := by
  refine h.trans ?_
  unfold Dev.tamper
  split
  · exact .refl
  · exact .quarantine (.of_within (.imgLoadAbort (.postTamper .refl rfl) rfl))

theorem ModeHeld.loadPasses {d : Dev} {ld : LoadOp} {im : Image} {raw : List Byte} (h : ModeHeld a d) :
    ModeHeld a (d.loadPasses ld im raw) := by
  refine h.trans ?_
  unfold Dev.loadPasses
  refine .ite_step (.of_within (.post (.ite (.liveLoaded ?_ rfl) (.ite_step ?_ fun hx => ?_)) rfl))
    fun hx => .withMode (.within (.setMode hx) (.wr .refl rfl))
  · exact .showSlots (.wr (.setReg (.setSlot (.loadOver .refl rfl) rfl) rfl) rfl) rfl
  · exact .showSlots (.wr (.setReg (.setSlot (.loadOver .refl rfl) rfl) rfl) rfl) rfl
  · split
    · exact .setPierSlot hx rfl
    · exact hx

theorem ModeHeld.imgLoadEnd {d : Dev} {dma : Option (List Byte)} {tamper : Bool} (h : ModeHeld a d) :
    ModeHeld a (imgLoadEnd dma tamper d) := by
  refine h.trans ?_
  unfold Machine.imgLoadEnd
  split
  · exact .refl
  · exact .of_within (.loadStops .refl rfl)
  dsimp only
  split
  · exact .of_within (.loadStops (.streamEnds .refl rfl) rfl)
  split
  · exact .of_within (.loadFails (.streamEnds .refl rfl) rfl)
  split
  · exact .loadPasses (.of_within (.streamEnds .refl rfl))
  split
  · exact .quarantine (.of_within (.postTamper (.set_sec (.post (.loadOver (.streamEnds .refl rfl) rfl) rfl) rfl) rfl))
  · exact .quarantine (.of_within (.set_sec (.post (.loadOver (.streamEnds .refl rfl) rfl) rfl) rfl))

theorem ModeHeld.bootFails {d : Dev} {tried : List BundleInfo} (h : ModeHeld a d) : ModeHeld a (d.bootFails tried) := by
  refine h.trans ?_
  unfold Dev.bootFails
  split
  · exact .of_within (.bootHalts .refl rfl)
  dsimp only
  split
  · exact .quarantine (.of_within (.wr (.wr (.set_sec .refl rfl) rfl) rfl))
  · exact .of_within (.bootHalts (.wr (.set_sec .refl rfl) rfl) rfl)

theorem ModeHeld.bootComplete {d : Dev} {tamperLow : Bool} {readError : BitVec 3} (h : ModeHeld a d) :
    ModeHeld a (bootComplete tamperLow readError d) := by
  refine h.trans ?_
  unfold Machine.bootComplete
  split
  · exact .refl
  split
  · exact .quarantine (.of_within (.wr (.wr .refl rfl) rfl))
  split
  · exact .tamper (.of_within (.wr (.wr .refl rfl) rfl))
  split
  · exact .of_within (.bootHalts .refl rfl)
  dsimp only
  split
  · exact .of_within (.bootHalts .refl rfl)
  split
  · exact .of_within (.bootHalts .refl rfl)
  split
  · exact .of_within (.bootRuns .refl rfl)
  · exact .bootFails .refl

/-! ### Roles -/

theorem ModeHeld.roleTo {d : Dev} {m : Mode} {sub : ℕ} (h : ModeHeld a d) : ModeHeld a (d.roleTo m sub) := by
  refine h.trans ?_
  unfold Dev.roleTo
  refine .ite .refl (.within (.setMode (m := m) (.of_within (.copyStops .refl rfl)))
    (.pinsFollow (.ite_step (.ite_step (.ite_step (.ite_step ?_ fun hx => ?_) fun hx => ?_) fun hx => ?_) fun hx => ?_) rfl))
  · exact .post (.wr .refl rfl) rfl
  · exact .ite_step (.leaveWalk hx rfl) fun hw => .requestFlush hw rfl
  · exact .set_twn hx rfl
  · exact .wr (.set_twn hx rfl) rfl
  · exact .each hx fun _ _ _ he => .seekAlign he rfl

theorem ModeHeld.setRole {d : Dev} {m : Mode} {sub : ℕ} (h : ModeHeld a d) : ModeHeld a (d.setRole m sub) :=
  .within (.roleTo h) (.post .refl rfl)

theorem ModeHeld.claim {d : Dev} (h : ModeHeld a d) : ModeHeld a d.claim :=
  .within (.setRole h) (.set_twn (.wr .refl rfl) rfl)

theorem ModeHeld.demote {d : Dev} {m : ℕ} (h : ModeHeld a d) : ModeHeld a (d.demote m) := by
  refine h.trans ?_
  unfold Dev.demote
  exact .ite (.setRole (.of_within (.set_twn .refl rfl))) (.of_within (.twnRefuse .refl rfl))

theorem ModeHeld.twinShed {d : Dev} (h : ModeHeld a d) : ModeHeld a d.twinShed := by
  refine h.trans ?_
  unfold Dev.twinShed
  exact .ite .refl (.ite (.ite (.roleTo (.of_within (.set_twn .refl rfl))) (.of_within (.twnRefuse .refl rfl)))
    (.ite (.roleTo .refl) .refl))

theorem ModeHeld.enterTwin {d : Dev} (h : ModeHeld a d) : ModeHeld a d.enterTwin := .ite (.setRole h) (.setRole h)

theorem ModeHeld.takeoverTimeout {d : Dev} (h : ModeHeld a d) : ModeHeld a (takeoverTimeout d) := by
  refine h.trans ?_
  unfold Machine.takeoverTimeout
  split
  · exact .refl
  split
  · exact .refl
  · exact .ite .refl (.setRole (.of_within (.post .refl rfl)))

theorem ModeHeld.twinIsolation {d : Dev} (h : ModeHeld a d) : ModeHeld a (twinIsolation d) := by
  refine h.trans ?_
  unfold Machine.twinIsolation
  split
  · exact .refl
  · exact .ite (.setRole (.of_within (.post .refl rfl))) .refl

/-- The fabric's owner is acted on, whatever the device was before the cell came. -/
theorem ModeHeld.ownerActs {d before : Dev} (h : ModeHeld a d) : ModeHeld a (Dev.ownerActs before d) := by
  refine h.trans ?_
  unfold Dev.ownerActs
  have hpins : ∀ c : Prop, [Decidable c] → ModeHeld d (if c then
      { d with twn := { d.twn with pinsHeld := false, demoting := false } }.pinsFollow else d) :=
    fun _ _ => .of_within (.ite (.pinsFollow (.set_twn .refl rfl) rfl) .refl)
  exact .ite .refl (.ite (.setRole (.within (hpins _) (.set_twn .refl rfl))) (.ite (.setRole (hpins _)) (hpins _)))

/-! ### TWN_CMD -/

section
variable {d : Dev} {m : ℕ}

theorem ModeHeld.twnDemote (h : ModeHeld a d) : ModeHeld a (twnDemote m d) := .ite (.demote h) (.within h (.twnRefuse .refl rfl))

theorem ModeHeld.twnResync (h : ModeHeld a d) : ModeHeld a (twnResync m d) := .ite (.setRole h) (.within h (.twnRefuse .refl rfl))

theorem ModeHeld.twnForcePromote (h : ModeHeld a d) : ModeHeld a (twnForcePromote m d) :=
  .ite (.claim (.within h (.wr (.each .refl fun _ _ _ he => .dropSegment he rfl) rfl))) (.within h (.twnRefuse .refl rfl))

theorem ModeHeld.twnRelease (h : ModeHeld a d) : ModeHeld a (twnRelease m d) := .ite (.setRole h) (.within h (.twnRefuse .refl rfl))

theorem ModeHeld.twnReactivate (h : ModeHeld a d) : ModeHeld a (twnReactivate m d) := .ite (.setRole h) (.within h (.twnRefuse .refl rfl))

end

/-! ### Frames of the twin link -/

theorem ModeHeld.onFrame {d : Dev} {t : ℕ} {f : BitVec 4096} {k : Dev → Dev} (h : ModeHeld a d) (hk : ∀ {e}, ModeHeld e (k e)) :
    ModeHeld a (d.onFrame t f k) := .ite h (.ite (.within h (.bump .refl rfl)) (.ite (h.trans hk) h))

theorem ModeHeld.hbActs {d : Dev} {was : ℕ} (h : ModeHeld a d) : ModeHeld a (d.hbActs was) := by
  refine h.trans ?_
  unfold Dev.hbActs
  refine .ite (.claim .refl) (.ite (.of_within (.ite (.set_twn .refl rfl) (.each (.set_twn .refl rfl) ?_))) .refl)
  exact fun _ _ _ he => .seekAlign he rfl

theorem ModeHeld.heartbeatRx {d : Dev} {f : BitVec 4096} (h : ModeHeld a d) : ModeHeld a (heartbeatRx f d) := by
  refine .onFrame h ?_
  exact .ite (.hbActs (.of_within (.takeAck (.set_twn (.wr (.wr (.wr .refl rfl) rfl) rfl) rfl) rfl))) .refl

theorem ModeHeld.heartbeatLoss {d : Dev} (h : ModeHeld a d) : ModeHeld a (heartbeatLoss d) := by
  refine h.trans ?_
  unfold Machine.heartbeatLoss
  have hlost : ∀ {x : Twn} {l}, Within modeless d
      { (((if d.mode = .m4 then d.copyStops else d).wr F.TWN_STATUS_HB_OK 0).post Ev.TWN_HB_LOST l) with twn := x } :=
    .set_twn (.post (.wr (.ite (.copyStops .refl rfl) .refl) rfl) rfl) rfl
  exact .ite .refl (.ite (.ite (.claim .refl) .refl) (.ite (.claim (.of_within hlost)) (.of_within (.ite (.post hlost rfl) hlost))))

theorem ModeHeld.decide {d : Dev} {port window word : ℕ} (h : ModeHeld a d) : ModeHeld a (d.decide port window word) := by
  refine h.trans ?_
  unfold Dev.decide
  have htold : ∀ {x : Twn} {w code : ℕ} {e : EvDesc} {l}, Within modeless d
      ((({ d with twn := x }).sendVerdict w code port window).post e l) := .post (.sendVerdict (.set_twn .refl rfl) rfl) rfl
  exact .ite (.demote (.of_within htold)) (.of_within htold)

theorem ModeHeld.actOn {d : Dev} {port window : ℕ} (h : ModeHeld a d) : ModeHeld a (d.actOn port window) := by
  refine h.trans ?_
  unfold Dev.actOn
  split
  · exact .of_within (.set_twn (.sendVerdict .refl rfl) rfl)
  split
  · split
    · exact .ite (.decide .refl) (.of_within (.set_twn .refl rfl))
    · exact .of_within (.set_twn .refl rfl)
  · exact .refl

theorem ModeHeld.takeVerdict {d : Dev} {f : BitVec 4096} (h : ModeHeld a d) : ModeHeld a (d.takeVerdict f) := by
  refine h.trans ?_
  unfold Dev.takeVerdict
  dsimp only
  split
  · split
    · exact .refl
    split
    · exact .decide .refl
    · exact .of_within (.set_twn .refl rfl)
  · exact .ite .refl (.ite (.claim (.of_within (.post (.set_twn .refl rfl) rfl))) (.setRole (.of_within (.post (.set_twn .refl rfl) rfl))))

theorem ModeHeld.verdictEvidenceTimeout {d : Dev} (h : ModeHeld a d) : ModeHeld a (verdictEvidenceTimeout d) := by
  refine h.trans ?_
  unfold Machine.verdictEvidenceTimeout
  split
  · exact .ite (.decide .refl) .refl
  · exact .refl

theorem ModeHeld.verdictWaitTimeout {d : Dev} (h : ModeHeld a d) : ModeHeld a (verdictWaitTimeout d) := by
  refine h.trans ?_
  unfold Machine.verdictWaitTimeout
  split
  · exact .ite (.setRole .refl) .refl
  · exact .refl

theorem ModeHeld.streamTake {d : Dev} {f : BitVec 4096} (h : ModeHeld a d) : ModeHeld a (d.streamTake f) :=
  .ite (.takeVerdict h) (.ite (.within h (.each .refl fun _ _ _ he => .takeRecord he rfl)) h)

theorem ModeHeld.streamDrain {n : ℕ} {d : Dev} (h : ModeHeld a d) : ModeHeld a (Dev.streamDrain n d) := by
  induction n generalizing d with
  | zero => exact h
  | succ k ih =>
    rw [Dev.streamDrain]
    split
    · exact h
    · exact ih (.streamTake (.within h (.set_twn .refl rfl)))

theorem ModeHeld.streamRx {d : Dev} {f : BitVec 4096} (h : ModeHeld a d) : ModeHeld a (d.streamRx f) :=
  .ite h (.streamDrain (.within h (.set_twn .refl rfl)))

theorem ModeHeld.mirrorFailure {d : Dev} {cause : ℕ} (h : ModeHeld a d) : ModeHeld a (mirrorFailure cause d) := by
  refine h.trans ?_
  unfold Machine.mirrorFailure
  split
  · exact .refl
  have hcount : ∀ {x : Twn} {l}, Within modeless d ((({ d with twn := x }).bump F.TWN_MIRROR_LATE).post Ev.TWN_MIRROR_LATE l) :=
    .post (.bump (.set_twn .refl rfl) rfl) rfl
  exact .ite (.setRole (.of_within hcount)) (.of_within (.ite (.set_twn hcount rfl)
    (.ite (.set_twn (.sendCtrl (.copyStops hcount rfl) rfl) rfl) hcount)))

/-! ### Digests -/

theorem ModeHeld.compareWindow {d : Dev} {p : ℕ} {x y : DigestEntry} (h : ModeHeld a d) : ModeHeld a (d.compareWindow p x y) := by
  refine h.trans ?_
  unfold Dev.compareWindow
  dsimp only
  split
  · exact .of_within (.ite (.updTp (.bump .refl rfl) rfl) .refl)
  split
  · exact .of_within (.ite (.bump (.updTp .refl rfl) rfl) (.updTp .refl rfl))
  have hcount : ∀ {c : Prop} [Decidable c] {g l}, Within modeless d (if c then
      ((d.updTp p g).bump F.TWN_WIN_MISMATCH).post Ev.TWN_MISMATCH l else d.updTp p g) :=
    .ite (.post (.bump (.updTp .refl rfl) rfl) rfl) (.updTp .refl rfl)
  exact .ite (.actOn (.of_within hcount)) (.of_within hcount)

theorem ModeHeld.digestWindowClose {d : Dev} {p : ℕ} (h : ModeHeld a d) : ModeHeld a (digestWindowClose p d) := by
  refine h.trans ?_
  unfold Machine.digestWindowClose
  dsimp only
  split
  · exact .refl
  split
  · exact .of_within (.updTp .refl rfl)
  split
  · exact .compareWindow (.of_within (.updTp (.ralinSend (.updTp .refl rfl) rfl) rfl))
  · exact .of_within (.updTp (.ralinSend (.updTp .refl rfl) rfl) rfl)

theorem ModeHeld.digestRx {d : Dev} {f : BitVec 4096} (h : ModeHeld a d) : ModeHeld a (digestRx f d) := by
  refine .onFrame h fun {d} => ?_
  refine .ite .refl (.each .refl fun i e he => ?_)
  dsimp only
  split
  · exact he
  split
  · exact .compareWindow (.within he (.updTp .refl rfl))
  · exact .within he (.updTp .refl rfl)

/-! ### The copy -/

theorem ModeHeld.takeAccept {d : Dev} (h : ModeHeld a d) : ModeHeld a d.takeAccept := by
  refine h.trans ?_
  unfold Dev.takeAccept
  refine .ite .refl (.setRole (.of_within (.wr (.wr (.set_img (.set_tbl (.set_tim (.set_que (.set_twn (.filter_regs
      (P := fun k => !copiedReg k || storeRegs.contains (k % 0x20000000)) .refl ?_) rfl) rfl) rfl) rfl) rfl) rfl) rfl)))
  exact fun k hk => by simp [has_modeless] at hk

theorem ModeHeld.copyCheck {d : Dev} (h : ModeHeld a d) : ModeHeld a d.copyCheck := by
  refine h.trans ?_
  unfold Dev.copyCheck
  split
  · exact .refl
  · exact .ite (.setRole (.of_within (.set_twn .refl rfl))) .refl

theorem ModeHeld.takeSegDone {d : Dev} {n crc : ℕ} (h : ModeHeld a d) : ModeHeld a (d.takeSegDone n crc) := by
  refine h.trans ?_
  unfold Dev.takeSegDone
  split
  · exact .refl
  split
  · exact .refl
  split
  · exact .copyCheck (.of_within (.wr (.updSeg (.configCopied (.storeTake .refl rfl) rfl) rfl) rfl))
  · exact .of_within (.ite (.set_twn .refl rfl) (.sendCtrl (.updSeg .refl rfl) rfl))

theorem ModeHeld.resyncCtrlRx {d : Dev} {f : BitVec 4096} (h : ModeHeld a d) : ModeHeld a (resyncCtrlRx f d) := by
  refine .onFrame h fun {d} => ?_
  dsimp only
  split
  · exact .of_within (.takeRequest .refl rfl)
  split
  · exact .takeAccept .refl
  split
  · exact .takeSegDone .refl
  split
  · exact .of_within (.ite (.updSeg .refl rfl) .refl)
  split
  · exact .ite (.copyCheck (.of_within (.set_twn .refl rfl))) .refl
  split
  · exact .of_within (.ite (.set_twn .refl rfl) (.ite (.set_twn (.copyStops .refl rfl) rfl) .refl))
  · exact .of_within (.ite (.ite (.set_twn (.copyStops .refl rfl) rfl) .refl) .refl)

theorem ModeHeld.copyAbort {d : Dev} {cause : ℕ} (h : ModeHeld a d) : ModeHeld a (copyAbort cause d) := by
  refine h.trans ?_
  unfold Machine.copyAbort
  exact .ite (.setRole (.of_within (.sendCtrl (.post (.set_twn .refl rfl) rfl) rfl))) .refl

theorem ModeHeld.settleComplete {d : Dev} (h : ModeHeld a d) : ModeHeld a (settleComplete d) := by
  refine h.trans ?_
  unfold Machine.settleComplete
  exact .ite (.within (.setRole (.of_within (.wr .refl rfl))) (.post (.sendCtrl .refl rfl) rfl)) .refl

/-! ### Shedding -/

theorem ModeHeld.shedEffect {d : Dev} {n : ℕ} (h : ModeHeld a d) : ModeHeld a (d.shedEffect n) := by
  refine h.trans ?_
  unfold Dev.shedEffect
  split
  · exact .of_within (.walkShed .refl rfl)
  split
  · exact .twinShed .refl
  split
  · exact .of_within (.portsDown .refl (fun _ hp => List.mem_range.1 (List.mem_of_mem_filter hp)) rfl)
  split
  · refine .of_within (.portsDown .refl (fun p hp => ?_) rfl)
    obtain ⟨o, -, ho⟩ := List.mem_flatMap.1 hp
    exact lt_of_mem_octetPorts ho
  · exact .refl

theorem ModeHeld.shedStepEnter {d : Dev} (h : ModeHeld a d) : ModeHeld a (shedStepEnter d) := by
  refine h.trans ?_
  unfold Machine.shedStepEnter
  split
  · exact .refl
  · exact .withMode (.shedEffect (.of_within (.post (.setShed .refl rfl) rfl)))

/-! ### GLB_CTRL and SEC_CTRL -/

theorem ModeHeld.fwdEn {d : Dev} {m : ℕ} (h : ModeHeld a d) : ModeHeld a (fwdEn m d) := by
  refine h.trans ?_
  unfold Machine.fwdEn
  have hset : ModeHeld d (d.wr F.GLB_CTRL_FWD_EN 1) := .of_within (.wr .refl rfl)
  exact .ite .refl (.ite (.of_within (.ctrlRefuse .refl rfl)) (.ite (.enterTwin hset) (.withMode (.setMode hset))))

theorem ModeHeld.maintReq {d : Dev} {m : ℕ} {alsoFwd : Bool} (h : ModeHeld a d) : ModeHeld a (maintReq m alsoFwd d) := by
  refine h.trans ?_
  unfold Machine.maintReq
  have hset : Within modeless d (if d.on F.GLB_CTRL_MAINT_REQ = true then d else
      (d.wr F.GLB_CTRL_MAINT_REQ 1).requestFlush 4 0xFFFF [(0, 524288)]) := .ite .refl (.requestFlush (.wr .refl rfl) rfl)
  exact .ite (.of_within (.ite (.ctrlRefuse hset rfl) hset))
    (.ite (.fwdEn (.of_within (.ctrlRefuse .refl rfl))) (.of_within (.ctrlRefuse .refl rfl)))

theorem ModeHeld.m10EntryComplete {d : Dev} (h : ModeHeld a d) : ModeHeld a (m10EntryComplete d) := by
  refine h.trans ?_
  unfold Machine.m10EntryComplete
  exact .ite (.within (.withMode (f := fun x => x.setMode .m10) (.setMode .refl))
    (.settle (.lowCheck (.emptyBuffers (.clearPiers .refl rfl) rfl) rfl) rfl)) .refl

end Sys2Proof.Machine
end

