-- ==== Sys2Proof/Proofs/Quarantine.lean ====
section
/-! PROOF. Quarantine and maintenance mode are left by resets alone, and reset by a release alone (R22, R437). -/

namespace Sys2Proof.Machine

/-! ### Resets and releases -/

/-- A system reset leaves the device in M0, also where PORST_N governs. -/
theorem mode_systemReset (d : Dev) (cause : Fld) : (d.systemReset cause).mode = .m0 := by
  unfold Dev.systemReset Dev.underPor
  split
  · rename_i h
    split <;> exact h.1
  · exact (Within.foldl_masterReset (S := ⟨[.posted, .ctl], [13], []⟩) .refl (by decide) rfl).mode_eq (by decide)

theorem mode_pulse {d : Dev} {n : ℕ} {f : Dev → Dev} (hf : ∀ e, (f e).mode = .m0) :
    (d.pulse n f).mode = d.mode ∨ (d.pulse n f).mode = .m0 := by
  unfold Dev.pulse
  split
  · exact .inl rfl
  split
  · exact .inr (hf d)
  dsimp only
  split
  · exact .inr (hf _)
  · exact .inl rfl

/-- A command that resets the device leaves the mode, or leaves the device in M0. -/
theorem mode_of_resetsDevice {c : Instr} {s t : State} (hc : resetsDevice c) (h : exec c s = .next t) :
    t.dev.mode = s.dev.mode ∨ t.dev.mode = .m0 := by
  cases c
  case porstNAssert =>
    cases exec_next_unique h rfl
    exact mode_pulse fun _ => rfl
  case sysrstNAssert =>
    cases exec_next_unique h rfl
    exact mode_pulse fun e => mode_systemReset e _
  case railResetLevel =>
    cases exec_next_unique h rfl
    exact .inr (mode_systemReset s.dev F.GLB_RESET_CAUSE_VRAIL)
  case thermalTrip =>
    cases exec_next_unique h rfl
    show (thermalTrip s.dev).mode = _ ∨ (thermalTrip s.dev).mode = _
    unfold thermalTrip
    split
    · exact .inl rfl
    · exact .inr (mode_systemReset s.dev F.GLB_RESET_CAUSE_THERMAL)
  all_goals exact hc.elim

/-- A command that releases the device does nothing outside M0. -/
theorem mode_of_releasesDevice {c : Instr} {s t : State} (hc : releasesDevice c) (hs : s.dev.mode ≠ .m0) (h : exec c s = .next t) :
    t.dev = s.dev := by
  cases c
  case resetRelease =>
    cases exec_next_unique h rfl
    exact if_pos (.inl hs)
  case testEnRelease =>
    cases exec_next_unique h rfl
    exact if_neg fun hd => hs hd.1
  case supplyMonitorsInRange =>
    cases exec_next_unique h rfl
    exact if_neg fun hd => hs hd.1
  all_goals exact hc.elim

/-- A write of SYS_RESET by the host is refused in M10 and M11. -/
theorem secSysReset_refused {d : Dev} {m : ℕ} (hm : m = 6) (h : d.mode = .m10 ∨ d.mode = .m11) :
    secSysReset m d = d.secRefuse 4 2 m := by
  rw [secSysReset, if_neg (not_not.2 hm), if_pos h]

theorem ModeHeld.secSysReset {d : Dev} {m : ℕ} : ModeHeld d (secSysReset m d) := by
  unfold Machine.secSysReset
  refine .ite (.of_within (.secRefuse .refl rfl)) ?_
  split
  · exact .of_within (.secRefuse .refl rfl)
  · rename_i h
    exact ⟨fun _ => mode_systemReset d _, fun h11 => absurd (.inr h11) h, fun h10 => absurd (.inl h10) h⟩

/-! ### Register writes -/

section
variable {d : Dev} {m off : ℕ} {data : Word} {r : RegAt}

theorem ModeHeld.writeGlb : ModeHeld d (d.writeGlb m r data) :=
  .ite (.ite (.maintReq .refl) (.when fun _ => .fwdEn .refl))
    (.of_within (.ite (.when .refl fun _ => .glbLockSet .refl rfl) (.store .refl (has_modeless _))))

theorem ModeHeld.writeTwn : ModeHeld d (d.writeTwn m r data) := by
  unfold Dev.writeTwn
  refine .ite (.of_within (.twinEnable .refl rfl)) (.ite ?_
    (.of_within (.ite (.wr (.wr (.wr .refl rfl) rfl) rfl) (.store .refl (has_modeless _)))))
  split
  · exact .twnDemote .refl
  · exact .twnResync .refl
  · exact .twnForcePromote .refl
  · exact .twnRelease .refl
  · exact .twnReactivate .refl
  · exact .refl

theorem write32_of_glb (h : blockOf r.row = 1) : d.write32 m r data = d.writeGlb m r data := by
  refine if_pos (Nat.not_le.1 fun hle => ?_)
  have := blockOf_mono hle
  simp only [h, show blockOf 0x1000000 = 2 from rfl] at this
  omega

theorem write32_of_twn (h : blockOf r.row = 12) : d.write32 m r data = d.writeTwn m r data := by
  have hlo := fun hle => blockOf_mono (i := r.row) (j := 0x11FFFFFF) hle
  have hhi := fun hle => blockOf_mono (i := 0x13000000) (j := r.row) hle
  simp only [h, show blockOf 0x11FFFFFF = 11 from rfl, show blockOf 0x13000000 = 13 from rfl] at hlo hhi
  unfold Dev.write32
  simp (disch := omega) only [if_neg, if_pos]

theorem wideScope_le_modeless {b : ℕ} (h : 1 ≤ b ∧ b ≤ 17) : Scope.le (wideScope b) modeless := by
  obtain ⟨h1, h2⟩ := h
  interval_cases b <;> rfl

/-- Of the blocks, GLB and TWN alone have registers whose writes change the mode, beside SEC_CTRL. -/
theorem writeScope_le_modeless {b : ℕ} (h : 1 ≤ b ∧ b ≤ 17) (h1 : b ≠ 1) (h12 : b ≠ 12) : Scope.le (writeScope b) modeless := by
  have hle : ∀ b ∈ List.range' 1 17, b ≠ 1 → b ≠ 12 → Scope.le (writeScope b) modeless := by decide
  exact hle b (List.mem_range'_1.2 ⟨h.1, by omega⟩) h1 h12

/-- A write into GLB or TWN. -/
theorem ModeHeld.busWrite_of_modeBlock (hb : blockOf off = 1 ∨ blockOf off = 12) : ModeHeld d (d.busWrite m off data) := by
  have hno : Within modeless d d.noAbort := .noAbort .refl rfl
  unfold Dev.busWrite
  dsimp only
  split
  · exact .of_within hno
  split
  · exact .of_within (.postUnmapped hno rfl)
  split
  · exact .of_within hno
  rw [if_neg fun h => by simp [blockOf_broadcast h] at hb]
  split
  · exact .of_within hno
  rename_i r hr
  refine .ite (.of_within (.writeHalf hno hr (wideScope_le_modeless (blockOf_bounds off)))) (.trans (.of_within hno) ?_)
  rw [← blockOf_row hr] at hb
  obtain hb | hb := hb
  · rw [write32_of_glb hb]
    exact .writeGlb
  · rw [write32_of_twn hb]
    exact .writeTwn

theorem ModeHeld.busWrite : ModeHeld d (d.busWrite m off data) := by
  by_cases hb : blockOf off = 1 ∨ blockOf off = 12
  · exact .busWrite_of_modeBlock hb
  by_cases hsec : off = F.SEC_CTRL.off
  · obtain h | h := busWrite_secCtrl_cases d m data
    · exact hsec ▸ .of_within (h.mono rfl)
    · rw [hsec, h]
      exact .trans (.of_within (.noAbort .refl rfl)) .secSysReset
  · rw [not_or] at hb
    exact .of_within (.busWrite .refl (fun h => absurd h hsec) (writeScope_le_modeless (blockOf_bounds off) hb.1 hb.2))

end

/-! ### Timed actions and mirror records -/

theorem ModeHeld.action {d : Dev} {i : ℕ} {e : TaEntry} : ModeHeld d (d.action i e).2 := by
  by_cases h : e.type = 5
  · unfold Dev.action
    rw [h]
    exact .within (.trans (.of_within (.set_twn .refl rfl)) .busWrite) (.set_twn .refl rfl)
  · exact .of_within (.action .refl (by rw [entryScope, if_neg h]; rfl))

theorem ModeHeld.timedActionFire {d : Dev} : ModeHeld d (timedActionFire d) := by
  unfold Machine.timedActionFire
  split
  · rename_i i _ _
    have hset : ∀ {x : TaEntry}, ModeHeld d ((d.action i (d.entryAt i)).2.setEntry i x) := .within .action (.setEntry .refl rfl)
    exact .ite hset (.within hset (.post .refl rfl))
  · exact .refl

theorem ModeHeld.applyRecord {d : Dev} {r : MirrorRec} : ModeHeld d (d.applyRecord r) := by
  by_cases h : r.kind = 2
  · unfold Dev.applyRecord
    rw [h]
    exact .ite (.of_within (.dckApply .refl rfl)) .busWrite
  · exact .of_within (.applyRecord .refl (by rw [recordScope, if_neg h]; rfl))

theorem ModeHeld.mirrorRecordApply {d : Dev} : ModeHeld d (mirrorRecordApply d) := by
  unfold Machine.mirrorRecordApply
  split
  · exact .refl
  · exact .trans (.of_within (.set_twn .refl rfl)) .applyRecord

/-! ### The commands -/

/-- The command holds the modes, whatever next state it answers. -/
def HoldsMode (c : Instr) (s : State) : Prop := ∀ t, exec c s = .next t → ModeHeld s.dev t.dev

section
variable {c : Instr} {s : State} {e : Dev} {m off : ℕ} {f : Dev → Dev}

theorem HoldsMode.of_exec (h : exec c s = .next { s with dev := e }) (he : ModeHeld s.dev e) : HoldsMode c s := by
  intro t ht
  cases exec_next_unique ht h
  exact he

theorem HoldsMode.of_frame (h : exec c s = .next { s with dev := e }) (he : Within modeless s.dev e) : HoldsMode c s :=
  .of_exec h (.of_within he)

theorem HoldsMode.of_write (h : exec c s = onReg s m off f) (hf : ∀ {d}, ModeHeld d (f d)) : HoldsMode c s := .of_exec h (.onWrite hf)

theorem HoldsMode.of_frameWrite (h : exec c s = onReg s m off f) (hf : ∀ {d}, Within modeless d (f d)) : HoldsMode c s :=
  .of_write h (.of_within hf)

end

/-- Every command but the resets and the releases holds the modes. -/
theorem holdsMode {c : Instr} {s : State} (hr : ¬ resetsDevice c) (hl : ¬ releasesDevice c) : HoldsMode c s := by
  cases c with
  | porstNAssert => exact absurd trivial hr
  | sysrstNAssert => exact absurd trivial hr
  | perstNAssert => exact .of_frame rfl (.perstNAssert .refl rfl)
  | functionLevelReset pf => exact .of_frame rfl (.functionLevelReset .refl pf.isLt rfl)
  | resetRelease => exact absurd trivial hl
  | testEnRelease => exact absurd trivial hl
  | registerWrite => exact .of_exec rfl .busWrite
  | reg64LowRead => exact .of_frame rfl (.when .refl fun _ => .busRead .refl rfl)
  | reg64LowWrite => exact .of_exec rfl (.when fun _ => .busWrite)
  | reg64HighWrite => exact .of_exec rfl (.when fun _ => .busWrite)
  | rcRead => exact .of_frame rfl (.busRead .refl rfl)
  | unmappedAccess => exact .of_frame rfl (.unmappedAccess .refl rfl)
  | broadcastWrite => exact .of_exec rfl .busWrite
  | glbLockSet => exact .of_frameWrite rfl (.glbLockSet .refl rfl)
  | maintReq => exact .of_write rfl (.maintReq .refl)
  | fwdEn => exact .of_write rfl (.fwdEn .refl)
  | srcSelect => exact .of_frameWrite rfl (.srcSelect .refl rfl)
  | spanDisagree => exact .of_frame rfl (.spanDisagree .refl rfl)
  | fabricRelock => exact .of_frame rfl (.fabricRelock .refl rfl)
  | ppsEdge => exact .of_frame rfl (.ppsEdge .refl rfl)
  | spanSyncMarker => exact .of_frame rfl (.spanSyncMarker .refl rfl)
  | syncLoadArm => exact .of_frameWrite rfl (.syncLoadArm .refl rfl)
  | todMessageRx => exact .of_frame rfl (.todMessageRx .refl rfl)
  | taStageWrite => exact .of_frameWrite rfl (.taStageWrite .refl rfl)
  | taArm => exact .of_frameWrite rfl (.taArm .refl rfl)
  | taCancel => exact .of_frameWrite rfl (.taCancel .refl rfl)
  | imgLoadStart => exact .of_frameWrite rfl (.imgLoadStart .refl rfl)
  | imgLoadAbort => exact .of_frameWrite rfl (.imgLoadAbort .refl rfl)
  | imgLoadEnd => exact .of_exec rfl (.imgLoadEnd .refl)
  | walkStart => exact .of_frameWrite rfl (.walkStart .refl rfl)
  | walkAbandon => exact .of_frameWrite rfl (.walkAbandon .refl rfl)
  | walkResume => exact .of_frameWrite rfl (.walkResume .refl rfl)
  | walkStepTimeout => exact .of_frame rfl (.walkStepTimeout .refl rfl)
  | pierReloadDone pier => exact .of_frame rfl (.pierReloadDone .refl pier.isLt rfl)
  | pierFault pier => exact .of_frame rfl (.pierFault .refl pier.isLt rfl)
  | strokeTimeout pier => exact .of_frame rfl (.strokeTimeout .refl pier.isLt rfl)
  | pierRetireCmd => exact .of_frameWrite rfl (.pierRetireCmd .refl rfl)
  | pierRestoreCmd => exact .of_frameWrite rfl (.pierRestoreCmd .refl rfl)
  | laneMapWrite => exact .of_frameWrite rfl (.laneMapWrite .refl (has_modeless _) (has_modeless _) rfl)
  | frameReceive port => exact .of_frame rfl (.frameReceive .refl port.isLt rfl)
  | macControlFrameRx => exact .of_frame rfl (.macControl .refl (has_modeless _) (has_modeless _) rfl)
  | pauseExpiry => exact .of_frame rfl (.pauseExpiry .refl rfl)
  | pfcRefresh => exact .of_frame rfl (.pfcRefresh .refl (has_modeless _) rfl)
  | pfcWatchdog => exact .of_frame rfl (.pfcWatchdog .refl rfl)
  | msecSaInstall => exact .of_frameWrite rfl (.msecSaInstall .refl rfl)
  | msecSaRetire _ port => exact .of_frameWrite rfl (.msecSaRetire .refl port.isLt rfl)
  | txtsPop => exact .of_frameWrite rfl (.txtsPop .refl rfl)
  | lptCntClr _ port => exact .of_frameWrite rfl (.lptCntClr .refl port.isLt rfl)
  | gclCommit => exact .of_frameWrite rfl (.gclCommit .refl (has_modeless _) rfl)
  | gclStart => exact .of_frame rfl (.gclStart .refl (has_modeless _) (has_modeless _) (has_modeless _) rfl)
  | gateEntryAdvance => exact .of_frame rfl (.gateEntryAdvance .refl rfl)
  | preemptVerifyExchange => exact .of_frame rfl (.preemptVerify .refl (has_modeless _) rfl)
  | adminUpWrite => exact .of_frameWrite rfl (.adminUpWrite .refl (has_modeless _) (has_modeless _) rfl)
  | portLinkDown => exact .of_frame rfl (.portLinkDown .refl (has_modeless _) rfl)
  | portLinkUp => exact .of_frame rfl (.portLinkUp .refl (has_modeless _) rfl)
  | fecInterval => exact .of_frame rfl (.fecInterval .refl (has_modeless _) (has_modeless _) (has_modeless _) rfl)
  | ingressStroke pier => exact .of_frame rfl (.ingressStroke .refl pier.isLt rfl)
  | secondStroke pier => exact .of_frame rfl (.secondStroke .refl pier.isLt rfl)
  | egressStroke pier => exact .of_frame rfl (.egressStroke .refl pier.isLt rfl)
  | tcamCommitRequest => exact .of_frameWrite rfl (.mirroredWrite .refl (.tcamCommitRequest .refl rfl) rfl)
  | tcamCommit => exact .of_frame rfl (.tcamCommit .refl (has_modeless _) (has_modeless _) rfl)
  | pirCntClr _ pier => exact .of_frameWrite rfl (.pirCntClr .refl pier.isLt rfl)
  | taeSubmit => exact .of_frameWrite rfl (.ite (.taeSubmit .refl rfl) .refl)
  | bulk => exact .of_frame rfl (.bulk .refl rfl)
  | entryWindowRead => exact .of_frame rfl (.onRead .refl (.ite (.entryWindowRead .refl rfl) (.answer .refl rfl)) rfl)
  | entryWindowWrite => exact .of_frameWrite rfl (.ite (.entryWindowWrite .refl rfl) .refl)
  | snapshotCopyDone => exact .of_frame rfl (.snapshotCopyDone .refl rfl)
  | rehashOpen => exact .of_frameWrite rfl (.rehashOpen .refl rfl)
  | rehashCommit => exact .of_frameWrite rfl (.rehashCommit .refl (by omega) rfl)
  | rehashAbort => exact .of_frameWrite rfl (.rehashAbort .refl rfl)
  | openPageTimeout => exact .of_frame rfl (.openPageTimeout .refl rfl)
  | bufAllocRead => exact .of_frame rfl (.onRead .refl (.bufAllocRead .refl rfl) rfl)
  | bufFreeAddr => exact .of_frameWrite rfl (.bufFreeAddr .refl rfl)
  | bufFreeHandle => exact .of_frameWrite rfl (.bufFreeHandle .refl rfl)
  | prefetch => exact .of_frame rfl (.prefetch .refl rfl)
  | cxlLinkTrained port => exact .of_frame rfl (.cxlLinkTrained .refl port.isLt rfl)
  | cxlTrainTimeout => exact .of_frame rfl (.cxlTrainTimeout .refl (has_modeless _))
  | cxlTrainRetry port => exact .of_frame rfl (.cxlTrainRetry .refl port.isLt rfl)
  | cxlEnable _ port => exact .of_frameWrite rfl (.cxlEnable .refl port.isLt rfl)
  | cxlDrain _ port => exact .of_frameWrite rfl (.cxlDrain .refl port.isLt rfl)
  | cxlDrainComplete => exact .of_frame rfl (.cxlDrainComplete .refl (has_modeless _) rfl)
  | cxlDisable _ port => exact .of_frameWrite rfl (.cxlDisable .refl port.isLt rfl)
  | cxlLinkFail port => exact .of_frame rfl (.cxlLinkFail .refl port.isLt rfl)
  | cxlLinkRetrained port => exact .of_frame rfl (.cxlLinkRetrained .refl port.isLt rfl)
  | quePortCfgWrite => exact .of_frameWrite rfl (.mirroredWrite .refl (.quePortCfgWrite .refl (has_modeless _) rfl) rfl)
  | nodePortWrite => exact .of_frameWrite rfl (.mirroredWrite .refl (.nodePortWrite .refl rfl) rfl)
  | queAttach => exact .of_frameWrite rfl (.mirrorMove (.queAttach .refl rfl) rfl)
  | queSwap => exact .of_frameWrite rfl (.mirrorMove (.queSwap .refl rfl) rfl)
  | queDetach => exact .of_frameWrite rfl (.mirrorMove (.queDetach .refl rfl) rfl)
  | schedulerSelection => exact .of_frame rfl (.schedulerSelection .refl rfl)
  | flushQueue => exact .of_frameWrite rfl (.mirroredWrite .refl (.requestFlush .refl rfl) rfl)
  | flushPort => exact .of_frameWrite rfl (.mirroredWrite .refl (.requestFlush .refl rfl) rfl)
  | flushAllVoqs => exact .of_frameWrite rfl (.mirroredWrite .refl (.requestFlush .refl rfl) rfl)
  | histRebind => exact .of_frameWrite rfl (.localWrite .refl (.histWrite .refl rfl) rfl)
  | histClear => exact .of_frameWrite rfl (.localWrite .refl (.histWrite .refl rfl) rfl)
  | elemBind => exact .of_frameWrite rfl (.settle (.elemBind .refl rfl) rfl)
  | setSwitchWrite => exact .of_frameWrite rfl (.setSwitchWrite .refl rfl)
  | fabLaneLock => exact .of_frame rfl (.fabLaneLock .refl rfl)
  | fabLaneLockLoss => exact .of_frame rfl (.fabLaneLockLoss .refl rfl)
  | fabricLinkUp link => exact .of_frame rfl (.fabricLinkUp .refl link.isLt rfl)
  | fabricLinkDown link => exact .of_frame rfl (.fabricLinkDown .refl link.isLt rfl)
  | fabEnableWrite => exact .of_frameWrite rfl (.fabEnableWrite .refl rfl)
  | fabRestart => exact .of_frameWrite rfl (.fabRestart .refl rfl)
  | controlDownRx lane => exact .of_exec rfl (.ownerActs (.of_within (.controlDownRx .refl lane.isLt rfl)))
  | cellSend => exact .of_frame rfl (.cellSend .refl rfl)
  | dataCellRx => exact .of_frame rfl (.dataCellRx .refl rfl)
  | reasmTimeout => exact .of_frame rfl (.reasmTimeout .refl rfl)
  | reasmStale => exact .of_frame rfl (.reasmStale .refl rfl)
  | takeoverRequest => exact .of_frameWrite rfl (.takeoverRequest .refl rfl)
  | mcGroupWrite => exact .of_frameWrite rfl (.mcGroupWrite .refl rfl)
  | clEntryWrite => exact .of_frameWrite rfl (.clEntryWrite .refl rfl)
  | mcCounterClr => exact .of_frameWrite rfl (.localWrite .refl (.mcCounterClr .refl rfl) rfl)
  | twinEnable => exact .of_frameWrite rfl (.twinEnable .refl rfl)
  | ralinLaneLock => exact .of_frame rfl (.ralinLaneLock .refl rfl)
  | ralinLaneLockLoss => exact .of_frame rfl (.ralinLaneLockLoss .refl rfl)
  | heartbeatRx => exact .of_exec rfl (.heartbeatRx .refl)
  | mirrorFrameRx => exact .of_exec rfl (.onFrame .refl (.streamRx .refl))
  | mirrorFailure => exact .of_exec rfl (.mirrorFailure .refl)
  | digestWindowClose => exact .of_exec rfl (.digestWindowClose .refl)
  | digestRx => exact .of_exec rfl (.digestRx .refl)
  | digestCompareTimeout => exact .of_frame rfl (.digestCompareTimeout .refl rfl)
  | realignRx => exact .of_frame rfl (.realignRx .refl rfl)
  | verdictRx => exact .of_exec rfl (.onFrame .refl (.streamRx .refl))
  | evidenceExpiry => exact .of_frame rfl (.evidenceExpiry .refl rfl)
  | twnDemote => exact .of_write rfl (.twnDemote .refl)
  | twnResync => exact .of_write rfl (.twnResync .refl)
  | twnForcePromote => exact .of_write rfl (.twnForcePromote .refl)
  | twnRelease => exact .of_write rfl (.twnRelease .refl)
  | twnReactivate => exact .of_write rfl (.twnReactivate .refl)
  | resyncCtrlRx => exact .of_exec rfl (.resyncCtrlRx .refl)
  | manifestRx => exact .of_frame rfl (.manifestRx .refl rfl)
  | segmentRx => exact .of_frame rfl (.segmentRx .refl rfl)
  | copyAbort => exact .of_exec rfl (.copyAbort .refl)
  | lockstepMismatch pair => exact .of_frame rfl (.ite (.evidence (.lockstepMismatch .refl pair.isLt rfl) rfl) .refl)
  | pairRestart pair => exact .of_frame rfl (.pairRestart .refl pair.isLt rfl)
  | pairCheckpoint => exact .of_frame rfl (.pairCheckpoint .refl (has_modeless _) rfl)
  | serviceRequest => exact .of_frame rfl (.serviceRequest .refl rfl)
  | mbxBindWrite => exact .of_frameWrite rfl (.mbxBindWrite .refl (has_modeless _) rfl)
  | bindLockSet => exact .of_frameWrite rfl (.bindLockSet .refl rfl)
  | mbxDataWrite => exact .of_frameWrite rfl (.mbxDataWrite .refl rfl)
  | mbxPost => exact .of_frameWrite rfl (.mbxPost .refl rfl)
  | mbxRxstatRead => exact .of_frame rfl (.onRead .refl (.mbxRxstatRead .refl rfl) rfl)
  | mbxAck => exact .of_frameWrite rfl (.mbxAck .refl rfl)
  | bellClear => exact .of_frameWrite rfl (.bellClear .refl (has_modeless _))
  | bellMaskWrite => exact .of_frameWrite rfl (.bellMaskWrite .refl (has_modeless _) rfl)
  | lockRead => exact .of_frame rfl (.lockRead .refl rfl)
  | lockWrite => exact .of_frameWrite rfl (.lockWrite .refl rfl)
  | pcieLinkUp => exact .of_frame rfl (.pcieLinkUp .refl rfl)
  | pqTailWrite => exact .of_frameWrite rfl (.settle (.pqTailWrite .refl (has_modeless _)) rfl)
  | iqTailWrite => exact .of_frameWrite rfl (.iqTailWrite .refl (has_modeless _) rfl)
  | injectFetch => exact .of_frame rfl (.injectFetch .refl rfl)
  | queueEnableWrite => exact .of_frameWrite rfl (.settle (.queueEnableWrite .refl (fun _ _ => has_modeless _) rfl) rfl)
  | evrEnableWrite _ ring => exact .of_frameWrite rfl (.evrEnableWrite .refl ring.isLt rfl)
  | eventPost => exact .of_frame rfl (.eventPost .refl rfl)
  | evrDmaError ring => exact .of_frame rfl (.evrDmaError .refl ring.isLt rfl)
  | evrInterrupt => exact .of_frame rfl (.evrInterrupt .refl rfl)
  | entdaa => exact .of_frame rfl (.entdaa .refl rfl)
  | i3cPrivateWrite => exact .of_frame rfl (.i3cPrivateWrite .refl rfl)
  | i3cPrivateRead => exact .of_frame rfl (.i3cPrivateRead .refl rfl)
  | domainSwitch domain => exact .of_frame rfl (.domainSwitch .refl (domain.isLt.trans (by decide)) rfl)
  | railOor => exact .of_frame rfl (.railOor .refl rfl)
  | regulatorPoll => exact .of_frame rfl (.regulatorPoll .refl rfl)
  | pierClockChange => exact .of_frame rfl (.pierClockChange .refl (has_modeless _) rfl)
  | tempReading => exact .of_frame rfl (.tempReading .refl rfl)
  | bootComplete => exact .of_exec rfl (.bootComplete .refl)
  | fuseAdvance => exact .of_frameWrite rfl (.fuseStart .refl rfl)
  | fuseRevoke => exact .of_frameWrite rfl (.fuseStart .refl rfl)
  | fuseJtagLock => exact .of_frameWrite rfl (.fuseStart .refl rfl)
  | attestStart => exact .of_frameWrite rfl (.attestStart .refl rfl)
  | flashRead => exact .of_frameWrite rfl (.flashStart .refl rfl)
  | flashErase => exact .of_frameWrite rfl (.flashStart .refl rfl)
  | flashProgram => exact .of_frameWrite rfl (.flashStart .refl rfl)
  | flashOpDone => exact .of_frame rfl (.flashOpDone .refl rfl)
  | secSysReset => exact .of_write rfl .secSysReset
  | cuArm => exact .of_frameWrite rfl (.cuArm .refl (has_modeless _) (has_modeless _) rfl)
  | cuStreamEnd unit => exact .of_frame rfl (.cuStreamEnd .refl unit.isLt rfl)
  | patrolRead => exact .of_frame rfl (.patrolRead .refl rfl)
  | bistStart => exact .of_frameWrite rfl (.bistStart .refl rfl)
  | bistDone => exact .of_frame rfl (.bistDone .refl rfl)
  | recalStart => exact .of_frameWrite rfl (.recalStart .refl rfl)
  | causewayError => exact .of_frame rfl (.causewayError .refl rfl)
  | cwTestEnable => exact .of_frameWrite rfl (.cwTestEnable .refl rfl)
  | maintTestStart => exact .of_frameWrite rfl (.maintTestStart .refl rfl)
  | maintTestDone => exact .of_frame rfl (.maintTestDone .refl rfl)
  | frameTransmit port => exact .of_frame rfl (.frameTransmit .refl port.isLt rfl)
  | railReading => exact .of_frame rfl (.railReading .refl rfl)
  | lineFaultChange => exact .of_frame rfl (.lineFaultChange .refl (has_modeless _) rfl)
  | m10EntryComplete => exact .of_exec rfl (.m10EntryComplete .refl)
  | spanStart => exact .of_frame rfl (.spanBegins .refl rfl)
  | fabricTimeLoss => exact .of_frame rfl (.fabricTimeLoss .refl rfl)
  | pllLock => exact .of_frame rfl (.pllLock .refl rfl)
  | pllLockLoss => exact .of_frame rfl (.pllLockLoss .refl rfl)
  | ppsEdgesMissing => exact .of_frame rfl (.ppsEdgesMissing .refl rfl)
  | spanSyncMarkersMissing => exact .of_frame rfl (.spanSyncMarkersMissing .refl rfl)
  | spanSyncOutMarker => exact .of_frame rfl (.spanSyncOutMarker .refl rfl)
  | phcSecond => exact .of_frame rfl (.phcSecond .refl rfl)
  | todMessageTx => exact .of_frame rfl (.todMessageTx .refl rfl)
  | todBaseUpdate => exact .of_frame rfl (.todBaseUpdate .refl rfl)
  | keystoneFire => exact .of_frame rfl (.keystoneFire .refl rfl)
  | timedActionFire => exact .of_exec rfl .timedActionFire
  | drainLimitReached => exact .of_frame rfl (.drainLimitReached .refl rfl)
  | expirySweepComplete => exact .of_frame rfl (.expirySweepComplete .refl rfl)
  | walkStepCommit => exact .of_frame rfl (.walkStepCommit .refl rfl)
  | readKey => exact .of_frame rfl (.taeRun .refl rfl)
  | insert => exact .of_frame rfl (.taeRun .refl rfl)
  | delete => exact .of_frame rfl (.taeRun .refl rfl)
  | readIndex => exact .of_frame rfl (.taeRun .refl rfl)
  | writeIndex => exact .of_frame rfl (.taeRun .refl rfl)
  | lpmInsert => exact .of_frame rfl (.taeRun .refl rfl)
  | lpmDelete => exact .of_frame rfl (.taeRun .refl rfl)
  | lpmRead => exact .of_frame rfl (.taeRun .refl rfl)
  | retire => exact .of_frame rfl (.taeRun .refl rfl)
  | learnApply => exact .of_frame rfl (.learnApply .refl rfl)
  | rehashCopy => exact .of_frame rfl (.rehashCopy .refl rfl)
  | ageingSweep => exact .of_frame rfl (.ageingSweep .refl rfl)
  | retireRelease => exact .of_frame rfl (.retireRelease .refl rfl)
  | enqueue => exact .of_frame rfl (.enqueue .refl rfl)
  | flushProgress => exact .of_frame rfl (.flushProgress .refl rfl)
  | tokenRefresh => exact .of_frame rfl (.tokenRefresh .refl rfl)
  | setSwitch => exact .of_frame rfl (.settle (.setSwitch .refl rfl) rfl)
  | controlUpSend => exact .of_frame rfl (.controlUpSend .refl rfl)
  | cellStaging => exact .of_frame rfl (.cellStaging .refl rfl)
  | deckSlot => exact .of_frame rfl (.deckSlot .refl rfl)
  | replicationCopy => exact .of_frame rfl (.replicationCopy .refl rfl)
  | heartbeatSend => exact .of_frame rfl (.heartbeatSend .refl rfl)
  | heartbeatLoss => exact .of_exec rfl (.heartbeatLoss .refl)
  | mirrorRetransmit => exact .of_frame rfl (.mirrorRetransmit .refl rfl)
  | mirrorRecordApply => exact .of_exec rfl .mirrorRecordApply
  | verdictEvidenceTimeout => exact .of_exec rfl (.verdictEvidenceTimeout .refl)
  | verdictWaitTimeout => exact .of_exec rfl (.verdictWaitTimeout .refl)
  | takeoverTimeout => exact .of_exec rfl (.takeoverTimeout .refl)
  | twinIsolation => exact .of_exec rfl (.twinIsolation .refl)
  | resyncRequestSend => exact .of_frame rfl (.resyncRequestSend .refl rfl)
  | segmentSend => exact .of_frame rfl (.segmentSend .refl rfl)
  | settleComplete => exact .of_exec rfl (.settleComplete .refl)
  | pcieLinkDown => exact .of_frame rfl (.pcieLinkDown .refl rfl)
  | eventWrite => exact .of_frame rfl (.eventWrite .refl rfl)
  | blotterInterval => exact .of_frame rfl (.blotterInterval .refl rfl)
  | telemetryExport => exact .of_frame rfl (.telemetryExport .refl rfl)
  | rstdaa => exact .of_frame rfl (.rstdaa .refl rfl)
  | railBelowWarning => exact .of_frame rfl (.railBelowWarning .refl rfl)
  | railClear => exact .of_frame rfl (.railClear .refl rfl)
  | railResetLevel => exact absurd trivial hr
  | shedStepEnter => exact .of_exec rfl (.shedStepEnter .refl)
  | shedStepLift => exact .of_frame rfl (.shedStepLift .refl rfl)
  | thermalTrip => exact absurd trivial hr
  | fuseOpDone => exact .of_frame rfl (.fuseOpDone .refl rfl)
  | attestDone => exact .of_frame rfl (.attestDone .refl rfl)
  | tamperAssert => exact .of_exec rfl (.tamper .refl)
  | recalDone => exact .of_frame rfl (.recalDone .refl rfl)
  | railNeitherWarningNorClear => exact .of_frame rfl (.railNeither .refl rfl)
  | supplyMonitorsInRange => exact absurd trivial hl

/-! ### The step -/

/-- What a step does to the mode: it holds M0, M10 and M11, but for a command that resets, which may end in M0, and one that releases, which
acts in M0 alone. -/
theorem step_mode_cases {s t : State} (h : step s = .next t) : ModeHeld s.dev t.dev ∨ ∃ c rest, s.pending = c :: rest ∧
    (resetsDevice c ∧ (t.dev.mode = s.dev.mode ∨ t.dev.mode = .m0) ∨
      releasesDevice c ∧ (s.dev.mode ≠ .m0 → t.dev = s.dev)) := by
  obtain ⟨-, rfl⟩ | ⟨c, rest, hp, hx⟩ := step_cases h
  · exact .inl (.of_within (.idleSlot .refl rfl))
  by_cases hr : resetsDevice c
  · exact .inr ⟨c, rest, hp, .inl ⟨hr, mode_of_resetsDevice (s := ⟨s.dev, rest⟩) hr hx⟩⟩
  by_cases hl : releasesDevice c
  · exact .inr ⟨c, rest, hp, .inr ⟨hl, fun hs => mode_of_releasesDevice (s := ⟨s.dev, rest⟩) hl hs hx⟩⟩
  · exact .inl (holdsMode (s := ⟨s.dev, rest⟩) hr hl t hx)

/-- Settles O58: a step that leaves M11, M10 or M0 holds no mode, so that its command resets or releases the device; and a release does
nothing outside M0, a reset nothing to the mode in it. -/
theorem quarantineLeftByResetsAlone : Obligations.QuarantineLeftByResetsAlone := by
  unfold Obligations.QuarantineLeftByResetsAlone
  refine ⟨fun s t h hs ht => ?_, fun s t h hs ht10 ht11 => ?_, fun s t h hs ht => ?_, fun s m hs hw hm => ⟨_, rfl, ?_⟩⟩
  · obtain ⟨-, h11, -⟩ | ⟨c, rest, hp, ⟨hr, -⟩ | ⟨-, hl⟩⟩ := step_mode_cases h
    · exact absurd (h11 hs) ht
    · exact ⟨c, rest, hp, hr⟩
    · exact absurd (by rw [hl (by simp [hs]), hs]) ht
  · obtain ⟨-, -, h10⟩ | ⟨c, rest, hp, ⟨hr, -⟩ | ⟨-, hl⟩⟩ := step_mode_cases h
    · exact ((h10 hs).elim ht10 ht11).elim
    · exact ⟨c, rest, hp, hr⟩
    · exact absurd (by rw [hl (by simp [hs]), hs]) ht10
  · obtain ⟨h0, -, -⟩ | ⟨c, rest, hp, ⟨-, hr⟩ | ⟨hl, -⟩⟩ := step_mode_cases h
    · exact absurd (h0 hs) ht
    · exact absurd (hr.elim (·.trans hs) id) ht
    · exact ⟨c, rest, hp, hl⟩
  · show (s.dev.onWrite m.val F.SEC_CTRL.off (secSysReset m.val)).mode = _ ∧
      (s.dev.onWrite m.val F.SEC_CTRL.off (secSysReset m.val)).regs = _ ∧
      Posts s.dev (s.dev.onWrite m.val F.SEC_CTRL.off (secSysReset m.val)) _
    rw [Dev.onWrite_of hw, secSysReset_refused hm (by exact hs)]
    exact ⟨rfl, rfl, posts_post _ _ _⟩

end Sys2Proof.Machine
end

