-- ==== Sys2Proof/Proofs/TcamCommits.lean ====
section
/-! PROOF. The commits of the piers' TCAMs (R26, R154, R155): a request at one pier, at every powered pier, and the commit. -/

namespace Sys2Proof.Machine

/-! ### A request at one pier -/

section
variable {d : Dev} {m p q : ℕ} {data : Word}

theorem rd_commitRequest (f : Fld) : (d.commitRequest m q data).rd f = d.rd f :=
  (Within.commitRequest (S := ⟨[.posted, .pir], [], []⟩) .refl rfl).rd_eq rfl

/-- A request waits at its own pier alone. -/
theorem commits_commitRequest_ne (h : q ≠ p) : (d.commitRequest m q data).commits p = d.commits p := by
  unfold Dev.commitRequest
  dsimp only
  split
  · rfl
  · exact SMap.get_set_ne _ _ _ h

/-- The commit `x` is one of the entry that ADDR of pier `p` names, as the data of the request ask. -/
def TcamCommit.AsAsked (x : TcamCommit) (d : Dev) (p : ℕ) (data : Word) : Prop :=
  x.row = d.rd (F.PIR_TCAM_ADDR_ROW.pier p) ∧ x.chain = bits data 9 8 ∧ x.valid = bitOn data 0 ∧
    x.rows.length = chainRows (bits data 9 8)

/-- A request for an entry that exists and is aligned waits behind the commits before it. -/
theorem commits_commitRequest (hrow : d.rd (F.PIR_TCAM_ADDR_ROW.pier p) < tcamRows (d.rd (F.PIR_TCAM_ADDR_PIPE.pier p)))
    (hchain : bits data 9 8 ≠ 3) (halign : d.rd (F.PIR_TCAM_ADDR_ROW.pier p) % chainRows (bits data 9 8) = 0) :
    ∃ x : TcamCommit, (d.commitRequest m p data).commits p = d.commits p ++ [x] ∧ x.AsAsked d p data := by
  unfold Dev.commitRequest
  dsimp only
  rw [if_neg (by simp [hchain, halign, hrow])]
  exact ⟨_, SMap.get_set_same .., rfl, rfl, rfl, by simp⟩

end

/-! ### A request at every powered pier -/

section
variable {d : Dev} {m p : ℕ} {data : Word}

theorem rd_each_commitRequest (l : List ℕ) (f : Fld) : (d.each l fun q e => e.commitRequest m q data).rd f = d.rd f :=
  Dev.each_induction (fun e => e.rd f = d.rd f) _ (fun _ _ he => (rd_commitRequest f).trans he) l d rfl

theorem commits_each_commitRequest_of_notMem {l : List ℕ} (h : p ∉ l) :
    (d.each l fun q e => e.commitRequest m q data).commits p = d.commits p :=
  each_preserves (P := fun e => e.commits p = d.commits p)
    (fun _ hq _ he => (commits_commitRequest_ne (ne_of_mem_of_not_mem hq h)).trans he) rfl

/-- The powered piers are asked one after another: the piers before and after `p` leave its ADDR and its commits. -/
theorem commits_tcamCommitRequest (hlt : p < 17) (hpow : d.pierPowered p = true)
    (hrow : d.rd (F.PIR_TCAM_ADDR_ROW.pier p) < tcamRows (d.rd (F.PIR_TCAM_ADDR_PIPE.pier p)))
    (hchain : bits data 9 8 ≠ 3) (halign : d.rd (F.PIR_TCAM_ADDR_ROW.pier p) % chainRows (bits data 9 8) = 0) :
    ∃ x : TcamCommit, (tcamCommitRequest m data d).commits p = d.commits p ++ [x] ∧ x.AsAsked d p data := by
  have hmem : p ∈ (List.range 17).filter d.pierPowered := List.mem_filter.2 ⟨List.mem_range.2 hlt, hpow⟩
  have hnodup : ((List.range 17).filter d.pierPowered).Nodup := List.nodup_range.filter _
  obtain ⟨before, after, hsplit⟩ := List.append_of_mem hmem
  rw [hsplit, List.nodup_append] at hnodup
  obtain ⟨-, hafter, hbefore⟩ := hnodup
  have hb : p ∉ before := fun h => hbefore p h p List.mem_cons_self rfl
  let e := d.each before fun q e => e.commitRequest m q data
  have he (f : Fld) : e.rd f = d.rd f := rd_each_commitRequest before f
  obtain ⟨x, hx, hasked⟩ := commits_commitRequest (d := e) (m := m) (by rwa [he, he]) hchain (by rwa [he])
  have hrun : tcamCommitRequest m data d = (e.commitRequest m p data).each after fun q e => e.commitRequest m q data := by
    rw [tcamCommitRequest, Dev.eachPier, hsplit, Dev.each, List.foldl_append]
    rfl
  refine ⟨x, ?_, (he _) ▸ hasked.1, hasked.2⟩
  rw [hrun, commits_each_commitRequest_of_notMem (List.nodup_cons.1 hafter).1, hx, commits_each_commitRequest_of_notMem hb]

end

/-- What a mirrored write that no standby bars leaves in the piers is its meaning's. -/
theorem pir_mirroredWrite {d : Dev} {m off v : ℕ} {f : Dev → Dev} (h : d.localBarred m = false) :
    (d.mirroredWrite m off v f).pir = (f d).pir := by
  rw [Dev.mirroredWrite, if_neg (by simp [h])]
  exact (Within.mirror (S := ⟨[.twn], [], []⟩) .refl rfl).1 .pir (by decide)

/-! ### The commit -/

/-- Values written at distinct keys are all there. -/
theorem get_foldl_set {α : Type} [DecidableEq α] {dflt : ℕ → α} {key : ℕ → ℕ} (hkey : key.Injective) {ws : List (ℕ × α)}
    (hnodup : (ws.map Prod.fst).Nodup) {m : SMap α} {i : ℕ} {v : α} (h : (i, v) ∈ ws) :
    (ws.foldl (fun m w => m.set dflt (key w.1) w.2) m).get dflt (key i) = v := by
  induction ws using List.reverseRecOn with
  | nil => cases h
  | append_singleton ws w ih =>
    rw [List.foldl_append, List.foldl_cons, List.foldl_nil]
    rw [List.map_append, List.nodup_append] at hnodup
    obtain ⟨hws, -, hdisjoint⟩ := hnodup
    obtain h | h := List.mem_append.1 h
    · have hne : w.1 ≠ i := fun hi => hdisjoint i (List.mem_map_of_mem h) w.1 (by simp) hi.symm
      rw [SMap.get_set_ne _ _ _ fun he => hne (hkey he)]
      exact ih hws h
    · rw [← List.mem_singleton.1 h]
      exact SMap.get_set_same ..

section
variable {d : Dev} {p : ℕ} {x : TcamCommit} {rest : List TcamCommit}

theorem TcamCommit.length_live (x : TcamCommit) : x.live.length = x.rows.length := List.length_map ..

/-- The rows of an entry with their places in it. -/
theorem TcamCommit.mem_rows_of_live {i : ℕ} {r : TcamRow} (h : x.live[i]? = some r) :
    (i, r) ∈ (List.range x.rows.length).zip x.live := by
  obtain ⟨hi, hr⟩ := List.getElem?_eq_some_iff.1 h
  exact List.mem_iff_getElem.2 ⟨i, by simpa [x.length_live] using hi, by simp [hr]⟩

theorem TcamCommit.nodup_rows (x : TcamCommit) : (((List.range x.rows.length).zip x.live).map Prod.fst).Nodup := by
  rw [List.map_fst_zip (by simp [x.length_live])]
  exact List.nodup_range

/-- The device with the entry's rows live and the commits after it waiting. -/
def Dev.takeCommit (d : Dev) (p : ℕ) (x : TcamCommit) (rest : List TcamCommit) : Dev :=
  { d with pir := { d.pir with
    live := ((List.range x.rows.length).zip x.live).foldl
      (fun m w => m.set (fun _ => TcamRow.reset) (tcamKey p x.pipe (x.row + w.1)) w.2) d.pir.live
    commits := d.pir.commits.set (fun _ => []) p rest } }

/-- The device of `takeCommit` with the issue slot that the commit takes in the ingress pipe. -/
def Dev.takeCommitSlot (d : Dev) (p : ℕ) (x : TcamCommit) (rest : List TcamCommit) : Dev :=
  if x.pipe = 0 then (d.takeCommit p x rest).issueSlot p false else d.takeCommit p x rest

/-- The oldest commit is taken; COMMITS counts it, and STEALS the slot that a packet waits for. -/
theorem tcamCommit_of_commits (hhalt : d.pierHalted p = false) (hx : d.commits p = x :: rest) :
    tcamCommit p d = ((d.takeCommitSlot p x rest).bump (F.PIR_TCAM_COMMITS.pier p)).when (d.waits p x.pipe)
      (·.bump (F.PIR_TCAM_STEALS.pier p)) := by
  rw [tcamCommit, hhalt, hx]
  rfl

theorem live_takeCommitSlot : (d.takeCommitSlot p x rest).pir.live = (d.takeCommit p x rest).pir.live := by
  unfold Dev.takeCommitSlot
  split <;> rfl

theorem commits_takeCommitSlot : (d.takeCommitSlot p x rest).commits p = rest := by
  unfold Dev.takeCommitSlot
  split <;> exact SMap.get_set_same ..

theorem rd_takeCommitSlot (f : Fld) : (d.takeCommitSlot p x rest).rd f = d.rd f := by
  unfold Dev.takeCommitSlot
  split <;> rfl

theorem tcamKey_add_injective (p pipe row : ℕ) : Function.Injective fun i => tcamKey p pipe (row + i) := fun i j h => by
  simp only [tcamKey] at h
  omega

theorem tcamRow_takeCommitSlot {i : ℕ} {r : TcamRow} (h : x.live[i]? = some r) :
    (d.takeCommitSlot p x rest).tcamRow p x.pipe (x.row + i) = r := by
  rw [Dev.tcamRow, live_takeCommitSlot]
  exact get_foldl_set (tcamKey_add_injective p x.pipe x.row) x.nodup_rows (TcamCommit.mem_rows_of_live h)

theorem pir_tcamCommit (hhalt : d.pierHalted p = false) (hx : d.commits p = x :: rest) :
    (tcamCommit p d).pir = (d.takeCommitSlot p x rest).pir := by
  rw [tcamCommit_of_commits hhalt hx, Dev.when]
  split <;> rfl

theorem rd_tcamCommit_commits (hhalt : d.pierHalted p = false) (hx : d.commits p = x :: rest) :
    (tcamCommit p d).rd (F.PIR_TCAM_COMMITS.pier p) = min (d.rd (F.PIR_TCAM_COMMITS.pier p) + 1) (2 ^ 64 - 1) := by
  have hcount : ((d.takeCommitSlot p x rest).bump (F.PIR_TCAM_COMMITS.pier p)).rd (F.PIR_TCAM_COMMITS.pier p) =
      min (d.rd (F.PIR_TCAM_COMMITS.pier p) + 1) (2 ^ 64 - 1) := by
    rw [Dev.rd_bump_same _ (F.PIR_TCAM_COMMITS.pier p) (show F.PIR_TCAM_COMMITS.lo + F.PIR_TCAM_COMMITS.w ≤ 64 by decide),
      rd_takeCommitSlot]
    rfl
  rw [tcamCommit_of_commits hhalt hx, Dev.when]
  split
  · refine (Dev.rd_wr_off _ (F.PIR_TCAM_STEALS.pier p) _ _ ?_).trans hcount
    simp only [Fld.pier, F.PIR_TCAM_STEALS, F.PIR_TCAM_COMMITS]
    omega
  · exact hcount

end

/-! ### The counters -/

/-- Each counter of the pier reads 0 once it has been zeroed: the zeroing of another leaves it. -/
theorem reg_pirCntClr (d : Dev) (p : ℕ) {n : ℕ} (hn : n < 11) : (pirCntClr p d).reg (0x8000800 + 8 * n + 0x100000 * p) = 0 :=
  each_establishes (P := fun n e => e.reg (0x8000800 + 8 * n + 0x100000 * p) = 0) (fun _ _ => Dev.reg_setReg_same ..)
    (fun n q e he => by
      by_cases h : q = n
      · rw [h]
        exact Dev.reg_setReg_same ..
      · rw [Dev.reg_setReg_ne _ _ (by omega)]
        exact he)
    (List.mem_range.2 hn) d

/-- Settles O19: a request at a powered pier waits there, on a standby a local one is told of and no pier changes, the commit makes its
rows live, and the clear zeroes each counter. -/
theorem tcamCommandsComplete : Obligations.TcamCommandsComplete := by
  unfold Obligations.TcamCommandsComplete
  refine ⟨fun s m data p hw hbar hlt hpow hrow hchain halign => .of_onReg rfl hw ?_, fun s m data hw hbar => .of_onReg rfl hw ?_,
    fun s p x rest hhalt hx => .of_exec rfl ⟨?_, fun i r h => ?_, rd_tcamCommit_commits hhalt hx⟩,
    fun s m p hw => .of_onReg rfl hw fun n hn => reg_pirCntClr _ _ hn⟩
  · obtain ⟨x, hx, hasked⟩ := commits_tcamCommitRequest (d := s.dev.noAbort) (m := m.val) hlt hpow hrow hchain halign
    refine ⟨x, ?_, hasked⟩
    rw [Dev.commits, pir_mirroredWrite (by exact hbar)]
    exact hx
  · rw [mirroredWrite_of_barred (by exact hbar)]
    exact ⟨rfl, posts_post _ _ _⟩
  · rw [Dev.commits, pir_tcamCommit hhalt hx]
    exact commits_takeCommitSlot
  · rw [Dev.tcamRow, pir_tcamCommit hhalt hx]
    exact tcamRow_takeCommitSlot h

end Sys2Proof.Machine
end

