-- ==== Sys2Proof/Proofs/Releases.lean ====
section
/-! PROOF. The releases from reset (R22, R34, R406, R471, R473, R483): what the supply monitors show of their readings, and how M0 is left. -/

namespace Sys2Proof.Machine

/-- A step for each item of a list establishes what the step for one item establishes and those for the others keep. -/
theorem each_of_mem {α : Type} {P : Dev → Prop} {f : α → Dev → Dev} {l : List α} {x : α} (hx : x ∈ l) (hset : ∀ e, P (f x e))
    (hkeep : ∀ y ∈ l, y ≠ x → ∀ e, P e → P (f y e)) (d : Dev) : P (d.each l f) := by
  induction l using List.reverseRecOn with
  | nil => cases hx
  | append_singleton l y ih =>
    rw [Dev.each, List.foldl_append]
    by_cases hy : y = x
    · rw [hy]
      exact hset _
    · have hl : x ∈ l := (List.mem_append.1 hx).resolve_right fun h => hy (List.mem_singleton.1 h).symm
      exact hkeep y (by simp) hy _ (ih hl fun z hz => hkeep z (by simp [hz]))

/-! ### The supply monitors -/

/-- The reading `mv` of supply monitor `n` lies inside its range. -/
def InsideRange (n mv : ℕ) : Prop :=
  (monitorRange n).1 ≤ mv + (monitorRange n).2 ∧ mv ≤ (monitorRange n).1 + (monitorRange n).2

/-- The register's 16 bits show enough of a reading to say whether it lies inside. -/
theorem insideRange_clamped {n mv : ℕ} (hn : n < 16) : InsideRange n (min mv 0xFFFF) ↔ InsideRange n mv := by
  have hmax : (monitorRange n).1 + (monitorRange n).2 < 0xFFFF :=
    (by decide : ∀ n < 16, (monitorRange n).1 + (monitorRange n).2 < 0xFFFF) n hn
  unfold InsideRange
  omega

section
variable {d : Dev} {mvs : List ℕ}

theorem monitorIn_iff (n : ℕ) : d.monitorIn n = true ↔ InsideRange n (d.rd (F.PWR_RAIL_MV.ix n)) := by
  simp only [Dev.monitorIn, InsideRange, Bool.and_eq_true, Nat.ble_eq]

theorem suppliesIn_iff : d.suppliesIn = true ↔ ∀ n < 16, InsideRange n (d.rd (F.PWR_RAIL_MV.ix n)) := by
  simp only [Dev.suppliesIn, List.all_eq_true, List.mem_range, monitorIn_iff]

theorem off_railMv_ne {i n : ℕ} (h : i ≠ n) : (F.PWR_RAIL_MV.ix i).off ≠ (F.PWR_RAIL_MV.ix n).off := by
  simp only [Fld.ix, F.PWR_RAIL_MV]
  omega

/-- Each monitor shows its own reading: MV by it alone, MIN_MV beside it. -/
theorem rd_railReading (hlen : mvs.length = 16) {n : ℕ} (hn : n < 16) :
    (railReading mvs d).rd (F.PWR_RAIL_MV.ix n) = min (mvs.getD n 0) 0xFFFF := by
  have hmem : (mvs.getD n 0, n) ∈ (mvs.take 16).zipIdx := by
    rw [List.take_of_length_le hlen.le, List.mem_zipIdx_iff_getElem?]
    simp [hlen, hn]
  have hbeside (e : Dev) (i v : ℕ) : (e.wr (F.PWR_RAIL_MIN_MV.ix i) v).rd (F.PWR_RAIL_MV.ix n) = e.rd (F.PWR_RAIL_MV.ix n) :=
    Dev.rd_wr_beside _ (F.PWR_RAIL_MIN_MV.ix i) (F.PWR_RAIL_MV.ix n) v
      (show F.PWR_RAIL_MV.lo + F.PWR_RAIL_MV.w ≤ 64 by decide)
      (.inl (show F.PWR_RAIL_MV.lo + F.PWR_RAIL_MV.w ≤ F.PWR_RAIL_MIN_MV.lo by decide))
  refine each_of_mem (P := fun e => e.rd (F.PWR_RAIL_MV.ix n) = min (mvs.getD n 0) 0xFFFF) hmem (fun e => ?_) (fun y hy hne e he => ?_) d
  · dsimp only
    rw [hbeside, Dev.rd_wr_same _ (F.PWR_RAIL_MV.ix n) _ (show F.PWR_RAIL_MV.lo + F.PWR_RAIL_MV.w ≤ 64 by decide)]
    exact Nat.mod_eq_of_lt (Nat.lt_succ_of_le (min_le_right _ _))
  · have hidx : y.2 ≠ n := fun h => hne (by
      rw [List.mem_zipIdx_iff_getElem?] at hy hmem
      exact Prod.ext (Option.some.inj ((h ▸ hy).symm.trans hmem)) h)
    dsimp only
    rw [hbeside, Dev.rd_wr_off _ (F.PWR_RAIL_MV.ix y.2) (F.PWR_RAIL_MV.ix n) _ (off_railMv_ne hidx)]
    exact he

theorem suppliesIn_railReading (hlen : mvs.length = 16) :
    (railReading mvs d).suppliesIn = true ↔ ∀ n < 16, InsideRange n (mvs.getD n 0) := by
  rw [suppliesIn_iff]
  exact forall₂_congr fun n hn => by rw [rd_railReading hlen hn, insideRange_clamped hn]

/-! ### M0 is left -/

theorem leaveM0_of_no_trip (h : d.pwr.tripHold = false) :
    d.leaveM0 = { d with mode := .m1 }.wr F.TIM_CTRL_SRC (d.rd F.GLB_STRAP_SELF_TIMED) := if_neg (by simp [h])

/-- The device is in M1, and the STC's source is as the strap says. -/
def Dev.Started (d : Dev) : Prop := d.mode = .m1 ∧ d.rd F.TIM_CTRL_SRC = d.rd F.GLB_STRAP_SELF_TIMED

theorem started_leaveM0 (h : d.pwr.tripHold = false) : d.leaveM0.Started := by
  rw [leaveM0_of_no_trip h]
  refine ⟨rfl, ?_⟩
  rw [Dev.rd_wr_same _ F.TIM_CTRL_SRC _ (by decide), Dev.rd_wr_off _ F.TIM_CTRL_SRC F.GLB_STRAP_SELF_TIMED _ (by decide)]
  exact Nat.mod_eq_of_lt ((Dev.rd_lt d F.GLB_STRAP_SELF_TIMED).trans (by decide))

theorem within_leaveM0 : Within ⟨[.mode], [], [F.TIM_CTRL_SRC.off]⟩ d d.leaveM0 := .leaveM0 .refl rfl

theorem rd_leaveM0_strap : d.leaveM0.rd F.GLB_STRAP = d.rd F.GLB_STRAP := within_leaveM0.rd_eq rfl

theorem rd_leaveM0_rail {n : ℕ} (hn : n < 16) : d.leaveM0.rd (F.PWR_RAIL_MV.ix n) = d.rd (F.PWR_RAIL_MV.ix n) :=
  have hout : ∀ n < 16, Scope.has ⟨[.mode], [], [F.TIM_CTRL_SRC.off]⟩ ((F.PWR_RAIL_MV.ix n).off % 0x20000000) = false := by decide
  within_leaveM0.rd_eq (hout n hn)

theorem sec_leaveM0 : d.leaveM0.sec = d.sec := within_leaveM0.1 .sec (by decide)

/-! ### The release of PORST_N -/

variable {straps : BitVec 13}

/-- The device with its straps sampled and its monitors read. -/
def Dev.sampled (d : Dev) (straps : BitVec 13) (mvs : List ℕ) : Dev := railReading mvs (d.wr F.GLB_STRAP straps.toNat)

theorem rd_sampled_strap : (d.sampled straps mvs).rd F.GLB_STRAP = straps.toNat := by
  have hkept : (d.sampled straps mvs).rd F.GLB_STRAP = (d.wr F.GLB_STRAP straps.toNat).rd F.GLB_STRAP :=
    (Within.railReading (S := ⟨[.pwr], [15], []⟩) .refl rfl).rd_eq rfl
  rw [hkept, Dev.rd_wr_same _ _ _ (by decide)]
  exact Nat.mod_eq_of_lt (straps.isLt.trans (by decide))

theorem mode_sampled : (d.sampled straps mvs).mode = d.mode :=
  (Within.railReading (S := ⟨[.pwr], [15], []⟩) .refl rfl).mode_eq (by decide)

theorem sec_sampled : (d.sampled straps mvs).sec = d.sec :=
  (Within.railReading (S := ⟨[.pwr], [15], []⟩) .refl rfl).1 .sec (by decide)

theorem tripHold_sampled : (d.sampled straps mvs).pwr.tripHold = d.pwr.tripHold := by
  unfold Dev.sampled railReading
  refine Dev.each_induction (fun e => e.pwr.tripHold = d.pwr.tripHold) _ ?_ _ _ rfl
  exact fun _ _ he => he

/-- With every monitor inside its range the release leaves M0. -/
theorem porRelease_of_inside (hlen : mvs.length = 16) (hin : ∀ n : Fin 16, InsideRange n.val (mvs.getD n.val 0)) :
    d.porRelease straps mvs = (d.sampled straps mvs).leaveM0 :=
  if_pos ((suppliesIn_railReading hlen).2 fun n hn => hin ⟨n, hn⟩)

/-- A monitor outside its range holds the release. -/
theorem porRelease_of_outside (hlen : mvs.length = 16) (n : Fin 16) (hout : ¬ InsideRange n.val (mvs.getD n.val 0)) :
    d.porRelease straps mvs =
      { d.sampled straps mvs with sec := { (d.sampled straps mvs).sec with supplyHold := true } } :=
  if_neg fun h => hout ((suppliesIn_railReading hlen).1 h n.val n.isLt)

theorem started_porRelease (hlen : mvs.length = 16) (hin : ∀ n : Fin 16, InsideRange n.val (mvs.getD n.val 0))
    (htrip : d.pwr.tripHold = false) :
    (d.porRelease straps mvs).Started ∧ (d.porRelease straps mvs).rd F.GLB_STRAP = straps.toNat := by
  rw [porRelease_of_inside hlen hin]
  exact ⟨started_leaveM0 (tripHold_sampled.trans htrip), rd_leaveM0_strap.trans rd_sampled_strap⟩

theorem rd_porRelease_rail (hlen : mvs.length = 16) (hin : ∀ n : Fin 16, InsideRange n.val (mvs.getD n.val 0)) (n : Fin 16) :
    (d.porRelease straps mvs).rd (F.PWR_RAIL_MV.ix n.val) = mvs.getD n.val 0 := by
  have hmax : (monitorRange n.val).1 + (monitorRange n.val).2 ≤ 0xFFFF :=
    (by decide : ∀ n : Fin 16, (monitorRange n.val).1 + (monitorRange n.val).2 ≤ 0xFFFF) n
  rw [porRelease_of_inside hlen hin, rd_leaveM0_rail n.isLt, Dev.sampled, rd_railReading hlen n.isLt]
  exact min_eq_left ((hin n).2.trans hmax)

/-! ### The commands -/

/-- At a release that nothing holds up: the release of PORST_N after a power-on reset, and otherwise M0 is left at once. -/
theorem resetRelease_of_free (hmode : d.mode = .m0) (htest : d.sec.testHold = false) (hsupply : d.sec.supplyHold = false) :
    resetRelease straps false mvs d = if d.sec.porReset = false then d.leaveM0 else d.porRelease straps mvs := by
  rw [resetRelease, if_neg (by simp [hmode, htest, hsupply])]
  rfl

/-- TEST_EN holds the release up. -/
theorem resetRelease_of_testEn (hmode : d.mode = .m0) (htest : d.sec.testHold = false) (hsupply : d.sec.supplyHold = false) :
    resetRelease straps true mvs d = { d with sec := { d.sec with testHold := true } } := by
  rw [resetRelease, if_neg (by simp [hmode, htest, hsupply])]
  rfl

theorem testEnRelease_of_held (hmode : d.mode = .m0) (htest : d.sec.testHold = true) :
    testEnRelease straps mvs d =
      if d.sec.porReset then { d with sec := { d.sec with testHold := false } }.porRelease straps mvs
      else { d with sec := { d.sec with testHold := false } }.leaveM0 := if_pos ⟨hmode, htest⟩

end

/-- Settles O9: every release comes to one of two ends, the release of PORST_N with its readings or the leaving of M0. -/
theorem releaseCommandsComplete : Obligations.ReleaseCommandsComplete := by
  unfold Obligations.ReleaseCommandsComplete
  refine ⟨fun s st mvs hmode htest hsupply hpor htrip hlen hin => .of_exec rfl ?_,
    fun s st mvs n hmode htest hsupply hpor hlen hout => .of_exec rfl ?_,
    fun s st mvs hmode htest hsupply hpor htrip => .of_exec rfl ?_,
    fun s st mvs hmode htest hsupply => .of_exec rfl ?_,
    fun s st te mvs hheld => .of_exec rfl (if_pos hheld),
    fun s st mvs hmode htest htrip hpor hlen hin => .of_exec rfl ?_,
    fun s st mvs hmode htest htrip hpor => .of_exec rfl ?_,
    fun s hmode hsupply htest hall htrip => .of_exec rfl ?_,
    fun s hheld => .of_exec rfl ?_⟩
  · obtain ⟨⟨hm1, hsrc⟩, hstrap⟩ := started_porRelease (straps := st) hlen hin htrip
    rw [resetRelease_of_free hmode htest hsupply, if_neg (by simp [hpor])]
    exact ⟨hm1, hstrap, hsrc, rd_porRelease_rail hlen hin⟩
  · have houtside : ¬ InsideRange n.val (mvs.getD n.val 0) := by
      unfold InsideRange
      omega
    rw [resetRelease_of_free hmode htest hsupply, if_neg (by simp [hpor]), porRelease_of_outside hlen n houtside]
    exact ⟨mode_sampled.trans hmode, rd_sampled_strap, rfl⟩
  · obtain ⟨hm1, hsrc⟩ := started_leaveM0 htrip
    rw [resetRelease_of_free hmode htest hsupply, if_pos hpor]
    exact ⟨hm1, rd_leaveM0_strap, hsrc⟩
  · rw [resetRelease_of_testEn hmode htest hsupply]
    exact ⟨hmode, rfl, rfl⟩
  · obtain ⟨⟨hm1, -⟩, hstrap⟩ := started_porRelease (d := { s.dev with sec := { s.dev.sec with testHold := false } })
      (straps := st) hlen hin htrip
    rw [testEnRelease_of_held hmode htest, if_pos hpor]
    refine ⟨hm1, hstrap, ?_⟩
    rw [porRelease_of_inside hlen hin, sec_leaveM0, sec_sampled]
  · obtain ⟨hm1, -⟩ := started_leaveM0 (d := { s.dev with sec := { s.dev.sec with testHold := false } }) htrip
    rw [testEnRelease_of_held hmode htest, if_neg (by simp [hpor])]
    exact ⟨hm1, rd_leaveM0_strap, congrArg Sec.testHold sec_leaveM0⟩
  · obtain ⟨hm1, hsrc⟩ := started_leaveM0 (d := { s.dev with sec := { s.dev.sec with supplyHold := false } }) htrip
    rw [supplyMonitorsInRange, if_pos ⟨hmode, hsupply, htest, hall⟩]
    exact ⟨hm1, congrArg Sec.supplyHold sec_leaveM0, hsrc⟩
  · rw [supplyMonitorsInRange, if_neg]
    rintro ⟨-, -, htest, hall⟩
    simp [htest, hall] at hheld

end Sys2Proof.Machine
end

