-- ==== Sys2Proof/Proofs/EventRings.lean ====
section
/-! PROOF. The clauses of the event commands fail at the engine queue: they ask of a record for any ring at all that PROD of its ring passes
it, and there are PROD registers of the 16 rings (R394) alone. -/

namespace Sys2Proof.Machine

/-- A record for ring 16, which no device has. -/
def strayRecord : QueuedRec := { ring := 16, seq := 0, bytes := 0, source := 0, cls := .fault }

/-- A device out of reset whose engine queue holds the stray record alone. -/
def strayQueued : Dev := { State.reset.dev with hst := { State.reset.dev.hst with engineQ := [strayRecord] } }

theorem regs_dma (d : Dev) (a : ℕ) (bs : List (BitVec 8)) : (d.dma a bs).regs = d.regs := rfl

/-- The write of a record for a ring that does not exist leaves every register: its ring has no PROD. -/
theorem regs_eventWrite_of_no_ring {d : Dev} {q : QueuedRec} {rest : List QueuedRec} (hq : d.hst.engineQ = q :: rest)
    (hring : ¬ q.ring < 16) : (eventWrite d).regs = d.regs := by
  rw [eventWrite, hq]
  simp only [Dev.wrIx_of_not_lt _ _ _ hring, apply_ite Dev.regs, regs_dma, ite_self]

/-- Refutes O13: the record for ring 16 is written, and the place where PROD of ring 16 would stand still reads 0, not the index after
the record's. -/
theorem not_eventCommandsComplete : ¬ Obligations.EventCommandsComplete := by
  unfold Obligations.EventCommandsComplete
  rintro ⟨-, -, -, -, -, -, -, hwrite, -⟩
  obtain ⟨t, ht, -, -, -, hprod⟩ := hwrite ⟨strayQueued, []⟩ strayRecord [] rfl (.inr (by decide))
  rw [← exec_next_unique (show exec .eventWrite ⟨strayQueued, []⟩ = .next _ from rfl) ht, Dev.rd, Dev.reg,
    regs_eventWrite_of_no_ring (q := strayRecord) (rest := []) rfl (by decide)] at hprod
  exact absurd hprod (by decide +kernel)

end Sys2Proof.Machine
end

