-- ==== Sys2Proof/Proofs/Words.lean ====
section
/-! PROOF. Wide words and byte strings: a field read after a field is set, the fields of a payload, and the bytes of a number (R72, R393). -/

namespace Sys2Proof.Machine

/-! ### Fields of a wide word -/

/-- The bits of a wide word with a field replaced. -/
theorem getLsbD_setBits {w : ℕ} (x : BitVec w) (hi lo v : ℕ) {i : ℕ} (h : i < w) :
    (setBits x hi lo v).getLsbD i = if lo ≤ i ∧ i < hi + 1 then v.testBit (i - lo) else x.getLsbD i := by
  simp only [setBits, BitVec.getLsbD_or, BitVec.getLsbD_and, BitVec.getLsbD_not, BitVec.getLsbD_ofNat, Nat.testBit_shiftLeft,
    Nat.testBit_mod_two_pow, Nat.testBit_two_pow_sub_one, h, decide_true, Bool.true_and]
  by_cases hlo : lo ≤ i
  · by_cases hhi : i < hi + 1
    · have hin : i - lo < hi + 1 - lo := by omega
      simp [hlo, hhi, hin]
    · have hout : ¬ i - lo < hi + 1 - lo := by omega
      simp [hlo, hhi, hout]
  · simp [hlo]

/-- A bit just put. -/
theorem bitOn_putBit_same {w : ℕ} (x : BitVec w) {i : ℕ} (b : Bool) (h : i < w) : bitOn (putBit x i b) i = b := by
  rw [bitOn, putBit, getLsbD_setBits x _ _ _ h, if_pos ⟨le_rfl, i.lt_succ_self⟩, Nat.sub_self]
  cases b <;> rfl

theorem testBit_mdGet (md : BitVec 1024) (f : MdFld) (i : ℕ) : (mdGet md f).testBit i = (decide (i < f.w) && md.getLsbD (f.ofs + i)) := by
  simp [mdGet, Nat.testBit_mod_two_pow, Nat.testBit_shiftRight, BitVec.getLsbD]

/-- A metadata field just set, cut to its width. -/
theorem mdGet_mdSet_same (md : BitVec 1024) (f : MdFld) (v : ℕ) (h : f.ofs + f.w ≤ 1024) : mdGet (mdSet md f v) f = v % 2 ^ f.w := by
  refine Nat.eq_of_testBit_eq fun i => ?_
  rw [testBit_mdGet, Nat.testBit_mod_two_pow]
  by_cases hi : i < f.w
  · rw [mdSet, getLsbD_setBits md _ _ _ (by omega), if_pos (by omega), Nat.add_sub_cancel_left]
  · simp [hi]

/-- A metadata field beside the one set. -/
theorem mdGet_mdSet_beside (md : BitVec 1024) (f g : MdFld) (v : ℕ) (hw : 0 < f.w) (hg : g.ofs + g.w ≤ 1024)
    (h : g.ofs + g.w ≤ f.ofs ∨ f.ofs + f.w ≤ g.ofs) : mdGet (mdSet md f v) g = mdGet md g := by
  refine Nat.eq_of_testBit_eq fun i => ?_
  rw [testBit_mdGet, testBit_mdGet]
  by_cases hi : i < g.w
  · rw [mdSet, getLsbD_setBits md _ _ _ (by omega), if_neg (by omega)]
  · simp [hi]

/-! ### The payload of an event record (R393) -/

/-- The number that fields make is the sum of the fields in their places. -/
theorem packBytes_eq_sum (fs : List (ℕ × ℕ × ℕ)) : packBytes fs = (fs.map fun f => f.2.2 % 2 ^ (8 * f.2.1) * 2 ^ (8 * f.1)).sum := by
  have h : ∀ a, fs.foldl (fun a f => a + (f.2.2 % 2 ^ (8 * f.2.1)) <<< (8 * f.1)) a =
      a + (fs.map fun f => f.2.2 % 2 ^ (8 * f.2.1) * 2 ^ (8 * f.1)).sum := by
    induction fs with
    | nil => exact fun _ => rfl
    | cons f t ih =>
      intro a
      rw [List.foldl_cons, ih, List.map_cons, List.sum_cons, Nat.shiftLeft_eq, Nat.add_assoc]
  rw [packBytes, h, Nat.zero_add]

/-- The second byte of a payload whose other fields lie past it. -/
theorem byteField_packBytes_one {w a b : ℕ} {rest : List (ℕ × ℕ × ℕ)} (hw : 16 ≤ w) (h : ∀ f ∈ rest, 2 ≤ f.1) :
    byteField (BitVec.ofNat w (packBytes ((0, 1, a) :: (1, 1, b) :: rest))) 1 1 = b % 256 := by
  obtain ⟨n, rfl⟩ := Nat.exists_eq_add_of_le' (show 8 * 1 ≤ w by omega)
  have hrest : 65536 ∣ (rest.map fun f => f.2.2 % 2 ^ (8 * f.2.1) * 2 ^ (8 * f.1)).sum := by
    refine List.dvd_sum fun x hx => ?_
    obtain ⟨f, hf, rfl⟩ := List.mem_map.1 hx
    exact (pow_dvd_pow 2 (Nat.mul_le_mul_left 8 (h f hf))).mul_left _
  obtain ⟨q, hq⟩ := hrest
  rw [byteField, BitVec.toNat_ofNat, Nat.shiftRight_eq_div_pow, Nat.pow_add, Nat.mod_mul_left_div_self,
    Nat.mod_mod_of_dvd _ (pow_dvd_pow 2 (by omega)), packBytes_eq_sum, List.map_cons, List.map_cons, List.sum_cons, List.sum_cons, hq]
  dsimp only
  omega

/-! ### The bytes of a number -/

theorem leNat_leBytes (n v : ℕ) : leNat (leBytes n v) = v % 256 ^ n := by
  induction n generalizing v with
  | zero => rw [pow_zero, Nat.mod_one]; rfl
  | succ n ih => rw [leBytes, leNat, ih, BitVec.toNat_ofNat, show 256 ^ (n + 1) = 256 * 256 ^ n from pow_succ' .., Nat.mod_mul]

theorem crcByteL_lt (w poly c : ℕ) (b : Byte) : crcByteL w poly c b < 2 ^ w := Nat.mod_lt _ (Nat.two_pow_pos _)

theorem crc16_lt (l : List Byte) : crc16 l < 2 ^ 16 := by
  have h : ∀ c < 2 ^ 16, l.foldl (crcByteL 16 0x1021) c < 2 ^ 16 := by
    induction l with
    | nil => exact fun c hc => hc
    | cons b t ih => exact fun c _ => ih _ (crcByteL_lt _ _ _ _)
  exact h _ (by decide)

end Sys2Proof.Machine
end

