-- ==== Sys2Proof/Proofs/TimedActions.lean ====
section
/-! PROOF. Arms and cancels of timed actions (R49 to R51, R54, R57, R343): what an arm or a cancel answers, case by case, and what a refused
one leaves. -/

namespace Sys2Proof.Machine

section
variable {d : Dev} {m i span type : ℕ} {op : BitVec 64}

/-! ### Entries and staging sets -/

@[simp] theorem entryAt_setEntry_same (d : Dev) (i : ℕ) (e : TaEntry) : (d.setEntry i e).entryAt i = e := SMap.get_set_same ..

theorem entryAt_setEntry_ne {j : ℕ} (d : Dev) (e : TaEntry) (h : i ≠ j) : (d.setEntry i e).entryAt j = d.entryAt j := SMap.get_set_ne _ _ _ h

theorem tim_mirror (d : Dev) (kind m : ℕ) (body : List Byte) : (d.mirror kind m body).tim = d.tim :=
  (Within.mirror (S := ⟨[.twn], [], []⟩) .refl rfl).1 .tim (by decide)

@[simp] theorem entryAt_mirror (d : Dev) (kind m : ℕ) (body : List Byte) (i : ℕ) : (d.mirror kind m body).entryAt i = d.entryAt i := by
  rw [Dev.entryAt, Dev.entryAt, tim_mirror]

@[simp] theorem posted_mirror (d : Dev) (kind m : ℕ) (body : List Byte) : (d.mirror kind m body).posted = d.posted :=
  (Within.mirror (S := ⟨[.twn], [], []⟩) .refl rfl).1 .posted (by decide)

/-! ### Refusals -/

@[simp] theorem entryAt_taRefuse (d : Dev) (i : ℕ) (ev : EvDesc) (pl : List (ℕ × ℕ × ℕ)) :
    (d.taRefuse i ev pl).entryAt i = { d.entryAt i with cmdResult := 2 } := SMap.get_set_same ..

theorem posts_taRefuse (d : Dev) (i : ℕ) (ev : EvDesc) (pl : List (ℕ × ℕ × ℕ)) : Posts d (d.taRefuse i ev pl) [ev] :=
  posts_post (d.setEntry i { d.entryAt i with cmdResult := 2 }) _ _

/-! ### The standby (R343) -/

/-- A local command of the standby is ignored, and told. -/
theorem taLocal_of_barred {f : Dev → Dev} (h : d.localBarred m = true) :
    d.taLocal m false f = d.post Ev.TWN_LOCAL_WRITE [(24, 1, m), (28, 4, F.TIM_TA_CMD.off)] := by
  rw [Dev.localBarred] at h
  rw [Dev.taLocal, h]
  rfl

/-- Any other command acts; so does the arm of a keystone. -/
theorem taLocal_of_not_barred {f : Dev → Dev} {keystone : Bool} (h : d.localBarred m = false ∨ keystone = true) :
    d.taLocal m keystone f = f d := by
  rw [Dev.localBarred] at h
  rw [Dev.taLocal, if_neg]
  obtain h | h := h <;> simp [h]

/-! ### Arms (R50, R54, R57) -/

/-- The fields of an arm that R50 refuses: a reserved type, or a write of a barred offset. -/
abbrev BadAction (type : ℕ) (op : BitVec 64) : Prop := 7 ≤ type ∨ (type = 5 ∧ taBarred (taOffset op) = true)

theorem armEntry_of_unlocked (h : d.locked = false) :
    d.armEntry m i span type op = (false, d.taRefuse i Ev.TIM_UNLOCKED [(26, 1, m)]) := if_pos h

theorem armEntry_of_bad (hl : d.locked = true) (h : BadAction type op) :
    d.armEntry m i span type op = (false, d.taRefuse i Ev.TIM_TA_BAD [(25, 1, type), (28, 4, taOffset op)]) := by
  rw [Dev.armEntry, if_neg (by simp [hl]), if_pos h]

theorem armEntry_of_armed (hl : d.locked = true) (hb : ¬ BadAction type op) (h : (d.entryAt i).state = .armed) :
    d.armEntry m i span type op = (false, d.taRefuse i Ev.TIM_TA_BUSY [(26, 1, m)]) := by
  rw [Dev.armEntry, if_neg (by simp [hl]), if_neg hb, if_pos h]

theorem armEntry_of_late (hl : d.locked = true) (hb : ¬ BadAction type op) (he : (d.entryAt i).state ≠ .armed)
    (h : spanAtLeast span d.tim.span 2 = false) :
    d.armEntry m i span type op = (false, d.taRefuse i Ev.TIM_LATE [(26, 1, m), (32, 6, span), (40, 6, d.tim.span)]) := by
  rw [Dev.armEntry, if_neg (by simp [hl]), if_neg hb, if_neg he, if_pos h]

/-- Past the first four refusals it is for the cases of R57 alone. -/
theorem armEntry_of_timely (hl : d.locked = true) (hb : ¬ BadAction type op) (he : (d.entryAt i).state ≠ .armed)
    (hs : spanAtLeast span d.tim.span 2 = true) :
    d.armEntry m i span type op =
      if (if type = 1 then d.ksCause m span else 0) ≠ 0 then
        (false, d.taRefuse i Ev.TIM_KEYSTONE_BUSY [(25, 1, if type = 1 then d.ksCause m span else 0)])
      else (true, d.setEntry i ⟨span, type, op, .armed, 1, 0⟩) := by
  rw [Dev.armEntry, if_neg (by simp [hl]), if_neg hb, if_neg he, if_neg (by simp [hs])]

theorem armEntry_of_ksCause (hl : d.locked = true) (hb : ¬ BadAction type op) (he : (d.entryAt i).state ≠ .armed)
    (hs : spanAtLeast span d.tim.span 2 = true) (ht : type = 1) (h : d.ksCause m span ≠ 0) :
    d.armEntry m i span type op = (false, d.taRefuse i Ev.TIM_KEYSTONE_BUSY [(25, 1, d.ksCause m span)]) := by
  rw [armEntry_of_timely hl hb he hs, if_pos ht, if_pos h]

theorem armEntry_accepted (hl : d.locked = true) (hb : ¬ BadAction type op) (he : (d.entryAt i).state ≠ .armed)
    (hs : spanAtLeast span d.tim.span 2 = true) (h : type = 1 → d.ksCause m span = 0) :
    d.armEntry m i span type op = (true, d.setEntry i ⟨span, type, op, .armed, 1, 0⟩) := by
  rw [armEntry_of_timely hl hb he hs, if_neg]
  split
  case isTrue ht => exact not_not.2 (h ht)
  case isFalse => exact not_not.2 rfl

/-- The arm that a master's command asks for: its staging set, to the entry that its index names. -/
def Dev.armStaged (d : Dev) (m : ℕ) : Bool × Dev :=
  d.armEntry m (d.stagingOf m).index (d.stagingOf m).span (d.stagingOf m).type (d.stagingOf m).operand

/-- The arm that the standby does not ignore. -/
abbrev Dev.armActs (d : Dev) (m : ℕ) : Prop := d.localBarred m = false ∨ (d.stagingOf m).type = 1

theorem taArm_eq (hb : d.armActs m) :
    taArm m d = if (d.armStaged m).1 then
      (d.armStaged m).2.mirror 3 m (leBytes 1 (d.stagingOf m).index ++ leBytes 1 (d.stagingOf m).type ++
        leBytes 6 (d.stagingOf m).span ++ leBytes 8 (d.stagingOf m).operand.toNat)
    else (d.armStaged m).2 := by
  rw [taArm, taLocal_of_not_barred (hb.imp_right beq_iff_eq.2), Dev.armStaged]
  dsimp only
  obtain ⟨b, e⟩ := d.armEntry m (d.stagingOf m).index (d.stagingOf m).span (d.stagingOf m).type (d.stagingOf m).operand
  cases b <;> rfl

theorem taArm_of_refused {e : Dev} (hb : d.armActs m) (h : d.armStaged m = (false, e)) : taArm m d = e := by
  rw [taArm_eq hb, h]
  rfl

/-! ### Cancels (R51) -/

theorem cancelEntry_accepted (he : (d.entryAt i).state = .armed) (hs : spanAtLeast (d.entryAt i).span d.tim.span 2 = true) :
    d.cancelEntry m i = (true, d.setEntry i { d.entryAt i with state := .free, cmdResult := 1 }) := if_pos ⟨he, hs⟩

/-- What TIM_LATE says of a refused cancel. -/
abbrev Dev.lateCancel (d : Dev) (m i : ℕ) : List (ℕ × ℕ × ℕ) :=
  [(25, 1, 1), (26, 1, m), (32, 6, (d.entryAt i).span), (40, 6, d.tim.span)]

theorem cancelEntry_refused (h : (d.entryAt i).state ≠ .armed ∨ spanAtLeast (d.entryAt i).span d.tim.span 2 = false) :
    d.cancelEntry m i = (false, d.taRefuse i Ev.TIM_LATE (d.lateCancel m i)) := by
  rw [Dev.cancelEntry, if_neg]
  rintro ⟨he, hs⟩
  obtain h | h := h
  · exact h he
  · simp [hs] at h

/-- Byte 25 of the record says that it was a cancel. -/
theorem lateCancel_payload {r : EventRec} (h : r ∈ (d.taRefuse i Ev.TIM_LATE (d.lateCancel m i)).posted.drop d.posted.length) :
    byteField r.payload 1 1 = 1 := by
  simp only [Dev.taRefuse, Dev.setEntry, Dev.post, Dev.postInst, List.drop_left, List.mem_singleton] at h
  rw [h]
  exact byteField_packBytes_one (a := i) (rest := [(2, 1, m), (8, 6, (d.entryAt i).span), (16, 6, d.tim.span)]) (by decide) (by simp)

theorem taCancel_eq (hb : d.localBarred m = false) :
    taCancel m d = if (d.cancelEntry m (d.stagingOf m).index).1 then
      (d.cancelEntry m (d.stagingOf m).index).2.mirror 4 m (leBytes 1 (d.stagingOf m).index)
    else (d.cancelEntry m (d.stagingOf m).index).2 := by
  rw [taCancel, taLocal_of_not_barred (.inl hb)]
  obtain ⟨b, e⟩ := d.cancelEntry m (d.stagingOf m).index
  cases b <;> rfl

theorem taCancel_of_accepted (hb : d.localBarred m = false) (hi : (d.stagingOf m).index = i) (he : (d.entryAt i).state = .armed)
    (hs : spanAtLeast (d.entryAt i).span d.tim.span 2 = true) :
    (taCancel m d).entryAt i = { d.entryAt i with state := .free, cmdResult := 1 } ∧ (taCancel m d).posted = d.posted := by
  rw [taCancel_eq hb, hi, cancelEntry_accepted he hs, if_pos rfl, entryAt_mirror, posted_mirror]
  exact ⟨entryAt_setEntry_same _ _ _, rfl⟩

theorem taCancel_of_refused (hb : d.localBarred m = false) (hi : (d.stagingOf m).index = i)
    (h : (d.entryAt i).state ≠ .armed ∨ spanAtLeast (d.entryAt i).span d.tim.span 2 = false) :
    taCancel m d = d.taRefuse i Ev.TIM_LATE (d.lateCancel m i) := by
  rw [taCancel_eq hb, hi, cancelEntry_refused h]
  rfl

end

/-- Settles O3: a cancel by the condition of R51 it meets or does not. -/
theorem cancelNeedsTwoSpans : Obligations.CancelNeedsTwoSpans := by
  unfold Obligations.CancelNeedsTwoSpans
  intro s m hw hb
  refine ⟨fun he hs => .of_onReg rfl hw (taCancel_of_accepted (d := s.dev.noAbort) hb rfl he hs), fun h => .of_onReg rfl hw ?_⟩
  rw [taCancel_of_refused (d := s.dev.noAbort) hb rfl h]
  exact ⟨entryAt_taRefuse _ _ _ _, posts_taRefuse _ _ _ _, fun r hr => lateCancel_payload hr⟩

/-- A refused arm completes with its one event, its entry as it was but for CMD_RESULT. -/
theorem completes_taArm_of_refused {s : State} {m : Master} {ev : EvDesc} {pl : List (ℕ × ℕ × ℕ)}
    (hw : s.dev.writes m.val F.TIM_TA_CMD.off = true) (hb : s.dev.armActs m.val)
    (h : s.dev.noAbort.armStaged m.val = (false, s.dev.noAbort.taRefuse (s.dev.stagingOf m.val).index ev pl)) :
    Completes (.taArm m) s fun d =>
      d.entryAt (s.dev.stagingOf m.val).index = { s.dev.entryAt (s.dev.stagingOf m.val).index with cmdResult := 2 } ∧ Posts s.dev d [ev] := by
  refine .of_onReg rfl hw ?_
  rw [taArm_of_refused (d := s.dev.noAbort) hb h]
  exact ⟨entryAt_taRefuse _ _ _ _, posts_taRefuse _ _ _ _⟩

/-- Settles O4: each refusal by the case of R50 or R57 that it meets. -/
theorem armRefusalsInOrder : Obligations.ArmRefusalsInOrder := by
  unfold Obligations.ArmRefusalsInOrder
  intro s m hw hb
  exact ⟨fun hl => completes_taArm_of_refused hw hb (armEntry_of_unlocked hl),
    fun hl h => completes_taArm_of_refused hw hb (armEntry_of_bad hl h),
    fun hl hbad h => completes_taArm_of_refused hw hb (armEntry_of_armed hl hbad h),
    fun hl hbad he h => completes_taArm_of_refused hw hb (armEntry_of_late hl hbad he h),
    fun hl hbad he hs ht h => completes_taArm_of_refused hw hb (armEntry_of_ksCause hl hbad he hs ht h)⟩

end Sys2Proof.Machine
end

