-- ==== Sys2Proof/Proofs/TimeKeeping.lean ====
section
/-! PROOF. The STC's source and lock, its marks, PPS and time of day (R32 to R44, R488, R489): what each operation leaves, and the commands
that are made of them. -/

namespace Sys2Proof.Machine

section
variable {d : Dev}

/-! ### Fields just written -/

theorem Dev.off_wr_zero (d : Dev) (f : Fld) (h : f.lo + f.w ≤ 64) : (d.wr f 0).on f = false := by
  rw [Dev.on, Dev.rd_wr_same d f 0 h, Nat.zero_mod]
  rfl

theorem Dev.on_of_rd {f : Fld} {x : ℕ} (h : d.rd f = x) (hx : x ≠ 0) : d.on f = true := by
  rw [Dev.on, h]
  exact bne_iff_ne.2 hx

/-! ### The source (R34) -/

theorem srcSelect_of_ignored {src : ℕ} (h : d.mode ≠ .m2 ∨ src = 3 ∨ (d.on F.GLB_STRAP_SELF_TIMED = false ∧ src ≠ 0)) :
    srcSelect src d = d := by
  rw [srcSelect, if_pos]
  tauto

/-- The device with a new source, its lock open. -/
def Dev.newSource (d : Dev) (src : ℕ) : Dev := (d.wr F.TIM_CTRL_SRC src).wr F.TIM_STATUS_LOCKED 0

theorem rd_newSource_src {src : ℕ} (h : src < 4) : (d.newSource src).rd F.TIM_CTRL_SRC = src := by
  rw [Dev.newSource, Dev.rd_wr_off _ _ _ _ (by decide), Dev.rd_wr_same _ _ _ (by decide)]
  exact Nat.mod_eq_of_lt h

theorem rd_newSource_locked (src : ℕ) : (d.newSource src).rd F.TIM_STATUS_LOCKED = 0 := by
  rw [Dev.newSource, Dev.rd_wr_same _ _ _ (by decide), Nat.zero_mod]

/-- In M2 a new source that the strap allows is taken, its lock open. -/
theorem srcSelect_of_taken {src : ℕ} (hm : d.mode = .m2) (h3 : src ≠ 3) (hs : d.on F.GLB_STRAP_SELF_TIMED = true ∨ src = 0) (h4 : src < 4)
    (hne : src ≠ d.rd F.TIM_CTRL_SRC) :
    (srcSelect src d).rd F.TIM_CTRL_SRC = src ∧ (srcSelect src d).rd F.TIM_STATUS_LOCKED = 0 := by
  rw [srcSelect, if_neg]
  · exact ⟨rd_newSource_src (d := d) h4, rd_newSource_locked (d := d) src⟩
  · rintro (h | h | ⟨h, h0⟩ | h)
    · exact h hm
    · exact h3 h
    · exact hs.elim (by simp [h]) h0
    · exact hne h

theorem rd_srcSelect {src : ℕ} (hm : d.mode = .m2) (h3 : src ≠ 3) (hs : d.on F.GLB_STRAP_SELF_TIMED = true ∨ src = 0) (h4 : src < 4) :
    (srcSelect src d).rd F.TIM_CTRL_SRC = src := by
  by_cases hne : src = d.rd F.TIM_CTRL_SRC
  · rw [srcSelect, if_pos (.inr (.inr (.inr hne)))]
    exact hne.symm
  · exact (srcSelect_of_taken hm h3 hs h4 hne).1

end

theorem toNat_ne_three {src : BitVec 2} (h : src ≠ 3) : src.toNat ≠ 3 := fun e => h (BitVec.eq_of_toNat_eq e)

/-- Settles O59: the write is ignored unless every condition of R34 holds, and is taken where they do. -/
theorem sourceWrittenOnlyInM2 : Obligations.SourceWrittenOnlyInM2 := by
  unfold Obligations.SourceWrittenOnlyInM2
  intro s m hw
  refine ⟨fun src hm => .of_onReg rfl hw (srcSelect_of_ignored (.inl hm)),
    fun src hs h0 => .of_onReg rfl hw (srcSelect_of_ignored (.inr (.inr ⟨hs, fun e => h0 (BitVec.eq_of_toNat_eq e)⟩))),
    fun src h3 => .of_onReg rfl hw (srcSelect_of_ignored (.inr (.inl (congrArg BitVec.toNat h3)))),
    fun src hm hs => .of_onReg rfl hw ?_⟩
  obtain rfl | ⟨hs, h3⟩ := hs
  · exact rd_srcSelect (d := s.dev.noAbort) hm (by decide) (.inr rfl) (by decide)
  · exact rd_srcSelect (d := s.dev.noAbort) hm (toNat_ne_three h3) (.inl hs) src.isLt

section
variable {d : Dev}

/-! ### The block's time but for the timed-action entries -/

/-- Of the block's time the timed-action entries alone change. -/
def EntriesOnly (d e : Dev) : Prop := e.tim = { d.tim with entries := e.tim.entries }

theorem EntriesOnly.refl : EntriesOnly d d := rfl

theorem EntriesOnly.trans {e f : Dev} (h : EntriesOnly d e) (h' : EntriesOnly e f) : EntriesOnly d f :=
  Eq.trans h' (congrArg (fun t : Tim => { t with entries := f.tim.entries }) h)

theorem EntriesOnly.of_tim {e : Dev} (h : e.tim = d.tim) : EntriesOnly d e := by rw [EntriesOnly, h]

theorem EntriesOnly.setEntry {i : ℕ} {x : TaEntry} : EntriesOnly d (d.setEntry i x) := rfl

theorem EntriesOnly.set_img {x : Img} : EntriesOnly d { d with img := x } := rfl

theorem EntriesOnly.armEntry {m i span type : ℕ} {op : BitVec 64} : EntriesOnly d (d.armEntry m i span type op).2 := by
  unfold Dev.armEntry
  dsimp only
  split_ifs <;> exact .setEntry

theorem EntriesOnly.walkTry {span new : ℕ} : EntriesOnly d (d.walkTry span new).2 := by
  have harm := EntriesOnly.armEntry (d := d) (m := d.walkMaster) (i := d.rd F.IMG_WALK_CFG_TA_ENTRY) (span := span) (type := 4)
    (op := BitVec.ofNat 64 (d.rd F.IMG_WALK_STATUS_NEXT_OCTET + 256 * new))
  unfold Dev.walkTry
  dsimp only
  split
  · rename_i h
    rw [h] at harm
    exact harm.trans (.of_tim (tim_mirror _ _ _ _))
  · rename_i h
    rwa [h] at harm

theorem EntriesOnly.walkArm : EntriesOnly d d.walkArm := by
  unfold Dev.walkArm
  dsimp only
  split
  · exact .refl
  · split
    · exact .set_img
    · split
      · exact .set_img
      · rename_i new _
        have htry := EntriesOnly.walkTry (d := d) (span := d.img.walkDue) (new := new)
        split
        · rename_i h
          rwa [h] at htry
        · rename_i h
          rw [h] at htry
          split
          · exact htry.trans .set_img
          · exact (htry.trans .set_img).trans .walkTry

theorem EntriesOnly.runFailDue : EntriesOnly d d.runFailDue :=
  .of_tim ((Within.runFailDue .refl rfl (S := ⟨[.posted, .img, .lpt, .pir, .tbl, .que, .fab, .pwr, .dgn], [3, 4],
    [(F.HST_DROP_CNT.ix Drop.pierRetired).off, F.DGN_STATUS_BIST_BUSY.off, F.DGN_BIST_STATUS_RESULT.off]⟩)).1 .tim (by decide))

/-- A walk that goes on at the start of a span arms entries and leaves the clock. -/
theorem EntriesOnly.walkTick : EntriesOnly d d.walkTick := by
  unfold Dev.walkTick
  dsimp only
  have hrun : EntriesOnly d (if d.inStep = true then d else d.runFailDue) := by
    split
    · exact .refl
    · exact .runFailDue
  generalize (if d.inStep = true then d else d.runFailDue) = e at hrun ⊢
  split
  · exact (hrun.trans .set_img).trans .walkArm
  · split
    · split
      · exact (hrun.trans .set_img).trans .walkArm
      · exact hrun
    · exact hrun

theorem EntriesOnly.telemRefresh : EntriesOnly d d.telemRefresh :=
  .of_tim ((Within.telemRefresh .refl rfl (S := ⟨[.hst], [], []⟩)).1 .tim (by decide))

/-! ### The start of a span (R32, R36) -/

/-- The internal span tick always moves on; the STC moves with it unless it is held. -/
theorem spanStart_spec (d : Dev) : (spanStart d).tim.tick = d.tim.tick + 1 ∧
    (spanStart d).tim.span = if d.stcHeld then d.tim.span else (d.tim.span + 1) % 2 ^ 48 := by
  unfold spanStart
  split <;> exact ⟨rfl, rfl⟩

theorem stcHeld_of_regs {e : Dev} (ht : e.tim = d.tim) (hsrc : e.rd F.TIM_CTRL_SRC = d.rd F.TIM_CTRL_SRC)
    (hl : e.rd F.TIM_STATUS_LOCKED = d.rd F.TIM_STATUS_LOCKED) : e.stcHeld = d.stcHeld := by
  rw [Dev.stcHeld, Dev.stcHeld, Dev.locked, Dev.locked, Dev.on, Dev.on, ht, hsrc, hl]

/-- A span without a heartbeat counts. -/
def Dev.hbCounted (d : Dev) : Dev := if d.twinOn = true ∧ d.twn.hbAt < d.tim.tick then d.bump F.TWN_HB_MISSED else d

theorem stcHeld_hbCounted (d : Dev) : d.hbCounted.stcHeld = d.stcHeld := by
  have hw : Within ⟨[], [], [F.TWN_HB_MISSED.off]⟩ d d.hbCounted := .ite (.bump .refl rfl) .refl
  exact stcHeld_of_regs (hw.1 .tim (by decide)) (hw.rd_eq rfl) (hw.rd_eq rfl)

theorem tim_hbCounted (d : Dev) : d.hbCounted.tim = d.tim := by
  unfold Dev.hbCounted
  split <;> rfl

theorem spanBegins_spec (d : Dev) : (spanBegins d).tim.tick = d.tim.tick + 1 ∧
    (spanBegins d).tim.span = if d.stcHeld then d.tim.span else (d.tim.span + 1) % 2 ^ 48 := by
  have h : EntriesOnly (spanStart d.hbCounted) ((spanStart d.hbCounted).walkTick).telemRefresh := EntriesOnly.walkTick.trans .telemRefresh
  obtain ⟨htick, hspan⟩ := spanStart_spec d.hbCounted
  rw [stcHeld_hbCounted, tim_hbCounted] at hspan
  rw [tim_hbCounted] at htick
  rw [show spanBegins d = ((spanStart d.hbCounted).walkTick).telemRefresh from rfl, h]
  exact ⟨htick, hspan⟩

/-! ### Losing lock (R36, R489) -/

theorem locked_lockLost (d : Dev) : d.lockLost.locked = false := Dev.off_wr_zero d _ (by decide)

theorem posts_lockLost (d : Dev) : Posts d d.lockLost [Ev.TIM_LOCK_LOST] := posts_post (d.wr F.TIM_STATUS_LOCKED 0) _ _

theorem loseLock_of_locked (h : d.locked = true) : d.loseLock = d.lockLost := if_pos h

theorem locked_loseLock (d : Dev) : d.loseLock.locked = false := by
  cases h : d.locked
  · rwa [Dev.loseLock, if_neg (by simp [h])]
  · rw [loseLock_of_locked h]
    exact locked_lockLost d

/-! ### Gaining lock (R37, R488) -/

/-- After a load entries may be missed; nothing else of the block's time changes. -/
theorem EntriesOnly.missEntries (d : Dev) : EntriesOnly d d.missEntries := by
  refine Dev.each_induction (EntriesOnly d) _ (fun i e he => ?_) _ _ .refl
  dsimp only
  split
  · exact he.trans .setEntry
  · exact he

theorem on_missEntries (d : Dev) (f : Fld) : d.missEntries.on f = d.on f :=
  (Within.missEntries (S := ⟨[.posted, .tim], [], []⟩) .refl rfl).on_eq rfl

theorem on_gainLock {f : Fld} {span slot : ℕ} (h : F.TIM_STATUS.off ≠ f.off) : (d.gainLock span slot).on f = d.on f := by
  rw [Dev.gainLock]
  dsimp only
  rw [on_missEntries, Dev.on, Dev.rd_post, Dev.rd_wr_off _ F.TIM_STATUS_BACKWARD f _ h, Dev.rd_wr_off _ F.TIM_STATUS_LOCKED f _ h]
  rfl

theorem locked_gainLock (d : Dev) (span slot : ℕ) : (d.gainLock span slot).locked = true := by
  rw [Dev.locked, Dev.gainLock]
  dsimp only
  rw [on_missEntries, Dev.on, Dev.rd_post, Dev.rd_wr_beside _ _ _ _ (by decide) (by decide), Dev.rd_wr_same _ _ _ (by decide)]
  rfl

/-- What a gained lock leaves: LOCKED, and the STC at the span and slot it is loaded with. -/
theorem gainLock_spec (d : Dev) (span slot : ℕ) :
    (d.gainLock span slot).locked = true ∧ (d.gainLock span slot).tim.span = span % 2 ^ 48 ∧ (d.gainLock span slot).tim.slot = slot ∧
      (d.gainLock span slot).tim.pllLocked = d.tim.pllLocked := by
  refine ⟨locked_gainLock d span slot, ?_⟩
  rw [Dev.gainLock]
  dsimp only
  rw [EntriesOnly.missEntries]
  exact ⟨rfl, rfl, rfl⟩

/-! ### The fabric's time (R35 to R37) -/

theorem spanDisagree_of_twice {link : ℕ} {x y : ℕ × ℕ} (hsrc : d.rd F.TIM_CTRL_SRC = 0) (hlink : d.timeLink link = true)
    (htick : d.tim.tick ≠ 0) (hx : d.disagreeAt link d.tim.tick = some x) (hy : d.disagreeAt link (d.tim.tick - 1) = some y) :
    spanDisagree link d = ({ d with tim := { d.tim with excluded := putBit d.tim.excluded link true } }).post Ev.TIM_SPAN_DISAGREE
      [(24, 1, link), (32, 6, x.1), (40, 6, x.2)] := by
  rw [spanDisagree, if_neg (by simp [hsrc, hlink, htick]), hx, hy]

theorem fabricTimeLoss_of_lost (hsrc : d.rd F.TIM_CTRL_SRC = 0) (hl : d.locked = true) (ht : d.tim.lastCtl + 4 ≤ d.tim.tick) :
    fabricTimeLoss d = d.lockLost := by
  rw [fabricTimeLoss, if_pos ⟨hsrc, hl, ht⟩, loseLock_of_locked hl]

theorem fabricRelock_of_steady {i t k : ℕ} (hsrc : d.rd F.TIM_CTRL_SRC = 0) (hl : d.locked = false) (hp : d.tim.pllLocked = true)
    (hi : d.fabricSteady = some i) (hc : d.lastControl i = some (t, k)) :
    fabricRelock d = d.gainLock (spanAdd k (d.tim.tick - t)) 0 := by
  rw [fabricRelock, hi, Option.bind_some, hc]
  exact if_pos ⟨hsrc, hl, hp⟩

/-! ### The PLL (R488, R489) -/

theorem pllLock_of_self_timed (hp : d.tim.pllLocked = false) (hsrc : d.rd F.TIM_CTRL_SRC = 1) :
    pllLock d = ({ d with tim := { d.tim with pllLocked := true, stcTick := d.tim.tick } }).gainLock d.tim.span d.tim.slot := by
  rw [pllLock, if_neg (by simp [hp])]
  exact if_pos hsrc

/-- The device with its PLL unlocked. -/
def Dev.pllLost (d : Dev) : Dev := { d with tim := { d.tim with pllLocked := false } }

theorem pllLockLoss_of_locked (hp : d.tim.pllLocked = true) : pllLockLoss d = d.pllLost.lockLost := if_pos hp

/-! ### Span sync (R39, R40) -/

theorem spanSyncMarker_of_armed {slot : ℕ} (hsrc : d.rd F.TIM_CTRL_SRC = 2) (hp : d.tim.pllLocked = true)
    (ha : d.on F.TIM_SYNC_CFG_LOAD_ARM = true) :
    spanSyncMarker slot d = (d.wr F.TIM_SYNC_CFG_LOAD_ARM 0).gainLock (d.rd F.TIM_SYNC_LOAD) 0 := by
  rw [spanSyncMarker, if_neg (by simp [hsrc]), if_pos ha]
  exact if_pos hp

theorem spanSyncMarker_of_misplaced {slot : ℕ} (hsrc : d.rd F.TIM_CTRL_SRC = 2) (ha : d.on F.TIM_SYNC_CFG_LOAD_ARM = false)
    (h : slot ≠ 0 ∨ d.tim.span % 1024 ≠ 0) : spanSyncMarker slot d = d.loseLock := by
  rw [spanSyncMarker, if_neg (by simp [hsrc]), if_neg (by simp [ha]), if_pos h]

theorem syncLoadArm_of_fabric_or_sync (hsrc : d.rd F.TIM_CTRL_SRC ≠ 1) : syncLoadArm d = d.wr F.TIM_SYNC_CFG_LOAD_ARM 1 := if_neg hsrc

/-! ### PPS (R38) -/

theorem losePps_off (d : Dev) : d.losePps.on F.TIM_STATUS_PPS_LOCK = false := by
  cases h : d.on F.TIM_STATUS_PPS_LOCK
  · rwa [Dev.losePps, if_neg (by simp [h])]
  · rw [Dev.losePps, if_pos h]
    exact Dev.off_wr_zero d _ (by decide)

theorem posts_losePps (h : d.on F.TIM_STATUS_PPS_LOCK = true) : Posts d d.losePps [Ev.TIM_PPS_LOST] := by
  rw [Dev.losePps, if_pos h]
  exact posts_post (d.wr F.TIM_STATUS_PPS_LOCK 0) _ _

theorem tim_losePps (d : Dev) : d.losePps.tim = d.tim :=
  (Within.losePps (S := ⟨[.posted], [], [F.TIM_STATUS_PPS_LOCK.off]⟩) .refl rfl).1 .tim (by decide)

/-- The edge's error is noted, and so is how many good edges came in a row. -/
def Dev.ppsNoted (d : Dev) (err : ℤ) (good : ℕ) : Dev :=
  ({ d with tim := { d.tim with ppsGood := good } }).wr F.TIM_PPS_PHASE (err % 2 ^ 32).toNat

theorem rd_ppsNoted_phase (d : Dev) (err : BitVec 32) (good : ℕ) : (d.ppsNoted err.toInt good).rd F.TIM_PPS_PHASE = err.toNat := by
  have herr : err.toInt % 2 ^ 32 = err.toNat := by
    have := err.isLt
    rw [BitVec.toInt_eq_toNat_cond]
    split <;> omega
  rw [Dev.ppsNoted, Dev.rd_wr_same _ _ _ (by decide), herr, Int.toNat_natCast]
  exact Nat.mod_eq_of_lt err.isLt

theorem on_ppsNoted_lock (d : Dev) (err : ℤ) (good : ℕ) :
    (d.ppsNoted err good).on F.TIM_STATUS_PPS_LOCK = d.on F.TIM_STATUS_PPS_LOCK :=
  congrArg (· != 0) (Dev.rd_wr_off _ _ _ _ (by decide))

theorem ppsError_of_good {err : ℤ} (h : err.natAbs * 32 ≤ 2000) (hg : 7 ≤ d.tim.ppsGood) :
    d.ppsError err = (d.ppsNoted err (d.tim.ppsGood + 1)).wr F.TIM_STATUS_PPS_LOCK 1 := by
  have hfar : ¬ err.natAbs * 32 > 10000 := by omega
  have height : d.tim.ppsGood + 1 ≥ 8 := by omega
  rw [Dev.ppsError, if_pos h, if_neg hfar, if_pos height, Dev.ppsNoted]

theorem ppsError_of_far {err : ℤ} (h : 10000 < err.natAbs * 32) : d.ppsError err = (d.ppsNoted err 0).losePps := by
  have hn : ¬ err.natAbs * 32 ≤ 2000 := by omega
  rw [Dev.ppsError, if_neg hn, if_pos h, Dev.ppsNoted]

theorem tim_ppsError (d : Dev) (err : ℤ) : (d.ppsError err).tim.todPending = d.tim.todPending := by
  rw [Dev.ppsError]
  generalize (if err.natAbs * 32 ≤ 2000 then d.tim.ppsGood + 1 else 0) = good
  dsimp only
  split
  · rw [tim_losePps]
    rfl
  · split <;> rfl

/-- With no ToD message waiting an edge is for the discipline alone. -/
theorem ppsEdge_of_no_tod {err : BitVec 32} (hsrc : d.rd F.TIM_CTRL_SRC = 1) (hin : d.on F.TIM_PPS_CFG_IN_EN = true)
    (ht : d.tim.todPending = none) : ppsEdge err d = d.ppsError err.toInt := by
  rw [ppsEdge, if_pos ⟨hsrc, hin⟩]
  dsimp only
  rw [tim_ppsError, ht]

theorem ppsEdgesMissing_of_disciplined (hsrc : d.rd F.TIM_CTRL_SRC = 1) (hin : d.on F.TIM_PPS_CFG_IN_EN = true) :
    ppsEdgesMissing d = ({ d with tim := { d.tim with ppsGood := 0 } }).losePps := if_pos ⟨hsrc, hin⟩

/-! ### Time of day (R41 to R44) -/

theorem todMessage_body (sec : ℕ) (valid : Bool) :
    ((todMessage sec valid).drop 1).take 9 = [1] ++ leBytes 6 sec ++ [if valid then 1 else 0, 0] := by
  rfl

theorem todMessage_crc (sec : ℕ) (valid : Bool) :
    leNat ((todMessage sec valid).drop 10) = crc16 ([1] ++ leBytes 6 sec ++ [if valid then 1 else 0, 0]) := by
  rw [show (todMessage sec valid).drop 10 = leBytes 2 (crc16 ([1] ++ leBytes 6 sec ++ [if valid then 1 else 0, 0])) from rfl, leNat_leBytes]
  exact Nat.mod_eq_of_lt (crc16_lt _)

/-- A message of the block's own, marked valid, is accepted at the right time. -/
theorem todCause_todMessage {ms : ℕ} (sec : ℕ) (h1 : 100 ≤ ms) (h2 : ms ≤ 900) : todCause ms (todMessage sec true) = 0 := by
  have hform : ¬ ((todMessage sec true).length ≠ 12 ∨ (todMessage sec true).getD 0 0 ≠ 0xA5 ∨
      crc16 (((todMessage sec true).drop 1).take 9) ≠ leNat ((todMessage sec true).drop 10)) := by
    rw [todMessage_crc, todMessage_body]
    simp [todMessage, length_leBytes]
  rw [todCause, if_neg (by omega), if_neg hform]
  rfl

theorem todCause_of_untimely {ms : ℕ} (l : List Byte) (h : ms < 100 ∨ 900 < ms) : todCause ms l = 1 := if_pos h

theorem todMessageRx_of_good {ms : ℕ} (sec : BitVec 48) (h1 : 100 ≤ ms) (h2 : ms ≤ 900) :
    todMessageRx ms (todMessage sec.toNat true) d = { d with tim := { d.tim with todPending := some sec } } := by
  have hsec : leNat (((todMessage sec.toNat true).drop 2).take 6) = sec.toNat := by
    rw [show ((todMessage sec.toNat true).drop 2).take 6 = leBytes 6 sec.toNat from rfl, leNat_leBytes]
    exact Nat.mod_eq_of_lt sec.isLt
  rw [todMessageRx, if_neg (not_not.2 (todCause_todMessage _ h1 h2)), hsec, BitVec.ofNat_toNat, BitVec.setWidth_eq]

theorem todMessageRx_of_untimely {ms : ℕ} {l : List Byte} (h : ms < 100 ∨ 900 < ms) :
    todMessageRx ms l d = d.post Ev.TIM_TOD_RX_ERR [(24, 1, 1)] := by
  rw [todMessageRx, todCause_of_untimely l h]
  rfl

theorem phcSecond_of_new (hh : d.stcHeld = false) (hs : d.phcNs / 1000000000 ≠ d.tim.phcSecond) (ho : d.on F.TIM_PPS_CFG_OUT_EN = true) :
    phcSecond d = { d with tim := { d.tim with
      phcSecond := d.phcNs / 1000000000, todTxDue := true, ppsOutUntil := d.slotTick + 100 * d.rd F.TIM_PPS_CFG_OUT_WIDTH } } := by
  rw [phcSecond]
  dsimp only
  rw [if_neg (by simp [hh, hs]), if_pos ho]

theorem todMessageTx_of_due (ho : d.on F.TIM_PPS_CFG_OUT_EN = true) (hd : d.tim.todTxDue = true) (hn : 500000000 ≤ d.phcNs % 1000000000) :
    todMessageTx d = { d with tim := { d.tim with
      todTxDue := false, todTx := todMessage (d.phcNs / 1000000000 + 1) (d.on F.TIM_STATUS_TOD_VALID) } } := by
  rw [todMessageTx, if_neg (by simp [ho, hd, hn])]

/-- What a new base and correction leave in the registers. -/
theorem rd_setBase (d : Dev) (sec ns corr : ℕ) :
    (d.setBase sec ns corr).rd F.TIM_TOD_BASE = sec % 2 ^ 64 ∧ (d.setBase sec ns corr).rd F.TIM_TOD_BASE_NS = ns % 2 ^ 32 ∧
      (d.setBase sec ns corr).rd F.TIM_CORR = corr % 2 ^ 32 := by
  have hstep (e : Dev) (n : ℤ) (f : Fld) : (e.todStep n).rd f = e.rd f := (Within.todStep (S := ⟨[.posted], [], []⟩) .refl rfl).rd_eq rfl
  simp only [Dev.setBase, hstep]
  refine ⟨?_, ?_, Dev.rd_wr_same _ _ _ (by decide)⟩
  · rw [Dev.rd_wr_off _ _ _ _ (by decide), Dev.rd_wr_off _ _ _ _ (by decide), Dev.rd_wr_same _ _ _ (by decide)]
    rfl
  · rw [Dev.rd_wr_off _ _ _ _ (by decide), Dev.rd_wr_same _ _ _ (by decide)]
    rfl

theorem tim_setBase (d : Dev) (sec ns corr : ℕ) : (d.setBase sec ns corr).tim = d.tim :=
  (Within.setBase (S := ⟨[.posted], [], [F.TIM_TOD_BASE.off, F.TIM_TOD_BASE_NS.off, F.TIM_CORR.off]⟩) .refl rfl).1 .tim (by decide)

/-- What applies of the base: the one that is due, or the one in force. -/
def Dev.nextBase (d : Dev) : ℕ × ℕ := d.dueBase.getD (d.rd F.TIM_TOD_BASE, d.rd F.TIM_TOD_BASE_NS)

/-- What applies of the correction. -/
def Dev.nextCorr (d : Dev) : ℕ := (d.dueCorr.map (·.toNat)).getD (d.rd F.TIM_CORR)

/-- The block's time with what is due taken. -/
def Dev.dueTaken (d : Dev) : Tim :=
  { d.tim with basePending := if d.dueBase.isSome then none else d.tim.basePending,
               corrPending := if d.dueCorr.isSome then none else d.tim.corrPending }

theorem todBaseUpdate_of_due (hh : d.stcHeld = false) (hs : d.tim.slot = 0) (hd : d.dueBase.isSome = true ∨ d.dueCorr.isSome = true) :
    todBaseUpdate d =
      if d.dueBase.isSome then
        (({ d with tim := d.dueTaken }).setBase d.nextBase.1 d.nextBase.2 d.nextCorr).wr F.TIM_STATUS_TOD_VALID 1
      else ({ d with tim := d.dueTaken }).setBase d.nextBase.1 d.nextBase.2 d.nextCorr := by
  rw [todBaseUpdate, if_neg]
  · rfl
  · rintro (h | h | ⟨h1, h2⟩)
    · simp [hh] at h
    · exact h hs
    · simp [h1, h2] at hd

theorem todBaseUpdate_of_slot (h : d.tim.slot ≠ 0) : todBaseUpdate d = d := if_pos (.inr (.inl h))

/-- At slot 0 what is due has applied, whatever else is due with it. -/
theorem todBaseUpdate_spec (hh : d.stcHeld = false) (hs : d.tim.slot = 0) (hd : d.dueBase.isSome = true ∨ d.dueCorr.isSome = true) :
    (todBaseUpdate d).tim = d.dueTaken ∧ (todBaseUpdate d).rd F.TIM_TOD_BASE = d.nextBase.1 % 2 ^ 64 ∧
      (todBaseUpdate d).rd F.TIM_TOD_BASE_NS = d.nextBase.2 % 2 ^ 32 ∧ (todBaseUpdate d).rd F.TIM_CORR = d.nextCorr % 2 ^ 32 ∧
      (d.dueBase.isSome = true → (todBaseUpdate d).on F.TIM_STATUS_TOD_VALID = true) := by
  obtain ⟨hb, hn, hc⟩ := rd_setBase { d with tim := d.dueTaken } d.nextBase.1 d.nextBase.2 d.nextCorr
  have ht := tim_setBase { d with tim := d.dueTaken } d.nextBase.1 d.nextBase.2 d.nextCorr
  rw [todBaseUpdate_of_due hh hs hd]
  split
  case isTrue =>
    refine ⟨ht, ?_, ?_, ?_, fun _ => Dev.on_wr_one _ _ (by decide) rfl⟩ <;> rw [Dev.rd_wr_off _ _ _ _ (by decide)] <;> assumption
  case isFalse h => exact ⟨ht, hb, hn, hc, fun h' => absurd h' h⟩

theorem dueBase_of_earlier {x : ℕ × ℕ} (hp : d.tim.basePending = some x) (ht : d.tim.basePendingTick < d.tim.tick) : d.dueBase = some x :=
  (if_pos ht).trans hp

theorem dueCorr_of_earlier {c : BitVec 32} (hp : d.tim.corrPending = some c) (ht : d.tim.corrPendingTick < d.tim.tick) :
    d.dueCorr = some c := (if_pos ht).trans hp

end

/-- Settles O1: each command by the case it meets. -/
theorem timeCommandsComplete : Obligations.TimeCommandsComplete := by
  unfold Obligations.TimeCommandsComplete
  refine ⟨fun s m src hw hm h3 hs hne => .of_onReg rfl hw ?_,
    fun s link x y hsrc hlink htick hx hy => .of_exec rfl ?_,
    fun s hsrc hl ht => .of_exec rfl ?_,
    fun s i t k hsrc hl hp hi hc => .of_exec rfl ?_,
    fun s hp hsrc => .of_exec rfl ?_,
    fun s hp => .of_exec rfl ?_,
    fun s slot hsrc hp ha => .of_exec rfl ?_,
    fun s slot hsrc ha h => .of_exec rfl ?_,
    fun s hsrc => .of_exec rfl ?_,
    fun s m hw hsrc => .of_onReg rfl hw ?_,
    fun s ho hh hm => .of_exec rfl ?_,
    fun s => .of_exec rfl (spanBegins_spec s.dev),
    fun s err hsrc hin ht herr hg => .of_exec rfl ?_,
    fun s err hsrc hin ht herr hl => .of_exec rfl ?_,
    fun s hsrc hin => .of_exec rfl ?_,
    fun s ms sec h1 h2 => .of_exec rfl ?_,
    fun s ms sec h => .of_exec rfl ?_,
    fun s hh hs ho => .of_exec rfl ?_,
    fun s ho hd hn => .of_exec rfl ?_,
    fun s a n hp hh hs ht => .of_exec rfl ?_,
    fun s c hp hh hs ht => .of_exec rfl ?_,
    fun s hs => .of_exec rfl (todBaseUpdate_of_slot hs)⟩
  · exact srcSelect_of_taken (d := s.dev.noAbort) hm (toNat_ne_three h3) (hs.imp_right (congrArg BitVec.toNat)) src.isLt hne
  · rw [spanDisagree_of_twice hsrc hlink htick hx hy]
    exact ⟨bitOn_putBit_same _ _ link.isLt, posts_post { s.dev with tim := _ } _ _⟩
  · rw [fabricTimeLoss_of_lost hsrc hl ht]
    exact ⟨locked_lockLost _, posts_lockLost _⟩
  · rw [fabricRelock_of_steady hsrc hl hp hi hc]
    obtain ⟨h1, h2, h3, -⟩ := gainLock_spec s.dev (spanAdd k (s.dev.tim.tick - t)) 0
    exact ⟨h1, h2, h3⟩
  · rw [pllLock_of_self_timed hp hsrc]
    obtain ⟨h1, h2, -, h4⟩ := gainLock_spec { s.dev with tim := { s.dev.tim with pllLocked := true, stcTick := s.dev.tim.tick } }
      s.dev.tim.span s.dev.tim.slot
    exact ⟨h4, h1, h2⟩
  · rw [pllLockLoss_of_locked hp]
    exact ⟨rfl, locked_lockLost s.dev.pllLost, rfl, posts_lockLost s.dev.pllLost⟩
  · rw [spanSyncMarker_of_armed hsrc hp ha]
    obtain ⟨h1, h2, h3, -⟩ := gainLock_spec (s.dev.wr F.TIM_SYNC_CFG_LOAD_ARM 0) (s.dev.rd F.TIM_SYNC_LOAD) 0
    exact ⟨h2, h3, (on_gainLock (by decide)).trans (Dev.off_wr_zero _ _ (by decide)), h1⟩
  · rw [spanSyncMarker_of_misplaced hsrc ha h]
    exact locked_loseLock _
  · rw [spanSyncMarkersMissing, if_pos hsrc]
    exact locked_loseLock _
  · rw [syncLoadArm_of_fabric_or_sync (d := s.dev.noAbort) hsrc]
    exact ⟨Dev.on_wr_one _ _ (by decide) rfl, rfl⟩
  · rw [spanSyncOutMarker, if_pos ⟨ho, hh, hm⟩]
  · rw [ppsEdge_of_no_tod hsrc hin ht, ppsError_of_good herr hg]
    exact ⟨Dev.on_wr_one _ _ (by decide) rfl, (Dev.rd_wr_off _ _ _ _ (by decide)).trans (rd_ppsNoted_phase _ _ _)⟩
  · rw [ppsEdge_of_no_tod hsrc hin ht, ppsError_of_far herr]
    exact ⟨losePps_off _, posts_losePps ((on_ppsNoted_lock _ _ _).trans hl)⟩
  · rw [ppsEdgesMissing_of_disciplined hsrc hin, tim_losePps]
    exact ⟨losePps_off _, rfl⟩
  · rw [todMessageRx_of_good sec h1 h2]
    exact ⟨rfl, rfl⟩
  · rw [todMessageRx_of_untimely h]
    exact ⟨rfl, posts_post _ _ _⟩
  · rw [phcSecond_of_new hh hs ho]
    exact ⟨rfl, rfl, rfl⟩
  · rw [todMessageTx_of_due ho hd hn]
    exact ⟨rfl, rfl⟩
  · have hdue := dueBase_of_earlier hp ht
    obtain ⟨htim, hb, hn, -, hv⟩ := todBaseUpdate_spec hh hs (.inl (by rw [hdue]; rfl))
    rw [htim, hb, hn]
    simp only [Dev.dueTaken, Dev.nextBase, hdue, Option.isSome_some, if_true, Option.getD_some, true_and]
    exact hv (by rw [hdue]; rfl)
  · have hdue := dueCorr_of_earlier hp ht
    obtain ⟨htim, -, -, hc, -⟩ := todBaseUpdate_spec hh hs (.inr (by rw [hdue]; rfl))
    rw [htim, hc]
    simp only [Dev.dueTaken, Dev.nextCorr, hdue, Option.isSome_some, if_true, Option.map_some, Option.getD_some, true_and]
    exact Nat.mod_eq_of_lt c.isLt

end Sys2Proof.Machine
end

