-- ==== Sys2Proof/Proofs/TimedActionCommands.lean ====
section
/-! PROOF. The commands of timed actions and epochs (R48, R52, R55 to R59, R490): what is staged, armed and fired, and what a keystone, the
drain limit and the end of the sweep leave. -/

namespace Sys2Proof.Machine

section
variable {d : Dev} {m n i : ℕ}

/-! ### Staging (R48, R490) -/

theorem stagingOf_setStaging_same (d : Dev) (m : ℕ) (x : TaStaging) : (d.setStaging m x).stagingOf m = x := SMap.get_set_same ..

theorem stagingOf_setStaging_ne (d : Dev) (x : TaStaging) (h : n ≠ m) : (d.setStaging m x).stagingOf n = d.stagingOf n :=
  SMap.get_set_ne _ _ _ h.symm

/-- A staging write leaves every other master's staging set. -/
theorem stagingOf_taStageWrite_ne (w : TaStage) (v : BitVec 64) (h : n ≠ m) : (taStageWrite m w v d).stagingOf n = d.stagingOf n := by
  cases w <;> exact stagingOf_setStaging_ne _ _ h

/-! ### Arms (R50, R343) -/

theorem taArm_of_barred (hb : d.localBarred m = true) (ht : (d.stagingOf m).type ≠ 1) :
    taArm m d = d.post Ev.TWN_LOCAL_WRITE [(24, 1, m), (28, 4, F.TIM_TA_CMD.off)] := by
  rw [taArm, show ((d.stagingOf m).type == 1) = false from beq_false_of_ne ht, taLocal_of_barred hb]

theorem taCancel_of_barred (hb : d.localBarred m = true) :
    taCancel m d = d.post Ev.TWN_LOCAL_WRITE [(24, 1, m), (28, 4, F.TIM_TA_CMD.off)] := taLocal_of_barred hb

/-- An accepted arm sets its entry, and nothing else of the table; it posts nothing. -/
theorem taArm_of_accepted {e : TaEntry} (hb : d.armActs m) (h : d.armStaged m = (true, d.setEntry i e)) :
    (taArm m d).entryAt i = e ∧ (taArm m d).posted = d.posted ∧ ∀ j, j ≠ i → (taArm m d).entryAt j = d.entryAt j := by
  rw [taArm_eq hb, h, if_pos rfl, posted_mirror, entryAt_mirror]
  refine ⟨entryAt_setEntry_same _ _ _, rfl, fun j hj => ?_⟩
  rw [entryAt_mirror]
  exact entryAt_setEntry_ne _ _ hj.symm

/-! ### Firing (R52) -/

/-- The entry that a firing of a mark leaves. -/
abbrev TaEntry.fired (e : TaEntry) : TaEntry := { e with state := .done, result := 0 }

theorem timedActionFire_of_mark (hf : d.taFires = true) (hk : d.dueKeystone = none) (hi : d.dueEntry = some i)
    (ht : (d.entryAt i).type = 6) :
    timedActionFire d = (d.post Ev.TIM_MARK [(24, 1, i), (32, 8, (d.entryAt i).operand.toNat)]).setEntry i (d.entryAt i).fired := by
  have hact : d.action i (d.entryAt i) = (true, d.post Ev.TIM_MARK [(24, 1, i), (32, 8, (d.entryAt i).operand.toNat)]) := by
    rw [Dev.action, ht]
    rfl
  rw [timedActionFire, hf, hk, hi]
  simp only [Option.isNone_none, Bool.and_self, Dev.fireEntry, hact, if_true]
  rfl

/-! ### The keystone (R55, R56) -/

/-- The registers of a keystone: the epoch, the banks and its span. -/
def Dev.ksBanks (d : Dev) : Dev :=
  (((((d.wr F.TIM_EPOCH_EPOCH (d.rd F.TIM_EPOCH_EPOCH + 1)).wr F.TIM_EPOCH_LIVE_TAG (d.rd F.TIM_EPOCH_EPOCH + 1)).wr
    F.IMG_STATUS_LIVE_SLOT (1 - d.liveSlot)).wr F.IMG_STATUS_STAGED_STATE 5).wr F.TIM_BANK_STATUS_OLD_HELD 1).wr
    F.TIM_LAST_KEYSTONE d.tim.span

/-- And the drain that it starts. -/
def Dev.ksFlipped (d : Dev) : Dev :=
  { d.ksBanks with tim := { d.ksBanks.tim with
    ksFired := true, limitInForce := d.rd F.TIM_DRAIN_LIMIT_LIMIT, limitPassed := false, expiredSince := 0 } }

/-- What follows the flip touches neither the block's time nor its registers. -/
theorem within_keystone (d : Dev) : Within ⟨[.posted, .img, .tbl, .que, .shp], [3, 6, 8, 9], []⟩ d.ksFlipped d.keystone := by
  have hslots : Within ⟨[.posted, .img, .tbl, .que, .shp], [3, 6, 8, 9], []⟩ d.ksFlipped
      (d.ksFlipped.each (List.range 17) fun p e => if e.pierState p = 3 then e else e.setPierSlot p e.liveSlot).showSlots :=
    .showSlots (.each .refl fun _ _ _ he => .ite he (.setPierSlot he rfl)) rfl
  unfold Dev.keystone
  refine .post (.settle ?_ rfl) rfl
  split
  · exact .keystoneRehash (.applyTmProfile (.setRoots (.takeSeeds hslots rfl) rfl) rfl) rfl
  · exact hslots

theorem rd_ksBanks_epoch (d : Dev) : d.ksBanks.rd F.TIM_EPOCH_EPOCH = (d.rd F.TIM_EPOCH_EPOCH + 1) % 65536 := by
  rw [Dev.ksBanks, Dev.rd_wr_off _ _ _ _ (by decide), Dev.rd_wr_off _ _ _ _ (by decide), Dev.rd_wr_off _ _ _ _ (by decide),
    Dev.rd_wr_off _ _ _ _ (by decide), Dev.rd_wr_beside _ _ _ _ (by decide) (by decide), Dev.rd_wr_same _ _ _ (by decide)]
  rfl

theorem on_ksBanks_old (d : Dev) : d.ksBanks.on F.TIM_BANK_STATUS_OLD_HELD = true := by
  refine Dev.on_of_rd (x := 1) ?_ one_ne_zero
  rw [Dev.ksBanks, Dev.rd_wr_off _ _ _ _ (by decide), Dev.rd_wr_same _ _ _ (by decide)]
  rfl

theorem rd_ksBanks_last (d : Dev) : d.ksBanks.rd F.TIM_LAST_KEYSTONE = d.tim.span % 2 ^ 64 := Dev.rd_wr_same _ _ _ (by decide)

theorem within_ksFlipped (d : Dev) : Within ⟨[.tim], [], []⟩ d.ksBanks d.ksFlipped := .set_tim .refl rfl

/-- What a keystone leaves of the epoch, the old bank, its own span and the drain limit. -/
theorem keystone_spec (d : Dev) :
    d.keystone.rd F.TIM_EPOCH_EPOCH = (d.rd F.TIM_EPOCH_EPOCH + 1) % 65536 ∧ d.keystone.on F.TIM_BANK_STATUS_OLD_HELD = true ∧
      d.keystone.rd F.TIM_LAST_KEYSTONE = d.tim.span % 2 ^ 64 ∧ d.keystone.tim = d.ksFlipped.tim := by
  have hw := within_keystone d
  have hf := within_ksFlipped d
  exact ⟨((hw.rd_eq rfl).trans (hf.rd_eq rfl)).trans (rd_ksBanks_epoch d), ((hw.on_eq rfl).trans (hf.on_eq rfl)).trans (on_ksBanks_old d),
    ((hw.rd_eq rfl).trans (hf.rd_eq rfl)).trans (rd_ksBanks_last d),
    hw.1 .tim (by decide)⟩

theorem keystoneFire_of_due (hf : d.taFires = true) (hi : d.dueKeystone = some i) :
    keystoneFire d = (d.setEntry i (d.entryAt i).fired).keystone := by
  rw [keystoneFire, hf, hi]

/-! ### The release of the old bank (R58, R59) -/

/-- The registers that show the image slots. -/
def slotRegs : List ℕ :=
  [F.IMG_LIVE_COMPAT.off, F.IMG_STAGED_COMPAT.off] ++ (List.range 16).map (fun n => (F.IMG_LIVE_DIGEST.ix n).off) ++
    (List.range 16).map fun n => (F.IMG_STAGED_DIGEST.ix n).off

theorem within_showImage {S : Scope} {digest compat : Fld} {x : Option Image} (h : (digest.off + digest.st * 16).ble 0x1FFFFFFF)
    (hd : ∀ n < 16, (digest.ix n).off ∈ S.regs) (hc : S.has (compat.off % 0x20000000)) : Within S d (d.showImage digest compat x) := by
  unfold Dev.showImage
  exact .wr (.each .refl fun n hn e he => .wr he (has_reg_ix (List.mem_range.1 hn) h (hd n (List.mem_range.1 hn)))) hc

theorem within_showSlots (d : Dev) : Within ⟨[], [], slotRegs⟩ d d.showSlots :=
  .trans (within_showImage rfl (by decide) rfl) (within_showImage rfl (by decide) rfl)

/-- The release as it is told, with its registers. -/
def Dev.bankFreed (d : Dev) (swept : ℕ) : Dev :=
  ((((d.post Ev.TIM_RELEASE [(24, 2, (d.rd F.TIM_EPOCH_EPOCH + 65535) % 65536), (26, 1, swept), (32, 6, d.tim.span)]).post Ev.TIM_EXPIRED
    [(24, 8, d.tim.expiredSince)]).wr F.TIM_BANK_STATUS_OLD_HELD 0).wr F.TIM_BANK_STATUS_SWEEP 0).wr F.IMG_STATUS_STAGED_STATE 0

theorem within_releaseOld (d : Dev) (swept : ℕ) : Within ⟨[.img, .tbl], [], slotRegs⟩ (d.bankFreed swept) (d.releaseOld swept) := by
  unfold Dev.releaseOld
  exact (Within.pruneSeeds (.setSlot (.set_img_tbl .refl rfl rfl) rfl) rfl).trans ((within_showSlots _).mono rfl)

theorem Posts.trans {e f : Dev} {l l' : List EvDesc} (h : Posts d e l) (h' : Posts e f l') : Posts d f (l ++ l') := by
  rw [Posts, List.map_append, ← List.append_assoc, ← h]
  exact h'

theorem posts_bankFreed (d : Dev) (swept : ℕ) : Posts d (d.bankFreed swept) [Ev.TIM_RELEASE, Ev.TIM_EXPIRED] := by
  rw [Dev.bankFreed, Posts, Dev.wr_posted, Dev.wr_posted, Dev.wr_posted]
  exact (posts_post d _ _).trans (posts_post _ _ _)

theorem off_bankFreed_old (d : Dev) (swept : ℕ) : (d.bankFreed swept).on F.TIM_BANK_STATUS_OLD_HELD = false := by
  rw [Dev.on, Dev.bankFreed, Dev.rd_wr_off _ _ _ _ (by decide), Dev.rd_wr_beside _ _ _ _ (by decide) (by decide)]
  exact Dev.off_wr_zero _ _ (by decide)

theorem off_bankFreed_sweep (d : Dev) (swept : ℕ) : (d.bankFreed swept).on F.TIM_BANK_STATUS_SWEEP = false := by
  rw [Dev.on, Dev.bankFreed, Dev.rd_wr_off _ _ _ _ (by decide)]
  exact Dev.off_wr_zero _ _ (by decide)

theorem rd_bankFreed_staged (d : Dev) (swept : ℕ) : (d.bankFreed swept).rd F.IMG_STATUS_STAGED_STATE = 0 :=
  (Dev.rd_wr_same _ _ _ (by decide)).trans (Nat.zero_mod _)

/-- What a release leaves of the bank and the staged slot, and what it tells. -/
theorem releaseOld_spec (d : Dev) (swept : ℕ) :
    (d.releaseOld swept).on F.TIM_BANK_STATUS_OLD_HELD = false ∧ (d.releaseOld swept).on F.TIM_BANK_STATUS_SWEEP = false ∧
      (d.releaseOld swept).rd F.IMG_STATUS_STAGED_STATE = 0 ∧ Posts d (d.releaseOld swept) [Ev.TIM_RELEASE, Ev.TIM_EXPIRED] := by
  have hw := within_releaseOld d swept
  refine ⟨(hw.on_eq rfl).trans (off_bankFreed_old d swept), (hw.on_eq rfl).trans (off_bankFreed_sweep d swept),
    (hw.rd_eq rfl).trans (rd_bankFreed_staged d swept), ?_⟩
  rw [Posts, hw.1 .posted (by decide)]
  exact posts_bankFreed d swept

/-- K + L has come: a device that waits for it, outside the span of a load. -/
structure Dev.DrainDue (d : Dev) : Prop where
  held : d.on F.TIM_BANK_STATUS_OLD_HELD = true
  waits : d.tim.limitPassed = false
  runs : d.stcHeld = false
  settled : d.tim.relockAt ≠ some d.tim.tick
  slot : d.tim.slot = 0
  come : spanReached (spanAdd (d.rd F.TIM_LAST_KEYSTONE) d.tim.limitInForce) d.tim.span = true

/-- The arrival of K + L noted. -/
def Dev.limitNoted (d : Dev) : Dev := { d with tim := { d.tim with limitPassed := true } }

theorem oldResident_limitNoted (d : Dev) : d.limitNoted.oldResident = d.oldResident := rfl

theorem drainLimitReached_of_due (h : d.DrainDue) :
    drainLimitReached d = if d.oldResident = 0 then d.limitNoted.releaseOld 0 else d.limitNoted.wr F.TIM_BANK_STATUS_SWEEP 1 := by
  rw [drainLimitReached, if_neg]
  · exact if_congr (Iff.of_eq (congrArg (· = 0) (oldResident_limitNoted d))) rfl rfl
  · simp [h.held, h.waits, h.runs, h.settled, h.slot, h.come]

/-- What the end of a sweep does after the release touches no register of the block or of the image. -/
theorem expirySweepComplete_spec (h : d.on F.TIM_BANK_STATUS_SWEEP = true) :
    (expirySweepComplete d).on F.TIM_BANK_STATUS_SWEEP = false ∧ (expirySweepComplete d).on F.TIM_BANK_STATUS_OLD_HELD = false ∧
      (expirySweepComplete d).rd F.IMG_STATUS_STAGED_STATE = 0 := by
  rw [expirySweepComplete, if_pos h]
  have hw : Within ⟨[.posted, .fresh, .buf, .que], [7], []⟩ (d.sweepAll.releaseOld 1) (d.sweepAll.releaseOld 1).lowCheck.settle :=
    .settle (.lowCheck .refl rfl) rfl
  obtain ⟨hold, hsweep, hstaged, -⟩ := releaseOld_spec d.sweepAll 1
  exact ⟨(hw.on_eq rfl).trans hsweep, (hw.on_eq rfl).trans hold, (hw.rd_eq rfl).trans hstaged⟩

end

/-- Settles O2: each command by the case it meets. -/
theorem timedActionCommandsComplete : Obligations.TimedActionCommandsComplete := by
  unfold Obligations.TimedActionCommandsComplete
  refine ⟨fun s m w v hw => .of_onReg rfl hw ⟨?_, fun n hn => stagingOf_taStageWrite_ne w v hn⟩,
    fun s m hw hb hl h7 h1 h5 he hs => .of_onReg rfl hw ?_,
    fun s m hw hl h1 he hs hk => .of_onReg rfl hw ?_,
    fun s m hw hb h1 => .of_onReg rfl hw ?_,
    fun s m hw hb => .of_onReg rfl hw ?_,
    fun s i hf hk hi ht => .of_exec rfl ?_,
    fun s i hf hi => .of_exec rfl ?_,
    fun s hold hpass hh hload hslot hcome hres => .of_exec rfl ?_,
    fun s hold hpass hh hload hslot hcome hres => .of_exec rfl ?_,
    fun s hsweep => .of_exec rfl (expirySweepComplete_spec hsweep)⟩
  · cases w <;> simp only [taStageWrite, stagingOf_setStaging_same]
  · have hbad : ¬ BadAction (s.dev.stagingOf m.val).type (s.dev.stagingOf m.val).operand := by
      rintro (h | ⟨ht, h⟩)
      · exact absurd h7 (not_lt.2 h)
      · exact absurd h (by simp [h5 ht])
    obtain ⟨hentry, -, hothers⟩ := taArm_of_accepted (d := s.dev.noAbort) (.inl hb)
      (armEntry_accepted (d := s.dev.noAbort) hl hbad he hs fun h => absurd h h1)
    exact ⟨hentry, hothers⟩
  · have hbad : ¬ BadAction (s.dev.stagingOf m.val).type (s.dev.stagingOf m.val).operand := by
      rw [h1]
      rintro (h | ⟨h, -⟩) <;> omega
    have h := taArm_of_accepted (d := s.dev.noAbort) (.inr h1) (armEntry_accepted (d := s.dev.noAbort) hl hbad he hs fun _ => hk)
    rwa [show (s.dev.noAbort.stagingOf m.val).type = 1 from h1] at h
  · rw [taArm_of_barred (d := s.dev.noAbort) hb h1]
    exact ⟨rfl, rfl, posts_post s.dev.noAbort _ _⟩
  · rw [taCancel_of_barred (d := s.dev.noAbort) hb]
    exact ⟨rfl, rfl, posts_post s.dev.noAbort _ _⟩
  · rw [timedActionFire_of_mark hf hk hi ht, entryAt_setEntry_same]
    exact ⟨rfl, rfl, posts_post s.dev _ _⟩
  · rw [keystoneFire_of_due hf hi]
    obtain ⟨hepoch, hold, hlast, htim⟩ := keystone_spec (s.dev.setEntry i (s.dev.entryAt i).fired)
    rw [Dev.entryAt, htim]
    exact ⟨congrArg TaEntry.state (entryAt_setEntry_same s.dev i (s.dev.entryAt i).fired), hepoch, hold, hlast, rfl⟩
  · rw [drainLimitReached_of_due ⟨hold, hpass, hh, hload, hslot, hcome⟩, if_neg hres]
    exact ⟨Dev.on_wr_one _ _ (by decide) rfl, rfl⟩
  · rw [drainLimitReached_of_due ⟨hold, hpass, hh, hload, hslot, hcome⟩, if_pos hres]
    obtain ⟨h1, -, h3, h4⟩ := releaseOld_spec s.dev.limitNoted 0
    exact ⟨h1, h3, h4⟩

end Sys2Proof.Machine
end

