-- ==== Sys2Proof/Proofs/LineConfig.lean ====
section
/-! PROOF. The configuration of a line port and its gate lists (R47, R106, R112, R114, R119, R120, R123, R127). -/

namespace Sys2Proof.Machine

/-! ### Fields laid one after another -/

/-- Digit `k` of digits of `b` bits laid one after another. -/
theorem digit_of_sum {b : ℕ} : ∀ (n : ℕ) (x : ℕ → ℕ), (∀ i, x i < 2 ^ b) → ∀ {k : ℕ}, k < n →
    ((List.range n).map fun i => x i <<< (b * i)).sum / 2 ^ (b * k) % 2 ^ b = x k := by
  intro n
  induction n with
  | zero => exact fun _ _ _ h => absurd h (Nat.not_lt_zero _)
  | succ n ih =>
    intro x hx k hk
    have hsum : ((List.range (n + 1)).map fun i => x i <<< (b * i)).sum =
        x 0 + 2 ^ b * ((List.range n).map fun i => x (i + 1) <<< (b * i)).sum := by
      rw [List.range_succ_eq_map, List.map_cons, List.sum_cons, List.map_map, ← List.sum_map_mul_left]
      simp [Nat.shiftLeft_eq, Nat.mul_succ, pow_add, Function.comp_def, mul_comm, mul_left_comm]
    rw [hsum]
    cases k with
    | zero => rw [mul_zero, pow_zero, Nat.div_one, Nat.add_mul_mod_self_left, Nat.mod_eq_of_lt (hx 0)]
    | succ k =>
      rw [Nat.mul_succ, add_comm (b * k), pow_add, ← Nat.div_div_eq_div_mul, Nat.add_mul_div_left _ _ (Nat.two_pow_pos b),
        Nat.div_eq_of_lt (hx 0), zero_add]
      exact ih (fun i => x (i + 1)) (fun i => hx _) (Nat.lt_of_succ_lt_succ hk)

/-- The words of a wide register, read back one by one. -/
theorem bits_ofNat_words {x : ℕ → ℕ} {k : ℕ} (hx : ∀ i, x i < 2 ^ 32) (hk : k < 8) :
    bits (BitVec.ofNat 256 ((List.range 8).map fun i => x i <<< (32 * i)).sum) (32 * k + 31) (32 * k) = x k := by
  rw [← digit_of_sum 8 x hx hk, bits, show 32 * k + 31 + 1 - 32 * k = 32 by omega, BitVec.toNat_ofNat, ← Nat.shiftRight_eq_div_pow]
  refine Nat.eq_of_testBit_eq fun i => ?_
  simp only [Nat.testBit_mod_two_pow, Nat.testBit_shiftRight]
  by_cases hi : i < 32
  · simp [hi, show 32 * k + i < 256 by omega]
  · simp [hi]

/-- The first boundary of a cycle at or after an instant is at or after it. -/
theorem le_nextBoundary {base cycle t : ℕ} (hc : 0 < cycle) : t ≤ nextBoundary base cycle t := by
  unfold nextBoundary
  split
  · assumption
  · have h := Nat.div_add_mod (t - base + cycle - 1) cycle
    have := Nat.mod_lt (t - base + cycle - 1) hc
    rw [mul_comm] at h
    omega

theorem nsPair_join (ns : ℕ) : (nsPair ns).1 * 1000000000 + (nsPair ns).2 = ns := Nat.div_add_mod' ..

/-! ### A line port and its registers -/

section
variable {d : Dev} {m p : ℕ}

theorem Fld.port_off_ne {f g : Fld} (h : f.off ≠ g.off) : (f.port p).off ≠ (g.port p).off := fun e => h (Nat.add_right_cancel e)

theorem Fld.port_width {f : Fld} (h : f.lo + f.w ≤ 64) : (f.port p).lo + (f.port p).w ≤ 64 := h

theorem Dev.rd_wr_zero {f : Fld} (h : f.lo + f.w ≤ 64) : (d.wr f 0).rd f = 0 := (Dev.rd_wr_same d f 0 h).trans (Nat.zero_mod _)

theorem Dev.on_post (d : Dev) (e : EvDesc) (l : List (ℕ × ℕ × ℕ)) (f : Fld) : (d.post e l).on f = d.on f := rfl

theorem Fld.ix_port_off_ne {f : Fld} {i j : ℕ} (hf : 0 < f.st) (h : i ≠ j) : ((f.ix i).port p).off ≠ ((f.ix j).port p).off :=
  Fld.port_off_ne fun e => h (Nat.eq_of_mul_eq_mul_left hf (Nat.add_left_cancel e))

theorem lp_setLp_same (d : Dev) (p : ℕ) (x : LptPort) : (d.setLp p x).lp p = x := SMap.get_set_same ..

theorem lp_updLp_same (d : Dev) (p : ℕ) (f : LptPort → LptPort) : (d.updLp p f).lp p = f (d.lp p) := lp_setLp_same ..

theorem lp_wr (d : Dev) (f : Fld) (x n : ℕ) : (d.wr f x).lp n = d.lp n := rfl

theorem lp_post (d : Dev) (e : EvDesc) (l : List (ℕ × ℕ × ℕ)) (n : ℕ) : (d.post e l).lp n = d.lp n := rfl

theorem sa_setSa_same (x : LptPort) (k : ℕ) (s : Sa) : (x.setSa k s).sa k = s := SMap.get_set_same ..

theorem within_settle (d : Dev) : Within ⟨[.que], [], []⟩ d d.settle := .settle .refl rfl

theorem lp_settle (d : Dev) (n : ℕ) : d.settle.lp n = d.lp n := by
  rw [Dev.lp, (within_settle d).1 .lpt (by decide)]
  rfl

/-! ### Lane maps, associations and counters (R106, R112, R114, R127) -/

theorem laneMapWrite_rx {data : Word} (hp : p % 8 = 0) (hdown : ∀ i, i < 8 → d.on (F.LPT_CTRL_ADMIN_UP.port (p + i)) = false)
    (hperm : lanePermutation data.toNat = true) : laneMapWrite m p false data d = d.wr (F.LPT_OCT_RX_MAP.port p) data.toNat := by
  have hall : ((List.range 8).all fun i => !d.on (F.LPT_CTRL_ADMIN_UP.port (p + i))) = true :=
    List.all_eq_true.2 fun i hi => by rw [hdown i (List.mem_range.1 hi)]; rfl
  rw [laneMapWrite, if_neg (not_not_intro hp), hall, hperm]
  rfl

theorem laneMapWrite_of_no_permutation {tx : Bool} {data : Word} (hp : p % 8 = 0) (hperm : lanePermutation data.toNat = false) :
    laneMapWrite m p tx data d = d.post Ev.LPT_CFG_REFUSED [(24, 1, p), (25, 1, 3), (26, 1, m)] := by
  rw [laneMapWrite, if_neg (not_not_intro hp), hperm, Bool.and_false]
  rfl

/-- The key of the association that SA_SEL selects. -/
abbrev Dev.saSelected (d : Dev) (p : ℕ) : ℕ :=
  saKey (d.rd (F.LPT_MSEC_SA_SEL_DIR.port p)) (d.rd (F.LPT_MSEC_SA_SEL_SC.port p)) (d.rd (F.LPT_MSEC_SA_SEL_AN.port p))

/-- An association that is not valid takes the staged key and packet number. -/
theorem msecSaInstall_of_free (hv : ((d.lp p).sa (d.saSelected p)).valid = false) :
    (((msecSaInstall m p d).lp p).sa (d.saSelected p)).valid = true ∧
      (((msecSaInstall m p d).lp p).sa (d.saSelected p)).pn = d.rd (F.LPT_MSEC_PN.port p) ∧
      ∀ n, n < 8 → bits (((msecSaInstall m p d).lp p).sa (d.saSelected p)).key (32 * n + 31) (32 * n) =
        d.rd ((F.LPT_MSEC_KEY.ix n).port p) := by
  rw [msecSaInstall]
  dsimp only
  rw [hv, Bool.false_and, if_neg Bool.false_ne_true, lp_updLp_same, sa_setSa_same]
  exact ⟨rfl, rfl, fun n hn => bits_ofNat_words (x := fun n => d.rd ((F.LPT_MSEC_KEY.ix n).port p)) (fun _ => Dev.rd_lt ..) hn⟩

theorem msecSaRetire_valid (d : Dev) (p : ℕ) : (((msecSaRetire p d).lp p).sa (d.saSelected p)).valid = false := by
  unfold msecSaRetire
  refine each_preserves (P := fun e => ((e.lp p).sa (d.saSelected p)).valid = false) (fun n _ e he => ?_) ?_
  · rw [lp_wr]
    exact he
  · rw [lp_updLp_same, sa_setSa_same]
    rfl

theorem msecSaRetire_key (d : Dev) {n : ℕ} (hn : n < 8) : (msecSaRetire p d).rd ((F.LPT_MSEC_KEY.ix n).port p) = 0 := by
  unfold msecSaRetire
  refine each_of_mem (P := fun e => e.rd ((F.LPT_MSEC_KEY.ix n).port p) = 0) (List.mem_range.2 hn) (fun e => ?_) (fun k _ hne e he => ?_) _
  · exact Dev.rd_wr_zero (Fld.port_width (f := F.LPT_MSEC_KEY.ix n) (show F.LPT_MSEC_KEY.lo + F.LPT_MSEC_KEY.w ≤ 64 by decide))
  · rw [Dev.rd_wr_off _ _ _ _ (Fld.ix_port_off_ne (by decide) hne)]
    exact he

theorem lptCounters_off_inj {f g : Fld} (hf : f ∈ lptCounters) (hg : g ∈ lptCounters) (h : f.off = g.off) : f = g :=
  List.inj_on_of_nodup_map (by decide : (lptCounters.map Fld.off).Nodup) hf hg h

theorem lptCounters_width {f : Fld} (hf : f ∈ lptCounters) : f.lo + f.w ≤ 64 := by
  revert f
  decide

theorem rd_lptCntClr {f : Fld} (hf : f ∈ lptCounters) (d : Dev) : (lptCntClr p d).rd (f.port p) = 0 := by
  unfold lptCntClr
  refine each_of_mem (P := fun e => e.rd (f.port p) = 0) hf (fun e => ?_) (fun g hg hne e he => ?_) d
  · exact Dev.rd_wr_zero (Fld.port_width (lptCounters_width hf))
  · rw [Dev.rd_wr_off _ _ _ _ (Fld.port_off_ne fun h => hne (lptCounters_off_inj hg hf h))]
    exact he

/-! ### Gate lists (R47, R119, R120) -/

theorem cycle_of_gatesLegal (h : d.gatesLegal p = true) : 1024 ≤ (d.stagedGates p).cycle := by
  simp only [Dev.gatesLegal, Bool.and_eq_true, decide_eq_true_eq] at h
  exact h.1.2

/-- The start that R47 chooses for the staged list. -/
abbrev Dev.gateStart (d : Dev) (p : ℕ) : ℕ :=
  nextBoundary ((d.stagedGates p).baseSec * 1000000000 + (d.stagedGates p).baseNs) (d.stagedGates p).cycle (d.gateNs + 2048)

/-- The staged list as the pending one. -/
def Dev.gatesPend (d : Dev) (p : ℕ) : Dev :=
  d.updLp p fun x => { x with gclPending := some (d.stagedGates p), gclStart := nsPair (d.gateStart p) }

theorem gclCommit_of_legal (h : d.gatesLegal p = true) :
    gclCommit m p d = (d.gatesPend p).wr (F.LPT_GCL_CTRL_PENDING.port p) 1 := by
  rw [gclCommit, h]
  rfl

theorem gclCommit_of_illegal (h : d.gatesLegal p = false) :
    gclCommit m p d = d.post Ev.LPT_CFG_REFUSED [(24, 1, p), (25, 1, 1), (26, 1, m)] := if_pos h

theorem lp_gatesPend (d : Dev) (p : ℕ) :
    (d.gatesPend p).lp p = { d.lp p with gclPending := some (d.stagedGates p), gclStart := nsPair (d.gateStart p) } := lp_updLp_same ..

theorem gclCommit_spec (h : d.gatesLegal p = true) :
    ((gclCommit m p d).lp p).gclPending = some (d.stagedGates p) ∧ (gclCommit m p d).on (F.LPT_GCL_CTRL_PENDING.port p) = true ∧
      (gclCommit m p d).posted = d.posted ∧
      d.gateNs + 2048 ≤ ((gclCommit m p d).lp p).gclStart.1 * 1000000000 + ((gclCommit m p d).lp p).gclStart.2 := by
  rw [gclCommit_of_legal h, lp_wr, lp_gatesPend]
  refine ⟨rfl, Dev.on_wr_one _ _ (Fld.port_width (by decide)) rfl, rfl, ?_⟩
  dsimp only
  rw [nsPair_join]
  exact le_nextBoundary (Nat.lt_of_lt_of_le (by decide) (cycle_of_gatesLegal h))

/-- The instant at which the pending list starts. -/
abbrev LptPort.startNs (x : LptPort) : ℕ := x.gclStart.1 * 1000000000 + x.gclStart.2

/-- The port as its pending list `g` begins to run. -/
abbrev LptPort.started (x : LptPort) (g : GateList) : LptPort :=
  { x with gclRun := some g, gclPending := none, gclIdx := 0, gclAt := x.startNs, hold := g.enable && holdAfter x.hold (g.entries[0]?) }

/-- The registers as a list `g` starts: the base reads the start. -/
def Dev.gatesStarted (d : Dev) (p : ℕ) (g : GateList) : Dev :=
  (((d.setLp p ((d.lp p).started g)).wr (F.LPT_GCL_BASE_SEC.port p) (d.lp p).gclStart.1).wr (F.LPT_GCL_BASE_NS_NS.port p)
    (d.lp p).gclStart.2).wr (F.LPT_GCL_CTRL_PENDING.port p) 0

theorem gclStart_of_reached {g : GateList} (hg : (d.lp p).gclPending = some g) (ht : (d.lp p).startNs < d.gateEndNs) :
    gclStart p d = ((d.gatesStarted p g).post Ev.LPT_GCL_START
      [(24, 1, p), (25, 1, if g.baseSec * 1000000000 + g.baseNs = (d.lp p).startNs then 0 else 1), (32, 6, (d.lp p).gclStart.1),
       (40, 4, (d.lp p).gclStart.2)]).settle := by
  rw [gclStart]
  dsimp only
  rw [hg]
  exact if_neg (Nat.not_le.2 ht)

theorem lp_gatesStarted (d : Dev) (p : ℕ) (g : GateList) : (d.gatesStarted p g).lp p = (d.lp p).started g := by
  rw [Dev.gatesStarted, lp_wr, lp_wr, lp_wr, lp_setLp_same]

theorem off_gatesStarted (d : Dev) (p : ℕ) (g : GateList) : (d.gatesStarted p g).on (F.LPT_GCL_CTRL_PENDING.port p) = false :=
  Dev.off_wr_zero _ _ (Fld.port_width (by decide))

theorem posted_gatesStarted (d : Dev) (p : ℕ) (g : GateList) : (d.gatesStarted p g).posted = d.posted := rfl

theorem rd_gatesStarted_ns (d : Dev) (p : ℕ) (g : GateList) :
    (d.gatesStarted p g).rd (F.LPT_GCL_BASE_NS_NS.port p) = (d.lp p).gclStart.2 % 2 ^ F.LPT_GCL_BASE_NS_NS.w := by
  rw [Dev.gatesStarted, Dev.rd_wr_off _ _ _ _ (Fld.port_off_ne (by decide)), Dev.rd_wr_same _ _ _ (Fld.port_width (by decide))]
  rfl

/-- What the start of a list leaves, and the one event that tells it. -/
theorem gclStart_spec {g : GateList} (hg : (d.lp p).gclPending = some g) (ht : (d.lp p).startNs < d.gateEndNs) :
    (gclStart p d).lp p = (d.lp p).started g ∧ (gclStart p d).on (F.LPT_GCL_CTRL_PENDING.port p) = false ∧
      Posts d (gclStart p d) [Ev.LPT_GCL_START] ∧
      (gclStart p d).rd (F.LPT_GCL_BASE_NS_NS.port p) = (d.lp p).gclStart.2 % 2 ^ F.LPT_GCL_BASE_NS_NS.w := by
  rw [gclStart_of_reached hg ht, lp_settle, (within_settle _).on_eq rfl, (within_settle _).rd_eq rfl, Posts,
    (within_settle _).1 .posted (by decide), ← posted_gatesStarted d p g, lp_post, Dev.on_post,
    Dev.rd_post]
  exact ⟨lp_gatesStarted d p g, off_gatesStarted d p g, posts_post (d.gatesStarted p g) _ _,
    rd_gatesStarted_ns d p g⟩

/-- The next entry of a cyclic list. -/
theorem next_index {i n : ℕ} (h : i < n) : (if i + 1 < n then i + 1 else 0) = (i + 1) % n := by
  split
  · exact (Nat.mod_eq_of_lt ‹_›).symm
  · rw [show i + 1 = n by omega, Nat.mod_self]

/-- The entry in force is over: the next one applies from there on. -/
theorem gateEntryAdvance_of_ended {g : GateList} {w : Word} {n : ℕ} (hg : (d.lp p).gclRun = some g) (he : g.enable = true)
    (hl : (gateSpans g.cycle g.entries)[(d.lp p).gclIdx]? = some (w, n)) (ht : (d.lp p).gclAt + n < d.gateEndNs) :
    ((gateEntryAdvance p d).lp p).gclAt = (d.lp p).gclAt + n ∧
      ((gateEntryAdvance p d).lp p).gclIdx = ((d.lp p).gclIdx + 1) % (gateSpans g.cycle g.entries).length := by
  have hgates : (d.lp p).gates = some g := by rw [LptPort.gates, hg]; exact if_pos he
  obtain ⟨hidx, -⟩ := List.getElem?_eq_some_iff.1 hl
  rw [gateEntryAdvance]
  dsimp only
  rw [hgates]
  dsimp only
  rw [hl]
  dsimp only
  rw [if_neg (Nat.not_le.2 ht), lp_settle, lp_setLp_same]
  exact ⟨rfl, next_index hidx⟩

/-! ### The verify exchange (R123) -/

theorem preemptVerify_spec {ok : Bool} (hv : d.rd (F.LPT_PREEMPT_VERIFY_STATE.port p) = 1) (hu : d.linkUp p = true) :
    (preemptVerify p ok d).rd (F.LPT_PREEMPT_VERIFY_STATE.port p) = (if ok then 2 else 3) ∧
      Posts d (preemptVerify p ok d) [Ev.LPT_PREEMPT_VERIFY] := by
  rw [preemptVerify, if_pos ⟨hv, hu⟩]
  dsimp only
  refine ⟨?_, posts_post (d.wr (F.LPT_PREEMPT_VERIFY_STATE.port p) _) _ _⟩
  rw [Dev.rd_post, Dev.rd_wr_same _ _ _ (Fld.port_width (by decide))]
  cases ok <;> rfl

end

/-- Settles O16: each command by the case it meets. -/
theorem lineAndGateConfigCommandsComplete : Obligations.LineAndGateConfigCommandsComplete := by
  unfold Obligations.LineAndGateConfigCommandsComplete
  refine ⟨fun s m p data hw hp hdown hperm => .of_onReg rfl hw ?_,
    fun s m p data hw hp hperm => .of_onReg rfl hw ?_,
    fun s m p hw hv => .of_onReg rfl hw (msecSaInstall_of_free (d := s.dev.noAbort) hv),
    fun s m p hw => .of_onReg rfl hw ⟨msecSaRetire_valid s.dev.noAbort p.val, fun n hn => msecSaRetire_key s.dev.noAbort hn⟩,
    fun s m p hw => .of_onReg rfl hw ?_,
    fun s m p hw => .of_onReg rfl hw fun f hf => rd_lptCntClr hf s.dev.noAbort,
    fun s m p hw hl => .of_onReg rfl hw (gclCommit_spec (d := s.dev.noAbort) hl),
    fun s m p hw hl => .of_onReg rfl hw ?_,
    fun s p g hg ht => .of_exec rfl ?_,
    fun s p g w n hg he hl ht => .of_exec rfl (gateEntryAdvance_of_ended hg he hl ht),
    fun s p ok hv hu => .of_exec rfl (preemptVerify_spec hv hu)⟩
  · rw [laneMapWrite_rx (d := s.dev.noAbort) hp hdown hperm]
    exact ⟨(Dev.rd_wr_same _ _ _ (Fld.port_width (by decide))).trans (Nat.mod_eq_of_lt data.isLt), rfl⟩
  · rw [laneMapWrite_of_no_permutation (d := s.dev.noAbort) hp hperm]
    exact ⟨rfl, posts_post s.dev.noAbort _ _⟩
  · rw [txtsPop, lp_updLp_same]
    rfl
  · rw [gclCommit_of_illegal (d := s.dev.noAbort) hl]
    exact ⟨rfl, posts_post s.dev.noAbort _ _⟩
  · obtain ⟨hlp, hoff, hposts, hns⟩ := gclStart_spec hg ht
    rw [hlp]
    exact ⟨rfl, rfl, rfl, hoff, hposts, hns⟩

end Sys2Proof.Machine
end

