-- ==== Sys2Proof/Proofs/StrokeCommands.lean ====
section
/-! PROOF. The strokes of a pier (R58, R59, R130, R133, R134, R387, R390, R391): what each claimant of an issue slot leaves in its queue,
and where the stroke's exit takes the packet. -/

namespace Sys2Proof.Machine

section
variable {d e : Dev} {p o : ℕ}

/-! ### What a step keeps for a stroke -/

theorem Within.liveTag_eq {S : Scope} (h : Within S d e) (hf : S.has (F.TIM_EPOCH_EPOCH.off % 0x20000000) = false) :
    e.liveTag = d.liveTag := by
  rw [Dev.liveTag, Dev.liveTag, h.rd_eq hf]

theorem expired_of_same (ht : e.tim = d.tim) (hl : e.liveTag = d.liveTag) (t : ℕ) : e.expired t = d.expired t := by
  rw [Dev.expired, Dev.expired, ht, hl]

theorem bankImage_of_same (hi : e.img = d.img) (hr : ∀ f, e.rd f = d.rd f) (t : ℕ) : e.bankImage t = d.bankImage t := by
  rw [Dev.bankImage, Dev.bankImage, Dev.bankSlot, Dev.bankSlot, Dev.slotImage, Dev.slotImage, hi, hr, Dev.liveTag, Dev.liveTag, hr]

theorem pierImage_of_same (hi : e.img = d.img) (hr : ∀ f, e.rd f = d.rd f) (t : ℕ) : e.pierImage p t = d.pierImage p t := by
  rw [Dev.pierImage, Dev.pierImage, hi, bankImage_of_same hi hr, Dev.slotImage, Dev.slotImage, hi, Dev.liveTag, Dev.liveTag, hr, hr]

theorem frameMd_of_same (h : e.liveTag = d.liveTag) (f : RxFrame) : e.frameMd f = d.frameMd f := by rw [Dev.frameMd, Dev.frameMd, h]

theorem lp_of_same (h : e.lpt = d.lpt) (n : ℕ) : e.lp n = d.lp n := by rw [Dev.lp, Dev.lp, h]

theorem rxQueue_of_same (h : e.lpt = d.lpt) : e.rxQueue o = d.rxQueue o := by rw [Dev.rxQueue, Dev.rxQueue, h]

theorem ssQueue_of_same (h : e.pir = d.pir) : e.ssQueue p = d.ssQueue p := by rw [Dev.ssQueue, Dev.ssQueue, h]

theorem injectQueue_of_same (h : e.pir.inject = d.pir.inject) : e.injectQueue o = d.injectQueue o := by
  rw [Dev.injectQueue, Dev.injectQueue, h]

theorem cwStopped_of_same (h : e.dgn = d.dgn) (n : ℕ) : e.cwStopped n = d.cwStopped n := by rw [Dev.cwStopped, Dev.cwStopped, h]

/-! ### The exit of an ingress stroke (R133, R134) -/

section
variable {fcs : Option ℕ} {st : Stroke} {q : Packet}

theorem ingressExit_of_drop (h : st.pkt.get Md.drop = 1) : d.ingressExit p o fcs st = d.strokeDrop fcs st.pkt := if_pos h

theorem ingressExit_of_recirc (h : st.pkt.get Md.drop ≠ 1) (hr : st.recirc = true) :
    d.ingressExit p o fcs st = d.recirc p fcs st.pkt := (if_neg h).trans (if_pos hr)

theorem ingressExit_of_toTm (h : st.pkt.get Md.drop ≠ 1) (hr : st.recirc = false) :
    d.ingressExit p o fcs st = (d.decided fcs st.pkt).toTm o st.pkt :=
  (if_neg h).trans (if_neg (by rw [hr]; exact Bool.false_ne_true))

theorem lpt_ingressExit (hp : p < 17) : (d.ingressExit p o fcs st).lpt = d.lpt :=
  (Within.ingressExit (S := ⟨[.posted, .pir, .que, .twn], [5, 14], []⟩) .refl hp rfl).1 .lpt (by decide)

theorem within_decided (d : Dev) (fcs : Option ℕ) (q : Packet) : Within ⟨[.posted, .twn], [], []⟩ d (d.decided fcs q) := .decided .refl rfl

theorem within_strokeDrop (d : Dev) (fcs : Option ℕ) (q : Packet) : Within ⟨[.posted, .twn], [14], []⟩ d (d.strokeDrop fcs q) :=
  .strokeDrop .refl rfl

/-- A dropped packet does not reach the TM. -/
theorem que_ingressExit_of_drop (h : st.pkt.get Md.drop = 1) : (d.ingressExit p o fcs st).que = d.que := by
  rw [ingressExit_of_drop h]
  exact (within_strokeDrop _ _ _).1 .que (by decide)

theorem toTm_of_open (h : d.cwStopped 0 = false) :
    d.toTm o q = { d with que := { d.que with arrivals := d.que.arrivals ++ [⟨o, d.reachPkt 1 q⟩] } } := by
  rw [Dev.toTm, h]
  rfl

/-- A packet neither dropped nor recirculated goes to the TM with its bytes. -/
theorem arrivals_ingressExit_of_toTm (h : st.pkt.get Md.drop ≠ 1) (hr : st.recirc = false) (hc : d.cwStopped 0 = false) :
    ∃ q, (d.ingressExit p o fcs st).que.arrivals = d.que.arrivals ++ [⟨o, q⟩] ∧ q.bytes = st.pkt.bytes := by
  have hd := within_decided d fcs st.pkt
  rw [ingressExit_of_toTm h hr, toTm_of_open ((cwStopped_of_same (hd.1 .dgn (by decide)) 0).trans hc)]
  exact ⟨(d.decided fcs st.pkt).reachPkt 1 st.pkt, congrArg (fun x : Que => x.arrivals ++ _) (hd.1 .que (by decide)), rfl⟩

theorem pir_ingressExit_of_toTm (h : st.pkt.get Md.drop ≠ 1) (hr : st.recirc = false) : (d.ingressExit p o fcs st).pir = d.pir := by
  rw [ingressExit_of_toTm h hr]
  exact (Within.toTm (S := ⟨[.posted, .twn, .que], [], []⟩) (.decided .refl rfl) rfl).1 .pir (by decide)

/-- The packet that waits for its second stroke: one stroke more, and the marks of a stroke cleared. -/
def Packet.again (q : Packet) : Packet := ((q.setMd Md.strokeCount (q.get Md.strokeCount + 1)).setMd Md.runBits 0).setMd Md.parseErr 0

theorem again_bytes (q : Packet) : q.again.bytes = q.bytes := rfl

theorem again_strokeCount (h : q.get Md.strokeCount < 3) : q.again.get Md.strokeCount = q.get Md.strokeCount + 1 := by
  rw [Packet.again, Packet.get, Packet.setMd, mdGet_mdSet_beside _ _ _ _ (by decide) (by decide) (by decide), Packet.setMd,
    mdGet_mdSet_beside _ _ _ _ (by decide) (by decide) (by decide), Packet.setMd, mdGet_mdSet_same _ _ _ (by decide)]
  exact Nat.mod_eq_of_lt (show q.get Md.strokeCount + 1 < 4 by omega)

theorem again_runBits (q : Packet) : q.again.get Md.runBits = 0 := by
  rw [Packet.again, Packet.get, Packet.setMd, mdGet_mdSet_beside _ _ _ _ (by decide) (by decide) (by decide), Packet.setMd,
    mdGet_mdSet_same _ _ _ (by decide)]
  exact Nat.zero_mod _

theorem again_parseErr (q : Packet) : q.again.get Md.parseErr = 0 := by
  rw [Packet.again, Packet.get, Packet.setMd, mdGet_mdSet_same _ _ _ (by decide)]
  exact Nat.zero_mod _

/-- Within its limits a packet recirculates. -/
theorem recirc_of_room (h : q.get Md.strokeCount < 3) (hn : (d.ssQueue p).length < 1024) (hb : d.ssBytes p + q.bytes.length ≤ 4194304) :
    d.recirc p fcs q = d.setSs p (d.ssQueue p ++ [{ pkt := q.again, fcs := fcs }]) :=
  (if_neg h.ne).trans (if_neg (not_or.2 ⟨Nat.not_le.2 hn, Nat.not_lt.2 hb⟩))

theorem ssQueue_setSs_same (d : Dev) (p : ℕ) (l : List SsEntry) : (d.setSs p l).ssQueue p = l := SMap.get_set_same ..

/-- No exit touches the inject queues. -/
theorem inject_ingressExit : (d.ingressExit p o fcs st).pir.inject = d.pir.inject := by
  by_cases h : st.pkt.get Md.drop = 1
  · rw [ingressExit_of_drop h, (within_strokeDrop _ _ _).1 .pir (by decide)]
  cases hr : st.recirc with
  | false => rw [pir_ingressExit_of_toTm h hr]
  | true =>
    have hdrop : ∀ (f : Fld) l x, (((d.bump (f.pier p)).post Ev.PIR_SS_DROP l).strokeDrop fcs x).pir = d.pir := fun f l x =>
      (within_strokeDrop _ _ _).1 .pir (by decide)
    rw [ingressExit_of_recirc h hr, Dev.recirc]
    dsimp only
    split
    · rw [hdrop]
    split
    · rw [hdrop]
    · rfl

end

/-! ### The claimants of an issue slot (R130) -/

/-- Pier `p` serves octet `o`, and its ingress strokes may start. -/
structure Dev.IngressOpen (d : Dev) (p o : ℕ) : Prop where
  forwards : d.forwarding = true
  runs : d.pierHalted p = false
  crosses : d.cwStopped 0 = false
  serves : d.octetOf p = some o
  stays : d.octetStopped o = false

theorem Dev.IngressOpen.starts (h : d.IngressOpen p o) : ¬ (d.forwarding = false ∨ d.pierHalted p = true ∨ d.cwStopped 0 = true) := by
  simp [h.forwards, h.runs, h.crosses]

/-! ### Line frames -/

theorem rxQueue_rxPop {f : RxFrame} {rest : List RxFrame} (h : d.rxQueue o = f :: rest) : (d.rxPop o).rxQueue o = rest := by
  unfold Dev.rxQueue at h
  unfold Dev.rxPop
  cases hs : d.lpt.step.get (fun _ => []) o with
  | nil =>
    rw [hs, List.nil_append] at h
    simp [Dev.rxQueue, SMap.upd, SMap.get_set_same, hs, h]
  | cons x xs =>
    rw [hs, List.cons_append, List.cons.injEq] at h
    simp [Dev.rxQueue, SMap.upd, SMap.get_set_same, hs, h.2]

theorem within_frameTaken (d : Dev) (p o : ℕ) : Within ⟨[.lpt, .pir], [], []⟩ d ((d.rxPop o).issueSlot p false) :=
  .issueSlot (.rxPop .refl rfl) rfl

theorem lpt_ingressAt (hp : p < 17) : (ingressAt d p o).lpt = (d.rxPop o).lpt :=
  (Within.bump (S := ⟨[.pir], [5], []⟩) (.issueSlot .refl rfl) (has_pier hp rfl)).1 .lpt (by decide)

theorem ssQueue_issueSlot (d : Dev) (p n : ℕ) (ss : Bool) : (d.issueSlot p ss).ssQueue n = d.ssQueue n := rfl

theorem ssQueue_bump (d : Dev) (f : Fld) (n : ℕ) : (d.bump f).ssQueue n = d.ssQueue n := rfl

theorem ssQueue_ingressAt (d : Dev) (p o n : ℕ) : (ingressAt d p o).ssQueue n = d.ssQueue n := by
  rw [ingressAt, ssQueue_bump, ssQueue_issueSlot]
  exact ssQueue_of_same ((Within.rxPop (S := ⟨[.lpt], [], []⟩) .refl rfl).1 .pir (by decide))

/-- The stroke of a line frame. -/
abbrev Dev.frameStroke (d : Dev) (p o : ℕ) (f : RxFrame) : Stroke × Dev :=
  (ingressAt d p o).stroke p 0 (d.rd (F.PIR_PARSE_CFG_ING_START.pier p)) { bytes := f.bytes, md := d.frameMd f, tsHeld := f.tsHeld }

theorem ingressStroke_of_frame {f : RxFrame} {rest : List RxFrame} (h : d.IngressOpen p o) (hc : d.copiedWait p = false)
    (hq : d.rxQueue o = f :: rest) :
    ingressStroke p d = (d.frameStroke p o f).2.ingressExit p o (some f.fcs) (d.frameStroke p o f).1 := by
  have hw := within_frameTaken d p o
  unfold ingressStroke
  rw [if_neg h.starts, h.serves]
  dsimp only
  rw [if_neg (by simp [h.stays, hc]), hq]
  dsimp only
  rw [hw.rd_eq rfl, frameMd_of_same (hw.liveTag_eq rfl), Dev.frameStroke, ingressAt]

theorem within_frameStroke (d : Dev) (hp : p < 17) (f : RxFrame) :
    Within ⟨[.posted, .tbl, .lpt, .pir], [5, 6], []⟩ d (d.frameStroke p o f).2 := .stroke (.ingressAt .refl hp rfl) hp rfl

theorem within_frameStroke_taken (d : Dev) (hp : p < 17) (f : RxFrame) :
    Within ⟨[.posted, .tbl], [5, 6], []⟩ (ingressAt d p o) (d.frameStroke p o f).2 := .stroke .refl hp rfl

theorem ssQueue_frameStroke (d : Dev) (hp : p < 17) (f : RxFrame) : (d.frameStroke p o f).2.ssQueue p = d.ssQueue p :=
  (ssQueue_of_same ((within_frameStroke_taken d hp f).1 .pir (by decide))).trans (ssQueue_ingressAt d p o p)

/-- The frame has left the buffer it waited in. -/
theorem rxQueue_ingressStroke {f : RxFrame} {rest : List RxFrame} (hp : p < 17) (h : d.IngressOpen p o) (hc : d.copiedWait p = false)
    (hq : d.rxQueue o = f :: rest) : (ingressStroke p d).rxQueue o = rest := by
  rw [ingressStroke_of_frame h hc hq, rxQueue_of_same (lpt_ingressExit hp),
    rxQueue_of_same ((within_frameStroke_taken d hp f).1 .lpt (by decide)), rxQueue_of_same (lpt_ingressAt hp), rxQueue_rxPop hq]

/-- A frame recirculated waits for its second stroke. -/
theorem ssQueue_ingressStroke_of_recirc {f : RxFrame} {rest : List RxFrame} (hp : p < 17) (h : d.IngressOpen p o)
    (hc : d.copiedWait p = false) (hq : d.rxQueue o = f :: rest) (hdrop : (d.frameStroke p o f).1.pkt.get Md.drop ≠ 1)
    (hr : (d.frameStroke p o f).1.recirc = true) (hn : (d.frameStroke p o f).1.pkt.get Md.strokeCount < 3)
    (hroom : (d.ssQueue p).length < 1024) (hbytes : d.ssBytes p + (d.frameStroke p o f).1.pkt.bytes.length ≤ 4194304) :
    (ingressStroke p d).ssQueue p = d.ssQueue p ++ [{ pkt := (d.frameStroke p o f).1.pkt.again, fcs := some f.fcs }] := by
  have hss := ssQueue_frameStroke (o := o) d hp f
  rw [ingressStroke_of_frame h hc hq, ingressExit_of_recirc hdrop hr, recirc_of_room hn (by rwa [hss]) (by rwa [Dev.ssBytes, hss]),
    ssQueue_setSs_same, hss]

/-! ### Injected packets (R387, R390) -/

section
variable {n : ℕ} {x : Packet} {rest : List Packet}

/-- The device as an injected packet takes its issue slot. -/
def Dev.injectTaken (d : Dev) (p o : ℕ) (rest : List Packet) : Dev :=
  { d with pir := { d.pir with inject := d.pir.inject.set (fun _ => []) o rest } }.issueSlot p false

/-- And with the descriptor of inject queue `n` completed. -/
def Dev.injectReady (d : Dev) (p o n : ℕ) (rest : List Packet) : Dev := (d.injectTaken p o rest).injectDone n

/-- The stroke of an injected packet. -/
def Dev.injectStroke (d : Dev) (p o n : ℕ) (x : Packet) (rest : List Packet) : Stroke × Dev :=
  (((d.injectReady p o n rest).setTurn p 1).bump (F.PIR_INJ_STROKES.pier p)).stroke p 0
    ((d.injectReady p o n rest).rd (F.PIR_PARSE_CFG_INJ_START.pier p))
    ({ x with back := none }.setMd Md.bankTag (d.injectReady p o n rest).liveTag)

theorem ingressStroke_of_injected (h : d.IngressOpen p o) (hss : d.ssQueue p = []) (hrx : d.rxQueue o = [])
    (hi : d.injectQueue o = x :: rest) (hb : x.back = some n) :
    ingressStroke p d = (d.injectStroke p o n x rest).2.ingressExit p o none (d.injectStroke p o n x rest).1 := by
  have hc : d.copiedWait p = false := by rw [Dev.copiedWait, hss]; rfl
  unfold ingressStroke
  rw [if_neg h.starts, h.serves]
  dsimp only
  rw [if_neg (by simp [h.stays, hc]), hrx]
  dsimp only
  rw [hi]
  dsimp only
  rw [if_neg fun hne => hne.1 hss, hb]
  rfl

theorem injectQueue_injectTaken (d : Dev) (p o : ℕ) (rest : List Packet) : (d.injectTaken p o rest).injectQueue o = rest := SMap.get_set_same ..

/-- The completion of a fetched descriptor. -/
theorem injectDone_spec {flags : ℕ} (hn : n < 16) (hf : d.hst.fetched.get (fun _ => none) n = some flags) :
    (d.injectDone n).hst.fetched.get (fun _ => none) n = none ∧
      (d.injectDone n).rd (F.HST_IQ_HEAD_INDEX.ix n) = (d.rd (F.HST_IQ_HEAD_INDEX.ix n) + 1) % 65536 := by
  have hraise : ∀ (c : Bool) (e : Dev) (v : ℕ), (e.when c (·.raiseVector 1 v)).hst.fetched = e.hst.fetched ∧
      (e.when c (·.raiseVector 1 v)).rd (F.HST_IQ_HEAD_INDEX.ix n) = e.rd (F.HST_IQ_HEAD_INDEX.ix n) := fun c e v => by
    cases c <;> exact ⟨rfl, rfl⟩
  rw [Dev.injectDone, hf]
  dsimp only
  rw [(hraise _ _ _).1, (hraise _ _ _).2, Dev.wrIx_hst, Dev.wrIx_of_lt _ _ _ hn, Dev.rd_wr_same _ _ _ (by exact (by decide : 16 ≤ 64))]
  exact ⟨SMap.get_set_same (α := Option ℕ) (fun _ => none) d.hst.fetched n none, rfl⟩

theorem rd_strokeDrop_injected {f : Fld} (q : Packet) (hf : f.off < 0x14004000) : (d.strokeDrop none q).rd f = d.rd f := by
  refine Dev.rd_wr_off d (F.HST_DROP_CNT.ix (q.get Md.dropReason % 256)) f _ ?_
  simp only [Fld.ix, F.HST_DROP_CNT]
  omega

/-- The exit of an injected packet writes no register of the inject queues. -/
theorem rd_ingressExit_injected {f : Fld} {st : Stroke} (hp : p < 17) (hlo : 0x14000000 ≤ f.off) (hhi : f.off < 0x14004000) :
    (d.ingressExit p o none st).rd f = d.rd f := by
  by_cases h : st.pkt.get Md.drop = 1
  · rw [ingressExit_of_drop h, rd_strokeDrop_injected _ hhi]
  cases hr : st.recirc with
  | false =>
    rw [ingressExit_of_toTm h hr]
    exact (Within.toTm (S := ⟨[.que], [], []⟩) .refl rfl).rd_eq rfl
  | true =>
    have hbump : ∀ g : Fld, g.off < 0x8100000 → (d.bump (g.pier p)).rd f = d.rd f := fun g hg =>
      Dev.rd_wr_off d (g.pier p) f _ (by simp only [Fld.pier]; omega)
    rw [ingressExit_of_recirc h hr, Dev.recirc]
    dsimp only
    split
    · rw [rd_strokeDrop_injected _ hhi, Dev.rd_post, hbump _ (by decide)]
    split
    · rw [rd_strokeDrop_injected _ hhi, Dev.rd_post, hbump _ (by decide)]
    · rfl

theorem within_injectStroke (d : Dev) (hp : p < 17) :
    Within ⟨[.posted, .tbl, .pir], [5, 6], []⟩ (d.injectReady p o n rest) (d.injectStroke p o n x rest).2 :=
  .stroke (.bump (.setTurn .refl rfl) (has_pier hp rfl)) hp rfl

theorem injectQueue_injectStroke (d : Dev) (hp : p < 17) : (d.injectStroke p o n x rest).2.injectQueue o = rest := by
  have hstroke : (d.injectStroke p o n x rest).2.pir = ((d.injectReady p o n rest).setTurn p 1).pir :=
    (Within.stroke (S := ⟨[.posted, .tbl], [5, 6], []⟩) (.bump .refl (has_pier hp rfl)) hp rfl).1 .pir (by decide)
  have hdone : (d.injectReady p o n rest).pir = (d.injectTaken p o rest).pir :=
    (Within.injectDone (S := ⟨[.hostMem, .hst], [14], []⟩) .refl rfl).1 .pir (by decide)
  have hturn : ((d.injectReady p o n rest).setTurn p 1).pir.inject = (d.injectTaken p o rest).pir.inject := by rw [Dev.setTurn, hdone]
  rw [injectQueue_of_same (d := d.injectTaken p o rest) (by rw [hstroke, hturn])]
  exact injectQueue_injectTaken d p o rest

theorem iqHead_beside_stroke (hn : n < 16) :
    Scope.has ⟨[.posted, .tbl, .pir], [5, 6], []⟩ ((F.HST_IQ_HEAD_INDEX.ix n).off % 0x20000000) = false := by
  revert n
  decide

/-- What an injected packet's slot leaves of its queue and its descriptor. -/
theorem ingressStroke_of_injected_spec {flags : ℕ} (hp : p < 17) (h : d.IngressOpen p o) (hss : d.ssQueue p = []) (hrx : d.rxQueue o = [])
    (hi : d.injectQueue o = x :: rest) (hb : x.back = some n) (hn : n < 16) (hf : d.hst.fetched.get (fun _ => none) n = some flags) :
    (ingressStroke p d).injectQueue o = rest ∧ (ingressStroke p d).hst.fetched.get (fun _ => none) n = none ∧
      (ingressStroke p d).rd (F.HST_IQ_HEAD_INDEX.ix n) = (d.rd (F.HST_IQ_HEAD_INDEX.ix n) + 1) % 65536 := by
  have hs := within_injectStroke (x := x) (o := o) (n := n) (rest := rest) d hp
  have hx := Within.ingressExit (S := ⟨[.posted, .pir, .que, .twn], [5, 14], []⟩) (d := (d.injectStroke p o n x rest).2) (o := o) (fcs := none)
    (st := (d.injectStroke p o n x rest).1) .refl hp rfl
  obtain ⟨hfetched, hhead⟩ := injectDone_spec (d := d.injectTaken p o rest) hn hf
  rw [ingressStroke_of_injected h hss hrx hi hb, injectQueue_of_same inject_ingressExit, injectQueue_injectStroke d hp,
    hx.1 .hst (by decide), hs.1 .hst (by decide), rd_ingressExit_injected hp _ _, hs.rd_eq (iqHead_beside_stroke hn)]
  · exact ⟨rfl, hfetched, hhead⟩
  · simp only [Fld.ix, F.HST_IQ_HEAD_INDEX]
    omega
  · simp only [Fld.ix, F.HST_IQ_HEAD_INDEX]
    omega

end

/-! ### Second strokes (R59, R100, R130, R134) -/

section
variable {x : SsEntry} {rest : List SsEntry}

/-- The second stroke is the claimant whose turn it is. -/
structure Dev.SecondTurn (d : Dev) (p o : ℕ) : Prop extends d.IngressOpen p o where
  allowed : d.ssBarred p = false
  turn : d.copiedWait p = true ∨ (d.rxQueue o = [] ∧ (d.injectQueue o = [] ∨ d.hadTurn p 2 = false))

/-- The device with the entry taken out of its queue. -/
def Dev.secondTaken (d : Dev) (p : ℕ) (rest : List SsEntry) : Dev := (d.setSs p rest).setTurn p 2

theorem Dev.SecondTurn.issues (h : d.SecondTurn p o) : ¬ (d.octetStopped o = true ∨ d.ssBarred p = true ∨
    (d.copiedWait p = false ∧ (d.rxQueue o ≠ [] ∨ (d.injectQueue o ≠ [] ∧ d.hadTurn p 2 = true)))) := by
  rw [h.stays, h.allowed]
  rcases h.turn with hc | ⟨hrx, hi | ht⟩
  · simp [hc]
  · simp [hrx, hi]
  · simp [hrx, ht]

/-- A second stroke by its entry: one that does not read, one of an expired epoch, and one whose stroke runs. -/
theorem secondStroke_eq (h : d.SecondTurn p o) (hq : d.ssQueue p = x :: rest) :
    secondStroke p d =
      if x.bad then (d.secondTaken p rest).dropCount Drop.pierRetired
      else if (d.secondTaken p rest).expired x.pkt.tag then (d.secondTaken p rest).dropExpired
      else ((secondAt d p rest).stroke p 0 (x.pkt.get Md.ssStart) x.pkt).2.ingressExit p o x.fcs
        ((secondAt d p rest).stroke p 0 (x.pkt.get Md.ssStart) x.pkt).1 := by
  unfold secondStroke
  rw [if_neg h.starts, h.serves]
  dsimp only
  rw [if_neg h.issues, hq]
  rfl

theorem ssQueue_secondTaken (d : Dev) (p : ℕ) (rest : List SsEntry) : (d.secondTaken p rest).ssQueue p = rest := ssQueue_setSs_same d p rest

theorem ssQueue_secondAt (d : Dev) (p : ℕ) (rest : List SsEntry) : (secondAt d p rest).ssQueue p = rest := ssQueue_setSs_same d p rest

theorem expired_secondTaken (d : Dev) (p : ℕ) (rest : List SsEntry) (t : ℕ) : (d.secondTaken p rest).expired t = d.expired t := rfl

theorem within_secondTaken (d : Dev) (p : ℕ) (rest : List SsEntry) : Within ⟨[.pir], [], []⟩ d (d.secondTaken p rest) :=
  .setTurn (.setSs .refl rfl) rfl

theorem within_dropExpired (d : Dev) : Within ⟨[.tim], [14], [F.TIM_EXPIRED_CNT.off]⟩ d d.dropExpired := .dropExpired .refl rfl

/-- A packet of an expired epoch is counted. -/
theorem rd_dropExpired (d : Dev) : d.dropExpired.rd F.TIM_EXPIRED_CNT = min (d.rd F.TIM_EXPIRED_CNT + 1) (2 ^ 64 - 1) := by
  have hcount : ((d.dropCount Drop.epochExpired).bump F.TIM_EXPIRED_CNT).rd F.TIM_EXPIRED_CNT =
      min (d.rd F.TIM_EXPIRED_CNT + 1) (2 ^ 64 - 1) := by
    rw [Dev.rd_bump_same _ _ (by decide), (Within.dropCount (S := ⟨[], [14], []⟩) .refl rfl).rd_eq rfl]
    rfl
  rw [Dev.dropExpired]
  dsimp only
  split <;> exact hcount

theorem secondStroke_of_bad (h : d.SecondTurn p o) (hq : d.ssQueue p = x :: rest) (hbad : x.bad = true) :
    (secondStroke p d).ssQueue p = rest ∧ (secondStroke p d).que.arrivals = d.que.arrivals ∧
      (secondStroke p d).rd (F.HST_DROP_CNT.ix Drop.pierRetired) = min (d.rd (F.HST_DROP_CNT.ix Drop.pierRetired) + 1) (2 ^ 64 - 1) := by
  rw [secondStroke_eq h hq, if_pos hbad]
  exact ⟨ssQueue_secondTaken d p rest, rfl, Dev.rd_bump_same (d.secondTaken p rest) (F.HST_DROP_CNT.ix Drop.pierRetired) (by decide)⟩

theorem secondStroke_of_expired (h : d.SecondTurn p o) (hq : d.ssQueue p = x :: rest) (hbad : x.bad = false)
    (hexp : d.expired x.pkt.tag = true) :
    (secondStroke p d).ssQueue p = rest ∧ (secondStroke p d).rd F.TIM_EXPIRED_CNT = min (d.rd F.TIM_EXPIRED_CNT + 1) (2 ^ 64 - 1) := by
  rw [secondStroke_eq h hq, hbad, if_neg Bool.false_ne_true, expired_secondTaken, if_pos hexp, rd_dropExpired,
    (within_secondTaken d p rest).rd_eq rfl, ssQueue_of_same ((within_dropExpired _).1 .pir (by decide))]
  exact ⟨ssQueue_secondTaken d p rest, rfl⟩

/-- The second stroke of an entry. -/
abbrev Dev.entryStroke (d : Dev) (p : ℕ) (x : SsEntry) (rest : List SsEntry) : Stroke × Dev :=
  (secondAt d p rest).stroke p 0 (x.pkt.get Md.ssStart) x.pkt

theorem within_entryStroke (d : Dev) (hp : p < 17) : Within ⟨[.posted, .tbl, .pir], [5, 6], []⟩ d (d.entryStroke p x rest).2 :=
  .stroke (.secondAt .refl hp rfl) hp rfl

theorem ssQueue_entryStroke (d : Dev) (hp : p < 17) : (d.entryStroke p x rest).2.ssQueue p = rest :=
  (ssQueue_of_same ((Within.stroke (S := ⟨[.posted, .tbl], [5, 6], []⟩) .refl hp rfl).1 .pir (by decide))).trans (ssQueue_secondAt d p rest)

theorem secondStroke_of_toTm (hp : p < 17) (h : d.SecondTurn p o) (hq : d.ssQueue p = x :: rest) (hbad : x.bad = false)
    (hexp : d.expired x.pkt.tag = false) (hdrop : (d.entryStroke p x rest).1.pkt.get Md.drop ≠ 1)
    (hr : (d.entryStroke p x rest).1.recirc = false) :
    (secondStroke p d).ssQueue p = rest ∧ ∃ q, (secondStroke p d).que.arrivals = d.que.arrivals ++ [⟨o, q⟩] ∧
      q.bytes = (d.entryStroke p x rest).1.pkt.bytes := by
  have hs := within_entryStroke (x := x) (rest := rest) d hp
  have hopen := (cwStopped_of_same (hs.1 .dgn (by decide)) 0).trans h.crosses
  rw [secondStroke_eq h hq, hbad, if_neg Bool.false_ne_true, expired_secondTaken, hexp, if_neg Bool.false_ne_true,
    ssQueue_of_same (pir_ingressExit_of_toTm hdrop hr), ssQueue_entryStroke d hp, ← hs.1 .que (by decide)]
  exact ⟨rfl, arrivals_ingressExit_of_toTm hdrop hr hopen⟩

end

/-! ### Egress strokes (R59, R114) -/

section
variable {q : Packet} {rest : List Packet}

/-- The device with the packet taken from the TM. -/
def Dev.egressTaken (d : Dev) (o : ℕ) (q : Packet) (rest : List Packet) : Dev :=
  { d with pir := { d.pir with egress := d.pir.egress.set (fun _ => []) o rest } }.updLp (q.get Md.egrPort)
    fun x => { x with pendingBytes := x.pendingBytes - q.bytes.length }

theorem within_egressTaken (d : Dev) (o : ℕ) (q : Packet) (rest : List Packet) : Within ⟨[.pir, .lpt], [], []⟩ d (d.egressTaken o q rest) :=
  .updLp (.set_pir .refl rfl) rfl

theorem egressQueue_of_same (h : e.pir = d.pir) : e.egressQueue o = d.egressQueue o := by rw [Dev.egressQueue, Dev.egressQueue, h]

theorem egressQueue_egressTaken (d : Dev) (o : ℕ) (q : Packet) (rest : List Packet) : (d.egressTaken o q rest).egressQueue o = rest :=
  SMap.get_set_same ..

theorem tx_egressTaken (d : Dev) (o : ℕ) (q : Packet) (rest : List Packet) :
    ((d.egressTaken o q rest).lp (q.get Md.egrPort)).tx = (d.lp (q.get Md.egrPort)).tx := by
  rw [Dev.egressTaken, lp_updLp_same]
  rfl

/-- The stroke of a packet from the TM. -/
abbrev Dev.egressRun (d : Dev) (p o : ℕ) (q : Packet) (rest : List Packet) : Stroke × Dev :=
  (egressAt d p o q rest).stroke p 1 (d.rd (F.PIR_PARSE_CFG_EGR_START.pier p))
    { q with md := keepReach (imageFields (d.pierImage p q.tag)) 3 q.md }

/-- An egress stroke by its packet: one of an expired epoch, and one whose stroke runs. -/
theorem egressStroke_eq (hf : d.forwarding = true) (hh : d.pierHalted p = false) (ho : d.octetOf p = some o)
    (hq : d.egressQueue o = q :: rest) :
    egressStroke p d =
      if d.expired q.tag then (d.egressTaken o q rest).dropExpired
      else if (d.egressRun p o q rest).1.pkt.get Md.drop = 1 then
        (d.egressRun p o q rest).2.dropCount ((d.egressRun p o q rest).1.pkt.get Md.dropReason)
      else match (d.egressRun p o q rest).1.punt with
        | some k => (d.egressRun p o q rest).2.toTm o (((d.egressRun p o q rest).1.pkt.setMd Md.destType 2).setMd Md.dest k)
        | none => (d.egressRun p o q rest).2.toLine (q.get Md.egrPort) (d.egressRun p o q rest).1.pkt := by
  have hw := within_egressTaken d o q rest
  have hrd : ∀ f, (d.egressTaken o q rest).rd f = d.rd f := fun f => hw.rd_eq rfl
  have hexp := expired_of_same (hw.1 .tim (by decide)) (hw.liveTag_eq rfl) q.tag
  have himg := pierImage_of_same (p := p) (hw.1 .img (by decide)) hrd q.tag
  unfold egressStroke
  rw [if_neg (by simp [hf, hh]), ho]
  dsimp only
  rw [hq, ← hexp]
  dsimp only
  change (if (d.egressTaken o q rest).expired q.tag = true then _ else _) = _
  refine if_congr Iff.rfl rfl ?_
  have hrun : (((d.egressTaken o q rest).bump (F.PIR_EGR_STROKES.pier p)).stroke p 1
      ((d.egressTaken o q rest).rd (F.PIR_PARSE_CFG_EGR_START.pier p))
      { q with md := keepReach (imageFields ((d.egressTaken o q rest).pierImage p q.tag)) 3 q.md }) = d.egressRun p o q rest := by
    rw [himg, hrd]
    rfl
  rw [← hrun]
  rfl

/-- A packet that needs neither a timestamp nor protection goes to the transmit buffer as it is. -/
theorem toLine_of_plain {port : ℕ} (hctl : q.get Md.ptpCtrl = 0) (hsec : d.on (F.LPT_MSEC_CTRL_TX_EN.port port) = false) :
    d.toLine port q = d.updLp port fun x => { x with tx := x.tx ++ [⟨q.bytes, q.cls, none⟩] } := by
  rw [Dev.toLine, hctl, hsec]
  rfl

theorem egressStroke_of_expired (hf : d.forwarding = true) (hh : d.pierHalted p = false) (ho : d.octetOf p = some o)
    (hq : d.egressQueue o = q :: rest) (hexp : d.expired q.tag = true) :
    (egressStroke p d).egressQueue o = rest ∧ (egressStroke p d).rd F.TIM_EXPIRED_CNT = min (d.rd F.TIM_EXPIRED_CNT + 1) (2 ^ 64 - 1) := by
  rw [egressStroke_eq hf hh ho hq, if_pos hexp, rd_dropExpired, (within_egressTaken d o q rest).rd_eq rfl,
    egressQueue_of_same ((within_dropExpired _).1 .pir (by decide))]
  exact ⟨egressQueue_egressTaken d o q rest, rfl⟩

theorem egressStroke_of_toLine (hp : p < 17) (hf : d.forwarding = true) (hh : d.pierHalted p = false) (ho : d.octetOf p = some o)
    (hq : d.egressQueue o = q :: rest) (hexp : d.expired q.tag = false) (hdrop : (d.egressRun p o q rest).1.pkt.get Md.drop ≠ 1)
    (hpunt : (d.egressRun p o q rest).1.punt = none) (hctl : (d.egressRun p o q rest).1.pkt.get Md.ptpCtrl = 0)
    (hsec : (d.egressRun p o q rest).2.on (F.LPT_MSEC_CTRL_TX_EN.port (q.get Md.egrPort)) = false) :
    (egressStroke p d).egressQueue o = rest ∧ ((egressStroke p d).lp (q.get Md.egrPort)).tx =
      (d.lp (q.get Md.egrPort)).tx ++ [⟨(d.egressRun p o q rest).1.pkt.bytes, (d.egressRun p o q rest).1.pkt.cls, none⟩] := by
  have hw : Within ⟨[.posted, .tbl], [5, 6], []⟩ (d.egressTaken o q rest) (d.egressRun p o q rest).2 :=
    .stroke (.bump .refl (has_pier hp rfl)) hp rfl
  have hline : Within ⟨[.lpt], [], []⟩ (d.egressRun p o q rest).2 ((d.egressRun p o q rest).2.updLp (q.get Md.egrPort)
      fun x => { x with tx := x.tx ++ [⟨(d.egressRun p o q rest).1.pkt.bytes, (d.egressRun p o q rest).1.pkt.cls, none⟩] }) :=
    .updLp .refl rfl
  rw [egressStroke_eq hf hh ho hq, hexp, if_neg Bool.false_ne_true, if_neg hdrop, hpunt]
  dsimp only
  rw [toLine_of_plain hctl hsec, lp_updLp_same, ← tx_egressTaken d o q rest, lp_of_same (hw.1 .lpt (by decide)),
    egressQueue_of_same (hline.1 .pir (by decide)), egressQueue_of_same (hw.1 .pir (by decide)), egressQueue_egressTaken]
  exact ⟨rfl, rfl⟩

end

end

/-- Settles O18: each stroke by its claimant and its exit. -/
theorem strokeCommandsComplete : Obligations.StrokeCommandsComplete := by
  unfold Obligations.StrokeCommandsComplete
  refine ⟨fun s p o f rest hfw hh hcw ho hrx hoc hcopy => ?_,
    fun s p o n flags x rest hfw hh hcw ho hoc hss hrx hi hb hn hf => ?_,
    fun s p o x rest hfw hh hcw ho hoc hbar hturn hq => ?_,
    fun s p o q rest hfw hh ho hq => ?_⟩
  · have hopen : s.dev.IngressOpen p o := ⟨hfw, hh, hcw, ho, hoc⟩
    have hrest := rxQueue_ingressStroke p.isLt hopen hcopy hrx
    have hs := within_frameStroke (o := o) s.dev p.isLt f
    refine ⟨fun hdrop => .of_exec rfl ⟨hrest, ?_⟩, fun hdrop hr => .of_exec rfl ⟨hrest, ?_⟩,
      fun hdrop hr hn hroom hbytes => .of_exec rfl ⟨hrest, _, ssQueue_ingressStroke_of_recirc p.isLt hopen hcopy hrx ?_ hr hn hroom hbytes,
        again_bytes _, again_strokeCount hn, again_runBits _, again_parseErr _⟩⟩
    · rw [ingressStroke_of_frame hopen hcopy hrx, que_ingressExit_of_drop hdrop, hs.1 .que (by decide)]
    · rw [ingressStroke_of_frame hopen hcopy hrx, ← hs.1 .que (by decide)]
      exact arrivals_ingressExit_of_toTm (ne_of_eq_of_ne hdrop zero_ne_one) hr ((cwStopped_of_same (hs.1 .dgn (by decide)) 0).trans hcw)
    · exact ne_of_eq_of_ne hdrop zero_ne_one
  · exact .of_exec rfl (ingressStroke_of_injected_spec p.isLt ⟨hfw, hh, hcw, ho, hoc⟩ hss hrx hi hb hn hf)
  · have hsecond : s.dev.SecondTurn p o := ⟨⟨hfw, hh, hcw, ho, hoc⟩, hbar, hturn⟩
    exact ⟨fun hbad => .of_exec rfl (secondStroke_of_bad hsecond hq hbad),
      fun hbad hexp => .of_exec rfl (secondStroke_of_expired hsecond hq hbad hexp),
      fun hbad hexp hdrop hr => .of_exec rfl
        (secondStroke_of_toTm p.isLt hsecond hq hbad hexp (ne_of_eq_of_ne hdrop zero_ne_one) hr)⟩
  · exact ⟨fun hexp => .of_exec rfl (egressStroke_of_expired hfw hh ho hq hexp),
      fun hexp hdrop hpunt hctl hsec => .of_exec rfl
        (egressStroke_of_toLine p.isLt hfw hh ho hq hexp (ne_of_eq_of_ne hdrop zero_ne_one) hpunt hctl hsec)⟩

end Sys2Proof.Machine
end

