-- ==== Sys2Proof/Proofs/Piers.lean ====
section
/-! PROOF. The status registers of the piers, and what a step that spares them keeps of the piers (R89, R93, R100, R367). -/

namespace Sys2Proof.Machine

variable {S : Scope} {a d e : Dev} {p : ℕ}

/-! ### The status registers -/

/-- The status registers of the piers. -/
def pierRegs : List ℕ := (List.range 17).map fun p => (F.IMG_PIER_STATUS_STATE.ix p).off

/-- A field of the status register of a pier. -/
def Fld.isPierStatus (f : Fld) : Prop := f.off = F.IMG_PIER_STATUS_STATE.off ∧ f.st = F.IMG_PIER_STATUS_STATE.st

theorem Fld.isPierStatus.off_ix {f : Fld} (h : f.isPierStatus) (p : ℕ) : (f.ix p).off = (F.IMG_PIER_STATUS_STATE.ix p).off := by
  rw [Fld.ix, h.1, h.2]
  rfl

theorem mem_pierRegs (hp : p < 17) : (F.IMG_PIER_STATUS_STATE.ix p).off ∈ pierRegs := List.mem_map_of_mem (List.mem_range.2 hp)

/-- A field of a pier's status is written in a scope that names these registers. -/
theorem Within.wrIx_pier {f : Fld} {x : ℕ} (hf : f.isPierStatus) (hd : Within S a d) (hS : ∀ r ∈ pierRegs, r ∈ S.regs) :
    Within S a (d.wrIx f 17 p x) := by
  obtain ⟨hp, e⟩ | ⟨-, e⟩ := d.wrIx_cases f 17 p x <;> rw [e]
  · refine hd.wr ?_
    rw [hf.off_ix]
    exact has_reg_ix hp rfl (hS _ (mem_pierRegs hp))
  · exact hd

/-- A scope that lets no pier's status change. -/
def Scope.sparesPiers (S : Scope) : Bool := pierRegs.all fun r => !S.has (r % 0x20000000)

theorem Within.reg_pier (h : Within S d e) (hS : S.sparesPiers) (hp : p < 17) :
    e.reg (F.IMG_PIER_STATUS_STATE.ix p).off = d.reg (F.IMG_PIER_STATUS_STATE.ix p).off :=
  h.2 _ (by simpa using List.all_eq_true.1 hS _ (mem_pierRegs hp))

theorem pierState_of_reg (h : e.reg (F.IMG_PIER_STATUS_STATE.ix p).off = d.reg (F.IMG_PIER_STATUS_STATE.ix p).off) :
    e.pierState p = d.pierState p := congrArg F.IMG_PIER_STATUS_STATE.read h

theorem serving_of_reg (h : e.reg (F.IMG_PIER_STATUS_STATE.ix p).off = d.reg (F.IMG_PIER_STATUS_STATE.ix p).off) :
    e.on (F.IMG_PIER_STATUS_SERVING.ix p) = d.on (F.IMG_PIER_STATUS_SERVING.ix p) :=
  congrArg (fun v => F.IMG_PIER_STATUS_SERVING.read v != 0) h

theorem octetOf_of_reg (h : e.reg (F.IMG_PIER_STATUS_STATE.ix p).off = d.reg (F.IMG_PIER_STATUS_STATE.ix p).off) :
    e.octetOf p = d.octetOf p :=
  congrArg (fun v => if F.IMG_PIER_STATUS_SERVING.read v != 0 then some (F.IMG_PIER_STATUS_OCTET.read v) else none) h

theorem Within.pierState_eq (h : Within S d e) (hS : S.sparesPiers) (hp : p < 17) : e.pierState p = d.pierState p :=
  pierState_of_reg (h.reg_pier hS hp)

theorem Within.octetOf_eq (h : Within S d e) (hS : S.sparesPiers) (hp : p < 17) : e.octetOf p = d.octetOf p :=
  octetOf_of_reg (h.reg_pier hS hp)

theorem Within.sparePier_eq (h : Within S d e) (hS : S.sparesPiers) : e.sparePier = d.sparePier := by
  refine List.find?_congr fun p hp => ?_
  rw [h.pierState_eq hS (List.mem_range.1 hp)]

/-- Registers that halt a pier (R413). -/
def haltRegs : List ℕ := [F.PWR_STATUS_SHED_STEP.off, F.PWR_SHED_GRP_A_OCTETS.off]

theorem Within.pierHalted_eq (h : Within S d e) (hS : S.sparesPiers) (hp : p < 17) (hd : Part.dgn ∉ S.parts)
    (hr : haltRegs.all fun r => !S.has (r % 0x20000000)) : e.pierHalted p = d.pierHalted p := by
  have hreg : ∀ r ∈ haltRegs, e.reg r = d.reg r := fun r hm => h.2 r (by simpa using List.all_eq_true.1 hr r hm)
  have hshed : e.shed = d.shed := congrArg F.PWR_STATUS_SHED_STEP.read (hreg F.PWR_STATUS_SHED_STEP.off (by decide))
  have hgrp : e.rd F.PWR_SHED_GRP_A_OCTETS = d.rd F.PWR_SHED_GRP_A_OCTETS :=
    congrArg F.PWR_SHED_GRP_A_OCTETS.read (hreg F.PWR_SHED_GRP_A_OCTETS.off (by decide))
  rw [Dev.pierHalted, Dev.pierHalted, hshed, hgrp, h.octetOf_eq hS hp, h.1 .dgn hd]

/-- Registers that say whether a pair runs a service (R367). -/
def walkServiceRegs : List ℕ := F.CTL_SVC_MAP_WALK.off :: (List.range 4).map fun n => (F.CTL_PAIR_STATUS_STATE.ix n).off

theorem Within.walkService_eq (h : Within S d e) (hr : walkServiceRegs.all fun r => !S.has (r % 0x20000000)) :
    e.serviceRuns F.CTL_SVC_MAP_WALK = d.serviceRuns F.CTL_SVC_MAP_WALK := by
  have hreg : ∀ r ∈ walkServiceRegs, e.reg r = d.reg r := fun r hm => h.2 r (by simpa using List.all_eq_true.1 hr r hm)
  have hmap : e.rd F.CTL_SVC_MAP_WALK = d.rd F.CTL_SVC_MAP_WALK := congrArg F.CTL_SVC_MAP_WALK.read (hreg _ (.head _))
  have hpair : e.pairState (d.rd F.CTL_SVC_MAP_WALK) = d.pairState (d.rd F.CTL_SVC_MAP_WALK) :=
    congrArg F.CTL_PAIR_STATUS_STATE.read
      (hreg _ (.tail _ (List.mem_map.2 ⟨_, List.mem_range.2 (d.rd_lt F.CTL_SVC_MAP_WALK), rfl⟩)))
  rw [Dev.serviceRuns, Dev.serviceRuns, hmap, hpair]

/-! ### A field of a pier's status just written -/

theorem pierState_wrIx (d : Dev) (hp : p < 17) (x : ℕ) : (d.wrIx F.IMG_PIER_STATUS_STATE 17 p x).pierState p = x % 8 := by
  rw [d.wrIx_of_lt _ x hp]
  exact d.rd_wr_same _ x (show 8 + 3 ≤ 64 by decide)

/-! ### A pier retired without a move (R100) -/

theorem within_bistBegin (d : Dev) (r : BistRun) : Within ⟨[.dgn], [17], pierRegs⟩ d (d.bistBegin r) := by
  unfold Dev.bistBegin
  exact .wr (.wr (.wrIx_pier ⟨rfl, rfl⟩ (.set_dgn .refl rfl) fun _ h => h) rfl) rfl

theorem within_endRuns (d : Dev) (p : ℕ) : Within ⟨[.dgn], [17], pierRegs⟩ d (d.endRuns p) := by
  unfold Dev.endRuns
  refine .ite ?_ .refl
  refine .when (.wr (.wr (.set_dgn .refl rfl) rfl) rfl) fun _ => ?_
  unfold Dev.maintNext
  refine .ite (.trans ?_ (within_bistBegin _ _)) ?_ <;> exact .wr (.wr (.set_dgn .refl rfl) rfl) rfl

/-- What a retirement does after the pier reads RETIRED. -/
theorem within_retired (d : Dev) (p : ℕ) : Within ⟨[.posted, .pir, .tbl, .pwr], [], []⟩
    ((d.endRuns p).wrIx F.IMG_PIER_STATUS_STATE 17 p 3) (d.retireIdle p) := by
  unfold Dev.retireIdle
  exact .setRails (.postRetired (.setSs (.dropMeters .refl rfl) rfl) rfl) rfl

/-- A retirement without a move changes no register but those of piers and of BIST. -/
theorem within_retireIdle (d : Dev) (p : ℕ) : Within ⟨[.posted, .pir, .tbl, .pwr, .dgn], [17], pierRegs⟩ d (d.retireIdle p) :=
  .trans (.wrIx_pier ⟨rfl, rfl⟩ ((within_endRuns d p).mono rfl) fun _ h => h) ((within_retired d p).mono rfl)

theorem pierState_retireIdle (d : Dev) (hp : p < 17) : (d.retireIdle p).pierState p = 3 := by
  rw [(within_retired d p).pierState_eq rfl hp, pierState_wrIx _ hp]

theorem ssQueue_retireIdle (d : Dev) (p : ℕ) : (d.retireIdle p).ssQueue p = [] := by
  unfold Dev.retireIdle
  rw [ssQueue_of_same ((Within.setRails (S := ⟨[.pwr], [], []⟩) .refl rfl).1 .pir (by decide))]
  exact ssQueue_setSs_same _ p []

theorem posts_retireIdle (d : Dev) (p : ℕ) : Posts d (d.retireIdle p) [Ev.IMG_PIER_RETIRED] := by
  have hbefore : Within ⟨[.pir, .tbl, .dgn], [17], pierRegs⟩ d
      ((((d.endRuns p).wrIx F.IMG_PIER_STATUS_STATE 17 p 3).dropMeters p).setSs p []) :=
    .setSs (.dropMeters (.wrIx_pier ⟨rfl, rfl⟩ ((within_endRuns d p).mono rfl) fun _ h => h) rfl) rfl
  unfold Dev.retireIdle
  rw [Posts, (Within.setRails (S := ⟨[.pwr], [], []⟩) .refl rfl).1 .posted (by decide), ← hbefore.1 .posted (by decide)]
  exact posts_post _ _ _

/-! ### A retirement by what its pier does (R100, R366, R367) -/

theorem retirePier_of_waiting (h : d.serviceRuns F.CTL_SVC_MAP_WALK = false) :
    d.retirePier p = if d.img.failDue.contains p then d else { d with img := { d.img with failDue := d.img.failDue ++ [p] } } := if_pos h

theorem retirePier_of_idle (h : d.serviceRuns F.CTL_SVC_MAP_WALK = true) (ho : d.octetOf p = none) : d.retirePier p = d.retireIdle p := by
  rw [Dev.retirePier, h, ho]
  rfl

/-- A serving pier moves onto the spare at the next span boundary. -/
theorem retirePier_of_serving {o new : ℕ} (h : d.serviceRuns F.CTL_SVC_MAP_WALK = true) (ho : d.octetOf p = some o)
    (hs : d.sparePier = some new) (hf : d.forwarding = true) :
    d.retirePier p = { d with img := { d.img with move := some ⟨o, p, new, d.tim.tick + 1, true⟩ } } := by
  rw [Dev.retirePier, h, ho, hs]
  exact if_pos hf

/-- A retirement that waits leaves all but its place among those that wait. -/
theorem retirePier_waiting_spec (h : d.serviceRuns F.CTL_SVC_MAP_WALK = false) :
    (d.retirePier p).regs = d.regs ∧ (d.retirePier p).posted = d.posted ∧ p ∈ (d.retirePier p).img.failDue := by
  rw [retirePier_of_waiting h]
  split
  case isTrue hc => exact ⟨rfl, rfl, List.contains_iff_mem.1 hc⟩
  case isFalse => exact ⟨rfl, rfl, List.mem_append_right _ (.head _)⟩

end Sys2Proof.Machine
end

