-- ==== Sys2Proof/Proofs/PierFaults.lean ====
section
/-! PROOF. The faults of piers, and the commands that retire and restore them (R100 to R102, R132, R366, R367): what the report of a fault
leaves, and what becomes of a pier of which nothing else is pending. -/

namespace Sys2Proof.Machine

section
variable {d e : Dev} {p pipe stage o : ℕ}

/-! ### The report of a fault -/

/-- What a fault may change before the pier's retirement: its queue, its meters, its own registers and the evidence. -/
abbrev toldScope : Scope := ⟨[.posted, .pir, .tbl, .twn], [5], [F.TWN_EVIDENCE.off]⟩

/-- The report of a fault whose places in the queue and meters are marked. -/
def Dev.faultTold (d : Dev) (p kind pipe stage : ℕ) (bs bm : List ℕ) : Dev :=
  ((d.markBadSs p bs).loseMeters p bm).pierReport p kind pipe stage

theorem within_pierReport (d : Dev) (kind pipe stage : ℕ) (hp : p < 17) : Within toldScope d (d.pierReport p kind pipe stage) :=
  .pierReport .refl hp rfl

theorem within_faultTold (d : Dev) (kind pipe stage : ℕ) (bs bm : List ℕ) (hp : p < 17) :
    Within toldScope d (d.faultTold p kind pipe stage bs bm) :=
  .pierReport (.loseMeters (.markBadSs .refl rfl) rfl) hp rfl

/-- The registers of a fault: where it was, and its kind. -/
def Dev.faultMarked (d : Dev) (p kind pipe stage : ℕ) : Dev :=
  ((d.wr (F.PIR_FAULT_PIPE.pier p) pipe).wr (F.PIR_FAULT_STAGE.pier p) stage).wr
    ((if kind = 1 then F.PIR_FAULT_PARITY else if kind = 2 then F.PIR_FAULT_MEMORY else F.PIR_FAULT_TIMEOUT).pier p) 1

/-- What the two events of a fault say. -/
theorem exists_pierReport (d : Dev) (p kind pipe stage : ℕ) : ∃ l l', d.pierReport p kind pipe stage =
    (((d.faultMarked p kind pipe stage).post Ev.PIR_PIER_FAULT l).evidence 1).post Ev.IMG_PIER_FAIL l' := ⟨_, _, rfl⟩

theorem posts_pierReport (d : Dev) (p kind pipe stage : ℕ) :
    Posts d (d.pierReport p kind pipe stage) [Ev.PIR_PIER_FAULT, Ev.IMG_PIER_FAIL] := by
  obtain ⟨l, l', h⟩ := exists_pierReport d p kind pipe stage
  rw [h]
  exact (posts_post (d.faultMarked p kind pipe stage) Ev.PIR_PIER_FAULT l).trans
    (posts_post (((d.faultMarked p kind pipe stage).post Ev.PIR_PIER_FAULT l).evidence 1) Ev.IMG_PIER_FAIL l')

theorem posts_faultTold (d : Dev) (p kind pipe stage : ℕ) (bs bm : List ℕ) :
    Posts d (d.faultTold p kind pipe stage bs bm) [Ev.PIR_PIER_FAULT, Ev.IMG_PIER_FAIL] :=
  posts_pierReport ((d.markBadSs p bs).loseMeters p bm) p kind pipe stage

/-- The two events and the evidence leave the registers of the fault. -/
theorem within_faultMarked (d : Dev) (p kind pipe stage : ℕ) :
    Within ⟨[.posted, .twn], [], [F.TWN_EVIDENCE.off]⟩ (d.faultMarked p kind pipe stage) (d.pierReport p kind pipe stage) := by
  obtain ⟨l, l', h⟩ := exists_pierReport d p kind pipe stage
  rw [h]
  exact .post (.evidence (.post .refl rfl) rfl) rfl

/-- The register PIR_FAULT of a pier lies beside the evidence. -/
theorem not_has_fault (hp : p < 17) :
    Scope.has ⟨[.posted, .twn], [], [F.TWN_EVIDENCE.off]⟩ ((F.PIR_FAULT_STAGE.pier p).off % 0x20000000) = false := by
  revert p
  decide

theorem rd_pierReport_stage {kind : ℕ} (hp : p < 17) (hs : stage < 256) :
    (d.pierReport p kind pipe stage).rd (F.PIR_FAULT_STAGE.pier p) = stage := by
  have hbit : ∀ f : Fld, f.lo + f.w ≤ 8 → ∀ e : Dev, (e.wr (f.pier p) 1).rd (F.PIR_FAULT_STAGE.pier p) = e.rd (F.PIR_FAULT_STAGE.pier p) :=
    fun f hf e => e.rd_wr_beside _ _ 1 (show 8 + 8 ≤ 64 by decide) (.inr hf)
  rw [(within_faultMarked d p kind pipe stage).rd_eq (not_has_fault hp), Dev.faultMarked, hbit,
    Dev.rd_wr_same _ _ _ (show 8 + 8 ≤ 64 by decide)]
  · exact Nat.mod_eq_of_lt hs
  · split_ifs <;> decide

theorem on_pierReport_timeout (hp : p < 17) : (d.pierReport p 3 pipe stage).on (F.PIR_FAULT_TIMEOUT.pier p) = true := by
  rw [(within_faultMarked d p 3 pipe stage).on_eq (f := F.PIR_FAULT_TIMEOUT.pier p) (not_has_fault hp)]
  exact Dev.on_wr_one _ (F.PIR_FAULT_TIMEOUT.pier p) (show 2 + 1 ≤ 64 by decide) rfl

/-! ### What becomes of the pier -/

/-- A pier of which nothing else is pending: no BIST run stopped for a failed one, no halt, no step in progress. -/
structure Dev.PierAlone (d : Dev) (p : ℕ) : Prop where
  stopped : d.dgn.stopped = none
  halted : d.pierHalted p = false
  move : d.img.move = none
  reload : d.img.reload = none

/-- Its own fault leaves it alone. -/
theorem Dev.PierAlone.of_told (h : d.PierAlone p) (hw : Within toldScope d e) (hp : p < 17) : e.PierAlone p where
  stopped := (congrArg Dgn.stopped (hw.1 .dgn (by decide))).trans h.stopped
  halted := (hw.pierHalted_eq rfl hp (by decide) rfl).trans h.halted
  move := (congrArg Img.move (hw.1 .img (by decide))).trans h.move
  reload := (congrArg Img.reload (hw.1 .img (by decide))).trans h.reload

theorem pierFails_of_idle (h : d.PierAlone p) (ho : d.octetOf p = none) : d.pierFails p = d.retirePier p := by
  simp [Dev.pierFails, h.stopped, h.halted, h.move, h.reload, ho]

/-- Outside a walk, with no BIST run, a serving pier is retired at once too. -/
theorem pierFails_of_serving (h : d.PierAlone p) (ho : d.octetOf p = some o) (hr : d.dgn.runs = []) (hw : d.walkState = 0) :
    d.pierFails p = d.retirePier p := by
  simp [Dev.pierFails, h.stopped, h.halted, h.move, h.reload, ho, hr, hw]

theorem pierFault_eq {kind : ℕ} (bs bm : List ℕ) (hk : kind = 1 ∨ kind = 2) (h3 : d.pierState p ≠ 3) (h0 : d.mode ≠ .m0)
    (h11 : d.mode ≠ .m11) : pierFault p kind pipe stage bs bm d = (d.faultTold p kind pipe stage bs bm).pierFails p := if_neg (by tauto)

theorem strokeTimeout_eq (h3 : d.pierState p ≠ 3) (h0 : d.mode ≠ .m0) (h11 : d.mode ≠ .m11) :
    strokeTimeout p pipe stage d = (d.pierReport p 3 pipe stage).pierFails p := if_neg (by tauto)

theorem retireIdle_spares_fault (hp : p < 17) :
    Scope.has ⟨[.posted, .pir, .tbl, .pwr, .dgn], [17], pierRegs⟩ ((F.PIR_FAULT_STAGE.pier p).off % 0x20000000) = false := by
  revert p
  decide

/-- A pier alone that serves no octet is retired at its fault, and its PIR_FAULT register stays. -/
theorem pierFails_retires (h : d.PierAlone p) (hw : Within toldScope d e) (hp : p < 17) (ho : d.octetOf p = none)
    (hs : d.serviceRuns F.CTL_SVC_MAP_WALK = true) :
    (e.pierFails p).pierState p = 3 ∧ (e.pierFails p).ssQueue p = [] ∧
      (e.pierFails p).reg (F.PIR_FAULT_STAGE.pier p).off = e.reg (F.PIR_FAULT_STAGE.pier p).off := by
  have hoe : e.octetOf p = none := (hw.octetOf_eq rfl hp).trans ho
  rw [pierFails_of_idle (h.of_told hw hp) hoe, retirePier_of_idle ((hw.walkService_eq rfl).trans hs) hoe]
  refine ⟨pierState_retireIdle e hp, ssQueue_retireIdle e p, (within_retireIdle e p).2 _ (retireIdle_spares_fault hp)⟩

/-- While the pair of the walk service does not run, its retirement waits. -/
theorem pierFails_waits (h : d.PierAlone p) (hw : Within toldScope d e) (hp : p < 17) (ho : d.octetOf p = none)
    (hs : d.serviceRuns F.CTL_SVC_MAP_WALK = false) :
    (e.pierFails p).pierState p = d.pierState p ∧ p ∈ (e.pierFails p).img.failDue ∧ (e.pierFails p).posted = e.posted := by
  rw [pierFails_of_idle (h.of_told hw hp) ((hw.octetOf_eq rfl hp).trans ho)]
  obtain ⟨hregs, hposted, hdue⟩ := retirePier_waiting_spec (p := p) ((hw.walkService_eq rfl).trans hs)
  exact ⟨(pierState_of_reg (congrArg (SMap.get regReset · _) hregs)).trans (hw.pierState_eq rfl hp), hdue, hposted⟩

/-- A serving pier alone moves onto the spare. -/
theorem move_pierFails {new : ℕ} (h : d.PierAlone p) (hw : Within toldScope d e) (hp : p < 17) (ho : d.octetOf p = some o)
    (hn : d.sparePier = some new) (hr : d.dgn.runs = []) (hwalk : d.walkState = 0) (hf : d.forwarding = true)
    (hs : d.serviceRuns F.CTL_SVC_MAP_WALK = true) : (e.pierFails p).img.move = some ⟨o, p, new, d.tim.tick + 1, true⟩ := by
  have hoe : e.octetOf p = some o := (hw.octetOf_eq rfl hp).trans ho
  have hfe : e.forwarding = true := by rw [Dev.forwarding, hw.mode_eq (by decide), hw.on_eq rfl]; exact hf
  rw [pierFails_of_serving (h.of_told hw hp) hoe ((congrArg Dgn.runs (hw.1 .dgn (by decide))).trans hr) ((hw.rd_eq rfl).trans hwalk),
    retirePier_of_serving ((hw.walkService_eq rfl).trans hs) hoe ((hw.sparePier_eq rfl).trans hn) hfe, hw.1 .tim (by decide)]

/-! ### The commands -/

theorem pierRetireCmd_of_spare (hp : p < 17) (h1 : d.pierState p = 1) (hstep : d.inStep = false) (ho : d.octetOf p = none)
    (hs : d.serviceRuns F.CTL_SVC_MAP_WALK = true) : pierRetireCmd p d = d.retireIdle p := by
  have hmove : d.img.move = none := Option.not_isSome_iff_eq_none.1 fun h => by simp [Dev.inStep, h] at hstep
  rw [pierRetireCmd, if_neg (Nat.not_le.2 hp), if_pos h1, hmove, ← retirePier_of_idle hs ho]

/-- The BIST run of a pier that is restored begins. -/
def Dev.restoring (d : Dev) (p : ℕ) : Dev :=
  ({ d with dgn := { d.dgn with runs := d.dgn.runs ++ [(⟨p, true, false⟩ : BistRun)] } }.wr (F.IMG_PIER_STATUS_STATE.ix p) 2).wr
    F.DGN_STATUS_BIST_BUSY 1

theorem pierRestoreCmd_eq (hp : p < 17) (h3 : d.pierState p = 3) (h7 : d.m7 = false) :
    pierRestoreCmd p d = (d.restoring p).setRails := if_neg (by simp [h3, h7, hp])

theorem pierRestoreCmd_spec (hp : p < 17) (h3 : d.pierState p = 3) (h7 : d.m7 = false) :
    (pierRestoreCmd p d).pierState p = 2 ∧ (pierRestoreCmd p d).on F.DGN_STATUS_BIST_BUSY = true ∧
      (pierRestoreCmd p d).dgn.runs = d.dgn.runs ++ [(⟨p, true, false⟩ : BistRun)] := by
  have hw : Within ⟨[.pwr], [], []⟩ (d.restoring p) (d.restoring p).setRails := .setRails .refl rfl
  have hbusy : Within ⟨[], [17], []⟩ ({ d with dgn := { d.dgn with runs := d.dgn.runs ++ [(⟨p, true, false⟩ : BistRun)] } }.wr
      (F.IMG_PIER_STATUS_STATE.ix p) 2) (d.restoring p) := .wr .refl rfl
  rw [pierRestoreCmd_eq hp h3 h7, hw.pierState_eq rfl hp, hbusy.pierState_eq rfl hp, hw.on_eq rfl, hw.1 .dgn (by decide)]
  exact ⟨Dev.rd_wr_same _ _ _ (show 8 + 3 ≤ 64 by decide), Dev.on_wr_one _ _ (by decide) rfl, rfl⟩

end

theorem toNat_of_kind {kind : BitVec 4} (h : kind = 1 ∨ kind = 2) : kind.toNat = 1 ∨ kind.toNat = 2 :=
  h.imp (congrArg BitVec.toNat) (congrArg BitVec.toNat)

theorem modes_of_forwarding {d : Dev} (h : d.forwarding = true) : d.mode ≠ .m0 ∧ d.mode ≠ .m11 := by
  constructor <;> intro hm <;> simp [Dev.forwarding, hm] at h

/-- Settles O7: each fault by what its pier does, and each command by the state of the pier. -/
theorem pierFaultCommandsComplete : Obligations.PierFaultCommandsComplete := by
  unfold Obligations.PierFaultCommandsComplete
  refine ⟨fun s p kind pipe stage bs bm hk h3 h0 h11 hstop hhalt hmove hrel ho hs => .of_exec rfl ?_,
    fun s p kind pipe stage bs bm hk h3 h0 h11 hstop hhalt hmove hrel ho hs => .of_exec rfl ?_,
    fun s p kind pipe stage bs bm o new hk h3 hf hstop hhalt hmove hrel ho hn hr hwalk hs => .of_exec rfl ?_,
    fun s p pipe stage h3 h0 h11 hstop hhalt hmove hrel ho hs => .of_exec rfl ?_,
    fun s m p hw hp hstep h1 ho hs => .of_onReg rfl hw ?_,
    fun s m p hw hp h3 h7 => .of_onReg rfl hw (pierRestoreCmd_spec (d := s.dev.noAbort) hp h3 h7)⟩
  · rw [pierFault_eq bs bm (toNat_of_kind hk) h3 h0 h11]
    obtain ⟨hstate, hss, hreg⟩ := pierFails_retires ⟨hstop, hhalt, hmove, hrel⟩
      (within_faultTold s.dev kind.toNat pipe.toNat stage.toNat bs bm p.isLt) p.isLt ho hs
    exact ⟨hstate, hss, (congrArg F.PIR_FAULT_STAGE.read hreg).trans
      (rd_pierReport_stage p.isLt (stage.isLt.trans (by decide)))⟩
  · rw [pierFault_eq bs bm (toNat_of_kind hk) h3 h0 h11]
    obtain ⟨hstate, hdue, hposted⟩ := pierFails_waits ⟨hstop, hhalt, hmove, hrel⟩
      (within_faultTold s.dev kind.toNat pipe.toNat stage.toNat bs bm p.isLt) p.isLt ho hs
    refine ⟨hstate, hdue, ?_⟩
    rw [Posts, hposted]
    exact posts_faultTold s.dev p.val kind.toNat pipe.toNat stage.toNat bs bm
  · obtain ⟨h0, h11⟩ := modes_of_forwarding hf
    rw [pierFault_eq bs bm (toNat_of_kind hk) h3 h0 h11]
    exact move_pierFails ⟨hstop, hhalt, hmove, hrel⟩ (within_faultTold s.dev kind.toNat pipe.toNat stage.toNat bs bm p.isLt) p.isLt ho hn
      hr hwalk hf hs
  · rw [strokeTimeout_eq h3 h0 h11]
    obtain ⟨hstate, -, hreg⟩ := pierFails_retires ⟨hstop, hhalt, hmove, hrel⟩
      (within_pierReport s.dev 3 pipe.toNat stage.toNat p.isLt) p.isLt ho hs
    exact ⟨hstate, (congrArg (fun v => F.PIR_FAULT_TIMEOUT.read v != 0) hreg).trans (on_pierReport_timeout p.isLt)⟩
  · rw [pierRetireCmd_of_spare (d := s.dev.noAbort) hp h1 hstep ho hs]
    exact ⟨pierState_retireIdle s.dev.noAbort hp, posts_retireIdle s.dev.noAbort p.toNat⟩

end Sys2Proof.Machine
end

