-- ==== Sys2Proof/Proofs/Walks.lean ====
section
/-! PROOF. The commands of the pier walk (R91 to R93, R95, R98): what the arm of the next step, an abandonment and the binding of an octet
leave, and the commands that are made of them. -/

namespace Sys2Proof.Machine

section
variable {d e : Dev} {m : ℕ}

/-! ### The arm of the next step (R92) -/

/-- Of the image's state only when the next step is due has changed. -/
def WalkTimesOnly (d e : Dev) : Prop :=
  e.img = { d.img with walkDue := e.img.walkDue, walkRetry := e.img.walkRetry, walkWaits := e.img.walkWaits }

theorem WalkTimesOnly.of_img (h : e.img = d.img) : WalkTimesOnly d e := by rw [WalkTimesOnly, h]

theorem WalkTimesOnly.trans {f : Dev} (h : WalkTimesOnly d e) (h' : WalkTimesOnly e f) : WalkTimesOnly d f :=
  Eq.trans h' (congrArg
    (fun i : Img => { i with walkDue := f.img.walkDue, walkRetry := f.img.walkRetry, walkWaits := f.img.walkWaits }) h)

theorem img_armEntry (d : Dev) (m i span type : ℕ) (op : BitVec 64) : (d.armEntry m i span type op).2.img = d.img :=
  (Within.armEntry (S := ⟨[.posted, .tim], [], []⟩) .refl rfl).1 .img (by decide)

theorem img_mirror (d : Dev) (kind m : ℕ) (body : List Byte) : (d.mirror kind m body).img = d.img :=
  (Within.mirror (S := ⟨[.twn], [], []⟩) .refl rfl).1 .img (by decide)

theorem WalkTimesOnly.set_times {x : ℕ} {y : Option ℕ} {z : Bool} :
    WalkTimesOnly d { d with img := { d.img with walkDue := x, walkRetry := y, walkWaits := z } } := rfl

theorem WalkTimesOnly.walkTry {span new : ℕ} : WalkTimesOnly d (d.walkTry span new).2 := by
  have harm := WalkTimesOnly.of_img (img_armEntry d d.walkMaster (d.rd F.IMG_WALK_CFG_TA_ENTRY) span 4
    (BitVec.ofNat 64 (d.rd F.IMG_WALK_STATUS_NEXT_OCTET + 256 * new)))
  unfold Dev.walkTry
  dsimp only
  split <;> rename_i h <;> rw [h] at harm
  · exact (harm.trans .set_times).trans (.of_img (img_mirror _ _ _ _))
  · exact harm

theorem WalkTimesOnly.walkArm : WalkTimesOnly d d.walkArm := by
  unfold Dev.walkArm
  dsimp only
  split
  · exact .of_img rfl
  split
  · exact .set_times
  split
  · exact .set_times
  rename_i new _
  have htry := WalkTimesOnly.walkTry (d := d) (span := d.img.walkDue) (new := new)
  split <;> rename_i h <;> rw [h] at htry
  · exact htry
  split
  · exact htry.trans .set_times
  · exact (htry.trans .set_times).trans .walkTry

/-- The arm touches no register. -/
theorem within_walkArm (d : Dev) : Within ⟨[.posted, .tim, .img, .twn], [], []⟩ d d.walkArm := .walkArm .refl rfl

theorem within_walkArm_mirror (d : Dev) (kind m : ℕ) (body : List Byte) :
    Within ⟨[.posted, .tim, .img, .twn], [], []⟩ d (d.walkArm.mirror kind m body) := .mirror (within_walkArm d) rfl

theorem m7_walkArm_mirror (d : Dev) (kind m : ℕ) (body : List Byte) : (d.walkArm.mirror kind m body).m7 = d.m7 := by
  have h : WalkTimesOnly d (d.walkArm.mirror kind m body) := WalkTimesOnly.walkArm.trans (.of_img (img_mirror _ _ _ _))
  rw [Dev.m7, Dev.m7, (within_walkArm_mirror d kind m body).mode_eq (by decide), h]

/-! ### The cases that refuse a start or a resumption (R91, R98) -/

theorem walkBar_lt (d : Dev) (m : ℕ) (resume : Bool) : d.walkBar m resume < 256 := by
  unfold Dev.walkBar
  dsimp only
  split_ifs <;> decide

/-- A walk is started and resumed where traffic is forwarded. -/
theorem mode_of_walkBar {resume : Bool} (h : d.walkBar m resume = 0) : d.mode = .m3 ∨ d.mode = .m4 ∨ d.mode = .m5 := by
  have hcode : (3 ≤ d.mode.code && d.mode.code ≤ 5) = true := by
    by_contra hc
    rw [Dev.walkBar] at h
    simp [hc] at h
  revert hcode
  cases d.mode <;> decide

theorem m7_of_walkBar {resume : Bool} (h : d.walkBar m resume = 0) (hm : e.mode = d.mode) (hon : e.img.walkOn = true) : e.m7 = true := by
  rw [Dev.m7, hon, hm]
  obtain h | h | h := mode_of_walkBar h <;> rw [h] <;> rfl

theorem walkRefuse_spec (d : Dev) (m : ℕ) (resume : Bool) :
    (d.walkRefuse m (d.walkBar m resume)).rd F.IMG_WALK_STATUS_CAUSE = d.walkBar m resume ∧
      (d.walkRefuse m (d.walkBar m resume)).walkState = d.walkState ∧
      Posts d (d.walkRefuse m (d.walkBar m resume)) [Ev.IMG_WALK_REFUSED] :=
  ⟨(Dev.rd_wr_same d _ _ (by decide)).trans (Nat.mod_eq_of_lt (walkBar_lt d m resume)), Dev.rd_wr_beside d _ _ _ (by decide) (by decide),
    posts_post (d.wr F.IMG_WALK_STATUS_CAUSE (d.walkBar m resume)) _ _⟩

/-! ### Start and resumption -/

/-- The image's state at the start of a walk whose first step is due at a span. -/
abbrev Img.walkBegun (i : Img) (due : ℕ) : Img :=
  { i with walkOn := true, walkDue := due, walkRefused := false, abandonDue := none, walkRetry := none, walkWaits := false }

/-- A walk at its start. -/
def Dev.walkBegun (d : Dev) : Dev :=
  (((({ d with img := d.img.walkBegun (d.rd F.IMG_WALK_START_SPAN) }).wr F.IMG_STATUS_STAGED_STATE 7).wr F.IMG_WALK_STATUS_STATE 1).wr
    F.IMG_WALK_STATUS_NEXT_OCTET 0).wr F.IMG_WALK_STATUS_STEPS_DONE 0

theorem walkStart_of_accepted (h : d.walkBar m false = 0) :
    walkStart m d = (d.withMode Dev.walkBegun).walkArm.mirror 2 m (leBytes 4 F.IMG_WALK_CMD.off ++ leBytes 4 1) := by
  rw [walkStart, h]
  rfl

theorem walkBegun_spec (d : Dev) : d.walkBegun.walkState = 1 ∧ d.walkBegun.staged = 7 ∧ d.walkBegun.stepsDone = 0 ∧
    d.walkBegun.rd F.IMG_WALK_STATUS_NEXT_OCTET = 0 := by
  refine ⟨?_, ?_, ?_, ?_⟩
  · rw [Dev.walkState, Dev.walkBegun, Dev.rd_wr_beside _ _ _ _ (by decide) (by decide), Dev.rd_wr_beside _ _ _ _ (by decide) (by decide),
      Dev.rd_wr_same _ _ _ (by decide)]
    rfl
  · rw [Dev.staged, Dev.walkBegun, Dev.rd_wr_off _ _ _ _ (by decide), Dev.rd_wr_off _ _ _ _ (by decide),
      Dev.rd_wr_off _ _ _ _ (by decide), Dev.rd_wr_same _ _ _ (by decide)]
    rfl
  · exact Dev.rd_wr_same _ _ _ (by decide)
  · rw [Dev.walkBegun, Dev.rd_wr_beside _ _ _ _ (by decide) (by decide), Dev.rd_wr_same _ _ _ (by decide)]
    rfl

theorem walkStart_spec (h : d.walkBar m false = 0) : (walkStart m d).walkState = 1 ∧ (walkStart m d).m7 = true ∧
    (walkStart m d).staged = 7 ∧ (walkStart m d).stepsDone = 0 ∧ (walkStart m d).rd F.IMG_WALK_STATUS_NEXT_OCTET = 0 := by
  have hnote : Within ⟨[.posted], [], []⟩ d.walkBegun (d.withMode Dev.walkBegun) := .withMode .refl rfl
  have hw := (hnote.mono rfl).trans (within_walkArm_mirror (d.withMode Dev.walkBegun) 2 m (leBytes 4 F.IMG_WALK_CMD.off ++ leBytes 4 1))
  obtain ⟨hstate, hstaged, hsteps, hnext⟩ := walkBegun_spec d
  rw [walkStart_of_accepted h]
  refine ⟨(hw.rd_eq rfl).trans hstate, ?_, (hw.rd_eq rfl).trans hstaged, (hw.rd_eq rfl).trans hsteps, (hw.rd_eq rfl).trans hnext⟩
  rw [m7_walkArm_mirror]
  exact m7_of_walkBar h (hnote.mode_eq (by decide)) (congrArg Img.walkOn (hnote.1 .img (by decide)))

/-- The image's state at the resumption of a walk whose next step is due at a span. -/
abbrev Img.walkResumed (i : Img) (due : ℕ) : Img :=
  { i with walkOn := true, walkDue := due, walkRefused := false, abandonDue := none, walkRetry := none }

/-- A walk at its resumption. -/
def Dev.walkResumed (d : Dev) : Dev :=
  ({ d with img := d.img.walkResumed (spanAdd (d.rd F.IMG_WALK_START_SPAN) (d.stepsDone * d.rd F.IMG_WALK_INTERVAL_SPANS)) }).wr
    F.IMG_WALK_STATUS_STATE 1

theorem walkResume_of_accepted (h : d.walkBar m true = 0) (hn : d.stepsDone < 16) :
    walkResume m d = (d.withMode Dev.walkResumed).walkArm.mirror 2 m (leBytes 4 F.IMG_WALK_CMD.off ++ leBytes 4 3) := by
  rw [walkResume, h]
  exact congrArg (Dev.mirror · 2 m _) (if_neg (Nat.not_le.2 hn))

theorem walkResume_spec (h : d.walkBar m true = 0) (hn : d.stepsDone < 16) :
    (walkResume m d).walkState = 1 ∧ (walkResume m d).m7 = true ∧ (walkResume m d).stepsDone = d.stepsDone := by
  have hnote : Within ⟨[.posted], [], []⟩ d.walkResumed (d.withMode Dev.walkResumed) := .withMode .refl rfl
  have hw := (hnote.mono rfl).trans (within_walkArm_mirror (d.withMode Dev.walkResumed) 2 m (leBytes 4 F.IMG_WALK_CMD.off ++ leBytes 4 3))
  rw [walkResume_of_accepted h hn]
  refine ⟨(hw.rd_eq rfl).trans (Dev.rd_wr_same _ F.IMG_WALK_STATUS_STATE 1 (by decide)), ?_,
    (hw.rd_eq rfl).trans (Dev.rd_wr_beside _ F.IMG_WALK_STATUS_STATE F.IMG_WALK_STATUS_STEPS_DONE 1 (by decide) (by decide))⟩
  rw [m7_walkArm_mirror]
  exact m7_of_walkBar h (hnote.mode_eq (by decide)) (congrArg Img.walkOn (hnote.1 .img (by decide)))

/-! ### Abandonment (R95, R98) -/

/-- An abandonment writes no register but the status of the walk. -/
theorem within_abandonWalk (d : Dev) (c : ℕ) :
    Within ⟨[.posted, .tim, .img, .twn], [], [F.IMG_WALK_STATUS_CAUSE.off]⟩ d (d.abandonWalk c) :=
  .abandonWalk .refl rfl

/-- The image's state once the walk is abandoned. -/
abbrev Img.walkEnded (i : Img) : Img :=
  { i with walkOn := false, abandonDue := none, walkRefused := false, walkRetry := none, walkWaits := false }

theorem img_cancelEntry (d : Dev) (m i : ℕ) : (d.cancelEntry m i).2.img = d.img :=
  (Within.cancelEntry (S := ⟨[.posted, .tim], [], []⟩) .refl rfl).1 .img (by decide)

theorem img_abandonNow (d : Dev) (c : ℕ) : (d.abandonNow c).img = d.img.walkEnded := by
  have hcancel := img_cancelEntry d d.walkMaster (d.rd F.IMG_WALK_CFG_TA_ENTRY)
  unfold Dev.abandonNow
  refine congrArg Img.walkEnded ?_
  split
  · split <;> rename_i h <;> rw [h] at hcancel
    · exact (img_mirror _ _ _ _).trans hcancel
    · exact hcancel
  · rfl

theorem abandonNow_spec (d : Dev) (c : ℕ) : (d.abandonNow c).walkState = 3 ∧ (d.abandonNow c).rd F.IMG_WALK_STATUS_CAUSE = c % 256 := by
  unfold Dev.abandonNow
  refine ⟨?_, Dev.rd_wr_same _ _ _ (by decide)⟩
  rw [Dev.walkState, Dev.rd_post, Dev.rd_wr_beside _ _ _ _ (by decide) (by decide), Dev.rd_wr_same _ _ _ (by decide)]
  rfl

theorem within_abandonNow_note (d : Dev) (c : ℕ) : Within ⟨[.posted], [], []⟩ (d.abandonNow c) (d.abandonWalk c) := .withMode .refl rfl

theorem img_abandonWalk (d : Dev) (c : ℕ) : (d.abandonWalk c).img = d.img.walkEnded :=
  ((within_abandonNow_note d c).1 .img (by decide)).trans (img_abandonNow d c)

theorem abandonWalk_spec (d : Dev) (c : ℕ) : (d.abandonWalk c).walkState = 3 ∧ (d.abandonWalk c).m7 = false ∧
    (d.abandonWalk c).rd F.IMG_WALK_STATUS_CAUSE = c % 256 := by
  have hnote := within_abandonNow_note d c
  obtain ⟨hstate, hcause⟩ := abandonNow_spec d c
  refine ⟨(hnote.rd_eq rfl).trans hstate, ?_, (hnote.rd_eq rfl).trans hcause⟩
  rw [Dev.m7, img_abandonWalk]
  rfl

theorem walkAbandon_of_running (h5 : d.mode ≠ .m5) (h6 : d.mode ≠ .m6) (hw : d.walkState = 1 ∨ d.walkState = 2) (hstep : d.inStep = false) :
    walkAbandon m d = (d.abandonWalk 1).mirror 2 m (leBytes 4 F.IMG_WALK_CMD.off ++ leBytes 4 2) := by
  rw [walkAbandon, if_neg (by tauto), if_pos hw, Dev.wantAbandon, hstep]
  rfl

theorem walkAbandon_spec (h5 : d.mode ≠ .m5) (h6 : d.mode ≠ .m6) (hw : d.walkState = 1 ∨ d.walkState = 2) (hstep : d.inStep = false) :
    (walkAbandon m d).walkState = 3 ∧ (walkAbandon m d).m7 = false ∧ (walkAbandon m d).rd F.IMG_WALK_STATUS_CAUSE = 1 ∧
      (walkAbandon m d).staged = d.staged := by
  have hm : Within ⟨[.twn], [], []⟩ (d.abandonWalk 1) ((d.abandonWalk 1).mirror 2 m (leBytes 4 F.IMG_WALK_CMD.off ++ leBytes 4 2)) :=
    .mirror .refl rfl
  obtain ⟨hstate, h7, hcause⟩ := abandonWalk_spec d 1
  rw [walkAbandon_of_running h5 h6 hw hstep]
  refine ⟨(hm.rd_eq rfl).trans hstate, ?_, (hm.rd_eq rfl).trans hcause, (hm.rd_eq rfl).trans ((within_abandonWalk d 1).rd_eq rfl)⟩
  rwa [Dev.m7, hm.1 .img (by decide), hm.mode_eq (by decide)]

/-! ### The binding of an octet (R93) -/

section
variable {o old new st p : ℕ}

theorem within_rebind (d : Dev) (o old new st : ℕ) : Within ⟨[], [], pierRegs⟩ d (d.rebind o old new st) := by
  unfold Dev.rebind
  exact .wrIx_pier ⟨rfl, rfl⟩ (.wrIx_pier ⟨rfl, rfl⟩ (.wrIx_pier ⟨rfl, rfl⟩ (.wrIx_pier ⟨rfl, rfl⟩ (.wrIx_pier ⟨rfl, rfl⟩ .refl
    fun _ h => h) fun _ h => h) fun _ h => h) fun _ h => h) fun _ h => h

/-- The status of a pier other than the one written. -/
theorem reg_wrIx_other {f : Fld} {n x : ℕ} (hf : f.isPierStatus) (h : n ≠ p) :
    (d.wrIx f 17 n x).reg (F.IMG_PIER_STATUS_STATE.ix p).off = d.reg (F.IMG_PIER_STATUS_STATE.ix p).off := by
  refine d.reg_wrIx_ne f 17 n x fun _ he => h ?_
  rw [hf.off_ix, Fld.ix, Fld.ix] at he
  exact Nat.eq_of_mul_eq_mul_left (show 0 < 4 by decide) (Nat.add_left_cancel he)

/-- The old pier serves no octet and takes the state it is given. -/
theorem rebind_old (d : Dev) (o st : ℕ) (hne : old ≠ new) (hp : old < 17) : (d.rebind o old new st).pierState old = st % 8 ∧
    (d.rebind o old new st).on (F.IMG_PIER_STATUS_SERVING.ix old) = false := by
  have hreg : (d.rebind o old new st).reg (F.IMG_PIER_STATUS_STATE.ix old).off =
      ((d.wrIx F.IMG_PIER_STATUS_SERVING 17 old 0).wrIx F.IMG_PIER_STATUS_STATE 17 old st).reg (F.IMG_PIER_STATUS_STATE.ix old).off := by
    unfold Dev.rebind
    rw [reg_wrIx_other (f := F.IMG_PIER_STATUS_STATE) ⟨rfl, rfl⟩ hne.symm,
      reg_wrIx_other (f := F.IMG_PIER_STATUS_OCTET) ⟨rfl, rfl⟩ hne.symm,
      reg_wrIx_other (f := F.IMG_PIER_STATUS_SERVING) ⟨rfl, rfl⟩ hne.symm]
  rw [pierState_of_reg hreg, serving_of_reg hreg, pierState_wrIx _ hp, Dev.wrIx_of_lt _ _ _ hp, Dev.wrIx_of_lt _ _ _ hp]
  refine ⟨rfl, ?_⟩
  rw [Dev.on, Dev.rd_wr_beside _ _ _ _ (show 4 + 1 ≤ 64 by decide) (.inl (show 4 + 1 ≤ 8 by decide))]
  exact Dev.off_wr_zero d _ (show 4 + 1 ≤ 64 by decide)

/-- The new pier is ACTIVE and serves the octet. -/
theorem rebind_new (d : Dev) (old st : ℕ) (hp : new < 17) (ho : o < 16) : (d.rebind o old new st).pierState new = 0 ∧
    (d.rebind o old new st).on (F.IMG_PIER_STATUS_SERVING.ix new) = true ∧
    (d.rebind o old new st).rd (F.IMG_PIER_STATUS_OCTET.ix new) = o := by
  unfold Dev.rebind
  refine ⟨pierState_wrIx _ hp 0, ?_, ?_⟩
  · rw [Dev.wrIx_of_lt _ _ _ hp, Dev.wrIx_of_lt _ _ _ hp, Dev.wrIx_of_lt _ _ _ hp, Dev.on,
      Dev.rd_wr_beside _ _ _ _ (show 4 + 1 ≤ 64 by decide) (.inl (show 4 + 1 ≤ 8 by decide)),
      Dev.rd_wr_beside _ _ _ _ (show 4 + 1 ≤ 64 by decide) (.inr (show 0 + 4 ≤ 4 by decide))]
    exact Dev.on_wr_one _ _ (show 4 + 1 ≤ 64 by decide) rfl
  · rw [Dev.wrIx_of_lt _ _ _ hp, Dev.wrIx_of_lt _ _ _ hp,
      Dev.rd_wr_beside _ _ _ _ (show 0 + 4 ≤ 64 by decide) (.inl (show 0 + 4 ≤ 8 by decide)),
      Dev.rd_wr_same _ _ _ (show 0 + 4 ≤ 64 by decide)]
    exact Nat.mod_eq_of_lt ho

/-! ### The commit of a step (R93) -/

/-- The entries that a commit moves: those that read, before the new pier's own. -/
abbrev Dev.movedSs (d : Dev) (old new : ℕ) : List SsEntry :=
  ((d.ssQueue old).filter fun e => !e.bad).map (fun e => { e with first := true }) ++ d.ssQueue new

theorem ssQueue_setSs_ne {n : ℕ} (d : Dev) (l : List SsEntry) (h : p ≠ n) : (d.setSs p l).ssQueue n = d.ssQueue n := SMap.get_set_ne _ _ _ h

theorem ssQueue_moveSs (d : Dev) (h : old ≠ new) : (d.moveSs old new).2.ssQueue new = d.movedSs old new := by
  refine (ssQueue_setSs_same _ new _).trans ?_
  rw [ssQueue_setSs_ne d [] h]

theorem ssQueue_moveState (d : Dev) {x : PierMove} (h : x.old ≠ x.new) : (d.moveState x).2.ssQueue x.new = d.movedSs x.old x.new := by
  have hw : Within ⟨[.lpt, .tbl], [], []⟩ d ((d.moveMeters x.old x.new).holdFrames x.octet []) := .holdFrames (.moveMeters .refl rfl) rfl
  refine (ssQueue_moveSs _ h).trans ?_
  rw [Dev.movedSs, ssQueue_of_same (hw.1 .pir (by decide)), ssQueue_of_same (hw.1 .pir (by decide))]

/-- The step as it commits: its move is done, and the vacated pier is to reload. -/
def Dev.stepMoved (d : Dev) (x : PierMove) : Dev :=
  (({ d with img := { d.img with move := none, reload := some x.old } }).moveState x).2

theorem within_stepMoved (d : Dev) (x : PierMove) : Within ⟨[.lpt, .pir, .tbl], [], [(F.HST_DROP_CNT.ix Drop.pierRetired).off]⟩
    { d with img := { d.img with move := none, reload := some x.old } } (d.stepMoved x) := .moveState .refl rfl

theorem exists_walkStepCommit {x : PierMove} (hx : d.img.move = some x) (hr : x.retirement = false) (hc : d.moveCommits x = true) :
    ∃ l, walkStepCommit d = ((d.stepMoved x).rebind x.octet x.old x.new 2).post Ev.IMG_WALK_STEP l := by
  rw [walkStepCommit, hx]
  dsimp only
  rw [hc, hr]
  exact ⟨_, rfl⟩

theorem walkStepCommit_spec {x : PierMove} (hx : d.img.move = some x) (hr : x.retirement = false) (hc : d.moveCommits x = true)
    (hne : x.old ≠ x.new) (hold : x.old < 17) (hnew : x.new < 17) (ho : x.octet < 16) :
    (walkStepCommit d).img.move = none ∧ (walkStepCommit d).img.reload = some x.old ∧ (walkStepCommit d).pierState x.old = 2 ∧
      (walkStepCommit d).on (F.IMG_PIER_STATUS_SERVING.ix x.old) = false ∧ (walkStepCommit d).pierState x.new = 0 ∧
      (walkStepCommit d).on (F.IMG_PIER_STATUS_SERVING.ix x.new) = true ∧
      (walkStepCommit d).rd (F.IMG_PIER_STATUS_OCTET.ix x.new) = x.octet ∧
      (walkStepCommit d).ssQueue x.new = d.movedSs x.old x.new ∧ Posts d (walkStepCommit d) [Ev.IMG_WALK_STEP] := by
  obtain ⟨l, h⟩ := exists_walkStepCommit hx hr hc
  have hmoved := within_stepMoved d x
  have hbound := within_rebind (d.stepMoved x) x.octet x.old x.new 2
  have himg := (hbound.1 .img (by decide)).trans (hmoved.1 .img (by decide))
  obtain ⟨hstate, hserving⟩ := rebind_old (d.stepMoved x) x.octet 2 hne hold
  obtain ⟨hstate', hserving', hoctet⟩ := rebind_new (d.stepMoved x) x.old 2 hnew ho
  rw [h]
  refine ⟨congrArg Img.move himg, congrArg Img.reload himg, hstate, hserving, hstate', hserving', hoctet,
    (ssQueue_of_same (hbound.1 .pir (by decide))).trans (ssQueue_moveState _ hne), ?_⟩
  have hposted := (hbound.1 .posted (by decide)).trans (hmoved.1 .posted (by decide))
  rw [Posts, show d.posted = _ from hposted.symm]
  exact posts_post _ _ _

/-! ### A step that times out (R95) -/

theorem runFailDue_of_none (h : d.img.failDue = []) : d.runFailDue = d := by
  rw [Dev.runFailDue, h]
  exact ite_self d

/-- The failed move undone: the held frames go to the old pier, and the new one is retired. -/
def Dev.moveUndone (d : Dev) (x : PierMove) : Dev :=
  (({ d with img := { d.img with move := none } }).holdFrames x.octet []).retireIdle x.new

theorem within_moveUndone (d : Dev) (x : PierMove) : Within ⟨[.posted, .lpt, .pir, .tbl, .pwr, .dgn], [17], pierRegs⟩
    { d with img := { d.img with move := none } } (d.moveUndone x) :=
  .trans (.holdFrames .refl rfl) ((within_retireIdle _ x.new).mono rfl)

theorem img_moveUndone (d : Dev) (x : PierMove) : (d.moveUndone x).img = { d.img with move := none } :=
  (within_moveUndone d x).1 .img (by decide)

/-- A failed step of a running walk abandons it. -/
theorem moveFails_of_step {x : PierMove} {c : ℕ} (hr : x.retirement = false) (hw : d.walkState = 1) (hrel : d.img.reload = none)
    (hdue : d.img.failDue = []) : d.moveFails x c = (d.moveUndone x).abandonWalk c := by
  have hstate : (d.moveUndone x).walkState = 1 := ((within_moveUndone d x).rd_eq rfl).trans hw
  have hstep : (d.moveUndone x).inStep = false := by simp [Dev.inStep, img_moveUndone, hrel]
  have hfail : ((d.moveUndone x).abandonWalk c).img.failDue = [] := by rw [img_abandonWalk, img_moveUndone]; exact hdue
  have h : d.moveFails x c = ((d.moveUndone x).abandonWalk c).runFailDue := by
    rw [Dev.moveFails, hr]
    exact if_pos ⟨.inl hstate, hstep⟩
  rw [h, runFailDue_of_none hfail]

theorem walkStepTimeout_spec {x : PierMove} (hx : d.img.move = some x) (hr : x.retirement = false) (ht : x.start + 8 ≤ d.tim.tick)
    (hw : d.walkState = 1) (hrel : d.img.reload = none) (hdue : d.img.failDue = []) (hnew : x.new < 17) :
    (walkStepTimeout false d).img.move = none ∧ (walkStepTimeout false d).pierState x.new = 3 ∧ (walkStepTimeout false d).walkState = 3 ∧
      (walkStepTimeout false d).rd F.IMG_WALK_STATUS_CAUSE = 2 := by
  have h : walkStepTimeout false d = (d.moveUndone x).abandonWalk 2 := by
    rw [walkStepTimeout, hx]
    exact (if_pos ht).trans (moveFails_of_step hr hw hrel hdue)
  obtain ⟨hstate, -, hcause⟩ := abandonWalk_spec (d.moveUndone x) 2
  rw [h]
  refine ⟨?_, ((within_abandonWalk _ 2).pierState_eq rfl hnew).trans (pierState_retireIdle _ hnew), hstate, hcause⟩
  rw [img_abandonWalk, img_moveUndone]

/-! ### The end of a step (R92, R93) -/

theorem within_setPierSlot (d : Dev) (p s : ℕ) : Within ⟨[.img], [], pierRegs⟩ d (d.setPierSlot p s) := by
  unfold Dev.setPierSlot
  exact .wrIx_pier ⟨rfl, rfl⟩ (.set_img .refl rfl) fun _ h => h

/-- The vacated pier is SPARE, with the staged slot's image. -/
def Dev.pierReloaded (d : Dev) (p : ℕ) : Dev := (d.wr (F.IMG_PIER_STATUS_STATE.ix p) 1).setPierSlot p (1 - d.liveSlot)

theorem within_pierReloaded (d : Dev) (hp : p < 17) : Within ⟨[.img], [], pierRegs⟩ d (d.pierReloaded p) :=
  .trans (.wr .refl (has_reg_ix hp rfl (mem_pierRegs hp))) (within_setPierSlot _ _ _)

theorem abandonDue_pierReloaded (d : Dev) (p : ℕ) : (d.pierReloaded p).img.abandonDue = d.img.abandonDue := by
  rw [Dev.pierReloaded, Dev.setPierSlot, Dev.wrIx_img]
  rfl

theorem pierState_pierReloaded (d : Dev) (hp : p < 17) : (d.pierReloaded p).pierState p = 1 := by
  unfold Dev.pierReloaded Dev.setPierSlot
  rw [Dev.wrIx_of_lt _ _ _ hp]
  exact (Dev.rd_wr_beside _ _ _ _ (show 8 + 3 ≤ 64 by decide) (.inl (show 8 + 3 ≤ 12 by decide))).trans
    (Dev.rd_wr_same _ _ _ (show 8 + 3 ≤ 64 by decide))

/-- The walk after its step. -/
def Dev.stepCounted (d : Dev) : Dev :=
  (d.wr F.IMG_WALK_STATUS_STEPS_DONE (d.stepsDone + 1)).wr F.IMG_WALK_STATUS_NEXT_OCTET ((d.stepsDone + 1) % 16)

/-- And when its next one is due. -/
def Dev.stepDone (d : Dev) : Dev :=
  { d.stepCounted with
    img := { d.img with reload := none, walkDue := spanAdd d.img.walkDue (d.stepCounted.rd F.IMG_WALK_INTERVAL_SPANS) } }

theorem within_stepDone (d : Dev) : Within ⟨[.img], [], [F.IMG_WALK_STATUS_STATE.off]⟩ d d.stepDone :=
  .set_img (.wr (.wr .refl rfl) rfl) rfl

theorem stepDone_spec (hn : d.stepsDone < 15) :
    d.stepDone.stepsDone = d.stepsDone + 1 ∧ d.stepDone.rd F.IMG_WALK_STATUS_NEXT_OCTET = d.stepsDone + 1 := by
  have hsteps : d.stepDone.stepsDone = (d.stepsDone + 1) % 32 :=
    (Dev.rd_wr_beside _ F.IMG_WALK_STATUS_NEXT_OCTET F.IMG_WALK_STATUS_STEPS_DONE _ (by decide) (by decide)).trans
      (Dev.rd_wr_same d F.IMG_WALK_STATUS_STEPS_DONE _ (by decide))
  have hnext : d.stepDone.rd F.IMG_WALK_STATUS_NEXT_OCTET = (d.stepsDone + 1) % 16 % 16 :=
    Dev.rd_wr_same _ F.IMG_WALK_STATUS_NEXT_OCTET _ (by decide)
  omega

theorem stepOver_of_more (hn : d.stepsDone < 15) (ha : d.img.abandonDue = none) : d.stepOver true none = d.stepDone.walkArm := by
  unfold Dev.stepOver
  dsimp only [Option.none_or, Dev.wr_img]
  split
  · exact if_neg (show ¬ d.stepsDone + 1 ≥ 16 by omega)
  · rename_i h
    cases ha.symm.trans h

theorem pierReloadDone_eq (hs : d.dgn.stopped = none) (hrel : d.img.reload = some p) (h2 : d.pierState p = 2) :
    pierReloadDone p true d = (d.pierReloaded p).stepOver true none := by
  rw [pierReloadDone, hs, if_neg (by simp), if_neg (by simp [hrel, h2])]
  rfl

theorem pierReloadDone_spec (hp : p < 17) (hs : d.dgn.stopped = none) (hrel : d.img.reload = some p) (h2 : d.pierState p = 2)
    (hn : d.stepsDone < 15) (ha : d.img.abandonDue = none) :
    (pierReloadDone p true d).pierState p = 1 ∧ (pierReloadDone p true d).img.reload = none ∧
      (pierReloadDone p true d).stepsDone = d.stepsDone + 1 ∧
      (pierReloadDone p true d).rd F.IMG_WALK_STATUS_NEXT_OCTET = d.stepsDone + 1 := by
  have hsteps : (d.pierReloaded p).stepsDone = d.stepsDone := (within_pierReloaded d hp).rd_eq rfl
  have harm := within_walkArm (d.pierReloaded p).stepDone
  have htimes : WalkTimesOnly (d.pierReloaded p).stepDone (d.pierReloaded p).stepDone.walkArm := .walkArm
  obtain ⟨hcount, hnext⟩ := stepDone_spec (hsteps.trans_lt hn)
  rw [pierReloadDone_eq hs hrel h2, stepOver_of_more (hsteps.trans_lt hn) ((abandonDue_pierReloaded d p).trans ha)]
  refine ⟨(harm.pierState_eq rfl hp).trans (((within_stepDone _).pierState_eq rfl hp).trans (pierState_pierReloaded d hp)), ?_,
    (harm.rd_eq rfl).trans (hcount.trans (congrArg (· + 1) hsteps)), (harm.rd_eq rfl).trans (hnext.trans (congrArg (· + 1) hsteps))⟩
  rw [htimes]
  rfl

end

end

/-- Settles O6: each command by the case of the walk that it meets. -/
theorem walkCommandsComplete : Obligations.WalkCommandsComplete := by
  unfold Obligations.WalkCommandsComplete
  refine ⟨fun s m hw hbar => .of_onReg rfl hw (walkStart_spec (d := s.dev.noAbort) hbar), fun s m hw hbar => .of_onReg rfl hw ?_,
    fun s m hw h5 h6 hstate hstep => .of_onReg rfl hw (walkAbandon_spec (d := s.dev.noAbort) h5 h6 hstate hstep),
    fun s m hw hbar hn => .of_onReg rfl hw (walkResume_spec (d := s.dev.noAbort) hbar hn),
    fun s x hx hr hc hne hold hnew ho => .of_exec rfl (walkStepCommit_spec hx hr hc hne hold hnew ho),
    fun s x hx hr ht hstate hrel hdue hnew => .of_exec rfl (walkStepTimeout_spec hx hr ht hstate hrel hdue hnew),
    fun s p hs hrel h2 hn ha => .of_exec rfl (pierReloadDone_spec p.isLt hs hrel h2 hn ha)⟩
  obtain ⟨hcause, hstate, hposts⟩ := walkRefuse_spec s.dev.noAbort m.val false
  rw [show walkStart m.val s.dev.noAbort = s.dev.noAbort.walkRefuse m.val (s.dev.noAbort.walkBar m.val false) from if_pos hbar]
  exact ⟨hcause, hstate, rfl, hposts⟩

end Sys2Proof.Machine
end

