-- ==== Sys2Proof/Proofs/Records.lean ====
section
/-! PROOF. Records are only added to those posted: what a step posts comes after what was posted before it (R31, R393). -/

namespace Sys2Proof.Machine

/-- The device `e` has posted what `d` has, and perhaps more after it. -/
def Appends (d e : Dev) : Prop := d.posted <+: e.posted

section
variable {S : Scope} {a d e : Dev}

theorem Appends.refl : Appends d d := List.prefix_refl _

theorem Appends.trans (h : Appends a d) (h' : Appends d e) : Appends a e := List.IsPrefix.trans h h'

theorem Appends.same (h : Appends a d) (he : e.posted = d.posted) : Appends a e := by rwa [Appends, he]

/-- A step outside whose scope the records lie, after steps that add to them. -/
theorem Appends.within (h : Appends a d) (hw : Within S d e) (hp : Part.posted ∉ S.parts) : Appends a e := h.same (hw.1 .posted hp)

theorem Appends.post {ev : EvDesc} {l : List (ℕ × ℕ × ℕ)} (h : Appends a d) : Appends a (d.post ev l) := h.trans (List.prefix_append _ _)

theorem Appends.ite {c : Prop} [Decidable c] {x y : Dev} (hx : Appends a x) (hy : Appends a y) : Appends a (if c then x else y) := by
  split
  · exact hx
  · exact hy

theorem Appends.each {α : Type} {l : List α} {f : α → Dev → Dev} (h : Appends a d) (hf : ∀ x e, Appends a e → Appends a (f x e)) :
    Appends a (d.each l f) := Dev.each_induction (Appends a) f hf l d h

theorem Appends.noteMode {b : Dev} (h : Appends a d) : Appends a (Dev.noteMode b d) := .ite h h.post

/-- The events that a step adds. -/
theorem Appends.exists_posts (h : Appends d e) : ∃ l, Posts d e l := by
  obtain ⟨t, ht⟩ := h
  refine ⟨t.map fun r => ⟨r.code, r.cls⟩, ?_⟩
  rw [Posts, ← ht, List.map_append, List.map_map]
  rfl

/-- A step that posts one event for each item of a list. -/
theorem posts_each {α : Type} {f : α → Dev → Dev} {ev : EvDesc} (h : ∀ x e, Posts e (f x e) [ev]) (l : List α) (d : Dev) :
    Posts d (d.each l f) (l.map fun _ => ev) := by
  induction l generalizing d with
  | nil => exact (List.append_nil _).symm
  | cons x t ih => exact (h x d).trans (ih (f x d))

/-! ### Check units (R443) -/

theorem Appends.unitCompares {u : ℕ} {l : List Byte} (h : Appends a d) : Appends a (d.unitCompares u l).2 := by
  unfold Dev.unitCompares
  dsimp only
  split <;> exact .post h

theorem Appends.streamEnds {point seg : ℕ} {given : Option (List Byte)} (h : Appends a d) : Appends a (d.streamEnds point seg given).2 := by
  unfold Dev.streamEnds
  generalize d.runningAt point seg = l
  have hstep : ∀ x : Bool × Dev, Appends a x.2 → Appends a (l.foldl (fun x u => (x.1 || (x.2.unitCompares u
      (given.getD (x.2.unit u).seen)).1, (x.2.unitCompares u (given.getD (x.2.unit u).seen)).2)) x).2 := by
    induction l with
    | nil => exact fun _ hx => hx
    | cons u t ih => exact fun x hx => ih _ hx.unitCompares
  exact hstep (false, d) h

theorem posts_unitIncomplete (u : ℕ) (d : Dev) : Posts d (d.unitIncomplete u) [Ev.DGN_CU_DONE] :=
  posts_post (d.wr (F.DGN_CU_STATUS_STATE.ix u) 5) _ _

/-- Every unit that measures a stream which its owner ends says so. -/
theorem posts_streamStops (d : Dev) (point seg : ℕ) :
    Posts d (d.streamStops point seg) ((d.runningAt point seg).map fun _ => Ev.DGN_CU_DONE) := posts_each posts_unitIncomplete _ d

/-! ### Roots (R251) -/

theorem Appends.setRoots {posted : Bool} (h : Appends a d) : Appends a (d.setRoots posted) := by
  refine .each h fun p e he => ?_
  split
  · exact he
  refine .ite he ?_
  dsimp only
  split
  · exact .post he
  · exact he

/-! ### Fabric links (R309, R436) -/

theorem Appends.capacity {n : ℕ} (h : Appends a d) : Appends a (d.capacity n) := .ite (.post h) (.ite (.post h) h)

theorem Appends.linkGoesDown {i cause : ℕ} (h : Appends a d) : Appends a (d.linkGoesDown i cause) := by
  unfold Dev.linkGoesDown
  extract_lets _ _ marked told _ _ _ _ ended cellsLost capacityTold
  have hmarked : Appends a (marked.wr (F.FAB_LINK_STAT_CAUSE.ix i) cause) := h.same rfl
  have htold : Appends a told := hmarked.post
  have hended : Appends a ended := htold.same rfl
  have hlost : Appends a cellsLost := .ite hended (.post (hended.same rfl))
  have hcap : Appends a capacityTold := hlost.capacity
  exact .ite (.post (.same hcap rfl)) hcap

theorem Appends.allLinksDown {cause st : ℕ} (h : Appends a d) : Appends a (d.allLinksDown cause st) := by
  unfold Dev.allLinksDown
  extract_lets _ off down cleared states
  have hoff : Appends a off := h.same rfl
  have hdown : Appends a down := hoff.each fun _ _ he => he.linkGoesDown
  have hcleared : Appends a cleared := hdown.same rfl
  have hstates : Appends a states := hcleared.each fun _ _ he => he.same rfl
  clear_value states
  exact .ite (hstates.same rfl) hstates

end

end Sys2Proof.Machine
end

