-- ==== Sys2Proof/Proofs/ImageLoads.lean ====
section
/-! PROOF. The image loads (R81 to R83, R85, R87, R439, R443): what a start, a failure and a passed check leave. -/

namespace Sys2Proof.Machine

section
variable {d e : Dev} {m t : ℕ} {ld : LoadOp} {im : Image} {l raw : List Byte}

/-! ### Slots -/

theorem slotImage_setSlot (d : Dev) (n : ℕ) (x : Option (Image × List Byte)) : (d.setSlot n x).slotImage n = x.map (·.1) :=
  SMap.get_set_same ..

theorem slotImage_of_slots (h : e.img.slots = d.img.slots) (n : ℕ) : e.slotImage n = d.slotImage n := by
  rw [Dev.slotImage, Dev.slotImage, h]

theorem Within.liveImage_eq {S : Scope} (h : Within S d e) (hi : Part.img ∉ S.parts)
    (hs : S.has (F.IMG_STATUS_LIVE_SLOT.off % 0x20000000) = false) (ht : S.has (F.TIM_EPOCH_EPOCH.off % 0x20000000) = false) :
    e.liveImage = d.liveImage := by
  have himg : e.img = d.img := h.1 .img hi
  simp only [Dev.liveImage, Dev.bankImage, Dev.bankSlot, Dev.slotImage, h.liveTag_eq ht, h.rd_eq hs, himg]

/-! ### The start of a load (R81, R82, R85) -/

/-- The load that a start begins. -/
abbrev Dev.newLoad (d : Dev) (m t : ℕ) : LoadOp := ⟨t, d.rd F.IMG_LOAD_ADDR_ADDR * 64, d.rd F.IMG_LOAD_LEN, m, none⟩

/-- The load under way. -/
def Dev.loadBegun (d : Dev) (m t : ℕ) : Dev :=
  (({ d.streamBegins 1 0 0 with img := { (d.streamBegins 1 0 0).img with load := some (d.newLoad m t) } }).wr F.IMG_STATUS_LOAD_BUSY 1).wr
    F.IMG_LOAD_PROGRESS_BYTES 0

/-- A slot emptied, whose image the live banks keep for a target other than 0. -/
def Dev.slotEmptied (d : Dev) (t slot : ℕ) (but : Option ℕ) : Dev := (d.when (t != 0) fun e => e.keepImages slot but).setSlot slot none

/-- And the target's own slot. -/
def Dev.targetEmptied (d : Dev) (m t : ℕ) : Dev := (d.loadBegun m t).slotEmptied t (d.targetSlot t) (if t = 2 then d.sparePier else none)

theorem imgLoadStart_of_refused (h : d.loadBar t ≠ 0) :
    imgLoadStart m t d = d.post Ev.IMG_LOAD_REFUSED [(24, 1, t), (25, 1, d.loadBar t), (26, 1, m)] := if_pos h

theorem imgLoadStart_of_accepted (h : d.loadBar t = 0) : imgLoadStart m t d =
    (if t = 0 then (d.targetEmptied m t).wr F.IMG_STATUS_LIVE_VALID 0
      else (d.targetEmptied m t).wr F.IMG_STATUS_STAGED_STATE 1).showSlots := by
  rw [imgLoadStart, h]
  rfl

theorem load_keepImages (d : Dev) (slot : ℕ) (but : Option ℕ) : (d.keepImages slot but).img.load = d.img.load := by
  unfold Dev.keepImages
  refine Dev.each_induction (fun e => e.img.load = d.img.load) _ ?_ _ d rfl
  exact fun _ _ he => he

/-- Emptying a slot leaves the load in progress. -/
theorem load_slotEmptied (d : Dev) (t slot : ℕ) (but : Option ℕ) : (d.slotEmptied t slot but).img.load = d.img.load := by
  unfold Dev.slotEmptied Dev.when
  split
  · exact load_keepImages d slot but
  · rfl

theorem within_slotEmptied (d : Dev) (t slot : ℕ) (but : Option ℕ) : Within ⟨[.img], [], []⟩ d (d.slotEmptied t slot but) :=
  .setSlot (.when .refl fun _ => .keepImages .refl rfl) rfl

theorem load_targetEmptied (d : Dev) (m t : ℕ) : (d.targetEmptied m t).img.load = some (d.newLoad m t) :=
  load_slotEmptied (d.loadBegun m t) ..

theorem busy_targetEmptied (d : Dev) (m t : ℕ) : (d.targetEmptied m t).rd F.IMG_STATUS_LOAD_BUSY = 1 := by
  rw [Dev.targetEmptied, (within_slotEmptied _ _ _ _).rd_eq rfl, Dev.loadBegun, Dev.rd_wr_off _ _ _ _ (by decide),
    Dev.rd_wr_same _ _ _ (by decide)]
  rfl

theorem imgLoadStart_spec (h : d.loadBar t = 0) : (imgLoadStart m t d).img.load = some (d.newLoad m t) ∧
    (imgLoadStart m t d).on F.IMG_STATUS_LOAD_BUSY = true ∧ (t = 0 → (imgLoadStart m t d).on F.IMG_STATUS_LIVE_VALID = false) ∧
    (t ≠ 0 → (imgLoadStart m t d).staged = 1) := by
  have hbusy : ∀ (f : Fld) x, f.lo + f.w ≤ 9 → ((d.targetEmptied m t).wr f x).on F.IMG_STATUS_LOAD_BUSY = true := fun f x hf =>
    Dev.on_of_rd (((d.targetEmptied m t).rd_wr_beside f _ x (by decide) (.inr hf)).trans (busy_targetEmptied d m t)) one_ne_zero
  rw [imgLoadStart_of_accepted h]
  split
  case isTrue ht =>
    have hs := within_showSlots ((d.targetEmptied m t).wr F.IMG_STATUS_LIVE_VALID 0)
    refine ⟨(congrArg Img.load (hs.1 .img (by decide))).trans (load_targetEmptied d m t), (hs.on_eq rfl).trans (hbusy _ _ (by decide)),
      fun _ => (hs.on_eq rfl).trans (Dev.off_wr_zero _ _ (by decide)), fun h0 => absurd ht h0⟩
  case isFalse ht =>
    have hs := within_showSlots ((d.targetEmptied m t).wr F.IMG_STATUS_STAGED_STATE 1)
    refine ⟨(congrArg Img.load (hs.1 .img (by decide))).trans (load_targetEmptied d m t), (hs.on_eq rfl).trans (hbusy _ _ (by decide)),
      fun h0 => absurd h0 ht, fun _ => (hs.rd_eq rfl).trans (Dev.rd_wr_same _ _ _ (by decide))⟩

/-! ### The end of a load -/

theorem loadOver_spec (d : Dev) (t st : ℕ) : (d.loadOver t st).img = { d.img with load := none } ∧
    (d.loadOver t st).on F.IMG_STATUS_LOAD_BUSY = false ∧ (t ≠ 0 → (d.loadOver t st).staged = st % 8) ∧
    (d.loadOver t st).liveSlot = d.liveSlot := by
  unfold Dev.loadOver
  split
  case isTrue ht =>
    exact ⟨rfl, Dev.off_wr_zero _ _ (by decide), fun h0 => absurd ht h0, Dev.rd_wr_beside _ _ _ _ (by decide) (by decide)⟩
  case isFalse =>
    refine ⟨rfl, ?_, fun _ => Dev.rd_wr_same _ _ _ (by decide), ?_⟩
    · rw [Dev.on, Dev.rd_wr_beside _ _ _ _ (by decide) (by decide)]
      exact Dev.off_wr_zero _ _ (by decide)
    · exact (Dev.rd_wr_beside _ _ _ _ (by decide) (by decide)).trans (Dev.rd_wr_beside _ _ _ _ (by decide) (by decide))

theorem within_loadOver (d : Dev) (t st : ℕ) : Within ⟨[.img], [], [F.IMG_STATUS_LOAD_BUSY.off]⟩ d (d.loadOver t st) := .loadOver .refl rfl

/-! ### A load without success (R83, R87) -/

/-- What a load without success leaves: none in progress, its cause, the target's state, and the event last of those it posts. -/
structure LoadEnds (d e : Dev) (ld : LoadOp) (cause st : ℕ) (evs : List EvDesc) : Prop where
  load : e.img.load = none
  busy : e.on F.IMG_STATUS_LOAD_BUSY = false
  cause : e.rd F.IMG_LOAD_STATUS_CAUSE = cause % 256
  staged : ld.target ≠ 0 → e.staged = st % 8
  posts : Posts d e (evs ++ [Ev.IMG_LOAD_FAIL])

/-- What was posted before the load ended comes before its event. -/
theorem LoadEnds.after {cause st : ℕ} {evs evs' : List EvDesc} {a : Dev} (hp : Posts a d evs) (h : LoadEnds d e ld cause st evs') :
    LoadEnds a e ld cause st (evs ++ evs') where
  load := h.load
  busy := h.busy
  cause := h.cause
  staged := h.staged
  posts := by rw [List.append_assoc]; exact hp.trans h.posts

theorem loadFails_ends (h : d.img.load = some ld) (cause sec ofs st : ℕ) : LoadEnds d (d.loadFails cause sec ofs st) ld cause st [] := by
  have hf : d.loadFails cause sec ofs st = ((((d.wr F.IMG_LOAD_STATUS_CAUSE cause).wr F.IMG_LOAD_STATUS_SECTION sec).wr
      F.IMG_LOAD_PROGRESS_BYTES ofs).loadOver ld.target st).post Ev.IMG_LOAD_FAIL
        [(24, 1, ld.target), (25, 1, cause), (26, 1, sec), (28, 4, ofs)] := by rw [Dev.loadFails, h]
  obtain ⟨himg, hbusy, hstaged, -⟩ := loadOver_spec (((d.wr F.IMG_LOAD_STATUS_CAUSE cause).wr F.IMG_LOAD_STATUS_SECTION sec).wr
    F.IMG_LOAD_PROGRESS_BYTES ofs) ld.target st
  have hw := within_loadOver (((d.wr F.IMG_LOAD_STATUS_CAUSE cause).wr F.IMG_LOAD_STATUS_SECTION sec).wr F.IMG_LOAD_PROGRESS_BYTES ofs)
    ld.target st
  rw [hf]
  refine ⟨congrArg Img.load himg, hbusy, ?_, hstaged, ?_⟩
  · rw [Dev.rd_post, hw.rd_eq rfl, Dev.rd_wr_off _ _ _ _ (by decide), Dev.rd_wr_beside _ _ _ _ (by decide) (by decide)]
    exact Dev.rd_wr_same _ _ _ (by decide)
  · rw [Posts, show d.posted = _ from (hw.1 .posted (by decide)).symm]
    exact posts_post _ _ _

/-- A load that something outside the image stops, with the units that measure it. -/
theorem loadStops_ends (h : d.img.load = some ld) (cause st : ℕ) :
    LoadEnds d (d.loadStops cause st) ld cause st ((d.runningAt 1 0).map fun _ => Ev.DGN_CU_DONE) := by
  have hw : Within ⟨[.posted], [17], []⟩ d (d.streamStops 1 0) := .streamStops .refl rfl
  have hload : (d.streamStops 1 0).takeFree.2.img.load = some ld := (congrArg Img.load (hw.1 .img (by decide))).trans h
  have hstops : d.loadStops cause st =
      (d.streamStops 1 0).takeFree.2.loadFails cause 0 ((d.streamStops 1 0).takeFree.1 % (ld.len + 1)) st := by rw [Dev.loadStops, h]
  have hposts : Posts d (d.streamStops 1 0).takeFree.2 ((d.runningAt 1 0).map fun _ => Ev.DGN_CU_DONE) := posts_streamStops d 1 0
  rw [hstops, ← List.append_nil (List.map _ _)]
  exact (loadFails_ends hload _ _ _ _).after hposts

/-! ### The checks of an image (R83, R443) -/

/-- The bytes of the image that a load reads. -/
abbrev LoadOp.image (ld : LoadOp) (l : List Byte) : List Byte := bytesAt (ld.streamed.getD l) 0 (min ld.len imageMax)

/-- The device once every unit that measures the image has compared. -/
def Dev.measured (d : Dev) (raw : List Byte) : Dev := (d.streamEnds 1 0 (some raw)).2

/-- The outcome of the checks but the signature. -/
abbrev Dev.checked (d : Dev) (ld : LoadOp) (raw : List Byte) : LoadFail ⊕ Image :=
  checkImage raw ld.len d.sec.fuses.variantS (d.rd F.IMG_MIN_SVN_SVN) (d.rd F.CTL_FW_VERSION_VERSION) ld.target d.liveImage

/-- The cause for which the signature fails; 0: it passes. -/
abbrev Dev.signCause (d : Dev) (ld : LoadOp) (raw : List Byte) (im : Image) : ℕ :=
  sigCause imageContext (bytesAt raw (ld.len - 256) 256) (leBytes 64 im.digest.toNat) d.sec.fuses.imgKeys (d.sec.fuses.revoke.toNat >>> 2)

/-- The failed signature told and recorded. -/
def Dev.unsigned (d : Dev) (ld : LoadOp) (im : Image) (why : ℕ) : Dev :=
  let d1 := (d.loadOver ld.target 6).post Ev.IMG_SIG_FAIL [(24, 1, ld.target), (25, 1, im.keySlot), (26, 1, why)]
  { d1 with sec := { d1.sec with imgFailed := some ⟨ld.target, im.svn, im.compatId, im.digest⟩ } }

theorem within_measured (d : Dev) (raw : List Byte) : Within ⟨[.posted], [17], []⟩ d (d.measured raw) := .streamEnds .refl rfl

theorem load_measured (h : d.img.load = some ld) : (d.measured raw).img.load = some ld :=
  (congrArg Img.load ((within_measured d raw).1 .img (by decide))).trans h

theorem exists_posts_measured (d : Dev) (raw : List Byte) : ∃ a, Posts d (d.measured raw) a := Appends.exists_posts (.streamEnds .refl)

theorem imgLoadEnd_of_dma {tamper : Bool} (h : d.img.load = some ld) : imgLoadEnd none tamper d = d.loadStops LoadCause.dma 6 := by
  unfold imgLoadEnd
  rw [h]

theorem imgLoadEnd_of_stop {tamper : Bool} (h : d.img.load = some ld) (hs : (d.streamEnds 1 0 (some (ld.image l))).1 = true) :
    imgLoadEnd (some l) tamper d = (d.measured (ld.image l)).loadStops LoadCause.checkUnit 6 := by
  unfold imgLoadEnd
  rw [h]
  exact if_pos hs

/-- With no unit that ends it, a load is for the checks. -/
theorem imgLoadEnd_of_measured {tamper : Bool} (h : d.img.load = some ld) (hs : (d.streamEnds 1 0 (some (ld.image l))).1 = false) :
    imgLoadEnd (some l) tamper d = match d.checked ld (ld.image l) with
      | .inl f => (d.measured (ld.image l)).loadFails f.cause f.section_ f.ofs 6
      | .inr im => if d.signCause ld (ld.image l) im = 0 then (d.measured (ld.image l)).loadPasses ld im (ld.image l)
        else if tamper then ((d.measured (ld.image l)).unsigned ld im (d.signCause ld (ld.image l) im)).postTamper.quarantine 11 12
        else ((d.measured (ld.image l)).unsigned ld im (d.signCause ld (ld.image l) im)).quarantine 12 := by
  have hw := within_measured d (ld.image l)
  have hlive : (d.measured (ld.image l)).liveImage = d.liveImage := hw.liveImage_eq (by decide) rfl rfl
  have hcheck : checkImage (ld.image l) ld.len (d.measured (ld.image l)).sec.fuses.variantS ((d.measured (ld.image l)).rd F.IMG_MIN_SVN_SVN)
      (d.rd F.CTL_FW_VERSION_VERSION) ld.target (d.measured (ld.image l)).liveImage = d.checked ld (ld.image l) := by
    rw [hlive, hw.1 .sec (by decide), hw.rd_eq rfl]
  unfold imgLoadEnd Dev.signCause
  rw [← hcheck, ← show (d.measured (ld.image l)).sec = d.sec from hw.1 .sec (by decide), h]
  exact (if_neg (Bool.eq_false_iff.1 hs)).trans rfl

/-! ### An image that passes (R85) -/

/-- The target's slot with the image. -/
def Dev.imageStored (d : Dev) (ld : LoadOp) (im : Image) (raw : List Byte) : Dev :=
  ((((d.loadOver ld.target (if ld.target = 1 then 3 else 4)).setSlot (d.targetSlot ld.target) (some (im, raw))).setReg
    F.IMG_LOAD_STATUS.off 0).wr F.IMG_LOAD_PROGRESS_BYTES ld.len).showSlots

/-- What the image in its slot changes besides the end of the load. -/
theorem within_imageStored (d : Dev) (ld : LoadOp) (im : Image) (raw : List Byte) :
    Within ⟨[.img], [], [F.IMG_LOAD_STATUS.off, F.IMG_LOAD_PROGRESS_BYTES.off] ++ slotRegs⟩
      (d.loadOver ld.target (if ld.target = 1 then 3 else 4)) (d.imageStored ld im raw) := by
  unfold Dev.imageStored
  exact .trans (.wr (.setReg (.setSlot .refl rfl) rfl) rfl) ((within_showSlots _).mono rfl)

theorem img_imageStored (d : Dev) (ld : LoadOp) (im : Image) (raw : List Byte) : (d.imageStored ld im raw).img =
    ((d.loadOver ld.target (if ld.target = 1 then 3 else 4)).setSlot (d.targetSlot ld.target) (some (im, raw))).img :=
  (within_showSlots _).1 .img (by decide)

theorem imageStored_spec (d : Dev) (ld : LoadOp) (im : Image) (raw : List Byte) : (d.imageStored ld im raw).img.load = none ∧
    (d.imageStored ld im raw).slotImage (d.targetSlot ld.target) = some im ∧ (d.imageStored ld im raw).liveSlot = d.liveSlot ∧
    (ld.target = 1 → (d.imageStored ld im raw).staged = 3) ∧ (d.imageStored ld im raw).posted = d.posted ∧
    (d.imageStored ld im raw).mode = d.mode := by
  have hw := within_imageStored d ld im raw
  have hover := within_loadOver d ld.target (if ld.target = 1 then 3 else 4)
  have himg := img_imageStored d ld im raw
  obtain ⟨hload, -, hstaged, hslot⟩ := loadOver_spec d ld.target (if ld.target = 1 then 3 else 4)
  refine ⟨?_, ?_, (hw.rd_eq rfl).trans hslot, fun h1 => ?_, (hw.1 .posted (by decide)).trans (hover.1 .posted (by decide)),
    (hw.mode_eq (by decide)).trans (hover.mode_eq (by decide))⟩
  · rw [himg]
    exact congrArg Img.load hload
  · rw [slotImage_of_slots (congrArg Img.slots himg), slotImage_setSlot]
    rfl
  · refine (hw.rd_eq rfl).trans ((hstaged (by omega)).trans ?_)
    rw [if_pos h1]

/-- What its target does with the image. -/
def Dev.imageTaken (d : Dev) (ld : LoadOp) (im : Image) (raw : List Byte) : Dev :=
  if ld.target = 0 then (d.imageStored ld im raw).liveLoaded im
  else if ld.target = 2 then match (d.imageStored ld im raw).sparePier with
    | some p => (d.imageStored ld im raw).setPierSlot p (d.targetSlot ld.target)
    | none => d.imageStored ld im raw
  else d.imageStored ld im raw

/-- The passed load told. -/
def Dev.loadTold (d : Dev) (ld : LoadOp) (im : Image) (raw : List Byte) : Dev := (d.imageTaken ld im raw).post Ev.IMG_LOAD_DONE
  [(24, 1, ld.target), (25, 1, d.targetSlot ld.target), (28, 4, im.len), (32, 4, im.compatId), (36, 2, im.svn)]

/-- M2 entered from M1, which waited for a live image. -/
def Dev.entersM2 (d : Dev) : Dev := (d.setMode .m2).wr F.SEC_BOOT_STATUS_PHASE 6

theorem loadPasses_eq (d : Dev) (ld : LoadOp) (im : Image) (raw : List Byte) : d.loadPasses ld im raw =
    if ld.target = 0 ∧ (d.loadTold ld im raw).mode = .m1 then (d.loadTold ld im raw).withMode Dev.entersM2 else d.loadTold ld im raw := rfl

theorem imageTaken_of_live (h : ld.target = 0) : d.imageTaken ld im raw = (d.imageStored ld im raw).liveLoaded im := if_pos h

theorem imageTaken_of_staged (h : ld.target = 1) : d.imageTaken ld im raw = d.imageStored ld im raw :=
  (if_neg (by omega)).trans (if_neg (by omega))

theorem loadPasses_of_staged (h : ld.target = 1) (raw : List Byte) :
    (d.loadPasses ld im raw).img.load = none ∧ (d.loadPasses ld im raw).staged = 3 ∧
    (d.loadPasses ld im raw).slotImage (1 - d.liveSlot) = some im ∧ Posts d (d.loadPasses ld im raw) [Ev.IMG_LOAD_DONE] := by
  obtain ⟨hload, hslot, -, hstaged, hposted, -⟩ := imageStored_spec d ld im raw
  have h0 : ld.target ≠ 0 := by omega
  rw [loadPasses_eq, if_neg fun hc => h0 hc.1, Dev.loadTold, imageTaken_of_staged h]
  rw [Dev.targetSlot, if_neg h0] at hslot
  generalize d.imageStored ld im raw = x at hload hslot hstaged hposted ⊢
  have hw : Within ⟨[.posted], [], []⟩ x (x.post Ev.IMG_LOAD_DONE
      [(24, 1, ld.target), (25, 1, d.targetSlot ld.target), (28, 4, im.len), (32, 4, im.compatId), (36, 2, im.svn)]) := .post .refl rfl
  have himg := hw.1 .img (by decide)
  refine ⟨(congrArg Img.load himg).trans hload, (hw.rd_eq rfl).trans (hstaged h),
    (slotImage_of_slots (congrArg Img.slots himg) _).trans hslot, ?_⟩
  rw [Posts, ← hposted]
  exact posts_post x Ev.IMG_LOAD_DONE _

/-! ### A live image (R85) -/

/-- The store as it was. -/
def KeepsStore (d e : Dev) : Prop := e.img.load = d.img.load ∧ e.img.slots = d.img.slots

/-- What a live image does to a pier: it is loaded, and its live bank follows the live slot. -/
def Dev.pierLoaded (p : ℕ) (d : Dev) : Dev :=
  let d1 := if d.pierState p = 4 then d.wr (F.IMG_PIER_STATUS_STATE.ix p) (if d.on (F.IMG_PIER_STATUS_SERVING.ix p) then 0 else 1) else d
  if d1.pierState p = 3 then d1 else d1.setPierSlot p d1.liveSlot

theorem within_pierLoaded {p : ℕ} (d : Dev) (hp : p < 17) : Within ⟨[.img], [], pierRegs⟩ d (Dev.pierLoaded p d) := by
  have hstate : Within ⟨[.img], [], pierRegs⟩ d (if d.pierState p = 4 then
      d.wr (F.IMG_PIER_STATUS_STATE.ix p) (if d.on (F.IMG_PIER_STATUS_SERVING.ix p) then 0 else 1) else d) :=
    .ite (.wr .refl (has_reg_ix hp rfl (mem_pierRegs hp))) .refl
  exact .ite hstate (hstate.trans (within_setPierSlot _ _ _))

theorem KeepsStore.setPierSlot {a : Dev} {p s : ℕ} (h : KeepsStore a d) : KeepsStore a (d.setPierSlot p s) := by
  unfold KeepsStore Dev.setPierSlot
  rwa [Dev.wrIx_img]

theorem KeepsStore.ite {a x y : Dev} {c : Prop} [Decidable c] (hx : KeepsStore a x) (hy : KeepsStore a y) :
    KeepsStore a (if c then x else y) := by
  split
  · exact hx
  · exact hy

theorem KeepsStore.pierLoaded {a : Dev} {p : ℕ} (h : KeepsStore a d) : KeepsStore a (Dev.pierLoaded p d) := by
  have hstate : KeepsStore a (if d.pierState p = 4 then
      d.wr (F.IMG_PIER_STATUS_STATE.ix p) (if d.on (F.IMG_PIER_STATUS_SERVING.ix p) then 0 else 1) else d) := .ite h h
  exact .ite hstate hstate.setPierSlot

/-- The piers and banks of a live image, with its seeds, and the places of the tables emptied. -/
def Dev.piersLoaded (d : Dev) : Dev := (d.wr F.IMG_STATUS_LIVE_VALID 1).each (List.range 17) Dev.pierLoaded

theorem within_piersLoaded (d : Dev) : Within ⟨[.img], [], pierRegs⟩ (d.wr F.IMG_STATUS_LIVE_VALID 1) d.piersLoaded :=
  .each .refl fun _ hp e he => he.trans (within_pierLoaded e (List.mem_range.1 hp))

theorem keepsStore_piersLoaded (d : Dev) : KeepsStore d d.piersLoaded :=
  Dev.each_induction (KeepsStore d) _ (fun _ _ he => he.pierLoaded) _ _ ⟨rfl, rfl⟩

/-- The seeds in force. -/
def Dev.seedsTaken (d : Dev) (im : Image) : Dev :=
  { d with
    img := { d.img with seeds := imageSeeds im (d.bankImage (1 - d.liveTag)) d.img.seeds }
    tbl := { d.tbl with places := [] } }

/-- The port modes and the roots. -/
def Dev.portsTaken (d : Dev) (im : Image) : Dev :=
  (d.each (im.ports.take 128).zipIdx fun x d => d.wr (F.LPT_STATUS_MODE.port x.2) (if x.1.present then x.1.mode else 0)).setRoots false

theorem liveLoaded_eq (d : Dev) (im : Image) : d.liveLoaded im = ((d.piersLoaded.seedsTaken im).portsTaken im).applyTmProfile := rfl

theorem within_portsTaken (d : Dev) (im : Image) : Within ⟨[.posted, .que], [4, 8], []⟩ d (d.portsTaken im) :=
  .setRoots (.each .refl fun _ hx _ he => .wr he (has_port (snd_lt_of_mem_zipIdx_take hx) rfl)) rfl

theorem Appends.portsTaken (d : Dev) (im : Image) : Appends d (d.portsTaken im) :=
  .setRoots (.each .refl fun _ _ he => he.same rfl)

theorem within_applyTmProfile (d : Dev) : Within ⟨[.shp], [8, 9], []⟩ d d.applyTmProfile := .applyTmProfile .refl rfl

theorem within_seedsTaken (d : Dev) (im : Image) : Within ⟨[.img, .tbl], [], []⟩ d (d.seedsTaken im) := .set_img_tbl .refl rfl rfl

/-- What follows the piers and the seeds touches the port modes, the roots and the TM profile. -/
theorem within_liveLoaded (d : Dev) (im : Image) :
    Within ⟨[.posted, .que, .shp], [4, 8, 9], []⟩ (d.piersLoaded.seedsTaken im) (d.liveLoaded im) := by
  rw [liveLoaded_eq]
  exact ((within_portsTaken _ im).mono rfl).trans ((within_applyTmProfile _).mono rfl)

theorem Appends.liveLoaded (d : Dev) (im : Image) : Appends d (d.liveLoaded im) := by
  have hvalid : Appends d (d.wr F.IMG_STATUS_LIVE_VALID 1) := .same .refl rfl
  have hseeds : Appends d (d.piersLoaded.seedsTaken im) :=
    (hvalid.within (within_piersLoaded d) (by decide)).within (within_seedsTaken _ im) (by decide)
  rw [liveLoaded_eq]
  exact (hseeds.trans (.portsTaken _ im)).within (within_applyTmProfile _) (by decide)

theorem liveLoaded_spec (d : Dev) (im : Image) : KeepsStore d (d.liveLoaded im) ∧ (d.liveLoaded im).on F.IMG_STATUS_LIVE_VALID = true ∧
    (d.liveLoaded im).liveSlot = d.liveSlot ∧ (d.liveLoaded im).tbl.places = [] ∧ (d.liveLoaded im).mode = d.mode := by
  have hlive := within_liveLoaded d im
  have hseeds := within_seedsTaken d.piersLoaded im
  have hpiers := within_piersLoaded d
  have himg : (d.liveLoaded im).img = (d.piersLoaded.seedsTaken im).img := hlive.1 .img (by decide)
  refine ⟨?_, ?_, ?_, congrArg Tbl.places (hlive.1 .tbl (by decide)), ?_⟩
  · rw [KeepsStore, himg]
    exact keepsStore_piersLoaded d
  · rw [hlive.on_eq rfl, hseeds.on_eq rfl, hpiers.on_eq rfl]
    exact Dev.on_wr_one d _ (by decide) rfl
  · rw [Dev.liveSlot, hlive.rd_eq rfl, hseeds.rd_eq rfl, hpiers.rd_eq rfl]
    exact Dev.rd_wr_beside d _ _ _ (by decide) (by decide)
  · rw [hlive.mode_eq (by decide), hseeds.mode_eq (by decide), hpiers.mode_eq (by decide)]
    rfl

/-- What a live image leaves. -/
structure LiveHeld (d e : Dev) (im : Image) : Prop where
  load : e.img.load = none
  valid : e.on F.IMG_STATUS_LIVE_VALID = true
  image : e.slotImage d.liveSlot = some im
  slot : e.liveSlot = d.liveSlot
  places : e.tbl.places = []

theorem LiveHeld.of_within {S : Scope} {a : Dev} (h : LiveHeld a d im) (hw : Within S d e) (hi : Part.img ∉ S.parts)
    (ht : Part.tbl ∉ S.parts) (hs : S.has (F.IMG_STATUS_LIVE_SLOT.off % 0x20000000) = false) : LiveHeld a e im where
  load := (congrArg Img.load (hw.1 .img hi)).trans h.load
  valid := (hw.on_eq (f := F.IMG_STATUS_LIVE_VALID) hs).trans h.valid
  image := (slotImage_of_slots (congrArg Img.slots (hw.1 .img hi)) _).trans h.image
  slot := (hw.rd_eq hs).trans h.slot
  places := (congrArg Tbl.places (hw.1 .tbl ht)).trans h.places

theorem loadTold_of_live (h : ld.target = 0) (raw : List Byte) :
    LiveHeld d (d.loadTold ld im raw) im ∧ (d.loadTold ld im raw).mode = d.mode ∧
    ∃ a, Posts d (d.loadTold ld im raw) (a ++ [Ev.IMG_LOAD_DONE]) := by
  obtain ⟨hload, hslot, hlive, -, hposted, hmode⟩ := imageStored_spec d ld im raw
  obtain ⟨⟨hload', hslots⟩, hvalid, hlive', hplaces, hmode'⟩ := liveLoaded_spec (d.imageStored ld im raw) im
  obtain ⟨a, ha⟩ := (Appends.liveLoaded (d.imageStored ld im raw) im).exists_posts
  rw [show d.targetSlot ld.target = d.liveSlot from if_pos h] at hslot
  rw [Posts, hposted] at ha
  rw [Dev.loadTold, imageTaken_of_live h]
  generalize (d.imageStored ld im raw).liveLoaded im = x at hload' hslots hvalid hlive' hplaces hmode' ha ⊢
  exact ⟨⟨hload'.trans hload, hvalid, (slotImage_of_slots hslots _).trans hslot, hlive'.trans hlive, hplaces⟩, hmode'.trans hmode, a,
    Posts.trans (d := d) ha (posts_post x Ev.IMG_LOAD_DONE _)⟩

theorem within_withMode_entersM2 (d : Dev) : Within ⟨[.mode, .posted], [], [F.SEC_BOOT_STATUS_PHASE.off]⟩ d (d.withMode Dev.entersM2) :=
  .withMode (.wr (.setMode .refl rfl) rfl) rfl

theorem withMode_entersM2_spec (h : d.mode = .m1) :
    (d.withMode Dev.entersM2).mode = .m2 ∧ (d.withMode Dev.entersM2).rd F.SEC_BOOT_STATUS_PHASE = 6 := by
  have hw : Within ⟨[.posted], [], []⟩ d.entersM2 (d.withMode Dev.entersM2) := .withMode .refl rfl
  rw [hw.mode_eq (by decide), hw.rd_eq rfl]
  exact ⟨by simp [Dev.entersM2, Dev.setMode, h], Dev.rd_wr_same _ _ _ (by decide)⟩

/-- A live image that passes is held, in M2: it is what M1 waited for. -/
theorem loadPasses_of_live (h : ld.target = 0) (hm : d.mode = .m1 ∨ d.mode = .m2) (raw : List Byte) :
    LiveHeld d (d.loadPasses ld im raw) im ∧ (d.loadPasses ld im raw).mode = .m2 ∧
    (d.mode = .m1 → (d.loadPasses ld im raw).rd F.SEC_BOOT_STATUS_PHASE = 6) ∧
    (d.mode = .m2 → ∃ a, Posts d (d.loadPasses ld im raw) (a ++ [Ev.IMG_LOAD_DONE])) := by
  obtain ⟨hheld, hmode, hposts⟩ := loadTold_of_live (d := d) (im := im) h raw
  rw [loadPasses_eq]
  obtain hm | hm := hm
  · obtain ⟨hm2, hphase⟩ := withMode_entersM2_spec (hmode.trans hm)
    rw [if_pos ⟨h, hmode.trans hm⟩]
    exact ⟨hheld.of_within (within_withMode_entersM2 _) (by decide) (by decide) rfl, hm2, fun _ => hphase,
      fun h2 => by cases hm.symm.trans h2⟩
  · have hm2 := hmode.trans hm
    have hm1 : (d.loadTold ld im raw).mode ≠ .m1 := by rw [hm2]; decide
    rw [if_neg fun hc => hm1 hc.2]
    exact ⟨hheld, hm2, fun h1 => (by cases hm.symm.trans h1), fun _ => hposts⟩

end

end Sys2Proof.Machine
end

