-- ==== Sys2Proof/Proofs/ImageLoadCommands.lean ====
section
/-! PROOF. The entry of Quarantine (R436, R437, R439), and the load whose signature fails; the commands of image loads. -/

namespace Sys2Proof.Machine

section
variable {d : Dev} {t : ℕ} {ld : LoadOp} {im : Image}

/-! ### The entry of Quarantine (R436, R437) -/

/-- The cause of Quarantine told and shown. -/
def Dev.quarantineTold (d : Dev) (cause detail : ℕ) : Dev :=
  ((d.post Ev.SEC_QUARANTINE [(24, 1, cause), (25, 1, detail), (26, 1, d.glbMode)]).wr F.SEC_Q_CAUSE_CAUSE cause).wr
    F.SEC_Q_CAUSE_DETAIL detail

/-- What M11 stops: links, lanes, queues, piers and control pairs. -/
def Dev.quarantineStops (d : Dev) : Dev :=
  let d3 := (((d.allLinksDown 6 0).setLanes 0).requestFlush 4 0xFFFF [(0, 524288)]).clearPiers
  let d4 := d3.each (List.range 4) fun p d => d.wr (F.CTL_PAIR_STATUS_STATE.ix p) 0
  ({ d4 with twn := { d4.twn with pinsHeld := false } }).pinsFollow

theorem quarantine_eq {cause detail : ℕ} (h0 : d.mode ≠ .m0) (h11 : d.mode ≠ .m11) :
    d.quarantine cause detail = Dev.noteMode d ((d.quarantineTold cause detail).setMode .m11).quarantineStops := if_neg (by tauto)

theorem within_quarantineStops (d : Dev) : Within ⟨[.posted, .lpt, .pir, .que, .fab, .twn, .hst], [10, 13],
    [F.DCK_MIR_LOST.off, F.TWN_STATUS_LANES.off]⟩ d d.quarantineStops := by
  unfold Dev.quarantineStops
  exact .pinsFollow (.set_twn (.each (.clearPiers (.requestFlush (.setLanes (.allLinksDown .refl rfl) rfl) rfl) rfl)
    fun _ hp _ he => .wr he (has_ix (List.mem_range.1 hp) rfl)) rfl) rfl

theorem Appends.quarantineStops (d : Dev) : Appends d d.quarantineStops := by
  have hrest : Within ⟨[.lpt, .pir, .que, .twn, .hst], [13], [F.DCK_MIR_LOST.off, F.TWN_STATUS_LANES.off]⟩ (d.allLinksDown 6 0)
      d.quarantineStops := by
    unfold Dev.quarantineStops
    exact .pinsFollow (.set_twn (.each (.clearPiers (.requestFlush (.setLanes .refl rfl) rfl) rfl)
      fun _ hp _ he => .wr he (has_ix (List.mem_range.1 hp) rfl)) rfl) rfl
  exact .within (.allLinksDown .refl) hrest (by decide)

theorem Appends.quarantineTold (d : Dev) (cause detail : ℕ) : Appends d (d.quarantineTold cause detail) :=
  .same (d := d.post Ev.SEC_QUARANTINE [(24, 1, cause), (25, 1, detail), (26, 1, d.glbMode)]) (.post .refl) rfl

theorem within_setMode (d : Dev) (m : Mode) : Within ⟨[.mode], [], []⟩ d (d.setMode m) := .setMode .refl rfl

/-- What Quarantine leaves when it is entered. -/
theorem quarantine_spec (h0 : d.mode ≠ .m0) (h11 : d.mode ≠ .m11) (cause detail : ℕ) : (d.quarantine cause detail).mode = .m11 ∧
    (d.quarantine cause detail).rd F.SEC_Q_CAUSE_CAUSE = cause % 256 ∧ (d.quarantine cause detail).rd F.SEC_Q_CAUSE_DETAIL = detail % 256 ∧
    Appends d (d.quarantine cause detail) := by
  have hstops := within_quarantineStops ((d.quarantineTold cause detail).setMode .m11)
  have hmode := within_setMode (d.quarantineTold cause detail) .m11
  have hset : ((d.quarantineTold cause detail).setMode .m11).mode = .m11 := by
    have h0' : (d.quarantineTold cause detail).mode ≠ .m0 := h0
    have h11' : (d.quarantineTold cause detail).mode ≠ .m11 := h11
    simp [Dev.setMode, h0', h11']
  have htold : (d.quarantineTold cause detail).rd F.SEC_Q_CAUSE_CAUSE = cause % 256 :=
    (Dev.rd_wr_beside _ _ _ _ (by decide) (by decide)).trans (Dev.rd_wr_same _ _ _ (by decide))
  have hnote : Within ⟨[.posted], [], []⟩ ((d.quarantineTold cause detail).setMode .m11).quarantineStops (d.quarantine cause detail) := by
    rw [quarantine_eq h0 h11]
    exact .noteMode .refl rfl
  refine ⟨(hnote.mode_eq (by decide)).trans ((hstops.mode_eq (by decide)).trans hset),
    (hnote.rd_eq rfl).trans ((hstops.rd_eq rfl).trans ((hmode.rd_eq rfl).trans htold)),
    (hnote.rd_eq rfl).trans ((hstops.rd_eq rfl).trans ((hmode.rd_eq rfl).trans (Dev.rd_wr_same _ _ _ (by decide)))), ?_⟩
  rw [quarantine_eq h0 h11]
  exact .noteMode (.trans (.within (.quarantineTold d cause detail) hmode (by decide)) (.quarantineStops _))

theorem within_quarantine (d : Dev) (cause detail : ℕ) : Within ⟨[.mode, .posted, .lpt, .pir, .que, .fab, .twn, .hst], [10, 13, 16],
    [F.DCK_MIR_LOST.off, F.TWN_STATUS_LANES.off]⟩ d (d.quarantine cause detail) := .quarantine .refl rfl

/-! ### A failed signature (R83, R439) -/

/-- Quarantine after a failed signature, with a tamper in its cycle as the first cause. -/
def Dev.signFails (d : Dev) (tamper : Bool) : Dev := if tamper then d.postTamper.quarantine 11 12 else d.quarantine 12

theorem signFails_spec (h0 : d.mode ≠ .m0) (h11 : d.mode ≠ .m11) (tamper : Bool) : (d.signFails tamper).mode = .m11 ∧
    (d.signFails tamper).rd F.SEC_Q_CAUSE_CAUSE = (if tamper then 11 else 12) ∧
    (d.signFails tamper).rd F.SEC_Q_CAUSE_DETAIL = (if tamper then 12 else 0) ∧ Appends d (d.signFails tamper) ∧
    (d.signFails tamper).img = d.img ∧ (d.signFails tamper).sec = d.sec := by
  cases tamper with
  | false =>
    have hw := within_quarantine d 12 0
    obtain ⟨hmode, hcause, hdetail, happ⟩ := quarantine_spec h0 h11 12 0
    exact ⟨hmode, hcause, hdetail, happ, hw.1 .img (by decide), hw.1 .sec (by decide)⟩
  | true =>
    have hw := within_quarantine d.postTamper 11 12
    obtain ⟨hmode, hcause, hdetail, happ⟩ := quarantine_spec (d := d.postTamper) h0 h11 11 12
    exact ⟨hmode, hcause, hdetail, .trans (.post .refl) happ, hw.1 .img (by decide), hw.1 .sec (by decide)⟩

theorem unsigned_spec (d : Dev) (ld : LoadOp) (im : Image) (why : ℕ) : (d.unsigned ld im why).img.load = none ∧
    (d.unsigned ld im why).mode = d.mode ∧ (d.unsigned ld im why).sec.imgFailed = some ⟨ld.target, im.svn, im.compatId, im.digest⟩ ∧
    Posts d (d.unsigned ld im why) [Ev.IMG_SIG_FAIL] := by
  have hw := within_loadOver d ld.target 6
  obtain ⟨himg, -⟩ := loadOver_spec d ld.target 6
  refine ⟨congrArg Img.load himg, hw.mode_eq (by decide), rfl, ?_⟩
  rw [Posts, show d.posted = _ from (hw.1 .posted (by decide)).symm]
  exact posts_post (d.loadOver ld.target 6) Ev.IMG_SIG_FAIL _

/-- A load whose signature fails, from the device that has measured its image. -/
theorem unsigned_signFails_spec (h0 : d.mode ≠ .m0) (h11 : d.mode ≠ .m11) (ld : LoadOp) (im : Image) (why : ℕ) (tamper : Bool) :
    ((d.unsigned ld im why).signFails tamper).img.load = none ∧ ((d.unsigned ld im why).signFails tamper).mode = .m11 ∧
    ((d.unsigned ld im why).signFails tamper).rd F.SEC_Q_CAUSE_CAUSE = (if tamper then 11 else 12) ∧
    ((d.unsigned ld im why).signFails tamper).rd F.SEC_Q_CAUSE_DETAIL = (if tamper then 12 else 0) ∧
    ((d.unsigned ld im why).signFails tamper).sec.imgFailed = some ⟨ld.target, im.svn, im.compatId, im.digest⟩ ∧
    ∃ e, Posts d ((d.unsigned ld im why).signFails tamper) (Ev.IMG_SIG_FAIL :: e) := by
  obtain ⟨hload, hm, hfailed, hposts⟩ := unsigned_spec d ld im why
  obtain ⟨hmode, hcause, hdetail, happ, himg, hsec⟩ := signFails_spec (hm.trans_ne h0) (hm.trans_ne h11) tamper
  obtain ⟨e, he⟩ := happ.exists_posts
  exact ⟨(congrArg Img.load himg).trans hload, hmode, hcause, hdetail, (congrArg Sec.imgFailed hsec).trans hfailed, e, hposts.trans he⟩

/-! ### The end of a load, by what meets it -/

section
variable {l : List Byte} {tamper : Bool} (hld : d.img.load = some ld)
include hld

theorem imgLoadEnd_dma_ends : LoadEnds d (imgLoadEnd none tamper d) ld LoadCause.dma 6 ((d.runningAt 1 0).map fun _ => Ev.DGN_CU_DONE) := by
  rw [imgLoadEnd_of_dma hld]
  exact loadStops_ends hld LoadCause.dma 6

/-- A check unit that measures the image and mismatches ends the load. -/
theorem imgLoadEnd_stop_ends (hstop : (d.streamEnds 1 0 (some (ld.image l))).1 = true) :
    ∃ a, LoadEnds d (imgLoadEnd (some l) tamper d) ld LoadCause.checkUnit 6 a := by
  obtain ⟨a, ha⟩ := exists_posts_measured d (ld.image l)
  rw [imgLoadEnd_of_stop hld hstop]
  exact ⟨_, (loadStops_ends (load_measured hld) LoadCause.checkUnit 6).after ha⟩

section
variable (hstop : (d.streamEnds 1 0 (some (ld.image l))).1 = false)
include hstop

theorem imgLoadEnd_failed_ends {f : LoadFail} (hcheck : d.checked ld (ld.image l) = .inl f) :
    ∃ a, LoadEnds d (imgLoadEnd (some l) tamper d) ld f.cause 6 a := by
  obtain ⟨a, ha⟩ := exists_posts_measured d (ld.image l)
  rw [imgLoadEnd_of_measured hld hstop, hcheck]
  exact ⟨_, (loadFails_ends (load_measured hld) f.cause f.section_ f.ofs 6).after ha⟩

theorem imgLoadEnd_of_passed (hcheck : d.checked ld (ld.image l) = .inr im) (hsig : d.signCause ld (ld.image l) im = 0) :
    imgLoadEnd (some l) tamper d = (d.measured (ld.image l)).loadPasses ld im (ld.image l) := by
  rw [imgLoadEnd_of_measured hld hstop, hcheck]
  exact if_pos hsig

theorem imgLoadEnd_of_unsigned (hcheck : d.checked ld (ld.image l) = .inr im) (hsig : d.signCause ld (ld.image l) im ≠ 0) :
    imgLoadEnd (some l) tamper d =
      ((d.measured (ld.image l)).unsigned ld im (d.signCause ld (ld.image l) im)).signFails tamper := by
  rw [imgLoadEnd_of_measured hld hstop, hcheck]
  exact if_neg hsig

theorem imgLoadEnd_staged_spec (ht : ld.target = 1) (hcheck : d.checked ld (ld.image l) = .inr im)
    (hsig : d.signCause ld (ld.image l) im = 0) : (imgLoadEnd (some l) tamper d).img.load = none ∧
    (imgLoadEnd (some l) tamper d).staged = 3 ∧ (imgLoadEnd (some l) tamper d).slotImage (1 - d.liveSlot) = some im ∧
    ∃ a, Posts d (imgLoadEnd (some l) tamper d) (a ++ [Ev.IMG_LOAD_DONE]) := by
  obtain ⟨a, ha⟩ := exists_posts_measured d (ld.image l)
  obtain ⟨hload, hstaged, himage, hposts⟩ := loadPasses_of_staged (d := d.measured (ld.image l)) (im := im) ht (ld.image l)
  have hslot : (d.measured (ld.image l)).liveSlot = d.liveSlot := (within_measured d _).rd_eq rfl
  rw [hslot] at himage
  rw [imgLoadEnd_of_passed hld hstop hcheck hsig]
  exact ⟨hload, hstaged, himage, a, ha.trans hposts⟩

theorem imgLoadEnd_live_spec (ht : ld.target = 0) (hmode : d.mode = .m1 ∨ d.mode = .m2)
    (hcheck : d.checked ld (ld.image l) = .inr im) (hsig : d.signCause ld (ld.image l) im = 0) :
    LiveHeld d (imgLoadEnd (some l) tamper d) im ∧ (imgLoadEnd (some l) tamper d).mode = .m2 ∧
    (d.mode = .m1 → (imgLoadEnd (some l) tamper d).rd F.SEC_BOOT_STATUS_PHASE = 6) ∧
    (d.mode = .m2 → ∃ a, Posts d (imgLoadEnd (some l) tamper d) (a ++ [Ev.IMG_LOAD_DONE])) := by
  obtain ⟨a, ha⟩ := exists_posts_measured d (ld.image l)
  have hm : (d.measured (ld.image l)).mode = d.mode := (within_measured d _).mode_eq (by decide)
  have hslot : (d.measured (ld.image l)).liveSlot = d.liveSlot := (within_measured d _).rd_eq rfl
  have hpasses := loadPasses_of_live (d := d.measured (ld.image l)) (im := im) ht (hm ▸ hmode) (ld.image l)
  rw [hm] at hpasses
  rw [imgLoadEnd_of_passed hld hstop hcheck hsig]
  obtain ⟨⟨hload, hvalid, himage, hlive, hplaces⟩, hm2, hphase, hposts⟩ := hpasses
  rw [hslot] at himage hlive
  refine ⟨⟨hload, hvalid, himage, hlive, hplaces⟩, hm2, hphase, fun h2 => ?_⟩
  obtain ⟨b, hb⟩ := hposts h2
  exact ⟨a ++ b, by rw [List.append_assoc]; exact ha.trans hb⟩

theorem imgLoadEnd_unsigned_spec (h0 : d.mode ≠ .m0) (h11 : d.mode ≠ .m11) (hcheck : d.checked ld (ld.image l) = .inr im)
    (hsig : d.signCause ld (ld.image l) im ≠ 0) : (imgLoadEnd (some l) tamper d).img.load = none ∧
    (imgLoadEnd (some l) tamper d).mode = .m11 ∧
    (imgLoadEnd (some l) tamper d).rd F.SEC_Q_CAUSE_CAUSE = (if tamper then 11 else 12) ∧
    (imgLoadEnd (some l) tamper d).rd F.SEC_Q_CAUSE_DETAIL = (if tamper then 12 else 0) ∧
    (imgLoadEnd (some l) tamper d).sec.imgFailed = some ⟨ld.target, im.svn, im.compatId, im.digest⟩ ∧
    ∃ a e, Posts d (imgLoadEnd (some l) tamper d) (a ++ Ev.IMG_SIG_FAIL :: e) := by
  obtain ⟨a, ha⟩ := exists_posts_measured d (ld.image l)
  have hm : (d.measured (ld.image l)).mode = d.mode := (within_measured d _).mode_eq (by decide)
  obtain ⟨hload, hmode, hcause, hdetail, hfailed, e, he⟩ := unsigned_signFails_spec (hm.trans_ne h0) (hm.trans_ne h11) ld im
    (d.signCause ld (ld.image l) im) tamper
  rw [imgLoadEnd_of_unsigned hld hstop hcheck hsig]
  exact ⟨hload, hmode, hcause, hdetail, hfailed, a, e, ha.trans he⟩

end

end

theorem imgLoadAbort_ends (hld : d.img.load = some ld) :
    LoadEnds d (imgLoadAbort d) ld LoadCause.aborted 0 ((d.runningAt 1 0).map fun _ => Ev.DGN_CU_DONE) :=
  loadStops_ends hld LoadCause.aborted 0

theorem imgLoadStart_refused_spec (h : d.loadBar t ≠ 0) (m : ℕ) :
    (imgLoadStart m t d).img = d.img ∧ Posts d (imgLoadStart m t d) [Ev.IMG_LOAD_REFUSED] := by
  rw [imgLoadStart_of_refused h]
  exact ⟨rfl, posts_post d Ev.IMG_LOAD_REFUSED _⟩

end

/-- Settles O5: a start by what bars it, a load by what ends it. -/
theorem imageLoadCommandsComplete : Obligations.ImageLoadCommandsComplete := by
  unfold Obligations.ImageLoadCommandsComplete
  refine ⟨fun s m t hw hbar => .of_onReg rfl hw ?start,
    fun s m t hw hbar => .of_onReg rfl hw (imgLoadStart_refused_spec (d := s.dev.noAbort) hbar m.val),
    fun s m ld hw hld => .of_onReg rfl hw ?abort, fun s ld hld tamper => .of_exec rfl ?dma,
    fun s ld l hld hstop tamper => .of_exec rfl ?checkUnit, fun s ld l f hld hstop hcheck tamper => .of_exec rfl ?failed,
    fun s ld l im hld ht hstop hcheck hsig tamper => .of_exec rfl (imgLoadEnd_staged_spec hld hstop ht hcheck hsig),
    fun s ld l im hld ht hmode hstop hcheck hsig tamper => .of_exec rfl ?live,
    fun s ld l im hld h0 h11 hstop hcheck hsig tamper => .of_exec rfl (imgLoadEnd_unsigned_spec hld hstop h0 h11 hcheck hsig)⟩
  case start =>
    obtain ⟨hload, hbusy, hvalid, hstaged⟩ := imgLoadStart_spec (d := s.dev.noAbort) (m := m.val) hbar
    exact ⟨hload, hbusy, fun h0 => hvalid (congrArg BitVec.toNat h0), fun h0 => hstaged fun h => h0 (BitVec.eq_of_toNat_eq h)⟩
  case abort =>
    obtain ⟨hload, hbusy, hcause, hstaged, hposts⟩ := imgLoadAbort_ends (d := s.dev.noAbort) hld
    exact ⟨hload, hbusy, hcause, hstaged, hposts⟩
  case dma =>
    obtain ⟨hload, hbusy, hcause, hstaged, hposts⟩ := imgLoadEnd_dma_ends (tamper := tamper) hld
    exact ⟨hload, hbusy, hcause, hstaged, hposts⟩
  case checkUnit =>
    obtain ⟨a, hload, -, hcause, hstaged, hposts⟩ := imgLoadEnd_stop_ends (tamper := tamper) hld hstop
    exact ⟨hload, hcause, hstaged, _, hposts⟩
  case failed =>
    obtain ⟨a, hload, -, hcause, hstaged, hposts⟩ := imgLoadEnd_failed_ends (tamper := tamper) hld hstop hcheck
    exact ⟨hload, hcause, hstaged, _, hposts⟩
  case live =>
    obtain ⟨⟨hload, hvalid, himage, hslot, hplaces⟩, hm2, hphase, hposts⟩ :=
      imgLoadEnd_live_spec (tamper := tamper) hld hstop ht hmode hcheck hsig
    exact ⟨hload, hm2, hvalid, himage, hslot, hplaces, hphase, hposts⟩

end Sys2Proof.Machine
end
